-- ==== Sys2Proof/Word.lean ====
section
/-! DEFINITION. The word types of the Thrumeg (04 R55): bytes, 32-bit words, 64-bit pairs. -/

namespace Sys2Proof

/-- One byte of memory. -/
abbrev Byte := BitVec 8

/-- One 32-bit register word (04 R55). -/
abbrev Word := BitVec 32

/-- A 64-bit value: a register pair or a doubleword in memory (04 R55). -/
abbrev DWord := BitVec 64

/-- A significance tag (02 R21). -/
abbrev SigTag := BitVec 6

end Sys2Proof
end

