-- ==== Sys2Proof/Syntax.lean ====
section
/-! DEFINITION. Every row of the opcode table as one constructor of `Instr`: the 297 encoded words with the fields of
their format (03 R37), and the 94 events of the device with what they act on (95). -/

namespace Sys2Proof

/-- Format V3 (03 R37). -/
structure V3 where
  c : BitVec 1
  w : BitVec 1
  d : BitVec 7
  a : BitVec 7
  b : BitVec 7
  deriving DecidableEq, Repr

/-- Format VI (03 R37). -/
structure VI where
  c : BitVec 1
  w : BitVec 1
  d : BitVec 7
  a : BitVec 7
  i : BitVec 7
  deriving DecidableEq, Repr

/-- Format P (03 R37). -/
structure P3 where
  c : BitVec 1
  pd : BitVec 4
  pa : BitVec 4
  a : BitVec 7
  b : BitVec 7
  deriving DecidableEq, Repr

/-- Format S without its FN field (03 R37, R52). -/
structure SF where
  c : BitVec 1
  d : BitVec 6
  a : BitVec 6
  b : BitVec 6
  deriving DecidableEq, Repr

/-- Format SI (03 R37). -/
structure SI where
  c : BitVec 1
  d : BitVec 6
  a : BitVec 6
  i : BitVec 10
  deriving DecidableEq, Repr

/-- Format X (03 R37). -/
structure XF where
  c : BitVec 1
  v : BitVec 7
  s : BitVec 6
  k : BitVec 12
  deriving DecidableEq, Repr

/-- Format M (03 R37, R43). -/
structure MF where
  c : BitVec 1
  t : BitVec 7
  a : BitVec 7
  sb : BitVec 6
  ord : BitVec 2
  sco : BitVec 3
  deriving DecidableEq, Repr

/-- Format AT without OP and without the order, which the major gives (03 R37, R43). -/
structure AT where
  c : BitVec 1
  t : BitVec 7
  a : BitVec 7
  sb : BitVec 6
  deriving DecidableEq, Repr

/-- Format B (03 R37, R44). -/
structure BF where
  pg : BitVec 4
  n : BitVec 1
  off : BitVec 19
  deriving DecidableEq, Repr

/-- What the error correction found (12 R243, R244): in the data of the request performed, or, with any request, elsewhere. -/
inductive Ecc where
  | clean
  | corrected
  | uncorrectable
  /-- One corrected in any store of the device. -/
  | correctedIn
  /-- A word of memory, by address / 4, that cannot be corrected: what reads it finds out. -/
  | memoryLost (word : Nat)
  /-- A word of a crew's scratchpad that cannot be corrected. -/
  | scratchLost (crew word : Nat)
  /-- Data that are lost where they stand: the compartment, and UNIT, WHERE and PA of the record (12 R245). -/
  | dataLost (comp unit where' pa : Nat)
  deriving DecidableEq, Repr

/-- An announcement of a proposal on the bell plane (08 R169, 16 R285). -/
structure Announcement where
  id : BitVec 32
  group : Nat
  key : BitVec 32
  value : BitVec 32
  target : Nat
  close : Nat
  fromCoach : Nat
  fromCore : Nat
  deriving DecidableEq, Repr

/-- An objection to a proposal (08 R173), or the automatic one of a full inbox (16 R287). -/
structure Objection where
  id : BitVec 32
  group : Nat
  unheard : Bool
  team : Nat
  deriving DecidableEq, Repr

/-- A change of one rank of a group (08 R174): a member placed, or the rank vacated. -/
structure Membership where
  group : Nat
  rank : Nat
  member : Option (BitVec 32)
  team : Nat
  /-- It takes effect now; it has been requested before. -/
  effective : Bool := false
  deriving DecidableEq, Repr

/-- A posted write or reduction from a peer (21 R317, R320). -/
structure RemoteWrite where
  stream : Nat
  coach : Nat
  owner : Nat
  seq : Nat
  addr : Nat
  mask : BitVec 64
  data : List (BitVec 8)
  red : Option Nat
  deriving DecidableEq, Repr

/-- A read or atomic request from a peer (21 R317): `op` is the OP code of an atomic with its operand words. -/
structure RemoteRead where
  stream : Nat
  coach : Nat
  owner : Nat
  tag : Nat
  addr : Nat
  size : Nat
  op : Option (Nat × List (BitVec 32))
  deriving DecidableEq, Repr

/-- How a read or atomic request ended at its target (21 R317, R321, R322). -/
inductive ReplyStatus where
  | ok
  | access
  | dataUncorr
  | unreachable
  deriving DecidableEq, Repr

/-- Why a target refused a message (21 R320, R322). -/
inductive RefuseReason where
  | full
  | access
  deriving DecidableEq, Repr

/-- What a refusal names: the sequence of a write, or the tag of a request (21 R317). -/
inductive Refused where
  | seq (q : Nat)
  | tag (t : Nat)
  deriving DecidableEq, Repr

/-- A message carried by a flit (21 R317) or by the bell lane (16 R285). -/
inductive FabMsg where
  | write (m : RemoteWrite)
  | read (m : RemoteRead)
  | reply (tag : Nat) (status : ReplyStatus) (data : List (BitVec 8))
  | ack (stream coach below : Nat)
  | refusal (stream coach : Nat) (what : Refused) (reason : RefuseReason)
  | retire (stream coach : Nat)
  deriving DecidableEq, Repr

/-- A flit as received or sent (21 R315): `crcOk` is the outcome of its CRC after correction, `dest` the coach it is for, `credit`
the counts of CREDIT, by class: the sub-links, and 4 for the relay class. -/
structure Flit where
  lseq : BitVec 12
  kind : BitVec 4
  sub : BitVec 2
  relay : Bool
  crcOk : Bool
  dest : Nat
  msgs : List FabMsg
  credit : List Nat := []
  deriving DecidableEq, Repr

/-- What a Postmaster service leaves: s0 to s3 and the bytes it wrote through the team's context (07 R140). -/
structure ServiceResult where
  s0 : BitVec 32
  s1 : BitVec 32
  s2 : BitVec 32
  s3 : BitVec 32
  writes : List (Nat × List (BitVec 8))
  deriving DecidableEq, Repr

/-- A host access through VF BAR 2 (21 R325). -/
inductive Bar2Access where
  | read (addr len : Nat)
  | write (addr : Nat) (data : List (BitVec 8))
  deriving DecidableEq, Repr

/-- What level-2 software, which runs on the Postmaster's cores alone (02 R31), does to a compartment by the level-2 forms of MTC,
TLBI and HARVEST (02 R30, 07 R137, 12 R242). -/
inductive Level2 where
  /-- MTC of 0x300 + reg: the heap window. -/
  | heap (comp reg : Nat)
  /-- TLBI of kind 2 or 3. -/
  | tlbi (kind : Nat)
  /-- HARVEST of intermediate pages. -/
  | harvest (pages : Nat)
  deriving DecidableEq, Repr

/-- What a register write from outside the cores names (21 R325, R326, 22 R332, R339, 12 R233, 21 R322), what level 2 does besides,
and a recording breakpoint of gusdb (14 R261) set or cleared at an address for a team. -/
inductive RegTarget where
  | dev (off : Nat)
  | vf (comp off : Nat)
  | vfConfig (comp reg : Nat)
  | desc (comp off : Nat)
  | xlate (comp off : Nat)
  | exportBase (comp idx : Nat)
  | exportLimit (comp idx : Nat)
  | level2 (a : Level2)
  | rbreak (comp team : Nat) (on : Bool)
  deriving DecidableEq, Repr

/-- A compartment descriptor's fields (22 R332). -/
structure Descriptor where
  state : Nat
  op : Nat
  result : Nat
  flags : BitVec 8
  clusters : BitVec 16
  tenancy : Nat
  xlate : Nat
  resv : Nat
  resvsz : Nat
  trace : Nat
  tracesz : Nat
  power : Nat
  memshare : Nat
  keyid : Nat
  polkey : Nat
  reservedZero : Bool
  deriving DecidableEq, Repr

/-- An SPDM request at the SCE's mailbox (22 R336): session, slot, two parameters and the body. -/
structure Spdm where
  session : Nat
  slot : Nat
  p1 : Nat
  p2 : Nat
  body : List (BitVec 8)
  deriving DecidableEq, Repr

/-- The steps of the device: one constructor per row of the opcode table. The events stand first, so that a compiled
model can build them: the compiler cannot build a constructor with fields beyond the 245th. -/
inductive Instr where
  /-- R267: A bench gives its next stint to the ready team chosen by age, PRIO.LEVEL and recency. -/
  | stintStart (bench : Nat) (team : Nat)
  /-- R351: The fetch unit fetches and translates the next word of a frontier entry, writing a fault record on a miss. -/
  | instructionFetch (team : Nat) (pc : Nat)
  /-- R277: Once older instructions complete, the frame is written and the team enters its handler at level 1. -/
  | trapDelivery (team : Nat)
  /-- R269: The core writes a phase record for a fully parked team and frees its rows and slot. -/
  | teamEviction (team : Nat)
  /-- R265: A waiting crew is placed whole on the lowest allowed core with room. -/
  | crewPlacement (crew : Nat)
  /-- R129: A partial spawn bin's timer expires and the bin launches a team with missing lanes clear. -/
  | binTimerExpiry (core : Nat) (bin : Nat)
  /-- R270: The Postmaster moves a parked crew to another core, leaving a forwarding entry. -/
  | crewMigration (crew : Nat) (core : Nat)
  /-- R271: Every 65,536 deck memory cycles the arbiter moves one 25 MHz step between cores. -/
  | steeringInterval (comp : Nat)
  /-- R272: DRAIN microseconds before a slice ends the Postmaster sends a stop request to the context. -/
  | stopRequest (comp : Nat) (sliceEnd : Nat)
  /-- R272: A team that has not parked within 4,096 cycles of the stop request is force-saved. -/
  | graceExpiry (team : Nat)
  /-- R273: DEFER cycles after the request every unparked team of a deferred crew is force-saved. -/
  | deferralExpiry (crew : Nat)
  /-- R275: Once every team is parked, saved or ended and R224 holds, the save report reaches the Postmaster. -/
  | saveReport (comp : Nat)
  /-- R276: The Postmaster halts the outgoing compartment in place and lets the incoming one claim state. -/
  | tenantSwitch (outgoing : Nat) (incoming : Nat)
  /-- R248: A queue head's timer reaches its bound and the head is bounced with its followers. -/
  | queueBounce (req : Nat)
  /-- R250: A bounced entry arrives on the response class and enters its team slot's pannier. -/
  | bounceArrival (req : Nat)
  /-- R256: 2,048 cycles after a CONGEST, RING, PUB or PEER bounce the entry becomes ready. -/
  | reissueBackoffExpiry (req : Nat)
  /-- R256: A ready pannier entry reissues in AGE order to the tail of its queue. -/
  | pannierReissue (req : Nat)
  /-- R234: A walker completes a two-stage walk, setting AC and DT or ending as a miss. -/
  | translationWalk (req : Nat)
  /-- R259: Every 65,536 deck memory cycles a staged fault record write that failed is tried again. -/
  | faultRecordRetry (comp : Nat) (region : Nat)
  /-- R200: A load, store or atomic is performed at its coherence point and its result returns. -/
  | memoryRequestPerformed (req : Nat) (ecc : Ecc)
  /-- R213: An L1's registration of a newly dirty word arrives at the word's home. -/
  | ownershipRegistration (core : Nat) (word : Nat)
  /-- R213: A write-back arrives at the home and its words are performed or discarded. -/
  | writeBack (core : Nat) (line : Nat)
  /-- R205: A dirty line is written back at the latest 65,536 cycles after it became dirty. -/
  | writebackTimeLimit (core : Nat) (line : Nat)
  /-- R162: WAITC's TIMEOUT cycles pass and it wakes with status 1. -/
  | waitcTimeout (team : Nat) (pc : Nat)
  /-- R165: A SLEEP's cycles pass and its entry becomes ready. -/
  | sleepExpiry (team : Nat) (pc : Nat)
  /-- R127: The holding core's CLK reaches a PROMW deadline with the barrier armed, waking with status 3. -/
  | promwDeadline (team : Nat) (pc : Nat)
  /-- R297: A free matrix engine grants the eligible entry of highest effective priority. -/
  | matrixGrant (cluster : Nat)
  /-- R298: A matrix operation writes C and its row tags, releases locks, arrives and wakes MMAW. -/
  | matrixCompletion (cluster : Nat)
  /-- R301: The last of four engines grants a complete four-in-hand set. -/
  | fourInHandGrant (hitch : Nat) (comp : Nat) (opid : Nat)
  /-- R301: All four members of a four-in-hand complete in one cycle. -/
  | fourInHandCompletion (hitch : Nat)
  /-- R302: An uncorrectable harness error is handled as a tile read error. -/
  | harnessError (hitch : Nat)
  /-- R303: A copy command takes its range locks and its promise is computed. -/
  | copyAccept (cmd : Nat)
  /-- R303: A free copy engine starts the oldest accepted command that can start. -/
  | copyStart (cmd : Nat)
  /-- R308: A copy element faults and the command stops at an iteration boundary with a fault record. -/
  | copyFault (cmd : Nat)
  /-- R307: A copy command completes, releases its locks and arrives at its barrier. -/
  | copyCompletion (cmd : Nat)
  /-- R287: An announcement arrives at a member and enters its inbox or is answered UNHEARD. -/
  | claimAnnouncement (core : Nat) (a : Announcement)
  /-- R286: An objection arrives at the announcer and counts if before the closing beat. -/
  | objectionArrival (core : Nat) (o : Objection)
  /-- R173: The announcer's answer reaches an OBJECT, which wakes or raises CLAIM_LATE. -/
  | objectionAnswer (team : Nat) (proposal : BitVec 32) (late : Bool)
  /-- R170: A proposal's window closes and it resolves to its outcome. -/
  | claimWindowClose (core : Nat) (handle : Nat)
  /-- R174: A pending CLJOIN or CLLEAVE takes effect once no proposal of the group is open. -/
  | membershipUpdate (comp : Nat) (u : Membership)
  /-- R294: Every 65,536 deck memory cycles the Postmaster reads tickets spent on other coaches. -/
  | ticketPoll (comp : Nat) (region : Nat)
  /-- R313: A write to TRAINCFG sets coach number and size and enables link training. -/
  | traincfg (v : BitVec 32)
  /-- R316: A write to LINKCFG splits a link and assigns sub-link owners when queues are empty. -/
  | linkcfg (link : Nat) (v : BitVec 32)
  /-- R249: A write to a BOUND register sets a queue kind's bound, clamped to 64 to 4,096. -/
  | bound (deck : Nat) (kind : Nat) (v : BitVec 32)
  /-- R309: A write to ENGERR clears the sticky engine flags it names. -/
  | engerr (cluster : Nat) (v : BitVec 32)
  /-- R314: Link management declares a link down, changing SPAN, relays and claim tests. -/
  | linkDown (link : Nat)
  /-- R314: Link management declares a link up after training succeeds. -/
  | linkUp (link : Nat)
  /-- R314: Every 1 ms a down link attempts training. -/
  | linkRetrain (link : Nat)
  /-- R315: A flit arrives on a link and is delivered in LSEQ order if its CRC passes. -/
  | flit (link : Nat) (f : Flit)
  /-- R315: A retry request makes the sender resend flits from the failing one onward. -/
  | retryRequest (link : Nat) (lseq : Nat)
  /-- R320: A posted write or reduction arrives and is performed once or discarded as duplicate. -/
  | postedWrite (m : RemoteWrite)
  /-- R317: A remote read or atomic request arrives and is performed in exported memory. -/
  | readRequest (m : RemoteRead)
  /-- R323: A read or atomic reply arrives and wakes the parked team at its last reply. -/
  | remoteLoadReply (tag : Nat) (status : ReplyStatus) (data : List (BitVec 8))
  /-- R320: An acknowledgement arrives and retires outstanding remote stores of a stream. -/
  | acknowledgement (stream : Nat) (coach : Nat) (below : Nat)
  /-- R322: A refusal arrives and the source reports ACCESS, loss, or a PEER bounce. -/
  | refusal (stream : Nat) (coach : Nat) (what : Refused) (reason : RefuseReason)
  /-- R320: A retire from the source releases a stream's deduplication entry. -/
  | streamRetire (stream : Nat) (coach : Nat)
  /-- R321: After 65,536 cycles without a route a coach is unreachable and its writes are lost. -/
  | unreachable (coach : Nat)
  /-- R328: A host write to DOORBELL gives the producer index of the launch queue. -/
  | doorbell (comp : Nat) (tail : BitVec 32)
  /-- R328: The Postmaster consumes a launch record, checks it and the code object, and builds the root region. -/
  | launchRecord (comp : Nat)
  /-- R331: The Postmaster launches a team from a compartment's message queue. -/
  | messageLaunch (comp : Nat)
  /-- R140: A level-2 service ends and the Postmaster writes s0 to s3 and resumes the entry. -/
  | scallServiceReturn (team : Nat) (r : ServiceResult)
  /-- R325: A host access through a VF's BAR 2 reaches compartment memory through its second stage. -/
  | hostBar2Access (comp : Nat) (a : Bar2Access)
  /-- R245: A write to HEQCONS frees room for staged hypervisor error records. -/
  | heqcons (v : BitVec 32)
  /-- R325: A write to a device or VF register with no row of its own, discarded where illegal. -/
  | registerWrite (t : RegTarget) (v : BitVec 64)
  /-- R333: Descriptor operation creating a compartment and loading a new key. -/
  | create (comp : Nat) (d : Descriptor)
  /-- R335: Descriptor operation adding or removing clusters of a compartment. -/
  | resize (comp : Nat) (clusters : BitVec 16)
  /-- R333: Descriptor operation resetting and freeing a compartment. -/
  | destroy (comp : Nat)
  /-- R333: Descriptor operation stopping every context of a compartment. -/
  | stop (comp : Nat)
  /-- R333: Descriptor operation starting a compartment and serving its launch queue. -/
  | start (comp : Nat)
  /-- R336: SPDM request answered by the SCE. -/
  | getVersion (m : Spdm)
  /-- R336: SPDM request answered by the SCE. -/
  | getCapabilities (m : Spdm)
  /-- R336: SPDM request selecting SM2, SM3 and the session AEAD. -/
  | negotiateAlgorithms (m : Spdm)
  /-- R336: SPDM request for certificate digests. -/
  | getDigests (m : Spdm)
  /-- R336: SPDM request for a certificate slot. -/
  | getCertificate (m : Spdm)
  /-- R336: SPDM challenge signed with the alias key. -/
  | challenge (m : Spdm)
  /-- R337: SPDM request returning the measurement blocks. -/
  | getMeasurements (m : Spdm)
  /-- R336: SPDM SM2 ephemeral key exchange. -/
  | keyExchange (m : Spdm)
  /-- R336: SPDM request finishing session setup. -/
  | finish (m : Spdm)
  /-- R336: SPDM session heartbeat. -/
  | heartbeat (m : Spdm)
  /-- R336: SPDM session key update. -/
  | keyUpdate (m : Spdm)
  /-- R338: Ends an SPDM session, sending a tenant's locked interface to ERROR. -/
  | endSession (m : Spdm)
  /-- R336: SPDM vendor request carrying TDISP and IDE key management. -/
  | vendorDefinedRequest (m : Spdm)
  /-- R338: TDISP request freezing a VF's configuration and measuring its descriptor. -/
  | lockInterfaceRequest (comp : Nat) (session : Nat)
  /-- R338: TDISP request moving a locked interface to RUN. -/
  | startInterfaceRequest (comp : Nat) (session : Nat)
  /-- R338: TDISP request returning the interface to CONFIG_UNLOCKED with a reset. -/
  | stopInterfaceRequest (comp : Nat) (session : Nat)
  /-- R340: TDISP request returning the interface report. -/
  | getDeviceInterfaceReport (comp : Nat) (session : Nat)
  /-- R338: An IDE integrity failure on a VF's stream sends the interface to ERROR. -/
  | ideIntegrityFailure (comp : Nat)
  /-- R342: The SCE checks a signed policy object and opens the rights it grants. -/
  | policyObject (comp : Nat) (obj : List (BitVec 8))
  /-- R346: A function-level reset stops a compartment and drains its requests. -/
  | flr (comp : Nat)
  /-- R346: After the drain the reset scrubs, replaces the key, resets registers and writes the reset record. -/
  | resetCompletion (comp : Nat)
  /-- R347: A deck's measured current exceeds its share and non-strict clocks are lowered. -/
  | powerLimit (deck : Nat) (cores : BitVec 64)
  /-- R347: The package reaches its thermal trip and strict compartments are lowered with records. -/
  | thermalTrip
  /-- R348: Power is applied and the boot ROM, SCE and Postmaster bring the device up. -/
  | powerOn
  /-- R320: A stream whose outstanding count has reached zero stays idle for 2^20 deck memory cycles, and its source sends a retire for the target's deduplication entry. -/
  | streamIdleExpiry (stream : Nat)
  /-- R77: Adds a and b modulo 2^32 in each active lane. -/
  | iadd (x : V3)
  /-- R77: Subtracts b from a modulo 2^32 in each active lane. -/
  | isub (x : V3)
  /-- R77: Writes bits [31:0] of a times b. -/
  | imul (x : V3)
  /-- R77: Writes bits [63:32] of the signed 64-bit product. -/
  | imulhI (x : V3)
  /-- R77: Writes bits [63:32] of the unsigned 64-bit product. -/
  | imulhN (x : V3)
  /-- R77: Writes a times b plus the old destination, modulo 2^32. -/
  | imad (x : V3)
  /-- R77: Writes the absolute signed difference of a and b as an unsigned value. -/
  | iabsdI (x : V3)
  /-- R77: Adds the unsigned absolute difference of a and b to the old destination. -/
  | isadN (x : V3)
  /-- R78: Writes the signed minimum of a and b. -/
  | iminI (x : V3)
  /-- R78: Writes the signed maximum of a and b. -/
  | imaxI (x : V3)
  /-- R78: Writes the unsigned minimum of a and b. -/
  | iminN (x : V3)
  /-- R78: Writes the unsigned maximum of a and b. -/
  | imaxN (x : V3)
  /-- R78: Adds a and b with signed saturation. -/
  | iaddsI (x : V3)
  /-- R78: Subtracts b from a with signed saturation. -/
  | isubsI (x : V3)
  /-- R78: Adds a and b with unsigned saturation. -/
  | iaddsN (x : V3)
  /-- R78: Subtracts b from a with unsigned saturation. -/
  | isubsN (x : V3)
  /-- R79: Bitwise AND of a and b. -/
  | and (x : V3)
  /-- R79: Bitwise OR of a and b. -/
  | or (x : V3)
  /-- R79: Bitwise exclusive OR of a and b. -/
  | xor (x : V3)
  /-- R79: Writes a AND NOT b. -/
  | andn (x : V3)
  /-- R79: Writes a OR NOT b. -/
  | orn (x : V3)
  /-- R79: Shifts a left by b[7:0], giving 0 at 32 or more. -/
  | shl (x : V3)
  /-- R79: Shifts a right with zero fill by b[7:0]. -/
  | shr (x : V3)
  /-- R79: Shifts a right with sign fill by b[7:0]. -/
  | sar (x : V3)
  /-- R80: Rotates a left by b[4:0]. -/
  | rotl (x : V3)
  /-- R80: Extracts a sign-extended bit field of a under field control b. -/
  | bfxI (x : V3)
  /-- R80: Extracts a zero-extended bit field of a under field control b. -/
  | bfxN (x : V3)
  /-- R80: Inserts the low bits of a into a field of the old destination. -/
  | bfi (x : V3)
  /-- R80: Builds each result byte by selecting from a and the old destination with a fill mode. -/
  | prmb (x : V3)
  /-- R80: Counts leading zero bits of a. -/
  | clz (x : V3)
  /-- R80: Counts set bits of a. -/
  | popc (x : V3)
  /-- R80: Reverses the bit order of a. -/
  | brev (x : V3)
  /-- R81: Adds the formed immediate to a. -/
  | iaddi (x : VI)
  /-- R81: Shifts a left by an immediate amount. -/
  | shli (x : VI)
  /-- R81: Shifts a right with zero fill by an immediate amount. -/
  | shri (x : VI)
  /-- R81: Shifts a right with sign fill by an immediate amount. -/
  | sari (x : VI)
  /-- R81: Bitwise AND of a with the immediate. -/
  | andi (x : VI)
  /-- R81: Bitwise OR of a with the immediate. -/
  | ori (x : VI)
  /-- R81: Bitwise exclusive OR of a with the immediate. -/
  | xori (x : VI)
  /-- R81: Rotates a left by an immediate amount. -/
  | rotli (x : VI)
  /-- R82: Moves a's value and tag from lane b[4:0] to each active lane. -/
  | shfl (x : V3)
  /-- R82: Moves a's value and tag from lane i minus k. -/
  | shflup (x : V3)
  /-- R82: Moves a's value and tag from lane i plus k. -/
  | shfldn (x : V3)
  /-- R82: Moves a's value and tag from lane i XOR k. -/
  | shflx (x : V3)
  /-- R83: Writes the sum of a over the active lanes to each active lane. -/
  | tsumI (x : V3)
  /-- R83: Writes the signed minimum of a over the active lanes. -/
  | tminI (x : V3)
  /-- R83: Writes the signed maximum of a over the active lanes. -/
  | tmaxI (x : V3)
  /-- R83: Writes the inclusive prefix sum of a in lane order. -/
  | tscanI (x : V3)
  /-- R84: Copies a with its stored tag. -/
  | mov (x : V3)
  /-- R84: Writes the lane number. -/
  | laneid (x : V3)
  /-- R84: Writes a plus lane number times b. -/
  | lidx (x : V3)
  /-- R86: Sets predicate PD where a equals b, combined with PA. -/
  | iseq (x : P3)
  /-- R86: Sets PD where a differs from b. -/
  | isne (x : P3)
  /-- R86: Sets PD where a is less than b, signed. -/
  | isltI (x : P3)
  /-- R86: Sets PD where a is at most b, signed. -/
  | isleI (x : P3)
  /-- R86: Sets PD where a is less than b, unsigned. -/
  | isltN (x : P3)
  /-- R86: Sets PD where a is at most b, unsigned. -/
  | isleN (x : P3)
  /-- R86: Sets PD where a AND b is non-zero. -/
  | isany (x : P3)
  /-- R86: Sets PD where a AND b is zero. -/
  | isnone (x : P3)
  /-- R87: Sets PD where FP32 a and b are ordered and equal. -/
  | fseq (x : P3)
  /-- R87: Sets PD where FP32 a and b are unordered or unequal. -/
  | fsne (x : P3)
  /-- R87: Sets PD where FP32 a is less than b. -/
  | fslt (x : P3)
  /-- R87: Sets PD where FP32 a is at most b. -/
  | fsle (x : P3)
  /-- R87: Sets PD where a or b is NaN. -/
  | fsun (x : P3)
  /-- R87: Sets PD where neither a nor b is NaN. -/
  | fsord (x : P3)
  /-- R87: Sets PD where a is NaN. -/
  | fsnan (x : P3)
  /-- R87: Sets PD where a is an infinity. -/
  | fsinf (x : P3)
  /-- R88: Sets PD to PA AND a second predicate. -/
  | pand (x : P3)
  /-- R88: Sets PD to PA OR a second predicate. -/
  | por (x : P3)
  /-- R88: Sets PD to PA XOR a second predicate. -/
  | pxor (x : P3)
  /-- R88: Sets PD to NOT PA. -/
  | pnot (x : P3)
  /-- R88: Sets PD to whether PA holds in any active lane. -/
  | pany (x : P3)
  /-- R88: Sets PD to whether PA holds in every active lane. -/
  | pall (x : P3)
  /-- R88: Sets PD where a register's stored tag is below a threshold. -/
  | psig (x : P3)
  /-- R88: Sets PD in the lowest active lane where PA holds. -/
  | pelect (x : P3)
  /-- R90: Scalar add. -/
  | sadd (x : SF)
  /-- R90: Scalar subtract. -/
  | ssub (x : SF)
  /-- R90: Scalar multiply, low word. -/
  | smul (x : SF)
  /-- R90: Scalar signed multiply, high word. -/
  | smulhI (x : SF)
  /-- R90: Scalar unsigned multiply, high word. -/
  | smulhN (x : SF)
  /-- R91: Scalar signed division truncating towards zero. -/
  | sdivI (x : SF)
  /-- R91: Scalar unsigned division. -/
  | sdivN (x : SF)
  /-- R91: Scalar signed remainder. -/
  | sremI (x : SF)
  /-- R91: Scalar unsigned remainder. -/
  | sremN (x : SF)
  /-- R90: Scalar bitwise AND. -/
  | sand (x : SF)
  /-- R90: Scalar bitwise OR. -/
  | sor (x : SF)
  /-- R90: Scalar bitwise exclusive OR. -/
  | sxor (x : SF)
  /-- R90: Scalar a AND NOT b. -/
  | sandn (x : SF)
  /-- R90: Scalar shift left. -/
  | sshl (x : SF)
  /-- R90: Scalar shift right with zero fill. -/
  | sshr (x : SF)
  /-- R90: Scalar shift right with sign fill. -/
  | ssar (x : SF)
  /-- R90: Scalar signed minimum. -/
  | sminI (x : SF)
  /-- R90: Scalar signed maximum. -/
  | smaxI (x : SF)
  /-- R90: Scalar unsigned minimum. -/
  | sminN (x : SF)
  /-- R90: Scalar unsigned maximum. -/
  | smaxN (x : SF)
  /-- R90: Scalar count of leading zeros. -/
  | sclz (x : SF)
  /-- R90: Scalar count of set bits. -/
  | spopc (x : SF)
  /-- R90: Scalar equality test giving 1 or 0. -/
  | sseq (x : SF)
  /-- R90: Scalar signed less-than test. -/
  | ssltI (x : SF)
  /-- R90: Scalar unsigned less-than test. -/
  | ssltN (x : SF)
  /-- R90: Scalar move. -/
  | smov (x : SF)
  /-- R90: 64-bit scalar pair add. -/
  | sadd64 (x : SF)
  /-- R90: 64-bit scalar pair subtract. -/
  | ssub64 (x : SF)
  /-- R90: 64-bit scalar pair shift left. -/
  | sshl64 (x : SF)
  /-- R90: 64-bit scalar pair shift right with zero fill. -/
  | sshr64 (x : SF)
  /-- R90: Adds a sign-extended 32-bit scalar to a pair. -/
  | saddx (x : SF)
  /-- R90: Scalar zero-extended bit-field extract. -/
  | sbfx (x : SF)
  /-- R92: Scalar add immediate. -/
  | saddi (x : SI)
  /-- R92: Scalar AND immediate. -/
  | sandi (x : SI)
  /-- R92: Scalar OR immediate. -/
  | sori (x : SI)
  /-- R92: Scalar exclusive OR immediate. -/
  | sxori (x : SI)
  /-- R92: Scalar shift left by immediate. -/
  | sshli (x : SI)
  /-- R92: Scalar shift right with zero fill by immediate. -/
  | sshri (x : SI)
  /-- R92: Scalar shift right with sign fill by immediate. -/
  | ssari (x : SI)
  /-- R92: Scalar signed less-than test against an immediate. -/
  | ssltiI (x : SI)
  /-- R93: Copies a scalar into every active lane of a vector register with tag 63. -/
  | bcast (x : XF)
  /-- R94: Reads one lane of a vector register into a scalar. -/
  | lanerd (x : XF)
  /-- R95: Reads a control register into a scalar after the checks of R23. -/
  | mfc (x : XF)
  /-- R95: Writes a scalar into a control register after the checks of R23. -/
  | mtc (x : XF)
  /-- R96: Moves a predicate to or from a scalar or vector register. -/
  | pmov (x : XF)
  /-- R99: FP32 addition rounded in the active mode. -/
  | fadd (x : V3)
  /-- R99: FP32 subtraction. -/
  | fsub (x : V3)
  /-- R99: FP32 multiplication. -/
  | fmul (x : V3)
  /-- R100: FP32 minimumNumber selection. -/
  | fmin (x : V3)
  /-- R100: FP32 maximumNumber selection. -/
  | fmax (x : V3)
  /-- R99: Clears the sign bit of a. -/
  | fabs (x : V3)
  /-- R99: Inverts the sign bit of a. -/
  | fneg (x : V3)
  /-- R99: Gives a the sign of b. -/
  | fcpsgn (x : V3)
  /-- R101: Fused a times b plus the old destination, one rounding. -/
  | ffma (x : V3)
  /-- R101: Fused a times b minus the old destination. -/
  | ffms (x : V3)
  /-- R101: Fused negated product plus the old destination. -/
  | fnfma (x : V3)
  /-- R101: FP32 division. -/
  | fdiv (x : V3)
  /-- R101: FP32 square root. -/
  | fsqrt (x : V3)
  /-- R102: Correctly rounded FP32 reciprocal. -/
  | frcp (x : V3)
  /-- R102: Correctly rounded FP32 reciprocal square root. -/
  | frsq (x : V3)
  /-- R102: Correctly rounded base-2 exponential. -/
  | fexp2 (x : V3)
  /-- R102: Correctly rounded base-2 logarithm. -/
  | flog2 (x : V3)
  /-- R102: Correctly rounded sin(pi x). -/
  | fsinpi (x : V3)
  /-- R102: Correctly rounded cos(pi x). -/
  | fcospi (x : V3)
  /-- R103: Rounds a down to an integral value. -/
  | ffloor (x : V3)
  /-- R103: Rounds a up to an integral value. -/
  | fceil (x : V3)
  /-- R103: Rounds a towards zero to an integral value. -/
  | ftrunc (x : V3)
  /-- R103: Rounds a to an integral value in the active mode. -/
  | frint (x : V3)
  /-- R103: Writes a minus FFLOOR(a), at most 0x3F7F_FFFF. -/
  | ffract (x : V3)
  /-- R104: Quad FP32 addition over four registers. -/
  | f4add (x : V3)
  /-- R104: Quad FP32 subtraction. -/
  | f4sub (x : V3)
  /-- R104: Quad FP32 multiplication. -/
  | f4mul (x : V3)
  /-- R104: Quad FP32 fused multiply-add. -/
  | f4fma (x : V3)
  /-- R104: Quad FP32 fused multiply-subtract. -/
  | f4fms (x : V3)
  /-- R104: Quad FP32 minimum. -/
  | f4min (x : V3)
  /-- R104: Quad FP32 maximum. -/
  | f4max (x : V3)
  /-- R105: FP64 addition on register pairs. -/
  | dadd (x : V3)
  /-- R105: FP64 subtraction. -/
  | dsub (x : V3)
  /-- R105: FP64 multiplication. -/
  | dmul (x : V3)
  /-- R105: FP64 fused multiply-add with the old destination as addend. -/
  | dfma (x : V3)
  /-- R105: FP64 division. -/
  | ddiv (x : V3)
  /-- R105: FP64 square root. -/
  | dsqrt (x : V3)
  /-- R105: FP64 minimum. -/
  | dmin (x : V3)
  /-- R105: FP64 maximum. -/
  | dmax (x : V3)
  /-- R106: Packed two-element FP16 addition. -/
  | hadd2 (x : V3)
  /-- R106: Packed FP16 multiplication. -/
  | hmul2 (x : V3)
  /-- R106: Packed FP16 fused multiply-add. -/
  | hfma2 (x : V3)
  /-- R106: Packed FP16 maximum. -/
  | hmax2 (x : V3)
  /-- R106: Packed BF16 addition. -/
  | badd2 (x : V3)
  /-- R106: Packed BF16 multiplication. -/
  | bmul2 (x : V3)
  /-- R106: Packed BF16 fused multiply-add. -/
  | bfma2 (x : V3)
  /-- R106: Packed BF16 maximum. -/
  | bmax2 (x : V3)
  /-- R108: Converts a between number formats under a conversion code. -/
  | cvt (x : V3)
  /-- R109: Converts as CVT but saturates overflow for kinds 5, 10 and 11. -/
  | cvts (x : V3)
  /-- R110: Converts a and inserts it into one byte of the old destination. -/
  | pk8 (x : V3)
  /-- R110: Converts a and inserts it into one nibble of the old destination. -/
  | pk4 (x : V3)
  /-- R111: Extracts a byte of a and widens it exactly to FP32. -/
  | upk8 (x : V3)
  /-- R111: Extracts a nibble of a and widens it exactly to FP32. -/
  | upk4 (x : V3)
  /-- R112: Decodes one Q4N element with its two-level scale to FP32. -/
  | qdec (x : V3)
  /-- R113: Encodes a divided by b as the nearest Q4N code. -/
  | qenc (x : V3)
  /-- R114: Writes the stored tag of a as a value. -/
  | tagrd (x : V3)
  /-- R114: Copies a with the tag b[5:0]. -/
  | tagwr (x : V3)
  /-- R114: Copies a with the smaller of the two stored tags. -/
  | tagmin (x : V3)
  /-- R114: Copies a with the full tag 24 or 53. -/
  | tagfull (x : V3)
  /-- R114: Copies a with tag 63. -/
  | tagunt (x : V3)
  /-- R117: Branches the lanes whose predicate condition holds and splits the frontier entry. -/
  | bra (x : BF)
  /-- R119: Branches as BRA and writes the link to v0:v1 in the lanes that take it. -/
  | call (x : BF)
  /-- R120: Sends each active lane to the address in a vector pair. -/
  | ret (x : SF)
  /-- R120: Sends every active lane to the address in a scalar pair. -/
  | jmpi (x : SF)
  /-- R120: Jumps as JMPI and writes the link. -/
  | calli (x : SF)
  /-- R121: Ends the active lanes, and the team and crew when none remain live. -/
  | exit (x : SF)
  /-- R120: Ends the stint and continues at PC + 4. -/
  | yield (x : SF)
  /-- R120: Does nothing. -/
  | nop (x : SF)
  /-- R120: Raises BRK with k at its own PC. -/
  | brk (x : SF)
  /-- R120: Raises SWTRAP with k at its own PC. -/
  | trap (x : SF)
  /-- R120: Sets the active lanes' block priority from a scalar. -/
  | prioset (x : SF)
  /-- R122: Adds the active lanes to rejoin mask mk. -/
  | enrol (m : BitVec 2) (x : SF)
  /-- R123: Makes enrolled active lanes wait until every lane of the mask waits. -/
  | joinw (m : BitVec 2) (x : SF)
  /-- R122: Writes the lanes of a mask not waiting at a JOINW. -/
  | joinq (m : BitVec 2) (x : SF)
  /-- R122: Reads a rejoin mask into a scalar. -/
  | maskrd (m : BitVec 2) (x : SF)
  /-- R129: Places one thread per active lane into the core's spawn bin. -/
  | spawn (x : XF)
  /-- R127: Arrives at crew barrier k. -/
  | bara (k : BitVec 4) (x : SF)
  /-- R127: Parks until the team's phase of crew barrier k completes. -/
  | barw (k : BitVec 4) (x : SF)
  /-- R127: Arrives at crew barrier k and parks for that phase. -/
  | baraw (k : BitVec 4) (x : SF)
  /-- R127: Arms byte-count barrier k with an expected count. -/
  | bcbi (k : BitVec 4) (x : SF)
  /-- R127: Extends the expected count of an armed byte-count barrier. -/
  | bcbx (k : BitVec 4) (x : SF)
  /-- R127: Parks until byte-count barrier k completes. -/
  | bcbw (k : BitVec 4) (x : SF)
  /-- R127: Adds bytes to ARRIVED of byte-count barrier k. -/
  | bcba (k : BitVec 4) (x : SF)
  /-- R127: Parks as BCBW but also wakes at a CLK deadline. -/
  | promw (k : BitVec 4) (x : SF)
  /-- R162: Parks until a memory word meets a masked condition or a timeout. -/
  | waitc (x : SF)
  /-- R163: Registers a watchpoint that spawns on matching writes. -/
  | watch (x : SF)
  /-- R164: Removes a registered watchpoint. -/
  | unwatch (x : SF)
  /-- R165: Ends the stint and waits at least a number of cycles. -/
  | sleep (x : SF)
  /-- R166: Launches partial spawn bins of the core. -/
  | binfl (x : SF)
  /-- R132: Captures the whole crew into a sealed trunk and ends it. -/
  | suspend (x : SF)
  /-- R133: Checks a trunk, spends its ticket and rebuilds its crew. -/
  | resume (x : SF)
  /-- R134: Forks a trunk into a new trunk with a new ticket. -/
  | tcopy (x : SF)
  /-- R134: Spends a trunk's ticket and cancels its pending engine operations. -/
  | tdisc (x : SF)
  /-- R135: Reports whether a trunk is resumable without changing it. -/
  | tstat (x : SF)
  /-- R169: Proposes a key, value and target to claim group k. -/
  | claim (k : BitVec 3) (x : SF)
  /-- R173: Objects to a proposal and parks for the announcer's answer. -/
  | object (k : BitVec 3) (x : SF)
  /-- R172: Reads the oldest inbox entry of a group without removing it. -/
  | clpeek (k : BitVec 3) (x : SF)
  /-- R172: Reads and removes the oldest inbox entry of a group, as an acquire. -/
  | clpop (k : BitVec 3) (x : SF)
  /-- R171: Parks until a proposal resolves, then returns its outcome. -/
  | clwait (k : BitVec 3) (x : SF)
  /-- R174: Places a member at a rank of a claim group. -/
  | cljoin (k : BitVec 3) (x : SF)
  /-- R174: Vacates a rank of a claim group. -/
  | clleave (k : BitVec 3) (x : SF)
  /-- R281: Restores from the frame, re-injects the replay queue and continues. -/
  | rtr (x : SF)
  /-- R136: Drops the replay head and returns as RTR. -/
  | rts (x : SF)
  /-- R136: Readies every pannier entry of the compartment with a fault identifier. -/
  | replay (x : SF)
  /-- R137: Invalidates cached translations of a kind and waits until dropped everywhere. -/
  | tlbi (x : SF)
  /-- R242: Reads and clears dirty bits of pages and drops write translations. -/
  | harvest (x : SF)
  /-- R139: Ends a handler by saving the team whole until a REPLAY. -/
  | park (x : SF)
  /-- R136: Stops every team of the compartment and sends an error record. -/
  | halt (x : SF)
  /-- R140: Traps to level 1, or requests a level-2 service from the Postmaster. -/
  | scall (x : SF)
  /-- R146: Loads a sign-extended byte. -/
  | ld8I (x : MF)
  /-- R146: Loads a zero-extended byte. -/
  | ld8N (x : MF)
  /-- R146: Loads a sign-extended half word. -/
  | ld16I (x : MF)
  /-- R146: Loads a zero-extended half word. -/
  | ld16N (x : MF)
  /-- R146: Loads a word with tag 24. -/
  | ld32 (x : MF)
  /-- R146: Loads 8 bytes into a register pair. -/
  | ld64 (x : MF)
  /-- R146: Loads 16 bytes into a register quad. -/
  | ld128 (x : MF)
  /-- R72: Loads a word and its tag from the tag shadow. -/
  | ldt32 (x : MF)
  /-- R146: Stores a byte. -/
  | st8 (x : MF)
  /-- R146: Stores a half word. -/
  | st16 (x : MF)
  /-- R146: Stores a word. -/
  | st32 (x : MF)
  /-- R146: Stores a register pair. -/
  | st64 (x : MF)
  /-- R146: Stores a register quad. -/
  | st128 (x : MF)
  /-- R72: Stores a word and its stored tag to the tag shadow. -/
  | stt32 (x : MF)
  /-- R150: Loads from the crew's scratchpad at a size code. -/
  | lds (x : MF)
  /-- R150: Stores to the crew's scratchpad at a size code. -/
  | sts (x : MF)
  /-- R152: Atomic 32-bit add returning the old value. -/
  | atomAdd (m : BitVec 2) (x : AT)
  /-- R152: Atomic 64-bit add returning the old value. -/
  | atomAdd64 (m : BitVec 2) (x : AT)
  /-- R152: Atomic signed minimum. -/
  | atomMini (m : BitVec 2) (x : AT)
  /-- R152: Atomic signed maximum. -/
  | atomMaxi (m : BitVec 2) (x : AT)
  /-- R152: Atomic unsigned minimum. -/
  | atomMinn (m : BitVec 2) (x : AT)
  /-- R152: Atomic unsigned maximum. -/
  | atomMaxn (m : BitVec 2) (x : AT)
  /-- R152: Atomic bitwise AND. -/
  | atomAnd (m : BitVec 2) (x : AT)
  /-- R152: Atomic bitwise OR. -/
  | atomOr (m : BitVec 2) (x : AT)
  /-- R152: Atomic bitwise exclusive OR. -/
  | atomXor (m : BitVec 2) (x : AT)
  /-- R152: Atomic 32-bit swap. -/
  | atomSwap (m : BitVec 2) (x : AT)
  /-- R152: Atomic 32-bit compare-and-swap. -/
  | atomCas (m : BitVec 2) (x : AT)
  /-- R152: Atomic 64-bit swap. -/
  | atomSwap64 (m : BitVec 2) (x : AT)
  /-- R152: Atomic 64-bit compare-and-swap. -/
  | atomCas64 (m : BitVec 2) (x : AT)
  /-- R152: Atomic FP32 add rounded to nearest-even. -/
  | atomFadd (m : BitVec 2) (x : AT)
  /-- R152: Atomic FP32 minimum. -/
  | atomFmin (m : BitVec 2) (x : AT)
  /-- R152: Atomic FP32 maximum. -/
  | atomFmax (m : BitVec 2) (x : AT)
  /-- R152: Atomic wrapping increment. -/
  | atomIncw (m : BitVec 2) (x : AT)
  /-- R155: Decrements a successor record's COUNT and spawns at one. -/
  | atomDecsp (m : BitVec 2) (x : AT)
  /-- R152: Non-returning integer add reduction. -/
  | atomRedadd (m : BitVec 2) (x : AT)
  /-- R152: Non-returning FP32 add reduction. -/
  | atomRedfadd (m : BitVec 2) (x : AT)
  /-- R158: Orders the team's accesses at a scope as acquire, release, both or sc. -/
  | fence (order : BitVec 2) (scope : BitVec 3) (x : SF)
  /-- R159: Writes back dirty L1 words of a range to a scope's coherence point. -/
  | flushr (order : BitVec 2) (scope : BitVec 3) (x : SF)
  /-- R160: Writes back and invalidates the L1 lines of a range. -/
  | invr (order : BitVec 2) (scope : BitVec 3) (x : SF)
  /-- R161: Prefetches the lines of a range into a cache level. -/
  | pref (order : BitVec 2) (scope : BitVec 3) (x : SF)
  /-- R180: Loads a tile from memory under a descriptor. -/
  | tld (k : BitVec 4) (x : SF)
  /-- R180: Stores a tile to memory under a descriptor. -/
  | tst (k : BitVec 4) (x : SF)
  /-- R179: Zeroes a tile image, scale words and super-scales and resets row tags. -/
  | tzero (k : BitVec 4) (x : SF)
  /-- R179: Reads one row tag of a tile into a scalar. -/
  | ttag (k : BitVec 4) (x : SF)
  /-- R186: Posts one matrix operation to the cluster's matrix engine. -/
  | mma (x : SF)
  /-- R188: Posts one member of a four-in-hand operation for the hitch. -/
  | mma4 (x : SF)
  /-- R189: Parks until a matrix operation completes and returns its status. -/
  | mmaw (x : SF)
  /-- R189: Reads a matrix operation's state without waiting. -/
  | mmaq (x : SF)
  /-- R189: Cancels a matrix operation that has not started. -/
  | mmax (x : SF)
  /-- R192: Posts a strided copy command to the copy engines. -/
  | cpy (x : SF)
  /-- R192: Posts a gather command through an index array. -/
  | gath (x : SF)
  /-- R192: Posts a scatter command through an index array. -/
  | scat (x : SF)
  /-- R193: Posts a ring-ordered collective reduction command. -/
  | coll (x : SF)
  /-- R197: Parks until a copy command completes and returns its status. -/
  | ewait (x : SF)
  /-- R197: Stops a copy command at an iteration boundary. -/
  | ecan (x : SF)
  /-- R197: Reads a copy command's state and next vector. -/
  | eqry (x : SF)
  /-- R181: Reads words of a tile image into a vector register. -/
  | trdv (x : XF)
  /-- R181: Writes a vector register into words of a tile image. -/
  | twrv (x : XF)
  /-- R42: Hint supplying the high immediate or byte offset of its bound instruction. -/
  | himm (p : BitVec 25)
  /-- R49: Hint guarding the bound instruction and the next n minus 1 by a predicate. -/
  | hgrd (p : BitVec 21)
  /-- R47: Hint setting the block priority of the lanes that issue it. -/
  | hprio (p : BitVec 21)
  /-- R47: Hint giving the rounding mode of the bound instruction. -/
  | hrnd (p : BitVec 21)
  /-- R47: Hint giving the scope of an atomic or engine command. -/
  | hscp (p : BitVec 21)
  /-- R47: Hint waiving fabric ordering for a remote access. -/
  | hrlx (p : BitVec 21)
  /-- R47: Hint ending the stint after the bound instruction. -/
  | hyld (p : BitVec 21)
  /-- R47: Hint keeping operands in the collector, with no architectural effect. -/
  | hreuse (p : BitVec 21)
  /-- R47: Hint replacing the significance threshold for the bound instruction. -/
  | hsig (p : BitVec 21)
  /-- R47: Hint giving expected latency as scheduling advice. -/
  | hlat (p : BitVec 21)
  deriving DecidableEq, Repr

end Sys2Proof
end

