-- ==== Sys2Proof/Machine/Bits.lean ====
section
/-! DEFINITION. Packing and unpacking of the ten formats (03 R37) and the byte-order helpers (01 R10). -/

namespace Sys2Proof.Bits

/-- Field [lo+n-1:lo] of a word. -/
def fld (w : Word) (lo n : Nat) : Nat := (w.toNat >>> lo) % 2 ^ n

/-- A V3 word (03 R37). -/
def packV3 (m : BitVec 6) (x : V3) (f : BitVec 3) : Word := m ++ x.c ++ x.w ++ x.d ++ x.a ++ x.b ++ f

/-- A VI word (03 R37). -/
def packVI (m : BitVec 6) (x : VI) (f : BitVec 3) : Word := m ++ x.c ++ x.w ++ x.d ++ x.a ++ f ++ x.i

/-- A P word (03 R37). -/
def packP (m : BitVec 6) (x : P3) (f : BitVec 3) : Word := m ++ x.c ++ x.pd ++ x.pa ++ x.a ++ x.b ++ f

/-- An S word with its FN field (03 R37). -/
def packS (m : BitVec 6) (x : SF) (fn : BitVec 7) : Word := m ++ x.c ++ fn ++ x.d ++ x.a ++ x.b

/-- An SI word (03 R37). -/
def packSI (m : BitVec 6) (x : SI) (f : BitVec 3) : Word := m ++ x.c ++ x.d ++ x.a ++ f ++ x.i

/-- An X word (03 R37). -/
def packX (m : BitVec 6) (x : XF) : Word := m ++ x.c ++ x.v ++ x.s ++ x.k

/-- An M word (03 R37). -/
def packM (m : BitVec 6) (x : MF) : Word := m ++ x.c ++ x.t ++ x.a ++ x.sb ++ x.ord ++ x.sco

/-- An AT word: the two low bits of the major are the order (03 R43). -/
def packAT (o : BitVec 2) (x : AT) (op : BitVec 5) : Word := (0b1101#4) ++ o ++ x.c ++ x.t ++ x.a ++ x.sb ++ op

/-- A B word: bit 25 is 0 (03 R36). -/
def packB (x : BF) (l : BitVec 1) : Word := (0x1A#6) ++ (0#1) ++ x.pg ++ x.n ++ l ++ x.off

/-- A hint word (03 R37). -/
def packH (k : BitVec 4) (p : BitVec 21) : Word := (0x3F#6) ++ (0#1) ++ k ++ p

/-- An HIMM word (03 R37). -/
def packHimm (p : BitVec 25) : Word := (0x3F#6) ++ (1#1) ++ p

def V3.of (w : Word) : V3 :=
  ⟨w.extractLsb' 25 1, w.extractLsb' 24 1, w.extractLsb' 17 7, w.extractLsb' 10 7, w.extractLsb' 3 7⟩
def VI.of (w : Word) : VI :=
  ⟨w.extractLsb' 25 1, w.extractLsb' 24 1, w.extractLsb' 17 7, w.extractLsb' 10 7, w.extractLsb' 0 7⟩
def P3.of (w : Word) : P3 :=
  ⟨w.extractLsb' 25 1, w.extractLsb' 21 4, w.extractLsb' 17 4, w.extractLsb' 10 7, w.extractLsb' 3 7⟩
def SF.of (w : Word) : SF :=
  ⟨w.extractLsb' 25 1, w.extractLsb' 12 6, w.extractLsb' 6 6, w.extractLsb' 0 6⟩
def SI.of (w : Word) : SI :=
  ⟨w.extractLsb' 25 1, w.extractLsb' 19 6, w.extractLsb' 13 6, w.extractLsb' 0 10⟩
def XF.of (w : Word) : XF :=
  ⟨w.extractLsb' 25 1, w.extractLsb' 18 7, w.extractLsb' 12 6, w.extractLsb' 0 12⟩
def MF.of (w : Word) : MF :=
  ⟨w.extractLsb' 25 1, w.extractLsb' 18 7, w.extractLsb' 11 7, w.extractLsb' 5 6, w.extractLsb' 3 2, w.extractLsb' 0 3⟩
def AT.of (w : Word) : AT :=
  ⟨w.extractLsb' 25 1, w.extractLsb' 18 7, w.extractLsb' 11 7, w.extractLsb' 5 6⟩
def BF.of (w : Word) : BF :=
  ⟨w.extractLsb' 21 4, w.extractLsb' 20 1, w.extractLsb' 0 19⟩

/-- The low `n` bytes of a number, little-endian (01 R10). -/
def leBytes : Nat → Nat → List Byte
  | 0, _ => []
  | n + 1, v => BitVec.ofNat 8 v :: leBytes n (v / 256)

/-- The number that little-endian bytes hold (01 R10). -/
def ofLe : List Byte → Nat
  | [] => 0
  | b :: bs => b.toNat + 256 * ofLe bs

/-- A field given as (offset, size, value), for layouts written sparsely. -/
structure Fld where
  off : Nat
  size : Nat
  val : Nat
  deriving DecidableEq, Repr

/-- Sign extension of the low `n` bits of `v` to a value modulo 2^`m` (01 R10). -/
def sextNat (v n m : Nat) : Nat :=
  let x := v % 2 ^ n
  if 2 ^ (n - 1) ≤ x then (x + 2 ^ m - 2 ^ n) % 2 ^ m else x

/-- Whether bit `i` of a number is set. -/
def bit (v i : Nat) : Bool := v.testBit i

end Sys2Proof.Bits
end

