-- ==== Sys2Proof/Machine/Shape.lean ====
section
/-! DEFINITION. The operand shape of every instruction: what it reads and writes, how wide each operand is, its level,
its chain rule (03 R37 to R46), and which words R53 rejects. -/

namespace Sys2Proof

/-- A vector operand: the slot a trap frame keeps it in (0 A, 1 B, 2 D; 15 R280), its code, and its registers. -/
structure VOp where
  slot : Nat
  code : BitVec 7
  n : Nat
  deriving DecidableEq, Repr

/-- The operands of an instruction. -/
structure Shape where
  maj : Nat
  c : Bool := false
  /-- W and the field D it requires to be zero (03 R41): `none` where the format has no W. -/
  wd : Option (BitVec 1 × BitVec 7) := none
  vs : List VOp := []
  vd : Option (BitVec 7 × Nat) := none
  latching : Bool := false
  ss : List (BitVec 6 × Nat) := []
  sd : Option (BitVec 6 × Nat) := none
  ps : List (BitVec 4) := []
  pd : Option (BitVec 4) := none
  level : Nat := 0
  /-- C must be 0 (03 R46). -/
  cZero : Bool := false
  /-- An engine command: HSCP and HLAT apply to it (03 R47). -/
  eng : Bool := false
  /-- A parking point (07 R124). -/
  parks : Bool := false
  /-- Every unused field is zero (03 R37). -/
  unused : Bool := true
  /-- No field holds a reserved value (03 R53). -/
  legal : Bool := true
  deriving DecidableEq, Repr

namespace Shape

/-- D, A, B of a latching V3 instruction. -/
def v3 (m : Nat) (x : V3) : Shape :=
  { maj := m, c := x.c = 1, wd := some (x.w, x.d), vs := [⟨0, x.a, 1⟩, ⟨1, x.b, 1⟩], vd := some (x.d, 1), latching := true }

/-- D and A of a latching V3 instruction; B unused. -/
def v3u (m : Nat) (x : V3) : Shape :=
  { maj := m, c := x.c = 1, wd := some (x.w, x.d), vs := [⟨0, x.a, 1⟩], vd := some (x.d, 1), latching := true, unused := x.b = 0 }

/-- D (read and written), A and B of a latching V3 instruction; W unused (05 R76, 06 R98). -/
def v3d (m : Nat) (x : V3) : Shape :=
  { maj := m, c := x.c = 1, vs := [⟨0, x.a, 1⟩, ⟨1, x.b, 1⟩, ⟨2, x.d, 1⟩], vd := some (x.d, 1), latching := true, unused := x.w = 0 }

/-- A quad or pair form (06 R104, R105): not latching, W unused. -/
def v3n (m : Nat) (x : V3) (n : Nat) : Shape :=
  { maj := m, c := x.c = 1, vs := [⟨0, x.a, n⟩, ⟨1, x.b, n⟩], vd := some (x.d, n), unused := x.w = 0 }

/-- A quad or pair form that also reads D. -/
def v3nd (m : Nat) (x : V3) (n : Nat) : Shape :=
  { v3n m x n with vs := [⟨0, x.a, n⟩, ⟨1, x.b, n⟩, ⟨2, x.d, n⟩] }

/-- A vector immediate form (05 R81). -/
def vi (x : VI) : Shape :=
  { maj := 5, c := x.c = 1, wd := some (x.w, x.d), vs := [⟨0, x.a, 1⟩], vd := some (x.d, 1), latching := true }

/-- A predicate compare (05 R85). -/
def p (m : Nat) (x : P3) : Shape :=
  { maj := m, c := x.c = 1, vs := [⟨0, x.a, 1⟩, ⟨1, x.b, 1⟩], ps := [x.pa], pd := some x.pd }

/-- A predicate compare that reads A only. -/
def pu (m : Nat) (x : P3) : Shape := { p m x with vs := [⟨0, x.a, 1⟩], unused := x.b = 0 }

/-- Predicate logic of two predicates: the second in A[3:0] (03 R40). -/
def p2 (x : P3) : Shape :=
  { maj := 0x0A, c := x.c = 1, ps := [x.pa, x.a.extractLsb' 0 4], pd := some x.pd,
    unused := x.a.extractLsb' 4 3 = 0 && x.b = 0 }

/-- Predicate logic of one predicate. -/
def p1 (x : P3) : Shape :=
  { maj := 0x0A, c := x.c = 1, ps := [x.pa], pd := some x.pd, unused := x.a = 0 && x.b = 0 }

/-- sD, sA, sB with their widths in registers (05 R90). -/
def s3 (m : Nat) (x : SF) (nd na nb : Nat) : Shape :=
  { maj := m, c := x.c = 1, ss := [(x.a, na), (x.b, nb)], sd := some (x.d, nd) }

/-- sD, sA; B unused. -/
def s2 (m : Nat) (x : SF) (nd na : Nat) : Shape :=
  { maj := m, c := x.c = 1, ss := [(x.a, na)], sd := some (x.d, nd), unused := x.b = 0 }

/-- sA only; D and B unused. -/
def sA (m : Nat) (x : SF) (na : Nat) : Shape :=
  { maj := m, c := x.c = 1, ss := [(x.a, na)], unused := x.d = 0 && x.b = 0 }

/-- sD only; A and B unused. -/
def sD (m : Nat) (x : SF) (nd : Nat) : Shape :=
  { maj := m, c := x.c = 1, sd := some (x.d, nd), unused := x.a = 0 && x.b = 0 }

/-- No operand; D, A and B unused. -/
def s0 (m : Nat) (x : SF) : Shape :=
  { maj := m, c := x.c = 1, unused := x.d = 0 && x.a = 0 && x.b = 0 }

/-- A scalar immediate form (05 R92). -/
def si (x : SI) : Shape := { maj := 0x0C, c := x.c = 1, ss := [(x.a, 1)], sd := some (x.d, 1) }

/-- A load of `n` registers (08 R146): ORD 0 takes SCO 0, and SCO 7 is reserved (03 R43). -/
def ld (m : Nat) (x : MF) (n : Nat) : Shape :=
  { maj := m, c := x.c = 1, vs := [⟨0, x.a, 1⟩], vd := some (x.t, n), latching := n = 1, ss := [(x.sb, 2)],
    legal := x.sco ≠ 7 && (x.ord ≠ 0 || x.sco = 0) }

/-- A store of `n` registers (08 R146). -/
def st (m : Nat) (x : MF) (n : Nat) : Shape :=
  { maj := m, c := x.c = 1, vs := [⟨0, x.a, 1⟩, ⟨2, x.t, n⟩], ss := [(x.sb, 2)],
    legal := x.sco ≠ 7 && (x.ord ≠ 0 || x.sco = 0) }

/-- An atomic that reads `n` registers of T and returns `r` (08 R152). -/
def atom (o : BitVec 2) (x : AT) (n r : Nat) : Shape :=
  { maj := 0x34 + o.toNat, c := x.c = 1, vs := [⟨0, x.a, 1⟩, ⟨2, x.t, n⟩], vd := if r = 0 then none else some (x.t, r),
    latching := r = 1, ss := [(x.sb, 2)] }

/-- Registers that the size code of LDS and STS needs (03 R43). -/
def scratchRegs (sco : BitVec 3) : Nat := if sco = 5 then 2 else if sco = 6 then 4 else 1

/-- A conversion kind with a pair destination (06 R108). -/
def cvtPairD (k : BitVec 7) : Bool := let n := k.toNat % 16; n = 4 || n = 6 || n = 15

/-- A conversion kind with a pair source (06 R108). -/
def cvtPairA (k : BitVec 7) : Bool := let n := k.toNat % 16; n = 5 || n = 7 || n = 15

/-- CVT and CVTS: B is the conversion code (06 R107). -/
def cvt (x : V3) : Shape :=
  { maj := 0x18, c := x.c = 1, wd := some (x.w, x.d), vs := [⟨0, x.a, if cvtPairA x.b then 2 else 1⟩],
    vd := some (x.d, if cvtPairD x.b then 2 else 1), latching := !cvtPairD x.b,
    legal := x.b.toNat / 16 ≤ 5 && (!cvtPairD x.b || x.w = 0) }

/-- A parking instruction of format S. -/
def parking (s : Shape) : Shape := { s with parks := true, cZero := true }

/-- The operands of LANEID. -/
def laneid (x : V3) : Shape :=
  { v3u 7 x with vs := [], unused := x.a = 0 && x.b = 0 }

/-- The operands of PSIG. -/
def psig (x : P3) : Shape :=
  { p 0x0A x with vs := [⟨0, x.a, 1⟩], legal := x.b.toNat ≤ 53 }

/-- The operands of BCAST. -/
def bcast (x : XF) : Shape :=
  { maj := 0x0D, c := x.c = 1, vd := some (x.v, 1), latching := true, ss := [(x.s, 1)], unused := x.k = 0 }

/-- The operands of LANERD. -/
def lanerd (x : XF) : Shape :=
  { maj := 0x0E, c := x.c = 1, vs := [⟨0, x.v, 1⟩], sd := some (x.s, 1),
    legal := x.k.extractLsb' 5 6 = 0 && (x.k.extractLsb' 11 1 = 0 || x.k.extractLsb' 0 5 = 0) }

/-- The operands of MFC. -/
def mfc (x : XF) : Shape :=
  { maj := 0x0F, c := x.c = 1, sd := some (x.s, 1), unused := x.v = 0 }

/-- The operands of MTC. -/
def mtc (x : XF) : Shape :=
  { maj := 0x10, c := x.c = 1, ss := [(x.s, 1)], unused := x.v = 0 }

/-- The operands of PMOV. -/
def pmov (x : XF) : Shape :=
  let base : Shape := { maj := 0x11, c := x.c = 1 }
  let k := x.k.extractLsb' 0 4
  let dir := x.k.extractLsb' 10 2
  let ok : Bool := x.k.extractLsb' 4 6 = 0
  if dir = 0 then { base with sd := some (x.s, 1), ps := [k], unused := x.v = 0, legal := ok }
  else if dir = 2 then { base with ss := [(x.s, 1)], pd := some k, unused := x.v = 0, legal := ok }
  else if dir = 1 then { base with vd := some (x.v, 1), latching := true, ps := [k], unused := x.s = 0, legal := ok }
  else { base with vs := [⟨0, x.v, 1⟩], pd := some k, unused := x.s = 0, legal := ok }

/-- The operands of DSQRT. -/
def dsqrt (x : V3) : Shape :=
  { v3n 0x16 x 2 with vs := [⟨0, x.a, 2⟩], unused := x.w = 0 && x.b = 0 }

/-- The operands of TAGFULL. -/
def tagfull (x : V3) : Shape :=
  { v3u 0x19 x with unused := true, legal := x.b.toNat ≤ 1 }

/-- The operands of BRA. -/
def bra (x : BF) : Shape :=
  { maj := 0x1A, ps := [x.pg] }

/-- The operands of CALL. -/
def call (x : BF) : Shape :=
  { maj := 0x1A, ps := [x.pg], vd := some (0, 2) }

/-- The operands of RET. -/
def ret (x : SF) : Shape :=
  { maj := 0x1B, c := x.c = 1, vs := [⟨0, x.a.zeroExtend 7, 2⟩], cZero := true, unused := x.d = 0 && x.b = 0 }

/-- The operands of JMPI. -/
def jmpi (x : SF) : Shape :=
  { sA 0x1B x 2 with cZero := true }

/-- The operands of CALLI. -/
def calli (x : SF) : Shape :=
  { sA 0x1B x 2 with cZero := true, vd := some (0, 2) }

/-- The operands of EXIT, YIELD. -/
def exit (x : SF) : Shape :=
  { s0 0x1B x with cZero := true }

/-- The operands of BRK, TRAP. -/
def brk (x : SF) : Shape :=
  { maj := 0x1B, c := x.c = 1, unused := x.d = 0 && x.a = 0 }

/-- The operands of SPAWN. -/
def spawn (x : XF) : Shape :=
  { maj := 0x1D, c := x.c = 1, vs := [⟨0, x.v, 1⟩], ss := [(x.s, if x.k.extractLsb' 0 1 = 1 then 4 else 2)],
    legal := x.k.extractLsb' 1 3 = 0 }

/-- The operands of SLEEP. -/
def sleep (x : SF) : Shape :=
  { sA 0x1F x 1 with cZero := true }

/-- The operands of BINFL. -/
def binfl (x : SF) : Shape :=
  { maj := 0x1F, c := x.c = 1, ss := if x.b = 0 then [(x.a, 2)] else [], unused := x.d = 0,
    legal := x.b = 0 || (x.b = 1 && x.a = 0) }

/-- The operands of SUSPEND. -/
def suspend (x : SF) : Shape :=
  parking { maj := 0x20, c := x.c = 1, ss := [(x.a, 2), (x.b, 2)], legal := x.d.toNat ≤ 3 }

/-- The operands of TCOPY. -/
def tcopy (x : SF) : Shape :=
  { maj := 0x20, c := x.c = 1, ss := [(x.a, 2), (x.b, 2), (x.d, 2)] }

/-- The operands of CLJOIN. -/
def cljoin (x : SF) : Shape :=
  { s3 0x21 x 1 1 1 with level := 1 }

/-- The operands of CLLEAVE. -/
def clleave (x : SF) : Shape :=
  { s2 0x21 x 1 1 with level := 1 }

/-- The operands of RTR, RTS. -/
def rtr (x : SF) : Shape :=
  { s0 0x22 x with level := 1 }

/-- The operands of REPLAY. -/
def replay (x : SF) : Shape :=
  { sA 0x22 x 1 with level := 1 }

/-- The operands of TLBI. -/
def tlbi (x : SF) : Shape :=
  { maj := 0x22, c := x.c = 1, ss := [(x.a, 2)], unused := x.d = 0, legal := x.b.toNat ≤ 3,
    level := if x.b.toNat ≤ 1 then 1 else 2 }

/-- The operands of HARVEST. -/
def harvest (x : SF) : Shape :=
  { maj := 0x22, c := x.c = 1, ss := [(x.a, 2), (x.b, 2), (x.d, 1)], sd := some (x.d, 1), level := 1 }

/-- The operands of PARK, HALT. -/
def park (x : SF) : Shape :=
  { sA 0x22 x 1 with level := 1, cZero := true }

/-- The operands of SCALL. -/
def scall (x : SF) : Shape :=
  { maj := 0x22, c := x.c = 1, unused := x.d = 0 && x.a = 0 }

/-- The operands of LDS. -/
def lds (x : MF) : Shape :=
  { ld 0x32 x (scratchRegs x.sco) with legal := x.sco ≠ 7 && x.ord = 0 }

/-- The operands of STS. -/
def sts (x : MF) : Shape :=
  { st 0x33 x (scratchRegs x.sco) with legal := x.sco ≠ 7 && x.sco ≠ 1 && x.sco ≠ 3 && x.ord = 0 }

/-- The operands of FENCE. -/
def fence (scope : BitVec 3) (x : SF) : Shape :=
  { s0 0x38 x with legal := scope ≠ 7 }

/-- The operands of FLUSHR. -/
def flushr (order : BitVec 2) (scope : BitVec 3) (x : SF) : Shape :=
  { maj := 0x38, c := x.c = 1, ss := [(x.a, 2), (x.b, 1)], unused := x.d = 0,
    legal := order = 1 && 3 ≤ scope.toNat && scope.toNat ≤ 6 }

/-- The operands of INVR. -/
def invr (order : BitVec 2) (scope : BitVec 3) (x : SF) : Shape :=
  { maj := 0x38, c := x.c = 1, ss := [(x.a, 2), (x.b, 1)], unused := x.d = 0,
    legal := order = 0 && 3 ≤ scope.toNat && scope.toNat ≤ 6 }

/-- The operands of PREF. -/
def pref (order : BitVec 2) (scope : BitVec 3) (x : SF) : Shape :=
  { maj := 0x38, c := x.c = 1, ss := [(x.a, 2), (x.b, 1)], unused := x.d = 0, legal := order ≠ 3 && scope = 0 }

/-- The operands of TRDV. -/
def trdv (x : XF) : Shape :=
  { maj := 0x3C, c := x.c = 1, vd := some (x.v, 1), latching := true, ss := [(x.s, 1)], legal := x.k.extractLsb' 4 8 = 0 }

/-- The operands of TWRV. -/
def twrv (x : XF) : Shape :=
  { maj := 0x3D, c := x.c = 1, vs := [⟨0, x.v, 1⟩], ss := [(x.s, 1)], legal := x.k.extractLsb' 4 8 = 0 }

/-- An engine command of format S (03 R47). -/
def engine (s : Shape) : Shape := { s with eng := true }

end Shape

open Shape in
/-- The shape of an instruction. Events have none. -/
def Instr.shape : Instr → Shape
  | .iadd x | .isub x | .imul x | .imulhI x | .imulhN x | .iabsdI x => v3 1 x
  | .imad x | .isadN x => v3d 1 x
  | .iminI x | .imaxI x | .iminN x | .imaxN x | .iaddsI x | .isubsI x | .iaddsN x | .isubsN x => v3 2 x
  | .and x | .or x | .xor x | .andn x | .orn x | .shl x | .shr x | .sar x => v3 3 x
  | .rotl x | .bfxI x | .bfxN x => v3 4 x
  | .bfi x | .prmb x => v3d 4 x
  | .clz x | .popc x | .brev x => v3u 4 x
  | .iaddi x | .shli x | .shri x | .sari x | .andi x | .ori x | .xori x | .rotli x => vi x
  | .shfl x | .shflup x | .shfldn x | .shflx x => v3 6 x
  | .tsumI x | .tminI x | .tmaxI x | .tscanI x => v3u 6 x
  | .mov x => v3u 7 x
  | .laneid x => Shape.laneid x
  | .lidx x => v3 7 x
  | .iseq x | .isne x | .isltI x | .isleI x | .isltN x | .isleN x | .isany x | .isnone x => p 8 x
  | .fseq x | .fsne x | .fslt x | .fsle x | .fsun x | .fsord x => p 9 x
  | .fsnan x | .fsinf x => pu 9 x
  | .pand x | .por x | .pxor x => p2 x
  | .pnot x | .pany x | .pall x | .pelect x => p1 x
  | .psig x => Shape.psig x
  | .sadd x | .ssub x | .smul x | .smulhI x | .smulhN x | .sdivI x | .sdivN x | .sremI x | .sremN x
  | .sand x | .sor x | .sxor x | .sandn x | .sshl x | .sshr x | .ssar x | .sminI x | .smaxI x | .sminN x | .smaxN x
  | .sseq x | .ssltI x | .ssltN x | .sbfx x => s3 0x0B x 1 1 1
  | .sclz x | .spopc x | .smov x => s2 0x0B x 1 1
  | .sadd64 x | .ssub64 x => s3 0x0B x 2 2 2
  | .sshl64 x | .sshr64 x | .saddx x => s3 0x0B x 2 2 1
  | .saddi x | .sandi x | .sori x | .sxori x | .sshli x | .sshri x | .ssari x | .ssltiI x => si x
  | .bcast x => Shape.bcast x
  | .lanerd x => Shape.lanerd x
  | .mfc x => Shape.mfc x
  | .mtc x => Shape.mtc x
  | .pmov x => Shape.pmov x
  | .fadd x | .fsub x | .fmul x | .fmin x | .fmax x | .fcpsgn x => v3 0x12 x
  | .fabs x | .fneg x => v3u 0x12 x
  | .ffma x | .ffms x | .fnfma x => v3d 0x13 x
  | .fdiv x => v3 0x13 x
  | .fsqrt x | .frcp x | .frsq x | .fexp2 x => v3u 0x13 x
  | .flog2 x | .fsinpi x | .fcospi x | .ffloor x | .fceil x | .ftrunc x | .frint x | .ffract x => v3u 0x14 x
  | .f4add x | .f4sub x | .f4mul x | .f4min x | .f4max x => v3n 0x15 x 4
  | .f4fma x | .f4fms x => v3nd 0x15 x 4
  | .dadd x | .dsub x | .dmul x | .ddiv x | .dmin x | .dmax x => v3n 0x16 x 2
  | .dfma x => v3nd 0x16 x 2
  | .dsqrt x => Shape.dsqrt x
  | .hadd2 x | .hmul2 x | .hmax2 x | .badd2 x | .bmul2 x | .bmax2 x => v3 0x17 x
  | .hfma2 x | .bfma2 x => v3d 0x17 x
  | .cvt x | .cvts x => Shape.cvt x
  | .pk8 x | .pk4 x | .qdec x => v3d 0x18 x
  | .upk8 x | .upk4 x | .qenc x => v3 0x18 x
  | .tagrd x | .tagunt x => v3u 0x19 x
  | .tagwr x | .tagmin x => v3 0x19 x
  | .tagfull x => Shape.tagfull x
  | .bra x => Shape.bra x
  | .call x => Shape.call x
  | .ret x => Shape.ret x
  | .jmpi x => Shape.jmpi x
  | .calli x => Shape.calli x
  | .exit x | .yield x => Shape.exit x
  | .nop x => s0 0x1B x
  | .brk x | .trap x => Shape.brk x
  | .prioset x => sA 0x1B x 1
  | .enrol _ x | .joinw _ x => s0 0x1C x
  | .joinq _ x | .maskrd _ x => sD 0x1C x 1
  | .spawn x => Shape.spawn x
  | .bara _ x => s0 0x1E x
  | .barw _ x | .baraw _ x => parking (s0 0x1E x)
  | .bcbi _ x => s2 0x1E x 1 1
  | .bcbx _ x | .bcba _ x => sA 0x1E x 1
  | .bcbw _ x => parking (sD 0x1E x 1)
  | .promw _ x => parking (s2 0x1E x 1 2)
  | .waitc x => parking (s3 0x1F x 1 2 4)
  | .watch x | .unwatch x => s2 0x1F x 1 2
  | .sleep x => Shape.sleep x
  | .binfl x => Shape.binfl x
  | .suspend x => Shape.suspend x
  | .resume x => s2 0x20 x 1 2
  | .tcopy x => Shape.tcopy x
  | .tdisc x => sA 0x20 x 2
  | .tstat x => s2 0x20 x 1 2
  | .claim _ x => s3 0x21 x 1 2 2
  | .object _ x | .clwait _ x => parking (s2 0x21 x 1 1)
  | .clpeek _ x | .clpop _ x => sD 0x21 x 8
  | .cljoin _ x => Shape.cljoin x
  | .clleave _ x => Shape.clleave x
  | .rtr x | .rts x => Shape.rtr x
  | .replay x => Shape.replay x
  | .tlbi x => Shape.tlbi x
  | .harvest x => Shape.harvest x
  | .park x | .halt x => Shape.park x
  | .scall x => Shape.scall x
  | .ld8I x => ld 0x24 x 1
  | .ld8N x => ld 0x25 x 1
  | .ld16I x => ld 0x26 x 1
  | .ld16N x => ld 0x27 x 1
  | .ld32 x => ld 0x28 x 1
  | .ld64 x => ld 0x29 x 2
  | .ld128 x => ld 0x2A x 4
  | .ldt32 x => ld 0x2B x 1
  | .st8 x => st 0x2C x 1
  | .st16 x => st 0x2D x 1
  | .st32 x => st 0x2E x 1
  | .st64 x => st 0x2F x 2
  | .st128 x => st 0x30 x 4
  | .stt32 x => st 0x31 x 1
  | .lds x => Shape.lds x
  | .sts x => Shape.sts x
  | .atomAdd o x | .atomMini o x | .atomMaxi o x | .atomMinn o x | .atomMaxn o x | .atomAnd o x | .atomOr o x
  | .atomXor o x | .atomSwap o x | .atomFadd o x | .atomFmin o x | .atomFmax o x | .atomIncw o x
  | .atomDecsp o x => Shape.atom o x 1 1
  | .atomAdd64 o x | .atomSwap64 o x => Shape.atom o x 2 2
  | .atomCas o x => Shape.atom o x 2 1
  | .atomCas64 o x => Shape.atom o x 4 2
  | .atomRedadd o x | .atomRedfadd o x => Shape.atom o x 1 0
  | .fence _ scope x => Shape.fence scope x
  | .flushr order scope x => Shape.flushr order scope x
  | .invr order scope x => Shape.invr order scope x
  | .pref order scope x => Shape.pref order scope x
  | .tld _ x | .tst _ x => sA 0x39 x 4
  | .tzero _ x => s0 0x39 x
  | .ttag _ x => s2 0x39 x 1 1
  | .mma x | .mma4 x => engine (s2 0x3A x 1 2)
  | .mmaw x => parking (s2 0x3A x 1 1)
  | .mmaq x | .mmax x => engine (s2 0x3A x 1 1)
  | .cpy x => engine (s2 0x3B x 4 2)
  | .gath x | .scat x | .coll x => engine (s3 0x3B x 4 2 2)
  | .ewait x => parking (s2 0x3B x 1 1)
  | .ecan x => s2 0x3B x 1 1
  | .eqry x => s2 0x3B x 4 1
  | .trdv x => Shape.trdv x
  | .twrv x => Shape.twrv x
  | .himm _ => { maj := 0x3F }
  | .hgrd p => { maj := 0x3F, ps := [p.extractLsb' 17 4], legal := p.extractLsb' 0 13 = 0 }
  | .hprio p => { maj := 0x3F, legal := p.extractLsb' 0 13 = 0 }
  | .hrnd p | .hscp p => { maj := 0x3F, legal := p.extractLsb' 0 18 = 0 }
  | .hrlx p | .hyld p => { maj := 0x3F, legal := p = 0 }
  | .hreuse p => { maj := 0x3F, legal := p.extractLsb' 0 19 = 0 }
  | .hsig p => { maj := 0x3F, legal := p.extractLsb' 0 15 = 0 }
  | .hlat p => { maj := 0x3F, legal := p.extractLsb' 0 9 = 0 }
  | .stintStart _ _ | .instructionFetch _ _ | .trapDelivery _ | .teamEviction _ | .crewPlacement _
  | .binTimerExpiry _ _ | .crewMigration _ _ | .steeringInterval _ | .stopRequest _ _ | .graceExpiry _
  | .deferralExpiry _ | .saveReport _ | .tenantSwitch _ _ | .queueBounce _ | .bounceArrival _
  | .reissueBackoffExpiry _ | .pannierReissue _ | .translationWalk _ | .faultRecordRetry _ _
  | .memoryRequestPerformed _ _ | .ownershipRegistration _ _ | .writeBack _ _ | .writebackTimeLimit _ _
  | .waitcTimeout _ _ | .sleepExpiry _ _ | .promwDeadline _ _ | .matrixGrant _ | .matrixCompletion _
  | .fourInHandGrant _ _ _ | .fourInHandCompletion _ | .harnessError _ | .copyAccept _ | .copyStart _
  | .copyFault _ | .copyCompletion _ | .claimAnnouncement _ _ | .objectionArrival _ _ | .objectionAnswer _ _ _
  | .claimWindowClose _ _ | .membershipUpdate _ _ | .ticketPoll _ _ | .traincfg _ | .linkcfg _ _ | .bound _ _ _
  | .engerr _ _ | .linkDown _ | .linkUp _ | .linkRetrain _ | .flit _ _ | .retryRequest _ _ | .postedWrite _
  | .readRequest _ | .remoteLoadReply _ _ _ | .acknowledgement _ _ _ | .refusal _ _ _ _ | .streamRetire _ _
  | .unreachable _ | .doorbell _ _ | .launchRecord _ | .messageLaunch _ | .scallServiceReturn _ _
  | .hostBar2Access _ _ | .heqcons _ | .registerWrite _ _ | .create _ _ | .resize _ _ | .destroy _ | .stop _
  | .start _ | .getVersion _ | .getCapabilities _ | .negotiateAlgorithms _ | .getDigests _ | .getCertificate _
  | .challenge _ | .getMeasurements _ | .keyExchange _ | .finish _ | .heartbeat _ | .keyUpdate _
  | .endSession _ | .vendorDefinedRequest _ | .lockInterfaceRequest _ _ | .startInterfaceRequest _ _
  | .stopInterfaceRequest _ _ | .getDeviceInterfaceReport _ _ | .ideIntegrityFailure _ | .policyObject _ _
  | .flr _ | .resetCompletion _ | .powerLimit _ _ | .thermalTrip | .powerOn | .streamIdleExpiry _ => { maj := 0 }

namespace Shape

/-- W = 1 needs a latching instruction and D = 0 (03 R41). -/
def wOk (s : Shape) : Bool :=
  match s.wd with
  | none => true
  | some (w, d) => w = 0 || (s.latching && d = 0)

/-- No vector field holds a code from 125 to 127 (03 R38). -/
def codesOk (s : Shape) : Bool :=
  s.vs.all (fun o => o.code.toNat ≤ 124) && (s.vd.all fun d => d.1.toNat ≤ 124)

/-- No predicate field holds a code from 12 to 14, and no destination is `pt` (03 R40). -/
def predsOk (s : Shape) : Bool :=
  s.ps.all (fun p => p.toNat ≤ 11 || p = 15) && (s.pd.all fun p => p.toNat ≤ 11)

/-- A register group of `n` registers starts at a multiple of `n` (03 R38). -/
def groupOk (code : BitVec 7) (n : Nat) : Bool := 120 ≤ code.toNat || code.toNat % n = 0

/-- A code names a latch (03 R38). -/
def isLatch (code : BitVec 7) : Bool := 120 ≤ code.toNat && code.toNat ≤ 123

/-- The vector checks of step 3 of 03 R54 that need no state (02 R14, R17, 03 R38). -/
def vectorsOk (s : Shape) : Bool :=
  s.vs.all (fun o => groupOk o.code o.n && (o.n = 1 || !isLatch o.code)) &&
  (s.vd.all fun d => groupOk d.1 d.2 && !isLatch d.1)

/-- The scalar checks of step 3 of 03 R54 (02 R13). -/
def scalarsOk (s : Shape) : Bool :=
  s.ss.all (fun o => o.1.toNat % o.2 = 0) && (s.sd.all fun d => d.1.toNat % d.2 = 0)

/-- The checks of step 2 of 03 R54 on the fields of a word that the opcode map assigns. -/
def r53Ok (s : Shape) : Bool := s.unused && s.legal && wOk s && codesOk s && predsOk s

/-- The checks of step 3 of 03 R54 that the word alone decides. -/
def step3Ok (s : Shape) : Bool := vectorsOk s && scalarsOk s && (!s.cZero || !s.c)

/-- The vector destination that the instruction writes: none with W = 1 (03 R41). -/
def written (s : Shape) : Option (BitVec 7 × Nat) :=
  match s.wd with
  | some (1, _) => none
  | _ => s.vd

/-- The latch codes an instruction reads. -/
def latchReads (s : Shape) : List Nat :=
  (s.vs.filter fun o => isLatch o.code).map fun o => o.code.toNat - 120

end Shape

end Sys2Proof
end

