-- ==== Sys2Proof/WellFormed.lean ====
section
/-! DEFINITION. Well-formed instructions: the fields R53 allows (03 R37 to R47) and the operand codes and shapes of step 3
of R54 that the word alone decides (02 R13 to R17, 03 R38 to R41, R46). -/

namespace Sys2Proof

/-- The instruction's fields pass every check of steps 2 and 3 of R54 that needs no machine state. -/
def Instr.wellFormed (i : Instr) : Bool := i.shape.r53Ok && i.shape.step3Ok

end Sys2Proof
end

