-- ==== Sys2Proof/Decode.lean ====
section
/-! DEFINITION. Decoding (03 R51 to R53): total on any word, rejecting by name; and the encoder, from the same tables. -/

namespace Sys2Proof

open Bits

/-- Why a word is not an instruction (03 R53). -/
inductive DecodeError where
  /-- Major opcode 0x00, 0x23 or 0x3E. -/
  | reservedMajor
  /-- A minor, FN, OP or hint kind that the map leaves free, or bit 0 of a claim's FN. -/
  | reservedMinor
  /-- Bit 25 of a B word (03 R36). -/
  | formatBit
  /-- A field that the instruction does not use is not zero (03 R37). -/
  | unusedField
  /-- A field holds a reserved value. -/
  | reservedValue
  /-- W = 1 where R41 forbids it. -/
  | writeBack
  /-- A vector code from 125 to 127 (03 R38). -/
  | operandCode
  /-- A predicate code that R40 forbids. -/
  | predicateCode
  deriving DecidableEq, Repr

/-- The formats (03 R37). -/
inductive Fmt where
  | none | v3 | vi | p | s | si | x | m | at | b | h | sm | sk | sg | sf
  deriving DecidableEq, Repr

/-- The format of a major opcode (03 R51); majors 0x1C, 0x1E, 0x39, 0x21 and 0x38 split their FN (03 R52). -/
def fmtOf (m : Nat) : Fmt :=
  match m with
  | 0x00 | 0x23 | 0x3E => .none
  | 0x05 => .vi
  | 0x08 | 0x09 | 0x0A => .p
  | 0x0B | 0x1B | 0x1F | 0x20 | 0x22 | 0x3A | 0x3B => .s
  | 0x0C => .si
  | 0x0D | 0x0E | 0x0F | 0x10 | 0x11 | 0x1D | 0x3C | 0x3D => .x
  | 0x1A => .b
  | 0x1C => .sm
  | 0x1E | 0x39 => .sk
  | 0x21 => .sg
  | 0x38 => .sf
  | 0x24 | 0x25 | 0x26 | 0x27 | 0x28 | 0x29 | 0x2A | 0x2B | 0x2C | 0x2D | 0x2E | 0x2F | 0x30 | 0x31 | 0x32 | 0x33 => .m
  | 0x34 | 0x35 | 0x36 | 0x37 => .at
  | 0x3F => .h
  | _ => .v3

/-- Minors of the V3 majors (03 R51). -/
noncomputable def v3Instr (m f : Nat) (x : V3) : Option Instr :=
  match m with
  | 0x01 =>
    match f with
    | 0 => some (.iadd x)
    | 1 => some (.isub x)
    | 2 => some (.imul x)
    | 3 => some (.imulhI x)
    | 4 => some (.imulhN x)
    | 5 => some (.imad x)
    | 6 => some (.iabsdI x)
    | 7 => some (.isadN x)
    | _ => none
  | 0x02 =>
    match f with
    | 0 => some (.iminI x)
    | 1 => some (.imaxI x)
    | 2 => some (.iminN x)
    | 3 => some (.imaxN x)
    | 4 => some (.iaddsI x)
    | 5 => some (.isubsI x)
    | 6 => some (.iaddsN x)
    | 7 => some (.isubsN x)
    | _ => none
  | 0x03 =>
    match f with
    | 0 => some (.and x)
    | 1 => some (.or x)
    | 2 => some (.xor x)
    | 3 => some (.andn x)
    | 4 => some (.orn x)
    | 5 => some (.shl x)
    | 6 => some (.shr x)
    | 7 => some (.sar x)
    | _ => none
  | 0x04 =>
    match f with
    | 0 => some (.rotl x)
    | 1 => some (.bfxI x)
    | 2 => some (.bfxN x)
    | 3 => some (.bfi x)
    | 4 => some (.prmb x)
    | 5 => some (.clz x)
    | 6 => some (.popc x)
    | 7 => some (.brev x)
    | _ => none
  | 0x06 =>
    match f with
    | 0 => some (.shfl x)
    | 1 => some (.shflup x)
    | 2 => some (.shfldn x)
    | 3 => some (.shflx x)
    | 4 => some (.tsumI x)
    | 5 => some (.tminI x)
    | 6 => some (.tmaxI x)
    | 7 => some (.tscanI x)
    | _ => none
  | 0x07 =>
    match f with
    | 0 => some (.mov x)
    | 1 => some (.laneid x)
    | 2 => some (.lidx x)
    | _ => none
  | 0x12 =>
    match f with
    | 0 => some (.fadd x)
    | 1 => some (.fsub x)
    | 2 => some (.fmul x)
    | 3 => some (.fmin x)
    | 4 => some (.fmax x)
    | 5 => some (.fabs x)
    | 6 => some (.fneg x)
    | 7 => some (.fcpsgn x)
    | _ => none
  | 0x13 =>
    match f with
    | 0 => some (.ffma x)
    | 1 => some (.ffms x)
    | 2 => some (.fnfma x)
    | 3 => some (.fdiv x)
    | 4 => some (.fsqrt x)
    | 5 => some (.frcp x)
    | 6 => some (.frsq x)
    | 7 => some (.fexp2 x)
    | _ => none
  | 0x14 =>
    match f with
    | 0 => some (.flog2 x)
    | 1 => some (.fsinpi x)
    | 2 => some (.fcospi x)
    | 3 => some (.ffloor x)
    | 4 => some (.fceil x)
    | 5 => some (.ftrunc x)
    | 6 => some (.frint x)
    | 7 => some (.ffract x)
    | _ => none
  | 0x15 =>
    match f with
    | 0 => some (.f4add x)
    | 1 => some (.f4sub x)
    | 2 => some (.f4mul x)
    | 3 => some (.f4fma x)
    | 4 => some (.f4fms x)
    | 5 => some (.f4min x)
    | 6 => some (.f4max x)
    | _ => none
  | 0x16 =>
    match f with
    | 0 => some (.dadd x)
    | 1 => some (.dsub x)
    | 2 => some (.dmul x)
    | 3 => some (.dfma x)
    | 4 => some (.ddiv x)
    | 5 => some (.dsqrt x)
    | 6 => some (.dmin x)
    | 7 => some (.dmax x)
    | _ => none
  | 0x17 =>
    match f with
    | 0 => some (.hadd2 x)
    | 1 => some (.hmul2 x)
    | 2 => some (.hfma2 x)
    | 3 => some (.hmax2 x)
    | 4 => some (.badd2 x)
    | 5 => some (.bmul2 x)
    | 6 => some (.bfma2 x)
    | 7 => some (.bmax2 x)
    | _ => none
  | 0x18 =>
    match f with
    | 0 => some (.cvt x)
    | 1 => some (.cvts x)
    | 2 => some (.pk8 x)
    | 3 => some (.pk4 x)
    | 4 => some (.upk8 x)
    | 5 => some (.upk4 x)
    | 6 => some (.qdec x)
    | 7 => some (.qenc x)
    | _ => none
  | 0x19 =>
    match f with
    | 0 => some (.tagrd x)
    | 1 => some (.tagwr x)
    | 2 => some (.tagmin x)
    | 3 => some (.tagfull x)
    | 4 => some (.tagunt x)
    | _ => none
  | _ => none

/-- Minors of the VI major (03 R51). -/
noncomputable def viInstr (m f : Nat) (x : VI) : Option Instr :=
  match m with
  | 0x05 =>
    match f with
    | 0 => some (.iaddi x)
    | 1 => some (.shli x)
    | 2 => some (.shri x)
    | 3 => some (.sari x)
    | 4 => some (.andi x)
    | 5 => some (.ori x)
    | 6 => some (.xori x)
    | 7 => some (.rotli x)
    | _ => none
  | _ => none

/-- Condition codes of the P majors (03 R51). -/
noncomputable def pInstr (m f : Nat) (x : P3) : Option Instr :=
  match m with
  | 0x08 =>
    match f with
    | 0 => some (.iseq x)
    | 1 => some (.isne x)
    | 2 => some (.isltI x)
    | 3 => some (.isleI x)
    | 4 => some (.isltN x)
    | 5 => some (.isleN x)
    | 6 => some (.isany x)
    | 7 => some (.isnone x)
    | _ => none
  | 0x09 =>
    match f with
    | 0 => some (.fseq x)
    | 1 => some (.fsne x)
    | 2 => some (.fslt x)
    | 3 => some (.fsle x)
    | 4 => some (.fsun x)
    | 5 => some (.fsord x)
    | 6 => some (.fsnan x)
    | 7 => some (.fsinf x)
    | _ => none
  | 0x0A =>
    match f with
    | 0 => some (.pand x)
    | 1 => some (.por x)
    | 2 => some (.pxor x)
    | 3 => some (.pnot x)
    | 4 => some (.pany x)
    | 5 => some (.pall x)
    | 6 => some (.psig x)
    | 7 => some (.pelect x)
    | _ => none
  | _ => none

/-- FN values of the S majors whose FN is one operation (03 R52). -/
noncomputable def sInstr (m f : Nat) (x : SF) : Option Instr :=
  match m with
  | 0x0B =>
    match f with
    | 0 => some (.sadd x)
    | 1 => some (.ssub x)
    | 2 => some (.smul x)
    | 3 => some (.smulhI x)
    | 4 => some (.smulhN x)
    | 5 => some (.sdivI x)
    | 6 => some (.sdivN x)
    | 7 => some (.sremI x)
    | 8 => some (.sremN x)
    | 9 => some (.sand x)
    | 10 => some (.sor x)
    | 11 => some (.sxor x)
    | 12 => some (.sandn x)
    | 13 => some (.sshl x)
    | 14 => some (.sshr x)
    | 15 => some (.ssar x)
    | 16 => some (.sminI x)
    | 17 => some (.smaxI x)
    | 18 => some (.sminN x)
    | 19 => some (.smaxN x)
    | 20 => some (.sclz x)
    | 21 => some (.spopc x)
    | 22 => some (.sseq x)
    | 23 => some (.ssltI x)
    | 24 => some (.ssltN x)
    | 25 => some (.smov x)
    | 26 => some (.sadd64 x)
    | 27 => some (.ssub64 x)
    | 28 => some (.sshl64 x)
    | 29 => some (.sshr64 x)
    | 30 => some (.saddx x)
    | 31 => some (.sbfx x)
    | _ => none
  | 0x1B =>
    match f with
    | 0 => some (.ret x)
    | 1 => some (.jmpi x)
    | 2 => some (.calli x)
    | 3 => some (.exit x)
    | 4 => some (.yield x)
    | 5 => some (.nop x)
    | 6 => some (.brk x)
    | 7 => some (.trap x)
    | 8 => some (.prioset x)
    | _ => none
  | 0x1F =>
    match f with
    | 0 => some (.waitc x)
    | 1 => some (.watch x)
    | 2 => some (.unwatch x)
    | 3 => some (.sleep x)
    | 4 => some (.binfl x)
    | _ => none
  | 0x20 =>
    match f with
    | 0 => some (.suspend x)
    | 1 => some (.resume x)
    | 2 => some (.tcopy x)
    | 3 => some (.tdisc x)
    | 4 => some (.tstat x)
    | _ => none
  | 0x22 =>
    match f with
    | 0 => some (.rtr x)
    | 1 => some (.rts x)
    | 2 => some (.replay x)
    | 3 => some (.tlbi x)
    | 4 => some (.harvest x)
    | 5 => some (.park x)
    | 6 => some (.halt x)
    | 7 => some (.scall x)
    | _ => none
  | 0x3A =>
    match f with
    | 0 => some (.mma x)
    | 1 => some (.mma4 x)
    | 2 => some (.mmaw x)
    | 3 => some (.mmaq x)
    | 4 => some (.mmax x)
    | _ => none
  | 0x3B =>
    match f with
    | 0 => some (.cpy x)
    | 1 => some (.gath x)
    | 2 => some (.scat x)
    | 3 => some (.coll x)
    | 4 => some (.ewait x)
    | 5 => some (.ecan x)
    | 6 => some (.eqry x)
    | _ => none
  | _ => none

/-- Minors of the SI major (03 R51). -/
noncomputable def siInstr (m f : Nat) (x : SI) : Option Instr :=
  match m with
  | 0x0C =>
    match f with
    | 0 => some (.saddi x)
    | 1 => some (.sandi x)
    | 2 => some (.sori x)
    | 3 => some (.sxori x)
    | 4 => some (.sshli x)
    | 5 => some (.sshri x)
    | 6 => some (.ssari x)
    | 7 => some (.ssltiI x)
    | _ => none
  | _ => none

/-- The X majors (03 R51). -/
noncomputable def xInstr (m : Nat) (x : XF) : Option Instr :=
  match m with
  | 0x0D => some (.bcast x)
  | 0x0E => some (.lanerd x)
  | 0x0F => some (.mfc x)
  | 0x10 => some (.mtc x)
  | 0x11 => some (.pmov x)
  | 0x1D => some (.spawn x)
  | 0x3C => some (.trdv x)
  | 0x3D => some (.twrv x)
  | _ => none

/-- The M majors (03 R51). -/
noncomputable def mInstr (m : Nat) (x : MF) : Option Instr :=
  match m with
  | 0x24 => some (.ld8I x)
  | 0x25 => some (.ld8N x)
  | 0x26 => some (.ld16I x)
  | 0x27 => some (.ld16N x)
  | 0x28 => some (.ld32 x)
  | 0x29 => some (.ld64 x)
  | 0x2A => some (.ld128 x)
  | 0x2B => some (.ldt32 x)
  | 0x2C => some (.st8 x)
  | 0x2D => some (.st16 x)
  | 0x2E => some (.st32 x)
  | 0x2F => some (.st64 x)
  | 0x30 => some (.st128 x)
  | 0x31 => some (.stt32 x)
  | 0x32 => some (.lds x)
  | 0x33 => some (.sts x)
  | _ => none

/-- The OP values of an atomic (03 R51). -/
noncomputable def atInstr (f : Nat) (o : BitVec 2) (x : AT) : Option Instr :=
  match f with
  | 0 => some (.atomAdd o x)
  | 1 => some (.atomAdd64 o x)
  | 2 => some (.atomMini o x)
  | 3 => some (.atomMaxi o x)
  | 4 => some (.atomMinn o x)
  | 5 => some (.atomMaxn o x)
  | 6 => some (.atomAnd o x)
  | 7 => some (.atomOr o x)
  | 8 => some (.atomXor o x)
  | 9 => some (.atomSwap o x)
  | 10 => some (.atomCas o x)
  | 11 => some (.atomSwap64 o x)
  | 12 => some (.atomCas64 o x)
  | 13 => some (.atomFadd o x)
  | 14 => some (.atomFmin o x)
  | 15 => some (.atomFmax o x)
  | 16 => some (.atomIncw o x)
  | 17 => some (.atomDecsp o x)
  | 18 => some (.atomRedadd o x)
  | 19 => some (.atomRedfadd o x)
  | _ => none

/-- Rejoin masks: FN[6:2] the operation, FN[1:0] the mask (03 R52). -/
noncomputable def smInstr (m f : Nat) (k : BitVec 2) (x : SF) : Option Instr :=
  match m with
  | 0x1C =>
    match f with
    | 0 => some (.enrol k x)
    | 1 => some (.joinw k x)
    | 2 => some (.joinq k x)
    | 3 => some (.maskrd k x)
    | _ => none
  | _ => none

/-- Barriers and tiles: FN[6:4] the operation, FN[3:0] the index (03 R52). -/
noncomputable def skInstr (m f : Nat) (k : BitVec 4) (x : SF) : Option Instr :=
  match m with
  | 0x1E =>
    match f with
    | 0 => some (.bara k x)
    | 1 => some (.barw k x)
    | 2 => some (.baraw k x)
    | 3 => some (.bcbi k x)
    | 4 => some (.bcbx k x)
    | 5 => some (.bcbw k x)
    | 6 => some (.bcba k x)
    | 7 => some (.promw k x)
    | _ => none
  | 0x39 =>
    match f with
    | 0 => some (.tld k x)
    | 1 => some (.tst k x)
    | 2 => some (.tzero k x)
    | 3 => some (.ttag k x)
    | _ => none
  | _ => none

/-- Claims: FN[6:4] the operation, FN[3:1] the group (03 R52). -/
noncomputable def sgInstr (m f : Nat) (k : BitVec 3) (x : SF) : Option Instr :=
  match m with
  | 0x21 =>
    match f with
    | 0 => some (.claim k x)
    | 1 => some (.object k x)
    | 2 => some (.clpeek k x)
    | 3 => some (.clpop k x)
    | 4 => some (.clwait k x)
    | 5 => some (.cljoin k x)
    | 6 => some (.clleave k x)
    | _ => none
  | _ => none

/-- Fences: FN[6:5] the kind, FN[4:3] the order, FN[2:0] the scope (03 R52). -/
noncomputable def sfInstr (m f : Nat) (k : BitVec 2) (sc : BitVec 3) (x : SF) : Option Instr :=
  match m with
  | 0x38 =>
    match f with
    | 0 => some (.fence k sc x)
    | 1 => some (.flushr k sc x)
    | 2 => some (.invr k sc x)
    | 3 => some (.pref k sc x)
    | _ => none
  | _ => none

/-- Hint kinds (03 R47). -/
noncomputable def hInstr (f : Nat) (p : BitVec 21) : Option Instr :=
  match f with
  | 0 => some (.hgrd p)
  | 1 => some (.hprio p)
  | 2 => some (.hrnd p)
  | 3 => some (.hscp p)
  | 4 => some (.hrlx p)
  | 5 => some (.hyld p)
  | 6 => some (.hreuse p)
  | 7 => some (.hsig p)
  | 8 => some (.hlat p)
  | _ => none
/-- The instruction whose encoding a word carries, with every field as it stands: R51 and R52 alone. -/
noncomputable def parse (w : Word) : Except DecodeError Instr :=
  let m := (w.extractLsb' 26 6).toNat
  let named (o : Option Instr) : Except DecodeError Instr :=
    match o with
    | some i => .ok i
    | none => .error .reservedMinor
  match fmtOf m with
  | .none => .error .reservedMajor
  | .v3 => named (v3Instr m (w.extractLsb' 0 3).toNat (V3.of w))
  | .vi => named (viInstr m (w.extractLsb' 7 3).toNat (VI.of w))
  | .p => named (pInstr m (w.extractLsb' 0 3).toNat (P3.of w))
  | .s => named (sInstr m (w.extractLsb' 18 7).toNat (SF.of w))
  | .si => named (siInstr m (w.extractLsb' 10 3).toNat (SI.of w))
  | .x => named (xInstr m (XF.of w))
  | .m => named (mInstr m (MF.of w))
  | .at => named (atInstr (w.extractLsb' 0 5).toNat (w.extractLsb' 26 2) (AT.of w))
  | .b =>
    if w.extractLsb' 25 1 = 1 then .error .formatBit
    else if w.extractLsb' 19 1 = 1 then .ok (.call (BF.of w)) else .ok (.bra (BF.of w))
  | .sm => named (smInstr m (w.extractLsb' 20 5).toNat (w.extractLsb' 18 2) (SF.of w))
  | .sk => named (skInstr m (w.extractLsb' 22 3).toNat (w.extractLsb' 18 4) (SF.of w))
  | .sg =>
    if w.extractLsb' 18 1 = 1 then .error .reservedMinor
    else named (sgInstr m (w.extractLsb' 22 3).toNat (w.extractLsb' 19 3) (SF.of w))
  | .sf => named (sfInstr m (w.extractLsb' 23 2).toNat (w.extractLsb' 21 2) (w.extractLsb' 18 3) (SF.of w))
  | .h =>
    if w.extractLsb' 25 1 = 1 then .ok (.himm (w.extractLsb' 0 25))
    else named (hInstr (w.extractLsb' 21 4).toNat (w.extractLsb' 0 21))

/-- The first reason of R53 for which the fields of a word are rejected. -/
def fieldError (i : Instr) : Option DecodeError :=
  let s := i.shape
  if !s.unused then some .unusedField
  else if !s.legal then some .reservedValue
  else if !s.wOk then some .writeBack
  else if !s.codesOk then some .operandCode
  else if !s.predsOk then some .predicateCode
  else none

/-- Decoding of one word (03 R53): an instruction, or the reason why it is none. -/
noncomputable def decode (w : Word) : Except DecodeError Instr :=
  match parse w with
  | .error e => .error e
  | .ok i =>
    match fieldError i with
    | some e => .error e
    | none => .ok i

/-- Whether a row of the table has an encoding: events have none (95). -/
def Instr.encoded : Instr → Bool
  | .stintStart _ _ | .instructionFetch _ _ | .trapDelivery _ | .teamEviction _ | .crewPlacement _
  | .binTimerExpiry _ _ | .crewMigration _ _ | .steeringInterval _ | .stopRequest _ _ | .graceExpiry _
  | .deferralExpiry _ | .saveReport _ | .tenantSwitch _ _ | .queueBounce _ | .bounceArrival _
  | .reissueBackoffExpiry _ | .pannierReissue _ | .translationWalk _ | .faultRecordRetry _ _
  | .memoryRequestPerformed _ _ | .ownershipRegistration _ _ | .writeBack _ _ | .writebackTimeLimit _ _
  | .waitcTimeout _ _ | .sleepExpiry _ _ | .promwDeadline _ _ | .matrixGrant _ | .matrixCompletion _
  | .fourInHandGrant _ _ _ | .fourInHandCompletion _ | .harnessError _ | .copyAccept _ | .copyStart _
  | .copyFault _ | .copyCompletion _ | .claimAnnouncement _ _ | .objectionArrival _ _ | .objectionAnswer _ _ _
  | .claimWindowClose _ _ | .membershipUpdate _ _ | .ticketPoll _ _ | .traincfg _ | .linkcfg _ _ | .bound _ _ _
  | .engerr _ _ | .linkDown _ | .linkUp _ | .linkRetrain _ | .flit _ _ | .retryRequest _ _ | .postedWrite _
  | .readRequest _ | .remoteLoadReply _ _ _ | .acknowledgement _ _ _ | .refusal _ _ _ _ | .streamRetire _ _
  | .unreachable _ | .doorbell _ _ | .launchRecord _ | .messageLaunch _ | .scallServiceReturn _ _
  | .hostBar2Access _ _ | .heqcons _ | .registerWrite _ _ | .create _ _ | .resize _ _ | .destroy _ | .stop _
  | .start _ | .getVersion _ | .getCapabilities _ | .negotiateAlgorithms _ | .getDigests _ | .getCertificate _
  | .challenge _ | .getMeasurements _ | .keyExchange _ | .finish _ | .heartbeat _ | .keyUpdate _
  | .endSession _ | .vendorDefinedRequest _ | .lockInterfaceRequest _ _ | .startInterfaceRequest _ _
  | .stopInterfaceRequest _ _ | .getDeviceInterfaceReport _ _ | .ideIntegrityFailure _ | .policyObject _ _
  | .flr _ | .resetCompletion _ | .powerLimit _ _ | .thermalTrip | .powerOn | .streamIdleExpiry _ => false
  | _ => true

/-- The word of an instruction (03 R51, R52); events have none and give the all-zero word, which is not an instruction. -/
def encode : Instr → Word
  | .iadd x => packV3 1 x 0
  | .isub x => packV3 1 x 1
  | .imul x => packV3 1 x 2
  | .imulhI x => packV3 1 x 3
  | .imulhN x => packV3 1 x 4
  | .imad x => packV3 1 x 5
  | .iabsdI x => packV3 1 x 6
  | .isadN x => packV3 1 x 7
  | .iminI x => packV3 2 x 0
  | .imaxI x => packV3 2 x 1
  | .iminN x => packV3 2 x 2
  | .imaxN x => packV3 2 x 3
  | .iaddsI x => packV3 2 x 4
  | .isubsI x => packV3 2 x 5
  | .iaddsN x => packV3 2 x 6
  | .isubsN x => packV3 2 x 7
  | .and x => packV3 3 x 0
  | .or x => packV3 3 x 1
  | .xor x => packV3 3 x 2
  | .andn x => packV3 3 x 3
  | .orn x => packV3 3 x 4
  | .shl x => packV3 3 x 5
  | .shr x => packV3 3 x 6
  | .sar x => packV3 3 x 7
  | .rotl x => packV3 4 x 0
  | .bfxI x => packV3 4 x 1
  | .bfxN x => packV3 4 x 2
  | .bfi x => packV3 4 x 3
  | .prmb x => packV3 4 x 4
  | .clz x => packV3 4 x 5
  | .popc x => packV3 4 x 6
  | .brev x => packV3 4 x 7
  | .iaddi x => packVI 5 x 0
  | .shli x => packVI 5 x 1
  | .shri x => packVI 5 x 2
  | .sari x => packVI 5 x 3
  | .andi x => packVI 5 x 4
  | .ori x => packVI 5 x 5
  | .xori x => packVI 5 x 6
  | .rotli x => packVI 5 x 7
  | .shfl x => packV3 6 x 0
  | .shflup x => packV3 6 x 1
  | .shfldn x => packV3 6 x 2
  | .shflx x => packV3 6 x 3
  | .tsumI x => packV3 6 x 4
  | .tminI x => packV3 6 x 5
  | .tmaxI x => packV3 6 x 6
  | .tscanI x => packV3 6 x 7
  | .mov x => packV3 7 x 0
  | .laneid x => packV3 7 x 1
  | .lidx x => packV3 7 x 2
  | .iseq x => packP 8 x 0
  | .isne x => packP 8 x 1
  | .isltI x => packP 8 x 2
  | .isleI x => packP 8 x 3
  | .isltN x => packP 8 x 4
  | .isleN x => packP 8 x 5
  | .isany x => packP 8 x 6
  | .isnone x => packP 8 x 7
  | .fseq x => packP 9 x 0
  | .fsne x => packP 9 x 1
  | .fslt x => packP 9 x 2
  | .fsle x => packP 9 x 3
  | .fsun x => packP 9 x 4
  | .fsord x => packP 9 x 5
  | .fsnan x => packP 9 x 6
  | .fsinf x => packP 9 x 7
  | .pand x => packP 10 x 0
  | .por x => packP 10 x 1
  | .pxor x => packP 10 x 2
  | .pnot x => packP 10 x 3
  | .pany x => packP 10 x 4
  | .pall x => packP 10 x 5
  | .psig x => packP 10 x 6
  | .pelect x => packP 10 x 7
  | .sadd x => packS 11 x 0
  | .ssub x => packS 11 x 1
  | .smul x => packS 11 x 2
  | .smulhI x => packS 11 x 3
  | .smulhN x => packS 11 x 4
  | .sdivI x => packS 11 x 5
  | .sdivN x => packS 11 x 6
  | .sremI x => packS 11 x 7
  | .sremN x => packS 11 x 8
  | .sand x => packS 11 x 9
  | .sor x => packS 11 x 10
  | .sxor x => packS 11 x 11
  | .sandn x => packS 11 x 12
  | .sshl x => packS 11 x 13
  | .sshr x => packS 11 x 14
  | .ssar x => packS 11 x 15
  | .sminI x => packS 11 x 16
  | .smaxI x => packS 11 x 17
  | .sminN x => packS 11 x 18
  | .smaxN x => packS 11 x 19
  | .sclz x => packS 11 x 20
  | .spopc x => packS 11 x 21
  | .sseq x => packS 11 x 22
  | .ssltI x => packS 11 x 23
  | .ssltN x => packS 11 x 24
  | .smov x => packS 11 x 25
  | .sadd64 x => packS 11 x 26
  | .ssub64 x => packS 11 x 27
  | .sshl64 x => packS 11 x 28
  | .sshr64 x => packS 11 x 29
  | .saddx x => packS 11 x 30
  | .sbfx x => packS 11 x 31
  | .saddi x => packSI 12 x 0
  | .sandi x => packSI 12 x 1
  | .sori x => packSI 12 x 2
  | .sxori x => packSI 12 x 3
  | .sshli x => packSI 12 x 4
  | .sshri x => packSI 12 x 5
  | .ssari x => packSI 12 x 6
  | .ssltiI x => packSI 12 x 7
  | .bcast x => packX 13 x
  | .lanerd x => packX 14 x
  | .mfc x => packX 15 x
  | .mtc x => packX 16 x
  | .pmov x => packX 17 x
  | .fadd x => packV3 18 x 0
  | .fsub x => packV3 18 x 1
  | .fmul x => packV3 18 x 2
  | .fmin x => packV3 18 x 3
  | .fmax x => packV3 18 x 4
  | .fabs x => packV3 18 x 5
  | .fneg x => packV3 18 x 6
  | .fcpsgn x => packV3 18 x 7
  | .ffma x => packV3 19 x 0
  | .ffms x => packV3 19 x 1
  | .fnfma x => packV3 19 x 2
  | .fdiv x => packV3 19 x 3
  | .fsqrt x => packV3 19 x 4
  | .frcp x => packV3 19 x 5
  | .frsq x => packV3 19 x 6
  | .fexp2 x => packV3 19 x 7
  | .flog2 x => packV3 20 x 0
  | .fsinpi x => packV3 20 x 1
  | .fcospi x => packV3 20 x 2
  | .ffloor x => packV3 20 x 3
  | .fceil x => packV3 20 x 4
  | .ftrunc x => packV3 20 x 5
  | .frint x => packV3 20 x 6
  | .ffract x => packV3 20 x 7
  | .f4add x => packV3 21 x 0
  | .f4sub x => packV3 21 x 1
  | .f4mul x => packV3 21 x 2
  | .f4fma x => packV3 21 x 3
  | .f4fms x => packV3 21 x 4
  | .f4min x => packV3 21 x 5
  | .f4max x => packV3 21 x 6
  | .dadd x => packV3 22 x 0
  | .dsub x => packV3 22 x 1
  | .dmul x => packV3 22 x 2
  | .dfma x => packV3 22 x 3
  | .ddiv x => packV3 22 x 4
  | .dsqrt x => packV3 22 x 5
  | .dmin x => packV3 22 x 6
  | .dmax x => packV3 22 x 7
  | .hadd2 x => packV3 23 x 0
  | .hmul2 x => packV3 23 x 1
  | .hfma2 x => packV3 23 x 2
  | .hmax2 x => packV3 23 x 3
  | .badd2 x => packV3 23 x 4
  | .bmul2 x => packV3 23 x 5
  | .bfma2 x => packV3 23 x 6
  | .bmax2 x => packV3 23 x 7
  | .cvt x => packV3 24 x 0
  | .cvts x => packV3 24 x 1
  | .pk8 x => packV3 24 x 2
  | .pk4 x => packV3 24 x 3
  | .upk8 x => packV3 24 x 4
  | .upk4 x => packV3 24 x 5
  | .qdec x => packV3 24 x 6
  | .qenc x => packV3 24 x 7
  | .tagrd x => packV3 25 x 0
  | .tagwr x => packV3 25 x 1
  | .tagmin x => packV3 25 x 2
  | .tagfull x => packV3 25 x 3
  | .tagunt x => packV3 25 x 4
  | .bra x => packB x 0
  | .call x => packB x 1
  | .ret x => packS 27 x 0
  | .jmpi x => packS 27 x 1
  | .calli x => packS 27 x 2
  | .exit x => packS 27 x 3
  | .yield x => packS 27 x 4
  | .nop x => packS 27 x 5
  | .brk x => packS 27 x 6
  | .trap x => packS 27 x 7
  | .prioset x => packS 27 x 8
  | .enrol m x => packS 28 x (0#5 ++ m)
  | .joinw m x => packS 28 x (1#5 ++ m)
  | .joinq m x => packS 28 x (2#5 ++ m)
  | .maskrd m x => packS 28 x (3#5 ++ m)
  | .spawn x => packX 29 x
  | .bara k x => packS 30 x (0#3 ++ k)
  | .barw k x => packS 30 x (1#3 ++ k)
  | .baraw k x => packS 30 x (2#3 ++ k)
  | .bcbi k x => packS 30 x (3#3 ++ k)
  | .bcbx k x => packS 30 x (4#3 ++ k)
  | .bcbw k x => packS 30 x (5#3 ++ k)
  | .bcba k x => packS 30 x (6#3 ++ k)
  | .promw k x => packS 30 x (7#3 ++ k)
  | .waitc x => packS 31 x 0
  | .watch x => packS 31 x 1
  | .unwatch x => packS 31 x 2
  | .sleep x => packS 31 x 3
  | .binfl x => packS 31 x 4
  | .suspend x => packS 32 x 0
  | .resume x => packS 32 x 1
  | .tcopy x => packS 32 x 2
  | .tdisc x => packS 32 x 3
  | .tstat x => packS 32 x 4
  | .claim k x => packS 33 x (0#3 ++ k ++ 0#1)
  | .object k x => packS 33 x (1#3 ++ k ++ 0#1)
  | .clpeek k x => packS 33 x (2#3 ++ k ++ 0#1)
  | .clpop k x => packS 33 x (3#3 ++ k ++ 0#1)
  | .clwait k x => packS 33 x (4#3 ++ k ++ 0#1)
  | .cljoin k x => packS 33 x (5#3 ++ k ++ 0#1)
  | .clleave k x => packS 33 x (6#3 ++ k ++ 0#1)
  | .rtr x => packS 34 x 0
  | .rts x => packS 34 x 1
  | .replay x => packS 34 x 2
  | .tlbi x => packS 34 x 3
  | .harvest x => packS 34 x 4
  | .park x => packS 34 x 5
  | .halt x => packS 34 x 6
  | .scall x => packS 34 x 7
  | .ld8I x => packM 36 x
  | .ld8N x => packM 37 x
  | .ld16I x => packM 38 x
  | .ld16N x => packM 39 x
  | .ld32 x => packM 40 x
  | .ld64 x => packM 41 x
  | .ld128 x => packM 42 x
  | .ldt32 x => packM 43 x
  | .st8 x => packM 44 x
  | .st16 x => packM 45 x
  | .st32 x => packM 46 x
  | .st64 x => packM 47 x
  | .st128 x => packM 48 x
  | .stt32 x => packM 49 x
  | .lds x => packM 50 x
  | .sts x => packM 51 x
  | .atomAdd o x => packAT o x 0
  | .atomAdd64 o x => packAT o x 1
  | .atomMini o x => packAT o x 2
  | .atomMaxi o x => packAT o x 3
  | .atomMinn o x => packAT o x 4
  | .atomMaxn o x => packAT o x 5
  | .atomAnd o x => packAT o x 6
  | .atomOr o x => packAT o x 7
  | .atomXor o x => packAT o x 8
  | .atomSwap o x => packAT o x 9
  | .atomCas o x => packAT o x 10
  | .atomSwap64 o x => packAT o x 11
  | .atomCas64 o x => packAT o x 12
  | .atomFadd o x => packAT o x 13
  | .atomFmin o x => packAT o x 14
  | .atomFmax o x => packAT o x 15
  | .atomIncw o x => packAT o x 16
  | .atomDecsp o x => packAT o x 17
  | .atomRedadd o x => packAT o x 18
  | .atomRedfadd o x => packAT o x 19
  | .fence o s x => packS 56 x (0#2 ++ o ++ s)
  | .flushr o s x => packS 56 x (1#2 ++ o ++ s)
  | .invr o s x => packS 56 x (2#2 ++ o ++ s)
  | .pref o s x => packS 56 x (3#2 ++ o ++ s)
  | .tld k x => packS 57 x (0#3 ++ k)
  | .tst k x => packS 57 x (1#3 ++ k)
  | .tzero k x => packS 57 x (2#3 ++ k)
  | .ttag k x => packS 57 x (3#3 ++ k)
  | .mma x => packS 58 x 0
  | .mma4 x => packS 58 x 1
  | .mmaw x => packS 58 x 2
  | .mmaq x => packS 58 x 3
  | .mmax x => packS 58 x 4
  | .cpy x => packS 59 x 0
  | .gath x => packS 59 x 1
  | .scat x => packS 59 x 2
  | .coll x => packS 59 x 3
  | .ewait x => packS 59 x 4
  | .ecan x => packS 59 x 5
  | .eqry x => packS 59 x 6
  | .trdv x => packX 60 x
  | .twrv x => packX 61 x
  | .himm p => packHimm p
  | .hgrd p => packH 0 p
  | .hprio p => packH 1 p
  | .hrnd p => packH 2 p
  | .hscp p => packH 3 p
  | .hrlx p => packH 4 p
  | .hyld p => packH 5 p
  | .hreuse p => packH 6 p
  | .hsig p => packH 7 p
  | .hlat p => packH 8 p
  | .stintStart _ _ | .instructionFetch _ _ | .trapDelivery _ | .teamEviction _ | .crewPlacement _
  | .binTimerExpiry _ _ | .crewMigration _ _ | .steeringInterval _ | .stopRequest _ _ | .graceExpiry _
  | .deferralExpiry _ | .saveReport _ | .tenantSwitch _ _ | .queueBounce _ | .bounceArrival _
  | .reissueBackoffExpiry _ | .pannierReissue _ | .translationWalk _ | .faultRecordRetry _ _
  | .memoryRequestPerformed _ _ | .ownershipRegistration _ _ | .writeBack _ _ | .writebackTimeLimit _ _
  | .waitcTimeout _ _ | .sleepExpiry _ _ | .promwDeadline _ _ | .matrixGrant _ | .matrixCompletion _
  | .fourInHandGrant _ _ _ | .fourInHandCompletion _ | .harnessError _ | .copyAccept _ | .copyStart _
  | .copyFault _ | .copyCompletion _ | .claimAnnouncement _ _ | .objectionArrival _ _ | .objectionAnswer _ _ _
  | .claimWindowClose _ _ | .membershipUpdate _ _ | .ticketPoll _ _ | .traincfg _ | .linkcfg _ _ | .bound _ _ _
  | .engerr _ _ | .linkDown _ | .linkUp _ | .linkRetrain _ | .flit _ _ | .retryRequest _ _ | .postedWrite _
  | .readRequest _ | .remoteLoadReply _ _ _ | .acknowledgement _ _ _ | .refusal _ _ _ _ | .streamRetire _ _
  | .unreachable _ | .doorbell _ _ | .launchRecord _ | .messageLaunch _ | .scallServiceReturn _ _
  | .hostBar2Access _ _ | .heqcons _ | .registerWrite _ _ | .create _ _ | .resize _ _ | .destroy _ | .stop _
  | .start _ | .getVersion _ | .getCapabilities _ | .negotiateAlgorithms _ | .getDigests _ | .getCertificate _
  | .challenge _ | .getMeasurements _ | .keyExchange _ | .finish _ | .heartbeat _ | .keyUpdate _
  | .endSession _ | .vendorDefinedRequest _ | .lockInterfaceRequest _ _ | .startInterfaceRequest _ _
  | .stopInterfaceRequest _ _ | .getDeviceInterfaceReport _ _ | .ideIntegrityFailure _ | .policyObject _ _
  | .flr _ | .resetCompletion _ | .powerLimit _ _ | .thermalTrip | .powerOn | .streamIdleExpiry _ => 0

/-- The instruction the decoder reads from a word of `nbits` bits; every word is 32 bits (03 R36). -/
noncomputable def decodeTableWord (nbits w : Nat) : Option Instr :=
  match decode (BitVec.ofNat 32 (w % 2 ^ nbits)) with
  | .ok i => some i
  | .error _ => none

end Sys2Proof
end

