-- ==== Sys2Proof/Config.lean ====
section
/-! DEFINITION. What this stepping fixes, and the free values: what the spec leaves open is an opaque constant here. -/

namespace Sys2Proof.Config

/-- The encoding hash of stepping B0 (00 R1). -/
def encodingHash : Nat := 0x5C1EA07B3D9284F6

/-- What a byte reads as when its line was not written under the reading key (22 R341): the address, the reading key, the
writing key, the writing and the contents of the line. Free value, log 9. -/
opaque unrelated : Nat → Nat → Nat → Nat → Nat → Byte

/-- The 128-bit seal of a trunk under a tenancy's trunk key (16 R291). Free function, log 10. -/
opaque trunkSeal : Nat → List Byte → List Byte

/-- Whether an SM2 signature over SM3 of a message verifies under a public key (22 R336, R342). Free function, log 10. -/
opaque sm2Verify : List Byte → List Byte → List Byte → Bool

/-- An SM2 signature by the SCE's alias key, with a fresh nonce (22 R336). Free function, log 10. -/
opaque sm2Sign : Nat → List Byte → List Byte

/-- An SM3_256 digest (22 R336, R337). Free function, log 10. -/
opaque sm3 : List Byte → List Byte

/-- The ephemeral public key of a key exchange (22 R336). Free value, log 10. -/
opaque ephemeral : Nat → List Byte

/-- The certificate chain of a slot (22 R336). Free value, log 10. -/
opaque certificate : Nat → List Byte

/-- Whether a finished handshake's verify data is right (22 R336). Free function, log 10. -/
opaque finishOk : Nat → List Byte → Bool

/-- The measured firmware and fuse images of blocks 1 to 5 (22 R337). Free value, log 10. -/
opaque firmware : Nat → List Byte

/-- The INTERFACE_INFO word of an interface report, as TDISP defines it (22 R340). Free value, log 10. -/
opaque interfaceInfo : Nat → Nat

/-- The field layout of TDISP and IDE key-management vendor requests (22 R336), defined outside the spec. Free function, log 10. -/
opaque vendorReply : List Byte → List Byte

/-- The stack or channel that holds a physical address (12 R226: the interleave inside a deck is not published, R245 WHERE).
Free value, log 29. -/
opaque memoryChannel : Nat → Nat

/-- The virtual address at which system software has mapped the code section of a compartment's code object (02 R35 leaves it to
that software). Free value, log 39. -/
opaque codeBase : Nat → Nat → Nat

/-- A byte of host memory (12 R225), which is no part of the device: the cycle at which it is read and its address. Free value,
log 15. -/
opaque hostByte : Nat → Nat → Byte

/-- The bytes after the four-byte header of an SPDM response whose format the spec leaves to SPDM 1.3 (22 R336): the request code,
the request's parameters, and what the response carries. Free function, log 10. -/
opaque spdmBody : Nat → Nat → List Byte → List Byte

/-- The address and the attributes of an MMIO range of an interface report, as TDISP lays them out (22 R340): compartment and BAR. Free
values, log 10. -/
opaque mmioOffset : Nat → Nat → Nat
opaque mmioAttr : Nat → Nat → Nat

/-- The key that an IDE key-management request sets: the function whose selective stream takes it, and the key (21 R324). Free
function, log 10. -/
opaque ideKey : List Byte → Option (Nat × List Byte)

/-- A byte of a record in a trace buffer (22 R343): what it records, CLK, the logical core number, what there is to record, and the byte's
place. Of the ring's header: a byte of what the device writes there, for the records written and those dropped; and the count of
records consumed that software has left in its line. The spec gives neither layout. Free values, log 46. -/
opaque traceByte : Nat → Nat → Nat → List Nat → Nat → Byte
opaque traceHead : Nat → Nat → Nat → Byte
opaque traceCons : List Byte → Nat

/-- The way that an L1 and an L2 slice evict from a full set (12 R228, R231: the replacement is not stated). Free values, log 77. -/
opaque l1Victim : Nat → Nat
opaque l2Victim : Nat → Nat

/-- When a stream of another coach has nothing outstanding any more, and how many of its stores were lost: by coach, stream and cycle
(11 R223, log 80). -/
opaque streamSettled : Nat → Nat → Nat → Option Nat

end Sys2Proof.Config
end

