-- ==== Sys2Proof/Machine/State.lean ====
section
/-! DEFINITION. The state of the device as plain data (02 R11 to R32 and the hardware chapters), its faults and refusals,
and the state after reset. -/

namespace Sys2Proof.Machine

/-- A table: ascending keys with their values; an absent key reads as the reader's default. -/
abbrev Tab (α : Type) := List (Nat × α)

/-- A register word of one lane with its stored tag (02 R21). -/
structure Cell where
  val : Word := 0
  tag : SigTag := 63
  deriving DecidableEq, Repr

/-- The 32 lanes of one vector register. -/
abbrev Lanes := List Cell

/-- Operand values captured at issue (15 R280): register j of slot k at key 4k + j, and the scalars in field order. -/
structure Captured where
  v : Tab Lanes := []
  s : List Word := []
  deriving DecidableEq, Repr

/-- A replay entry (15 R280): an instruction with the operands and hints it had at issue. -/
structure ReplayEntry where
  word : Word
  head : Bool := false
  pc : Nat
  hints : List Word := []
  mask : Word
  cap : Captured := {}
  /-- Its run failed its checks (15 R277 step 1), so that no guarded span has counted it and its HGRD is still to be read. -/
  run : Bool := false
  deriving DecidableEq, Repr

/-- What a parking instruction that waits for earlier register writes read at its issue (07 R124): its entry's PC and lanes, its
operands and the carry set. -/
structure Parking where
  pc : Nat
  mask : Word
  cap : Captured
  carryv : Word
  carrys : Word
  deriving DecidableEq, Repr

/-- What a frontier entry waits for (15 R269): the wake kinds, and the waits without parking. -/
inductive Wait where
  /-- Kind 1: phase `phase` of crew barrier `k`. -/
  | crewBar (k phase : Nat)
  /-- Kind 2: phase `phase` of byte-count barrier `k`. -/
  | byteBar (k phase dest : Nat)
  /-- Kind 3: as kind 2, or the holding core's CLK reaching `deadline`. -/
  | promw (k phase deadline dest : Nat)
  /-- Kind 4: the monitored word at `addr`, which is physical `pa` (2^64 until its arming request is performed), armed in the
  L1 of core `point` or at its home, with
  its value, mask and control word, and its deadline on CLK. -/
  | monitor (addr pa : Nat) (point : Option Nat) (value mask ctl : Word) (deadline : Option Nat) (dest : Nat)
  /-- Kind 5: resolution of a proposal. -/
  | claim (group handle dest : Nat)
  /-- Kind 6: the answer to an objection. -/
  | objection (group : Nat) (id : Word) (dest : Nat)
  /-- Kind 7: completion of a matrix operation. -/
  | matrix (handle dest : Nat)
  /-- Kind 8: completion of a copy command. -/
  | copy (handle dest : Nat)
  /-- Kind 9: replies to a remote load (21 R323), by operation; `stay` if the entry had issued on before its load turned
  out to be remote. -/
  | remote (op : Nat) (stay : Bool)
  /-- Kind 11: a JOINW on mask `m` (07 R123). -/
  | join (m : Nat)
  /-- Kind 12: SLEEP until `deadline` on CLK (08 R165). -/
  | sleep (deadline : Nat)
  /-- A level-2 service asked by SCALL (07 R140). -/
  | service (k : Nat)
  /-- A membership change (08 R174). -/
  | member (dest : Nat)
  /-- An operation of the memory system, without parking; `stay` if the entry had issued on before its atomic turned out to be
  remote. -/
  | op (id : Nat) (stay : Bool)
  /-- A copy command not yet accepted or bounced (09 R194). -/
  | accept (cmd : Nat)
  /-- An instruction fetch that missed (13 R351). -/
  | fetch (fid : Nat)
  /-- The capture of the crew by its own SUSPEND (07 R132). -/
  | suspend
  /-- The same word issues again once the wait is over: `cond` names it. -/
  | again (cond : Nat)
  /-- An instruction fetch stands in a shared queue until the deck cycle given, where it bounces or goes on (13 R351, 00 R4). -/
  | queued (over' : Nat) (bounces : Bool)
  deriving DecidableEq, Repr

/-- A frontier entry (02 R19). -/
structure Entry where
  prio : Nat
  pc : Nat
  mask : Word
  age : Nat := 0
  wait : Option Wait := none
  deriving DecidableEq, Repr

/-- Where a team is placed (02 R24): physical core, bench and slot. -/
structure Place where
  core : Nat
  bench : Nat
  slot : Nat
  deriving DecidableEq, Repr

/-- What a trap records beside the team's state (15 R279). -/
structure TrapInfo where
  cause : Nat
  tpc : Nat
  kval : Nat := 0
  service : Bool := false
  theta : Nat := 0
  slmask : Word := 0
  sigt : List Nat := []
  flane : Nat := 0
  escalated : Bool := false
  child : Nat := 0
  faddr : Nat := 0
  handle : Nat := 0
  ivec : List Nat := []
  promise : Nat := 0
  done : Nat := 0
  replay : List ReplayEntry := []
  deriving DecidableEq, Repr

/-- A waiting entry's condition kept while a handler runs (15 R277 step 4), with its result once it has come. -/
structure Held where
  /-- The frame that lists the entry, and its place there. -/
  frame : Nat
  idx : Nat
  entry : Entry
  result : Option (Option Word) := none
  deriving DecidableEq, Repr

/-- A completed matrix operation in the team's record (09 R189). -/
structure MatDone where
  handle : Nat
  status : Word
  deriving DecidableEq, Repr

/-- A completed copy command in the team's record (09 R197). -/
structure CopyDone where
  handle : Nat
  finish : Nat
  why : Nat
  vec : List Nat
  /-- The range it wrote (11 R220). -/
  dest : Option (Nat × Nat) := none
  deriving DecidableEq, Repr

/-- Why a team stands in a phase record (15 R269). -/
inductive Saved where
  /-- Launched or rebuilt and not yet placed (15 R265). -/
  | fresh
  /-- Evicted while parked. -/
  | parked
  /-- Force-saved with its replay queue (15 R273). -/
  | forced (replay : List ReplayEntry)
  /-- Rebuilt by RESUME and not yet placed (07 R133). -/
  | rebuilt
  /-- Saved by PARK: woken by REPLAY of the identifier, or placed at once for 0 (07 R139). -/
  | handler (fid : Nat)
  deriving DecidableEq, Repr

/-- A team: everything 02 R32 holds per lane and per team. -/
structure Team where
  comp : Nat := 0
  serial : Nat := 0
  idx : Nat := 0
  level : Nat := 0
  place : Option Place := none
  saved : Option Saved := none
  live : Word := 0
  front : List Entry := []
  deadPc : Tab (Nat × Nat) := []
  v : Tab Lanes := []
  s : Tab Word := []
  p : Tab Word := []
  m : Tab Word := []
  rows : Nat := 0
  guardMask : Word := 0
  guardLeft : Nat := 0
  chain : Nat := 0
  sigth : Word := 0
  rmode : Word := 0
  fpstat : Word := 0
  tagLo : Word := 0
  tagHi : Word := 0
  prio : Word := 0
  trapLo : Word := 0
  trapHi : Word := 0
  frameLo : Word := 0
  frameHi : Word := 0
  carryv : Word := 0
  carrys : Word := 0
  engctl : Word := 0
  clkSnap : Option Word := none
  region : Nat := 0
  frameIdx : Nat := 0
  reqSerial : Nat := 0
  matSerial : Nat := 0
  copySerial : Nat := 0
  matDone : List MatDone := []
  copyDone : List CopyDone := []
  outst : Nat := 0
  lost : Nat := 0
  arrived : Tab Nat := []
  late : List TrapInfo := []
  replayQ : List ReplayEntry := []
  replayWait : Bool := false
  /-- The first instruction of a handler has not been fetched yet (15 R282). -/
  entering : Bool := false
  escal : List (Nat × Nat) := []
  /-- The frames whose first replay entry is a run that failed its checks. -/
  runFrames : List Nat := []
  parking : List Parking := []
  held : List Held := []
  /-- Traps of conditions that came while a handler ran: taken at the return (15 R281). -/
  owed : List TrapInfo := []
  /-- The entry, by its PC and lanes, of a post whose bounced block has arrived: its checks come before the team's next instruction
  (09 R185, R191). -/
  first : Option (Nat × Word) := none
  /-- Fetches whose identifier a REPLAY has named, by the entry's PC, until they are tried again (13 R351). -/
  refetch : Tab Nat := []
  /-- The words of entries that wait to issue again whose recording breakpoints have recorded: from, to and the lanes (14 R261). -/
  broke : List (Nat × Nat × Word) := []
  /-- Its timed waits hold the cycles that are left, as they were at its capture: they are counted once it is placed again (16 R354). -/
  frozen : Bool := false
  /-- It is captured at its next parking point (07 R132, 15 R272). -/
  stopReq : Bool := false
  /-- It is force-saved at its next boundary after an instruction with C = 0 (15 R273). -/
  force : Bool := false
  captured : Bool := false
  woken : Bool := false
  /-- The slot it has left, while its pannier there still holds entries (13 R255). -/
  slotHeld : Option Place := none
  /-- The cycle from which the grace of a stop counts (15 R272, 07 R140). -/
  graceAt : Nat := 0
  lastEnd : Nat := 0
  readySince : Nat := 0
  deriving DecidableEq, Repr

/-- A crew barrier (07 R125). -/
structure CrewBar where
  phase : Nat := 0
  arrived : Nat := 0
  deriving DecidableEq, Repr

/-- A byte-count barrier (07 R126). -/
structure ByteBar where
  expect : Nat := 0
  arrived : Nat := 0
  armed : Bool := false
  phase : Nat := 0
  fault : Bool := false
  /-- The destination ranges of the copy commands that have arrived in this phase (11 R220). -/
  dests : List (Nat × Nat) := []
  deriving DecidableEq, Repr

/-- A tile with its side store (09 R177): the image holds the bytes that are not zero. -/
structure Tile where
  image : List Host.Cell := []
  ts : Word := 0
  scales : Tab Nat := []
  s0 : Word := 0
  s1 : Word := 0
  tags : Tab SigTag := []
  tagDef : SigTag := 24
  deriving DecidableEq, Repr

/-- A resolved claim handle carried by a trunk (16 R288). -/
structure TrunkClaim where
  team : Nat
  handle : Nat
  outcome : Nat
  group : Nat
  deriving DecidableEq, Repr

/-- A SUSPEND in progress (07 R132). -/
structure Suspending where
  team : Nat
  trunk : Nat
  ticket : Nat
  flags : Nat
  since : Nat
  issue : ReplayEntry
  /-- Once the image is taken: its generation, the ticket's physical address, and the lines that are still to leave for a peer or
  the host, and the sequences of those that have left for a peer, by coach. -/
  taken : Option (Nat × Nat) := none
  left : List (Nat × List Byte) := []
  sent : List (Nat × Nat) := []
  deriving DecidableEq, Repr

/-- A crew (02 R32): `scratch` holds the bytes that are not zero, in offsets of the allocation. -/
structure Crew where
  comp : Nat := 0
  serial : Nat := 0
  teams : Nat := 1
  region : Nat := 0
  core : Option Nat := none
  /-- The core that a RESUME rebuilt it on, while it waits unplaced (07 R133). -/
  want : Option Nat := none
  scr : Nat := 0
  scratch : List Host.Cell := []
  /-- The words of its scratchpad that error correction cannot correct (12 R244): set by the environment. -/
  failing : List Nat := []
  tiles : List Tile := []
  bars : Tab CrewBar := []
  bytes : Tab ByteBar := []
  claims : List TrunkClaim := []
  suspending : Option Suspending := none
  deferUntil : Option Nat := none
  deriving DecidableEq, Repr

/-- A word of an L1 (12 R228): its value, its state, and the key it is written back under. -/
structure L1Word where
  val : Word
  dirty : Bool
  stable : Bool
  key : Nat
  comp : Nat
  deriving DecidableEq, Repr

/-- A combined TLB entry (12 R238). -/
structure TlbEntry where
  comp : Nat
  va : Nat
  bits : Nat
  /-- The sizes of its first-stage leaf's page and of its second-stage leaf's. -/
  vbits : Nat
  ibits : Nat
  pa : Nat
  ipa : Nat
  rd : Bool
  wr : Bool
  ex : Bool
  usr : Bool
  st : Bool
  dirty : Bool
  deriving DecidableEq, Repr

/-- A second-stage entry of a cluster's TLB (12 R238): the page of intermediate addresses, and its leaf descriptor with the
place it was read from. -/
structure Tlb2Entry where
  comp : Nat
  ipa : Nat
  bits : Nat
  desc : Nat
  val : Nat
  out : Nat
  deriving DecidableEq, Repr

/-- A thread of a spawn bin (07 R129). -/
structure Thread where
  arg : Word
  prio : Nat
  deriving DecidableEq, Repr

/-- A spawn bin (07 R129). -/
structure Bin where
  comp : Nat
  entry : Nat
  region : Nat
  first : Nat
  threads : List Thread
  deriving DecidableEq, Repr

/-- An outgoing proposal (16 R287): `outcome` is set once it has resolved. -/
structure Proposal where
  team : Nat
  id : Word
  group : Nat
  key : Word
  value : Word
  va : Nat
  pa : Nat
  beats : Nat
  close : Nat
  open' : Bool
  outcome : Option Nat
  objected : Bool
  unheard : Bool
  short : Bool
  conflict : Bool
  owned : Bool
  /-- The effect write on its way to another coach, and its sequence (11 R222). -/
  effect : Option (Nat × Nat) := none
  deriving DecidableEq, Repr

/-- An inbox entry (08 R172). -/
structure InboxEntry where
  id : Word
  group : Nat
  key : Word
  value : Word
  target : Nat
  close : Nat
  coach : Nat
  deriving DecidableEq, Repr

/-- A group as one core holds it (02 R28, 16 R287): the members by rank. -/
structure Group where
  members : Tab Word := []
  pending : Option Membership := none
  /-- The beat at which the change was issued (08 R174). -/
  since : Nat := 0
  deriving DecidableEq, Repr

/-- A core. -/
structure Core where
  clkBase : Nat := 0
  timeBase : Nat := 0
  mhz : Nat := 2100
  l1 : Tab L1Word := []
  /-- The line that each way of its L1 holds, by 16 × set + way (12 R228). -/
  ways : Tab Nat := []
  dirtyLines : List (Nat × Nat) := []
  tlb : List TlbEntry := []
  groups : Tab Group := []
  clwin : Tab Word := []
  outgoing : Tab Proposal := []
  inbox : List InboxEntry := []
  /-- The announcements that it has heard and whose windows may be open, read from the inbox or not (08 R170). -/
  heard : List InboxEntry := []
  claimSerial : Nat := 0
  bins : List Bin := []
  forwards : List (Nat × Nat) := []
  arrivals : List Nat := []
  deriving DecidableEq, Repr

/-- A latch (02 R16, R18). -/
structure Latch where
  valid : Bool := false
  lanes : Lanes := []
  deriving DecidableEq, Repr

/-- A bench: its latches and its stint (15 R267). -/
structure Bench where
  latches : List Latch := []
  holder : Option Nat := none
  slots : Nat := 0
  deriving DecidableEq, Repr

/-- A cluster's shared TLB, fusion and engine registers (12 R238, R229, 18 R309). -/
structure Cluster where
  tlb : List TlbEntry := []
  tlb2 : List Tlb2Entry := []
  fused : Bool := false
  mxpass : Nat := 0
  cpbytes : Nat := 0
  engerr : Nat := 0
  /-- The cycle of the latest setting event of ENGERR, and the bits set in it: a clear in that cycle leaves them (18 R309). -/
  errAt : Nat × Nat := (0, 0)
  deriving DecidableEq, Repr

/-- Where a matrix operation stands (18 R297). -/
inductive MatStage where
  /-- In the reservation table since the given cycle. -/
  | table (since : Nat)
  /-- Bounced: in flight or in the pannier; `ready` once its trigger has come. -/
  | pannier (cause : Nat) (readyAt : Option Nat)
  /-- Granted, completing at the given cycle. -/
  | running (finish : Nat)
  /-- A four-in-hand member granted and waiting for the other engines. -/
  | joined
  deriving DecidableEq, Repr

/-- A bounced engine post as an entry of its team's pannier holds it (13 R253): OPC, AGE, AGAIN, the address and the bytes of its
block; and whether it lies in the area (R251), and has been reissued. -/
structure PostEntry where
  opc : Nat := 0
  age : Nat := 0
  again : Bool := false
  reissued : Bool := false
  spilled : Bool := false
  line : Nat := 0
  block : List Byte := []
  deriving DecidableEq, Repr

/-- A posted matrix operation (09 R186, 18 R297). -/
structure MatOp where
  id : Nat
  cluster : Nat
  team : Nat
  handle : Nat
  four : Bool
  ta : Nat
  tb : Nat
  tc : Nat
  kch : Nat
  flags : Nat
  ea : Nat
  eb : Nat
  pri : Nat
  opid : Nat
  bar : Nat
  /-- The cycle of its issue, and that at which a reservation table first accepted it. -/
  posted : Nat := 0
  accepted : Option Nat
  stage : MatStage
  /-- The cycle at which an engine granted it. -/
  granted : Option Nat := none
  entry : PostEntry := {}
  deriving DecidableEq, Repr

/-- A matrix operation that has ended in a cycle: the state that MMAQ gives in that cycle, and END (18 R300). -/
structure MatEnd where
  time : Nat
  op : MatOp
  was : Nat
  how : Nat
  deriving DecidableEq, Repr

/-- A range of the range-lock table (18 R305). -/
structure Lock where
  crew : Option Nat
  write : Bool
  lo : Nat
  hi : Nat
  deriving DecidableEq, Repr

/-- Where a copy command stands (18 R303). -/
inductive CopyStage where
  /-- In the copy-engine queue since the given cycle. -/
  | queued (since : Nat)
  | pannier (cause : Nat) (readyAt : Option Nat)
  /-- Running since the given cycle. -/
  | running (since : Nat)
  deriving DecidableEq, Repr

/-- A copy command (09 R191, R192): `next` is the ordinal of the vector it performs next, `first` of its start vector. -/
structure Copy where
  id : Nat
  cluster : Nat
  core : Nat
  /-- The team that its handle and its barrier belong to, and the team whose stream its remote writes use (11 R219). -/
  team : Nat
  via : Nat
  level : Nat
  region : Nat
  handle : Nat
  /-- 0 CPY, 1 GATH, 2 SCAT, 3 COLL. -/
  kind : Nat
  src : Nat
  dst : Nat
  n : List Nat
  ss : List Int
  ds : List Int
  ush : Nat
  esz : Nat
  flags : Nat
  bar : Nat
  collop : Nat
  mem : Nat
  mems : Nat
  /-- The index array or the ring counter. -/
  aux : Nat
  /-- The scalar that its results begin at. -/
  dest : Nat
  first : Nat
  next : Nat
  /-- The cycle of the core's CLK by which it is to complete: none when it bounced before acceptance. -/
  promise : Option Nat := none
  /-- D of 18 R306, and the cycles it runs (log 5). -/
  cost : Nat := 0
  dur : Nat := 0
  locks : List Lock := []
  /-- Its range locks are taken (18 R303), and its results have been written (09 R194). -/
  accepted : Bool := false
  replied : Bool := false
  /-- The cycle of its acceptance: its locks hold from the next one (18 R305). -/
  acceptedAt : Nat := 0
  /-- The ring counter has read MEM, and has been written (09 R193). -/
  ring : Bool := false
  rung : Bool := false
  stage : CopyStage
  /-- On what way each peer has been asked: the part, the coach, a relay, and how often it had been asked (21 R317). -/
  roads : List (Nat × Nat × Option Nat × Nat) := []
  tries : Nat := 0
  /-- What a peer or the host has been asked for, and what has come: 0 the source, 1 the index, 2 the destination or the ring
  counter, and four more for a part in the next page. -/
  asked : List Nat := []
  have' : Tab (List Byte) := []
  /-- Remote writes that are not acknowledged: coach and sequence. -/
  unacked : List (Nat × Nat) := []
  /-- An element that faulted: WHY, whether it is the destination's, and its address. -/
  bad : Option (Nat × Bool × Nat) := none
  /-- The lowest and the highest address that it has written. -/
  touched : Option (Nat × Nat) := none
  entry : PostEntry := {}
  /-- The completion area of the trunk that holds it, and its place in the pending table (16 R292); the trunk's ticket, by its physical
  address and generation. -/
  trunk : Option (Nat × Nat) := none
  ticket : Option (Nat × Nat) := none
  deriving DecidableEq, Repr

/-- One lane's access of a line request. -/
structure Acc where
  lane : Nat
  va : Nat
  size : Nat
  deriving DecidableEq, Repr

/-- Where a line request stands (13 R247, R250). -/
inductive Stage where
  /-- In a shared queue, by its kind in the order of R247. -/
  | queue (kind : Nat)
  /-- Bounced and travelling to its owner. -/
  | flight
  | pannier
  /-- Sent to a peer or the host under a tag. -/
  | away (tag : Nat)
  deriving DecidableEq, Repr

/-- A line request (13 R252, R253): `op` is its memory operation, `accs` its accesses in lane order, `data` the store's
combined bytes, `opnds` the operand words of an atomic's lanes. -/
structure Req where
  id : Nat
  op : Nat
  team : Nat
  core : Nat
  cls : Nat
  ord : Nat
  scope : Nat
  code : Nat
  line : Nat
  accs : List Acc
  data : List (Nat × Byte) := []
  opnds : Tab (List Word) := []
  /-- What a CLAIM or the registration of a WATCH has in hand while it waits (13 R253). -/
  pay : List Byte := []
  shadow : Bool := false
  /-- The major, and the minor from bit 6, of the word that made it (13 R253 OPC). -/
  opc : Nat := 0
  age : Nat
  /-- The sequences of a remote store's messages, from when it first stands in a fabric injection queue: SEQ is the first (13
  R253). -/
  seqs : List (Nat × Nat) := []
  fid : Nat := 0
  cause : Nat := 0
  pulled : Bool := false
  /-- The posted stores that a pulled request follows, by coach and sequence: they are acknowledged before it reissues (13 R256). -/
  behind : List (Nat × Nat) := []
  again : Bool := false
  spilled : Bool := false
  stage : Stage
  since : Nat
  /-- CLK of its core when it entered the core request queue (13 R247, 00 R4). -/
  sinceClk : Nat := 0
  /-- The walk has ended as a miss (13 R250). -/
  missed : Bool := false
  ready : Bool := false
  readyAt : Option Nat := none
  pa : Option Nat := none
  /-- The descriptor that its walk cannot read yet, in the queue of whose slice it stands (13 R250). -/
  desc : Option Nat := none
  /-- The relay on the way that it has left by, if any (21 R318). -/
  via : Option Nat := none
  stable : Bool := false
  rlx : Bool := false
  /-- The level it was issued at, and whether it is a release. -/
  level : Nat := 0
  rel : Bool := false
  /-- It has been reissued from the pannier (13 R253 AGAIN). -/
  reissued : Bool := false
  /-- How often it has been sent again over another route (21 R317). -/
  tries : Nat := 0
  deriving DecidableEq, Repr

/-- What a memory operation does once all its line requests have been performed. -/
inductive OpKind where
  /-- Writes `n` registers from T: the size in bytes, sign extension, and the tag (64: the shadow byte's). -/
  | load (t n size : Nat) (sext : Bool) (tag : Nat)
  | store
  /-- Writes `r` registers from T with the tag. -/
  | atomic (op t n r tag : Nat)
  /-- A TLD of tile k with its shape, BASE, STRIDE and SOFF at issue. -/
  | tileLoad (k : Nat) (ts : Word) (base stride soff : Nat)
  /-- A TST of tile k. -/
  | tileStore (k : Nat)
  /-- Only waits for a page: the instruction issues again. -/
  | touch
  /-- Arms the monitor of a WAITC (08 R151). -/
  | arm
  /-- Reads `n` bytes from a peer or the host for an instruction that issues again with them. -/
  | fetch (va n : Nat)
  deriving DecidableEq, Repr

/-- An issued instruction of the memory system that has line requests outstanding. -/
structure MemOp where
  id : Nat
  team : Nat
  issue : ReplayEntry
  kind : OpKind
  /-- The values read so far: lane i at key i, its shadow byte at key 32 + i. -/
  got : Tab Nat := []
  /-- The scope code of the acquire that its completion is. -/
  acq : Option Nat := none
  /-- The trap cause of a lane whose data did not arrive (11 R216, 12 R244, 21 R322), and that lane and address. -/
  bad : Option (Nat × Nat × Nat) := none
  /-- Line requests that wait for credits (13 R252). -/
  todo : List Req := []
  /-- CARRYV and CARRYS as they stood at its issue (02 R27). -/
  carry : Word × Word := (0, 0)
  /-- Its entry waits because a page of it is remote; and its team has parked for it (07 R124, 08 R144). -/
  late : Bool := false
  parked : Bool := false
  deriving DecidableEq, Repr

/-- Bytes from a peer or the host that an instruction reads at issue: it issues again once they are here. -/
structure Fetched where
  team : Nat
  pc : Nat
  mask : Word
  va : Nat
  data : List Byte
  deriving DecidableEq, Repr

/-- A thread on its way into a spawn bin (07 R129) within the step that made it. -/
structure Spawning where
  core : Nat
  comp : Nat
  entry : Nat
  region : Nat
  arg : Word
  prio : Nat
  /-- The core whose write made it: that write is a release at .dev towards it (08 R163). -/
  rel : Option Nat := none
  deriving DecidableEq, Repr

/-- A watchpoint (08 R163). -/
structure Watch where
  comp : Nat
  core : Nat
  desc : Nat
  base : Nat
  va : Nat
  len : Nat
  value : Word
  mask : Word
  oneshot : Bool
  entry : Nat
  region : Nat
  arg : Word
  prio : Nat
  /-- Its successor record passed its checks: a match spawns (log 94). -/
  spawns : Bool := true
  deriving DecidableEq, Repr

/-- A translation context as last taken (12 R233). -/
structure Xlate where
  s1root : Nat := 0
  s2root : Nat := 0
  s2lim : Nat := 0
  gbase : Nat := 0
  glim : Nat := 0
  colmask : Nat := 0
  keyid : Nat := 0
  flags : Nat := 0
  deriving DecidableEq, Repr

/-- A heap window triple (02 R30). -/
structure Heap where
  base : Nat := 0
  lim : Nat := 0
  off : Nat := 0
  deriving DecidableEq, Repr

/-- A live fault identifier (13 R258). -/
structure FaultId where
  fid : Nat
  kind : Nat
  page : Nat
  replayed : Bool
  deriving DecidableEq, Repr

/-- A fault record (13 R258). -/
structure FaultRecord where
  region : Nat
  fid : Nat
  kind : Nat
  flags : Nat
  count : Nat
  va : Nat
  ipa : Nat
  who : Nat
  eng : Nat
  deriving DecidableEq, Repr

/-- An error record of a VF's ring (21 R329). -/
structure ErrRecord where
  code : Nat
  info : Nat := 0
  addr : Nat := 0
  stream : Nat := 0
  seq0 : Nat := 0
  seq1 : Nat := 0
  deriving DecidableEq, Repr

/-- A ring register set of a VF (21 R326). -/
structure Ring where
  base : Nat := 0
  size : Nat := 0
  prod : Nat := 0
  cons : Nat := 0
  deriving DecidableEq, Repr

/-- TDI states (22 R338). -/
inductive Tdi where
  | unlocked
  | locked
  | run
  | error
  deriving DecidableEq, Repr

/-- A message of a compartment's queue (21 R331). -/
structure Message where
  entry : Nat
  code : Nat
  args : List Byte
  deriving DecidableEq, Repr

/-- A stop in progress (15 R272). -/
structure Stop where
  since : Nat
  sliceEnd : Nat
  op : Bool
  deriving DecidableEq, Repr

/-- A removal of clusters in progress (15 R283): the clusters that stay, the beat at which the window of step 2 has passed, and
the cycle at which the teams of the others were stopped. -/
structure Leaving where
  kept : BitVec 16
  window : Nat
  stopped : Option Nat
  deriving DecidableEq, Repr

/-- A reset in progress and its counts (22 R346, R349). -/
structure Resetting where
  kind : Nat
  /-- It ends at STATE 0: a DESTROY, or one that has joined it (23 R350). -/
  free : Bool
  tdi : Nat
  since : Nat
  qdone : Nat
  discard : Nat
  lost : Nat
  claims : Nat
  /-- The teams that step 1 stopped. -/
  teams : Nat
  deriving DecidableEq, Repr

/-- A compartment. -/
structure Comp where
  desc : Descriptor := ⟨0, 0, 0, 0, 0, 0, 0, 0, 0, 0, 0, 0, 0, 0, 0, true⟩
  xlate : Xlate := {}
  staged : Heap := {}
  heap : Heap := {}
  fidCtr : Nat := 0
  fids : List FaultId := []
  gen : Nat := 0
  crewSerial : Nat := 0
  faults : List FaultRecord := []
  messages : List Message := []
  msgTurn : Bool := false
  lastLaunch : List Byte := []
  launch : Ring := {}
  errs : Ring := {}
  errStage : List ErrRecord := []
  errMerged : Nat := 0
  tdi : Tdi := .unlocked
  session : Nat := 0
  exports : Tab (Nat × Nat) := []
  vfConfig : Tab Nat := []
  rights : Nat := 0
  policySerial : Nat := 0
  stop : Option Stop := none
  /-- Clusters being removed while it runs (15 R283). -/
  leaving : Option Leaving := none
  owed : Nat := 0
  /-- The cycle at which a slice that begins with an overrun owed comes to its teams (15 R275). -/
  runAt : Nat := 0
  resetting : Option Resetting := none
  /-- Recording breakpoints: team and line address (14 R261). -/
  breaks : List (Nat × Nat) := []
  /-- CLUSTERS as level 2 has written it, until a RESIZE takes it up (22 R332, R333). -/
  written : Option (BitVec 16) := none
  /-- A START that waits for the operation in progress (22 R333). -/
  startAsked : Bool := false
  /-- The records written to the trace buffer, and those dropped (22 R343). -/
  traced : Nat := 0
  untraced : Nat := 0
  deriving DecidableEq, Repr

/-- A region's effective RCB fields and counts (15 R262, R263). -/
structure Region where
  addr : Nat := 0
  pa : Nat := 0
  comp : Nat := 0
  parent : Nat := 0
  state : Nat := 0
  prio : Nat := 0
  flags : Nat := 0
  handler : Nat := 0
  frames : Nat := 0
  frameCnt : Nat := 0
  drain : Nat := 0
  fqBase : Nat := 0
  fqCtl : Nat := 0
  fqSize : Nat := 0
  teams : Nat := 0
  cores : Nat := 0
  scr : Nat := 0
  tiles : Nat := 0
  areas : Nat := 0
  bvrows : Nat := 0
  bscr : Nat := 0
  btimer : Nat := 0
  bcarryv : Nat := 0
  bcarrys : Nat := 0
  defer : Nat := 0
  args : List Word := []
  framesUsed : List Nat := []
  tickets : List (Nat × Nat) := []
  faultSent : Bool := false
  /-- The records that it has written to a part of its ring in host memory, by PROD at the time: identifier and COUNT (13 R258). -/
  hostRing : Tab (Nat × Nat) := []
  retryAt : Option Nat := none
  /-- The cycle at which its tickets were last read (17 R294). -/
  polledAt : Nat := 0
  /-- The tickets at a peer or the host that are being read there: the request's number, the address and the generation. -/
  asked : List (Nat × Nat × Nat) := []
  done : Nat := 0
  deriving DecidableEq, Repr

/-- A run of lines with one key tag (22 R341): bytes outside `valid` of each line were not written under `key`. -/
structure KeyRun where
  lo : Nat
  hi : Nat
  key : Nat
  valid : Nat
  nonce : Nat
  deriving DecidableEq, Repr

/-- A spoke link (21 R315, R316). -/
structure Link where
  split : Bool := false
  own : Tab Nat := []
  valid : Nat := 0
  up : Bool := false
  downs : Nat := 0
  retries : Nat := 0
  txSeq : Nat := 0
  rxSeq : Nat := 0
  buffer : List Flit := []
  /-- The flit that was asked for again last, and how often in a row. -/
  asked : Option Nat := none
  resends : Nat := 0
  retrainAt : Option Nat := none
  /-- The credits that the far end has not returned yet, and those that are to be returned to it, by class (21 R315). -/
  unreturned : Tab Nat := []
  owedCr : Tab Nat := []
  deriving DecidableEq, Repr

/-- A sub-stream at its source (11 R214, 21 R318, R320). -/
structure SubStream where
  team : Nat
  coach : Nat
  unacked : List RemoteWrite
  relay : Option Nat
  waiting : List RemoteWrite
  /-- The sequences of unacknowledged writes that HRLX was bound to. -/
  relaxed : List Nat := []
  idleSince : Nat
  /-- Its route has broken with writes on the way (21 R318). -/
  cut : Bool := false
  /-- A refusal keeps its waiting writes back until CLK of the core given reads the cycle given (21 R320, 13 R256). -/
  backoff : Nat := 0
  backoffCore : Nat := 0
  /-- The sub-link that its writes are on (21 R316). -/
  sub : Nat := 0
  /-- The requests whose writes are not acknowledged, by sequence, with their instructions (21 R320). -/
  origin : List (Nat × Req × MemOp) := []
  deriving DecidableEq, Repr

/-- Deduplication state of a stream at its target (21 R320). -/
structure Dedup where
  stream : Nat
  coach : Nat
  /-- The compartment of this coach that serves it. -/
  owner : Nat
  base : Nat
  map : Nat
  /-- The lowest sequence that has arrived since the state was made. -/
  low : Nat
  /-- A write has arrived: a read alone takes an entry too (21 R320). -/
  begun : Bool := true
  /-- The sub-link that brought its latest message (21 R316). -/
  sub : Nat := 0
  /-- The sequences of writes that were refused with ACCESS, which are refused again when they come again (21 R322). -/
  refused : List Nat := []
  deriving DecidableEq, Repr

/-- An entry of the message filter table (21 R330). -/
structure Filter where
  valid : Bool
  src : Nat
  dst : Nat
  chan : Nat
  entry : Nat
  code : Nat
  credit : Nat
  deriving DecidableEq, Repr

/-- The hypervisor's error queue (12 R245): staged records are whole 32-byte images. -/
structure Heq where
  base : Nat := 0
  size : Nat := 0
  prod : Nat := 0
  cons : Nat := 0
  cecount : Nat := 0
  staged : List (List Byte) := []
  uncounted : Nat := 0
  deriving DecidableEq, Repr

/-- An SPDM session of the SCE (22 R336). -/
structure Session where
  id : Nat
  finished : Bool
  keyUpdates : Nat
  heartbeat : Nat
  deriving DecidableEq, Repr

/-- A selective IDE stream of the host port (21 R324): the session that set its key. -/
structure IdeStream where
  session : Nat
  key : List Byte
  deriving DecidableEq, Repr

/-- The SCE (22 R336, R337): how far a connection has been negotiated, its sessions, and the measurement blocks. -/
structure Sce where
  phase : Nat := 0
  aead : Nat := 0
  sessions : List Session := []
  blocks : Tab (List Byte) := []
  nonce : Nat := 0
  tenancies : List Nat := []
  deriving DecidableEq, Repr

/-- A message that left the device: to peers, to the host, or to Postmaster software. -/
inductive OutMsg where
  | fabric (coach : Nat) (relay : Option Nat) (m : FabMsg)
  | announce (coach core : Nat) (a : Announcement)
  | objection (coach : Nat) (o : Objection)
  | answer (coach : Nat) (id : Word) (late : Bool)
  | membership (coach : Nat) (u : Membership)
  | hostWrite (addr : Nat) (data : List Byte) (relaxed : Bool)
  | hostRead (tag addr size : Nat) (op : Option (Nat × List Word)) (relaxed : Bool)
  | bar2 (comp : Nat) (data : Option (List Byte))
  | service (team k : Nat) (entry : Nat) (crewId teamId : Word) (args : List Word)
  /-- What a HARVEST at level 2 gives the Postmaster's software: the dirty bits of its pages. -/
  | harvested (comp base : Nat) (dirty : List Bool)
  | spdm (data : List Byte)
  | tdisp (comp : Nat) (ok : Bool) (data : List Byte)
  | retry (link lseq : Nat)
  | resend (link : Nat) (flits : List Flit)
  /-- An idle flit with the credits it returns (21 R315). -/
  | idle (link : Nat) (credit : List Nat)
  deriving DecidableEq, Repr

/-- The issue context: the team, its entry and word, the hint words of the run so far with their addresses. -/
structure Cur where
  team : Nat
  mask : Word
  /-- The address of the run's first word: the entry's PC. -/
  start : Nat
  pc : Nat
  word : Word
  run : List (Nat × Word) := []
  /-- A replay entry performed by RTR or RTS with its stored operands (15 R281 step 4). -/
  replay : Option ReplayEntry := none
  deriving DecidableEq, Repr

/-- What an invalidation or a HARVEST waits for (12 R240, R242): the accesses that were translated through an entry it has dropped. -/
structure Flush where
  /-- The stores posted to peers, by team, coach and sequence. -/
  writes : List (Nat × Nat × Nat) := []
  /-- The requests sent to a peer or the host, by number and tries. -/
  reads : List (Nat × Nat) := []
  /-- The engine elements that wait for data, by command and ordinal. -/
  elems : List (Nat × Nat) := []
  /-- The open claims, by core and handle. -/
  claims : List (Nat × Nat) := []
  deriving DecidableEq, Repr

/-- A TLBI or a HARVEST that waits: its issue, what it waits for, and the dirty bits that it has read. -/
structure Flushing where
  team : Nat
  pc : Nat
  mask : Word
  flush : Flush
  dirty : List Bool
  deriving DecidableEq, Repr

/-- A level-2 act in progress (12 R240, R242). -/
structure Level2Wait where
  act : Level2
  value : Nat
  flush : Flush
  dirty : List Bool
  deriving DecidableEq, Repr

/-- A place the environment keeps from advancing until a cycle: a queue kind and instance, or a registration (log 8). -/
structure Stall where
  kind : Nat
  inst : Nat
  until' : Nat
  deriving DecidableEq, Repr

/-- A message of the bell planes within the package (16 R285): it arrives by the beat given. -/
structure PlaneMsg where
  latest : Nat
  event : Instr
  deriving DecidableEq, Repr

/-- A line of an L2 slice (12 R231): the key that it is written back under, its dirty words, and what the memory behind it holds while it
has any: the bytes, and their key. -/
structure L2Line where
  line : Nat
  key : Nat
  dirty : Nat := 0
  behind : List Byte := []
  run : KeyRun := ⟨0, 0, 0, 0, 0⟩
  deriving DecidableEq, Repr

/-- The device. -/
structure State where
  time : Nat := 0
  pace : List Nat := []
  powered : Bool := false
  inputs : List Instr := []
  out : List OutMsg := []
  fresh : Nat := 0
  stalls : List Stall := []
  mem : List Host.Cell := []
  /-- The words whose memory error correction cannot correct, by address / 4 (12 R243, R244): set by the environment. -/
  failing : List Nat := []
  keys : List KeyRun := []
  keyGen : Tab Nat := []
  cur : Option Cur := none
  turn : Nat := 0
  /-- Something has happened since the instructions that wait without parking were last tried. -/
  stir : Bool := false
  teams : Tab Team := []
  crews : Tab Crew := []
  regions : Tab Region := []
  comps : Tab Comp := []
  cores : Tab Core := []
  benches : Tab Bench := []
  clusters : Tab Cluster := []
  owners : Tab Nat := []
  /-- The line that each way of the L2 slices holds, by 24 × (128 × home + set) + way (12 R226, R231). -/
  l2 : Tab L2Line := []
  registering : List (Nat × Nat) := []
  watches : List Watch := []
  reqs : List Req := []
  ops : List MemOp := []
  fetched : List Fetched := []
  spawning : List Spawning := []
  flushes : List Flushing := []
  level2 : List Level2Wait := []
  plane : List PlaneMsg := []
  mats : List MatOp := []
  /-- The matrix operations that have ended in the present cycle. -/
  matEnds : List MatEnd := []
  copies : List Copy := []
  nextId : Nat := 1
  bounds : Tab Nat := []
  coach : Nat := 0
  trainSize : Nat := 0
  trainEn : Bool := false
  links : Tab Link := []
  reach : Tab Nat := []
  streams : List SubStream := []
  /-- The next sequence of each sub-stream (11 R216), by 16 × team + coach. -/
  seqs : Tab Nat := []
  /-- The stream that a team rebuilt from a trunk inherits, and the losses of streams whose team was suspended (11 R223). -/
  heirs : Tab Nat := []
  lateLost : Tab Nat := []
  /-- What came for a team after its crew had become a trunk: the ends of its pending copy commands (16 R292), and the answers
  to its objections. -/
  lateDone : Tab (List CopyDone) := []
  /-- By crew that a trunk holds: a byte-count barrier, and a range that a command wrote which arrived at it (11 R220). -/
  lateDests : Tab (List (Nat × Nat × Nat)) := []
  lateAns : List (Nat × Word × Bool) := []
  dedup : List Dedup := []
  /-- The answers to other coaches that wait for their sub-link: compartment, coach and message (21 R315, R318). -/
  answers : List (Nat × Nat × FabMsg) := []
  filters : Tab Filter := []
  services : Tab Nat := []
  heq : Heq := {}
  sce : Sce := {}
  /-- The selective IDE streams, by function: 0 the physical one (21 R324). -/
  ide : Tab IdeStream := []
  /-- The cycle of each compartment's latest steering (15 R271). -/
  steerAt : Tab Nat := []
  throttled : List Nat := []
  deriving DecidableEq, Repr

/-- Why the machine stops. -/
inductive Fault where
  /-- Raised by a program instruction performed where no placed team has issued it: `step` never does so. Safe: the
  hardware has no such case, and nothing is claimed of it. -/
  | noTeam
  deriving DecidableEq, Repr

/-- Why an instruction has no meaning. -/
inductive Refusal where
  /-- Raised by an arm of `exec` whose instruction has no meaning yet. Safe: the model stops where the hardware goes on. -/
  | notModelled (mnemonic : String)
  deriving DecidableEq, Repr

/-- The device right after reset, before POWER_ON (22 R348): every register at the value its chapter gives, the rest as
log 1 says. The BOUND registers read 256 by default (13 R249), cores run at 2,100 MHz, latches are invalid. -/
def State.reset : State := {}

end Sys2Proof.Machine
end

