-- ==== Sys2Proof/Machine/Tab.lean ====
section
/-! DEFINITION. Tables by ascending key, and the byte memory in its canonical form: addresses rising, no byte that an
unlisted address already reads as, which is zero (22 R348). -/

namespace Sys2Proof.Machine

/-- The value at a key. -/
def Tab.get? {α : Type} : Tab α → Nat → Option α
  | [], _ => none
  | (j, v) :: r, k => if j = k then some v else Tab.get? r k

/-- The value at a key, or a default. -/
def Tab.getD {α : Type} (t : Tab α) (k : Nat) (d : α) : α := (Tab.get? t k).getD d

/-- The table with a value placed at a key. -/
def Tab.put {α : Type} : Tab α → Nat → α → Tab α
  | [], k, v => [(k, v)]
  | (j, w) :: r, k, v =>
    if k < j then (k, v) :: (j, w) :: r else if k = j then (k, v) :: r else (j, w) :: Tab.put r k v

/-- The table without a key. -/
def Tab.del {α : Type} (t : Tab α) (k : Nat) : Tab α := t.filter fun e => e.1 ≠ k

/-- The keys of a table, ascending. -/
def Tab.keys {α : Type} (t : Tab α) : List Nat := t.map (·.1)

/-- The byte at an address: an unlisted address reads as zero. -/
def memByte (m : List Host.Cell) (a : Nat) : Byte := Tab.getD m a 0

/-- The cells that bytes placed from an address make: zero bytes make none. -/
def cellsOf : Nat → List Byte → List Host.Cell
  | _, [] => []
  | a, b :: bs => if b = 0 then cellsOf (a + 1) bs else (a, b) :: cellsOf (a + 1) bs

/-- The cells below an address. -/
def memBelow (m : List Host.Cell) (a : Nat) : List Host.Cell := m.filter fun c => c.1 < a

/-- The cells at or above an address. -/
def memFrom (m : List Host.Cell) (a : Nat) : List Host.Cell := m.filter fun c => a ≤ c.1

/-- The memory with bytes written from an address. -/
def memWrite (m : List Host.Cell) (a : Nat) (bs : List Byte) : List Host.Cell :=
  memBelow m a ++ cellsOf a bs ++ memFrom m (a + bs.length)

/-- The memory with a range set to zero. -/
def memClear (m : List Host.Cell) (a n : Nat) : List Host.Cell := memBelow m a ++ memFrom m (a + n)

/-- `n` bytes from an address. -/
def memRead (m : List Host.Cell) : Nat → Nat → List Byte
  | _, 0 => []
  | a, n + 1 => memByte m a :: memRead m (a + 1) n

/-- The canonical form: addresses strictly rising, no zero byte listed. -/
def memWf : List Host.Cell → Bool
  | [] => true
  | [c] => c.2 ≠ 0
  | c :: d :: r => c.2 ≠ 0 && c.1 < d.1 && memWf (d :: r)

/-- The number a range of memory holds, little-endian (01 R10). -/
def memLe (m : List Host.Cell) (a n : Nat) : Nat := Bits.ofLe (memRead m a n)

/-- A sparse image: each field at its offset from a base (the rest of the range is left as it stands). -/
def memFields (m : List Host.Cell) (base : Nat) (fs : List Bits.Fld) : List Host.Cell :=
  fs.foldl (fun m f => if f.val = 0 then m else memWrite m (base + f.off) (Bits.leBytes f.size f.val)) m

/-- The lane numbers of a team. -/
def laneList : List Nat :=
  [0, 1, 2, 3, 4, 5, 6, 7, 8, 9, 10, 11, 12, 13, 14, 15, 16, 17, 18, 19, 20, 21, 22, 23, 24, 25, 26, 27, 28, 29, 30, 31]

/-- The lanes set in a mask, ascending. -/
def lanesOf (m : Word) : List Nat := laneList.filter fun i => m.getLsbD i

/-- A mask from a predicate on lanes. -/
def maskOf (f : Nat → Bool) : Word := BitVec.ofNat 32 (laneList.foldl (fun n i => if f i then n + 2 ^ i else n) 0)

/-- Bits of a number below a bound that are set, ascending. -/
def bitsOf (n bound : Nat) : List Nat := (List.range bound).filter fun i => n.testBit i

/-- Remove repeated elements, keeping first places. -/
def distinct (l : List Nat) : List Nat := l.foldl (fun acc x => if acc.contains x then acc else acc ++ [x]) []

/-- Insert in ascending order. -/
def insertSorted (x : Nat) : List Nat → List Nat
  | [] => [x]
  | y :: r => if x ≤ y then x :: y :: r else y :: insertSorted x r

/-- Ascending order. -/
def sorted (l : List Nat) : List Nat := l.foldr insertSorted []

/-- Replace the elements that satisfy a test. -/
def update {α : Type} (l : List α) (test : α → Bool) (f : α → α) : List α := l.map fun x => if test x then f x else x

/-- ceil(a / b). -/
def ceilDiv (a b : Nat) : Nat := (a + b - 1) / b

end Sys2Proof.Machine
end

