-- ==== Sys2Proof/Machine/Home.lean ====
section
/-! DEFINITION. Clocks (00 R4), the physical address map (12 R225 to R227), keys of lines (22 R341), and the home memory
that stands behind every L1: the L2 and the memory devices as one (log 4). -/

namespace Sys2Proof.Machine

/-- A core's state. -/
def core (s : State) (c : Nat) : Core := Tab.getD s.cores c {}

def setCore (s : State) (c : Nat) (x : Core) : State := { s with cores := Tab.put s.cores c x }

def cluster (s : State) (c : Nat) : Cluster := Tab.getD s.clusters c {}

def setCluster (s : State) (c : Nat) (x : Cluster) : State := { s with clusters := Tab.put s.clusters c x }

def bench (s : State) (b : Nat) : Bench := Tab.getD s.benches b {}

def setBench (s : State) (b : Nat) (x : Bench) : State := { s with benches := Tab.put s.benches b x }

def comp (s : State) (k : Nat) : Comp := Tab.getD s.comps k {}

def setComp (s : State) (k : Nat) (x : Comp) : State := { s with comps := Tab.put s.comps k x }

/-- A core is being removed from its running compartment (15 R283). -/
def departing (s : State) (c k : Nat) : Bool := (comp s c).leaving.any fun l => !l.kept.getLsbD (k / 4)

/-- The teams on a core are being stopped: with their compartment, or as its core is removed (15 R272, R283). -/
def stopping (s : State) (c k : Nat) : Bool :=
  (comp s c).stop.isSome || ((comp s c).leaving.any (·.stopped.isSome) && departing s c k)

def crew? (s : State) (k : Nat) : Option Crew := Tab.get? s.crews k

def setCrew (s : State) (k : Nat) (x : Crew) : State := { s with crews := Tab.put s.crews k x }

def team? (s : State) (k : Nat) : Option Team := Tab.get? s.teams k

def setTeam (s : State) (k : Nat) (x : Team) : State := { s with teams := Tab.put s.teams k x }

/-- Change a team, if there is one. -/
def onTeam (s : State) (k : Nat) (f : Team → Team) : State :=
  match team? s k with
  | some t => setTeam s k (f t)
  | none => s

/-- Change a crew, if there is one. -/
def onCrew (s : State) (k : Nat) (f : Crew → Crew) : State :=
  match crew? s k with
  | some t => setCrew s k (f t)
  | none => s

/-- The key of a team's crew, and of a team in its crew: teams are numbered 16 to a crew (02 R24). -/
def crewOf (k : Nat) : Nat := k / 16

/-- The key of a crew from its compartment and serial. -/
def crewKey (c serial : Nat) : Nat := c * 2 ^ 20 + serial

/-- The teams of a crew that exist, ascending. -/
def crewTeams (s : State) (k : Nat) : List Nat := (Tab.keys s.teams).filter fun t => crewOf t = k

/-- CLK of a core (02 R27): it counts at the core's steered frequency, on the deck memory clock's time. -/
def clk (s : State) (c : Nat) : Nat :=
  let x := core s c
  x.clkBase + (s.time - x.timeBase) * x.mhz / 2100

/-- Beats of the bell planes (00 R4): 1 GHz beside 2.1 GHz. -/
def beat (s : State) : Nat := s.time * 10 / 21

/-- Microseconds of the Postmaster's counter (00 R4). -/
def usec (s : State) : Nat := s.time / 2100

/-- A fresh number, and the state that has used it. -/
def fresh (s : State) : Nat × State := (s.nextId, { s with nextId := s.nextId + 1 })

/-- Where a physical address lies (12 R225). -/
inductive PaClass where
  | hbm
  | tier2
  | peer (coach : Nat)
  | host
  | none
  deriving DecidableEq, Repr

/-- A local address is backed by HBM4E or the second tier (12 R225). -/
def localClass (pa : Nat) : PaClass :=
  if pa < 0xA000000000 then .hbm
  else if 0x10000000000 ≤ pa && pa < 0x28000000000 then .tier2
  else .none

/-- The physical address map (12 R225): a peer window needs a coach of the train other than this one, and an offset
that lies in that coach's memory. -/
def paClass (s : State) (pa : Nat) : PaClass :=
  if pa < 0x1000000000000 then localClass pa
  else if 0x8000000000000 ≤ pa then (if pa < 0x10000000000000 then .host else .none)
  else if pa < 0x2000000000000 then
    let c := (pa - 0x1000000000000) / 0x100000000000
    if s.trainEn && c < s.trainSize && c ≠ s.coach && localClass (pa % 0x100000000000) ≠ .none then .peer c else .none
  else .none

/-- home() of 01 R10: the deck and slice of a local address, as 512 × deck + slice. -/
def home (pa : Nat) : Nat :=
  let d := (pa / 2 ^ 12 + pa / 2 ^ 20 + pa / 2 ^ 28) % 2
  let sl := Nat.xor (Nat.xor (pa / 2 ^ 9 % 512) (pa / 2 ^ 18 % 512)) (pa / 2 ^ 27 % 512)
  512 * d + sl

/-- The colours of a frame of 2^bits bytes at a physical address (12 R227), as a mask. -/
def frameColours (pa bits : Nat) : Nat :=
  if bits ≤ 12 then 2 ^ (pa / 2 ^ 13 % 16)
  else if bits ≤ 16 then (if pa / 2 ^ 16 % 2 = 0 then 0x00FF else 0xFF00)
  else 0xFFFF

/-- The number of a key: its slot and how often the slot was loaded (22 R341). -/
def keyNum (s : State) (slot : Nat) : Nat := slot * 2 ^ 32 + Tab.getD s.keyGen slot 0

/-- The key of a compartment (12 R233 KEYID). -/
def compKey (s : State) (c : Nat) : Nat := keyNum s (comp s c).xlate.keyid

/-- Every byte of a line. -/
def allValid : Nat := 2 ^ 64 - 1

/-- The key tag of a line: zeros under slot 0 from bring-up (22 R348). -/
def runOf (ks : List KeyRun) (line : Nat) : KeyRun :=
  (ks.find? fun r => r.lo ≤ line && line < r.hi).getD ⟨line, line + 1, 0, allValid, 0⟩

/-- The runs outside a range of lines. -/
def cutRuns (ks : List KeyRun) (lo hi : Nat) : List KeyRun :=
  ks.flatMap fun r =>
    (if r.lo < min r.hi lo then [{ r with hi := min r.hi lo }] else []) ++
    (if max r.lo hi < r.hi then [{ r with lo := max r.lo hi }] else [])

/-- The tags with a range of lines tagged alike. -/
def setRun (ks : List KeyRun) (r : KeyRun) : List KeyRun := r :: cutRuns ks r.lo r.hi

/-- The mask of `n` bytes from a byte of a line. -/
def byteMask (off n : Nat) : Nat := (2 ^ n - 1) * 2 ^ off

/-- Tag a line for bytes written under a key: a line of another key keeps nothing of it (22 R341). -/
def tagLine (s : State) (key line mask : Nat) : State :=
  let r := runOf s.keys line
  if r.key = key then
    if Nat.land r.valid mask = mask then s
    else { s with keys := setRun s.keys ⟨line, line + 1, key, Nat.lor r.valid mask, r.nonce⟩ }
  else { s with keys := setRun s.keys ⟨line, line + 1, key, mask, s.fresh⟩, fresh := s.fresh + 1 }

/-- Tag the lines of `n` bytes from an address. -/
def tagRange (s : State) (key a n : Nat) : State :=
  if n = 0 then s
  else
    let l0 := a / 64
    (List.range ((a + n - 1) / 64 - l0 + 1)).foldl (fun s j =>
      let line := l0 + j
      let lo := max a (64 * line)
      let hi := min (a + n) (64 * line + 64)
      tagLine s key line (byteMask (lo - 64 * line) (hi - lo))) s

/-- Tag whole lines, as a large aligned write does. -/
def tagLines (s : State) (key lo hi : Nat) : State :=
  { s with keys := setRun s.keys ⟨lo, hi, key, allValid, s.fresh⟩, fresh := s.fresh + 1 }

/-- A byte of home memory read under a key (22 R341). -/
def homeByte (s : State) (key pa : Nat) : Byte :=
  let r := runOf s.keys (pa / 64)
  if r.key = key then
    if r.valid.testBit (pa % 64) then memByte s.mem pa else Config.unrelated pa key key r.nonce 0
  else Config.unrelated pa key r.key r.nonce (memLe s.mem (pa / 64 * 64) 64)

/-- `n` bytes of home memory read under a key. -/
def homeBytes (s : State) (key : Nat) : Nat → Nat → List Byte
  | _, 0 => []
  | a, n + 1 => homeByte s key a :: homeBytes s key (a + 1) n

/-- The little-endian number of `n` bytes of home memory. -/
def homeLe (s : State) (key a n : Nat) : Nat := Bits.ofLe (homeBytes s key a n)

/-- A range of home memory holds an uncorrectable word (12 R244). -/
def homeFails (s : State) (a n : Nat) : Bool := s.failing.any fun w => a / 4 ≤ w && w < (a + n + 3) / 4

/-- The set of an address in its home slice (12 R226). -/
def l2Set (pa : Nat) : Nat := 128 * home pa + 8 * (pa / 2 ^ 13 % 16) + pa / 2 ^ 6 % 8

/-- The way of its set that holds a line, with what it holds (12 R231). -/
def l2Find (s : State) (line : Nat) : Option (Nat × L2Line) :=
  (List.range 24).findSome? fun w =>
    ((Tab.get? s.l2 (24 * l2Set (64 * line) + w)).filter fun e => e.line = line).map fun e => (24 * l2Set (64 * line) + w, e)

/-- Words of a line become dirty in its slice, which keeps what memory holds behind the first of them (12 R231); a line written under
another key has been written back under the one before. -/
def noteLine (s : State) (key line words : Nat) : State :=
  match l2Find s line with
  | none => s
  | some (w, e) =>
    let e : L2Line := if e.key = key && e.dirty ≠ 0 then e
      else { line := line, key := key, behind := memRead s.mem (64 * line) 64, run := runOf s.keys line }
    { s with l2 := Tab.put s.l2 w { e with dirty := Nat.lor e.dirty words } }

/-- The parts of a range of bytes in its lines: the line, and the first and the last byte and one of the part. -/
def lineSpans (a n : Nat) : List (Nat × Nat × Nat) :=
  if n = 0 then []
  else (List.range ((a + n - 1) / 64 - a / 64 + 1)).map fun j =>
    (a / 64 + j, max a (64 * (a / 64 + j)), min (a + n) (64 * (a / 64 + j) + 64))

/-- A write to a range makes the words that it meets dirty in the slices that hold its lines. -/
def noteWrite (s : State) (key a n : Nat) : State :=
  (lineSpans a n).foldl (fun s x =>
    noteLine s key x.1 (byteMask (x.2.1 / 4 - 16 * x.1) ((x.2.2 + 3) / 4 - x.2.1 / 4))) s

/-- A line leaves its slice without a write-back: memory keeps what it held behind the dirty words (22 R346 step 4). -/
def forgetLine (s : State) (e : L2Line) : State :=
  if e.dirty = 0 then s
  else
    { s with
      mem := (List.range 16).foldl (fun m i =>
        if e.dirty.testBit i then memWrite m (64 * e.line + 4 * i) ((e.behind.drop (4 * i)).take 4) else m) s.mem
      keys := setRun s.keys { e.run with lo := e.line, hi := e.line + 1 } }

/-- Bytes placed in home memory under a key, with nothing else of the write's effects. -/
def putHome (s : State) (key pa : Nat) (bs : List Byte) : State :=
  let s := tagRange (noteWrite s key pa bs.length) key pa bs.length
  { s with
    mem := memWrite s.mem pa bs
    -- a full-word store to the failing word clears the error (12 R244)
    failing := s.failing.filter fun w => !(pa ≤ 4 * w && 4 * w + 4 ≤ pa + bs.length) }

/-- The ownership records of the words that a write at the home performs: its performance is their latest event (11 R213). -/
def disown (s : State) (pa n : Nat) : State :=
  { s with owners := s.owners.filter fun o => o.1 < pa / 4 || (pa + n + 3) / 4 ≤ o.1 }

/-- A BOUND register of a deck: 256 by default (13 R249). -/
def boundOf (s : State) (deck kind : Nat) : Nat := Tab.getD s.bounds (8 * deck + kind) 256

/-- The cycle at which the stalls of a place end, if any holds it. -/
def stallEnd (s : State) (kind inst : Nat) : Option Nat :=
  s.stalls.foldl (fun m x => if x.kind = kind && x.inst = inst && s.time < x.until' then some (max (m.getD 0) x.until') else m) none

/-- A stall of the environment holds a place (log 8). -/
def stalled (s : State) (kind inst : Nat) : Bool :=
  s.stalls.any fun x => x.kind = kind && x.inst = inst && s.time < x.until'

end Sys2Proof.Machine
end

