-- ==== Sys2Proof/Machine/Frontier.lean ====
section
/-! DEFINITION. The frontier (07 R115, R116), rejoin masks (R123), parking (02 R20), registers of a team and the latches of
its bench (02 R14 to R18). -/

namespace Sys2Proof.Machine

/-- An entry can issue: nothing keeps it waiting. -/
def entryReady (e : Entry) : Bool := e.wait.isNone

/-- Frontier order: priority descending, then PC ascending (02 R19). -/
def Entry.before (a b : Entry) : Bool := b.prio < a.prio || (a.prio = b.prio && a.pc < b.pc)

/-- Place an entry in frontier order, merging with the entry of the same priority, PC and condition (07 R116). -/
def insertEntry (e : Entry) : List Entry → List Entry
  | [] => [e]
  | x :: r =>
    if x.prio = e.prio && x.pc = e.pc && x.wait = e.wait then { x with mask := x.mask ||| e.mask, age := max x.age e.age } :: r
    else if e.before x then e :: x :: r
    else x :: insertEntry e r

/-- The frontier that a list of entries makes (07 R116): entries without lanes disappear. -/
def rebuild (es : List Entry) : List Entry :=
  es.foldl (fun f e => if e.mask = 0 then f else insertEntry e f) []

/-- The entries without some lanes. -/
def dropLanes (es : List Entry) (m : Word) : List Entry :=
  (es.map fun e => { e with mask := e.mask &&& ~~~m }).filter fun e => e.mask ≠ 0

/-- The frontier with lanes moved to the entries given. -/
def moveLanes (es : List Entry) (new : List Entry) : List Entry :=
  rebuild (dropLanes es (new.foldl (fun m e => m ||| e.mask) 0) ++ new)

/-- The choice of 07 R115 among the ready entries. -/
def chooseEntry (es : List Entry) (ready : Entry → Bool) : Option Entry :=
  match es.find? fun e => ready e && 4096 ≤ e.age with
  | some e => some e
  | none => es.find? ready

/-- Ages after an entry issued (07 R115): it is reset if it issued by its age, and every other ready entry grows older. -/
def ageEntries (es : List Entry) (ready : Entry → Bool) (e : Entry) : List Entry :=
  es.map fun x =>
    if x = e then { x with age := if 4096 ≤ x.age then 0 else x.age }
    else if ready x then { x with age := min 8191 (x.age + 1) }
    else x

/-- The lanes waiting at a JOINW on mask `k`. -/
def joinWaiting (t : Team) (k : Nat) : Word :=
  t.front.foldl (fun m e => if e.wait = some (.join k) then m ||| e.mask else m) 0

/-- A rejoin mask (02 R11). -/
def Team.mask (t : Team) (k : Nat) : Word := Tab.getD t.m k 0

/-- Complete the join on mask `k` if every enrolled lane waits (07 R123). -/
def joinCheck (t : Team) (k : Nat) : Team :=
  let w := joinWaiting t k
  if w ≠ 0 && (Team.mask t k) &&& ~~~w = 0 then
    let top := t.front.foldl (fun p e => if e.wait = some (.join k) then max p e.prio else p) 0
    { t with
      m := Tab.put t.m k 0
      front := rebuild (t.front.map fun e =>
        if e.wait = some (.join k) then { e with wait := none, pc := (e.pc + 4) % 2 ^ 57, prio := top } else e) }
  else t

/-- Every join of the team that can complete does so. -/
def joinChecks (t : Team) : Team := joinCheck (joinCheck (joinCheck (joinCheck t 0) 1) 2) 3

/-- The state of a team after a parking point (02 R20), under the carry set that stood at the issue (02 R27). -/
def parkZero (t : Team) (carry : Word × Word := (t.carryv, t.carrys)) : Team :=
  { t with
    clkSnap := none
    v := t.v.filter fun r => carry.1.getLsbD (r.1 / 8)
    s := t.s.filter fun r => carry.2.getLsbD (r.1 / 4)
    p := t.p.filter fun r => carry.2.getLsbD (16 + r.1) }

/-- A lane of a vector register (02 R11). -/
def Team.reg (t : Team) (r i : Nat) : Cell := (Tab.getD t.v r []).getD i {}

/-- A scalar register (02 R11). -/
def Team.scalar (t : Team) (r : Nat) : Word := Tab.getD t.s r 0

/-- A predicate as a lane mask; code 15 is the always-true predicate (02 R15). -/
def Team.pred (t : Team) (c : Nat) : Word := if c = 15 then BitVec.allOnes 32 else Tab.getD t.p c 0

/-- Write lanes of one vector register; code 124 discards the write (02 R14). -/
def Team.setReg (t : Team) (r : Nat) (act : Word) (f : Nat → Cell) : Team :=
  if r = 124 then t
  else { t with v := Tab.put t.v r (laneList.map fun i => if act.getLsbD i then f i else Team.reg t r i) }

/-- Write a scalar register. -/
def Team.setScalar (t : Team) (r : Nat) (x : Word) : Team := { t with s := Tab.put t.s r x }

/-- Write consecutive scalar registers from one. -/
def Team.setScalars (t : Team) (r : Nat) : List Word → Team
  | [] => t
  | x :: xs => Team.setScalars (Team.setScalar t r x) (r + 1) xs

/-- Write lanes of a predicate; the other lanes keep their bits (02 R15). -/
def Team.setPred (t : Team) (c : Nat) (act m : Word) : Team :=
  { t with p := Tab.put t.p c ((Team.pred t c &&& ~~~act) ||| (m &&& act)) }

/-- The bench number of a place. -/
def Place.benchNo (p : Place) : Nat := 8 * p.core + p.bench

/-- A latch of a bench (02 R16). -/
def latch (b : Bench) (k : Nat) : Latch := b.latches.getD k {}

/-- The latches become invalid (02 R18). -/
def voidLatches (b : Bench) : Bench := { b with latches := b.latches.map fun l => { l with valid := false } }

/-- A result enters b0 and the others move on (02 R16). -/
def pushLatch (b : Bench) (lanes : Lanes) : Bench :=
  { b with latches := [⟨true, lanes⟩, latch b 0, latch b 1, latch b 2] }

/-- The latches of a team's bench become invalid. -/
def voidTeamLatches (s : State) (t : Team) : State :=
  match t.place with
  | some p => setBench s p.benchNo (voidLatches (bench s p.benchNo))
  | none => s

/-- The compartment's logical number of a physical core (15 R284, R352). -/
def logicalCore (s : State) (c phys : Nat) : Nat :=
  4 * ((List.range (phys / 4)).filter fun n => (comp s c).desc.clusters.getLsbD n).length + phys % 4

/-- The physical core of a logical number, if the compartment holds it (15 R284). -/
def physicalCore (s : State) (c logical : Nat) : Option Nat :=
  match ((List.range 16).filter fun n => (comp s c).desc.clusters.getLsbD n)[logical / 4]? with
  | some cl => some (4 * cl + logical % 4)
  | none => none

/-- TEAMID (02 R23). -/
def teamId (s : State) (t : Team) : Word :=
  let p := t.place.getD ⟨0, 0, 0⟩
  BitVec.ofNat 32 (t.idx + 2 ^ 4 * p.bench + 2 ^ 7 * p.slot + 2 ^ 13 * logicalCore s t.comp p.core + 2 ^ 19 * t.level)

/-- CREWID (02 R24). -/
def crewId (c : Crew) : Word := BitVec.ofNat 32 (c.serial + 2 ^ 20 * (c.teams - 1) + 2 ^ 24 * c.comp)

/-- A wait's destination scalar (16 R354 DEST). -/
def Wait.dest : Wait → Option Nat
  | .byteBar _ _ d | .promw _ _ _ d | .monitor _ _ _ _ _ _ _ d | .claim _ _ d | .objection _ _ d | .matrix _ d
  | .copy _ d | .member d => some d
  | _ => none

/-- A wait at a parking point (15 R269 kinds 1 to 9): the ones a team may be evicted in. -/
def Wait.parked : Wait → Bool
  | .crewBar .. | .byteBar .. | .promw .. | .monitor .. | .claim .. | .objection .. | .matrix .. | .copy .. | .remote .. => true
  | _ => false

/-- A wait that ends at its own word: the word issues, or issues again. -/
def Wait.stays : Wait → Bool
  | .remote _ stay | .op _ stay => stay
  | .again _ | .fetch _ | .queued .. => true
  | _ => false

/-- An entry whose condition has come goes on at the next word, its status in the destination. -/
def wakeEntries (p : Wait → Option (Option Word)) : List Entry → List Entry × List (Nat × Word) × Bool
  | [] => ([], [], false)
  | e :: r =>
    let (r', ws, any) := wakeEntries p r
    match e.wait with
    | none => (e :: r', ws, any)
    | some w =>
      match p w with
      | none => (e :: r', ws, any)
      | some res =>
        let ws := match w.dest, res with
          | some d, some x => (d, x) :: ws
          | _, _ => ws
        ({ e with wait := none, pc := if w.stays then e.pc else (e.pc + 4) % 2 ^ 57 } :: r', ws, true)

/-- A condition held through a handler has come: its result is kept until the return (15 R281). -/
def wakeHeld (p : Wait → Option (Option Word)) (h : Held) : Held :=
  match h.result, h.entry.wait with
  | none, some w =>
    match p w with
    | some r => { h with result := some r }
    | none => h
  | _, _ => h

/-- Wake a team's entries whose conditions `p` names. -/
def wakeTeam (p : Wait → Option (Option Word)) (t : Team) : Team :=
  let (es, ws, any) := wakeEntries p t.front
  let t := { t with front := if any then rebuild es else t.front, held := t.held.map (wakeHeld p), woken := t.woken || any }
  ws.foldl (fun t w => Team.setScalar t w.1 w.2) t

/-- A team or its held entries wait on a condition that `p` names. -/
def waitsOn (p : Wait → Bool) (t : Team) : Bool :=
  (t.front.any fun e => e.wait.any p) || t.held.any fun h => h.result.isNone && h.entry.wait.any p

/-- Wake every team that a test picks. -/
def wakeAll (s : State) (pick : Nat → Team → Bool) (p : Wait → Option (Option Word)) : State :=
  { s with teams := s.teams.map fun kt => if pick kt.1 kt.2 then (kt.1, wakeTeam p kt.2) else kt }

end Sys2Proof.Machine
end

