-- ==== Sys2Proof/Machine/Translate.lean ====
section
/-! DEFINITION. Two-stage translation (12 R233 to R239): the walk, the TLBs, the heap window, and the checks of 08 R141
steps 2 and 3. -/

namespace Sys2Proof.Machine

/-- What an access needs (12 R236). -/
inductive Need where
  | rd
  | wr
  | rw
  | ex
  deriving DecidableEq, Repr

def Need.reads : Need → Bool
  | .rd | .rw => true
  | _ => false

def Need.writes : Need → Bool
  | .wr | .rw => true
  | _ => false

/-- How a translation ends. -/
inductive Xres where
  /-- The physical address, and whether its page is stable. -/
  | ok (pa : Nat) (stable : Bool)
  /-- No leaf (12 R237): the stage, and the intermediate address for stage 2. -/
  | miss (stage : Nat) (ipa : Nat)
  | addr
  | access
  /-- The descriptor at an address could not be corrected (12 R244). -/
  | uncorr (desc : Nat)
  deriving DecidableEq, Repr

/-- A leaf found by a walk of one stage. -/
structure Leaf where
  desc : Nat
  val : Nat
  bits : Nat
  out : Nat
  /-- DT is set: in all sixteen descriptors of a C64 group, whose entry is cached as one page (log 11). -/
  dt : Bool := val.testBit 7
  deriving DecidableEq, Repr

/-- How a walk of one stage ends. -/
inductive Walk where
  | leaf (l : Leaf)
  | miss (stage : Nat) (ipa : Nat)
  | bad
  | uncorr (desc : Nat)
  deriving DecidableEq, Repr

/-- The page size of a leaf at a level (12 R234, R235 C64). -/
def leafBits (level val : Nat) : Nat :=
  if level = 2 then 30 else if level = 1 then 21 else if val.testBit 9 then 16 else 12

/-- A valid descriptor breaks the table of 12 R235. -/
def malformed (stage level val : Nat) : Bool :=
  val.testBit 63 || val.testBit 10 || val.testBit 11 ||
  (if val.testBit 1 then
    decide (level > 2) || (stage = 2 && (val.testBit 5 || val.testBit 8)) || (level ≠ 0 && val.testBit 9) ||
    decide (val % 2 ^ 52 / 2 ^ 12 * 2 ^ 12 % 2 ^ leafBits level val ≠ 0)
  else level = 0 || decide (val % 2 ^ 12 / 4 ≠ 0))

/-- The frame or table address of a descriptor (12 R235 OA). -/
def descOut (val : Nat) : Nat := val % 2 ^ 52 / 2 ^ 12 * 2 ^ 12

/-- One level of a walk: the table base, the index, and what the descriptor says. -/
def descAt (base shift width a : Nat) : Nat := base + 8 * (a / 2 ^ shift % 2 ^ width)

/-- The descriptors of a leaf: its own, or the sixteen of its C64 group (12 R235). -/
def groupDescs (d level val : Nat) : List Nat :=
  if level = 0 && val.testBit 9 then (List.range 16).map fun j => d / 128 * 128 + 8 * j else [d]

/-- A leaf as a walk finds it under the key of its table. -/
def leafAt (s : State) (key d level val : Nat) : Leaf :=
  ⟨d, val, leafBits level val, descOut val, (groupDescs d level val).all fun x => (homeLe s key x 8).testBit 7⟩

/-- The frame that an address lies in is one that may be reached: it is in the map, and local frames lie wholly in the
compartment's colours (12 R225, R227). -/
def reachable (s : State) (c pa bits : Nat) : Bool :=
  match paClass s pa with
  | .none => false
  | .peer _ | .host => true
  | _ => Nat.land (frameColours pa bits) (comp s c).xlate.colmask = frameColours pa bits

/-- The second-stage walk of an intermediate address, over the levels left (12 R234): tables under slot 0 (22 R341). -/
def walk2 (s : State) (ipa : Nat) : List (Nat × Nat × Nat) → Nat → Walk
  | [], _ => .bad
  | (level, shift, width) :: ls, base =>
    if localClass base = .none then .bad
    else
      let d := descAt base shift width ipa
      let val := homeLe s (keyNum s 0) d 8
      if homeFails s d 8 then .uncorr d
      else if !val.testBit 0 then .miss 2 ipa
      else if malformed 2 level val then .bad
      else if val.testBit 1 then .leaf (leafAt s (keyNum s 0) d level val)
      else walk2 s ipa ls (descOut val)

/-- The levels of the second stage (12 R234). -/
def levels2 : List (Nat × Nat × Nat) := [(3, 39, 13), (2, 30, 9), (1, 21, 9), (0, 12, 9)]

/-- The levels of the first stage (12 R234). -/
def levels1 : List (Nat × Nat × Nat) := [(4, 48, 9), (3, 39, 9), (2, 30, 9), (1, 21, 9), (0, 12, 9)]

/-- The second-stage leaf of an intermediate address under a compartment's context (12 R233, R234). -/
def stage2 (s : State) (c ipa : Nat) : Walk :=
  let x := (comp s c).xlate
  if x.s2lim ≤ ipa then .bad else walk2 s ipa levels2 x.s2root

/-- The address that a leaf gives. -/
def leafPa (l : Leaf) (a : Nat) : Nat := l.out + a % 2 ^ l.bits

/-- The first-stage walk of a virtual address: each table is read through the second stage, under the compartment's key
(12 R234, 22 R341). -/
def walk1 (s : State) (c va : Nat) : List (Nat × Nat × Nat) → Nat → Walk
  | [], _ => .bad
  | (level, shift, width) :: ls, base =>
    match stage2 s c (descAt base shift width va) with
    | .miss _ ipa => .miss 2 ipa
    | .bad => .bad
    | .uncorr d => .uncorr d
    | .leaf l2 =>
      let d := leafPa l2 (descAt base shift width va)
      if localClass d = .none || !reachable s c d l2.bits then .bad
      else
        let val := homeLe s (compKey s c) d 8
        if homeFails s d 8 then .uncorr d
        else if !val.testBit 0 then .miss 1 0
        else if malformed 1 level val then .bad
        else if val.testBit 1 then .leaf (leafAt s (compKey s c) d level val)
        else walk1 s c va ls (descOut val)

/-- The second-stage leaves that a first-stage walk passes through to its tables. -/
def tableLeaves (s : State) (c va : Nat) : List (Nat × Nat × Nat) → Nat → List Leaf
  | [], _ => []
  | (level, shift, width) :: ls, base =>
    match stage2 s c (descAt base shift width va) with
    | .leaf l2 =>
      let d := leafPa l2 (descAt base shift width va)
      let val := homeLe s (compKey s c) d 8
      if localClass d = .none || !reachable s c d l2.bits || homeFails s d 8 || !val.testBit 0 || malformed 1 level val ||
        val.testBit 1 then [l2]
      else l2 :: tableLeaves s c va ls (descOut val)
    | _ => []

/-- A combined translation before any descriptor bit is set: the first-stage leaf unless it is the identity, and the
second-stage leaf, with whether that came from a cluster's TLB (12 R233 S1EN, R238). -/
structure Combined where
  l1 : Option Leaf
  ipa : Nat
  l2 : Leaf
  held : Bool
  deriving DecidableEq, Repr

/-- How a two-stage walk ends. -/
inductive Walk12 where
  | leaf (x : Combined)
  | miss (stage : Nat) (ipa : Nat)
  | bad
  | uncorr (desc : Nat)
  deriving DecidableEq, Repr

/-- The second-stage leaf that a cluster's TLB holds for an intermediate address; a write needs one whose DT is set (12 R236,
R238). -/
def tlb2Find (s : State) (cl : Option Nat) (c ipa : Nat) (write : Bool) : Option Leaf :=
  cl.bind fun n =>
    ((cluster s n).tlb2.find? fun e =>
      e.comp = c && e.ipa = ipa / 2 ^ e.bits * 2 ^ e.bits && (!write || e.val.testBit 7)).map fun e =>
        ⟨e.desc, e.val, e.bits, e.out, e.val.testBit 7⟩

/-- The two-stage walk of a virtual address by the walkers of a cluster, or by the device for itself (12 R233, R234). -/
def walk12 (s : State) (cl : Option Nat) (c va : Nat) (write : Bool) : Walk12 :=
  let x := (comp s c).xlate
  let second (l1 : Option Leaf) (ipa : Nat) : Walk12 :=
    match tlb2Find s cl c ipa write with
    | some l2 => .leaf ⟨l1, ipa, l2, true⟩
    | none =>
      match stage2 s c ipa with
      | .leaf l2 => .leaf ⟨l1, ipa, l2, false⟩
      | .miss st i => .miss st i
      | .bad => .bad
      | .uncorr d => .uncorr d
  if x.flags.testBit 0 then
    match walk1 s c va levels1 x.s1root with
    | .leaf l1 => second (some l1) (leafPa l1 va)
    | .miss st i => .miss st i
    | .bad => .bad
    | .uncorr d => .uncorr d
  else if 2 ^ 52 ≤ va then .bad
  else second none va

/-- The descriptors that a second-stage walk reads. -/
def walk2Reads (s : State) (ipa : Nat) : List (Nat × Nat × Nat) → Nat → List Nat
  | [], _ => []
  | (level, shift, width) :: ls, base =>
    let d := descAt base shift width ipa
    let val := homeLe s (keyNum s 0) d 8
    if localClass base = .none then []
    else if homeFails s d 8 || !val.testBit 0 || malformed 2 level val || val.testBit 1 then [d]
    else d :: walk2Reads s ipa ls (descOut val)

/-- The descriptors that a first-stage walk reads, with those of its tables' second-stage walks. -/
def walk1Reads (s : State) (c va : Nat) : List (Nat × Nat × Nat) → Nat → List Nat
  | [], _ => []
  | (level, shift, width) :: ls, base =>
    let a := descAt base shift width va
    walk2Reads s a levels2 (comp s c).xlate.s2root ++
    match stage2 s c a with
    | .leaf l2 =>
      let d := leafPa l2 a
      let val := homeLe s (compKey s c) d 8
      if localClass d = .none || !reachable s c d l2.bits then []
      else if homeFails s d 8 || !val.testBit 0 || malformed 1 level val || val.testBit 1 then [d]
      else d :: walk1Reads s c va ls (descOut val)
    | _ => []

/-- The descriptors that a walk of an address reads at their homes (12 R234, 13 R250). -/
def walkReads (s : State) (cl : Option Nat) (c va : Nat) : List Nat :=
  let x := (comp s c).xlate
  let second (ipa : Nat) : List Nat :=
    if (tlb2Find s cl c ipa false).isSome || x.s2lim ≤ ipa then [] else walk2Reads s ipa levels2 x.s2root
  if x.flags.testBit 0 then
    walk1Reads s c va levels1 x.s1root ++
    match walk1 s c va levels1 x.s1root with
    | .leaf l1 => second (leafPa l1 va)
    | _ => []
  else if 2 ^ 52 ≤ va then [] else second va

/-- The combined entry of a walk (12 R238): the smaller page, the intersection of the permissions. -/
def combine (c va : Nat) (x : Combined) : TlbEntry :=
  let has (b : Nat) : Bool := (x.l1.all fun l => l.val.testBit b) && x.l2.val.testBit b
  let bits := match x.l1 with
    | some l => min l.bits x.l2.bits
    | none => x.l2.bits
  { comp := c, va := va / 2 ^ bits * 2 ^ bits, bits := bits, vbits := (x.l1.map (·.bits)).getD x.l2.bits, ibits := x.l2.bits,
    pa := leafPa x.l2 x.ipa / 2 ^ bits * 2 ^ bits, ipa := x.ipa / 2 ^ bits * 2 ^ bits,
    rd := has 2, wr := has 3, ex := has 4,
    usr := x.l1.all fun l => l.val.testBit 5,
    st := x.l1.any fun l => l.val.testBit 8,
    dirty := (x.l1.all (·.dt)) && x.l2.dt }

/-- An entry covers a virtual address of a compartment. -/
def covers (e : TlbEntry) (c va : Nat) : Bool := e.comp = c && e.va = va / 2 ^ e.bits * 2 ^ e.bits

/-- The cached entry for an address, in the core's TLB and then the cluster's (12 R238). -/
def tlbFind (s : State) (k c va : Nat) : Option TlbEntry :=
  match (core s k).tlb.find? fun e => covers e c va with
  | some e => some e
  | none => (cluster s (k / 4)).tlb.find? fun e => covers e c va

/-- A store of at most `n` entries in which a new one replaces the oldest. DESIGN CHOICE (log 99): 12 R238 gives no order of replacement
for a full TLB. -/
def fifo {α : Type} (n : Nat) (x : α) (l : List α) : List α := (x :: l).take n

/-- Cache a combined entry in the core's TLB of 128 and the cluster's of 4,096 (12 R238). -/
def tlbFill (s : State) (k : Nat) (e : TlbEntry) : State :=
  let keep (l : List TlbEntry) := l.filter fun x => !(x.comp = e.comp && x.va = e.va && x.bits = e.bits)
  let x := core s k
  let s := setCore s k { x with tlb := fifo 128 e (keep x.tlb) }
  let y := cluster s (k / 4)
  setCluster s (k / 4) { y with tlb := fifo 4096 e (keep y.tlb) }

/-- Cache the second-stage leaf of a walk in the cluster's TLB of 1,024 (12 R238), as its AC and DT now stand. -/
def tlb2Fill (s : State) (cl c : Nat) (x : Combined) (write : Bool) : State :=
  if x.held then s
  else
    let y := cluster s cl
    let e : Tlb2Entry := ⟨c, x.ipa / 2 ^ x.l2.bits * 2 ^ x.l2.bits, x.l2.bits, x.l2.desc,
      Nat.lor (x.l2.val - Nat.land x.l2.val 0x80) (if write || x.l2.dt then 0xC0 else 0x40), x.l2.out⟩
    setCluster s cl { y with
      tlb2 := fifo 1024 e (y.tlb2.filter fun f => !(f.comp = e.comp && f.ipa = e.ipa && f.bits = e.bits)) }

/-- OR bits into a descriptor at its home, an event of its word's coherence order (12 R236). -/
def orDesc (s : State) (key d m : Nat) : State :=
  let old := homeLe s key d 8
  if Nat.land old m = m then s
  else disown (putHome s key d (Bits.leBytes 8 (Nat.lor old m))) d 8

/-- Set AC in a leaf, and for a write DT in every descriptor of it (12 R236). -/
def markLeaf (s : State) (key : Nat) (l : Leaf) (write : Bool) : State :=
  let s := orDesc s key l.desc 0x40
  if write then (groupDescs l.desc (if l.bits ≤ 16 then 0 else 1) l.val).foldl (fun s d => orDesc s key d 0x80) s else s

/-- Set AC, and DT for a write, in the leaves a walk found (12 R236). -/
def markLeaves (s : State) (c : Nat) (x : Combined) (write : Bool) : State :=
  let s := match x.l1 with
    | some l => markLeaf s (compKey s c) l write
    | none => s
  if x.held then s else markLeaf s (keyNum s 0) x.l2 write

/-- What the walk of an address leaves in the descriptors it finds, whatever comes of the access (12 R236): AC in every leaf,
those over the first-stage tables included, and DT in both stages when a write is granted. -/
def markWalk (s : State) (cl : Option Nat) (c va : Nat) (write granted : Bool) : State :=
  let x := (comp s c).xlate
  let tables := if x.flags.testBit 0 then tableLeaves s c va levels1 x.s1root else []
  let t := tables.foldl (fun s l => markLeaf s (keyNum s 0) l false) s
  match walk12 s cl c va write with
  | .leaf y => markLeaves t c y (write && granted)
  | _ =>
    if x.flags.testBit 0 then
      match walk1 s c va levels1 x.s1root with
      | .leaf l => markLeaf t (compKey s c) l false
      | _ => t
    else t

/-- An entry grants what an access needs at a level (12 R236). -/
def grants (e : TlbEntry) (level : Nat) (n : Need) : Bool :=
  (level ≠ 0 || e.usr) &&
  match n with
  | .rd => e.rd
  | .wr => e.wr
  | .rw => e.rd && e.wr
  | .ex => e.ex

/-- What a combined entry yields for an access. -/
def useEntry (s : State) (c level : Nat) (n : Need) (va : Nat) (e : TlbEntry) : Xres :=
  let pa := e.pa + va % 2 ^ e.bits
  if !reachable s c pa e.bits then .addr
  else if !grants e level n then .access
  else .ok pa e.st

/-- An address lies in the active heap window of its compartment (02 R30). -/
def inHeap (h : Heap) (va : Nat) : Bool := h.base ≤ va && va < h.base + h.lim

/-- The heap window's translation (02 R30, 12 R239): no stage, no TLB, read and write at every level, never fetch. -/
def heapXlate (s : State) (c : Nat) (n : Need) (va : Nat) : Xres :=
  let x := (comp s c).xlate
  let pa := (va + (comp s c).heap.off) % 2 ^ 52
  if !(x.gbase ≤ pa && pa < x.gbase + x.glim) then .addr
  else if !reachable s c pa 12 then .addr
  else if n = .ex then .access
  else .ok pa false

/-- A descriptor of the walk could not be corrected. -/
def Xres.failed : Xres → Bool
  | .uncorr _ => true
  | _ => false

/-- The translation an access would have now, with nothing changed: the checks of 08 R141 steps 2 and 3. -/
def peek (s : State) (k c level : Nat) (n : Need) (va : Nat) : Xres :=
  if inHeap (comp s c).heap va then heapXlate s c n va
  else
    match tlbFind s k c va with
    | some e => if n.writes && e.wr && !e.dirty then
        match walk12 s (some (k / 4)) c va n.writes with
        | .leaf x => useEntry s c level n va (combine c va x)
        | .miss st i => .miss st i
        | .bad => .addr
        | .uncorr d => .uncorr d
      else useEntry s c level n va e
    | none =>
      match walk12 s (some (k / 4)) c va n.writes with
      | .leaf x => useEntry s c level n va (combine c va x)
      | .miss st i => .miss st i
      | .bad => .addr
      | .uncorr d => .uncorr d

/-- Translate an access: a walk sets AC and DT and fills the TLBs (12 R236, R238). -/
def translate (s : State) (k c level : Nat) (n : Need) (va : Nat) : State × Xres :=
  let walked : State × Xres :=
    match walk12 s (some (k / 4)) c va n.writes with
    | .leaf x =>
      match useEntry s c level n va (combine c va x) with
      | .ok pa st =>
        let s := tlb2Fill (markWalk s (some (k / 4)) c va n.writes true) (k / 4) c x n.writes
        let e := combine c va x
        (tlbFill s k { e with dirty := e.dirty || n.writes }, .ok pa st)
      | r => (markWalk s (some (k / 4)) c va n.writes false, r)
    | .miss st i => (markWalk s (some (k / 4)) c va n.writes false, .miss st i)
    | .bad => (markWalk s (some (k / 4)) c va n.writes false, .addr)
    | .uncorr d => (markWalk s (some (k / 4)) c va n.writes false, .uncorr d)
  if inHeap (comp s c).heap va then (s, heapXlate s c n va)
  else
    match tlbFind s k c va with
    | some e => if n.writes && e.wr && !e.dirty then walked else (s, useEntry s c level n va e)
    | none => walked

/-- What a refused access leaves of its walk (12 R236): AC in the leaves found, if no TLB entry answered it. -/
def markRefused (s : State) (k c va : Nat) : State :=
  if inHeap (comp s c).heap va || (tlbFind s k c va).isSome then s else markWalk s (some (k / 4)) c va false false

/-- Translate an intermediate address through the second stage alone, as the Postmaster and the host port do (21 R325): its
frame must lie in the compartment's colours (12 R227). -/
def ipaToPa (s : State) (c ipa : Nat) (write : Bool) : Option Nat :=
  match stage2 s c ipa with
  | .leaf l =>
    if l.val.testBit (if write then 3 else 2) && reachable s c (leafPa l ipa) l.bits then some (leafPa l ipa) else none
  | _ => none

/-- What that translation leaves in the leaf it finds (12 R236): AC, and DT for a write that is granted. -/
def markIpa (s : State) (c ipa : Nat) (write : Bool) : State :=
  match stage2 s c ipa with
  | .leaf l => markLeaf s (keyNum s 0) l (write && (ipaToPa s c ipa true).isSome)
  | _ => s

end Sys2Proof.Machine
end

