-- ==== Sys2Proof/Machine/Cache.lean ====
section
/-! DEFINITION. The L1s (12 R228, R229), writes performed at the home with the monitors and watchpoints they meet (08 R162,
R163), ownership and write-backs (10 R205, R211, 11 R213), acquires (10 R208), weak and strong accesses (10 R200, R201). -/

namespace Sys2Proof.Machine

/-- The core whose L1 holds a physical address for a core (12 R229). -/
def l1Loc (s : State) (k pa : Nat) : Nat := if (cluster s (k / 4)).fused then 4 * (k / 4) + pa / 64 % 4 else k

/-- The L1s that act as the L1 of a core (10 R200). -/
def l1Group (s : State) (k : Nat) : List Nat :=
  if (cluster s (k / 4)).fused then (List.range 4).map fun i => 4 * (k / 4) + i else [k]

/-- The core that holds a team, or held it when it was evicted (15 R269). -/
def holdingCore (s : State) (key : Nat) (t : Team) : Nat :=
  match t.place with
  | some p => p.core
  | none => ((crew? s (crewOf key)).bind fun c => c.core.orElse fun _ => c.want).getD 0

/-- An acquire at .cl or wider in the L1 of a core: clean words go, but those of stable pages (10 R208). -/
def acquireL1 (s : State) (k : Nat) : State :=
  (l1Group s k).foldl (fun s j =>
    let x := core s j
    setCore s j { x with l1 := x.l1.filter fun w => w.2.dirty || w.2.stable }) s

/-- An acquire at a scope by a team of a core (10 R206, R208). -/
def acquireAt (s : State) (k scope : Nat) : State := if 3 ≤ scope then acquireL1 s k else s

/-- The clean words of a physical range leave the L1 of a core, stable pages included (11 R220). -/
def acquireRange (s : State) (k lo n : Nat) : State :=
  (l1Group s k).foldl (fun s j =>
    let x := core s j
    setCore s j { x with l1 := x.l1.filter fun w => w.2.dirty || w.1 < lo / 4 || (lo + n + 3) / 4 ≤ w.1 }) s

/-- A monitored word satisfies its condition (08 R162). -/
def monitorHolds (value mask ctl w : Word) : Bool :=
  let eq : Bool := w &&& mask = value &&& mask
  if ctl.getLsbD 3 then !eq else eq

/-- The value of a word at a monitor's point. -/
def pointWord (s : State) (c : Nat) (point : Option Nat) (pa : Nat) : Word :=
  let h := BitVec.ofNat 32 (homeLe s (compKey s c) (pa / 4 * 4) 4)
  match point with
  | none => h
  | some k => ((Tab.get? (core s k).l1 (pa / 4)).map (·.val)).getD h

/-- A write of a range at a point wakes this wait. -/
def monitorHit (s : State) (point : Option Nat) (lo n c : Nat) : Wait → Bool
  | .monitor _ pa pt v m ctl _ _ =>
    pt = point && decide (lo < pa + 4 && pa < lo + n) && monitorHolds v m ctl (pointWord s c pt pa)
  | _ => false

/-- The scopes of the monitors of a team that a write wakes. -/
def hitScopes (t : Team) (p : Wait → Bool) : List Nat :=
  let waits := t.front.map (·.wait) ++ (t.held.filter fun h => h.result.isNone).map (·.entry.wait)
  waits.filterMap fun x => x.bind fun w =>
    match w with
    | .monitor _ _ _ _ _ ctl _ _ => if p w then some (ctl.toNat % 8) else none
    | _ => none

/-- A write of a range performed at a point makes conditions hold and wakes their waiters: each wake is an acquire at the
monitor's scope (08 R162). -/
def wakeMonitors (s : State) (point : Option Nat) (lo n : Nat) : State :=
  let hit (t : Team) (w : Wait) : Bool := monitorHit s point lo n t.comp w
  let woken := s.teams.filter fun kt => waitsOn (hit kt.2) kt.2
  woken.foldl (fun s' kt =>
    let s' := (hitScopes kt.2 (hit kt.2)).foldl (fun s' sc => acquireAt s' (holdingCore s' kt.1 kt.2) sc) s'
    onTeam s' kt.1 (wakeTeam fun w => if hit kt.2 w then some (some 0) else none)) s

/-- The core a watchpoint's threads go to: the registering core, or the lowest of the compartment (08 R163). -/
def watchCore (s : State) (w : Watch) : Nat :=
  if (comp s w.comp).desc.clusters.getLsbD (w.core / 4) then w.core
  else ((physicalCore s w.comp 0).getD w.core)

/-- The words of a watchpoint that a write of a range leaves matching. -/
def watchWords (s : State) (w : Watch) (lo n : Nat) : List Word :=
  (List.range (w.len / 4)).filterMap fun j =>
    let a := w.base + 4 * j
    if decide (lo < a + 4 && a < lo + n) then
      let v := BitVec.ofNat 32 (homeLe s (compKey s w.comp) a 4)
      if v &&& w.mask = w.value &&& w.mask then some v else none
    else none

/-- Watchpoints that a write at the home matches: one thread for each word (08 R163), which the writing core releases to. -/
def matchWatches (s : State) (lo n : Nat) (by' : Option Nat := none) : State :=
  s.watches.foldl (fun s' w =>
    let ws := watchWords s' w lo n
    if ws = [] then s'
    else
      { s' with
        spawning := s'.spawning ++ (if w.spawns then ws else []).map fun v => ⟨watchCore s' w, w.comp, w.entry, w.region, v, w.prio, by'⟩
        watches := if w.oneshot then s'.watches.filter (fun x => x ≠ w) else s'.watches }) s

/-- A byte of an active region's control block that only the Postmaster writes (15 R262). -/
def rcbOwned (s : State) (pa : Nat) : Bool :=
  s.regions.any fun r =>
    let o := pa - r.2.pa
    r.2.pa ≠ 0 && r.2.pa ≤ pa && ((0x58 ≤ o && o < 0x60) || (0x64 ≤ o && o < 0x6C) || (0xC0 ≤ o && o < 0x100))

/-- Bytes with those that a program may not write replaced by what stands there. -/
def keepOwned (s : State) (key : Nat) : Nat → List Byte → List Byte
  | _, [] => []
  | a, b :: bs => (if rcbOwned s a then homeByte s key a else b) :: keepOwned s key (a + 1) bs

/-- A write performed at the home slice: it wakes monitors and matches watchpoints (08 R162, R163, 11 R213). -/
def writeHome (s : State) (key pa : Nat) (bs : List Byte) (by' : Option Nat := none) : State :=
  let s := disown (putHome s key pa bs) pa bs.length
  matchWatches (wakeMonitors s none pa bs.length) pa bs.length by'

/-- A write by the Postmaster or the host port at a physical address that a second stage gave: at its home, or from the host port;
one to a peer's window goes nowhere (log 40). -/
def writeOut (s : State) (key pa : Nat) (bs : List Byte) : State :=
  match paClass s pa with
  | .hbm | .tier2 => writeHome s key pa bs
  | .host => { s with out := s.out ++ [.hostWrite (pa - 0x8000000000000) bs false] }
  | _ => s

/-- A pending registration of a word arrives (11 R213). -/
def registerWord (s : State) (k w : Nat) : State :=
  if s.registering.contains (k, w) then
    { s with registering := s.registering.filter (fun x => x ≠ (k, w)), owners := Tab.put s.owners w k }
  else s

/-- A word's dirty mark goes, and its line's once no word of it is dirty. -/
def cleanWord (x : Core) (w : Nat) (v : L1Word) : Core :=
  let l1 := Tab.put x.l1 w { v with dirty := false }
  { x with
    l1 := l1
    dirtyLines := x.dirtyLines.filter fun d =>
      d.1 ≠ w / 16 || (List.range 16).any fun j => (Tab.get? l1 (16 * (w / 16) + j)).any (·.dirty) }

/-- The write-back of one word of an L1: performed only if its registration is the latest event of the word (11 R213). -/
def writeBackWord (s : State) (k w : Nat) : State :=
  match Tab.get? (core s k).l1 w with
  | some v =>
    if v.dirty then
      let s := registerWord s k w
      let s := setCore s k (cleanWord (core s k) w v)
      if Tab.get? s.owners w = some k then writeHome s v.key (4 * w) (Bits.leBytes 4 v.val.toNat) (some k) else s
    else s
  | none => s

/-- The dirty words of an L1 that a test picks are written back. -/
def writeBackIf (s : State) (k : Nat) (p : Nat → Bool) : State :=
  ((core s k).l1.filter fun w => w.2.dirty && p w.1).foldl (fun s w => writeBackWord s k w.1) s

/-- Every dirty word of the L1 of a core is written back (10 R207). -/
def writeBackAll (s : State) (k : Nat) : State := (l1Group s k).foldl (fun s j => writeBackIf s j fun _ => true) s

/-- A release at a scope by a team of a core writes back at .cl or wider (08 R147, R158). -/
def releaseAt (s : State) (k scope : Nat) : State := if 3 ≤ scope then writeBackAll s k else s

/-- The words of an L1 that a test picks leave it, dirty ones written back first. -/
def dropWords (s : State) (k : Nat) (p : Nat → Bool) : State :=
  let s := writeBackIf s k p
  let x := core s k
  setCore s k { x with l1 := x.l1.filter fun w => !p w.1 }

/-- The whole L1 of one core is written back and invalidated (12 R229). -/
def flushL1 (s : State) (k : Nat) : State := dropWords s k fun _ => true

/-- The dirty lines of an L1 once words have left it without a write-back. -/
def tidyLines (x : Core) : Core :=
  { x with dirtyLines := x.dirtyLines.filter fun d => x.l1.any fun w => w.2.dirty && w.1 / 16 = d.1 }

/-! ## The ways of the L1s and of the L2 slices (12 R226, R228, R231) -/

/-- The ways of a core's pool that its L1 keeps: each 64 KiB of scratchpad takes one, from the highest down (log 77). -/
def l1WayCount (s : State) (k : Nat) : Nat :=
  16 - s.crews.foldl (fun n c => if c.2.core = some k then n + c.2.scr else n) 0

/-- A line has valid words in an L1. -/
def lineValid (x : Core) (line : Nat) : Bool := (List.range 16).any fun i => (Tab.get? x.l1 (16 * line + i)).isSome

/-- A line has stable words in an L1: it is evicted last (10 R210). -/
def lineStable (x : Core) (line : Nat) : Bool := (List.range 16).any fun i => (Tab.get? x.l1 (16 * line + i)).any (·.stable)

/-- A line that enters an L1 takes a way of its set: a free one, or that of a line that it evicts. -/
def takeWay (s : State) (j line : Nat) : State :=
  let x := core s j
  let set := 16 * (line % 1024)
  let held (w : Nat) : Option Nat := (Tab.get? x.ways (set + w)).filter fun l => lineValid x l
  let ws := List.range (l1WayCount s j)
  if ws.any fun w => Tab.get? x.ways (set + w) = some line then s
  else
    match ws.find? fun w => (held w).isNone with
    | some w => setCore s j { x with ways := Tab.put x.ways (set + w) line }
    | none =>
      let weak := ws.filter fun w => (held w).all fun l => !lineStable x l
      let from' := if weak = [] then ws else weak
      let w := from'.getD (Config.l1Victim s.fresh % from'.length) 0
      let s := dropWords { s with fresh := s.fresh + 1 } j fun v => some (v / 16) = held w
      setCore s j { core s j with ways := Tab.put (core s j).ways (set + w) line }

/-- A core's scratchpads are to take `n` more ways: their dirty words are written back and their words invalidated first. -/
def giveWays (s : State) (k n : Nat) : State :=
  let top := l1WayCount s k
  let taken (key : Nat) : Bool := top - n ≤ key % 16 && key % 16 < top
  let lines := ((core s k).ways.filter fun w => taken w.1).map (·.2)
  let s := dropWords s k fun w => lines.contains (w / 16)
  setCore s k { core s k with ways := (core s k).ways.filter fun w => !taken w.1 }

/-- The registered owners of a line write its dirty words back (12 R231). -/
def recallLine (s : State) (line : Nat) : State :=
  (List.range 16).foldl (fun s i =>
    match Tab.get? s.owners (16 * line + i) with
    | some j => writeBackWord s j (16 * line + i)
    | none => s) s

/-- A line leaves its slice: its owners are recalled first, and its dirty words go to memory (12 R231). -/
def evictLine (s : State) (w line : Nat) : State :=
  let s := recallLine s line
  { s with owners := s.owners.filter fun o => o.1 / 16 ≠ line, l2 := Tab.del s.l2 w }

/-- A line comes into its home slice under a key: a full set evicts one. -/
def l2Touch (s : State) (key pa : Nat) : State :=
  if (l2Find s (pa / 64)).isSome then s
  else
    let slot (w : Nat) : Nat := 24 * l2Set pa + w
    let new' : L2Line := { line := pa / 64, key := key }
    match (List.range 24).find? fun w => (Tab.get? s.l2 (slot w)).isNone with
    | some w => { s with l2 := Tab.put s.l2 (slot w) new' }
    | none =>
      let w := Config.l2Victim s.fresh % 24
      let s := evictLine { s with fresh := s.fresh + 1 } (slot w) (((Tab.get? s.l2 (slot w)).map (·.line)).getD 0)
      { s with l2 := Tab.put s.l2 (slot w) new' }

/-- A program's write at the home slice, which holds the line from then on: the Postmaster's fields of an active region keep their bytes (15 R262). -/
def writeProg (s : State) (key pa : Nat) (bs : List Byte) (by' : Option Nat := none) : State :=
  writeHome (l2Touch s key pa) key pa (keepOwned s key pa bs) by'

/-- The words of a physical range. -/
def inRange (lo n w : Nat) : Bool := lo / 4 ≤ w && w < (lo + n + 3) / 4

/-- The word of an L1 at a physical address, fetched clean from the home if the L1 has none (10 R200). -/
def l1Fetch (s : State) (k c : Nat) (stable : Bool) (pa : Nat) : State × Word :=
  let j := l1Loc s k pa
  match Tab.get? (core s j).l1 (pa / 4) with
  | some w => (s, w.val)
  | none =>
    let s := takeWay (l2Touch s (compKey s c) pa) j (pa / 64)
    let v := BitVec.ofNat 32 (homeLe s (compKey s c) (pa / 4 * 4) 4)
    let x := core s j
    (setCore s j { x with l1 := Tab.put x.l1 (pa / 4) ⟨v, false, stable, compKey s c, c⟩ }, v)

/-- A weak load of `n` bytes (10 R200): its words in ascending order. -/
def l1Words (s : State) (k c : Nat) (stable : Bool) : List Nat → State × List Byte
  | [] => (s, [])
  | w :: ws =>
    let (s, v) := l1Fetch s k c stable (4 * w)
    let (s, r) := l1Words s k c stable ws
    (s, Bits.leBytes 4 v.toNat ++ r)

/-- The words that `n` bytes from an address meet. -/
def wordsOf (pa n : Nat) : List Nat := (List.range ((pa + n + 3) / 4 - pa / 4)).map fun j => pa / 4 + j

/-- A weak load of `n` bytes of a physical address. -/
def weakLoad (s : State) (k c : Nat) (stable : Bool) (pa n : Nat) : State × List Byte :=
  let (s, bs) := l1Words s k c stable (wordsOf pa n)
  (s, (bs.drop (pa % 4)).take n)

/-- A line becomes dirty in an L1; the 1,025th first writes back the oldest (10 R211). -/
def markLine (s : State) (j line : Nat) : State :=
  let x := core s j
  if x.dirtyLines.any fun d => d.1 = line then s
  else
    let s := match x.dirtyLines with
      | d :: _ => if 1024 ≤ x.dirtyLines.length then writeBackIf s j fun w => w / 16 = d.1 else s
      | [] => s
    let x := core s j
    setCore s j { x with dirtyLines := x.dirtyLines ++ [(line, clk s j)] }

/-- One word enters an L1 as a dirty word: a word newly dirty there is registered at its home (11 R213). -/
def weakWord (s : State) (k c : Nat) (stable : Bool) (w : Nat) (v : Word) : State :=
  let j := l1Loc s k (4 * w)
  let was := (Tab.get? (core s j).l1 w).any (·.dirty)
  let s := markLine (takeWay (if was then s else l2Touch s (compKey s c) (4 * w)) j (w / 16)) j (w / 16)
  let x := core s j
  let s := setCore s j { x with l1 := Tab.put x.l1 w ⟨v, true, stable, compKey s c, c⟩ }
  let s :=
    if was then s
    else if stalled s 8 j then { s with registering := s.registering ++ [(j, w)] }
    else { s with owners := Tab.put s.owners w j }
  wakeMonitors s (some j) (4 * w) 4

/-- A word with some of its bytes replaced: the Postmaster's fields keep theirs (15 R262). -/
def mergeWord (s : State) (old : Word) (w pa : Nat) (bs : List Byte) : Word :=
  BitVec.ofNat 32 (Bits.ofLe ((List.range 4).map fun i =>
    let a := 4 * w + i
    if pa ≤ a && a < pa + bs.length && !rcbOwned s a then bs.getD (a - pa) 0 else BitVec.ofNat 8 (old.toNat / 2 ^ (8 * i))))

/-- A weak store of bytes to a physical address, word by word: a word it covers in part is fetched first. One that cannot be corrected is
not kept in the L1: its bytes go to the home, where the word stays lost until a store replaces all of it (12 R244). -/
def weakStore (s : State) (k c : Nat) (stable : Bool) (pa : Nat) (bs : List Byte) : State :=
  (wordsOf pa bs.length).foldl (fun s w =>
    let whole := pa ≤ 4 * w && 4 * w + 4 ≤ pa + bs.length
    if !whole && homeFails s (4 * w) 4 && (Tab.get? (core s (l1Loc s k (4 * w))).l1 w).isNone then
      let lo := max pa (4 * w)
      putHome s (compKey s c) lo ((bs.drop (lo - pa)).take (4 * w + 4 - lo))
    else
    let (s, old) := if whole && !rcbOwned s (4 * w) then (s, 0) else l1Fetch s k c stable (4 * w)
    weakWord s k c stable w (mergeWord s old w pa bs)) s

/-- The dirty words a strong access addresses are written back first (10 R201). -/
def syncWords (s : State) (k pa n : Nat) : State :=
  (wordsOf pa n).foldl (fun s w => writeBackWord s (l1Loc s k (4 * w)) w) s

/-- The valid copies of the addressed words in the issuing L1 take the values at the home, clean (10 R201). -/
def refreshWords (s : State) (k c pa n : Nat) : State :=
  (wordsOf pa n).foldl (fun s w =>
    let j := l1Loc s k (4 * w)
    match Tab.get? (core s j).l1 w with
    | some v =>
      let x := core s j
      setCore s j { x with
        l1 := Tab.put x.l1 w { v with val := BitVec.ofNat 32 (homeLe s (compKey s c) (4 * w) 4), dirty := false } }
    | none => s) s

/-- A strong load at the home slice (10 R201). -/
def strongLoad (s : State) (k c pa n : Nat) : State × List Byte :=
  let s := syncWords (l2Touch s (compKey s c) pa) k pa n
  let bs := homeBytes s (compKey s c) pa n
  (refreshWords s k c pa n, bs)

/-- A strong store at the home slice (10 R201). -/
def strongStore (s : State) (k c pa : Nat) (bs : List Byte) : State :=
  let s := syncWords (l2Touch s (compKey s c) pa) k pa bs.length
  let s := writeProg s (compKey s c) pa bs (some k)
  refreshWords s k c pa bs.length

/-- Accesses at a scope are performed in the L1 (08 R143). -/
def nearScope (s : State) (k ord scope : Nat) : Bool :=
  ord = 0 || scope ≤ 2 || (scope = 3 && (cluster s (k / 4)).fused)

/-- A load of a local address at the point of its scope (08 R143, 10 R200). -/
def localLoad (s : State) (k c : Nat) (near stable : Bool) (pa n : Nat) : State × List Byte :=
  if near then weakLoad s k c stable pa n else strongLoad s k c pa n

/-- A store to a local address at the point of its scope (08 R143, 10 R200). -/
def localStore (s : State) (k c : Nat) (near stable : Bool) (pa : Nat) (bs : List Byte) : State :=
  if near then weakStore s k c stable pa bs else strongStore s k c pa bs

/-- The physical address of an access by the device on a compartment's behalf: no TLB, level-1 rights (15 R264, R279,
13 R259). -/
def deviceXlate (s : State) (c : Nat) (n : Need) (va : Nat) : State × Xres :=
  if inHeap (comp s c).heap va then (s, heapXlate s c n va)
  else
    match walk12 s none c va n.writes with
    | .leaf x =>
      match useEntry s c 1 n va (combine c va x) with
      | .ok pa st => (markWalk s none c va n.writes true, .ok pa st)
      | r => (markWalk s none c va n.writes false, r)
    | .miss st i => (markWalk s none c va n.writes false, .miss st i)
    | .bad => (markWalk s none c va n.writes false, .addr)
    | .uncorr d => (markWalk s none c va n.writes false, .uncorr d)

/-- A local page the device may use on a compartment's behalf. -/
def devicePa (s : State) (c : Nat) (n : Need) (va : Nat) : State × Option Nat :=
  match deviceXlate s c n va with
  | (s, .ok pa _) => (s, if localClass pa = .none then none else some pa)
  | (s, _) => (s, none)

end Sys2Proof.Machine
end

