-- ==== Sys2Proof/Machine/Records.lean ====
section
/-! DEFINITION. Records the device writes: error records (21 R329), the hypervisor's error queue (12 R245) and the regions'
fault queues (13 R258, R259). -/

namespace Sys2Proof.Machine

/-- Fields laid out in an image of `n` zero bytes. -/
def image (n : Nat) (fs : List Bits.Fld) : List Byte :=
  fs.foldl (fun b f => b.take f.off ++ Bits.leBytes f.size f.val ++ b.drop (f.off + f.size)) (List.replicate n 0)

/-- An error record of a compartment (21 R329). -/
def errImage (c : Nat) (r : ErrRecord) : List Byte :=
  image 32 [⟨0, 2, r.code⟩, ⟨2, 1, c⟩, ⟨4, 4, r.info⟩, ⟨8, 8, r.addr⟩, ⟨0x10, 4, r.stream⟩, ⟨0x14, 5, r.seq0⟩,
    ⟨0x19, 5, r.seq1⟩]

/-- A ring has room for one more record. -/
def ringRoom (r : Ring) : Bool := r.size ≠ 0 && (r.prod + 2 ^ 32 - r.cons) % 2 ^ 32 < r.size

/-- Write one staged error record into the ring, if the ring has room and its page is there. -/
def errStep (s : State) (c : Nat) : State :=
  let x := comp s c
  let x := if x.errStage.length < 64 && x.errMerged ≠ 0 then
      { x with errStage := x.errStage ++ [{ code := 8, info := x.errMerged }], errMerged := 0 } else x
  match x.errStage with
  | [] => s
  | r :: rest =>
    if ringRoom x.errs then
      let ipa := x.errs.base + 32 * (x.errs.prod % x.errs.size)
      let s := markIpa s c ipa true
      match ipaToPa s c ipa true with
      | some pa =>
        let s := writeOut s (compKey s c) pa (errImage c r)
        setComp s c { x with errStage := rest, errs := { x.errs with prod := (x.errs.prod + 1) % 2 ^ 32 } }
      | none => s
    else s

/-- Write staged error records while there is room. -/
def errFlush (s : State) (c : Nat) : State := (List.range 66).foldl (fun s _ => errStep s c) s

/-- An error record goes to the host: staged while the ring is full, merged when the store is full (21 R329). -/
def pushErr (s : State) (c : Nat) (r : ErrRecord) : State :=
  let x := comp s c
  let x := if x.errStage.length < 64 then { x with errStage := x.errStage ++ [r] }
    else { x with errMerged := x.errMerged + 1 }
  errFlush (setComp s c x) c

/-- A staged record as it is written: CORR of KIND 8 is CECOUNT at that moment (12 R245). -/
def heqAsWritten (q : Heq) (r : List Byte) : List Byte :=
  if r.head? = some 8 then r.take 16 ++ Bits.leBytes 4 q.cecount ++ r.drop 20 else r

/-- The record of those not kept takes the first room that comes in the staging store (12 R245 KIND 15). -/
def heqOverflow (q : Heq) : Heq :=
  if q.staged.length < 64 && q.uncounted ≠ 0 then
    { q with staged := q.staged ++ [image 32 [⟨0, 1, 15⟩, ⟨4, 4, q.uncounted⟩]], uncounted := 0 }
  else q

/-- Write one staged record of the hypervisor's error queue (12 R245). -/
def heqStep (s : State) : State :=
  let s := { s with heq := heqOverflow s.heq }
  let q := s.heq
  match q.staged with
  | [] => s
  | r :: rest =>
    if q.size ≠ 0 && (q.prod + 2 ^ 32 - q.cons) % 2 ^ 32 < q.size then
      let s := writeOut s (keyNum s 0) (q.base + 32 * (q.prod % q.size)) (heqAsWritten q r)
      { s with heq := heqOverflow { q with staged := rest, prod := (q.prod + 1) % 2 ^ 32 } }
    else s

def heqFlush (s : State) : State := (List.range 66).foldl (fun s _ => heqStep s) s

/-- A record goes to the hypervisor's error queue (12 R245). -/
def pushHeq (s : State) (r : List Byte) : State :=
  let q := s.heq
  let q := if q.staged.length < 64 && q.uncounted = 0 then { q with staged := q.staged ++ [r] }
    else { q with uncounted := q.uncounted + 1 }
  heqFlush { s with heq := q }

/-- The record of an uncorrectable error (12 R245 KIND 8). -/
def uncorrImage (c unit action where' pa : Nat) : List Byte :=
  image 32 [⟨0, 1, 8⟩, ⟨1, 1, c⟩, ⟨2, 1, unit⟩, ⟨3, 1, action⟩, ⟨4, 4, where'⟩, ⟨8, 8, pa⟩]

/-- One more corrected error (12 R243, R245). -/
def countCorrected (s : State) : State :=
  { s with heq := { s.heq with cecount := min (2 ^ 32 - 1) (s.heq.cecount + 1) } }

/-- The clean copies of a line go from every L1 and L2 (12 R244). -/
def loseLine (s : State) (line : Nat) : State :=
  { s with
    l2 := s.l2.filter fun x => x.2.line ≠ line || x.2.dirty ≠ 0
    cores := s.cores.map fun k =>
      (k.1, { k.2 with l1 := k.2.l1.filter fun x => x.2.dirty || x.1 / 16 ≠ line }) }

/-- The data of a word at its home cannot be corrected: the error is recorded and the line's clean copies go (12 R244, R245).
`unit` is the structure where it is not the memory itself: DESIGN CHOICE (log 93), a descriptor or an instruction has WHERE[9:0] zero
and the deck of the word's home. -/
def reportUncorr (s : State) (c pa action : Nat) (unit : Option Nat := none) : State :=
  let w := pa / 4 * 4
  let where' := (if unit.isSome then 0 else Config.memoryChannel w % 2 ^ 10) + 2 ^ 10 * (home w / 512)
  loseLine (pushHeq s (uncorrImage c (unit.getD (if localClass w = .tier2 then 1 else 0)) action where' w)) (pa / 64)

/-- The failing word that an access of a team at an address meets is recorded: a descriptor's, or the first of its page from
there on. -/
def reportAt (s : State) (k c level va action : Nat) (unit : Option Nat := none) : State :=
  match peek s k c level .rd va with
  | .uncorr d => reportUncorr s c d action (some 11)
  | .ok pa _ =>
    match (List.range (1024 - pa / 4 % 1024)).find? fun j => homeFails s (pa / 4 * 4 + 4 * j) 4 with
    | some j => reportUncorr s c (pa / 4 * 4 + 4 * j) action unit
    | none => s
  | _ => s

/-- The failing word of a frame that a return cannot read is recorded (15 R282). -/
def reportFrame (s : State) (k c f : Nat) : State :=
  let bad (p : Nat) : Bool := match peek s k c 1 .rd p with
    | .uncorr _ => true
    | .ok pa _ => homeFails s (pa / 4096 * 4096 + p % 4096) (4096 - p % 4096)
    | _ => false
  match (f :: (List.range 12).map fun j => 4096 * (f / 4096 + j + 1)).find? bad with
  | some p => reportAt s k c 1 p 0
  | none => s

/-- A word of a scratchpad that a team reads cannot be corrected: UNIT 4 of the core that holds it (12 R245). -/
def reportScratch (s : State) (k c : Nat) : State := pushHeq s (uncorrImage c 4 0 (k % 2 ^ 10 + 2 ^ 10 * (k / 32)) 0)

/-- A fault record (13 R258). -/
def faultImage (r : FaultRecord) : List Byte :=
  image 32 [⟨0, 4, r.fid⟩, ⟨4, 1, r.kind⟩, ⟨5, 1, r.flags⟩, ⟨6, 2, r.count⟩, ⟨8, 8, r.va⟩, ⟨0x10, 8, r.ipa⟩,
    ⟨0x18, 4, r.who⟩, ⟨0x1C, 4, r.eng⟩]

/-- Why a device access to a fault queue failed, as INFO of FAULTQ says (21 R329). -/
def faultqInfo : Xres → Nat
  | .miss .. => 1
  | .access => 2
  | _ => 3

/-- A record or PROD write of a region's fault queue failed: the first sends an error record (13 R259). -/
def faultqFail (s : State) (c rk addr : Nat) (why : Xres) : State :=
  match Tab.get? s.regions rk with
  | some r =>
    let s := { s with regions := Tab.put s.regions rk { r with faultSent := true, retryAt := some (s.time + 65536) } }
    if r.faultSent then s else pushErr s c { code := 9, info := faultqInfo why, addr := addr }
  | none => s

/-- The device's access to a page of a fault queue (13 R259): one at a peer counts as refused, and so does a PROD and CONS that is
not on this device (log 78). -/
def faultPage (s : State) (c : Nat) (n : Need) (va : Nat) : State × Xres :=
  match deviceXlate s c n va with
  | (s, .ok pa st) =>
    (s, if localClass pa ≠ .none || (n = .wr && paClass s pa = .host) then .ok pa st else .access)
  | r => r

/-- Write the first staged fault record of a region, if its ring has room (13 R259). -/
def faultStep (s : State) (c rk : Nat) : State :=
  match (comp s c).faults.find? fun f => f.region = rk, Tab.get? s.regions rk with
  | some f, some r =>
    match faultPage s c .rw r.fqCtl with
    | (s, .ok ctl _) =>
      let prod := homeLe s (compKey s c) ctl 4
      let cons := homeLe s (compKey s c) (ctl + 4) 4
      if r.fqSize = 0 || r.fqSize ≤ (prod + 2 ^ 32 - cons) % 2 ^ 32 then s
      else
        let va := r.fqBase + 32 * (prod % r.fqSize)
        match faultPage s c .wr va with
        | (s, .ok pa _) =>
          let s := writeOut s (compKey s c) pa (faultImage f)
          let s := writeHome s (compKey s c) ctl (Bits.leBytes 4 (prod + 1))
          let x := comp s c
          let s := setComp s c { x with faults := x.faults.erase f }
          let kept := r.hostRing.filter fun x => (prod + 2 ^ 32 - x.1) % 2 ^ 32 < r.fqSize
          { s with regions := Tab.put s.regions rk { r with
              retryAt := none, hostRing := if paClass s pa = .host then Tab.put kept prod (f.fid, f.count) else kept } }
        | (s, why) => faultqFail s c rk va why
    | (s, why) => faultqFail s c rk r.fqCtl why
  | _, _ => s

/-- Write a region's staged fault records while there is room, unless a failed write is still to be tried again. -/
def faultFlush (s : State) (c rk : Nat) : State :=
  (List.range 64).foldl (fun s _ =>
    match Tab.get? s.regions rk with
    | some r => if r.retryAt.any fun t => s.time < t then s else faultStep s c rk
    | none => s) s

/-- A region whose ring was full has room for its next staged record: the supervisor has increased CONS (13 R259). -/
def faultRoom (s : State) (c rk : Nat) : Bool :=
  match Tab.get? s.regions rk with
  | some r =>
    r.retryAt.isNone && ((comp s c).faults.any fun f => f.region = rk) &&
      match faultPage s c .rw r.fqCtl with
      | (s, .ok ctl _) =>
        r.fqSize ≠ 0 && (homeLe s (compKey s c) ctl 4 + 2 ^ 32 - homeLe s (compKey s c) (ctl + 4) 4) % 2 ^ 32 < r.fqSize
      | _ => false
  | none => false

/-- A fault record enters the staging store, which has room, and is written as soon as it can be (13 R259). -/
def pushFault (s : State) (c : Nat) (f : FaultRecord) : State :=
  let x := comp s c
  faultFlush (setComp s c { x with faults := x.faults ++ [f] }) c f.region

/-- The place of an unconsumed record of an identifier in a region's ring: the region, PROD when it was written, and its address
(13 R258). -/
def ringRecord (s : State) (c fid rk : Nat) : Option (Nat × Nat × Nat) :=
  match Tab.get? s.regions rk with
  | none => none
  | some r =>
    match faultPage s c .rd r.fqCtl with
    | (_, .ok ctl _) =>
      let prod := homeLe s (compKey s c) ctl 4
      let cons := homeLe s (compKey s c) (ctl + 4) 4
      let n := (prod + 2 ^ 32 - cons) % 2 ^ 32
      ((List.range (if n ≤ r.fqSize then n else 0)).findSome? fun j =>
        let at' := (cons + j) % 2 ^ 32
        match faultPage s c .wr (r.fqBase + 32 * (at' % r.fqSize)) with
        | (_, .ok pa _) =>
          let held := if paClass s pa = .host then (Tab.get? r.hostRing at').any fun x => x.1 = fid else homeLe s (compKey s c) pa 4 = fid
          if held then some (rk, at', pa) else none
        | _ => none)
    | _ => none

/-- One more count on a record that stands in a ring. -/
def countRecord (s : State) (c rk at' pa : Nat) : State :=
  let more (n : Nat) : Nat := min 65535 (n + 1)
  if paClass s pa = .host then
    match Tab.get? s.regions rk with
    | some r =>
      let (fid, n) := Tab.getD r.hostRing at' (0, 0)
      writeOut { s with regions := Tab.put s.regions rk { r with hostRing := Tab.put r.hostRing at' (fid, more n) } }
        (compKey s c) (pa + 6) (Bits.leBytes 2 (more n))
    | none => s
  else writeHome s (compKey s c) (pa + 6) (Bits.leBytes 2 (more (homeLe s (compKey s c) (pa + 6) 2)))

/-- A record of an identifier, or one more count on its unconsumed record (13 R258). -/
def raiseFault (s : State) (c : Nat) (f : FaultRecord) : State :=
  let x := comp s c
  if x.faults.any fun g => g.fid = f.fid then
    setComp s c { x with faults := update x.faults (fun g => g.fid = f.fid) fun g => { g with count := min 65535 (g.count + 1) } }
  else
    match (f.region :: (s.regions.filter fun r => r.2.comp = c).map (·.1)).findSome? (ringRecord s c f.fid) with
    | some (rk, at', pa) => countRecord s c rk at' pa
    | none => pushFault s c f

/-- A walk ended as a miss: the identifier it takes or shares, with its record (13 R258). `old` is the identifier the request
already has. Without room in the staging store there is none (13 R259). -/
def missFault (s : State) (c old : Nat) (f : FaultRecord) (page : Nat) : State × Option Nat :=
  let x := comp s c
  if 64 ≤ x.faults.length then (s, none)
  else
    match x.fids.find? fun i => if old = 0 then i.kind = f.kind && i.page = page && !i.replayed else i.fid = old with
    | some i =>
      if i.replayed then
        let s := setComp s c { x with
          fids := update x.fids (fun j => j.fid = i.fid) fun _ => ⟨i.fid, f.kind, page, false⟩ }
        (raiseFault s c { f with fid := i.fid, flags := Nat.lor f.flags 8 }, some i.fid)
      else (raiseFault s c { f with fid := i.fid }, some i.fid)
    | none =>
      let n := if x.fidCtr + 1 < 2 ^ 32 then x.fidCtr + 1 else 1
      let s := setComp s c { x with fidCtr := n, fids := x.fids ++ [⟨n, f.kind, page, false⟩] }
      (raiseFault s c { f with fid := n }, some n)

/-- The identifier of a miss of a copy engine (13 R258): a new one or the page's. -/
def takeFid (s : State) (c stage page : Nat) : State × Nat :=
  let x := comp s c
  match x.fids.find? fun i => i.kind = stage && i.page = page && !i.replayed with
  | some i => (s, i.fid)
  | none =>
    let n := if x.fidCtr + 1 < 2 ^ 32 then x.fidCtr + 1 else 1
    (setComp s c { x with fidCtr := n, fids := x.fids ++ [⟨n, stage, page, false⟩] }, n)

/-- WHO of a fault record (13 R258). -/
def faultWho (s : State) (key : Nat) (t : Team) : Nat :=
  t.serial + 2 ^ 20 * t.idx + 2 ^ 24 * logicalCore s t.comp (holdingCore s key t)

/-- REPLAY retires an identifier; a retired one is kept while a request or a fetch may raise it again (13 R258). -/
def retireFid (s : State) (c fid : Nat) : State :=
  let x := comp s c
  let used (i : FaultId) : Bool :=
    (s.reqs.any fun r => r.team / 2 ^ 24 = c && r.fid = i.fid) ||
    s.teams.any fun t => t.2.comp = c && ((t.2.refetch.any fun f => f.2 = i.fid) || t.2.front.any fun e => e.wait = some (.fetch i.fid))
  setComp s c { x with
    fids := (update x.fids (fun j => j.fid = fid) fun j => { j with replayed := true }).filter fun j => !j.replayed || used j }

end Sys2Proof.Machine
end

