-- ==== Sys2Proof/Machine/Regions.lean ====
section
/-! DEFINITION. Regions (15 R262 to R264): validation, budgets, the Postmaster's fields, and a region's end. -/

namespace Sys2Proof.Machine

/-- The key of a region: its compartment and the address of its control block. -/
def regionKey (c addr : Nat) : Nat := c * 2 ^ 57 + addr

def region? (s : State) (rk : Nat) : Option Region := Tab.get? s.regions rk

/-- Change a region, if there is one. -/
def onRegion (s : State) (rk : Nat) (f : Region → Region) : State :=
  match region? s rk with
  | some r => { s with regions := Tab.put s.regions rk (f r) }
  | none => s

/-- The Postmaster writes a field of a region's control block (15 R262). -/
def writeRcb (s : State) (rk off size v : Nat) : State :=
  match region? s rk with
  | some r => writeHome s (compKey s r.comp) (r.pa + off) (Bits.leBytes size v)
  | none => s

/-- A region's STATE (15 R262). -/
def setRegionState (s : State) (rk st : Nat) : State := writeRcb (onRegion s rk fun r => { r with state := st }) rk 0x64 4 st

/-- The compartment halts as HALT does: every team stops in place, and the host receives a record (07 R136). -/
def haltWith (s : State) (c : Nat) (r : ErrRecord) : State :=
  let x := comp s c
  let s := setComp s c { x with desc := { x.desc with state := 4 }, messages := [] }
  let s := (s.regions.filter fun r => r.2.comp = c).foldl (fun s r => setRegionState s r.1 4) s
  pushErr s c r

/-- The record of a HALT, or of a trap that no handler takes, has the code HALT (21 R329). -/
def haltComp (s : State) (c info : Nat) : State := haltWith s c { code := 4, info := info }

/-- Data of a compartment are lost: it halts with a record of the code DATA_UNCORR (12 R244, log 86). -/
def haltLost (s : State) (c pa : Nat) : State := haltWith s c { code := 5, addr := pa }

/-- A team counts as live from its first placement to its end (15 R263). -/
def teamLive (t : Team) : Bool := t.saved ≠ some .fresh && t.live ≠ 0

/-- Live teams of a region alone. -/
def liveOf (s : State) (rk : Nat) : Nat := (s.teams.filter fun t => t.2.region = rk && teamLive t.2).length

/-- The Postmaster keeps LIVE (15 R262). -/
def writeLive (s : State) (rk : Nat) : State := writeRcb s rk 0x68 4 (liveOf s rk)

/-- A region and its ancestors. -/
def regionChain (s : State) : Nat → Nat → List Nat
  | 0, _ => []
  | n + 1, rk =>
    match region? s rk with
    | some r => if r.parent = 0 then [rk] else rk :: regionChain s n (regionKey r.comp r.parent)
    | none => []

/-- A region with its ancestors, however deep. -/
def ancestry (s : State) (rk : Nat) : List Nat := regionChain s (s.regions.length + 1) rk

/-- The cores a compartment holds. -/
def compCores (s : State) (c : Nat) : List Nat :=
  (List.range 64).filter fun k => (comp s c).desc.clusters.getLsbD (k / 4)

/-- A running region on a cluster asks for fusion (12 R229). -/
def wantsFusion (s : State) (c cl : Nat) : Bool :=
  s.regions.any fun r =>
    r.2.comp = c && r.2.flags.testBit 0 && (r.2.state = 1 || r.2.state = 2) &&
    (List.range 4).any fun i => r.2.cores.testBit (logicalCore s c (4 * cl + i))

/-- The fusion of a compartment's clusters follows its regions: a change writes back and invalidates the L1s (12 R229). -/
def refuse (s : State) (c : Nat) : State :=
  ((List.range 16).filter fun cl => (comp s c).desc.clusters.getLsbD cl).foldl (fun s cl =>
    let w := wantsFusion s c cl
    if w = (cluster s cl).fused then s
    else
      let s := (List.range 4).foldl (fun s i => flushL1 s (4 * cl + i)) s
      setCluster s cl { cluster s cl with fused := w }) s

/-- Little-endian field of an image. -/
def fieldAt (b : List Byte) (off n : Nat) : Nat := Bits.ofLe ((b.drop off).take n)

/-- The region that a control block describes under a parent's effective fields (15 R262, R263). -/
def parseRcb (b : List Byte) (c addr pa : Nat) (p : Region) : Region :=
  let ovr := fieldAt b 4 2
  let g (k : Nat) (own inherited : Nat) : Nat := if ovr.testBit k then own else inherited
  { addr := addr, pa := pa, comp := c, parent := fieldAt b 8 8, state := 1,
    prio := g 3 (fieldAt b 6 1) p.prio, flags := g 5 (fieldAt b 7 1) p.flags,
    handler := g 0 (fieldAt b 0x10 8) p.handler, frames := g 0 (fieldAt b 0x18 8) p.frames,
    frameCnt := g 0 (fieldAt b 0x20 4) p.frameCnt, drain := g 2 (fieldAt b 0x24 4) p.drain,
    fqBase := g 1 (fieldAt b 0x28 8) p.fqBase, fqCtl := g 1 (fieldAt b 0x30 8) p.fqCtl,
    fqSize := g 1 (fieldAt b 0x38 4) p.fqSize, teams := g 4 (fieldAt b 0x3C 4) p.teams,
    cores := g 4 (fieldAt b 0x40 8) p.cores, scr := g 4 (fieldAt b 0x48 1) p.scr,
    tiles := g 4 (fieldAt b 0x49 1) p.tiles, areas := g 4 (fieldAt b 0x4A 2) p.areas,
    bvrows := g 6 (fieldAt b 0x4C 1) p.bvrows, bscr := g 6 (fieldAt b 0x4D 1) p.bscr,
    btimer := g 6 (fieldAt b 0x4E 2) p.btimer, bcarryv := g 6 (fieldAt b 0x50 4) p.bcarryv,
    bcarrys := g 6 (fieldAt b 0x54 4) p.bcarrys, defer := g 2 (fieldAt b 0x60 4) p.defer,
    args := if ovr.testBit 7 then (List.range 16).map fun i => BitVec.ofNat 32 (fieldAt b (0x80 + 4 * i) 4) else p.args }

/-- The reserved fields of a control block are zero (15 R262). -/
def rcbReservedZero (b : List Byte) : Bool :=
  fieldAt b 4 2 / 256 = 0 && fieldAt b 7 1 / 16 = 0 && fieldAt b 0x6C 20 = 0

/-- The handler's first page has a leaf granting EX in both stages (15 R282). -/
def pinned (s : State) (r : Region) : Bool :=
  !r.flags.testBit 3 ||
  match walk12 s none r.comp r.handler false with
  | .leaf x => (combine r.comp r.handler x).ex
  | _ => false

/-- A child's fields are within its parent's (15 R263). -/
def withinParent (r p : Region) : Bool :=
  r.prio ≤ p.prio && r.teams ≤ p.teams && Nat.land r.cores p.cores = r.cores && r.scr ≤ p.scr && r.tiles ≤ p.tiles &&
  r.areas ≤ p.areas

/-- A region becomes active (15 R263): STATE 1, LIVE 0, RESV (R262), and the fusion it asks for. -/
def activate (s : State) (r : Region) : State :=
  let rk := regionKey r.comp r.addr
  let s := { s with regions := Tab.put s.regions rk r }
  refuse (writeLive (setRegionState (writeRcb s rk 0x58 8 (comp s r.comp).desc.resv) rk 1) rk) r.comp

/-- Validation of the child region whose control block is at an address (15 R263): active already, or activated now, or
refused. -/
def validate (s : State) (c addr : Nat) : State × Bool :=
  match region? s (regionKey c addr) with
  | some _ => (s, true)
  | none =>
    match devicePa s c .rd addr with
    | (s, none) => (s, false)
    | (s, some pa) =>
      let b := homeBytes s (compKey s c) pa 256
      match (region? s (regionKey c (fieldAt b 8 8))).filter fun _ => fieldAt b 8 8 < 2 ^ 57 with
      | none => (s, false)
      | some p =>
        let r := parseRcb b c addr pa p
        if fieldAt b 0 4 = 0x52424331 && rcbReservedZero b && fieldAt b 8 8 ≠ 0 && withinParent r p && pinned s r then
          (activate s r, true)
        else (s, false)

/-- The completion word of a launch (21 R328). -/
def writeDone (s : State) (c ipa v : Nat) : State :=
  if ipa = 0 then s
  else
    let s := markIpa s c ipa true
    match ipaToPa s c ipa true with
    | some pa => writeOut s (compKey s c) pa (Bits.leBytes 8 v)
    | none => s

/-- A region has a team, a bin, a live ticket (17 R294) or an active descendant. -/
def regionBusy (s : State) (rk : Nat) (r : Region) : Bool :=
  r.tickets ≠ [] ||
  (s.teams.any fun t => t.2.region = rk) || (s.cores.any fun k => k.2.bins.any fun b => b.region = rk) ||
  (s.spawning.any fun x => x.region = rk) || (s.regions.any fun q => q.2.comp = r.comp && q.2.parent = r.addr && q.1 ≠ rk)

/-- Every stable word leaves the L1s of a compartment's cores (10 R210). -/
def dropStable (s : State) (c : Nat) : State :=
  (compCores s c).foldl (fun s k =>
    let x := core s k
    let s := writeBackIf s k fun w => ((Tab.get? x.l1 w).any (·.stable))
    setCore s k { core s k with l1 := (core s k).l1.filter fun w => !w.2.stable }) s

/-- A region ends once it is idle, and then its parent may (15 R263). -/
def endRegion (s : State) : Nat → Nat → State
  | 0, _ => s
  | n + 1, rk =>
    match region? s rk with
    | none => s
    | some r =>
      if regionBusy s rk r then s
      else
        let s := setRegionState s rk 0
        let s := { s with regions := Tab.del s.regions rk }
        let s := refuse s r.comp
        if r.parent = 0 then writeDone (dropStable s r.comp) r.comp r.done 2
        else endRegion s n (regionKey r.comp r.parent)

/-- A compartment is being reset: what it holds stands until step 4 (22 R346, 23 R350). -/
def inReset (s : State) (c : Nat) : Bool := (comp s c).desc.state = 5

/-- What a region's idleness ends, unless its compartment is being reset. -/
def endIdle (s : State) (rk : Nat) : State :=
  if (region? s rk).any fun r => inReset s r.comp then s else endRegion s (s.regions.length + 1) rk

end Sys2Proof.Machine
end

