-- ==== Sys2Proof/Machine/Spawn.lean ====
section
/-! DEFINITION. New crews (15 R266), spawn bins (07 R129), and the end of teams and crews (07 R121). -/

namespace Sys2Proof.Machine

/-- A serial that no crew of the compartment has: the counter, moved past serials in use. -/
def freeSerial (s : State) (c : Nat) : Nat :=
  let n := (comp s c).crewSerial
  (((List.range (s.crews.length + 1)).map fun i => (n + i) % 2 ^ 20).find? fun k => (crew? s (crewKey c k)).isNone).getD n

/-- Scalars from an argument area: words 0 to 15, then zero (15 R266). -/
def argScalars (args : List Word) : Tab Word := (List.range 16).map fun i => (i, args.getD i 0)

/-- The address that a field of an RCB gives for a handler: a lane PC (02 R19). -/
def handlerPc (a : Nat) : Nat := a % 2 ^ 57 / 4 * 4

/-- A team as a launch leaves it before its placement (15 R266): reserved bits read 0 (00 R5). -/
def freshTeam (c serial idx rk : Nat) (r : Region) (rows : Nat) (carryv carrys live : Word) (front : List Entry) : Team :=
  { comp := c, serial := serial, idx := idx, saved := some .fresh, live := live, front := rebuild front,
    s := argScalars r.args, rows := rows, carryv := carryv &&& 0x7FFF, carrys := carrys &&& 0xFFFFFFF, prio := BitVec.ofNat 32 r.prio,
    trapLo := BitVec.ofNat 32 (handlerPc r.handler), trapHi := BitVec.ofNat 32 (handlerPc r.handler / 2 ^ 32), region := rk }

/-- A crew of teams waits for its placement (15 R265). -/
def addCrew (s : State) (c rk scr tiles : Nat) (teams : Nat → List Team) : State :=
  let serial := freeSerial s c
  let x := comp s c
  let s := setComp s c { x with crewSerial := (serial + 1) % 2 ^ 20 }
  let ts := teams serial
  let ck := crewKey c serial
  let s := setCrew s ck
    { comp := c, serial := serial, teams := ts.length, region := rk, scr := scr, tiles := List.replicate tiles {} }
  ts.foldl (fun s t => setTeam s (16 * ck + t.idx) t) s

/-- The team that a bin launches: lane j is its j-th thread (07 R129). -/
def binTeam (c serial rk : Nat) (r : Region) (b : Bin) : Team :=
  let n := b.threads.length
  let live := maskOf fun i => i < n
  let front := (laneList.take n).map fun i =>
    { prio := ((b.threads.map (·.prio)).getD i 0), pc := b.entry, mask := maskOf fun j => j = i : Entry }
  let t := freshTeam c serial 0 rk r r.bvrows (BitVec.ofNat 32 r.bcarryv) (BitVec.ofNat 32 r.bcarrys) live front
  { t with v := [(0, laneList.map fun i => ⟨(b.threads.map (·.arg)).getD i 0, 63⟩)] }

/-- A bin launches: a crew of one team, with the tiles of its region (07 R129, 20 R311). -/
def launchBin (s : State) (b : Bin) : State :=
  match region? s b.region with
  | some r => addCrew s b.comp b.region r.bscr r.tiles fun serial => [binTeam b.comp serial b.region r b]
  | none => s

/-- Bins of a core that a test picks are launched, in the order they were opened. -/
def launchBins (s : State) (k : Nat) (p : Bin → Bool) : State :=
  let bs := (core s k).bins
  let s := setCore s k { core s k with bins := bs.filter fun b => !p b }
  (bs.filter p).foldl launchBin s

/-- A compartment's bins on a core launch: it is not being stopped, and the core is not being removed (15 R272, R283). -/
def binsLaunch (s : State) (c k : Nat) : Bool := (comp s c).stop.isNone && !departing s c k

/-- The bins of a core that BINFL picks launch now, or as soon as the compartment's bins launch again (07 R129). -/
def flushBins (s : State) (c k : Nat) (p : Bin → Bool) : State :=
  if binsLaunch s c k then launchBins s k p
  else setCore s k { core s k with bins := update (core s k).bins p fun b => { b with first := 0 } }

/-- One thread enters its bin: a full bin launches at once; with all 64 bins in use the oldest one does (07 R129). -/
def binAdd (s : State) (x : Spawning) : State :=
  let same (b : Bin) : Bool := b.comp = x.comp && b.entry = x.entry && b.region = x.region && b.threads.length < 32
  let bins := (core s x.core).bins
  let s :=
    match bins.find? same with
    | some _ =>
      setCore s x.core { core s x.core with
        bins := update bins same fun b => { b with threads := b.threads ++ [⟨x.arg, x.prio⟩] } }
    | none =>
      -- no bin of a compartment that is being stopped launches (15 R272): the oldest of the others does (log 22)
      let s := match bins.find? fun b => binsLaunch s b.comp x.core with
        | some b => if 64 ≤ bins.length then launchBin (setCore s x.core { core s x.core with bins := bins.erase b }) b else s
        | none => s
      let y := core s x.core
      setCore s x.core { y with bins := y.bins ++ [⟨x.comp, x.entry, x.region, clk s x.core, [⟨x.arg, x.prio⟩]⟩] }
  if !binsLaunch s x.comp x.core then s
  else launchBins s x.core fun b => b.comp = x.comp && 32 ≤ b.threads.length

/-- The first thread that waits for its bin enters it, and the write that made it is a release at .dev of its core (08 R163); a
region that has ended is validated again (07 R129). -/
def enterBin (s : State) : State :=
  match s.spawning with
  | [] => s
  | x :: r =>
    let s := { s with spawning := r }
    let s := match x.rel with
      | some k => writeBackAll s k
      | none => s
    if (region? s x.region).isSome then binAdd s x
    else
      let (s, ok) := validate s x.comp (x.region % 2 ^ 57)
      if ok then binAdd s x else s

/-- The mask of a crew's teams that have not ended. -/
def crewLive (s : State) (ck : Nat) : List Nat := (crewTeams s ck).filter fun k => (team? s k).any fun t => t.live ≠ 0

/-- A crew barrier's phase completes once every live team has arrived: its waiters wake, an acquire at crew scope (07 R125). -/
def crewBarCheck (s : State) (ck b : Nat) : State :=
  match crew? s ck with
  | none => s
  | some c =>
    let x := Tab.getD c.bars b {}
    if x.arrived ≠ 0 && (crewLive s ck).all fun k => x.arrived.testBit (k % 16) then
      let s := setCrew s ck { c with bars := Tab.put c.bars b ⟨(x.phase + 1) % 2 ^ 16, 0⟩ }
      let s := wakeAll s (fun k _ => crewOf k = ck) fun w => if w = .crewBar b x.phase then some none else none
      match c.core with
      | some k => setCore s k { core s k with arrivals := ((core s k).arrivals ++ [s.time]).drop ((core s k).arrivals.length - 63) }
      | none => s
    else s

/-- A copy command reads or writes its crew's scratchpad. -/
def usesScratch (x : Copy) : Bool := x.flags.testBit 0 || x.flags.testBit 1

/-- Engine operations that target a crew's scratchpad or tiles (07 R121). -/
def crewEngines (s : State) (ck : Nat) : Bool :=
  (s.mats.any fun m => crewOf m.team = ck) || (s.copies.any fun c => crewOf c.team = ck && c.trunk.isNone && usesScratch c)

/-- The cause of an engine post that waits in the pannier of its team (13 R250, R254). -/
def MatStage.cause : MatStage → Option Nat
  | .pannier c _ => some c
  | _ => none

def CopyStage.cause : CopyStage → Option Nat
  | .pannier c _ => some c
  | _ => none

/-- An engine post of a team waits in its pannier. -/
def postsBounced (s : State) (key : Nat) : Bool :=
  (s.mats.any fun m => m.team = key && m.stage.cause.isSome) ||
  s.copies.any fun x => x.team = key && x.trunk.isNone && x.stage.cause.isSome

/-- A request has left the device, and stands in no queue and no pannier. -/
def Req.isAway (r : Req) : Bool :=
  match r.stage with
  | .away _ => true
  | _ => false

/-- A monitored word at a peer or the host is being asked for: the wait of a WAITC, which stands in no queue (log 33). -/
def Req.polls (r : Req) : Bool := r.cls = 3 && r.isAway

/-- An operation does nothing but ask a peer or the host for a monitored word. -/
def MemOp.polls (s : State) (o : MemOp) : Bool := o.kind = .arm && o.todo = [] && s.reqs.all fun r => r.op ≠ o.id || r.polls

/-- The team slot's pannier has drained: no request, operation or bounced post of the team is left (07 R121, 13 R255). -/
def teamDrained (s : State) (key : Nat) : Bool :=
  !(s.reqs.any fun r => r.team = key && !r.polls) && !(s.ops.any fun o => o.team = key && !o.polls s) && !postsBounced s key

/-- A team has a proposal that has not resolved (16 R288). -/
def proposing (s : State) (key : Nat) : Bool :=
  s.cores.any fun k => k.2.outgoing.any fun p => p.2.team = key && p.2.outcome.isNone

/-- An exited owner's proposals are freed, once they have resolved (16 R287). -/
def freeProposals (s : State) (key : Nat) : State :=
  { s with cores := s.cores.map fun k =>
      (k.1, { k.2 with outgoing := (k.2.outgoing.filter fun p => !(p.2.team = key && p.2.outcome.isSome)).map fun p =>
        if p.2.team = key then (p.1, { p.2 with owned := false }) else p }) }

/-- Ended teams whose pannier has drained leave their slots; a crew with none left ends, and its stores' streams go on (07
R121). -/
def reapTeam (s : State) (key : Nat) : State :=
  match team? s key with
  | some t =>
    if t.live = 0 && teamDrained s key && !inReset s t.comp then { s with teams := Tab.del s.teams key } else s
  | none => s

/-- A crew ends with its last team: its scratchpad and its tiles are released once no engine operation targets them, and its record goes
once the panniers of its teams have drained (07 R121, 15 R263). -/
def reapCrew (s : State) (ck : Nat) : State :=
  match crew? s ck with
  | some c =>
    if crewLive s ck ≠ [] || crewEngines s ck || inReset s c.comp then s
    else if crewTeams s ck = [] then endIdle { s with crews := Tab.del s.crews ck } c.region
    else if c.scr = 0 && c.tiles = [] then s
    else setCrew s ck { c with scr := 0, scratch := [], failing := [], tiles := [] }
  | none => s

/-- Everything that has ended leaves. -/
def reap (s : State) : State :=
  let s := ((s.teams.filter fun t => t.2.live = 0).map (·.1)).foldl reapTeam s
  (Tab.keys s.crews).foldl reapCrew s

/-- A team ends: it counts as arrived at every crew barrier of its crew (07 R121). -/
def endTeam (s : State) (key : Nat) : State :=
  match team? s key with
  | none => s
  | some t =>
    let s := freeProposals (setTeam s key { t with front := [], held := [], escal := [], owed := [], late := [] }) key
    let s := if teamLive { t with live := 1 } && t.saved ≠ some .rebuilt then
        onRegion s t.region fun r => { r with framesUsed := r.framesUsed.erase t.frameIdx } else s
    let s := t.escal.foldl (fun s x =>
      onRegion s (x.1 / 2 ^ 16) fun r => { r with framesUsed := r.framesUsed.erase (x.1 % 2 ^ 16) }) s
    let s := writeLive s t.region
    let s := (List.range 16).foldl (fun s b => crewBarCheck s (crewOf key) b) s
    reap s

end Sys2Proof.Machine
end

