-- ==== Sys2Proof/Machine/Ops.lean ====
section
/-! DEFINITION. The issue of an instruction: its hint run (03 R47 to R50), the checks before it is performed (R54), taking a
trap (15 R277 to R280, R282) and returning from one (R281), and what follows its performance (07 R115, R116, 15 R267). -/

namespace Sys2Proof.Machine

/-- What the bound hints of a run say (03 R47). -/
structure Hints where
  himm : Option Nat := none
  hgrd : Option Word := none
  hprio : Option Nat := none
  hrnd : Option Nat := none
  hscp : Option Nat := none
  hrlx : Bool := false
  hyld : Bool := false
  hsig : Option Nat := none
  deriving DecidableEq, Repr

/-- The kind of a hint word: 16 for HIMM (03 R47). -/
def hintKind (w : Word) : Nat := if w.getLsbD 25 then 16 else Bits.fld w 21 4

/-- A hint word (03 R36). -/
def isHint (w : Word) : Bool := Bits.fld w 26 6 = 0x3F

/-- A hint word of a reserved kind, with reserved bits set, or naming no predicate: ILLEGAL at the hint (03 R40, R47). -/
def hintIllegal (w : Word) : Bool :=
  let p := Bits.fld w 0 21
  match hintKind w with
  | 16 => false
  | 0 => p % 2 ^ 13 ≠ 0 || (11 < p / 2 ^ 17 && p / 2 ^ 17 < 15)
  | 1 => p % 2 ^ 13 ≠ 0
  | 2 | 3 => p % 2 ^ 18 ≠ 0
  | 4 | 5 => p ≠ 0
  | 6 => p % 2 ^ 19 ≠ 0
  | 7 => p % 2 ^ 15 ≠ 0
  | 8 => p % 2 ^ 9 ≠ 0
  | _ => true

/-- The majors HGRD applies to (03 R47). -/
def guardable (m : Nat) : Bool :=
  (1 ≤ m && m ≤ 0x0A) || m = 0x0D || (0x11 ≤ m && m ≤ 0x19) || (0x24 ≤ m && m ≤ 0x37) || m = 0x3C || m = 0x3D

/-- A field that HREUSE marks is read as a vector source (03 R47). -/
def reusable (h : Shape) (w : Word) : Bool :=
  let has (k : Nat) : Bool := h.vs.any fun o => o.slot = k
  (!w.getLsbD 20 || has 0) && (!w.getLsbD 19 || has 1)

/-- The formats M and AT by their majors (03 R51). -/
def memMajor (m : Nat) : Bool := 0x24 ≤ m && m ≤ 0x37

/-- A hint applies to its bound instruction and its field holds no value that raises HINT (03 R47, R48, R50). -/
def hintFits (h : Shape) (w : Word) : Bool :=
  let m := h.maj
  match hintKind w with
  | 16 => m = 5 || m = 0x0C || memMajor m
  | 0 => guardable m
  | 1 => true
  | 2 => 0x12 ≤ m && m ≤ 0x18 && Bits.fld w 18 3 ≤ 4
  | 3 => ((0x34 ≤ m && m ≤ 0x37) || h.eng) && Bits.fld w 18 3 ≤ 6
  | 4 => memMajor m
  | 5 => !h.c
  | 6 => ((1 ≤ m && m ≤ 0x0A) || (0x12 ≤ m && m ≤ 0x19)) && reusable h w
  | 7 => ((0x12 ≤ m && m ≤ 0x16) || m = 0x18) && Bits.fld w 15 6 ≤ 53
  | 8 => memMajor m || h.eng
  | _ => false

/-- The first hint of a run that fails, in word order, and whether it is ILLEGAL (03 R48, 01 R8): `fits` says what the run's
bound word takes. -/
def runFault (fits : Word → Bool) : List (Nat × Word) → Option (Nat × Bool)
  | [] => none
  | (pc, w) :: r =>
    if hintIllegal w then some (pc, true)
    else if (r.any fun x => hintKind x.2 = hintKind w) || !fits w then some (pc, false)
    else runFault fits r

/-- What the hints of a run say. -/
def hintsOf (run : List (Nat × Word)) : Hints :=
  run.foldl (fun h x =>
    let w := x.2
    match hintKind w with
    | 16 => { h with himm := some (Bits.fld w 0 25) }
    | 0 => { h with hgrd := some w }
    | 1 => { h with hprio := some (Bits.fld w 13 8) }
    | 2 => { h with hrnd := some (Bits.fld w 18 3) }
    | 3 => { h with hscp := some (Bits.fld w 18 3) }
    | 4 => { h with hrlx := true }
    | 5 => { h with hyld := true }
    | 7 => { h with hsig := some (Bits.fld w 15 6) }
    | _ => h) {}

/-- An instruction as it issues: the team and its place, the entry's lanes, the hints bound to it, the lanes active for it,
and the operand values it captured. -/
structure Ctx where
  key : Nat
  team : Team
  place : Place
  cur : Cur
  shape : Shape
  hints : Hints
  entry : Entry
  act : Word
  gmask : Word
  gleft : Nat
  cap : Captured
  /-- CARRYV and CARRYS as they stood at the issue (02 R27). -/
  carry : Word × Word
  deriving DecidableEq, Repr

/-- A lane of a vector operand: a register, a latch or vz (03 R38). -/
def operandLane (s : State) (t : Team) (p : Place) (code i : Nat) : Cell :=
  if code = 124 then {}
  else if 120 ≤ code then ((latch (bench s p.benchNo) (code - 120)).lanes).getD i {}
  else Team.reg t code i

/-- The values an instruction captures at issue (15 R280). -/
def capture (s : State) (t : Team) (p : Place) (h : Shape) : Captured :=
  { v := h.vs.flatMap fun o => (List.range o.n).map fun j =>
      (4 * o.slot + j, laneList.map fun i => operandLane s t p (if o.code.toNat = 124 then 124 else o.code.toNat + j) i),
    s := h.ss.flatMap fun o => (List.range o.2).map fun j => Team.scalar t (o.1.toNat + j) }

/-- The guard of an instruction (03 R49): the span's mask and the instructions left in it, this one included. DESIGN CHOICE (log 76):
a team has one span, so what another of its frontier entries issues inside it counts towards n and is masked too. -/
def guardOf (t : Team) (hints : Hints) (mask : Word) : Word × Nat :=
  match hints.hgrd with
  | some w =>
    if t.guardLeft = 0 then
      let p := Team.pred t (Bits.fld w 17 4)
      (mask &&& (if w.getLsbD 16 then ~~~p else p), Bits.fld w 13 3 + 1)
    else (t.guardMask, t.guardLeft)
  | none => (t.guardMask, t.guardLeft)

/-- The priority that stands for each lane's own: a replayed instruction's lanes may be in several entries. -/
def ownPrio : Nat := 256

/-- What a waiting parking instruction read when it first issued (07 R124). -/
def parked? (t : Team) (u : Cur) : Option Parking :=
  t.parking.find? fun p => p.pc = u.start && p.mask &&& u.mask = p.mask

/-- The instruction that issues now, if a placed team issues one. -/
def context (h : Shape) (s : State) : Option Ctx :=
  match s.cur with
  | none => none
  | some u =>
    match team? s u.team with
    | none => none
    | some t =>
      match t.place with
      | none => none
      | some p =>
        let hints := hintsOf u.run
        let (gm, gl) := if u.replay.all (·.run) then guardOf t hints u.mask else (t.guardMask, t.guardLeft)
        let e := (t.front.find? fun e => u.replay.isNone && e.pc = u.start && e.mask = u.mask && e.wait.isNone).getD
          { prio := if u.replay.isSome then ownPrio else 0, pc := u.start, mask := u.mask }
        let kept := if u.replay.isSome then none else parked? t u
        some
          { key := u.team, team := t, place := p, cur := u, shape := h, hints := hints, entry := e,
            act := match u.replay with
              | some r => if r.run && gl ≠ 0 then u.mask &&& gm else u.mask
              | none => if gl = 0 then u.mask else u.mask &&& gm,
            gmask := gm, gleft := gl,
            cap := match u.replay with
              | some r => r.cap
              | none => (kept.map (·.cap)).getD (capture s t p h),
            carry := (kept.map fun p => (p.carryv, p.carrys)).getD (t.carryv, t.carrys) }

/-- The block priority that the issuing lanes take (07 R116). -/
def Ctx.prio (c : Ctx) : Nat := c.hints.hprio.getD c.entry.prio

/-- The issuing lanes at an address. -/
def Ctx.goTo (c : Ctx) (pc : Nat) (mask : Word) (wait : Option Wait := none) : Entry :=
  { prio := c.prio, pc := pc, mask := mask, age := if 4096 ≤ c.entry.age then 0 else c.entry.age, wait := wait }

/-- Entries that the issuing lanes move to, as the frontier takes them: an HPRIO is guarded with its instruction (01 R8), and the
lanes of a replayed instruction keep their own priorities (07 R116, R117). -/
def Ctx.spread (c : Ctx) (front : List Entry) (es : List Entry) : List Entry :=
  if c.cur.replay.isNone && (c.hints.hprio.isNone || c.gleft = 0) then es
  else
    es.flatMap fun e =>
      let parts : List Entry :=
        if c.hints.hprio.isSome && c.gleft ≠ 0 then
          [{ e with mask := e.mask &&& c.act }, { e with mask := e.mask &&& ~~~c.act, prio := c.entry.prio }]
        else [e]
      parts.flatMap fun e =>
        if c.cur.replay.isSome && e.prio = ownPrio then front.map fun x => { e with prio := x.prio, age := x.age, mask := e.mask &&& x.mask } else [e]

/-- An entry that was ready when the instruction issued: one that the instruction wakes does not grow older (07 R115). -/
def Ctx.wasReady (c : Ctx) (x : Entry) : Bool :=
  entryReady x && c.team.front.any fun y => entryReady y && y.mask &&& x.mask ≠ 0

/-- The next word's address. -/
def Ctx.nextPc (c : Ctx) : Nat := (c.cur.pc + 4) % 2 ^ 57

/-- The issuing lanes wait at this word. -/
def Ctx.waitHere (c : Ctx) (w : Wait) : List Entry := [c.goTo c.cur.pc c.cur.mask (some w)]

/-- The instruction as a replay entry (15 R280): with the lanes given. DESIGN CHOICE (log 89): of a run of more than ten hint words,
which has kinds that repeat and fails, the first ten are kept. -/
def Ctx.entryOf (c : Ctx) (mask : Word) (head : Bool) : ReplayEntry :=
  { word := c.cur.word, head := head, pc := c.cur.pc, hints := (c.cur.run.map (·.2)).take 10, mask := mask, cap := c.cap }

/-- A vector operand's lane: slot 0 A, 1 B, 2 D, and its register. -/
def Ctx.v (c : Ctx) (slot j i : Nat) : Cell := (Tab.getD c.cap.v (4 * slot + j) []).getD i {}

/-- A captured scalar, in field order. -/
def Ctx.s (c : Ctx) (k : Nat) : Word := c.cap.s.getD k 0

/-- A captured scalar pair, low word first. -/
def Ctx.pair (c : Ctx) (k : Nat) : Nat := (c.s k).toNat + 2 ^ 32 * (c.s (k + 1)).toNat

/-- The lowest active lane that satisfies a test. -/
def Ctx.firstLane (c : Ctx) (p : Nat → Bool) : Option Nat := (lanesOf c.act).find? p

/-- A trap as an instruction raises it (15 R278). -/
structure Raise where
  cause : Nat
  flane : Nat := 0
  faddr : Nat := 0
  handle : Nat := 0
  /-- It reports the team's lost remote stores, each loss once (11 R216). -/
  loss : Bool := false
  /-- The walk of its address found leaves (12 R236). -/
  walked : Bool := false
  /-- Its address is an offset of the crew's scratchpad (08 R150). -/
  scratch : Bool := false
  /-- The ranges that the instruction has read for its checks, strongly or weakly. -/
  reads : List (Bool × Nat × Nat) := []
  deriving DecidableEq, Repr

/-- What an instruction's own checks decide: it is performed, it traps, or it waits without parking and issues again, in the
second form with the request it waits for in the state. -/
inductive Gate where
  | go
  | trap (r : Raise)
  | wait
  | hold (s : State)
  deriving DecidableEq, Repr

/-- A gate whose checks have read some ranges: a trap of it comes after these reads. -/
def Gate.reading (strong : Bool) (l : List (Nat × Nat)) : Gate → Gate
  | .trap r => .trap { r with reads := (l.map fun p => (strong, p)) ++ r.reads }
  | g => g

/-- What the performance of an instruction leaves: the state, the entries its lanes move to (`none`: the next word), the trap
it takes once complete, and whether it ends the stint. -/
structure Done where
  s : State
  moves : Option (List Entry) := none
  post : Option TrapInfo := none
  yields : Bool := false
  /-- The effect has placed the team's lanes itself: a return from a trap, or a team that leaves its slot. -/
  keep : Bool := false
  /-- It is not performed after all, and traps (08 R145, R173). -/
  fail : Option Raise := none
  deriving DecidableEq, Repr

/-! ## The frame (15 R279) -/

/-- A byte of memory as a core reads it: its L1's word, or the home (10 R200). -/
def viewByte (s : State) (k c pa : Nat) : Byte :=
  match Tab.get? (core s (l1Loc s k pa)).l1 (pa / 4) with
  | some w => BitVec.ofNat 8 (w.val.toNat / 2 ^ (8 * (pa % 4)))
  | none => homeByte s (compKey s c) pa

/-- `n` bytes as a core reads them. -/
def viewBytes (s : State) (k c : Nat) : Nat → Nat → List Byte
  | _, 0 => []
  | a, n + 1 => viewByte s k c a :: viewBytes s k c (a + 1) n

/-- The parts of a range of virtual addresses that lie in one 4 KiB page each: start and length. -/
def pageParts (va n : Nat) : List (Nat × Nat) :=
  if n = 0 then []
  else
    (List.range ((va + n - 1) / 4096 - va / 4096 + 1)).map fun j =>
      let lo := max va (4096 * (va / 4096 + j))
      (lo, min (va + n) (4096 * (va / 4096 + j) + 4096) - lo)

/-- The parts of a range that lie in one line each: start and length. -/
def lineParts (va n : Nat) : List (Nat × Nat) :=
  if n = 0 then []
  else
    (List.range ((va + n - 1) / 64 - va / 64 + 1)).map fun j =>
      let lo := max va (64 * (va / 64 + j))
      (lo % 2 ^ 57, min (va + n) (64 * (va / 64 + j) + 64) - lo)

/-- A read of a part of a line on this device, as a team's instruction performs it at its issue: a weak one fetches into the L1 (10 R200),
a strong one writes back and refreshes the L1's words (R201). -/
def readLine (s : State) (k c level : Nat) (strong : Bool) (p : Nat × Nat) : State :=
  match translate s k c level .rd p.1 with
  | (s, .ok pa st) => if localClass pa = .none || homeFails s pa p.2 then s else (localLoad s k c (!strong) st pa p.2).1
  | (s, _) => s

/-- The reads of some ranges are performed, line by line. -/
def readLines (s : State) (k c level : Nat) (strong : Bool) (l : List (Nat × Nat)) : State :=
  (l.flatMap fun p => lineParts p.1 p.2).foldl (fun s p => readLine s k c level strong p) s

/-- The physical part of a page's piece of a range: none if the page is skipped (08 R160). -/
def rangePa (s : State) (k c va : Nat) : Option Nat :=
  if inHeap (comp s c).heap va then
    match heapXlate s c .rd va with
    | .ok pa _ => some pa
    | _ => none
  else
    let use (e : TlbEntry) : Option Nat :=
      let pa := e.pa + va % 2 ^ e.bits
      if reachable s c pa e.bits then some pa else none
    match tlbFind s k c va with
    | some e => use e
    | none =>
      match walk12 s (some (k / 4)) c va false with
      | .leaf x => use (combine c va x)
      | _ => none

/-- The local parts of a range, page by page (08 R160): physical address and length. -/
def rangeParts (s : State) (k c base len : Nat) : List (Nat × Nat) :=
  (pageParts base len).filterMap fun p => (rangePa s k c (p.1 % 2 ^ 57)).bind fun pa =>
    if localClass pa = .none then none else some (pa, p.2)

/-- The acquire of an engine's destination by a team of a core: the clean words that the range holds in its L1 go (11 R220). -/
def acquireDest (s : State) (k c : Nat) (r : Nat × Nat) : State :=
  (rangeParts s k c r.1 (r.2 + 1 - r.1)).foldl (fun s p => acquireRange s k p.1 p.2) s

/-- The physical addresses of the parts of a range, all of them or none, for the device's access. -/
def partPas (s : State) (c : Nat) (n : Need) : List (Nat × Nat) → State × Option (List (Nat × Nat × Nat))
  | [] => (s, some [])
  | (va, len) :: r =>
    match devicePa s c n va with
    | (s, none) => (s, none)
    | (s, some pa) =>
      match partPas s c n r with
      | (s, some l) => (s, some ((va, len, pa) :: l))
      | (s, none) => (s, none)

/-- The physical address of a virtual one among translated parts. -/
def pasFind (l : List (Nat × Nat × Nat)) (va : Nat) : Nat :=
  match l.find? fun x => x.1 ≤ va && va < x.1 + x.2.1 with
  | some x => x.2.2 + (va - x.1)
  | none => 0

/-- A field of a frame as the core reads it. -/
def viewField (s : State) (k c : Nat) (l : List (Nat × Nat × Nat)) (va n : Nat) : Nat :=
  Bits.ofLe (viewBytes s k c (pasFind l va) n)

/-- A sparse image written by the device at its home: the L1's words of the range go first. -/
def writeImage (s : State) (k c base : Nat) (l : List (Nat × Nat × Nat)) (fs : List Bits.Fld) : State :=
  let key := compKey s c
  let s := l.foldl (fun s x =>
    let (_, len, pa) := x
    let s := (l1Group s k).foldl (fun s j =>
      let y := core s j
      setCore s j (tidyLines { y with l1 := y.l1.filter fun w => !inRange pa len w.1 })) s
    let s := disown (tagRange (noteWrite s key pa len) key pa len) pa len
    { s with mem := memClear s.mem pa len }) s
  let s := { s with mem := fs.foldl (fun m f =>
    if f.val = 0 then m else memWrite m (pasFind l (base + f.off)) (Bits.leBytes f.size f.val)) s.mem }
  l.foldl (fun s x => matchWatches (wakeMonitors s none x.2.2 x.2.1) x.2.2 x.2.1) s

/-- The frame's header area and each replay entry (15 R279, R280). -/
def frameSize : Nat := 0x800

/-- A waiting entry whose condition stays armed through a handler (15 R277, R281). -/
def Wait.armed : Wait → Bool
  | .again _ | .fetch _ | .queued .. => false
  | _ => true

/-- Lane i's PC in a frame: dead lanes keep the PC they ended at (log 18). -/
def lanePc (t : Team) (i : Nat) : Nat :=
  match t.front.find? fun e => e.mask.getLsbD i with
  | some e => e.pc
  | none => ((t.deadPc.find? fun d => d.1 = i).map (·.2.1)).getD 0

/-- A replay entry's fields at an offset of the frame (15 R280). -/
def replayFields (base : Nat) (e : ReplayEntry) : List Bits.Fld :=
  [⟨base, 4, e.word.toNat⟩, ⟨base + 4, 4, e.hints.length + (if e.head then 16 else 0)⟩, ⟨base + 8, 8, e.pc⟩,
    ⟨base + 0x38, 4, e.mask.toNat⟩] ++
  (e.hints.zipIdx.map fun x => ⟨base + 0x10 + 4 * x.2, 4, x.1.toNat⟩) ++
  (e.cap.s.zipIdx.map fun x => ⟨base + 0x40 + 4 * x.2, 4, x.1.toNat⟩) ++
  (e.cap.v.flatMap fun r => r.2.zipIdx.flatMap fun x =>
    [⟨base + 0x80 + 128 * r.1 + 4 * x.2, 4, x.1.val.toNat⟩, ⟨base + 0x680 + 32 * r.1 + x.2, 1, x.1.tag.toNat⟩])

/-- The fields of a frame (15 R279), as sparse as they are: zeros stand in the rest. -/
def frameFields (t : Team) (i : TrapInfo) : List Bits.Fld :=
  [⟨0, 1, 1⟩, ⟨1, 1, i.cause⟩, ⟨2, 1, t.level⟩, ⟨3, 1, i.replay.length⟩, ⟨4, 4, t.guardMask.toNat⟩, ⟨8, 1, t.guardLeft⟩,
    ⟨9, 1, i.theta⟩, ⟨0xA, 1, i.kval⟩, ⟨0xB, 1, (if i.service then 1 else 0) + (if i.escalated then 2 else 0)⟩,
    ⟨0xC, 4, t.fpstat.toNat⟩, ⟨0x10, 4, i.slmask.toNat⟩, ⟨0x14, 4, i.flane⟩, ⟨0x18, 8, i.faddr⟩, ⟨0x20, 8, i.tpc⟩,
    ⟨0x28, 4, i.handle⟩, ⟨0x40, 8, i.promise⟩, ⟨0x48, 8, i.done⟩, ⟨0x50, 8, i.child⟩, ⟨0x58, 4, t.front.length⟩] ++
  (i.ivec.zipIdx.map fun x => ⟨0x30 + 2 * x.2, 2, x.1⟩) ++
  (laneList.map fun j => ⟨0x100 + 8 * j, 8, lanePc t j⟩) ++
  (t.front.zipIdx.flatMap fun x =>
    [⟨0x200 + 16 * x.2, 8, x.1.pc⟩, ⟨0x208 + 16 * x.2, 4, x.1.mask.toNat⟩, ⟨0x20C + 16 * x.2, 1, x.1.prio⟩,
      ⟨0x20D + 16 * x.2, 2, x.1.age⟩, ⟨0x20F + 16 * x.2, 1, if x.1.wait.any Wait.armed then 1 else 0⟩]) ++
  (i.sigt.zipIdx.map fun x => ⟨0x400 + x.2, 1, x.1⟩) ++
  (t.s.map fun x => ⟨0x480 + 4 * x.1, 4, x.2.toNat⟩) ++ (t.p.map fun x => ⟨0x580 + 4 * x.1, 4, x.2.toNat⟩) ++
  (t.m.map fun x => ⟨0x5B0 + 4 * x.1, 4, x.2.toNat⟩) ++
  (i.replay.zipIdx.flatMap fun x => replayFields (0x800 + 2048 * x.2) x.1)

/-- The address that FRAMEBASE holds for one (02 R27). -/
def frameAddr (a : Nat) : Nat := a % 2 ^ 57 / 256 * 256

/-- A frame of a region's array (15 R265). -/
def Region.frameAt (r : Region) (i : Nat) : Nat := frameAddr (r.frames + 51200 * i)

/-- FRAMEBASE and TRAPVEC of a team (02 R27). -/
def Team.frameBase (t : Team) : Nat := t.frameLo.toNat + 2 ^ 32 * t.frameHi.toNat
def Team.trapVec (t : Team) : Nat := t.trapLo.toNat + 2 ^ 32 * t.trapHi.toNat

/-- The VALID byte of the frame at an address, if the frame can be read (15 R279). -/
def frameValid (s : State) (k c f : Nat) : Bool :=
  match devicePa s c .rd f with
  | (_, some pa) => viewByte s k c pa = 1
  | (_, none) => false

/-- A word of some translated parts cannot be corrected where a core reads it (12 R244): one that its L1 holds is read there. -/
def viewFails (s : State) (k : Nat) (l : List (Nat × Nat × Nat)) : Bool :=
  s.failing.any fun w =>
    (l.any fun x => x.2.2 / 4 ≤ w && w < (x.2.2 + x.2.1 + 3) / 4) && (Tab.get? (core s (l1Loc s k (4 * w))).l1 w).isNone

/-- The frame is written, and the team enters a handler at level 1 (15 R277 steps 3 and 4); none if it cannot be, or its VALID cannot
be read (R282). -/
def enterHandler (s : State) (key : Nat) (t : Team) (p : Place) (i : TrapInfo) (f handler : Nat) : Option State :=
  let k := p.core
  match partPas s t.comp .rw (pageParts f (frameSize + 2048 * i.replay.length)) with
  | (_, none) => none
  | (s, some l) =>
    if viewFails s k [(f, 4, pasFind l f)] then none
    else
    let s := writeImage s k t.comp f l (frameFields t i)
    let waiting := (t.front.zipIdx.filter fun x => x.1.wait.any Wait.armed).map fun x => (⟨f, x.2, x.1, none⟩ : Held)
    let t := (team? s key).getD t
    let s := setTeam s key { t with
      level := 1
      front := rebuild [{ prio := 255, pc := handlerPc handler, mask := t.live }]
      held := t.held ++ waiting
      guardMask := 0
      guardLeft := 0
      chain := 0
      replayQ := []
      replayWait := false
      parking := []
      first := none
      runFrames := (if i.replay.head?.any (·.run) then [f] else []) ++ t.runFrames.filter fun x => x ≠ f
      entering := true
      frameLo := BitVec.ofNat 32 f
      frameHi := BitVec.ofNat 32 (f / 2 ^ 32) }
    some (voidTeamLatches s t)

/-- The lowest free frame of a region's array (15 R265). -/
def freeFrame (r : Region) : Option Nat := (List.range (r.framesUsed.length + 1)).find? fun n => n < r.frameCnt && !r.framesUsed.contains n

/-- Escalation (15 R282): the parent region's handler takes the trap in a free frame of its array, and the trap climbs while
a frame cannot be written; at the root, or without a free frame, the compartment halts. -/
def escalate (s : State) (key : Nat) (t : Team) (p : Place) (i : TrapInfo) : Nat → Nat → State
  | 0, _ => haltComp s t.comp (0x100 + i.cause)
  | n + 1, rk =>
    match region? s rk with
    | none => haltComp s t.comp (0x100 + i.cause)
    | some r =>
      if r.parent = 0 then haltComp s t.comp (0x100 + i.cause)
      else
        let pk := regionKey r.comp r.parent
        match region? s pk with
        | none => haltComp s t.comp (0x100 + i.cause)
        | some q =>
          match freeFrame q with
          | none => haltComp s t.comp (0x100 + i.cause)
          | some idx =>
            let f := q.frameAt idx
            match enterHandler s key t p { i with escalated := true } f q.handler with
            | some s =>
              let s := onRegion s pk fun q => { q with framesUsed := idx :: q.framesUsed }
              onTeam s key fun u => { u with escal := (pk * 2 ^ 16 + idx, t.frameBase) :: u.escal }
            | none => escalate s key t p { i with cause := 0x1A, kval := if i.cause = 0x1A then i.kval else i.cause, child := f } n pk

/-- The region whose handler a team runs in: its own, or the one its last escalation reached. -/
def handlerRegion (t : Team) : Nat :=
  match t.escal with
  | (x, _) :: _ => x / 2 ^ 16
  | [] => t.region

/-- A trap is delivered (15 R277), or escalated (R282) if the frame is valid or cannot be written. -/
def deliverTrap (s : State) (key : Nat) (i : TrapInfo) : State :=
  match team? s key with
  | none => s
  | some t =>
    match t.place with
    | none => s
    | some p =>
      let f := t.frameBase
      let up (i : TrapInfo) : State := escalate s key t p i (s.regions.length + 1) (handlerRegion t)
      if frameValid s p.core t.comp f then up { i with child := f }
      else
        match enterHandler s key t p i f t.trapVec with
        | some s => s
        | none =>
          escalate (reportAt s p.core t.comp 1 f 0) key t p
            { i with cause := 0x1A, kval := if i.cause = 0x1A then i.kval else i.cause, child := f } (s.regions.length + 1)
            (handlerRegion t)

/-- Accesses of the team are outstanding: an ordered one waits for them (08 R147, R151, R153, 10 R203, R204). -/
def outstanding (s : State) (key : Nat) : Bool :=
  (s.reqs.any fun r => r.team = key && !r.polls) || s.ops.any fun o => o.team = key && o.kind ≠ .arm

/-- Line requests of the team wait for credits: its next ones wait behind them (13 R252). -/
def starved (s : State) (key : Nat) : Bool := s.ops.any fun o => o.team = key && o.todo ≠ []

/-- An acquire of the team has not been performed: no later access may pass it (10 R203). -/
def acquiring (s : State) (key : Nat) : Bool := s.ops.any fun o => o.team = key && o.acq.isSome

/-- An access of a team waits for the acquires before it, whether or not it goes through the hierarchy (10 R203, R206). -/
def acquireGate (s : State) (key : Nat) : Gate := if acquiring s key then .wait else .go

/-- A request of the team is in a shared queue, or an entry waits without parking for its own completion: a trap's delivery
waits for it (15 R277 step 2, R269). -/
def undrained (s : State) (key : Nat) (t : Team) : Bool :=
  (s.reqs.any fun r => r.team = key && r.stage ≠ .pannier && !r.polls) ||
  t.front.any fun e => e.wait.any fun w =>
    match w with
    | .op .. | .service _ | .member _ | .accept _ => true
    | _ => false

/-- A trap that is due may be delivered: PROMISE_MISS waits for a parked team's wake (09 R198), STOPREQ for a boundary after an
instruction with C = 0 of a team that is not parked (15 R274). -/
def lateDue (t : Team) : Bool :=
  match t.late with
  | i :: _ =>
    if i.cause = 0xA then t.front.any fun e => e.wait.isNone
    else if i.cause = 0x19 then t.chain = 0 && !t.front.all fun e => e.wait.any Wait.parked
    else true
  | [] => false

/-- Take a trap: at once, or once the team's older instructions have completed or entered the pannier and the instruction in
hand is over (15 R277). A stop request that is still to be delivered comes after its handler (15 R274). -/
def takeTrap (s : State) (key : Nat) (i : TrapInfo) : State :=
  match team? s key with
  | none => s
  | some t =>
    let stops (x : TrapInfo) : Bool := x.cause = 0x19
    let others := t.late.filter fun x => !stops x
    if undrained s key t || others ≠ [] || t.place.isNone || s.cur.any (fun u => u.team = key) then
      setTeam s key { t with late := others ++ i :: t.late.filter stops, replayQ := [] }
    else deliverTrap (setTeam s key { t with late := [], owed := t.owed ++ t.late }) key i

/-! ## Stints (15 R267) and the order of issue (07 R115) -/

/-- An instruction that is a release, or that no older access may pass, waits for the team's older accesses (10 R203, R204). -/
def olderGate (c : Ctx) (s : State) : Gate := if acquiring s c.key || outstanding s c.key then .wait else .go

/-- A compartment has been started. -/
def compUp (s : State) (c : Nat) : Bool := (comp s c).desc.state = 2

/-- The compartment of a team runs: an overrun that it owes is taken from the start of its slice (15 R275). -/
def compRuns (s : State) (c : Nat) : Bool := compUp s c && (comp s c).runAt ≤ s.time

/-- A placed team can issue (15 R267): it holds replay entries or a ready frontier entry, and no trap is due. -/
def teamReady (s : State) (t : Team) : Bool :=
  t.place.isSome && compRuns s t.comp && !lateDue t && !t.captured &&
  (if t.replayQ ≠ [] then !t.replayWait else t.front.any entryReady)

/-- The teams placed on a bench. -/
def benchTeams (s : State) (b : Nat) : List (Nat × Team) := s.teams.filter fun t => t.2.place.any fun p => p.benchNo = b

/-- A stint ends: the latches become invalid and the chain is broken (02 R18, 03 R45, 15 R267). -/
def endStint (s : State) (b : Nat) : State :=
  let x := bench s b
  let s := setBench s b (voidLatches { x with holder := none, slots := 0 })
  match x.holder with
  | some k => onTeam s k fun t => { t with chain := 0, lastEnd := clk s (b / 8), readySince := clk s (b / 8) }
  | none => s

/-- Whether the stint of a team ends after an instruction without C (15 R267). -/
def stintOver (s : State) (b key : Nat) : Bool :=
  match team? s key with
  | none => true
  | some t =>
    let others := (benchTeams s b).filter fun u => u.1 ≠ key && teamReady s u.2
    !teamReady s t || (others.any fun u => t.prio.toNat < u.2.prio.toNat) ||
    (32 ≤ (bench s b).slots && others.any fun u => u.2.prio = t.prio)

/-- Count the issue slot and end the stint if it is over; a chain without a ready entry is broken (07 R122). -/
def stintCheck (s : State) (b key : Nat) (c waits yields : Bool) : State :=
  let x := bench s b
  let s := setBench s b { x with slots := x.slots + 1 }
  let idle := (team? s key).all fun t => !teamReady s t
  if yields then endStint s b
  else if c then (if waits && idle then endStint s b else s)
  else if stintOver s b key then endStint s b else s

/-! ## The checks of 03 R54 and the issue -/

/-- The operand registers are in the team's allocation (02 R12). -/
def allocated (t : Team) (h : Shape) : Bool :=
  let ok (code n : Nat) : Bool := 120 ≤ code || code + n ≤ min 120 (8 * t.rows)
  h.vs.all (fun o => ok o.code.toNat o.n) && h.vd.all fun d => ok d.1.toNat d.2

/-- Whether an instruction reads an invalid latch in an active lane (02 R18). -/
def latchInvalid (s : State) (c : Ctx) : Bool :=
  c.act ≠ 0 && c.cur.replay.isNone &&
  (c.shape.latchReads).any fun k => !(latch (bench s c.place.benchNo) k).valid

/-- The registers that an outstanding operation is still to write (13 R255). -/
def MemOp.dst (o : MemOp) : Option (Nat × Nat) :=
  match o.kind with
  | .load t n _ _ _ => if t < 120 then some (t, n) else none
  | .atomic _ t _ r _ => if t < 120 && r ≠ 0 then some (t, r) else none
  | _ => none

/-- An outstanding operation enters the latches when it completes (02 R16). -/
def MemOp.latches (o : MemOp) : Bool :=
  match o.kind with
  | .load _ n _ _ _ => n = 1
  | .atomic _ _ _ r _ => r = 1
  | _ => false

/-- The scalars that an entry's wait is still to write: a status, the results of a copy command, or what a service returns (09 R194, 07
R140). -/
def Wait.scalars (s : State) : Wait → Option (Nat × Nat)
  | .accept id => (s.copies.find? fun x => x.id = id).map fun x => (x.dest, 4)
  | .service _ => some (0, 4)
  | w => w.dest.map fun d => (d, 1)

/-- The scalar that a CLAIM in the pannier is to write: its D code is the tenth byte that it has in hand (13 R253). -/
def Req.claimDest (r : Req) : Option Nat := if r.cls = 2 then (r.pay[9]?).map (·.toNat) else none

/-- The scalars that are still to be written for entries of a team, or for its CLAIMs in the pannier. -/
def pendingScalars (s : State) (key : Nat) : List (Nat × Nat) :=
  ((((team? s key).map (·.front)).getD []).filterMap fun e => e.wait.bind (Wait.scalars s)) ++
  (s.reqs.filter fun r => r.team = key).filterMap fun r => r.claimDest.map fun d => (d, 1)

/-- Registers that an outstanding one among others is one of: the first and the number of each. -/
def overlaps (code n : Nat) (d : Nat × Nat) : Bool := code < d.1 + d.2 && d.1 < code + n

/-- The instruction names a register that an earlier one of the team is still to write (13 R255, 20 R312). -/
def reserved (s : State) (key : Nat) (h : Shape) : Bool :=
  (s.ops.any fun o => o.team = key &&
    ((o.dst.any fun d => (h.vs.any fun v => overlaps v.code.toNat v.n d) || h.vd.any fun v => overlaps v.1.toNat v.2 d) ||
     (o.latches && h.latchReads ≠ []))) ||
  (pendingScalars s key).any fun d =>
    (h.ss.any fun x => overlaps x.1.toNat x.2 d) || h.sd.any fun x => overlaps x.1.toNat x.2 d

/-- An entry that still has scalars written for it: a copy command not yet accepted, a change of membership, a service. -/
def Wait.writes : Wait → Bool
  | .accept _ | .member _ | .service _ => true
  | _ => false

/-- What a request does by its class: the swap of a trunk's ticket is an atomic that goes as a store (07 R131), and a CLAIM asks for a
page that it may write. -/
def Req.act (r : Req) : Nat := if r.cls = 1 && r.opnds ≠ [] then 2 else if r.cls = 2 && r.pay ≠ [] then 1 else r.cls

/-- What a parking instruction waits for among the operations issued before it, those numbered below `n` (07 R124, 13 R255): no
load, atomic or monitor arming in the pannier or on its way, and no register still to be written; a monitor's poll of a peer's
word is in no pannier. -/
def blockedBefore (s : State) (key n : Nat) : Bool :=
  (s.ops.any fun o => o.team = key && o.id < n && o.dst.isSome) ||
  (s.reqs.any fun r => r.team = key && r.op < n && (r.cls = 0 || r.cls = 2 || r.cls = 3) && match r.stage with
    | .away _ => false
    | _ => true) ||
  (team? s key).any fun t => t.front.any fun e => e.wait.any Wait.writes

/-- A parking instruction waits for what was issued before it. -/
def parkBlocked (s : State) (key : Nat) : Bool := blockedBefore s key s.nextId

/-- Instructions of a team that have been issued and not completed (15 R268): one whose requests wait in the pannier counts as
completed. -/
def inFlight (s : State) (key : Nat) : Nat :=
  (s.ops.filter fun o => o.team = key && s.reqs.any fun r => r.op = o.id && r.cls ≤ 2 && r.stage ≠ .pannier).length +
  ((team? s key).map fun t => (t.front.filter fun e => e.wait.any Wait.writes).length).getD 0

/-- The checks before an instruction's own (03 R54 steps 1 to 6), in their order: the trap that fails first, and for a check
of the run the address of its word. -/
inductive Check where
  | ok
  | run (pc : Nat) (illegal : Bool)
  | trap (cause : Nat)
  | wait
  deriving DecidableEq, Repr

/-- A guarded span admits the instruction (03 R49). -/
def spanFault (c : Ctx) : Bool := c.team.guardLeft ≠ 0 && c.cur.replay.all (·.run) && !guardable c.shape.maj

/-- Step 4 of 03 R54: the level (02 R31). -/
def privCheck (c : Ctx) (_ : State) : Option Nat := if c.team.level < c.shape.level then some 2 else none

/-- Steps 1 to 6 of 03 R54; `priv` is step 4. DESIGN CHOICE (log 91): R54 does not list the HINTs of R49; they come after the checks of
the run, and before the ILLEGAL of an operand's shape. -/
def checks (priv : Ctx → State → Option Nat) (c : Ctx) (s : State) : Check :=
  match runFault (hintFits c.shape) c.cur.run with
  | some (pc, ill) => .run pc ill
  | none =>
    if c.hints.hgrd.isSome && c.team.guardLeft ≠ 0 && c.cur.replay.all (·.run) then
      .run (((c.cur.run.find? fun x => hintKind x.2 = 0).map (·.1)).getD c.cur.pc) false
    else if spanFault c then .trap 5
    else if !c.shape.r53Ok || !c.shape.step3Ok || !allocated c.team c.shape then .trap 1
    else match priv c s with
    | some cause => .trap cause
    | none =>
    if 16 ≤ c.team.chain && c.shape.c then .trap 4
    else if 24 ≤ inFlight s c.key || reserved s c.key c.shape || (c.shape.parks && parkBlocked s c.key) then .wait
    else if latchInvalid s c then .trap 3
    else .ok

/-- The entries after this one that RTR or RTS is still to perform. -/
def Ctx.rest (c : Ctx) : List ReplayEntry := if c.cur.replay.isSome then c.team.replayQ.drop 1 else []

/-- Where a frame finds the lanes of an instruction in its replay queue: where they would be next if it had completed (15 R277 step
3). A replayed instruction has moved them already. -/
def passBy (c : Ctx) (es : List Entry) (s : State) : State :=
  if c.cur.replay.isSome then s
  else onTeam s c.key fun t =>
    { t with front := moveLanes (ageEntries t.front c.wasReady c.entry) (c.spread t.front es) }

/-- The issuing lanes at the next word. -/
def Ctx.onward (c : Ctx) : List Entry := [c.goTo c.nextPc c.cur.mask]

/-- Where the issuing lanes would be next if an instruction that traps in a check had completed (15 R277 step 3): a branch or a
transfer at its targets, as a PC holds them (02 R19). The lanes of an EXIT, which has not been performed, stand behind it. -/
def passMoves (c : Ctx) (d : Done) : List Entry :=
  match d.moves with
  | some (e :: l) =>
    if c.shape.maj = 0x1A || c.shape.maj = 0x1B then
      let es := (e :: l).map fun e => { e with pc := e.pc % 2 ^ 57 / 4 * 4 }
      es ++ [c.goTo c.nextPc (c.cur.mask &&& ~~~es.foldl (fun m e => m ||| e.mask) 0)]
    else c.onward
  | _ => c.onward

/-- The guarded span after an instruction that has issued in it, performed or not (03 R49, 15 R277 step 3): a replayed one was
counted when it first issued. -/
def guardNext (c : Ctx) (t : Team) : Team :=
  let counted : Bool := c.cur.replay.any fun r => !r.run
  { t with
    guardMask := if counted then t.guardMask else if c.gleft ≤ 1 then 0 else c.gmask
    guardLeft := if counted then t.guardLeft else c.gleft - 1 }

/-- What an instruction read for its issue is no longer kept. -/
def dropFetched (c : Ctx) (s : State) : State :=
  let s := { s with fetched := s.fetched.filter fun f => !(f.team = c.key && f.pc = c.cur.pc) }
  onTeam s c.key fun t => { t with
    first := none
    parking := t.parking.filter fun p => !(p.pc = c.cur.start && p.mask &&& c.cur.mask ≠ 0) }

/-- An instruction that is not performed traps: it heads the replay queue (15 R277 step 1). One that its guarded span does not
admit is no part of the span. -/
def trapHead (c : Ctx) (r : Raise) (mask : Word) (s : State) (es : List Entry := c.onward) : State :=
  let s := r.reads.foldl (fun s x => readLines s c.place.core c.team.comp c.team.level x.1 [x.2]) s
  let s := { dropFetched c (passBy c es s) with cur := none, stir := true }
  let s := if r.cause = 5 then s else onTeam s c.key (guardNext c)
  let s := if r.loss then onTeam s c.key fun t => { t with lost := 0 } else s
  let s := if r.walked then markRefused s c.place.core c.team.comp r.faddr else s
  let s := if r.cause = 0x17 && r.scratch then reportScratch s c.place.core c.team.comp
    else if r.cause = 0x17 then reportAt s c.place.core c.team.comp c.team.level r.faddr 0
    else if r.cause = 0x1A then reportFrame s c.place.core c.team.comp c.team.frameBase else s
  takeTrap s c.key
    { cause := r.cause, tpc := c.cur.pc, flane := r.flane, faddr := r.faddr, handle := r.handle,
      replay := ({ c.entryOf mask true with run := r.cause = 5 } :: c.rest).take 24 }

/-- A check of the run fails: the replay entry holds the run and the word that follows it (15 R277 step 1). -/
def trapRun (c : Ctx) (pc : Nat) (illegal : Bool) (s : State) (es : List Entry := c.onward) : State :=
  let s := { passBy c es (dropFetched c s) with cur := none }
  let mask := if c.team.guardLeft = 0 then c.cur.mask else c.cur.mask &&& c.team.guardMask
  takeTrap s c.key
    { cause := if illegal then 1 else 5, tpc := pc, replay := ({ c.entryOf mask true with run := true } :: c.rest).take 24 }

/-- What a parking instruction read at its issue is kept while it waits for earlier register writes (07 R124), and what a post read
whose block has bounced (09 R185, R191). -/
def keepParking (c : Ctx) (held : Bool) (t : Team) : Team :=
  if (c.shape.parks || (held && (c.shape.maj = 0x3A || c.shape.maj = 0x3B))) && c.cur.replay.isNone && (parked? t c.cur).isNone then
    { t with parking := t.parking ++ [⟨c.cur.start, c.cur.mask, c.cap, c.carry.1, c.carry.2⟩] }
  else t

/-- The entry of an issue waits to issue again: its breakpoints from its first word to a later one have recorded (14 R261). -/
def markBroke (s : State) (first last : Nat) (mask : Word) (t : Team) : Team :=
  if (comp s t.comp).breaks = [] then t
  else { t with broke := (t.broke.filter fun b => b.1 ≠ first || b.2.2 &&& mask = 0) ++ [(first, last, mask)] }

/-- The instruction waits without parking and issues again; `held` once a request of it has set out. -/
def waitAgain (c : Ctx) (s : State) (held : Bool := false) : State :=
  let s := onTeam s c.key fun t =>
    let t := markBroke s c.cur.start c.cur.pc c.cur.mask { keepParking c held t with first := none }
    if c.cur.replay.isSome then { t with replayWait := true }
    else { t with front := t.front.map fun e => if e = c.entry then { e with wait := some (.again 0) } else e }
  let s := { s with cur := none }
  let b := c.place.benchNo
  if c.team.chain = 0 && (team? s c.key).all (fun t => !teamReady s t) then endStint s b else s

/-- A wait to issue again that is over: `now` is CLK of the team's core, `deck` the deck clock. -/
def againOver (now deck : Nat) : Wait → Option (Option Word)
  | .again d => if d ≤ now then some none else none
  | .queued d bounces => if d ≤ deck && !bounces then some none else none
  | _ => none

/-- A fetch at its queue's bound bounces, and keeps to the backoff of 13 R256 (R351). -/
def backOff (now deck : Nat) (t : Team) : Team :=
  let due (w : Wait) : Bool := match w with
    | .queued d true => d ≤ deck
    | _ => false
  if t.front.any fun e => e.wait.any due then
    { t with front := t.front.map fun e => if e.wait.any due then { e with wait := some (.again (now + 2048)) } else e }
  else t

/-- The team's instructions that wait without parking are tried again, those that keep to a backoff once it has passed. -/
def retryTeam (now deck : Nat) (t : Team) : Team :=
  let t := backOff now deck t
  let t := if t.front.any fun e => (e.wait.bind (againOver now deck)).isSome then wakeTeam (againOver now deck) t else t
  if t.replayWait then { t with replayWait := false } else t

/-- Every instruction that waits without parking is tried again (13 R255, 15 R268). -/
def wakeAgain (s : State) : State :=
  { s with stir := false, teams := s.teams.map fun kt => (kt.1, retryTeam (clk s (holdingCore s kt.1 kt.2)) s.time kt.2) }

/-- A wait of a fetch, in a queue or for its backoff, has passed (13 R351). -/
def backoffPast (s : State) : Bool :=
  s.teams.any fun kt => kt.2.front.any fun e => match e.wait with
    | some (.again d) => d ≠ 0 && d ≤ clk s (holdingCore s kt.1 kt.2)
    | some (.queued d _) => d ≤ s.time
    | _ => false

/-- The team after its instruction: ages, its lanes at their next words, the guarded span and the chain (07 R115, R116, 03
R45, R49). -/
def advanceTeam (c : Ctx) (moves : Option (List Entry)) (t : Team) : Team :=
  let es := match moves with
    | some l => l
    | none => [c.goTo c.nextPc c.cur.mask]
  let front :=
    if c.cur.replay.isSome then (match moves with
      | some l => rebuild (dropLanes t.front c.cur.mask ++ c.spread t.front l)
      | none => t.front)
    else rebuild (dropLanes (ageEntries t.front c.wasReady c.entry) c.cur.mask ++ c.spread t.front es)
  { guardNext c t with
    front := front
    chain := if c.shape.c then t.chain + 1 else 0
    replayQ := if c.cur.replay.isSome then t.replayQ.drop 1 else t.replayQ }

/-- An instruction has been performed. -/
def conclude (c : Ctx) (r : Done) : State :=
  match r.fail with
  | some x => trapHead c x c.act r.s
  | none =>
  let s := onTeam r.s c.key fun t =>
    if r.keep then { t with chain := if c.shape.c then t.chain + 1 else 0 } else joinChecks (advanceTeam c r.moves t)
  let s := { dropFetched c s with cur := none, stir := true }
  let waits := r.moves.any fun l => l.any fun e => e.wait.isSome
  let s := stintCheck s c.place.benchNo c.key c.shape.c waits (r.yields || c.hints.hyld)
  match r.post with
  | some i => takeTrap s c.key { i with replay := ((team? s c.key).map (·.replayQ)).getD [] }
  | none => s

/-- The issue of an instruction: its checks in order, its own gate, its effect. -/
def issue (priv : Ctx → State → Option Nat) (own : Ctx → State → Gate) (eff : Ctx → State → Done) (c : Ctx) (s : State) :
    State :=
  match checks priv c s with
  | .run pc ill => trapRun c pc ill s (passMoves c (eff c s))
  | .trap cause => trapHead c { cause := cause } c.act s (passMoves c (eff c s))
  | .wait => waitAgain c s
  | .ok =>
    match own c s with
    | .trap r => trapHead c r c.act s
    | .wait => waitAgain c s
    | .hold s => waitAgain c s true
    | .go => conclude c (eff c s)

/-- An instruction whose step 4 of 03 R54 is its own. -/
def performPriv (h : Shape) (priv : Ctx → State → Option Nat) (own : Ctx → State → Gate) (eff : Ctx → State → Done)
    (s : State) : Host.Outcome State Fault Refusal :=
  match context h s with
  | none => .fault .noTeam
  | some c => .next (issue priv own eff c s)

/-- An instruction with checks of its own. -/
def performGated (h : Shape) (own : Ctx → State → Gate) (eff : Ctx → State → Done) (s : State) :
    Host.Outcome State Fault Refusal :=
  performPriv h privCheck own eff s

/-- An instruction without checks of its own, whose lanes go on at the next word. -/
def perform (h : Shape) (eff : Ctx → State → State) (s : State) : Host.Outcome State Fault Refusal :=
  performGated h (fun _ _ => .go) (fun c s => { s := eff c s }) s

/-- A hint word joins the run of the issuing entry (01 R8). -/
def performHint (s : State) : Host.Outcome State Fault Refusal :=
  match s.cur with
  | none => .fault .noTeam
  | some u => .next { s with cur := some { u with run := u.run ++ [(u.pc, u.word)], pc := (u.pc + 4) % 2 ^ 57 } }

/-- A run is followed by a word that is no instruction: HINT at its first hint (03 R48); without a run, ILLEGAL (R53). DESIGN CHOICE
(log 90): a word with an operand code of R38 or R40 that names nothing, or with W where there is none (R41), is no instruction. -/
def badWord (s : State) : State :=
  match context { maj := 0 } s with
  | none => { s with cur := none }
  | some c =>
    match runFault (fun _ => false) c.cur.run with
    | some (pc, ill) => trapRun c pc ill s
    | none => trapRun c c.cur.pc true s

/-! ## Parking and returning -/

/-- A team with an entry that waits for a service is not captured before the return (07 R140). -/
def Team.inService (t : Team) : Bool := t.front.any fun e => e.wait.any fun w => match w with | .service _ => true | _ => false

/-- The team parks (07 R124): what is not carried is zeroed, and the latches become invalid; a team that is to be captured at
its next parking point is (07 R132, 15 R272). -/
def parkTeam (s : State) (key : Nat) (carry : Word × Word) : State :=
  match team? s key with
  | some t => voidTeamLatches (setTeam s key (parkZero { t with captured := t.captured || (t.stopReq && !t.inService) } carry)) t
  | none => s

/-- A frame as a return reads it. -/
structure FrameView where
  valid : Nat
  cause : Nat
  level : Nat
  gmask : Nat
  gcount : Nat
  nreplay : Nat
  nfront : Nat
  front : List (Entry × Bool)
  sregs : List Nat
  pregs : List Nat
  mregs : List Nat
  lpc : List Nat
  replay : List ReplayEntry
  deriving DecidableEq, Repr

/-- A replay entry as a frame holds it: `w` are the operands of its word (15 R280). -/
def readReplay (rd : Nat → Nat → Nat) (base : Nat) : ReplayEntry :=
  let fl := rd (base + 4) 4
  let lanes (r : Nat) : Lanes :=
    laneList.map fun i => ⟨BitVec.ofNat 32 (rd (base + 0x80 + 128 * r + 4 * i) 4), BitVec.ofNat 6 (rd (base + 0x680 + 32 * r + i) 1)⟩
  { word := BitVec.ofNat 32 (rd base 4), head := fl.testBit 4, pc := rd (base + 8) 8 % 2 ^ 57 / 4 * 4,
    hints := (List.range (min (fl % 16) 10)).map fun j => BitVec.ofNat 32 (rd (base + 0x10 + 4 * j) 4),
    mask := BitVec.ofNat 32 (rd (base + 0x38) 4),
    cap := { v := (List.range 12).map fun r => (r, lanes r),
             s := (List.range 8).map fun j => BitVec.ofNat 32 (rd (base + 0x40 + 4 * j) 4) } }

/-- The frame at an address as the core reads it, its replay entries included; none if a page of it cannot be read, or a word of it
cannot be corrected (15 R282). -/
def readFrame (s : State) (k c f : Nat) : State × Option FrameView :=
  match partPas s c .rw (pageParts f frameSize) with
  | (s, none) => (s, none)
  | (s, some l) =>
    let n := viewField s k c l (f + 3) 1
    match partPas s c .rw (pageParts f (frameSize + 2048 * min n 24)) with
    | (s, none) => (s, none)
    | (s, some l) =>
      if viewFails s k l then (s, none)
      else
      let rd (off size : Nat) : Nat := viewField s k c l (f + off) size
      let nf := rd 0x58 4
      (s, some
        { valid := rd 0 1, cause := rd 1 1, level := rd 2 1, gmask := rd 4 4, gcount := rd 8 1 % 8, nreplay := n, nfront := nf,
          front := (List.range (min nf 32)).map fun e =>
            ({ prio := rd (0x20C + 16 * e) 1, pc := rd (0x200 + 16 * e) 8 / 4 * 4 % 2 ^ 57,
               mask := BitVec.ofNat 32 (rd (0x208 + 16 * e) 4), age := min 8191 (rd (0x20D + 16 * e) 2) },
             (rd (0x20F + 16 * e) 1).testBit 0),
          sregs := (List.range 64).map fun j => rd (0x480 + 4 * j) 4,
          pregs := (List.range 12).map fun j => rd (0x580 + 4 * j) 4,
          mregs := (List.range 4).map fun j => rd (0x5B0 + 4 * j) 4,
          lpc := laneList.map fun j => rd (0x100 + 8 * j) 8 % 2 ^ 57 / 4 * 4,
          replay := (List.range (min n 24)).map fun j => readReplay rd (0x800 + 2048 * j) })

/-- A frame that a return refuses (15 R281 step 1). -/
def frameBad (t : Team) (f : Nat) (v : FrameView) : Bool :=
  v.valid ≠ 1 || 24 < v.nreplay || v.nfront = 0 || 32 < v.nfront || (v.replay.any fun e => isHint e.word) ||
  (v.front.zipIdx.any fun x => x.1.2 && !(t.held.any fun h => h.frame = f && h.idx = x.2))

/-- The restored frontier: a waiting entry takes up its armed condition, or its result if that has come (15 R281). -/
def restoreFront (t : Team) (f : Nat) (v : FrameView) : List Entry × List (Nat × Word) :=
  v.front.zipIdx.foldl (fun (acc : List Entry × List (Nat × Word)) x =>
    let used := acc.1.foldl (fun m e => m ||| e.mask) 0
    let e := { x.1.1 with mask := x.1.1.mask &&& t.live &&& ~~~used }
    if x.1.2 then
      match t.held.find? fun h => h.frame = f && h.idx = x.2 with
      | some h =>
        match h.result with
        | none => (acc.1 ++ [{ e with wait := h.entry.wait }], acc.2)
        | some r =>
          let ws := match h.entry.wait.bind Wait.dest, r with
            | some d, some w => [(d, w)]
            | _, _ => []
          let e := if h.entry.wait.any Wait.stays then e else { e with pc := (e.pc + 4) % 2 ^ 57 }
          (acc.1 ++ [e], acc.2 ++ ws)
      | none => (acc.1 ++ [e], acc.2)
    else (acc.1 ++ [e], acc.2)) ([], [])

/-- The team after a return (15 R281 steps 2 to 4): the replay queue is performed by the steps that follow. DESIGN CHOICE (log 92): the
lanes of an entry of FRONT take its PC, and LPC gives that of the other lanes. -/
def restoreTeam (t : Team) (f : Nat) (v : FrameView) (drop : Bool) : Team :=
  let (es, ws) := restoreFront t f v
  let tab (l : List Nat) : Tab Word := l.zipIdx.map fun x => (x.2, BitVec.ofNat 32 x.1)
  let t := { t with
    s := tab v.sregs
    p := tab v.pregs
    m := tab v.mregs
    front := rebuild es
    held := t.held.filter fun h => h.frame ≠ f
    guardMask := BitVec.ofNat 32 v.gmask
    guardLeft := v.gcount
    level := min v.level 1
    entering := false
    replayQ := if drop then v.replay.drop 1
      else v.replay.zipIdx.map fun x => { x.1 with run := x.2 = 0 && t.runFrames.contains f }
    replayWait := false
    parking := []
    runFrames := t.runFrames.filter fun x => x ≠ f
    late := t.late ++ t.owed
    owed := []
    deadPc := (v.lpc.zipIdx.filter fun x => !t.live.getLsbD x.2).map fun x => (x.2, (x.1, 0)) }
  joinChecks (ws.foldl (fun t w => Team.setScalar t w.1 w.2) t)

/-- An escalated frame is free again, and FRAMEBASE names the frame it named before (15 R282, log 24). -/
def leaveEscalation (s : State) (key f : Nat) : State :=
  match team? s key with
  | some t =>
    match t.escal with
    | (x, old) :: r =>
      let pk := x / 2 ^ 16
      if (region? s pk).any fun q => q.frameAt (x % 2 ^ 16) = f then
        let s := onRegion s pk fun q => { q with framesUsed := q.framesUsed.erase (x % 2 ^ 16) }
        setTeam s key { t with escal := r, frameLo := BitVec.ofNat 32 old, frameHi := BitVec.ofNat 32 (old / 2 ^ 32) }
      else s
    | [] => s
  | none => s

/-- The effect of a return from the frame read at an address (15 R281): VALID is cleared at its home. -/
def returnFrom (s : State) (key : Nat) (p : Place) (f : Nat) (v : FrameView) (drop : Bool) : State :=
  match team? s key with
  | none => s
  | some t =>
    let s := match devicePa s t.comp .wr f with
      | (s, some pa) =>
        let s := strongStore s p.core t.comp pa [0]
        if drop && v.nreplay ≠ 0 then strongStore s p.core t.comp (pa + 3) [BitVec.ofNat 8 (v.nreplay - 1)] else s
      | (s, none) => s
    let s := onTeam s key fun t => restoreTeam t f v drop
    -- a crew whose STOPREQ handler returns is stopped (15 R274)
    let s := if v.cause = 0x19 && stopping s t.comp p.core then
        (crewTeams s (crewOf key)).foldl (fun s k => onTeam s k fun t => { t with stopReq := true }) s else s
    leaveEscalation s key f

end Sys2Proof.Machine
end

