-- ==== Sys2Proof/Machine/Operands.lean ====
section
/-! DEFINITION. The operand forms: immediates (03 R42), effective addresses (R43), and the writing of results to vector
registers and latches (02 R14, R16), predicates (R15) and scalars. -/

namespace Sys2Proof.Machine

/-- A lane is active for the instruction. -/
def Ctx.active (c : Ctx) (i : Nat) : Bool := c.act.getLsbD i

/-- The immediate of a VI word (03 R42). -/
def Ctx.immVI (c : Ctx) (x : VI) : Word :=
  match c.hints.himm with
  | some p => BitVec.ofNat 32 (p * 2 ^ 7 + x.i.toNat)
  | none => x.i.signExtend 32

/-- The immediate of an SI word (03 R42). -/
def Ctx.immSI (c : Ctx) (x : SI) : Word :=
  match c.hints.himm with
  | some p => BitVec.ofNat 32 (p * 2 ^ 10 + x.i.toNat)
  | none => x.i.signExtend 32

/-- The byte offset of an M or AT word, modulo 2^`m` (03 R42, 08 R150). -/
def Ctx.offset (c : Ctx) (m : Nat) : Nat :=
  match c.hints.himm with
  | some p => Bits.sextNat p 25 m
  | none => 0

/-- A lane's effective address (03 R43): the base pair comes first among the scalars. -/
def Ctx.address (c : Ctx) (i : Nat) : Nat := (c.pair 0 + (c.v 0 0 i).val.toNat + c.offset 57) % 2 ^ 57

/-- A pair of vector registers of a slot as one 64-bit value, low word first. -/
def Ctx.v64 (c : Ctx) (slot i : Nat) : Nat := (c.v slot 0 i).val.toNat + 2 ^ 32 * (c.v slot 1 i).val.toNat

/-- A value enters b0, with +0 and tag 63 in the inactive lanes (02 R16). -/
def enterLatch (c : Ctx) (f : Nat → Cell) (s : State) : State :=
  let b := c.place.benchNo
  setBench s b (pushLatch (bench s b) (laneList.map fun i => if c.active i then f i else {}))

/-- One result per lane for D, unless W suppresses it, and for b0 (02 R16, 03 R41). -/
def writeVector (c : Ctx) (f : Nat → Cell) (s : State) : State :=
  let s := match c.shape.written with
    | some d => onTeam s c.key fun t => Team.setReg t d.1.toNat c.act f
    | none => s
  enterLatch c f s

/-- Several registers per lane from D: no latch (02 R16); code 124 discards them all (03 R38). -/
def writeGroup (c : Ctx) (n : Nat) (f : Nat → Nat → Cell) (s : State) : State :=
  match c.shape.written with
  | some d =>
    if d.1.toNat = 124 then s
    else onTeam s c.key fun t => (List.range n).foldl (fun t j => Team.setReg t (d.1.toNat + j) c.act (f j)) t
  | none => s

/-- A predicate result (02 R15). -/
def writePred (c : Ctx) (m : Word) (s : State) : State :=
  match c.shape.pd with
  | some p => onTeam s c.key fun t => Team.setPred t p.toNat c.act m
  | none => s

/-- A scalar result from D. -/
def writeScalars (c : Ctx) (xs : List Word) (s : State) : State :=
  match c.shape.sd with
  | some d => onTeam s c.key fun t => Team.setScalars t d.1.toNat xs
  | none => s

def writeScalar (c : Ctx) (x : Word) (s : State) : State := writeScalars c [x] s

/-- The two words of a 64-bit value, low word first. -/
def words64 (v : Nat) : List Word := [BitVec.ofNat 32 v, BitVec.ofNat 32 (v / 2 ^ 32)]

/-- The predicate that a field names, as the lanes that hold it. -/
def Ctx.pred (c : Ctx) (k : Nat) : Word := Team.pred c.team ((c.shape.ps.getD k 15).toNat)

/-- A per-lane operation on two words that writes tag 63 (04 R68). -/
def lanes2 (h : Shape) (f : Word → Word → Word) (s : State) : Host.Outcome State Fault Refusal :=
  perform h (fun c s => writeVector c (fun i => ⟨f (c.v 0 0 i).val (c.v 1 0 i).val, 63⟩) s) s

/-- A per-lane operation on one word that writes tag 63. -/
def lanes1 (h : Shape) (f : Word → Word) (s : State) : Host.Outcome State Fault Refusal :=
  perform h (fun c s => writeVector c (fun i => ⟨f (c.v 0 0 i).val, 63⟩) s) s

/-- A per-lane operation on A, B and the old D that writes tag 63 (05 R76). -/
def lanes3 (h : Shape) (f : Word → Word → Word → Word) (s : State) : Host.Outcome State Fault Refusal :=
  perform h (fun c s => writeVector c (fun i => ⟨f (c.v 0 0 i).val (c.v 1 0 i).val (c.v 2 0 i).val, 63⟩) s) s

/-- A per-lane operation on A and the immediate of a VI word (05 R81). -/
def lanesImm (x : VI) (f : Word → Word → Word) (s : State) : Host.Outcome State Fault Refusal :=
  perform (Shape.vi x) (fun c s => writeVector c (fun i => ⟨f (c.v 0 0 i).val (c.immVI x), 63⟩) s) s

/-- A scalar operation. -/
def scalarOp (h : Shape) (f : Ctx → List Word) (s : State) : Host.Outcome State Fault Refusal :=
  perform h (fun c s => writeScalars c (f c) s) s

end Sys2Proof.Machine
end

