-- ==== Sys2Proof/Machine/Control.lean ====
section
/-! DEFINITION. Branches and the control group, rejoin masks, spawning and barriers, majors 0x1A to 0x1E (07 R115 to R129). -/

namespace Sys2Proof.Machine

/-! ## Branches and calls, 0x1A and 0x1B (07 R117 to R120) -/

/-- The lanes of a mask. -/
def laneMask (i : Nat) : Word := maskOf fun j => j = i

/-- The lanes that take a B-format word: PG exclusive-ORed with N (03 R44). -/
def Ctx.taken (c : Ctx) (x : BF) : Word := c.act &&& (if x.n = 1 then ~~~(c.pred 0) else c.pred 0)

/-- The target of a B-format word (03 R44). -/
def Ctx.branchTarget (c : Ctx) (x : BF) : Nat := (c.cur.pc + 4 * Bits.sextNat x.off.toNat 19 57) % 2 ^ 57

/-- The two groups of lanes of a B-format word (07 R117). -/
def Ctx.split (c : Ctx) (x : BF) : List Entry :=
  let t := c.taken x
  [c.goTo (c.branchTarget x) t, c.goTo c.nextPc (c.cur.mask &&& ~~~t)]

/-- The link in v0:v1 of some lanes, with tag 63 (07 R119). -/
def writeLink (c : Ctx) (m : Word) (s : State) : State :=
  onTeam s c.key fun t =>
    Team.setReg (Team.setReg t 0 m fun _ => ⟨BitVec.ofNat 32 c.nextPc, 63⟩) 1 m fun _ =>
      ⟨BitVec.ofNat 32 (c.nextPc / 2 ^ 32), 63⟩

def execBra (x : BF) (s : State) :=
  performGated (Shape.bra x) (fun _ _ => .go) (fun c s => { s := s, moves := some (c.split x) }) s

def execCall (x : BF) (s : State) :=
  performGated (Shape.call x) (fun _ _ => .go)
    (fun c s => { s := writeLink c (c.taken x) s, moves := some (c.split x) }) s

/-- The checks on the targets of a transfer (07 R118): ALIGN over every active lane first, then ADDR. -/
def targetGate (c : Ctx) (target : Nat → Nat) : Gate :=
  match c.firstLane fun i => target i % 4 ≠ 0 with
  | some i => .trap { cause := 6, flane := i, faddr := target i }
  | none =>
    match c.firstLane fun i => 2 ^ 57 ≤ target i with
    | some i => .trap { cause := 8, flane := i, faddr := target i }
    | none => .go

def execRet (x : SF) (s : State) :=
  performGated (Shape.ret x) (fun c _ => targetGate c (c.v64 0))
    (fun c s => { s := s, moves := some ((lanesOf c.act).map fun i => c.goTo (c.v64 0 i) (laneMask i)) }) s

def execJmpi (x : SF) (s : State) :=
  performGated (Shape.jmpi x) (fun c _ => targetGate c fun _ => c.pair 0)
    (fun c s => { s := s, moves := some [c.goTo (c.pair 0) c.cur.mask] }) s

def execCalli (x : SF) (s : State) :=
  performGated (Shape.calli x) (fun c _ => targetGate c fun _ => c.pair 0)
    (fun c s => { s := writeLink c c.act s, moves := some [c.goTo (c.pair 0) c.cur.mask] }) s

/-- The lanes of a mask exit (07 R121). -/
def exitLanes (c : Ctx) (t : Team) : Team :=
  { t with
    live := t.live &&& ~~~c.act
    m := t.m.map fun x => (x.1, x.2 &&& ~~~c.act)
    deadPc := (t.deadPc.filter fun d => !c.act.getLsbD d.1) ++ (lanesOf c.act).map fun i => (i, (c.cur.pc, c.prio))
    front := dropLanes t.front c.act }

def execExit (x : SF) (s : State) :=
  performGated (Shape.exit x) (fun _ _ => .go) (fun c s =>
    let s := onTeam s c.key (exitLanes c)
    { s := if (team? s c.key).all (fun t => t.live = 0) then endTeam s c.key else s, moves := some [] }) s

def execYield (x : SF) (s : State) :=
  performGated (Shape.exit x) (fun _ _ => .go) (fun _ s => { s := s, yields := true }) s

def execNop (x : SF) (s : State) := perform (Shape.s0 0x1B x) (fun _ s => s) s

/-- BRK and TRAP: complete, and trap at their own PC with k (07 R120). -/
def softTrap (x : SF) (cause : Nat) (s : State) : Host.Outcome State Fault Refusal :=
  performGated (Shape.brk x) (fun _ _ => .go)
    (fun c s => { s := s, post := some { cause := cause, tpc := c.cur.pc, kval := x.b.toNat } }) s

def execBrk (x : SF) (s : State) := softTrap x 0xE s
def execTrap (x : SF) (s : State) := softTrap x 0xF s

def execPrioset (x : SF) (s : State) :=
  performGated (Shape.sA 0x1B x 1) (fun _ _ => .go)
    (fun c s => { s := s, moves := some [{ c.goTo c.nextPc c.cur.mask with prio := (c.s 0).toNat % 256 }] }) s

/-! ## Rejoin masks, 0x1C (07 R122, R123) -/

def execEnrol (m : BitVec 2) (x : SF) (s : State) :=
  perform (Shape.s0 0x1C x) (fun c s =>
    onTeam s c.key fun t => { t with m := Tab.put t.m m.toNat (Team.mask t m.toNat ||| c.act) }) s

def execJoinw (m : BitVec 2) (x : SF) (s : State) :=
  performGated (Shape.s0 0x1C x) (fun _ _ => .go) (fun c s =>
    let w := c.act &&& Team.mask c.team m.toNat
    { s := s, moves := some [c.goTo c.cur.pc w (some (.join m.toNat)), c.goTo c.nextPc (c.cur.mask &&& ~~~w)] }) s

def execJoinq (m : BitVec 2) (x : SF) (s : State) :=
  scalarOp (Shape.sD 0x1C x 1) (fun c => [Team.mask c.team m.toNat &&& ~~~joinWaiting c.team m.toNat]) s

def execMaskrd (m : BitVec 2) (x : SF) (s : State) :=
  scalarOp (Shape.sD 0x1C x 1) (fun c => [Team.mask c.team m.toNat]) s

/-! ## Spawning, 0x1D (07 R128, R129) -/

/-- The region a SPAWN names: its key. -/
def spawnRegion (x : XF) (c : Ctx) : Nat :=
  if x.k.getLsbD 0 then regionKey c.team.comp (c.pair 2) else c.team.region

/-- The checks of SPAWN (07 R128), a release: those of a region's RCB beyond its alignment are the model's choice (log 58). -/
def spawnGate (x : XF) (c : Ctx) (s : State) : Gate :=
  match targetGate c fun _ => c.pair 0 with
  | .go =>
    if x.k.getLsbD 0 then
      let a := c.pair 2
      let l := (c.firstLane fun _ => true).getD 0
      if a % 256 ≠ 0 then .trap { cause := 6, flane := l, faddr := a }
      else if 2 ^ 57 ≤ a then .trap { cause := 8, flane := l, faddr := a }
      else if (validate s c.team.comp a).2 then olderGate c s
      else .trap { cause := 7, flane := l, faddr := a }
    else olderGate c s
  | g => g

def execSpawn (x : XF) (s : State) :=
  performGated (Shape.spawn x) (spawnGate x) (fun c s =>
    let s := if x.k.getLsbD 0 then (validate s c.team.comp (c.pair 2)).1 else s
    let s := releaseAt s c.place.core 4
    { s := { s with spawning := s.spawning ++ (lanesOf c.act).map fun i =>
        ⟨c.place.core, c.team.comp, c.pair 0, spawnRegion x c, (c.v 0 0 i).val, x.k.toNat / 16, none⟩ } }) s

/-! ## Barriers, 0x1E (07 R125 to R127) -/

/-- A parking instruction parks, and its entry waits on `w` or goes on (07 R124). -/
def parkDone (c : Ctx) (s : State) (w : Option Wait) : Done :=
  match w with
  | some w => { s := s, moves := some (c.waitHere w), yields := true }
  | none => { s := s, yields := true }

/-- The current phase of a crew barrier. -/
def barPhase (s : State) (ck k : Nat) : Nat := (((crew? s ck).map fun c => (Tab.getD c.bars k {}).phase)).getD 0

/-- A team arrives at a crew barrier (07 R125): once per phase. -/
def arriveBar (s : State) (key k : Nat) : State :=
  let ck := crewOf key
  match crew? s ck with
  | none => s
  | some c =>
    let b := Tab.getD c.bars k {}
    let s := onTeam s key fun t => { t with arrived := Tab.put t.arrived k b.phase }
    let b := { b with arrived := Nat.lor b.arrived (2 ^ (key % 16)) }
    crewBarCheck (setCrew s ck { c with bars := Tab.put c.bars k b }) ck k

/-- BARA arrives: a release at .cw, so that older accesses come first. -/
def execBara (k : BitVec 4) (x : SF) (s : State) :=
  performGated (Shape.s0 0x1E x) olderGate (fun c s =>
    { s := arriveBar (releaseAt s c.place.core 2) c.key k.toNat }) s

/-- BARW waits for the current phase: the one the team last arrived in if that has not completed, and otherwise the current
one (07 R127). -/
def execBarw (k : BitVec 4) (x : SF) (s : State) :=
  performGated (Shape.parking (Shape.s0 0x1E x)) (fun _ _ => .go) (fun c s =>
    parkDone c (parkTeam s c.key c.carry) (some (.crewBar k.toNat (barPhase s (crewOf c.key) k.toNat)))) s

def execBaraw (k : BitVec 4) (x : SF) (s : State) :=
  performGated (Shape.parking (Shape.s0 0x1E x)) olderGate (fun c s =>
    let ck := crewOf c.key
    let ph := barPhase s ck k.toNat
    let s := arriveBar (releaseAt (parkTeam s c.key c.carry) c.place.core 2) c.key k.toNat
    parkDone c s (if barPhase s ck k.toNat = ph then some (.crewBar k.toNat ph) else none)) s

/-- A byte-count barrier of a crew. -/
def byteBar (s : State) (ck k : Nat) : ByteBar := ((crew? s ck).map fun c => Tab.getD c.bytes k {}).getD {}

def setByteBar (s : State) (ck k : Nat) (b : ByteBar) : State :=
  onCrew s ck fun c => { c with bytes := Tab.put c.bytes k b }

/-- A byte-count barrier's phase completes (07 R126): every waiter wakes with FAULT as its status, and acquires what arrived
(11 R220). -/
def completeByte (s : State) (ck k : Nat) (fault : Bool) : State :=
  let b := byteBar s ck k
  let waits (w : Wait) : Bool := match w with
    | .byteBar j ph _ | .promw j ph _ _ => j = k && ph = b.phase
    | _ => false
  let woken := s.teams.filter fun t => crewOf t.1 = ck && waitsOn waits t.2
  let s := woken.foldl (fun s t => b.dests.foldl (fun s r => acquireDest s (holdingCore s t.1 t.2) t.2.comp r) s) s
  let s := setByteBar s ck k
    { b with armed := false, arrived := 0, phase := (b.phase + 1) % 2 ^ 16, fault := fault, dests := [] }
  wakeAll s (fun key _ => crewOf key = ck) fun w =>
    match w with
    | .byteBar j ph _ | .promw j ph _ _ => if j = k && ph = b.phase then some (some (if fault then 1 else 0)) else none
    | _ => none

/-- The test of an armed barrier (07 R126). -/
def testByte (s : State) (ck k : Nat) : State :=
  let b := byteBar s ck k
  if b.armed && b.arrived = b.expect then completeByte s ck k false
  else if b.armed && b.expect < b.arrived then completeByte s ck k true
  else s

/-- Bytes arrive at a barrier, saturating (07 R126, R127). -/
def arriveBytes (s : State) (ck k n : Nat) : State :=
  let b := byteBar s ck k
  testByte (setByteBar s ck k { b with arrived := min (2 ^ 32 - 1) (b.arrived + n) }) ck k

def execBcbi (k : BitVec 4) (x : SF) (s : State) :=
  perform (Shape.s2 0x1E x 1 1) (fun c s =>
    let ck := crewOf c.key
    let b := byteBar s ck k.toNat
    if b.armed then writeScalar c 1 s
    else
      let s := writeScalar c 0 s
      testByte (setByteBar s ck k.toNat { b with expect := (c.s 0).toNat, armed := true }) ck k.toNat) s

def execBcbx (k : BitVec 4) (x : SF) (s : State) :=
  perform (Shape.sA 0x1E x 1) (fun c s =>
    let ck := crewOf c.key
    let b := byteBar s ck k.toNat
    if b.armed then
      let e := b.expect + (c.s 0).toNat
      if 2 ^ 32 ≤ e then completeByte (setByteBar s ck k.toNat { b with expect := 2 ^ 32 - 1 }) ck k.toNat true
      else testByte (setByteBar s ck k.toNat { b with expect := e }) ck k.toNat
    else s) s

def execBcba (k : BitVec 4) (x : SF) (s : State) :=
  performGated (Shape.sA 0x1E x 1) olderGate (fun c s =>
    { s := arriveBytes (releaseAt s c.place.core 2) (crewOf c.key) k.toNat (c.s 0).toNat }) s

/-- BCBW and PROMW: status 2 at once if the barrier is not armed (07 R127). -/
def waitByte (k : Nat) (w : ByteBar → Wait) (c : Ctx) (s : State) : Done :=
  let b := byteBar s (crewOf c.key) k
  let s := parkTeam s c.key c.carry
  if b.armed then parkDone c s (some (w b)) else parkDone c (writeScalar c 2 s) none

def execBcbw (k : BitVec 4) (x : SF) (s : State) :=
  performGated (Shape.parking (Shape.sD 0x1E x 1)) (fun _ _ => .go)
    (waitByte k.toNat fun b => .byteBar k.toNat b.phase x.d.toNat) s

def execPromw (k : BitVec 4) (x : SF) (s : State) :=
  performGated (Shape.parking (Shape.s2 0x1E x 1 2)) (fun _ _ => .go)
    (fun c s => waitByte k.toNat (fun b => .promw k.toNat b.phase (c.pair 0) x.d.toNat) c s) s

end Sys2Proof.Machine
end

