-- ==== Sys2Proof/Machine/Routes.lean ====
section
/-! DEFINITION. The links of a coach (21 R313, R314), the route to another coach (R318), and the claim group registers CLGk
that follow them (02 R28, 16 R285 to R287). -/

namespace Sys2Proof.Machine

/-- The link of this coach that joins a coach (21 R313). -/
def linkOf (s : State) (t : Nat) : Nat := (t + 31 - s.coach) % 16

/-- The number of a link between two other coaches in the table of links: link management tells their state (log 26). -/
def farLink (a b : Nat) : Nat := 16 * (min a b + 1) + (max a b - min a b - 1)

def linkUp (s : State) (l : Nat) : Bool := (Tab.getD s.links l {}).up

/-- The way to a coach (21 R318). -/
inductive Route where
  | none
  | direct
  | relay (r : Nat)
  deriving DecidableEq, Repr

/-- The lowest coach whose links to both ends are up (21 R318). -/
def relayOf (s : State) (t : Nat) : Option Nat :=
  (List.range s.trainSize).find? fun r => r ≠ s.coach && r ≠ t && linkUp s (linkOf s r) && linkUp s (farLink r t)

/-- The route that traffic to a coach takes now. -/
def routeTo (s : State) (t : Nat) : Route :=
  if !s.trainEn || s.trainSize ≤ t || t = s.coach then .none
  else if linkUp s (linkOf s t) then .direct
  else match relayOf s t with
    | some r => .relay r
    | none => .none

/-- The compartment that holds a core (22 R332). -/
def coreComp (s : State) (k : Nat) : Option Nat :=
  (s.comps.find? fun c => c.2.desc.state ≠ 0 && c.2.desc.clusters.getLsbD (k / 4)).map (·.1)

/-- The deck of a core: deck 0 holds clusters 0 to 7 (00 R2). -/
def deckOf (k : Nat) : Nat := k / 32

/-- A member identifier names a core of another coach, and its fields (08 R174). -/
def memberPeer (m : Word) : Bool := m.getLsbD 12
def memberCoach (m : Word) : Nat := Bits.fld m 8 4
def memberCore (m : Word) : Nat := Bits.fld m 0 6

/-- The physical core of a member of this coach. -/
def localMember (s : State) (c : Nat) (m : Word) : Option Nat :=
  if memberPeer m then none else physicalCore s c (memberCore m)

/-- The span of the current path from a core to a member (16 R285): none reaches it, or 0 to 3. -/
def pathSpan (s : State) (k c : Nat) (m : Word) : Option Nat :=
  if memberPeer m then
    match routeTo s (memberCoach m) with
    | .direct => some 2
    | .relay _ => some 3
    | .none => none
  else (localMember s c m).map fun j => if deckOf j = deckOf k then 0 else 1

/-- The members of a group as a core holds them. -/
def groupOf (s : State) (k g : Nat) : Group := Tab.getD (core s k).groups g {}

/-- The rank of a core in its copy of a group (02 R28). -/
def rankOf (s : State) (k c g : Nat) : Option Nat :=
  ((groupOf s k g).members.find? fun m => localMember s c m.2 = some k).map (·.1)

/-- CLGk.SPAN (02 R28): a member that no path reaches counts as the longest path (log 27). -/
def groupSpan (s : State) (k c g : Nat) : Nat :=
  (groupOf s k g).members.foldl (fun n m => max n ((pathSpan s k c m.2).getD 3)) 0

/-- CLGk as MFC reads it (02 R28). -/
def clg (s : State) (k c g : Nat) : Word :=
  match rankOf s k c g with
  | none => 0
  | some r => BitVec.ofNat 32 (1 + 2 * r + 2 ^ 7 * ((groupOf s k g).members.length - 1) + 2 ^ 13 * groupSpan s k c g)

/-- The one-way bound of a span in beats (16 R285). -/
def spanBound : Nat → Nat
  | 0 => 24
  | 1 => 48
  | 2 => 400
  | _ => 800

end Sys2Proof.Machine
end

