-- ==== Sys2Proof/Machine/Fabric.lean ====
section
/-! DEFINITION. What a coach sends over its links: flits (21 R315), the sub-link of a compartment (R316), the messages of
R317 over the route of R318, and the store streams of 11 R214 to R217 with their losses. -/

namespace Sys2Proof.Machine

def link (s : State) (l : Nat) : Link := Tab.getD s.links l {}

def setLink (s : State) (l : Nat) (x : Link) : State := { s with links := Tab.put s.links l x }

/-- The sub-links of a link that a compartment owns (21 R316). -/
def ownSubs (s : State) (l c : Nat) : List Nat :=
  let x := link s l
  (List.range (if x.split then 4 else 1)).filter fun q => x.valid.testBit q && Tab.getD x.own q 0 = c

/-- The instance of the fabric injection queues that a sub-link has (13 R247), and the relay class of a link, 4 (21 R319, log 87). -/
def fiqInst (l q : Nat) : Nat := 5 * l + q

/-- A flit of a class leaves on a link, with the credits that are to be returned; it is kept for 512 flits (21 R315). -/
def emitFlit (s : State) (l : Nat) (f : Flit) (cls : Option Nat) : State :=
  let x := link s l
  let buf := x.buffer ++ [{ f with lseq := BitVec.ofNat 12 x.txSeq, credit := (List.range 5).map fun q => Tab.getD x.owedCr q 0 }]
  setLink s l { x with
    txSeq := (x.txSeq + 1) % 4096, buffer := buf.drop (buf.length - 512), owedCr := []
    unreturned := match cls with
      | some q => Tab.put x.unreturned q (Tab.getD x.unreturned q 0 + 1)
      | none => x.unreturned }

/-- A message leaves on a link in a flit of its own, of a sub-link or of the relay class (21 R315, R319). -/
def emit (s : State) (l q : Nat) (relay : Option Nat) (coach : Nat) (m : FabMsg) : State :=
  let f : Flit := { lseq := 0, kind := 0, sub := if relay.isSome then 0 else BitVec.ofNat 2 q, relay := relay.isSome, crcOk := true,
                    dest := coach, msgs := [m] }
  let s := emitFlit s l f (some (if relay.isSome then 4 else q))
  { s with out := s.out ++ [.fabric coach relay m] }

/-- Credits that are to be returned and no flit has taken go in an idle flit (21 R315). -/
def emitIdle (s : State) (l : Nat) : State :=
  let x := link s l
  if x.owedCr.all fun c => c.2 = 0 then s
  else
    let cr := (List.range 5).map fun q => Tab.getD x.owedCr q 0
    let s := emitFlit s l { lseq := 0, kind := 1, sub := 0, relay := false, crcOk := true, dest := 0, msgs := [] } none
    { s with out := s.out ++ [.idle l cr] }

/-- The link, the sub-link or relay class, and the relay that a message to a coach takes now, on a sub-link of its own compartment's
(21 R316, R318). -/
def roadTo (s : State) (coach : Nat) (sub : Option Nat) : Option (Nat × Nat × Option Nat) :=
  match routeTo s coach with
  | .none => none
  | .direct => sub.map fun q => (linkOf s coach, q, none)
  | .relay r => some (linkOf s r, 4, some r)

/-- Send a message to a coach over the route that holds now; none while it cannot advance (21 R316, R318). -/
def sendMsg (s : State) (coach : Nat) (sub : Option Nat) (m : FabMsg) : Option State :=
  match roadTo s coach sub with
  | none => none
  | some (l, q, relay) => if stalled s 5 (fiqInst l q) then none else some (emit s l q relay coach m)

/-- The sub-link of an answer: the lowest that its compartment owns (log 87). -/
def answerSub (s : State) (c coach : Nat) : Option Nat := (ownSubs s (linkOf s coach) c).head?

/-- A message that answers one waits for its sub-link behind the others that do (21 R315). -/
def sendBack (s : State) (c coach : Nat) (m : FabMsg) : State :=
  if s.answers.any fun a => a.1 = c && a.2.1 = coach then { s with answers := s.answers ++ [(c, coach, m)] }
  else (sendMsg s coach (answerSub s c coach) m).getD { s with answers := s.answers ++ [(c, coach, m)] }

/-- Answers that waited go out. -/
def flushAnswers (s : State) : State :=
  s.answers.foldl (fun s a => sendBack s a.1 a.2.1 a.2.2) { s with answers := [] }

/-- A relay of the route that holds now. -/
def routeRelay (s : State) (coach : Nat) : Option Nat :=
  match routeTo s coach with
  | .relay r => some r
  | _ => none

/-- The name of a team's store stream (11 R214, 21 R329 STREAM). -/
def streamOf (key : Nat) : Nat := key / 2 ^ 24 + 2 ^ 4 * (key / 16 % 2 ^ 20) + 2 ^ 24 * (key % 16)

/-- The team that a stream belongs to. -/
def streamTeam (stream : Nat) : Nat := stream % 16 * 2 ^ 24 + stream / 16 % 2 ^ 20 * 16 + stream / 2 ^ 24 % 16

/-- A coach has been declared unreachable (21 R321): the table holds 0 then, and otherwise one more than the cycle since which
no route exists. -/
def unreachableCoach (s : State) (coach : Nat) : Bool := Tab.get? s.reach coach = some 0

/-- The streams that a team inherits (11 R223): its trunk's, and those which that one inherited. -/
def heirChain (s : State) : Nat → Nat → List Nat
  | 0, _ => []
  | n + 1, key =>
    match Tab.get? s.heirs key with
    | some p => p :: heirChain s n p
    | none => []

def heirOf (s : State) (key : Nat) : List Nat := heirChain s s.heirs.length key

/-- The stream of a team on another coach, as a team that inherits it names it (11 R223). -/
def foreignStream (coach key : Nat) : Nat := key + 2 ^ 40 * (coach + 1)

/-- The writes of the streams that a team inherits which are not acknowledged: of another coach's, whether there are any (log
80). -/
def inherited (s : State) (key : Nat) : Nat :=
  (s.streams.filter fun x => (heirOf s key).contains x.team).foldl (fun n x => n + x.unacked.length + x.waiting.length)
    ((heirOf s key).filter fun k => 2 ^ 40 ≤ k).length

/-- Losses of a stream are counted in the team that has it, or kept for what a trunk of that team becomes. -/
def countLost (n : Nat) (s : State) (key : Nat) : State :=
  if (team? s key).isSome then onTeam s key fun t => { t with lost := t.lost + n }
  else { s with lateLost := Tab.put s.lateLost key (Tab.getD s.lateLost key 0 + n) }

/-- The teams that inherit a stream, those that a trunk holds included (11 R223). -/
def heirsOf (s : State) (key : Nat) : List Nat := (Tab.keys s.heirs).filter fun k => (heirOf s k).contains key

/-- Writes of a stream towards a coach are lost (11 R216, 21 R321, R322): one record, each counted once in its team and in every
team that inherits the stream. -/
def loseWrites (s : State) (key coach n seq0 seq1 info : Nat) (sent : Bool) : State :=
  let s := onTeam s key fun t => { t with outst := if sent then t.outst - n else t.outst }
  let s := (key :: heirsOf s key).foldl (countLost n) s
  pushErr s (key / 2 ^ 24)
    { code := 6, info := info, stream := streamOf key + 2 ^ 28 * coach, seq0 := seq0, seq1 := seq1 }

/-- The streams of other coaches that teams inherit end when their own coaches find nothing outstanding in them; each heir raises
their losses once (11 R223). DESIGN CHOICE (log 80): when that is, and how many were lost, comes from the environment. -/
def settleForeign (s : State) : State :=
  s.heirs.foldl (fun s h =>
    if h.2 < 2 ^ 40 then s
    else
      match Config.streamSettled (h.2 / 2 ^ 40 - 1) (streamOf (h.2 % 2 ^ 40)) s.time with
      | none => s
      | some n => (h.1 :: heirsOf s h.1).foldl (countLost n) { s with heirs := Tab.del s.heirs h.1 }) s

/-- The sub-stream of a team towards a coach. -/
def subStream (s : State) (key coach : Nat) : SubStream :=
  (s.streams.find? fun x => x.team = key && x.coach = coach).getD
    { team := key, coach := coach, unacked := [], relay := none, waiting := [], idleSince := s.time }

def setSubStream (s : State) (x : SubStream) : State :=
  { s with streams := s.streams.filter (fun y => !(y.team = x.team && y.coach = x.coach)) ++ [x] }

/-- The coach that a request has gone to. -/
def Req.awayTo (s : State) (r : Req) : Option Nat :=
  match r.stage, r.pa with
  | .away _, some pa =>
    match paClass s pa with
    | .peer t => some t
    | _ => none
  | _, _ => none

/-- What a command has asked a coach for and has not come. -/
def Copy.pendingRoads (x : Copy) : List (Nat × Nat × Option Nat × Nat) := x.roads.filter fun p => (Tab.get? x.have' p.1).isNone

/-- The ways on which messages of a team to a coach are on their way: those of its unacknowledged writes and of its requests
(21 R318). -/
def sentVia (s : State) (key coach : Nat) : List (Option Nat) :=
  let x := subStream s key coach
  (if x.unacked = [] then [] else [x.relay]) ++
  ((s.reqs.filter fun r => r.team = key && r.awayTo s = some coach).map (·.via)) ++
  (s.copies.filter fun y => y.via = key).flatMap fun y => (y.pendingRoads.filter fun p => p.2.1 = coach).map (·.2.2.1)

/-- No message of a team may take the way to a coach that holds now: others are on another, or writes are still to be sent again
(21 R318). -/
def otherRoad (s : State) (x : SubStream) : Bool := x.cut || (sentVia s x.team x.coach).any fun v => v ≠ routeRelay s x.coach

/-- New messages wait while others are on another way (21 R318), or behind writes that wait; those that HRLX is bound to are not
waited for (11 R214). -/
def mustWait (s : State) (x : SubStream) : Bool := otherRoad s x || x.waiting.any fun w => !x.relaxed.contains w.seq

/-- The sub-link that a team's messages to a coach take: while writes are unacknowledged, theirs (21 R316, log 87). -/
def subFor (s : State) (key coach : Nat) : Option Nat :=
  let x := subStream s key coach
  let os := ownSubs s (linkOf s coach) (key / 2 ^ 24)
  if x.unacked ≠ [] && os.contains x.sub then some x.sub else os[key % os.length]?

/-- The next sequence of a team's sub-stream towards a coach. -/
def seqOf (s : State) (key coach : Nat) : Nat := Tab.getD s.seqs (16 * key + coach) 0

/-- The next sequence of a sub-stream is taken: past 2^40 − 1 it begins again at 0 after a retire (21 R320). -/
def takeSeq (s : State) (key coach : Nat) : Option (State × Nat) :=
  let q := seqOf s key coach
  let put (s : State) (n : Nat) : State := { s with seqs := Tab.put s.seqs (16 * key + coach) n }
  if q < 2 ^ 40 then some (put s (q + 1), q)
  else
    let x := subStream s key coach
    if x.unacked ≠ [] || x.waiting ≠ [] then none
    else (sendMsg s coach (subFor s key coach) (.retire (streamOf key) s.coach)).map fun s => (put s 1, 0)

/-- The sequence of a write: the one that its request has taken already, or the next (13 R253). -/
def seqFor (s : State) (key coach : Nat) : Option Nat → Option (State × Nat)
  | some q => some (s, q)
  | none => takeSeq s key coach

/-- HRLX never waives the order of one team's accesses to one line: the younger of two is held back until the older one is
performed (11 R214). -/
def heldBack (s : State) (key coach addr : Nat) (rlx : Bool) : Bool :=
  let x := subStream s key coach
  ((x.unacked ++ x.waiting).any fun w => w.addr / 64 = addr / 64 && (rlx || x.relaxed.contains w.seq)) ||
  s.reqs.any fun r => r.team = key && (rlx || r.rlx) && r.pa.any (fun p => p / 64 % 2 ^ 38 = addr / 64) &&
    match r.stage with
    | .away _ => true
    | _ => false

/-- Writes in the order of their sequences, one more among them. -/
def inSequence (w : RemoteWrite) (l : List RemoteWrite) : List RemoteWrite :=
  l.takeWhile (fun v => v.seq < w.seq) ++ w :: l.dropWhile fun v => v.seq < w.seq

/-- A store or reduction is posted into its team's stream, under a sequence that it may have taken (11 R214, R216, 21 R320); none
while it cannot advance. -/
def postRemote (s : State) (key coach addr : Nat) (mask : BitVec 64) (data : List Byte) (red : Option Nat)
    (rlx : Bool) (pre : Option Nat := none) : Option State :=
  let x := subStream s key coach
  if unreachableCoach s coach then
    -- every store carries the next value of the sequence, a lost one included (11 R216)
    match seqFor s key coach pre with
    | some (s, q) => some (loseWrites s key coach 1 q q 1 false)
    | none => some (loseWrites { s with seqs := Tab.put s.seqs (16 * key + coach) 1 } key coach 1 0 0 1 false)
  else if 1024 ≤ x.unacked.length + x.waiting.length then none
  else
    match seqFor s key coach pre with
    | none => none
    | some (s, q) =>
      let w : RemoteWrite := { stream := streamOf key, coach := s.coach, owner := key / 2 ^ 24, seq := q, addr := addr,
                               mask := mask, data := data, red := red }
      let out (s : State) : State := onTeam s key fun t => { t with outst := t.outst + 1 }
      let y := if rlx then { x with relaxed := x.relaxed ++ [q] } else x
      if otherRoad s x || (!rlx && mustWait s x) then some (out (setSubStream s { y with waiting := inSequence w x.waiting }))
      else
        let sub := subFor s key coach
        (sendMsg s coach sub (.write w)).map fun s =>
          out (setSubStream s { y with unacked := inSequence w x.unacked, relay := routeRelay s coach, sub := sub.getD 0 })

/-- A read or atomic request to a peer (21 R317): it follows the sub-stream's posted writes, unless HRLX is bound to it (11
R214). -/
def askRemote (s : State) (key coach tag addr size : Nat) (op : Option (Nat × List Word)) (rlx : Bool := false) : Option State :=
  let x := subStream s key coach
  if otherRoad s x || (!rlx && mustWait s x) then none
  else
    (sendMsg (setSubStream s { x with idleSince := s.time }) coach (subFor s key coach) (.read
      { stream := streamOf key, coach := s.coach, owner := key / 2 ^ 24, tag := tag, addr := addr, size := size, op := op }))

/-- Bytes that lie in one page of a peer or of the host are stored on a team's stream; none while a store cannot leave. -/
def storeAway (s : State) (key pa : Nat) (bs : List Byte) : Option State :=
  match paClass s pa with
  | .peer coach =>
    (List.range ((pa + bs.length - 1) / 64 - pa / 64 + 1)).foldl (fun s j => s.bind fun s =>
      let line := pa / 64 + j
      let lo := max pa (64 * line)
      let n := min (pa + bs.length) (64 * line + 64) - lo
      postRemote s key coach (64 * line % 2 ^ 44) (BitVec.ofNat 64 (byteMask (lo - 64 * line) n))
        (List.replicate (lo - 64 * line) 0 ++ (bs.drop (lo - pa)).take n ++ List.replicate (64 * line + 64 - lo - n) 0) none false) (some s)
  | .host => some { s with out := s.out ++ [.hostWrite (pa - 0x8000000000000) bs false] }
  | _ => some s

/-- A team's stream has nothing outstanding. -/
def streamQuiet (s : State) (key : Nat) : Bool := s.streams.all fun x => x.team ≠ key || (x.unacked = [] && x.waiting = [])

/-- A reduction of a word at a coach: the operation code, the word's address and its operand (21 R317). -/
def reduceRemote (s : State) (key coach pa op v : Nat) : Option State :=
  let off := pa % 64
  postRemote s key coach (pa % 2 ^ 44 / 64 * 64) (BitVec.ofNat 64 (15 * 2 ^ off))
    (List.replicate off 0 ++ Bits.leBytes 4 v ++ List.replicate (60 - off) 0) (some op) false

/-- Writes that waited go out once no message is on another way (21 R318), and the backoff of a refusal has passed (R320); writes
that HRLX is bound to hold nothing back. -/
def flushWaiting (s : State) (key coach : Nat) : State :=
  let x := subStream s key coach
  if !otherRoad s x && x.waiting ≠ [] && x.backoff ≤ clk s x.backoffCore then
    let sub := subFor s key coach
    let go := x.waiting.foldl (fun (acc : State × List RemoteWrite × List RemoteWrite) w =>
      let (s, sent, kept) := acc
      if kept ≠ [] then (s, sent, kept ++ [w])
      else match sendMsg s coach sub (.write w) with
        | some s => (s, sent ++ [w], kept)
        | none => (s, sent, [w])) (s, [], [])
    setSubStream go.1 { x with
      unacked := go.2.1.foldl (fun l w => inSequence w l) x.unacked, waiting := go.2.2
      relay := if go.2.1 = [] then x.relay else routeRelay s coach
      sub := if go.2.1 = [] then x.sub else sub.getD 0 }
  else s

/-- The unacknowledged writes of a stream whose route broke are sent again over the route that holds now, in sequence order,
before any newer message (21 R318). -/
def resendStream (s : State) (x : SubStream) : State :=
  if x.cut && routeTo s x.coach ≠ .none then
    let go := x.unacked.foldl (fun s w => s.bind fun s => sendMsg s x.coach (subFor s x.team x.coach) (.write w)) (some s)
    match go with
    | some t => setSubStream t { x with cut := false, relay := routeRelay s x.coach, sub := (subFor s x.team x.coach).getD 0 }
    | none => s
  else s

/-- The number of a team's next write towards a coach. -/
def nextSeq (s : State) (key coach : Nat) : Nat := if seqOf s key coach < 2 ^ 40 then seqOf s key coach else 0

/-- The name of a line's store at a peer, by its coach and its sequence. -/
def awaySeq (s : State) (key pa : Nat) : List (Nat × Nat) :=
  match paClass s pa with
  | .peer coach => [(coach, nextSeq s key coach)]
  | _ => []

/-- Lines are stored at a peer or the host until one cannot leave: the state, the sequences of those that have left for a peer, and
those that are left. -/
def sendLines (key : Nat) (s : State) : List (Nat × List Byte) → State × List (Nat × Nat) × List (Nat × List Byte)
  | [] => (s, [], [])
  | (pa, bs) :: r =>
    match storeAway s key pa bs with
    | some t =>
      let (u, sent, rest) := sendLines key t r
      (u, awaySeq s key pa ++ sent, rest)
    | none => (s, [], (pa, bs) :: r)

/-- A sequence that a request has taken and will not use goes out with no byte, so that those above it can be acknowledged (log
88). -/
def fillSeq (s : State) (key coach q : Nat) : State :=
  let x := subStream s key coach
  let w : RemoteWrite := { stream := streamOf key, coach := s.coach, owner := key / 2 ^ 24, seq := q, addr := 0, mask := 0,
                           data := List.replicate 64 0, red := none }
  onTeam (setSubStream s { x with waiting := inSequence w x.waiting }) key fun t => { t with outst := t.outst + 1 }

end Sys2Proof.Machine
end

