-- ==== Sys2Proof/Machine/Num.lean ====
section
/-! DEFINITION. Floating-point formats, decoding, rounding and exact arithmetic (04 R56, R57, R59, R63 to R66). -/

namespace Sys2Proof.Machine

/-- How a format's top exponent is read (04 R56). -/
inductive Special where
  | ieee
  | e4m3
  | none
  deriving DecidableEq, Repr

/-- A floating-point format: exponent bits, fraction bits, bias (04 R56). -/
structure Format where
  eb : Nat
  mb : Nat
  bias : Nat
  special : Special
  deriving DecidableEq, Repr

def f64 : Format := ⟨11, 52, 1023, .ieee⟩
def f32 : Format := ⟨8, 23, 127, .ieee⟩
def f16 : Format := ⟨5, 10, 15, .ieee⟩
def bf16 : Format := ⟨8, 7, 127, .ieee⟩
def e4m3 : Format := ⟨4, 3, 7, .e4m3⟩
def e5m2 : Format := ⟨5, 2, 15, .ieee⟩
def e2m1 : Format := ⟨2, 1, 1, .none⟩

/-- A value: a finite one is m × 2^e with its sign. -/
inductive Fval where
  | nan (signalling : Bool)
  | inf (neg : Bool)
  | fin (neg : Bool) (m : Nat) (e : Int)
  deriving DecidableEq, Repr

/-- The flags IV, DZ, OF, UF, NX of FPSTAT (02 R24). -/
structure FFlags where
  iv : Bool := false
  dz : Bool := false
  of : Bool := false
  uf : Bool := false
  nx : Bool := false
  deriving DecidableEq, Repr

/-- The union of two sets of flags. -/
def FFlags.or (a b : FFlags) : FFlags := ⟨a.iv || b.iv, a.dz || b.dz, a.of || b.of, a.uf || b.uf, a.nx || b.nx⟩

/-- FPSTAT bits 0 to 4. -/
def FFlags.bits (a : FFlags) : Nat :=
  (if a.iv then 1 else 0) + (if a.dz then 2 else 0) + (if a.of then 4 else 0) + (if a.uf then 8 else 0) + if a.nx then 16 else 0

/-- The width of a format in bits. -/
def Format.width (f : Format) : Nat := 1 + f.eb + f.mb

/-- The sign bit in place. -/
def Format.sign (f : Format) (neg : Bool) : Nat := if neg then 2 ^ (f.eb + f.mb) else 0

/-- Decode an encoding (04 R56, R57). -/
def decodeF (f : Format) (x : Nat) : Fval :=
  let neg := x.testBit (f.eb + f.mb)
  let e := x / 2 ^ f.mb % 2 ^ f.eb
  let m := x % 2 ^ f.mb
  let top := 2 ^ f.eb - 1
  if f.special = .ieee && e = top then
    (if m = 0 then .inf neg else .nan (f.mb ≠ 2 && !m.testBit (f.mb - 1)))
  else if f.special = .e4m3 && e = top && m = 7 then .nan false
  else if e = 0 then .fin neg m (1 - (f.bias : Int) - f.mb)
  else .fin neg (2 ^ f.mb + m) ((e : Int) - f.bias - f.mb)

/-- The canonical NaN of a format (04 R57, R65). -/
def Format.nan (f : Format) : Nat :=
  match f.special with
  | .ieee => (2 ^ f.eb - 1) * 2 ^ f.mb + 2 ^ (f.mb - 1)
  | .e4m3 => 0x7F
  | .none => 0

/-- Infinity. -/
def Format.inf (f : Format) (neg : Bool) : Nat := f.sign neg + (2 ^ f.eb - 1) * 2 ^ f.mb

/-- The largest finite magnitude's encoding (04 R56). -/
def Format.maxBits (f : Format) : Nat :=
  match f.special with
  | .ieee => (2 ^ f.eb - 1) * 2 ^ f.mb - 1
  | .e4m3 => 0x7E
  | .none => 2 ^ (f.eb + f.mb) - 1

/-- Round m / 2^k to an integer in a mode, and whether it was inexact (04 R63). -/
def roundShift (mode : Nat) (neg : Bool) (m k : Nat) : Nat × Bool :=
  if k = 0 then (m, false)
  else
    let q := m / 2 ^ k
    let r := m % 2 ^ k
    let half := 2 ^ (k - 1)
    let up : Bool :=
      match mode with
      | 0 => half < r || (r = half && q % 2 = 1)
      | 1 => false
      | 2 => !neg && 0 < r
      | 3 => neg && 0 < r
      | _ => half ≤ r
    (if up then q + 1 else q, r ≠ 0)

/-- Round m × 2^e to a multiple of 2^qe. -/
def roundAt (mode : Nat) (neg : Bool) (m : Nat) (e qe : Int) : Nat × Bool :=
  if qe ≤ e then (m * 2 ^ (e - qe).toNat, false) else roundShift mode neg m (qe - e).toNat

/-- floor(log2 |m × 2^e|) for a non-zero m: exp() of 01 R10. -/
def expOf (m : Nat) (e : Int) : Int := e + Nat.log2 m

/-- What an overflow delivers (04 R64, R65, 06 R109). -/
def overflowBits (f : Format) (mode : Nat) (neg sat : Bool) : Nat :=
  let toInf : Bool :=
    match mode with
    | 0 | 4 => true
    | 1 => false
    | 2 => !neg
    | _ => neg
  if f.special = .ieee && toInf && !sat then f.inf neg else f.sign neg + f.maxBits

/-- Round m × 2^e to a format (04 R63, R64): its encoding and flags. `sat` saturates (06 R109). -/
def roundTo (f : Format) (mode : Nat) (sat neg : Bool) (m : Nat) (e : Int) : Nat × FFlags :=
  if m = 0 then (f.sign neg, {})
  else
    let x := expOf m e
    let emin : Int := 1 - f.bias
    let sub := emin - f.mb
    let qe := max (x - f.mb) sub
    let (n, inexact) := roundAt mode neg m e qe
    let full := 2 ^ (f.mb + 1)
    let tiny : Bool := x < emin && !(x = emin - 1 && (roundAt mode neg m e (x - f.mb)).1 = full)
    -- n × 2^qe, where qe is the subnormal quantum or gives n its full width
    let bits := if qe = sub then n else n + ((qe - sub).toNat) * 2 ^ f.mb
    if f.maxBits < bits then (overflowBits f mode neg sat, { of := true, nx := true })
    else (f.sign neg + bits, { uf := tiny && inexact, nx := inexact })

/-- A value known to lie strictly between m × 2^e and (m + 1) × 2^e, or equal to m × 2^e. -/
def sticky (m : Nat) (e : Int) (exact : Bool) : Nat × Int := if exact then (m, e) else (2 * m + 1, e - 1)

/-- The exact sum of two signed dyadics. -/
def addExact (na : Bool) (ma : Nat) (ea : Int) (nb : Bool) (mb : Nat) (eb : Int) : Bool × Nat × Int :=
  let e := min ea eb
  let a := ma * 2 ^ (ea - e).toNat
  let b := mb * 2 ^ (eb - e).toNat
  if na = nb then (na, a + b, e)
  else if b ≤ a then (na, a - b, e)
  else (nb, b - a, e)

/-- The sign of an exact zero sum (04 R63). -/
def zeroSign (mode : Nat) (aZero na bZero nb : Bool) : Bool := if aZero && bZero && na = nb then na else mode = 3

/-- IV for signalling NaN operands (04 R57, R66). -/
def sNaN : Fval → Bool
  | .nan s => s
  | _ => false

def isNaN : Fval → Bool
  | .nan _ => true
  | _ => false

/-- A canonical NaN with IV. -/
def invalid (f : Format) : Nat × FFlags := (f.nan, { iv := true })

/-- Rounded sum of two values (06 R99). -/
def addF (f : Format) (mode : Nat) (a b : Fval) : Nat × FFlags :=
  match a, b with
  | .fin na ma ea, .fin nb mb eb =>
    let (n, m, e) := addExact na ma ea nb mb eb
    if m = 0 then (f.sign (zeroSign mode (ma = 0) na (mb = 0) nb), {}) else roundTo f mode false n m e
  | .inf na, .inf nb => if na = nb then (f.inf na, {}) else invalid f
  | .inf na, .fin .. => (f.inf na, {})
  | .fin .., .inf nb => (f.inf nb, {})
  | a, b => (f.nan, { iv := sNaN a || sNaN b })

/-- Negation of a value. -/
def negF : Fval → Fval
  | .nan s => .nan s
  | .inf n => .inf !n
  | .fin n m e => .fin (!n) m e

/-- The exact product: NaN marked signalling where it raises IV (06 R101). -/
def mulExact (a b : Fval) : Fval :=
  match a, b with
  | .fin na ma ea, .fin nb mb eb => .fin (na != nb) (ma * mb) (ea + eb)
  | .inf na, .fin nb mb _ => if mb = 0 then .nan true else .inf (na != nb)
  | .fin na ma _, .inf nb => if ma = 0 then .nan true else .inf (na != nb)
  | .inf na, .inf nb => .inf (na != nb)
  | a, b => .nan (sNaN a || sNaN b)

/-- Rounding of any value. -/
def roundF (f : Format) (mode : Nat) (sat : Bool) : Fval → Nat × FFlags
  | .nan s => (f.nan, { iv := s })
  | .inf n => (f.inf n, {})
  | .fin n m e => roundTo f mode sat n m e

/-- Rounded product (06 R99). -/
def mulF (f : Format) (mode : Nat) (a b : Fval) : Nat × FFlags := roundF f mode false (mulExact a b)

/-- Fused multiply-add of an exact product and an addend: one rounding (06 R101). -/
def fmaF (f : Format) (mode : Nat) (p c : Fval) : Nat × FFlags := addF f mode p c

/-- Rounded quotient (06 R101). -/
def divF (f : Format) (mode : Nat) (a b : Fval) : Nat × FFlags :=
  match a, b with
  | .fin na ma ea, .fin nb mb eb =>
    if mb = 0 then (if ma = 0 then invalid f else (f.inf (na != nb), { dz := true }))
    else
      let k := f.mb + 4 + (Nat.log2 mb + 1)
      let q := ma * 2 ^ k / mb
      let (m, e) := sticky q (ea - eb - k) (ma * 2 ^ k % mb = 0)
      roundTo f mode false (na != nb) (if ma = 0 then 0 else m) e
  | .fin na _ _, .inf nb => (f.sign (na != nb), {})
  | .inf na, .fin nb _ _ => (f.inf (na != nb), {})
  | .inf _, .inf _ => invalid f
  | a, b => (f.nan, { iv := sNaN a || sNaN b })

/-- The integer square root, bit by bit from 2^(n-1). -/
def isqrt (x : Nat) : Nat → Nat → Nat
  | 0, r => r
  | n + 1, r => isqrt x n (if (r + 2 ^ n) * (r + 2 ^ n) ≤ x then r + 2 ^ n else r)

/-- The exact square root of m × 2^e, with at least `p` bits. -/
def sqrtExact (p m : Nat) (e : Int) : Nat × Int :=
  let k := 2 * p + (if e % 2 = 0 then 0 else 1)
  let x := m * 2 ^ k
  let r := isqrt x (Nat.log2 x / 2 + 2) 0
  sticky r ((e - k) / 2) (r * r = x)

/-- Rounded square root (06 R101). -/
def sqrtF (f : Format) (mode : Nat) (a : Fval) : Nat × FFlags :=
  match a with
  | .fin n m e =>
    if m = 0 then (f.sign n, {})
    else if n then invalid f
    else
      let (m, e) := sqrtExact (f.mb + 4) m e
      roundTo f mode false false m e
  | .inf n => if n then invalid f else (f.inf false, {})
  | .nan s => (f.nan, { iv := s })

/-- Magnitude comparison of finite values: whether a < b. -/
def ltMag (ma : Nat) (ea : Int) (mb : Nat) (eb : Int) : Bool :=
  let e := min ea eb
  ma * 2 ^ (ea - e).toNat < mb * 2 ^ (eb - e).toNat

/-- Numeric comparison of two values that are no NaN: whether a < b; −0 counts below +0 if `zeros`. -/
def ltF (zeros : Bool) (a b : Fval) : Bool :=
  match a, b with
  | .fin na ma ea, .fin nb mb eb =>
    if ma = 0 && mb = 0 then zeros && na && !nb
    else if ma = 0 then !nb
    else if mb = 0 then na
    else if na != nb then na
    else if na then ltMag mb eb ma ea else ltMag ma ea mb eb
  | .inf na, .inf nb => na && !nb
  | .inf na, .fin .. => na
  | .fin .., .inf nb => !nb
  | _, _ => false

/-- Selection (06 R100): the encoding chosen and flags. -/
def selF (f : Format) (greater : Bool) (a b : Nat) : Nat × FFlags :=
  let x := decodeF f a
  let y := decodeF f b
  let iv := sNaN x || sNaN y
  if isNaN x && isNaN y then (f.nan, { iv := iv })
  else if isNaN x then (b, { iv := iv })
  else if isNaN y then (a, { iv := iv })
  else if greater then (if ltF true x y then b else a, {})
  else (if ltF true y x then b else a, {})

/-- Round to an integer in a mode: the integer with its sign, and whether it was inexact. -/
def toIntegral (mode : Nat) (neg : Bool) (m : Nat) (e : Int) : Nat × Bool := roundAt mode neg m e 0

/-- Conversion to an integer of `w` bits (04 R65). -/
def toIntF (signed : Bool) (w mode : Nat) (a : Fval) : Nat × FFlags :=
  let lo : Int := if signed then -(2 ^ (w - 1) : Nat) else 0
  let hi : Int := if signed then (2 ^ (w - 1) : Nat) - 1 else (2 ^ w : Nat) - 1
  let enc (v : Int) : Nat := (v % (2 ^ w : Nat)).toNat
  match a with
  | .nan _ => (0, { iv := true })
  | .inf n => (enc (if n then lo else hi), { iv := true })
  | .fin n m e =>
    let (q, inexact) := toIntegral mode n m e
    let v : Int := if n then -(q : Int) else q
    if v < lo then (enc lo, { iv := true })
    else if hi < v then (enc hi, { iv := true })
    else (enc v, { nx := inexact })

/-- Conversion of an integer. -/
def fromIntF (f : Format) (mode : Nat) (v : Int) : Nat × FFlags := roundTo f mode false (v < 0) v.natAbs 0

/-- Conversion of a value to a narrower format (04 R65, 06 R109). -/
def toFormat (f : Format) (mode : Nat) (sat : Bool) (a : Fval) : Nat × FFlags :=
  match a with
  | .nan s => (f.nan, { iv := s || f.special = .none })
  | .inf n => if sat || f.special ≠ .ieee then (f.sign n + f.maxBits, { iv := true }) else (f.inf n, {})
  | .fin n m e => roundTo f mode sat n m e

/-- The Q4N codebook in 64ths, with signs (04 R59). -/
def q4nValue (code : Nat) : Int :=
  [0, 5, 11, 17, 24, 32, 41, 52, 64, -4, -10, -17, -26, -36, -48, -64].getD code 0

end Sys2Proof.Machine
end

