-- ==== Sys2Proof/Machine/Fp.lean ====
section
/-! DEFINITION. The floating-point operations of a lane with their result tags (06 R99 to R113, 04 R67 to R70). -/

namespace Sys2Proof.Machine

/-- A result: its encoding, its flags and its tag. -/
structure FRes where
  bits : Nat
  fl : FFlags := {}
  tag : Nat
  deriving DecidableEq, Repr

/-- F of a format: the full tag (04 R68). -/
def Format.full (f : Format) : Nat := f.mb + 1

/-- An effective tag (04 R67). -/
def effTag (f : Format) (t : Nat) : Nat := min t f.full

/-- Clamp a tag to the range of a format. -/
def clampTag (f : Format) (t : Int) : Nat := min t.toNat f.full

/-- L of a finite non-zero value with its effective tag (04 R67). -/
def leastWeight (m : Nat) (e : Int) (t : Nat) : Int := expOf m e - t + 1

/-- L of a term, if it is finite and not zero. -/
def termWeight (a : Fval) (t : Nat) : List Int :=
  match a with
  | .fin _ m e => if m = 0 then [] else [leastWeight m e t]
  | _ => []

/-- The largest of a non-empty list. -/
def maxInt : List Int → Int
  | [] => 0
  | [x] => x
  | x :: r => max x (maxInt r)

/-- An infinite or NaN value. -/
def specialF : Fval → Bool
  | .fin .. => false
  | _ => true

/-- The steps of 04 R69 around a class's formula: `ops` are the operands that make a finite result's tag 0, `zero` the tag
of a zero result where the class gives one. -/
def tagRule (f : Format) (r : Nat) (ops : List Fval) (zero : Option Nat) (formula : Int → Int) : Nat :=
  match decodeF f r with
  | .fin _ m e =>
    if ops.any specialF then 0
    else if m = 0 then (match zero with
      | some t => t
      | none => clampTag f (formula 0))
    else
      let x := expOf m e
      let t := clampTag f (formula x)
      if m < 2 ^ f.mb then min t (x + f.bias + f.mb).toNat else t
  | _ => 0

/-- An infinity. -/
def isInf : Fval → Bool
  | .inf _ => true
  | _ => false

/-- A floating-point operand: its value and effective tag. -/
structure Fop where
  val : Fval
  tag : Nat
  deriving DecidableEq, Repr

/-- Addition with its tag (04 R68). -/
def addR (f : Format) (mode : Nat) (a b : Fop) : FRes :=
  let (r, fl) := addF f mode a.val b.val
  let ls := termWeight a.val a.tag ++ termWeight b.val b.tag
  ⟨r, fl, tagRule f r [a.val, b.val] (some (if ls = [] then f.full else 0)) fun x => x - maxInt ls + 1⟩

/-- Multiplication with its tag. -/
def mulR (f : Format) (mode : Nat) (a b : Fop) : FRes :=
  let (r, fl) := mulF f mode a.val b.val
  ⟨r, fl, tagRule f r [a.val, b.val] none fun _ => min a.tag b.tag⟩

/-- Division with its tag. -/
def divR (f : Format) (mode : Nat) (a b : Fop) : FRes :=
  let (r, fl) := divF f mode a.val b.val
  ⟨r, fl, tagRule f r [a.val, b.val] none fun _ => min a.tag b.tag⟩

/-- Fused multiply-add with its tag: `neg` negates the product, `sub` the addend (06 R101). -/
def fmaR (f : Format) (mode : Nat) (neg sub : Bool) (a b c : Fop) : FRes :=
  let p0 := mulExact a.val b.val
  let p := if neg then negF p0 else p0
  let cv := if sub then negF c.val else c.val
  let (r, fl) := addF f mode p cv
  let lp := match p with
    | .fin _ m e => if m = 0 then [] else [leastWeight m e (min a.tag b.tag)]
    | _ => []
  let ls := lp ++ termWeight c.val c.tag
  ⟨r, fl, tagRule f r [a.val, b.val, c.val] (some (if ls = [] then f.full else 0)) fun x => x - maxInt ls + 1⟩

/-- Square root with its tag. -/
def sqrtR (f : Format) (mode : Nat) (a : Fop) : FRes :=
  let (r, fl) := sqrtF f mode a.val
  ⟨r, fl, tagRule f r [a.val] none fun _ => a.tag⟩

/-- Selection with its tag: the stored tag of the operand returned, the smaller if both are equal (06 R100), in the range 0
to F and under the rules for specials and subnormals as every tag of 04 R68 and R69 (log 13). -/
def selR (f : Format) (greater : Bool) (a b ta tb : Nat) : FRes :=
  let (r, fl) := selF f greater a b
  let t := if a = r && b = r then min ta tb else if a = r then ta else if b = r then tb else 0
  ⟨r, fl, tagRule f r [] (some (min t f.full)) fun _ => t⟩

/-- A sign operation: no flag, and the stored tag (06 R99) in the range 0 to F and under the rules for specials and
subnormals as every tag of 04 R68 and R69 (log 13). -/
def signR (f : Format) (r ta : Nat) : FRes := ⟨r, {}, tagRule f r [] (some (min ta f.full)) fun _ => ta⟩

/-- Round to integral (06 R103): the result, and its tag (04 R68, R69). A zero operand gives F by step 2 of R69, which comes
before step 3 (log 82). -/
def integralR (mode : Nat) (x : Nat) (a : Fop) : FRes :=
  match a.val with
  | .nan s => ⟨f32.nan, { iv := s }, 0⟩
  | .inf _ => ⟨x, {}, 0⟩
  | .fin n m e =>
    let (q, _) := toIntegral mode n m e
    let r := (roundTo f32 0 false n q 0).1
    if m = 0 then ⟨r, {}, f32.full⟩
    else
      let l := leastWeight m e a.tag
      ⟨r, {}, tagRule f32 r [] (some (if l ≤ 0 then f32.full else 0)) fun x => x - max l 0 + 1⟩

/-- FFRACT (06 R103). A zero operand gives F by step 2 of R69 (log 82). -/
def fractR (mode : Nat) (a : Fop) : FRes :=
  match a.val with
  | .nan s => ⟨f32.nan, { iv := s }, 0⟩
  | .inf _ => ⟨0, {}, 0⟩
  | .fin n m e =>
    if m = 0 then ⟨f32.sign n, {}, f32.full⟩
    else
      let (q, _) := toIntegral 3 n m e
      let (dn, d, de) := addExact n m e (!n) q 0
      let (r, fl) := if d = 0 then (f32.sign n, ({} : FFlags)) else roundTo f32 mode false dn d de
      let (r, fl) := if r = 0x3F800000 then (0x3F7FFFFF, { fl with nx := true }) else (r, fl)
      let r := if d = 0 && 0 ≤ e then 0 else r
      let l := leastWeight m e a.tag
      ⟨r, fl, tagRule f32 r [] (some (if l ≤ 0 then f32.full else 0)) fun x => x - l + 1⟩

/-! ## The correctly rounded functions (06 R102), in fixed point -/

/-- The sum of a series in fixed point: `term` gives the next term from the last and its index. -/
def seriesFrom (term : Nat → Nat → Nat) : Nat → Nat → Nat → Nat
  | 0, _, _ => 0
  | n + 1, k, t => t + seriesFrom term n (k + 1) (term k t)

/-- ln 2 in units of 2^-320. -/
def ln2Fixed : Nat := seriesFrom (fun k t => t * k / (2 * (k + 1))) 330 1 (2 ^ 319)

/-- e^x for 0 ≤ x < 1, in units of 2^-320. -/
def expFixed (x : Nat) : Nat := seriesFrom (fun k t => t * x / (k * 2 ^ 320)) 80 1 (2 ^ 320)

/-- FEXP2 of a finite non-zero value that is no integer or is out of range (06 R102). -/
def exp2F (n : Bool) (m : Nat) (e : Int) : Nat × FFlags :=
  if m = 0 then (0x3F800000, {})
  else if 9 ≤ expOf m e then
    (if n then roundTo f32 0 false false 1 (-400) else roundTo f32 0 false false 1 400)
  else
    let (q, frac) := toIntegral 3 n m e
    let i : Int := if n then -(q : Int) else q
    if !frac then roundTo f32 0 false false 1 i
    else
      let (_, d, de) := addExact n m e (!n) q 0
      let x := if 0 ≤ de + 320 then d * 2 ^ (de + 320).toNat else d / 2 ^ (-(de + 320)).toNat
      let y := expFixed (x * ln2Fixed / 2 ^ 320)
      let (m', e') := sticky y (i - 320) false
      roundTo f32 0 false false m' e'

def exp2R (a : Fop) : FRes :=
  match a.val with
  | .nan s => ⟨f32.nan, { iv := s }, 0⟩
  | .inf n => ⟨if n then 0 else 0x7F800000, {}, 0⟩
  | .fin n m e =>
    let (r, fl) := exp2F n m e
    ⟨r, fl, tagRule f32 r [] none fun _ => if m = 0 then a.tag else (a.tag : Int) - expOf m e⟩

/-- ln(1 + z) as 2·atanh: the odd powers of y = z/(2+z), in units of 2^-320. -/
def atanhFixed (y : Nat) : Nat :=
  let y2 := y * y / 2 ^ 320
  (List.range 120).foldl (fun (acc : Nat × Nat) k => (acc.1 + acc.2 / (2 * k + 1), acc.2 * y2 / 2 ^ 320)) (0, y) |>.1

/-- FLOG2 of a finite positive value (06 R102). -/
def log2F (m : Nat) (e : Int) : Nat × FFlags :=
  let x := expOf m e
  let l := Nat.log2 m
  if m = 2 ^ l then (if x = 0 then (0, {}) else fromIntF f32 0 x)
  else
    -- m / 2^l = 1 + z: log2 = x + 2·atanh(z / (2 + z)) / ln 2
    let z := m - 2 ^ l
    let y := z * 2 ^ 320 / (2 ^ (l + 1) + z)
    let lg : Nat := 2 * atanhFixed y * 2 ^ 320 / ln2Fixed
    let total : Int := x * (2 ^ 320 : Nat) + (lg : Nat)
    let neg : Bool := total < 0
    let mag := if neg then total.natAbs - 1 else total.natAbs
    let (m', e') := sticky mag (-320) false
    roundTo f32 0 false neg m' e'

def log2R (a : Fop) : FRes :=
  match a.val with
  | .nan s => ⟨f32.nan, { iv := s }, 0⟩
  | .inf n => if n then ⟨f32.nan, { iv := true }, 0⟩ else ⟨0x7F800000, {}, 0⟩
  | .fin n m e =>
    if m = 0 then ⟨0xFF800000, { dz := true }, 0⟩
    else if n then ⟨f32.nan, { iv := true }, 0⟩
    else
      let (r, fl) := log2F m e
      ⟨r, fl, tagRule f32 r [] (some 0) fun x => x + a.tag + 1⟩

/-- arctan(1/k) in units of 2^-440: alternating series as the sums of its two signs. -/
def atanInv (k : Nat) : Nat :=
  let step (acc : Nat × Nat × Nat) (j : Nat) : Nat × Nat × Nat :=
    let (p, q, t) := acc
    let v := t / (2 * j + 1)
    if j % 2 = 0 then (p + v, q, t / (k * k)) else (p, q + v, t / (k * k))
  let (p, q, _) := (List.range 100).foldl step (0, 0, 2 ^ 440 / k)
  p - q

/-- π in units of 2^-440 (Machin). -/
def piFixed : Nat := 4 * (4 * atanInv 5 - atanInv 239)

/-- sin(πr) for 0 < r ≤ 1/2 in units of 2^-440, from r in the same units. -/
def sinPiFixed (r : Nat) : Nat :=
  let x := r * piFixed / 2 ^ 440
  let x2 := x * x / 2 ^ 440
  let step (acc : Nat × Nat × Nat) (j : Nat) : Nat × Nat × Nat :=
    let (p, q, t) := acc
    let t' := t * x2 / 2 ^ 440 / ((2 * j + 2) * (2 * j + 3))
    if j % 2 = 0 then (p + t, q, t') else (p, q + t, t')
  let (p, q, _) := (List.range 70).foldl step (0, 0, x)
  p - q

/-- sin(πb) of a finite dyadic b: the argument is reduced exactly (06 R102). -/
def sinPiF (zres : Nat) (n : Bool) (m : Nat) (e : Int) : Nat × FFlags :=
  let (k, _) := toIntegral 4 n m e
  let (rn, r, re) := addExact n m e (!n) k 0
  if r = 0 then (zres, {})
  else
    let flip : Bool := k % 2 = 1
    let neg := rn != flip
    if expOf r re = -1 && r = 2 ^ Nat.log2 r then (f32.sign neg + 0x3F800000, {})
    else
      let x := if 0 ≤ re + 440 then r * 2 ^ (re + 440).toNat else r / 2 ^ (-(re + 440)).toNat
      let (m', e') := sticky (sinPiFixed x) (-440) false
      roundTo f32 0 false neg m' e'

/-- FSINPI or FCOSPI with its tag. A zero result has tag 0 by step 2 of R69, FSINPI of a zero included (log 82). -/
def sinPiR (cos : Bool) (a : Fop) : FRes :=
  match a.val with
  | .nan s => ⟨f32.nan, { iv := s }, 0⟩
  | .inf _ => ⟨f32.nan, { iv := true }, 0⟩
  | .fin n m e =>
    let (r, fl) :=
      if cos then
        if m = 0 then (0x3F800000, {})
        else
          let (bn, b, be) := addExact n m e false 1 (-1)
          sinPiF 0 bn b be
      else if m = 0 then (f32.sign n, {})
      else sinPiF (f32.sign n) n m e
    ⟨r, fl, tagRule f32 r [] (some 0) fun x =>
      if m = 0 then a.tag else x - leastWeight m e a.tag - 1⟩

/-- FRCP and FRSQ (06 R101, R102). -/
def rcpR (a : Fop) : FRes :=
  let (r, fl) :=
    match a.val with
    | .fin n m _ => if m = 0 then (f32.inf n, { dz := true }) else divF f32 0 (.fin false 1 0) a.val
    | _ => divF f32 0 (.fin false 1 0) a.val
  ⟨r, fl, tagRule f32 r [a.val] none fun _ => a.tag⟩

def rsqF (a : Fval) : Nat × FFlags :=
  match a with
  | .nan s => (f32.nan, { iv := s })
  | .inf n => if n then invalid f32 else (0, {})
  | .fin n m e =>
    if m = 0 then (f32.inf n, { dz := true })
    else if n then invalid f32
    else
      -- 1/√(m·2^e) = √(2^(2k) / m) · 2^(-k - e/2) with e made even
      let odd : Bool := e % 2 ≠ 0
      let m' := if odd then 2 * m else m
      let e' := if odd then e - 1 else e
      let k := 64 + Nat.log2 m'
      let q := 2 ^ (2 * k) / m'
      let r := isqrt q (Nat.log2 q / 2 + 2) 0
      let exact : Bool := r * r * m' = 2 ^ (2 * k)
      let (x, y) := sticky r (-(k : Int) - e' / 2) exact
      roundTo f32 0 false false x y

def rsqR (a : Fop) : FRes :=
  let (r, fl) := rsqF a.val
  ⟨r, fl, tagRule f32 r [a.val] none fun _ => a.tag⟩

/-! ## Conversions (06 R107 to R113) -/

/-- The widening tag of a narrow format (04 R68). -/
def widenTag (f : Format) : Nat := f.mb + 1

/-- A widening conversion: exact, with its tag. -/
def widenR (to' : Format) (a : Fval) (t : Nat) : FRes :=
  let (r, fl) := roundF to' 0 false a
  ⟨r, fl, tagRule to' r [] (some (min t to'.full)) fun _ => t⟩

/-- A conversion kind applied to a source (06 R108): the mode is chosen already. -/
def cvtR (kind mode : Nat) (sat : Bool) (x ta : Nat) : FRes :=
  let lo32 : Nat := x % 2 ^ 32
  let i32 : Int := if lo32 < 2 ^ 31 then (lo32 : Int) else (lo32 : Int) - 2 ^ 32
  let i64 : Int := if x < 2 ^ 63 then (x : Int) else (x : Int) - 2 ^ 64
  let ofInt (r : Nat × FFlags) (t : Nat) : FRes := ⟨r.1, r.2, t⟩
  match kind with
  | 0 => ofInt (fromIntF f32 mode i32) 24
  | 1 => ofInt (fromIntF f32 mode lo32) 24
  | 2 => ofInt (toIntF true 32 mode (decodeF f32 lo32)) 63
  | 3 => ofInt (toIntF false 32 mode (decodeF f32 lo32)) 63
  | 4 => widenR f64 (decodeF f32 lo32) (min ta 24)
  | 5 =>
    let a := decodeF f64 x
    let (r, fl) := toFormat f32 mode sat a
    ⟨r, fl, tagRule f32 r [a] (some (min ta 24)) fun _ => min ta 24⟩
  | 6 => ofInt (fromIntF f64 mode i32) 53
  | 7 => ofInt (toIntF true 32 mode (decodeF f64 x)) 63
  | 8 => widenR f32 (decodeF f16 (x % 2 ^ 16)) 11
  | 9 => widenR f32 (decodeF bf16 (x % 2 ^ 16)) 8
  | 10 => ofInt (toFormat f16 mode sat (decodeF f32 lo32)) 63
  | 11 => ofInt (toFormat bf16 mode sat (decodeF f32 lo32)) 63
  | 12 => widenR f32 (decodeF e4m3 (x % 2 ^ 8)) 4
  | 13 => widenR f32 (decodeF e5m2 (x % 2 ^ 8)) 3
  | 14 => widenR f32 (decodeF e2m1 (x % 2 ^ 4)) 2
  | _ => ofInt (fromIntF f64 mode i64) 53

/-- An integer clamped to a range and encoded in `w` bits (06 R110). -/
def clampInt (v lo hi : Int) (w : Nat) : Nat := (max lo (min hi v) % (2 ^ w : Nat)).toNat

/-- The element that PK8 or PK4 makes, and its flags (06 R110). -/
def packElem (nibble : Bool) (fmt mode a : Nat) : Nat × FFlags :=
  let s : Int := if a < 2 ^ 31 then a else (a : Int) - 2 ^ 32
  if nibble then
    match fmt with
    | 0 => toFormat e2m1 mode false (decodeF f32 a)
    | 1 => (clampInt s (-8) 7 4, {})
    | _ => (clampInt a 0 15 4, {})
  else
    match fmt with
    | 0 => toFormat e4m3 mode false (decodeF f32 a)
    | 1 => toFormat e5m2 mode false (decodeF f32 a)
    | 2 => (clampInt s (-128) 127 8, {})
    | _ => (clampInt a 0 255 8, {})

/-- The element that UPK8 or UPK4 widens (06 R111). -/
def unpackElem (nibble : Bool) (fmt x : Nat) : FRes :=
  let int (w : Nat) (signed : Bool) : FRes :=
    let v : Int := if signed && 2 ^ (w - 1) ≤ x then (x : Int) - 2 ^ w else x
    ⟨(fromIntF f32 0 v).1, {}, 24⟩
  if nibble then
    match fmt with
    | 0 => widenR f32 (decodeF e2m1 x) 2
    | 1 => int 4 true
    | _ => int 4 false
  else
    match fmt with
    | 0 => widenR f32 (decodeF e4m3 x) 4
    | 1 => widenR f32 (decodeF e5m2 x) 3
    | 2 => int 8 true
    | _ => int 8 false

/-- The exact scaled value of a Q4N code (04 R61). -/
def q4nScaled (code c : Nat) (sc : Fval) : Fval :=
  let q := q4nValue code
  match sc with
  | .nan _ => .nan true
  | .inf n => if q = 0 then .nan true else .inf (n != decide (q < 0))
  | .fin n m e => if q = 0 then .fin false 0 0 else .fin (n != decide (q < 0)) (m * q.natAbs * (c + 1)) (e - 14)

/-- QDEC (06 R112). A zero super-scale under a code that is not 0 gives the exact product's zero, with its sign (log 83). -/
def qdecR (mode code c sBits : Nat) : FRes :=
  let sc := decodeF f32 sBits
  let v := q4nScaled code c sc
  let (r, fl) := match v with
    | .fin n m e => if m = 0 then (if q4nValue code = 0 then (0, ({} : FFlags)) else (f32.sign n, {})) else roundTo f32 mode false n m e
    | .inf n => (f32.inf n, { iv := true })
    | .nan _ => invalid f32
  ⟨r, fl, tagRule f32 r [sc] (some 7) fun _ => 7⟩

/-- The Q4N codes in ascending order of value. -/
def q4nAscending : List Nat := [15, 14, 13, 12, 11, 10, 9, 0, 1, 2, 3, 4, 5, 6, 7, 8]

/-- Compare a / b with v/64, for b > 0: -1, 0 or 1. -/
def q4nCompare (na : Bool) (ma : Nat) (ea : Int) (mb : Nat) (eb : Int) (v : Int) : Int :=
  let e := min (ea + 6) eb
  let l : Int := (if na then -1 else 1) * (ma * 2 ^ (ea + 6 - e).toNat : Nat)
  let r : Int := v * (mb * 2 ^ (eb - e).toNat : Nat)
  if l < r then -1 else if l = r then 0 else 1

/-- QENC's code and flags (06 R113). A quotient beyond 1 in magnitude raises OF and NX in every mode (log 83). -/
def qencR (mode : Nat) (a b : Fval) : FRes :=
  match a, b with
  | a, .fin nb mb eb =>
    if nb || mb = 0 then ⟨0, { iv := true }, 63⟩
    else
      match a with
      | .nan _ => ⟨0, { iv := true }, 63⟩
      | .inf n => ⟨if n then 15 else 8, { iv := true }, 63⟩
      | .fin na ma ea =>
        let cmp (v : Int) : Int := q4nCompare na ma ea mb eb v
        let exact := q4nAscending.find? fun c => cmp (q4nValue c) = 0
        match exact with
        | some c => ⟨c, {}, 63⟩
        | none =>
          let below := (q4nAscending.reverse).find? fun c => cmp (q4nValue c) = 1
          let above := q4nAscending.find? fun c => cmp (q4nValue c) = -1
          match below, above with
          | none, _ => ⟨15, { of := true, nx := true }, 63⟩
          | _, none => ⟨8, { of := true, nx := true }, 63⟩
          | some lo, some hi =>
            let vl := q4nValue lo
            let vh := q4nValue hi
            -- twice the quotient against the sum of the neighbours
            let side := q4nCompare na (2 * ma) ea mb eb (vl + vh)
            let larger := if vl.natAbs < vh.natAbs then hi else lo
            let smaller := if vl.natAbs < vh.natAbs then lo else hi
            let c :=
              match mode with
              | 0 => if side < 0 then lo else if 0 < side then hi else smaller
              | 1 => if na then hi else lo
              | 2 => hi
              | 3 => lo
              | _ => if side < 0 then lo else if 0 < side then hi else larger
            ⟨c, { nx := true }, 63⟩
  | _, _ => ⟨0, { iv := true }, 63⟩

end Sys2Proof.Machine
end

