-- ==== Sys2Proof/Machine/Place.lean ====
section
/-! DEFINITION. The placement of crews and teams (15 R265, R266), and the placed team on which the host runs a word (log 3). -/

namespace Sys2Proof.Machine

/-- Vector rows of a bench in use. -/
def rowsUsed (s : State) (b : Nat) : Nat := (benchTeams s b).foldl (fun n t => n + t.2.rows) 0

/-- The slot that a team has left is still taken: its pannier has not drained (07 R121, 13 R255). -/
def slotTaken (s : State) (key : Nat) (t : Team) : Option Place :=
  t.slotHeld.filter fun _ => (s.reqs.any fun r => r.team = key && !r.isAway) || postsBounced s key

/-- The lowest free slot of a bench. -/
def freeSlot (s : State) (b : Nat) : Option Nat :=
  let used := ((benchTeams s b).filterMap fun t => t.2.place.map (·.slot)) ++
    s.teams.filterMap fun t => (slotTaken s t.1 t.2).bind fun p => if p.benchNo = b then some p.slot else none
  (List.range 64).find? fun n => !used.contains n

/-- The bench of a core with the most free rows that has a slot and room, the lowest on a tie (15 R265). -/
def bestBench (s : State) (k rows : Nat) : Option Nat :=
  ((List.range 8).map fun j => 8 * k + j).foldl (fun best b =>
    let free := 384 - rowsUsed s b
    if rows ≤ free && (freeSlot s b).isSome then
      match best with
      | some c => if 384 - rowsUsed s c < free then some b else best
      | none => some b
    else best) none

/-- A team takes a bench and a slot of a core: the slot that its pannier still fills, if there is one. -/
def seatTeam (s : State) (key k : Nat) : Option State :=
  match team? s key with
  | none => none
  | some t =>
    let seat (s : State) (p : Place) : State :=
      setTeam (setBench s p.benchNo (bench s p.benchNo)) key { t with place := some p, slotHeld := none, readySince := clk s k }
    match slotTaken s key t with
    | some p => if p.core = k && t.rows ≤ 384 - rowsUsed s p.benchNo then some (seat s p) else none
    | none =>
      match bestBench s k t.rows with
      | none => none
      | some b => (freeSlot s b).map fun n => seat s ⟨k, b % 8, n⟩

/-- Teams take their benches in index order, all of them or none (15 R265). -/
def seatTeams (s : State) (k : Nat) : List Nat → Option State
  | [] => some s
  | t :: r => (seatTeam s t k).bind fun s => seatTeams s k r

/-- The crews whose scratchpad and tiles a core holds. -/
def crewsOn (s : State) (k : Nat) : List Crew := (s.crews.filter fun c => c.2.core = some k).map (·.2)

/-- A core can give a crew its scratchpad ways and tiles (12 R228, R230). -/
def poolRoom (s : State) (k : Nat) (c : Crew) : Bool :=
  let on := crewsOn s k
  on.foldl (fun n x => n + x.scr) c.scr ≤ 12 && on.foldl (fun n x => n + x.tiles.length) c.tiles.length ≤ 16

/-- A region's budgets admit the placement of `n` teams of a crew, `new` of them not live yet and `back` of them rebuilt (15
R263, 17 R294: these are live since their swap). -/
def budgetOk (s : State) (rk : Nat) (c : Crew) (n new back : Nat) : Bool :=
  (ancestry s rk).all fun a =>
    match region? s a with
    | none => false
    | some r =>
      let mine := s.teams.filter fun t => (ancestry s t.2.region).contains a
      let live := (mine.filter fun t => teamLive t.2).length
      let placed := (mine.filter fun t => t.2.place.isSome).length
      placed + n ≤ r.areas && (new + back = 0 || live + new ≤ r.teams && c.scr ≤ r.scr && c.tiles.length ≤ r.tiles)

/-- A region's array has free frames for new teams. -/
def framesFree (s : State) (rk n : Nat) : Bool := (region? s rk).any fun r => r.framesUsed.length + n ≤ r.frameCnt

/-- A saved team is to be placed (15 R269, R273, 07 R139). -/
def wantsPlace (t : Team) : Bool :=
  !t.captured && match t.saved with
  | some .fresh | some .rebuilt => true
  | some .parked => t.front.any entryReady || lateDue t
  | some (.forced _) => true
  | some (.handler fid) => fid = 0
  | none => false

/-- A team's first placement: the lowest free frame is its own, with VALID 0 (15 R265, R266). -/
def takeFrame (s : State) (key : Nat) : State :=
  match team? s key with
  | none => s
  | some t =>
    match (region? s t.region).bind fun r => (freeFrame r).map fun i => (r, i) with
    | none => s
    | some (r, i) =>
      let f := r.frameAt i
      let s := onRegion s t.region fun r => { r with framesUsed := i :: r.framesUsed }
      let s := setTeam s key { t with frameIdx := i, frameLo := BitVec.ofNat 32 f, frameHi := BitVec.ofNat 32 (f / 2 ^ 32) }
      match devicePa s t.comp .wr f with
      | (s, some pa) => writeHome s (compKey s t.comp) pa [0]
      | (s, none) => s

/-- What a placed team goes on with: its start, its frontier, its replay queue, or the return from its handler. -/
def startTeam (s : State) (key : Nat) : State :=
  match team? s key with
  | none => s
  | some t =>
    match t.place with
    | none => s
    | some p =>
      let s := setTeam s key { t with saved := none, woken := false }
      match t.saved with
      -- the start of a launched team is an acquire at .dev (07 R129)
      | some .fresh => acquireAt (writeLive (takeFrame s key) t.region) p.core 3
      | some .rebuilt => writeLive (takeFrame s key) t.region
      | some (.forced q) => onTeam s key fun t => { t with replayQ := q }
      | some (.handler _) =>
        match readFrame s p.core t.comp t.frameBase with
        | (s, some v) =>
          if frameBad t t.frameBase v then takeTrap s key { cause := 1, tpc := 0 } else returnFrom s key p t.frameBase v false
        | (s, none) => takeTrap s key { cause := 0x1A, tpc := 0, child := t.frameBase }
      | _ => s

/-- A timed wait with its deadline changed. -/
def Wait.retime (on : Nat → Nat) : Wait → Wait
  | .monitor a pa pt v m ctl dl d => .monitor a pa pt v m ctl (dl.map on) d
  | .sleep dl => .sleep (on dl)
  | .promw k ph dl d => .promw k ph (on dl) d
  | w => w

/-- A wait on the new core: its remaining cycles are counted there, unless they stand still, and a word monitored in an L1 is monitored
in that of the new core. -/
def movedWait (s : State) (old new' : Nat) (frozen : Bool) (w : Wait) : Wait :=
  let w := if frozen then w else w.retime fun d => clk s new' + (d - clk s old)
  match w with
  | .monitor a pa pt v m ctl dl d => .monitor a pa (pt.map fun _ => l1Loc s new' pa) v m ctl dl d
  | w => w

/-- A monitored word on the new core satisfies its condition already. -/
def movedMet (s : State) (c : Nat) (w : Wait) : Option (Option Word) :=
  match w with
  | .monitor _ pa pt v m ctl _ _ =>
    if pt.isSome && monitorHolds v m ctl (pointWord s c pt pa) then some (some 0) else none
  | _ => none

/-- A team's waits move with it. -/
def moveWaits (s : State) (old new' : Nat) (t : Team) : Team :=
  let mv (e : Entry) : Entry := { e with wait := e.wait.map (movedWait s old new' t.frozen) }
  wakeTeam (movedMet s t.comp) { t with front := t.front.map mv, held := t.held.map fun h => { h with entry := mv h.entry } }

/-- A core for a crew: its own, or the lowest logical core its region allows that has room (15 R265). -/
def chooseCore (s : State) (c : Crew) (teams : List Nat) : Option Nat :=
  match c.core with
  | some k => if !departing s c.comp k && (seatTeams s k teams).isSome then some k else none
  | none =>
    (compCores s c.comp).find? fun k =>
      !departing s c.comp k && (c.want.all fun w => w = k) && (c.want.isSome || (region? s c.region).any fun r => r.cores.testBit (logicalCore s c.comp k)) &&
      poolRoom s k c && (seatTeams s k teams).isSome

/-- The teams of a crew that are to be placed. -/
def waitingTeams (s : State) (ck : Nat) : List Nat :=
  (crewTeams s ck).filter fun k => (team? s k).any fun t => t.place.isNone && t.live ≠ 0 && wantsPlace t

/-- Place what waits of a crew, if it can be placed (15 R265). -/
def placeCrew? (s : State) (ck : Nat) : Option State :=
  match crew? s ck with
  | none => none
  | some c =>
    let ts := waitingTeams s ck
    let new := (ts.filter fun k => (team? s k).any fun t => t.saved = some .fresh).length
    let back := (ts.filter fun k => (team? s k).any fun t => t.saved = some .rebuilt).length
    if ts = [] || !compRuns s c.comp || (comp s c.comp).stop.isSome then none
    else if !budgetOk s c.region c ts.length new back || !framesFree s c.region (new + back) then none
    else
      match chooseCore s c ts with
      | none => none
      | some k =>
        -- the partition grows: the ways it takes are written back and invalidated first (12 R228)
        let s := if c.core.isNone then giveWays s k c.scr else s
        match seatTeams s k ts with
        | none => none
        | some s =>
          let s := onCrew s ck fun c => { c with core := some k, want := none }
          some (ts.foldl startTeam s)

/-! ## The placed team of `State.withFetchWord` (log 3) -/

/-- The address of the placed team's word. -/
def hostPc : Nat := 0x1000

/-- The combined TLB entry that maps the first GiB for it. -/
def hostTlb : TlbEntry :=
  { comp := 0, va := 0, bits := 30, vbits := 30, ibits := 30, pa := 0, ipa := 0, rd := true, wr := true, ex := true, usr := true, st := false,
    dirty := true }

/-- Its region: control block at 0x3000, handler at 0x2000, frames from 1 MiB. -/
def hostRegion : Region :=
  { addr := 0x3000, pa := 0x3000, state := 1, prio := 128, handler := 0x2000, frames := 0x100000, frameCnt := 16,
    teams := 1024, cores := 15, scr := 12, tiles := 16, areas := 1024, bvrows := 4, btimer := 256, framesUsed := [0] }

/-- Its team: all lanes at the word, 15 rows. -/
def hostTeam : Team :=
  { region := regionKey 0 0x3000, live := 0xFFFFFFFF, rows := 15, place := some ⟨0, 0, 0⟩,
    front := [{ prio := 128, pc := hostPc, mask := 0xFFFFFFFF }], prio := 128, trapLo := 0x2000, frameLo := 0x100000 }

/-- A running compartment 0 on cluster 0, its root region, and one team whose stint it is, about to fetch a word. -/
def hostPlace (s : State) (w : Nat) : State :=
  { s with
    powered := true
    cur := none
    inputs := []
    spawning := []
    turn := 0
    comps := Tab.put s.comps 0
      { desc := { state := 2, op := 0, result := 0, flags := 0, clusters := 1, tenancy := 0, xlate := 0, resv := 0, resvsz := 0,
                  trace := 0, tracesz := 0, power := 0, memshare := 0, keyid := 1, polkey := 0, reservedZero := true },
        xlate := { colmask := 0xFFFF, keyid := 1 } }
    keys := [⟨0, 2 ^ 24, 2 ^ 32 + Tab.getD s.keyGen 1 0, allValid, 0⟩]
    mem := memWrite s.mem hostPc (Bits.leBytes 4 w)
    regions := Tab.put s.regions (regionKey 0 0x3000) hostRegion
    crews := Tab.put s.crews 0 { region := regionKey 0 0x3000, core := some 0, tiles := List.replicate 16 {} }
    teams := Tab.put s.teams 0 hostTeam
    cores := Tab.put s.cores 0 { core s 0 with tlb := [hostTlb] }
    benches := Tab.put s.benches 0 { bench s 0 with holder := some 0 } }

end Sys2Proof.Machine
end

