-- ==== Sys2Proof/Machine/TileMap.lean ====
section
/-! DEFINITION. The shape of a tile (02 R28, 09 R176), its image and side store (R177), and its memory image (R180, 04 R60). -/

namespace Sys2Proof.Machine

/-! ## TSk (02 R28) -/

def tsFmt (ts : Word) : Nat := Bits.fld ts 0 4
def tsRows (ts : Word) : Nat := Bits.fld ts 4 8 + 1
def tsCols (ts : Word) : Nat := Bits.fld ts 12 8 + 1
def tsScm (ts : Word) : Nat := Bits.fld ts 20 4

/-- Bits of an element (09 R176). -/
def fmtBits (fmt : Nat) : Nat :=
  if fmt = 0 || fmt = 9 then 32 else if fmt = 1 || fmt = 2 then 16 else if fmt = 3 || fmt = 4 || fmt = 7 then 8 else 4

/-- Bytes of a row of the image (09 R177). -/
def tsRowBytes (ts : Word) : Nat := tsCols ts * fmtBits (tsFmt ts) / 8

/-- The shape is one that R176 allows. -/
def shapeLegal (ts : Word) : Bool :=
  let f := tsFmt ts
  let c := tsCols ts
  let n := tsRows ts * c
  f ≤ 9 && tsScm ts ≤ 2 && c * fmtBits f % 32 = 0 && n * fmtBits f / 8 ≤ 16384 &&
  (tsScm ts ≠ 1 || ((f = 3 || f = 4 || f = 5) && c % 32 = 0)) &&
  (tsScm ts ≠ 2 || (f = 6 && c % 64 = 0 && (n = 16384 || n = 32768))) && (f ≠ 6 || tsScm ts = 2)

/-- The row tag that TZERO leaves (09 R179). -/
def zeroTag (fmt : Nat) : SigTag := if fmt ≤ 6 then 24 else 63

/-- The row tag that TLD leaves (09 R180, 04 R68): the widening tag of a narrow format. -/
def loadTag (fmt : Nat) : SigTag :=
  match fmt with
  | 0 => 24
  | 1 => 8
  | 2 => 11
  | 3 => 4
  | 4 => 3
  | 5 => 2
  | 6 => 7
  | _ => 63

/-- A row's tag: 63 in a tile of an integer format (04 R71). -/
def Tile.rowTag (t : Tile) (r : Nat) : SigTag := if 7 ≤ tsFmt t.ts then 63 else Tab.getD t.tags r t.tagDef

/-- A row's scale word, which reads 0 while it is not used (09 R177). -/
def Tile.scaleWord (t : Tile) (r : Nat) : Nat := if tsScm t.ts = 0 then 0 else Tab.getD t.scales r 0

/-- Every row of a shape takes a tag. -/
def Tile.tagRows (t : Tile) (ts : Word) (g : SigTag) : Tile :=
  { t with tags := (List.range (tsRows ts)).foldl (fun m r => Tab.put m r g) t.tags }

/-- A tile after TZERO (09 R179). -/
def Tile.zeroed (t : Tile) : Tile := { ts := t.ts, tagDef := zeroTag (tsFmt t.ts) }

/-- A 32-bit word of the image by its index (09 R181). -/
def Tile.word (t : Tile) (w : Nat) : Word := BitVec.ofNat 32 (memLe t.image (4 * w) 4)

/-! ## The memory image (09 R180) -/

/-- What a byte of the memory image stands for. -/
inductive TilePart where
  /-- The element image from an offset. -/
  | image (off : Nat)
  /-- A row's scale word. -/
  | scale (row : Nat)
  /-- A super-scale. -/
  | super (g : Nat)
  /-- The scale codes of a group from its first block. -/
  | codes (block : Nat)
  /-- The reserved header bytes of a group. -/
  | header
  deriving DecidableEq, Repr

/-- A piece of the memory image that lies in one line: `skip` bytes into its part. -/
structure Piece where
  va : Nat
  len : Nat
  part : TilePart
  skip : Nat
  deriving DecidableEq, Repr

/-- A range of the memory image cut at its lines. -/
def cutLines (va len : Nat) (part : TilePart) : List Piece :=
  if len = 0 then []
  else
    (List.range ((va + len - 1) / 64 - va / 64 + 1)).map fun j =>
      let lo := max va (64 * (va / 64 + j))
      ⟨lo % 2 ^ 57, min (va + len) (64 * (va / 64 + j) + 64) - lo, part, lo - va⟩

/-- The pieces of a tile's memory image, in ascending order of their parts (09 R180, 04 R60). -/
def tilePieces (ts : Word) (base stride soff : Nat) : List Piece :=
  let rows := tsRows ts
  let rb := tsRowBytes ts
  if tsScm ts = 2 then
    (List.range (rows * tsCols ts / 16384)).flatMap fun g =>
      let a := base + 8464 * g
      cutLines a 4 (.super g) ++ cutLines (a + 4) 12 .header ++ cutLines (a + 16) 256 (.codes (256 * g)) ++
        cutLines (a + 272) 8192 (.image (8192 * g))
  else
    ((List.range rows).flatMap fun r => cutLines (base + r * stride) rb (.image (rb * r))) ++
    (if tsScm ts = 1 then (List.range rows).flatMap fun r => cutLines (base + soff + 8 * r) 8 (.scale r) else [])

/-- The lines that the pieces touch, each once, with the pieces in it and their numbers. -/
def pieceLines (ps : List Piece) : List (Nat × List (Nat × Piece)) :=
  (distinct (ps.map fun p => p.va / 64)).map fun l => (l, (ps.zipIdx.filter fun x => x.1.va / 64 = l).map fun x => (x.2, x.1))

/-- A number with one of its bytes replaced. -/
def setByte (v j : Nat) (b : Byte) : Nat := v - v / 256 ^ j % 256 * 256 ^ j + b.toNat * 256 ^ j

/-- Bytes put into a number from a byte of it. -/
def setBytes (v j : Nat) : List Byte → Nat
  | [] => v
  | b :: bs => setBytes (setByte v j b) (j + 1) bs

/-- The row and the byte of its scale word that hold a block's code (09 R177). -/
def codePlace (ts : Word) (block : Nat) : Nat × Nat := (block / (tsCols ts / 64), block % (tsCols ts / 64))

/-- Bytes of the memory image enter the tile. -/
def Tile.putPiece (t : Tile) (ts : Word) (p : Piece) (bs : List Byte) : Tile :=
  match p.part with
  | .image off => { t with image := memWrite t.image (off + p.skip) bs }
  | .scale r => { t with scales := Tab.put t.scales r (setBytes (Tab.getD t.scales r 0) p.skip bs) }
  | .super 0 => { t with s0 := BitVec.ofNat 32 (setBytes t.s0.toNat p.skip bs) }
  | .super _ => { t with s1 := BitVec.ofNat 32 (setBytes t.s1.toNat p.skip bs) }
  | .codes block =>
    { t with scales := bs.zipIdx.foldl (fun m x =>
        let (r, j) := codePlace ts (block + p.skip + x.2)
        Tab.put m r (setByte (Tab.getD m r 0) j x.1)) t.scales }
  | .header => t

/-- The bytes of the memory image that a tile gives. -/
def Tile.getPiece (t : Tile) (ts : Word) (p : Piece) : List Byte :=
  let part (v : Nat) : List Byte := Bits.leBytes p.len (v / 256 ^ p.skip)
  match p.part with
  | .image off => memRead t.image (off + p.skip) p.len
  | .scale r => part (t.scaleWord r)
  | .super 0 => part t.s0.toNat
  | .super _ => part t.s1.toNat
  | .codes block =>
    (List.range p.len).map fun i =>
      let (r, j) := codePlace ts (block + p.skip + i)
      BitVec.ofNat 8 (t.scaleWord r / 256 ^ j)
  | .header => List.replicate p.len 0

/-- The tile that a TLD leaves (09 R180): `got` holds each piece's bytes by its number. -/
def Tile.loaded (t : Tile) (ts : Word) (ps : List Piece) (got : Tab Nat) : Tile :=
  let t := ps.zipIdx.foldl (fun t x => t.putPiece ts x.1 (Bits.leBytes x.1.len (Tab.getD got x.2 0))) t
  t.tagRows ts (loadTag (tsFmt ts))

end Sys2Proof.Machine
end

