-- ==== Sys2Proof/Machine/Requests.lean ====
section
/-! DEFINITION. Line requests on their way (13 R247 to R257): their queues and the pannier, their performance at the point of
their scope (10 R200, R201), atomics (08 R152), successor records (R155, R156), and the completion of the instructions that
made them. -/

namespace Sys2Proof.Machine

/-! ## The tables of requests and operations -/

def req? (s : State) (id : Nat) : Option Req := s.reqs.find? fun r => r.id = id

def putReq (s : State) (r : Req) : State := { s with reqs := update s.reqs (fun q => q.id = r.id) fun _ => r }

def dropReq (s : State) (id : Nat) : State := { s with reqs := s.reqs.filter fun r => r.id ≠ id }

def op? (s : State) (id : Nat) : Option MemOp := s.ops.find? fun o => o.id = id

def putOp (s : State) (o : MemOp) : State := { s with ops := update s.ops (fun p => p.id = o.id) fun _ => o }

/-- The requests of an operation that have not been performed. -/
def opReqs (s : State) (id : Nat) : List Req := s.reqs.filter fun r => r.op = id && r.cls ≠ 4

/-- The compartment of a team by its key. -/
def teamComp (key : Nat) : Nat := key / 2 ^ 24

/-- What a request needs of its page (12 R236). -/
def Req.need (r : Req) : Need :=
  match r.act with
  | 1 => .wr
  | 2 => .rw
  | _ => .rd

/-- The lowest virtual address that a request accesses. -/
def Req.va (r : Req) : Nat := (r.accs.foldl (fun m a => some (min (m.getD a.va) a.va)) none).getD (64 * r.line)

/-- One past the highest virtual address that a request accesses. -/
def Req.end' (r : Req) : Nat := r.accs.foldl (fun m a => max m (a.va + a.size)) 0

/-- The lanes of a request. -/
def Req.lanes (r : Req) : Word := maskOf fun i => r.accs.any fun a => a.lane = i

/-- A request is in the pannier or on its way there. -/
def Stage.bounced : Stage → Bool
  | .flight | .pannier => true
  | _ => false

/-- A request is in a shared queue, and of which kind. -/
def Stage.queued : Stage → Option Nat
  | .queue k => some k
  | _ => none

/-- A store as R151 counts them: an atomic is a load and a store. -/
def Req.stores (r : Req) : Bool := r.cls = 1 || r.cls = 2

/-- A request must follow an older one of its team (08 R151, 13 R250). -/
def mustFollow (q r : Req) : Bool :=
  q.team = r.team && q.id < r.id && q.cls ≤ 3 && r.cls ≤ 3 && (q.line = r.line || (q.stores && r.stores))

/-- A request's page is found on a peer or the host. -/
def reqRemote (s : State) (r : Req) : Bool :=
  match r.pa with
  | some p => localClass p = .none
  | none =>
    match peek s r.core (teamComp r.team) r.level r.need r.va with
    | .ok pa _ => localClass pa = .none
    | _ => false

/-- A request must follow an older one, unless HRLX waives the order of two remote accesses to different lines (11 R214). -/
def follows (s : State) (q r : Req) : Bool :=
  mustFollow q r && !(q.line ≠ r.line && (q.rlx || r.rlx) && reqRemote s q && reqRemote s r)

/-- The unperformed requests that a request follows; one that has left for a peer is ordered by its stream. -/
def leaders (s : State) (r : Req) : List Req :=
  s.reqs.filter fun q => follows s q r && (q.stage.bounced || q.stage.queued.isSome)

/-- The requests that a pulled entry waits for: they are performed before it reissues (13 R256). -/
def leading (s : State) (r : Req) : List Req := s.reqs.filter fun q => follows s q r

/-- A posted store has been performed at its target, or found lost (13 R256, 21 R320). -/
def postedOver (s : State) (key : Nat) (p : Nat × Nat) : Bool :=
  let x := subStream s key p.1
  (x.unacked ++ x.waiting).all fun w => w.seq ≠ p.2

/-- The coach that a store or reduction goes to, as its page is mapped now. -/
def postCoach (s : State) (r : Req) : Option Nat :=
  if r.cls = 1 || (r.cls = 2 && (r.code = 18 || r.code = 19)) then
    let coachOf (pa : Nat) : Option Nat := match paClass s pa with
      | .peer t => some t
      | _ => none
    match r.pa with
    | some p => coachOf p
    | none =>
      match peek s r.core (teamComp r.team) r.level r.need r.va with
      | .ok pa _ => coachOf pa
      | _ => none
  else none

/-- The sequences of a remote store's messages are taken, one for each lane of a reduction (13 R253). -/
def takeSeqs (s : State) (r : Req) : State :=
  match postCoach s r with
  | some t =>
    if r.seqs ≠ [] || unreachableCoach s t then s
    else
      let go := (List.range (if r.act = 1 then 1 else r.accs.length)).foldl (fun (acc : State × List (Nat × Nat)) _ =>
        match takeSeq acc.1 r.team t with
        | some (s, q) => (s, acc.2 ++ [(t, q)])
        | none => acc) (s, [])
      putReq go.1 { r with seqs := go.2 }
  | none => s

/-- Requests go without a use for the sequences that they have taken (log 88). -/
def giveSeqs (s : State) (rs : List Req) : State :=
  rs.foldl (fun s r => r.seqs.foldl (fun s p => if unreachableCoach s p.1 then s else fillSeq s r.team p.1 p.2) s) s

/-- The credits that a line request holds: one for each pannier entry that may come of it (13 R252, 08 R155). -/
def Req.credits (r : Req) : Nat := if r.cls = 2 && r.code = 17 then max 1 r.accs.length else 1

/-- The credits that a team's requests and posts hold (13 R252). -/
def creditsHeld (s : State) (key : Nat) : Nat :=
  (s.reqs.foldl (fun n r => if r.team = key then n + r.credits else n) 0) +
  (s.mats.filter fun m => m.team = key && match m.stage with | .table _ | .pannier .. => true | _ => false).length +
  (s.copies.filter fun x => x.team = key && match x.stage with | .running _ => false | _ => true).length

/-! ## The home -/

/-- A load of a range would read a word that cannot be corrected (12 R244): words valid in the L1 are read there. -/
def loadFails (s : State) (k : Nat) (near : Bool) (pa n : Nat) : Bool :=
  (wordsOf pa n).any fun w =>
    homeFails s (4 * w) 4 && !(near && (Tab.get? (core s (l1Loc s k (4 * w))).l1 w).isSome) &&
    !((Tab.get? (core s (l1Loc s k (4 * w))).l1 w).any (·.dirty))

/-- The FP32 sum of an atomic (08 R152). -/
def atomFadd (m x : Nat) : Nat := (addF f32 0 (decodeF f32 m) (decodeF f32 x)).1

/-- The new memory operand of an atomic (08 R152): `x` is the data, `cmp` the compare value; DECSP as R155. -/
def atomNew (op m x cmp : Nat) : Nat :=
  let i (v : Nat) : Int := (BitVec.ofNat 32 v).toInt
  match op with
  | 0 | 18 => (m + x) % 2 ^ 32
  | 1 => (m + x) % 2 ^ 64
  | 2 => if i x < i m then x else m
  | 3 => if i m < i x then x else m
  | 4 => min m x
  | 5 => max m x
  | 6 => Nat.land m x
  | 7 => Nat.lor m x
  | 8 => Nat.xor m x
  | 9 | 11 => x
  | 10 | 12 => if m = cmp then x else m
  | 13 | 19 => atomFadd m x
  | 14 => (selF f32 false m x).1
  | 15 => (selF f32 true m x).1
  -- the arrival of a command in a trunk (16 R292)
  | 32 => min (2 ^ 32 - 1) (m + x)
  | 16 => if x ≤ m then 0 else m + 1
  | 17 => m - 1
  | _ => m

/-- The number that some operand words hold. -/
def wordsNat : List Word → Nat
  | [] => 0
  | w :: r => w.toNat + 2 ^ 32 * wordsNat r

/-- Data and compare value of an atomic's lane from its words (08 R152). -/
def atomOperands (op : Nat) (ws : List Word) : Nat × Nat :=
  if op = 1 || op = 11 || op = 12 then (wordsNat (ws.take 2), wordsNat (ws.drop 2))
  else (wordsNat (ws.take 1), wordsNat (ws.drop 1))

/-! ## Successor records (08 R155, R156) -/

/-- A published successor record's thread, if the record passes its checks. -/
def recordThread (s : State) (key k : Nat) (b : List Byte) : State × Option Spawning :=
  let c := teamComp key
  let flags := fieldAt b 4 4
  let entry := fieldAt b 8 8
  let rcb := fieldAt b 16 8
  let make (rk : Nat) : Spawning := ⟨k, c, entry, rk, BitVec.ofNat 32 (fieldAt b 24 4), fieldAt b 28 1, none⟩
  if 4 ≤ flags || fieldAt b 29 3 ≠ 0 || entry % 4 ≠ 0 || 2 ^ 57 ≤ entry then (s, none)
  else if flags / 2 = 0 then (s, (team? s key).map fun t => make t.region)
  else if rcb % 256 ≠ 0 || 2 ^ 57 ≤ rcb then (s, none)
  else
    let (s, ok) := validate s c rcb
    (s, if ok then some (make (regionKey c rcb)) else none)

/-- How a spawn from a record at its home ends. -/
inductive SpawnTry where
  | done
  /-- The cause of its bounce. -/
  | bounce (cause : Nat)
  deriving DecidableEq, Repr

/-- A spawn from the record at a local address: PUB 0, or no room for the fault record of a rejected one, bounces (08 R155,
R156, 13 R259). DESIGN CHOICE (log 97): the record of a DECSP is the 32 bytes from its address, where that is not a multiple of 32
too. -/
def trySpawn (s : State) (key k va pa : Nat) : State × SpawnTry :=
  let c := teamComp key
  let b := homeBytes s (compKey s c) pa 32
  if fieldAt b 4 4 % 2 = 0 then (s, .bounce 6)
  else
    match recordThread s key k b with
    | (s, some x) => ({ s with spawning := s.spawning ++ [x] }, .done)
    | (s, none) =>
      if 64 ≤ (comp s c).faults.length then (s, .bounce 2)
      else
        match team? s key with
        | some t =>
          (pushFault s c
            { region := t.region, fid := 0, kind := 3, flags := 0, count := 1, va := va, ipa := 0, who := faultWho s key t,
              eng := 0 }, .done)
        | none => (s, .done)

/-- The serial of the team's next line request (13 R253 AGE). -/
def nextAge (s : State) (key : Nat) : Nat × State :=
  (((team? s key).map (·.reqSerial)).getD 0, onTeam s key fun t => { t with reqSerial := (t.reqSerial + 1) % 2 ^ 24 })

/-- A new request enters the table. -/
def addReq (s : State) (r : Req) : State :=
  let (id, s) := fresh s
  let (age, s) := nextAge s r.team
  { s with reqs := s.reqs ++ [{ r with id := id, age := age, since := s.time, sinceClk := clk s r.core }] }

/-- A spawn that bounced retries from the signaller's pannier (08 R155). -/
def spawnRetry (s : State) (r : Req) (va cause : Nat) : State :=
  addReq s { id := 0, op := 0, team := r.team, core := r.core, cls := 4, ord := 1, scope := 4, code := 17, line := va / 64,
             opc := r.opc, accs := [⟨0, va, 32⟩], age := 0, cause := cause, stage := .flight, since := 0, level := r.level }

/-! ## Performance at the point of an access -/

/-- The runs of consecutive bytes of some store data. -/
def byteRuns : List (Nat × Byte) → List (Nat × List Byte)
  | [] => []
  | (o, b) :: r =>
    match byteRuns r with
    | (p, bs) :: q => if p = o + 1 then (o, b :: bs) :: q else (o, [b]) :: (p, bs) :: q
    | [] => [(o, [b])]

/-- A value read for a lane is kept with its operation. -/
def keepGot (s : State) (r : Req) (lane v : Nat) : State :=
  match op? s r.op with
  | some o => putOp s { o with got := Tab.put o.got (if r.shadow then 32 + lane else lane) v }
  | none => s

/-- A lane's data did not arrive. -/
def keepBad (s : State) (id cause lane va : Nat) : State :=
  match op? s id with
  | some o => putOp s { o with bad := some (o.bad.getD (cause, lane, va)) }
  | none => s

/-- One lane's read-modify-write at a local address, as one indivisible action (08 R152). -/
def atomLane (s : State) (r : Req) (near stable : Bool) (pa : Nat) (a : Acc) : State :=
  let c := teamComp r.team
  let (s, bs) := localLoad s r.core c near stable pa a.size
  let m := Bits.ofLe bs
  let (x, cmp) := atomOperands r.code (Tab.getD r.opnds a.lane [])
  let s := localStore s r.core c near stable pa (Bits.leBytes a.size (atomNew r.code m x cmp))
  let s := keepGot s r a.lane m
  if r.code = 17 && m = 1 then
    match trySpawn s r.team r.core a.va pa with
    | (s, .done) => s
    | (s, .bounce cause) => spawnRetry s r a.va cause
  else s

/-- A request is performed at a local address: `base` is what takes its virtual addresses to physical ones. -/
def performLocal (s : State) (r : Req) (stable : Bool) (base : Nat → Nat) : State :=
  let c := teamComp r.team
  let near := nearScope s r.core r.ord r.scope
  let s := if r.rel then releaseAt s r.core r.scope else s
  match r.act with
  | 0 =>
    r.accs.foldl (fun s a =>
      let (s, bs) := localLoad s r.core c near stable (base a.va) a.size
      keepGot s r a.lane (Bits.ofLe bs)) s
  | 1 =>
    (byteRuns r.data).foldl (fun s x => localStore s r.core c near stable (base (64 * r.line + x.1)) x.2) s
  | 2 => r.accs.foldl (fun s a => atomLane s r near stable (base a.va) a) s
  | _ => s

/-! ## Bounces (13 R248, R250, R255) -/

/-- The entries of an instance of a queue kind of requests (13 R247). -/
def queueDepth (k : Nat) : Nat :=
  match k with
  | 0 => 64
  | 1 => 256
  | 2 | 3 => 32
  | 4 => 16
  | _ => 128

/-- The sub-link or relay class that carries a team's messages to a coach: its instance of the fabric injection queues (13 R247). -/
def fiqOf (s : State) (key coach : Nat) : Nat :=
  match roadTo s coach (subFor s key coach) with
  | some (l, q, _) => fiqInst l q
  | none => fiqInst (linkOf s coach) 0

/-- The instance of a queue kind that a request stands in. -/
def queueInst (s : State) (r : Req) (k : Nat) : Nat :=
  match k with
  | 0 => r.core
  | 1 | 2 => r.core / 4
  | 3 | 4 => home ((r.desc.orElse fun _ => r.pa).getD 0)
  | _ => fiqOf s r.team (r.pa.getD 0 / 2 ^ 44 % 16)

/-- A compartment is strict (22 R344). -/
def strictComp (s : State) (c : Nat) : Bool := (comp s c).desc.state ≠ 0 && (comp s c).desc.flags.getLsbD 1

/-- A queue instance of a depth, its entries held by the compartments given, has a free one for a compartment: in strict mode each
strict compartment has entries of its own, and the others share the rest (13 R248, 22 R345). -/
def shareRoom (s : State) (depth c : Nat) (held : List Nat) : Bool :=
  let strict := (Tab.keys s.comps).filter (strictComp s)
  let own := depth / 16
  if strict.contains c then (held.filter fun d => d = c).length < own
  else (held.filter fun d => !strict.contains d).length < depth - own * strict.length

/-- An instance has a free entry for a request. -/
def queueRoom (s : State) (r : Req) (k : Nat) : Bool :=
  shareRoom s (queueDepth k) (teamComp r.team)
    ((s.reqs.filter fun q => q.id ≠ r.id && q.stage = .queue k && queueInst s q k = queueInst s r k).map fun q => teamComp q.team)

/-- The queue before one on a request's path. -/
def upstream (k : Nat) : Nat :=
  match k with
  | 4 => 3
  | 2 | 3 | 5 => 1
  | _ => 0

/-- Where a request stands that cannot leave a queue: there, or upstream while the queue has no entry for it (13 R248). -/
def standIn (s : State) (r : Req) : Nat → Nat → Nat
  | 0, k => k
  | n + 1, k => if k = 0 || r.stage = .queue k || queueRoom s r k then k else standIn s r n (upstream k)

/-- A request stands in a queue from now on, unless it stood there already. -/
def stay (s : State) (r : Req) (k : Nat) : State :=
  let k := standIn s r 4 k
  if r.stage = .queue k && (req? s r.id).all (fun q => queueInst s q k = queueInst s r k) then putReq s r else putReq s { r with stage := .queue k, since := s.time, sinceClk := clk s r.core }

/-- The cause of a bounce from a queue (13 R254). -/
def bounceCause (r : Req) (k : Nat) : Nat := if r.missed then r.cause else if k = 5 then 7 else 2

/-- A request leaves its queue for the pannier. -/
def fly (s : State) (r : Req) (cause : Nat) (pulled : Bool) : State :=
  putReq s { r with stage := .flight, cause := cause, pulled := pulled, again := r.again || r.reissued, missed := false,
                    ready := false, readyAt := none, since := s.time }

/-- A request leaves its queue for the pannier with its sequences. -/
def flyOff (s : State) (id cause : Nat) (pulled : Bool) : State :=
  let s := ((req? s id).map (takeSeqs s)).getD s
  ((req? s id).map fun r => fly s r cause pulled).getD s

/-- A request is bounced with those that must follow it (13 R250). -/
def bounceReq (s : State) (r : Req) (cause : Nat) : State :=
  let s := flyOff (putReq s r) r.id cause false
  ((s.reqs.filter fun q => follows s r q && q.stage.queued.isSome).map (·.id)).foldl (fun s id => flyOff s id 2 true) s

/-- A size as the pannier codes it (13 R253). -/
def sizeCode (n : Nat) : Nat := if n ≤ 2 then n - 1 else if n = 4 then 2 else if n = 8 then 3 else 4

/-- PAYLOAD of a line request's entry (13 R253): T, the size and the lanes' offsets of what returns values, a store's bytes, or the
quad of a WAITC, or what a CLAIM or a WATCH has in hand. A request that only waits for a page has T code 124 (07 R131). -/
def reqPayload (s : State) (r : Req) : List Bits.Fld :=
  let size := ((r.accs.head?).map (·.size)).getD 4
  let (t, sx) := match (op? s r.op).map (·.kind) with
    | some (.load t _ _ sx _) => (t, sx)
    | some (.atomic _ t _ _ _) => (t, false)
    | _ => (124, false)
  let lanes : List Bits.Fld := [⟨0x20, 1, t⟩, ⟨0x21, 1, sizeCode size + if sx then 8 else 0⟩] ++
    r.accs.map fun a => ⟨0x22 + a.lane % 32, 1, a.va % 64⟩
  match r.cls with
  | 0 => lanes
  | 1 => r.data.map fun x => ⟨0x20 + x.1, 1, x.2.toNat⟩
  | 2 => if r.pay = [] then lanes ++ [⟨0x42, 1, r.code⟩] else r.pay.zipIdx.map fun x => ⟨0x20 + x.2, 1, x.1.toNat⟩
  | 3 => if r.pay ≠ [] then r.pay.zipIdx.map fun x => ⟨0x20 + x.2, 1, x.1.toNat⟩ else match op? s r.op with
    | some o => if o.kind = .arm then (List.range 4).map fun j => ⟨0x20 + 4 * j, 4, (o.issue.cap.s.getD (2 + j) 0).toNat⟩ else []
    | none => []
  | _ => []

/-- The 96 bytes of a line request's entry in the pannier (13 R253). -/
def reqEntry (s : State) (r : Req) : List Byte :=
  let mask := match r.cls with
    | 1 => r.data.foldl (fun m x => Nat.lor m (2 ^ x.1)) 0
    | 4 | 5 | 6 => 0
    | _ => r.lanes.toNat
  image 96 ([⟨0, 2, r.opc⟩, ⟨2, 1, (if r.ord = 0 then 0 else r.scope) + 8 * r.ord + 32 * r.cls⟩,
    ⟨3, 1, r.cause + (if r.pulled then 16 else 0) + if r.again then 32 else 0⟩, ⟨4, 4, if r.cause = 1 then r.fid else 0⟩,
    ⟨8, 3, r.age⟩, ⟨0xB, 5, ((r.seqs.head?).map (·.2)).getD 0⟩, ⟨0x10, 8, 64 * r.line⟩, ⟨0x18, 8, mask⟩] ++ reqPayload s r)

/-- The 96 bytes of an engine post's entry, its block with it (READ = 1). -/
def PostEntry.image (e : PostEntry) (cls cause handle : Nat) : List Byte :=
  Machine.image 96 [⟨0, 2, e.opc⟩, ⟨2, 1, 32 * cls⟩, ⟨3, 1, cause + if e.again then 32 else 0⟩, ⟨8, 3, e.age⟩, ⟨0x10, 8, e.line⟩,
    ⟨0x18, 8, handle + 2 ^ 16⟩] |>.take 32 |> (· ++ (e.block ++ List.replicate 64 0).take 64)

/-- A team's pannier, oldest first: each entry's number, whether it lies in the area, and its bytes. -/
def pannierOf (s : State) (key : Nat) : List (Nat × Bool × List Byte) :=
  let rs := (s.reqs.filter fun r => r.team = key && r.stage = .pannier).map fun r => (r.id, r.spilled, reqEntry s r)
  let ms := s.mats.filterMap fun m =>
    if m.team = key then m.stage.cause.map fun c => (m.id, m.entry.spilled, m.entry.image 5 c m.handle) else none
  let xs := s.copies.filterMap fun x =>
    if x.team = key then x.stage.cause.map fun c => (x.id, x.entry.spilled, x.entry.image 6 c x.handle) else none
  (rs ++ ms ++ xs).foldl (fun l x => l.takeWhile (fun y => y.1 < x.1) ++ x :: l.dropWhile fun y => y.1 < x.1) []

/-- The entries of a team's area are written in age order, 96 bytes apart, in the slot's part of the compartment's reserved memory
(13 R251, 15 R262). -/
def writeArea (s : State) (key : Nat) : State :=
  match team? s key with
  | none => s
  | some t =>
    match t.place.orElse fun _ => t.slotHeld with
    | none => s
    | some p =>
      let d := (comp s t.comp).desc
      let at' := 16384 * (512 * logicalCore s t.comp p.core + 64 * p.bench + p.slot)
      let bs := ((pannierOf s key).filter fun e => e.2.1).flatMap (·.2.2)
      if d.resvsz < at' + 16384 then s else putHome s (compKey s t.comp) (d.resv + at') (bs.take 16320)

/-- Before an entry enters a team's pannier, the oldest of four in SRAM moves to the area (13 R251). -/
def makeRoom (s : State) (key : Nat) : State :=
  let here := (pannierOf s key).filter fun e => !e.2.1
  match here with
  | e :: _ =>
    if here.length < 4 then s
    else
      writeArea { s with
        reqs := update s.reqs (fun r => r.id = e.1) fun r => { r with spilled := true }
        mats := update s.mats (fun m => m.id = e.1) fun m => { m with entry := { m.entry with spilled := true } }
        copies := update s.copies (fun x => x.id = e.1) fun x => { x with entry := { x.entry with spilled := true } } } key
  | [] => s

/-- An engine post as it enters the pannier once more. -/
def PostEntry.bounced (e : PostEntry) : PostEntry := { e with again := e.again || e.reissued, spilled := false }

/-- A bounced request enters its team's pannier (13 R251). -/
def enterPannier (s : State) (r : Req) : State :=
  let s := makeRoom s r.team
  putReq s { r with stage := .pannier, spilled := false, since := s.time,
                    readyAt := if r.cause = 1 || r.pulled then none else some (clk s r.core + 2048) }

/-- A walk ended as a miss (13 R250, R258, R259). -/
def missReq (s : State) (r : Req) (stage ipa : Nat) : State :=
  match team? s r.team with
  | none => dropReq s r.id
  | some t =>
    let f : FaultRecord :=
      { region := t.region, fid := 0, kind := stage, flags := if r.need.writes then 1 else 0, count := 1, va := r.va,
        ipa := if stage = 2 then ipa else 0, who := faultWho s r.team t, eng := 0 }
    match missFault s (teamComp r.team) r.fid f (if stage = 2 then ipa / 4096 else r.va / 4096) with
    | (s, some fid) => stay s { r with missed := true, fid := fid, cause := 1 } 1
    | (s, none) => stay s { r with missed := true, cause := 2 } 1

/-! ## Completion and failure of the instruction -/

/-- The entries that waited for an operation are released. -/
def releaseWaits (s : State) (id : Nat) : State :=
  wakeAll s (fun _ t => waitsOn (fun w => match w with | .remote i _ | .op i _ => i = id | _ => false) t) fun w =>
    match w with
    | .remote i _ | .op i _ => if i = id then some none else none
    | _ => none

/-- The wait of a WAITC whose monitor is still to be armed at an address. -/
def unarmed (va : Nat) : Wait → Bool
  | .monitor a pa .. => a = va && pa = 2 ^ 64
  | _ => false

/-- The address that a WAITC arms. -/
def MemOp.armVa (o : MemOp) : Nat := ((o.issue.cap.s.getD 0 0).toNat + 2 ^ 32 * (o.issue.cap.s.getD 1 0).toNat) % 2 ^ 57

/-- The entry of a WAITC whose monitor is not armed goes on without a status: its arming request has failed. -/
def disarm (s : State) (o : MemOp) : State :=
  match o.kind with
  | .arm => onTeam s o.team (wakeTeam fun w => if unarmed o.armVa w then some none else none)
  | _ => s

/-- The address of the first word of an issued instruction's run. -/
def ReplayEntry.start (e : ReplayEntry) : Nat := e.pc - 4 * e.hints.length

/-- An instruction that waits to issue again is passed by: the frame finds its lanes at the next word (15 R277 step 3). -/
def passWaiting (s : State) (key : Nat) (e : ReplayEntry) : State :=
  onTeam s key fun t => { t with front := rebuild (t.front.map fun x =>
    match x.wait with
    | some (.again _) => if x.pc = e.start && x.mask &&& e.mask ≠ 0 then { x with wait := none, pc := (e.pc + 4) % 2 ^ 57 } else x
    | _ => x) }

/-- The replay entries behind the instruction that fails. -/
def restOf (s : State) (key : Nat) (e : ReplayEntry) : List ReplayEntry :=
  match (team? s key).map (·.replayQ) with
  | some (r :: l) => if r.pc = e.pc && r.word = e.word then l else r :: l
  | _ => []

/-- The lanes that an instruction stands in the replay queue with (08 R141, 09 R180): all of a load's and of a tile's, and of
another's those that have not been performed, and have not left for a peer. -/
def leftLanes (s : State) (o : MemOp) : Word :=
  match o.kind with
  | .load .. | .tileLoad .. | .tileStore _ | .fetch .. => o.issue.mask
  | .arm => o.issue.mask
  | _ => ((opReqs s o.id).filter (fun r => !r.isAway) ++ o.todo).foldl (fun m r => m ||| r.lanes) 0

/-- An instruction that has issued and has not completed can be taken back: its line requests stand in queues or in the pannier, and
no value that it is to return has been read already. -/
def unfinished (o : MemOp) (rs : List Req) : Bool :=
  !o.late && (rs.all fun r => !r.isAway) && match o.kind with
    | .load .. | .store => true
    | .atomic .. => o.got = []
    | _ => false

/-- Its entry in a replay queue. -/
def asReplay (s : State) (o : MemOp) : ReplayEntry := { o.issue with mask := leftLanes s o, head := false }

/-- Instructions are taken back: their requests are withdrawn, and what waited for them goes on. -/
def withdraw (s : State) (l : List MemOp) : State :=
  let ids := l.map (·.id)
  let s := giveSeqs s (s.reqs.filter fun r => ids.contains r.op && r.cls ≠ 4)
  l.foldl (fun s o => releaseWaits s o.id)
    { s with reqs := s.reqs.filter (fun r => !ids.contains r.op || r.cls = 4), ops := s.ops.filter fun o => !ids.contains o.id }

/-- The younger instructions of a team which stand behind one that traps in the replay queue, in issue order (15 R277 step 2); none
while they do not fit (15 R268). -/
def youngerOf (s : State) (o : MemOp) (room : Nat) : List MemOp :=
  let l := s.ops.filter fun p => p.team = o.team && o.id < p.id && unfinished p (opReqs s p.id)
  if room < l.length then [] else l

/-- The block of a post that bounced has arrived, or what its read comes to is known: the post's checks come next (09 R185, R191). -/
def blockHere (s : State) (o : MemOp) : State :=
  let m := Bits.fld o.issue.word 26 6
  if m = 0x3A || m = 0x3B then onTeam s o.team fun t => { t with first := some (o.issue.start, o.issue.mask) } else s

/-- An issued instruction fails for some lanes: what is left of it is withdrawn and it heads the frame's replay queue, in which the
younger ones that have not completed follow it (08 R141, R145, 11 R216, 15 R277, 21 R322). -/
def abortOp (s : State) (o : MemOp) (mask : Word) (cause flane faddr : Nat) : State :=
  let s := giveSeqs s (opReqs s o.id)
  let s := { s with reqs := s.reqs.filter fun r => r.op ≠ o.id || r.cls = 4, ops := s.ops.filter fun p => p.id ≠ o.id,
                    stir := true }
  -- a compartment being reset takes no trap (22 R346 step 1)
  if inReset s (teamComp o.team) then s
  else
  match o.kind with
  | .touch => blockHere s o
  | .fetch .. =>
    takeTrap (passWaiting s o.team o.issue) o.team
      { cause := cause, tpc := o.issue.pc, flane := flane, faddr := faddr,
        replay := ({ o.issue with mask := mask, head := true } :: restOf s o.team o.issue).take 24 }
  | _ =>
    match team? s o.team with
    | none => s
    | some t =>
      if t.live = 0 then reap s
      else
        let rest := if s.cur.any fun u => u.team = o.team && u.replay.isSome then t.replayQ.drop 1 else t.replayQ
        let l := youngerOf s o (23 - rest.length)
        takeTrap (withdraw (disarm (releaseWaits s o.id) o) l) o.team
          { cause := cause, tpc := o.issue.pc, flane := flane, faddr := faddr,
            replay := ({ o.issue with mask := mask, head := true } :: l.map (asReplay s) ++ rest).take 24 }

/-- An atomic fails while lanes of it are on their way at a peer or the host, which perform them: it ends once they have answered
(08 R141). -/
def failLater (s : State) (o : MemOp) (cause lane va : Nat) : State :=
  let s := giveSeqs s ((opReqs s o.id).filter fun r => !r.isAway)
  putOp { s with reqs := s.reqs.filter fun r => r.op ≠ o.id || r.cls = 4 || r.isAway }
    { o with bad := some (o.bad.getD (cause, lane, va)), todo := [] }

/-- A request finds ACCESS, ADDR or an uncorrectable descriptor (08 R141, 12 R244). -/
def failReq (s : State) (r : Req) (cause : Nat) : State :=
  if r.cls = 4 then dropReq s r.id
  else
    match op? s r.op with
    | none => dropReq (giveSeqs s [r]) r.id
    | some o =>
      let lane := ((lanesOf r.lanes).head?).getD 0
      let va := ((r.accs.find? fun a => a.lane = lane).map (·.va)).getD r.va
      let s := if cause = 0x17 then reportAt s r.core (teamComp r.team) r.level r.va 0 else s
      match o.kind with
      | .atomic .. => if (opReqs s o.id).any Req.isAway then failLater s o cause lane va else abortOp s o (leftLanes s o) cause lane va
      | _ => abortOp s o (leftLanes s o) cause lane va

/-- A loaded value as its register receives it. -/
def loadedWord (v size j : Nat) (sext : Bool) : Word :=
  if sext then BitVec.ofNat 32 (Bits.sextNat v (8 * size) 32) else BitVec.ofNat 32 (v / 2 ^ (32 * j))

/-- What an operation writes to register j of lane i. -/
def MemOp.cell (o : MemOp) (j i : Nat) : Cell :=
  let v := Tab.getD o.got i 0
  match o.kind with
  | .load _ _ size sext tag =>
    ⟨loadedWord v size j sext, BitVec.ofNat 6 (if tag = 64 then Tab.getD o.got (32 + i) 0 else tag)⟩
  | .atomic _ _ _ _ tag => ⟨BitVec.ofNat 32 (v / 2 ^ (32 * j)), BitVec.ofNat 6 tag⟩
  | _ => {}

/-- The destination and its registers. -/
def MemOp.result (o : MemOp) : Option (Nat × Nat) :=
  match o.kind with
  | .load t n .. => some (t, n)
  | .atomic _ t _ r _ => if r = 0 then none else some (t, r)
  | _ => none

/-- The registers that a completed operation writes, and the latch of its team's bench (08 R146, R152, 02 R16). -/
def writeOp (s : State) (o : MemOp) : State :=
  match o.result with
  | none => s
  | some (t, n) =>
    let s := if t = 124 then s else onTeam s o.team fun x =>
      (List.range n).foldl (fun x j => Team.setReg x (t + j) o.issue.mask (o.cell j)) x
    match (team? s o.team).bind (·.place) with
    | some p =>
      if n = 1 then
        setBench s p.benchNo (pushLatch (bench s p.benchNo) (laneList.map fun i => if o.issue.mask.getLsbD i then o.cell 0 i else {}))
      else s
    | none => s

/-- A TLD writes its tile (09 R180). -/
def writeTile (s : State) (o : MemOp) : State :=
  match o.kind with
  | .tileLoad k ts base stride soff =>
    onCrew s (crewOf o.team) fun c =>
      { c with tiles := c.tiles.modify k fun t => t.loaded ts (tilePieces ts base stride soff) o.got }
  | _ => s

/-- The bytes that an instruction read from a peer or the host: an atomic's value is kept under the address from 2^57. -/
def keepFetched (s : State) (o : MemOp) : State :=
  match o.kind with
  | .fetch va n =>
    let lines := o.got.flatMap fun x => Bits.leBytes (if 2 ^ 57 ≤ va then 8 else min (64 * (va / 64 + x.1) + 64) (va + n) - max va (64 * (va / 64 + x.1))) x.2
    { s with fetched := s.fetched ++ [⟨o.team, o.issue.pc, o.issue.mask, va, lines⟩] }
  | _ => s

/-- An operation completes once every line request has been performed: its registers are written, its acquire is performed,
and what waited for it goes on (08 R146, R147, R152). -/
def finishOp (s : State) (id : Nat) : State :=
  match op? s id with
  | none => s
  | some o =>
    if opReqs s id ≠ [] || o.todo ≠ [] then s
    else
      match o.bad with
      | some (cause, lane, va) =>
        let mask := match o.kind with
          | .load .. | .tileLoad .. | .tileStore _ | .fetch .. => o.issue.mask
          | _ => o.issue.mask &&& maskOf fun i => (Tab.get? o.got i).isNone
        abortOp s o mask cause lane va
      | none =>
        let s := { s with ops := s.ops.filter fun p => p.id ≠ id, stir := true }
        match team? s o.team with
        | none => s
        | some t =>
          if t.live = 0 then reap s
          else
            let s := match o.kind with
              | .touch => blockHere s o
              | .arm => s
              | .tileLoad .. => writeTile s o
              | .fetch .. => keepFetched s o
              | _ => writeOp s o
            let s := match o.acq with
              | some sc => acquireAt s (holdingCore s o.team t) sc
              | none => s
            releaseWaits s id

/-! ## The path of a request (13 R247, R250) -/

/-- The entries of an instruction's lanes wait where they stand, as its page turns out to be remote after they issued on (08
R144). -/
def waitLate (s : State) (o : MemOp) (w : Wait) : State :=
  onTeam s o.team fun t => { t with front := t.front.map fun e =>
    if e.wait.isNone && e.mask &&& o.issue.mask ≠ 0 then { e with wait := some w } else e }

/-- A team parks for a load that turns out to be remote after its entry issued on (07 R124): under the carry set of its issue;
the bench switches, and the chain is broken (03 R45, R46). -/
def parkFor (s : State) (o : MemOp) : State :=
  let s := parkTeam (putOp s { o with late := true, parked := true }) o.team o.carry
  match (team? s o.team).bind (·.place) with
  | some p => if (bench s p.benchNo).holder = some o.team then endStint s p.benchNo else s
  | none => s

/-- What a remote page asks of an access that returns a value (08 R144): a load is a parking point, once every earlier register
write of the team has been made, and the entry of an atomic waits; `none` while the request may not leave yet. -/
def meetRemote (s : State) (r : Req) : State × Bool :=
  match op? s r.op with
  | none => (s, true)
  | some o =>
    match o.kind with
    | .load .. =>
      if o.parked then (s, true)
      else
        let s := if o.late then s else waitLate (putOp s { o with late := true }) o (.remote o.id true)
        if blockedBefore s o.team o.id || s.cur.any fun u => u.team = o.team then (s, false) else (parkFor s o, true)
    | .atomic .. => if o.late then (s, true) else (waitLate (putOp s { o with late := true }) o (.op o.id true), true)
    | _ => (s, true)

/-- A returning atomic's or load's tag at a peer or the host: its request, and its lane or 32 for the whole line. -/
def askTag (id lane : Nat) : Nat := 64 * id + lane

/-- The tag of a request: another one each time it is sent again (21 R317). -/
def Req.tag (r : Req) (lane : Nat) : Nat := askTag r.id lane + 2 ^ 40 * r.tries

/-- A posted write is kept with its request until it is acknowledged (21 R320), and entries that were pulled in behind the request
wait for it (13 R256). -/
def keepOrigin (s : State) (r : Req) (coach q : Nat) : State :=
  let x := subStream s r.team coach
  let s := match op? s r.op with
    | some o =>
      if (x.unacked ++ x.waiting).any fun w => w.seq = q then
        setSubStream s { x with origin := x.origin ++ [(q, { r with seqs := [(coach, q)], behind := [] }, { o with todo := [], got := [] })] }
      else s
    | none => s
  { s with reqs := s.reqs.map fun f => if f.pulled && follows s r f then { f with behind := f.behind ++ [(coach, q)] } else f }

/-- The j-th message of a remote store is posted. -/
def postReq (s : State) (r : Req) (coach addr : Nat) (mask : BitVec 64) (line : List Byte) (red : Option Nat) (j : Nat)
    (one : Req) : Option State :=
  let pre := (r.seqs[j]?).map (·.2)
  let q := pre.getD (nextSeq s r.team coach)
  (postRemote s r.team coach addr mask line red r.rlx pre).map fun s => keepOrigin s one coach q

/-- The lanes of a reduction are posted in their order. -/
def postLanes (coach : Nat) (r : Req) (addr : Nat) : State → List (Acc × Nat) → Option State
  | s, [] => some s
  | s, (a, j) :: l =>
    let off := a.va % 64
    let x := Bits.leBytes 4 (wordsNat (Tab.getD r.opnds a.lane []))
    match postReq s r coach addr (BitVec.ofNat 64 (15 * 2 ^ off)) (List.replicate off 0 ++ x ++ List.replicate (60 - off) 0)
        (some r.code) j { r with accs := [a] } with
    | some s => postLanes coach r addr s l
    | none => none

/-- Send a request to a coach (21 R317): none while it cannot advance. -/
def toPeer (s : State) (r : Req) (coach : Nat) (base : Nat → Nat) : Option State :=
  let at' (va : Nat) : Nat := base va % 2 ^ 44
  let away (s : State) : State :=
    putReq s { r with stage := .away r.id, since := s.time, pa := some (base r.va), via := routeRelay s coach }
  match r.act with
  | 1 =>
    let mask := r.data.foldl (fun m x => m + 2 ^ x.1) 0
    let line := (List.range 64).map fun i => ((r.data.find? fun x => x.1 = i).map (·.2)).getD 0
    (postReq s r coach (at' (64 * r.line)) (BitVec.ofNat 64 mask) line none 0 r).map fun s => dropReq s r.id
  | 2 =>
    if r.code = 18 || r.code = 19 then (postLanes coach r (at' (64 * r.line)) s r.accs.zipIdx).map fun s => dropReq s r.id
    else
      (r.accs.foldl (fun s a => s.bind fun s =>
        askRemote s r.team coach (r.tag a.lane) (at' a.va) a.size (some (r.code, Tab.getD r.opnds a.lane [])) r.rlx) (some s)).map away
  | _ => (askRemote s r.team coach (r.tag 32) (at' r.va) (r.end' - r.va) none r.rlx).map away

/-- Send a request to the host port (11 R218): a posted write counts as acknowledged once it has left. -/
def toHost (s : State) (r : Req) (base : Nat → Nat) : State :=
  let at' (va : Nat) : Nat := base va - 0x8000000000000
  let away (s : State) : State := putReq s { r with stage := .away r.id, since := s.time, pa := some (base r.va) }
  match r.act with
  | 1 => dropReq { s with out := s.out ++ (byteRuns r.data).map fun x => .hostWrite (at' (64 * r.line + x.1)) x.2 r.rlx } r.id
  | 2 =>
    let ask (a : Acc) : OutMsg :=
      .hostRead (r.tag a.lane) (at' a.va) a.size (some (r.code, Tab.getD r.opnds a.lane [])) r.rlx
    let s' := { s with out := s.out ++ r.accs.map ask }
    if r.code = 18 || r.code = 19 then dropReq s' r.id else away s'
  | _ => away { s with out := s.out ++ [.hostRead (r.tag 32) (at' r.va) (r.end' - r.va) none r.rlx] }

/-- The first descriptor that a request's walk cannot read, as the queue of its slice is held (13 R250). -/
def walkHeld (s : State) (r : Req) : Option Nat :=
  (walkReads s (some (r.core / 4)) (teamComp r.team) r.va).find? fun d => stalled s 3 (home d)

/-- The first queue on its path that a request cannot leave, by the stalls of the environment (log 8). -/
def stallOf (s : State) (r : Req) (pa : Option Nat) : Option Nat :=
  let near := nearScope s r.core r.ord r.scope
  if stalled s 0 r.core then some 0
  else
    match pa with
    | none =>
      if stalled s 1 (r.core / 4) then some 1 else if stalled s 2 (r.core / 4) then some 2
      else if (walkHeld s r).isSome then some 3 else none
    | some p =>
      let inL1 := near && (r.cls = 1 || (wordsOf p (r.end' - r.va)).all fun w =>
        (Tab.get? (core s (l1Loc s r.core (4 * w))).l1 w).isSome)
      if inL1 || localClass p = .none then none
      else if stalled s 1 (r.core / 4) then some 1
      else if stalled s 3 (home p) then some 3
      else if r.cls = 2 && r.pay = [] && stalled s 4 (home p) then some 4
      else none

/-- A poll of a WAITC on a peer or the host (08 R162, log 33): it asks for the word. -/
def pollAway (s : State) (r : Req) (pa : Nat) : State :=
  let r := { r with pa := some pa }
  let away (s : State) (via : Option Nat) : State := putReq s { r with stage := .away r.id, since := s.time, via := via }
  match paClass s pa with
  | .peer coach =>
    match askRemote s r.team coach (r.tag 32) (pa % 2 ^ 44) 4 none with
    | some s => away s (routeRelay s coach)
    | none => stay s r 5
  | .host => away { s with out := s.out ++ [.hostRead (r.tag 32) (pa - 0x8000000000000) 4 none false] } none
  | _ => dropReq s r.id

/-- A remote load or returning atomic waits for the team's earlier stores to the same coach that have not been posted, unless HRLX is
bound to either (11 R214). -/
def behindStores (s : State) (r : Req) (coach : Nat) : Bool :=
  !r.rlx && s.reqs.any fun q => q.team = r.team && q.id < r.id && !q.rlx && postCoach s q = some coach

/-- A request of the team's own accesses at a remote address leaves the device: a release writes back first (10 R207). -/
def leaveDevice (s : State) (r : Req) (pa : Nat) : State :=
  let base (va : Nat) : Nat := pa + va - r.va
  let (s, may) := meetRemote s r
  let s := if r.rel then releaseAt s r.core r.scope else s
  let asks := r.cls = 0 || (r.act = 2 && r.code ≠ 18 && r.code ≠ 19)
  if r.code = 17 && r.cls = 2 then failReq s r 7
  else if !may then stay s r 0
  else
    match paClass s pa with
    | .peer coach =>
      if asks && unreachableCoach s coach then
        dropReq (keepBad s r.op 0x18 (((lanesOf r.lanes).head?).getD 0) r.va) r.id
      else
        let s := takeSeqs (putReq s { r with pa := some pa }) { r with pa := some pa }
        let r' := (req? s r.id).getD r
        if heldBack s r.team coach (pa % 2 ^ 44) r.rlx || (asks && behindStores s r coach) then stay s r' 5
        else (toPeer s r' coach base).getD (stay s r' 5)
    | _ => toHost s r base

/-- A request is performed at its home. -/
def performHome (s : State) (r : Req) (pa : Nat) (stable : Bool) (ecc : Ecc) : State :=
  let base (va : Nat) : Nat := pa + va - r.va
  let near := nearScope s r.core r.ord r.scope
  let s := if ecc = .corrected then countCorrected s else s
  let lost (a : Acc) : Bool := ecc = .uncorrectable || loadFails s r.core near (base a.va) a.size
  match (if r.cls = 0 || (r.act = 2 && r.code ≠ 18 && r.code ≠ 19) then r.accs.find? lost else none) with
  | some a =>
    -- the word stays lost until a store replaces it whole (12 R244)
    let lostWords := if ecc = .uncorrectable then (wordsOf (base a.va) a.size).filter fun w => !s.failing.contains w else []
    let s := { s with failing := s.failing ++ lostWords }
    dropReq (keepBad (reportUncorr s (teamComp r.team) (base a.va) 0) r.op 0x17 a.lane a.va) r.id
  | none => dropReq (performLocal s r stable base) r.id

/-- The arming of a monitor on this device (08 R162): a condition that holds wakes at once, an acquire at its scope. -/
def armMonitor (s : State) (r : Req) (pa : Nat) (stable : Bool) : State :=
  let c := teamComp r.team
  let near := nearScope s r.core 1 r.scope
  let (s, bs) := localLoad s r.core c near stable pa 4
  let w := BitVec.ofNat 32 (Bits.ofLe bs)
  let holds (x : Wait) : Bool := unarmed r.va x && match x with
    | .monitor _ _ _ v m ctl _ _ => monitorHolds v m ctl w
    | _ => false
  let point := if near then some (l1Loc s r.core pa) else none
  let arm (x : Option Wait) : Option Wait := x.map fun x => match x with
    | .monitor a q _ v m ctl dl d => if unarmed r.va x then .monitor a pa point v m ctl dl d else .monitor a q none v m ctl dl d
    | x => x
  let s := if (team? s r.team).any (waitsOn holds) then acquireAt s r.core r.scope else s
  onTeam s r.team fun t =>
    let t := wakeTeam (fun x => if holds x then some (some 0) else none) t
    { t with
      front := t.front.map fun e => if e.wait.any (unarmed r.va) then { e with wait := arm e.wait } else e
      held := t.held.map fun h => if h.entry.wait.any (unarmed r.va) then { h with entry := { h.entry with wait := arm h.entry.wait } } else h }

/-- The sequences of a request whose page is not at their coach any more are given up. -/
def fitSeqs (s : State) (r : Req) (pa : Nat) : State × Req :=
  if r.seqs.all fun p => paClass s pa = .peer p.1 then (s, r)
  else (giveSeqs (putReq s { r with seqs := [] }) [r], { r with seqs := [] })

/-- A request that nothing holds up is performed, or leaves the device. -/
def arrive (s : State) (r : Req) (pa : Nat) (stable : Bool) (ecc : Ecc) : State :=
  let remote := localClass pa = .none
  let (s, r) := fitSeqs s r pa
  if (op? s r.op).any fun o => o.kind = .touch then dropReq s r.id
  else if r.cls = 4 then
    if remote then dropReq s r.id
    else
      match trySpawn s r.team r.core r.va pa with
      | (s, .done) => dropReq s r.id
      | (s, .bounce cause) => bounceReq s r cause
  else if r.cls = 3 then if remote then pollAway s r pa else dropReq (armMonitor s r pa stable) r.id
  else if remote then leaveDevice s r pa
  else performHome s r pa stable ecc

/-- A request goes as far on its path as it can: behind what it must follow, through its queues and its translation, to the
point where it is performed (13 R250). -/
def runReq (s : State) (id : Nat) (ecc : Ecc) : State :=
  match req? s id with
  | none => s
  | some r =>
    let r := { r with desc := none }
    match leaders s r with
    | q :: qs =>
      if (q :: qs).any fun q => q.stage.bounced then enterPannier s { r with cause := 2, pulled := true, again := r.again || r.reissued }
      else stay s r 0
    | [] =>
      let c := teamComp r.team
      let known := (tlbFind s r.core c r.va).isSome || inHeap (comp s c).heap r.va
      match stallOf s r none with
      | some k =>
        if k = 0 || !known then stay s { r with desc := if k = 3 then walkHeld s r else none } k else
          match translate s r.core c r.level r.need r.va with
          | (s, .ok pa st) => match stallOf s r (some pa) with
            | some k => stay s { r with pa := some pa } k
            | none => arrive s r pa st ecc
          | (s, _) => stay s r k
      | none =>
        match translate s r.core c r.level r.need r.va with
        | (s, .miss st ipa) => missReq s r st ipa
        | (s, .access) => failReq s r 7
        | (s, .addr) => failReq s r 8
        | (s, .uncorr _) => failReq s r 0x17
        | (s, .ok pa st) =>
          match stallOf s r (some pa) with
          | some k => stay s { r with pa := some pa } k
          | none => arrive s r pa st ecc

/-- A new request of an operation sets out. -/
def startReq (s : State) (r : Req) : State :=
  let id := s.nextId
  runReq (addReq s r) id .clean

/-- The line requests of an operation that wait for credits, or for an entry of the core request queue, set out as these return
(13 R252, R248). -/
def feedOp (s : State) (id : Nat) : State :=
  (((op? s id).map (·.todo)).getD []).foldl (fun s _ =>
    match op? s id with
    | some o =>
      match o.todo with
      | r :: rest =>
        if creditsHeld s o.team + r.credits ≤ 174 && queueRoom s r 0 then startReq (putOp s { o with todo := rest }) r else s
      | [] => s
    | none => s) s

/-- Operations of a team whose line requests wait for credits go on. -/
def feedTeam (s : State) (key : Nat) : State :=
  ((s.ops.filter fun o => o.team = key && o.todo ≠ []).map (·.id)).foldl (fun s id => finishOp (feedOp s id) id) s

/-- A request goes on, and its instruction completes if it was the last. -/
def advanceReq (s : State) (id : Nat) (ecc : Ecc) : State :=
  match req? s id with
  | none => s
  | some r => { feedTeam (finishOp (runReq s id ecc) r.op) r.team with stir := true }

/-- OPC of a word (13 R253): its major, and F, OP or FN of its format. -/
def opcOf (w : Word) : Nat :=
  let m := Bits.fld w 26 6
  m + 64 * (if 0x34 ≤ m && m ≤ 0x37 then Bits.fld w 0 5 else if memMajor m then 0 else Bits.fld w 18 7)

/-- An issued instruction of the memory system sets out with its line requests, and completes at once if all of them are
performed. -/
def startOp (s : State) (o : MemOp) (reqs : List Req) : State × Nat :=
  let (id, s) := fresh s
  let s := { s with ops := s.ops ++ [{ o with id := id, todo := reqs.map fun r => { r with op := id, opc := opcOf o.issue.word } }] }
  (finishOp (feedOp s id) id, id)

/-! ## A page that an instruction waits for -/

/-- The instruction waits for a page without having been performed: its request bounces in the class given, and the
instruction issues again once the page is there (log 21). -/
def touchPage (c : Ctx) (cls : Nat) (va : Nat) (s : State) (pay : List Byte := []) : Gate :=
  if s.ops.any fun o => o.team = c.key && o.kind = .touch && o.issue.pc = c.cur.pc && o.issue.mask = c.act then .wait
  else
    .hold (startOp s { id := 0, team := c.key, issue := c.entryOf c.act true, kind := .touch }
      [{ id := 0, op := 0, team := c.key, core := c.place.core, cls := cls, ord := 1, scope := 4, code := 0, line := va / 64,
         accs := [⟨((lanesOf c.act).head?).getD 0, va, 1⟩], age := 0, stage := .queue 0, since := 0,
         level := c.team.level, pay := pay }]).1

end Sys2Proof.Machine
end

