-- ==== Sys2Proof/Machine/Memory.lean ====
section
/-! DEFINITION. Loads, stores and atomics (08 R141 to R156), the scratchpad (R150), fences and cache control (R157 to R161),
majors 0x24 to 0x38. -/

namespace Sys2Proof.Machine

/-- What an M- or AT-format instruction does with its lines (08 R146, R147, R152, R153). -/
structure Access where
  cls : Nat
  size : Nat
  ord : Nat
  scope : Nat
  acq : Bool
  rel : Bool
  /-- The OP code of an atomic. -/
  code : Nat := 0
  shadow : Bool := false
  /-- T, the registers it returns, sign extension, and the tag (64: the shadow byte's). -/
  t : Nat
  regs : Nat := 0
  sext : Bool := false
  tag : Nat := 63
  deriving DecidableEq, Repr

/-- What an access needs of its pages (12 R236). -/
def Access.need (m : Access) : Need :=
  match m.cls with
  | 0 => .rd
  | 1 => .wr
  | _ => .rw

/-- What the instruction does when its lines have been performed. -/
def Access.kind (m : Access) : OpKind :=
  match m.cls with
  | 0 => .load m.t m.regs m.size m.sext m.tag
  | 1 => .store
  | _ => .atomic m.code m.t 0 m.regs m.tag

/-- It writes registers when it has been performed. -/
def Access.returns (m : Access) : Bool := m.cls = 0 || (m.cls = 2 && m.regs ≠ 0)

/-- The address of a lane's shadow byte (04 R72, 02 R24). -/
def Ctx.shadowAt (c : Ctx) (i : Nat) : Nat :=
  (c.team.tagLo.toNat + 2 ^ 32 * c.team.tagHi.toNat + c.address i / 4) % 2 ^ 57

/-- The accesses of an instruction in lane order, the word of each lane before its shadow byte. -/
def Access.accs (m : Access) (c : Ctx) : List Acc :=
  (lanesOf c.act).flatMap fun i => ⟨i, c.address i, m.size⟩ :: if m.shadow then [⟨i, c.shadowAt i, 1⟩] else []

/-- A range of bytes hits a range-lock of the cluster (08 R141 step 4, 09 R195): `crew` names a scratchpad. A lock holds from the cycle
after its command's acceptance, and for the team that issued it at once (18 R305). -/
def lockHit (s : State) (key cl : Nat) (crew : Option Nat) (write : Bool) (lo n : Nat) : Bool :=
  s.copies.any fun x => x.cluster = cl && (x.team = key || x.acceptedAt < s.time) && x.locks.any fun l =>
    l.crew = crew && (write || l.write) && l.lo < lo + n && lo ≤ l.hi

/-- The first access that a test picks. -/
def firstAcc (as : List Acc) (p : Acc → Bool) : Option Acc := as.find? p

/-- A trap at an access. -/
def accTrap (cause : Nat) (a : Acc) : Gate :=
  .trap { cause := cause, flane := a.lane, faddr := a.va, walked := cause = 7 || cause = 8 }

/-- An access reaches a page of the device. -/
def Xres.isLocal : Xres → Bool
  | .ok pa _ => localClass pa ≠ .none
  | _ => false

/-- An access reaches a peer or the host. -/
def Xres.isRemote : Xres → Bool
  | .ok pa _ => localClass pa = .none
  | _ => false

/-- Steps 1 to 4 of R141 over the lanes; `local'` refuses a remote page (R155). -/
def accessChecks (c : Ctx) (s : State) (need : Need) (size : Nat) (as : List Acc) (local' : Bool) : Gate :=
  let res := as.map fun a => (a, peek s c.place.core c.team.comp c.team.level need a.va)
  let find (p : Xres → Bool) : Option Acc := (res.find? fun x => p x.2).map (·.1)
  match firstAcc as fun a => a.size = size && a.va % size ≠ 0 with
  | some a => accTrap 6 a
  | none => match find fun r => r = .addr with
  | some a => accTrap 8 a
  | none => match find fun r => r = .access || (local' && r.isRemote) with
  | some a => accTrap 7 a
  | none => match find Xres.failed with
  | some a => accTrap 0x17 a
  | none => match firstAcc as fun a => lockHit s c.key (c.place.core / 4) none need.writes a.va a.size with
  | some a => accTrap 9 a
  | none => .go

/-- A release at .fab or .sys waits for the team's remote stores, and reports lost ones first (11 R215, R216). -/
def releaseWait (c : Ctx) (s : State) (scope : Nat) (lane : Nat) : Gate :=
  if 5 ≤ scope then
    if c.team.outst ≠ 0 || inherited s c.key ≠ 0 then .wait
    else if c.team.lost ≠ 0 then .trap { cause := 0x18, flane := lane, loss := true }
    else .go
  else .go

/-- The checks and the waits of an M- or AT-format instruction. -/
def memGate (m : Access) (c : Ctx) (s : State) : Gate :=
  let as := m.accs c
  match accessChecks c s m.need m.size as (m.cls = 2 && m.code = 17) with
  | .go =>
    if c.act = 0 then .go else
    if acquiring s c.key || starved s c.key then .wait
    else if (m.acq || m.rel) && outstanding s c.key then .wait
    else if m.rel then releaseWait c s m.scope (((lanesOf c.act).head?).getD 0)
    else .go
  | g => g

/-- The line request of some accesses. -/
def Access.req (m : Access) (c : Ctx) (shadow : Bool) (as : List Acc) : Req :=
  { id := 0, op := 0, team := c.key, core := c.place.core, cls := m.cls, ord := m.ord, scope := m.scope, code := m.code,
    line := ((as.head?.map (·.va)).getD 0) / 64, accs := as, shadow := shadow, age := 0, stage := .queue 0, since := 0,
    rlx := c.hints.hrlx, level := c.team.level, rel := m.rel }

/-- The lines that some accesses touch, ascending. -/
def accLines (as : List Acc) : List (List Acc) :=
  (sorted (distinct (as.map fun a => a.va / 64))).map fun l => as.filter fun a => a.va / 64 = l

/-- The data register bytes of a store's lane, or its shadow byte (08 R146, 04 R72). -/
def Ctx.storeBytes (c : Ctx) (shadow : Bool) (size i : Nat) : List Byte :=
  if shadow then [BitVec.ofNat 8 (c.v 2 0 i).tag.toNat]
  else ((List.range (ceilDiv size 4)).flatMap fun j => Bits.leBytes 4 (c.v 2 j i).val.toNat).take size

/-- The combined data of a store's line (08 R142): the highest lane supplies a byte that several write. -/
def combineData (f : Acc → List Byte) (as : List Acc) : List (Nat × Byte) :=
  as.foldl (fun d a => (f a).zipIdx.foldl (fun d x => Tab.put d (a.va % 64 + x.2) x.1) d) []

/-- The operand words of an atomic's lane, in the order T, T+1, … -/
def Ctx.atomWords (c : Ctx) (n i : Nat) : List Word := (List.range n).map fun j => (c.v 2 j i).val

/-- The line requests of an instruction (13 R253): the words' lines first, then the shadows' (08 R148). -/
def Access.reqs (m : Access) (c : Ctx) : List Req :=
  let mk (shadow : Bool) (as : List Acc) : Req :=
    let r := m.req c shadow as
    match m.cls with
    | 1 => { r with data := combineData (fun a => c.storeBytes shadow a.size a.lane) as }
    | 2 => { r with opnds := as.map fun a => (a.lane, c.atomWords 4 a.lane) }
    | _ => r
  let words := (lanesOf c.act).map fun i => (⟨i, c.address i, m.size⟩ : Acc)
  let bytes := if m.shadow then (lanesOf c.act).map fun i => (⟨i, c.shadowAt i, 1⟩ : Acc) else []
  (accLines words).map (mk false) ++ (accLines bytes).map (mk true)

/-- The effect of an M- or AT-format instruction: its requests set out; a remote load parks its team, once the earlier register
writes have been made (07 R124), and a returning remote atomic keeps its entry waiting (08 R144). -/
def memEffect (m : Access) (c : Ctx) (s : State) : Done :=
  let remote := m.returns && (m.accs c).any fun a =>
    (peek s c.place.core c.team.comp c.team.level m.need a.va).isRemote
  let parks := remote && m.cls = 0 && !parkBlocked s c.key
  let s := if parks then parkTeam s c.key c.carry else s
  let (s, id) := startOp s
    { id := 0, team := c.key, issue := c.entryOf c.act true, kind := m.kind, acq := if m.acq && c.act ≠ 0 then some m.scope else none,
      carry := c.carry, late := remote, parked := parks }
    (m.reqs c)
  if remote && (op? s id).isSome then
    { s := s, moves := some (c.waitHere (if m.cls = 0 then .remote id false else .op id false)), yields := parks }
  else { s := s, yields := parks }

/-- An M- or AT-format instruction. -/
def memPerform (h : Shape) (m : Ctx → Access) (s : State) : Host.Outcome State Fault Refusal :=
  performGated h (fun c s => memGate (m c) c s) (fun c s => memEffect (m c) c s) s

/-! ## Loads and stores, 0x24 to 0x31 (08 R146 to R148) -/

/-- A load of an M word. -/
def loadOf (x : MF) (size regs : Nat) (sext shadow : Bool) (tag : Nat) (_ : Ctx) : Access :=
  { cls := 0, size := size, ord := x.ord.toNat, scope := x.sco.toNat, acq := 2 ≤ x.ord.toNat, rel := x.ord = 3,
    shadow := shadow, t := x.t.toNat, regs := regs, sext := sext, tag := tag }

/-- A store of an M word. -/
def storeOf (x : MF) (size : Nat) (shadow : Bool) (_ : Ctx) : Access :=
  { cls := 1, size := size, ord := x.ord.toNat, scope := x.sco.toNat, acq := x.ord = 3, rel := 2 ≤ x.ord.toNat,
    shadow := shadow, t := x.t.toNat }

def execLd8I (x : MF) (s : State) := memPerform (Shape.ld 0x24 x 1) (loadOf x 1 1 true false 63) s
def execLd8N (x : MF) (s : State) := memPerform (Shape.ld 0x25 x 1) (loadOf x 1 1 false false 63) s
def execLd16I (x : MF) (s : State) := memPerform (Shape.ld 0x26 x 1) (loadOf x 2 1 true false 63) s
def execLd16N (x : MF) (s : State) := memPerform (Shape.ld 0x27 x 1) (loadOf x 2 1 false false 63) s
def execLd32 (x : MF) (s : State) := memPerform (Shape.ld 0x28 x 1) (loadOf x 4 1 false false 24) s
def execLd64 (x : MF) (s : State) := memPerform (Shape.ld 0x29 x 2) (loadOf x 8 2 false false 53) s
def execLd128 (x : MF) (s : State) := memPerform (Shape.ld 0x2A x 4) (loadOf x 16 4 false false 53) s
def execLdt32 (x : MF) (s : State) := memPerform (Shape.ld 0x2B x 1) (loadOf x 4 1 false true 64) s
def execSt8 (x : MF) (s : State) := memPerform (Shape.st 0x2C x 1) (storeOf x 1 false) s
def execSt16 (x : MF) (s : State) := memPerform (Shape.st 0x2D x 1) (storeOf x 2 false) s
def execSt32 (x : MF) (s : State) := memPerform (Shape.st 0x2E x 1) (storeOf x 4 false) s
def execSt64 (x : MF) (s : State) := memPerform (Shape.st 0x2F x 2) (storeOf x 8 false) s
def execSt128 (x : MF) (s : State) := memPerform (Shape.st 0x30 x 4) (storeOf x 16 false) s
def execStt32 (x : MF) (s : State) := memPerform (Shape.st 0x31 x 1) (storeOf x 4 true) s

/-! ## Scratchpad, 0x32 and 0x33 (08 R150) -/

/-- The bytes of a size code (03 R43). -/
def scratchSize (sco : BitVec 3) : Nat :=
  match sco.toNat with
  | 0 | 1 => 1
  | 2 | 3 => 2
  | 4 => 4
  | 5 => 8
  | _ => 16

/-- A lane's offset (08 R150). -/
def Ctx.scratchAt (c : Ctx) (i : Nat) : Nat := (c.pair 0 + (c.v 0 0 i).val.toNat + c.offset 64) % 2 ^ 64

/-- Bytes of a crew's scratchpad: 64 KiB for each way granted (12 R228). -/
def scratchBytes (s : State) (ck : Nat) : Nat := 65536 * ((crew? s ck).map (·.scr)).getD 0

/-- The checks of R150, each over every lane. DESIGN CHOICE (log 98): a misaligned offset raises ALIGN in a crew without a scratchpad
too. -/
def scratchGate (size : Nat) (write : Bool) (c : Ctx) (s : State) : Gate :=
  let ck := crewOf c.key
  let bad (i : Nat) : Bool := !write && ((crew? s ck).map (·.failing)).any fun l => (wordsOf (c.scratchAt i) size).any l.contains
  let at' (cause : Nat) (i : Nat) : Gate := .trap { cause := cause, flane := i, faddr := c.scratchAt i, scratch := true }
  match c.firstLane fun i => c.scratchAt i % size ≠ 0 with
  | some i => at' 6 i
  | none => match c.firstLane fun i => scratchBytes s ck < c.scratchAt i + size with
  | some i => at' 8 i
  | none => match c.firstLane fun i => lockHit s c.key (c.place.core / 4) (some ck) write (c.scratchAt i) size with
  | some i => at' 9 i
  -- a word that error correction cannot correct (12 R244)
  | none => match c.firstLane bad with
  | some i => at' 0x17 i
  | none => acquireGate s c.key

/-- The bytes of a crew's scratchpad. -/
def scratchOf (s : State) (ck : Nat) : List Host.Cell := ((crew? s ck).map (·.scratch)).getD []

def execLds (x : MF) (s : State) :=
  let size := scratchSize x.sco
  performGated (Shape.lds x) (scratchGate size false) (fun c s =>
    let m := scratchOf s (crewOf c.key)
    let sext : Bool := x.sco = 1 || x.sco = 3
    let cell (j i : Nat) : Cell :=
      ⟨loadedWord (memLe m (c.scratchAt i) size) size j sext, if size < 4 then 63 else if size = 4 then 24 else 53⟩
    if size ≤ 4 then { s := writeVector c (cell 0) s } else { s := writeGroup c (size / 4) cell s }) s

def execSts (x : MF) (s : State) :=
  let size := scratchSize x.sco
  performGated (Shape.sts x) (scratchGate size true) (fun c s =>
    { s := onCrew s (crewOf c.key) fun w =>
        { w with
          scratch := (lanesOf c.act).foldl (fun m i => memWrite m (c.scratchAt i) (c.storeBytes false size i)) w.scratch
          failing := w.failing.filter fun x =>
            !(lanesOf c.act).any fun i => c.scratchAt i ≤ 4 * x && 4 * x + 4 ≤ c.scratchAt i + size } }) s

/-! ## Atomics, 0x34 to 0x37 (08 R152 to R156) -/

/-- An atomic of an AT word: its scope is .dev unless HSCP gives one (03 R43). -/
def atomOf (o : BitVec 2) (x : AT) (code size regs tag : Nat) (c : Ctx) : Access :=
  { cls := 2, size := size, ord := match o.toNat with | 0 => 1 | 3 => 3 | _ => 2, scope := c.hints.hscp.getD 4,
    acq := o = 1 || o = 3, rel := o = 2 || o = 3, code := code, t := x.t.toNat, regs := regs, tag := tag }

/-- An atomic that reads `n` registers of T. -/
def atomPerform (o : BitVec 2) (x : AT) (code n size regs tag : Nat) (s : State) : Host.Outcome State Fault Refusal :=
  memPerform (Shape.atom o x n regs) (atomOf o x code size regs tag) s

def execAtomAdd (o : BitVec 2) (x : AT) (s : State) := atomPerform o x 0 1 4 1 63 s
def execAtomAdd64 (o : BitVec 2) (x : AT) (s : State) := atomPerform o x 1 2 8 2 63 s
def execAtomMini (o : BitVec 2) (x : AT) (s : State) := atomPerform o x 2 1 4 1 63 s
def execAtomMaxi (o : BitVec 2) (x : AT) (s : State) := atomPerform o x 3 1 4 1 63 s
def execAtomMinn (o : BitVec 2) (x : AT) (s : State) := atomPerform o x 4 1 4 1 63 s
def execAtomMaxn (o : BitVec 2) (x : AT) (s : State) := atomPerform o x 5 1 4 1 63 s
def execAtomAnd (o : BitVec 2) (x : AT) (s : State) := atomPerform o x 6 1 4 1 63 s
def execAtomOr (o : BitVec 2) (x : AT) (s : State) := atomPerform o x 7 1 4 1 63 s
def execAtomXor (o : BitVec 2) (x : AT) (s : State) := atomPerform o x 8 1 4 1 63 s
def execAtomSwap (o : BitVec 2) (x : AT) (s : State) := atomPerform o x 9 1 4 1 63 s
def execAtomCas (o : BitVec 2) (x : AT) (s : State) := atomPerform o x 10 2 4 1 63 s
def execAtomSwap64 (o : BitVec 2) (x : AT) (s : State) := atomPerform o x 11 2 8 2 63 s
def execAtomCas64 (o : BitVec 2) (x : AT) (s : State) := atomPerform o x 12 4 8 2 63 s
def execAtomFadd (o : BitVec 2) (x : AT) (s : State) := atomPerform o x 13 1 4 1 24 s
def execAtomFmin (o : BitVec 2) (x : AT) (s : State) := atomPerform o x 14 1 4 1 24 s
def execAtomFmax (o : BitVec 2) (x : AT) (s : State) := atomPerform o x 15 1 4 1 24 s
def execAtomIncw (o : BitVec 2) (x : AT) (s : State) := atomPerform o x 16 1 4 1 63 s
def execAtomDecsp (o : BitVec 2) (x : AT) (s : State) := atomPerform o x 17 1 4 1 63 s
def execAtomRedadd (o : BitVec 2) (x : AT) (s : State) := atomPerform o x 18 1 4 0 63 s
def execAtomRedfadd (o : BitVec 2) (x : AT) (s : State) := atomPerform o x 19 1 4 0 63 s

/-! ## Fences and cache control, 0x38 (08 R157 to R161) -/

/-- A fence waits until everything older has been performed (08 R158), and at .fab or .sys for the team's remote stores. -/
def fenceGate (scope : Nat) (c : Ctx) (s : State) : Gate :=
  if 5 ≤ scope && (c.team.outst ≠ 0 || inherited s c.key ≠ 0) then .wait else olderGate c s

/-- FENCE (08 R158): a loss is raised after it completes. -/
def execFence (order : BitVec 2) (scope : BitVec 3) (x : SF) (s : State) :=
  performGated (Shape.fence scope x) (fenceGate scope.toNat) (fun c s =>
    -- a fence at .fab or .sys does the work of a release whatever its order (11 R215)
    let s := if order ≠ 0 || 5 ≤ scope.toNat then releaseAt s c.place.core scope.toNat else s
    let s := if order ≠ 1 then acquireAt s c.place.core scope.toNat else s
    if 5 ≤ scope.toNat && c.team.lost ≠ 0 then
      { s := onTeam s c.key fun t => { t with lost := 0 }, post := some { cause := 0x18, tpc := c.cur.pc } }
    else { s := s }) s

/-- The physical line that a word of an L1 lies in meets a translated range. -/
def lineMeets (ps : List (Nat × Nat)) (w : Nat) : Bool := ps.any fun p => p.1 / 64 ≤ w / 16 && w / 16 ≤ (p.1 + p.2 - 1) / 64

/-- The walks of a range's pages leave AC in the leaves they find (12 R236). -/
def markRange (s : State) (k c base len : Nat) : State :=
  (pageParts base len).foldl (fun s p => markRefused s k c (p.1 % 2 ^ 57)) s

/-- FLUSHR writes back the dirty words of the range's lines (08 R159). -/
def execFlushr (order : BitVec 2) (scope : BitVec 3) (x : SF) (s : State) :=
  performGated (Shape.flushr order scope x) olderGate (fun c s =>
    let ps := rangeParts s c.place.core c.team.comp (c.pair 0 % 2 ^ 57) (c.s 2).toNat
    let s := markRange s c.place.core c.team.comp (c.pair 0 % 2 ^ 57) (c.s 2).toNat
    { s := (l1Group s c.place.core).foldl (fun s j => writeBackIf s j (lineMeets ps)) s }) s

/-- INVR writes back and invalidates the range's lines (08 R160). -/
def execInvr (order : BitVec 2) (scope : BitVec 3) (x : SF) (s : State) :=
  performGated (Shape.invr order scope x) olderGate (fun c s =>
    let ps := rangeParts s c.place.core c.team.comp (c.pair 0 % 2 ^ 57) (c.s 2).toNat
    let s := markRange s c.place.core c.team.comp (c.pair 0 % 2 ^ 57) (c.s 2).toNat
    { s := (l1Group s c.place.core).foldl (fun s j => dropWords s j (lineMeets ps)) s }) s

/-- The registered owners of a line other than one L1 write its words back, and each word of it is registered there (08 R161,
11 R213). -/
def ownLine (s : State) (j line : Nat) : State :=
  (List.range 16).foldl (fun s i =>
    let w := 16 * line + i
    match Tab.get? s.owners w with
    | some o => if o = j then s else { writeBackWord s o w with owners := Tab.put (writeBackWord s o w).owners w j }
    | none => if stalled s 8 j then { s with registering := s.registering ++ [(j, w)] } else { s with owners := Tab.put s.owners w j }) s

/-- PREF brings a line into the L1 as clean words, into the L2, or into the L1 with the ownership of its words (08 R161, log 32). -/
def prefLine (s : State) (k c order pa : Nat) (stable : Bool) : State :=
  let line := pa / 64
  if order = 1 then l2Touch s (compKey s c) pa
  else
    let s := if order = 2 then ownLine s (l1Loc s k pa) line else s
    (l1Words s k c stable (wordsOf (64 * line) 64)).1

/-- A load of the team's core that a line request stands for. -/
def Ctx.loadReq (c : Ctx) (va : Nat) : Req :=
  { id := 0, op := 0, team := c.key, core := c.place.core, cls := 0, ord := 0, scope := 0, code := 0, line := va / 64,
    accs := [⟨0, va, 64⟩], age := 0, stage := .queue 0, since := 0, level := c.team.level }

/-- PREF (08 R161): a page that cannot be had, or is not on this device, is passed over, and so is a line whose request would bounce
(R151). -/
def execPref (order : BitVec 2) (scope : BitVec 3) (x : SF) (s : State) :=
  performGated (Shape.pref order scope x) (fun _ _ => .go) (fun c s =>
    let k := c.place.core
    let base := c.pair 0 % 2 ^ 57
    let len := min 65536 (c.s 2).toNat
    let lines := if len = 0 then [] else (List.range ((base + len - 1) / 64 - base / 64 + 1)).map fun j => base / 64 + j
    { s := lines.foldl (fun s l =>
        let va := 64 * l % 2 ^ 57
        let r := c.loadReq va
        match peek s k c.team.comp c.team.level .rd va with
        | .ok pa st =>
          if localClass pa = .none || homeFails s pa 64 || (stallOf s r none).isSome || (stallOf s r (some pa)).isSome then s
          else prefLine (markRefused s k c.team.comp va) k c.team.comp order.toNat pa st
        | _ => s) s }) s

end Sys2Proof.Machine
end

