-- ==== Sys2Proof/Machine/Reading.lean ====
section
/-! DEFINITION. What an instruction reads at its issue besides its operands: parameter and command blocks (09 R185, R191) and
trunks (07 R131 to R135), successor records (08 R163), in this device's memory or, once they have been fetched, in a peer's or the host's. -/

namespace Sys2Proof.Machine

/-- The lane a team-wide instruction records with a trap. -/
def Ctx.lane0 (c : Ctx) : Nat := ((lanesOf c.act).head?).getD 0

/-- A trap of a team-wide instruction at an address. -/
def Ctx.trapAt (c : Ctx) (cause va : Nat) : Gate := .trap { cause := cause, flane := c.lane0, faddr := va }

/-- A trap of its access to a page, whose walk may have found leaves (12 R236). -/
def Ctx.pageTrap (c : Ctx) (cause va : Nat) : Gate := .trap { cause := cause, flane := c.lane0, faddr := va, walked := true }

/-- The page of an address that a team-wide instruction needs: its trap, the request it waits for, or its translation (08 R141
steps 2 and 3); `pay` is what its request has in hand. -/
def pageGate (c : Ctx) (s : State) (cls : Nat) (need : Need) (va : Nat) (ok : Nat → Bool → Gate) (pay : List Byte := []) : Gate :=
  match peek s c.place.core c.team.comp c.team.level need va with
  | .addr => c.pageTrap 8 va
  | .access => c.pageTrap 7 va
  | .uncorr _ => c.trapAt 0x17 va
  | .miss .. => touchPage c cls va s pay
  | .ok pa st => ok pa st

/-- A page that the instruction may have only on this device. -/
def localGate (c : Ctx) (s : State) (cls : Nat) (need : Need) (va : Nat) (ok : Nat → Gate) (pay : List Byte := []) : Gate :=
  pageGate c s cls need va (pay := pay) fun pa _ => if localClass pa = .none then c.pageTrap 7 va else ok pa

/-- The queues on the path of a request that an instruction makes at its issue let it through: otherwise it bounces, with what it has in
hand (08 R151). -/
def pathGate (c : Ctx) (s : State) (r : Req) (ok : Gate) (pay : List Byte := []) : Gate :=
  match peek s r.core (teamComp r.team) r.level r.need r.va with
  | .ok pa _ =>
    if (stallOf s r none).isSome || (localClass pa ≠ .none && (stallOf s r (some pa)).isSome) then touchPage c r.cls r.va s pay else ok
  | _ => ok

/-- An access at issue waits for the team's acquires, and behind those older accesses that a request would go behind (10 R203, R204, 08
R151). -/
def behindOlder (c : Ctx) (s : State) (stores : Bool) (va n : Nat) : Bool :=
  acquiring s c.key || s.reqs.any fun q => q.team = c.key && q.cls ≤ 3 && !q.polls &&
    ((va / 64 ≤ q.line && q.line ≤ (va + n - 1) / 64) || (stores && q.stores && !q.isAway))

/-- The translation of an address at the issue of an instruction whose gate it has passed. -/
def pageOf (c : Ctx) (s : State) (need : Need) (va : Nat) : State × Nat × Bool :=
  match translate s c.place.core c.team.comp c.team.level need va with
  | (s, .ok pa st) => (s, pa, st)
  | (s, _) => (s, 0, false)

/-- A byte as a strong access of a core reads it: a dirty word of its own L1 is written back first (10 R201), unless another write has
superseded it (11 R213). -/
def strongByte (s : State) (k c pa : Nat) : Byte :=
  let j := l1Loc s k pa
  let mine : Bool := Tab.get? s.owners (pa / 4) = some j || s.registering.contains (j, pa / 4)
  match Tab.get? (core s j).l1 (pa / 4) with
  | some w => if w.dirty && mine then BitVec.ofNat 8 (w.val.toNat / 2 ^ (8 * (pa % 4))) else homeByte s (compKey s c) pa
  | none => homeByte s (compKey s c) pa

/-- `n` bytes from an address as a weak or a strong access reads them. -/
def readBytes (s : State) (k c : Nat) (strong : Bool) (pa n : Nat) : List Byte :=
  if strong then (List.range n).map fun j => strongByte s k c (pa + j) else viewBytes s k c pa n

/-- What a read at issue comes to: its bytes, or what the instruction does instead. -/
inductive Got where
  | bytes (b : List Byte)
  | gate (g : Gate)
  deriving DecidableEq, Repr

/-- The bytes that have been fetched for the instruction from an address. -/
def fetchedAt (s : State) (c : Ctx) (va : Nat) : Option (List Byte) :=
  (s.fetched.find? fun f => f.team = c.key && f.pc = c.cur.pc && f.mask = c.act && f.va = va).map (·.data)

/-- The instruction waits for an operation that fetches for it. -/
def fetching (s : State) (c : Ctx) (va : Nat) : Bool :=
  s.ops.any fun o => o.team = c.key && o.issue.pc = c.cur.pc && o.issue.mask = c.act &&
    match o.kind with
    | .fetch a _ => a = va
    | _ => false

/-- A line request of an operation that fetches. -/
def Ctx.fetchReq (c : Ctx) (cls code va : Nat) (accs : List Acc) : Req :=
  { id := 0, op := 0, team := c.key, core := c.place.core, cls := cls, ord := 1, scope := 6, code := code, line := va / 64,
    accs := accs, age := 0, stage := .queue 0, since := 0, level := c.team.level }

/-- Start to fetch `n` bytes of one page: one request for each line. -/
def startFetch (c : Ctx) (va n : Nat) (s : State) (cls : Nat := 0) : Gate :=
  let l0 := va / 64
  let reqs := (List.range ((va + n - 1) / 64 - l0 + 1)).map fun j =>
    let lo := max va (64 * (l0 + j))
    c.fetchReq cls 0 lo [⟨j, lo, min (va + n) (64 * (l0 + j) + 64) - lo⟩]
  .hold (startOp s { id := 0, team := c.key, issue := c.entryOf c.act true, kind := .fetch va n } reqs).1

/-- A part of a read that lies in one page; `cls` is the class in which it waits in the pannier: 5 and 6 for an engine post whose
block is not here (13 R253 READ = 0). -/
def readPart (c : Ctx) (s : State) (strong : Bool) (va n : Nat) (cls : Nat := 0) : Got :=
  let va := va % 2 ^ 57
  match peek s c.place.core c.team.comp c.team.level .rd va with
  | .addr => .gate (c.pageTrap 8 va)
  | .access => .gate (c.pageTrap 7 va)
  | .uncorr _ => .gate (c.trapAt 0x17 va)
  | .miss .. => .gate (touchPage c cls va s)
  | .ok pa _ =>
    -- a weak read is checked against the range locks as a load is (08 R141 step 4)
    if !strong && lockHit s c.key (c.place.core / 4) none false va n then .gate (c.trapAt 9 va)
    else if strong && behindOlder c s false va n then .gate .wait
    else if localClass pa ≠ .none then
      if homeFails s pa n then .gate (c.trapAt 0x17 va) else .bytes (readBytes s c.place.core c.team.comp strong pa n)
    else
      match fetchedAt s c va with
      | some b => .bytes b
      | none => .gate (if fetching s c va then .wait else startFetch c va n s cls)

/-- A read of `n` bytes from a virtual address, page by page. -/
def readParts (c : Ctx) (s : State) (strong : Bool) : List (Nat × Nat) → Got
  | [] => .bytes []
  | (va, n) :: r =>
    match readPart c s strong va n with
    | .gate g => .gate g
    | .bytes b =>
      match readParts c s strong r with
      | .gate g => .gate g
      | .bytes b' => .bytes (b ++ b')

def readRange (c : Ctx) (s : State) (strong : Bool) (va n : Nat) : Got := readParts c s strong (pageParts va n)

/-- The block of an engine post, 64 bytes in one line: a weak load of the team that goes behind its older accesses to the line and its
acquires (09 R185, R191, 08 R151, 10 R203). -/
def readBlock (c : Ctx) (s : State) (cls va : Nat) : Got :=
  if behindOlder c s false va 64 then .gate .wait else readPart c s false va 64 cls

/-- The gate that goes on with what a read brings. -/
def Got.go (r : Got) (f : List Byte → Gate) : Gate :=
  match r with
  | .bytes b => f b
  | .gate g => g

/-- The bytes of a read whose gate has been passed. -/
def Got.get (r : Got) : List Byte :=
  match r with
  | .bytes b => b
  | .gate _ => []

end Sys2Proof.Machine
end

