-- ==== Sys2Proof/Machine/Monitor.lean ====
section
/-! DEFINITION. Monitors, watchpoints, sleeping and bin flushes, major 0x1F (08 R162 to R167). -/

namespace Sys2Proof.Machine

/-! ## WAITC (08 R162) -/

/-- The address of the monitored word. -/
def waitcVa (c : Ctx) : Nat := c.pair 0 % 2 ^ 57

/-- SCOPE of a WAITC. -/
def waitcScope (c : Ctx) : Nat := (c.s 4).toNat % 8

/-- The checks of a WAITC: a page that is missing is what its arming request bounces for (08 R151). -/
def waitcGate (c : Ctx) (s : State) : Gate :=
  let va := waitcVa c
  if waitcScope c = 7 || (c.s 4).toNat / 16 ≠ 0 then .trap { cause := 1 }
  else if va % 4 ≠ 0 then c.trapAt 6 va
  else if acquiring s c.key || starved s c.key then .wait
  else
    match peek s c.place.core c.team.comp c.team.level .rd va with
    | .addr => c.pageTrap 8 va
    | .access => c.pageTrap 7 va
    | .uncorr _ => c.trapAt 0x17 va
    | .miss .. | .ok .. => .go

/-- The arming request of a WAITC (08 R151). -/
def waitcReq (c : Ctx) : Req :=
  { id := 0, op := 0, team := c.key, core := c.place.core, cls := 3, ord := 1, scope := waitcScope c, code := 0,
    line := waitcVa c / 64, accs := [⟨c.lane0, waitcVa c, 4⟩], age := 0, stage := .queue 0, since := 0, level := c.team.level }

/-- The arming request goes straight through: its page is here, no queue on its path holds it, and no older access to its line
stands before it. -/
def armsNow (c : Ctx) (s : State) : Bool :=
  match peek s c.place.core c.team.comp c.team.level .rd (waitcVa c) with
  | .ok pa _ =>
    localClass pa ≠ .none && (stallOf s (waitcReq c) none).isNone && (stallOf s (waitcReq c) (some pa)).isNone &&
    queueRoom s (waitcReq c) 0 && creditsHeld s c.key < 174 && leaders s { waitcReq c with id := s.nextId } = []
  | _ => false

/-- Whether a word satisfies the condition of a WAITC. -/
def waitcHolds (c : Ctx) (w : Word) : Bool := monitorHolds (c.s 2) (c.s 3) (c.s 4) w

/-- The deadline of a WAITC on the holding core's CLK. -/
def waitcDeadline (c : Ctx) (s : State) : Option Nat :=
  if c.s 5 = 0 then none else some (clk s c.place.core + (c.s 5).toNat)

/-- WAITC arms its monitor at the coherence point of its scope, where a condition that holds wakes it at once; a request that is
held up, or whose word is elsewhere, arms it later. -/
def waitcEffect (x : SF) (c : Ctx) (s : State) : Done :=
  let va := waitcVa c
  let k := c.place.core
  let now := armsNow c s
  let s := parkTeam s c.key c.carry
  let dest := x.d.toNat
  let wait (pa : Nat) (point : Option Nat) : Wait := .monitor va pa point (c.s 2) (c.s 3) (c.s 4) (waitcDeadline c s) dest
  if now then
    let (s, pa, st) := pageOf c s .rd va
    let near := nearScope s k 1 (waitcScope c)
    let (s, bs) := localLoad s k c.team.comp near st pa 4
    if waitcHolds c (BitVec.ofNat 32 (Bits.ofLe bs)) then
      parkDone c (writeScalar c 0 (acquireAt s k (waitcScope c))) none
    else parkDone c s (some (wait pa (if near then some (l1Loc s k pa) else none)))
  else
    parkDone c (startOp s { id := 0, team := c.key, issue := c.entryOf c.act true, kind := .arm } [waitcReq c]).1
      (some (wait (2 ^ 64) none))

def execWaitc (x : SF) (s : State) :=
  performGated (Shape.parking (Shape.s3 0x1F x 1 2 4)) waitcGate (waitcEffect x) s

/-! ## WATCH and UNWATCH (08 R163, R164) -/

/-- The descriptor of a WATCH as the core reads it, and the successor record that it names. -/
def watchDesc (c : Ctx) (s : State) : Got := readRange c s false (c.pair 0 % 2 ^ 57) 32
def watchRecord (c : Ctx) (s : State) (b : List Byte) : Got := readRange c s true (fieldAt b 24 8 % 2 ^ 57) 32

/-- The fields of a watch descriptor. -/
def wdBase (b : List Byte) : Nat := fieldAt b 0 8
def wdLen (b : List Byte) : Nat := fieldAt b 8 4
def wdSucc (b : List Byte) : Nat := fieldAt b 24 8

/-- BASE, LEN or SUCC is not what R163 asks for (log 34). -/
def wdMisaligned (b : List Byte) : Bool :=
  wdBase b % 4 ≠ 0 || wdLen b % 4 ≠ 0 || wdLen b = 0 || 512 < wdLen b || 512 < wdBase b % 512 + wdLen b || wdSucc b % 32 ≠ 0

/-- A WATCH's read of a line, and its registration at the home of BASE, wait as a load does: behind the team's older accesses to the line,
and in the queues on its path (08 R151, R167). -/
def watchLine (c : Ctx) (s : State) (cls va : Nat) (pay : List Byte) (ok : Gate) : Gate :=
  let r : Req := { waitcReq c with cls := cls, scope := 4, line := va / 64, accs := [⟨c.lane0, va, 4⟩] }
  if s.reqs.any fun q => q.team = c.key && q.line = va / 64 && !q.polls then .wait else pathGate c s r ok pay

/-- The checks of a WATCH: its descriptor, then its range and its successor record, whose rejection needs room for its fault record
(13 R259). -/
def watchGate (c : Ctx) (s : State) : Gate :=
  let va := c.pair 0 % 2 ^ 57
  if va % 32 ≠ 0 then c.trapAt 6 va
  else if acquiring s c.key then .wait
  else
    watchLine c s 0 va [] <| (watchDesc c s).go fun b => Gate.reading false [(va, 32)] <|
      if wdMisaligned b then c.trapAt 6 va
      else if 2 ≤ fieldAt b 20 4 then .trap { cause := 1 }
      else
        let base := wdBase b % 2 ^ 57
        let succ := wdSucc b % 2 ^ 57
        localGate (pay := b) c s 3 .rd base fun _ => watchLine c s 3 base b <|
          watchLine c s 0 succ [] <| (watchRecord c s b).go fun r =>
            if 64 ≤ (comp s c.team.comp).faults.length && (recordThread s c.key c.place.core r).2.isNone then .wait else .go

/-- The registration of a watchpoint and its status (08 R163). DESIGN CHOICE: where several statuses apply, the first of 1, 2 and 3 is
given (log 95); a watchpoint whose published record fails its checks is registered and spawns nothing (log 94). -/
def watchEffect (c : Ctx) (s : State) : State :=
  let va := c.pair 0 % 2 ^ 57
  let k := c.place.core
  let b := (watchDesc c s).get
  let rec' := (watchRecord c s b).get
  let s := readLines s k c.team.comp c.team.level false [(va, 32)]
  let (s, base, _) := pageOf c s .rd (wdBase b % 2 ^ 57)
  let s := readLines s k c.team.comp c.team.level true [(wdSucc b % 2 ^ 57, 32)]
  let watch (t : Spawning) (spawns : Bool) : Watch :=
    { comp := c.team.comp, core := k, desc := va, base := base, va := wdBase b % 2 ^ 57, len := wdLen b,
      value := BitVec.ofNat 32 (fieldAt b 12 4), mask := BitVec.ofNat 32 (fieldAt b 16 4), oneshot := fieldAt b 20 4 = 1,
      entry := t.entry, region := t.region, arg := t.arg, prio := t.prio, spawns := spawns }
  if 8 ≤ (s.watches.filter fun w => home w.base = home base).length then writeScalar c 1 s
  else if fieldAt rec' 4 4 % 2 = 0 then writeScalar c 2 s
  else if 32 ≤ (s.watches.filter fun w => w.core = k).length then writeScalar c 3 s
  else
    match recordThread s c.key k rec' with
    | (s, some t) =>
      writeScalar c 0 { s with watches := s.watches ++ [watch t true] }
    | (s, none) =>
      let none' : Spawning := ⟨k, c.team.comp, 0, c.team.region, 0, 0, none⟩
      writeScalar c 0 (pushFault { s with watches := s.watches ++ [watch none' false] } c.team.comp
        { region := c.team.region, fid := 0, kind := 3, flags := 0, count := 1, va := wdSucc b % 2 ^ 57, ipa := 0,
          who := faultWho s c.key c.team, eng := 0 })

def execWatch (x : SF) (s : State) :=
  performGated (Shape.s2 0x1F x 1 2) watchGate (fun c s => { s := watchEffect c s }) s

/-- UNWATCH removes the watchpoint registered from the descriptor (08 R164). -/
def execUnwatch (x : SF) (s : State) :=
  perform (Shape.s2 0x1F x 1 2) (fun c s =>
    match s.watches.find? fun w => w.comp = c.team.comp && w.desc = c.pair 0 % 2 ^ 57 with
    | some w => writeScalar c 0 { s with watches := s.watches.erase w }
    | none => writeScalar c 1 s) s

/-! ## SLEEP and BINFL (08 R165, R166) -/

def execSleep (x : SF) (s : State) :=
  performGated (Shape.sleep x) (fun _ _ => .go) (fun c s =>
    if c.s 0 = 0 then { s := s, yields := true }
    else
      { s := s, moves := some (c.waitHere (.sleep (clk s c.place.core + (c.s 0).toNat))), yields := true }) s

def execBinfl (x : SF) (s : State) :=
  perform (Shape.binfl x) (fun c s =>
    flushBins s c.team.comp c.place.core fun b => b.comp = c.team.comp && (x.b = 1 || b.entry = c.pair 0)) s

end Sys2Proof.Machine
end

