-- ==== Sys2Proof/Machine/Claims.lean ====
section
/-! DEFINITION. Claims, major 0x21 (08 R168 to R175), and the claim store (16 R285 to R288). -/

namespace Sys2Proof.Machine

/-- The event reaches its core over the plane within its bound (16 R285). -/
def sendPlane (s : State) (bound : Nat) (e : Instr) : State := { s with plane := s.plane ++ [⟨beat s + bound, e⟩] }

/-- The release or acquire scope of a span (08 R169): .dev or .fab. -/
def spanScope (span : Nat) : Nat := if span ≤ 1 then 4 else 5

/-- A proposal is in its window. -/
def Proposal.isOpen (p : Proposal) : Bool := p.open'

/-! ## CLAIM (08 R169) -/

/-- The target of a CLAIM. -/
def claimVa (c : Ctx) : Nat := c.pair 0 % 2 ^ 57

/-- A CLAIM is a release at its span scope, after its checks (08 R169, 11 R222): while its page or a queue keeps it, its entry holds key,
value, group and D (13 R253). -/
def claimGate (g d : Nat) (c : Ctx) (s : State) : Gate :=
  let va := claimVa c
  let pay := Bits.leBytes 4 (c.s 2).toNat ++ Bits.leBytes 4 (c.s 3).toNat ++ [BitVec.ofNat 8 g, BitVec.ofNat 8 d]
  let r : Req := { waitcReq c with cls := 2, scope := 4, line := va / 64, accs := [⟨c.lane0, va, 4⟩], pay := pay }
  if va % 4 ≠ 0 then c.trapAt 6 va
  else
    pageGate (pay := pay) c s 2 .wr va fun pa _ => pathGate (pay := pay) c s r <|
      if acquiring s c.key || outstanding s c.key then .wait
      -- 12 R244
      else if localClass pa ≠ .none && homeFails s pa 4 then c.trapAt 0x17 va
      else releaseWait c s (spanScope (groupSpan s c.place.core c.team.comp g)) c.lane0

/-- A member of a group lies on a core that is being removed (15 R283 step 2). -/
def groupLeaving (s : State) (k c g : Nat) : Bool :=
  (groupOf s k g).members.any fun m => (localMember s c m.2).any (departing s c)

/-- Why nothing is announced (08 R169), in the order the spec names. -/
def claimReason (s : State) (k c g : Nat) : Option Nat :=
  let x := core s k
  if (rankOf s k c g).isNone then some 6
  else if (groupOf s k g).pending.isSome || groupLeaving s k c g then some 7
  else if (Tab.getD x.clwin g 0).toNat < 2 * spanBound (groupSpan s k c g) + 16 then some 3
  else if 16 ≤ x.outgoing.length then some 5
  else none

/-- The core holds an open proposal of the group with the key (08 R169). -/
def holdsOpen (s : State) (k g : Nat) (key : Word) : Bool :=
  let x := core s k
  (x.inbox.any fun e => e.group = g && e.key = key && beat s < e.close) ||
  x.outgoing.any fun p => p.2.group = g && p.2.key = key && p.2.isOpen

/-- The lowest free handle. -/
def freeHandle (x : Core) : Nat := ((List.range 16).find? fun h => (Tab.get? x.outgoing h).isNone).getD 0

/-- An announcement goes to a member: none when no path reaches it (16 R286). -/
def announceTo (s : State) (k c : Nat) (a : Announcement) (m : Word) : Option State :=
  match pathSpan s k c m with
  | none => none
  | some span =>
    if memberPeer m then some { s with out := s.out ++ [.announce (memberCoach m) (memberCore m) a] }
    else
      match localMember s c m with
      | some j => if j = k then some s else some (sendPlane s (spanBound span) (.claimAnnouncement j a))
      | none => none

/-- An announcement goes to every other member; a member that no path reaches counts as unheard (16 R286). -/
def announce (s : State) (k c g : Nat) (a : Announcement) : State × Bool :=
  (groupOf s k g).members.foldl (fun (acc : State × Bool) m =>
    match announceTo acc.1 k c a m.2 with
    | some s => (s, acc.2)
    | none => (acc.1, true)) (s, false)

/-- The proposal of a CLAIM whose target has been translated. -/
def propose (g : Nat) (c : Ctx) (s : State) (pa : Nat) : State :=
  let k := c.place.core
  let x := core s k
  let h := freeHandle x
  let rank := (rankOf s k c.team.comp g).getD 0
  let id := BitVec.ofNat 32 (rank + 2 ^ 6 * h + 2 ^ 10 * x.claimSerial)
  let beats := (Tab.getD x.clwin g 0).toNat
  let yields := holdsOpen s k g (c.s 2)
  -- a lower-ranked proposal heard before, whose window is open, overlaps this one (08 R170)
  let lost := x.heard.any fun e => e.group = g && e.key = c.s 2 && beat s < e.close && e.id.toNat % 64 < rank
  let p : Proposal :=
    { team := c.key, id := id, group := g, key := c.s 2, value := c.s 3, va := claimVa c, pa := pa, beats := beats,
      close := beat s + beats, open' := !yields, outcome := if yields then some 2 else none, objected := false, unheard := false,
      short := false, conflict := lost, owned := true }
  let put (s : State) (p : Proposal) : State :=
    let x := core s k
    setCore s k { x with outgoing := Tab.put x.outgoing h p, claimSerial := (x.claimSerial + 1) % 2 ^ 22 }
  let s :=
    if yields then put s p
    else
      let a : Announcement := { id := id, group := g, key := p.key, value := p.value, target := p.va, close := p.close,
                                fromCoach := s.coach, fromCore := k }
      let (s, unheard) := announce s k c.team.comp g a
      put s { p with unheard := unheard }
  writeScalar c (BitVec.ofNat 32 h) s

def execClaim (k : BitVec 3) (x : SF) (s : State) :=
  performGated (Shape.s3 0x21 x 1 2 2) (claimGate k.toNat x.d.toNat) (fun c s =>
    let g := k.toNat
    let core := c.place.core
    let (s, pa, _) := pageOf c s .wr (claimVa c)
    let s := releaseAt s core (spanScope (groupSpan s core c.team.comp g))
    match claimReason s core c.team.comp g with
    | some r => { s := writeScalar c (BitVec.ofNat 32 (0x100 + r)) s }
    | none => { s := propose g c s pa }) s

/-! ## The resolution of a proposal (08 R170) -/

/-- The outcome at the close of the window: the first that applies. -/
def Proposal.result (p : Proposal) : Nat :=
  if p.conflict then 2 else if p.short then 3 else if p.objected then 1 else if p.unheard then 4 else 0

/-- The effect write of outcome 0 (11 R222): at the target's home, or on the proposer's stream to another coach, or from the
host port; none while it cannot be sent. -/
def effectWrite (s : State) (p : Proposal) : Option (State × Option (Nat × Nat)) :=
  let bs := Bits.leBytes 4 p.value.toNat
  match paClass s p.pa with
  | .peer coach =>
    let off := p.pa % 64
    let q := nextSeq s p.team coach
    (postRemote s p.team coach (p.pa % 2 ^ 44 / 64 * 64) (BitVec.ofNat 64 (15 * 2 ^ off))
      (List.replicate off 0 ++ bs ++ List.replicate (60 - off) 0) none false).map fun s =>
        (s, if unreachableCoach s coach then none else some (coach, q))
  | .host => some ({ s with out := s.out ++ [.hostWrite (p.pa - 0x8000000000000) bs false] }, none)
  | _ => some (writeProg s (compKey s (teamComp p.team)) p.pa bs, none)

/-- The proposals of a core with one entry changed. -/
def setProposal (s : State) (k h : Nat) (p : Proposal) : State :=
  let x := core s k
  setCore s k { x with outgoing := Tab.put x.outgoing h p }

/-- A handle is freed. -/
def freeProposal (s : State) (k h : Nat) : State :=
  let x := core s k
  setCore s k { x with outgoing := Tab.del x.outgoing h }

/-- The outcome is recorded: a CLWAIT on it wakes, and frees the handle; an exited owner's entry is freed (08 R171, 16
R287). -/
def recordOutcome (s : State) (k h : Nat) (p : Proposal) (o : Nat) : State :=
  let waits (w : Wait) : Bool := match w with
    | .claim g j _ => g = p.group && j = h
    | _ => false
  let read := (team? s p.team).any (waitsOn waits)
  let s := if read || !p.owned then freeProposal s k h
    else setProposal s k h { p with open' := false, outcome := some o, effect := none }
  let s := match team? s p.team with
    | some t => if read && o = 0 then
        acquireAt s (holdingCore s p.team t) (spanScope (groupSpan s k t.comp p.group)) else s
    | none => s
  reap (onTeam s p.team (wakeTeam fun w => if waits w then some (some (BitVec.ofNat 32 o)) else none))

/-- A window closes (08 R170). -/
def closeWindow (s : State) (k h : Nat) (p : Proposal) : State :=
  let o := p.result
  let p := { p with open' := false }
  if o ≠ 0 then recordOutcome s k h p o
  else
    match effectWrite s p with
    | some (s, none) => recordOutcome s k h p 0
    | some (s, some e) => setProposal s k h { p with effect := some e }
    | none => s

/-! ## CLWAIT (08 R171, 16 R288) -/

/-- The core that holds a team's proposal by its handle: the team's own first, then any other (16 R288). -/
def proposalAt (s : State) (key k g h : Nat) : Option (Nat × Proposal) :=
  let here (j : Nat) : Option (Nat × Proposal) :=
    match Tab.get? (core s j).outgoing h with
    | some p => if p.team = key && p.group = g then some (j, p) else none
    | none => none
  match here k with
  | some x => some x
  | none => (Tab.keys s.cores).findSome? here

/-- A resolved handle that came with a trunk (16 R288). -/
def trunkClaim (s : State) (key g h : Nat) : Option TrunkClaim :=
  (crew? s (crewOf key)).bind fun c => c.claims.find? fun x => x.team = key % 16 && x.group = g && x.handle = h

def execClwait (k : BitVec 3) (x : SF) (s : State) :=
  performGated (Shape.parking (Shape.s2 0x21 x 1 1)) (fun _ _ => .go) (fun c s =>
    let g := k.toNat
    let h := (c.s 0).toNat
    let core := c.place.core
    let span := spanScope (groupSpan s core c.team.comp g)
    let s := parkTeam s c.key c.carry
    let answer (s : State) (o : Nat) : Done :=
      parkDone c (writeScalar c (BitVec.ofNat 32 o) (if o = 0 then acquireAt s core span else s)) none
    match trunkClaim s c.key g h with
    | some t => answer (onCrew s (crewOf c.key) fun w => { w with claims := w.claims.erase t }) t.outcome
    | none =>
      match proposalAt s c.key core g h with
      | some (j, p) =>
        match p.outcome with
        | some o => answer (freeProposal s j h) o
        | none => parkDone c s (some (.claim g h x.d.toNat))
      | none => answer s 0xFF) s

/-! ## The inbox (08 R172) -/

/-- The oldest inbox entry of a group. -/
def oldestEntry (s : State) (k g : Nat) : Option InboxEntry := (core s k).inbox.find? fun e => e.group = g

/-- The eight words that an inbox entry gives (08 R172). -/
def inboxWords (s : State) : Option InboxEntry → List Word
  | none => [0, 0, 0, 0, 0, 0, 0, 0]
  | some e =>
    [e.id, e.key, e.value, BitVec.ofNat 32 e.target, BitVec.ofNat 32 (e.target / 2 ^ 32 % 2 ^ 25),
      BitVec.ofNat 32 (min 0xFFFF (e.close - beat s) + 2 ^ 16 * e.group), 1, 0]

def execClpeek (k : BitVec 3) (x : SF) (s : State) :=
  perform (Shape.sD 0x21 x 8) (fun c s => writeScalars c (inboxWords s (oldestEntry s c.place.core k.toNat)) s) s

def execClpop (k : BitVec 3) (x : SF) (s : State) :=
  performGated (Shape.sD 0x21 x 8) olderGate (fun c s =>
    let j := c.place.core
    let e := oldestEntry s j k.toNat
    let ws := inboxWords s e
    let s := match e with
      | some e => setCore s j { core s j with inbox := (core s j).inbox.erase e }
      | none => s
    -- every CLPOP is an acquire at its group's span (11 R222)
    let s := acquireAt s j (spanScope (groupSpan s j c.team.comp k.toNat))
    { s := writeScalars c ws s }) s

/-! ## OBJECT (08 R173) -/

/-- An objection goes to the announcer: the member at a rank. -/
def objectTo (s : State) (k c : Nat) (o : Objection) (m : Word) : State :=
  if memberPeer m then { s with out := s.out ++ [.objection (memberCoach m) o] }
  else
    match localMember s c m with
    | some j => sendPlane s (spanBound ((pathSpan s k c m).getD 3)) (.objectionArrival j o)
    | none => s

def execObject (k : BitVec 3) (x : SF) (s : State) :=
  performGated (Shape.parking (Shape.s2 0x21 x 1 1)) (fun _ _ => .go) (fun c s =>
    let j := c.place.core
    let s := parkTeam s c.key c.carry
    match Tab.get? (groupOf s j k.toNat).members ((c.s 0).toNat % 64) with
    | none => parkDone c (writeScalar c 2 s) none
    | some m =>
      let o : Objection := { id := c.s 0, group := k.toNat, unheard := false, team := c.key }
      parkDone c (objectTo s j c.team.comp o m) (some (.objection k.toNat (c.s 0) x.d.toNat))) s

/-! ## Membership (08 R174) -/

/-- The group of every core of a compartment changed alike: each holds the copy. -/
def onGroup (s : State) (c g : Nat) (f : Group → Group) : State :=
  (compCores s c).foldl (fun s k =>
    let x := core s k
    setCore s k { x with groups := Tab.put x.groups g (f (Tab.getD x.groups g {})) }) s

/-- A membership change waits for the group's windows, without parking; a second one waits for the first. -/
def memberGate (g : Nat) (c : Ctx) (s : State) : Gate :=
  if (groupOf s c.place.core g).pending.isSome then .wait else .go

/-- The coaches that hold copies of a group. -/
def groupCoaches (s : State) (c g : Nat) : List Nat :=
  distinct ((((compCores s c).head?.map fun k => (groupOf s k g).members).getD []).filterMap fun m =>
    if memberPeer m.2 then some (memberCoach m.2) else none)

/-- The coaches that a change concerns: those that hold copies, and that of the member it places. -/
def changeCoaches (s : State) (c : Nat) (u : Membership) : List Nat :=
  distinct (groupCoaches s c u.group ++ (u.member.toList.filterMap fun m => if memberPeer m then some (memberCoach m) else none))

/-- A change of membership is requested: `bad` is the status of one that is refused at once. The other coaches' members hear of it,
so that their CLAIMs wait as well. -/
def changeMember (g : Nat) (d : Nat) (bad : Option Nat) (m : Option Word) (c : Ctx) (s : State) : Done :=
  match bad with
  | some r => { s := writeScalar c (BitVec.ofNat 32 r) s }
  | none =>
    let u : Membership := { group := g, rank := (c.s 0).toNat, member := m, team := c.key }
    let s := { s with out := s.out ++ (changeCoaches s c.team.comp u).map fun t => .membership t u }
    { s := onGroup s c.team.comp g fun x => { x with pending := some u, since := beat s }, moves := some (c.waitHere (.member d)) }

/-- A member identifier that CLJOIN refuses: 2 malformed, 3 coach not in the train (08 R174). DESIGN CHOICE (log 96): COACH is not read
with PEER 0, and this coach's own number with PEER 1 is malformed. -/
def memberBad (s : State) (c : Nat) (rank m : Word) : Option Nat :=
  if 63 < rank.toNat || m.toNat / 2 ^ 13 ≠ 0 || Bits.fld m 6 2 ≠ 0 then some 2
  else if memberPeer m then
    if !s.trainEn || s.trainSize ≤ memberCoach m then some 3 else if memberCoach m = s.coach then some 2 else none
  else if (localMember s c m).isNone then some 2
  else none

def execCljoin (k : BitVec 3) (x : SF) (s : State) :=
  performGated (Shape.cljoin x) (memberGate k.toNat) (fun c s =>
    changeMember k.toNat x.d.toNat (memberBad s c.team.comp (c.s 0) (c.s 1)) (some (c.s 1)) c s) s

def execClleave (k : BitVec 3) (x : SF) (s : State) :=
  performGated (Shape.clleave x) (memberGate k.toNat) (fun c s =>
    changeMember k.toNat x.d.toNat (if 63 < (c.s 0).toNat then some 2 else none) none c s) s

/-- A window of a group has passed since a change that other coaches are concerned with: what they may have announced before they heard of
it has closed (08 R174, log 35). -/
def windowPast (s : State) (c g : Nat) : Bool :=
  (compCores s c).all fun k =>
    let x := groupOf s k g
    x.pending.all fun u => changeCoaches s c u = [] || x.since + (Tab.getD (core s k).clwin g 0).toNat ≤ beat s

/-- No proposal of a group is in its window: of a core of a compartment, or of another coach's member. -/
def groupQuiet (s : State) (c g : Nat) : Bool :=
  windowPast s c g && (compCores s c).all fun k =>
    ((core s k).outgoing.all fun p => !(p.2.group = g && p.2.isOpen)) &&
    (core s k).heard.all fun e => !(e.group = g && beat s < e.close)

/-- A change of membership takes effect on every copy of this coach: its status (08 R174), and the inbox entries of a core
that leaves go (16 R287). -/
def applyMember (s : State) (c : Nat) (u : Membership) : State × Nat :=
  let ms := ((compCores s c).head?.map fun k => (groupOf s k u.group).members).getD []
  let clear (s : State) : State := onGroup s c u.group fun x =>
    if x.pending = some { u with effective := false } then { x with pending := none } else x
  match u.member with
  | some m =>
    if (Tab.get? ms u.rank).isSome then (clear s, 1)
    else (clear (onGroup s c u.group fun x => { x with members := Tab.put x.members u.rank m }), 0)
  | none =>
    match Tab.get? ms u.rank with
    | none => (clear s, 1)
    | some m =>
      let s := clear (onGroup s c u.group fun x => { x with members := Tab.del x.members u.rank })
      let s := match localMember s c m with
        | some j => setCore s j { core s j with
            inbox := (core s j).inbox.filter fun e => e.group ≠ u.group
            heard := (core s j).heard.filter fun e => e.group ≠ u.group }
        | none => s
      (s, 0)

/-- A change of membership takes effect: one that a team of this coach requested goes to the other copies; one of another coach
is named by 2^40 × (coach + 1) beside the team's key (log 35). -/
def memberChange (s : State) (c : Nat) (u : Membership) : State :=
  let mine := u.team < 2 ^ 40 && (compCores s c).any fun k => (groupOf s k u.group).pending = some u
  let before := changeCoaches s c u
  let (s, r) := applyMember s c u
  if mine then
    let s := { s with out := s.out ++ before.map fun t => .membership t { u with effective := true } }
    onTeam s u.team (wakeTeam fun w => match w with
      | .member _ => some (some (BitVec.ofNat 32 r))
      | _ => none)
  else s

/-! ## Messages of the plane (16 R285 to R287) -/

/-- An announcement arrives: it enters the inbox, or is answered UNHEARD; an open proposal with its key learns of the
conflict (08 R170, 16 R287). -/
def hearAnnouncement (s : State) (k : Nat) (a : Announcement) : State :=
  let x : Core := core s k
  let x : Core := { x with outgoing := x.outgoing.map fun p =>
    if p.2.isOpen && p.2.group = a.group && p.2.key = a.key && a.id.toNat % 64 < p.2.id.toNat % 64 then
      (p.1, { p.2 with conflict := true }) else p }
  let e : InboxEntry := { id := a.id, group := a.group, key := a.key, value := a.value, target := a.target, close := a.close,
                          coach := a.fromCoach }
  let x : Core := { x with heard := (x.heard.filter fun y => beat s < y.close) ++ [e] }
  if x.inbox.length < 64 then
    setCore s k { x with inbox := x.inbox ++ [e] }
  else
    let s := setCore s k x
    let o : Objection := { id := a.id, group := a.group, unheard := true, team := 0 }
    if a.fromCoach = s.coach then
      sendPlane s (spanBound (if deckOf k = deckOf a.fromCore then 0 else 1)) (.objectionArrival a.fromCore o)
    else { s with out := s.out ++ [.objection a.fromCoach o] }

/-- An answer to an objection goes back to its team; a team of another coach is named by 2^40 × (coach + 1) beside its key (log
35). -/
def answerTo (s : State) (k : Nat) (o : Objection) (late : Bool) : State :=
  if 2 ^ 40 ≤ o.team then { s with out := s.out ++ [.answer (o.team / 2 ^ 40 - 1) o.id late] }
  else
    let far := (team? s o.team).all fun t => deckOf (holdingCore s o.team t) ≠ deckOf k
    sendPlane s (spanBound (if far then 1 else 0)) (.objectionAnswer o.team o.id late)

/-- An objection arrives at the announcer: it counts before the closing beat (08 R173, 16 R286). -/
def hearObjection (s : State) (k : Nat) (o : Objection) : State :=
  match (core s k).outgoing.find? fun p => p.2.id = o.id && p.2.group = o.group && p.2.isOpen && beat s < p.2.close with
  | some (h, p) =>
    let s := setProposal s k h (if o.unheard then { p with unheard := true } else { p with objected := true })
    if o.unheard then s else answerTo s k o false
  | none => if o.unheard then s else answerTo s k o true

/-- A condition comes that raises a trap once its entry has woken: now, or at the return of a handler that runs (15 R281). -/
def wakeTrap (s : State) (key : Nat) (p : Wait → Option (Option Word)) (i : Nat → TrapInfo) : State :=
  match team? s key with
  | none => s
  | some t =>
    let hit (e : Entry) : Bool := (e.wait.bind p).isSome
    match t.front.find? hit with
    | some e => takeTrap (setTeam s key (wakeTeam p t)) key (i e.pc)
    | none =>
      match t.held.find? fun h => h.result.isNone && hit h.entry with
      | some h =>
        let t := wakeTeam p t
        setTeam s key { t with owed := t.owed ++ [i h.entry.pc] }
      | none => s

/-- The answer to an objection as a wait takes it. -/
def answerHit (id : Word) (r : Option Word) (w : Wait) : Option (Option Word) :=
  match w with
  | .objection _ i _ => if i = id then some r else none
  | _ => none

/-- The announcer's answer comes to a team that waits for it; a late OBJECT is complete, its sd 1, when it raises the trap (17 R293). -/
def giveAnswer (s : State) (key : Nat) (id : Word) (late : Bool) : State :=
  if late then wakeTrap s key (answerHit id (some 1)) fun pc => { cause := 0x10, tpc := pc }
  else onTeam s key (wakeTeam (answerHit id (some 0)))

/-- The announcer's answer reaches an OBJECT (08 R173); one for a team that a trunk holds is kept for its heirs. -/
def hearAnswer (s : State) (key : Nat) (id : Word) (late : Bool) : State :=
  if (team? s key).isSome then giveAnswer s key id late
  else
    let s := { s with lateAns := s.lateAns ++ [(key, id, late)] }
    ((Tab.keys s.teams).filter fun k => (heirOf s k).contains key).foldl (fun s k => giveAnswer s k id late) s

/-- A link has changed state: every open proposal that a member's path is now too long for is too short (08 R170, 16
R286). -/
def retestClaims (s : State) : State :=
  { s with cores := s.cores.map fun kx =>
      let k := kx.1
      (k, { kx.2 with outgoing := kx.2.outgoing.map fun p =>
        if p.2.isOpen && p.2.beats < 2 * spanBound (groupSpan s k (teamComp p.2.team) p.2.group) + 16 then
          (p.1, { p.2 with short := true }) else p }) }

end Sys2Proof.Machine
end

