-- ==== Sys2Proof/Machine/Fetch.lean ====
section
/-! DEFINITION. Which team issues next and from which entry (07 R115, 15 R267), and the fetch of a word (03 R36, 13 R351). -/

namespace Sys2Proof.Machine

/-- How the fetch of a word ends. -/
inductive WordFetch where
  | word (w : Word)
  | fault (cause : Nat)
  | miss (stage ipa : Nat)
  /-- It stands in a shared queue of a kind, which a stall holds until the cycle given (13 R351, log 8). -/
  | held (kind over' : Nat)
  deriving DecidableEq, Repr

/-- The places on the path of a fetch, as kinds and instances of queues: the cluster's, and the slices of its walk and its word. -/
def fetchPath (s : State) (t : Team) (k pc : Nat) : List (Nat × Nat) :=
  (1, k / 4) ::
  ((if (tlbFind s k t.comp pc).isSome || inHeap (comp s t.comp).heap pc then []
    else (2, k / 4) :: (walkReads s (some (k / 4)) t.comp pc).map fun d => (3, home d)) ++
  match peek s k t.comp t.level .ex pc with
  | .ok pa _ => if localClass pa = .none then [] else [(3, home pa)]
  | _ => [])

/-- Fetch a word for a team from its home (log 25): it needs EX, and USR at level 0 (12 R236). -/
def fetchAt (s : State) (t : Team) (k pc : Nat) : State × WordFetch :=
  match if s.stalls = [] then none else (fetchPath s t k pc).findSome? fun q => (stallEnd s q.1 q.2).map fun e => (q.1, e) with
  | some (q, e) => (s, .held q e)
  | none =>
    match translate s k t.comp t.level .ex pc with
    | (s, .ok pa _) =>
      if localClass pa = .none then (s, .fault 7)
      else if homeFails s pa 4 then (s, .fault 0x17)
      else (l2Touch s (compKey s t.comp) pa, .word (BitVec.ofNat 32 (homeLe s (compKey s t.comp) pa 4)))
    | (s, .miss st ipa) => (s, .miss st ipa)
    | (s, .access) => (s, .fault 7)
    | (s, .addr) => (s, .fault 8)
    | (s, .uncorr _) => (s, .fault 0x17)

/-- The issue of a replay entry, for its lanes that are live (15 R281 step 4, 05 R75). -/
def curOfReplay (key : Nat) (live : Word) (r : ReplayEntry) : Cur :=
  let n := r.hints.length
  { team := key, mask := r.mask &&& live, start := r.pc, pc := r.pc, word := r.word,
    run := r.hints.zipIdx.map fun x => (r.pc - 4 * (n - x.2), x.1), replay := some r }

/-- The issue of a frontier entry. -/
def curOfEntry (key : Nat) (e : Entry) : Cur :=
  { team := key, mask := e.mask, start := e.pc, pc := e.pc, word := 0 }

/-- The next issue of a team: its replay entries first, then a post whose block has arrived (09 R185), then its frontier's choice (07
R115). -/
def teamIssue (key : Nat) (t : Team) : Option Cur :=
  match t.replayQ with
  | r :: _ => some (curOfReplay key t.live r)
  | [] =>
    let first := t.first.bind fun f => t.front.find? fun e => entryReady e && e.pc = f.1 && e.mask &&& f.2 ≠ 0
    (first.orElse fun _ => chooseEntry t.front entryReady).map (curOfEntry key)

/-- The next issue of a bench: its stint's team, if that is ready. -/
def benchIssue (s : State) (b : Nat) : Option Cur :=
  match (bench s b).holder with
  | none => none
  | some k =>
    match team? s k with
    | some t => if teamReady s t then teamIssue k t else none
    | none => none

/-- Benches in the order of their turns: from the one whose turn it is (log 6). -/
def benchOrder (s : State) : List Nat :=
  let bs := Tab.keys s.benches
  (bs.filter fun b => s.turn ≤ b) ++ bs.filter fun b => b < s.turn

/-- The next issue of the device, and the state that has begun it. -/
def pick (s : State) : Option State :=
  (benchOrder s).findSome? fun b => (benchIssue s b).map fun u => { s with cur := some u, turn := b + 1 }

/-- The word that the current issue comes to: fetched, or stored in its replay entry. -/
def currentWord (s : State) (u : Cur) : State × WordFetch :=
  match u.replay with
  | some r => (s, .word r.word)
  | none =>
    match team? s u.team with
    | none => (s, .fault 1)
    | some t =>
      match t.place with
      | none => (s, .fault 1)
      | some p => fetchAt s t p.core u.pc

/-! ## The trace buffer (22 R343, log 46) -/

/-- The records that a trace buffer holds: after a line that the device writes and one that software does. -/
def traceRoom (s : State) (c : Nat) : Nat := ((comp s c).desc.tracesz - 128) / 32

/-- A compartment's trace buffer is open: its policy grants RIGHTS[1], and it has room. -/
def traces (s : State) (c : Nat) : Bool := (comp s c).rights.testBit 1 && (comp s c).desc.trace ≠ 0 && traceRoom s c ≠ 0

/-- Bytes in a compartment's trace buffer, by one of its cores: a weak store, dropped where the page does not translate or is not the
device's. -/
def traceStore (s : State) (c k off : Nat) (bs : List Byte) : State :=
  let ipa := (comp s c).desc.trace + off
  match ipaToPa s c ipa true with
  | some pa => if localClass pa = .none then s else weakStore (markIpa s c ipa true) k c false pa bs
  | none => s

/-- The records consumed, as software has left them in its line of the header. -/
def traceUsed (s : State) (c : Nat) : Nat :=
  match ipaToPa s c ((comp s c).desc.trace + 64) false with
  | some pa => if localClass pa = .none then 0 else Config.traceCons (homeBytes s (compKey s c) pa 64)
  | none => 0

/-- The device's line of the ring's header. -/
def traceCount (s : State) (c k : Nat) : State :=
  traceStore s c k 0 ((List.range 64).map (Config.traceHead (comp s c).traced (comp s c).untraced))

/-- A record of 32 bytes: what it records, with CLK and the logical number of a core, at the ring's next place; one that finds the ring
full is dropped and counted. -/
def traceWrite (s : State) (c k kind : Nat) (what : List Nat) : State :=
  let x := comp s c
  if !traces s c then s
  else if traceRoom s c ≤ x.traced - traceUsed s c then traceCount (setComp s c { x with untraced := x.untraced + 1 }) c k
  else
    let bs := (List.range 32).map (Config.traceByte kind (clk s k) (logicalCore s c k) what)
    traceCount (setComp (traceStore s c k (128 + 32 * (x.traced % traceRoom s c)) bs) c { x with traced := x.traced + 1 }) c k

/-- A team's registers, as a recording breakpoint captures them: vector rows, scalars, predicates, rejoin masks, control registers and
frontier (14 R261). -/
def teamWords (t : Team) : List Nat :=
  (t.v.flatMap fun r => r.1 :: r.2.flatMap fun c => [c.val.toNat, c.tag.toNat]) ++ (t.s.flatMap fun r => [r.1, r.2.toNat]) ++
  (t.p.flatMap fun r => [r.1, r.2.toNat]) ++ (t.m.flatMap fun r => [r.1, r.2.toNat]) ++
  [t.level, t.live.toNat, t.sigth.toNat, t.rmode.toNat, t.fpstat.toNat, t.prio.toNat, t.carryv.toNat, t.carrys.toNat] ++
  t.front.flatMap fun e => [e.prio, e.pc, e.mask.toNat]

/-- The entry's breakpoint at a word has recorded since it reached the line: it waits there to issue again. -/
def hasBroken (t : Team) (u : Cur) : Bool := t.broke.any fun b => b.1 ≤ u.pc && u.pc ≤ b.2.1 && b.2.2 &&& u.mask ≠ 0

/-- The issue reaches a line with a recording breakpoint of its team (14 R261): its state is recorded once, and nothing is delayed.
DEDUCED (log 100): 22 R342 opens breakpoints by RIGHTS[0], and 22 R343 the buffer by RIGHTS[1], so a record needs both. -/
def recordBreak (s : State) (u : Cur) : State :=
  let c := u.team / 2 ^ 24
  let x := comp s c
  if u.replay.isSome || !x.rights.testBit 0 || !x.breaks.contains (u.team, u.pc) then s
  else
    match team? s u.team with
    | none => s
    | some t =>
      match t.place with
      | none => s
      | some p => if hasBroken t u then s else traceWrite s c p.core 1 (u.pc :: teamWords t)

/-- Marks of breakpoints that have recorded go with the issue of their last word, or once no entry stands at their first. -/
def passBroke (u : Cur) (t : Team) : Team :=
  if t.broke = [] then t
  else { t with broke := t.broke.filter fun b =>
    (t.front.any fun e => e.pc = b.1 && e.mask &&& b.2.2 ≠ 0) && !(b.2.1 = u.pc && b.2.2 &&& u.mask ≠ 0) }

/-- The issue with its word in hand: a handler's first word has been fetched, and a fetch that missed has come once the whole run
has (13 R351). -/
def withWord (s : State) (u : Cur) (w : Word) : State :=
  let s := recordBreak s u
  let s := onTeam s u.team fun t => { passBroke u t with
    entering := false, refetch := if isHint w then t.refetch else Tab.del t.refetch u.start }
  { s with cur := some { u with word := w } }

/-- Time passes by one step (log 5). -/
def tick (s : State) : State :=
  match s.pace with
  | n :: r => { s with time := s.time + n, pace := r }
  | [] => { s with time := s.time + 1 }

end Sys2Proof.Machine
end

