-- ==== Sys2Proof/Machine/Move.lean ====
section
/-! DEFINITION. Moves between the vector, scalar, predicate and control files, majors 0x0D to 0x11 (05 R93 to R96, 02 R22 to
R30). -/

namespace Sys2Proof.Machine

def execBcast (x : XF) (s : State) :=
  perform (Shape.bcast x) (fun c s => writeVector c (fun _ => ⟨c.s 0, 63⟩) s) s

/-- LANERD: the lane named, or the lowest active one (05 R94). -/
def execLanerd (x : XF) (s : State) :=
  perform (Shape.lanerd x) (fun c s =>
    let i := if x.k.getLsbD 11 then (c.firstLane fun _ => true).getD 0 else x.k.toNat % 32
    writeScalar c (c.v 0 0 i).val s) s

/-- PMOV between a predicate and a scalar or vector register (05 R96). -/
def execPmov (x : XF) (s : State) :=
  perform (Shape.pmov x) (fun c s =>
    match x.k.toNat / 2 ^ 10 with
    | 0 => writeScalar c (c.pred 0) s
    | 2 => writePred c (c.s 0) s
    | 1 => writeVector c (fun i => ⟨if (c.pred 0).getLsbD i then 1 else 0, 63⟩) s
    | _ => writePred c (maskOf fun i => (c.v 0 0 i).val ≠ 0) s) s

/-! ## Control registers (02 R22 to R30) -/

/-- The levels a control register needs to be read and written (02 R22): none of the second if it is read-only. -/
def crLevels (n : Nat) : Option (Nat × Option Nat) :=
  if n ≤ 2 then some (0, none)
  else if (0x010 ≤ n && n ≤ 0x012) || n = 0x014 || n = 0x015 || n = 0x018 then some (0, some 0)
  else if n = 0x020 || n = 0x021 then some (0, none)
  else if 0x030 ≤ n && n ≤ 0x033 then some (1, some 1)
  else if n = 0x040 || n = 0x041 || n = 0x050 || (0x100 ≤ n && n ≤ 0x10F) then some (0, some 0)
  else if 0x200 ≤ n && n ≤ 0x207 then some (0, none)
  else if 0x208 ≤ n && n ≤ 0x20F then some (0, some 1)
  else if 0x300 ≤ n && n ≤ 0x303 then some (1, some 2)
  else if n = 0x304 || n = 0x305 then some (2, some 2)
  else none

/-- A register TSk (02 R22). -/
def isTs (n : Nat) : Bool := 0x100 ≤ n && n ≤ 0x10F

/-- The tiles of a team's crew. -/
def crewTiles (s : State) (key : Nat) : List Tile := ((crew? s (crewOf key)).map (·.tiles)).getD []

/-- A TSk beyond the crew's grant (02 R28). -/
def beyondGrant (s : State) (key n : Nat) : Bool := isTs n && (crewTiles s key).length ≤ n - 0x100

/-- Step 4 of 03 R54 for MFC: the order of 02 R23. -/
def mfcCheck (n : Nat) (c : Ctx) (s : State) : Option Nat :=
  match crLevels n with
  | none => some 1
  | some (r, _) =>
    if c.team.level < r then some 2
    else if beyondGrant s c.key n then some 7
    else none

/-- The reserved bits of a control register (02 R22 field maps). -/
def crReserved (n : Nat) : Word :=
  if n = 0x010 then 0xFFFFFCC0
  else if n = 0x011 then 0xFFFFFFF8
  else if n = 0x012 then 0xFFE0FF80
  else if n = 0x015 || n = 0x031 || n = 0x033 || n = 0x301 then 0xFE000000
  else if n = 0x018 then 0xFFFFFF00
  else if n = 0x030 then 3
  else if n = 0x032 then 0xFF
  else if n = 0x040 then 0xFFFF8000
  else if n = 0x041 then 0xF0000000
  else if n = 0x050 then 0xFFFFFFFE
  else if isTs n then 0xFF000000
  else if 0x208 ≤ n && n ≤ 0x20F then 0xFFFF0000
  else if n = 0x300 || n = 0x302 || n = 0x304 then 0xFFFF
  else if n = 0x303 || n = 0x305 then 0xFFF00000
  else 0

/-- A value that a register's field map marks illegal (02 R23 step 5). -/
def crIllegal (t : Team) (n : Nat) (v : Word) : Bool :=
  v &&& crReserved n ≠ 0 || (n = 0x010 && 54 ≤ v.toNat % 64) || (n = 0x011 && 5 ≤ v.toNat % 8) ||
  (n = 0x040 && 2 ^ t.rows ≤ v.toNat)

/-- Step 4 of 03 R54 for MTC: the order of 02 R23. -/
def mtcCheck (n : Nat) (c : Ctx) (s : State) : Option Nat :=
  match crLevels n with
  | none => some 1
  | some (_, w) =>
    if c.team.level < w.getD 0 then some 2
    else if beyondGrant s c.key n then some 7
    else if w.isNone then some 1
    else if crIllegal c.team n (c.s 0) then some 1
    else none

/-- The low and high word of a value. -/
def loW (v : Nat) : Word := BitVec.ofNat 32 v
def hiW (v : Nat) : Word := BitVec.ofNat 32 (v / 2 ^ 32)

/-- A control register as a team reads it (02 R22 to R30). DESIGN CHOICE (log 79): a read of the heap window's registers gives
the staged triple. -/
def readCr (s : State) (key : Nat) (t : Team) (p : Place) (n : Nat) : Word :=
  let h := (comp s t.comp).staged
  if n = 0 then teamId s t
  else if n = 1 then ((crew? s (crewOf key)).map crewId).getD 0
  else if n = 2 then t.live
  else if n = 0x010 then t.sigth
  else if n = 0x011 then t.rmode
  else if n = 0x012 then t.fpstat
  else if n = 0x014 then t.tagLo
  else if n = 0x015 then t.tagHi
  else if n = 0x018 then t.prio
  else if n = 0x020 then loW (clk s p.core)
  else if n = 0x021 then t.clkSnap.getD (hiW (clk s p.core))
  else if n = 0x030 then t.trapLo
  else if n = 0x031 then t.trapHi
  else if n = 0x032 then t.frameLo
  else if n = 0x033 then t.frameHi
  else if n = 0x040 then t.carryv
  else if n = 0x041 then t.carrys
  else if n = 0x050 then t.engctl
  else if isTs n then (((crewTiles s key)[n - 0x100]?).map (·.ts)).getD 0
  else if n ≤ 0x207 then clg s p.core t.comp (n - 0x200)
  else if n ≤ 0x20F then Tab.getD (core s p.core).clwin (n - 0x208) 0
  else if n = 0x300 then loW h.base
  else if n = 0x301 then hiW h.base
  else if n = 0x302 then loW h.lim
  else if n = 0x303 then hiW h.lim
  else if n = 0x304 then loW h.off
  else hiW h.off

/-- The CLK snapshot after an MFC (02 R27): CLK_LO takes it, CLK_HI uses it up. -/
def snapCr (s : State) (p : Place) (n : Nat) (t : Team) : Team :=
  if n = 0x020 then { t with clkSnap := some (hiW (clk s p.core)) }
  else if n = 0x021 then { t with clkSnap := none }
  else t

def execMfc (x : XF) (s : State) :=
  performPriv (Shape.mfc x) (mfcCheck x.k.toNat) (fun _ _ => .go) (fun c s =>
    let v := readCr s c.key c.team c.place x.k.toNat
    { s := writeScalar c v (onTeam s c.key (snapCr s c.place x.k.toNat)) }) s

/-- Replace the low or high word of a value. -/
def setLo (v : Nat) (w : Word) : Nat := v / 2 ^ 32 * 2 ^ 32 + w.toNat
def setHi (v : Nat) (w : Word) : Nat := v % 2 ^ 32 + w.toNat * 2 ^ 32

/-- The heap window's staged triple after a write; HOFF_HI makes it take effect (02 R30). -/
def writeHeap (x : Comp) (n : Nat) (v : Word) : Comp :=
  let h := x.staged
  let h := if n = 0x300 then { h with base := setLo h.base v }
    else if n = 0x301 then { h with base := setHi h.base v }
    else if n = 0x302 then { h with lim := setLo h.lim v }
    else if n = 0x303 then { h with lim := setHi h.lim v }
    else if n = 0x304 then { h with off := setLo h.off v }
    else { h with off := setHi h.off v }
  { x with staged := h, heap := if n = 0x305 then h else x.heap }

/-- PRIO.LEVEL as a team may set it: at level 0 no higher than the region's priority (02 R26). -/
def clampPrio (s : State) (t : Team) (v : Word) : Word :=
  let top := ((region? s t.region).map (·.prio)).getD 255
  if t.level = 0 && top < v.toNat then BitVec.ofNat 32 top else v

/-- A write of a control register (02 R22 to R30). -/
def writeCr (s : State) (key : Nat) (t : Team) (p : Place) (n : Nat) (v : Word) : State :=
  let team (f : Team → Team) : State := onTeam s key f
  if n = 0x010 then team fun t => { t with sigth := v }
  else if n = 0x011 then team fun t => { t with rmode := v }
  else if n = 0x012 then team fun t => { t with fpstat := v }
  else if n = 0x014 then team fun t => { t with tagLo := v }
  else if n = 0x015 then team fun t => { t with tagHi := v }
  else if n = 0x018 then team fun u => { u with prio := clampPrio s t v }
  else if n = 0x030 then team fun t => { t with trapLo := v }
  else if n = 0x031 then team fun t => { t with trapHi := v }
  else if n = 0x032 then team fun t => { t with frameLo := v }
  else if n = 0x033 then team fun t => { t with frameHi := v }
  else if n = 0x040 then team fun t => { t with carryv := v }
  else if n = 0x041 then team fun t => { t with carrys := v }
  else if n = 0x050 then team fun t => { t with engctl := v }
  else if isTs n then
    onCrew s (crewOf key) fun c => { c with tiles := c.tiles.modify (n - 0x100) fun x => { x with ts := v } }
  else if 0x208 ≤ n && n ≤ 0x20F then
    setCore s p.core { core s p.core with clwin := Tab.put (core s p.core).clwin (n - 0x208) v }
  else if 0x300 ≤ n then setComp s t.comp (writeHeap (comp s t.comp) n v)
  else s

def execMtc (x : XF) (s : State) :=
  performPriv (Shape.mtc x) (mtcCheck x.k.toNat) (fun _ _ => .go) (fun c s =>
    { s := writeCr s c.key c.team c.place x.k.toNat (c.s 0) }) s

end Sys2Proof.Machine
end

