-- ==== Sys2Proof/Machine/Tiles.lean ====
section
/-! DEFINITION. Tile instructions, majors 0x39, 0x3C and 0x3D (09 R176 to R181, R353). -/

namespace Sys2Proof.Machine

/-! ## Locks and shapes (09 R176, R178) -/

/-- The tiles that a matrix operation reads. -/
def MatOp.reads (m : MatOp) (k : Nat) : Bool := (m.ta ≤ k && k < m.ta + m.kch) || (m.tb ≤ k && k < m.tb + m.kch)

/-- The tiles that a matrix operation writes. -/
def MatOp.writes (m : MatOp) (k : Nat) : Bool := m.tc ≤ k && k < m.tc + 4

/-- A tile of a crew is locked against a read or a write: a lock still holds in the cycle of its release (18 R300). -/
def tileLocked (s : State) (ck k : Nat) (write : Bool) : Bool :=
  let locks (m : MatOp) : Bool := crewOf m.team = ck && (m.writes k || (write && m.reads k))
  s.mats.any locks || s.matEnds.any fun e => e.time = s.time && locks e.op

/-- A TLD of the tile is on its way: instructions that name the tile wait without parking (09 R180). -/
def tileLoading (s : State) (ck k : Nat) : Bool :=
  s.ops.any fun o => crewOf o.team = ck &&
    match o.kind with
    | .tileLoad j _ _ _ _ => j = k
    | _ => false

/-- A tile instruction of the team waits for the tile: for a TLD of the crew on its way, and for an earlier TST of the team
that is not complete (09 R178, R180). -/
def tileBusy (s : State) (key k : Nat) : Bool :=
  tileLoading s (crewOf key) k || s.ops.any fun o => o.team = key && o.kind = .tileStore k

/-- The crew's tile k. -/
def crewTile (s : State) (key k : Nat) : Tile := (crewTiles s key).getD k {}

/-- Steps 1 to 3 of R353. -/
def tileGate (k : Nat) (write : Bool) (c : Ctx) (s : State) (next : Gate) : Gate :=
  if (crewTiles s c.key).length ≤ k then .trap { cause := 7 }
  else if tileBusy s c.key k then .wait
  else if !shapeLegal (crewTile s c.key k).ts then .trap { cause := 0x16 }
  else if tileLocked s (crewOf c.key) k write then .trap { cause := 9 }
  else next

/-- Change a tile of the team's crew. -/
def onTile (s : State) (key k : Nat) (f : Tile → Tile) : State :=
  onCrew s (crewOf key) fun c => { c with tiles := c.tiles.modify k f }

/-! ## TLD and TST (09 R180) -/

/-- BASE, STRIDE and SOFF of a tile descriptor. -/
def descBase (c : Ctx) : Nat := c.pair 0 % 2 ^ 57
def descStride (c : Ctx) : Nat := (c.s 2).toNat
def descSoff (c : Ctx) : Nat := (c.s 3).toNat

/-- The descriptor has legal reserved bits, STRIDE and SOFF (09 R180). -/
def descLegal (ts : Word) (c : Ctx) : Bool :=
  let st := descStride c
  let so := descSoff c
  Bits.fld (c.s 1) 25 7 = 0 &&
  (if tsScm ts = 2 then st = 0 && so = 0
   else st % 16 = 0 && tsRowBytes ts ≤ st && (if tsScm ts = 1 then so % 8 = 0 else so = 0))

/-- The pieces of the tile's memory image. -/
def descPieces (ts : Word) (c : Ctx) : List Piece := tilePieces ts (descBase c) (descStride c) (descSoff c)

/-- The checks and waits of TLD and TST. -/
def tileMemGate (k : Nat) (store : Bool) (c : Ctx) (s : State) : Gate :=
  let ts := (crewTile s c.key k).ts
  tileGate k (!store) c s <|
    if !descLegal ts c then .trap { cause := 1 }
    else if descBase c % 16 ≠ 0 then c.trapAt 6 (descBase c)
    else
      let as := (descPieces ts c).map fun p => (⟨c.lane0, p.va, p.len⟩ : Acc)
      match accessChecks c s (if store then .wr else .rd) 0 (as.filter fun a => a.size ≠ 0) false with
      | .go => if acquiring s c.key || starved s c.key || 24 ≤ inFlight s c.key then .wait else .go
      | g => g

/-- The line requests of a tile's memory image: `data` is what a store writes of a piece. -/
def tileReqs (c : Ctx) (cls : Nat) (ps : List Piece) (data : Piece → List Byte) : List Req :=
  (pieceLines ps).map fun l =>
    { id := 0, op := 0, team := c.key, core := c.place.core, cls := cls, ord := 0, scope := 0, code := 0, line := l.1,
      accs := l.2.map fun x => ⟨x.1, x.2.va, x.2.len⟩,
      data := l.2.foldl (fun d x => (data x.2).zipIdx.foldl (fun d y => Tab.put d (x.2.va % 64 + y.2) y.1) d) [],
      age := 0, stage := .queue 0, since := 0, level := c.team.level }

/-- TLD and TST set out with their lines. -/
def tileMemEffect (k : Nat) (store : Bool) (c : Ctx) (s : State) : State :=
  let t := crewTile s c.key k
  let ps := descPieces t.ts c
  (startOp s
    { id := 0, team := c.key, issue := c.entryOf c.act true,
      kind := if store then .tileStore k else .tileLoad k t.ts (descBase c) (descStride c) (descSoff c) }
    (tileReqs c (if store then 1 else 0) ps fun p => if store then t.getPiece t.ts p else [])).1

def execTld (k : BitVec 4) (x : SF) (s : State) :=
  performGated (Shape.sA 0x39 x 4) (tileMemGate k.toNat false) (fun c s => { s := tileMemEffect k.toNat false c s }) s

def execTst (k : BitVec 4) (x : SF) (s : State) :=
  performGated (Shape.sA 0x39 x 4) (tileMemGate k.toNat true) (fun c s => { s := tileMemEffect k.toNat true c s }) s

/-! ## TZERO and TTAG (09 R179) -/

def execTzero (k : BitVec 4) (x : SF) (s : State) :=
  performGated (Shape.s0 0x39 x) (fun c s => tileGate k.toNat true c s (acquireGate s c.key))
    (fun c s => { s := onTile s c.key k.toNat Tile.zeroed }) s

def execTtag (k : BitVec 4) (x : SF) (s : State) :=
  performGated (Shape.s2 0x39 x 1 1)
    (fun c s => tileGate k.toNat false c s <|
      if tsRows (crewTile s c.key k.toNat).ts ≤ (c.s 0).toNat then c.trapAt 8 (c.s 0).toNat else acquireGate s c.key)
    (fun c s => { s := writeScalar c (((crewTile s c.key k.toNat).rowTag (c.s 0).toNat).setWidth 32) s }) s

/-! ## TRDV and TWRV (09 R181) -/

/-- The tile that an X word names. -/
def xTile (x : XF) : Nat := x.k.toNat % 16

/-- The word of the tile that a lane names. -/
def xWord (c : Ctx) (i : Nat) : Nat := (c.s 0).toNat + i

/-- The checks of TRDV and TWRV. With no active lane they make no access: the shape of a granted tile is checked alone
(03 R49). -/
def tileWordGate (x : XF) (write : Bool) (c : Ctx) (s : State) : Gate :=
  if c.act = 0 then
    if xTile x < (crewTiles s c.key).length && !shapeLegal (crewTile s c.key (xTile x)).ts then .trap { cause := 0x16 } else .go
  else tileGate (xTile x) write c s <|
    let ts := (crewTile s c.key (xTile x)).ts
    match c.firstLane fun i => tsRowBytes ts * tsRows ts / 4 ≤ xWord c i with
    | some i => .trap { cause := 8, flane := i, faddr := xWord c i }
    | none => acquireGate s c.key

/-- The row that holds a word. -/
def wordRow (ts : Word) (w : Nat) : Nat := 4 * w / tsRowBytes ts

def execTrdv (x : XF) (s : State) :=
  performGated (Shape.trdv x) (tileWordGate x false) (fun c s =>
    let t := crewTile s c.key (xTile x)
    { s := writeVector c (fun i =>
        ⟨t.word (xWord c i), if tsFmt t.ts = 0 then t.rowTag (wordRow t.ts (xWord c i)) else 63⟩) s }) s

/-- Words written into a tile: an f32 tile's rows take the least of their old tag and of the words' tags, 63 read as 24. -/
def writeTileWords (c : Ctx) (t : Tile) : Tile :=
  (lanesOf c.act).foldl (fun t i =>
    let w := xWord c i
    let v := c.v 0 0 i
    let r := wordRow t.ts w
    let read (g : SigTag) : SigTag := if g = 63 then 24 else g
    let (g, old) := (read v.tag, read (t.rowTag r))
    let t := { t with image := memWrite t.image (4 * w) (Bits.leBytes 4 v.val.toNat) }
    if tsFmt t.ts = 0 then
      { t with tags := Tab.put t.tags r (if g.toNat < old.toNat then g else old) }
    else t) t

def execTwrv (x : XF) (s : State) :=
  performGated (Shape.twrv x) (tileWordGate x true)
    (fun c s => { s := onTile s c.key (xTile x) (writeTileWords c) }) s

end Sys2Proof.Machine
end

