-- ==== Sys2Proof/Machine/Matrix.lean ====
section
/-! DEFINITION. The matrix engine: major 0x3A (09 R182 to R189), its exact arithmetic and row tags (R186, R187, 04 R71), its
reservation table and the four-in-hand (18 R296 to R302). -/

namespace Sys2Proof.Machine

/-! ## The value of a tile's element (09 R177, 04 R61, R62) -/

/-- The floating-point format of a tile format. -/
def fmtOf (fmt : Nat) : Format :=
  match fmt with
  | 0 => f32
  | 1 => bf16
  | 2 => f16
  | 3 => e4m3
  | 4 => e5m2
  | _ => e2m1

/-- The bits of an element of the image: row-major, packed from the low end (04 R58). -/
def Tile.raw (t : Tile) (r k : Nat) : Nat :=
  let b := fmtBits (tsFmt t.ts)
  let at' := r * tsRowBytes t.ts * 8 + k * b
  memLe t.image (at' / 8) (if b < 8 then 1 else b / 8) / 2 ^ (at' % 8) % 2 ^ b

/-- The exact scaled value of an element of a float tile, with the base exponent of its operand. -/
def Tile.elem (t : Tile) (base : Int) (r k : Nat) : Fval :=
  let x := t.raw r k
  let w := t.scaleWord r
  match tsScm t.ts with
  | 1 =>
    let d := w / 2 ^ (4 * (k / 32)) % 16
    if d = 15 then .fin false 0 0
    else
      match decodeF (fmtOf (tsFmt t.ts)) x with
      | .fin n m e => .fin n m (e + base - d)
      | v => v
  | 2 =>
    let s := if (r * tsCols t.ts + k) / 16384 = 0 then t.s0 else t.s1
    q4nScaled x (w / 2 ^ (8 * (k / 64)) % 256) (decodeF f32 s.toNat)
  | _ => decodeF (fmtOf (tsFmt t.ts)) x

/-- The value of an element of an integer tile: two's complement. -/
def Tile.int (t : Tile) (r k : Nat) : Int :=
  let b := fmtBits (tsFmt t.ts)
  (BitVec.ofNat b (t.raw r k)).toInt

/-! ## The engine's sum (09 R186, R187) -/

/-- The exact sum of two values: an exact zero is +0 (log 38). -/
def sumExact (a b : Fval) : Fval :=
  match a, b with
  | .fin na ma ea, .fin nb mb eb =>
    let (n, m, e) := addExact na ma ea nb mb eb
    .fin (n && m ≠ 0) m e
  | .inf na, .inf nb => if na = nb then .inf na else .nan true
  | .inf n, .fin .. => .inf n
  | .fin .., .inf n => .inf n
  | _, _ => .nan false

/-- One output element as the engine forms it: the accumulator, NAN and OVF, and Lp of 04 R71. -/
structure Accum where
  acc : Nat
  nan : Bool := false
  ovf : Bool := false
  lp : Option Int := none
  deriving DecidableEq, Repr

/-- One block: its exact sum is added with one rounding, a zero sum as +0. An infinite sum, as an infinite super-scale gives
(04 R61), sets OVF as an overflow of the accumulation does (log 38). -/
def accBlock (w : Int) (f : Nat → Fval × Fval) (ks : List Nat) (x : Accum) : Accum :=
  let (s, lp) := ks.foldl (fun (acc : Fval × Option Int) k =>
    let (a, b) := f k
    let p := mulExact a b
    let l := match p with
      | .fin _ m e => if m = 0 then acc.2 else
          let v := expOf m e - w + 1
          some (match acc.2 with
            | some u => max u v
            | none => v)
      | _ => acc.2
    (sumExact acc.1 p, l)) (.fin false 0 0, x.lp)
  let (r, fl) := addF f32 0 (decodeF f32 x.acc) s
  { acc := r, nan := x.nan || isNaN (decodeF f32 r), ovf := x.ovf || fl.of || isInf s, lp := lp }

/-- The blocks of a row of K columns. -/
def blocksOf (cols lb : Nat) : List (List Nat) :=
  (List.range (ceilDiv cols lb)).map fun j => (List.range (min lb (cols - lb * j))).map fun i => lb * j + i

/-- Both operands of a pair are Q4N: blocks of 64 elements, and otherwise of 32. -/
def pairBlock (a b : Tile) : Nat := if tsFmt a.ts = 6 && tsFmt b.ts = 6 then 64 else 32

/-- w(P) of 04 R71: the smaller widening tag. -/
def pairWiden (a b : Tile) : Int := min (loadTag (tsFmt a.ts)).toNat (loadTag (tsFmt b.ts)).toNat

/-- A float output element over a chain of tile pairs. -/
def floatElem (pairs : List (Tile × Tile)) (ea eb : Int) (m n c : Nat) : Accum :=
  pairs.foldl (fun x p =>
    (blocksOf (tsCols p.1.ts) (pairBlock p.1 p.2)).foldl (fun x ks =>
      accBlock (pairWiden p.1 p.2) (fun k => (p.1.elem ea m k, p.2.elem eb n k)) ks x) x) { acc := c }

/-- An integer output element: exact, modulo 2^32 (09 R187). -/
def intElem (pairs : List (Tile × Tile)) (m n c : Nat) : Nat :=
  let s : Int := pairs.foldl (fun x p =>
    (List.range (tsCols p.1.ts)).foldl (fun x k => x + p.1.int m k * p.2.int n k) x) (c : Int)
  (s % (2 ^ 32 : Nat)).toNat

/-- t(r) of 04 R71 for one element. -/
def elemTag (acc : Bool) (cin tin : Nat) (x : Accum) : Nat :=
  let la : Option Int :=
    if !acc then none
    else
      match decodeF f32 cin with
      | .fin _ m e => if m = 0 then none else some (expOf m e - tin + 1)
      | _ => none
  match decodeF f32 x.acc with
  | .fin _ 0 _ => if x.lp.isNone && la.isNone then 24 else 0
  | .fin _ m e =>
    match x.lp, la with
    | some a, some b => clampTag f32 (expOf m e - max a b + 1)
    | some a, none | none, some a => clampTag f32 (expOf m e - a + 1)
    | none, none => 24
  | _ => 0

/-- A tile of C after an operation: its output rows are `row0` on; `pairs` gives the chain and the row of B for a column. -/
structure COut where
  tile : Tile
  nan : Bool
  ovf : Bool
  deriving DecidableEq, Repr

/-- The engine's result for one tile of C (09 R186): `cols n` are the tile pairs for output column n, B's row
and its base exponent. -/
def engineTile (flags : Nat) (ea : Int) (t : Tile) (row0 : Nat) (cols : Nat → List (Tile × Tile) × Nat × Int) : COut :=
  let rows := List.range (tsRows t.ts)
  let ns := List.range (tsCols t.ts)
  let acc := flags.testBit 0
  let track := flags / 2 % 4 = 1
  if tsFmt t.ts = 9 then
    let bs := rows.flatMap fun r => ns.flatMap fun n =>
      Bits.leBytes 4 (intElem (cols n).1 (row0 + r) (cols n).2.1 (if acc then t.raw r n else 0))
    ⟨{ t with image := memWrite [] 0 bs }.tagRows t.ts 63, false, false⟩
  else
    let out := rows.map fun r => ns.map fun n =>
      let c := if acc then t.raw r n else 0
      (c, floatElem (cols n).1 ea (cols n).2.2 (row0 + r) (cols n).2.1 c)
    let bs := out.flatMap fun l => l.flatMap fun x => Bits.leBytes 4 x.2.acc
    let tags := out.zipIdx.map fun l =>
      let tin := min 24 (t.rowTag l.2).toNat
      l.1.foldl (fun g x => min g (elemTag acc x.1 tin x.2)) 24
    let t' := { t with image := memWrite [] 0 bs }
    ⟨if track then { t' with tags := tags.zipIdx.foldl (fun m x => Tab.put m x.2 (BitVec.ofNat 6 x.1)) t'.tags }
      else t'.tagRows t.ts 63,
      out.any fun l => l.any fun x => x.2.nan, out.any fun l => l.any fun x => x.2.ovf⟩

/-! ## Operations (09 R185, R186, R188) -/

/-- A tile of an operation's crew. -/
def opTile (s : State) (m : MatOp) (k : Nat) : Tile := crewTile s m.team k

/-- The tile pairs of an operation, B's tiles from another member. -/
def opPairs (s : State) (a b : MatOp) : List (Tile × Tile) :=
  (List.range a.kch).map fun i => (opTile s a (a.ta + i), opTile s b (b.tb + i))

/-- Kp of a format pair (18 R298). -/
def passDepth (fa fb : Nat) : Nat :=
  let narrow (f : Nat) : Bool := f = 5 || f = 6
  if (narrow fa && narrow fb) || (fa = 8 && fb = 8) then 512 else if fa = 1 || fa = 2 then 128 else 256

/-- The passes of an operation (18 R298). -/
def opPasses (s : State) (m : MatOp) : Nat :=
  (opPairs s m m).foldl (fun n p => n + ceilDiv (tsCols p.1.ts) (passDepth (tsFmt p.1.ts) (tsFmt p.2.ts))) 0

/-- The base exponent that an operand byte holds: signed. -/
def baseExp (x : Nat) : Int := (BitVec.ofNat 8 x).toInt

/-- The accepted format pairs and the accumulator's format (09 R184). -/
def pairFmt (fa fb : Nat) : Option Nat :=
  let low (f : Nat) : Bool := 3 ≤ f && f ≤ 6
  if low fa && low fb then some 0
  else if fa = fb && (fa = 1 || fa = 2) then some 0
  else if (fa = 7 || fa = 8) && (fb = 7 || fb = 8) then some 9
  else none

/-- The shapes of the tiles of an operation (09 R184, R188). -/
def opShapes (tile : Nat → Tile) (four : Bool) (ta tb tc kch : Nat) : Bool :=
  let rows := if four then 64 else 128
  let pairs := (List.range kch).map fun i => ((tile (ta + i)).ts, (tile (tb + i)).ts)
  let c0 := (pairs.head?.bind fun p => pairFmt (tsFmt p.1) (tsFmt p.2))
  (pairs.all fun p => shapeLegal p.1 && shapeLegal p.2 && tsRows p.1 = rows && tsRows p.2 = rows && tsCols p.1 = tsCols p.2 &&
    pairFmt (tsFmt p.1) (tsFmt p.2) = c0) &&
  (List.range 4).all fun j =>
    let ts := (tile (tc + j)).ts
    shapeLegal ts && some (tsFmt ts) = c0 && tsScm ts = 0 &&
    tsRows ts = (if four then 16 else 32) && tsCols ts = (if four then 256 else 128)

/-- Reservation table entries of a cluster in use. -/
def tableCount (s : State) (cl : Nat) : Nat := (s.mats.filter fun m => m.cluster = cl && match m.stage with | .table _ => true | _ => false).length

/-- A cluster's reservation table has an entry for a compartment (13 R247, R248). -/
def tableRoom (s : State) (cl c : Nat) : Bool :=
  shareRoom s 32 c ((s.mats.filter fun m => m.cluster = cl && match m.stage with | .table _ => true | _ => false).map fun m => teamComp m.team)

/-- The matrix engine of a cluster is held. -/
def engineHeld (s : State) (cl : Nat) : Bool :=
  s.mats.any fun m => m.cluster = cl && match m.stage with
    | .running _ | .joined => true
    | _ => false

/-- An operation has started: it, or for a member any of its set, has been granted. -/
def MatStage.started : MatStage → Bool
  | .running _ | .joined => true
  | _ => false

/-- The place of a member's cluster in its hitch: its logical number modulo 4 (09 R188). -/
def MatOp.seat (s : State) (m : MatOp) : Nat := logicalCore s (teamComp m.team) (4 * m.cluster) / 4 % 4

/-- The members of a compartment and OPID at a place of a hitch, in the order of their posts. -/
def seatOps (s : State) (hitch c opid q : Nat) : List MatOp :=
  s.mats.filter fun x => x.four && x.cluster / 4 = hitch && teamComp x.team = c && x.opid = opid && x.seat s = q

/-- Members of one set, in the order of their places: the n-th of each place make the n-th set of a compartment and OPID (18 R301). -/
def nthSet (s : State) (hitch c opid n : Nat) : List MatOp := (List.range 4).filterMap fun q => (seatOps s hitch c opid q)[n]?

/-- The set of a four-in-hand member. -/
def fourSet (s : State) (m : MatOp) : List MatOp :=
  let mine := seatOps s (m.cluster / 4) (teamComp m.team) m.opid (m.seat s)
  nthSet s (m.cluster / 4) (teamComp m.team) m.opid ((mine.findIdx? fun x => x.id = m.id).getD mine.length)

/-- The member's set is complete. -/
def setComplete (s : State) (m : MatOp) : Bool := (fourSet s m).length = 4 && (fourSet s m).any fun x => x.id = m.id

/-- What the four members must share (09 R188). -/
def setAlike (s : State) (l : List MatOp) : Bool :=
  let key (m : MatOp) := (m.kch, m.flags, (List.range m.kch).map fun i =>
    let a := (opTile s m (m.ta + i)).ts
    let b := (opTile s m (m.tb + i)).ts
    (tsFmt a, tsFmt b, tsCols a))
  match l with
  | [] => true
  | m :: r => r.all fun x => key x = key m

/-- An operation waits for partners (09 R189). -/
def partnerWait (s : State) (m : MatOp) : Bool := m.four && !setComplete s m

/-- A set has been completed in this cycle by another member. -/
def justJoined (s : State) (m : MatOp) : Bool := m.four && (fourSet s m).any fun x => x.id ≠ m.id && x.posted = s.time

/-- The state of an operation as MMAQ gives it: from before a change in the same cycle (18 R300). -/
def opState (s : State) (m : MatOp) : Nat :=
  if m.stage.started then (if m.granted = some s.time then 0 else 2) else if partnerWait s m || justJoined s m then 1 else 0

/-- An MMAW status (09 R189). -/
def matStatus (how : Nat) (nan ovf : Bool) : Word :=
  BitVec.ofNat 32 (how + (if nan then 2 ^ 8 else 0) + if ovf then 2 ^ 9 else 0)

/-- Events set flags of a cluster's ENGERR (18 R309). -/
def setEngerr (s : State) (cl bits : Nat) : State :=
  let x := cluster s cl
  if bits = 0 then s
  else setCluster s cl { x with
    engerr := Nat.lor x.engerr bits
    errAt := (s.time, if x.errAt.1 = s.time then Nat.lor x.errAt.2 bits else bits) }

/-- A write to ENGERR clears the flags it names, but those that an event has set in the same cycle (18 R309). -/
def clearEngerr (s : State) (cl v : Nat) : State :=
  let x := cluster s cl
  let kept := if x.errAt.1 = s.time then x.errAt.2 else 0
  setCluster s cl { x with engerr := Nat.lor (x.engerr - Nat.land x.engerr v) (Nat.land x.engerr kept) }

/-- An operation leaves with its status: recorded for its team, its MMAW woken, its barrier told (09 R189, 18 R307). -/
def endMat (s : State) (m : MatOp) (status : Word) : State :=
  let e := status.toNat % 8
  let s := { s with mats := s.mats.filter (fun x => x.id ≠ m.id), stir := true }
  let s := onTeam s m.team fun t =>
    let l := t.matDone ++ [⟨m.handle, status⟩]
    { t with matDone := l.drop (l.length - 16) }
  let s := setEngerr s m.cluster ((if status.getLsbD 8 then 1 else 0) + if status.getLsbD 9 then 2 else 0)
  let s := if e = 0 && m.bar.testBit 7 then arriveBytes s (crewOf m.team) (m.bar % 16) 65536 else s
  let hit (w : Wait) : Option (Option Word) := match w with
    | .matrix h _ => if h = m.handle then some (some status) else none
    | _ => none
  if e = 2 then wakeTrap s m.team hit fun pc => { cause := 0x1C, tpc := pc }
  else onTeam s m.team (wakeTeam hit)

/-- Operations end in the present cycle (18 R300). -/
def noteEnds (s : State) (l : List MatOp) (how : Nat) : State :=
  { s with matEnds := (s.matEnds.filter fun e => e.time = s.time) ++ l.map fun m => ⟨s.time, m, opState s m, how⟩ }

/-- Operations that end together. -/
def endMats (s : State) (l : List MatOp) (status : Word) : State :=
  reap (l.foldl (fun s m => endMat s m status) (noteEnds s l (status.toNat % 8)))

/-- Two operations name a common tile. -/
def sharesTile (a b : MatOp) : Bool := (List.range 16).any fun k => (a.reads k || a.writes k) && (b.reads k || b.writes k)

/-- The tiles of C that an operation leaves, and its status bits. -/
def opResult (s : State) (m : MatOp) (four : List MatOp) : List COut :=
  (List.range 4).map fun j =>
    let t := opTile s m (m.tc + j)
    let rows := tsRows t.ts
    -- a quarter of B has its own member's base exponent (04 R62, 09 R183, R188)
    let cols (n : Nat) : List (Tile × Tile) × Nat × Int :=
      let b := if m.four then four.getD (n / 64) m else m
      (opPairs s m b, if m.four then n % 64 else n, baseExp b.eb)
    engineTile m.flags (baseExp m.ea) t (rows * j) cols

/-- The tiles of C take their results. -/
def putResult (s : State) (m : MatOp) (out : List COut) : State :=
  onCrew s (crewOf m.team) fun c =>
    { c with tiles := out.zipIdx.foldl (fun l x => l.modify (m.tc + x.2) fun _ => x.1.tile) c.tiles }

/-- The passes that an operation has performed by now (18 R298, R301): the last cycles of a set write its tiles. -/
def passesDone (s : State) (m : MatOp) : Nat :=
  match m.stage with
  | .running finish => opPasses s m - ceilDiv (finish - (if m.four then 16 else 0) - s.time) 8
  | _ => 0

/-- The passes of an operation that leaves its engine stay in MXPASS (18 R309). -/
def countPasses (s : State) (m : MatOp) : State :=
  let cl := cluster s m.cluster
  setCluster s m.cluster { cl with mxpass := (cl.mxpass + passesDone s m) % 2 ^ 32 }

/-- MXPASS of a cluster: the passes of what has left its engine, and of what runs there. -/
def mxpass (s : State) (cl : Nat) : Nat :=
  (s.mats.foldl (fun n m => if m.cluster = cl then n + passesDone s m else n) (cluster s cl).mxpass) % 2 ^ 32

/-- A running operation ends: C and its tags are written, and all its members complete (18 R298, R301). -/
def finishMats (s : State) (l : List MatOp) : State :=
  let outs := l.map fun m => (m, opResult s m l)
  let nan := outs.any fun x => x.2.any (·.nan)
  let ovf := outs.any fun x => x.2.any (·.ovf)
  let s := outs.foldl (fun s x => countPasses (putResult s x.1 x.2) x.1) s
  endMats s l (matStatus 0 nan ovf)

/-! ## MMA and MMA4 (09 R183, R185) -/

/-- A parameter block as read (09 R183). -/
structure MatBlock where
  ta : Nat
  tb : Nat
  tc : Nat
  kch : Nat
  flags : Nat
  sba : Nat
  sbb : Nat
  pri : Nat
  opid : Nat
  bar : Nat
  rest : Nat
  deriving DecidableEq, Repr

def parseMat (b : List Byte) : MatBlock :=
  { ta := fieldAt b 0 1, tb := fieldAt b 1 1, tc := fieldAt b 2 1, kch := fieldAt b 3 1, flags := fieldAt b 4 1,
    sba := fieldAt b 5 1, sbb := fieldAt b 6 1, pri := fieldAt b 7 1, opid := fieldAt b 8 4, bar := fieldAt b 12 1,
    rest := fieldAt b 13 51 }

/-- Step 2 of R185. -/
def MatBlock.illegal (b : MatBlock) : Bool :=
  let inC (t : Nat) : Bool := t < b.tc + 4 && b.tc < t + b.kch
  4 ≤ b.flags || b.bar / 16 % 8 ≠ 0 || b.rest ≠ 0 || b.kch = 0 || 8 < b.kch || 16 < b.ta + b.kch || 16 < b.tb + b.kch ||
  12 < b.tc || 63 < b.sba || 63 < b.sbb || inC b.ta || inC b.tb

/-- The tiles that a block names. -/
def MatBlock.tiles (b : MatBlock) : List Nat :=
  ((List.range b.kch).flatMap fun i => [b.ta + i, b.tb + i]) ++ (List.range 4).map fun j => b.tc + j

/-- The compartment holds the whole hitch of a core, and the region asks for it (09 R188). -/
def hitchOk (c : Ctx) (s : State) : Bool :=
  ((List.range 4).all fun i => (comp s c.team.comp).desc.clusters.getLsbD (4 * (c.place.core / 16) + i)) &&
  (region? s c.team.region).any fun r => r.flags.testBit 1

/-- The address of the parameter block. -/
def matVa (c : Ctx) : Nat := c.pair 0 % 2 ^ 57

/-- The checks of R185 on a block, and what MMA waits for. -/
def matGate (four : Bool) (c : Ctx) (s : State) : Gate :=
  if matVa c % 64 ≠ 0 then c.trapAt 6 (matVa c)
  else
    (readBlock c s 5 (matVa c)).go fun bytes => Gate.reading false [(matVa c, 64)] <|
      let b := parseMat bytes
      let tiles := crewTiles s c.key
      if b.illegal then .trap { cause := 1 }
      else if b.tiles.any fun k => tiles.length ≤ k then .trap { cause := 7 }
      else if b.tiles.any fun k => tileLoading s (crewOf c.key) k then .wait
      else if !opShapes (fun k => tiles.getD k {}) four b.ta b.tb b.tc b.kch then .trap { cause := 0x16 }
      else if four && !hitchOk c s then .trap { cause := 0x1C }
      else if 8 ≤ (s.mats.filter fun m => m.team = c.key).length || 174 ≤ creditsHeld s c.key then .wait
      else .go

/-- An older post of the team that names a tile of this one has bounced before any table accepted it: operations of a team keep their
order, so that this one does not enter its table before it (09 R186, log 106). -/
def matBehind (s : State) (m : MatOp) : Bool :=
  s.mats.any fun x => x.team = m.team && x.id < m.id && x.accepted.isNone && sharesTile x m

/-- The members of a post's set that MMAX has cancelled in this cycle (18 R300). -/
def cancelledNow (s : State) (m : MatOp) : List MatOp :=
  (s.matEnds.filter fun e => e.time = s.time && e.how = 1 && e.op.four && e.op.cluster / 4 = m.cluster / 4 &&
    teamComp e.op.team = teamComp m.team && e.op.opid = m.opid).map (·.op)

/-- A member of a set has been posted: the last one readies its partners' bounced entries (18 R301); with partners cancelled in its own
cycle, it and those that still wait end as they did (R300). -/
def partnerPosted (s : State) (m : MatOp) : State :=
  let l := fourSet s m
  let gone := cancelledNow s m
  if gone ≠ [] && (List.range 4).all fun q => (l ++ gone).any fun x => x.seat s = q then endMats s l (matStatus 1 false false)
  else if setComplete s m then
    { s with mats := update s.mats (fun x => l.any fun y => y.id = x.id) fun x =>
        match x.stage with
        | .pannier 4 _ => { x with stage := .pannier 4 (some 0) }
        | _ => x }
  else s

/-- An MMA is posted: its handle, its locks, and its place in the reservation table or, if that is full, in the pannier (09
R186, 18 R297). -/
def postMat (four : Bool) (c : Ctx) (s : State) : State :=
  let bytes := (readBlock c s 5 (matVa c)).get
  let b := parseMat bytes
  let h := c.team.matSerial % 2 ^ 16
  let cl := c.place.core / 4
  let s := readLines s c.place.core c.team.comp c.team.level false [(matVa c, 64)]
  let (id, s) := fresh s
  let (age, s) := nextAge s c.key
  let post : MatOp :=
    { id := id, cluster := cl, team := c.key, handle := h, four := four, ta := b.ta, tb := b.tb, tc := b.tc, kch := b.kch,
      flags := b.flags, ea := (Team.scalar c.team b.sba).toNat % 256, eb := (Team.scalar c.team b.sbb).toNat % 256, pri := b.pri,
      opid := b.opid, bar := b.bar, posted := s.time, accepted := none, stage := .table s.time
      entry := { opc := opcOf (c.entryOf c.act true).word, age := age, line := matVa c, block := bytes } }
  let full := !tableRoom s cl (teamComp c.key) || matBehind s post
  let s := if full then makeRoom s c.key else s
  let m : MatOp := if full then { post with stage := .pannier 2 (some (clk s c.place.core + 2048)) } else { post with accepted := some s.time }
  let s := { s with mats := s.mats ++ [m] }
  let s := onTeam s c.key fun t => { t with matSerial := (t.matSerial + 1) % 2 ^ 16 }
  let s := writeScalar c (BitVec.ofNat 32 h) s
  if four then partnerPosted s m else s

def execMma (x : SF) (s : State) :=
  performGated (Shape.engine (Shape.s2 0x3A x 1 2)) (matGate false) (fun c s => { s := postMat false c s }) s

def execMma4 (x : SF) (s : State) :=
  performGated (Shape.engine (Shape.s2 0x3A x 1 2)) (matGate true) (fun c s => { s := postMat true c s }) s

/-! ## MMAW, MMAQ and MMAX (09 R189) -/

/-- A handle operand with non-zero high bits is ILLEGAL before anything else (09 R189, R197). -/
def handleGate (c : Ctx) (_ : State) : Gate := if (c.s 0).toNat / 2 ^ 16 ≠ 0 then .trap { cause := 1 } else .go

/-- The team's outstanding operation of a handle. -/
def matOf (s : State) (key h : Nat) : Option MatOp := s.mats.find? fun m => m.team = key && m.handle = h

/-- The newest record of a completed operation of a handle. -/
def matRecord (t : Team) (h : Nat) : Option Word := (t.matDone.reverse.find? fun d => d.handle = h).map (·.status)

def execMmaw (x : SF) (s : State) :=
  performGated (Shape.parking (Shape.s2 0x3A x 1 1)) handleGate (fun c s =>
    let h := (c.s 0).toNat
    let s := parkTeam s c.key c.carry
    match matOf s c.key h with
    | some _ => parkDone c s (some (.matrix h x.d.toNat))
    | none =>
      let st := (matRecord c.team h).getD 0xFF
      let d := parkDone c (writeScalar c st s) none
      if (matRecord c.team h).any fun st => st.toNat % 8 = 2 then { d with post := some { cause := 0x1C, tpc := c.cur.pc } }
      else d) s

/-- The state that MMAQ writes: from before a change in the same cycle (18 R300). -/
def matState (s : State) (t : Team) (key h : Nat) : Nat :=
  match matOf s key h with
  | some m => opState s m
  | none =>
    match s.matEnds.find? fun e => e.time = s.time && e.op.team = key && e.op.handle = h with
    | some e => e.was
    | none =>
      match matRecord t h with
      | some st => 3 + st.toNat % 8
      | none => 0xFF

def execMmaq (x : SF) (s : State) :=
  performGated (Shape.engine (Shape.s2 0x3A x 1 1)) handleGate (fun c s =>
    { s := writeScalar c (BitVec.ofNat 32 (matState s c.team c.key (c.s 0).toNat)) s }) s

/-- The operations that a cancellation of one takes with it: all members of its set that have been posted (09 R189). -/
def cancelSet (s : State) (m : MatOp) : List MatOp := if m.four && (fourSet s m).any (fun x => x.id = m.id) then fourSet s m else [m]

def execMmax (x : SF) (s : State) :=
  performGated (Shape.engine (Shape.s2 0x3A x 1 1)) handleGate (fun c s =>
    let h := (c.s 0).toNat
    match matOf s c.key h with
    | some m =>
      let l := cancelSet s m
      if l.any fun x => x.stage.started then { s := writeScalar c 1 s }
      else { s := endMats (writeScalar c 0 s) l (matStatus 1 false false) }
    | none => { s := writeScalar c (if (matRecord c.team h).isSome then 1 else 0xFF) s }) s

/-! ## Grants and completions (18 R297, R298, R301) -/

/-- A complete set whose members do not agree, once the cycle of its last post is over (R300): all four complete (09 R188). -/
def unlikeSet (s : State) (m : MatOp) : Bool :=
  m.four && setComplete s m && !(fourSet s m).any (·.stage.started) && ((fourSet s m).all fun x => x.posted < s.time) &&
  !setAlike s (fourSet s m)

/-- An entry is eligible (18 R297): accepted, not waiting for partners, and behind no earlier accepted operation of its crew
that names one of its tiles. A set is from the cycle after its last member was accepted: a cancellation in that one stands (R300). -/
def eligible (s : State) (m : MatOp) : Bool :=
  (match m.stage with
    | .table _ => true
    | _ => false) &&
  !partnerWait s m && (!m.four || (setAlike s (fourSet s m) && (fourSet s m).all fun x => x.accepted.any fun t => t < s.time)) &&
  !s.mats.any fun x => x.id ≠ m.id && crewOf x.team = crewOf m.team && x.accepted.isSome &&
    (x.accepted.getD 0 < m.accepted.getD 0 || (x.accepted = m.accepted && x.id < m.id)) && sharesTile x m

/-- The effective priority (18 R297). -/
def effPri (s : State) (m : MatOp) : Nat := min 255 (m.pri + (s.time - m.accepted.getD s.time) / 64)

/-- What an engine ranks an entry by: a set that an engine of its hitch has granted, a complete set, and any other; then the priority; then
the acceptance and the number. DESIGN CHOICE (log 105): a set is ranked as a whole, by the highest priority and the latest acceptance
of its members, so that the four engines choose alike (18 R301). -/
def matRank (s : State) (m : MatOp) : Nat × Nat × Nat × Nat :=
  if !m.four then (0, effPri s m, m.accepted.getD 0, m.id)
  else
    let l := fourSet s m
    (if l.any (·.stage.started) then 2 else 1, (l.map (effPri s)).foldl max 0, (l.map fun x => x.accepted.getD 0).foldl max 0,
      (l.map (·.id)).foldl min m.id)

/-- A rank goes before another: the higher class and priority, then the earlier acceptance. -/
def rankBefore (a b : Nat × Nat × Nat × Nat) : Bool :=
  b.1 < a.1 || (a.1 = b.1 && (b.2.1 < a.2.1 || (a.2.1 = b.2.1 &&
    (a.2.2.1 < b.2.2.1 || (a.2.2.1 = b.2.2.1 && a.2.2.2 < b.2.2.2)))))

/-- The entry that a free engine grants: a complete set before every other, then the highest priority, then the first
accepted. -/
def chooseMat (s : State) (cl : Nat) : Option MatOp :=
  (s.mats.filter fun m => m.cluster = cl && eligible s m).foldl (fun best m =>
    match best with
    | some b => if rankBefore (matRank s m) (matRank s b) then some m else some b
    | none => some m) none

/-- The stage of an operation changes. -/
def setStage (s : State) (id : Nat) (st : MatStage) : State :=
  { s with mats := update s.mats (fun x => x.id = id) fun x => { x with stage := st } }

/-- An engine grants an entry: a member of a set then waits for the other engines. -/
def startMat (s : State) (m : MatOp) : State :=
  let st : MatStage := if m.four then .joined else .running (s.time + 32 + 8 * opPasses s m)
  { s with mats := update s.mats (fun x => x.id = m.id) fun x => { x with stage := st, granted := some s.time } }

/-- What a cluster's table does next: a set that does not agree ends; or a free engine grants its best entry. -/
def grantMat (s : State) (cl : Nat) : Option State :=
  match s.mats.find? fun m => m.cluster = cl && unlikeSet s m with
  | some m => some (endMats s (fourSet s m) (matStatus 2 false false))
  | none => if engineHeld s cl then none else (chooseMat s cl).map (startMat s)

/-- The last of the four engines has granted a set: it runs (18 R301). -/
def startSet (s : State) (l : List MatOp) : State :=
  match l with
  | m :: _ => l.foldl (fun s x => setStage s x.id (.running (s.time + 48 + 8 * opPasses s m))) s
  | [] => s

end Sys2Proof.Machine
end

