-- ==== Sys2Proof/Machine/CopyEng.lean ====
section
/-! DEFINITION. The copy engines: major 0x3B (09 R190 to R198), their queue, locks, promises and elements (18 R303 to R308, 11
R219, R220). -/

namespace Sys2Proof.Machine

/-! ## The command block (09 R191) -/

/-- A command block as read. -/
structure CopyBlock where
  src : Nat
  dst : Nat
  n : List Nat
  i : List Nat
  ss : List Int
  ds : List Int
  ush : Nat
  esz : Nat
  flags : Nat
  bar : Nat
  collop : Nat
  mem : Nat
  mems : Nat
  rest : Nat
  deriving DecidableEq, Repr

def parseCopy (b : List Byte) : CopyBlock :=
  let five (off : Nat) : List Nat := (List.range 5).map fun k => fieldAt b (off + 2 * k) 2
  let signed (off : Nat) : List Int := (five off).map fun v => (BitVec.ofNat 16 v).toInt
  { src := fieldAt b 0 8, dst := fieldAt b 8 8, n := five 0x10, i := five 0x1A, ss := signed 0x24, ds := signed 0x2E,
    ush := fieldAt b 0x38 1, esz := fieldAt b 0x39 1, flags := fieldAt b 0x3A 1, bar := fieldAt b 0x3B 1,
    collop := fieldAt b 0x3C 1, mem := fieldAt b 0x3D 1, mems := fieldAt b 0x3E 1, rest := fieldAt b 0x3F 1 }

/-- ESZ that a COLLOP asks for (09 R193). -/
def collSize (op : Nat) : Nat := if op = 2 || op = 5 then 3 else 2

/-- The values that raise ILLEGAL (09 R191 to R193): kind 0 CPY, 1 GATH, 2 SCAT, 3 COLL. -/
def CopyBlock.illegal (b : CopyBlock) (kind : Nat) : Bool :=
  2 ^ 57 ≤ b.src || 2 ^ 57 ≤ b.dst || b.n.any (fun n => n = 0) || ((b.i.zip b.n).any fun x => x.2 ≤ x.1) || 5 ≤ b.esz ||
  8 ≤ b.flags || 16 ≤ b.bar || b.rest ≠ 0 ||
  (if kind = 3 then 6 ≤ b.collop || b.esz ≠ collSize b.collop || b.mems = 0 || 64 < b.mems || b.mems ≤ b.mem
   else b.collop ≠ 0 || b.mem ≠ 0 || b.mems ≠ 0) ||
  (kind = 1 && b.ss.any fun v => v ≠ 0) || (kind = 2 && b.ds.any fun v => v ≠ 0)

/-- The address of a base or stride that is not a multiple of the element size, or of an index array or counter that is not
aligned. -/
def CopyBlock.misaligned (b : CopyBlock) (kind aux : Nat) : Option Nat :=
  let size := 2 ^ b.esz
  let off (ss : List Int) (sh : Nat) : Bool := ss.any fun v => v * (2 ^ sh : Nat) % (size : Int) ≠ 0
  if b.src % size ≠ 0 || off b.ss (b.ush % 16) then some b.src
  else if b.dst % size ≠ 0 || off b.ds (b.ush / 16) then some b.dst
  else if kind ≠ 0 && aux % 4 ≠ 0 then some aux
  else none

/-- The least and the greatest sum of index × stride over the vectors from a start vector on, in ordinal order. -/
def spanFrom (n i : List Nat) (ss : List Int) : Int × Int :=
  let r := (n.zip (i.zip ss)).foldl (fun (a : (Int × Int) × Int × Int) x =>
    let (n, i, s) := x
    let c : Int := i * s
    let last : Int := ((n - 1 : Nat) : Int) * s
    let next : Int := ((i + 1 : Nat) : Int) * s
    let lo := a.1.1 + c
    let hi := a.1.2 + c
    let span := if i + 1 < n then (min lo (min next last + a.2.1), max hi (max next last + a.2.2)) else (lo, hi)
    (span, a.2.1 + min 0 last, a.2.2 + max 0 last)) ((0, 0), 0, 0)
  r.1

/-- The ordinal of a vector (09 R192). -/
def ordOf : List Nat → List Nat → Nat
  | n :: ns, i :: is => i + n * ordOf ns is
  | _, _ => 0

/-- The vector of an ordinal. -/
def vecOf : List Nat → Nat → List Nat
  | [], _ => []
  | n :: ns, o => o % n :: vecOf ns (o / n)

/-- The number of vectors. -/
def vectors (n : List Nat) : Nat := n.foldl (fun p k => p * k) 1

/-- The byte range of a side from the start vector on. -/
def sideSpan (base sh size : Nat) (n i : List Nat) (ss : List Int) : Int × Int :=
  let (lo, hi) := spanFrom n i ss
  (base + lo * (2 ^ sh : Nat), base + hi * (2 ^ sh : Nat) + (size - 1 : Nat))

/-- The ranges of a block's source and destination. -/
def CopyBlock.srcSpan (b : CopyBlock) : Int × Int := sideSpan b.src (b.ush % 16) (2 ^ b.esz) b.n b.i b.ss
def CopyBlock.dstSpan (b : CopyBlock) : Int × Int := sideSpan b.dst (b.ush / 16) (2 ^ b.esz) b.n b.i b.ds

/-- A scratchpad side that R150 refuses with ADDR: its offset. -/
def CopyBlock.scratchBad (b : CopyBlock) (kind bytes : Nat) : Option Nat :=
  let out (r : Int × Int) (indexed : Bool) : Bool := bytes = 0 || (!indexed && (decide (r.1 < 0) || decide ((bytes : Int) ≤ r.2)))
  if b.flags.testBit 0 && out b.srcSpan (kind = 1) then some b.src
  else if b.flags.testBit 1 && out b.dstSpan (kind = 2) then some b.dst
  else none

/-! ## Queue and locks (09 R195, 18 R303, R305) -/

def copy? (s : State) (id : Nat) : Option Copy := s.copies.find? fun x => x.id = id

def putCopy (s : State) (x : Copy) : State := { s with copies := update s.copies (fun y => y.id = x.id) fun _ => x }

/-- A command is in its cluster's queue. -/
def CopyStage.inQueue : CopyStage → Bool
  | .queued _ => true
  | _ => false

def CopyStage.isRunning : CopyStage → Bool
  | .running _ => true
  | _ => false

/-- Entries of a cluster's copy-engine queue in use. -/
def queueCount (s : State) (cl : Nat) : Nat := (s.copies.filter fun x => x.cluster = cl && x.stage.inQueue).length

/-- A cluster's copy-engine queue has an entry for a compartment (13 R247, R248). -/
def copyRoom (s : State) (cl c : Nat) : Bool :=
  shareRoom s 64 c ((s.copies.filter fun x => x.cluster = cl && x.stage.inQueue).map fun x => teamComp x.team)

/-- Engines of a cluster that run a command. -/
def enginesRunning (s : State) (cl : Nat) : Nat := (s.copies.filter fun x => x.cluster = cl && x.stage.isRunning).length

/-- Entries of a cluster's range-lock table in use: two for each command that has taken its own. -/
def locksUsed (s : State) (cl : Nat) : Nat := 2 * (s.copies.filter fun x => x.cluster = cl && x.accepted).length

/-- Two entries of the range-lock table are free. -/
def lockRoom (s : State) (cl : Nat) : Bool := locksUsed s cl + 2 ≤ 256

/-- The locks of a range of addresses, cut where the address space wraps. -/
def vaLocks (write : Bool) (r : Int × Int) : List Lock :=
  let n := (r.2 - r.1 + 1).toNat
  let lo := (r.1 % (2 ^ 57 : Nat)).toNat
  if 2 ^ 57 ≤ n then [⟨none, write, 0, 2 ^ 57 - 1⟩]
  else if lo + n ≤ 2 ^ 57 then [⟨none, write, lo, lo + n - 1⟩]
  else [⟨none, write, lo, 2 ^ 57 - 1⟩, ⟨none, write, 0, lo + n - 2 ^ 57 - 1⟩]

/-- An address of a command lies on a peer or the host. -/
def farSide (s : State) (x : Copy) (need : Need) (va : Nat) : Bool :=
  match peek s x.core (teamComp x.team) x.level need (va % 2 ^ 57) with
  | .ok pa _ => localClass pa = .none
  | _ => false

/-- The locks of one side: none on a peer or the host. -/
def sideLocks (s : State) (x : Copy) (scratch write : Bool) (base : Nat) (r : Int × Int) : List Lock :=
  if scratch then [⟨some (crewOf x.team), write, r.1.toNat, r.2.toNat⟩]
  else if farSide s x (if write then .wr else .rd) base then []
  else vaLocks write r

/-- The start vector of a command. -/
def Copy.start (x : Copy) : List Nat := vecOf x.n x.first

/-- The bytes of an element. -/
def Copy.size (x : Copy) : Nat := 2 ^ x.esz

/-- The range of the index array that a command reads. -/
def Copy.indexSpan (x : Copy) : Int × Int :=
  ((x.aux : Int) + 4 * x.first, (x.aux : Int) + 4 * (vectors x.n : Nat) - 1)

/-- The lock of a command's destination. -/
def dstLocks (s : State) (x : Copy) : List Lock :=
  sideLocks s x (x.flags.testBit 1) true x.dst (sideSpan x.dst (x.ush / 16) x.size x.n x.start x.ds)

/-- The range locks that a command takes at acceptance (09 R195); a COLL's destination is locked later. -/
def acceptLocks (s : State) (x : Copy) : List Lock :=
  let src := sideLocks s x (x.flags.testBit 0) false x.src (sideSpan x.src (x.ush % 16) x.size x.n x.start x.ss)
  let idx := sideLocks s x false false x.aux x.indexSpan
  match x.kind with
  | 0 => src ++ dstLocks s x
  | 1 => idx ++ dstLocks s x
  | 2 => src ++ idx
  | _ => src

/-! ## The promise (18 R306) -/

/-- Lines of a side. -/
def sideLines (n : List Nat) (base sh size : Nat) (ss : List Int) (indexed : Bool) : Nat :=
  let outer := vectors (n.drop 1)
  let n0 := n.headD 1
  if !indexed && (ss.headD 0) * (2 ^ sh : Nat) = (size : Int) && base % 64 = 0 then outer * ceilDiv (n0 * size) 64 else outer * n0

/-- The latency of a side, as its base translates through the cluster's TLB. -/
def sideLat (s : State) (x : Copy) (scratch : Bool) (base : Nat) : Nat :=
  let c := teamComp x.team
  let va := base % 2 ^ 57
  let of' (pa : Nat) : Nat := match localClass pa with
    | .hbm => 600
    | .tier2 => 1100
    | _ => 4300
  if scratch then 28
  -- the heap window has no entry in a TLB (12 R239)
  else if inHeap (comp s c).heap va then 4300
  else
    match (cluster s x.cluster).tlb.find? fun e => covers e c va with
    | some e => of' (e.pa + va % 2 ^ e.bits)
    | none => 4300

/-- Cycles that a command is to run by itself. -/
def copyCost (s : State) (x : Copy) : Nat :=
  64 + sideLat s x (x.flags.testBit 0) x.src + sideLat s x (x.flags.testBit 1) x.dst +
  2 * max (sideLines x.n x.src (x.ush % 16) x.size x.ss (x.kind = 1)) (sideLines x.n x.dst (x.ush / 16) x.size x.ds (x.kind = 2))

/-- The backlog of a cluster: D less the cycles run, of every accepted command, over four. -/
def backlog (s : State) (cl : Nat) : Nat :=
  ceilDiv ((s.copies.filter fun x => x.cluster = cl && x.accepted).foldl (fun n x => n + (x.cost - (match x.stage with
    | .running t => s.time - t
    | _ => 0))) 0) 4

/-- The results of a command (09 R194): its handle, zero and the promise. -/
def copyResults (x : Copy) : List Word :=
  let p := x.promise.getD (2 ^ 64 - 1)
  BitVec.ofNat 32 x.handle :: 0 :: words64 p

/-- A command takes its range locks: its promise is computed, unless its results were written when it bounced. -/
def acceptCopy (s : State) (x : Copy) : Copy :=
  let own := copyCost s x
  let d := backlog s x.cluster + own
  { x with
    accepted := true
    acceptedAt := s.time
    locks := acceptLocks s x
    cost := d
    dur := own
    promise := if x.replied then none else some (clk s x.core + ceilDiv (d * (core s x.core).mhz) 2100) }

/-- The results are written and the issuing entry goes on (09 R194). -/
def replyCopy (s : State) (x : Copy) : State :=
  let s := putCopy s { x with replied := true }
  if x.replied then s
  else
    let hit (w : Wait) : Option (Option Word) := if w = .accept x.id then some none else none
    onTeam s x.team fun t => wakeTeam hit (Team.setScalars t x.dest (copyResults x))

/-! ## CPY, GATH, SCAT and COLL (09 R190, R194) -/

/-- The address of the command block, and of the index array or ring counter. -/
def copyVa (c : Ctx) : Nat := c.pair 0 % 2 ^ 57
def copyAux (kind : Nat) (c : Ctx) : Nat := if kind = 0 then 0 else c.pair 2 % 2 ^ 57

/-- The scope of the release that a command's issue is (09 R194). -/
def copyScope (c : Ctx) : Nat := max 4 (c.hints.hscp.getD 4)

/-- The checks of a command and what its post waits for. -/
def copyGate (kind : Nat) (c : Ctx) (s : State) : Gate :=
  if copyVa c % 64 ≠ 0 then c.trapAt 6 (copyVa c)
  else
    (readBlock c s 6 (copyVa c)).go fun bytes => Gate.reading false [(copyVa c, 64)] <|
      let b := parseCopy bytes
      if b.illegal kind then .trap { cause := 1 }
      else
        match b.misaligned kind (copyAux kind c) with
        | some a => c.trapAt 6 a
        | none =>
          match b.scratchBad kind (scratchBytes s (crewOf c.key)) with
          | some a => c.trapAt 8 a
          | none =>
            if acquiring s c.key || outstanding s c.key then .wait
            else if 16 ≤ (s.copies.filter fun x => x.team = c.key).length || 174 ≤ creditsHeld s c.key then .wait
            else releaseWait c s (copyScope c) c.lane0

/-- A command is posted: accepted at once, waiting for its locks in the queue, or bounced by a full queue. -/
def postCopy (kind : Nat) (c : Ctx) (s : State) : Done :=
  let bytes := (readBlock c s 6 (copyVa c)).get
  let b := parseCopy bytes
  let k := c.place.core
  let cl := k / 4
  let s := releaseAt (readLines s k c.team.comp c.team.level false [(copyVa c, 64)]) k (copyScope c)
  let (id, s) := fresh s
  let (age, s) := nextAge s c.key
  let first := ordOf b.n b.i
  let full := !copyRoom s cl (teamComp c.key)
  let s := if full then makeRoom s c.key else s
  let dest := (c.shape.sd.map fun d => d.1.toNat).getD 0
  let x : Copy :=
    { id := id, cluster := cl, core := k, team := c.key, via := c.key, level := c.team.level, region := c.team.region,
      handle := c.team.copySerial % 2 ^ 16, kind := kind, src := b.src, dst := b.dst, n := b.n, ss := b.ss, ds := b.ds,
      ush := b.ush, esz := b.esz, flags := b.flags, bar := b.bar, collop := b.collop, mem := b.mem, mems := b.mems,
      aux := copyAux kind c, dest := dest, first := first, next := first,
      stage := if full then .pannier 2 (some (clk s k + 2048)) else .queued s.time
      entry := { opc := opcOf (c.entryOf c.act true).word, age := age, line := copyVa c, block := bytes } }
  let s := onTeam s c.key fun t => { t with copySerial := (t.copySerial + 1) % 2 ^ 16 }
  let x := if !full && lockRoom s cl then acceptCopy s x else x
  let s := { s with copies := s.copies ++ [x] }
  if full || x.accepted then { s := replyCopy s x } else { s := s, moves := some (c.waitHere (.accept id)) }

def execCpy (x : SF) (s : State) :=
  performGated (Shape.engine (Shape.s2 0x3B x 4 2)) (copyGate 0) (postCopy 0) s

def execGath (x : SF) (s : State) :=
  performGated (Shape.engine (Shape.s3 0x3B x 4 2 2)) (copyGate 1) (postCopy 1) s

def execScat (x : SF) (s : State) :=
  performGated (Shape.engine (Shape.s3 0x3B x 4 2 2)) (copyGate 2) (postCopy 2) s

def execColl (x : SF) (s : State) :=
  performGated (Shape.engine (Shape.s3 0x3B x 4 2 2)) (copyGate 3) (postCopy 3) s

/-! ## Elements (09 R192, R193, 18 R304, 11 R219) -/

/-- What an engine's access of some bytes comes to. -/
inductive EngGot where
  | bytes (b : List Byte)
  /-- A peer or the host has been asked, or cannot be asked yet. -/
  | pause
  /-- WHY of R197. -/
  | bad (why : Nat)
  deriving DecidableEq, Repr

/-- WHY of a translation that fails. -/
def whyOf : Xres → Nat
  | .miss .. => 1
  | .access => 2
  | .addr => 3
  | _ => 4

/-- The tag of what a command asks for: each element has its own, and what is asked again has another (21 R317). -/
def Copy.tag (x : Copy) (slot : Nat) : Nat := askTag x.id slot + 2 ^ 40 * (x.next + 2 ^ 32 * x.tries)

/-- A read by the engine within one line, at the home or from elsewhere. -/
def engLine (s : State) (x : Copy) (need : Need) (slot va n : Nat) : State × Copy × EngGot :=
  match Tab.get? x.have' slot with
  | some b => (s, x, .bytes b)
  | none =>
    if x.asked.contains slot then (s, x, .pause)
    else
      let c := teamComp x.team
      match translate s x.core c x.level need va with
      | (s, .ok pa _) =>
        let asked : Copy := { x with asked := x.asked ++ [slot] }
        match paClass s pa with
        | .peer coach =>
          if unreachableCoach s coach then (s, x, .bad 5)
          else
            match askRemote s x.via coach (x.tag slot) (pa % 2 ^ 44) n none with
            | some t => (t, { asked with roads := x.roads ++ [(slot, coach, routeRelay s coach, x.tries)] }, .pause)
            | none => (s, x, .pause)
        | .host => ({ s with out := s.out ++ [.hostRead (x.tag slot) (pa - 0x8000000000000) n none false] }, asked, .pause)
        | _ =>
          if homeFails s pa n then (reportUncorr s c pa 1, x, .bad 4)
          else (l2Touch s (compKey s c) pa, x, .bytes (homeBytes s (compKey s c) pa n))
      | (s, r) => (s, x, .bad (whyOf r))

/-- A read by the engine, line by line. -/
def engLines (need : Need) : List (Nat × Nat) → Nat → State → Copy → State × Copy × EngGot
  | [], _, s, x => (s, x, .bytes [])
  | (va, n) :: r, slot, s, x =>
    match engLine s x need slot va n with
    | (s, x, .bytes b) =>
      match engLines need r (slot + 4) s x with
      | (s, x, .bytes b') => (s, x, .bytes (b ++ b'))
      | o => o
    | o => o

/-- A read of a side: of the crew's scratchpad, or of memory. -/
def engRead (s : State) (x : Copy) (scratch : Bool) (need : Need) (slot : Nat) (a : Int) (n : Nat) : State × Copy × EngGot :=
  if scratch then
    let ck := crewOf x.team
    if a < 0 || (scratchBytes s ck : Int) < a + n then (s, x, .bad 3)
    else (s, x, .bytes (memRead (scratchOf s ck) a.toNat n))
  else engLines need (lineParts (a % (2 ^ 57 : Nat)).toNat n) slot s x

/-- Bytes at an offset of a line, as a posted write carries them. -/
def lineData (off : Nat) (bs : List Byte) : BitVec 64 × List Byte :=
  (BitVec.ofNat 64 (byteMask off bs.length),
    List.replicate off 0 ++ bs ++ List.replicate (64 - off - bs.length) 0)

/-- A write by the engine within one line: none while it cannot leave. -/
def engPut (s : State) (x : Copy) (va : Nat) (bs : List Byte) : Option (State × Copy) :=
  let c := teamComp x.team
  match translate s x.core c x.level .wr va with
  | (s, .ok pa _) =>
    match paClass s pa with
    | .peer coach =>
      let d := lineData (pa % 64) bs
      let q := nextSeq s x.via coach
      (postRemote s x.via coach (pa % 2 ^ 44 / 64 * 64) d.1 d.2 none false).map fun s =>
        (s, { x with unacked := x.unacked ++ [(coach, q)] })
    | .host => some ({ s with out := s.out ++ [.hostWrite (pa - 0x8000000000000) bs false] }, x)
    | _ => some (writeProg s (compKey s c) pa bs, x)
  | (s, _) => some (s, x)

/-- A write of an element: its lines have been found to be there. -/
def engPuts (va : Nat) (bs : List Byte) : List (Nat × Nat) → State → Copy → Option (State × Copy)
  | [], s, x => some (s, x)
  | (a, n) :: r, s, x =>
    (engPut s x a (bs.take n)).bind fun y => engPuts (va + n) (bs.drop n) r y.1 y.2

/-- Why a line cannot be written. -/
def putBad (s : State) (x : Copy) (va : Nat) : Option Nat :=
  match peek s x.core (teamComp x.team) x.level .wr va with
  | .ok pa _ =>
    match paClass s pa with
    | .peer coach => if unreachableCoach s coach then some 5 else none
    | _ => none
  | r => some (whyOf r)

/-- A write of a side: the state and the command, none while it cannot leave; or WHY. -/
def engWrite (s : State) (x : Copy) (scratch : Bool) (a : Int) (bs : List Byte) : Option (State × Copy) × Option Nat :=
  if scratch then
    let ck := crewOf x.team
    if a < 0 || (scratchBytes s ck : Int) < a + bs.length then (none, some 3)
    else (some (onCrew s ck fun w => { w with scratch := memWrite w.scratch a.toNat bs }, x), none)
  else
    let va := (a % (2 ^ 57 : Nat)).toNat
    let ps := lineParts va bs.length
    match ps.findSome? fun p => putBad s x p.1 with
    -- a store to a coach that cannot be reached is lost as any store is (11 R216, R219)
    | some 5 => ((engPuts va bs ps s x).map fun y => (y.1, x), some 5)
    | some why => (none, some why)
    | none => (engPuts va bs ps s x, none)

/-- op of a COLLOP (09 R193) on the destination's and the source's bytes. -/
def collapse (op : Nat) (d b : List Byte) : List Byte :=
  let m := Bits.ofLe d
  let v := Bits.ofLe b
  match op with
  | 0 => Bits.leBytes 4 (addF f32 0 (decodeF f32 m) (decodeF f32 v)).1
  | 1 => Bits.leBytes 4 (m + v)
  | 2 => Bits.leBytes 8 (m + v)
  | 3 => Bits.leBytes 4 (selF f32 false m v).1
  | 4 => Bits.leBytes 4 (selF f32 true m v).1
  | _ => Bits.leBytes 8 (addF f64 0 (decodeF f64 m) (decodeF f64 v)).1

/-- Σ ik × Sk. -/
def dotVec (i : List Nat) (ss : List Int) : Int := (i.zip ss).foldl (fun t x => t + (x.1 : Int) * x.2) 0

/-- The address of a side's element: `idx` on the indexed side. -/
def elemAt (base sh : Nat) (i : List Nat) (ss : List Int) (idx : Option Nat) : Int :=
  (base : Int) + (match idx with
    | some v => (v : Int)
    | none => dotVec i ss) * (2 ^ sh : Nat)

/-- The source and destination addresses of the next element, once its index is known. -/
def Copy.srcAt (x : Copy) (idx : Nat) : Int := elemAt x.src (x.ush % 16) (vecOf x.n x.next) x.ss (if x.kind = 1 then some idx else none)
def Copy.dstAt (x : Copy) (idx : Nat) : Int := elemAt x.dst (x.ush / 16) (vecOf x.n x.next) x.ds (if x.kind = 2 then some idx else none)

/-- An address as a fault record holds it. -/
def vaOf (a : Int) : Nat := (a % (2 ^ 57 : Nat)).toNat

/-- An element faults: what its record holds. -/
def Copy.fails (x : Copy) (why : Nat) (dst : Bool) (a : Int) : Copy := { x with bad := some (x.bad.getD (why, dst, vaOf a)) }

/-- The index of the next element. -/
def engIndex (s : State) (x : Copy) : State × Copy × EngGot :=
  if x.kind = 1 || x.kind = 2 then engRead s x false .rd 1 (x.aux + 4 * x.next) 4 else (s, x, .bytes [])

/-- A command has written an element: it goes on with the next. -/
def wrote (s : State) (x : Copy) (a : Int) : State × Copy :=
  let cl := cluster s x.cluster
  let s := setCluster s x.cluster { cl with cpbytes := (cl.cpbytes + x.size) % 2 ^ 32 }
  let lo := vaOf a
  let range (r : Nat × Nat) : Nat × Nat := (min r.1 lo, max r.2 (lo + x.size - 1))
  (s, { x with
    next := x.next + 1
    asked := []
    have' := []
    roads := []
    touched := if x.flags.testBit 1 then none else some (range (x.touched.getD (lo, lo))) })

/-- One element: the state, the command, and whether it goes on. -/
def element (s : State) (x : Copy) : State × Copy × Bool :=
  match engIndex s x with
  | (s, x, .pause) => (s, x, false)
  | (s, x, .bad why) => (s, x.fails why false (x.aux + 4 * x.next), false)
  | (s, x, .bytes ib) =>
    let idx := Bits.ofLe ib
    let a := x.srcAt idx
    let d := x.dstAt idx
    match engRead s x (x.flags.testBit 0) .rd 0 a x.size with
    | (s, x, .pause) => (s, x, false)
    | (s, x, .bad why) => (s, x.fails why false a, false)
    | (s, x, .bytes b) =>
      match (if x.kind = 3 then engRead s x (x.flags.testBit 1) .rw 2 d x.size else (s, x, .bytes [])) with
      | (s, x, .pause) => (s, x, false)
      | (s, x, .bad why) => (s, x.fails why true d, false)
      | (s, x, .bytes old) =>
        match engWrite s x (x.flags.testBit 1) d (if x.kind = 3 then collapse x.collop old b else b) with
        | (some (s, x), none) =>
          let (s, x) := wrote s x d
          (s, x, true)
        | (some (s, x), some why) => (s, x.fails why true d, false)
        | (none, some why) => (s, x.fails why true d, false)
        | (none, none) => (s, x, false)

/-- The ring counter passes to the next member (09 R193). -/
def passRing (s : State) (x : Copy) : State × Copy :=
  match engWrite s x false x.aux (Bits.leBytes 4 (if x.mem + 1 = x.mems then 0 else x.mem + 1)) with
  | (some (s, x), none) => (s, { x with rung := true })
  | (some (s, x), some why) => (s, x.fails why true x.aux)
  | (none, some why) => (s, x.fails why true x.aux)
  | (none, none) => (s, x)

/-- The elements of a command from the next one on, until one faults or waits: a remote write is acknowledged before the next
element is performed. -/
def elements : Nat → State → Copy → State × Copy
  | 0, s, x => (s, x)
  | f + 1, s, x =>
    if x.bad.isSome || x.unacked ≠ [] then (s, x)
    else if x.next = vectors x.n then (if x.kind = 3 && !x.rung then passRing s x else (s, x))
    else
      match element s x with
      | (s, x, true) => elements f s x
      | (s, x, false) => (s, x)

/-- A running command performs what it can. -/
def runCopy (s : State) (x : Copy) : State × Copy :=
  let (s, x) := elements (vectors x.n - x.next + 2) s x
  (putCopy s x, x)

/-- A running command has performed everything. -/
def Copy.over (x : Copy) : Bool :=
  x.next = vectors x.n && x.unacked = [] && x.bad.isNone && (x.kind ≠ 3 || x.rung)

/-! ## The end of a command (09 R196 to R198, 18 R307, R308) -/

/-- The next vector to perform, as EQRY and a frame give it: zeros once none is left. -/
def Copy.vector (x : Copy) : List Nat := if x.next < vectors x.n then vecOf x.n x.next else [0, 0, 0, 0, 0]

/-- Locks of a cluster have gone: every command that bounced for want of one is ready (18 R305). -/
def lockFreed (cl : Nat) (l : List Copy) : List Copy :=
  update l (fun x => x.cluster = cl) fun x =>
    match x.stage with
    | .pannier 3 _ => { x with stage := .pannier 3 (some 0) }
    | _ => x

/-- An atomic of the engine on a word of a trunk, at the trunk's home (16 R292); none while it cannot leave. -/
def trunkAtomic (s : State) (x : Copy) (pa op v : Nat) : Option State :=
  match paClass s pa with
  | .peer coach => reduceRemote s x.via coach pa op v
  | .host => some { s with out := s.out ++ [.hostRead (x.tag 3) (pa - 0x8000000000000) 4 (some (op, [BitVec.ofNat 32 v])) false] }
  | _ =>
    let key := compKey s (teamComp x.team)
    some (writeHome s key pa (Bits.leBytes 4 (atomNew op (homeLe s key pa 4) v 0)))

/-- A command arrives in a trunk's completion area: COMPL of its barrier, then its DONE bit (16 R292). -/
def trunkArrive (s : State) (x : Copy) (pa e n : Nat) : Option State :=
  (if x.flags.testBit 2 then trunkAtomic s x (pa + 4 * x.bar) 32 n else some s).bind fun s =>
    trunkAtomic s x (pa + 64 + e / 32 * 4) 7 (2 ^ (e % 32))

/-- The arrival of a command in a trunk can leave. -/
def canArrive (s : State) (x : Copy) : Bool := x.trunk.all fun p => (trunkArrive s x p.1 p.2 0).isSome

/-- A command arrives at its barrier (09 R196, 18 R307): in its crew, or in the trunk that holds the crew (16 R292). -/
def copyArrive (s : State) (x : Copy) : State :=
  let n := x.size * (x.next - x.first)
  match x.trunk with
  | some (pa, e) =>
    let ck := crewOf x.team
    let s := match x.touched with
      | some r =>
        if x.flags.testBit 2 then { s with lateDests := Tab.put s.lateDests ck (Tab.getD s.lateDests ck [] ++ [(x.bar, r.1, r.2)]) } else s
      | none => s
    (trunkArrive s x pa e n).getD s
  | none =>
    if x.flags.testBit 2 then
      let ck := crewOf x.team
      let b := byteBar s ck x.bar
      arriveBytes (setByteBar s ck x.bar { b with dests := b.dests ++ x.touched.toList }) ck x.bar n
    else s

/-- A command completes later than its promise (09 R198). -/
def copyLate (s : State) (x : Copy) (e : Nat) : Bool := e = 0 && x.promise.any fun p => p < clk s x.core

/-- Status of EWAIT (09 R197). -/
def copyStatus (e why : Nat) : Word := BitVec.ofNat 32 (e + 2 ^ 8 * why)

/-- The EWAITs of a command wake, with the acquire of what it wrote (11 R220). -/
def wakeCopy (s : State) (x : Copy) (e why : Nat) : State :=
  let waits (w : Wait) : Bool := match w with
    | .copy h _ => h = x.handle
    | _ => false
  let hit (w : Wait) : Option (Option Word) := if waits w then some (some (copyStatus e why)) else none
  let s := match team? s x.team, x.touched with
    | some t, some r => if waitsOn waits t then acquireDest s (holdingCore s x.team t) t.comp r else s
    | _, _ => s
  if e = 2 then wakeTrap s x.team hit fun pc => { cause := 0x15, tpc := pc, handle := x.handle, ivec := x.vector }
  else onTeam s x.team (wakeTeam hit)

/-- PROMISE_MISS (09 R198): taken once, when the completion is known. -/
def promiseMiss (s : State) (x : Copy) : State :=
  onTeam s x.team fun t =>
    if t.live ≠ 0 && t.engctl.getLsbD 0 then
      { t with late := t.late ++
        [{ cause := 0xA, tpc := 0, handle := x.handle, promise := x.promise.getD 0, done := clk s x.core }] }
    else t

/-- A command ends: 0 completed, 1 cancelled, 2 faulted. -/
def endCopy (s : State) (x : Copy) (e why : Nat) : State :=
  let late := copyLate s x e
  let s := { s with copies := lockFreed x.cluster (s.copies.filter fun y => y.id ≠ x.id), stir := true }
  let r : CopyDone := { handle := x.handle, finish := e, why := why, vec := x.vector, dest := x.touched }
  let s := if x.trunk.isSome then { s with lateDone := Tab.put s.lateDone x.team (Tab.getD s.lateDone x.team [] ++ [r]) }
    else onTeam s x.team fun t =>
      let l := t.copyDone ++ [r]
      { t with copyDone := l.drop (l.length - 16) }
  let s := setEngerr s x.cluster ((if e = 2 then 4 else 0) + if late then 8 else 0)
  let s := copyArrive s x
  reap (if x.trunk.isSome then s else if late then promiseMiss (wakeCopy s x e why) x else wakeCopy s x e why)

/-- The fault record of a command (18 R308): a page miss takes an identifier. -/
def copyRecord (s : State) (x : Copy) (why : Nat) (dst : Bool) (va : Nat) : State :=
  let c := teamComp x.team
  let (s, fid) :=
    if why = 1 then
      match peek s x.core c x.level (if dst then .wr else .rd) va with
      | .miss st ipa => takeFid s c st (if st = 2 then ipa / 4096 else va / 4096)
      | _ => takeFid s c 1 (va / 4096)
    else (s, 0)
  let who := x.team / 16 % 2 ^ 20 + 2 ^ 20 * (x.team % 16) + 2 ^ 24 * logicalCore s c x.core
  pushFault s c
    { region := x.region, fid := fid, kind := 4, flags := 4 + (if dst then 1 else 0), count := 1, va := va, ipa := 0, who := who,
      eng := x.handle + 2 ^ 16 * why }

/-- A command that has met a fault stops, once its record has a place (13 R259). -/
def faultCopy (s : State) (x : Copy) : State :=
  match x.bad with
  | some (why, dst, va) =>
    if 64 ≤ (comp s (teamComp x.team)).faults.length || !canArrive s x then s else endCopy (copyRecord s x why dst va) x 2 why
  | none => s

/-! ## The start of a command (18 R303, 09 R193) -/

/-- What the ring counter of a COLL comes to. -/
inductive RingRead where
  | ready
  | waiting
  /-- It lies on a peer or the host, which has not been asked. -/
  | ask
  | bad (why : Nat)
  deriving DecidableEq, Repr

/-- The ring counter as the engine can read it now. -/
def ringRead (s : State) (x : Copy) : RingRead :=
  let c := teamComp x.team
  let is (b : List Byte) : RingRead := if Bits.ofLe b = x.mem then .ready else .waiting
  match peek s x.core c x.level .rd x.aux with
  | .ok pa _ =>
    if localClass pa ≠ .none then (if homeFails s pa 4 then .bad 4 else is (homeBytes s (compKey s c) pa 4))
    else
      match Tab.get? x.have' 2 with
      | some b => is b
      | none => if x.asked.contains 2 then .waiting else .ask
  | r => .bad (whyOf r)

/-- An accepted command in the queue can start, or its ring counter can be asked for. -/
def canStart (s : State) (x : Copy) : Bool :=
  x.stage.inQueue && x.accepted && enginesRunning s x.cluster < 4 &&
  (x.bad.isSome || x.kind ≠ 3 || ringRead s x ≠ .waiting)

/-- An engine starts a command: a COLL reads its ring counter as MEM, and its destination is locked from then on. -/
def startCopy (s : State) (x : Copy) : State :=
  let go (s : State) (x : Copy) : State := putCopy s { x with stage := .running s.time, asked := [], have' := [], roads := [] }
  if x.kind ≠ 3 || x.bad.isSome then go s x
  else
    match ringRead s x with
    | .ready => go s { x with ring := true, locks := x.locks ++ dstLocks s x }
    | .waiting => s
    | .bad why => go s (x.fails why false x.aux)
    | .ask =>
      let (s, x, r) := engLine s x .rd 2 x.aux 4
      putCopy s (match r with
        | .bad why => x.fails why false x.aux
        | _ => x)

/-! ## EWAIT, ECAN and EQRY (09 R197) -/

/-- The team's outstanding command of a handle, and the newest record of a completed one. -/
def copyOf (s : State) (key h : Nat) : Option Copy := s.copies.find? fun x => x.team = key && x.handle = h && x.trunk.isNone

def copyRecordOf (t : Team) (h : Nat) : Option CopyDone := t.copyDone.reverse.find? fun d => d.handle = h

def execEwait (x : SF) (s : State) :=
  performGated (Shape.parking (Shape.s2 0x3B x 1 1)) handleGate (fun c s =>
    let h := (c.s 0).toNat
    let s := parkTeam s c.key c.carry
    match copyOf s c.key h with
    | some _ => parkDone c s (some (.copy h x.d.toNat))
    | none =>
      match copyRecordOf c.team h with
      | none => parkDone c (writeScalar c 0xFF s) none
      | some r =>
        let s := match r.dest with
          | some d => acquireDest s c.place.core c.team.comp d
          | none => s
        let d := parkDone c (writeScalar c (copyStatus r.finish r.why) s) none
        if r.finish = 2 then { d with post := some { cause := 0x15, tpc := c.cur.pc, handle := h, ivec := r.vec } } else d) s

def execEcan (x : SF) (s : State) :=
  performGated (Shape.s2 0x3B x 1 1) handleGate (fun c s =>
    let h := (c.s 0).toNat
    match copyOf s c.key h with
    | some y => if y.bad.isSome then { s := writeScalar c 1 s } else { s := endCopy (writeScalar c 0 s) y 1 0 }
    | none => { s := writeScalar c (if (copyRecordOf c.team h).isSome then 1 else 0xFF) s }) s

/-- The four words of EQRY. -/
def eqryWords (s : State) (t : Team) (key h : Nat) : List Word :=
  let pack (st : Nat) (v : List Nat) : List Word :=
    [BitVec.ofNat 32 st, BitVec.ofNat 32 (v.getD 0 0 + 2 ^ 16 * v.getD 1 0), BitVec.ofNat 32 (v.getD 2 0 + 2 ^ 16 * v.getD 3 0),
      BitVec.ofNat 32 (v.getD 4 0)]
  match copyOf s key h with
  | some x => pack (if x.stage.isRunning then 1 else 0) x.vector
  | none =>
    match copyRecordOf t h with
    | some r => pack (2 + r.finish) (if r.finish = 0 then [] else r.vec)
    | none => pack 0xFF []

def execEqry (x : SF) (s : State) :=
  performGated (Shape.s2 0x3B x 4 1) handleGate (fun c s =>
    { s := writeScalars c (eqryWords s c.team c.key (c.s 0).toNat) s }) s

end Sys2Proof.Machine
end

