-- ==== Sys2Proof/Machine/Trunk.lean ====
section
/-! DEFINITION. Trunks: major 0x20 (07 R130 to R135), the layout of 16 R289 to R292 and R354, the capture of a crew (07 R132, 15
R272, R273), and its rebuilding (07 R133, 11 R223, 17 R294). -/

namespace Sys2Proof.Machine

/-! ## Sizes and sections (16 R289, R290) -/

/-- Round up to a section boundary. -/
def align256 (n : Nat) : Nat := ceilDiv n 256 * 256

/-- An entry of a captured team that carries a wake entry (16 R354): at a parking point, or at JOINW or SLEEP. -/
def Wait.recorded : Wait → Bool
  | .remote .. => false
  | .join _ | .sleep _ => true
  | w => w.parked

/-- The waiting entries of a captured team with their places in its frontier. -/
def Team.wakes (t : Team) : List (Nat × Wait) :=
  t.front.zipIdx.filterMap fun x => x.1.wait.bind fun w => if w.recorded then some (x.2, w) else none

/-- Bytes of a team record. -/
def recordSize (t : Team) : Nat := 2048 + 1280 * t.rows + 32 * t.wakes.length + 2048 * t.replayQ.length

/-- The sections of a trunk: offsets, 0 for one that is absent. -/
structure Sections where
  teams : List Nat
  bars : Nat
  claims : Nat
  pend : Nat
  scr : Nat
  tiles : Nat
  compl : Nat
  deriving DecidableEq, Repr

/-- The offsets of a trunk's sections from its contents' sizes. -/
def sectionsOf (sizes : List Nat) (nclaim npend scru ntile : Nat) : Sections :=
  let (offs, p) := sizes.foldl (fun (a : List Nat × Nat) n => (a.1 ++ [a.2], a.2 + align256 n)) ([], 256)
  let c := p + 512
  let q := c + align256 (8 * nclaim)
  let sc := q + align256 (16 * npend)
  let ti := sc + 65536 * scru
  let at' (present : Bool) (o : Nat) : Nat := if present then o else 0
  { teams := offs, bars := p, claims := at' (nclaim ≠ 0) c, pend := at' (npend ≠ 0) q, scr := at' (scru ≠ 0) sc,
    tiles := at' (ntile ≠ 0) ti, compl := ti + 18944 * ntile }

/-! ## Fields (16 R289, R290, R354) -/

/-- Cycles left to a deadline. -/
def left (clk deadline : Nat) : Nat := deadline - clk

/-- A wake entry: `now` is CLK of the core that holds the team. -/
def wakeFields (now base idx : Nat) (w : Wait) : List Bits.Fld :=
  let head (kind dest : Nat) : List Bits.Fld := [⟨base, 1, kind⟩, ⟨base + 1, 1, idx⟩, ⟨base + 3, 1, dest⟩]
  match w with
  | .crewBar k ph => head 1 0 ++ [⟨base + 4, 1, k⟩, ⟨base + 6, 2, ph⟩]
  | .byteBar k ph d => head 2 d ++ [⟨base + 4, 1, k⟩, ⟨base + 6, 2, ph⟩]
  | .promw k ph dl d => head 3 d ++ [⟨base + 4, 1, k⟩, ⟨base + 6, 2, ph⟩, ⟨base + 8, 8, left now dl⟩]
  | .monitor a _ _ v m ctl dl d =>
    head 4 d ++ [⟨base + 4, 8, a⟩, ⟨base + 12, 4, v.toNat⟩, ⟨base + 16, 4, m.toNat⟩, ⟨base + 20, 4, ctl.toNat⟩,
      ⟨base + 24, 8, match dl with
        | some x => left now x
        | none => 2 ^ 64 - 1⟩]
  | .claim g h d => head 5 d ++ [⟨base + 4, 1, g⟩, ⟨base + 5, 1, h⟩]
  | .objection g id d => head 6 d ++ [⟨base + 4, 1, g⟩, ⟨base + 8, 4, id.toNat⟩]
  | .matrix h d => head 7 d ++ [⟨base + 4, 2, h⟩]
  | .copy h d => head 8 d ++ [⟨base + 4, 2, h⟩]
  | .join m => head 11 0 ++ [⟨base + 4, 1, m⟩]
  | .sleep dl => head 12 0 ++ [⟨base + 8, 8, left now dl⟩]
  | _ => []

/-- The control registers of a team in the order of R290. -/
def Team.ctrl (t : Team) : List Word :=
  [t.sigth, t.rmode, t.fpstat, t.tagLo, t.tagHi, t.prio, t.trapLo, t.trapHi, t.frameLo, t.frameHi, t.carryv, t.carrys, t.engctl]

/-- The fields of a team record at an offset of the trunk. -/
def teamFields (s : State) (key base : Nat) (t : Team) : List Bits.Fld :=
  let now := if t.frozen then 0 else clk s (holdingCore s key t)
  let wk := t.wakes
  let wbase := base + 0x800 + 1280 * t.rows
  let rbase := wbase + 32 * wk.length
  [⟨base, 1, t.idx⟩, ⟨base + 1, 1, t.rows⟩, ⟨base + 2, 1, t.level⟩, ⟨base + 3, 1, t.replayQ.length⟩,
    ⟨base + 4, 4, t.live.toNat⟩, ⟨base + 8, 4, t.guardMask.toNat⟩, ⟨base + 0xC, 1, t.guardLeft⟩,
    ⟨base + 0xD, 1, t.front.length⟩, ⟨base + 0xE, 2, wk.length⟩, ⟨base + 0x30, 8, streamOf key⟩,
    ⟨base + 0x38, 4, t.outst + inherited s key⟩, ⟨base + 0x3C, 4, t.lost⟩] ++
  ((List.range 16).map fun c => ⟨base + 0x40 + 8 * c, 8, seqOf s key c⟩) ++
  (t.ctrl.zipIdx.map fun x => ⟨base + 0xC0 + 4 * x.2, 4, x.1.toNat⟩) ++
  (laneList.map fun j => ⟨base + 0x100 + 8 * j, 8, lanePc t j⟩) ++
  (t.front.zipIdx.flatMap fun x =>
    [⟨base + 0x200 + 16 * x.2, 8, x.1.pc⟩, ⟨base + 0x208 + 16 * x.2, 4, x.1.mask.toNat⟩, ⟨base + 0x20C + 16 * x.2, 1, x.1.prio⟩,
      ⟨base + 0x20D + 16 * x.2, 2, x.1.age⟩, ⟨base + 0x20F + 16 * x.2, 1, if x.1.wait.any Wait.recorded then 1 else 0⟩]) ++
  (t.s.map fun x => ⟨base + 0x480 + 4 * x.1, 4, x.2.toNat⟩) ++ (t.p.map fun x => ⟨base + 0x580 + 4 * x.1, 4, x.2.toNat⟩) ++
  (t.m.map fun x => ⟨base + 0x5B0 + 4 * x.1, 4, x.2.toNat⟩) ++
  ((List.range (8 * t.rows)).flatMap fun r => laneList.flatMap fun i =>
    let o := base + 0x800 + 1280 * (r / 8)
    [⟨o + 128 * (r % 8) + 4 * i, 4, (Team.reg t r i).val.toNat⟩, ⟨o + 1024 + 32 * (r % 8) + i, 1, (Team.reg t r i).tag.toNat⟩]) ++
  (wk.zipIdx.flatMap fun x => wakeFields now (wbase + 32 * x.2) x.1.1 x.1.2) ++
  (t.replayQ.zipIdx.flatMap fun x => replayFields (rbase + 2048 * x.2) x.1)

/-- The barrier section. -/
def barFields (base : Nat) (c : Crew) : List Bits.Fld :=
  (c.bars.flatMap fun b => [⟨base + 8 * b.1, 2, b.2.phase⟩, ⟨base + 8 * b.1 + 2, 2, b.2.arrived⟩]) ++
  (c.bytes.flatMap fun b =>
    let o := base + 128 + 16 * b.1
    [⟨o, 4, b.2.expect⟩, ⟨o + 4, 4, b.2.arrived⟩, ⟨o + 8, 2, b.2.phase⟩,
      ⟨o + 10, 1, (if b.2.armed then 1 else 0) + if b.2.fault then 2 else 0⟩])

/-- The claim table. -/
def claimFields (base : Nat) (l : List TrunkClaim) : List Bits.Fld :=
  l.zipIdx.flatMap fun x =>
    let o := base + 8 * x.2
    [⟨o, 1, x.1.team⟩, ⟨o + 1, 1, x.1.handle⟩, ⟨o + 2, 1, x.1.outcome⟩, ⟨o + 3, 1, x.1.group⟩]

/-- The pending-operation table: copy commands alone outlive their crew (16 R292). -/
def pendFields (base : Nat) (l : List Copy) : List Bits.Fld :=
  l.zipIdx.flatMap fun x =>
    let o := base + 16 * x.2
    [⟨o, 1, x.1.team % 16⟩, ⟨o + 2, 2, x.1.handle⟩, ⟨o + 4, 1, x.1.bar + (if x.1.flags.testBit 2 then 0x80 else 0)⟩,
      ⟨o + 8, 8, x.1.promise.getD (2 ^ 64 - 1)⟩]

/-- A tile's image. -/
def tileFields (base : Nat) (t : Tile) : List Bits.Fld :=
  (t.image.map fun c => ⟨base + c.1, 1, c.2.toNat⟩) ++ (t.scales.map fun r => ⟨base + 16384 + 8 * r.1, 8, t.scaleWord r.1⟩) ++
  ((List.range 256).map fun r => ⟨base + 18432 + r, 1, (t.rowTag r).toNat⟩) ++
  [⟨base + 18688, 4, t.ts.toNat⟩, ⟨base + 18692, 4, t.s0.toNat⟩, ⟨base + 18696, 4, t.s1.toNat⟩]

/-- MAGIC of a trunk and its VERSION (16 R289). -/
def trunkMagic : Nat := 0x4B4E5254
def trunkVersion : Nat := 3

/-- What a header says. -/
structure TrunkHead where
  flags : Nat
  teams : Nat
  ticket : Nat
  gen : Nat
  owner : Nat
  crew : Nat
  rcb : Nat
  pending : Nat
  scru : Nat
  ntile : Nat
  nclaim : Nat
  deriving DecidableEq, Repr

/-- The header's fields, the seal apart. -/
def headFields (h : TrunkHead) (x : Sections) : List Bits.Fld :=
  [⟨0, 4, trunkMagic⟩, ⟨4, 2, trunkVersion⟩, ⟨6, 1, h.flags⟩, ⟨7, 1, h.teams⟩, ⟨8, 8, Config.encodingHash⟩, ⟨0x10, 8, h.ticket⟩,
    ⟨0x18, 8, h.gen⟩, ⟨0x20, 4, h.owner⟩, ⟨0x24, 4, h.crew⟩, ⟨0x28, 8, h.rcb⟩, ⟨0x30, 4, h.pending⟩, ⟨0x34, 4, x.compl + 128⟩,
    ⟨0x38, 4, x.bars⟩, ⟨0x3C, 4, x.claims⟩, ⟨0x40, 4, x.pend⟩, ⟨0x44, 4, x.scr⟩, ⟨0x48, 4, x.tiles⟩, ⟨0x4C, 4, x.compl⟩,
    ⟨0x50, 1, h.scru⟩, ⟨0x51, 1, h.ntile⟩, ⟨0x52, 2, h.nclaim⟩]

/-- The 16 bytes of a seal (16 R291). -/
def sealBytes (tenancy : Nat) (b : List Byte) : List Byte :=
  (List.range 16).map fun k => (Config.trunkSeal tenancy b).getD k 0

/-- The fields of a seal over a trunk's fields. -/
def sealFields (tenancy compl : Nat) (fs : List Bits.Fld) : List Bits.Fld :=
  let img := memFields [] 0 fs
  (sealBytes tenancy (memRead img 0 0xF0 ++ memRead img 0x100 (compl - 0x100))).zipIdx.map fun x => ⟨0xF0 + x.2, 1, x.1.toNat⟩

/-- The tenancy of a compartment. -/
def tenancyOf (s : State) (c : Nat) : Nat := (comp s c).desc.tenancy % 2 ^ 16

/-! ## SUSPEND (07 R132) -/

/-- The trunk and the ticket of a SUSPEND. DESIGN CHOICE (log 56): bits [63:57] of their pairs are not read, here and in every
instruction on trunks. -/
def suspendTrunk (c : Ctx) : Nat := c.pair 0 % 2 ^ 57
def suspendTicket (c : Ctx) : Nat := c.pair 2 % 2 ^ 57

/-- The checks of a SUSPEND; one of a crew that is being captured ignores its operands. -/
def suspendGate (c : Ctx) (s : State) : Gate :=
  if (crew? s (crewOf c.key)).any fun w => w.suspending.isSome then .go
  else if suspendTrunk c % 256 ≠ 0 then c.trapAt 6 (suspendTrunk c)
  else if suspendTicket c % 8 ≠ 0 then c.trapAt 6 (suspendTicket c)
  else .go

/-- SUSPEND parks its team and asks every other team of the crew to stop (07 R132 step 1). -/
def suspendEffect (f : Nat) (c : Ctx) (s : State) : Done :=
  let ck := crewOf c.key
  if (crew? s ck).any fun w => w.suspending.isSome then parkDone c (parkTeam s c.key c.carry) none
  else
    let q : Suspending :=
      { team := c.key, trunk := suspendTrunk c, ticket := suspendTicket c, flags := f, since := clk s c.place.core,
        issue := c.entryOf c.act true }
    let s := onCrew s ck fun w => { w with suspending := some q }
    let s := (crewTeams s ck).foldl (fun s k => onTeam s k fun t => { t with stopReq := true }) s
    parkDone c (parkTeam s c.key c.carry) (some .suspend)

def execSuspend (x : SF) (s : State) :=
  performGated (Shape.suspend x) suspendGate (suspendEffect x.d.toNat) s

/-! ## The capture of teams (07 R132 step 1, 15 R272, R273) -/

/-- An entry waits at a parking point, SUSPEND's included. -/
def atPark (e : Entry) : Bool := e.wait.any fun w => w.parked || w = .suspend

/-- A team that is to stop has nothing to run on to: it waits at JOINW or SLEEP, beside parking points. -/
def onlyWaits (t : Team) : Bool :=
  t.replayQ = [] && t.front.all fun e => e.wait.any fun w => w.recorded || w = .suspend

/-- The instructions that a forced save of a team takes into the replay queue, in issue order; none while they do not fit (15
R268). -/
def takeBack (s : State) (key : Nat) (t : Team) : List MemOp :=
  let l := s.ops.filter fun o => o.team = key && unfinished o (opReqs s o.id)
  if 24 < l.length + t.replayQ.length then [] else l

/-- Something of a team is on its way that a forced save waits for. -/
def mustFinish (s : State) (key : Nat) (t : Team) : Bool :=
  let l := (takeBack s key t).map (·.id)
  (s.reqs.any fun r => r.team = key && r.stage ≠ .pannier && !r.polls && !l.contains r.op) ||
  undrained { s with reqs := [] } key { t with front := t.front.filter fun e => !e.wait.any fun w => match w with
    | .op id _ => l.contains id
    | _ => false }

/-- A forced save takes the instructions that have not completed into the replay queue (15 R273, R277). -/
def takeUnfinished (s : State) (key : Nat) : State :=
  match team? s key with
  | none => s
  | some t =>
    let l := takeBack s key t
    withdraw (onTeam s key fun t => { t with
      replayQ := l.map (asReplay s) ++ t.replayQ
      replayWait := if l = [] then t.replayWait else false }) l

/-- A team that is to stop is captured if it can be. -/
def captureTeam (s : State) (key : Nat) (t : Team) : Team :=
  if t.captured || t.live = 0 || !(t.stopReq || t.force) || lateDue t then t
  else if t.place.isNone then { t with captured := true }
  else if t.replayQ = [] && t.front ≠ [] && t.front.all atPark then { t with captured := true }
  else
    let force := t.force || onlyWaits t
    if force && t.chain = 0 && !mustFinish s key t && !s.cur.any (fun u => u.team = key) then { t with force := true, captured := true }
    else { t with force := force }

/-- Every team that is to stop is captured if it can be; one that is force-saved takes what it has not completed with it. -/
def captures (s : State) : State :=
  let forced := s.teams.filter fun kt => !kt.2.captured && (captureTeam s kt.1 kt.2).captured && (captureTeam s kt.1 kt.2).force
  let s := { s with teams := s.teams.map fun kt => (kt.1, captureTeam s kt.1 kt.2) }
  (forced.map (·.1)).foldl takeUnfinished s

/-! ## The drain (07 R132 step 2, 16 R288, R292, 18 R302) -/

/-- Members of a four-in-hand of the crew that still wait for partners. -/
def waitingMembers (s : State) (ck : Nat) : List MatOp := s.mats.filter fun m => crewOf m.team = ck && partnerWait s m && !m.stage.started

/-- A team of the crew has nothing on its way. -/
def teamQuiet (s : State) (key : Nat) (t : Team) : Bool :=
  teamDrained s key && t.captured && !lateDue t &&
  t.front.all fun e => e.wait.all fun w =>
    match w with
    | .op .. | .accept _ | .member _ | .service _ | .remote .. => false
    | _ => true

/-- A crew has a proposal that has not resolved, of a team that has ended too (16 R288). -/
def crewProposing (s : State) (ck : Nat) : Bool :=
  s.cores.any fun k => k.2.outgoing.any fun p => crewOf p.2.team = ck && p.2.outcome.isNone

/-- The crew can be written: every team is captured, or has ended and its pannier drained, and everything that must complete has. -/
def crewQuiet (s : State) (ck : Nat) : Bool :=
  ((crewTeams s ck).all fun k => (team? s k).all fun t => if t.live = 0 then teamDrained s k else teamQuiet s k t) &&
  !crewProposing s ck &&
  !(s.mats.any fun m => crewOf m.team = ck) && !(s.copies.any fun x => crewOf x.team = ck && x.trunk.isNone && (usesScratch x || !x.replied))

/-! ## The image (07 R132 step 3) -/

/-- A team as its record holds it: the interrupted context of the issuer in a handler, or of a handler that PARK saved; and
whether it comes from a frame. -/
def recordedTeam (s : State) (issuer key : Nat) (t : Team) : Team × Bool :=
  let k := holdingCore s key t
  let framed := (key = issuer && t.level = 1) || (match t.saved with
    | some (.handler _) => true
    | _ => false)
  let q := match t.saved with
    | some (.forced q) => q
    | _ => t.replayQ
  let plain : Team := { t with
    replayQ := q
    front := rebuild (t.front.map fun e => match e.wait with
      | some .suspend => { e with wait := none, pc := (e.pc + 4) % 2 ^ 57 }
      | some w => if w.recorded then e else { e with wait := none }
      | none => e) }
  if framed && frameValid s k t.comp t.frameBase then
    match (readFrame s k t.comp t.frameBase).2 with
    | some v => if frameBad t t.frameBase v then (plain, false) else 
        -- R20 holds at the trapped instruction: a status that has come since then stays
        ((restoreFront t t.frameBase v).2.foldl (fun t w => Team.setScalar t w.1 w.2) (parkZero (restoreTeam t t.frameBase v false)), true)
    | none => (plain, false)
  else (plain, false)

/-- Resolved handles of a crew that have not been read (16 R288), those of an earlier trunk included. -/
def crewClaims (s : State) (ck : Nat) (c : Crew) : List TrunkClaim :=
  c.claims ++ s.cores.flatMap fun k => k.2.outgoing.filterMap fun p =>
    if crewOf p.2.team = ck && p.2.owned then p.2.outcome.map fun o => ⟨p.2.team % 16, p.1, o, p.2.group⟩ else none

/-- The pending copy commands of a crew. -/
def crewPending (s : State) (ck : Nat) : List Copy := s.copies.filter fun x => crewOf x.team = ck && x.trunk.isNone

/-- Everything a trunk of the crew is made of: the header with a generation, the sections and the fields. -/
def trunkImage (s : State) (ck : Nat) (c : Crew) (q : Suspending) (gen : Nat) : Sections × List Bits.Fld :=
  let keys := (crewTeams s ck).filter fun k => (team? s k).any fun t => t.live ≠ 0
  let ts := keys.filterMap fun k => (team? s k).map fun t => (k, recordedTeam s q.team k t)
  let claims := crewClaims s ck c
  let pend := crewPending s ck
  let scr := if q.flags.testBit 0 then c.scr else 0
  let tiles := if q.flags.testBit 1 then c.tiles else []
  let x := sectionsOf (ts.map fun t => recordSize t.2.1) claims.length pend.length scr tiles.length
  let h : TrunkHead :=
    { flags := q.flags % 4 + (if ts.any fun t => t.1 = q.team && t.2.2 then 4 else 0), teams := ts.length, ticket := q.ticket,
      gen := gen, owner := c.comp + 2 ^ 4 * s.coach + 2 ^ 8 * tenancyOf s c.comp, crew := (crewId c).toNat,
      rcb := c.region % 2 ^ 57, pending := pend.length, scru := c.scr, ntile := c.tiles.length, nclaim := claims.length }
  let fs := headFields h x ++ ((x.teams.zip ts).flatMap fun t => teamFields s t.2.1 t.1 t.2.2.1) ++ barFields x.bars c ++
    claimFields x.claims claims ++ pendFields x.pend pend ++
    (if scr = 0 then [] else c.scratch.map fun b => ⟨x.scr + b.1, 1, b.2.toNat⟩) ++
    tiles.zipIdx.flatMap fun t => tileFields (x.tiles + 18944 * t.2) t.1
  (x, fs ++ sealFields (tenancyOf s c.comp) x.compl fs)

/-! ## The end of a captured crew -/

/-- A crew leaves its core without running further: its slots, frames and claims are free (07 R132 step 4). Losses counted since its image
was taken are kept for what its trunk becomes (11 R223). -/
def dropCrew (s : State) (ck : Nat) : State :=
  let keys := crewTeams s ck
  let s := keys.foldl (fun s k =>
    match team? s k with
    | none => s
    | some t =>
      let s := freeProposals s k
      let s := if t.lost = 0 then s else { s with lateLost := Tab.put s.lateLost k (Tab.getD s.lateLost k 0 + t.lost) }
      let s := match t.place with
        | some p => if (bench s p.benchNo).holder = some k then endStint s p.benchNo else s
        | none => s
      let s := if teamLive t && t.saved ≠ some .rebuilt then
          onRegion s t.region fun r => { r with framesUsed := r.framesUsed.erase t.frameIdx } else s
      let s := t.escal.foldl (fun s x =>
        onRegion s (x.1 / 2 ^ 16) fun r => { r with framesUsed := r.framesUsed.erase (x.1 % 2 ^ 16) }) s
      { s with teams := Tab.del s.teams k }) s
  match crew? s ck with
  | some c =>
    let dests := c.bytes.flatMap fun b => b.2.dests.map fun r => (b.1, r.1, r.2)
    let s := if dests = [] then s else { s with lateDests := Tab.put s.lateDests ck (dests ++ Tab.getD s.lateDests ck []) }
    endIdle (writeLive { s with crews := Tab.del s.crews ck } c.region) c.region
  | none => s

/-- A page that the team's own stores of a trunk need (07 R131). -/
inductive PageAt where
  | there
  | missing (va : Nat)
  | refused (va : Nat)
  deriving DecidableEq, Repr

/-- The pages of some ranges that a team is to write; a coach that cannot be reached has none. -/
def pagesAt (s : State) (k : Nat) (t : Team) : List (Nat × Nat) → PageAt
  | [] => .there
  | (va, _) :: r =>
    match peek s k t.comp t.level .wr (va % 2 ^ 57) with
    | .ok pa _ =>
      if (match paClass s pa with
        | .peer coach => unreachableCoach s coach
        | _ => false) then .refused va
      else pagesAt s k t r
    | .miss .. => .missing va
    | _ => .refused va

/-- The physical parts of some pages, marked as written. -/
def writtenPas (s : State) (k : Nat) (t : Team) : List (Nat × Nat) → State × List (Nat × Nat × Nat)
  | [] => (s, [])
  | (va, n) :: r =>
    match translate s k t.comp t.level .wr (va % 2 ^ 57) with
    | (s, .ok pa _) =>
      let (s, l) := writtenPas s k t r
      (s, (va, n, pa) :: l)
    | (s, _) => writtenPas s k t r

/-- A page is asked for on a team's behalf. -/
def touchFor (s : State) (key : Nat) (t : Team) (k : Nat) (issue : ReplayEntry) (cls va : Nat) : State :=
  if s.ops.any fun o => o.team = key && o.kind = .touch then s
  else
    (startOp s { id := 0, team := key, issue := issue, kind := .touch }
      [{ id := 0, op := 0, team := key, core := k, cls := cls, ord := 1, scope := 4, code := 0, line := va / 64,
         accs := [⟨((lanesOf issue.mask).head?).getD 0, va, 1⟩], age := 0, stage := .queue 0, since := 0, level := t.level }]).1

/-- A fault in the writing of the image: ACCESS on the issuing team, and the others go on where they stood (07 R132). -/
def suspendFails (s : State) (ck : Nat) (q : Suspending) (va : Nat) : State :=
  let s := onCrew s ck fun w => { w with suspending := none }
  let s := (crewTeams s ck).foldl (fun s k => onTeam s k fun t => { t with stopReq := false, force := false, captured := false }) s
  let hit (w : Wait) : Option (Option Word) := if w = .suspend then some none else none
  takeTrap (onTeam s q.team (wakeTeam hit)) q.team
    { cause := 7, tpc := q.issue.pc, flane := ((lanesOf q.issue.mask).head?).getD 0, faddr := va, replay := [q.issue] }

/-- The generation counter's next value (07 R130). -/
def nextGen (s : State) (c : Nat) : State × Nat :=
  let x := comp s c
  (setComp s c { x with gen := (x.gen + 1) % 2 ^ 62 }, (x.gen + 1) % 2 ^ 62)

/-- A ticket of LIVE|GEN and of SPENT|GEN (07 R130). -/
def liveTicket (gen : Nat) : Nat := 2 ^ 62 + gen % 2 ^ 62
def spentTicket (gen : Nat) : Nat := 2 ^ 63 + gen % 2 ^ 62

/-- The lines of a trunk's pages that lie at a peer or the host. -/
def awayLines (base : Nat) (ps : List (Nat × Nat × Nat)) (fs : List Bits.Fld) : List (Nat × List Byte) :=
  let img := memFields [] 0 fs
  (ps.filter fun p => localClass p.2.2 = .none).flatMap fun p =>
    (lineParts p.2.2 p.2.1).map fun l => (l.1, memRead img (p.1 + (l.1 - p.2.2) - base) l.2)

/-- A field lies in one of some pages. -/
def inParts (base : Nat) (ps : List (Nat × Nat × Nat)) (f : Bits.Fld) : Bool :=
  ps.any fun p => p.1 ≤ base + f.off && base + f.off < p.1 + p.2.1

/-- A captured crew asks for no monitored word any more: its trunk holds the conditions. -/
def dropCrewPolls (s : State) (ck : Nat) : State :=
  let mine (o : MemOp) : Bool := crewOf o.team = ck && o.polls s
  { s with
    reqs := s.reqs.filter fun r => !(crewOf r.team = ck && r.polls)
    ops := s.ops.filter fun o => !mine o }

/-- The image is taken (07 R132 step 3): it is written on this device, its lines elsewhere are to leave, and the pending commands
arrive in it from now on (16 R292). -/
def takeTrunk (s : State) (ck : Nat) (c : Crew) (q : Suspending) (t : Team) (k : Nat) : State × Suspending :=
  let (s, gen) := nextGen s c.comp
  let (x, fs) := trunkImage s ck c q gen
  let (s, ps) := writtenPas s k t (pageParts q.trunk (x.compl + 128))
  let (s, ts) := writtenPas s k t [(q.ticket, 8)]
  let here := ps.filter fun p => localClass p.2.2 ≠ .none
  let s := writeImage s k c.comp q.trunk here (fs.filter (inParts q.trunk here))
  let compl := pasFind ps (q.trunk + x.compl)
  let tpa := pasFind ts q.ticket
  let pend := crewPending s ck
  let s := { s with copies := s.copies.map fun y =>
    match pend.findIdx? fun p => p.id = y.id with
    | some e => { y with trunk := some (compl, e), ticket := some (tpa, gen) }
    | none => y }
  -- what the record reports as lost is not counted again
  let s := (crewTeams s ck).foldl (fun s k => onTeam s k fun t => { t with lost := 0 }) (dropCrewPolls s ck)
  (s, { q with taken := some (gen, tpa), left := awayLines q.trunk ps fs })

/-- What is left of a SUSPEND whose image has been taken: its lines leave, those at a peer are acknowledged, the release is
performed, and then the ticket becomes LIVE and the crew ends (07 R132, 11 R223). Other stores of the team's stream are not waited
for. -/
def endTrunk (s : State) (ck : Nat) (c : Crew) (q : Suspending) (k gen tpa : Nat) : State :=
  let (s, sent, rest) := sendLines q.team s q.left
  let q := { q with left := rest, sent := q.sent ++ sent }
  let stay (s : State) : State := onCrew s ck fun w => { w with suspending := some q }
  if rest ≠ [] || q.sent.any (fun p => !postedOver s q.team p) then stay s
  else
    let s := releaseAt s k 4
    let ticket := Bits.leBytes 8 (liveTicket gen)
    match (if localClass tpa = .none then storeAway s q.team tpa ticket else some (strongStore s k c.comp tpa ticket)) with
    | none => stay s
    | some s => dropCrew (onRegion s c.region fun r => { r with tickets := r.tickets ++ [(tpa, gen)] }) ck

/-- A SUSPEND whose crew is captured and drained goes on: to the pages it needs, or to its end. -/
def advanceSuspend (s : State) (ck : Nat) : State :=
  match crew? s ck with
  | none => s
  | some c =>
    match c.suspending with
    | none => s
    | some q =>
      match waitingMembers s ck with
      | m :: _ => endMats s (cancelSet s m) (matStatus 1 false false)
      | [] =>
        match team? s q.team with
        | none => s
        | some t =>
          if !crewQuiet s ck then s
          else
            let k := holdingCore s q.team t
            match q.taken with
            | some (gen, tpa) => endTrunk s ck c q k gen tpa
            | none =>
              let x := (trunkImage s ck c q 0).1
              match pagesAt s k t (pageParts q.trunk (x.compl + 128) ++ [(q.ticket, 8)]) with
              | .refused va => suspendFails s ck q va
              | .missing va => touchFor s q.team t k q.issue 1 (va % 2 ^ 57)
              | .there =>
                let (s, q) := takeTrunk s ck c q t k
                let (gen, tpa) := q.taken.getD (0, 0)
                endTrunk s ck c q k gen tpa

/-- Captures and suspensions go on after a step. -/
def suspensions (s : State) : State :=
  let s := if s.teams.any fun t => t.2.stopReq || t.2.force then captures s else s
  ((s.crews.filter fun c => c.2.suspending.isSome).map (·.1)).foldl advanceSuspend s

/-! ## Trunks as they are read (07 R133 to R135) -/

/-- The fields of a header that a check or a rebuilding needs. -/
def thTotal (b : List Byte) : Nat := fieldAt b 0x34 4
def thCompl (b : List Byte) : Nat := fieldAt b 0x4C 4
def thTicket (b : List Byte) : Nat := fieldAt b 0x10 8
def thGen (b : List Byte) : Nat := fieldAt b 0x18 8 % 2 ^ 62
def thOwner (b : List Byte) : Nat := fieldAt b 0x20 4
def thPending (b : List Byte) : Nat := fieldAt b 0x30 4

/-- Steps 1 and 2 of R133 on a header. -/
def headFails (s : State) (c : Nat) (b : List Byte) : Option Nat :=
  if fieldAt b 0 4 ≠ trunkMagic || fieldAt b 4 2 ≠ trunkVersion || fieldAt b 8 8 ≠ Config.encodingHash then some 3
  else if thOwner b / 2 ^ 8 % 2 ^ 16 ≠ tenancyOf s c then some 4
  else none

/-- The sizes that a header gives can be those of a trunk. -/
def sizesSane (b : List Byte) : Bool := 0x100 ≤ thCompl b && thTotal b = thCompl b + 128 && thTotal b ≤ 2 ^ 22

/-- Steps 3 and 4 of R133 on a trunk's bytes. -/
def bodyFails (s : State) (c : Nat) (b : List Byte) : Option Nat :=
  if sealBytes (tenancyOf s c) (b.take 0xF0 ++ (b.take (thCompl b)).drop 0x100) ≠ (b.drop 0xF0).take 16 then some 5
  else if fieldAt b 7 1 = 0 || 16 < fieldAt b 7 1 || 12 < fieldAt b 0x50 1 || 16 < fieldAt b 0x51 1 then some 6
  else none

/-- How the checks of a trunk end: a gate of its reads, the first condition that fails (07 R135's numbers), or its bytes. -/
inductive Checked where
  | gate (g : Gate)
  | fails (code : Nat) (head : List Byte)
  | ok (b : List Byte)
  deriving DecidableEq, Repr

/-- Steps 1 to 4 of R133 on the trunk at an address. -/
def checkTrunk (c : Ctx) (s : State) (va : Nat) : Checked :=
  match readRange c s true va 256 with
  | .gate g => .gate g
  | .bytes h =>
    match headFails s c.team.comp h with
    | some code => .fails code h
    | none =>
      if !sizesSane h then .fails 5 h
      else
        match readRange c s true va (thTotal h) with
        | .gate g => .gate g
        | .bytes b =>
          match bodyFails s c.team.comp b with
          | some code => .fails code h
          | none => .ok b

/-- The trap of a failed check. -/
def checkTrap (c : Ctx) (code va : Nat) : Gate :=
  c.trapAt (match code with
    | 3 => 0x14
    | 4 => 0x13
    | 5 => 0x12
    | _ => 0x1B) va

/-- How many bytes of a trunk a check that fails has read. -/
def failedReads (code : Nat) (h : List Byte) : Nat := if code ≤ 4 || !sizesSane h then 256 else thTotal h

/-- The gate of a trunk's checks; SHAPE counts for RESUME alone (07 R134). -/
def trunkGate (c : Ctx) (s : State) (shape : Bool) (go : Nat → List Byte → Gate) : Gate :=
  let va := c.pair 0 % 2 ^ 57
  if va % 256 ≠ 0 then c.trapAt 6 va
  else
    match checkTrunk c s va with
    | .gate g => g
    | .fails 6 h =>
      if shape then (checkTrap c 6 va).reading true [(va, thTotal h)]
      else ((readRange c s true va (thTotal h)).go (go va)).reading true [(va, thTotal h)]
    | .fails code h => (checkTrap c code va).reading true [(va, failedReads code h)]
    | .ok b => (go va b).reading true [(va, thTotal b)]

/-- The bytes of a trunk whose gate has been passed. -/
def trunkBytes (c : Ctx) (s : State) : List Byte :=
  let va := c.pair 0 % 2 ^ 57
  (readRange c s true va (thTotal (readRange c s true va 256).get)).get

/-- The reads of a trunk whose gate has been passed are performed (10 R201). -/
def readTrunk (c : Ctx) (s : State) : State :=
  let va := c.pair 0 % 2 ^ 57
  readLines s c.place.core c.team.comp c.team.level true [(va, thTotal (trunkBytes c s))]

/-- The DONE bit of a pending entry. -/
def doneBit (b : List Byte) (e : Nat) : Bool := (b.getD (thCompl b + 64 + e / 8) 0).getLsbD (e % 8)

/-- Pending entries whose DONE bit is clear. -/
def undone (b : List Byte) : List Nat := (List.range (thPending b)).filter fun e => !doneBit b e

/-- A trunk of this coach and of this compartment: its pending commands are here. -/
def ownTrunk (s : State) (c : Nat) (b : List Byte) : Bool := thOwner b % 16 = c && thOwner b / 16 % 16 = s.coach

/-- The crew that a trunk was: its key. -/
def oldCrew (b : List Byte) : Nat := crewKey (fieldAt b 0x24 4 / 2 ^ 24 % 16) (fieldAt b 0x24 4 % 2 ^ 20)

/-- The completion area of a trunk in other memory is read anew before an instruction that waits for it issues again. -/
def pollCompl (c : Ctx) (s : State) (va : Nat) (b : List Byte) : Gate :=
  let lo := va + thCompl b
  let old (f : Fetched) : Bool := f.team = c.key && f.pc = c.cur.pc && f.va ≤ lo && lo < f.va + f.data.length
  if s.fetched.any old then .hold { s with fetched := s.fetched.filter fun f => !old f } else .wait

/-! ## The ticket (07 R130) -/

/-- The page of a ticket, and the swap of a ticket elsewhere: its old value once that has come. -/
def ticketGate (c : Ctx) (s : State) (b : List Byte) (next : Gate) : Gate :=
  let va := thTicket b % 2 ^ 57
  let gen := thGen b
  let test (v : Nat) : Gate := if v = liveTicket gen then next else (c.trapAt 0x11 (c.pair 0 % 2 ^ 57)).reading true [(va, 8)]
  if va % 8 ≠ 0 then c.trapAt 6 va
  else
    pageGate c s 1 .rw va fun pa _ =>
      match fetchedAt s c (va + 2 ^ 57) with
      | some v => test (Bits.ofLe v)
      | none =>
        if behindOlder c s true va 8 then .wait
        else if localClass pa ≠ .none then
          if homeFails s pa 8 then c.trapAt 0x17 va else test (Bits.ofLe (readBytes s c.place.core c.team.comp true pa 8))
        else
          if fetching s c (va + 2 ^ 57) then .wait
          else
            .hold (startOp s { id := 0, team := c.key, issue := c.entryOf c.act true, kind := .fetch (va + 2 ^ 57) 8 }
              [{ c.fetchReq 1 12 va [⟨0, va, 8⟩] with
                opnds := [(0, words64 (spentTicket gen) ++ words64 (liveTicket gen))] }]).1

/-- A ticket of a region of this device is no longer live: the region may end (17 R294). -/
def spendTicket (s : State) (c pa gen : Nat) : State :=
  match s.regions.find? fun r => r.2.comp = c && r.2.tickets.contains (pa, gen) with
  | some (rk, _) => endIdle (onRegion s rk fun r => { r with tickets := r.tickets.erase (pa, gen) }) rk
  | none => s

/-- The ticket is swapped: now on this device, or it has been elsewhere; its physical address. -/
def swapTicket (c : Ctx) (s : State) (b : List Byte) : State × Nat :=
  let (s, pa, _) := pageOf c s .rw (thTicket b % 2 ^ 57)
  (if localClass pa = .none then s
    else strongStore s c.place.core c.team.comp pa (Bits.leBytes 8 (spentTicket (thGen b))), pa)

/-- The commands of a compartment that a trunk with the ticket holds are cancelled as ECAN does (07 R134, 16 R292). -/
def cancelPending (s : State) (c pa gen : Nat) : State :=
  (s.copies.filter fun y => teamComp y.team = c && y.trunk.isSome && y.ticket = some (pa, gen)).foldl (fun s y => endCopy s y 1 0) s

/-! ## RESUME (07 R133) -/

/-- The offsets of the team records of a trunk. -/
def recordOffs (b : List Byte) : Nat → Nat → List Nat
  | 0, _ => []
  | n + 1, p =>
    p :: recordOffs b n (p + align256 (2048 + 1280 * fieldAt b (p + 1) 1 + 32 * fieldAt b (p + 0xE) 2 + 2048 * fieldAt b (p + 3) 1))

/-- A wake entry as a condition whose timed waits hold the cycles that are left (16 R354); `mon` gives a monitored word's physical address and point. -/
def readWake (b : List Byte) (base : Nat) (mon : Nat → Nat → Nat × Option Nat) : Option Wait :=
  let d := fieldAt b (base + 3) 1
  let k := fieldAt b (base + 4) 1
  let ph := fieldAt b (base + 6) 2
  match fieldAt b base 1 with
  | 1 => some (.crewBar k ph)
  | 2 => some (.byteBar k ph d)
  | 3 => some (.promw k ph (fieldAt b (base + 8) 8) d)
  | 4 =>
    let a := fieldAt b (base + 4) 8 % 2 ^ 57
    let ctl := BitVec.ofNat 32 (fieldAt b (base + 20) 4)
    let r := fieldAt b (base + 24) 8
    let (pa, pt) := mon a (ctl.toNat % 8)
    some (.monitor a pa pt (BitVec.ofNat 32 (fieldAt b (base + 12) 4)) (BitVec.ofNat 32 (fieldAt b (base + 16) 4)) ctl
      (if r = 2 ^ 64 - 1 then none else some r) d)
  | 5 => some (.claim k (fieldAt b (base + 5) 1) d)
  | 6 => some (.objection k (BitVec.ofNat 32 (fieldAt b (base + 8) 4)) d)
  | 7 => some (.matrix (fieldAt b (base + 4) 2) d)
  | 8 => some (.copy (fieldAt b (base + 4) 2) d)
  | 11 => some (.join k)
  | 12 => some (.sleep (fieldAt b (base + 8) 8))
  | _ => none

/-- A monitored word of a rebuilt team: its home or the L1 of its core; one elsewhere, or without a page, is still to be armed. -/
def monitorPlace (s : State) (k c level a scope : Nat) : Nat × Option Nat :=
  match peek s k c level .rd a with
  | .ok pa _ =>
    if localClass pa = .none then (2 ^ 64, none) else if nearScope s k 1 scope then (pa, some (l1Loc s k pa)) else (pa, none)
  | _ => (2 ^ 64, none)

/-- A team that a record gives, in a crew of the device (07 R133, 15 R266); reserved bits read 0 (00 R5). -/
def readTeam (s : State) (b : List Byte) (base c serial rk k : Nat) : Team :=
  let rows := fieldAt b (base + 1) 1
  let nw := fieldAt b (base + 0xE) 2
  let wbase := base + 0x800 + 1280 * rows
  let rbase := wbase + 32 * nw
  let level := min 1 (fieldAt b (base + 2) 1)
  let wakes := (List.range nw).filterMap fun j =>
    (readWake b (wbase + 32 * j) (monitorPlace s k c level)).map fun w => (fieldAt b (wbase + 32 * j + 1) 1, w)
  let word (off : Nat) : Word := BitVec.ofNat 32 (fieldAt b (base + off) 4)
  let cr (n off : Nat) : Word := word off &&& ~~~(crReserved n)
  let tab (off n : Nat) : Tab Word := (List.range n).map fun j => (j, word (off + 4 * j))
  let front : List Entry := (List.range (fieldAt b (base + 0xD) 1)).map fun e =>
    { prio := fieldAt b (base + 0x20C + 16 * e) 1, pc := fieldAt b (base + 0x200 + 16 * e) 8 / 4 * 4 % 2 ^ 57,
      mask := word (0x208 + 16 * e), age := min 8191 (fieldAt b (base + 0x20D + 16 * e) 2), wait := Tab.get? wakes e }
  let live := word 4
  { comp := c, serial := serial, idx := fieldAt b base 1 % 16, level := level, saved := some .rebuilt, frozen := true, live := live,
    front := rebuild front, rows := rows, guardMask := word 8, guardLeft := fieldAt b (base + 0xC) 1 % 8,
    deadPc := (laneList.filter fun i => !live.getLsbD i).map fun i => (i, (fieldAt b (base + 0x100 + 8 * i) 8, 0)),
    v := (List.range (8 * rows)).map fun r => (r, laneList.map fun i =>
      let o := base + 0x800 + 1280 * (r / 8)
      ⟨BitVec.ofNat 32 (fieldAt b (o + 128 * (r % 8) + 4 * i) 4), BitVec.ofNat 6 (fieldAt b (o + 1024 + 32 * (r % 8) + i) 1)⟩),
    s := tab 0x480 64, p := tab 0x580 12, m := tab 0x5B0 4, sigth := cr 0x010 0xC0, rmode := cr 0x011 0xC4,
    fpstat := cr 0x012 0xC8, tagLo := cr 0x014 0xCC, tagHi := cr 0x015 0xD0, prio := cr 0x018 0xD4, trapLo := cr 0x030 0xD8,
    trapHi := cr 0x031 0xDC, frameLo := cr 0x032 0xE0, frameHi := cr 0x033 0xE4, carryv := cr 0x040 0xE8, carrys := cr 0x041 0xEC,
    engctl := cr 0x050 0xF0, region := rk,
    lost := fieldAt b (base + 0x3C) 4,
    replayQ := (List.range (min 24 (fieldAt b (base + 3) 1))).map fun j =>
      readReplay (fun off n => fieldAt b off n) (rbase + 2048 * j) }

/-- The tile that an image gives. -/
def readTile (b : List Byte) (base : Nat) : Tile :=
  { image := cellsOf 0 ((b.drop base).take 16384), scales := (List.range 256).map fun r => (r, fieldAt b (base + 16384 + 8 * r) 8),
    tags := (List.range 256).map fun r => (r, BitVec.ofNat 6 (fieldAt b (base + 18432 + r) 1)),
    ts := BitVec.ofNat 32 (fieldAt b (base + 18688) 4), s0 := BitVec.ofNat 32 (fieldAt b (base + 18692) 4),
    s1 := BitVec.ofNat 32 (fieldAt b (base + 18696) 4) }

/-- The crew that a trunk gives: it is to be placed on the issuing core (07 R133). -/
def readCrew (b : List Byte) (c serial rk k : Nat) : Crew :=
  let off (j : Nat) : Nat := fieldAt b (0x38 + 4 * j) 4
  let scru := fieldAt b 0x50 1
  let bar (j : Nat) : CrewBar := ⟨fieldAt b (off 0 + 8 * j) 2, fieldAt b (off 0 + 8 * j + 2) 2⟩
  let byte (j : Nat) : ByteBar :=
    let o := off 0 + 128 + 16 * j
    { expect := fieldAt b o 4, arrived := fieldAt b (o + 4) 4, phase := fieldAt b (o + 8) 2,
      armed := (fieldAt b (o + 10) 1).testBit 0, fault := (fieldAt b (o + 10) 1).testBit 1 }
  { comp := c, serial := serial, teams := fieldAt b 7 1, region := rk, want := some k, scr := scru,
    scratch := if off 3 = 0 then [] else cellsOf 0 ((b.drop (off 3)).take (65536 * scru)),
    tiles := (List.range (fieldAt b 0x51 1)).map fun j => if off 4 = 0 then {} else readTile b (off 4 + 18944 * j),
    bars := (List.range 16).map fun j => (j, bar j), bytes := (List.range 16).map fun j => (j, byte j),
    claims := (List.range (fieldAt b 0x52 2)).map fun j =>
      let o := off 1 + 8 * j
      ⟨fieldAt b o 1, fieldAt b (o + 1) 1, fieldAt b (o + 2) 1, fieldAt b (o + 3) 1⟩ }

/-- The region of a rebuilt crew (17 R294). -/
def trunkRegion (s : State) (c : Nat) (b : List Byte) (own : Nat) : Nat :=
  let rk := regionKey c (fieldAt b 0x28 8 % 2 ^ 57)
  if (region? s rk).any fun r => r.state = 1 || r.state = 2 then rk else own

/-- A condition of a rebuilt team that is met already, with its status. -/
def metNow (s : State) (key : Nat) (t : Team) (w : Wait) : Option (Option Word) :=
  let ck := crewOf key
  match w with
  | .crewBar k ph => if barPhase s ck k ≠ ph then some none else none
  | .byteBar k ph _ | .promw k ph _ _ =>
    if (byteBar s ck k).phase ≠ ph then some (some (if (byteBar s ck k).fault then 1 else 0)) else none
  | .monitor _ pa pt v m ctl _ _ =>
    if localClass pa ≠ .none && monitorHolds v m ctl (pointWord s t.comp pt pa) then some (some 0) else none
  | .claim g h _ => some (some (((trunkClaim s key g h).map fun x => BitVec.ofNat 32 x.outcome).getD 0xFF))
  | .matrix _ _ => some (some 0xFF)
  | .copy h _ =>
    if (copyOf s key h).isSome then none
    else some (some (((copyRecordOf t h).map fun r => copyStatus r.finish r.why).getD 0xFF))
  | _ => none

/-- The pending commands of a trunk that is rebuilt here belong to its new crew from now on (16 R292). -/
def adoptCopies (s : State) (old new' : Nat) : State :=
  { s with copies := s.copies.map fun x =>
      if crewOf x.team = old && x.trunk.isSome then { x with team := 16 * new' + x.team % 16, trunk := none, ticket := none } else x }

/-- A rebuilt team inherits the stream that its record names (11 R223): one of this coach, or another coach's that had stores
outstanding. -/
def inheritStream (s : State) (b : List Byte) (o new' : Nat) : State :=
  let key := streamTeam (fieldAt b (o + 0x30) 8)
  let coach := thOwner b / 16 % 16
  if coach = s.coach then
    onTeam { s with heirs := Tab.put s.heirs new' key } new' fun t => { t with lost := t.lost + Tab.getD s.lateLost key 0 }
  else if fieldAt b (o + 0x38) 4 = 0 then s
  else { s with heirs := Tab.put s.heirs new' (foreignStream coach key) }

/-- A rebuilt team takes what came for the team it was: its completed commands, and the answers to its objections (16 R292). -/
def inherit (s : State) (old new' : Nat) : State :=
  let done := Tab.getD s.lateDone old []
  let serial := (s.copies.filter fun x => x.team = new').foldl (fun n x => max n (x.handle + 1))
    (done.foldl (fun n d => max n (d.handle + 1)) 0)
  let s := onTeam s new' fun t => { t with copyDone := done, copySerial := serial % 2 ^ 16 }
  (s.lateAns.filter fun x => x.1 = old).foldl (fun s x => giveAnswer s new' x.2.1 x.2.2) s

/-- The ranges that commands wrote which arrived at a byte-count barrier of the crew that a trunk held (11 R220). -/
def inheritDests (s : State) (old new' : Nat) : State :=
  let ds := Tab.getD s.lateDests old []
  onCrew s new' fun c => { c with bytes := c.bytes.map fun b =>
    (b.1, { b.2 with dests := b.2.dests ++ (ds.filter fun d => d.1 = b.1).map fun d => (d.2.1, d.2.2) }) }

/-- The completion words of a trunk. -/
def complWord (b : List Byte) (k : Nat) : Nat := fieldAt b (thCompl b + 4 * k) 4

/-- Bytes of one page are written at their home by a team's instruction; none while they cannot leave. -/
def homePart (c : Ctx) (s : State) (va : Nat) (bs : List Byte) : Option State :=
  let (s, pa, _) := pageOf c s .wr (va % 2 ^ 57)
  if localClass pa = .none then storeAway s c.key pa bs else some (strongStore s c.place.core c.team.comp pa bs)

/-- The completion words are cleared at the trunk's home (16 R292). -/
def clearCompl (c : Ctx) (s : State) (va : Nat) (b : List Byte) : Option State :=
  if (List.range 16).all fun k => complWord b k = 0 then some s else homePart c s (va + thCompl b) (List.replicate 64 0)

/-- What a condition that is met already acquires (11 R220). -/
def metDests (s : State) (key : Nat) (t : Team) (w : Wait) : List (Nat × Nat) :=
  match w with
  | .byteBar k _ _ | .promw k _ _ _ => (byteBar s (crewOf key) k).dests
  | .copy h _ => ((copyRecordOf t h).bind (·.dest)).toList
  | _ => []

/-- The entries of a rebuilt team whose conditions are met wake, with the acquire of what they waited for. -/
def wakeMet (k : Nat) (s : State) (key : Nat) : State :=
  match team? s key with
  | none => s
  | some t =>
    let ds := t.front.flatMap fun e =>
      match e.wait with
      | some w => if (metNow s key t w).isSome then metDests s key t w else []
      | none => []
    let s := ds.foldl (fun s d => acquireDest s k t.comp d) s
    onTeam s key fun t => joinChecks (wakeTeam (metNow s key t) t)

/-- The crew of a trunk is rebuilt on the issuing core (07 R133): the state and its key. -/
def rebuildCrew (c : Ctx) (s : State) (va : Nat) (b : List Byte) : State × Nat :=
  let cm := c.team.comp
  let k := c.place.core
  let own := ownTrunk s cm b
  let serial := freeSerial s cm
  let ck := crewKey cm serial
  let rk := trunkRegion s cm b c.team.region
  let x := comp s cm
  let s := setComp s cm { x with crewSerial := (serial + 1) % 2 ^ 20 }
  let s := setCrew s ck (readCrew b cm serial rk k)
  let offs := recordOffs b (fieldAt b 7 1) 256
  let teams := offs.map fun o => (o, readTeam s b o cm serial rk k)
  let s := teams.foldl (fun s t => setTeam s (16 * ck + t.2.idx) t.2) s
  let s := if own then inheritDests (adoptCopies s (oldCrew b) ck) (oldCrew b) ck else s
  let s := teams.foldl (fun s t =>
    let s := inheritStream s b t.1 (16 * ck + t.2.idx)
    if own then inherit s (16 * oldCrew b + t.2.idx) (16 * ck + t.2.idx) else s) s
  let s := (List.range 16).foldl (fun s j => arriveBytes s ck j (complWord b j)) s
  let s := (clearCompl c s va b).getD s
  let s := teams.foldl (fun s t => wakeMet k s (16 * ck + t.2.idx)) s
  (writeLive s rk, ck)

/-- The checks of RESUME, and its waits: a trunk of another coach is folded once every DONE bit is set (16 R292), and the acquire that it is
completes behind every older access of the team (08 R151). Nothing is spent
before the completion area is found to be writable: the swap of the ticket comes last. -/
def resumeGate (c : Ctx) (s : State) : Gate :=
  trunkGate c s true fun va b =>
    if !ownTrunk s c.team.comp b && undone b ≠ [] then pollCompl c s va b
    else
      let swap := ticketGate c s b .go
      if acquiring s c.key || outstanding s c.key then .wait
      else if (List.range 16).all fun k => complWord b k = 0 then swap
      else pageGate c s 1 .wr ((va + thCompl b) % 2 ^ 57) fun _ _ => if (clearCompl c s va b).isNone then .wait else swap

/-- A trunk is read from a peer: its RESUME is an acquire at .fab (11 R223). -/
def trunkFar (c : Ctx) (s : State) : Bool :=
  (pageParts (c.pair 0 % 2 ^ 57) (thTotal (trunkBytes c s))).any fun p =>
    match peek s c.place.core c.team.comp c.team.level .rd (p.1 % 2 ^ 57) with
    | .ok pa _ => localClass pa = .none
    | _ => false

/-- RESUME (07 R133): the crew belongs to the trunk's region from the swap on, before the ticket leaves that region's count (17 R294). -/
def execResume (x : SF) (s : State) :=
  performGated (Shape.s2 0x20 x 1 2) resumeGate (fun c s =>
    let b := trunkBytes c s
    let far := trunkFar c s
    let (s, pa) := swapTicket c (readTrunk c s) b
    let (s, ck) := rebuildCrew c s (c.pair 0 % 2 ^ 57) b
    let s := writeScalar c (((crew? s ck).map crewId).getD 0) (spendTicket s c.team.comp pa (thGen b))
    { s := acquireAt s c.place.core (if far then 5 else 4) }) s

/-! ## TCOPY and TDISC (07 R134) -/

/-- The ticket of a source as TCOPY reads it. -/
def readTicket (c : Ctx) (s : State) (b : List Byte) (f : Nat → Gate) : Gate :=
  let va := thTicket b % 2 ^ 57
  if va % 8 ≠ 0 then c.trapAt 6 va else (readRange c s true va 8).go fun v => f (Bits.ofLe v)

/-- A trunk without its pending table, as TCOPY writes it: the arrivals folded in, with a generation, a ticket and a seal of
its own. -/
def copyImage (s : State) (c gen ticket : Nat) (b : List Byte) : List Byte :=
  let compl := thCompl b
  let cut := align256 (16 * thPending b)
  let pend := fieldAt b 0x40 4
  let b1 := if thPending b = 0 then b.take compl else b.take pend ++ (b.take compl).drop (pend + cut)
  let put (b : List Byte) (off n v : Nat) : List Byte := b.take off ++ Bits.leBytes n v ++ b.drop (off + n)
  let move (b : List Byte) (off : Nat) : List Byte := let v := fieldAt b off 4; if v = 0 then b else put b off 4 (v - cut)
  let b2 := put (put (put (put b1 0x10 8 ticket) 0x18 8 gen) 0x30 4 0) 0x40 4 0
  let b3 := move (move (move (move b2 0x34) 0x44) 0x48) 0x4C
  let bars := fieldAt b 0x38 4
  let b4 := (List.range 16).foldl (fun l k =>
    let o := bars + 128 + 16 * k + 4
    put l o 4 (min (2 ^ 32 - 1) (fieldAt l o 4 + complWord b k))) b3
  let sl := sealBytes (tenancyOf s c) (b4.take 0xF0 ++ b4.drop 0x100)
  b4.take 0xF0 ++ sl ++ b4.drop 0x100 ++ List.replicate 128 0

/-- The destination and the new ticket of a TCOPY. -/
def tcopyDst (c : Ctx) : Nat := c.pair 2 % 2 ^ 57
def tcopyTicket (c : Ctx) : Nat := c.pair 4 % 2 ^ 57

/-- The pages of some ranges that an instruction is to write. -/
def writeGates (c : Ctx) (s : State) : List (Nat × Nat) → Gate
  | [] => .go
  | (va, _) :: r =>
    match pageGate c s 1 .wr (va % 2 ^ 57) fun _ _ => .go with
    | .go => writeGates c s r
    | g => g

/-- Parts of a range, each with its bytes. -/
def partBytes (va : Nat) (bs : List Byte) : List (Nat × List Byte) :=
  (pageParts va bs.length).flatMap fun p =>
    (lineParts p.1 p.2).map fun l => (l.1, (bs.drop (l.1 - va)).take l.2)

/-- Bytes are written at their home by a team's instruction, line by line, until one cannot leave: the state and those that are
left. -/
def storeParts (c : Ctx) (s : State) : List (Nat × List Byte) → State × List (Nat × List Byte)
  | [] => (s, [])
  | (va, bs) :: r =>
    match homePart c s va bs with
    | some s => storeParts c s r
    | none => (s, (va, bs) :: r)

/-- A copy that could not leave at once, and its lines: bytes kept for the instruction beside those that it fetches. -/
def copyMark : Nat := 2 ^ 58

/-- A copy on its way: its generation, and the lines that are left. -/
def copying (s : State) (c : Ctx) : Option (Nat × List (Nat × List Byte)) :=
  (fetchedAt s c copyMark).map fun g =>
    (Bits.ofLe g, (s.fetched.filter fun f => f.team = c.key && f.pc = c.cur.pc && f.mask = c.act && copyMark < f.va).map fun f =>
      (f.va - copyMark - 1, f.data))

/-- The lines of a copy that are left are kept. -/
def keepCopy (c : Ctx) (s : State) (gen : Nat) (left : List (Nat × List Byte)) : State :=
  let s := { s with fetched := s.fetched.filter fun f => !(f.team = c.key && f.pc = c.cur.pc && f.mask = c.act && copyMark ≤ f.va) }
  let keep (va : Nat) (d : List Byte) : Fetched := ⟨c.key, c.cur.pc, c.act, va, d⟩
  { s with fetched := s.fetched ++ keep copyMark (Bits.leBytes 8 gen) :: left.map fun l => keep (copyMark + 1 + l.1) l.2 }

/-- The copy of a trunk begins: its generation, its lines, and the ticket's after them. -/
def beginCopy (c : Ctx) (s : State) (b : List Byte) : State × Nat × List (Nat × List Byte) :=
  let (s, gen) := nextGen s c.team.comp
  (s, gen, partBytes (tcopyDst c) (copyImage s c.team.comp gen (tcopyTicket c) b))

/-- What a copy comes to now: the state, its generation and the lines that are left. -/
def copyOn (c : Ctx) (s : State) : State × Nat × List (Nat × List Byte) :=
  let (s, gen, ls) := match copying s c with
    | some x => (s, x.1, x.2)
    | none => beginCopy c s (trunkBytes c s)
  let (s, left) := storeParts c s ls
  (s, gen, left)

/-- The last store of a TCOPY: its ticket, once the trunk's lines at a peer have been acknowledged; none before. -/
def copyTicket (c : Ctx) (s : State) (gen : Nat) : Option State :=
  let away := (pageParts (tcopyDst c) (thTotal (trunkBytes c s))).any fun p =>
    match peek s c.place.core c.team.comp c.team.level .wr (p.1 % 2 ^ 57) with
    | .ok pa _ => localClass pa = .none
    | _ => false
  if away && !streamQuiet s c.key then none else homePart c s (tcopyTicket c) (Bits.leBytes 8 (liveTicket gen))

/-- The checks of a TCOPY and its waits; one whose lines cannot all leave waits for that. -/
def tcopyGate (c : Ctx) (s : State) : Gate :=
  if tcopyDst c % 256 ≠ 0 then c.trapAt 6 (tcopyDst c)
  else if tcopyTicket c % 8 ≠ 0 then c.trapAt 6 (tcopyTicket c)
  else
    trunkGate c s false fun va b =>
      readTicket c s b fun v =>
        if v ≠ liveTicket (thGen b) then (c.trapAt 0x11 va).reading true [(thTicket b % 2 ^ 57, 8)]
        else if undone b ≠ [] then pollCompl c s va b
        else
          match writeGates c s (pageParts (tcopyDst c) (thTotal b) ++ [(tcopyTicket c, 8)]) with
          | .go =>
            if (copying s c).isNone && (behindOlder c s true (tcopyDst c) (thTotal b) || behindOlder c s true (tcopyTicket c) 8) then .wait
            else
            let (s', gen, left) := copyOn c s
            if left = [] && (copyTicket c s' gen).isSome then .go else .hold (keepCopy c s' gen left)
          | g => g

def execTcopy (x : SF) (s : State) :=
  performGated (Shape.tcopy x) tcopyGate (fun c s =>
    let tv := thTicket (trunkBytes c s) % 2 ^ 57
    let s := readLines (readTrunk c s) c.place.core c.team.comp c.team.level true [(tv, 8)]
    let (s, gen, _) := copyOn c s
    let s := (copyTicket c s gen).getD s
    let (s, pa, _) := pageOf c s .wr (tcopyTicket c)
    { s := onRegion s c.team.region fun r => { r with tickets := r.tickets ++ [(pa, gen)] } }) s

/-- TDISC spends the ticket and cancels what is pending on this coach (07 R134); a coach on which commands of the trunk are pending finds
the ticket spent, and cancels them (log 102). -/
def execTdisc (x : SF) (s : State) :=
  performGated (Shape.sA 0x20 x 2) (fun c s => trunkGate c s false fun _ b => ticketGate c s b .go) (fun c s =>
    let b := trunkBytes c s
    let (s, pa) := swapTicket c (readTrunk c s) b
    let s := spendTicket s c.team.comp pa (thGen b)
    let s := if ownTrunk s c.team.comp b then
        (s.copies.filter fun y => crewOf y.team = oldCrew b && y.trunk.isSome).foldl (fun s y => endCopy s y 1 0) s
      else s
    { s := if thOwner b / 16 % 16 = s.coach then cancelPending s (thOwner b % 16) pa (thGen b) else s }) s

/-! ## TSTAT (07 R135) -/

/-- What TSTAT reads: a gate of its reads, or the word that it writes. DESIGN CHOICE (log 56): the count of pending operations is
the header's PENDING where a check fails, since the completion area is read only of a trunk that passes, and otherwise the number of
completion entries whose DONE bit is clear. -/
def tstatRead (c : Ctx) (s : State) : Sum Gate Nat :=
  let va := c.pair 0 % 2 ^ 57
  let word (code pend : Nat) : Nat := code + 2 ^ 8 * min 255 pend
  if va % 256 ≠ 0 then .inl (c.trapAt 6 va)
  else
    match checkTrunk c s va with
    | .gate g => .inl g
    | .fails code h => .inr (word code (thPending h))
    | .ok b =>
      let tv := thTicket b % 2 ^ 57
      if tv % 8 ≠ 0 then .inl (c.trapAt 6 tv)
      else
        match readRange c s true tv 8 with
        | .gate g => .inl g
        | .bytes v =>
          let v := Bits.ofLe v
          .inr (word (if v / 2 ^ 62 ≠ 1 then 1 else if v ≠ liveTicket (thGen b) then 2 else 0) (undone b).length)

/-- The ranges that a TSTAT has read. -/
def tstatReads (c : Ctx) (s : State) : List (Nat × Nat) :=
  let va := c.pair 0 % 2 ^ 57
  match checkTrunk c s va with
  | .gate _ => []
  | .fails code h => [(va, failedReads code h)]
  | .ok b => [(va, thTotal b), (thTicket b % 2 ^ 57, 8)]

def execTstat (x : SF) (s : State) :=
  performGated (Shape.s2 0x20 x 1 2)
    (fun c s => match tstatRead c s with
      | .inl g => g
      | .inr _ => .go)
    (fun c s => match tstatRead c s with
      | .inl _ => { s := s }
      | .inr w => { s := writeScalar c (BitVec.ofNat 32 w) (readLines s c.place.core c.team.comp c.team.level true (tstatReads c s)) }) s

end Sys2Proof.Machine
end

