-- ==== Sys2Proof/Machine/TeamEvents.lean ====
section
/-! DEFINITION. The events of scheduling and pre-emption (15 R265 to R277, 07 R129, 13 R351). An event that is not enabled
changes nothing (log 17). -/

namespace Sys2Proof.Machine

/-- What follows an event: what has ended leaves, and what waits is tried again. -/
def happen (s : State) : State := reap { s with stir := true }

/-- An event happens if it is enabled. -/
def occur (enabled : Bool) (f : State → State) (s : State) : Host.Outcome State Fault Refusal :=
  .next (if enabled then happen (f s) else s)

/-! ## Stints (15 R267) -/

/-- A team has been ready and passed over for 4,096 cycles. -/
def passedOver (s : State) (b : Nat) (t : Team) : Bool := t.readySince + 4096 ≤ clk s (b / 8)

/-- The better of two ready teams: the higher PRIO.LEVEL, then the stint that ended longest ago. -/
def betterTeam (a b : Nat × Team) : Nat × Team :=
  if a.2.prio.toNat < b.2.prio.toNat || (a.2.prio = b.2.prio && b.2.lastEnd < a.2.lastEnd) then b else a

/-- The team that a bench gives its next stint to; among those passed over, the one that has waited longest. -/
def chooseTeam (s : State) (b : Nat) : Option Nat :=
  let ready := (benchTeams s b).filter fun t => teamReady s t.2
  match ready.filter fun t => passedOver s b t.2 with
  | x :: r => some (r.foldl (fun a t => if t.2.readySince < a.2.readySince then t else a) x).1
  | [] =>
    match ready with
    | x :: r => some (r.foldl betterTeam x).1
    | [] => none

/-- A stint can start. -/
def stintDue (s : State) (b team : Nat) : Bool := (bench s b).holder.isNone && chooseTeam s b = some team

def execStintStart (bench' team : Nat) (s : State) :=
  occur (stintDue s bench' team) (fun s =>
    setBench s bench' (voidLatches { bench s bench' with holder := some team, slots := 0 })) s

/-- A team that cannot go on loses its stint; a chain is broken (07 R122). -/
def leaveStint (s : State) (key : Nat) : State :=
  match team? s key with
  | some t =>
    match t.place with
    | some p => if (bench s p.benchNo).holder = some key && !teamReady s t then endStint s p.benchNo else s
    | none => s
  | none => s

/-! ## Fetches (13 R351, 15 R282, 12 R244) -/

/-- The entry of an issue waits for its fetch, or tries again later. -/
def fetchWait (s : State) (u : Cur) (w : Wait) : State :=
  onTeam s u.team fun t => { (if u.start < u.pc then markBroke s u.start (u.pc - 4) u.mask t else t) with
    front := t.front.map fun e => if e.pc = u.start && e.mask = u.mask && e.wait.isNone then { e with wait := some w } else e }

/-- A fetch whose walk ends as a miss (13 R351): without room for its record it bounces, and is tried again after its backoff
(R259). -/
def fetchMiss (s : State) (u : Cur) (t : Team) (stage ipa : Nat) : State :=
  let f : FaultRecord :=
    { region := t.region, fid := 0, kind := stage, flags := 2, count := 1, va := u.pc, ipa := if stage = 2 then ipa else 0,
      who := faultWho s u.team t, eng := 0 }
  match missFault s t.comp (Tab.getD t.refetch u.start 0) f (if stage = 2 then ipa / 4096 else u.pc / 4096) with
  | (s, some fid) => fetchWait (onTeam s u.team fun t => { t with refetch := Tab.del t.refetch u.start }) u (.fetch fid)
  | (s, none) => fetchWait s u (.queued (s.time + boundOf s ((t.place.map (·.core)).getD 0 / 32) 1) true)

/-- A fetch that a queue holds goes on when the stall ends, or bounces at the queue's bound with CONGEST and is tried again after its
backoff (13 R351). -/
def fetchHeld (s : State) (u : Cur) (t : Team) (kind over' : Nat) : State :=
  let bound := boundOf s ((t.place.map (·.core)).getD 0 / 32) kind
  fetchWait s u (if over' ≤ s.time + bound then .queued over' false else .queued (s.time + bound) true)

/-- A fetch that brings no word: the first one of a handler escalates. -/
def fetchFails (s : State) (u : Cur) (t : Team) (cause : Nat) : State :=
  let s := if cause = 0x17 then reportAt s ((t.place.map (·.core)).getD 0) t.comp t.level u.pc 0 (some 12) else s
  takeTrap (onTeam s u.team fun t => { t with refetch := Tab.del t.refetch u.start }) u.team
    { cause := if t.entering then 0x1A else cause, tpc := u.pc, faddr := u.pc }

/-- The fetch of the next word of the issue in hand ends without a word. -/
def fetchEnds (s : State) (u : Cur) : State :=
  match team? s u.team with
  | none => { s with cur := none }
  | some t =>
    match currentWord s u with
    | (s, .word _) => s
    | (s, .miss stage ipa) =>
      let s := { s with cur := none }
      leaveStint (if t.entering then fetchFails s u t 0x1A else fetchMiss s u t stage ipa) u.team
    | (s, .held kind over') => leaveStint (fetchHeld { s with cur := none } u t kind over') u.team
    | (s, .fault cause) => leaveStint (fetchFails { s with cur := none } u t cause) u.team

/-- The issue in hand is the team's at an address. -/
def fetching? (s : State) (team pc : Nat) : Option Cur := s.cur.filter fun u => u.team = team && u.pc = pc

def execInstructionFetch (team pc : Nat) (s : State) :=
  occur (fetching? s team pc).isSome (fun s =>
    match fetching? s team pc with
    | some u => fetchEnds s u
    | none => s) s

/-! ## The delivery of a trap (15 R277) -/

/-- A trap of a team is due and can be delivered. -/
def deliverable (s : State) (key : Nat) : Bool :=
  (team? s key).any fun t =>
    t.place.isSome && compRuns s t.comp && lateDue t && !undrained s key t && !s.cur.any fun u => u.team = key

/-- The address that a team goes on at. -/
def goesOnAt (t : Team) : Nat :=
  match chooseEntry t.front entryReady with
  | some e => e.pc
  | none => (t.front.head?.map (·.pc)).getD 0

/-- The first trap that is due is delivered; those behind it are taken at the return (15 R281). -/
def deliverDue (s : State) (key : Nat) : State :=
  match team? s key with
  | none => s
  | some t =>
    match t.late with
    | [] => s
    | i :: r =>
      let i := if i.cause = 0xA || i.cause = 0x19 then { i with tpc := goesOnAt t } else i
      deliverTrap (setTeam s key { t with late := [], owed := t.owed ++ r, captured := false }) key i

def execTrapDelivery (team : Nat) (s : State) := occur (deliverable s team) (fun s => deliverDue s team) s

/-! ## Eviction and placement (15 R265, R269, R276) -/

/-- Every frontier entry of a team waits at a parking point. -/
def allParked (t : Team) : Bool := t.front ≠ [] && t.front.all fun e => e.wait.any Wait.parked

/-- Loads, atomics and monitor armings of a team stand in a queue or in its pannier (15 R269). -/
def pannierLoads (s : State) (key : Nat) : Bool :=
  (s.reqs.any fun r => r.team = key && (r.cls = 0 || r.cls = 2 || r.cls = 3) && !r.isAway) ||
  s.ops.any fun o => o.team = key && o.todo ≠ []

/-- A team can leave its slot: every entry of it is parked, with nothing in its pannier that is to bring a value; or it is captured
in a compartment that stands still (15 R269, R276). -/
def evictable (s : State) (key : Nat) : Bool :=
  (team? s key).any fun t =>
    t.place.isSome && t.live ≠ 0 && !pannierLoads s key && !s.cur.any (fun u => u.team = key) &&
    ((allParked t && t.replayQ = []) || (t.captured && !compUp s t.comp))

/-- A team leaves its slot with its phase record; a crew whose last team left in a tenant switch leaves its core. -/
def evict (s : State) (key : Nat) : State :=
  match team? s key with
  | none => s
  | some t =>
    let s := match t.place with
      | some p => if (bench s p.benchNo).holder = some key then endStint s p.benchNo else s
      | none => s
    let s := onTeam s key fun t => { t with
      place := none
      slotHeld := t.place
      saved := some (if allParked t && t.replayQ = [] then .parked else .forced t.replayQ)
      replayQ := [] }
    let none' := (crewTeams s (crewOf key)).all fun k => (team? s k).all fun t => t.place.isNone
    if none' && !compUp s t.comp then onCrew s (crewOf key) fun c => { c with core := none, want := c.core.orElse fun _ => c.want }
    else s

def execTeamEviction (team : Nat) (s : State) := occur (evictable s team) (fun s => evict s team) s

def execCrewPlacement (crew : Nat) (s : State) :=
  occur (placeCrew? s crew).isSome (fun s => (placeCrew? s crew).getD s) s

/-! ## Bins (07 R129) -/

/-- The cycles after which a region's bins launch: 256 by default. -/
def binTimer (s : State) (rk : Nat) : Nat :=
  match region? s rk with
  | some r => if r.btimer = 0 then 256 else r.btimer
  | none => 256

/-- A partial bin's timer has expired, or a bin that a stop kept from launching is full. -/
def binDue (s : State) (k : Nat) (b : Bin) : Bool :=
  (32 ≤ b.threads.length || b.first + binTimer s b.region ≤ clk s k) && compRuns s b.comp && binsLaunch s b.comp k

def execBinTimerExpiry (core' bin : Nat) (s : State) :=
  occur ((core s core').bins[bin]?.any (binDue s core')) (fun s =>
    match (core s core').bins[bin]? with
    | some b => launchBins s core' fun x => x = b
    | none => s) s

/-! ## Migration (15 R270) -/

/-- The clusters of a compartment. -/
def clusterCount (s : State) (c : Nat) : Nat := ((List.range 16).filter fun n => (comp s c).desc.clusters.getLsbD n).length

/-- A forwarding entry is still needed. -/
def forwards (s : State) (k ck : Nat) : Bool :=
  ((crewTeams s ck).any fun t => (team? s t).any fun x => x.outst ≠ 0 || inherited s t ≠ 0) ||
  (s.mats.any fun m => crewOf m.team = ck) || (s.copies.any fun x => crewOf x.team = ck && x.trunk.isNone) || ((core s k).outgoing.any fun p => crewOf p.2.team = ck)

/-- A core drops the forwarding entries that are not needed. -/
def dropForwards (s : State) (k : Nat) : State :=
  let x := core s k
  setCore s k { x with forwards := x.forwards.filter fun f => forwards s k f.1 }

/-- The placed teams of a crew. -/
def placedTeams (s : State) (ck : Nat) : List Nat := (crewTeams s ck).filter fun k => (team? s k).any fun t => t.place.isSome

/-- What a move asks of memory (10 R199): a release at .dev on the old core, then an acquire at .dev on the new one. -/
def moveOrder (s : State) (old new' : Nat) : State := acquireAt (releaseAt s old 4) new' 4

/-- The requests of a crew that are on their way elsewhere belong to its new core. -/
def moveReqs (s : State) (ck new' : Nat) : State :=
  { s with reqs := update s.reqs (fun r => crewOf r.team = ck) fun r => { r with core := new' } }

/-- The crew on its new core, if that has room (15 R270). -/
def moved (s : State) (ck new' : Nat) (c : Crew) (old : Nat) : Option State :=
  let ts := placedTeams s ck
  let s := dropForwards s old
  if 64 ≤ (core s old).forwards.length then none
  else
    let s := ts.foldl (fun s k =>
      match (team? s k).bind (·.place) with
      | some p =>
        let s := if (bench s p.benchNo).holder = some k then endStint s p.benchNo else s
        onTeam s k fun t => { t with place := none }
      | none => s) s
    let s := onCrew s ck fun c => { c with core := none, want := none }
    let s := moveReqs (moveOrder (giveWays s new' c.scr) old new') ck new'
    if !poolRoom s new' c then none
    else
      (seatTeams s new' ts).map fun s =>
        let s := onCrew s ck fun c => { c with core := some new' }
        let s := (crewTeams s ck).foldl (fun s k => onTeam s k (moveWaits s old new')) s
        let x := core s old
        setCore s old { x with forwards := x.forwards ++ [(ck, new')] }

/-- A move of a crew to a core takes place. -/
def migrated (s : State) (ck new' : Nat) : Option State :=
  match crew? s ck with
  | none => none
  | some c =>
    match c.core with
    | none => none
    | some old =>
      let still := (crewTeams s ck).all fun k => (team? s k).all fun t =>
        (t.live = 0 && teamDrained s k) || (t.live ≠ 0 && (s.reqs.all fun r => r.team ≠ k || r.isAway) && !pannierLoads s k && !postsBounced s k &&
          (t.place.isNone || (allParked t && t.replayQ = [])))
      if still && old ≠ new' && clusterCount s c.comp ≤ 4 && compRuns s c.comp && (comp s c.comp).stop.isNone &&
          c.suspending.isNone && !departing s c.comp new' && (compCores s c.comp).contains new' then moved s ck new' c old
      else none

def execCrewMigration (crew core' : Nat) (s : State) :=
  occur (migrated s crew core').isSome (fun s => (migrated s crew core').getD s) s

/-! ## Steering (15 R271) -/

/-- The average arrival of a core, if it has any. -/
def arrivalMean (x : Core) : Option Nat :=
  if x.arrivals = [] then none else some (x.arrivals.foldl (· + ·) 0 / x.arrivals.length)

/-- The cores that arrived first and last on average. -/
def steerPair (s : State) (c : Nat) : Option (Nat × Nat) :=
  match (compCores s c).filterMap fun k => (arrivalMean (core s k)).map fun m => (k, m) with
  | [] => none
  | x :: r =>
    let lo := r.foldl (fun a y => if y.2 < a.2 then y else a) x
    let hi := r.foldl (fun a y => if a.2 < y.2 then y else a) x
    if lo.2 < hi.2 then some (lo.1, hi.1) else none

/-- A core's clock takes a frequency: CLK goes on from where it stands. -/
def setMhz (s : State) (k mhz : Nat) : State :=
  if (core s k).mhz = mhz then s
  else setCore s k { core s k with clkBase := clk s k, timeBase := s.time, mhz := mhz }

/-- A steering interval of a compartment has passed. -/
def steerDue (s : State) (c : Nat) : Bool :=
  8 ≤ clusterCount s c && compRuns s c && Tab.getD s.steerAt c 0 + 65536 ≤ s.time

def execSteeringInterval (comp' : Nat) (s : State) :=
  occur (steerDue s comp') (fun s =>
    let s := { s with steerAt := Tab.put s.steerAt comp' s.time }
    match steerPair s comp' with
    | some (a, b) =>
      let fa := (core s a).mhz
      let fb := (core s b).mhz
      if 1825 ≤ fa && fb ≤ 2375 then setMhz (setMhz s a (fa - 25)) b (fb + 25) else s
    | none => s) s

/-! ## Stops (15 R272 to R276) -/

/-- The cycles of a region's deferral limit: 0 means 50,000. -/
def deferOf (s : State) (rk : Nat) : Nat :=
  match region? s rk with
  | some r => if r.defer = 0 then 50000 else r.defer
  | none => 50000

/-- The crews of a compartment. -/
def compCrews (s : State) (c : Nat) : List Nat := (s.crews.filter fun x => x.2.comp = c).map (·.1)

/-- Every team of a crew is to stop at its next parking point. -/
def askStop (s : State) (ck : Nat) : State := (crewTeams s ck).foldl (fun s k => onTeam s k fun t => { t with stopReq := true }) s

/-- A team's STOPREQ has not been delivered yet. -/
def stopPending (t : Team) : Bool := t.late.any fun i => i.cause = 0x19

/-- STOPREQ goes to the lowest-indexed team that is not parked; a crew whose every team is parked is captured as it waits (15
R274). -/
def trapStop (s : State) (ck : Nat) : State :=
  match (crewLive s ck).find? fun k => (team? s k).any fun t => t.place.isSome && !allParked t with
  | some k => onTeam s k fun t => { t with late := t.late ++ [{ cause := 0x19, tpc := 0 }] }
  | none => askStop s ck

/-- A team whose STOPREQ is pending has parked: another team of its crew takes it, or the crew is captured. -/
def shiftStops (s : State) : State :=
  ((s.teams.filter fun t => stopPending t.2 && allParked t.2).map (·.1)).foldl (fun s k =>
    trapStop (onTeam s k fun t => { t with late := t.late.filter fun i => i.cause ≠ 0x19 }) (crewOf k)) s

/-- The region of a crew takes a stop as a trap. -/
def takesTrap (s : State) (ck : Nat) : Bool :=
  ((crew? s ck).bind fun c => region? s c.region).any fun r => r.flags.testBit 2

/-- A crew receives the stop request: it is deferred while a phase of a barrier has arrivals (15 R273). -/
def stopCrew (s : State) (ck : Nat) : State :=
  match crew? s ck with
  | none => s
  | some c =>
    let now := clk s (((c.core.orElse fun _ => c.want)).getD 0)
    let held := c.bars.any fun b => b.2.arrived ≠ 0
    let s := if held then onCrew s ck fun c => { c with deferUntil := some (now + deferOf s c.region) } else s
    let s := (crewTeams s ck).foldl (fun s k => onTeam s k fun t => { t with graceAt := now }) s
    if takesTrap s ck then trapStop s ck else askStop s ck

/-- A compartment is stopped: by its slice's end, or by the STOP operation. -/
def stopComp (s : State) (c sliceEnd : Nat) (op : Bool) : State :=
  let s := setComp s c { comp s c with stop := some ⟨s.time, sliceEnd, op⟩ }
  let s := (s.regions.filter fun r => r.2.comp = c).foldl (fun s r => setRegionState s r.1 2) s
  (compCrews s c).foldl stopCrew s

/-- A compartment has been started and is not being stopped. -/
def stoppable (s : State) (c : Nat) : Bool := compUp s c && (comp s c).stop.isNone

/-- DRAIN of a compartment, in microseconds: the largest of its active regions (15 R272, log 81). -/
def drainOf (s : State) (c : Nat) : Nat := s.regions.foldl (fun n r => if r.2.comp = c then max n r.2.drain else n) 0

/-- The stop request of a slice goes out DRAIN before the slice's end, in microseconds of the Postmaster's counter (15 R272). -/
def execStopRequest (comp' sliceEnd : Nat) (s : State) :=
  occur (stoppable s comp' && sliceEnd ≤ usec s + drainOf s comp') (fun s => stopComp s comp' sliceEnd false) s

/-- A team that is still to be captured. -/
def uncaptured (t : Team) : Bool := t.live ≠ 0 && t.place.isSome && !t.captured && !t.force

/-- The grace of a team has passed: it counts from the return of a service (07 R140), and a deferred crew has its own limit. -/
def graceDue (s : State) (key : Nat) : Bool :=
  (team? s key).any fun t =>
    stopping s t.comp (holdingCore s key t) && uncaptured t && (crew? s (crewOf key)).any (fun c => c.deferUntil.isNone) &&
    !(t.front.any fun e => e.wait.any fun w => match w with | .service _ => true | _ => false) &&
    t.graceAt + 4096 ≤ clk s (holdingCore s key t)

/-- A team is to be force-saved at its next boundary (15 R273). -/
def forceTeam (s : State) (key : Nat) : State :=
  onTeam s key fun t => { t with stopReq := true, force := true, late := t.late.filter fun i => i.cause ≠ 0x19 }

def execGraceExpiry (team : Nat) (s : State) := occur (graceDue s team) (fun s => forceTeam s team) s

/-- The cycle at which a crew's deferral ends: of a stop, or of the crew's own SUSPEND (07 R132). -/
def deferEnd (s : State) (c : Crew) : Option Nat :=
  match c.suspending with
  | some q => some (q.since + deferOf s c.region)
  | none => c.deferUntil

/-- The deferral limit of a crew is reached with teams that have not parked. -/
def deferDue (s : State) (ck : Nat) : Bool :=
  (crew? s ck).any fun c =>
    (deferEnd s c).any (fun d => d ≤ clk s (((c.core.orElse fun _ => c.want)).getD 0)) &&
    (crewTeams s ck).any fun k => (team? s k).any uncaptured

def execDeferralExpiry (crew : Nat) (s : State) :=
  occur (deferDue s crew) (fun s =>
    let s := ((crewTeams s crew).filter fun k => (team? s k).any uncaptured).foldl forceTeam s
    onCrew s crew fun c => { c with deferUntil := none }) s

/-- Every team of a compartment is captured, and 11 R224 holds: its panniers are empty, and nothing of it is on its way but what
wakes a parked team, a remote load's reply or a monitored word's. -/
def savedAll (s : State) (c : Nat) : Bool :=
  (s.teams.all fun t => t.2.comp ≠ c || t.2.live = 0 || t.2.captured) &&
  (s.reqs.all fun r => teamComp r.team ≠ c || r.isAway) && (s.ops.all fun o => teamComp o.team ≠ c || o.todo = []) &&
  !(s.mats.any fun m => teamComp m.team = c) &&
  !(s.copies.any fun x => teamComp x.team = c && match x.stage with | .pannier .. => true | _ => !x.replied) &&
  !s.streams.any fun x => teamComp x.team = c && (x.unacked ≠ [] || x.waiting ≠ [])

/-- The save report (15 R275): what the context has released is performed at .sys, its cores' dirty words with it (11 R224); the
overrun in whole microseconds is owed by the next slice. -/
def reportSave (s : State) (c : Nat) : State :=
  let x := comp s c
  match x.stop with
  | none => s
  | some q =>
    let s := setComp s c { x with
      desc := { x.desc with state := 3, op := if q.op then 0 else x.desc.op, result := if q.op then 0 else x.desc.result }
      stop := none
      owed := if q.op then x.owed else x.owed + ceilDiv (s.time - q.sliceEnd * 2100) 2100 }
    let s := (compCrews s c).foldl (fun s ck => onCrew s ck fun c => { c with deferUntil := none }) s
    let s := (compCores s c).foldl (fun s k => releaseAt s k 6) s
    (s.regions.filter fun r => r.2.comp = c).foldl (fun s r => setRegionState s r.1 3) s

/-- A stop has come to its end. -/
def saveDue (s : State) (c : Nat) : Bool := compUp s c && (comp s c).stop.isSome && savedAll s c

def execSaveReport (comp' : Nat) (s : State) := occur (saveDue s comp') (fun s => reportSave s comp') s

/-- A crew of a stopped compartment with no team in a slot: its scratchpad and its tiles can be claimed, as an image of it (15
R276). -/
def spillCrew (s : State) (c : Nat) (ck : Nat) : State :=
  onCrew s ck fun x =>
    if x.comp = c && (crewTeams s ck).all fun k => (team? s k).all fun t => t.place.isNone then
      { x with core := none, want := x.core.orElse fun _ => x.want }
    else x

/-- A tenant switch (15 R276): the outgoing compartment's words leave the L1s of the cores that both hold; its stopped teams keep
their slots, rows and tiles until the incoming one claims them (`execTeamEviction`). -/
def execTenantSwitch (outgoing incoming : Nat) (s : State) :=
  occur ((comp s outgoing).desc.state = 3 && outgoing ≠ incoming) (fun s =>
    let s := ((compCores s outgoing).filter fun k => (compCores s incoming).contains k).foldl (fun s k =>
      let mine (w : Nat) : Bool := (Tab.get? (core s k).l1 w).any fun x => x.comp = outgoing
      dropWords s k mine) s
    (compCrews s outgoing).foldl (fun s ck => spillCrew s outgoing ck) s) s

/-- The members of a four-in-hand that wait for partners in a captured crew of a compartment being stopped end (18 R302). -/
def cancelStopped (s : State) : State :=
  ((s.mats.filter fun m => (team? s m.team).any (fun t => stopping s t.comp (holdingCore s m.team t)) && partnerWait s m && !m.stage.started &&
      (crewTeams s (crewOf m.team)).all fun k => (team? s k).all fun t => t.live = 0 || t.captured).map (·.id)).foldl
    (fun s id =>
      match s.mats.find? fun m => m.id = id with
      | some m => endMats s (cancelSet s m) (matStatus 1 false false)
      | none => s) s

/-- A team's timed waits stand still: it is captured, or rebuilt from a trunk and not placed yet (16 R354). -/
def standsStill (t : Team) : Bool := t.captured || t.saved = some .rebuilt

/-- The cycles that are left are taken at the capture of a team, and count on the core that holds it once it goes on (15 R269, 16 R354). -/
def settleTeam (now : Nat) (t : Team) : Team :=
  if standsStill t = t.frozen then t
  else
    let on (d : Nat) : Nat := if t.frozen then now + d else d - now
    let mv (e : Entry) : Entry := { e with wait := e.wait.map (Wait.retime on) }
    { t with frozen := standsStill t, front := t.front.map mv, held := t.held.map fun h => { h with entry := mv h.entry } }

/-- Every team's timed waits stand still or go on. -/
def settleWaits (s : State) : State :=
  { s with teams := s.teams.map fun kt => (kt.1, settleTeam (clk s (holdingCore s kt.1 kt.2)) kt.2) }

/-- An arming is on its way for a monitored address of a team. -/
def arming (s : State) (key a : Nat) : Bool := s.ops.any fun o => o.team = key && o.kind = .arm && o.armVa = a

/-- The waits of a placed team that are to be armed anew: its arming is in no record of it (07 R133). -/
def toArm (s : State) (key : Nat) (t : Team) : List Entry :=
  if t.place.isNone || t.frozen then []
  else t.front.filter fun e => e.wait.any fun w => match w with
    | .monitor a pa .. => pa = 2 ^ 64 && !arming s key a
    | _ => false

/-- The arming of a rebuilt team's monitored word, as its WAITC would issue it. -/
def armEntry (s : State) (key : Nat) (t : Team) (e : Entry) : State :=
  match e.wait with
  | some (.monitor a _ _ v m ctl _ _) =>
    let issue : ReplayEntry := { word := 0x7C000000, pc := e.pc, mask := e.mask, cap := { s := words64 a ++ [v, m, ctl, 0] } }
    (startOp s { id := 0, team := key, issue := issue, kind := .arm }
      [{ id := 0, op := 0, team := key, core := holdingCore s key t, cls := 3, ord := 1, scope := ctl.toNat % 8, code := 0, line := a / 64,
         accs := [⟨((lanesOf e.mask).head?).getD 0, a, 4⟩], age := 0, stage := .queue 0, since := 0, level := t.level }]).1
  | _ => s

/-- The monitored words of rebuilt teams that lie elsewhere, or whose page was missing, are armed once their teams are placed. -/
def armRebuilt (s : State) : State :=
  s.teams.foldl (fun s kt => (toArm s kt.1 kt.2).foldl (fun s e => armEntry s kt.1 kt.2 e) s) s

/-- What goes on of itself after a step: stop requests find their teams, captures and suspensions go on (07 R132, 15 R272), and
the time that a placed team has been ready counts from when it became so (15 R267). -/
def teamsAfter (s : State) : State :=
  let s := if s.teams.any fun t => stopPending t.2 then shiftStops s else s
  let s := armRebuilt (settleWaits (cancelStopped (suspensions s)))
  { s with teams := s.teams.map fun kt =>
      match kt.2.place with
      | some p => if teamReady s kt.2 then kt else (kt.1, { kt.2 with readySince := clk s p.core })
      | none => kt }

end Sys2Proof.Machine
end

