-- ==== Sys2Proof/Machine/MemEvents.lean ====
section
/-! DEFINITION. The events of the memory system (13 R247 to R259, 12 R234, 10 R200, R205, 11 R213) and of the timed waits (08
R162, R165, 07 R127). -/

namespace Sys2Proof.Machine

/-! ## The shared queues (13 R247 to R249) -/

/-- The deck of an instance: the sub-links of links 8 to 14 are on deck 1 (21 R313). -/
def queueDeck (s : State) (r : Req) (k : Nat) : Nat :=
  match k with
  | 3 | 4 => queueInst s r k / 512
  | 5 => if 40 ≤ queueInst s r 5 then 1 else 0
  | _ => r.core / 32

/-- The cycles a request has stood in its queue: of its core's CLK in a core request queue, and otherwise of the deck clock. -/
def queueWait (s : State) (r : Req) (k : Nat) : Nat := if k = 0 then clk s r.core - r.sinceClk else s.time - r.since

/-- A request is the head of its instance: no older one stands there. -/
def isHead (s : State) (r : Req) (k : Nat) : Bool :=
  s.reqs.all fun q => q.stage ≠ .queue k || queueInst s q k ≠ queueInst s r k || r.since < q.since || (r.since = q.since && r.id ≤ q.id)

/-- A request's head timer has reached its bound. -/
def reqBounces (s : State) (r : Req) : Bool :=
  match r.stage with
  | .queue k => isHead s r k && boundOf s (queueDeck s r k) k ≤ queueWait s r k
  | _ => false

/-- The cycle since which an operation stands in its reservation table, and a command in its queue. -/
def MatStage.tableSince : MatStage → Option Nat
  | .table t => some t
  | _ => none

def CopyStage.queueSince : CopyStage → Option Nat
  | .queued t => some t
  | _ => none

/-- An entry since `t` under an identifier is the head among others. -/
def headOf (t id : Nat) (others : List (Nat × Nat)) : Bool := others.all fun x => t < x.1 || (t = x.1 && id ≤ x.2)

/-- A matrix operation's head timer has reached its bound. -/
def matBounces (s : State) (m : MatOp) : Bool :=
  match m.stage.tableSince with
  | some t =>
    boundOf s (m.cluster / 8) 6 ≤ s.time - t &&
    headOf t m.id ((s.mats.filter fun x => x.cluster = m.cluster).filterMap fun x => x.stage.tableSince.map fun u => (u, x.id))
  | none => false

/-- A copy command's head timer has reached its bound. -/
def copyBounces (s : State) (x : Copy) : Bool :=
  match x.stage.queueSince with
  | some t =>
    boundOf s (x.cluster / 8) 7 ≤ s.time - t &&
    headOf t x.id ((s.copies.filter fun y => y.cluster = x.cluster).filterMap fun y => y.stage.queueSince.map fun u => (u, y.id))
  | none => false

/-- A matrix operation bounces: PARTNER or CONGEST (13 R254). -/
def bounceMat (s : State) (m : MatOp) : State :=
  let s := makeRoom s m.team
  let s := { s with mats := update s.mats (fun x => x.id = m.id) fun x => { x with entry := x.entry.bounced } }
  setStage s m.id (if partnerWait s m then .pannier 4 none
    else .pannier 2 (some (clk s (((team? s m.team).map (holdingCore s m.team)).getD 0) + 2048)))

/-- A copy command bounces: LOCK, RING or CONGEST (13 R254); one without results gets a promise of all ones (18 R303). -/
def bounceCopy (s : State) (x : Copy) : State :=
  let later := some (clk s x.core + 2048)
  let st := if !x.accepted then CopyStage.pannier 3 none
    else if x.kind = 3 && !x.ring && ringRead s x ≠ .ready then .pannier 5 later else .pannier 2 later
  replyCopy (makeRoom s x.team) { x with stage := st, entry := x.entry.bounced }

def mat? (s : State) (id : Nat) : Option MatOp := s.mats.find? fun m => m.id = id

/-- Something stands at the head of a queue at its bound. -/
def bounces (s : State) (id : Nat) : Bool :=
  (req? s id).any (reqBounces s) || (mat? s id).any (matBounces s) || (copy? s id).any (copyBounces s)

/-- The head of a queue is bounced (13 R248). -/
def bounceHead (s : State) (id : Nat) : State :=
  match req? s id with
  | some r =>
    match r.stage with
    | .queue k => bounceReq s r (bounceCause r k)
    | _ => s
  | none =>
    match mat? s id with
    | some m => bounceMat s m
    | none =>
      match copy? s id with
      | some x => bounceCopy s x
      | none => s

def execQueueBounce (req : Nat) (s : State) := occur (bounces s req) (fun s => bounceHead s req) s

/-! ## The pannier (13 R250, R251, R256) -/

def execBounceArrival (req : Nat) (s : State) :=
  occur ((req? s req).any fun r => r.stage = .flight) (fun s =>
    match req? s req with
    | some r => enterPannier s r
    | none => s) s

/-- The core whose CLK times a matrix operation's backoff. -/
def matClk (s : State) (m : MatOp) : Nat := clk s (((team? s m.team).map (holdingCore s m.team)).getD 0)

/-- A backoff of a request, an operation or a command has passed. -/
def backoffOver (s : State) (id : Nat) : Bool :=
  ((req? s id).any fun r => r.stage = .pannier && !r.ready && r.readyAt.any fun t => t ≤ clk s r.core) ||
  ((mat? s id).any fun m => match m.stage with
    | .pannier _ (some t) => t ≠ 0 && t ≤ matClk s m
    | _ => false) ||
  ((copy? s id).any fun x => match x.stage with
    | .pannier _ (some t) => t ≠ 0 && t ≤ clk s x.core
    | _ => false)

/-- The entry is ready to reissue. -/
def nowReady (s : State) (id : Nat) : State :=
  match req? s id with
  | some r => putReq s { r with ready := true }
  | none =>
    match mat? s id with
    | some m =>
      match m.stage with
      | .pannier c _ => setStage s id (.pannier c (some 0))
      | _ => s
    | none =>
      match copy? s id with
      | some x =>
        match x.stage with
        | .pannier c _ => putCopy s { x with stage := .pannier c (some 0) }
        | _ => s
      | none => s

def execReissueBackoffExpiry (req : Nat) (s : State) := occur (backoffOver s req) (fun s => nowReady s req) s

/-- A request in the pannier may reissue: a pulled one once what it follows has been performed, posted stores at their targets; and
its core's request queue has an entry for it (13 R248, R256). -/
def canReissue (s : State) (r : Req) : Bool :=
  r.stage = .pannier && (if r.pulled then leading s r = [] && r.behind.all (postedOver s r.team) else r.ready) && queueRoom s r 0

/-- A ready operation finds room in its table, behind the older ones of its team that share a tile with it (log 106); a ready command
does in its queue. -/
def matCan (s : State) (m : MatOp) : Bool :=
  (match m.stage with
    | .pannier _ (some 0) => true
    | _ => false) && tableRoom s m.cluster (teamComp m.team) && (m.accepted.isSome || !matBehind s m)

def copyCan (s : State) (x : Copy) : Bool :=
  (match x.stage with
    | .pannier _ (some 0) => true
    | _ => false) && copyRoom s x.cluster (teamComp x.team)

/-- No older entry of a team's pannier may reissue (13 R256: AGE order). -/
def firstReady (s : State) (key id : Nat) : Bool :=
  (s.reqs.all fun q => q.team ≠ key || id ≤ q.id || !canReissue s q) &&
  (s.mats.all fun m => m.team ≠ key || id ≤ m.id || !matCan s m) && s.copies.all fun x => x.team ≠ key || id ≤ x.id || !copyCan s x

/-- An entry may reissue, and no older one of its team may. -/
def reissues (s : State) (r : Req) : Bool := canReissue s r && firstReady s r.team r.id
def matReissues (s : State) (m : MatOp) : Bool := matCan s m && firstReady s m.team m.id
def copyReissues (s : State) (x : Copy) : Bool := copyCan s x && firstReady s x.team x.id

/-- An entry leaves the pannier for the tail of its queue. -/
def reissue (s : State) (id : Nat) : State :=
  match req? s id with
  | some r =>
    advanceReq (putReq s { r with stage := .queue 0, since := s.time, sinceClk := clk s r.core, reissued := true, ready := false,
                                  pulled := false, behind := [], spilled := false, readyAt := none }) id .clean
  | none =>
    match mat? s id with
    | some m =>
      { s with mats := update s.mats (fun x => x.id = id) fun x =>
          { x with stage := .table s.time, accepted := some (m.accepted.getD s.time),
                   entry := { x.entry with reissued := true, spilled := false } } }
    | none =>
      match copy? s id with
      | some x =>
        let x := { x with stage := CopyStage.queued s.time, asked := [], have' := [], roads := [],
                          entry := { x.entry with reissued := true, spilled := false } }
        putCopy s (if !x.accepted && lockRoom s x.cluster then acceptCopy s x else x)
      | none => s

def execPannierReissue (req : Nat) (s : State) :=
  occur ((req? s req).any (reissues s) || (mat? s req).any (matReissues s) || (copy? s req).any (copyReissues s))
    (fun s => reissue s req) s

/-! ## Walks and performance (12 R234, 10 R200) -/

/-- A request stands in a shared queue and has not missed. -/
def waitsInQueue (r : Req) : Bool := r.stage.queued.isSome && !r.missed

def execTranslationWalk (req : Nat) (s : State) :=
  occur ((req? s req).any waitsInQueue) (fun s => advanceReq s req .clean) s

/-- Data that are lost where they stand (12 R244): a dirty word of an L1 goes; one of the L2 is lost to its readers; an operation that
reads the tile stops (18 R299). -/
def loseData (s : State) (c unit where' pa : Nat) : State :=
  let w := pa / 4
  match unit with
  | 4 =>
    let k := where' % 2 ^ 10
    let x := core s k
    setCore s k (tidyLines { x with l1 := x.l1.filter fun v => v.1 ≠ w })
  | 2 | 3 => if localClass (4 * w) = .none || s.failing.contains w then s else { s with failing := s.failing ++ [w] }
  | 8 =>
    let lost (m : MatOp) : Bool := teamComp m.team = c && ((crew? s (crewOf m.team)).bind (·.core)) = some (where' % 2 ^ 10)
    { (s.mats.filter lost).foldl countPasses s with mats := s.mats.filter fun m => !lost m }
  | _ => s

/-- An error outside the data of the request in hand (12 R243, R244): one corrected is counted; a word of memory or of a scratchpad is
found out by what reads it; and data lost where they stand halt the compartment that owns them. -/
def eccElsewhere (s : State) : Ecc → Option State
  | .clean | .corrected | .uncorrectable => none
  | .correctedIn => some (countCorrected s)
  | .memoryLost w =>
    some (if localClass (4 * w) = .none || s.failing.contains w then s else { s with failing := s.failing ++ [w] })
  | .scratchLost ck w =>
    some (onCrew s ck fun c =>
      if 16384 * c.scr ≤ w || c.failing.contains w then c else { c with failing := c.failing ++ [w] })
  | .dataLost c unit where' pa =>
    some (loseData (if (comp s c).desc.state = 0 then pushHeq s (uncorrImage 0xFF unit 3 where' pa)
      else haltLost (pushHeq s (uncorrImage c unit 2 where' pa)) c pa) c unit where' pa)

def execMemoryRequestPerformed (req : Nat) (ecc : Ecc) (s : State) :=
  match eccElsewhere s ecc with
  | some s' => occur true (fun _ => s') s
  | none => occur ((req? s req).any waitsInQueue) (fun s => advanceReq s req ecc) s

/-- A region's failed record write is to be tried again (13 R259). -/
def retryDue (s : State) (c rk : Nat) : Bool :=
  (region? s rk).any fun r => r.comp = c && (r.retryAt.any (fun t => t ≤ s.time) || faultRoom s c rk)

def execFaultRecordRetry (comp' region : Nat) (s : State) :=
  occur (retryDue s comp' region) (fun s =>
    faultFlush (onRegion s region fun r => { r with retryAt := none }) comp' region) s

/-! ## Ownership and write-backs (11 R213, 10 R205) -/

def execOwnershipRegistration (core' word : Nat) (s : State) :=
  occur (s.registering.contains (core', word)) (fun s => registerWord s core' word) s

/-- A core holds a dirty word of a line. -/
def dirtyIn (s : State) (k line : Nat) : Bool := (core s k).l1.any fun w => w.2.dirty && w.1 / 16 = line

/-- The dirty words of a line are written back. -/
def writeLineBack (s : State) (k line : Nat) : State := writeBackIf s k fun w => w / 16 = line

def execWriteBack (core' line : Nat) (s : State) := occur (dirtyIn s core' line) (fun s => writeLineBack s core' line) s

/-- A line has been dirty for 65,536 cycles. -/
def lineDue (s : State) (k line : Nat) : Bool :=
  (core s k).dirtyLines.any fun d => d.1 = line && d.2 + 65536 ≤ clk s k

def execWritebackTimeLimit (core' line : Nat) (s : State) :=
  occur (lineDue s core' line) (fun s => writeLineBack s core' line) s

/-! ## Timed waits (08 R162, R165, 07 R127) -/

/-- A team's entry at an address waits with a condition that a test picks, in its frontier or held through a handler. -/
def waitsAt (s : State) (key pc : Nat) (p : Wait → Bool) : Bool :=
  (team? s key).any fun t => !t.frozen &&
    ((t.front.any fun e => e.pc = pc && e.wait.any p) ||
    t.held.any fun h => h.result.isNone && h.entry.pc = pc && h.entry.wait.any p)

/-- CLK of the core that holds a team. -/
def teamClk (s : State) (key : Nat) : Nat := ((team? s key).map fun t => clk s (holdingCore s key t)).getD 0

/-- A WAITC whose TIMEOUT has passed: the cycle in which it does is over, so that a condition that comes in it has won (08 R162). -/
def waitcOver (now : Nat) : Wait → Bool
  | .monitor _ _ _ _ _ _ (some d) _ => d < now
  | _ => false

/-- The arming requests and polls of a team that no entry waits for any more go, and their operations with them. -/
def dropPolls (s : State) (key : Nat) : State :=
  let still (a : Nat) : Bool := (team? s key).any fun t => waitsOn (fun w => match w with
    | .monitor b .. => a = b
    | _ => false) t
  let gone (o : MemOp) : Bool := o.team = key && o.kind = .arm && !still o.armVa
  let ids := (s.ops.filter gone).map (·.id)
  { s with reqs := s.reqs.filter (fun r => !ids.contains r.op), ops := s.ops.filter fun o => !gone o }

def execWaitcTimeout (team pc : Nat) (s : State) :=
  let due := waitcOver (teamClk s team)
  occur (waitsAt s team pc due) (fun s =>
    dropPolls (onTeam s team (wakeTeam fun w => if due w then some (some 1) else none)) team) s

/-- A SLEEP whose cycles have passed. -/
def sleepOver (now : Nat) : Wait → Bool
  | .sleep d => d ≤ now
  | _ => false

def execSleepExpiry (team pc : Nat) (s : State) :=
  let due := sleepOver (teamClk s team)
  occur (waitsAt s team pc due) (fun s => onTeam s team (wakeTeam fun w => if due w then some none else none)) s

/-- A PROMW whose deadline has come: its barrier stays armed. The cycle of the deadline is over, so that a completion in it has won
(07 R127). -/
def promwOver (now : Nat) : Wait → Bool
  | .promw _ _ d _ => d < now
  | _ => false

def execPromwDeadline (team pc : Nat) (s : State) :=
  let due := promwOver (teamClk s team)
  occur (waitsAt s team pc due) (fun s => onTeam s team (wakeTeam fun w => if due w then some (some 3) else none)) s

end Sys2Proof.Machine
end

