-- ==== Sys2Proof/Machine/EngineEvents.lean ====
section
/-! DEFINITION. The events of the engines (18 R297 to R308) and of the claim plane (08 R170 to R174, 16 R285 to R288), and the
reading of spent tickets (17 R294). -/

namespace Sys2Proof.Machine

/-! ## The matrix engines (18 R297 to R302) -/

def execMatrixGrant (cluster' : Nat) (s : State) :=
  occur (grantMat s cluster').isSome (fun s => (grantMat s cluster').getD s) s

/-- The running operation that has come to its end. -/
def MatStage.over (now : Nat) : MatStage → Bool
  | .running t => t ≤ now
  | _ => false

/-- An MMA of a cluster that is complete. -/
def matOver (s : State) (cl : Nat) : Option MatOp := s.mats.find? fun m => m.cluster = cl && !m.four && m.stage.over s.time

def execMatrixCompletion (cluster' : Nat) (s : State) :=
  occur (matOver s cluster').isSome (fun s =>
    match matOver s cluster' with
    | some m => finishMats s [m]
    | none => s) s

/-- The members of a set that all four engines of a hitch have granted. -/
def setJoined (s : State) (hitch c opid : Nat) : List MatOp :=
  match s.mats.find? fun m => m.four && m.cluster / 4 = hitch && teamComp m.team = c && m.opid = opid && m.stage = .joined with
  | some m => (fourSet s m).filter fun x => x.stage = .joined
  | none => []

def execFourInHandGrant (hitch comp' opid : Nat) (s : State) :=
  occur ((setJoined s hitch comp' opid).length = 4) (fun s => startSet s (setJoined s hitch comp' opid)) s

/-- A member of a set runs. -/
def MatStage.isRunning : MatStage → Bool
  | .running _ => true
  | _ => false

/-- The members of the running set of a hitch, in the order of their places. -/
def setRunning (s : State) (hitch : Nat) : List MatOp :=
  match s.mats.find? fun m => m.four && m.cluster / 4 = hitch && m.stage.isRunning with
  | some m => fourSet s m
  | none => []

def execFourInHandCompletion (hitch : Nat) (s : State) :=
  occur ((setRunning s hitch).length = 4 && (setRunning s hitch).all fun m => m.stage.over s.time)
    (fun s => finishMats s (setRunning s hitch)) s

/-- A tile read of an operation cannot be corrected (18 R299, 12 R244): the operation stops, and its compartment halts. -/
def loseTile (s : State) (l : List MatOp) : State :=
  match l with
  | [] => s
  | m :: _ =>
    let c := teamComp m.team
    let where' := (((crew? s (crewOf m.team)).bind (·.core)).getD (4 * m.cluster)) + 2 ^ 10 * (m.cluster / 8)
    let s := pushHeq s (image 32 [⟨0, 1, 8⟩, ⟨1, 1, c⟩, ⟨2, 1, 8⟩, ⟨3, 1, 2⟩, ⟨4, 4, where'⟩, ⟨0x10, 4, s.heq.cecount⟩])
    let s := l.foldl countPasses s
    let s := { s with mats := s.mats.filter fun x => !l.any fun y => y.id = x.id }
    haltLost s c 0

def execHarnessError (hitch : Nat) (s : State) :=
  occur (setRunning s hitch ≠ []) (fun s => loseTile s (setRunning s hitch)) s

/-! ## The copy engines (18 R303 to R308) -/

/-- A command in the queue can take its locks. -/
def acceptable (s : State) (x : Copy) : Bool := x.stage.queueSince.isSome && !x.accepted && lockRoom s x.cluster

def execCopyAccept (cmd : Nat) (s : State) :=
  occur ((copy? s cmd).any (acceptable s)) (fun s =>
    match copy? s cmd with
    | some x => replyCopy s (acceptCopy s x)
    | none => s) s

/-- A command is the oldest of its cluster that can start. -/
def starts (s : State) (x : Copy) : Bool :=
  canStart s x && s.copies.all fun y => y.cluster ≠ x.cluster || x.id ≤ y.id || !canStart s y

def execCopyStart (cmd : Nat) (s : State) :=
  occur ((copy? s cmd).any (starts s)) (fun s =>
    match copy? s cmd with
    | some x => startCopy s x
    | none => s) s

/-- A running command performs what it can, and ends if that is all. -/
def completeCopy (s : State) (x : Copy) : State :=
  if x.bad.isSome then s
  else
    let (s, x) := runCopy s x
    if x.over && canArrive s x then endCopy s x 0 0 else s

def execCopyCompletion (cmd : Nat) (s : State) :=
  occur ((copy? s cmd).any fun x => x.stage.isRunning) (fun s =>
    match copy? s cmd with
    | some x => completeCopy s x
    | none => s) s

/-- A running command whose next element faults stops there. -/
def stopCopy (s : State) (x : Copy) : State :=
  let y := if x.bad.isSome then (s, x) else runCopy s x
  if y.2.bad.isSome then faultCopy y.1 y.2 else s

def execCopyFault (cmd : Nat) (s : State) :=
  occur ((copy? s cmd).any fun x => x.stage.isRunning) (fun s =>
    match copy? s cmd with
    | some x => stopCopy s x
    | none => s) s

/-! ## The claim plane (16 R285 to R288) -/

/-- The message of the planes that an event is. -/
def onPlane (s : State) (e : Instr) : Bool := s.plane.any fun m => m.event = e

/-- A message leaves the planes as it arrives. -/
def takePlane (s : State) (e : Instr) : State :=
  match s.plane.find? fun m => m.event = e with
  | some m => { s with plane := s.plane.erase m }
  | none => s

/-- A message of the planes arrives, or one from another coach of the train does. -/
def arrives (s : State) (e : Instr) (far : Bool) (f : State → State) : Host.Outcome State Fault Refusal :=
  occur (onPlane s e || (far && s.trainEn)) (fun s => f (takePlane s e)) s

def execClaimAnnouncement (core' : Nat) (a : Announcement) (s : State) :=
  arrives s (.claimAnnouncement core' a) (a.fromCoach ≠ s.coach) fun s => hearAnnouncement s core' a

def execObjectionArrival (core' : Nat) (o : Objection) (s : State) :=
  arrives s (.objectionArrival core' o) (o.unheard || 2 ^ 40 ≤ o.team) fun s => hearObjection s core' o

def execObjectionAnswer (team : Nat) (proposal : BitVec 32) (late : Bool) (s : State) :=
  arrives s (.objectionAnswer team proposal late) true fun s => hearAnswer s team proposal late

/-- A proposal whose window has closed is still to resolve. -/
def windowDue (s : State) (k h : Nat) : Option Proposal :=
  (Tab.get? (core s k).outgoing h).filter fun p => p.isOpen && p.close ≤ beat s

def execClaimWindowClose (core' handle : Nat) (s : State) :=
  occur (windowDue s core' handle).isSome (fun s =>
    match windowDue s core' handle with
    | some p => closeWindow s core' handle p
    | none => s) s

/-- A change of membership that another coach asks for waits for the groups' windows. -/
def pendMember (s : State) (c : Nat) (u : Membership) : State :=
  onGroup s c u.group fun x => if x.pending.isNone then { x with pending := some u, since := beat s } else x

/-- A change is pending in a compartment. -/
def memberPending (s : State) (c : Nat) (u : Membership) : Bool :=
  (compCores s c).any fun k => (groupOf s k u.group).pending = some u

def execMembershipUpdate (comp' : Nat) (u : Membership) (s : State) :=
  occur (memberPending s comp' u || (s.trainEn && 2 ^ 40 ≤ u.team)) (fun s =>
    if u.effective || (u.team < 2 ^ 40 && groupQuiet s comp' u.group) then memberChange s comp' u
    else pendMember s comp' u) s

/-! ## Tickets (17 R294) -/

/-- A region's tickets are to be read. -/
def pollDue (s : State) (c rk : Nat) : Bool :=
  (region? s rk).any fun r => r.comp = c && r.tickets ≠ [] && r.polledAt + 65536 ≤ s.time

/-- A ticket at a peer or the host is asked for at its home by a request's number; none while that cannot be. -/
def sendAsk (s : State) (c id : Nat) (t : Nat × Nat) : Option State :=
  match paClass s t.1 with
  | .peer coach => askRemote s (c * 2 ^ 24) coach (askTag id 32) (t.1 % 2 ^ 44) 8 none true
  | .host => some { s with out := s.out ++ [.hostRead (askTag id 32) (t.1 - 0x8000000000000) 8 none false] }
  | _ => none

/-- A ticket of a region is asked for. -/
def askTicket (s : State) (c rk : Nat) (t : Nat × Nat) : State :=
  match sendAsk { s with nextId := s.nextId + 1 } c s.nextId t with
  | some u => onRegion u rk fun r => { r with asked := (r.asked.filter fun a => a.2 ≠ t) ++ [(s.nextId, t)] }
  | none => s

/-- A ticket of this device has been spent elsewhere (17 R294). DEDUCED (log 102): what is still pending under it was under a TDISC, since
a RESUME there would have waited for it (16 R292), and is cancelled. -/
def ticketSpent (s : State) (c : Nat) (t : Nat × Nat) : State := cancelPending (spendTicket s c t.1 t.2) c t.1 t.2

/-- The tickets of a region are read at their homes. -/
def pollTickets (s : State) (c rk : Nat) : State :=
  let ts := ((region? s rk).map (·.tickets)).getD []
  let s := onRegion s rk fun r => { r with polledAt := s.time }
  ts.foldl (fun s t =>
    if localClass t.1 = .none then askTicket s c rk t
    else if homeLe s (compKey s c) t.1 8 ≠ liveTicket t.2 then ticketSpent s c t else s) s

def execTicketPoll (comp' region : Nat) (s : State) :=
  occur (pollDue s comp' region) (fun s => pollTickets s comp' region) s

/-- The value of a ticket comes from its home: one that is no longer live is subtracted from its region's count. -/
def hearTicket (s : State) (id cause : Nat) (b : List Byte) : State :=
  let hit (r : Nat × Region) : Option (Nat × Nat × Nat × Nat) :=
    (r.2.asked.find? fun a => a.1 = id).map fun a => (r.1, r.2.comp, a.2)
  match s.regions.findSome? hit with
  | some (rk, c, t) =>
    let s := onRegion s rk fun r => { r with asked := r.asked.filter fun a => a.1 ≠ id }
    if cause = 0 && Bits.ofLe (b.take 8) ≠ liveTicket t.2 then ticketSpent s c t else s
  | none => s

end Sys2Proof.Machine
end

