-- ==== Sys2Proof/Machine/FabricEvents.lean ====
section
/-! DEFINITION. The events of the fabric (21 R313 to R323, 11 R214 to R217): the train and its links, what arrives over them, and
the register writes of links, bounds and engines. -/

namespace Sys2Proof.Machine

/-! ## Frozen items of an interface (22 R339) -/

/-- An interface is CONFIG_LOCKED or in RUN. -/
def frozen (s : State) (c : Nat) : Bool := (comp s c).tdi = .locked || (comp s c).tdi = .run

/-- An interface goes to ERROR: its compartment halts in place (22 R338). -/
def tdiError (s : State) (c : Nat) : State :=
  let s := setComp s c { comp s c with tdi := .error }
  if (comp s c).desc.state = 1 || (comp s c).desc.state = 2 || (comp s c).desc.state = 3 then
    (s.regions.filter fun r => r.2.comp = c).foldl (fun s r => setRegionState s r.1 4)
      (setComp s c { comp s c with desc := { (comp s c).desc with state := 4 }, messages := [] })
  else s

/-- A write to a frozen item of some compartments is discarded, and their interfaces go to ERROR. -/
def unlessFrozen (s : State) (cs : List Nat) (f : State → State) : State :=
  match cs.filter (frozen s) with
  | [] => f s
  | l => l.foldl tdiError s

/-! ## Routes after a change (21 R314, R318, R321) -/

/-- The other end of a link of this coach. -/
def farEnd (s : State) (l : Nat) : Nat := (s.coach + 1 + l) % 16

/-- A path to a coach uses a link: directly, or through a relay over either of its links. -/
def pathUses (s : State) (coach : Nat) (relay : Option Nat) (l : Nat) : Bool :=
  match relay with
  | none => linkOf s coach = l
  | some r => linkOf s r = l || farLink r coach = l

/-- Coaches of the train other than this one. -/
def peers (s : State) : List Nat := (List.range s.trainSize).filter fun t => t ≠ s.coach

/-- The times since which no route exists follow the links; a coach that has one again is reachable. -/
def watchRoutes (s : State) : State :=
  (peers s).foldl (fun s t =>
    if routeTo s t = .none then
      (if (Tab.get? s.reach t).isNone then { s with reach := Tab.put s.reach t (s.time + 1) } else s)
    else { s with reach := Tab.del s.reach t }) s

/-- The physical address of an access of a request, within its line. -/
def Req.paAt (r : Req) (va : Nat) : Nat := r.pa.getD 0 / 64 * 64 + va % 64

/-- The lanes of an atomic ask a coach again; none once one of them cannot. -/
def askLanes (t : Nat) (r : Req) : State → List Acc → Option State
  | s, [] => some s
  | s, a :: l =>
    match askRemote s r.team t (r.tag a.lane) (r.paAt a.va % 2 ^ 44) a.size (some (r.code, Tab.getD r.opnds a.lane [])) r.rlx with
    | some s => askLanes t r s l
    | none => none

/-- A request asks a coach again, over the route that holds now. -/
def sendAgain (s : State) (t : Nat) (r : Req) : Option State :=
  (if r.act = 2 then askLanes t r s r.accs
   else askRemote s r.team t (r.tag 32) (r.paAt r.va % 2 ^ 44) (if r.cls = 3 then 4 else r.end' - r.va) none r.rlx).map fun u =>
    putReq u { r with stage := .away r.id, since := s.time, via := routeRelay s t }

/-- A read or an atomic on its way is to be sent again under a new tag (21 R317): it stands in the injection queue until a path
takes it. -/
def callBack (s : State) (r : Req) : State :=
  putReq s { r with tries := r.tries + 1, stage := .queue 5, since := s.time, sinceClk := clk s r.core }

/-- A recalled request is sent again. -/
def askAgain (s : State) (x : Nat × Nat) : State :=
  match req? s x.1 with
  | some r => (sendAgain s x.2 r).getD s
  | none => s

/-- A command asks again for what it has asked on some roads and has not come. -/
def Copy.recalled (x : Copy) (lost : Nat × Nat × Option Nat × Nat → Bool) : Copy :=
  let ls := x.pendingRoads.filter lost
  if ls = [] then x
  else { x with asked := x.asked.filter fun n => !ls.any fun p => p.1 = n
                roads := x.roads.filter fun p => !ls.contains p
                tries := x.tries + 1 }

/-- What is kept back goes out once it may: answers, writes that are to be sent again, and writes that waited (21 R318, R320). -/
def flushFabric (s : State) : State :=
  let s := flushAnswers s
  let s := s.streams.foldl resendStream s
  s.streams.foldl (fun s x => flushWaiting s x.team x.coach) s

/-- What follows a change of the links: unreachable times, resent writes, and writes that may go on. -/
def reroute (s : State) : State := flushFabric (retestClaims (watchRoutes s))

/-! ## The train and its links (21 R313 to R316) -/

/-- The links of this coach that join it to coaches of the train. -/
def usedLinks (s : State) : List Nat := (List.range 15).filter fun l => farEnd s l < s.trainSize

/-- 1 ms of the Postmaster's counter (21 R314). -/
def retrainTime : Nat := 2100000

/-- Nothing is queued or outstanding on a sub-link of a link, which a compartment owns (21 R316). -/
def subEmpty (s : State) (l q c : Nat) : Bool :=
  let t := farEnd s l
  let on (key : Nat) : Bool := teamComp key = c && subFor s key t = some q
  (s.streams.all fun x => x.coach ≠ t || !on x.team || (x.unacked = [] && x.waiting = [])) &&
  (s.dedup.all fun d => d.coach ≠ t || d.owner ≠ c || d.sub ≠ q) &&
  (s.answers.all fun a => a.1 ≠ c || a.2.1 ≠ t || answerSub s c t ≠ some q) &&
  (s.copies.all fun x => !on x.via || x.pendingRoads.all fun p => p.2.1 ≠ t) &&
  s.reqs.all fun r => !on r.team || (r.awayTo s ≠ some t && !(r.stage = .queue 5 && queueInst s r 5 = fiqInst l q))

/-- The owners of a link's sub-links that a setting names. -/
def ownersOf (split : Bool) (valid : Nat) (own : Nat → Nat) : List (Nat × Nat) :=
  ((List.range (if split then 4 else 1)).filter fun q => valid.testBit q).map fun q => (q, own q)

/-- A write to LINKCFG (21 R316): the sub-links that it takes from their owners have nothing queued or outstanding, or it is
discarded. -/
def writeLinkcfg (s : State) (l v : Nat) : State :=
  let split : Bool := v.testBit 0
  let valid := v / 2 ^ 20 % 16
  let own (q : Nat) : Nat := v / 2 ^ (4 + 4 * q) % 16
  let x := link s l
  if 15 ≤ l || v / 2 % 8 ≠ 0 || v / 2 ^ 24 ≠ 0 then s
  else
    let old := ownersOf x.split x.valid fun q => Tab.getD x.own q 0
    let new' := ownersOf split valid own
    let affected := if x.split = split then old.filter fun o => !new'.contains o else old
    if affected.any fun o => !subEmpty s l o.1 o.2 then s
    else
      let changed := (old.filter fun o => !new'.contains o) ++ new'.filter fun o => !old.contains o
      unlessFrozen s (distinct (changed.map (·.2))) fun s =>
        setLink s l { link s l with
          split := split, valid := valid, own := (List.range 4).map fun q => (q, own q) }

def execLinkcfg (link : Nat) (v : BitVec 32) (s : State) := occur s.powered (fun s => writeLinkcfg s link v.toNat) s

/-- A write to a BOUND register (13 R249): one with reserved bits set is discarded. -/
def execBound (deck kind : Nat) (v : BitVec 32) (s : State) :=
  occur (s.powered && deck < 2 && kind < 8 && v.toNat < 2 ^ 13) (fun s =>
    { s with bounds := Tab.put s.bounds (8 * deck + kind) (max 64 (min 4096 v.toNat)) }) s

/-- A write to ENGERR clears the flags it names (18 R309): one with reserved bits set is discarded. -/
def execEngerr (cluster' : Nat) (v : BitVec 32) (s : State) :=
  occur (s.powered && cluster' < 16 && v.toNat < 16) (fun s =>
    clearEngerr s cluster' v.toNat) s

/-- A link goes down: what was on its way over it is sent again over the route that holds then (21 R314, R317, R318). -/
def takeDown (s : State) (l : Nat) : State :=
  let lost (t : Nat) (relay : Option Nat) : Bool := pathUses s t relay l
  let asks := s.reqs.filterMap fun r => (r.awayTo s).bind fun t => if lost t r.via then some (r, t) else none
  -- refusals that may have been lost on it go out again, before any later acknowledgement (21 R322)
  let again := s.dedup.flatMap fun d =>
    if lost d.coach (routeRelay s d.coach) then d.refused.map fun q => (d.owner, d.coach, FabMsg.refusal d.stream s.coach (.seq q) .access)
    else []
  let x := link s l
  let s := { s with streams := s.streams.map fun y =>
    if y.unacked ≠ [] && lost y.coach y.relay then { y with cut := true } else y }
  let s := setLink s l { x with up := false, downs := (x.downs + 1) % 2 ^ 16, retrainAt := some (s.time + retrainTime),
                                buffer := [], resends := 0, asked := none, unreturned := [], owedCr := [] }
  let s := (asks.map (·.1)).foldl callBack { s with
    answers := again ++ s.answers
    copies := s.copies.map fun (x : Copy) => x.recalled fun p => lost p.2.1 p.2.2.1 }
  (asks.map fun a => (a.1.id, a.2)).foldl askAgain (reroute s)

def execLinkDown (link : Nat) (s : State) := occur (linkUp s link) (fun s => takeDown s link) s

/-- A link of the train: one of this coach, or one between two others. -/
def trainLink (s : State) (l : Nat) : Bool :=
  s.trainEn && (if l < 15 then farEnd s l < s.trainSize else 16 ≤ l && l / 16 - 1 + l % 16 + 1 < s.trainSize)

def execLinkUp (link' : Nat) (s : State) :=
  occur (trainLink s link' && !linkUp s link') (fun s =>
    reroute (setLink s link' { link s link' with
      up := true, txSeq := 0, rxSeq := 0, buffer := [], resends := 0, asked := none, unreturned := [], owedCr := [],
      retrainAt := none })) s

/-- A down link's training is due. -/
def retrainDue (s : State) (l : Nat) : Bool := !linkUp s l && (link s l).retrainAt.any fun t => t ≤ s.time

/-- A training attempt: link management declares the link up if it succeeds. -/
def execLinkRetrain (link' : Nat) (s : State) :=
  occur (s.trainEn && retrainDue s link') (fun s =>
    setLink s link' { link s link' with retrainAt := some (s.time + retrainTime) }) s

/-- The sender resends the flits from one onward (21 R315): the eighth resend of the same flit takes the link down. -/
def resend (s : State) (l lseq : Nat) : State :=
  let x := link s l
  let fs := x.buffer.dropWhile fun f => f.lseq.toNat ≠ lseq
  let n := if x.asked = some lseq then x.resends + 1 else 1
  if 8 < n then takeDown s l
  else
    let s := setLink s l { x with retries := (x.retries + fs.length) % 2 ^ 32, asked := some lseq, resends := n }
    { s with out := s.out ++ [.resend l fs] }

def execRetryRequest (link lseq : Nat) (s : State) := occur (linkUp s link) (fun s => resend s link lseq) s

/-! ## Remote accesses at their target (21 R320, R322) -/

/-- Bytes lie in the export ranges of a compartment that serves its peers. -/
def exported (s : State) (c : Nat) (as : List Nat) : Bool :=
  let x := comp s c
  x.desc.state ≠ 0 && x.desc.state ≠ 5 && as.all fun a => localClass a ≠ .none && x.exports.any fun e => e.2.1 ≤ a && a < e.2.2

/-- The number of bytes below a value's first clear bit. -/
def lowOnes : Nat → Nat → Nat
  | 0, _ => 0
  | f + 1, n => if n % 2 = 1 then lowOnes f (n / 2) + 1 else 0

/-- A sequence is performed: `base` is the first one not performed, and bit i of the bitmap is that of base + i. -/
def Dedup.mark (d : Dedup) (q : Nat) : Dedup :=
  let m := Nat.lor d.map (2 ^ (q - d.base))
  let n := lowOnes 1025 m
  { d with base := d.base + n, map := m / 2 ^ n }

/-- A sequence below the first that arrived has not been performed: an earlier copy was refused for want of state, since state is
given up only once everything has been acknowledged (21 R320). The base goes down to it. -/
def Dedup.lower (d : Dedup) (q : Nat) : Dedup :=
  if q < d.low then
    { d with base := q, low := q, map := (2 ^ (d.base - d.low) - 1) * 2 ^ (d.low - q) + d.map * 2 ^ (d.base - q) }
  else d

/-- The target's state of a stream, which its first message takes, on the sub-link that brings it (21 R320). -/
def dedupOf (s : State) (stream coach owner : Nat) (sub : Option Nat) : Option Dedup :=
  match s.dedup.find? fun d => d.stream = stream && d.coach = coach with
  | some d => some { d with sub := sub.getD d.sub }
  | none =>
    if 4096 ≤ s.dedup.length then none
    else some { stream := stream, coach := coach, owner := owner, base := 0, map := 0, low := 0, begun := false, sub := sub.getD 0 }

/-- A write arrives: its sequences begin at the first that does (log 63). -/
def Dedup.begin (d : Dedup) (q : Nat) : Dedup :=
  if d.begun then d.lower q else { d with base := q, low := q, map := 0, begun := true }

def putDedup (s : State) (d : Dedup) : State :=
  { s with dedup := s.dedup.filter (fun x => !(x.stream = d.stream && x.coach = d.coach)) ++ [d] }

/-- The bytes of a write's line that its mask marks. -/
def writeBytes (m : RemoteWrite) : List (Nat × Byte) :=
  (List.range 64).filterMap fun i => if m.mask.getLsbD i then some (i, m.data.getD i 0) else none

/-- A posted write or reduction is performed at its home. -/
def performRemote (s : State) (m : RemoteWrite) : State :=
  let key := compKey s m.owner
  let line := m.addr / 64 * 64
  (byteRuns (writeBytes m)).foldl (fun s x =>
    let pa := line + x.1
    match m.red with
    | none => writeProg s key pa x.2
    | some op =>
      if homeFails s pa 4 then reportUncorr s m.owner pa 3
      else writeProg s key pa (Bits.leBytes 4 (atomNew op (homeLe s key pa 4) (Bits.ofLe (x.2.take 4)) 0))) s

/-- A posted write arrives: performed once, discarded as a duplicate, or refused; one that was refused with ACCESS is refused again. -/
def hearWrite (s : State) (m : RemoteWrite) (sub : Option Nat) : State :=
  let c := m.owner
  let refuse (s : State) (why : RefuseReason) : State := sendBack s c m.coach (.refusal m.stream s.coach (.seq m.seq) why)
  match dedupOf s m.stream m.coach c sub with
  | none => refuse s .full
  | some d =>
    let d := d.begin m.seq
    let ack (s : State) (d : Dedup) : State := sendBack s c m.coach (.ack m.stream s.coach d.base)
    if m.seq < d.base || d.map.testBit (m.seq - d.base) then
      if d.refused.contains m.seq then refuse (putDedup s d) .access else ack (putDedup s d) d
    else
      let d := d.mark m.seq
      let d := { d with refused := d.refused.filter fun q => d.base ≤ q + 1024 }
      if exported s c ((writeBytes m).map fun b => m.addr / 64 * 64 + b.1) then ack (putDedup (performRemote s m) d) d
      else refuse (putDedup s { d with refused := d.refused ++ [m.seq] }) .access

def execPostedWrite (m : RemoteWrite) (s : State) := occur s.trainEn (fun s => hearWrite s m none) s

/-- A read or an atomic of a stream that has its state arrives: it is performed at its home and answered, or refused. -/
def performRead (s : State) (m : RemoteRead) : State :=
  let c := m.owner
  let key := compKey s c
  let reply (s : State) (st : ReplyStatus) (b : List Byte) : State := sendBack s c m.coach (.reply m.tag st b)
  if !exported s c ((List.range m.size).map fun i => m.addr + i) || m.op.any (fun o => o.1 = 17) then
    sendBack s c m.coach (.refusal m.stream s.coach (.tag m.tag) .access)
  else if homeFails s m.addr m.size then reply (reportUncorr s c m.addr 3) .dataUncorr []
  else
    let old := homeBytes s key m.addr m.size
    match m.op with
    | none => reply s .ok old
    | some (op, ws) =>
      let (x, cmp) := atomOperands op ws
      reply (writeProg s key m.addr (Bits.leBytes m.size (atomNew op (Bits.ofLe old) x cmp))) .ok old

/-- A read or an atomic arrives: it is refused with FULL where there is no state for its stream (21 R320). -/
def hearRead (s : State) (m : RemoteRead) (sub : Option Nat) : State :=
  match dedupOf s m.stream m.coach m.owner sub with
  | none => sendBack s m.owner m.coach (.refusal m.stream s.coach (.tag m.tag) .full)
  | some d => performRead (putDedup s d) m

def execReadRequest (m : RemoteRead) (s : State) := occur s.trainEn (fun s => hearRead s m none) s

/-- A retire releases the state of a stream of a coach. -/
def hearRetire (s : State) (stream coach : Nat) : State :=
  { s with dedup := s.dedup.filter fun d => !(d.stream = stream && d.coach = coach) }

def execStreamRetire (stream coach : Nat) (s : State) := occur s.trainEn (fun s => hearRetire s stream coach) s

/-! ## Answers at their source (21 R317, R320 to R323) -/

/-- A request has been answered for good. -/
def closeReq (s : State) (r : Req) : State := feedTeam (finishOp (dropReq s r.id) r.op) r.team

/-- The trap cause of a reply that brings no data. -/
def statusCause : ReplyStatus → Nat
  | .ok => 0
  | .access => 7
  | .dataUncorr => 0x17
  | .unreachable => 0x18

/-- The WAITC of a poll. -/
def pollWaits (r : Req) (w : Wait) : Bool :=
  match w with
  | .monitor a .. => a = r.va
  | _ => false

/-- A polled word comes (08 R162, log 33): the condition wakes its WAITC, an acquire, or the word is asked for again. -/
def hearPoll (s : State) (r : Req) (cause : Nat) (b : List Byte) : State :=
  let waits (w : Wait) : Bool := pollWaits r w
  let hit (w : Wait) : Option (Option Word) := match w with
    | .monitor a _ _ v m ctl _ _ =>
      if a = r.va && monitorHolds v m ctl (BitVec.ofNat 32 (Bits.ofLe b)) then some (some 0) else none
    | _ => none
  match team? s r.team with
  | none => closeReq s r
  | some t =>
    if cause ≠ 0 then
      wakeTrap (closeReq s r) r.team (fun w => if waits w then some none else none) fun pc =>
        { cause := cause, tpc := pc, faddr := r.va }
    else if !waitsOn waits t then closeReq s r
    else if waitsOn (fun w => (hit w).isSome) t then
      let s := acquireAt (closeReq s r) (holdingCore s r.team t) 5
      onTeam s r.team (wakeTeam hit)
    else
      let r := { r with stage := .queue 0, since := s.time, sinceClk := clk s r.core, tries := r.tries + 1 }
      if queueRoom s r 0 then advanceReq (putReq s r) r.id .clean else bounceReq s r 2

/-- The data of a line come to a load. -/
def hearLine (s : State) (r : Req) (b : List Byte) : State :=
  closeReq (r.accs.foldl (fun s a => keepGot s r a.lane (Bits.ofLe ((b.drop (a.va - r.va)).take a.size))) s) r

/-- The old value of a lane's atomic comes: the request is over with its last lane. -/
def hearLane (s : State) (r : Req) (lane cause : Nat) (b : List Byte) : State :=
  let va := ((r.accs.find? fun a => a.lane = lane).map (·.va)).getD r.va
  let s := if cause = 0 then keepGot s r lane (Bits.ofLe b) else keepBad s r.op cause lane va
  let rest := r.accs.filter fun a => a.lane ≠ lane
  if rest = [] then closeReq s r else putReq s { r with accs := rest }

/-- A reply for a copy command: its data, or why there are none. -/
def hearCopy (s : State) (x : Copy) (slot cause : Nat) (b : List Byte) : State :=
  if cause = 0 then putCopy s { x with have' := Tab.put x.have' slot b }
  else
    let idx := match engIndex s x with
      | (_, _, .bytes i) => Bits.ofLe i
      | _ => 0
    let why := if cause = 7 then 2 else if cause = 0x17 then 4 else 5
    putCopy s (match slot % 4 with
      | 0 => x.fails why false (x.srcAt idx)
      | 1 => x.fails why false (x.aux + 4 * x.next)
      | _ => if x.stage.isRunning then x.fails why true (x.dstAt idx) else x.fails why false x.aux)

/-- A reply arrives for what was asked under its tag. -/
def hearReply (s : State) (tag : Nat) (st : ReplyStatus) (b : List Byte) : State :=
  let id := tag % 2 ^ 40 / 64
  let lane := tag % 64
  let cause := statusCause st
  match req? s id with
  | some r =>
    if r.tries ≠ tag / 2 ^ 40 || !(match r.stage with | .away _ => true | _ => false) then s
    else if r.cls = 3 then hearPoll s r cause b
    else if lane < 32 then hearLane s r lane cause b
    else if cause = 0 then hearLine s r b
    else closeReq (keepBad s r.op cause (((lanesOf r.lanes).head?).getD 0) r.va) r
  | none =>
    match copy? s id with
    | some x =>
      let mine : Bool := match x.roads.find? fun p => p.1 = lane with
        | some (_, _, _, n) => tag / 2 ^ 40 = x.next + 2 ^ 32 * n
        | none => tag / 2 ^ 40 % 2 ^ 32 = x.next
      if mine && x.asked.contains lane then hearCopy s x lane cause b else s
    | none => hearTicket s id cause b

def execRemoteLoadReply (tag : Nat) (status : ReplyStatus) (data : List (BitVec 8)) (s : State) :=
  occur true (fun s => hearReply s tag status data) s

/-- Writes of a stream towards a coach have been performed: copy commands and effect writes among them go on (11 R219, R222). -/
def settleWrites (s : State) (key coach : Nat) (done : Nat → Bool) : State :=
  let s := { s with copies := s.copies.map fun (x : Copy) =>
    if x.via = key then { x with unacked := x.unacked.filter fun u => !(u.1 = coach && done u.2) } else x }
  (s.cores.flatMap fun k => (k.2.outgoing.filter fun p => p.2.team = key && p.2.effect.any fun e => e.1 = coach && done e.2).map
    fun p => (k.1, p.1, p.2)).foldl (fun s x => recordOutcome s x.1 x.2.1 x.2.2 0) s

/-- An acknowledgement: everything below a sequence has been performed (21 R320). -/
def hearAck (s : State) (stream coach below : Nat) : State :=
  let key := streamTeam stream
  if !s.streams.any fun x => x.team = key && x.coach = coach then s
  else
    let x := subStream s key coach
    let n := (x.unacked.filter fun w => w.seq < below).length
    let s := setSubStream s { x with
      unacked := x.unacked.filter fun w => below ≤ w.seq
      relaxed := x.relaxed.filter fun q => below ≤ q
      origin := x.origin.filter fun o => below ≤ o.1
      idleSince := s.time }
    let s := onTeam s key fun t => { t with outst := t.outst - n }
    flushWaiting (settleWrites s key coach fun q => q < below) key coach

def execAcknowledgement (stream coach below : Nat) (s : State) :=
  occur s.trainEn (fun s => hearAck s stream coach below) s

/-- A write of a copy command has been lost: it stops with WHY 5 at that element (11 R219). -/
def loseElement (s : State) (x : Copy) : Copy :=
  if x.kind = 3 && x.rung then { x.fails 5 true x.aux with unacked := [] }
  else
    let y := { x with next := x.next - 1 }
    let idx := match engIndex s y with
      | (_, _, .bytes i) => Bits.ofLe i
      | _ => 0
    { y.fails 5 true (y.dstAt idx) with unacked := [] }

/-- Writes of a stream towards a coach have been lost: the commands whose elements they were stop, and the outcomes of effect
writes are recorded (11 R216, R219, R222). -/
def loseSome (s : State) (key coach : Nat) (lost : Nat → Bool) : State :=
  let s := { s with copies := s.copies.map fun x =>
    if x.via = key && x.unacked.any fun u => u.1 = coach && lost u.2 then loseElement s x else x }
  settleWrites s key coach lost

/-- A write that was refused for want of state goes back to its request, which bounces with cause PEER; its instruction has it
outstanding again (21 R320). -/
def bounceWrite (s : State) (r : Req) (o : MemOp) : State :=
  let s := if (op? s o.id).isSome then s
    else { s with ops := s.ops.takeWhile (fun p => p.id < o.id) ++ o :: s.ops.dropWhile fun p => p.id < o.id }
  match req? s r.id with
  | some q => bounceReq s { q with accs := q.accs ++ r.accs, seqs := q.seqs ++ r.seqs } 7
  | none => bounceReq { s with reqs := s.reqs.takeWhile (fun q => q.id < r.id) ++ r :: s.reqs.dropWhile fun q => q.id < r.id } r 7

/-- A write is refused for want of state: it bounces as its request did, or, where it is no request of the team's, is sent again after
the backoff of 13 R256 (21 R320, log 64). -/
def fullWrite (s : State) (key : Nat) (x : SubStream) (w : RemoteWrite) : State :=
  let rest := x.unacked.filter fun v => v.seq ≠ w.seq
  match x.origin.find? fun o => o.1 = w.seq with
  | some (_, r, o) =>
    if (team? s key).any (fun t => t.live ≠ 0) then
      let s := setSubStream s { x with unacked := rest, origin := x.origin.filter fun o => o.1 ≠ w.seq, idleSince := s.time }
      bounceWrite (onTeam s key fun t => { t with outst := t.outst - 1 }) r o
    else setSubStream s { x with unacked := rest, waiting := inSequence w x.waiting, backoff := clk s r.core + 2048, backoffCore := r.core }
  | none =>
    let k := ((team? s key).map (holdingCore s key)).getD 0
    setSubStream s { x with unacked := rest, waiting := inSequence w x.waiting, backoff := clk s k + 2048, backoffCore := k }

/-- A read or a lane's atomic is refused for want of state: it bounces with cause PEER (21 R320); a command and a ticket ask again. -/
def fullRead (s : State) (tag : Nat) : State :=
  let id := tag % 2 ^ 40 / 64
  let lane := tag % 64
  match req? s id with
  | some r =>
    if r.tries ≠ tag / 2 ^ 40 || !r.isAway then s
    else
      let mine := r.accs.filter fun a => a.lane = lane
      if 32 ≤ lane || mine.length = r.accs.length then bounceReq s { r with tries := r.tries + 1 } 7
      else
        let (n, s) := fresh s
        let s := putReq s { r with accs := r.accs.filter fun a => a.lane ≠ lane }
        let back := { r with id := n, accs := mine }
        bounceReq { s with reqs := s.reqs ++ [back] } back 7
  | none =>
    match copy? s id with
    | some x => putCopy s (x.recalled fun p => p.1 = lane && tag / 2 ^ 40 = x.next + 2 ^ 32 * p.2.2.2)
    | none => { s with regions := s.regions.map fun r => (r.1, { r.2 with asked := r.2.asked.filter fun a => a.1 ≠ id }) }

/-- A refusal arrives: for want of state (21 R320), or of what lies outside the exported memory (21 R322): such a write is lost. -/
def hearRefusal (s : State) (stream coach : Nat) (what : Refused) (reason : RefuseReason) : State :=
  let key := streamTeam stream
  match what, reason with
  | .tag t, .full => fullRead s t
  | .tag t, .access => hearReply s t .access []
  | .seq q, why =>
    let x := subStream s key coach
    match x.unacked.find? fun w => w.seq = q with
    | none => s
    | some w =>
      match why with
      | .full => fullWrite s key x w
      | .access =>
        let s := setSubStream s { x with
          unacked := x.unacked.filter fun v => v.seq ≠ q, origin := x.origin.filter fun o => o.1 ≠ q, idleSince := s.time }
        flushWaiting (loseSome (loseWrites s key coach 1 q q 2 true) key coach fun p => p = q) key coach

def execRefusal (stream coach : Nat) (what : Refused) (reason : RefuseReason) (s : State) :=
  occur s.trainEn (fun s => hearRefusal s stream coach what reason) s

/-- No route to a coach has existed for 65,536 cycles. -/
def unreachableDue (s : State) (coach : Nat) : Bool :=
  match Tab.get? s.reach coach with
  | some (t + 1) => t + 65536 ≤ s.time
  | _ => false

/-- A coach becomes unreachable: every unacknowledged write towards it is lost, and what was asked of it fails (21 R321, 11
R216). -/
def declareUnreachable (s : State) (coach : Nat) : State :=
  let s := { s with reach := Tab.put s.reach coach 0, answers := s.answers.filter fun a => a.2.1 ≠ coach }
  let s := (s.streams.filter fun x => x.coach = coach).foldl (fun s x =>
    match x.unacked ++ x.waiting with
    | [] => s
    | w :: ws =>
      let hi := ws.foldl (fun n v => max n v.seq) w.seq
      let lo := ws.foldl (fun n v => min n v.seq) w.seq
      let s := setSubStream s { x with unacked := [], waiting := [], relaxed := [], origin := [], cut := false, idleSince := s.time }
      loseSome (loseWrites s x.team coach (ws.length + 1) lo hi 1 true) x.team coach fun _ => true) s
  let s := { s with copies := s.copies.map fun (x : Copy) => x.recalled fun p => p.2.1 = coach }
  (s.reqs.filter fun r => r.awayTo s = some coach).foldl (fun s r =>
    if r.cls = 3 then hearPoll s r 0x18 []
    else closeReq (keepBad s r.op 0x18 (((lanesOf r.lanes).head?).getD 0) r.va) r) s

def execUnreachable (coach : Nat) (s : State) := occur (unreachableDue s coach) (fun s => declareUnreachable s coach) s

/-- A sub-stream has nothing on its way or kept for it: writes, requests, sequences taken, and tickets that are read. -/
def subIdle (s : State) (x : SubStream) : Bool :=
  x.unacked = [] && x.waiting = [] && sentVia s x.team x.coach = [] &&
  (s.reqs.all fun r => r.team ≠ x.team || r.seqs.all fun p => p.1 ≠ x.coach) &&
  (x.team % 2 ^ 24 ≠ 0 || s.regions.all fun r => r.2.comp ≠ teamComp x.team || r.2.asked = [])

/-- A sub-stream may be retired: its team's count is zero, and it has been idle for 2^20 cycles or its team has ended. -/
def retireDue (s : State) (x : SubStream) : Bool :=
  subIdle s x &&
  match team? s x.team with
  | some t => t.outst = 0 && x.idleSince + 2 ^ 20 ≤ s.time
  | none => true

/-- The sub-streams of a stream that are retired. -/
def retireStream (s : State) (stream : Nat) : State :=
  (s.streams.filter fun x => x.team = streamTeam stream && retireDue s x).foldl (fun s x =>
    match sendMsg s x.coach (subFor s x.team x.coach) (.retire stream s.coach) with
    | some s =>
      { s with
        streams := s.streams.filter fun y => !(y.team = x.team && y.coach = x.coach)
        seqs := if (team? s x.team).isNone then Tab.del s.seqs (16 * x.team + x.coach) else s.seqs }
    | none => s) s

def execStreamIdleExpiry (stream : Nat) (s : State) :=
  occur (s.streams.any fun x => x.team = streamTeam stream && retireDue s x) (fun s => retireStream s stream) s

/-! ## The size of the train (21 R313, R321) -/

/-- The coaches that a train of a size leaves out are unreachable. -/
def leaveTrain (s : State) (size : Nat) : State := ((List.range 16).filter fun t => size ≤ t).foldl declareUnreachable s

/-- A write to TRAINCFG (21 R313): its value is measured as block 5 once EN is set (22 R337). -/
def writeTrain (s : State) (v : Nat) : State :=
  let coach := v % 16
  let size := v / 16 % 32
  let en : Bool := v.testBit 31
  if v / 2 ^ 9 % 2 ^ 22 ≠ 0 then s
  else if s.trainEn && (coach ≠ s.coach || size ≠ s.trainSize) then s
  else if en && (size < 8 || 16 < size || size ≤ coach) then s
  else if en && !s.trainEn then
    let s := { s with coach := coach, trainSize := size, trainEn := true }
    -- block 5 changes only at a package reset (22 R337)
    let s := if (Tab.get? s.sce.blocks 5).isSome then s else { s with sce := { s.sce with
      blocks := Tab.put s.sce.blocks 5 (Config.sm3 (Bits.leBytes 4 v ++ Config.firmware 5)) } }
    let s := (usedLinks s).foldl (fun s l => setLink s l { link s l with retrainAt := some (s.time + retrainTime) }) s
    leaveTrain (watchRoutes { s with reach := [] }) size
  else if en then s
  else
    let s := ((usedLinks s).filter (linkUp s)).foldl takeDown s
    { s with coach := coach, trainSize := size, trainEn := false,
             links := s.links.map fun l => (l.1, { l.2 with up := false, retrainAt := none }) }

def execTraincfg (v : BitVec 32) (s : State) := occur s.powered (fun s => writeTrain s v.toNat) s

/-! ## Flits (21 R315, R318) -/

/-- A message of a flit arrives: the compartment that a sub-link pairs with performs it (log 28). -/
def hearMsg (s : State) (owner : Option Nat) (sub : Option Nat) (m : FabMsg) : State :=
  match m with
  | .write w => hearWrite s { w with owner := owner.getD w.owner } sub
  | .read r => hearRead s { r with owner := owner.getD r.owner } sub
  | .reply tag st b => hearReply s tag st b
  | .ack stream coach below => hearAck s stream coach below
  | .refusal stream coach what reason => hearRefusal s stream coach what reason
  | .retire stream coach => hearRetire s stream coach

/-- The owner of a flit's sub-link at this end: a relayed flit's messages name their own. -/
def flitOwner (s : State) (l : Nat) (f : Flit) : Option Nat :=
  if f.relay then none
  else if (link s l).valid.testBit f.sub.toNat then some (Tab.getD (link s l).own f.sub.toNat 0) else some 16

/-- A relayed flit for another coach goes on over its direct link (21 R318). -/
def forward (s : State) (f : Flit) : State :=
  let l := linkOf s f.dest
  if linkUp s l then f.msgs.foldl (fun s m => emit s l 4 (some s.coach) f.dest m) s else s

/-- The credits that a flit returns, and the one that its own class is owed (21 R315). -/
def countCredits (s : State) (l : Nat) (f : Flit) : State :=
  let x := link s l
  let back := f.credit.zipIdx.foldl (fun t c => Tab.put t c.2 (Tab.getD t c.2 0 - c.1)) x.unreturned
  let q := if f.relay then 4 else f.sub.toNat
  setLink s l { x with unreturned := back, owedCr := if f.kind = 0 then Tab.put x.owedCr q (Tab.getD x.owedCr q 0 + 1) else x.owedCr }

/-- A flit arrives: a bad one is asked for again, and good ones are delivered in sequence, once. -/
def hearFlit (s : State) (l : Nat) (f : Flit) : State :=
  let x := link s l
  if !f.crcOk then { s with out := s.out ++ [.retry l x.rxSeq] }
  else if f.kind = 2 then resend s l f.lseq.toNat
  else if f.lseq.toNat ≠ x.rxSeq then s
  else
    let s := countCredits (setLink s l { x with rxSeq := (x.rxSeq + 1) % 4096 }) l f
    if f.kind ≠ 0 then s
    else
      emitIdle (if f.relay && f.dest ≠ s.coach then forward s f
        else f.msgs.foldl (fun s m => hearMsg s (flitOwner s l f) (if f.relay then none else some f.sub.toNat) m) s) l

def execFlit (link : Nat) (f : Flit) (s : State) := occur (linkUp s link && link < 15) (fun s => hearFlit s link f) s

end Sys2Proof.Machine
end

