-- ==== Sys2Proof/Machine/System.lean ====
section
/-! DEFINITION. The hint words (03 R47) and the system group, major 0x22 (07 R136 to R140): returns from traps, REPLAY, TLBI
(12 R240), HARVEST (R242), PARK, HALT and SCALL with the enqueue of 21 R331. -/

namespace Sys2Proof.Machine

/-! ## Hint words (03 R47, R48) -/

def execHimm (_ : BitVec 25) (s : State) := performHint s
def execHgrd (_ : BitVec 21) (s : State) := performHint s
def execHprio (_ : BitVec 21) (s : State) := performHint s
def execHrnd (_ : BitVec 21) (s : State) := performHint s
def execHscp (_ : BitVec 21) (s : State) := performHint s
def execHrlx (_ : BitVec 21) (s : State) := performHint s
def execHyld (_ : BitVec 21) (s : State) := performHint s
def execHreuse (_ : BitVec 21) (s : State) := performHint s
def execHsig (_ : BitVec 21) (s : State) := performHint s
def execHlat (_ : BitVec 21) (s : State) := performHint s

/-! ## RTR and RTS (15 R281) -/

/-- A request of the team for a line of a range is outstanding. -/
def rangePending (s : State) (key va n : Nat) : Bool :=
  s.reqs.any fun r => r.team = key && va / 64 ≤ r.line && r.line ≤ (va + n - 1) / 64

/-- A return checks its frame: one that cannot be read is escalated (15 R281 step 1, R282). -/
def returnGate (c : Ctx) (s : State) : Gate :=
  let f := c.team.frameBase
  if rangePending s c.key f 51200 then .wait
  else
    match (readFrame s c.place.core c.team.comp f).2 with
    | none => .trap { cause := 0x1A }
    | some v => if frameBad c.team f v then .trap { cause := 1 } else .go

/-- A return restores the team from its frame (15 R281); RTS drops the head of the replay queue. -/
def returnEffect (drop : Bool) (c : Ctx) (s : State) : Done :=
  let f := c.team.frameBase
  match readFrame s c.place.core c.team.comp f with
  | (s, some v) => { s := returnFrom s c.key c.place f v drop, keep := true }
  | (s, none) => { s := s }

def execRtr (x : SF) (s : State) := performGated (Shape.rtr x) returnGate (returnEffect false) s
def execRts (x : SF) (s : State) := performGated (Shape.rtr x) returnGate (returnEffect true) s

/-! ## REPLAY (13 R256 to R258, R351) -/

/-- A request that an identifier readies: in the pannier or on its way there. -/
def readied (c fid : Nat) (r : Req) : Bool := teamComp r.team = c && r.fid = fid && r.cause = 1 && r.stage.bounced

/-- A request that still waits in a miss queue with the identifier. -/
def walksAgain (c fid : Nat) (r : Req) : Bool :=
  teamComp r.team = c && r.fid = fid && r.missed && r.stage.queued.isSome

/-- The fetches that an identifier holds up are to be tried again, under the identifier that each had. -/
def refetchTeam (fid : Nat) (t : Team) : Team :=
  let hit (w : Wait) : Option (Option Word) := match w with
    | .fetch f => if f = fid then some none else none
    | _ => none
  let pcs := (t.front.filter fun e => (e.wait.bind hit).isSome).map (·.pc)
  { wakeTeam hit t with refetch := pcs.foldl (fun m pc => Tab.put m pc fid) t.refetch }

/-- A team that PARK saved for an identifier may be placed (07 R139). -/
def unparkTeam (fid : Nat) (t : Team) : Team :=
  if t.saved = some (.handler fid) then { t with saved := some (.handler 0) } else t

/-- REPLAY of an identifier in a compartment. -/
def replayFid (s : State) (c fid : Nat) : State :=
  let s := retireFid s c fid
  let again := (s.reqs.filter (walksAgain c fid)).map (·.id)
  let s := { s with
    reqs := (update s.reqs (readied c fid) fun r => { r with ready := true }) |> fun l =>
      update l (walksAgain c fid) fun r => { r with missed := false }
    teams := s.teams.map fun t => if t.2.comp = c then (t.1, unparkTeam fid (refetchTeam fid t.2)) else t }
  again.foldl (fun s id => advanceReq s id .clean) s

def execReplay (x : SF) (s : State) :=
  perform (Shape.replay x) (fun c s => if c.s 0 = 0 then s else replayFid s c.team.comp (c.s 0).toNat) s

/-! ## TLBI (07 R137, 12 R233, R240, R241) -/

/-- The cached combined entries that a test picks. -/
def tlbEntries (s : State) (p : TlbEntry → Bool) : List TlbEntry :=
  (s.cores.flatMap fun k => k.2.tlb.filter p) ++ s.clusters.flatMap fun k => k.2.tlb.filter p

/-- These go. -/
def dropEntries (s : State) (p : TlbEntry → Bool) : State :=
  { s with
    cores := s.cores.map fun k => (k.1, { k.2 with tlb := k.2.tlb.filter fun e => !p e })
    clusters := s.clusters.map fun k => (k.1, { k.2 with tlb := k.2.tlb.filter fun e => !p e }) }

/-- These go, and with a stable one the stable words of the pages dropped, or of the whole compartment (10 R210). -/
def dropTlb (s : State) (p : TlbEntry → Bool) (whole : Bool) : State :=
  let gone := tlbEntries s p
  let s := dropEntries s p
  if !gone.any (·.st) then s
  else if whole then (distinct (gone.map (·.comp))).foldl dropStable s
  else
    let page (w : Nat) : Bool := gone.any fun e => e.pa ≤ 4 * w && 4 * w < e.pa + 2 ^ e.bits
    (distinct (gone.map (·.comp))).foldl (fun s c => (compCores s c).foldl (fun s k =>
      let st (w : Nat) : Bool := page w && (Tab.get? (core s k).l1 w).any (·.stable)
      dropWords s k st) s) s

/-- The second-stage entries that a test picks go. -/
def dropTlb2 (s : State) (p : Tlb2Entry → Bool) : State :=
  { s with clusters := s.clusters.map fun k => (k.1, { k.2 with tlb2 := k.2.tlb2.filter fun e => !p e }) }

/-- An address lies in the page of an entry. -/
def inPage (a base bits : Nat) : Bool := base = a / 2 ^ bits * 2 ^ bits

/-! ## Translation contexts (12 R233, 22 R332) -/

/-- The fields of a translation context. -/
def xlateOf (b : List Byte) : Xlate :=
  { s1root := fieldAt b 0 8, s2root := fieldAt b 8 8, s2lim := fieldAt b 0x10 8, gbase := fieldAt b 0x18 8,
    glim := fieldAt b 0x20 8, colmask := fieldAt b 0x28 2, keyid := fieldAt b 0x2A 1, flags := fieldAt b 0x2B 1 }

/-- The translation context in hypervisor memory, under slot 0. -/
def readXlate (s : State) (a : Nat) : Xlate := xlateOf (homeBytes s (keyNum s 0) a 64)

/-- The Postmaster rewrites KEYID and COLMASK of a context that differ from the descriptor's and from the mask granted. -/
def ownXlate (s : State) (c keyid colmask : Nat) : State :=
  let a := (comp s c).desc.xlate
  let x := readXlate s a
  if x.keyid = keyid && x.colmask = colmask then s
  else writeHome s (keyNum s 0) (a + 0x28) (Bits.leBytes 2 colmask ++ [BitVec.ofNat 8 keyid])

/-- What the completion of a TLBI makes take effect: the first stage by kind 1, the second by kind 3 (12 R233). -/
def takeXlate (s : State) (c kind : Nat) : State :=
  if (comp s c).desc.state = 0 then s
  else
    let s := ownXlate s c (comp s c).desc.keyid (comp s c).xlate.colmask
    let x := readXlate s (comp s c).desc.xlate
    let y := (comp s c).xlate
    setComp s c { comp s c with
      xlate := if kind = 1 then { y with s1root := x.s1root, flags := x.flags } else { x with s1root := y.s1root, flags := y.flags } }

/-- The combined entries of a virtual page of a compartment, at every page size of either stage (07 R137): those got through the
first-stage leaf that maps it. -/
def virtualPage (c a : Nat) (e : TlbEntry) : Bool := e.comp = c && inPage (a % 2 ^ 57) (e.va / 2 ^ e.vbits * 2 ^ e.vbits) e.vbits

/-- The combined entries derived from an intermediate page: those got through the second-stage leaf that maps it. -/
def intermediatePage (a : Nat) (e : TlbEntry) : Bool := inPage (a % 2 ^ 52) (e.ipa / 2 ^ e.ibits * 2 ^ e.ibits) e.ibits

/-- The combined entries that a TLBI covers: one that names an intermediate page does so in every compartment (log 36). -/
def covered (c kind a : Nat) (e : TlbEntry) : Bool :=
  match kind with
  | 0 => virtualPage c a e
  | 1 => e.comp = c
  | 2 => intermediatePage a e
  | _ => e.comp = a % 16

/-- A TLBI drops what it covers. -/
def dropCovered (s : State) (c kind a : Nat) : State :=
  let s := dropTlb s (covered c kind a) (kind = 1 || 3 ≤ kind)
  match kind with
  | 0 | 1 => s
  | 2 => dropTlb2 s fun e => inPage (a % 2 ^ 52) e.ipa e.bits
  | _ => dropTlb2 s fun e => e.comp = a % 16

/-- A physical address lies in a frame of these entries. -/
def inFrames (es : List TlbEntry) (pa : Nat) : Bool := es.any fun e => e.pa ≤ pa && pa < e.pa + 2 ^ e.bits

/-- A claim may still write its target: its physical address was fixed at its issue (08 R169). -/
def openClaim (p : Proposal) : Bool := p.outcome.isNone || p.effect.isSome

/-- The accesses translated through these entries that have left the device and are not performed yet; an access that waits in a
queue is translated afresh when it goes on. -/
def flushOf (s : State) (es : List TlbEntry) : Flush :=
  let of' (c : Nat) : Bool := es.any fun e => e.comp = c
  { writes := s.streams.flatMap fun x => if !of' (teamComp x.team) then [] else
      ((x.unacked ++ x.waiting).filter fun w => inFrames es (0x1000000000000 + 2 ^ 44 * x.coach + w.addr)).map fun w => (x.team, x.coach, w.seq)
    reads := (s.reqs.filter fun r => of' (teamComp r.team) && r.pa.any (inFrames es) && match r.stage with
      | .away _ => true
      | _ => false).map fun r => (r.id, r.tries)
    elems := (s.copies.filter fun x => of' (teamComp x.team) && x.asked ≠ []).map fun x => (x.id, x.next)
    claims := s.cores.flatMap fun k => (k.2.outgoing.filter fun p =>
      of' (teamComp p.2.team) && openClaim p.2 && inFrames es p.2.pa).map fun p => (k.1, p.1) }

/-- All of them have been performed, or have bounced. -/
def Flush.over (s : State) (f : Flush) : Bool :=
  (f.writes.all fun w => s.streams.all fun x =>
    x.team ≠ w.1 || x.coach ≠ w.2.1 || (x.unacked ++ x.waiting).all fun y => y.seq ≠ w.2.2) &&
  (f.reads.all fun w => s.reqs.all fun r => r.id ≠ w.1 || r.tries ≠ w.2 || match r.stage with
    | .away _ => false
    | _ => true) &&
  (f.elems.all fun w => s.copies.all fun x => x.id ≠ w.1 || x.next ≠ w.2 || x.asked = []) &&
  f.claims.all fun w => (Tab.get? (core s w.1).outgoing w.2).all fun p => !openClaim p

/-- The wait of an instruction that has dropped entries. -/
def flushing? (s : State) (c : Ctx) : Option Flushing :=
  s.flushes.find? fun f => f.team = c.key && f.pc = c.cur.pc && f.mask = c.act

/-- The instruction waits for what it has dropped to be done with, unless nothing is left of that. -/
def awaitFlush (s : State) (c : Ctx) (f : Flush) (dirty : List Bool) : Gate :=
  if f = {} then .go else .hold { s with flushes := s.flushes ++ [⟨c.key, c.cur.pc, c.act, f, dirty⟩] }

/-- That wait is over. -/
def endFlush (s : State) (c : Ctx) : State :=
  { s with flushes := s.flushes.filter fun f => !(f.team = c.key && f.pc = c.cur.pc && f.mask = c.act) }

/-- The operand of a TLBI. -/
def tlbiAt (x : SF) (c : Ctx) : Nat := if x.b = 0 then c.pair 0 % 2 ^ 57 else c.pair 0

/-- The compartments that a TLBI concerns. -/
def tlbiComps (s : State) (c kind a : Nat) : List Nat :=
  match kind with
  | 0 | 1 => [c]
  | 2 => Tab.keys s.comps
  | _ => [a % 16]

/-- The dirty words of the compartments that a TLBI concerns are written back, so that the stores translated through what it drops are
performed at their homes (12 R240). -/
def settleWords (s : State) (c kind a : Nat) : State :=
  (tlbiComps s c kind a).foldl (fun s c => (compCores s c).foldl (fun s k =>
    let mine (w : Nat) : Bool := (Tab.get? (core s k).l1 w).any fun v => v.comp = c
    writeBackIf s k mine) s) s

/-- A TLBI begins: what it covers goes, with the dirty words. -/
def beginTlbi (s : State) (c kind a : Nat) : State := dropCovered (settleWords s c kind a) c kind a

/-- TLBI of a kind with its operand, as it completes. -/
def invalidate (s : State) (c kind a : Nat) : State :=
  let s := beginTlbi s c kind a
  if kind = 1 then takeXlate s c 1 else if 3 ≤ kind then takeXlate s (a % 16) 3 else s

/-- A TLBI completes once the accesses translated through what it drops have been performed (12 R240). -/
def tlbiGate (x : SF) (c : Ctx) (s : State) : Gate :=
  match flushing? s c with
  | some f => if f.flush.over s then .go else .wait
  | none =>
    let gone := tlbEntries s (covered c.team.comp x.b.toNat (tlbiAt x c))
    awaitFlush (beginTlbi s c.team.comp x.b.toNat (tlbiAt x c)) c (flushOf s gone) []

def execTlbi (x : SF) (s : State) :=
  performGated (Shape.tlbi x) (tlbiGate x) (fun c s =>
    { s := invalidate (endFlush s c) c.team.comp x.b.toNat (tlbiAt x c) }) s

/-! ## HARVEST (07 R138, 12 R242) -/

/-- The first page's address of a HARVEST: a compute core never runs at level 2 (02 R31), whose form is `level2Act`. -/
def harvestBase (c : Ctx) : Nat := c.pair 0 % 2 ^ 57

/-- A page as a HARVEST finds it: its leaf descriptor's address and key, DT, and the frame of its 4 KiB; none without a
leaf. -/
structure Harvested where
  desc : Nat
  key : Nat
  dirty : Bool
  frame : Option Nat
  deriving DecidableEq, Repr

/-- The leaf that holds the dirty bit of a page: the first stage's for a virtual page, the second's for an intermediate
one. -/
def harvestLeaf (s : State) (level c a : Nat) : Option Harvested :=
  if level = 2 then
    match stage2 s c a with
    | .leaf l => some ⟨l.desc, keyNum s 0, l.val.testBit 7, some (leafPa l a)⟩
    | _ => none
  else if inHeap (comp s c).heap a || !(comp s c).xlate.flags.testBit 0 then none
  else
    match walk1 s c a levels1 (comp s c).xlate.s1root with
    | .leaf l => some ⟨l.desc, compKey s c, l.val.testBit 7,
        match stage2 s c (leafPa l a) with
        | .leaf m => some (leafPa m (leafPa l a))
        | _ => none⟩
    | _ => none

/-- Clear DT in a descriptor at its home, an event of its word's coherence order (12 R236, R242). -/
def clearDirty (s : State) (key d : Nat) : State :=
  let old := homeLe s key d 8
  if old.testBit 7 then disown (putHome s key d (Bits.leBytes 8 (old - 0x80))) d 8 else s

/-- The write-granting entries of a page, whatever part of a larger leaf they map: its DT is what the step clears. -/
def writeEntries (level c a : Nat) (e : TlbEntry) : Bool :=
  e.wr && e.comp = c && (if level = 2 then intermediatePage a e else virtualPage c a e)

/-- The atomic step of one page (12 R242): DT goes, with every cached translation that grants write, and the page's dirty
words are written back. -/
def harvestPage (s : State) (level c a : Nat) (h : Harvested) : State :=
  let s := dropEntries (clearDirty s h.key h.desc) (writeEntries level c a)
  let s := if level = 2 then dropTlb2 s fun e => e.comp = c && e.val.testBit 3 && inPage a e.ipa e.bits else s
  match h.frame with
  | some pa => (compCores s c).foldl (fun s k => writeBackIf s k (inRange (pa / 4096 * 4096) 4096)) s
  | none => s

/-- The steps of the pages from an address: the state, what they wait for, and the dirty bits. -/
def harvestPages (s : State) (level c a n : Nat) : State × Flush × List Bool :=
  let es := (List.range n).flatMap fun j => tlbEntries s (writeEntries level c (a + 4096 * j))
  -- the pages of a larger leaf have one dirty bit, which each of them is reported by (07 R138)
  let hs := (List.range n).map fun j => (a + 4096 * j, harvestLeaf s level c (a + 4096 * j))
  let s' := hs.foldl (fun s x =>
    match x.2 with
    | some h => harvestPage s level c x.1 h
    | none => s) s
  (s', flushOf s es, hs.map fun x => x.2.any (·.dirty))

/-- The bytes of the bitmap: bits past the last page keep what stands there. -/
def bitmapBytes (old : List Byte) (ds : List Bool) : List Byte :=
  (List.range (ceilDiv ds.length 8)).map fun k =>
    BitVec.ofNat 8 ((List.range 8).foldl (fun n i =>
      let b := ((ds[8 * k + i]?).getD ((old.getD k 0).getLsbD i))
      if b then n + 2 ^ i else n) 0)

/-- The number of pages of a HARVEST. -/
def harvestCount (c : Ctx) : Nat := (c.s 4).toNat

/-- An open proposal holds the translation of a page of the range (08 R169, 12 R242 step 4). -/
def harvestClaims (s : State) (level c a n : Nat) : Bool :=
  let frames := if level = 2 then (List.range n).filterMap fun j => (harvestLeaf s 2 c (a + 4096 * j)).bind (·.frame) else []
  s.cores.any fun k => k.2.outgoing.any fun p => p.2.outcome.isNone && teamComp p.2.team = c &&
    (if level = 2 then frames.any fun f => f / 4096 = p.2.pa / 4096 else a ≤ p.2.va && p.2.va < a + 4096 * n)

/-- Bytes of one page are stored for a team: as a weak store, or at a peer or the host; none while a store cannot leave. -/
def storePart (c : Ctx) (s : State) (va : Nat) (bs : List Byte) : Option State :=
  let (s, pa, st) := pageOf c s .wr (va % 2 ^ 57)
  if localClass pa = .none then storeAway s c.key pa bs else some (weakStore s c.place.core c.team.comp st pa bs)

/-- The bitmap is stored through the team's translation; none while a store of it cannot leave. -/
def storeBitmap (c : Ctx) (s : State) (ds : List Bool) : Option State :=
  let va := c.pair 2 % 2 ^ 57
  let n := ceilDiv ds.length 8
  let old := (pageParts va n).flatMap fun p =>
    match peek s c.place.core c.team.comp c.team.level .wr (p.1 % 2 ^ 57) with
    | .ok pa _ => if localClass pa = .none then List.replicate p.2 0 else viewBytes s c.place.core c.team.comp pa p.2
    | _ => []
  let bs := bitmapBytes old ds
  (pageParts va n).foldl (fun s p => s.bind fun s => storePart c s p.1 ((bs.drop (p.1 - va)).take p.2)) (some s)

/-- The checks of a HARVEST, its bitmap's pages last, and what it waits for: the team's older accesses, the claims of the pages,
and the stores that it has to see performed. -/
def harvestGate (c : Ctx) (s : State) : Gate :=
  let n := harvestCount c
  let a := harvestBase c
  if n = 0 || 4096 < n then .trap { cause := 1 }
  else if a % 4096 ≠ 0 then c.trapAt 6 a
  else
    let bad := (pageParts (c.pair 2 % 2 ^ 57) (ceilDiv n 8)).findSome? fun p =>
      match peek s c.place.core c.team.comp c.team.level .wr (p.1 % 2 ^ 57) with
      | .addr => some (c.pageTrap 8 p.1)
      | .access => some (c.pageTrap 7 p.1)
      | .uncorr _ => some (c.trapAt 0x17 p.1)
      | .miss .. => some (touchPage c 1 (p.1 % 2 ^ 57) s)
      | .ok .. => none
    match bad with
    | some g => g
    | none =>
      if acquiring s c.key || outstanding s c.key || harvestClaims s c.team.level c.team.comp a n then .wait
      else if (storeBitmap c s (List.replicate n false)).isNone then .wait
      else
        match flushing? s c with
        | some f => if f.flush.over s then .go else .wait
        | none =>
          let (s', f, ds) := harvestPages s c.team.level c.team.comp a n
          awaitFlush s' c f ds

def execHarvest (x : SF) (s : State) :=
  performGated (Shape.harvest x) harvestGate (fun c s =>
    let (s, ds) := match flushing? s c with
      | some f => (endFlush s c, f.dirty)
      | none =>
        let (s, _, ds) := harvestPages s c.team.level c.team.comp (harvestBase c) (harvestCount c)
        (s, ds)
    { s := writeScalar c (BitVec.ofNat 32 (ds.filter id).length) ((storeBitmap c s ds).getD s) }) s

/-! ## What level 2 does (02 R30, R31, 12 R240 to R242) -/

/-- The compartment and the address of an intermediate page as a level-2 HARVEST names them (12 R242 step 1). -/
def level2Page (v : Nat) : Nat × Nat := (v / 2 ^ 52 % 16, v % 2 ^ 52)

/-- A level-2 act begins: entries are dropped, and a HARVEST takes its pages' steps. -/
def level2Begin (s : State) (a : Level2) (v : Nat) : State :=
  let wait (s : State) (f : Flush) (ds : List Bool) : State := { s with level2 := s.level2 ++ [⟨a, v, f, ds⟩] }
  match a with
  | .heap c reg =>
    if 6 ≤ reg || (comp s c).desc.state = 0 || 2 ^ 32 ≤ v || BitVec.ofNat 32 v &&& crReserved (0x300 + reg) ≠ 0 then s
    else setComp s c (writeHeap (comp s c) (0x300 + reg) (BitVec.ofNat 32 v))
  | .tlbi kind =>
    if kind = 2 || kind = 3 then wait (beginTlbi s 0 kind v) (flushOf s (tlbEntries s (covered 0 kind v))) [] else s
  | .harvest n =>
    if n = 0 || 4096 < n || v % 4096 ≠ 0 || 2 ^ 56 ≤ v then s
    else
      let (c, p) := level2Page v
      let (s, f, ds) := harvestPages s 2 c p n
      wait s f ds

/-- A level-2 act has nothing left to wait for. -/
def level2Over (s : State) (w : Level2Wait) : Bool :=
  w.flush.over s && match w.act with
    | .harvest n => !harvestClaims s 2 (level2Page w.value).1 (level2Page w.value).2 n
    | _ => true

/-- A level-2 act completes. -/
def level2End (s : State) (w : Level2Wait) : State :=
  match w.act with
  | .tlbi kind => invalidate s 0 kind w.value
  | .harvest _ => { s with out := s.out ++ [.harvested (level2Page w.value).1 (level2Page w.value).2 w.dirty] }
  | .heap .. => s

/-- The level-2 acts that can complete do. -/
def level2Step (s : State) : State :=
  s.level2.foldl (fun s w =>
    if level2Over s w then level2End { s with level2 := s.level2.erase w } w else s) s

/-! ## PARK, HALT and SCALL -/

/-- PARK waits until nothing of the team is in a shared queue (07 R139, 15 R273). -/
def parkGate (c : Ctx) (s : State) : Gate := if undrained s c.key c.team then .wait else .go

def execPark (x : SF) (s : State) :=
  performGated (Shape.park x) parkGate (fun c s =>
    let s := voidTeamLatches s c.team
    { s := onTeam s c.key fun t => { t with place := none, saved := some (.handler (c.s 0).toNat), replayQ := [] },
      keep := true, yields := true }) s

def execHalt (x : SF) (s : State) :=
  perform (Shape.park x) (fun c s => haltComp s c.team.comp (c.s 0).toNat) s

/-- The first valid entry of the message filter table for a source, a destination and a channel (21 R331). -/
def filterFor (s : State) (src dst chan : Nat) : Option (Nat × Filter) :=
  s.filters.find? fun f => f.2.valid && f.2.src = src && f.2.dst = dst && f.2.chan = chan

/-- The enqueue of 21 R331: the state and s0. A message that the device cannot read counts as malformed (log 37). -/
def enqueue (s : State) (c : Nat) (s0 : Word) (msg : Nat) : State × Nat :=
  let dst := s0.toNat % 16
  if s0.toNat / 2 ^ 12 ≠ 0 || msg % 64 ≠ 0 || 2 ^ 57 ≤ msg then (s, 5)
  else
    match devicePa s c .rd msg with
    | (s, none) => (s, 5)
    | (s, some pa) =>
      match filterFor s c dst (s0.toNat / 16) with
      | none => (s, 1)
      | some (i, f) =>
        let d := comp s dst
        if f.credit = 0 then (s, 2)
        else if 64 ≤ d.messages.length then (s, 3)
        else if d.desc.state = 4 || d.desc.state = 0 then (s, 4)
        else
          let s := { s with filters := Tab.put s.filters i { f with credit := f.credit - 1 } }
          let m : Message := { entry := f.entry, code := f.code, args := homeBytes s (compKey s c) pa 64 }
          (setComp s dst { d with messages := d.messages ++ [m] }, 0)

/-- SCALL at level 1 is a release at .sys (07 R140); at level 2 it is ILLEGAL (R136). -/
def scallGate (c : Ctx) (s : State) : Gate :=
  if c.team.level = 0 then .go
  else if 2 ≤ c.team.level then .trap { cause := 1 }
  else if acquiring s c.key || outstanding s c.key then .wait
  else releaseWait c s 6 c.lane0

/-- s0 to s15 as they stand. -/
def serviceArgs (t : Team) : List Word := (List.range 16).map fun j => Team.scalar t j

/-- A service of the Postmaster ends: s0 to s3, and an acquire at .sys (07 R140). -/
def serviceEnds (s : State) (key k : Nat) (ws : List Word) : State :=
  let s := onTeam s key fun t => Team.setScalars t 0 ws
  acquireAt s k 6

/-- SCALL: a trap from level 0, and from level 1 a request to the Postmaster. -/
def scallEffect (k : Nat) (c : Ctx) (s : State) : Done :=
  if c.team.level = 0 then { s := s, post := some { cause := 0xF, tpc := c.cur.pc, kval := k, service := true } }
  else
    let s := releaseAt s c.place.core 6
    let args := serviceArgs c.team
    let entry := Tab.getD s.services k 0
    if k = 48 then
      let (s, r) := enqueue s c.team.comp (args.getD 0 0) ((args.getD 2 0).toNat + 2 ^ 32 * (args.getD 3 0).toNat)
      { s := serviceEnds s c.key c.place.core [BitVec.ofNat 32 r] }
    else if entry = 0 then { s := serviceEnds s c.key c.place.core [0xFFFFFFFF] }
    else
      { s := { s with out := s.out ++ [.service c.key k entry (((crew? s (crewOf c.key)).map crewId).getD 0) (teamId s c.team) args] }, moves := some (c.waitHere (.service k)) }

def execScall (x : SF) (s : State) :=
  performGated (Shape.scall x) scallGate (scallEffect x.b.toNat) s

end Sys2Proof.Machine
end

