-- ==== Sys2Proof/Machine/HostEvents.lean ====
section
/-! DEFINITION. What the host and the Postmaster's services do (21 R324 to R331, 07 R140): doorbells, launches, BAR 2, and the
completion of a service. -/

namespace Sys2Proof.Machine

/-! ## The virtual functions (21 R324 to R326) -/

/-- TotalVFs of the SR-IOV capability of physical function 0 (21 R324): VF k serves compartment k - 1. -/
def totalVfs : Nat := 16

/-- The selective IDE streams that the port supports: one for each function (21 R324). -/
def ideStreams : Nat := totalVfs + 1

/-- Memory Space Enable of a VF: bit 1 of the command register at 0x04 (log 41). -/
def memSpace (s : State) (c : Nat) : Bool := (Tab.getD (comp s c).vfConfig 4 0).testBit 1

/-- A VF completes accesses to its BARs (22 R338, R348, 23 R350). -/
def vfServes (s : State) (c : Nat) : Bool :=
  let x := comp s c
  c < totalVfs && x.desc.state ≠ 0 && x.desc.state ≠ 5 && x.tdi ≠ .error && memSpace s c

/-- BAR 2 and the launch queue are served: in RUN, or without TDISP (22 R338). -/
def tdiServes (s : State) (c : Nat) : Bool := (comp s c).tdi = .unlocked || (comp s c).tdi = .run

/-- Records that a ring holds unconsumed. -/
def unconsumed (r : Ring) : Nat := (r.prod + 2 ^ 32 - r.cons) % 2 ^ 32

/-- A write to DOORBELL (21 R328): an overrun is discarded with an error record. -/
def ringDoorbell (s : State) (c tail : Nat) : State :=
  let x := comp s c
  if x.launch.size < (tail + 2 ^ 32 - x.launch.cons) % 2 ^ 32 then pushErr s c { code := 8, info := 1 }
  else setComp s c { x with launch := { x.launch with prod := tail } }

def execDoorbell (comp' : Nat) (tail : BitVec 32) (s : State) :=
  occur (vfServes s comp') (fun s => ringDoorbell s comp' tail.toNat) s

/-! ## Compartment memory at intermediate addresses -/

/-- A byte at an intermediate address as the Postmaster reads it: none where the second stage does not grant it, the window is a
peer's, or its data cannot be corrected. -/
def ipaByte (s : State) (c ipa : Nat) : Option Byte :=
  (ipaToPa s c ipa false).bind fun pa =>
    match paClass s pa with
    | .hbm | .tier2 => if homeFails s pa 1 then none else some (homeByte s (compKey s c) pa)
    | .host => some (Config.hostByte s.time pa)
    | _ => none

/-- `n` bytes from an intermediate address. -/
def ipaBytes (s : State) (c ipa n : Nat) : Option (List Byte) := (List.range n).mapM fun i => ipaByte s c (ipa + i)

/-- What the translation of a range leaves in the second stage's leaves (12 R236). -/
def markIpas (s : State) (c a n : Nat) (write : Bool) : State :=
  (pageParts a n).foldl (fun s p => markIpa s c p.1 write) s

/-- Bytes cut at the ends of lines. -/
def splitLines : Nat → List Byte → List (Nat × List Byte)
  | _, [] => []
  | a, b :: bs =>
    match splitLines (a + 1) bs with
    | (x, r) :: rest => if (a + 1) % 64 = 0 then (a, [b]) :: (x, r) :: rest else (a, b :: r) :: rest
    | [] => [(a, [b])]

/-! ## The load check (02 R33 to R35) -/

/-- A section of non-zero size lies within the object. -/
def sectionIn (off size objsz : Nat) : Bool := size = 0 || (0x40 ≤ off && off + size ≤ objsz)

/-- The header's fields are as R33 says. -/
def headerOk (h : List Byte) : Bool :=
  let u (o : Nat) : Nat := fieldAt h o 4
  u 0 = 0x4F435357 && fieldAt h 4 2 = 1 && fieldAt h 6 2 = 0 && fieldAt h 0x34 12 = 0 && u 0x10 % 4 = 0 && u 0x14 % 4 = 0 &&
  u 0x18 % 16 = 0 && u 0x20 % 32 = 0 && 1 ≤ u 0x24 && 64 ≤ u 0x30 && sectionIn (u 0x10) (u 0x14) (u 0x30) &&
  sectionIn (u 0x18) (u 0x1C) (u 0x30) && sectionIn (u 0x20) (32 * u 0x24) (u 0x30) && sectionIn (u 0x28) (u 0x2C) (u 0x30)

/-- An entry's fields are in their ranges (02 R33, R35). -/
def entryOk (textsz : Nat) (e : List Byte) : Bool :=
  let u (o : Nat) : Nat := fieldAt e o 1
  fieldAt e 0 4 % 4 = 0 && fieldAt e 0 4 < textsz && u 11 = 0 &&
  match u 10 with
  | 0 => 1 ≤ u 4 && u 4 ≤ 16 && u 5 ≤ 12 && 1 ≤ u 6 && u 6 ≤ 15 && 1 ≤ u 8 && u 8 ≤ 64 && 1 ≤ u 9 && u 9 ≤ 12
  | 1 | 2 => fieldAt e 4 6 = 0 && fieldAt e 12 8 = 0
  | _ => false

/-- The strings of a name table, each without its ending zero; a last one without it is dropped, and stands as a rest. -/
def namesOf (b : List Byte) : List (List Byte) × List Byte :=
  b.foldl (fun acc x => if x = 0 then (acc.1 ++ [acc.2], []) else (acc.1, acc.2 ++ [x])) ([], [])

/-- The name table holds one name for each entry, which begins with its NAME (02 R33). -/
def namesOk (es : List (List Byte)) (b : List Byte) : Bool :=
  let (ns, rest) := namesOf b
  rest = [] && ns.length = es.length &&
  (ns.zip es).all fun x =>
    (x.1.all fun c => 0x21 ≤ c.toNat && c.toNat ≤ 0x7E) && (x.1.take 12 ++ List.replicate (12 - x.1.length) 0) = x.2.drop 20

/-- Lists of `n` bytes from a list. -/
def chunks (n : Nat) : Nat → List Byte → List (List Byte)
  | 0, _ => []
  | k + 1, b => b.take n :: chunks n k (b.drop n)

/-- The load check (02 R34): the error, or the entries. DESIGN CHOICE (log 101): an object whose header or tables cannot be read through the
second stage is refused with CODE_FORMAT. -/
def loadCheck (s : State) (c code : Nat) : Except Nat (List (List Byte)) :=
  match ipaBytes s c code 64 with
  | none => .error 1
  | some h =>
    if !headerOk h then .error 1
    else
      let u (o : Nat) : Nat := fieldAt h o 4
      match ipaBytes s c (code + u 0x20) (32 * u 0x24), ipaBytes s c (code + u 0x28) (u 0x2C) with
      | some eb, some nb =>
        let es := chunks 32 (u 0x24) eb
        if !(es.all (entryOk (u 0x14)) && namesOk es nb) then .error 1
        else if fieldAt h 8 8 ≠ Config.encodingHash then .error 2
        else .ok es
      | _, _ => .error 1

/-! ## Launching (15 R264, 21 R327, R328) -/

/-- A record's own check: MAGIC and the zero bytes. -/
def recordOk (b : List Byte) : Bool :=
  fieldAt b 0 4 = 0x4C524543 && fieldAt b 4 2 = 0 && fieldAt b 0x58 8 = 0 && fieldAt b 0x64 28 = 0 && fieldAt b 0xCC 4 = 0 &&
  fieldAt b 0xE0 32 = 0

/-- The root's control block from a record (21 R327). -/
def rootImage (s : State) (c : Nat) (b : List Byte) : List Byte :=
  image 256 [⟨0, 4, 0x52424331⟩, ⟨4, 2, 0x00FF⟩, ⟨6, 2, fieldAt b 6 2⟩, ⟨0x10, 0x48, fieldAt b 0x10 0x48⟩,
    ⟨0x58, 8, (comp s c).desc.resv⟩, ⟨0x60, 4, fieldAt b 0x60 4⟩, ⟨0x64, 4, 1⟩, ⟨0x80, 64, fieldAt b 0x80 64⟩]

/-- The crew of a launch: every team at the entry with all its lanes (15 R264, R266). -/
def launchCrew (s : State) (c rk : Nat) (r : Region) (code : Nat) (e : List Byte) : State :=
  let u (o : Nat) : Nat := fieldAt e o 1
  let pc := (Config.codeBase c code / 4 * 4 + fieldAt e 0 4) % 2 ^ 57
  addCrew s c rk (u 5) r.tiles fun serial => (List.range (u 4)).map fun i =>
    freshTeam c serial i rk r (u 6) (BitVec.ofNat 32 (fieldAt e 12 4)) (BitVec.ofNat 32 (fieldAt e 16 4)) 0xFFFFFFFF
      [{ prio := u 7, pc := pc, mask := 0xFFFFFFFF }]

/-- The entry of a record whose crew fits the budget of its fields. -/
def launchEntry (s : State) (c : Nat) (b : List Byte) : Except Nat (List Byte) :=
  match loadCheck s c (fieldAt b 0xC0 8) with
  | .error e => .error e
  | .ok es =>
    match es[fieldAt b 0xC8 4]? with
    | none => .error 1
    | some e =>
      if fieldAt e 10 1 ≠ 0 || fieldAt b 0x3C 4 < fieldAt e 4 1 || fieldAt b 0x48 1 < fieldAt e 5 1 then .error 1 else .ok e

/-- The root region of a record becomes active at ROOT with its crew, or is refused (15 R264). -/
def buildRoot (s : State) (c : Nat) (b e : List Byte) : Except Nat State :=
  let root := fieldAt b 0xD8 8
  if root = 0 || root % 256 ≠ 0 || 2 ^ 57 ≤ root || (region? s (regionKey c root)).isSome || fieldAt b 7 1 / 16 ≠ 0 then .error 3
  else
    match devicePa s c .wr root with
    | (_, none) => .error 3
    | (s, some pa) =>
      let img := rootImage s c b
      let r : Region := { parseRcb img c root pa {} with done := fieldAt b 0xD0 8 }
      if !pinned s r then .error 3
      else
        let s := activate (writeHome s (compKey s c) pa img) r
        .ok (launchCrew s c (regionKey c root) r (fieldAt b 0xC0 8) e)

/-- What the reading of an object's header and tables leaves in the second stage's leaves. -/
def markObject (s : State) (c code : Nat) : State :=
  let s := markIpas s c code 64 false
  match ipaBytes s c code 64 with
  | some h =>
    if headerOk h then
      markIpas (markIpas s c (code + fieldAt h 0x20 4) (32 * fieldAt h 0x24 4) false) c (code + fieldAt h 0x28 4) (fieldAt h 0x2C 4) false
    else s
  | none => s

/-- A launch of a record: its error, or the state with its crew. -/
def launchOf (s : State) (c : Nat) (b : List Byte) : Except Nat State :=
  if !recordOk b then .error 3
  else
    match launchEntry s c b with
    | .error e => .error e
    | .ok e => buildRoot s c b e

/-- A record is refused: an error record, and its completion word. -/
def refuseLaunch (s : State) (c code ipa done : Nat) : State :=
  writeDone (pushErr s c { code := code, addr := ipa }) c done (0x100 + code)

/-- A compartment may launch: it runs, and is not being stopped. -/
def launching (s : State) (c : Nat) : Bool := compRuns s c && (comp s c).stop.isNone && tdiServes s c

/-- The launch queue holds a record. -/
def launchWaits (s : State) (c : Nat) : Bool := (comp s c).launch.size ≠ 0 && unconsumed (comp s c).launch ≠ 0

/-- The next launch comes from the launch queue: the two queues take turns (21 R331). -/
def launchDue (s : State) (c : Nat) : Bool :=
  launching s c && launchWaits s c && ((comp s c).messages = [] || !(comp s c).msgTurn)

/-- The record at LQHEAD is consumed, and launched or refused. -/
def consumeRecord (s : State) (c : Nat) : State :=
  let x := comp s c
  let ipa := x.launch.base + 256 * (x.launch.cons % x.launch.size)
  let s := markIpas (setComp s c { x with launch := { x.launch with cons := (x.launch.cons + 1) % 2 ^ 32 }, msgTurn := true }) c ipa 256 false
  match ipaBytes s c ipa 256 with
  | none => refuseLaunch s c 3 ipa 0
  | some b =>
    let done := fieldAt b 0xD0 8
    let s := if recordOk b then markObject s c (fieldAt b 0xC0 8) else s
    match launchOf s c b with
    | .error e => refuseLaunch s c e ipa done
    | .ok s => writeDone (setComp s c { comp s c with lastLaunch := b }) c done 1

def execLaunchRecord (comp' : Nat) (s : State) := occur (launchDue s comp') (fun s => consumeRecord s comp') s

/-! ## Messages (21 R330, R331) -/

/-- The next launch comes from the message queue. -/
def messageDue (s : State) (c : Nat) : Bool :=
  launching s c && (comp s c).messages ≠ [] && (!launchWaits s c || (comp s c).msgTurn)

/-- A record with the code, the entry and the arguments of a message. -/
def messageRecord (b : List Byte) (m : Message) : List Byte :=
  b.take 0x80 ++ m.args ++ Bits.leBytes 8 m.code ++ Bits.leBytes 4 m.entry ++ b.drop 0xCC

/-- A message launches with the fields of the latest accepted record (log 42): in its root region while that is active. -/
def launchMessage (s : State) (c : Nat) : State :=
  let x := comp s c
  match x.messages with
  | [] => s
  | m :: rest =>
    let s := setComp s c { x with messages := rest, msgTurn := false }
    if x.lastLaunch = [] then pushErr s c { code := 3 }
    else
      let b := messageRecord x.lastLaunch m
      let rk := regionKey c (fieldAt b 0xD8 8)
      let done := fieldAt b 0xD0 8
      let s := markObject s c m.code
      match launchEntry s c b with
      | .error e => refuseLaunch s c e 0 done
      | .ok e =>
        match region? s rk with
        | some r =>
          launchCrew s c rk { r with args := (List.range 16).map fun i => BitVec.ofNat 32 (fieldAt b (0x80 + 4 * i) 4) } m.code e
        | none =>
          match buildRoot s c b e with
          | .error e => refuseLaunch s c e 0 done
          | .ok s => writeDone s c done 1

def execMessageLaunch (comp' : Nat) (s : State) := occur (messageDue s comp') (fun s => launchMessage s comp') s

/-! ## Services of the Postmaster (07 R140) -/

/-- The wait of a service. -/
def Wait.isService : Wait → Bool
  | .service _ => true
  | _ => false

/-- A service's writes, through the compartment's translation. -/
def serviceWrites (s : State) (c : Nat) (ws : List (Nat × List Byte)) : State :=
  (ws.flatMap fun w => splitLines w.1 w.2).foldl (fun s w =>
    match devicePa s c .wr w.1 with
    | (s, some pa) => writeProg s (compKey s c) pa w.2
    | (s, none) => s) s

/-- A service ends: its entry goes on, and the grace of a stop counts from here. -/
def serviceReturn (s : State) (key : Nat) (r : ServiceResult) : State :=
  match team? s key with
  | none => s
  | some t =>
    let k := holdingCore s key t
    let s := serviceEnds (serviceWrites s t.comp r.writes) key k [r.s0, r.s1, r.s2, r.s3]
    onTeam s key fun t => { wakeTeam (fun w => if w.isService then some none else none) t with graceAt := clk s k }

def execScallServiceReturn (team : Nat) (r : ServiceResult) (s : State) :=
  occur ((team? s team).any fun t => waitsOn Wait.isService t) (fun s => serviceReturn s team r) s

/-! ## BAR 2 (21 R325) -/

/-- Every byte of a range of BAR 2 lies in a page that the second stage grants. -/
def bar2Grants (s : State) (c a n : Nat) (write : Bool) : Bool :=
  vfServes s c && tdiServes s c && a + n ≤ 2 ^ 36 &&
  (splitLines a (List.replicate n 0)).all fun x => (ipaToPa s c x.1 write).any fun pa => paClass s pa ≠ .none

/-- An Unsupported Request. -/
def bar2Refuse (s : State) (c : Nat) : State := { s with out := s.out ++ [.bar2 c none] }

/-- Bytes of one line read through BAR 2: free ones where the page is a peer's or the host's (log 40). -/
def bar2Part (s : State) (c : Nat) (x : Nat × List Byte) : List Byte :=
  match ipaToPa s c x.1 false with
  | some pa =>
    if localClass pa ≠ .none then homeBytes s (compKey s c) pa x.2.length
    else (List.range x.2.length).map fun i => Config.hostByte s.time (pa + i)
  | none => []

/-- A read through BAR 2: data that cannot be corrected is recorded and completes as a refusal (12 R244). -/
def bar2Read (s : State) (c a n : Nat) : State :=
  let parts := splitLines a (List.replicate n 0)
  match parts.find? fun x => (ipaToPa s c x.1 false).any fun pa => homeFails s pa x.2.length with
  | some x => bar2Refuse (reportUncorr s c ((ipaToPa s c x.1 false).getD 0) 3) c
  | none => { s with out := s.out ++ [.bar2 c (some (parts.flatMap (bar2Part s c)))] }

/-- Bytes of one line written through BAR 2: at their home, or on their way to the host or a peer (log 40). -/
def bar2Put (s : State) (c pa : Nat) (bs : List Byte) : State :=
  match paClass s pa with
  | .hbm | .tier2 => writeProg s (compKey s c) pa bs
  | .host => { s with out := s.out ++ [.hostWrite (pa - 0x8000000000000) bs false] }
  | .peer coach =>
    let d := lineData (pa % 64) bs
    { s with out := s.out ++ [.fabric coach none (.write
        { stream := c * 2 ^ 24, coach := s.coach, owner := c, seq := 0, addr := pa % 2 ^ 44 / 64 * 64, mask := d.1, data := d.2, red := none })] }
  | .none => s

/-- A write through BAR 2. -/
def bar2Write (s : State) (c a : Nat) (bs : List Byte) : State :=
  (splitLines a bs).foldl (fun s x =>
    match ipaToPa s c x.1 true with
    | some pa => bar2Put s c pa x.2
    | none => s) s

/-- A host access through BAR 2. -/
def bar2Access (s : State) (c : Nat) (x : Bar2Access) : State :=
  let served (s : State) (a n : Nat) (w : Bool) : State := if vfServes s c && tdiServes s c && a + n ≤ 2 ^ 36 then markIpas s c a n w else s
  match x with
  | .read a n => let s := served s a n false; if bar2Grants s c a n false then bar2Read s c a n else bar2Refuse s c
  | .write a bs =>
    let s := served s a bs.length true
    if bar2Grants s c a bs.length true then bar2Write s c a bs else bar2Refuse s c

def execHostBar2Access (comp' : Nat) (a : Bar2Access) (s : State) :=
  occur (comp' < 16) (fun s => bar2Access s comp' a) s

/-! ## The hypervisor's error queue (12 R245) -/

/-- A write to HEQCONS. -/
def writeHeqcons (s : State) (v : Nat) : State := heqFlush { s with heq := { s.heq with cons := v } }

def execHeqcons (v : BitVec 32) (s : State) := occur s.powered (fun s => writeHeqcons s v.toNat) s

end Sys2Proof.Machine
end

