-- ==== Sys2Proof/Machine/CompEvents.lean ====
section
/-! DEFINITION. The operations on compartment descriptors (22 R332 to R335, R345), the removal of clusters (15 R283, 17 R295), and
the reset of a compartment (22 R346, 23 R349, R350). -/

namespace Sys2Proof.Machine

/-! ## Operations (22 R333) -/

/-- An operation ends with a result; one that fails changes nothing else, and OP of a reset in progress stands (23 R350). -/
def compResult (s : State) (c r : Nat) : State :=
  let x := comp s c
  setComp s c { x with desc := { x.desc with op := if inReset s c then x.desc.op else 0, result := r } }

/-- CLUSTERS of a compartment's descriptor as it stands there (22 R332): as written, or as held. -/
def clustersField (x : Comp) : BitVec 16 := x.written.getD x.desc.clusters

/-- Other compartments that exist. -/
def others (s : State) (c : Nat) : List Nat := (List.range 16).filter fun k => k ≠ c && (comp s k).desc.state ≠ 0

/-- Bit 1 of FLAGS: strict mode (22 R332). -/
def isStrict (d : Descriptor) : Bool := d.flags.getLsbD 1

/-- A malformed descriptor (22 R332, R334). -/
def descBad (d : Descriptor) : Bool :=
  !d.reservedZero || 4 ≤ d.flags.toNat || d.clusters = 0 || d.resv % 65536 ≠ 0 || d.trace % 4096 ≠ 0 || d.tracesz % 4096 ≠ 0

/-- The reserved memory is too small, or overlaps another compartment's. -/
def resvBad (s : State) (c : Nat) (clusters : BitVec 16) (resv size : Nat) : Bool :=
  size < 2 ^ 26 * ((List.range 16).filter fun n => clusters.getLsbD n).length ||
  (others s c).any fun k => (comp s k).desc.resv < resv + size && resv < (comp s k).desc.resv + (comp s k).desc.resvsz

/-- The colours of a new compartment are empty, or shared where strict mode forbids it. -/
def colourBad (s : State) (c colmask : Nat) (strict : Bool) : Bool :=
  colmask = 0 || (others s c).any fun k =>
    (strict || isStrict (comp s k).desc) && Nat.land (comp s k).xlate.colmask colmask ≠ 0

/-- The strict shares of memory bandwidth and power exceed the package (22 R345, R347). -/
def shareBad (s : State) (c : Nat) (d : Descriptor) : Bool :=
  let l := (others s c).filter fun k => isStrict (comp s k).desc
  isStrict d && (256 < l.foldl (fun n k => n + (comp s k).desc.memshare) d.memshare ||
    3000 < l.foldl (fun n k => n + (comp s k).desc.power) d.power)

/-- The key slot that the SCE assigns: the lowest free one (log 43). -/
def freeSlotKey (s : State) (c : Nat) : Nat :=
  (((List.range 31).map (· + 1)).find? fun n => !(others s c).any fun k => (comp s k).desc.keyid = n).getD 1

/-- Slot KEYID is loaded with a new key. -/
def newKey (s : State) (slot : Nat) : State := { s with keyGen := Tab.put s.keyGen slot (Tab.getD s.keyGen slot 0 + 1) }

/-- CREATE (22 R334): its result, checks in this order. -/
def createResult (s : State) (c : Nat) (d : Descriptor) : Nat :=
  if (comp s c).desc.state ≠ 0 then 1
  else if descBad d then 8
  else if (others s c).any fun k => (comp s k).desc.clusters &&& d.clusters ≠ 0 then 2
  else if colourBad s c (readXlate s d.xlate).colmask (isStrict d) then 3
  else if resvBad s c d.clusters d.resv d.resvsz then 4
  else if shareBad s c d then 5
  else 0

def createComp (s : State) (c : Nat) (d : Descriptor) : State :=
  let r := createResult s c d
  if r ≠ 0 then compResult s c r
  else
    let slot := freeSlotKey s c
    let x := readXlate s d.xlate
    let s := newKey s slot
    let s := setComp s c { comp s c with
      desc := { d with state := 1, op := 0, result := 0, keyid := slot }, xlate := { x with keyid := slot } }
    let s := ownXlate s c slot x.colmask
    if s.sce.tenancies.contains d.tenancy then s
    else { s with sce := { s.sce with tenancies := s.sce.tenancies ++ [d.tenancy] } }

/-- The Postmaster reads a new operation of a compartment: none is in progress, but for a reset, which answers it with RESULT 1 (23
R350). -/
def opReady (s : State) (c : Nat) : Bool := s.powered && c < 16 && ((comp s c).desc.op = 0 || inReset s c)

def execCreate (comp' : Nat) (d : Descriptor) (s : State) :=
  occur (opReady s comp') (fun s => createComp s comp' d) s

/-! ## START and STOP -/

/-- The logical clusters of a core's group of four are a whole hitch, each in its place (15 R284, 09 R188). -/
def wholeHitch (s : State) (c logical : Nat) : Bool :=
  (physicalCore s c (logical / 16 * 16)).any fun p =>
    p % 16 = 0 && (List.range 4).all fun i => physicalCore s c (logical / 16 * 16 + 4 * i) = some (p + 4 * i)

/-- The place of a saved crew once its compartment holds other clusters (15 R284): its logical core, or 64 and more while the
compartment cannot hold it. -/
def restoreWant (s : State) (c : Nat) (x : Crew) (logical : Nat) : Nat :=
  let whole := wholeHitch s c logical
  match physicalCore s c logical with
  | some k => if ((region? s x.region).any fun r => r.flags.testBit 1) && !whole then 64 + logical else k
  | none => 64 + logical

/-- The logical core that a saved crew names. -/
def wantedLogical (s : State) (c w : Nat) : Nat := if 64 ≤ w then w - 64 else logicalCore s c w

/-- A crew that has left its core goes on at another one: an acquire at .dev there, and its monitored words with it (10 R199, 15 R269). -/
def restoreCrew (s : State) (ck k : Nat) : State :=
  (crewTeams s ck).foldl (fun s key => onTeam s key (moveWaits s k k)) (acquireAt s k 4)

/-- A saved crew that the compartment cannot hold is not restored: an error record (15 R284). -/
def restoreCheck (s : State) (c ck : Nat) : State :=
  match (crew? s ck).bind fun x => x.want.map fun w => (x, w) with
  | none => s
  | some (x, v) =>
    let w := restoreWant s c x (wantedLogical s c v)
    let s := onCrew s ck fun x => { x with want := some w }
    if 64 ≤ w then pushErr s c { code := 7 } else if 64 ≤ v then restoreCrew s ck w else s

/-- Teams of a compartment or of a crew go on after a capture. -/
def uncapture (t : Team) : Team := { t with captured := false, stopReq := false, force := false, graceAt := 0 }

def startComp (s : State) (c : Nat) : State :=
  let x := comp s c
  if x.desc.state ≠ 1 && x.desc.state ≠ 3 then compResult s c 1
  else
    let s := compResult (setComp s c { x with desc := { x.desc with state := 2 }, owed := 0, runAt := s.time + 2100 * x.owed }) c 0
    let s := { s with teams := s.teams.map fun t => if t.2.comp = c then (t.1, uncapture t.2) else t }
    let s := (compCrews s c).foldl (fun s ck => restoreCheck s c ck) s
    let s := (s.regions.filter fun r => r.2.comp = c && r.2.state = 3).foldl (fun s r => setRegionState s r.1 1) s
    refuse s c

def execStart (comp' : Nat) (s : State) := occur (opReady s comp') (fun s => startComp s comp') s

def stopOp (s : State) (c : Nat) : State :=
  let x := comp s c
  if x.desc.state ≠ 2 then compResult s c 1
  else
    let s := setComp s c { x with desc := { x.desc with op := 4 } }
    match x.stop with
    | some q => setComp s c { comp s c with stop := some { q with op := true } }
    | none => stopComp s c (usec s) true

def execStop (comp' : Nat) (s : State) := occur (opReady s comp') (fun s => stopOp s comp') s

/-! ## RESIZE (22 R335) -/

/-- Physical clusters that a set holds. -/
def clustersOf (b : BitVec 16) : List Nat := (List.range 16).filter fun n => b.getLsbD n

/-- RESIZE keeps the logical numbers of what remains: clusters are added above, or the highest removed. -/
def renumbers (old new' : BitVec 16) : Bool :=
  let added := (clustersOf new').filter fun n => !old.getLsbD n
  let removed := (clustersOf old).filter fun n => !new'.getLsbD n
  !((removed = [] && added.all fun a => (clustersOf old).all fun n => n < a) ||
    (added = [] && removed.all fun r => (clustersOf new').all fun n => n < r))

def resizeResult (s : State) (c : Nat) (clusters : BitVec 16) : Nat :=
  let d := (comp s c).desc
  if d.state ≠ 1 && d.state ≠ 2 && d.state ≠ 3 then 1
  else if clusters = 0 then 8
  else if clusters ≠ d.clusters && frozen s c then 6
  else if (others s c).any fun k => (comp s k).desc.clusters &&& clusters ≠ 0 then 2
  else if resvBad s c clusters d.resv d.resvsz then 4
  else if d.state = 2 && renumbers d.clusters clusters then 7
  else 0

/-- Cores that leave a compartment: its words and entries go from them. -/
def leaveCores (s : State) (c : Nat) (ks : List Nat) : State :=
  ks.foldl (fun s k =>
    let s := flushL1 s k
    let x := core s k
    let s := setCore s k { x with tlb := x.tlb.filter (fun e => e.comp ≠ c), groups := [], clwin := [], inbox := [] }
    let y := cluster s (k / 4)
    let s := setMhz s k 2100
    setCluster s (k / 4) { y with fused := false, tlb := y.tlb.filter (fun e => e.comp ≠ c), tlb2 := y.tlb2.filter fun e => e.comp ≠ c }) s

/-- The bins of a compartment on cores that leave it go to its first core that stays, where their timers begin again (log 104). -/
def moveBins (s : State) (c : Nat) (ks : List Nat) (to' : Option Nat) : State :=
  match to' with
  | none => s
  | some j =>
    ks.foldl (fun s k =>
      let bs := (core s k).bins.filter fun b => b.comp = c
      let s := setCore s k { core s k with bins := (core s k).bins.filter fun b => b.comp ≠ c }
      setCore s j { core s j with bins := (core s j).bins ++ bs.map fun (b : Bin) => { b with first := clk s j } }) s

/-- Cores that join a compartment hold the copies of its groups; their windows are at reset until the supervisor sets them (02 R29). -/
def joinCores (s : State) (from' : Nat) (ks : List Nat) : State :=
  ks.foldl (fun s k => setCore s k { core s k with groups := (core s from').groups, clwin := [] }) s

/-- The compartment holds the clusters given. -/
def takeClusters (s : State) (c : Nat) (clusters : BitVec 16) : State :=
  let old := compCores s c
  let x := comp s c
  let s := setComp s c { x with desc := { x.desc with clusters := clusters } }
  let new' := compCores s c
  let gone := old.filter fun k => !new'.contains k
  let s := leaveCores (moveBins s c gone new'.head?) c gone
  let s := joinCores s (old.headD 0) (new'.filter fun k => !old.contains k)
  -- fewer than eight clusters are not steered: they run at 2.1 GHz (15 R271)
  let s := if clusterCount s c < 8 then new'.foldl (fun s k => setMhz s k 2100) s else s
  refuse s c

/-- Saved crews of a stopped compartment leave their cores, naming the logical core that held them (15 R269, R284). -/
def unseat (s : State) (c : Nat) : State :=
  (compCrews s c).foldl (fun s ck =>
    let s := (placedTeams s ck).foldl evict s
    onCrew s ck fun x =>
      match x.core.orElse fun _ => x.want with
      | some w => { x with core := none, want := some (64 + wantedLogical s c w) }
      | none => x) s

def resizeComp (s : State) (c : Nat) (clusters : BitVec 16) : State :=
  let r := resizeResult s c clusters
  let x := comp s c
  if r ≠ 0 then compResult s c r
  else
  let s := setComp s c { x with written := none }
  let x := comp s c
  if x.desc.state ≠ 2 then compResult (takeClusters (unseat s c) c clusters) c 0
  else if (clustersOf x.desc.clusters).all fun n => clusters.getLsbD n then compResult (takeClusters s c clusters) c 0
  else
    let s := setComp s c { x with desc := { x.desc with op := 2 } }
    let gone (k : Nat) : Bool := !clusters.getLsbD (k / 4)
    let wins := (compCores s c).flatMap fun k => (core s k).groups.filterMap fun g =>
      if g.2.members.any fun m => (localMember s c m.2).any gone then some (Tab.getD (core s k).clwin g.1 0).toNat else none
    setComp s c { comp s c with leaving := some ⟨clusters, beat s + wins.foldl max 0, none⟩ }

def execResize (comp' : Nat) (clusters : BitVec 16) (s : State) :=
  occur (opReady s comp') (fun s => resizeComp s comp' clusters) s

/-! ## The removal of clusters from a running compartment (15 R283, 17 R295) -/

/-- A captured crew can be moved: nothing of it is on its way, nor is what an ended team has left. -/
def movable (s : State) (ck : Nat) : Bool :=
  (crewTeams s ck).all fun k => (team? s k).all fun t =>
    teamDrained s k && (t.live = 0 || t.place.isNone || t.captured)

/-- DESIGN CHOICE (log 103): the stop of step 3 has the region's DRAIN for its teams to park and drain, and a crew moves once that has passed. -/
def drainPast (s : State) (l : Leaving) (rk : Nat) : Bool :=
  l.stopped.any fun t => t + 2100 * ((region? s rk).map (·.drain)).getD 0 ≤ s.time

/-- The cores that stay which a region allows; all of them where its CORES names none (15 R283, log 103). -/
def stayingCores (s : State) (c rk : Nat) : List Nat :=
  let stay := (compCores s c).filter fun k => !departing s c k
  let own := stay.filter fun k => (region? s rk).any fun r => r.cores.testBit (logicalCore s c k)
  if own = [] then stay else own

/-- A captured team goes on, if its compartment runs and is not being stopped. -/
def release (s : State) (c : Nat) (t : Team) : Team :=
  if (comp s c).stop.isSome || !compUp s c then t else uncapture t

/-- A crew of a departing core on one that stays, with a forwarding entry: the lowest that its region allows and that has room. -/
def moveOff (s : State) (ck : Nat) (c : Crew) (old : Nat) : State :=
  let t := dropForwards s old
  match (stayingCores s c.comp c.region).find? fun k => poolRoom s k c with
  | none => s
  | some k =>
    if 64 ≤ (core t old).forwards.length || !movable s ck || c.suspending.isSome then s
    else
      let s := (placedTeams t ck).foldl evict t
      let s := moveReqs (moveOrder (giveWays s k c.scr) old k) ck k
      let s := onCrew s ck fun c => { c with core := some k, want := none }
      let s := (crewTeams s ck).foldl (fun s key => onTeam s key fun t => release s c.comp (moveWaits s old k t)) s
      let x := core s old
      setCore s old { x with forwards := x.forwards ++ [(ck, k)] }

/-- A saved crew that was to go on at a departing core goes on at one that stays. -/
def wantElsewhere (s : State) (ck : Nat) (c : Crew) (old : Nat) : State :=
  match (stayingCores s c.comp c.region).head? with
  | none => s
  | some k =>
    let s := onCrew s ck fun c => { c with want := some k }
    (crewTeams s ck).foldl (fun s key => onTeam s key fun t => release s c.comp (moveWaits s old k t)) s

/-- A crew leaves a departing core. -/
def leaveCore (s : State) (l : Leaving) (ck : Nat) : State :=
  match crew? s ck with
  | none => s
  | some c =>
    if !drainPast s l c.region then s
    else
      match c.core, c.want with
      | some k, _ => if departing s c.comp k then moveOff s ck c k else s
      | none, some k => if k < 64 && departing s c.comp k then wantElsewhere s ck c k else s
      | none, none => s

/-- A cluster is being removed from a compartment. -/
def clusterLeaves (s : State) (c n : Nat) : Bool := departing s c (4 * n)

/-- Nothing is left on departing cores: no crew, no request, no engine operation, no member of a group. -/
def coresLeft (s : State) (c : Nat) : Bool :=
  !(s.crews.any fun x => x.2.comp = c && (x.2.core.orElse fun _ => x.2.want).any fun k => k < 64 && departing s c k) &&
  !(s.reqs.any fun r => teamComp r.team = c && departing s c r.core) &&
  !(s.mats.any fun m => teamComp m.team = c && clusterLeaves s c m.cluster) &&
  !(s.copies.any fun x => teamComp x.team = c && clusterLeaves s c x.cluster) &&
  (compCores s c).all fun k => (core s k).groups.all fun g => !groupLeaving s k c g.1

/-- The clusters go, and the operation ends. -/
def endLeaving (s : State) (c : Nat) (l : Leaving) : State :=
  compResult (takeClusters (setComp s c { comp s c with leaving := none }) c l.kept) c 0

/-- The removal goes on: the window of step 2, the stops of step 3, the moves of step 5, and its end. Nothing of it goes on while the
compartment is being stopped (15 R272), and one that has stopped loses the clusters as by a RESIZE in STATE 3 (log 104). -/
def advanceLeaving (s : State) (c : Nat) : State :=
  match (comp s c).leaving with
  | none => s
  | some l =>
    if (comp s c).stop.isSome then s
    else if (comp s c).desc.state = 3 then endLeaving (unseat s c) c l
    else if !compUp s c then s
    else if l.stopped.isNone then
      if beat s < l.window then s
      else
        let s := setComp s c { comp s c with leaving := some { l with stopped := some s.time } }
        ((compCrews s c).filter fun ck => (crew? s ck).any fun x => x.core.any (departing s c)).foldl stopCrew s
    else
      let s := (compCrews s c).foldl (fun s ck => leaveCore s l ck) s
      if coresLeft s c then endLeaving s c l else s

/-- A START that has waited for the operation in progress (22 R333). -/
def startLate (s : State) (c : Nat) : State :=
  if (comp s c).startAsked && (comp s c).desc.op = 0 && !inReset s c then startComp (setComp s c { comp s c with startAsked := false }) c else s

/-! ## The reset of a compartment (22 R346) -/

/-- A request of the compartment in a shared queue finishes its path, unless the walk has ended as a miss. -/
def finishQueued (s : State) (c : Nat) : State × Nat :=
  let ids := (s.reqs.filter fun r => teamComp r.team = c && r.stage.queued.isSome && !r.missed).map (·.id)
  let st := s.stalls
  let s := ids.foldl (fun s id => runReq s id .clean) { s with stalls := [] }
  let left := ids.filter fun id => (req? s id).any fun r => r.stage.bounced || r.missed
  ({ s with stalls := st }, ids.length - left.length)

/-- Step 2: what the compartment has outstanding is discarded. -/
def discardWork (s : State) (c : Nat) : State × Nat :=
  let mine (k : Nat) : Bool := teamComp k = c
  let n := (s.reqs.filter fun r => mine r.team && (r.stage.bounced || r.missed)).length +
    (s.copies.filter fun x => mine x.team).length + (s.mats.filter fun m => mine m.team).length
  let s := (s.mats.filter fun m => mine m.team).foldl countPasses s
  ({ s with
      spawning := s.spawning.filter fun x => x.comp ≠ c
      reqs := s.reqs.filter fun r => !mine r.team
      ops := s.ops.filter fun o => !mine o.team
      mats := s.mats.filter fun m => !mine m.team
      copies := s.copies.filter fun x => !mine x.team
      fetched := s.fetched.filter fun f => !mine f.team
      cur := s.cur.filter fun u => !mine u.team }, n)

/-- Unacknowledged remote stores are lost: one error record for each stream and coach. -/
def loseStreams (s : State) (c : Nat) : State × Nat :=
  let mine := s.streams.filter fun x => teamComp x.team = c
  let lost := mine.filter fun x => x.unacked ≠ [] || x.waiting ≠ []
  let s := lost.foldl (fun s x =>
    let qs := (x.unacked ++ x.waiting).map (·.seq)
    loseWrites s x.team x.coach qs.length (qs.foldl min (qs.headD 0)) (qs.foldl max 0) 1 true) s
  ({ s with streams := s.streams.filter fun x => teamComp x.team ≠ c }, lost.length)

/-- Step 3: proposals resolve without effect writes, and the ranks of the compartment's own cores are vacated on other coaches. -/
def dropClaims (s : State) (c : Nat) : State × Nat :=
  let ks := compCores s c
  let n := ((ks.flatMap fun k => (core s k).outgoing).filter fun p => p.2.outcome.isNone).length
  let k0 := ks.headD 0
  let msgs := (core s k0).groups.flatMap fun g => g.2.members.flatMap fun m =>
    if memberPeer m.2 then []
    else (groupCoaches s c g.1).map fun t => OutMsg.membership t { group := g.1, rank := m.1, member := none, team := 0 }
  let s := ks.foldl (fun s k => setCore s k { core s k with outgoing := [], inbox := [], groups := [], clwin := [] }) s
  let here (e : PlaneMsg) : Bool := match e.event with
    | .claimAnnouncement k _ => ks.contains k
    | _ => false
  ({ s with out := s.out ++ msgs, plane := s.plane.filter fun e => !here e }, n)

/-- The number that shows an interface's state (23 R349). -/
def tdiNum : Tdi → Nat
  | .unlocked => 0
  | .locked => 1
  | .run => 2
  | .error => 3

/-- A reset begins, or joins the one in progress: steps 1 to 3. -/
def beginReset (s : State) (c kind : Nat) (free : Bool) : State :=
  let x := comp s c
  match x.resetting with
  | some r => setComp s c { x with resetting := some { r with free := r.free || free } }
  | none =>
    let teams := (s.teams.filter fun t => t.2.comp = c && t.2.live ≠ 0).length
    let s := setComp s c { x with desc := { x.desc with state := 5 }, stop := none, leaving := none, startAsked := false }
    let s := (compCores s c).foldl (fun s k => setCore s k { core s k with bins := (core s k).bins.filter fun b => b.comp ≠ c }) s
    let (s, qdone) := finishQueued s c
    let (s, discard) := discardWork s c
    let (s, lost) := loseStreams s c
    let (s, claims) := dropClaims s c
    setComp s c { comp s c with
      resetting := some ⟨kind, free, tdiNum x.tdi, s.time, qdone, discard, lost, claims, teams⟩ }

/-- Step 4: the compartment's teams, crews and regions go, with their rows, tiles, scratchpads, watchpoints and forwarding
entries, and every word and translation of the compartment. -/
def scrub (s : State) (c : Nat) : State :=
  let ks := compCores s c
  let ts := s.teams.filter fun t => t.2.comp = c
  let s := ts.foldl (fun s t =>
    match t.2.place with
    | some p => if (bench s p.benchNo).holder = some t.1 then endStint s p.benchNo else s
    | none => s) s
  let s := ks.foldl (fun s k => setMhz s k 2100) s
  let lines := (s.l2.filter fun x => x.2.key = compKey s c).map (·.2)
  let s := lines.foldl forgetLine s
  { s with
    heirs := s.heirs.filter fun h => teamComp h.1 ≠ c
    lateLost := s.lateLost.filter fun h => teamComp h.1 ≠ c
    lateDone := s.lateDone.filter fun h => teamComp h.1 ≠ c
    lateAns := s.lateAns.filter fun a => teamComp a.1 ≠ c
    lateDests := s.lateDests.filter fun d => d.1 / 2 ^ 20 ≠ c
    l2 := s.l2.filter fun x => x.2.key ≠ compKey s c
    teams := s.teams.filter fun t => t.2.comp ≠ c
    crews := s.crews.filter fun x => x.2.comp ≠ c
    regions := s.regions.filter fun r => r.2.comp ≠ c
    watches := s.watches.filter fun w => w.comp ≠ c
    owners := s.owners.filter fun o => !ks.contains o.2 && !lines.any fun e => e.line = o.1 / 16
    registering := s.registering.filter fun r => !ks.contains r.1
    cores := s.cores.map fun k => (k.1, { k.2 with
      l1 := k.2.l1.filter fun w => w.2.comp ≠ c
      dirtyLines := if ks.contains k.1 then [] else k.2.dirtyLines
      tlb := k.2.tlb.filter fun e => e.comp ≠ c
      forwards := if ks.contains k.1 then [] else k.2.forwards })
    clusters := s.clusters.map fun k => (k.1, { k.2 with
      fused := k.2.fused && !(ks.contains (4 * k.1))
      tlb := k.2.tlb.filter fun e => e.comp ≠ c
      tlb2 := k.2.tlb2.filter fun e => e.comp ≠ c }) }

/-- Lines of the L2 slices under a compartment's key. -/
def l2LineCount (s : State) (c : Nat) : Nat := (s.l2.filter fun x => x.2.key = compKey s c).length

/-- Lines of the L1s that hold words of a compartment. -/
def l1Lines (s : State) (c : Nat) : Nat :=
  s.cores.foldl (fun n k => n + (distinct ((k.2.l1.filter fun w => w.2.comp = c).map fun w => w.1 / 16)).length) 0

/-- The record of a reset (23 R349). -/
def resetImage (s : State) (c : Nat) (r : Resetting) : List Byte :=
  let placed := s.teams.filter fun t => t.2.comp = c && t.2.place.isSome
  let on := s.crews.filter fun x => x.2.comp = c && x.2.core.isSome
  image 32 [⟨0, 1, r.kind⟩, ⟨1, 1, c⟩, ⟨2, 1, (comp s c).desc.keyid⟩, ⟨3, 1, r.tdi⟩, ⟨4, 4, r.qdone⟩, ⟨8, 4, r.discard⟩,
    ⟨0xC, 2, r.lost⟩, ⟨0xE, 2, r.claims⟩, ⟨0x10, 2, placed.foldl (fun n t => n + t.2.rows) 0⟩,
    ⟨0x12, 1, on.foldl (fun n x => n + x.2.tiles.length) 0⟩, ⟨0x13, 1, on.foldl (fun n x => n + x.2.scr) 0⟩,
    ⟨0x14, 4, l1Lines s c + l2LineCount s c⟩, ⟨0x18, 4, usec s - r.since / 2100⟩,
    ⟨0x1C, 2, r.teams⟩]

/-- The compartment's registers after its reset (22 R346 step 6): the descriptor's fields, what the hypervisor has set and the
counters that outlive a reset stay. -/
def resetComp (x : Comp) (free : Bool) : Comp :=
  { desc := { x.desc with state := if free then 0 else 1, op := 0, result := if x.desc.op = 0 then x.desc.result else 0 },
    xlate := x.xlate, staged := x.staged, heap := x.heap, fidCtr := x.fidCtr, gen := x.gen, crewSerial := x.crewSerial,
    exports := x.exports, policySerial := x.policySerial }

/-- Steps 4 to 6 of a reset. -/
def endReset (s : State) (c : Nat) : State :=
  match (comp s c).resetting with
  | none => s
  | some r =>
    let img := resetImage s c r
    let s := newKey (scrub s c) (comp s c).desc.keyid
    pushHeq (setComp s c (resetComp (comp s c) r.free)) img

def execResetCompletion (comp' : Nat) (s : State) :=
  occur (comp s comp').resetting.isSome (fun s => endReset s comp') s

/-- A compartment that has been created (or is being reset). -/
def created (s : State) (c : Nat) : Bool := c < 16 && (comp s c).desc.state ≠ 0

def execFlr (comp' : Nat) (s : State) := occur (created s comp') (fun s => beginReset s comp' 1 false) s

/-- DESTROY (22 R333): it joins a reset in progress. -/
def destroyComp (s : State) (c : Nat) : State :=
  let x := comp s c
  if x.desc.state = 5 then beginReset s c 3 true
  else if x.desc.state ≠ 1 && x.desc.state ≠ 3 then compResult s c 1
  else if frozen s c then compResult s c 6
  else beginReset (setComp s c { x with desc := { x.desc with op := 3 } }) c 3 true

def execDestroy (comp' : Nat) (s : State) :=
  occur (s.powered && comp' < 16 && ((comp s comp').desc.op = 0 || (comp s comp').desc.state = 5))
    (fun s => destroyComp s comp') s

end Sys2Proof.Machine
end

