-- ==== Sys2Proof/Machine/Flags.lean ====
section
/-! DEFINITION. FPSTAT (02 R24, R25), the significance check (04 R73) and the traps after a floating-point result (R74). -/

namespace Sys2Proof.Machine

/-- The active rounding mode (04 R63). -/
def Ctx.mode (c : Ctx) : Nat := c.hints.hrnd.getD (c.team.rmode.toNat % 8)

/-- θ: a bound HSIG, or SIGTH.THR (04 R73). -/
def Ctx.theta (c : Ctx) : Nat := c.hints.hsig.getD (c.team.sigth.toNat % 64)

/-- What a floating-point instruction produced: its results by lane and register, the effective tags of its operands, the
number of registers checked, and whether it makes the significance check. -/
structure FpOut where
  n : Nat
  check : Bool
  res : Nat → Nat → FRes
  eff : Nat → Nat → List Nat

/-- A register's result is lost (04 R73). -/
def FpOut.lost (o : FpOut) (c : Ctx) (i j : Nat) : Bool :=
  let t := (o.res i j).tag
  o.check && t ≠ 63 && t < c.theta

/-- The lowest lost register of a lane, or register 0 (15 R279 SIGT). -/
def FpOut.reg (o : FpOut) (c : Ctx) (i : Nat) : Nat := ((List.range o.n).find? fun j => o.lost c i j).getD 0

/-- A lane has a lost result. -/
def FpOut.laneLost (o : FpOut) (c : Ctx) (i : Nat) : Bool := (List.range o.n).any fun j => o.lost c i j

/-- The flags of a lane, ORed over its elements (04 R66). -/
def FpOut.laneFlags (o : FpOut) (i : Nat) : FFlags := (List.range o.n).foldl (fun f j => f.or (o.res i j).fl) {}

/-- The flags of the instruction, ORed over its active lanes (02 R25). -/
def FpOut.flags (o : FpOut) (c : Ctx) : FFlags := (lanesOf c.act).foldl (fun f i => f.or (o.laneFlags i)) {}

/-- SIGT (15 R279): per lane the operands' effective tags, then the result's. -/
def FpOut.sigt (o : FpOut) (c : Ctx) : List Nat :=
  laneList.flatMap fun i =>
    if c.active i then
      let j := o.reg c i
      let e := o.eff i j
      [e.getD 0 0, e.getD 1 0, e.getD 2 0, (o.res i j).tag]
    else [0, 0, 0, 0]

/-- A lost result came from operands all at or above θ (04 R73 CROSS). -/
def FpOut.crossed (o : FpOut) (c : Ctx) : Bool :=
  (lanesOf c.act).any fun i => (List.range o.n).any fun j => o.lost c i j && (o.eff i j).all fun t => c.theta ≤ t

/-- The FPSTAT bits an instruction sets: IV to NX, and SL (02 R24). -/
def FpOut.statBits (o : FpOut) (c : Ctx) : Nat :=
  (o.flags c).bits + if (lanesOf c.act).any (o.laneLost c) then 32 else 0

/-- The trap after a floating-point instruction, if any (04 R74): FPX for an enabled flag, otherwise SIGLOSS. -/
def FpOut.post (o : FpOut) (c : Ctx) : Option TrapInfo :=
  let fl := (o.flags c).bits
  let en := c.team.fpstat.toNat / 2 ^ 16 % 32
  let raised := Nat.land fl en
  let lostAny := (lanesOf c.act).any (o.laneLost c)
  let info (cause flane : Nat) : TrapInfo :=
    { cause := cause, tpc := c.cur.pc, theta := c.theta, slmask := c.act &&& maskOf (o.laneLost c), sigt := o.sigt c,
      flane := flane }
  if raised ≠ 0 then
    some (info 0xC (((lanesOf c.act).find? fun i => Nat.land (o.laneFlags i).bits en ≠ 0).getD 0))
  else if c.team.sigth.getLsbD 8 && lostAny && (!c.team.sigth.getLsbD 9 || o.crossed c) then
    some (info 0xB (((lanesOf c.act).find? fun i => o.laneLost c i).getD 0))
  else none

/-- FPSTAT after the instruction (02 R25). -/
def raiseFlags (c : Ctx) (bits : Nat) (s : State) : State :=
  onTeam s c.key fun t => { t with fpstat := t.fpstat ||| BitVec.ofNat 32 bits }

/-- A floating-point instruction whose results are written by `w`. -/
def fpPerform (h : Shape) (out : Ctx → FpOut) (w : Ctx → FpOut → State → State) (s : State) :
    Host.Outcome State Fault Refusal :=
  performGated h (fun _ _ => .go) (fun c s =>
    let o := out c
    { s := raiseFlags c (o.statBits c) (w c o s), post := o.post c }) s

/-- One result per lane, latching. -/
def writeFp1 (c : Ctx) (o : FpOut) (s : State) : State :=
  writeVector c (fun i => let r := o.res i 0; ⟨BitVec.ofNat 32 r.bits, BitVec.ofNat 6 r.tag⟩) s

/-- Several 32-bit results per lane (06 R104). -/
def writeFpN (c : Ctx) (o : FpOut) (s : State) : State :=
  writeGroup c o.n (fun j i => let r := o.res i j; ⟨BitVec.ofNat 32 r.bits, BitVec.ofNat 6 r.tag⟩) s

/-- A 64-bit result per lane: the tag on the even register, 63 on the odd one (02 R21, 06 R105). -/
def writeFp64 (c : Ctx) (o : FpOut) (s : State) : State :=
  writeGroup c 2 (fun j i =>
    let r := o.res i 0
    ⟨BitVec.ofNat 32 (r.bits / 2 ^ (32 * j)), if j = 0 then BitVec.ofNat 6 r.tag else 63⟩) s

/-- A 32-bit operand of a slot as a floating-point value. -/
def Ctx.f (c : Ctx) (slot j i : Nat) : Fop :=
  let x := c.v slot j i
  ⟨decodeF f32 x.val.toNat, effTag f32 x.tag.toNat⟩

/-- A 64-bit operand of a slot: its tag is the even register's (02 R21). -/
def Ctx.f64 (c : Ctx) (slot i : Nat) : Fop :=
  ⟨decodeF Machine.f64 (c.v64 slot i), effTag Machine.f64 (c.v slot 0 i).tag.toNat⟩

/-- The effective tags of the FP32 operands in some slots. -/
def Ctx.effs (c : Ctx) (slots : List Nat) (i j : Nat) : List Nat := slots.map fun k => effTag f32 (c.v k j i).tag.toNat

/-- The effective tags of the FP64 operands in some slots. -/
def Ctx.effs64 (c : Ctx) (slots : List Nat) (i : Nat) : List Nat :=
  slots.map fun k => effTag Machine.f64 (c.v k 0 i).tag.toNat

/-- Integer division by zero (02 R25). -/
def raiseIdz (c : Ctx) (s : State) : State := raiseFlags c 64 s

end Sys2Proof.Machine
end

