-- ==== Sys2Proof/Machine/Float.lean ====
section
/-! DEFINITION. Floating-point, conversion and tag instructions, majors 0x12 to 0x19 (06 R97 to R114). -/

namespace Sys2Proof.Machine

/-- One FP32 result per lane with the significance check; `slots` are the operands it reads (06 R97). -/
def fp1 (h : Shape) (slots : List Nat) (f : Ctx → Nat → FRes) (s : State) : Host.Outcome State Fault Refusal :=
  fpPerform h (fun c => { n := 1, check := true, res := fun i _ => f c i, eff := c.effs slots }) writeFp1 s

/-- A binary minor (06 R99, R101). -/
def fpBin (h : Shape) (f : Nat → Fop → Fop → FRes) (s : State) : Host.Outcome State Fault Refusal :=
  fp1 h [0, 1] (fun c i => f c.mode (c.f 0 0 i) (c.f 1 0 i)) s

/-- A unary minor. -/
def fpUn (h : Shape) (f : Nat → Fop → FRes) (s : State) : Host.Outcome State Fault Refusal :=
  fp1 h [0] (fun c i => f c.mode (c.f 0 0 i)) s

/-- A fused minor (06 R101): the old D is the addend. -/
def fpFma (h : Shape) (neg sub : Bool) (s : State) : Host.Outcome State Fault Refusal :=
  fp1 h [0, 1, 2] (fun c i => fmaR f32 c.mode neg sub (c.f 0 0 i) (c.f 1 0 i) (c.f 2 0 i)) s

/-- Subtraction: the negated subtrahend is added (04 R63). -/
def subR (f : Format) (mode : Nat) (a b : Fop) : FRes := addR f mode a { b with val := negF b.val }

/-- FMIN or FMAX of two registers with their stored tags (06 R100). -/
def selCell (greater : Bool) (a b : Cell) : FRes :=
  selR f32 greater a.val.toNat b.val.toNat a.tag.toNat b.tag.toNat

/-! ## FP32, majors 0x12 and 0x13 (06 R99 to R102) -/

def execFadd (x : V3) (s : State) := fpBin (Shape.v3 0x12 x) (addR f32) s
def execFsub (x : V3) (s : State) := fpBin (Shape.v3 0x12 x) (subR f32) s
def execFmul (x : V3) (s : State) := fpBin (Shape.v3 0x12 x) (mulR f32) s
def execFmin (x : V3) (s : State) := fp1 (Shape.v3 0x12 x) [0, 1] (fun c i => selCell false (c.v 0 0 i) (c.v 1 0 i)) s
def execFmax (x : V3) (s : State) := fp1 (Shape.v3 0x12 x) [0, 1] (fun c i => selCell true (c.v 0 0 i) (c.v 1 0 i)) s

/-- FABS, FNEG and FCPSGN change the sign bit (06 R99). -/
def execFabs (x : V3) (s : State) :=
  fp1 (Shape.v3u 0x12 x) [0] (fun c i =>
    let a := c.v 0 0 i
    signR f32 (a.val &&& 0x7FFFFFFF).toNat a.tag.toNat) s
def execFneg (x : V3) (s : State) :=
  fp1 (Shape.v3u 0x12 x) [0] (fun c i =>
    let a := c.v 0 0 i
    signR f32 (a.val ^^^ 0x80000000).toNat a.tag.toNat) s
def execFcpsgn (x : V3) (s : State) :=
  fp1 (Shape.v3 0x12 x) [0, 1] (fun c i =>
    let a := c.v 0 0 i
    let b := c.v 1 0 i
    signR f32 (a.val &&& 0x7FFFFFFF ||| b.val &&& 0x80000000).toNat a.tag.toNat) s

def execFfma (x : V3) (s : State) := fpFma (Shape.v3d 0x13 x) false false s
def execFfms (x : V3) (s : State) := fpFma (Shape.v3d 0x13 x) false true s
def execFnfma (x : V3) (s : State) := fpFma (Shape.v3d 0x13 x) true false s
def execFdiv (x : V3) (s : State) := fpBin (Shape.v3 0x13 x) (divR f32) s
def execFsqrt (x : V3) (s : State) := fpUn (Shape.v3u 0x13 x) (sqrtR f32) s
def execFrcp (x : V3) (s : State) := fpUn (Shape.v3u 0x13 x) (fun _ => rcpR) s
def execFrsq (x : V3) (s : State) := fpUn (Shape.v3u 0x13 x) (fun _ => rsqR) s
def execFexp2 (x : V3) (s : State) := fpUn (Shape.v3u 0x13 x) (fun _ => exp2R) s

/-! ## Major 0x14 (06 R102, R103) -/

def execFlog2 (x : V3) (s : State) := fpUn (Shape.v3u 0x14 x) (fun _ => log2R) s
def execFsinpi (x : V3) (s : State) := fpUn (Shape.v3u 0x14 x) (fun _ => sinPiR false) s
def execFcospi (x : V3) (s : State) := fpUn (Shape.v3u 0x14 x) (fun _ => sinPiR true) s

/-- A rounding to integral in a mode (06 R103). -/
def fpIntegral (x : V3) (mode : Ctx → Nat) (s : State) : Host.Outcome State Fault Refusal :=
  fp1 (Shape.v3u 0x14 x) [0] (fun c i => integralR (mode c) (c.v 0 0 i).val.toNat (c.f 0 0 i)) s

def execFfloor (x : V3) (s : State) := fpIntegral x (fun _ => 3) s
def execFceil (x : V3) (s : State) := fpIntegral x (fun _ => 2) s
def execFtrunc (x : V3) (s : State) := fpIntegral x (fun _ => 1) s
def execFrint (x : V3) (s : State) := fpIntegral x Ctx.mode s
def execFfract (x : V3) (s : State) := fpUn (Shape.v3u 0x14 x) fractR s

/-! ## Quad forms, major 0x15 (06 R104) -/

/-- Four results per lane, each as the FP32 form. -/
def fp4 (h : Shape) (slots : List Nat) (f : Ctx → Nat → Nat → FRes) (s : State) : Host.Outcome State Fault Refusal :=
  fpPerform h (fun c => { n := 4, check := true, res := f c, eff := c.effs slots }) writeFpN s

def quadBin (x : V3) (f : Nat → Fop → Fop → FRes) (s : State) : Host.Outcome State Fault Refusal :=
  fp4 (Shape.v3n 0x15 x 4) [0, 1] (fun c i j => f c.mode (c.f 0 j i) (c.f 1 j i)) s

def quadFma (x : V3) (sub : Bool) (s : State) : Host.Outcome State Fault Refusal :=
  fp4 (Shape.v3nd 0x15 x 4) [0, 1, 2] (fun c i j => fmaR f32 c.mode false sub (c.f 0 j i) (c.f 1 j i) (c.f 2 j i)) s

def quadSel (x : V3) (greater : Bool) (s : State) : Host.Outcome State Fault Refusal :=
  fp4 (Shape.v3n 0x15 x 4) [0, 1] (fun c i j => selCell greater (c.v 0 j i) (c.v 1 j i)) s

def execF4add (x : V3) (s : State) := quadBin x (addR f32) s
def execF4sub (x : V3) (s : State) := quadBin x (subR f32) s
def execF4mul (x : V3) (s : State) := quadBin x (mulR f32) s
def execF4fma (x : V3) (s : State) := quadFma x false s
def execF4fms (x : V3) (s : State) := quadFma x true s
def execF4min (x : V3) (s : State) := quadSel x false s
def execF4max (x : V3) (s : State) := quadSel x true s

/-! ## FP64, major 0x16 (06 R105) -/

/-- One FP64 result per lane. -/
def fp64 (h : Shape) (slots : List Nat) (f : Ctx → Nat → FRes) (s : State) : Host.Outcome State Fault Refusal :=
  fpPerform h (fun c => { n := 1, check := true, res := fun i _ => f c i, eff := fun i _ => c.effs64 slots i }) writeFp64 s

def pairBin (x : V3) (f : Nat → Fop → Fop → FRes) (s : State) : Host.Outcome State Fault Refusal :=
  fp64 (Shape.v3n 0x16 x 2) [0, 1] (fun c i => f c.mode (c.f64 0 i) (c.f64 1 i)) s

def pairSel (x : V3) (greater : Bool) (s : State) : Host.Outcome State Fault Refusal :=
  fp64 (Shape.v3n 0x16 x 2) [0, 1] (fun c i =>
    selR Machine.f64 greater (c.v64 0 i) (c.v64 1 i) (c.v 0 0 i).tag.toNat (c.v 1 0 i).tag.toNat) s

def execDadd (x : V3) (s : State) := pairBin x (addR Machine.f64) s
def execDsub (x : V3) (s : State) := pairBin x (subR Machine.f64) s
def execDmul (x : V3) (s : State) := pairBin x (mulR Machine.f64) s
def execDfma (x : V3) (s : State) :=
  fp64 (Shape.v3nd 0x16 x 2) [0, 1, 2]
    (fun c i => fmaR Machine.f64 c.mode false false (c.f64 0 i) (c.f64 1 i) (c.f64 2 i)) s
def execDdiv (x : V3) (s : State) := pairBin x (divR Machine.f64) s
def execDsqrt (x : V3) (s : State) := fp64 (Shape.dsqrt x) [0] (fun c i => sqrtR Machine.f64 c.mode (c.f64 0 i)) s
def execDmin (x : V3) (s : State) := pairSel x false s
def execDmax (x : V3) (s : State) := pairSel x true s

/-! ## Packed 16-bit, major 0x17 (06 R106) -/

/-- Element h of a register. -/
def half (v : Word) (h : Nat) : Nat := v.toNat / 2 ^ (16 * h) % 2 ^ 16

/-- A packed result of two elements: tag 63, no significance check. `n` is the number of its operands. -/
def packed (n : Nat) (h : Shape) (f : Ctx → Nat → Nat → Nat × FFlags) (s : State) : Host.Outcome State Fault Refusal :=
  fpPerform h (fun c =>
    { n := 1, check := false, eff := c.effs (List.range n),
      res := fun i _ =>
        let a := f c i 0
        let b := f c i 1
        ⟨a.1 + 2 ^ 16 * b.1, a.2.or b.2, 63⟩ }) writeFp1 s

/-- An element of an operand as a value. -/
def Ctx.half (c : Ctx) (f : Format) (slot i h : Nat) : Fval := decodeF f (Machine.half (c.v slot 0 i).val h)

def packedBin (x : V3) (f : Format) (op : Format → Nat → Fval → Fval → Nat × FFlags) (s : State) :
    Host.Outcome State Fault Refusal :=
  packed 2 (Shape.v3 0x17 x) (fun c i h => op f c.mode (c.half f 0 i h) (c.half f 1 i h)) s

def packedFma (x : V3) (f : Format) (s : State) : Host.Outcome State Fault Refusal :=
  packed 3 (Shape.v3d 0x17 x) (fun c i h => fmaF f c.mode (mulExact (c.half f 0 i h) (c.half f 1 i h)) (c.half f 2 i h)) s

def packedMax (x : V3) (f : Format) (s : State) : Host.Outcome State Fault Refusal :=
  packed 2 (Shape.v3 0x17 x) (fun c i h => selF f true (half (c.v 0 0 i).val h) (half (c.v 1 0 i).val h)) s

def execHadd2 (x : V3) (s : State) := packedBin x f16 addF s
def execHmul2 (x : V3) (s : State) := packedBin x f16 mulF s
def execHfma2 (x : V3) (s : State) := packedFma x f16 s
def execHmax2 (x : V3) (s : State) := packedMax x f16 s
def execBadd2 (x : V3) (s : State) := packedBin x bf16 addF s
def execBmul2 (x : V3) (s : State) := packedBin x bf16 mulF s
def execBfma2 (x : V3) (s : State) := packedFma x bf16 s
def execBmax2 (x : V3) (s : State) := packedMax x bf16 s

/-! ## Conversions, major 0x18 (06 R107 to R113) -/

/-- The mode that a 3-bit RM field selects (06 R107). -/
def Ctx.rm (c : Ctx) (r : Nat) : Nat := if r = 0 then c.mode else r - 1

/-- The kinds that write a floating-point value of 32 bits or more (06 R108). -/
def cvtChecks (kind : Nat) : Bool := !(kind = 2 || kind = 3 || kind = 7 || kind = 10 || kind = 11)

/-- CVT and CVTS (06 R107 to R109). A vz operand counts as the full tag of the source's format (log 84). -/
def convert (x : V3) (sat : Bool) (s : State) : Host.Outcome State Fault Refusal :=
  let kind := x.b.toNat % 16
  let wide := Shape.cvtPairA x.b
  fpPerform (Shape.cvt x) (fun c =>
    { n := 1, check := cvtChecks kind,
      eff := fun i j => if wide then c.effs64 [0] i else c.effs [0] i j,
      res := fun i _ =>
        let a := if wide then c.v64 0 i else (c.v 0 0 i).val.toNat
        let t := effTag (if wide then Machine.f64 else f32) (c.v 0 0 i).tag.toNat
        cvtR kind (c.rm (x.b.toNat / 16)) sat a t })
    (if Shape.cvtPairD x.b then writeFp64 else writeFp1) s

def execCvt (x : V3) (s : State) := convert x false s
def execCvts (x : V3) (s : State) := convert x true s

/-- A control value in some active lane is reserved (06 R110, R111): ILLEGAL. -/
def controlGate (bad : Nat → Bool) (c : Ctx) (_ : State) : Gate :=
  match c.firstLane fun i => bad (c.v 1 0 i).val.toNat with
  | some i => .trap { cause := 1, flane := i }
  | none => .go

/-- A conversion under a control value in b that makes floating-point flags. -/
def controlled (h : Shape) (bad : Nat → Bool) (check : Bool) (slots : List Nat) (f : Ctx → Nat → FRes) (s : State) :
    Host.Outcome State Fault Refusal :=
  performGated h (controlGate bad) (fun c s =>
    let o : FpOut := { n := 1, check := check, res := fun i _ => f c i, eff := c.effs slots }
    { s := raiseFlags c (o.statBits c) (writeFp1 c o s), post := o.post c }) s

/-- Replace `n` bits at a position of a word. -/
def insertBits (old : Nat) (pos n v : Nat) : Nat :=
  old / 2 ^ (pos + n) * 2 ^ (pos + n) + v % 2 ^ n * 2 ^ pos + old % 2 ^ pos

/-- PK8 (06 R110). -/
def execPk8 (x : V3) (s : State) :=
  controlled (Shape.v3d 0x18 x) (fun b => 6 ≤ b / 16 % 8) false [0, 1, 2] (fun c i =>
    let b := (c.v 1 0 i).val.toNat
    let (e, fl) := packElem false (b / 4 % 4) (c.rm (b / 16 % 8)) (c.v 0 0 i).val.toNat
    ⟨insertBits (c.v 2 0 i).val.toNat (8 * (b % 4)) 8 e, fl, 63⟩) s

/-- PK4 (06 R110). -/
def execPk4 (x : V3) (s : State) :=
  controlled (Shape.v3d 0x18 x) (fun b => b / 8 % 4 = 3 || 6 ≤ b / 32 % 8) false [0, 1, 2] (fun c i =>
    let b := (c.v 1 0 i).val.toNat
    let (e, fl) := packElem true (b / 8 % 4) (c.rm (b / 32 % 8)) (c.v 0 0 i).val.toNat
    ⟨insertBits (c.v 2 0 i).val.toNat (4 * (b % 8)) 4 e, fl, 63⟩) s

/-- UPK8 (06 R111). -/
def execUpk8 (x : V3) (s : State) :=
  controlled (Shape.v3 0x18 x) (fun _ => false) true [0, 1] (fun c i =>
    let b := (c.v 1 0 i).val.toNat
    unpackElem false (b / 4 % 4) ((c.v 0 0 i).val.toNat / 2 ^ (8 * (b % 4)) % 256)) s

/-- UPK4 (06 R111). -/
def execUpk4 (x : V3) (s : State) :=
  controlled (Shape.v3 0x18 x) (fun b => b / 8 % 4 = 3) true [0, 1] (fun c i =>
    let b := (c.v 1 0 i).val.toNat
    unpackElem true (b / 8 % 4) ((c.v 0 0 i).val.toNat / 2 ^ (4 * (b % 8)) % 16)) s

/-- QDEC (06 R112). -/
def execQdec (x : V3) (s : State) :=
  fp1 (Shape.v3d 0x18 x) [0, 1, 2] (fun c i =>
    let b := (c.v 1 0 i).val.toNat
    qdecR c.mode ((c.v 0 0 i).val.toNat / 2 ^ (4 * (b % 8)) % 16) (b / 2 ^ 8 % 256) (c.v 2 0 i).val.toNat) s

/-- QENC (06 R113). -/
def execQenc (x : V3) (s : State) :=
  controlled (Shape.v3 0x18 x) (fun _ => false) false [0, 1] (fun c i =>
    qencR c.mode (c.f 0 0 i).val (c.f 1 0 i).val) s

/-! ## Tags, major 0x19 (06 R114) -/

/-- A tag instruction: a value and a tag in each active lane, no flag and no check. -/
def tagOp (h : Shape) (f : Ctx → Nat → Cell) (s : State) : Host.Outcome State Fault Refusal :=
  perform h (fun c s => writeVector c (f c) s) s

def execTagrd (x : V3) (s : State) := tagOp (Shape.v3u 0x19 x) (fun c i => ⟨(c.v 0 0 i).tag.zeroExtend 32, 63⟩) s
def execTagwr (x : V3) (s : State) :=
  tagOp (Shape.v3 0x19 x) (fun c i => ⟨(c.v 0 0 i).val, (c.v 1 0 i).val.extractLsb' 0 6⟩) s
def execTagmin (x : V3) (s : State) :=
  tagOp (Shape.v3 0x19 x) (fun c i =>
    let a := c.v 0 0 i
    let b := c.v 1 0 i
    ⟨a.val, if b.tag < a.tag then b.tag else a.tag⟩) s
def execTagfull (x : V3) (s : State) :=
  tagOp (Shape.tagfull x) (fun c i => ⟨(c.v 0 0 i).val, if x.b = 0 then 24 else 53⟩) s
def execTagunt (x : V3) (s : State) := tagOp (Shape.v3u 0x19 x) (fun c i => ⟨(c.v 0 0 i).val, 63⟩) s

end Sys2Proof.Machine
end

