-- ==== Sys2Proof/Machine/Integer.lean ====
section
/-! DEFINITION. Vector integer, bit, immediate and lane instructions, majors 0x01 to 0x07 (05 R75 to R84). -/

namespace Sys2Proof.Machine

/-! ## Word operations -/

/-- Bits [63:32] of the signed product (05 R77). -/
def mulhI (a b : Word) : Word := (a.signExtend 64 * b.signExtend 64).extractLsb' 32 32

/-- Bits [63:32] of the unsigned product (05 R77). -/
def mulhN (a b : Word) : Word := (a.zeroExtend 64 * b.zeroExtend 64).extractLsb' 32 32

/-- The absolute signed difference (05 R77). -/
def absDiffI (a b : Word) : Word := if a.slt b then b - a else a - b

/-- The absolute unsigned difference (05 R77). -/
def absDiffN (a b : Word) : Word := if a < b then b - a else a - b

def minI (a b : Word) : Word := if b.slt a then b else a
def maxI (a b : Word) : Word := if a.slt b then b else a
def minN (a b : Word) : Word := if b < a then b else a
def maxN (a b : Word) : Word := if a < b then b else a

/-- A value clamped to the signed 32-bit range (05 R78). -/
def clampI (x : Int) : Word := BitVec.ofInt 32 (max (-2147483648) (min x 2147483647))

/-- A value clamped to the unsigned 32-bit range (05 R78). -/
def clampN (x : Int) : Word := BitVec.ofInt 32 (max 0 (min x 4294967295))

/-- The shift amount b[7:0] (05 R79). -/
def amount (b : Word) : Nat := b.toNat % 256

def shlW (a b : Word) : Word := if 32 ≤ amount b then 0 else a <<< amount b
def shrW (a b : Word) : Word := if 32 ≤ amount b then 0 else a >>> amount b
def sarW (a b : Word) : Word := if 32 ≤ amount b then (if a.msb then BitVec.allOnes 32 else 0) else a.sshiftRight (amount b)

/-- Rotation by b[4:0] (05 R80). -/
def rotlW (a b : Word) : Word := a.rotateLeft (b.toNat % 32)

/-- pos and w' of a field control (05 R80). -/
def fieldPos (b : Word) : Nat := b.toNat % 32
def fieldWidth (b : Word) : Nat := min (min (b.toNat / 256 % 64) 32) (32 - fieldPos b)

/-- BFX.n (05 R80). -/
def bfxNW (a b : Word) : Word := BitVec.ofNat 32 (a.toNat / 2 ^ fieldPos b % 2 ^ fieldWidth b)

/-- BFX.i (05 R80). -/
def bfxIW (a b : Word) : Word :=
  if fieldWidth b = 0 then 0
  else BitVec.ofNat 32 (Bits.sextNat (a.toNat / 2 ^ fieldPos b) (fieldWidth b) 32)

/-- BFI (05 R80). -/
def bfiW (a b d : Word) : Word :=
  let p := fieldPos b
  let w := fieldWidth b
  BitVec.ofNat 32 (d.toNat / 2 ^ (p + w) * 2 ^ (p + w) + a.toNat % 2 ^ w * 2 ^ p + d.toNat % 2 ^ p)

/-- Byte k of PRMB (05 R80). -/
def prmbByte (a b d : Word) (k : Nat) : Nat :=
  let byte := (d.toNat * 2 ^ 32 + a.toNat) / 2 ^ (8 * (b.toNat / 2 ^ (3 * k) % 8)) % 256
  match b.toNat / 2 ^ (2 * k + 12) % 4 with
  | 0 => byte
  | 1 => 0
  | 2 => 255
  | _ => if 128 ≤ byte then 255 else 0

/-- PRMB (05 R80). -/
def prmbW (a b d : Word) : Word :=
  BitVec.ofNat 32 (prmbByte a b d 0 + 2 ^ 8 * prmbByte a b d 1 + 2 ^ 16 * prmbByte a b d 2 + 2 ^ 24 * prmbByte a b d 3)

/-- Leading zero bits (05 R80). -/
def clzW (a : Word) : Word := BitVec.ofNat 32 (if a = 0 then 32 else 31 - Nat.log2 a.toNat)

/-- Set bits (05 R80). -/
def popcW (a : Word) : Word := BitVec.ofNat 32 ((laneList.filter fun i => a.getLsbD i).length)

/-- Bit k moved to bit 31 − k (05 R80). -/
def brevW (a : Word) : Word := maskOf fun i => a.getLsbD (31 - i)

/-! ## Arithmetic, major 0x01 (05 R77) -/

def execIadd (x : V3) (s : State) := lanes2 (Shape.v3 1 x) (· + ·) s
def execIsub (x : V3) (s : State) := lanes2 (Shape.v3 1 x) (· - ·) s
def execImul (x : V3) (s : State) := lanes2 (Shape.v3 1 x) (· * ·) s
def execImulhI (x : V3) (s : State) := lanes2 (Shape.v3 1 x) mulhI s
def execImulhN (x : V3) (s : State) := lanes2 (Shape.v3 1 x) mulhN s
def execImad (x : V3) (s : State) := lanes3 (Shape.v3d 1 x) (fun a b d => a * b + d) s
def execIabsdI (x : V3) (s : State) := lanes2 (Shape.v3 1 x) absDiffI s
def execIsadN (x : V3) (s : State) := lanes3 (Shape.v3d 1 x) (fun a b d => d + absDiffN a b) s

/-! ## Minimum, maximum and saturation, major 0x02 (05 R78) -/

def execIminI (x : V3) (s : State) := lanes2 (Shape.v3 2 x) minI s
def execImaxI (x : V3) (s : State) := lanes2 (Shape.v3 2 x) maxI s
def execIminN (x : V3) (s : State) := lanes2 (Shape.v3 2 x) minN s
def execImaxN (x : V3) (s : State) := lanes2 (Shape.v3 2 x) maxN s
def execIaddsI (x : V3) (s : State) := lanes2 (Shape.v3 2 x) (fun a b => clampI (a.toInt + b.toInt)) s
def execIsubsI (x : V3) (s : State) := lanes2 (Shape.v3 2 x) (fun a b => clampI (a.toInt - b.toInt)) s
def execIaddsN (x : V3) (s : State) := lanes2 (Shape.v3 2 x) (fun a b => clampN ((a.toNat : Int) + b.toNat)) s
def execIsubsN (x : V3) (s : State) := lanes2 (Shape.v3 2 x) (fun a b => clampN ((a.toNat : Int) - b.toNat)) s

/-! ## Logic and shifts, major 0x03 (05 R79) -/

def execAnd (x : V3) (s : State) := lanes2 (Shape.v3 3 x) (· &&& ·) s
def execOr (x : V3) (s : State) := lanes2 (Shape.v3 3 x) (· ||| ·) s
def execXor (x : V3) (s : State) := lanes2 (Shape.v3 3 x) (· ^^^ ·) s
def execAndn (x : V3) (s : State) := lanes2 (Shape.v3 3 x) (fun a b => a &&& ~~~b) s
def execOrn (x : V3) (s : State) := lanes2 (Shape.v3 3 x) (fun a b => a ||| ~~~b) s
def execShl (x : V3) (s : State) := lanes2 (Shape.v3 3 x) shlW s
def execShr (x : V3) (s : State) := lanes2 (Shape.v3 3 x) shrW s
def execSar (x : V3) (s : State) := lanes2 (Shape.v3 3 x) sarW s

/-! ## Bit fields, major 0x04 (05 R80) -/

def execRotl (x : V3) (s : State) := lanes2 (Shape.v3 4 x) rotlW s
def execBfxI (x : V3) (s : State) := lanes2 (Shape.v3 4 x) bfxIW s
def execBfxN (x : V3) (s : State) := lanes2 (Shape.v3 4 x) bfxNW s
def execBfi (x : V3) (s : State) := lanes3 (Shape.v3d 4 x) bfiW s
def execPrmb (x : V3) (s : State) := lanes3 (Shape.v3d 4 x) prmbW s
def execClz (x : V3) (s : State) := lanes1 (Shape.v3u 4 x) clzW s
def execPopc (x : V3) (s : State) := lanes1 (Shape.v3u 4 x) popcW s
def execBrev (x : V3) (s : State) := lanes1 (Shape.v3u 4 x) brevW s

/-! ## Immediates, major 0x05 (05 R81) -/

/-- An immediate amount of 32 or more is ILLEGAL (05 R81, R92). -/
def amountGate (imm : Word) : Gate := if 32 ≤ imm.toNat then .trap { cause := 1 } else .go

/-- A shift or rotation by an immediate (05 R81). -/
def shiftImm (x : VI) (f : Word → Word → Word) (s : State) : Host.Outcome State Fault Refusal :=
  performGated (Shape.vi x) (fun c _ => amountGate (c.immVI x))
    (fun c s => { s := writeVector c (fun i => ⟨f (c.v 0 0 i).val (c.immVI x), 63⟩) s }) s

def execIaddi (x : VI) (s : State) := lanesImm x (· + ·) s
def execShli (x : VI) (s : State) := shiftImm x shlW s
def execShri (x : VI) (s : State) := shiftImm x shrW s
def execSari (x : VI) (s : State) := shiftImm x sarW s
def execAndi (x : VI) (s : State) := lanesImm x (· &&& ·) s
def execOri (x : VI) (s : State) := lanesImm x (· ||| ·) s
def execXori (x : VI) (s : State) := lanesImm x (· ^^^ ·) s
def execRotli (x : VI) (s : State) := shiftImm x rotlW s

/-! ## Lanes, majors 0x06 and 0x07 (05 R82 to R84) -/

/-- A shuffle: each active lane takes the cell of a source lane, its tag included (05 R82). -/
def shuffle (x : V3) (src : Nat → Nat → Nat) (s : State) : Host.Outcome State Fault Refusal :=
  perform (Shape.v3 6 x) (fun c s => writeVector c (fun i => c.v 0 0 (src i ((c.v 1 0 i).val.toNat % 32))) s) s

def execShfl (x : V3) (s : State) := shuffle x (fun _ k => k) s
def execShflup (x : V3) (s : State) := shuffle x (fun i k => if i < k then i else i - k) s
def execShfldn (x : V3) (s : State) := shuffle x (fun i k => if 31 < i + k then i else i + k) s
def execShflx (x : V3) (s : State) := shuffle x (fun i k => Nat.xor i k) s

/-- A reduction over the active lanes that a test picks for lane i (05 R83). -/
def reduce (x : V3) (f : Word → Word → Word) (z : Word) (pick : Nat → Nat → Bool) (s : State) :
    Host.Outcome State Fault Refusal :=
  perform (Shape.v3u 6 x) (fun c s => writeVector c (fun i =>
    ⟨((lanesOf c.act).filter (pick i)).foldl (fun r j => f r (c.v 0 0 j).val) z, 63⟩) s) s

def execTsumI (x : V3) (s : State) := reduce x (· + ·) 0 (fun _ _ => true) s
def execTminI (x : V3) (s : State) := reduce x minI 0x7FFFFFFF (fun _ _ => true) s
def execTmaxI (x : V3) (s : State) := reduce x maxI 0x80000000 (fun _ _ => true) s
def execTscanI (x : V3) (s : State) := reduce x (· + ·) 0 (fun i j => j ≤ i) s

def execMov (x : V3) (s : State) := perform (Shape.v3u 7 x) (fun c s => writeVector c (c.v 0 0) s) s
def execLaneid (x : V3) (s : State) :=
  perform (Shape.laneid x) (fun c s => writeVector c (fun i => ⟨BitVec.ofNat 32 i, 63⟩) s) s
def execLidx (x : V3) (s : State) :=
  perform (Shape.v3 7 x) (fun c s => writeVector c (fun i =>
    ⟨(c.v 0 0 i).val + BitVec.ofNat 32 i * (c.v 1 0 i).val, 63⟩) s) s

end Sys2Proof.Machine
end

