-- ==== Sys2Proof/Machine/Pred.lean ====
section
/-! DEFINITION. Predicate compares and logic, majors 0x08 to 0x0A (05 R85 to R88). -/

namespace Sys2Proof.Machine

/-- A compare: PD takes the condition AND PA in the active lanes (05 R85). -/
def compareP (h : Shape) (cond : Ctx → Nat → Bool) (s : State) : Host.Outcome State Fault Refusal :=
  perform h (fun c s => writePred c (maskOf (cond c) &&& c.pred 0) s) s

/-- An integer compare of two words (05 R86). -/
def compareI (x : P3) (cond : Word → Word → Bool) (s : State) : Host.Outcome State Fault Refusal :=
  compareP (Shape.p 8 x) (fun c i => cond (c.v 0 0 i).val (c.v 1 0 i).val) s

def execIseq (x : P3) (s : State) := compareI x (fun a b => a = b) s
def execIsne (x : P3) (s : State) := compareI x (fun a b => a ≠ b) s
def execIsltI (x : P3) (s : State) := compareI x (fun a b => a.slt b) s
def execIsleI (x : P3) (s : State) := compareI x (fun a b => a.sle b) s
def execIsltN (x : P3) (s : State) := compareI x (fun a b => a < b) s
def execIsleN (x : P3) (s : State) := compareI x (fun a b => a ≤ b) s
def execIsany (x : P3) (s : State) := compareI x (fun a b => a &&& b ≠ 0) s
def execIsnone (x : P3) (s : State) := compareI x (fun a b => a &&& b = 0) s

/-- FPX after a compare whose IV is enabled (05 R87): its frame carries the effective tags of both operands (15 R279), though
the compare itself reads no tag (log 84). -/
def comparePost (c : Ctx) (iv : Nat → Bool) : Option TrapInfo :=
  if c.team.fpstat.getLsbD 16 then
    ((lanesOf c.act).find? iv).map fun i =>
      { cause := 0xC, tpc := c.cur.pc, theta := c.theta, flane := i,
        sigt := laneList.flatMap fun i => if c.active i then c.effs [0, 1] i 0 ++ [0, 0] else [0, 0, 0, 0] }
  else none

/-- A floating-point compare: the condition and IV of each lane (05 R87). -/
def compareF (h : Shape) (cond iv : Ctx → Nat → Bool) (s : State) : Host.Outcome State Fault Refusal :=
  performGated h (fun _ _ => .go) (fun c s =>
    let s := writePred c (maskOf (cond c) &&& c.pred 0) s
    let raised := (lanesOf c.act).any (iv c)
    { s := if raised then raiseFlags c 1 s else s, post := comparePost c (iv c) }) s

/-- The FP32 value of an operand. -/
def Ctx.fval (c : Ctx) (slot i : Nat) : Fval := decodeF f32 (c.v slot 0 i).val.toNat

/-- a < b as IEEE 754 compares: −0 equals +0 (05 R87). -/
def lessF (a b : Fval) : Bool := ltF false a b

/-- An ordered comparison holds; −0 equals +0 (05 R87). -/
def eqF (a b : Fval) : Bool := !lessF a b && !lessF b a

/-- A compare of two FP32 operands: the ordered condition, what an unordered pair gives, and whether a quiet NaN raises IV. -/
def compareF2 (x : P3) (cond : Fval → Fval → Bool) (unord quiet : Bool) (s : State) : Host.Outcome State Fault Refusal :=
  compareF (Shape.p 9 x)
    (fun c i => let a := c.fval 0 i; let b := c.fval 1 i; if isNaN a || isNaN b then unord else cond a b)
    (fun c i =>
      let a := c.fval 0 i
      let b := c.fval 1 i
      if quiet then isNaN a || isNaN b else sNaN a || sNaN b) s

def execFseq (x : P3) (s : State) := compareF2 x eqF false false s
def execFsne (x : P3) (s : State) := compareF2 x (fun a b => !eqF a b) true false s
def execFslt (x : P3) (s : State) := compareF2 x lessF false true s
def execFsle (x : P3) (s : State) := compareF2 x (fun a b => !lessF b a) false true s
def execFsun (x : P3) (s : State) := compareF2 x (fun _ _ => false) true false s
def execFsord (x : P3) (s : State) := compareF2 x (fun _ _ => true) false false s

/-- A test of one FP32 operand raises no flag (05 R87). -/
def testF (x : P3) (cond : Fval → Bool) (s : State) : Host.Outcome State Fault Refusal :=
  compareP (Shape.pu 9 x) (fun c i => cond (c.fval 0 i)) s

def execFsnan (x : P3) (s : State) := testF x isNaN s
def execFsinf (x : P3) (s : State) := testF x isInf s

/-- Predicate logic of PA, and of a second predicate where there is one (05 R88). -/
def logicP (h : Shape) (f : Ctx → Word → Word → Word) (s : State) : Host.Outcome State Fault Refusal :=
  perform h (fun c s => writePred c (f c (c.pred 0) (c.pred 1)) s) s

def execPand (x : P3) (s : State) := logicP (Shape.p2 x) (fun _ a b => a &&& b) s
def execPor (x : P3) (s : State) := logicP (Shape.p2 x) (fun _ a b => a ||| b) s
def execPxor (x : P3) (s : State) := logicP (Shape.p2 x) (fun _ a b => a ^^^ b) s
def execPnot (x : P3) (s : State) := logicP (Shape.p1 x) (fun _ a _ => ~~~a) s
def execPany (x : P3) (s : State) :=
  logicP (Shape.p1 x) (fun c a _ => if a &&& c.act ≠ 0 then BitVec.allOnes 32 else 0) s
def execPall (x : P3) (s : State) :=
  logicP (Shape.p1 x) (fun c a _ => if c.act &&& ~~~a = 0 then BitVec.allOnes 32 else 0) s
def execPelect (x : P3) (s : State) :=
  logicP (Shape.p1 x) (fun c a _ =>
    match c.firstLane fun i => a.getLsbD i with
    | some i => maskOf fun j => j = i
    | none => 0) s
def execPsig (x : P3) (s : State) :=
  compareP (Shape.psig x) (fun c i => (c.v 0 0 i).tag.toNat < x.b.toNat) s

end Sys2Proof.Machine
end

