-- ==== Sys2Proof/Machine/RegWrite.lean ====
section
/-! DEFINITION. Register reads and writes from outside the cores (21 R325, R326, 22 R332, R339, 12 R233, R245): what has no row of its
own. A read changes nothing. A write that sets a reserved bit, or names a read-only register, is discarded whole. -/

namespace Sys2Proof.Machine

/-! ## The device register space (21 R325) -/

/-- The 32 bytes of an entry of the message filter table (21 R330). -/
def filterImage (f : Filter) : List Byte :=
  image 32 [⟨0, 1, if f.valid then 1 else 0⟩, ⟨1, 1, f.src⟩, ⟨2, 1, f.dst⟩, ⟨3, 1, f.chan⟩, ⟨4, 4, f.entry⟩, ⟨8, 8, f.code⟩,
    ⟨16, 4, f.credit⟩]

/-- An entry from its bytes: none with a bit set that is to be zero. -/
def filterOf (b : List Byte) : Option Filter :=
  if 2 ≤ fieldAt b 0 1 || 16 ≤ fieldAt b 1 1 || 16 ≤ fieldAt b 2 1 || fieldAt b 20 12 ≠ 0 then none
  else some { valid := fieldAt b 0 1 = 1, src := fieldAt b 1 1, dst := fieldAt b 2 1, chan := fieldAt b 3 1,
              entry := fieldAt b 4 4, code := fieldAt b 8 8, credit := fieldAt b 16 4 }

/-- Half of a value of eight bytes. -/
def word32 (v i : Nat) : Nat := v / 2 ^ (32 * i) % 2 ^ 32

/-- MXSTAT (18 R309). -/
def mxstat (s : State) (n : Nat) : Nat :=
  let held (m : MatOp) : Bool := m.cluster = n && m.stage.started
  let waits (m : MatOp) : Bool := m.cluster = n && partnerWait s m && match m.stage with
    | .table _ => true
    | _ => false
  tableCount s n + (if engineHeld s n then 2 ^ 6 else 0) + (if s.mats.any fun m => held m && m.four then 2 ^ 7 else 0) +
  2 ^ 8 * (s.mats.filter waits).length

/-- CPSTAT (18 R309). -/
def cpstat (s : State) (n : Nat) : Nat := queueCount s n + 2 ^ 7 * enginesRunning s n + 2 ^ 10 * locksUsed s n

/-- A register of a cluster's engine block (18 R309). -/
def readEngine (s : State) (n off : Nat) : Nat :=
  match off with
  | 0 => mxstat s n
  | 4 => mxpass s n
  | 8 => cpstat s n
  | 0xC => (cluster s n).cpbytes
  | 0x10 => (cluster s n).engerr
  | _ => 0

/-- A register of a link (21 R316): PEER of a link that is not used reads 0. -/
def readLink (s : State) (l off : Nat) : Nat :=
  let x := link s l
  match off with
  | 0 => (if x.split then 1 else 0) + (List.range 4).foldl (fun n q => n + 2 ^ (4 + 4 * q) * Tab.getD x.own q 0) 0 + 2 ^ 20 * x.valid
  | 4 => (if x.up then 1 else 0) + (if s.trainEn && farEnd s l < s.trainSize then 2 * farEnd s l else 0) + 2 ^ 16 * x.downs
  | 8 => x.retries
  | _ => 0

/-- A register of the hypervisor's error queue (12 R245). -/
def readHeq (s : State) (off : Nat) : Nat :=
  match off with
  | 0 => word32 s.heq.base 0
  | 4 => word32 s.heq.base 1
  | 8 => s.heq.size
  | 0xC => s.heq.prod
  | 0x10 => s.heq.cons
  | 0x14 => s.heq.cecount
  | _ => 0

/-- What a read of four bytes of the device register space returns at level 2 (21 R325): zero where nothing lies. -/
def readDev (s : State) (off : Nat) : Nat :=
  if off < 0x400 then readEngine s (off / 0x40) (off % 0x40)
  else if 0x1000 ≤ off && off < 0x1040 then boundOf s ((off - 0x1000) / 0x20) (off % 0x20 / 4)
  else if off = 0x2000 then s.coach + 2 ^ 4 * s.trainSize + if s.trainEn then 2 ^ 31 else 0
  else if 0x3000 ≤ off && off < 0x33C0 then readLink s ((off - 0x3000) / 0x40) (off % 0x40)
  else if 0x10000 ≤ off && off < 0x12000 then
    fieldAt (filterImage (Tab.getD s.filters ((off - 0x10000) / 32) ⟨false, 0, 0, 0, 0, 0, 0⟩)) (off % 32) 4
  else if 0x12000 ≤ off && off < 0x12200 then word32 (Tab.getD s.services ((off - 0x12000) / 8) 0) (off % 8 / 4)
  else if 0x13000 ≤ off && off < 0x13020 then readHeq s (off - 0x13000)
  else 0

/-- A write of eight bytes to the filter table: an entry of a locked compartment is frozen (22 R339). -/
def writeFilter (s : State) (off v : Nat) : State :=
  let i := off / 32
  let old := Tab.getD s.filters i ⟨false, 0, 0, 0, 0, 0, 0⟩
  let b := filterImage old
  let o := off % 32
  match filterOf (b.take o ++ Bits.leBytes 8 v ++ b.drop (o + 8)) with
  | none => s
  | some f =>
    if f = old then s
    else
      let named (g : Filter) : List Nat := if g.valid then [g.src, g.dst] else []
      unlessFrozen s (distinct (named old ++ named f)) fun s => { s with filters := Tab.put s.filters i f }

/-- A power of two within bounds. -/
def powerIn (lo hi v : Nat) : Bool := lo ≤ v && v ≤ hi && (List.range 17).any fun n => v = 2 ^ n

/-- A write to the registers of the hypervisor's error queue (12 R245). -/
def writeHeq (s : State) (off v : Nat) : State :=
  let q := s.heq
  let free : Bool := q.prod = q.cons
  match off with
  | 0x13000 => if free && v < 2 ^ 52 && v % 32 = 0 then heqFlush { s with heq := { q with base := v } } else s
  | 0x13008 => if free && (v = 0 || powerIn 8 65536 v) then heqFlush { s with heq := { q with size := v } } else s
  | 0x13010 => writeHeqcons s (v % 2 ^ 32)
  | 0x13014 => { s with heq := { q with cecount := v % 2 ^ 32 } }
  | _ => s

/-- A write to the device register space. -/
def writeDev (s : State) (off v : Nat) : State :=
  if off < 0x400 then
    if off % 0x40 = 0x10 && v < 16 then
      clearEngerr s (off / 0x40) v
    else s
  else if (0x1000 ≤ off && off < 0x1040) && off % 4 = 0 then
    if v < 2 ^ 13 then { s with bounds := Tab.put s.bounds (8 * ((off - 0x1000) / 0x20) + off % 0x20 / 4) (max 64 (min 4096 v)) }
    else s
  else if off = 0x2000 then writeTrain s (v % 2 ^ 32)
  else if 0x3000 ≤ off && off < 0x33C0 then
    if off % 0x40 = 0 then writeLinkcfg s ((off - 0x3000) / 0x40) (v % 2 ^ 32) else s
  else if 0x10000 ≤ off && off < 0x12000 then if off % 8 = 0 then writeFilter s (off - 0x10000) v else s
  else if 0x12000 ≤ off && off < 0x12200 then
    if off % 8 = 0 then { s with services := Tab.put s.services ((off - 0x12000) / 8) v } else s
  else if 0x13000 ≤ off && off < 0x13020 then writeHeq s off v
  else s

/-! ## A VF's BAR 0 and its configuration (21 R326, 22 R339) -/

/-- What a read of four bytes of a VF's BAR 0 returns (21 R326): none, an Unsupported Request, while the VF is not served. DOORBELL
is written only. -/
def readVf (s : State) (c off : Nat) : Option Nat :=
  let x := comp s c
  if !vfServes s c then none
  else
    some (match off with
      | 0x00 => word32 x.launch.base 0
      | 0x04 => word32 x.launch.base 1
      | 0x08 => x.launch.size
      | 0x0C => x.launch.cons
      | 0x18 => word32 x.errs.base 0
      | 0x1C => word32 x.errs.base 1
      | 0x20 => x.errs.size
      | 0x24 => x.errs.prod
      | 0x28 => x.errs.cons
      | _ => 0)

/-- A write to the launch and error registers of a VF. -/
def writeVf (s : State) (c off v : Nat) : State :=
  let x := comp s c
  let lq : Bool := x.launch.prod = x.launch.cons
  let er : Bool := x.errs.prod = x.errs.cons
  if !vfServes s c then s
  else
    match off with
    | 0x00 => if lq && v % 256 = 0 then setComp s c { x with launch := { x.launch with base := v } } else s
    | 0x08 => if lq && (v = 0 || powerIn 4 4096 v) then setComp s c { x with launch := { x.launch with size := v } } else s
    | 0x10 => ringDoorbell s c (v % 2 ^ 32)
    | 0x18 => if er && v % 32 = 0 then errFlush (setComp s c { x with errs := { x.errs with base := v } }) c else s
    | 0x20 => if er && powerIn 8 4096 v then errFlush (setComp s c { x with errs := { x.errs with size := v } }) c else s
    | 0x28 => errFlush (setComp s c { x with errs := { x.errs with cons := v % 2 ^ 32 } }) c
    | _ => s

/-- A write to a VF's configuration registers: frozen in CONFIG_LOCKED and RUN. -/
def writeVfConfig (s : State) (c reg v : Nat) : State :=
  let x := comp s c
  if Tab.getD x.vfConfig reg 0 = v then s
  else unlessFrozen s [c] fun s => setComp s c { comp s c with vfConfig := Tab.put x.vfConfig reg v }

/-! ## Descriptors, contexts and export ranges -/

/-- A descriptor with a field replaced, by the field's offset (22 R332): STATE, OP and RESULT are written by their own events, the SCE
assigns KEYID, CLUSTERS waits for a RESIZE, and reserved bits of FLAGS stay zero (log 44). -/
def descField (d : Descriptor) (off v : Nat) : Descriptor :=
  match off with
  | 0x03 => { d with flags := BitVec.ofNat 8 (v % 4) }
  | 0x06 => { d with tenancy := v % 2 ^ 16 }
  | 0x08 => { d with xlate := v }
  | 0x10 => { d with resv := v }
  | 0x18 => { d with resvsz := v }
  | 0x20 => { d with trace := v }
  | 0x28 => { d with tracesz := v % 2 ^ 32 }
  | 0x2C => { d with power := v % 2 ^ 16 }
  | 0x2E => { d with memshare := v % 2 ^ 8 }
  | 0x30 => { d with polkey := v }
  | _ => d

/-- A write would change a field of a descriptor. -/
def descChanges (x : Comp) (off v : Nat) : Bool :=
  match off with
  | 0x04 => clustersField x ≠ BitVec.ofNat 16 v
  | 0x2F => x.desc.keyid ≠ v % 2 ^ 8
  | _ => descField x.desc off v ≠ x.desc

/-- The fields of a descriptor that 22 R339 freezes. -/
def descFrozen (off : Nat) : Bool := [0x03, 0x04, 0x06, 0x2C, 0x2E, 0x2F, 0x30].contains off

/-- A write to a compartment's descriptor: one by which the strict shares would exceed the package (22 R345, R347) is discarded (log
44). -/
def writeDesc (s : State) (c off v : Nat) : State :=
  let x := comp s c
  let put (s : State) : State :=
    let y := comp s c
    let d := descField y.desc off v
    if shareBad s c d then s
    else setComp s c { y with desc := d, written := if off = 0x04 then some (BitVec.ofNat 16 v) else y.written }
  if !descChanges x off v || x.desc.op ≠ 0 || x.desc.state = 5 then s
  else if descFrozen off then unlessFrozen s [c] put else put s

/-- The bytes of a write to a translation context that 22 R339 freezes: all but S1ROOT, from 8 to 0x2C. -/
def xlateFrozen (off n : Nat) : Nat × Nat := (max off 8, min (off + n) 0x2C - max off 8)

/-- The bytes of a field of a translation context. -/
def xlateSize (off : Nat) : Nat :=
  match off with
  | 0x28 => 2
  | 0x2A | 0x2B => 1
  | _ => 8

/-- A level-2 write to a translation context in hypervisor memory: it takes effect by a TLBI. -/
def writeXlate (s : State) (c off v : Nat) : State :=
  let n := xlateSize off
  let base := (comp s c).desc.xlate
  let put (s : State) : State := writeHome s (keyNum s 0) (base + off) (Bits.leBytes n v)
  let f := xlateFrozen off n
  if 0x40 < off + n then s
  else if homeBytes s (keyNum s 0) (base + f.1) f.2 = ((Bits.leBytes n v).drop (f.1 - off)).take f.2 then put s
  else unlessFrozen s [c] put

/-- A write to an export range of a compartment (21 R322): its base or its limit. -/
def writeExport (s : State) (c i v : Nat) (limit : Bool) : State :=
  let old := Tab.getD (comp s c).exports i (0, 0)
  let new' := if limit then (old.1, v) else (v, old.2)
  if 8 ≤ i || new' = old then s
  else unlessFrozen s [c] fun s => setComp s c { comp s c with exports := Tab.put (comp s c).exports i new' }

/-- A recording breakpoint is set or cleared: a compartment whose policy does not grant RIGHTS[0] accepts none (14 R261, 22 R342). -/
def writeBreak (s : State) (c team pc : Nat) (on : Bool) : State :=
  let x := comp s c
  let others := x.breaks.filter fun b => b ≠ (team, pc)
  if !on then setComp s c { x with breaks := others }
  else if x.rights.testBit 0 then setComp s c { x with breaks := others ++ [(team, pc)] }
  else s

/-- A register write. -/
def writeReg (s : State) (v : Nat) : RegTarget → State
  | .dev off => writeDev s off v
  | .vf c off => if c < 16 then writeVf s c off v else s
  | .vfConfig c reg => if created s c then writeVfConfig s c reg v else s
  | .desc c off => if c < 16 then writeDesc s c off v else s
  | .xlate c off => if c < 16 then writeXlate s c off v else s
  | .exportBase c i => if c < 16 then writeExport s c i v false else s
  | .exportLimit c i => if c < 16 then writeExport s c i v true else s
  | .level2 a => level2Begin s a v
  | .rbreak c team on => if c < 16 then writeBreak s c team v on else s

def execRegisterWrite (t : RegTarget) (v : BitVec 64) (s : State) := occur s.powered (fun s => writeReg s v.toNat t) s

end Sys2Proof.Machine
end

