-- ==== Sys2Proof/Machine/Scalar.lean ====
section
/-! DEFINITION. Scalar instructions, majors 0x0B and 0x0C (05 R89 to R92). -/

namespace Sys2Proof.Machine

/-- A scalar operation on two words (05 R90). -/
def scalar2 (x : SF) (f : Word → Word → Word) (s : State) : Host.Outcome State Fault Refusal :=
  scalarOp (Shape.s3 0x0B x 1 1 1) (fun c => [f (c.s 0) (c.s 1)]) s

/-- A scalar operation on one word (05 R90). -/
def scalar1 (x : SF) (f : Word → Word) (s : State) : Host.Outcome State Fault Refusal :=
  scalarOp (Shape.s2 0x0B x 1 1) (fun c => [f (c.s 0)]) s

/-- A truth value as a word. -/
def boolW (b : Bool) : Word := if b then 1 else 0

def execSadd (x : SF) (s : State) := scalar2 x (· + ·) s
def execSsub (x : SF) (s : State) := scalar2 x (· - ·) s
def execSmul (x : SF) (s : State) := scalar2 x (· * ·) s
def execSmulhI (x : SF) (s : State) := scalar2 x mulhI s
def execSmulhN (x : SF) (s : State) := scalar2 x mulhN s
def execSand (x : SF) (s : State) := scalar2 x (· &&& ·) s
def execSor (x : SF) (s : State) := scalar2 x (· ||| ·) s
def execSxor (x : SF) (s : State) := scalar2 x (· ^^^ ·) s
def execSandn (x : SF) (s : State) := scalar2 x (fun a b => a &&& ~~~b) s
def execSshl (x : SF) (s : State) := scalar2 x shlW s
def execSshr (x : SF) (s : State) := scalar2 x shrW s
def execSsar (x : SF) (s : State) := scalar2 x sarW s
def execSminI (x : SF) (s : State) := scalar2 x minI s
def execSmaxI (x : SF) (s : State) := scalar2 x maxI s
def execSminN (x : SF) (s : State) := scalar2 x minN s
def execSmaxN (x : SF) (s : State) := scalar2 x maxN s
def execSseq (x : SF) (s : State) := scalar2 x (fun a b => boolW (a = b)) s
def execSsltI (x : SF) (s : State) := scalar2 x (fun a b => boolW (a.slt b)) s
def execSsltN (x : SF) (s : State) := scalar2 x (fun a b => boolW (a < b)) s
def execSbfx (x : SF) (s : State) := scalar2 x bfxNW s
def execSclz (x : SF) (s : State) := scalar1 x clzW s
def execSpopc (x : SF) (s : State) := scalar1 x popcW s
def execSmov (x : SF) (s : State) := scalar1 x id s

/-! ## Pairs (05 R90) -/

/-- A result in a pair: low word first (02 R13). -/
def pairOp (h : Shape) (f : Ctx → Nat) (s : State) : Host.Outcome State Fault Refusal :=
  scalarOp h (fun c => words64 (f c)) s

def execSadd64 (x : SF) (s : State) := pairOp (Shape.s3 0x0B x 2 2 2) (fun c => c.pair 0 + c.pair 2) s
def execSsub64 (x : SF) (s : State) := pairOp (Shape.s3 0x0B x 2 2 2) (fun c => c.pair 0 + 2 ^ 64 - c.pair 2) s
def execSshl64 (x : SF) (s : State) :=
  pairOp (Shape.s3 0x0B x 2 2 1)
    (fun c => let n := amount (c.s 2); if 64 ≤ n then 0 else c.pair 0 * 2 ^ n % 2 ^ 64) s
def execSshr64 (x : SF) (s : State) :=
  pairOp (Shape.s3 0x0B x 2 2 1) (fun c => let n := amount (c.s 2); if 64 ≤ n then 0 else c.pair 0 / 2 ^ n) s
def execSaddx (x : SF) (s : State) :=
  pairOp (Shape.s3 0x0B x 2 2 1) (fun c => c.pair 0 + Bits.sextNat (c.s 2).toNat 32 64) s

/-! ## Division (05 R91) -/

/-- Quotient and remainder (05 R91). -/
def divRem (signed : Bool) (a b : Word) : Word × Word :=
  if b = 0 then (0xFFFFFFFF, a)
  else if signed then (BitVec.ofInt 32 (a.toInt.tdiv b.toInt), BitVec.ofInt 32 (a.toInt.tmod b.toInt))
  else (a / b, a % b)

/-- A division: IDZ for a zero divisor (02 R25). -/
def divOp (x : SF) (f : Word → Word → Word) (s : State) : Host.Outcome State Fault Refusal :=
  perform (Shape.s3 0x0B x 1 1 1) (fun c s =>
    let s := if c.s 1 = 0 then raiseIdz c s else s
    writeScalar c (f (c.s 0) (c.s 1)) s) s

def execSdivI (x : SF) (s : State) := divOp x (fun a b => (divRem true a b).1) s
def execSdivN (x : SF) (s : State) := divOp x (fun a b => (divRem false a b).1) s
def execSremI (x : SF) (s : State) := divOp x (fun a b => (divRem true a b).2) s
def execSremN (x : SF) (s : State) := divOp x (fun a b => (divRem false a b).2) s

/-! ## Immediates (05 R92) -/

/-- A scalar operation with the immediate of an SI word. -/
def scalarImm (x : SI) (f : Word → Word → Word) (s : State) : Host.Outcome State Fault Refusal :=
  scalarOp (Shape.si x) (fun c => [f (c.s 0) (c.immSI x)]) s

/-- A scalar shift by an immediate amount. -/
def scalarShift (x : SI) (f : Word → Word → Word) (s : State) : Host.Outcome State Fault Refusal :=
  performGated (Shape.si x) (fun c _ => amountGate (c.immSI x))
    (fun c s => { s := writeScalar c (f (c.s 0) (c.immSI x)) s }) s

def execSaddi (x : SI) (s : State) := scalarImm x (· + ·) s
def execSandi (x : SI) (s : State) := scalarImm x (· &&& ·) s
def execSori (x : SI) (s : State) := scalarImm x (· ||| ·) s
def execSxori (x : SI) (s : State) := scalarImm x (· ^^^ ·) s
def execSshli (x : SI) (s : State) := scalarShift x shlW s
def execSshri (x : SI) (s : State) := scalarShift x shrW s
def execSsari (x : SI) (s : State) := scalarShift x sarW s
def execSsltiI (x : SI) (s : State) := scalarImm x (fun a b => boolW (a.slt b)) s

end Sys2Proof.Machine
end

