-- ==== Sys2Proof/Machine/SecEvents.lean ====
section
/-! DEFINITION. Attestation, TDISP, policy, power and bring-up (22 R336 to R342, R347, R348). -/

namespace Sys2Proof.Machine

/-! ## SPDM (22 R336, R337) -/

/-- What left towards the requester of an SPDM message (formats of SPDM 1.3, log 45). -/
def spdmOut (s : State) (b : List Byte) : State := { s with out := s.out ++ [.spdm b] }

/-- An ERROR response with its code and data. -/
def spdmError (s : State) (err data : Nat) : State := spdmOut s [0x13, 0x7F, BitVec.ofNat 8 err, BitVec.ofNat 8 data]

/-- A response to a request, whose body carries some content. -/
def spdmReply (s : State) (code p1 p2 : Nat) (content : List Byte) : State :=
  spdmOut s ([0x13, BitVec.ofNat 8 (code - 0x80), BitVec.ofNat 8 p1, BitVec.ofNat 8 p2] ++
    Config.spdmBody code (256 * p1 + p2) content)

/-- A message is answered once the SCE runs (22 R348). -/
def spdmEvent (f : State → State) (s : State) := occur s.powered f s

/-- A request needs a connection that has been negotiated so far: UnexpectedRequest otherwise. -/
def fromPhase (n : Nat) (f : State → State) (s : State) : State := if s.sce.phase < n then spdmError s 4 0 else f s

/-- A change of the SCE. -/
def onSce (s : State) (f : Sce → Sce) : State := { s with sce := f s.sce }

/-- The SCE's signature of some content under the alias key, with a fresh nonce. -/
def signed (s : State) (b : List Byte) : State × List Byte :=
  (onSce s fun x => { x with nonce := x.nonce + 1 }, b ++ Config.sm2Sign s.sce.nonce b)

def execGetVersion (m : Spdm) (s : State) :=
  spdmEvent (fun s => spdmReply (onSce s fun x => { x with phase := 1 }) 0x84 0 0 m.body) s

def execGetCapabilities (m : Spdm) (s : State) :=
  spdmEvent (fromPhase 1 fun s => spdmReply (onSce s fun x => { x with phase := max x.phase 2 }) 0xE1 0 0 m.body) s

/-- A set of algorithms names none but those given. -/
def within (set allowed : Nat) : Bool := set ≠ 0 && Nat.land set allowed = set

/-- The AEAD set of a NEGOTIATE_ALGORITHMS request whose every named algorithm is supported: SM2 over SM2_P256 (bit 9), SM3_256
(bit 6), the SM2_P256 exchange (bit 6), AES-256-GCM (bit 1) or SM4-GCM (bit 3). -/
def negotiated (m : Spdm) : Option Nat :=
  let tabs := (List.range m.p1).map fun i => (fieldAt m.body (28 + 4 * i) 1, fieldAt m.body (30 + 4 * i) 2)
  let ok (t : Nat × Nat) : Bool := match t.1 with
    | 2 => within t.2 (2 ^ 6)
    | 3 => within t.2 (2 ^ 1 + 2 ^ 3)
    | 4 => t.2 = 0 || within t.2 (2 ^ 9)
    | _ => true
  if within (fieldAt m.body 4 4) (2 ^ 9) && within (fieldAt m.body 8 4) (2 ^ 6) && fieldAt m.body 24 2 = 0 && tabs.all ok then
    (tabs.find? fun t => t.1 = 3).map (·.2)
  else none

def execNegotiateAlgorithms (m : Spdm) (s : State) :=
  spdmEvent (fromPhase 2 fun s =>
    match negotiated m with
    | some set => spdmReply (onSce s fun x => { x with phase := 3, aead := if set.testBit 1 then 1 else 3 }) 0xE3 0 0 m.body
    | none => spdmError s 7 0xE3) s

def execGetDigests (m : Spdm) (s : State) :=
  spdmEvent (fromPhase 3 fun s =>
    spdmReply s 0x81 0 3 (Config.sm3 (Config.certificate 0) ++ Config.sm3 (Config.certificate 1) ++ m.body)) s

/-- A request of a certificate slot: InvalidRequest for one that there is not. -/
def withSlot (m : Spdm) (f : State → State) (s : State) : State := if m.slot < 2 then f s else spdmError s 1 0

def execGetCertificate (m : Spdm) (s : State) :=
  spdmEvent (fromPhase 3 (withSlot m fun s => spdmReply s 0x82 m.slot 0 (Config.certificate m.slot ++ m.body))) s

def execChallenge (m : Spdm) (s : State) :=
  spdmEvent (fromPhase 3 (withSlot m fun s =>
    let (s, b) := signed s (Config.sm3 (Config.certificate m.slot) ++ m.body)
    spdmReply s 0x83 m.slot 3 b)) s

/-- The measurement blocks of an index: of all for 0xFF, and their count alone for 0; block 6 is that of every compartment
measured. -/
def measurements (s : State) (index : Nat) : List Byte :=
  (s.sce.blocks.filter fun b => index = 0xFF || b.1 % 16 = index).flatMap (·.2)

/-- The digests that there are: blocks 1 to 5, and block 6 of each compartment. -/
def blockCount (s : State) : Nat := s.sce.blocks.length

def execGetMeasurements (m : Spdm) (s : State) :=
  spdmEvent (fromPhase 3 fun s =>
    if m.p2 ≠ 0 && m.p2 ≠ 0xFF && measurements s m.p2 = [] then spdmError s 1 0
    else
      let b := measurements s m.p2
      if m.p1 % 2 = 1 then
        let (s, b) := signed s b
        spdmReply s 0xE0 (if m.p2 = 0 then blockCount s else 0) m.slot b
      else spdmReply s 0xE0 (if m.p2 = 0 then blockCount s else 0) m.slot b) s

/-- The session that a key exchange opens: the requester's half of its number, and the SCE's. -/
def newSession (s : State) (m : Spdm) : Nat := fieldAt m.body 0 2 + 2 ^ 16 * ((s.sce.nonce + 1) % 2 ^ 16)

def execKeyExchange (m : Spdm) (s : State) :=
  spdmEvent (fromPhase 3 (withSlot m fun s =>
    let id := newSession s m
    let (s, b) := signed s (Config.ephemeral s.sce.nonce ++ m.body)
    spdmReply (onSce s fun x => { x with sessions := x.sessions ++ [⟨id, false, 0, 0⟩] }) 0xE4 m.slot 0 b)) s

/-- A change of one session. -/
def onSession (s : State) (id : Nat) (f : Session → Session) : State :=
  onSce s fun x => { x with sessions := update x.sessions (fun y => y.id = id) f }

/-- A request within a session that is open (`finished`: whose handshake has ended): InvalidSession otherwise. -/
def inSession (id : Nat) (finished : Bool) (f : State → State) (s : State) : State :=
  if s.sce.sessions.any fun x => x.id = id && (x.finished || !finished) then f s else spdmError s 2 0

def execFinish (m : Spdm) (s : State) :=
  spdmEvent (inSession m.session false fun s =>
    if Config.finishOk m.session m.body then spdmReply (onSession s m.session fun x => { x with finished := true }) 0xE5 0 0 m.body
    else spdmError s 6 0) s

def execHeartbeat (m : Spdm) (s : State) :=
  spdmEvent (inSession m.session true fun s =>
    spdmReply (onSession s m.session fun x => { x with heartbeat := x.heartbeat + 1 }) 0xE8 0 0 m.body) s

def execKeyUpdate (m : Spdm) (s : State) :=
  spdmEvent (inSession m.session true fun s =>
    spdmReply (onSession s m.session fun x => { x with keyUpdates := x.keyUpdates + 1 }) 0xE9 m.p1 m.p2 m.body) s

/-- The end of a session takes the interfaces that it locked to ERROR (22 R338). -/
def dropSession (s : State) (id : Nat) : State :=
  let s := onSce s fun x => { x with sessions := x.sessions.filter fun y => y.id ≠ id }
  ((List.range 16).filter fun c => frozen s c && (comp s c).session = id).foldl tdiError s

def execEndSession (m : Spdm) (s : State) :=
  spdmEvent (inSession m.session false fun s => spdmReply (dropSession s m.session) 0xEC 0 0 m.body) s

/-- An IDE key-management request within a session sets the key of a function's selective stream (21 R324). -/
def setIdeKey (s : State) (m : Spdm) : State :=
  match Config.ideKey m.body with
  | some (f, key) =>
    if f < ideStreams && s.sce.sessions.any fun x => x.id = m.session && x.finished then
      { s with ide := Tab.put s.ide f { session := m.session, key := key } }
    else s
  | none => s

def execVendorDefinedRequest (m : Spdm) (s : State) :=
  spdmEvent (fromPhase 3 fun s => spdmReply (setIdeKey s m) 0xFE 0 0 (Config.vendorReply m.body)) s

/-! ## TDISP (22 R338 to R340) -/

/-- The answer to a TDISP request. -/
def tdispOut (s : State) (c : Nat) (ok : Bool) (b : List Byte) : State := { s with out := s.out ++ [.tdisp c ok b] }

/-- TDISP requests come within a session of the SCE. -/
def tdispEvent (c session : Nat) (f : State → State) (s : State) :=
  occur (s.powered && c < 16 && s.sce.sessions.any fun x => x.id = session && x.finished) f s

/-- The image of a descriptor that is measured: reserved and volatile fields are zero (22 R332, R337). -/
def descImage (d : Descriptor) : List Byte :=
  image 128 [⟨3, 1, d.flags.toNat⟩, ⟨4, 2, d.clusters.toNat⟩, ⟨6, 2, d.tenancy⟩, ⟨8, 8, d.xlate⟩, ⟨0x10, 8, d.resv⟩,
    ⟨0x18, 8, d.resvsz⟩, ⟨0x20, 8, d.trace⟩, ⟨0x28, 4, d.tracesz⟩, ⟨0x2C, 2, d.power⟩, ⟨0x2E, 1, d.memshare⟩,
    ⟨0x2F, 1, d.keyid⟩, ⟨0x30, 8, d.polkey⟩]

/-- LOCK_INTERFACE_REQUEST: the frozen items stand, and block 6 is measured. -/
def lockInterface (s : State) (c session : Nat) : State :=
  let x := comp s c
  if x.tdi = .unlocked && (x.desc.state = 1 || x.desc.state = 3) then
    let s := onSce s fun y => { y with blocks := Tab.put y.blocks (16 * c + 6) (Config.sm3 (descImage { x.desc with clusters := clustersField x })) }
    tdispOut (setComp s c { x with tdi := .locked, session := session }) c true []
  else tdispOut s c false []

def execLockInterfaceRequest (comp' session : Nat) (s : State) :=
  tdispEvent comp' session (fun s => lockInterface s comp' session) s

/-- START_INTERFACE_REQUEST: RUN, and an operation 5. -/
def startInterface (s : State) (c session : Nat) : State :=
  let x := comp s c
  if x.tdi = .locked && x.session = session then
    let s := setComp s c { x with tdi := .run }
    -- one operation of a compartment at a time (22 R333)
    tdispOut (if x.desc.op = 0 then startComp s c else setComp s c { comp s c with startAsked := true }) c true []
  else tdispOut s c false []

def execStartInterfaceRequest (comp' session : Nat) (s : State) :=
  tdispEvent comp' session (fun s => startInterface s comp' session) s

/-- STOP_INTERFACE_REQUEST: the reset, from any state but CONFIG_UNLOCKED, or joined to the one in progress. -/
def stopInterface (s : State) (c session : Nat) : State :=
  let x := comp s c
  if x.desc.state = 5 || x.tdi = .error || (frozen s c && x.session = session) then tdispOut (beginReset s c 2 false) c true []
  else tdispOut s c false []

def execStopInterfaceRequest (comp' session : Nat) (s : State) :=
  tdispEvent comp' session (fun s => stopInterface s comp' session) s

/-- The sub-links that a compartment owns: bit 4L + s (22 R340). -/
def ownLinks (s : State) (c : Nat) : Nat :=
  (List.range 60).foldl (fun n i =>
    let x := link s (i / 4)
    if (x.split || i % 4 = 0) && x.valid.testBit (i % 4) && Tab.getD x.own (i % 4) 0 = c then n + 2 ^ i else n) 0

/-- The tenant's public key (22 R332 POLKEY). -/
def tenantKey (s : State) (c : Nat) : List Byte := homeBytes s (keyNum s 0) (comp s c).desc.polkey 64

/-- The interface report (22 R340). -/
def interfaceReport (s : State) (c : Nat) : List Byte :=
  let x := comp s c
  image 108 [⟨0, 2, Config.interfaceInfo c⟩, ⟨4, 4, 2⟩,
    -- the address, the number of 4 KiB pages and the attributes of BAR 0 and of BAR 2, in the layout of TDISP (log 45)
    ⟨8, 8, Config.mmioOffset c 0⟩, ⟨0x10, 4, 2 ^ 16 / 2 ^ 12⟩, ⟨0x14, 4, Config.mmioAttr c 0⟩,
    ⟨0x18, 8, Config.mmioOffset c 2⟩, ⟨0x20, 4, 2 ^ 36 / 2 ^ 12⟩, ⟨0x24, 4, Config.mmioAttr c 2⟩,
    ⟨0x28, 4, 64⟩, ⟨0x2C, 2, x.desc.clusters.toNat⟩, ⟨0x2E, 2, x.xlate.colmask⟩, ⟨0x30, 1, x.desc.keyid⟩,
    ⟨0x31, 1, x.desc.flags.toNat⟩, ⟨0x32, 2, x.desc.tenancy⟩, ⟨0x34, 8, ownLinks s c⟩,
    ⟨0x3C, 32, Bits.ofLe ((Config.sm3 (tenantKey s c)).take 32)⟩]

/-- GET_DEVICE_INTERFACE_REPORT: of a locked interface. -/
def reportInterface (s : State) (c : Nat) : State :=
  if frozen s c then tdispOut s c true (interfaceReport s c) else tdispOut s c false []

def execGetDeviceInterfaceReport (comp' session : Nat) (s : State) :=
  tdispEvent comp' session (fun s => reportInterface s comp') s

def execIdeIntegrityFailure (comp' : Nat) (s : State) :=
  occur (frozen s comp') (fun s => tdiError s comp') s

/-! ## Policy (22 R342) -/

/-- Every check of a policy object. -/
def policyOk (s : State) (c : Nat) (b : List Byte) : Bool :=
  b.length = 192 && fieldAt b 0 4 = 0x504F4C59 && fieldAt b 4 2 = (comp s c).desc.tenancy && fieldAt b 6 1 = c &&
  fieldAt b 7 1 = 0 && (comp s c).policySerial < fieldAt b 8 8 && fieldAt b 0x10 4 < 64 && fieldAt b 0x14 108 = 0 &&
  Config.sm2Verify (tenantKey s c) (b.take 0x80) (b.drop 0x80)

/-- A policy object is accepted, or the previous policy stays in force. -/
def takePolicy (s : State) (c : Nat) (b : List Byte) : State :=
  if policyOk s c b then setComp s c { comp s c with rights := fieldAt b 0x10 4, policySerial := fieldAt b 8 8 } else s

def execPolicyObject (comp' : Nat) (obj : List (BitVec 8)) (s : State) :=
  occur (created s comp' && (comp s comp').desc.state ≠ 5) (fun s => takePolicy s comp' obj) s

/-! ## Power (22 R347) -/

/-- The compartment that holds a core. -/
def ownerOf (s : State) (k : Nat) : Option Nat :=
  (List.range 16).find? fun c => (comp s c).desc.state ≠ 0 && (comp s c).desc.clusters.getLsbD (k / 4)

/-- A core's clock is lowered by one step, to 1.8 GHz at the least. -/
def lower (s : State) (k : Nat) : State := if 1825 ≤ (core s k).mhz then setMhz s k ((core s k).mhz - 25) else s

/-- A deck's current exceeds its share: the non-strict cores named are lowered; a deck at its lowest clocks throttles issue. -/
def limitPower (s : State) (deck : Nat) (cores : BitVec 64) : State :=
  let ks := (List.range 64).filter fun k =>
    cores.getLsbD k && deckOf k = deck && (ownerOf s k).any fun c => !isStrict (comp s c).desc
  let low : Bool := ks.all fun k => (core s k).mhz < 1825
  let s := ks.foldl lower s
  if low && !s.throttled.contains deck then { s with throttled := s.throttled ++ [deck] } else s

def execPowerLimit (deck : Nat) (cores : BitVec 64) (s : State) :=
  occur (s.powered && deck < 2) (fun s => limitPower s deck cores) s

/-- The thermal trip: strict compartments are lowered, each with a record. -/
def tripThermal (s : State) : State :=
  ((List.range 16).filter fun c => (comp s c).desc.state ≠ 0 && isStrict (comp s c).desc).foldl (fun s c =>
    pushErr ((compCores s c).foldl lower s) c { code := 4, info := 0x1FF }) s

def execThermalTrip (s : State) := occur s.powered tripThermal s

/-! ## Bring-up (22 R348) -/

/-- Power is applied: blocks 1 to 4 are measured, and all memory is zero under slot 0. -/
def bringUp (s : State) : State :=
  { s with
    powered := true
    mem := []
    keys := []
    failing := []
    sce := { s.sce with blocks := [(1, Config.sm3 (Config.firmware 1)), (2, Config.sm3 (Config.firmware 2)),
      (3, Config.sm3 (Config.firmware 3)), (4, Config.sm3 (Bits.leBytes 8 Config.encodingHash ++ Config.firmware 4))] } }

def execPowerOn (s : State) := occur (!s.powered) bringUp s

end Sys2Proof.Machine
end

