-- ==== Sys2Proof/Machine/Dispatch.lean ====
section
/-! DEFINITION. One arm per instruction and event. -/

namespace Sys2Proof.Machine

def exec (i : Instr) (s : State) : Host.Outcome State Fault Refusal :=
  match i with
  | .stintStart bench team => Sys2Proof.Machine.execStintStart bench team s
  | .instructionFetch team pc => Sys2Proof.Machine.execInstructionFetch team pc s
  | .trapDelivery team => Sys2Proof.Machine.execTrapDelivery team s
  | .teamEviction team => Sys2Proof.Machine.execTeamEviction team s
  | .crewPlacement crew => Sys2Proof.Machine.execCrewPlacement crew s
  | .binTimerExpiry core bin => Sys2Proof.Machine.execBinTimerExpiry core bin s
  | .crewMigration crew core => Sys2Proof.Machine.execCrewMigration crew core s
  | .steeringInterval comp => Sys2Proof.Machine.execSteeringInterval comp s
  | .stopRequest comp sliceEnd => Sys2Proof.Machine.execStopRequest comp sliceEnd s
  | .graceExpiry team => Sys2Proof.Machine.execGraceExpiry team s
  | .deferralExpiry crew => Sys2Proof.Machine.execDeferralExpiry crew s
  | .saveReport comp => Sys2Proof.Machine.execSaveReport comp s
  | .tenantSwitch outgoing incoming => Sys2Proof.Machine.execTenantSwitch outgoing incoming s
  | .queueBounce req => Sys2Proof.Machine.execQueueBounce req s
  | .bounceArrival req => Sys2Proof.Machine.execBounceArrival req s
  | .reissueBackoffExpiry req => Sys2Proof.Machine.execReissueBackoffExpiry req s
  | .pannierReissue req => Sys2Proof.Machine.execPannierReissue req s
  | .translationWalk req => Sys2Proof.Machine.execTranslationWalk req s
  | .faultRecordRetry comp region => Sys2Proof.Machine.execFaultRecordRetry comp region s
  | .memoryRequestPerformed req ecc => Sys2Proof.Machine.execMemoryRequestPerformed req ecc s
  | .ownershipRegistration core word => Sys2Proof.Machine.execOwnershipRegistration core word s
  | .writeBack core line => Sys2Proof.Machine.execWriteBack core line s
  | .writebackTimeLimit core line => Sys2Proof.Machine.execWritebackTimeLimit core line s
  | .waitcTimeout team pc => Sys2Proof.Machine.execWaitcTimeout team pc s
  | .sleepExpiry team pc => Sys2Proof.Machine.execSleepExpiry team pc s
  | .promwDeadline team pc => Sys2Proof.Machine.execPromwDeadline team pc s
  | .matrixGrant cluster => Sys2Proof.Machine.execMatrixGrant cluster s
  | .matrixCompletion cluster => Sys2Proof.Machine.execMatrixCompletion cluster s
  | .fourInHandGrant hitch comp opid => Sys2Proof.Machine.execFourInHandGrant hitch comp opid s
  | .fourInHandCompletion hitch => Sys2Proof.Machine.execFourInHandCompletion hitch s
  | .harnessError hitch => Sys2Proof.Machine.execHarnessError hitch s
  | .copyAccept cmd => Sys2Proof.Machine.execCopyAccept cmd s
  | .copyStart cmd => Sys2Proof.Machine.execCopyStart cmd s
  | .copyFault cmd => Sys2Proof.Machine.execCopyFault cmd s
  | .copyCompletion cmd => Sys2Proof.Machine.execCopyCompletion cmd s
  | .claimAnnouncement core a => Sys2Proof.Machine.execClaimAnnouncement core a s
  | .objectionArrival core o => Sys2Proof.Machine.execObjectionArrival core o s
  | .objectionAnswer team proposal late => Sys2Proof.Machine.execObjectionAnswer team proposal late s
  | .claimWindowClose core handle => Sys2Proof.Machine.execClaimWindowClose core handle s
  | .membershipUpdate comp u => Sys2Proof.Machine.execMembershipUpdate comp u s
  | .ticketPoll comp region => Sys2Proof.Machine.execTicketPoll comp region s
  | .traincfg v => Sys2Proof.Machine.execTraincfg v s
  | .linkcfg link v => Sys2Proof.Machine.execLinkcfg link v s
  | .bound deck kind v => Sys2Proof.Machine.execBound deck kind v s
  | .engerr cluster v => Sys2Proof.Machine.execEngerr cluster v s
  | .linkDown link => Sys2Proof.Machine.execLinkDown link s
  | .linkUp link => Sys2Proof.Machine.execLinkUp link s
  | .linkRetrain link => Sys2Proof.Machine.execLinkRetrain link s
  | .flit link f => Sys2Proof.Machine.execFlit link f s
  | .retryRequest link lseq => Sys2Proof.Machine.execRetryRequest link lseq s
  | .postedWrite m => Sys2Proof.Machine.execPostedWrite m s
  | .readRequest m => Sys2Proof.Machine.execReadRequest m s
  | .remoteLoadReply tag status data => Sys2Proof.Machine.execRemoteLoadReply tag status data s
  | .acknowledgement stream coach below => Sys2Proof.Machine.execAcknowledgement stream coach below s
  | .refusal stream coach what reason => Sys2Proof.Machine.execRefusal stream coach what reason s
  | .streamRetire stream coach => Sys2Proof.Machine.execStreamRetire stream coach s
  | .unreachable coach => Sys2Proof.Machine.execUnreachable coach s
  | .doorbell comp tail => Sys2Proof.Machine.execDoorbell comp tail s
  | .launchRecord comp => Sys2Proof.Machine.execLaunchRecord comp s
  | .messageLaunch comp => Sys2Proof.Machine.execMessageLaunch comp s
  | .scallServiceReturn team r => Sys2Proof.Machine.execScallServiceReturn team r s
  | .hostBar2Access comp a => Sys2Proof.Machine.execHostBar2Access comp a s
  | .heqcons v => Sys2Proof.Machine.execHeqcons v s
  | .registerWrite t v => Sys2Proof.Machine.execRegisterWrite t v s
  | .create comp d => Sys2Proof.Machine.execCreate comp d s
  | .resize comp clusters => Sys2Proof.Machine.execResize comp clusters s
  | .destroy comp => Sys2Proof.Machine.execDestroy comp s
  | .stop comp => Sys2Proof.Machine.execStop comp s
  | .start comp => Sys2Proof.Machine.execStart comp s
  | .getVersion m => Sys2Proof.Machine.execGetVersion m s
  | .getCapabilities m => Sys2Proof.Machine.execGetCapabilities m s
  | .negotiateAlgorithms m => Sys2Proof.Machine.execNegotiateAlgorithms m s
  | .getDigests m => Sys2Proof.Machine.execGetDigests m s
  | .getCertificate m => Sys2Proof.Machine.execGetCertificate m s
  | .challenge m => Sys2Proof.Machine.execChallenge m s
  | .getMeasurements m => Sys2Proof.Machine.execGetMeasurements m s
  | .keyExchange m => Sys2Proof.Machine.execKeyExchange m s
  | .finish m => Sys2Proof.Machine.execFinish m s
  | .heartbeat m => Sys2Proof.Machine.execHeartbeat m s
  | .keyUpdate m => Sys2Proof.Machine.execKeyUpdate m s
  | .endSession m => Sys2Proof.Machine.execEndSession m s
  | .vendorDefinedRequest m => Sys2Proof.Machine.execVendorDefinedRequest m s
  | .lockInterfaceRequest comp session => Sys2Proof.Machine.execLockInterfaceRequest comp session s
  | .startInterfaceRequest comp session => Sys2Proof.Machine.execStartInterfaceRequest comp session s
  | .stopInterfaceRequest comp session => Sys2Proof.Machine.execStopInterfaceRequest comp session s
  | .getDeviceInterfaceReport comp session => Sys2Proof.Machine.execGetDeviceInterfaceReport comp session s
  | .ideIntegrityFailure comp => Sys2Proof.Machine.execIdeIntegrityFailure comp s
  | .policyObject comp obj => Sys2Proof.Machine.execPolicyObject comp obj s
  | .flr comp => Sys2Proof.Machine.execFlr comp s
  | .resetCompletion comp => Sys2Proof.Machine.execResetCompletion comp s
  | .powerLimit deck cores => Sys2Proof.Machine.execPowerLimit deck cores s
  | .thermalTrip => Sys2Proof.Machine.execThermalTrip s
  | .powerOn => Sys2Proof.Machine.execPowerOn s
  | .streamIdleExpiry stream => Sys2Proof.Machine.execStreamIdleExpiry stream s
  | .iadd x => Sys2Proof.Machine.execIadd x s
  | .isub x => Sys2Proof.Machine.execIsub x s
  | .imul x => Sys2Proof.Machine.execImul x s
  | .imulhI x => Sys2Proof.Machine.execImulhI x s
  | .imulhN x => Sys2Proof.Machine.execImulhN x s
  | .imad x => Sys2Proof.Machine.execImad x s
  | .iabsdI x => Sys2Proof.Machine.execIabsdI x s
  | .isadN x => Sys2Proof.Machine.execIsadN x s
  | .iminI x => Sys2Proof.Machine.execIminI x s
  | .imaxI x => Sys2Proof.Machine.execImaxI x s
  | .iminN x => Sys2Proof.Machine.execIminN x s
  | .imaxN x => Sys2Proof.Machine.execImaxN x s
  | .iaddsI x => Sys2Proof.Machine.execIaddsI x s
  | .isubsI x => Sys2Proof.Machine.execIsubsI x s
  | .iaddsN x => Sys2Proof.Machine.execIaddsN x s
  | .isubsN x => Sys2Proof.Machine.execIsubsN x s
  | .and x => Sys2Proof.Machine.execAnd x s
  | .or x => Sys2Proof.Machine.execOr x s
  | .xor x => Sys2Proof.Machine.execXor x s
  | .andn x => Sys2Proof.Machine.execAndn x s
  | .orn x => Sys2Proof.Machine.execOrn x s
  | .shl x => Sys2Proof.Machine.execShl x s
  | .shr x => Sys2Proof.Machine.execShr x s
  | .sar x => Sys2Proof.Machine.execSar x s
  | .rotl x => Sys2Proof.Machine.execRotl x s
  | .bfxI x => Sys2Proof.Machine.execBfxI x s
  | .bfxN x => Sys2Proof.Machine.execBfxN x s
  | .bfi x => Sys2Proof.Machine.execBfi x s
  | .prmb x => Sys2Proof.Machine.execPrmb x s
  | .clz x => Sys2Proof.Machine.execClz x s
  | .popc x => Sys2Proof.Machine.execPopc x s
  | .brev x => Sys2Proof.Machine.execBrev x s
  | .iaddi x => Sys2Proof.Machine.execIaddi x s
  | .shli x => Sys2Proof.Machine.execShli x s
  | .shri x => Sys2Proof.Machine.execShri x s
  | .sari x => Sys2Proof.Machine.execSari x s
  | .andi x => Sys2Proof.Machine.execAndi x s
  | .ori x => Sys2Proof.Machine.execOri x s
  | .xori x => Sys2Proof.Machine.execXori x s
  | .rotli x => Sys2Proof.Machine.execRotli x s
  | .shfl x => Sys2Proof.Machine.execShfl x s
  | .shflup x => Sys2Proof.Machine.execShflup x s
  | .shfldn x => Sys2Proof.Machine.execShfldn x s
  | .shflx x => Sys2Proof.Machine.execShflx x s
  | .tsumI x => Sys2Proof.Machine.execTsumI x s
  | .tminI x => Sys2Proof.Machine.execTminI x s
  | .tmaxI x => Sys2Proof.Machine.execTmaxI x s
  | .tscanI x => Sys2Proof.Machine.execTscanI x s
  | .mov x => Sys2Proof.Machine.execMov x s
  | .laneid x => Sys2Proof.Machine.execLaneid x s
  | .lidx x => Sys2Proof.Machine.execLidx x s
  | .iseq x => Sys2Proof.Machine.execIseq x s
  | .isne x => Sys2Proof.Machine.execIsne x s
  | .isltI x => Sys2Proof.Machine.execIsltI x s
  | .isleI x => Sys2Proof.Machine.execIsleI x s
  | .isltN x => Sys2Proof.Machine.execIsltN x s
  | .isleN x => Sys2Proof.Machine.execIsleN x s
  | .isany x => Sys2Proof.Machine.execIsany x s
  | .isnone x => Sys2Proof.Machine.execIsnone x s
  | .fseq x => Sys2Proof.Machine.execFseq x s
  | .fsne x => Sys2Proof.Machine.execFsne x s
  | .fslt x => Sys2Proof.Machine.execFslt x s
  | .fsle x => Sys2Proof.Machine.execFsle x s
  | .fsun x => Sys2Proof.Machine.execFsun x s
  | .fsord x => Sys2Proof.Machine.execFsord x s
  | .fsnan x => Sys2Proof.Machine.execFsnan x s
  | .fsinf x => Sys2Proof.Machine.execFsinf x s
  | .pand x => Sys2Proof.Machine.execPand x s
  | .por x => Sys2Proof.Machine.execPor x s
  | .pxor x => Sys2Proof.Machine.execPxor x s
  | .pnot x => Sys2Proof.Machine.execPnot x s
  | .pany x => Sys2Proof.Machine.execPany x s
  | .pall x => Sys2Proof.Machine.execPall x s
  | .psig x => Sys2Proof.Machine.execPsig x s
  | .pelect x => Sys2Proof.Machine.execPelect x s
  | .sadd x => Sys2Proof.Machine.execSadd x s
  | .ssub x => Sys2Proof.Machine.execSsub x s
  | .smul x => Sys2Proof.Machine.execSmul x s
  | .smulhI x => Sys2Proof.Machine.execSmulhI x s
  | .smulhN x => Sys2Proof.Machine.execSmulhN x s
  | .sdivI x => Sys2Proof.Machine.execSdivI x s
  | .sdivN x => Sys2Proof.Machine.execSdivN x s
  | .sremI x => Sys2Proof.Machine.execSremI x s
  | .sremN x => Sys2Proof.Machine.execSremN x s
  | .sand x => Sys2Proof.Machine.execSand x s
  | .sor x => Sys2Proof.Machine.execSor x s
  | .sxor x => Sys2Proof.Machine.execSxor x s
  | .sandn x => Sys2Proof.Machine.execSandn x s
  | .sshl x => Sys2Proof.Machine.execSshl x s
  | .sshr x => Sys2Proof.Machine.execSshr x s
  | .ssar x => Sys2Proof.Machine.execSsar x s
  | .sminI x => Sys2Proof.Machine.execSminI x s
  | .smaxI x => Sys2Proof.Machine.execSmaxI x s
  | .sminN x => Sys2Proof.Machine.execSminN x s
  | .smaxN x => Sys2Proof.Machine.execSmaxN x s
  | .sclz x => Sys2Proof.Machine.execSclz x s
  | .spopc x => Sys2Proof.Machine.execSpopc x s
  | .sseq x => Sys2Proof.Machine.execSseq x s
  | .ssltI x => Sys2Proof.Machine.execSsltI x s
  | .ssltN x => Sys2Proof.Machine.execSsltN x s
  | .smov x => Sys2Proof.Machine.execSmov x s
  | .sadd64 x => Sys2Proof.Machine.execSadd64 x s
  | .ssub64 x => Sys2Proof.Machine.execSsub64 x s
  | .sshl64 x => Sys2Proof.Machine.execSshl64 x s
  | .sshr64 x => Sys2Proof.Machine.execSshr64 x s
  | .saddx x => Sys2Proof.Machine.execSaddx x s
  | .sbfx x => Sys2Proof.Machine.execSbfx x s
  | .saddi x => Sys2Proof.Machine.execSaddi x s
  | .sandi x => Sys2Proof.Machine.execSandi x s
  | .sori x => Sys2Proof.Machine.execSori x s
  | .sxori x => Sys2Proof.Machine.execSxori x s
  | .sshli x => Sys2Proof.Machine.execSshli x s
  | .sshri x => Sys2Proof.Machine.execSshri x s
  | .ssari x => Sys2Proof.Machine.execSsari x s
  | .ssltiI x => Sys2Proof.Machine.execSsltiI x s
  | .bcast x => Sys2Proof.Machine.execBcast x s
  | .lanerd x => Sys2Proof.Machine.execLanerd x s
  | .mfc x => Sys2Proof.Machine.execMfc x s
  | .mtc x => Sys2Proof.Machine.execMtc x s
  | .pmov x => Sys2Proof.Machine.execPmov x s
  | .fadd x => Sys2Proof.Machine.execFadd x s
  | .fsub x => Sys2Proof.Machine.execFsub x s
  | .fmul x => Sys2Proof.Machine.execFmul x s
  | .fmin x => Sys2Proof.Machine.execFmin x s
  | .fmax x => Sys2Proof.Machine.execFmax x s
  | .fabs x => Sys2Proof.Machine.execFabs x s
  | .fneg x => Sys2Proof.Machine.execFneg x s
  | .fcpsgn x => Sys2Proof.Machine.execFcpsgn x s
  | .ffma x => Sys2Proof.Machine.execFfma x s
  | .ffms x => Sys2Proof.Machine.execFfms x s
  | .fnfma x => Sys2Proof.Machine.execFnfma x s
  | .fdiv x => Sys2Proof.Machine.execFdiv x s
  | .fsqrt x => Sys2Proof.Machine.execFsqrt x s
  | .frcp x => Sys2Proof.Machine.execFrcp x s
  | .frsq x => Sys2Proof.Machine.execFrsq x s
  | .fexp2 x => Sys2Proof.Machine.execFexp2 x s
  | .flog2 x => Sys2Proof.Machine.execFlog2 x s
  | .fsinpi x => Sys2Proof.Machine.execFsinpi x s
  | .fcospi x => Sys2Proof.Machine.execFcospi x s
  | .ffloor x => Sys2Proof.Machine.execFfloor x s
  | .fceil x => Sys2Proof.Machine.execFceil x s
  | .ftrunc x => Sys2Proof.Machine.execFtrunc x s
  | .frint x => Sys2Proof.Machine.execFrint x s
  | .ffract x => Sys2Proof.Machine.execFfract x s
  | .f4add x => Sys2Proof.Machine.execF4add x s
  | .f4sub x => Sys2Proof.Machine.execF4sub x s
  | .f4mul x => Sys2Proof.Machine.execF4mul x s
  | .f4fma x => Sys2Proof.Machine.execF4fma x s
  | .f4fms x => Sys2Proof.Machine.execF4fms x s
  | .f4min x => Sys2Proof.Machine.execF4min x s
  | .f4max x => Sys2Proof.Machine.execF4max x s
  | .dadd x => Sys2Proof.Machine.execDadd x s
  | .dsub x => Sys2Proof.Machine.execDsub x s
  | .dmul x => Sys2Proof.Machine.execDmul x s
  | .dfma x => Sys2Proof.Machine.execDfma x s
  | .ddiv x => Sys2Proof.Machine.execDdiv x s
  | .dsqrt x => Sys2Proof.Machine.execDsqrt x s
  | .dmin x => Sys2Proof.Machine.execDmin x s
  | .dmax x => Sys2Proof.Machine.execDmax x s
  | .hadd2 x => Sys2Proof.Machine.execHadd2 x s
  | .hmul2 x => Sys2Proof.Machine.execHmul2 x s
  | .hfma2 x => Sys2Proof.Machine.execHfma2 x s
  | .hmax2 x => Sys2Proof.Machine.execHmax2 x s
  | .badd2 x => Sys2Proof.Machine.execBadd2 x s
  | .bmul2 x => Sys2Proof.Machine.execBmul2 x s
  | .bfma2 x => Sys2Proof.Machine.execBfma2 x s
  | .bmax2 x => Sys2Proof.Machine.execBmax2 x s
  | .cvt x => Sys2Proof.Machine.execCvt x s
  | .cvts x => Sys2Proof.Machine.execCvts x s
  | .pk8 x => Sys2Proof.Machine.execPk8 x s
  | .pk4 x => Sys2Proof.Machine.execPk4 x s
  | .upk8 x => Sys2Proof.Machine.execUpk8 x s
  | .upk4 x => Sys2Proof.Machine.execUpk4 x s
  | .qdec x => Sys2Proof.Machine.execQdec x s
  | .qenc x => Sys2Proof.Machine.execQenc x s
  | .tagrd x => Sys2Proof.Machine.execTagrd x s
  | .tagwr x => Sys2Proof.Machine.execTagwr x s
  | .tagmin x => Sys2Proof.Machine.execTagmin x s
  | .tagfull x => Sys2Proof.Machine.execTagfull x s
  | .tagunt x => Sys2Proof.Machine.execTagunt x s
  | .bra x => Sys2Proof.Machine.execBra x s
  | .call x => Sys2Proof.Machine.execCall x s
  | .ret x => Sys2Proof.Machine.execRet x s
  | .jmpi x => Sys2Proof.Machine.execJmpi x s
  | .calli x => Sys2Proof.Machine.execCalli x s
  | .exit x => Sys2Proof.Machine.execExit x s
  | .yield x => Sys2Proof.Machine.execYield x s
  | .nop x => Sys2Proof.Machine.execNop x s
  | .brk x => Sys2Proof.Machine.execBrk x s
  | .trap x => Sys2Proof.Machine.execTrap x s
  | .prioset x => Sys2Proof.Machine.execPrioset x s
  | .enrol m x => Sys2Proof.Machine.execEnrol m x s
  | .joinw m x => Sys2Proof.Machine.execJoinw m x s
  | .joinq m x => Sys2Proof.Machine.execJoinq m x s
  | .maskrd m x => Sys2Proof.Machine.execMaskrd m x s
  | .spawn x => Sys2Proof.Machine.execSpawn x s
  | .bara k x => Sys2Proof.Machine.execBara k x s
  | .barw k x => Sys2Proof.Machine.execBarw k x s
  | .baraw k x => Sys2Proof.Machine.execBaraw k x s
  | .bcbi k x => Sys2Proof.Machine.execBcbi k x s
  | .bcbx k x => Sys2Proof.Machine.execBcbx k x s
  | .bcbw k x => Sys2Proof.Machine.execBcbw k x s
  | .bcba k x => Sys2Proof.Machine.execBcba k x s
  | .promw k x => Sys2Proof.Machine.execPromw k x s
  | .waitc x => Sys2Proof.Machine.execWaitc x s
  | .watch x => Sys2Proof.Machine.execWatch x s
  | .unwatch x => Sys2Proof.Machine.execUnwatch x s
  | .sleep x => Sys2Proof.Machine.execSleep x s
  | .binfl x => Sys2Proof.Machine.execBinfl x s
  | .suspend x => Sys2Proof.Machine.execSuspend x s
  | .resume x => Sys2Proof.Machine.execResume x s
  | .tcopy x => Sys2Proof.Machine.execTcopy x s
  | .tdisc x => Sys2Proof.Machine.execTdisc x s
  | .tstat x => Sys2Proof.Machine.execTstat x s
  | .claim k x => Sys2Proof.Machine.execClaim k x s
  | .object k x => Sys2Proof.Machine.execObject k x s
  | .clpeek k x => Sys2Proof.Machine.execClpeek k x s
  | .clpop k x => Sys2Proof.Machine.execClpop k x s
  | .clwait k x => Sys2Proof.Machine.execClwait k x s
  | .cljoin k x => Sys2Proof.Machine.execCljoin k x s
  | .clleave k x => Sys2Proof.Machine.execClleave k x s
  | .rtr x => Sys2Proof.Machine.execRtr x s
  | .rts x => Sys2Proof.Machine.execRts x s
  | .replay x => Sys2Proof.Machine.execReplay x s
  | .tlbi x => Sys2Proof.Machine.execTlbi x s
  | .harvest x => Sys2Proof.Machine.execHarvest x s
  | .park x => Sys2Proof.Machine.execPark x s
  | .halt x => Sys2Proof.Machine.execHalt x s
  | .scall x => Sys2Proof.Machine.execScall x s
  | .ld8I x => Sys2Proof.Machine.execLd8I x s
  | .ld8N x => Sys2Proof.Machine.execLd8N x s
  | .ld16I x => Sys2Proof.Machine.execLd16I x s
  | .ld16N x => Sys2Proof.Machine.execLd16N x s
  | .ld32 x => Sys2Proof.Machine.execLd32 x s
  | .ld64 x => Sys2Proof.Machine.execLd64 x s
  | .ld128 x => Sys2Proof.Machine.execLd128 x s
  | .ldt32 x => Sys2Proof.Machine.execLdt32 x s
  | .st8 x => Sys2Proof.Machine.execSt8 x s
  | .st16 x => Sys2Proof.Machine.execSt16 x s
  | .st32 x => Sys2Proof.Machine.execSt32 x s
  | .st64 x => Sys2Proof.Machine.execSt64 x s
  | .st128 x => Sys2Proof.Machine.execSt128 x s
  | .stt32 x => Sys2Proof.Machine.execStt32 x s
  | .lds x => Sys2Proof.Machine.execLds x s
  | .sts x => Sys2Proof.Machine.execSts x s
  | .atomAdd m x => Sys2Proof.Machine.execAtomAdd m x s
  | .atomAdd64 m x => Sys2Proof.Machine.execAtomAdd64 m x s
  | .atomMini m x => Sys2Proof.Machine.execAtomMini m x s
  | .atomMaxi m x => Sys2Proof.Machine.execAtomMaxi m x s
  | .atomMinn m x => Sys2Proof.Machine.execAtomMinn m x s
  | .atomMaxn m x => Sys2Proof.Machine.execAtomMaxn m x s
  | .atomAnd m x => Sys2Proof.Machine.execAtomAnd m x s
  | .atomOr m x => Sys2Proof.Machine.execAtomOr m x s
  | .atomXor m x => Sys2Proof.Machine.execAtomXor m x s
  | .atomSwap m x => Sys2Proof.Machine.execAtomSwap m x s
  | .atomCas m x => Sys2Proof.Machine.execAtomCas m x s
  | .atomSwap64 m x => Sys2Proof.Machine.execAtomSwap64 m x s
  | .atomCas64 m x => Sys2Proof.Machine.execAtomCas64 m x s
  | .atomFadd m x => Sys2Proof.Machine.execAtomFadd m x s
  | .atomFmin m x => Sys2Proof.Machine.execAtomFmin m x s
  | .atomFmax m x => Sys2Proof.Machine.execAtomFmax m x s
  | .atomIncw m x => Sys2Proof.Machine.execAtomIncw m x s
  | .atomDecsp m x => Sys2Proof.Machine.execAtomDecsp m x s
  | .atomRedadd m x => Sys2Proof.Machine.execAtomRedadd m x s
  | .atomRedfadd m x => Sys2Proof.Machine.execAtomRedfadd m x s
  | .fence order scope x => Sys2Proof.Machine.execFence order scope x s
  | .flushr order scope x => Sys2Proof.Machine.execFlushr order scope x s
  | .invr order scope x => Sys2Proof.Machine.execInvr order scope x s
  | .pref order scope x => Sys2Proof.Machine.execPref order scope x s
  | .tld k x => Sys2Proof.Machine.execTld k x s
  | .tst k x => Sys2Proof.Machine.execTst k x s
  | .tzero k x => Sys2Proof.Machine.execTzero k x s
  | .ttag k x => Sys2Proof.Machine.execTtag k x s
  | .mma x => Sys2Proof.Machine.execMma x s
  | .mma4 x => Sys2Proof.Machine.execMma4 x s
  | .mmaw x => Sys2Proof.Machine.execMmaw x s
  | .mmaq x => Sys2Proof.Machine.execMmaq x s
  | .mmax x => Sys2Proof.Machine.execMmax x s
  | .cpy x => Sys2Proof.Machine.execCpy x s
  | .gath x => Sys2Proof.Machine.execGath x s
  | .scat x => Sys2Proof.Machine.execScat x s
  | .coll x => Sys2Proof.Machine.execColl x s
  | .ewait x => Sys2Proof.Machine.execEwait x s
  | .ecan x => Sys2Proof.Machine.execEcan x s
  | .eqry x => Sys2Proof.Machine.execEqry x s
  | .trdv x => Sys2Proof.Machine.execTrdv x s
  | .twrv x => Sys2Proof.Machine.execTwrv x s
  | .himm p => Sys2Proof.Machine.execHimm p s
  | .hgrd p => Sys2Proof.Machine.execHgrd p s
  | .hprio p => Sys2Proof.Machine.execHprio p s
  | .hrnd p => Sys2Proof.Machine.execHrnd p s
  | .hscp p => Sys2Proof.Machine.execHscp p s
  | .hrlx p => Sys2Proof.Machine.execHrlx p s
  | .hyld p => Sys2Proof.Machine.execHyld p s
  | .hreuse p => Sys2Proof.Machine.execHreuse p s
  | .hsig p => Sys2Proof.Machine.execHsig p s
  | .hlat p => Sys2Proof.Machine.execHlat p s

end Sys2Proof.Machine
end

