-- ==== Sys2Proof/Machine/Sched.lean ====
section
/-! DEFINITION. What goes on of itself: what follows every step, and which event of the device is due (log 5, 7). Where the spec
leaves the order of two events open, the order here is one that it allows. -/

namespace Sys2Proof.Machine

/-! ## After a step -/

/-- A stint whose team has left its bench, or has no ready entry outside a chain, has ended (15 R267). -/
def stintGone (s : State) (b k : Nat) : Bool :=
  (team? s k).all fun t =>
    !(t.place.any fun p => p.benchNo = b) ||
    (t.chain = 0 && !teamReady s t && !lateDue t && s.cur.all fun u => u.team ≠ k)

/-- Such stints end. -/
def freeBenches (s : State) : State :=
  s.benches.foldl (fun s b => if (bench s b.1).holder.any (stintGone s b.1) then endStint s b.1 else s) s


/-- The removals of clusters go on. -/
def removals (s : State) : State :=
  ((s.comps.filter fun c => c.2.leaving.isSome).map (·.1)).foldl advanceLeaving s

/-- A START that has waited goes on once its compartment's operation has ended. -/
def startsLate (s : State) : State := ((s.comps.filter fun c => c.2.startAsked).map (·.1)).foldl startLate s

/-- What goes on of itself after a step. -/
def afterStep (s : State) : State :=
  freeBenches (teamsAfter (startsLate (removals (level2Step (settleForeign (flushFabric s))))))

/-! ## The records of the trace buffers (22 R343, log 46) -/

/-- The lanes of a team that stand parked. -/
def parkedLanes (t : Team) : Word :=
  t.front.foldl (fun m e => if e.wait.any fun w => w.parked || (match w with | .sleep _ => true | _ => false) then m ||| e.mask else m) 0

/-- The records that a step makes of a team: a trap taken, lanes that have parked, and lanes that have woken. -/
def traceTeam (old : State) (s : State) (kt : Nat × Team) : State :=
  match team? old kt.1 with
  | none => s
  | some u =>
    let t := kt.2
    let k := holdingCore s kt.1 t
    let was := parkedLanes u
    let now := parkedLanes t
    let s := if t.entering && !u.entering then traceWrite s t.comp k 2 [kt.1, t.trapLo.toNat, t.trapHi.toNat, t.frameIdx] else s
    let s := if now &&& ~~~was ≠ 0 then traceWrite s t.comp k 3 [kt.1, (now &&& ~~~was).toNat] else s
    if was &&& ~~~now ≠ 0 then traceWrite s t.comp k 4 [kt.1, (was &&& ~~~now).toNat] else s

/-- The core that an engine operation of a team is recorded on. -/
def traceCore (s : State) (key : Nat) : Nat := ((team? s key).map fun t => holdingCore s key t).getD 0

/-- The engine operations that a step completes. -/
def traceEngines (old : State) (s : State) : State :=
  let s := (old.mats.filter fun m => s.mats.all fun x => x.id ≠ m.id).foldl
    (fun s m => traceWrite s (teamComp m.team) (traceCore s m.team) 5 [m.team, 0, m.handle]) s
  (old.copies.filter fun x => s.copies.all fun y => y.id ≠ x.id).foldl
    (fun s x => traceWrite s (teamComp x.team) x.core 5 [x.team, 1, x.handle]) s

/-- The bounces of a step. -/
def traceBounces (old : State) (s : State) : State :=
  let s := (s.reqs.filter fun r => r.stage = .flight && (req? old r.id).all fun q => q.stage ≠ .flight).foldl
    (fun s r => traceWrite s (teamComp r.team) r.core 6 [r.team, r.cls, r.cause, r.line]) s
  let s := (s.mats.filter fun m => m.stage.cause.isSome && (mat? old m.id).all fun x => x.stage.cause.isNone).foldl
    (fun s m => traceWrite s (teamComp m.team) (traceCore s m.team) 6 [m.team, 5, m.handle]) s
  (s.copies.filter fun x => x.stage.cause.isSome && (copy? old x.id).all fun y => y.stage.cause.isNone).foldl
    (fun s x => traceWrite s (teamComp x.team) x.core 6 [x.team, 6, x.handle]) s

/-- The records of a step, from the state before it: none while no buffer is open. -/
def traceStep (old : State) (s : State) : State :=
  if (Tab.keys s.comps).any (traces s) then traceBounces old (traceEngines old (s.teams.foldl (traceTeam old) s)) else s

/-! ## Requests of the memory system -/

/-- A request in a queue would go on. -/
def progresses (s : State) (r : Req) : Bool := ((req? (advanceReq s r.id .clean) r.id).map (·.stage)) ≠ some r.stage

/-- The event of a request that is due. -/
def reqDue (s : State) (r : Req) : Option Instr :=
  match r.stage with
  | .flight => some (.bounceArrival r.id)
  | .pannier =>
    if backoffOver s r.id then some (.reissueBackoffExpiry r.id) else if reissues s r then some (.pannierReissue r.id) else none
  | .queue k =>
    if !r.missed && progresses s r then some (if k = 2 then .translationWalk r.id else .memoryRequestPerformed r.id .clean)
    else if reqBounces s r then some (.queueBounce r.id)
    else none
  | .away _ => none

/-- Requests, and the registrations of words (11 R213). -/
def memoryDue (s : State) : Option Instr :=
  (s.reqs.findSome? (reqDue s)).orElse fun _ =>
    s.registering.findSome? fun r => if stalled s 8 r.1 then none else some (.ownershipRegistration r.1 r.2)

/-! ## Planes and engines -/

/-- The core that a message of the planes goes to. -/
def planeCore (s : State) : Instr → Nat
  | .claimAnnouncement k _ => k
  | .objectionArrival k _ => k
  | .objectionAnswer t _ _ => ((team? s t).map (holdingCore s t)).getD 0
  | _ => 0

/-- A message of the planes arrives, unless its plane is stalled: by its bound at the latest (16 R285). -/
def planeDue (s : State) : Option Instr :=
  s.plane.findSome? fun m => if m.latest ≤ beat s || !stalled s 9 (planeCore s m.event) then some m.event else none

/-- The event of a matrix engine that is due. -/
def matrixDue (s : State) : Option Instr :=
  (s.mats.findSome? fun m =>
    if matBounces s m then some (.queueBounce m.id)
    else if backoffOver s m.id then some (.reissueBackoffExpiry m.id)
    else if matReissues s m then some (.pannierReissue m.id)
    else if m.four then
      let h := m.cluster / 4
      if (setJoined s h (teamComp m.team) m.opid).length = 4 then some (.fourInHandGrant h (teamComp m.team) m.opid)
      else if (setRunning s h).length = 4 && (setRunning s h).all fun x => x.stage.over s.time then some (.fourInHandCompletion h)
      else none
    else if (matOver s m.cluster).isSome then some (.matrixCompletion m.cluster)
    else none).orElse fun _ =>
  s.mats.findSome? fun m => if (grantMat s m.cluster).isSome then some (.matrixGrant m.cluster) else none

/-- The event of a copy command that is due. -/
def copyDue (s : State) (x : Copy) : Option Instr :=
  if acceptable s x then some (.copyAccept x.id)
  else if starts s x then some (.copyStart x.id)
  else if x.stage.isRunning then
    if x.bad.isSome then some (.copyFault x.id)
    else
      match x.stage with
      | .running t =>
        if t + x.dur ≤ s.time && copy? (completeCopy s x) x.id ≠ some x then some (.copyCompletion x.id) else none
      | _ => none
  else if backoffOver s x.id then some (.reissueBackoffExpiry x.id)
  else if copyReissues s x then some (.pannierReissue x.id)
  else if copyBounces s x then some (.queueBounce x.id)
  else none

/-! ## Claims -/

/-- A window that has closed, and whose outcome can be had. -/
def claimDue (s : State) : Option Instr :=
  s.cores.findSome? fun k => k.2.outgoing.findSome? fun p =>
    match windowDue s k.1 p.1 with
    | some q =>
      if Tab.get? (core (closeWindow s k.1 p.1 q) k.1).outgoing p.1 ≠ some q then some (.claimWindowClose k.1 p.1) else none
    | none => none

/-- A change of membership whose group is quiet. -/
def memberDue (s : State) : Option Instr :=
  s.comps.findSome? fun c =>
    if c.2.desc.state ≠ 2 then none
    else
      (compCores s c.1).findSome? fun k => (core s k).groups.findSome? fun g =>
        match g.2.pending with
        | some u => if u.team < 2 ^ 40 && groupQuiet s c.1 u.group then some (.membershipUpdate c.1 u) else none
        | none => none

/-! ## Timers -/

/-- The event of a timed wait that is over. -/
def waitDue (now key : Nat) (e : Entry) : Option Instr :=
  if e.wait.any (sleepOver now) then some (.sleepExpiry key e.pc)
  else if e.wait.any (waitcOver now) then some (.waitcTimeout key e.pc)
  else if e.wait.any (promwOver now) then some (.promwDeadline key e.pc)
  else none

/-- The event of a team's clock that is due. -/
def teamDue (s : State) (kt : Nat × Team) : Option Instr :=
  if deliverable s kt.1 then some (.trapDelivery kt.1)
  else
    let now := teamClk s kt.1
    let waitDue (now key : Nat) (e : Entry) : Option Instr := if kt.2.frozen then none else waitDue now key e
    (kt.2.front.findSome? (waitDue now kt.1)).orElse fun _ =>
    ((kt.2.held.filter fun h => h.result.isNone).findSome? fun h => waitDue now kt.1 h.entry).orElse fun _ =>
    if graceDue s kt.1 then some (.graceExpiry kt.1) else none

/-- The event of a core's timers that is due. -/
def coreDue (s : State) (kx : Nat × Core) : Option Instr :=
  ((List.range kx.2.bins.length).findSome? fun i =>
    if (kx.2.bins[i]?).any (binDue s kx.1) then some (.binTimerExpiry kx.1 i) else none).orElse fun _ =>
  kx.2.dirtyLines.findSome? fun d => if lineDue s kx.1 d.1 then some (.writebackTimeLimit kx.1 d.1) else none

/-- The event of a region's timers that is due. -/
def regionDue (s : State) (r : Nat × Region) : Option Instr :=
  if retryDue s r.2.comp r.1 then some (.faultRecordRetry r.2.comp r.1)
  else if pollDue s r.2.comp r.1 then some (.ticketPoll r.2.comp r.1)
  else none

/-- The event of a compartment that is due. -/
def compDue (s : State) (c : Nat) : Option Instr :=
  if (comp s c).resetting.isSome then some (.resetCompletion c)
  else if saveDue s c then some (.saveReport c)
  else if steerDue s c then some (.steeringInterval c)
  else none

/-- The event of the fabric's timers that is due. -/
def fabricDue (s : State) : Option Instr :=
  (s.links.findSome? fun l => if s.trainEn && retrainDue s l.1 then some (.linkRetrain l.1) else none).orElse fun _ =>
  ((Tab.keys s.reach).findSome? fun t => if unreachableDue s t then some (.unreachable t) else none).orElse fun _ =>
  s.streams.findSome? fun x =>
    if retireDue s x && (sendMsg s x.coach (subFor s x.team x.coach) (.retire (streamOf x.team) s.coach)).isSome then
      some (.streamIdleExpiry (streamOf x.team))
    else none

/-- The events of every timer. -/
def timerDue (s : State) : Option Instr :=
  (s.teams.findSome? (teamDue s)).orElse fun _ =>
  (s.cores.findSome? (coreDue s)).orElse fun _ =>
  (s.regions.findSome? (regionDue s)).orElse fun _ =>
  ((Tab.keys s.comps).findSome? (compDue s)).orElse fun _ =>
  ((Tab.keys s.crews).findSome? fun ck => if deferDue s ck then some (.deferralExpiry ck) else none).orElse fun _ =>
  fabricDue s

/-! ## Placement, launches and stints -/

/-- A crew of a running compartment waits for room. -/
def waitsForRoom (s : State) (c : Nat) : Bool :=
  s.crews.any fun x => x.2.comp = c && compRuns s c && waitingTeams s x.1 ≠ [] && (placeCrew? s x.1).isNone

/-- A team leaves its slot when a crew of its compartment waits for room (15 R269), or one of another compartment on its core while
its own stands still (R276). -/
def evictionDue (s : State) : Option Instr :=
  let claimed (t : Team) : Bool := !compUp s t.comp && (Tab.keys s.comps).any fun c =>
    c ≠ t.comp && waitsForRoom s c && t.place.any fun p => (compCores s c).contains p.core
  s.teams.findSome? fun t =>
    if (waitsForRoom s t.2.comp || claimed t.2) && evictable s t.1 then some (.teamEviction t.1) else none

/-- The Postmaster's next work: placements, evictions for them, and launches. -/
def postmasterDue (s : State) : Option Instr :=
  ((Tab.keys s.crews).findSome? fun ck => if (placeCrew? s ck).isSome then some (.crewPlacement ck) else none).orElse fun _ =>
  (evictionDue s).orElse fun _ =>
  (Tab.keys s.comps).findSome? fun c =>
    if launchDue s c then some (.launchRecord c) else if messageDue s c then some (.messageLaunch c) else none

/-- A bench that gives its next stint. -/
def stintNext (s : State) : Option Instr :=
  s.benches.findSome? fun b =>
    if (bench s b.1).holder.isSome then none else (chooseTeam s b.1).map fun t => .stintStart b.1 t

/-- The event of the device that is due now, if any. -/
def due (s : State) : Option Instr :=
  (memoryDue s).orElse fun _ =>
  (planeDue s).orElse fun _ =>
  (matrixDue s).orElse fun _ =>
  (s.copies.findSome? (copyDue s)).orElse fun _ =>
  (claimDue s).orElse fun _ =>
  (memberDue s).orElse fun _ =>
  (timerDue s).orElse fun _ =>
  (postmasterDue s).orElse fun _ =>
  stintNext s

end Sys2Proof.Machine
end

