-- ==== Sys2Proof/Machine/Step.lean ====
section
/-! DEFINITION. One step of the device: an event, or the next word of the team whose turn it is. -/

namespace Sys2Proof.Machine

/-- A word of the current issue is performed (03 R36, R48, R53). -/
noncomputable def stepWord (w : Word) (s : State) : Host.Outcome State Fault Refusal :=
  match decode w with
  | .ok i => exec i s
  | .error _ => if isHint w then performHint s else .next (badWord s)

/-- The current issue goes on with its next word. -/
noncomputable def stepIssue (s : State) (u : Cur) : Host.Outcome State Fault Refusal :=
  match currentWord s u with
  | (s, .word w) => stepWord w (withWord s u w)
  | _ => exec (.instructionFetch u.team u.pc) s

/-- What instructions wait for without parking is tried again once something has happened. -/
def retried (s : State) : State := if s.stir || backoffPast s then wakeAgain s else s

/-- The next issue begins, if a team has one; otherwise time has passed. -/
noncomputable def stepPick (s : State) : Host.Outcome State Fault Refusal :=
  match pick (retried s) with
  | some s =>
    match s.cur with
    | some u => stepIssue s u
    | none => .next s
  | none => .next (retried s)

/-- A step before what goes on of itself: the device powers on first (22 R348); then a thread just made enters its bin, a run of
hints goes on, an input arrives, a due event happens, or a team issues. -/
noncomputable def stepCore (s : State) : Host.Outcome State Fault Refusal :=
  if !s.powered then exec .powerOn s
  else if s.spawning ≠ [] then .next (enterBin s)
  else
    match s.cur with
    | some u => stepIssue s u
    | none =>
      match s.inputs with
      | e :: r => if e.shape.maj = 0 then exec e { s with inputs := r } else .next { s with inputs := r }
      | [] =>
        match due s with
        | some e => exec e s
        | none => stepPick s

/-- A step: time passes, something happens, and what goes on of itself goes on. -/
noncomputable def step (s : State) : Host.Outcome State Fault Refusal :=
  match stepCore (tick s) with
  | .next t => .next (traceStep s (afterStep t))
  | o => o

/-- The state with an instruction's word where the next step fetches, on a team placed as `hostPlace` does (log 3). -/
def State.withFetchWord (s : State) (nbits w : Nat) : State := hostPlace s (w % 2 ^ nbits)

end Sys2Proof.Machine
end

