-- ==== Sys2Proof/Safety.lean ====
section
/-! DEFINITION. The terms of the statements: safe runs, an instruction that issues, and what it leaves unchanged. -/

namespace Sys2Proof.Machine

/-- A state from which the next step goes on. -/
def Goes (s : State) : Prop := ∃ t, step s = .next t

/-- A run of `n` steps from a state in which every step goes on. -/
def Safe : Nat → State → Prop
  | 0, _ => True
  | n + 1, s => ∃ t, step s = .next t ∧ Safe n t

/-- Step 4 of 03 R54 for an instruction: MFC and MTC have the order of 02 R23. -/
def privOf : Instr → Ctx → State → Option Nat
  | .mfc x => mfcCheck x.k.toNat
  | .mtc x => mtcCheck x.k.toNat
  | _ => privCheck

/-- A team issues the instruction and it passes the checks before its own (03 R54 steps 1 to 6). -/
def Ready (i : Instr) (s : State) (c : Ctx) : Prop := context i.shape s = some c ∧ checks (privOf i) c s = .ok

/-! ## Frames -/

/-- A team without what the issue of an instruction moves: its frontier, rejoin masks, guarded span, chain, replay queue, what its parking
instructions read, the entry that is to issue first, and its stint times. -/
def Team.kept (t : Team) : Team :=
  { t with
    front := [], m := [], guardMask := 0, guardLeft := 0, chain := 0, replayQ := [], parking := [], first := none, lastEnd := 0, readySince := 0 }

/-- A team without what the end of a stint changes. -/
def Team.unstinted (t : Team) : Team := { t with chain := 0, lastEnd := 0, readySince := 0 }

/-- The state without its teams, its benches and the record of the instruction in hand. -/
def State.kept (s : State) : State := { s with teams := [], benches := [], cur := none, stir := false, fetched := [] }

/-- Rejoin mask k, which was `m`, stands, or a join on it has completed: every lane of it was waiting at a JOINW on it, and it is
cleared (07 R123). -/
def MaskStands (t u : Team) (k : Nat) (m : Word) : Prop :=
  Team.mask u k = m ∨ Team.mask u k = 0 ∧ m &&& ~~~(joinWaiting t k) = 0

/-- From `s` to `t` the instruction of `c` has changed nothing but its issue, the latches and the stint of its bench, and the
fields of its own team that `g` blanks. A rejoin mask of its team stands, or its join has completed (07 R123). -/
structure Frame (g : Team → Team) (c : Ctx) (s t : State) : Prop where
  rest : t.kept = s.kept
  others : ∀ k, k ≠ c.key → (team? t k).map Team.unstinted = (team? s k).map Team.unstinted
  own : ∃ u, team? t c.key = some u ∧ g u.kept = g c.team.kept ∧ ∀ k, MaskStands c.team u k (Team.mask c.team k)
  benches : ∀ b, b ≠ c.place.benchNo → bench t b = bench s b

/-- The same of an instruction that changes its crew: nothing else has changed than the fields of that crew that `w` blanks. -/
structure CrewFrame (w : Crew → Crew) (c : Ctx) (s t : State) : Prop where
  rest : { t.kept with crews := [] } = { s.kept with crews := [] }
  crews : ∀ k, k ≠ crewOf c.key → crew? t k = crew? s k
  crew : (crew? t (crewOf c.key)).map w = (crew? s (crewOf c.key)).map w
  others : ∀ k, k ≠ c.key → (team? t k).map Team.unstinted = (team? s k).map Team.unstinted
  own : ∃ u, team? t c.key = some u ∧ u.kept = c.team.kept ∧ ∀ k, MaskStands c.team u k (Team.mask c.team k)
  benches : ∀ b, b ≠ c.place.benchNo → bench t b = bench s b

/-- Nothing beside the issuing team and its bench has changed. -/
structure TeamOnly (c : Ctx) (s t : State) : Prop where
  rest : t.kept = s.kept
  others : ∀ k, k ≠ c.key → (team? t k).map Team.unstinted = (team? s k).map Team.unstinted
  benches : ∀ b, b ≠ c.place.benchNo → bench t b = bench s b

/-- The team with its vector registers, its scalar registers, its predicates, or its vector registers and FPSTAT blanked. -/
def Team.sansV (t : Team) : Team := { t with v := [] }
def Team.sansS (t : Team) : Team := { t with s := [] }
def Team.sansP (t : Team) : Team := { t with p := [] }
def Team.sansVF (t : Team) : Team := { t with v := [], fpstat := 0 }
def Team.sansSF (t : Team) : Team := { t with s := [], fpstat := 0 }
def Team.sansPF (t : Team) : Team := { t with p := [], fpstat := 0 }

/-- The latches hold what they held; they are invalid once the stint has ended (02 R18). -/
def LatchesKept (c : Ctx) (s t : State) : Prop :=
  ∀ k, (latch (bench t c.place.benchNo) k).lanes = (latch (bench s c.place.benchNo) k).lanes ∧
    ((latch (bench t c.place.benchNo) k).valid = (latch (bench s c.place.benchNo) k).valid ∨
      (bench t c.place.benchNo).holder = none)

/-- A result has entered b0, with +0 and tag 63 in the inactive lanes, and the others have moved on (02 R16). -/
def LatchEntered (c : Ctx) (f : Nat → Cell) (s t : State) : Prop :=
  (∀ l, l < 32 → (latch (bench t c.place.benchNo) 0).lanes.getD l {} = if c.active l then f l else {}) ∧
  (∀ k, k < 3 → (latch (bench t c.place.benchNo) (k + 1)).lanes = (latch (bench s c.place.benchNo) k).lanes) ∧
  ((latch (bench t c.place.benchNo) 0).valid = true ∨ (bench t c.place.benchNo).holder = none)

/-- The vector registers of the issuing team: the active lanes of the destination hold the result (02 R14); code 124 and W = 1
write none (03 R38, R41). -/
def VectorWritten (c : Ctx) (f : Nat → Cell) (t : State) : Prop :=
  ∃ u, team? t c.key = some u ∧ ∀ r l, l < 32 → Team.reg u r l =
    if (c.shape.written.any fun d => d.1.toNat = r) && r ≠ 124 && c.active l then f l else Team.reg c.team r l

/-- Register j of a group of `n` from the destination holds result j in the active lanes (02 R14). -/
def GroupWritten (c : Ctx) (n : Nat) (f : Nat → Nat → Cell) (t : State) : Prop :=
  ∃ u, team? t c.key = some u ∧ ∀ r l, l < 32 → Team.reg u r l =
    match c.shape.written with
    | some (d, _) =>
      if d.toNat ≠ 124 && d.toNat ≤ r && r < d.toNat + n && c.active l then f (r - d.toNat) l else Team.reg c.team r l
    | none => Team.reg c.team r l

/-- Consecutive scalar registers from the destination hold the words given. -/
def ScalarsWritten (c : Ctx) (xs : List Word) (t : State) : Prop :=
  ∃ u, team? t c.key = some u ∧ ∀ r, Team.scalar u r =
    match c.shape.sd with
    | some (d, _) =>
      if d.toNat ≤ r && r < d.toNat + xs.length then xs.getD (r - d.toNat) 0 else Team.scalar c.team r
    | none => Team.scalar c.team r

/-- The active lanes of the destination predicate hold the condition (02 R15). -/
def PredWritten (c : Ctx) (m : Nat → Bool) (t : State) : Prop :=
  ∃ u, team? t c.key = some u ∧ ∀ r l, l < 32 → (Team.pred u r).getLsbD l =
    if (c.shape.pd.any fun d => d.toNat = r) && r ≠ 15 && c.active l then m l else (Team.pred c.team r).getLsbD l

/-- An instruction whose one result per lane goes to its destination and to b0, and which changes nothing else. -/
def LaneResult (c : Ctx) (f : Nat → Cell) (s t : State) : Prop :=
  VectorWritten c f t ∧ LatchEntered c f s t ∧ Frame Team.sansV c s t

/-- An instruction whose results go to scalar registers, and which changes nothing else. -/
def ScalarResult (c : Ctx) (xs : List Word) (s t : State) : Prop :=
  ScalarsWritten c xs t ∧ LatchesKept c s t ∧ Frame Team.sansS c s t

/-- An instruction whose result goes to a predicate, and which changes nothing else. -/
def PredResult (c : Ctx) (m : Nat → Bool) (s t : State) : Prop :=
  PredWritten c m t ∧ LatchesKept c s t ∧ Frame Team.sansP c s t

/-- The issuing team's FPSTAT holds what it held and the bits given (02 R25). -/
def StatRaised (c : Ctx) (bits : Nat) (t : State) : Prop :=
  ∃ u, team? t c.key = some u ∧ u.fpstat = c.team.fpstat ||| BitVec.ofNat 32 bits

/-- The cell that a floating-point result makes of a lane's register j. -/
def FpOut.cell (o : FpOut) (j l : Nat) : Cell := ⟨BitVec.ofNat 32 (o.res l j).bits, BitVec.ofNat 6 (o.res l j).tag⟩

/-- One word of a 64-bit result: the tag stands on the even register, 63 on the odd one (02 R21). -/
def FpOut.half (o : FpOut) (j l : Nat) : Cell :=
  ⟨BitVec.ofNat 32 ((o.res l 0).bits / 2 ^ (32 * j)), if j = 0 then BitVec.ofNat 6 (o.res l 0).tag else 63⟩

/-- One floating-point result per lane, in D and b0, with its flags in FPSTAT; nothing else changes. -/
def FpLane (c : Ctx) (o : FpOut) (s t : State) : Prop :=
  VectorWritten c (o.cell 0) t ∧ LatchEntered c (o.cell 0) s t ∧ StatRaised c (o.statBits c) t ∧ Frame Team.sansVF c s t

/-- A group of floating-point results per lane, with their flags in FPSTAT; nothing else changes. -/
def FpGroup (c : Ctx) (o : FpOut) (n : Nat) (f : Nat → Nat → Cell) (s t : State) : Prop :=
  GroupWritten c n f t ∧ LatchesKept c s t ∧ StatRaised c (o.statBits c) t ∧ Frame Team.sansVF c s t

/-- Lane l of a team stands in the frontier, and every entry that holds it is as the test says. -/
def LaneIs (t : State) (key l : Nat) (p : Entry → Prop) : Prop :=
  ∃ u, team? t key = some u ∧ (∃ e ∈ u.front, e.mask.getLsbD l = true) ∧ ∀ e ∈ u.front, e.mask.getLsbD l = true → p e

/-- Lane l stands at an address and waits for nothing. -/
def LaneAt (t : State) (key l pc : Nat) : Prop := LaneIs t key l fun e => e.pc = pc ∧ e.wait = none

/-- The registers of the issuing team, its special registers, memory and every register file beside it are as they were. -/
def NothingWritten (c : Ctx) (s t : State) : Prop := LatchesKept c s t ∧ Frame id c s t

end Sys2Proof.Machine
end

