-- ==== Sys2Proof/Certificates/Slice0/Obligations.lean ====
section
/-! DEFINITION. The statements for the provers. -/

namespace Sys2Proof.Spec

open Sys2Proof.Machine

/-! ## Vector integers (05 R75 to R84) -/

/-- A value clamped to a range. -/
def clamp (lo hi x : Int) : Int := max lo (min x hi)

/-- The register operations of majors 0x01 to 0x04 on A, B and the old D. -/
def wordOp : Instr → Option (Word → Word → Word → Word)
  | .iadd _ => some fun a b _ => a + b
  | .isub _ => some fun a b _ => a - b
  | .imul _ => some fun a b _ => a * b
  | .imulhI _ => some fun a b _ => BitVec.ofInt 32 (a.toInt * b.toInt / 2 ^ 32)
  | .imulhN _ => some fun a b _ => BitVec.ofNat 32 (a.toNat * b.toNat / 2 ^ 32)
  | .imad _ => some fun a b d => a * b + d
  | .iabsdI _ => some fun a b _ => BitVec.ofInt 32 (max (a.toInt - b.toInt) (b.toInt - a.toInt))
  | .isadN _ => some fun a b d => d + BitVec.ofNat 32 (max a.toNat b.toNat - min a.toNat b.toNat)
  | .iminI _ => some fun a b _ => if a.slt b then a else b
  | .imaxI _ => some fun a b _ => if a.slt b then b else a
  | .iminN _ => some fun a b _ => if a < b then a else b
  | .imaxN _ => some fun a b _ => if a < b then b else a
  | .iaddsI _ => some fun a b _ => BitVec.ofInt 32 (clamp (-2 ^ 31) (2 ^ 31 - 1) (a.toInt + b.toInt))
  | .isubsI _ => some fun a b _ => BitVec.ofInt 32 (clamp (-2 ^ 31) (2 ^ 31 - 1) (a.toInt - b.toInt))
  | .iaddsN _ => some fun a b _ => BitVec.ofInt 32 (clamp 0 (2 ^ 32 - 1) ((a.toNat : Int) + b.toNat))
  | .isubsN _ => some fun a b _ => BitVec.ofInt 32 (clamp 0 (2 ^ 32 - 1) ((a.toNat : Int) - b.toNat))
  | .and _ => some fun a b _ => a &&& b
  | .or _ => some fun a b _ => a ||| b
  | .xor _ => some fun a b _ => a ^^^ b
  | .andn _ => some fun a b _ => a &&& ~~~b
  | .orn _ => some fun a b _ => a ||| ~~~b
  | .shl _ => some fun a b _ => BitVec.ofNat 32 (a.toNat * 2 ^ (b.toNat % 256))
  | .shr _ => some fun a b _ => BitVec.ofNat 32 (a.toNat / 2 ^ (b.toNat % 256))
  | .sar _ => some fun a b _ => BitVec.ofInt 32 (a.toInt / 2 ^ (b.toNat % 256))
  | .rotl _ => some fun a b _ => a.rotateLeft (b.toNat % 32)
  | .bfxI _ => some fun a b _ => bfxIW a b
  | .bfxN _ => some fun a b _ => bfxNW a b
  | .bfi _ => some bfiW
  | .prmb _ => some prmbW
  | .clz _ => some fun a _ _ => clzW a
  | .popc _ => some fun a _ _ => popcW a
  | .brev _ => some fun a _ _ => brevW a
  | _ => none

/-- The immediate operations of major 0x05, and whether the immediate is an amount. -/
def immOp : Instr → Option (VI × Bool × (Word → Word → Word))
  | .iaddi x => some (x, false, fun a b => a + b)
  | .andi x => some (x, false, fun a b => a &&& b)
  | .ori x => some (x, false, fun a b => a ||| b)
  | .xori x => some (x, false, fun a b => a ^^^ b)
  | .shli x => some (x, true, shlW)
  | .shri x => some (x, true, shrW)
  | .sari x => some (x, true, sarW)
  | .rotli x => some (x, true, fun a b => a.rotateLeft (b.toNat % 32))
  | _ => none

/-- The instructions of majors 0x06 and 0x07, BCAST and the tag group: the cell that lane i takes. -/
def cellOp : Instr → Option (Ctx → Nat → Cell)
  | .shfl _ => some fun c i => c.v 0 0 ((c.v 1 0 i).val.toNat % 32)
  | .shflup _ => some fun c i => let k := (c.v 1 0 i).val.toNat % 32; c.v 0 0 (if k ≤ i then i - k else i)
  | .shfldn _ => some fun c i => let k := (c.v 1 0 i).val.toNat % 32; c.v 0 0 (if i + k ≤ 31 then i + k else i)
  | .shflx _ => some fun c i => c.v 0 0 (Nat.xor i ((c.v 1 0 i).val.toNat % 32))
  | .tsumI _ => some fun c _ => ⟨(lanesOf c.act).foldl (fun r j => r + (c.v 0 0 j).val) 0, 63⟩
  | .tminI _ => some fun c _ => ⟨(lanesOf c.act).foldl (fun r j => minI r (c.v 0 0 j).val) 0x7FFFFFFF, 63⟩
  | .tmaxI _ => some fun c _ => ⟨(lanesOf c.act).foldl (fun r j => maxI r (c.v 0 0 j).val) 0x80000000, 63⟩
  | .tscanI _ => some fun c i => ⟨((lanesOf c.act).filter fun j => j ≤ i).foldl (fun r j => r + (c.v 0 0 j).val) 0, 63⟩
  | .mov _ => some fun c i => c.v 0 0 i
  | .laneid _ => some fun _ i => ⟨BitVec.ofNat 32 i, 63⟩
  | .lidx _ => some fun c i => ⟨(c.v 0 0 i).val + BitVec.ofNat 32 i * (c.v 1 0 i).val, 63⟩
  | .bcast _ => some fun c _ => ⟨c.s 0, 63⟩
  | .tagrd _ => some fun c i => ⟨(c.v 0 0 i).tag.zeroExtend 32, 63⟩
  | .tagwr _ => some fun c i => ⟨(c.v 0 0 i).val, (c.v 1 0 i).val.extractLsb' 0 6⟩
  | .tagmin _ => some fun c i => ⟨(c.v 0 0 i).val, if (c.v 1 0 i).tag < (c.v 0 0 i).tag then (c.v 1 0 i).tag else (c.v 0 0 i).tag⟩
  | .tagfull x => some fun c i => ⟨(c.v 0 0 i).val, if x.b = 0 then 24 else 53⟩
  | .tagunt _ => some fun c i => ⟨(c.v 0 0 i).val, 63⟩
  | _ => none

end Sys2Proof.Spec

open Sys2Proof Sys2Proof.Machine Sys2Proof.Spec

/-- 05 R75 to R80: a register operation of majors 0x01 to 0x04 completes with its result, tag 63, in the active lanes of D and
in b0, and changes nothing else. -/
def Obligations.IntegerLaneResults : Prop :=
  ∀ i f, wordOp i = some f → ∀ s c, Ready i s c → ∃ t, exec i s = .next t ∧
    LaneResult c (fun l => ⟨f (c.v 0 0 l).val (c.v 1 0 l).val (c.v 2 0 l).val, 63⟩) s t

/-- 05 R81: the immediate forms do the same with the formed immediate; a shift by an immediate does where its bits 31 to 5 are
zero, and traps ILLEGAL where they are not. -/
def Obligations.ImmediateLaneResults : Prop :=
  ∀ i x amt f, immOp i = some (x, amt, f) → ∀ s c, Ready i s c →
    ((amt = true → (c.immVI x).toNat < 32) → ∃ t, exec i s = .next t ∧
      LaneResult c (fun l => ⟨f (c.v 0 0 l).val (c.immVI x), 63⟩) s t) ∧
    (amt = true → 32 ≤ (c.immVI x).toNat → exec i s = .next (trapHead c { cause := 1 } c.act s))

/-- 05 R82 to R84, R93, 06 R114: shuffles and MOV carry the stored tag with the value, the reductions run over the active lanes
alone, and the tag instructions change the tag. -/
def Obligations.LaneCellResults : Prop :=
  ∀ i f, cellOp i = some f → ∀ s c, Ready i s c → ∃ t, exec i s = .next t ∧ LaneResult c (f c) s t

/-! ## Floating point (06 R97 to R113) -/

namespace Sys2Proof.Spec

/-- A result made from each lane's operands, with the significance check. -/
def fpLaneOut (slots : List Nat) (f : Ctx → Nat → FRes) (c : Ctx) : FpOut :=
  { n := 1, check := true, res := fun l _ => f c l, eff := c.effs slots }

/-- A binary operation under the active rounding mode. -/
def fpBinOut (f : Nat → Fop → Fop → FRes) : Ctx → FpOut := fpLaneOut [0, 1] fun c l => f c.mode (c.f 0 0 l) (c.f 1 0 l)

/-- A unary operation under a rounding mode. -/
def fpUnOut (f : Nat → Fop → FRes) : Ctx → FpOut := fpLaneOut [0] fun c l => f c.mode (c.f 0 0 l)

/-- A fused operation: the old D is the addend. -/
def fpFmaOut (neg sub : Bool) : Ctx → FpOut :=
  fpLaneOut [0, 1, 2] fun c l => fmaR f32 c.mode neg sub (c.f 0 0 l) (c.f 1 0 l) (c.f 2 0 l)

/-- Two 16-bit results in a register, without the check, of `n` operands. -/
def fpPackedOut (n : Nat) (f : Ctx → Nat → Nat → Nat × FFlags) (c : Ctx) : FpOut :=
  { n := 1, check := false, eff := c.effs (List.range n),
    res := fun l _ => ⟨(f c l 0).1 + 2 ^ 16 * (f c l 1).1, (f c l 0).2.or (f c l 1).2, 63⟩ }

/-- CVT or CVTS with its code. -/
def cvtOut (x : V3) (sat : Bool) (c : Ctx) : FpOut :=
  let wide := Shape.cvtPairA x.b
  { n := 1, check := cvtChecks (x.b.toNat % 16), eff := fun l j => if wide then c.effs64 [0] l else c.effs [0] l j,
    res := fun l _ => cvtR (x.b.toNat % 16) (c.rm (x.b.toNat / 16)) sat (if wide then c.v64 0 l else (c.v 0 0 l).val.toNat)
      (effTag (if wide then Machine.f64 else f32) (c.v 0 0 l).tag.toNat) }

/-- The control operand of a lane. -/
def controlOf (c : Ctx) (l : Nat) : Nat := (c.v 1 0 l).val.toNat

/-- The element that PK8 or PK4 packs. -/
def packOut (nibble : Bool) (c : Ctx) : FpOut :=
  { n := 1, check := false, eff := c.effs [0, 1, 2],
    res := fun l _ =>
      let b := controlOf c l
      let w := if nibble then 4 else 8
      let fmt := if nibble then b / 8 % 4 else b / 4 % 4
      let rm := if nibble then b / 32 % 8 else b / 16 % 8
      let k := if nibble then b % 8 else b % 4
      let r := packElem nibble fmt (c.rm rm) (c.v 0 0 l).val.toNat
      ⟨insertBits (c.v 2 0 l).val.toNat (w * k) w r.1, r.2, 63⟩ }

/-- The element that UPK8 or UPK4 widens. -/
def unpackOut (nibble : Bool) : Ctx → FpOut :=
  fpLaneOut [0, 1] fun c l =>
    let b := controlOf c l
    let a := (c.v 0 0 l).val.toNat
    if nibble then unpackElem true (b / 8 % 4) (a / 2 ^ (4 * (b % 8)) % 16)
    else unpackElem false (b / 4 % 4) (a / 2 ^ (8 * (b % 4)) % 256)

/-- A control value is reserved (06 R110, R111). -/
def badControl : Instr → Nat → Bool
  | .pk8 _, b => 6 ≤ b / 16 % 8
  | .pk4 _, b => b / 8 % 4 = 3 || 6 ≤ b / 32 % 8
  | .upk4 _, b => b / 8 % 4 = 3
  | _, _ => false

/-- The instructions with one 32-bit floating-point result per lane. -/
def fpOne : Instr → Option (Ctx → FpOut)
  | .fadd _ => some (fpBinOut (addR f32))
  | .fsub _ => some (fpBinOut fun m a b => addR f32 m a { b with val := negF b.val })
  | .fmul _ => some (fpBinOut (mulR f32))
  | .fmin _ => some (fpLaneOut [0, 1] fun c l => selCell false (c.v 0 0 l) (c.v 1 0 l))
  | .fmax _ => some (fpLaneOut [0, 1] fun c l => selCell true (c.v 0 0 l) (c.v 1 0 l))
  | .fabs _ => some (fpLaneOut [0] fun c l => signR f32 ((c.v 0 0 l).val &&& 0x7FFFFFFF).toNat (c.v 0 0 l).tag.toNat)
  | .fneg _ => some (fpLaneOut [0] fun c l => signR f32 ((c.v 0 0 l).val ^^^ 0x80000000).toNat (c.v 0 0 l).tag.toNat)
  | .fcpsgn _ => some (fpLaneOut [0, 1] fun c l =>
      signR f32 ((c.v 0 0 l).val &&& 0x7FFFFFFF ||| (c.v 1 0 l).val &&& 0x80000000).toNat (c.v 0 0 l).tag.toNat)
  | .ffma _ => some (fpFmaOut false false)
  | .ffms _ => some (fpFmaOut false true)
  | .fnfma _ => some (fpFmaOut true false)
  | .fdiv _ => some (fpBinOut (divR f32))
  | .fsqrt _ => some (fpUnOut (sqrtR f32))
  | .frcp _ => some (fpUnOut fun _ => rcpR)
  | .frsq _ => some (fpUnOut fun _ => rsqR)
  | .fexp2 _ => some (fpUnOut fun _ => exp2R)
  | .flog2 _ => some (fpUnOut fun _ => log2R)
  | .fsinpi _ => some (fpUnOut fun _ => sinPiR false)
  | .fcospi _ => some (fpUnOut fun _ => sinPiR true)
  | .ffloor _ => some (fpLaneOut [0] fun c l => integralR 3 (c.v 0 0 l).val.toNat (c.f 0 0 l))
  | .fceil _ => some (fpLaneOut [0] fun c l => integralR 2 (c.v 0 0 l).val.toNat (c.f 0 0 l))
  | .ftrunc _ => some (fpLaneOut [0] fun c l => integralR 1 (c.v 0 0 l).val.toNat (c.f 0 0 l))
  | .frint _ => some (fpLaneOut [0] fun c l => integralR c.mode (c.v 0 0 l).val.toNat (c.f 0 0 l))
  | .ffract _ => some (fpUnOut fractR)
  | .hadd2 _ => some (fpPackedOut 2 fun c l h => addF f16 c.mode (c.half f16 0 l h) (c.half f16 1 l h))
  | .hmul2 _ => some (fpPackedOut 2 fun c l h => mulF f16 c.mode (c.half f16 0 l h) (c.half f16 1 l h))
  | .hfma2 _ => some (fpPackedOut 3 fun c l h => fmaF f16 c.mode (mulExact (c.half f16 0 l h) (c.half f16 1 l h)) (c.half f16 2 l h))
  | .hmax2 _ => some (fpPackedOut 2 fun c l h => selF f16 true (half (c.v 0 0 l).val h) (half (c.v 1 0 l).val h))
  | .badd2 _ => some (fpPackedOut 2 fun c l h => addF bf16 c.mode (c.half bf16 0 l h) (c.half bf16 1 l h))
  | .bmul2 _ => some (fpPackedOut 2 fun c l h => mulF bf16 c.mode (c.half bf16 0 l h) (c.half bf16 1 l h))
  | .bfma2 _ => some (fpPackedOut 3 fun c l h => fmaF bf16 c.mode (mulExact (c.half bf16 0 l h) (c.half bf16 1 l h)) (c.half bf16 2 l h))
  | .bmax2 _ => some (fpPackedOut 2 fun c l h => selF bf16 true (half (c.v 0 0 l).val h) (half (c.v 1 0 l).val h))
  | .cvt x => if Shape.cvtPairD x.b then none else some (cvtOut x false)
  | .cvts x => if Shape.cvtPairD x.b then none else some (cvtOut x true)
  | .pk8 _ => some (packOut false)
  | .pk4 _ => some (packOut true)
  | .upk8 _ => some (unpackOut false)
  | .upk4 _ => some (unpackOut true)
  | .qdec _ => some (fpLaneOut [0, 1, 2] fun c l =>
      qdecR c.mode ((c.v 0 0 l).val.toNat / 2 ^ (4 * (controlOf c l % 8)) % 16) (controlOf c l / 2 ^ 8 % 256) (c.v 2 0 l).val.toNat)
  | .qenc _ => some fun c => { fpLaneOut [0, 1] (fun c l => qencR c.mode (c.f 0 0 l).val (c.f 1 0 l).val) c with check := false }
  | _ => none

/-- Four results per lane (06 R104). -/
def fpQuadOut (slots : List Nat) (f : Ctx → Nat → Nat → FRes) (c : Ctx) : FpOut :=
  { n := 4, check := true, res := f c, eff := c.effs slots }

/-- The quad forms. -/
def fpFour : Instr → Option (Ctx → FpOut)
  | .f4add _ => some (fpQuadOut [0, 1] fun c l j => addR f32 c.mode (c.f 0 j l) (c.f 1 j l))
  | .f4sub _ => some (fpQuadOut [0, 1] fun c l j => addR f32 c.mode (c.f 0 j l) { c.f 1 j l with val := negF (c.f 1 j l).val })
  | .f4mul _ => some (fpQuadOut [0, 1] fun c l j => mulR f32 c.mode (c.f 0 j l) (c.f 1 j l))
  | .f4min _ => some (fpQuadOut [0, 1] fun c l j => selCell false (c.v 0 j l) (c.v 1 j l))
  | .f4max _ => some (fpQuadOut [0, 1] fun c l j => selCell true (c.v 0 j l) (c.v 1 j l))
  | .f4fma _ => some (fpQuadOut [0, 1, 2] fun c l j => fmaR f32 c.mode false false (c.f 0 j l) (c.f 1 j l) (c.f 2 j l))
  | .f4fms _ => some (fpQuadOut [0, 1, 2] fun c l j => fmaR f32 c.mode false true (c.f 0 j l) (c.f 1 j l) (c.f 2 j l))
  | _ => none

/-- A 64-bit result per lane (06 R105). -/
def fpWideOut (slots : List Nat) (f : Ctx → Nat → FRes) (c : Ctx) : FpOut :=
  { n := 1, check := true, res := fun l _ => f c l, eff := fun l _ => c.effs64 slots l }

/-- The FP64 forms, and the conversions with a pair destination. -/
def fpWide : Instr → Option (Ctx → FpOut)
  | .dadd _ => some (fpWideOut [0, 1] fun c l => addR Machine.f64 c.mode (c.f64 0 l) (c.f64 1 l))
  | .dsub _ => some (fpWideOut [0, 1] fun c l => addR Machine.f64 c.mode (c.f64 0 l) { c.f64 1 l with val := negF (c.f64 1 l).val })
  | .dmul _ => some (fpWideOut [0, 1] fun c l => mulR Machine.f64 c.mode (c.f64 0 l) (c.f64 1 l))
  | .dfma _ => some (fpWideOut [0, 1, 2] fun c l => fmaR Machine.f64 c.mode false false (c.f64 0 l) (c.f64 1 l) (c.f64 2 l))
  | .ddiv _ => some (fpWideOut [0, 1] fun c l => divR Machine.f64 c.mode (c.f64 0 l) (c.f64 1 l))
  | .dsqrt _ => some (fpWideOut [0] fun c l => sqrtR Machine.f64 c.mode (c.f64 0 l))
  | .dmin _ => some (fpWideOut [0, 1] fun c l =>
      selR Machine.f64 false (c.v64 0 l) (c.v64 1 l) (c.v 0 0 l).tag.toNat (c.v 1 0 l).tag.toNat)
  | .dmax _ => some (fpWideOut [0, 1] fun c l =>
      selR Machine.f64 true (c.v64 0 l) (c.v64 1 l) (c.v 0 0 l).tag.toNat (c.v 1 0 l).tag.toNat)
  | .cvt x => if Shape.cvtPairD x.b then some (cvtOut x false) else none
  | .cvts x => if Shape.cvtPairD x.b then some (cvtOut x true) else none
  | _ => none

end Sys2Proof.Spec

/-- 06 R99 to R103, R106 to R113: an instruction with one 32-bit floating-point result per lane completes with its result and tag
in the active lanes of D and in b0 and its flags, SL among them, in FPSTAT, where it raises no trap afterwards and no active
lane holds a reserved control value; one that does is ILLEGAL, for the lowest such lane (06 R110, R111). -/
def Obligations.FpLaneResults : Prop :=
  (∀ i o, fpOne i = some o → ∀ s c, Ready i s c → (∀ l ∈ lanesOf c.act, badControl i (controlOf c l) = false) → (o c).post c = none →
    ∃ t, exec i s = .next t ∧ FpLane c (o c) s t) ∧
  (∀ i o, fpOne i = some o → ∀ s c, Ready i s c → ∀ l, (lanesOf c.act).find? (fun l => badControl i (controlOf c l)) = some l →
    exec i s = .next (trapHead c { cause := 1, flane := l } c.act s))

/-- 06 R104, R105, R108: the quad forms, FP64 and the conversions to a pair complete with every register of their group. -/
def Obligations.FpGroupResults : Prop :=
  (∀ i o, fpFour i = some o → ∀ s c, Ready i s c → (o c).post c = none →
    ∃ t, exec i s = .next t ∧ FpGroup c (o c) 4 (o c).cell s t) ∧
  (∀ i o, fpWide i = some o → ∀ s c, Ready i s c → (o c).post c = none →
    ∃ t, exec i s = .next t ∧ FpGroup c (o c) 2 (o c).half s t)

/-- 04 R73, R74: an enabled flag that an active lane raises makes the trap FPX, with precedence; without one, a lost result makes
SIGLOSS where SIGTH.EN is set, and with CROSS only where no operand of that result was below θ already. -/
def Obligations.FpTrapChoice : Prop :=
  ∀ (c : Ctx) (o : FpOut),
    let enabled := Nat.land (o.flags c).bits (c.team.fpstat.toNat / 2 ^ 16 % 32)
    let lost := (lanesOf c.act).any (o.laneLost c)
    (enabled ≠ 0 → (o.post c).map (·.cause) = some 0xC) ∧
    (enabled = 0 → (c.team.sigth.getLsbD 8 && lost && (!c.team.sigth.getLsbD 9 || o.crossed c)) = true →
      (o.post c).map (·.cause) = some 0xB) ∧
    (enabled = 0 → (c.team.sigth.getLsbD 8 && lost && (!c.team.sigth.getLsbD 9 || o.crossed c)) = false → o.post c = none) ∧
    (∀ i, o.post c = some i → i.tpc = c.cur.pc ∧ i.theta = c.theta ∧ i.sigt = o.sigt c)

/-- 04 R74: an instruction whose result traps has written its result and flags and stands after its last lane; the trap is taken
from the state in which it has completed, and the replay queue keeps what followed it. The same of the quad forms, of FP64 and of
the conversions to a pair (06 R104, R105). -/
def Obligations.FpTrapAfterResult : Prop :=
  (∀ i o, fpOne i = some o → ∀ s c, Ready i s c → (∀ l ∈ lanesOf c.act, badControl i (controlOf c l) = false) → ∀ x, (o c).post c = some x →
    ∃ u q, FpLane c (o c) s u ∧ exec i s = .next (takeTrap u c.key { x with replay := q })) ∧
  (∀ i o, fpFour i = some o → ∀ s c, Ready i s c → ∀ x, (o c).post c = some x →
    ∃ u q, FpGroup c (o c) 4 (o c).cell s u ∧ exec i s = .next (takeTrap u c.key { x with replay := q })) ∧
  (∀ i o, fpWide i = some o → ∀ s c, Ready i s c → ∀ x, (o c).post c = some x →
    ∃ u q, FpGroup c (o c) 2 (o c).half s u ∧ exec i s = .next (takeTrap u c.key { x with replay := q }))

/-! ## Predicates (05 R85 to R88) -/

namespace Sys2Proof.Spec

/-- The condition of a compare or of predicate logic in lane l. -/
def predOp : Instr → Option (Ctx → Nat → Bool)
  | .iseq _ => some fun c l => (c.v 0 0 l).val == (c.v 1 0 l).val && (c.pred 0).getLsbD l
  | .isne _ => some fun c l => (c.v 0 0 l).val != (c.v 1 0 l).val && (c.pred 0).getLsbD l
  | .isltI _ => some fun c l => decide ((c.v 0 0 l).val.toInt < (c.v 1 0 l).val.toInt) && (c.pred 0).getLsbD l
  | .isleI _ => some fun c l => decide ((c.v 0 0 l).val.toInt ≤ (c.v 1 0 l).val.toInt) && (c.pred 0).getLsbD l
  | .isltN _ => some fun c l => decide ((c.v 0 0 l).val.toNat < (c.v 1 0 l).val.toNat) && (c.pred 0).getLsbD l
  | .isleN _ => some fun c l => decide ((c.v 0 0 l).val.toNat ≤ (c.v 1 0 l).val.toNat) && (c.pred 0).getLsbD l
  | .isany _ => some fun c l => (c.v 0 0 l).val &&& (c.v 1 0 l).val != 0 && (c.pred 0).getLsbD l
  | .isnone _ => some fun c l => (c.v 0 0 l).val &&& (c.v 1 0 l).val == 0 && (c.pred 0).getLsbD l
  | .fsnan _ => some fun c l => isNaN (c.fval 0 l) && (c.pred 0).getLsbD l
  | .fsinf _ => some fun c l => isInf (c.fval 0 l) && (c.pred 0).getLsbD l
  | .pand _ => some fun c l => (c.pred 0).getLsbD l && (c.pred 1).getLsbD l
  | .por _ => some fun c l => (c.pred 0).getLsbD l || (c.pred 1).getLsbD l
  | .pxor _ => some fun c l => (c.pred 0).getLsbD l != (c.pred 1).getLsbD l
  | .pnot _ => some fun c l => !(c.pred 0).getLsbD l
  | .pany _ => some fun c _ => (lanesOf c.act).any fun j => (c.pred 0).getLsbD j
  | .pall _ => some fun c _ => (lanesOf c.act).all fun j => (c.pred 0).getLsbD j
  | .pelect _ => some fun c l => (lanesOf c.act).find? (fun j => (c.pred 0).getLsbD j) == some l
  | .psig x => some fun c l => decide ((c.v 0 0 l).tag.toNat < x.b.toNat) && (c.pred 0).getLsbD l
  | _ => none

/-- The floating-point compares (05 R87): the condition on ordered operands, what an unordered pair gives, and whether a quiet
NaN raises IV. -/
def fpCompare : Instr → Option ((Fval → Fval → Bool) × Bool × Bool)
  | .fseq _ => some (eqF, false, false)
  | .fsne _ => some (fun a b => !eqF a b, true, false)
  | .fslt _ => some (lessF, false, true)
  | .fsle _ => some (fun a b => !lessF b a, false, true)
  | .fsun _ => some (fun _ _ => false, true, false)
  | .fsord _ => some (fun _ _ => true, false, false)
  | _ => none

/-- The condition of a floating-point compare in lane l. -/
def compareHolds (k : (Fval → Fval → Bool) × Bool × Bool) (c : Ctx) (l : Nat) : Bool :=
  (if isNaN (c.fval 0 l) || isNaN (c.fval 1 l) then k.2.1 else k.1 (c.fval 0 l) (c.fval 1 l)) && (c.pred 0).getLsbD l

/-- SIGT of the frame of a compare that traps: both operands' effective tags (15 R279, log 84). -/
def compareTags (c : Ctx) : List Nat :=
  laneList.flatMap fun l =>
    if c.active l then [min (c.v 0 0 l).tag.toNat 24, min (c.v 1 0 l).tag.toNat 24, 0, 0] else [0, 0, 0, 0]

/-- The lane raises IV. -/
def compareInvalid (k : (Fval → Fval → Bool) × Bool × Bool) (c : Ctx) (l : Nat) : Bool :=
  if k.2.2 then isNaN (c.fval 0 l) || isNaN (c.fval 1 l) else sNaN (c.fval 0 l) || sNaN (c.fval 1 l)

end Sys2Proof.Spec

/-- 05 R85, R86, R88: PD takes the condition in the active lanes, combined with PA where the instruction is a compare; nothing
else changes, the latches among it. -/
def Obligations.PredicateResults : Prop :=
  ∀ i m, predOp i = some m → ∀ s c, Ready i s c → ∃ t, exec i s = .next t ∧ PredResult c (m c) s t

/-- 05 R87: a floating-point compare gives its condition, IV is ORed into FPSTAT over the active lanes, and FPX is raised after PD
is written where FPSTAT.EN enables IV. That its frame carries the operands' effective tags in SIGT is the model's choice (log 84): 05
R87 has a compare read no tag, and 15 R279 writes SIGT for every FPX. -/
def Obligations.FpCompareResults : Prop :=
  ∀ i k, fpCompare i = some k → ∀ s c, Ready i s c →
    let raised := (lanesOf c.act).any (compareInvalid k c)
    ∃ u, (PredWritten c (compareHolds k c) u ∧ LatchesKept c s u ∧ StatRaised c (if raised then 1 else 0) u ∧
      Frame Team.sansPF c s u) ∧
      ((raised && c.team.fpstat.getLsbD 16) = false → exec i s = .next u) ∧
      ((raised && c.team.fpstat.getLsbD 16) = true → ∃ q l, exec i s =
        .next (takeTrap u c.key { cause := 0xC, tpc := c.cur.pc, theta := c.theta, flane := l, sigt := compareTags c, replay := q }))

/-! ## Scalars (05 R89 to R94, R96) -/

namespace Sys2Proof.Spec

/-- A 64-bit value as a pair of registers, low word first (02 R13). -/
def pairOf (v : Nat) : List Word := [BitVec.ofNat 32 v, BitVec.ofNat 32 (v / 2 ^ 32)]

/-- The scalar instructions without flags: what they write from the destination on. -/
def scalarOut : Instr → Option (Ctx → List Word)
  | .sadd _ => some fun c => [c.s 0 + c.s 1]
  | .ssub _ => some fun c => [c.s 0 - c.s 1]
  | .smul _ => some fun c => [c.s 0 * c.s 1]
  | .smulhI _ => some fun c => [mulhI (c.s 0) (c.s 1)]
  | .smulhN _ => some fun c => [mulhN (c.s 0) (c.s 1)]
  | .sand _ => some fun c => [c.s 0 &&& c.s 1]
  | .sor _ => some fun c => [c.s 0 ||| c.s 1]
  | .sxor _ => some fun c => [c.s 0 ^^^ c.s 1]
  | .sandn _ => some fun c => [c.s 0 &&& ~~~c.s 1]
  | .sshl _ => some fun c => [shlW (c.s 0) (c.s 1)]
  | .sshr _ => some fun c => [shrW (c.s 0) (c.s 1)]
  | .ssar _ => some fun c => [sarW (c.s 0) (c.s 1)]
  | .sminI _ => some fun c => [minI (c.s 0) (c.s 1)]
  | .smaxI _ => some fun c => [maxI (c.s 0) (c.s 1)]
  | .sminN _ => some fun c => [minN (c.s 0) (c.s 1)]
  | .smaxN _ => some fun c => [maxN (c.s 0) (c.s 1)]
  | .sseq _ => some fun c => [if c.s 0 = c.s 1 then 1 else 0]
  | .ssltI _ => some fun c => [if (c.s 0).toInt < (c.s 1).toInt then 1 else 0]
  | .ssltN _ => some fun c => [if (c.s 0).toNat < (c.s 1).toNat then 1 else 0]
  | .sbfx _ => some fun c => [bfxNW (c.s 0) (c.s 1)]
  | .sclz _ => some fun c => [clzW (c.s 0)]
  | .spopc _ => some fun c => [popcW (c.s 0)]
  | .smov _ => some fun c => [c.s 0]
  | .sadd64 _ => some fun c => pairOf ((c.pair 0 + c.pair 2) % 2 ^ 64)
  | .ssub64 _ => some fun c => pairOf ((c.pair 0 + 2 ^ 64 - c.pair 2) % 2 ^ 64)
  | .sshl64 _ => some fun c => pairOf (if 64 ≤ (c.s 2).toNat % 256 then 0 else c.pair 0 * 2 ^ ((c.s 2).toNat % 256) % 2 ^ 64)
  | .sshr64 _ => some fun c => pairOf (if 64 ≤ (c.s 2).toNat % 256 then 0 else c.pair 0 / 2 ^ ((c.s 2).toNat % 256))
  | .saddx _ => some fun c => pairOf (((c.pair 0 : Int) + (c.s 2).toInt) % 2 ^ 64).toNat
  | .saddi x => some fun c => [c.s 0 + c.immSI x]
  | .sandi x => some fun c => [c.s 0 &&& c.immSI x]
  | .sori x => some fun c => [c.s 0 ||| c.immSI x]
  | .sxori x => some fun c => [c.s 0 ^^^ c.immSI x]
  | .ssltiI x => some fun c => [if (c.s 0).toInt < (c.immSI x).toInt then 1 else 0]
  | .lanerd x => some fun c => [(c.v 0 0 (if x.k.getLsbD 11 then ((lanesOf c.act).head?).getD 0 else x.k.toNat % 32)).val]
  | .joinq k _ => some fun c => [Team.mask c.team k.toNat &&& ~~~joinWaiting c.team k.toNat]
  | .maskrd k _ => some fun c => [Team.mask c.team k.toNat]
  | _ => none

/-- The shifts by an immediate (05 R92). -/
def scalarShiftOut : Instr → Option (SI × (Word → Word → Word))
  | .sshli x => some (x, shlW)
  | .sshri x => some (x, shrW)
  | .ssari x => some (x, sarW)
  | _ => none

/-- The divisions (05 R91): quotient or remainder, for a zero divisor all ones or the dividend. -/
def divisionOut : Instr → Option (Word → Word → Word)
  | .sdivI _ => some fun a b => if b = 0 then 0xFFFFFFFF else BitVec.ofInt 32 (a.toInt.tdiv b.toInt)
  | .sremI _ => some fun a b => if b = 0 then a else BitVec.ofInt 32 (a.toInt.tmod b.toInt)
  | .sdivN _ => some fun a b => if b = 0 then 0xFFFFFFFF else BitVec.ofNat 32 (a.toNat / b.toNat)
  | .sremN _ => some fun a b => if b = 0 then a else BitVec.ofNat 32 (a.toNat % b.toNat)
  | _ => none

end Sys2Proof.Spec

/-- 05 R89, R90, R92, R94, 07 R122: a scalar instruction completes with its words from the destination on, a 64-bit result in a
pair with the low word first, and changes nothing else. -/
def Obligations.ScalarResults : Prop :=
  ∀ i f, scalarOut i = some f → ∀ s c, Ready i s c → ∃ t, exec i s = .next t ∧ ScalarResult c (f c) s t

/-- 05 R91, R92: a division completes with its quotient or remainder and sets IDZ for a zero divisor, without a trap; a shift by
an immediate completes where the amount is below 32, and is ILLEGAL where it is not. -/
def Obligations.ScalarDivisionsAndShifts : Prop :=
  (∀ i f, divisionOut i = some f → ∀ s c, Ready i s c → ∃ t, exec i s = .next t ∧ ScalarsWritten c [f (c.s 0) (c.s 1)] t ∧
    LatchesKept c s t ∧ StatRaised c (if c.s 1 = 0 then 64 else 0) t ∧ Frame Team.sansSF c s t) ∧
  (∀ i x f, scalarShiftOut i = some (x, f) → ∀ s c, Ready i s c → (c.immSI x).toNat < 32 → ∃ t, exec i s = .next t ∧
    ScalarResult c [f (c.s 0) (c.immSI x)] s t) ∧
  (∀ i x f, scalarShiftOut i = some (x, f) → ∀ s c, Ready i s c → 32 ≤ (c.immSI x).toNat →
    exec i s = .next (trapHead c { cause := 1 } c.act s))

/-- 05 R96: PMOV moves a predicate to a scalar or to 0 and 1 in the lanes of a vector register, and a scalar's bits or the lanes
that are not zero to a predicate. -/
def Obligations.PmovResults : Prop :=
  ∀ x s c, Ready (.pmov x) s c → ∃ t, exec (.pmov x) s = .next t ∧
    (x.k.toNat / 2 ^ 10 = 0 → ScalarResult c [c.pred 0] s t) ∧
    (x.k.toNat / 2 ^ 10 = 1 → LaneResult c (fun l => ⟨if (c.pred 0).getLsbD l then 1 else 0, 63⟩) s t) ∧
    (x.k.toNat / 2 ^ 10 = 2 → PredResult c (c.s 0).getLsbD s t) ∧
    (x.k.toNat / 2 ^ 10 = 3 → PredResult c (fun l => (c.v 0 0 l).val != 0) s t)

/-! ## Control registers (02 R22 to R30, 05 R95) -/

/-- 02 R22 to R30, 05 R95: MFC writes the register's value to sS, and moves nothing else but the CLK snapshot, which CLK_LO takes and
CLK_HI uses up (R27). TEAMID, CREWID, LANEMASK, CLK and CLG hold their fields, and zeros in their reserved bits (R23, R24, R27,
R28). -/
def Obligations.MfcReads : Prop :=
  (∀ x s c, Ready (.mfc x) s c → ∃ t u, exec (.mfc x) s = .next t ∧
    ScalarsWritten c [readCr s c.key c.team c.place x.k.toNat] t ∧ LatchesKept c s t ∧
    Frame (fun u => { u with s := [], clkSnap := none }) c s t ∧ team? t c.key = some u ∧
    u.clkSnap = if x.k.toNat = 0x020 then some (BitVec.ofNat 32 (clk s c.place.core / 2 ^ 32))
      else if x.k.toNat = 0x021 then none else c.team.clkSnap) ∧
  (∀ s key t p, t.place = some p → t.idx < 16 → p.bench < 8 → p.slot < 64 → logicalCore s t.comp p.core < 64 → t.level < 4 →
    let w := readCr s key t p 0
    Bits.fld w 0 4 = t.idx ∧ Bits.fld w 4 3 = p.bench ∧ Bits.fld w 7 6 = p.slot ∧ Bits.fld w 13 6 = logicalCore s t.comp p.core ∧
      Bits.fld w 19 2 = t.level ∧ Bits.fld w 21 11 = 0) ∧
  (∀ s key t p w, crew? s (crewOf key) = some w → w.serial < 2 ^ 20 → 1 ≤ w.teams → w.teams ≤ 16 → w.comp < 16 →
    let r := readCr s key t p 1
    Bits.fld r 0 20 = w.serial ∧ Bits.fld r 20 4 + 1 = w.teams ∧ Bits.fld r 24 4 = w.comp ∧ Bits.fld r 28 4 = 0) ∧
  (∀ s key t p, readCr s key t p 2 = t.live ∧ readCr s key t p 0x020 = BitVec.ofNat 32 (clk s p.core) ∧
    readCr s key t p 0x021 = t.clkSnap.getD (BitVec.ofNat 32 (clk s p.core / 2 ^ 32))) ∧
  (∀ s key t p g, g < 8 →
    let w := readCr s key t p (0x200 + g)
    (rankOf s p.core t.comp g = none → w = 0) ∧
    ∀ r, rankOf s p.core t.comp g = some r → r < 64 → (groupOf s p.core g).members.length ≤ 64 → groupSpan s p.core t.comp g < 4 →
      Bits.fld w 0 1 = 1 ∧ Bits.fld w 1 6 = r ∧ Bits.fld w 7 6 = (groupOf s p.core g).members.length - 1 ∧
        Bits.fld w 13 2 = groupSpan s p.core t.comp g ∧ Bits.fld w 15 17 = 0)

/-- 02 R23, R26 to R30: MTC writes the register, so that a read after it gives the value written (PRIO is clamped at level 0);
it changes no vector, scalar or predicate register and no byte of memory. That a read of HBASE, HLIM or HOFF_LO gives the value staged
before HOFF_HI is written is the model's choice (log 79): 02 R30 is silent on it. -/
def Obligations.MtcWrites : Prop :=
  ∀ x s c, Ready (.mtc x) s c → ∃ t u, exec (.mtc x) s = .next t ∧ team? t c.key = some u ∧
    (x.k.toNat ≠ 0x018 → readCr t c.key u c.place x.k.toNat = c.s 0) ∧
    (x.k.toNat = 0x018 → u.prio = clampPrio s c.team (c.s 0)) ∧
    u.v = c.team.v ∧ u.s = c.team.s ∧ u.p = c.team.p ∧ t.mem = s.mem ∧ LatchesKept c s t

/-- 02 R22, R23, R31: the order of the checks on a control register: an unknown number, the level, a TSk beyond the grant, a
write of a read-only register, an illegal value. -/
def Obligations.ControlRegisterChecks : Prop :=
  ∀ (n : Nat) (c : Ctx) (s : State),
    (crLevels n = none → mfcCheck n c s = some 1 ∧ mtcCheck n c s = some 1) ∧
    (∀ r w, crLevels n = some (r, w) →
      (c.team.level < r → mfcCheck n c s = some 2) ∧
      (r ≤ c.team.level → beyondGrant s c.key n = true → mfcCheck n c s = some 7) ∧
      (r ≤ c.team.level → beyondGrant s c.key n = false → mfcCheck n c s = none)) ∧
    (∀ r, crLevels n = some (r, none) → beyondGrant s c.key n = false → mtcCheck n c s = some 1) ∧
    (∀ r w, crLevels n = some (r, some w) →
      (c.team.level < w → mtcCheck n c s = some 2) ∧
      (w ≤ c.team.level → beyondGrant s c.key n = true → mtcCheck n c s = some 7) ∧
      (w ≤ c.team.level → beyondGrant s c.key n = false → crIllegal c.team n (c.s 0) = true → mtcCheck n c s = some 1) ∧
      (w ≤ c.team.level → beyondGrant s c.key n = false → crIllegal c.team n (c.s 0) = false → mtcCheck n c s = none))

/-! ## Control flow (07 R115 to R123) -/

/-- 07 R115, R116, R118, 03 R36: the lanes that an instruction without a transfer issued for stand at the next word and wait for
nothing. -/
def Obligations.LanesGoOnToTheNextWord : Prop :=
  ∀ (c : Ctx) (r : Done) (x : Team), team? r.s c.key = some x → c.cur.replay = none → r.fail = none → r.post = none →
    r.keep = false → r.moves = none → ∀ l, l < 32 → c.cur.mask.getLsbD l = true → LaneAt (conclude c r) c.key l c.nextPc

namespace Sys2Proof.Spec

/-- The lanes of a B-format word: PG exclusive-ORed with N (03 R44). -/
def takes (c : Ctx) (x : BF) (l : Nat) : Bool := c.active l && ((c.pred 0).getLsbD l != (x.n == 1))

/-- The target of a B-format word: the word's address and four times the signed offset, modulo 2^57 (03 R44). -/
def branchTo (c : Ctx) (x : BF) : Nat := (((c.cur.pc : Int) + 4 * x.off.toInt) % 2 ^ 57).toNat

/-- The lanes that an instruction issued for stand at the next word. -/
def GoesOn (c : Ctx) (t : State) : Prop :=
  c.cur.replay = none → ∀ l, l < 32 → c.cur.mask.getLsbD l = true → LaneAt t c.key l c.nextPc

/-- The low and the high word of a return address. -/
def linkWord (c : Ctx) (r : Nat) : Word := BitVec.ofNat 32 (c.nextPc / 2 ^ (32 * r))

end Sys2Proof.Spec

/-- 07 R117: the lanes that take a BRA stand at its target, the others at the next word; nothing is written. -/
def Obligations.BranchMovesLanes : Prop :=
  ∀ x s c, Ready (.bra x) s c → ∃ t, exec (.bra x) s = .next t ∧ NothingWritten c s t ∧
    (c.cur.replay = none → ∀ l, l < 32 → c.cur.mask.getLsbD l = true → LaneAt t c.key l (if takes c x l then branchTo c x else c.nextPc))

/-- 07 R119: CALL and CALLI write the address of the next word to v0:v1 of the lanes that take them, with tag 63, and move those
lanes to the target; nothing else is written. -/
def Obligations.CallsLink : Prop :=
  (∀ x s c, Ready (.call x) s c → ∃ t u, exec (.call x) s = .next t ∧ team? t c.key = some u ∧
    (∀ r l, l < 32 → Team.reg u r l = if r < 2 && takes c x l then ⟨linkWord c r, 63⟩ else Team.reg c.team r l) ∧
    LatchesKept c s t ∧ Frame Team.sansV c s t ∧
    (c.cur.replay = none → ∀ l, l < 32 → c.cur.mask.getLsbD l = true →
      LaneAt t c.key l (if takes c x l then branchTo c x else c.nextPc))) ∧
  (∀ x s c, Ready (.calli x) s c → c.pair 0 % 4 = 0 → c.pair 0 < 2 ^ 57 →
    ∃ t u, exec (.calli x) s = .next t ∧ team? t c.key = some u ∧
    (∀ r l, l < 32 → Team.reg u r l = if r < 2 && c.active l then ⟨linkWord c r, 63⟩ else Team.reg c.team r l) ∧
    LatchesKept c s t ∧ Frame Team.sansV c s t ∧
    (c.cur.replay = none → ∀ l, l < 32 → c.cur.mask.getLsbD l = true → LaneAt t c.key l (c.pair 0)))

/-- 07 R118: RET moves each lane to the address in its pair, JMPI all of them to the scalar pair's, where the addresses are words
below 2^57; a target that is no word raises ALIGN, and one at or above 2^57 raises ADDR, for the lowest lane that has one. -/
def Obligations.IndirectTransfers : Prop :=
  (∀ x s c, Ready (.ret x) s c → (∀ l ∈ lanesOf c.act, c.v64 0 l % 4 = 0 ∧ c.v64 0 l < 2 ^ 57) →
    ∃ t, exec (.ret x) s = .next t ∧ NothingWritten c s t ∧
      (c.cur.replay = none → ∀ l ∈ lanesOf c.act, LaneAt t c.key l (c.v64 0 l))) ∧
  (∀ x s c, Ready (.jmpi x) s c → c.pair 0 % 4 = 0 → c.pair 0 < 2 ^ 57 →
    ∃ t, exec (.jmpi x) s = .next t ∧ NothingWritten c s t ∧
      (c.cur.replay = none → ∀ l, l < 32 → c.cur.mask.getLsbD l = true → LaneAt t c.key l (c.pair 0))) ∧
  (∀ x s c l, Ready (.ret x) s c → (lanesOf c.act).find? (fun l => c.v64 0 l % 4 ≠ 0) = some l →
    exec (.ret x) s = .next (trapHead c { cause := 6, flane := l, faddr := c.v64 0 l } c.act s)) ∧
  (∀ x s c l, Ready (.ret x) s c → (∀ l ∈ lanesOf c.act, c.v64 0 l % 4 = 0) →
    (lanesOf c.act).find? (fun l => 2 ^ 57 ≤ c.v64 0 l) = some l →
    exec (.ret x) s = .next (trapHead c { cause := 8, flane := l, faddr := c.v64 0 l } c.act s))

/-- What is left of a team's replay queue once the instruction of `c` has completed: nothing, where none was replayed (07 R120). -/
def Sys2Proof.Spec.queueLeft (c : Ctx) : List ReplayEntry := if c.cur.replay.isSome then c.team.replayQ.drop 1 else c.team.replayQ

/-- 07 R117, R118, R120, 15 R267: NOP, YIELD and PRIOSET write nothing; YIELD ends the stint, PRIOSET gives its lanes the block
priority sA[7:0], where its run binds no HPRIO. BRK and TRAP complete without an effect of their own, and trap at their own address
with k; the frame's replay queue is what is left of a queue being replayed, and else empty. -/
def Obligations.YieldPriosetAndSoftTraps : Prop :=
  (∀ x s c, Ready (.nop x) s c → ∃ t, exec (.nop x) s = .next t ∧ NothingWritten c s t) ∧
  (∀ x s c, Ready (.yield x) s c → ∃ t, exec (.yield x) s = .next t ∧ NothingWritten c s t ∧
    (bench t c.place.benchNo).holder = none) ∧
  (∀ x s c, Ready (.prioset x) s c → ∃ t, exec (.prioset x) s = .next t ∧ NothingWritten c s t ∧
    (c.cur.replay = none → c.hints.hprio = none → ∀ l, l < 32 → c.cur.mask.getLsbD l = true →
      LaneIs t c.key l fun e => e.pc = c.nextPc ∧ e.wait = none ∧ e.prio = (c.s 0).toNat % 256)) ∧
  (∀ x s c, Ready (.brk x) s c → ∃ u, NothingWritten c s u ∧
    exec (.brk x) s = .next (takeTrap u c.key { cause := 0xE, tpc := c.cur.pc, kval := x.b.toNat, replay := queueLeft c })) ∧
  (∀ x s c, Ready (.trap x) s c → ∃ u, NothingWritten c s u ∧
    exec (.trap x) s = .next (takeTrap u c.key { cause := 0xF, tpc := c.cur.pc, kval := x.b.toNat, replay := queueLeft c }))

/-- 07 R121: EXIT completes: it takes its lanes out of the live set, the rejoin masks and the frontier, where their last PCs are
kept, and writes nothing else; with the last lane the team ends, with no entry left. -/
def Obligations.ExitEndsLanes : Prop :=
  ∀ x s c, Ready (.exit x) s c → ∃ t, exec (.exit x) s = .next t ∧
    (c.team.live &&& ~~~c.act ≠ 0 → TeamOnly c s t ∧ LatchesKept c s t ∧ ∃ u, team? t c.key = some u ∧
      u.live = c.team.live &&& ~~~c.act ∧
      { u.kept with live := 0, deadPc := [] } = { c.team.kept with live := 0, deadPc := [] } ∧
      (∀ e ∈ u.front, e.mask &&& c.cur.mask = 0) ∧ ∀ k, MaskStands c.team u k (Team.mask c.team k &&& ~~~c.act)) ∧
    (c.team.live &&& ~~~c.act = 0 → t = conclude c { s := endTeam (onTeam s c.key (exitLanes c)) c.key, moves := some [] } ∧
      ∀ u, team? t c.key = some u → u.live = 0 ∧ u.front = [])

/-- 07 R122, R123: ENROL adds the active lanes to the mask, and goes on. JOINW makes the enrolled active lanes wait while another
enrolled lane has not arrived, and the other lanes go on; the last to arrive completes the join: the mask is cleared, and every
lane that waits on it goes on behind its own JOINW, with the highest block priority among them. -/
def Obligations.RejoinMasks : Prop :=
  (∀ k x s c, Ready (.enrol k x) s c → ∃ t u, exec (.enrol k x) s = .next t ∧ team? t c.key = some u ∧
    MaskStands c.team u k.toNat (Team.mask c.team k.toNat ||| c.act) ∧
    (∀ j, j ≠ k.toNat → MaskStands c.team u j (Team.mask c.team j)) ∧ u.kept = c.team.kept ∧ TeamOnly c s t ∧
    LatchesKept c s t ∧ GoesOn c t) ∧
  (∀ k x s c, Ready (.joinw k x) s c → c.cur.replay = none →
    let w := c.act &&& Team.mask c.team k.toNat
    Team.mask c.team k.toNat &&& ~~~(joinWaiting c.team k.toNat ||| w) ≠ 0 →
    ∃ t, exec (.joinw k x) s = .next t ∧ NothingWritten c s t ∧
      (∀ l, l < 32 → w.getLsbD l = true → LaneIs t c.key l fun e => e.pc = c.cur.pc ∧ e.wait = some (.join k.toNat)) ∧
      (∀ l, l < 32 → c.cur.mask.getLsbD l = true → w.getLsbD l = false → LaneAt t c.key l c.nextPc)) ∧
  (∀ k x s c, Ready (.joinw k x) s c → c.cur.replay = none →
    let w := c.act &&& Team.mask c.team k.toNat
    w ≠ 0 → Team.mask c.team k.toNat &&& ~~~(joinWaiting c.team k.toNat &&& ~~~c.cur.mask ||| w) = 0 →
    ∃ t u top, exec (.joinw k x) s = .next t ∧ team? t c.key = some u ∧ Team.mask u k.toNat = 0 ∧
      (∀ j, j ≠ k.toNat → MaskStands c.team u j (Team.mask c.team j)) ∧ u.kept = c.team.kept ∧ TeamOnly c s t ∧ LatchesKept c s t ∧
      (∀ l, l < 32 → w.getLsbD l = true → LaneIs t c.key l fun e => e.pc = c.nextPc ∧ e.wait = none ∧ e.prio = top) ∧
      (∀ l, l < 32 → c.cur.mask.getLsbD l = true → w.getLsbD l = false → LaneAt t c.key l c.nextPc) ∧
      (∀ e ∈ c.team.front, e.wait = some (.join k.toNat) → e.mask &&& ~~~c.cur.mask ≠ 0 → e.prio ≤ top ∧
        ∀ l, l < 32 → e.mask.getLsbD l = true → c.cur.mask.getLsbD l = false →
          ∃ y ∈ u.front, y.mask.getLsbD l = true ∧ y.pc = (e.pc + 4) % 2 ^ 57 ∧ y.wait = none ∧ y.prio = top) ∧
      c.prio ≤ top ∧ (top = c.prio ∨ ∃ e ∈ c.team.front, e.wait = some (.join k.toNat) ∧ e.prio = top))

/-- 07 R128, R129: SPAWN, once the team's older accesses have been performed (10 R203), makes one thread for each active lane, of the core's compartment, with the entry, the region, the lane's
argument and the block priority; they enter their bins in lane order. -/
def Obligations.SpawnMakesThreads : Prop :=
  ∀ x s c, Ready (.spawn x) s c → spawnGate x c s = .go → ∃ t u, exec (.spawn x) s = .next t ∧ team? t c.key = some u ∧
    u.v = c.team.v ∧ u.p = c.team.p ∧
    (x.k.getLsbD 0 = false → ∃ r, t.spawning = r ++ (lanesOf c.act).map fun l =>
      (⟨c.place.core, c.team.comp, c.pair 0, c.team.region, (c.v 0 0 l).val, x.k.toNat / 16, none⟩ : Spawning)) ∧
    (x.k.getLsbD 0 = true → ∃ r, t.spawning = r ++ (lanesOf c.act).map fun l =>
      (⟨c.place.core, c.team.comp, c.pair 0, regionKey c.team.comp (c.pair 2), (c.v 0 0 l).val, x.k.toNat / 16, none⟩ : Spawning))

/-! ## Barriers (07 R124 to R127) -/

namespace Sys2Proof.Spec

/-- A team that has parked, with the scalars that a status has been written to: registers that CARRYV and CARRYS did not name at
the issue read zero, and the latches are invalid (02 R18, R20, R27). -/
def Parked (c : Ctx) (ws : Nat → Option Word) (t : State) : Prop :=
  ∃ u, team? t c.key = some u ∧
    (∀ r l, Team.reg u r l = if c.carry.1.getLsbD (r / 8) then Team.reg c.team r l else {}) ∧
    (∀ r, Team.scalar u r = (ws r).getD (if c.carry.2.getLsbD (r / 4) then Team.scalar c.team r else 0)) ∧
    (∀ k, k < 15 → Team.pred u k = if c.carry.2.getLsbD (16 + k) then Team.pred c.team k else 0) ∧
    ∀ k, (latch (bench t c.place.benchNo) k).valid = false

/-- No status, and a status in the scalar destination. -/
def noStatus (_ : Nat) : Option Word := none
def status (c : Ctx) (w : Word) (r : Nat) : Option Word := if c.shape.sd.any fun d => d.1.toNat = r then some w else none

/-- The team without what parking changes. -/
def sansPark (t : Team) : Team := { t with v := [], s := [], p := [], clkSnap := none, captured := false }

/-- The lanes that an instruction issued for wait at it. -/
def WaitsHere (c : Ctx) (w : Wait) (t : State) : Prop :=
  c.cur.replay = none → ∀ l, l < 32 → c.cur.mask.getLsbD l = true →
    LaneIs t c.key l fun e => e.pc = c.cur.pc ∧ e.wait = some w

/-- The barrier of the crew that the issuing team belongs to. -/
def crewBar (s : State) (c : Ctx) (k : Nat) : CrewBar := ((crew? s (crewOf c.key)).map fun w => Tab.getD w.bars k {}).getD {}

/-- The teams that have arrived, with this one. -/
def withMe (s : State) (c : Ctx) (k : Nat) : Nat := Nat.lor (crewBar s c k).arrived (2 ^ (c.key % 16))

/-- Every live team of the crew has arrived, with this one. -/
def allHere (s : State) (c : Ctx) (k : Nat) : Bool := (crewLive s (crewOf c.key)).all fun j => (withMe s c k).testBit (j % 16)

/-- This team's arrival at barrier k: the phase completes with the last live team, and otherwise the arrival is held. -/
def BarArrived (s : State) (c : Ctx) (k : Nat) (t : State) : Prop :=
  crewBar t c k = (if allHere s c k then ⟨((crewBar s c k).phase + 1) % 2 ^ 16, 0⟩ else ⟨(crewBar s c k).phase, withMe s c k⟩) ∧
  (∀ j, j ≠ k → crewBar t c j = crewBar s c j) ∧
  (allHere s c k = true → ∀ key u, crewOf key = crewOf c.key → team? t key = some u →
    ∀ e ∈ u.front, e.wait ≠ some (.crewBar k (crewBar s c k).phase)) ∧
  t.mem = s.mem ∧ t.regions = s.regions ∧ t.comps = s.comps

end Sys2Proof.Spec

/-- 07 R125, R127: BARA, once the team's older accesses have been performed (10 R204), arrives, once per phase, and goes on without parking; the phase completes when every live team of the
crew has arrived, which wakes everything that waits on it. -/
def Obligations.CrewBarrierArrival : Prop :=
  ∀ k x s c w, Ready (.bara k x) s c → olderGate c s = .go → crew? s (crewOf c.key) = some w → ∃ t u, exec (.bara k x) s = .next t ∧
    BarArrived s c k.toNat t ∧ team? t c.key = some u ∧ u.v = c.team.v ∧ u.s = c.team.s ∧ u.p = c.team.p ∧
    LatchesKept c s t ∧ GoesOn c t

/-- 07 R124, R127, 02 R18, R20: BARW parks and waits for the current phase; BARAW arrives and parks, and waits where its arrival
does not complete the phase. -/
def Obligations.CrewBarrierWaits : Prop :=
  (∀ k x s c, Ready (.barw k x) s c → ∃ t, exec (.barw k x) s = .next t ∧ Parked c noStatus t ∧ Frame sansPark c s t ∧
    WaitsHere c (.crewBar k.toNat (crewBar s c k.toNat).phase) t) ∧
  (∀ k x s c w, Ready (.baraw k x) s c → olderGate c s = .go → crew? s (crewOf c.key) = some w → ∃ t, exec (.baraw k x) s = .next t ∧
    BarArrived s c k.toNat t ∧ Parked c noStatus t ∧
    (if allHere s c k.toNat then GoesOn c t else WaitsHere c (.crewBar k.toNat (crewBar s c k.toNat).phase) t))

namespace Sys2Proof.Spec

/-- A byte-count barrier of the issuing team's crew. -/
def bar (s : State) (c : Ctx) (k : Nat) : ByteBar := ((crew? s (crewOf c.key)).map fun w => Tab.getD w.bytes k {}).getD {}

/-- Completion: ARMED and ARRIVED are cleared, PHASE counts one more, EXPECT stands (07 R126). -/
def barDone (b : ByteBar) (fault : Bool) : ByteBar :=
  { expect := b.expect, arrived := 0, armed := false, phase := (b.phase + 1) % 2 ^ 16, fault := fault, dests := [] }

/-- The test of an armed barrier (07 R126). -/
def barTest (b : ByteBar) : ByteBar :=
  if b.armed && b.arrived = b.expect then barDone b false
  else if b.armed && decide (b.expect < b.arrived) then barDone b true
  else b

/-- What BCBX makes of a barrier (07 R127). -/
def barMore (b : ByteBar) (n : Nat) : ByteBar :=
  if !b.armed then b
  else if 2 ^ 32 ≤ b.expect + n then barDone { b with expect := 2 ^ 32 - 1 } true
  else barTest { b with expect := b.expect + n }

/-- The barrier k is now as given, and the crew's others are as they were; a completed phase has no waiter left. -/
def BarIs (s : State) (c : Ctx) (k : Nat) (b : ByteBar) (t : State) : Prop :=
  bar t c k = b ∧ (∀ j, j ≠ k → bar t c j = bar s c j) ∧
  (b.phase ≠ (bar s c k).phase → ∀ key u, crewOf key = crewOf c.key → team? t key = some u → ∀ e ∈ u.front, ∀ d,
    e.wait ≠ some (.byteBar k (bar s c k).phase d))

/-- The barrier has nothing that waits on it in the issuing team. -/
def noWaiter (c : Ctx) (k : Nat) : Prop :=
  ∀ w, (∃ e ∈ c.team.front, e.wait = some w) ∨ (∃ h ∈ c.team.held, h.entry.wait = some w) →
    (∀ ph d, w ≠ .byteBar k ph d) ∧ ∀ ph dl d, w ≠ .promw k ph dl d

end Sys2Proof.Spec

/-- 07 R126, R127: BCBI arms a barrier that is not armed, with status 0, and refuses an armed one with status 1 and no change;
BCBX adds to the EXPECT of an armed one; BCBA adds to ARRIVED, saturating. The test of R126 is applied at once. -/
def Obligations.ByteBarrierCounts : Prop :=
  (∀ k x s c, Ready (.bcbi k x) s c → (bar s c k.toNat).armed = true →
    ∃ t, exec (.bcbi k x) s = .next t ∧ ScalarResult c [1] s t) ∧
  (∀ k x s c w, Ready (.bcbi k x) s c → crew? s (crewOf c.key) = some w → (bar s c k.toNat).armed = false →
    ∃ t, exec (.bcbi k x) s = .next t ∧
      BarIs s c k.toNat (barTest { bar s c k.toNat with expect := (c.s 0).toNat, armed := true }) t ∧ LatchesKept c s t ∧
      (noWaiter c k.toNat → ScalarsWritten c [0] t)) ∧
  (∀ k x s c w, Ready (.bcbx k x) s c → crew? s (crewOf c.key) = some w → ∃ t, exec (.bcbx k x) s = .next t ∧
    BarIs s c k.toNat (barMore (bar s c k.toNat) (c.s 0).toNat) t ∧ LatchesKept c s t ∧
    (noWaiter c k.toNat → ∃ u, team? t c.key = some u ∧ u.v = c.team.v ∧ u.s = c.team.s ∧ u.p = c.team.p)) ∧
  (∀ k x s c w, Ready (.bcba k x) s c → olderGate c s = .go → crew? s (crewOf c.key) = some w → ∃ t, exec (.bcba k x) s = .next t ∧
    BarIs s c k.toNat
      (barTest { bar s c k.toNat with arrived := min (2 ^ 32 - 1) ((bar s c k.toNat).arrived + (c.s 0).toNat) }) t ∧
    LatchesKept c s t ∧
    (noWaiter c k.toNat → ∃ u, team? t c.key = some u ∧ u.v = c.team.v ∧ u.s = c.team.s ∧ u.p = c.team.p))

/-- 07 R124, R127: BCBW and PROMW park; on a barrier that is not armed they write status 2 and go on, and otherwise they wait
for its phase, PROMW with the deadline of its scalar pair. -/
def Obligations.ByteBarrierWaits : Prop :=
  (∀ k x s c, Ready (.bcbw k x) s c → ∃ t, exec (.bcbw k x) s = .next t ∧ Frame sansPark c s t ∧
    (if (bar s c k.toNat).armed then
      Parked c noStatus t ∧ WaitsHere c (.byteBar k.toNat (bar s c k.toNat).phase x.d.toNat) t
    else Parked c (status c 2) t ∧ GoesOn c t)) ∧
  (∀ k x s c, Ready (.promw k x) s c → ∃ t, exec (.promw k x) s = .next t ∧ Frame sansPark c s t ∧
    (if (bar s c k.toNat).armed then
      Parked c noStatus t ∧ WaitsHere c (.promw k.toNat (bar s c k.toNat).phase (c.pair 0) x.d.toNat) t
    else Parked c (status c 2) t ∧ GoesOn c t))

/-! ## Monitors, watchpoints, sleeping, bins (08 R162 to R166) -/

/-- No entry of the issuing team waits on a monitored word: what the instruction performs wakes none of them. -/
def Sys2Proof.Spec.noMonitor (c : Ctx) : Prop :=
  ∀ w, (∃ e ∈ c.team.front, e.wait = some w) ∨ (∃ h ∈ c.team.held, h.entry.wait = some w) → ∀ a pa pt v m ctl dl d,
    w ≠ .monitor a pa pt v m ctl dl d

/-- The state in which WATCH decides its status: its descriptor, its range's page and its record have been read; and the physical
address of the range. -/
def Sys2Proof.Spec.watchRead (c : Ctx) (s : State) : State × Nat :=
  let b := (Machine.watchDesc c s).get
  let p := pageOf c (readLines s c.place.core c.team.comp c.team.level false [(c.pair 0 % 2 ^ 57, 32)]) .rd (wdBase b % 2 ^ 57)
  (readLines p.1 c.place.core c.team.comp c.team.level true [(wdSucc b % 2 ^ 57, 32)], p.2.1)

/-- 08 R162, R163: WAITC parks. Where its arming request goes straight through and the condition holds of the word at its point,
it goes on with status 0; where the condition does not hold, it waits there, with the deadline that its fifth scalar gives.
Where the request to a local or missing page is held up, it waits until that is armed. WATCH completes where its descriptor passes
its checks, with status 1 where the home slice's table is full, 2 where PUB is 0, 3 where the core holds 32 watchpoints, and else 0;
only status 0 registers a watchpoint, of the descriptor's range. That the first of several statuses is given is the model's choice
(log 95), as is the registration of a record that fails its checks (log 94). -/
def Obligations.MonitorsArm : Prop :=
  (∀ x s c pa st s1 bs, Ready (.waitc x) s c → waitcGate c s = .go → armsNow c s = true →
    (pageOf c (parkTeam s c.key c.carry) .rd (waitcVa c)).2 = (pa, st) →
    localLoad (pageOf c (parkTeam s c.key c.carry) .rd (waitcVa c)).1 c.place.core c.team.comp
      (nearScope (pageOf c (parkTeam s c.key c.carry) .rd (waitcVa c)).1 c.place.core 1 (waitcScope c)) st pa 4 = (s1, bs) →
    ∃ t, exec (.waitc x) s = .next t ∧
      (monitorHolds (c.s 2) (c.s 3) (c.s 4) (BitVec.ofNat 32 (Bits.ofLe bs)) = true → GoesOn c t ∧
        (noMonitor c → Parked c (status c 0) t) ∧
        ∃ u, team? t c.key = some u ∧ ∀ d, c.shape.sd.map (·.1) = some d → Team.scalar u d.toNat = 0) ∧
      (monitorHolds (c.s 2) (c.s 3) (c.s 4) (BitVec.ofNat 32 (Bits.ofLe bs)) = false → (noMonitor c → Parked c noStatus t) ∧
        (c.cur.replay = none →
        ∀ l, l < 32 → c.cur.mask.getLsbD l = true → LaneIs t c.key l fun e => e.pc = c.cur.pc ∧
          ∃ pt, e.wait = some (.monitor (waitcVa c) pa pt (c.s 2) (c.s 3) (c.s 4)
            (if c.s 5 = 0 then none else some (clk s c.place.core + (c.s 5).toNat)) x.d.toNat)))) ∧
  (∀ x s c, Ready (.waitc x) s c → waitcGate c s = .go → armsNow c s = false →
    (∀ pa st, peek s c.place.core c.team.comp c.team.level .rd (waitcVa c) = .ok pa st → localClass pa ≠ .none) →
    ∃ t, exec (.waitc x) s = .next t ∧ Parked c noStatus t ∧ (c.cur.replay = none → ∀ l, l < 32 → c.cur.mask.getLsbD l = true →
      LaneIs t c.key l fun e => e.pc = c.cur.pc ∧ ∃ pa pt, e.wait = some (.monitor (waitcVa c) pa pt (c.s 2) (c.s 3) (c.s 4)
        (if c.s 5 = 0 then none else some (clk s c.place.core + (c.s 5).toNat)) x.d.toNat))) ∧
  (∀ x s c, Ready (.watch x) s c → watchGate c s = .go → ∃ t u, exec (.watch x) s = .next t ∧ team? t c.key = some u ∧
    let r := watchRead c s
    let b := (Machine.watchDesc c s).get
    let st := if 8 ≤ (r.1.watches.filter fun w => home w.base = home r.2).length then 1
      else if fieldAt (watchRecord c s b).get 4 4 % 2 = 0 then 2
      else if 32 ≤ (r.1.watches.filter fun w => w.core = c.place.core).length then 3 else 0
    (∀ d, c.shape.sd.map (·.1) = some d → Team.scalar u d.toNat = BitVec.ofNat 32 st) ∧
    u.v = c.team.v ∧ u.p = c.team.p ∧ (st ≠ 0 → t.watches = r.1.watches) ∧
    ∀ w ∈ t.watches, w ∈ r.1.watches ∨ (st = 0 ∧ w.comp = c.team.comp ∧ w.core = c.place.core ∧ w.desc = c.pair 0 % 2 ^ 57 ∧
      w.base = r.2 ∧ w.len = wdLen b ∧ w.value = BitVec.ofNat 32 (fieldAt b 12 4) ∧ w.mask = BitVec.ofNat 32 (fieldAt b 16 4) ∧
      w.oneshot = (fieldAt b 20 4 = 1)))

/-- 08 R164 to R166: UNWATCH removes the watchpoint of its descriptor with status 0, or gives status 1; SLEEP ends the stint and
waits for the cycles in its scalar, or goes on for 0; BINFL launches the bins of its compartment on its core, all of them or
those of one entry, unless the compartment is being stopped or the core removed (15 R272, R283). -/
def Obligations.UnwatchSleepBinfl : Prop :=
  (∀ x s c, Ready (.unwatch x) s c → (s.watches.find? fun w => w.comp = c.team.comp && w.desc = c.pair 0 % 2 ^ 57) = none →
    ∃ t, exec (.unwatch x) s = .next t ∧ ScalarResult c [1] s t) ∧
  (∀ x s c w, Ready (.unwatch x) s c → (s.watches.find? fun w => w.comp = c.team.comp && w.desc = c.pair 0 % 2 ^ 57) = some w →
    ∃ t, exec (.unwatch x) s = .next t ∧ t.watches = s.watches.erase w ∧ ScalarsWritten c [0] t ∧ LatchesKept c s t ∧
      { t.kept with watches := [] } = { s.kept with watches := [] }) ∧
  (∀ x s c, Ready (.sleep x) s c → ∃ t, exec (.sleep x) s = .next t ∧ NothingWritten c s t ∧
    (bench t c.place.benchNo).holder = none ∧
    (c.s 0 = 0 → GoesOn c t) ∧
    (c.s 0 ≠ 0 → WaitsHere c (.sleep (clk s c.place.core + (c.s 0).toNat)) t)) ∧
  (∀ x s c, Ready (.binfl x) s c → ∃ t, exec (.binfl x) s = .next t ∧
    t = conclude c { s := flushBins s c.team.comp c.place.core fun b => b.comp = c.team.comp && (x.b = 1 || b.entry = c.pair 0) } ∧
    (binsLaunch s c.team.comp c.place.core = true →
      ∀ b ∈ (Sys2Proof.Machine.core t c.place.core).bins, ¬(b.comp = c.team.comp ∧ (x.b = 1 ∨ b.entry = c.pair 0))))

/-! ## Memory (08 R141 to R161, 10 R200, R201) -/

namespace Sys2Proof.Spec

/-- The loads, stores and atomics: what each does with its lines (08 R146, R152, 03 R43). -/
def accessOf : Instr → Option (Ctx → Access)
  | .ld8I x => some (loadOf x 1 1 true false 63)
  | .ld8N x => some (loadOf x 1 1 false false 63)
  | .ld16I x => some (loadOf x 2 1 true false 63)
  | .ld16N x => some (loadOf x 2 1 false false 63)
  | .ld32 x => some (loadOf x 4 1 false false 24)
  | .ld64 x => some (loadOf x 8 2 false false 53)
  | .ld128 x => some (loadOf x 16 4 false false 53)
  | .ldt32 x => some (loadOf x 4 1 false true 64)
  | .st8 x => some (storeOf x 1 false)
  | .st16 x => some (storeOf x 2 false)
  | .st32 x => some (storeOf x 4 false)
  | .st64 x => some (storeOf x 8 false)
  | .st128 x => some (storeOf x 16 false)
  | .stt32 x => some (storeOf x 4 true)
  | .atomAdd o x => some (atomOf o x 0 4 1 63)
  | .atomAdd64 o x => some (atomOf o x 1 8 2 63)
  | .atomMini o x => some (atomOf o x 2 4 1 63)
  | .atomMaxi o x => some (atomOf o x 3 4 1 63)
  | .atomMinn o x => some (atomOf o x 4 4 1 63)
  | .atomMaxn o x => some (atomOf o x 5 4 1 63)
  | .atomAnd o x => some (atomOf o x 6 4 1 63)
  | .atomOr o x => some (atomOf o x 7 4 1 63)
  | .atomXor o x => some (atomOf o x 8 4 1 63)
  | .atomSwap o x => some (atomOf o x 9 4 1 63)
  | .atomCas o x => some (atomOf o x 10 4 1 63)
  | .atomSwap64 o x => some (atomOf o x 11 8 2 63)
  | .atomCas64 o x => some (atomOf o x 12 8 2 63)
  | .atomFadd o x => some (atomOf o x 13 4 1 24)
  | .atomFmin o x => some (atomOf o x 14 4 1 24)
  | .atomFmax o x => some (atomOf o x 15 4 1 24)
  | .atomIncw o x => some (atomOf o x 16 4 1 63)
  | .atomDecsp o x => some (atomOf o x 17 4 1 63)
  | .atomRedadd o x => some (atomOf o x 18 4 0 63)
  | .atomRedfadd o x => some (atomOf o x 19 4 0 63)
  | _ => none

end Sys2Proof.Spec

/-- 08 R141, R146, R152: a load, store or atomic whose checks pass, and which waits for nothing, is issued: its line requests set
out. -/
def Obligations.MemoryAccessesSetOut : Prop :=
  ∀ i m, accessOf i = some m → ∀ s c, Ready i s c → memGate (m c) c s = .go →
    ∃ t, exec i s = .next t ∧ t = conclude c (memEffect (m c) c s)

namespace Sys2Proof.Spec

/-- The tiles of the issuing team's crew. -/
def tiles (s : State) (c : Ctx) : List Tile := ((crew? s (crewOf c.key)).map fun w => w.tiles).getD []

/-- The tile that a tile instruction names, whether it writes it, and its trap causes before the tile's own words. -/
def tileOf : Instr → Option (Nat × Bool)
  | .tld k _ => some (k.toNat, true)
  | .tst k _ => some (k.toNat, false)
  | .tzero k _ => some (k.toNat, true)
  | .ttag k _ => some (k.toNat, false)
  | .trdv x => some (x.k.toNat % 16, false)
  | .twrv x => some (x.k.toNat % 16, true)
  | _ => none

end Sys2Proof.Spec

/-- 08 R141, 09 R353: the checks of an access run over all lanes before the next check does: an address that is no multiple of the
size raises ALIGN, one that the translation does not hold ADDR, a right that is missing ACCESS; each traps for the first lane.
A tile beyond the grant raises ACCESS, then a shape that R176 does not allow SHAPE, and then a lock that the instruction meets
RANGE_HIT, before anything else of a tile instruction with an active lane. -/
def Obligations.MemoryAndTileTraps : Prop :=
  (∀ i m, accessOf i = some m → ∀ s c, Ready i s c →
    let as := (m c).accs c
    let tr (a : Acc) : Xres := peek s c.place.core c.team.comp c.team.level (m c).need a.va
    let fit : Prop := ∀ l ∈ lanesOf c.act, c.address l % (m c).size = 0
    (∀ l, (lanesOf c.act).find? (fun l => c.address l % (m c).size ≠ 0) = some l →
      exec i s = .next (trapHead c { cause := 6, flane := l, faddr := c.address l } c.act s)) ∧
    (∀ a, fit → as.find? (fun a => tr a = .addr) = some a →
      exec i s = .next (trapHead c { cause := 8, flane := a.lane, faddr := a.va, walked := true } c.act s)) ∧
    (∀ a, fit → (∀ b ∈ as, tr b ≠ .addr) → (m c).code ≠ 17 → as.find? (fun a => tr a = .access) = some a →
      exec i s = .next (trapHead c { cause := 7, flane := a.lane, faddr := a.va, walked := true } c.act s))) ∧
  (∀ i k w, tileOf i = some (k, w) → ∀ s c, Ready i s c → c.act ≠ 0 →
    ((tiles s c).length ≤ k → exec i s = .next (trapHead c { cause := 7 } c.act s)) ∧
    (k < (tiles s c).length → tileBusy s c.key k = false →
      (shapeLegal ((tiles s c).getD k {}).ts = false → exec i s = .next (trapHead c { cause := 0x16 } c.act s)) ∧
      (shapeLegal ((tiles s c).getD k {}).ts = true → tileLocked s (crewOf c.key) k w = true →
        exec i s = .next (trapHead c { cause := 9 } c.act s))))

namespace Sys2Proof.Spec

/-- The line of an address needs no other line's way in an L1 (12 R228), and none in its home slice (12 R226). -/
def wayFree (s : State) (j pa : Nat) : Prop :=
  ∃ w, w < l1WayCount s j ∧
    ∀ l, Tab.get? (Sys2Proof.Machine.core s j).ways (16 * (pa / 64 % 1024) + w) = some l →
      l = pa / 64 ∨ lineValid (Sys2Proof.Machine.core s j) l = false
def sliceFree (s : State) (pa : Nat) : Prop :=
  (l2Find s (pa / 64)).isSome = true ∨ ∃ w, w < 24 ∧ Tab.get? s.l2 (24 * l2Set pa + w) = none

end Sys2Proof.Spec

/-- 10 R200, R201, R211, 08 R143: a weak store within a line stays in the L1 of its core, where its own core reads it, and reaches
no memory unless a line has to make room for it or becomes the 1,025th dirty one; a strong store is performed at the home, and
changes no other word there unless the home slice evicts a line for it. A weak load reads what its core sees; a strong load
reads the home, once the dirty words it addresses have been written back. -/
def Obligations.LoadsAndStoresAtTheirPoint : Prop :=
  (∀ s k c st pa bs, bs ≠ [] → pa % 64 + bs.length ≤ 64 → (∀ a, pa ≤ a → a < pa + bs.length → rcbOwned s a = false) →
    0 < l1WayCount s (l1Loc s k pa) →
    viewBytes (weakStore s k c st pa bs) k c pa bs.length = bs ∧
    ((Sys2Proof.Machine.core s (l1Loc s k pa)).dirtyLines.length < 1024 → wayFree s (l1Loc s k pa) pa → sliceFree s pa →
      (weakStore s k c st pa bs).mem = s.mem ∧ (weakStore s k c st pa bs).keys = s.keys)) ∧
  (∀ s k c pa bs, (∀ a, pa ≤ a → a < pa + bs.length → rcbOwned s a = false) →
    homeBytes (strongStore s k c pa bs) (compKey s c) pa bs.length = bs ∧
    (sliceFree s pa →
      ∀ a, inRange pa bs.length (a / 4) = false → memByte (strongStore s k c pa bs).mem a = memByte s.mem a)) ∧
  (∀ s k c st pa n, pa % 64 + n ≤ 64 → wayFree s (l1Loc s k pa) pa → sliceFree s pa →
    (weakLoad s k c st pa n).2 = viewBytes s k c pa n ∧ (weakLoad s k c st pa n).1.mem = s.mem) ∧
  (∀ s k c pa n, (strongLoad s k c pa n).2 = homeBytes (syncWords (l2Touch s (compKey s c) pa) k pa n) (compKey s c) pa n ∧
    (sliceFree s pa → (∀ w ∈ wordsOf pa n, ∀ v, Tab.get? (Sys2Proof.Machine.core s (l1Loc s k (4 * w))).l1 w = some v → v.dirty = false) →
      (strongLoad s k c pa n).2 = homeBytes s (compKey s c) pa n ∧ (strongLoad s k c pa n).1.mem = s.mem))

/-- 08 R146, R148, R152, R39: when an operation completes its values enter the registers of its lanes: a load of less than a word
extends its value by its sign or by zeros, a wider one fills a group low word first, an atomic returns the old value; a
destination of 124 takes nothing, and no other register changes. A result of one register per lane enters b0 of the team's bench,
with +0 and tag 63 in the lanes that it was not performed for, and the others move on (02 R16); a wider one leaves the latches. -/
def Obligations.LoadedRegisters : Prop :=
  ∀ s o t n, o.result = some (t, n) →
    ∀ u, team? s o.team = some u → ∃ u', team? (writeOp s o) o.team = some u' ∧
      (∀ r l, l < 32 → Team.reg u' r l =
        if t ≠ 124 && r ≠ 124 && t ≤ r && r < t + n && o.issue.mask.getLsbD l then o.cell (r - t) l else Team.reg u r l) ∧
      u'.s = u.s ∧ u'.p = u.p ∧ u'.front = u.front ∧
      (∀ p, u.place = some p →
        (n = 1 → (∀ l, l < 32 → (latch (bench (writeOp s o) p.benchNo) 0).lanes.getD l {} =
              if o.issue.mask.getLsbD l then o.cell 0 l else {}) ∧
            (latch (bench (writeOp s o) p.benchNo) 0).valid = true ∧
            ∀ k, k < 3 → latch (bench (writeOp s o) p.benchNo) (k + 1) = latch (bench s p.benchNo) k) ∧
        (n ≠ 1 → bench (writeOp s o) p.benchNo = bench s p.benchNo)) ∧
      (∀ size tag, o.kind = .load t n size true tag → 0 < size → size ≤ 4 → ∀ l,
        (o.cell 0 l).val = (BitVec.ofNat (8 * size) (Tab.getD o.got l 0)).signExtend 32) ∧
      (∀ size tag, o.kind = .load t n size false tag → ∀ j l,
        (o.cell j l).val = BitVec.ofNat 32 (Tab.getD o.got l 0 / 2 ^ (32 * j)) ∧
        (o.cell j l).tag = BitVec.ofNat 6 (if tag = 64 then Tab.getD o.got (32 + l) 0 else tag)) ∧
      (∀ code old tag, o.kind = .atomic code t old n tag → ∀ j l,
        (o.cell j l).val = BitVec.ofNat 32 (Tab.getD o.got l 0 / 2 ^ (32 * j)) ∧ (o.cell j l).tag = BitVec.ofNat 6 tag)

/-- 08 R152, R155: the new memory operand of each atomic. -/
def Obligations.AtomicFunctions : Prop :=
  (∀ m x : Word, ∀ k,
    atomNew 0 m.toNat x.toNat k = (m + x).toNat ∧ atomNew 18 m.toNat x.toNat k = (m + x).toNat ∧
    atomNew 2 m.toNat x.toNat k = (if x.slt m then x else m).toNat ∧ atomNew 3 m.toNat x.toNat k = (if m.slt x then x else m).toNat ∧
    atomNew 4 m.toNat x.toNat k = (if x < m then x else m).toNat ∧ atomNew 5 m.toNat x.toNat k = (if m < x then x else m).toNat ∧
    atomNew 6 m.toNat x.toNat k = (m &&& x).toNat ∧ atomNew 7 m.toNat x.toNat k = (m ||| x).toNat ∧
    atomNew 8 m.toNat x.toNat k = (m ^^^ x).toNat ∧ atomNew 9 m.toNat x.toNat k = x.toNat ∧
    atomNew 16 m.toNat x.toNat k = (if x ≤ m then 0 else m.toNat + 1) ∧
    atomNew 17 m.toNat x.toNat k = (if m = 0 then 0 else m.toNat - 1)) ∧
  (∀ m x cmp : Nat, atomNew 10 m x cmp = (if m = cmp then x else m) ∧ atomNew 12 m x cmp = (if m = cmp then x else m) ∧
    atomNew 11 m x cmp = x ∧ atomNew 1 m x cmp = (m + x) % 2 ^ 64 ∧
    atomNew 13 m x cmp = (addF f32 0 (decodeF f32 m) (decodeF f32 x)).1 ∧
    atomNew 19 m x cmp = (addF f32 0 (decodeF f32 m) (decodeF f32 x)).1 ∧
    atomNew 14 m x cmp = (selF f32 false m x).1 ∧ atomNew 15 m x cmp = (selF f32 true m x).1)

namespace Sys2Proof.Spec

/-- The scratchpad of the issuing team's crew. -/
def scratch (s : State) (c : Ctx) : List Host.Cell := ((crew? s (crewOf c.key)).map fun w => w.scratch).getD []

/-- The offset of a lane in the scratchpad (08 R150). -/
def scratchOffset (c : Ctx) (l : Nat) : Nat := (c.pair 0 + (c.v 0 0 l).val.toNat + c.offset 64) % 2 ^ 64

/-- The byte that a store of `n` bytes per lane leaves at an address of the scratchpad: the highest lane's that writes it. -/
def scratchByte (c : Ctx) (n : Nat) (m : List Host.Cell) (a : Nat) : Byte :=
  match (lanesOf c.act).reverse.find? fun l => scratchOffset c l ≤ a && a < scratchOffset c l + n with
  | some l =>
    let j := a - scratchOffset c l
    BitVec.ofNat 8 ((c.v 2 (j / 4) l).val.toNat / 2 ^ (8 * (j % 4)))
  | none => memByte m a

end Sys2Proof.Spec

namespace Sys2Proof.Spec

/-- Every active lane's access to the scratchpad passes the checks of 08 R150: aligned, inside the grant, and in no range that an
engine has locked against it. -/
abbrev ScratchFits (s : State) (c : Ctx) (n : Nat) (write : Bool) : Prop :=
  ∀ l ∈ lanesOf c.act, scratchOffset c l % n = 0 ∧ scratchOffset c l + n ≤ scratchBytes s (crewOf c.key) ∧
    lockHit s c.key (c.place.core / 4) (some (crewOf c.key)) write (scratchOffset c l) n = false

end Sys2Proof.Spec

/-- 08 R150, 03 R43: LDS gives each active lane the bytes at its offset in the crew's scratchpad, and STS stores them, once the
team's older acquires have been performed (10 R203); an offset that is no multiple of the size raises ALIGN, and else one beyond the
grant ADDR, of either. Nothing else changes, but for the words that STS mends (12 R244). -/
def Obligations.ScratchpadAccesses : Prop :=
  (∀ x s c, Ready (.lds x) s c → ScratchFits s c (scratchSize x.sco) false → acquiring s c.key = false →
    (∀ w, crew? s (crewOf c.key) = some w → w.failing = []) → ∃ t, exec (.lds x) s = .next t ∧
    let n := scratchSize x.sco
    let at' (l : Nat) : Nat := memLe (scratch s c) (scratchOffset c l) n
    (n < 4 → LaneResult c (fun l => ⟨if x.sco = 1 || x.sco = 3 then (BitVec.ofNat (8 * n) (at' l)).signExtend 32
      else BitVec.ofNat 32 (at' l), 63⟩) s t) ∧
    (n = 4 → LaneResult c (fun l => ⟨BitVec.ofNat 32 (at' l), 24⟩) s t) ∧
    (4 < n → GroupWritten c (n / 4) (fun j l => ⟨BitVec.ofNat 32 (at' l / 2 ^ (32 * j)), 53⟩) t ∧ LatchesKept c s t ∧
      Frame Team.sansV c s t)) ∧
  (∀ x s c w, Ready (.sts x) s c → crew? s (crewOf c.key) = some w → ScratchFits s c (scratchSize x.sco) true →
    acquiring s c.key = false → ∃ t, exec (.sts x) s = .next t ∧ LatchesKept c s t ∧
      CrewFrame (fun w => { w with scratch := [], failing := [] }) c s t ∧
      ∀ a, memByte (scratch t c) a = scratchByte c (scratchSize x.sco) (scratch s c) a) ∧
  (∀ i x, i = .lds x ∨ i = .sts x → ∀ s c l, Ready i s c →
    ((lanesOf c.act).find? (fun l => scratchOffset c l % scratchSize x.sco ≠ 0) = some l →
      exec i s = .next (trapHead c { cause := 6, flane := l, faddr := scratchOffset c l, scratch := true } c.act s)) ∧
    ((∀ l ∈ lanesOf c.act, scratchOffset c l % scratchSize x.sco = 0) →
      (lanesOf c.act).find? (fun l => scratchBytes s (crewOf c.key) < scratchOffset c l + scratchSize x.sco) = some l →
      exec i s = .next (trapHead c { cause := 8, flane := l, faddr := scratchOffset c l, scratch := true } c.act s)))

/-- An L1's words are listed in the order of their addresses, each once. -/
def Sys2Proof.Spec.wordsInOrder (s : State) (j : Nat) : Prop := ((Sys2Proof.Machine.core s j).l1.map (·.1)).Pairwise (· < ·)

/-- 08 R151, R158 to R161: the fences and cache instructions complete where nothing older of the team is outstanding. A fence below
.cl does nothing more. At .cl or wider one that releases, as any does at .fab or .sys (11 R215), leaves no dirty word in the L1s of the
core, and one that acquires no clean word that is not of a stable page (10 R206 to R208). A lost remote
store is raised by a FENCE once it has completed. FLUSHR leaves no word of its range dirty in the L1s of the core; INVR
leaves no word of its range there; an empty range changes
nothing. PREF changes no vector register and no predicate. A dirty word that an L1 writes back is at its home then, where its
registration is the word's latest event (11 R213). -/
def Obligations.FencesAndCacheControl : Prop :=
  (∀ o sc x s c, Ready (.fence o sc x) s c → fenceGate sc.toNat c s = .go → (sc.toNat < 5 ∨ c.team.lost = 0) →
    ∃ t u, exec (.fence o sc x) s = .next t ∧ team? t c.key = some u ∧ u.v = c.team.v ∧ u.p = c.team.p ∧
      t.reqs = s.reqs ∧ t.ops = s.ops ∧ (sc.toNat < 3 ∨ (o = 0 ∧ sc.toNat < 5) → t.mem = s.mem) ∧ GoesOn c t ∧
      (sc.toNat < 3 → NothingWritten c s t) ∧
      ∀ j ∈ l1Group s c.place.core, 3 ≤ sc.toNat →
        (o ≠ 0 ∨ 5 ≤ sc.toNat → wordsInOrder s j → ∀ w ∈ (Sys2Proof.Machine.core t j).l1, w.2.dirty = false) ∧
        (o ≠ 1 → ∀ w ∈ (Sys2Proof.Machine.core t j).l1, w.2.dirty = true ∨ w.2.stable = true) ∧
        (o = 0 → sc.toNat < 5 → (Sys2Proof.Machine.core t j).l1 =
          (Sys2Proof.Machine.core s j).l1.filter fun w => w.2.dirty || w.2.stable)) ∧
  (∀ s k w v, Tab.get? (Sys2Proof.Machine.core s k).l1 w = some v → v.dirty = true →
    (s.registering.contains (k, w) = true ∨ Tab.get? s.owners w = some k) →
    homeBytes (writeBackWord s k w) v.key (4 * w) 4 = Bits.leBytes 4 v.val.toNat) ∧
  (∀ o sc x s c, Ready (.fence o sc x) s c → fenceGate sc.toNat c s = .go → 5 ≤ sc.toNat → c.team.lost ≠ 0 →
    ∃ u r q, exec (.fence o sc x) s = .next (takeTrap u c.key { cause := 0x18, tpc := c.cur.pc, replay := q }) ∧
      team? u c.key = some r ∧ r.lost = 0 ∧ GoesOn c u) ∧
  (∀ o sc x s c, Ready (.flushr o sc x) s c → olderGate c s = .go → ∃ t u, exec (.flushr o sc x) s = .next t ∧
    team? t c.key = some u ∧ u.v = c.team.v ∧ u.p = c.team.p ∧ GoesOn c t ∧ (c.s 2 = 0 → NothingWritten c s t) ∧
    ∀ j ∈ l1Group s c.place.core, wordsInOrder s j → ∀ w ∈ (Sys2Proof.Machine.core t j).l1,
      lineMeets (rangeParts s c.place.core c.team.comp (c.pair 0 % 2 ^ 57) (c.s 2).toNat) w.1 = true → w.2.dirty = false) ∧
  (∀ o sc x s c, Ready (.invr o sc x) s c → olderGate c s = .go → ∃ t u, exec (.invr o sc x) s = .next t ∧
    team? t c.key = some u ∧ u.v = c.team.v ∧ u.p = c.team.p ∧ GoesOn c t ∧
    (∀ j ∈ l1Group s c.place.core, ∀ w ∈ (Sys2Proof.Machine.core t j).l1,
      lineMeets (rangeParts s c.place.core c.team.comp (c.pair 0 % 2 ^ 57) (c.s 2).toNat) w.1 = false) ∧
    (c.s 2 = 0 → t.mem = s.mem)) ∧
  (∀ o sc x s c, Ready (.pref o sc x) s c → ∃ t u, exec (.pref o sc x) s = .next t ∧ team? t c.key = some u ∧ LatchesKept c s t ∧
    GoesOn c t ∧ u.v = c.team.v ∧ u.p = c.team.p ∧ t.reqs = s.reqs ∧ (c.s 2 = 0 → NothingWritten c s t))

/-! ## Tiles (09 R176 to R181, R353) -/

namespace Sys2Proof.Spec

/-- Nothing but one tile of the team's crew has changed. -/
def TileFrame (c : Ctx) (k : Nat) (s t : State) : Prop :=
  LatchesKept c s t ∧ CrewFrame (fun w => { w with tiles := [] }) c s t ∧
  ∀ j, j ≠ k → (tiles t c).getD j {} = (tiles s c).getD j {}

/-- A word of a tile's element image, and the row that holds it. -/
def tileWord (t : Tile) (w : Nat) : Word := BitVec.ofNat 32 (memLe t.image (4 * w) 4)
def tileRow (t : Tile) (w : Nat) : Nat := 4 * w / tsRowBytes t.ts

end Sys2Proof.Spec

namespace Sys2Proof.Spec

/-- A tile instruction may name the tile (09 R353 steps 1 to 3): it is in the grant, no instruction before it is still at work
on it, its shape is legal, and no engine has locked it against the access; the team's older acquires have been performed (10
R203). -/
abbrev TileFree (s : State) (c : Ctx) (k : Nat) (write : Bool) : Prop :=
  k < (tiles s c).length ∧ tileBusy s c.key k = false ∧ shapeLegal ((tiles s c).getD k {}).ts = true ∧
    tileLocked s (crewOf c.key) k write = false ∧ acquiring s c.key = false

/-- The words that TRDV or TWRV moves lie in the tile (09 R181). -/
abbrev WordsFit (s : State) (c : Ctx) (k : Nat) : Prop :=
  ∀ l ∈ lanesOf c.act, (c.s 0).toNat + l <
    tsRowBytes ((tiles s c).getD k {}).ts * tsRows ((tiles s c).getD k {}).ts / 4

/-- A translation that gives a page, or waits for one. -/
def pageComes : Xres → Bool
  | .ok .. | .miss .. => true
  | _ => false

/-- The descriptor of a TLD or TST is legal, and its image passes the checks of 08 R141 (09 R180, R353); a line's page may be
missing. -/
abbrev TileImageFits (s : State) (c : Ctx) (k : Nat) (store : Bool) : Prop :=
  descLegal ((tiles s c).getD k {}).ts c = true ∧ descBase c % 16 = 0 ∧ ∀ p ∈ descPieces ((tiles s c).getD k {}).ts c, p.len ≠ 0 →
    pageComes (peek s c.place.core c.team.comp c.team.level (if store then .wr else .rd) p.va) = true ∧
    lockHit s c.key (c.place.core / 4) none store p.va p.len = false

end Sys2Proof.Spec

/-- 09 R177, R179 to R181: TZERO zeroes the image, the scales and the super-scales and sets the row tags; TTAG reads a row's tag;
TRDV reads words of the image, with the row's tag in an f32 tile; TWRV writes them, and an f32 row's tag becomes the least of
its own and the words'. TLD and TST set out with the lines of the tile's memory image. With no active lane TRDV and TWRV move
nothing and make no access (03 R49). -/
def Obligations.TileInstructions : Prop :=
  (∀ k x s c w, Ready (.tzero k x) s c → crew? s (crewOf c.key) = some w → TileFree s c k.toNat true →
    ∃ t, exec (.tzero k x) s = .next t ∧ TileFrame c k.toNat s t ∧
      let z := (tiles t c).getD k.toNat {}
      z.ts = ((tiles s c).getD k.toNat {}).ts ∧ (∀ a, memByte z.image a = 0) ∧ (∀ r, Tab.getD z.scales r 0 = 0) ∧ z.s0 = 0 ∧ z.s1 = 0 ∧
      ∀ r, z.rowTag r = if tsFmt z.ts ≤ 6 then 24 else 63) ∧
  (∀ k x s c, Ready (.ttag k x) s c → TileFree s c k.toNat false →
    (c.s 0).toNat < tsRows ((tiles s c).getD k.toNat {}).ts → ∃ t, exec (.ttag k x) s = .next t ∧
      ScalarResult c [(((tiles s c).getD k.toNat {}).rowTag (c.s 0).toNat).zeroExtend 32] s t) ∧
  (∀ x s c, Ready (.trdv x) s c → TileFree s c (x.k.toNat % 16) false → WordsFit s c (x.k.toNat % 16) → ∃ t, exec (.trdv x) s = .next t ∧
    let z := (tiles s c).getD (x.k.toNat % 16) {}
    LaneResult c (fun l => ⟨tileWord z ((c.s 0).toNat + l),
      if tsFmt z.ts = 0 then z.rowTag (tileRow z ((c.s 0).toNat + l)) else 63⟩) s t) ∧
  (∀ x s c w, Ready (.twrv x) s c → crew? s (crewOf c.key) = some w → TileFree s c (x.k.toNat % 16) true →
    WordsFit s c (x.k.toNat % 16) →
    ∃ t, exec (.twrv x) s = .next t ∧ TileFrame c (x.k.toNat % 16) s t ∧
      let z := (tiles s c).getD (x.k.toNat % 16) {}
      let y := (tiles t c).getD (x.k.toNat % 16) {}
      y.ts = z.ts ∧ y.scales = z.scales ∧ y.s0 = z.s0 ∧ y.s1 = z.s1 ∧
      (∀ l ∈ lanesOf c.act, tileWord y ((c.s 0).toNat + l) = (c.v 0 0 l).val) ∧
      (∀ k, (∀ l ∈ lanesOf c.act, k ≠ (c.s 0).toNat + l) → tileWord y k = tileWord z k) ∧
      (tsFmt z.ts ≠ 0 → ∀ r, y.rowTag r = z.rowTag r) ∧
      (tsFmt z.ts = 0 → ∀ r, (y.rowTag r).toNat = ((lanesOf c.act).filter fun l => tileRow z ((c.s 0).toNat + l) = r).foldl
        (fun g l => min g (if (c.v 0 0 l).tag = 63 then 24 else (c.v 0 0 l).tag.toNat)) (z.rowTag r).toNat)) ∧
  (∀ k x s c, Ready (.tld k x) s c → TileFree s c k.toNat true → TileImageFits s c k.toNat false → starved s c.key = false →
    ∃ t, exec (.tld k x) s = .next t ∧ t = conclude c { s := tileMemEffect k.toNat false c s }) ∧
  (∀ k x s c, Ready (.tst k x) s c → TileFree s c k.toNat false → TileImageFits s c k.toNat true → starved s c.key = false →
    ∃ t, exec (.tst k x) s = .next t ∧ t = conclude c { s := tileMemEffect k.toNat true c s }) ∧
  (∀ x s c, Ready (.trdv x) s c → c.act = 0 → (x.k.toNat % 16 < (tiles s c).length →
    shapeLegal ((tiles s c).getD (x.k.toNat % 16) {}).ts = true) → ∃ t, exec (.trdv x) s = .next t ∧ LaneResult c (fun _ => {}) s t) ∧
  (∀ x s c, Ready (.twrv x) s c → c.act = 0 → (x.k.toNat % 16 < (tiles s c).length →
    shapeLegal ((tiles s c).getD (x.k.toNat % 16) {}).ts = true) → ∃ t, exec (.twrv x) s = .next t ∧ LatchesKept c s t ∧
      CrewFrame id c s t)

/-! ## Matrix and copy engines (09 R182 to R197) -/

/-- 09 R185, R186, R190, R194: a matrix operation or a copy command whose checks pass, and which waits for nothing, is posted;
its handle is the team's next serial, with which MMA goes on in sd. -/
def Obligations.EnginesTakePosts : Prop :=
  (∀ x s c, Ready (.mma x) s c → matGate false c s = .go → ∃ t m, exec (.mma x) s = .next t ∧
    t = conclude c { s := postMat false c s } ∧ GoesOn c t ∧
    (∃ u, team? t c.key = some u ∧ ∀ d, c.shape.sd.map (·.1) = some d → Team.scalar u d.toNat = BitVec.ofNat 32 m.handle) ∧ m ∈ t.mats ∧ m.team = c.key ∧ m.handle = c.team.matSerial % 2 ^ 16 ∧
    m.cluster = c.place.core / 4 ∧ m.four = false) ∧
  (∀ x s c, Ready (.mma4 x) s c → matGate true c s = .go → ∃ t, exec (.mma4 x) s = .next t ∧
    t = conclude c { s := postMat true c s }) ∧
  (∀ x s c, Ready (.cpy x) s c → copyGate 0 c s = .go → ∃ t, exec (.cpy x) s = .next t ∧ t = conclude c (postCopy 0 c s) ∧
    ∃ y ∈ t.copies, y.team = c.key ∧ y.handle = c.team.copySerial % 2 ^ 16 ∧ y.kind = 0) ∧
  (∀ x s c, Ready (.gath x) s c → copyGate 1 c s = .go → ∃ t, exec (.gath x) s = .next t ∧ t = conclude c (postCopy 1 c s) ∧
    ∃ y ∈ t.copies, y.team = c.key ∧ y.handle = c.team.copySerial % 2 ^ 16 ∧ y.kind = 1) ∧
  (∀ x s c, Ready (.scat x) s c → copyGate 2 c s = .go → ∃ t, exec (.scat x) s = .next t ∧ t = conclude c (postCopy 2 c s) ∧
    ∃ y ∈ t.copies, y.team = c.key ∧ y.handle = c.team.copySerial % 2 ^ 16 ∧ y.kind = 2) ∧
  (∀ x s c, Ready (.coll x) s c → copyGate 3 c s = .go → ∃ t, exec (.coll x) s = .next t ∧ t = conclude c (postCopy 3 c s) ∧
    ∃ y ∈ t.copies, y.team = c.key ∧ y.handle = c.team.copySerial % 2 ^ 16 ∧ y.kind = 3)

namespace Sys2Proof.Spec

/-- The newest status that a team holds of a handle's completed matrix operation, and of its completed copy command. -/
def matNewest (t : Team) (h : Nat) : Option Word := (t.matDone.reverse.find? fun d => d.handle = h).map (·.status)
def copyNewest (t : Team) (h : Nat) : Option CopyDone := t.copyDone.reverse.find? fun d => d.handle = h

/-- The team's outstanding matrix operation, and its outstanding copy command, of a handle. -/
def matOut (s : State) (c : Ctx) (h : Nat) : Option MatOp := s.mats.find? fun m => m.team = c.key && m.handle = h
def copyOut (s : State) (c : Ctx) (h : Nat) : Option Copy :=
  s.copies.find? fun y => y.team = c.key && y.handle = h && y.trunk.isNone

/-- The instructions that name a handle (09 R189, R197). -/
def handleUser : Instr → Bool
  | .mmaw _ | .mmaq _ | .mmax _ | .ewait _ | .ecan _ | .eqry _ => true
  | _ => false

end Sys2Proof.Spec

/-- 09 R189, R197: a handle with bits above 15 is ILLEGAL. MMAW and EWAIT park; they wait for an outstanding operation, and give
the status of a completed one, or 0xFF. MMAQ and EQRY read how far an operation has come, MMAQ as it stood before a change in the same
cycle (18 R300). MMAX and ECAN give 1 for one that
has ended and 0xFF for one that the team does not know. -/
def Obligations.EngineHandles : Prop :=
  (∀ i, handleUser i = true → ∀ s c, Ready i s c → 2 ^ 16 ≤ (c.s 0).toNat →
    exec i s = .next (trapHead c { cause := 1 } c.act s)) ∧
  (∀ x s c, Ready (.mmaw x) s c → (c.s 0).toNat < 2 ^ 16 → (∀ st, matNewest c.team (c.s 0).toNat = some st → st.toNat % 8 ≠ 2) →
    ∃ t, exec (.mmaw x) s = .next t ∧ Frame sansPark c s t ∧
      match matOut s c (c.s 0).toNat with
      | some _ => Parked c noStatus t ∧ WaitsHere c (.matrix (c.s 0).toNat x.d.toNat) t
      | none => Parked c (status c ((matNewest c.team (c.s 0).toNat).getD 0xFF)) t ∧ GoesOn c t) ∧
  (∀ x s c, Ready (.ewait x) s c → (c.s 0).toNat < 2 ^ 16 → (∀ r, copyNewest c.team (c.s 0).toNat = some r → r.finish ≠ 2) →
    ∃ t, exec (.ewait x) s = .next t ∧
      match copyOut s c (c.s 0).toNat, copyNewest c.team (c.s 0).toNat with
      | some _, _ => Frame sansPark c s t ∧ Parked c noStatus t ∧ WaitsHere c (.copy (c.s 0).toNat x.d.toNat) t
      | none, some r => Parked c (status c (copyStatus r.finish r.why)) t ∧ GoesOn c t
      | none, none => Frame sansPark c s t ∧ Parked c (status c 0xFF) t ∧ GoesOn c t) ∧
  (∀ x s c, Ready (.mmaq x) s c → (c.s 0).toNat < 2 ^ 16 → ∃ t st, exec (.mmaq x) s = .next t ∧
    ScalarResult c [BitVec.ofNat 32 st] s t ∧
    let ended := s.matEnds.find? fun e => e.time = s.time && e.op.team = c.key && e.op.handle = (c.s 0).toNat
    (matOut s c (c.s 0).toNat = none → ended = none →
      st = match matNewest c.team (c.s 0).toNat with
        | some w => 3 + w.toNat % 8
        | none => 0xFF) ∧
    (matOut s c (c.s 0).toNat = none → ∀ e, ended = some e → st = e.was) ∧
    ∀ m, matOut s c (c.s 0).toNat = some m →
      st = if m.stage.started && m.granted ≠ some s.time then 2
        else if !m.stage.started && (partnerWait s m || justJoined s m) then 1 else 0) ∧
  (∀ x s c, Ready (.eqry x) s c → (c.s 0).toNat < 2 ^ 16 → ∃ t ws, exec (.eqry x) s = .next t ∧ ScalarResult c ws s t ∧
    ws.length = 4 ∧
    (∀ y, copyOut s c (c.s 0).toNat = some y → ws.getD 0 0 = if y.stage.isRunning then 1 else 0) ∧
    (copyOut s c (c.s 0).toNat = none → ws.getD 0 0 = match copyNewest c.team (c.s 0).toNat with
      | some r => BitVec.ofNat 32 (2 + r.finish)
      | none => 0xFF)) ∧
  (∀ x s c, Ready (.mmax x) s c → (c.s 0).toNat < 2 ^ 16 → ∃ t, exec (.mmax x) s = .next t ∧
    (∀ m, matOut s c (c.s 0).toNat = some m → (cancelSet s m).all (fun y => !y.stage.started) = true →
      t = conclude c { s := endMats (writeScalar c 0 s) (cancelSet s m) (matStatus 1 false false) }) ∧
    (∀ m, matOut s c (c.s 0).toNat = some m → (cancelSet s m).any (fun y => y.stage.started) = true → ScalarResult c [1] s t) ∧
    (matOut s c (c.s 0).toNat = none →
      ScalarResult c [if (matNewest c.team (c.s 0).toNat).isSome then 1 else 0xFF] s t)) ∧
  (∀ x s c, Ready (.ecan x) s c → (c.s 0).toNat < 2 ^ 16 → ∃ t, exec (.ecan x) s = .next t ∧
    (∀ y, copyOut s c (c.s 0).toNat = some y → y.bad = none → t = conclude c { s := endCopy (writeScalar c 0 s) y 1 0 }) ∧
    (∀ y, copyOut s c (c.s 0).toNat = some y → y.bad ≠ none → ScalarResult c [1] s t) ∧
    (copyOut s c (c.s 0).toNat = none →
      ScalarResult c [if (copyNewest c.team (c.s 0).toNat).isSome then 1 else 0xFF] s t))

/-! ## Claims (08 R168 to R175) -/

namespace Sys2Proof.Spec

/-- The oldest entry of a group in the inbox of the issuing core. -/
def oldest (s : State) (c : Ctx) (g : Nat) : Option InboxEntry := (Sys2Proof.Machine.core s c.place.core).inbox.find? fun e => e.group = g

/-- What CLPEEK and CLPOP give (08 R172). -/
def inboxOut (s : State) (c : Ctx) (g : Nat) : List Word :=
  match oldest s c g with
  | none => List.replicate 8 0
  | some e =>
    [e.id, e.key, e.value, BitVec.ofNat 32 e.target, BitVec.ofNat 32 (e.target / 2 ^ 32 % 2 ^ 25),
      BitVec.ofNat 32 (min 65535 (e.close - beat s) + 65536 * e.group), 1, 0]

end Sys2Proof.Spec

/-- 08 R169: a CLAIM whose checks pass writes 0x100 and the reason where it announces nothing; otherwise it writes a handle of its
core under which a proposal of the team stands, with the key, the value and the target, whose window closes after CLWIN's
beats. -/
def Obligations.ClaimsAnnounce : Prop :=
  ∀ k x s c, Ready (.claim k x) s c → claimGate k.toNat x.d.toNat c s = .go → ∃ t u, exec (.claim k x) s = .next t ∧
    team? t c.key = some u ∧ u.v = c.team.v ∧ u.p = c.team.p ∧
    (∀ r, claimReason s c.place.core c.team.comp k.toNat = some r →
      (∀ d, c.shape.sd.map (·.1) = some d → Team.scalar u d.toNat = BitVec.ofNat 32 (0x100 + r)) ∧
      (Sys2Proof.Machine.core t c.place.core).outgoing = (Sys2Proof.Machine.core s c.place.core).outgoing) ∧
    (claimReason s c.place.core c.team.comp k.toNat = none → ∃ h p, h < 16 ∧
      (∀ d, c.shape.sd.map (·.1) = some d → Team.scalar u d.toNat = BitVec.ofNat 32 h) ∧
      Tab.get? (Sys2Proof.Machine.core t c.place.core).outgoing h = some p ∧ p.team = c.key ∧ p.group = k.toNat ∧ p.key = c.s 2 ∧ p.value = c.s 3 ∧
      p.va = c.pair 0 % 2 ^ 57 ∧ p.beats = (Tab.getD (Sys2Proof.Machine.core s c.place.core).clwin k.toNat 0).toNat ∧ p.close = beat s + p.beats)

/-- 08 R171 to R174: CLWAIT and OBJECT park. CLWAIT waits for a proposal that has not resolved, and gives 0xFF for a handle that
names none; OBJECT gives 2 for a rank that is vacant, and otherwise waits for the announcer's answer. CLPEEK and CLPOP read
the oldest inbox entry of the group, which CLPOP removes. CLJOIN and CLLEAVE give a status at once for operands that they
refuse, and otherwise wait while the change is pending on every core of the compartment. -/
def Obligations.ClaimInstructions : Prop :=
  (∀ k x s c, Ready (.clwait k x) s c → trunkClaim s c.key k.toNat (c.s 0).toNat = none → ∃ t, exec (.clwait k x) s = .next t ∧
    match proposalAt (parkTeam s c.key c.carry) c.key c.place.core k.toNat (c.s 0).toNat with
    | none => Frame sansPark c s t ∧ Parked c (status c 0xFF) t ∧ GoesOn c t
    | some (_, p) =>
      match p.outcome with
      | some o => Parked c (status c (BitVec.ofNat 32 o)) t ∧ GoesOn c t
      | none => Frame sansPark c s t ∧ Parked c noStatus t ∧
        WaitsHere c (.claim k.toNat (c.s 0).toNat x.d.toNat) t) ∧
  (∀ k x s c, Ready (.clpeek k x) s c → ∃ t, exec (.clpeek k x) s = .next t ∧ ScalarResult c (inboxOut s c k.toNat) s t) ∧
  (∀ k x s c, Ready (.clpop k x) s c → olderGate c s = .go → ∃ t, exec (.clpop k x) s = .next t ∧
    ScalarsWritten c (inboxOut s c k.toNat) t ∧ LatchesKept c s t ∧
    (Sys2Proof.Machine.core t c.place.core).inbox = (match oldest s c k.toNat with
      | some e => (Sys2Proof.Machine.core s c.place.core).inbox.erase e
      | none => (Sys2Proof.Machine.core s c.place.core).inbox) ∧
    { t.kept with cores := [] } = { s.kept with cores := [] }) ∧
  (∀ k x s c, Ready (.object k x) s c → ∃ t, exec (.object k x) s = .next t ∧
    match Tab.get? (groupOf s c.place.core k.toNat).members ((c.s 0).toNat % 64) with
    | none => Frame sansPark c s t ∧ Parked c (status c 2) t ∧ GoesOn c t
    | some m => Parked c noStatus t ∧ WaitsHere c (.objection k.toNat (c.s 0) x.d.toNat) t ∧
      (memberPeer m = true → ∃ o, t.out = s.out ++ [.objection (memberCoach m) o] ∧ o.id = c.s 0 ∧ o.unheard = false)) ∧
  (∀ k x s c, Ready (.cljoin k x) s c → (groupOf s c.place.core k.toNat).pending = none → ∃ t, exec (.cljoin k x) s = .next t ∧
    match memberBad s c.team.comp (c.s 0) (c.s 1) with
    | some r => ScalarResult c [BitVec.ofNat 32 r] s t
    | none => WaitsHere c (.member x.d.toNat) t ∧ ∀ j ∈ compCores s c.team.comp,
      (groupOf t j k.toNat).pending = some { group := k.toNat, rank := (c.s 0).toNat, member := some (c.s 1), team := c.key }) ∧
  (∀ k x s c, Ready (.clleave k x) s c → (groupOf s c.place.core k.toNat).pending = none → ∃ t, exec (.clleave k x) s = .next t ∧
    (63 < (c.s 0).toNat → ScalarResult c [2] s t) ∧
    ((c.s 0).toNat ≤ 63 → WaitsHere c (.member x.d.toNat) t ∧ ∀ j ∈ compCores s c.team.comp,
      (groupOf t j k.toNat).pending = some { group := k.toNat, rank := (c.s 0).toNat, member := none, team := c.key }))

/-! ## Trunks (07 R130 to R135) -/

/-- 07 R132: SUSPEND at aligned addresses parks, asks every team of its crew to stop, and waits; a second one of the crew goes
on. A trunk that is no multiple of 256, or a ticket that is no multiple of 8, raises ALIGN. That bits 63 to 57 of the pairs that name
them are not read is the model's choice (log 56): 07 R131 is silent. -/
def Obligations.SuspendAsksTheCrew : Prop :=
  (∀ x s c w, Ready (.suspend x) s c → crew? s (crewOf c.key) = some w → w.suspending = none → c.pair 0 % 2 ^ 57 % 256 = 0 →
    c.pair 2 % 2 ^ 57 % 8 = 0 → ∃ t w', exec (.suspend x) s = .next t ∧ Parked c noStatus t ∧ WaitsHere c .suspend t ∧
      crew? t (crewOf c.key) = some w' ∧ { w' with suspending := none } = w ∧
      (∃ q, w'.suspending = some q ∧ q.team = c.key ∧ q.trunk = c.pair 0 % 2 ^ 57 ∧ q.ticket = c.pair 2 % 2 ^ 57) ∧
      (∀ k u, team? t k = some u → crewOf k = crewOf c.key → u.stopReq = true) ∧ t.mem = s.mem) ∧
  (∀ x s c w, Ready (.suspend x) s c → crew? s (crewOf c.key) = some w → w.suspending ≠ none →
    ∃ t, exec (.suspend x) s = .next t ∧ Parked c noStatus t ∧ GoesOn c t ∧ Frame sansPark c s t) ∧
  (∀ x s c w, Ready (.suspend x) s c → crew? s (crewOf c.key) = some w → w.suspending = none → c.pair 0 % 2 ^ 57 % 256 ≠ 0 →
    exec (.suspend x) s =
      .next (trapHead c { cause := 6, flane := ((lanesOf c.act).head?).getD 0, faddr := c.pair 0 % 2 ^ 57 } c.act s)) ∧
  (∀ x s c w, Ready (.suspend x) s c → crew? s (crewOf c.key) = some w → w.suspending = none → c.pair 0 % 2 ^ 57 % 256 = 0 →
    c.pair 2 % 2 ^ 57 % 8 ≠ 0 → exec (.suspend x) s =
      .next (trapHead c { cause := 6, flane := ((lanesOf c.act).head?).getD 0, faddr := c.pair 2 % 2 ^ 57 } c.act s))

namespace Sys2Proof.Spec

/-- The address of the trunk that an instruction names. -/
def trunkAt (c : Ctx) : Nat := c.pair 0 % 2 ^ 57

/-- The trunk at that address passes the checks of 07 R133, and its bytes are `b`; one of a shape that no core can grant passes
where the instruction does not make that check (R134). -/
def TrunkGood (s : State) (c : Ctx) (shape : Bool) (b : List Byte) : Prop :=
  trunkAt c % 256 = 0 ∧ (checkTrunk c s (trunkAt c) = .ok b ∨
    (shape = false ∧ ∃ x h, checkTrunk c s (trunkAt c) = .fails 6 x ∧ readRange c s true (trunkAt c) 256 = .bytes h ∧
      readRange c s true (trunkAt c) (thTotal h) = .bytes b))

/-- The compare-and-swap of the trunk's ticket succeeds (07 R130): the ticket is aligned and its page is there, nothing older of the
team stands before it, and it is live with the trunk's generation; one in other memory has been swapped by a request that came
back. -/
def TicketLive (s : State) (c : Ctx) (b : List Byte) : Prop :=
  let tv := thTicket b % 2 ^ 57
  tv % 8 = 0 ∧ ∃ pa st, peek s c.place.core c.team.comp c.team.level .rw tv = .ok pa st ∧
    match fetchedAt s c (tv + 2 ^ 57) with
    | some v => Bits.ofLe v = liveTicket (thGen b)
    | none => behindOlder c s true tv 8 = false ∧ localClass pa ≠ .none ∧ homeFails s pa 8 = false ∧
        Bits.ofLe (readBytes s c.place.core c.team.comp true pa 8) = liveTicket (thGen b)

/-- The state in which a TCOPY writes: the trunk and its ticket have been read. -/
def copySource (s : State) (c : Ctx) (b : List Byte) : State :=
  readLines (readTrunk c s) c.place.core c.team.comp c.team.level true [(thTicket b % 2 ^ 57, 8)]

/-- Everything that a TCOPY writes can leave from a state at once. -/
def copyLeaves (s : State) (c : Ctx) : Prop := (copyOn c s).2.2 = [] ∧ (copyTicket c (copyOn c s).1 (copyOn c s).2.1).isSome = true

/-- A TCOPY of the trunk may write (07 R134): the source's ticket is live, nothing of it is pending, and the destination's pages and
the ticket's are writable; nothing older of the team stands before its stores, and everything that it writes can leave at once. -/
def CopyFits (s : State) (c : Ctx) (b : List Byte) : Prop :=
  tcopyDst c % 256 = 0 ∧ tcopyTicket c % 8 = 0 ∧ thTicket b % 2 ^ 57 % 8 = 0 ∧
  (∃ v, readRange c s true (thTicket b % 2 ^ 57) 8 = .bytes v ∧ Bits.ofLe v = liveTicket (thGen b)) ∧ undone b = [] ∧
  (∀ p ∈ pageParts (tcopyDst c) (thTotal b) ++ [(tcopyTicket c, 8)], ∃ pa st,
    peek s c.place.core c.team.comp c.team.level .wr (p.1 % 2 ^ 57) = .ok pa st) ∧
  ((copying s c).isSome = true ∨
    behindOlder c s true (tcopyDst c) (thTotal b) = false ∧ behindOlder c s true (tcopyTicket c) 8 = false) ∧
  copyLeaves s c ∧ copyLeaves (copySource s c b) c

/-- A RESUME of the trunk need not wait (07 R133, 16 R292): what it folds has arrived, everything older of the team has been
performed, and the completion words, if any has counted, can be cleared. -/
def FoldFits (s : State) (c : Ctx) (b : List Byte) : Prop :=
  (ownTrunk s c.team.comp b = true ∨ undone b = []) ∧ acquiring s c.key = false ∧ outstanding s c.key = false ∧
  ((∀ k, k < 16 → complWord b k = 0) ∨
    (∃ pa st, peek s c.place.core c.team.comp c.team.level .wr ((trunkAt c + thCompl b) % 2 ^ 57) = .ok pa st) ∧
      (clearCompl c s (trunkAt c) b).isSome = true)

/-- What TSTAT writes (07 R135, log 56). -/
def tstatWord (code pending : Nat) : Word := BitVec.ofNat 32 (code + 256 * min 255 pending)

/-- A TSTAT has written its word to sd, and nothing else but what its reads do (10 R201). -/
def TstatGives (s : State) (c : Ctx) (w : Word) (t : State) : Prop :=
  t = conclude c { s := writeScalar c w (readLines s c.place.core c.team.comp c.team.level true (tstatReads c s)) } ∧
  (∃ u, team? t c.key = some u ∧ u.v = c.team.v ∧ u.p = c.team.p ∧ ∀ d, c.shape.sd.map (·.1) = some d → Team.scalar u d.toNat = w) ∧
  (noMonitor c → ScalarsWritten c [w] t)

end Sys2Proof.Spec

/-- 07 R130, R133 to R135: RESUME and TDISC of a good trunk whose ticket is live complete. RESUME, once what it folds has arrived,
writes the identifier of the crew that it rebuilds. TDISC spends the ticket, which leaves its region's live tickets, ends the
commands that a trunk of this compartment holds, and writes no register. TCOPY, once nothing of the source is pending, takes the next
value of the compartment's generation counter, writes the trunk's image with it and with the address of the new ticket to the
destination, then that ticket live, and adds it to the issuing team's region. The swap of a ticket on this device leaves it spent, a
store of its lines stands at their home, and the ticket of a TCOPY is live there. TSTAT writes the code of the trunk's first failed
check and the header's pending count, and of a good trunk
whether its ticket is live, spent or of another generation, and how many of its operations have not completed. That bits 63 to 57 of a
pair that names a trunk or a ticket are not read, and which pending count TSTAT gives, are the model's choice (log 56). -/
def Obligations.TrunkInstructions : Prop :=
  (∀ x s c b, Ready (.resume x) s c → TrunkGood s c true b → TicketLive s c b → FoldFits s c b →
    ∃ t u, exec (.resume x) s = .next t ∧ team? t c.key = some u ∧
    let r := rebuildCrew c (swapTicket c (readTrunk c s) b).1 (trunkAt c) b
    ∀ d, c.shape.sd.map (·.1) = some d → Team.scalar u d.toNat = ((crew? r.1 r.2).map crewId).getD 0) ∧
  (∀ x s c b r, Ready (.tcopy x) s c → TrunkGood s c false b → CopyFits s c b → region? s c.team.region = some r →
    ∃ t s1 s2 s3 gen r', exec (.tcopy x) s = .next t ∧ s1 = copySource s c b ∧
    (copying s1 c = none → gen = ((comp s c.team.comp).gen + 1) % 2 ^ 62 ∧ (comp t c.team.comp).gen = gen ∧
      storeParts c (nextGen s1 c.team.comp).1
        (partBytes (tcopyDst c) (copyImage (nextGen s1 c.team.comp).1 c.team.comp gen (tcopyTicket c) (trunkBytes c s1))) = (s2, [])) ∧
    (∀ g ls, copying s1 c = some (g, ls) → gen = g ∧ storeParts c s1 ls = (s2, [])) ∧
    copyTicket c s2 gen = some s3 ∧
    region? t c.team.region = some r' ∧ r'.tickets = r.tickets ++ [((pageOf c s3 .wr (tcopyTicket c)).2.1, gen)] ∧
    ∃ u, team? t c.key = some u ∧ u.v = c.team.v ∧ u.p = c.team.p ∧ (noMonitor c → u.s = c.team.s)) ∧
  (∀ x s c b, Ready (.tdisc x) s c → c.team.live ≠ 0 → TrunkGood s c false b → TicketLive s c b →
    ∃ t u, exec (.tdisc x) s = .next t ∧ team? t c.key = some u ∧ u.v = c.team.v ∧ u.p = c.team.p ∧
    (noMonitor c → u.s = c.team.s) ∧
    let w := swapTicket c (readTrunk c s) b
    (∀ k r, region? t k = some r → ∃ q, region? w.1 k = some q ∧ r.tickets =
      if (w.1.regions.find? fun y => y.2.comp = c.team.comp && y.2.tickets.contains (w.2, thGen b)).any fun y => y.1 = k
      then q.tickets.erase (w.2, thGen b) else q.tickets) ∧
    (ownTrunk s c.team.comp b = true → ∀ y ∈ t.copies, crewOf y.team = oldCrew b → y.trunk = none) ∧
    (thOwner b / 16 % 16 ≠ s.coach → t = conclude c { s := spendTicket w.1 c.team.comp w.2 (thGen b) })) ∧
  (∀ s c b pa st, peek s c.place.core c.team.comp c.team.level .rw (thTicket b % 2 ^ 57) = .ok pa st → localClass pa ≠ .none →
    (∀ a, pa ≤ a → a < pa + 8 → rcbOwned s a = false) →
    (swapTicket c s b).2 = pa ∧ homeLe (swapTicket c s b).1 (compKey s c.team.comp) pa 8 = spentTicket (thGen b)) ∧
  (∀ s c va bs pa st, peek s c.place.core c.team.comp c.team.level .wr (va % 2 ^ 57) = .ok pa st → localClass pa ≠ .none →
    (∀ a, pa ≤ a → a < pa + bs.length → rcbOwned s a = false) →
    ∃ t, homePart c s va bs = some t ∧ homeBytes t (compKey s c.team.comp) pa bs.length = bs) ∧
  (∀ s c gen pa st, (∀ p ∈ pageParts (tcopyDst c) (thTotal (trunkBytes c s)), ∃ q st', localClass q ≠ .none ∧
      peek s c.place.core c.team.comp c.team.level .wr (p.1 % 2 ^ 57) = .ok q st') →
    peek s c.place.core c.team.comp c.team.level .wr (tcopyTicket c % 2 ^ 57) = .ok pa st → localClass pa ≠ .none →
    (∀ a, pa ≤ a → a < pa + 8 → rcbOwned s a = false) →
    ∃ t, copyTicket c s gen = some t ∧ homeLe t (compKey s c.team.comp) pa 8 = liveTicket gen) ∧
  (∀ x s c code h, Ready (.tstat x) s c → trunkAt c % 256 = 0 → checkTrunk c s (trunkAt c) = .fails code h →
    ∃ t, exec (.tstat x) s = .next t ∧ TstatGives s c (tstatWord code (thPending h)) t) ∧
  (∀ x s c b v, Ready (.tstat x) s c → trunkAt c % 256 = 0 → checkTrunk c s (trunkAt c) = .ok b → thTicket b % 2 ^ 57 % 8 = 0 →
    readRange c s true (thTicket b % 2 ^ 57) 8 = .bytes v → ∃ t, exec (.tstat x) s = .next t ∧
    TstatGives s c (tstatWord (if Bits.ofLe v / 2 ^ 62 ≠ 1 then 1 else if Bits.ofLe v ≠ liveTicket (thGen b) then 2 else 0)
      (undone b).length) t)

/-! ## The system group (07 R136 to R140) -/

/-- 07 R136, R137, R139, R140, 12 R240: REPLAY retires its identifier and readies what was waiting on it, and does nothing for 0;
TLBI, once the writes that went through them have been performed, drops cached translations; PARK takes its team off its core until a REPLAY of its identifier; HALT stops the compartment
with state 4 and a record; SCALL traps from level 0, after completing, and at level 1 is a request to the Postmaster: service
48 enqueues a message, an unknown one gives 0xFFFFFFFF, another waits for its answer. -/
def Obligations.SystemInstructions : Prop :=
  (∀ x s c, Ready (.replay x) s c → ∃ t, exec (.replay x) s = .next t ∧
    (c.s 0 = 0 → NothingWritten c s t) ∧
    t = conclude c { s := if c.s 0 = 0 then s else replayFid s c.team.comp (c.s 0).toNat }) ∧
  (∀ x s c, Ready (.tlbi x) s c → tlbiGate x c s = .go → ∃ t, exec (.tlbi x) s = .next t ∧
    t = conclude c { s := invalidate (endFlush s c) c.team.comp x.b.toNat (tlbiAt x c) } ∧
    (x.b = 0 → (∀ k, ∀ e ∈ (Sys2Proof.Machine.core t k).tlb, virtualPage c.team.comp (c.pair 0 % 2 ^ 57) e = false) ∧
      ∀ k, ∀ e ∈ (cluster t k).tlb, virtualPage c.team.comp (c.pair 0 % 2 ^ 57) e = false)) ∧
  (∀ x s c, Ready (.park x) s c → undrained s c.key c.team = false → ∃ t u, exec (.park x) s = .next t ∧ team? t c.key = some u ∧
    u.place = none ∧ u.saved = some (.handler (c.s 0).toNat) ∧ u.front = c.team.front ∧ u.v = c.team.v ∧ u.s = c.team.s ∧
    u.p = c.team.p ∧ t.kept = s.kept ∧ (bench t c.place.benchNo).holder = none) ∧
  (∀ x s c, Ready (.halt x) s c → ∃ t, exec (.halt x) s = .next t ∧
    t = conclude c { s := haltComp s c.team.comp (c.s 0).toNat } ∧ (comp t c.team.comp).desc.state = 4) ∧
  (∀ x s c, Ready (.scall x) s c → c.team.level = 0 → ∃ u, NothingWritten c s u ∧
    exec (.scall x) s =
      .next (takeTrap u c.key { cause := 0xF, tpc := c.cur.pc, kval := x.b.toNat, service := true, replay := queueLeft c })) ∧
  (∀ x s c, Ready (.scall x) s c → c.team.level = 1 → scallGate c s = .go → ∃ t, exec (.scall x) s = .next t ∧
    t = conclude c (scallEffect x.b.toNat c s) ∧
    (x.b ≠ 48 → Tab.getD s.services x.b.toNat 0 = 0 → ∃ u, team? t c.key = some u ∧ Team.scalar u 0 = 0xFFFFFFFF) ∧
    (x.b ≠ 48 → Tab.getD s.services x.b.toNat 0 ≠ 0 → WaitsHere c (.service x.b.toNat) t))

/-- 12 R242, 07 R138: a HARVEST of 1 to 4,096 pages that passes its checks writes the number of the pages whose leaf descriptor held the
dirty bit when its step cleared it, as it found them before it waited for the stores through their translations; of one page
it writes whether its leaf does. The count in sd, and that a count of 0 or above 4,096 is ILLEGAL, are R138's. -/
def Obligations.HarvestCountsDirtyPages : Prop :=
  (∀ x s c, Ready (.harvest x) s c → harvestGate c s = .go → ∃ t u, exec (.harvest x) s = .next t ∧ team? t c.key = some u ∧
    ∀ d, c.shape.sd.map (·.1) = some d → Team.scalar u d.toNat = BitVec.ofNat 32
      ((match flushing? s c with
        | some f => f.dirty
        | none => (harvestPages s c.team.level c.team.comp (harvestBase c) (harvestCount c)).2.2).filter id).length) ∧
  (∀ s level comp' a, ((harvestPages s level comp' a 1).2.2.filter id).length =
    if (harvestLeaf s level comp' a).any (·.dirty) then 1 else 0) ∧
  (∀ x s c, Ready (.harvest x) s c → (c.s 4 = 0 ∨ 4096 < (c.s 4).toNat) →
    exec (.harvest x) s = .next (trapHead c { cause := 1 } c.act s))

namespace Sys2Proof.Spec

/-- Lane l is listed first by entry i of a frame's frontier, and lives. -/
def frameLane (c : Ctx) (v : FrameView) (i l : Nat) (e : Entry) (waits : Bool) : Prop :=
  l < 32 ∧ v.front[i]? = some (e, waits) ∧ e.mask.getLsbD l = true ∧ c.team.live.getLsbD l = true ∧
    ∀ j x, j < i → v.front[j]? = some x → x.1.mask.getLsbD l = false

/-- A return from the frame that `v` is the view of (15 R281 steps 2 to 4): the registers of the team are the frame's, and its vector
registers are not; a lane of an entry that did not wait stands at its PC with its priority, and one of an entry that waits on a
condition that has not come waits on it. -/
def Returned (c : Ctx) (v : FrameView) (drop : Bool) (t : State) : Prop :=
  ∃ u, team? t c.key = some u ∧ u.level = min v.level 1 ∧ u.guardMask = BitVec.ofNat 32 v.gmask ∧ u.guardLeft = v.gcount ∧
    (u.replayQ.map fun e => { e with run := false }) = ((if drop then v.replay.drop 1 else v.replay).map fun e => { e with run := false }) ∧ u.v = c.team.v ∧ u.live = c.team.live ∧
    (∀ k, k < 12 → Team.pred u k = BitVec.ofNat 32 (v.pregs.getD k 0)) ∧
    (c.team.held = [] → ∀ r, r < 64 → Team.scalar u r = BitVec.ofNat 32 (v.sregs.getD r 0)) ∧
    (∀ k, k < 4 → Team.mask u k = BitVec.ofNat 32 (v.mregs.getD k 0) ∨
      Team.mask u k = 0 ∧ ∃ h ∈ c.team.held, h.entry.wait = some (.join k)) ∧
    (∀ i l e, frameLane c v i l e false → LaneIs t c.key l fun y => y.pc = e.pc ∧ y.prio = e.prio ∧ y.wait = none) ∧
    (∀ i l e h w, frameLane c v i l e true → (c.team.held.find? fun h => h.frame = c.team.frameBase && h.idx = i) = some h →
      h.result = none → h.entry.wait = some w → (∀ k, w ≠ .join k) →
      LaneIs t c.key l fun y => y.pc = e.pc ∧ y.prio = e.prio ∧ y.wait = some w) ∧
    ∀ l, l < 32 → c.team.live.getLsbD l = false → u.deadPc.find? (fun d => d.1 = l) = some (l, v.lpc.getD l 0, 0)

/-- VALID of the frame at its home, and NREPLAY where entry 0 has been dropped (15 R281 steps 3 and 4). -/
def FrameCleared (c : Ctx) (s1 : State) (v : FrameView) (drop : Bool) (t : State) : Prop :=
  ∀ s2 pa, devicePa s1 c.team.comp .wr c.team.frameBase = (s2, some pa) → pa % 64 = 0 → rcbOwned s2 pa = false →
    homeByte t (compKey s2 c.team.comp) pa = 0 ∧
    (drop = true → v.nreplay ≠ 0 → rcbOwned s2 (pa + 3) = false →
      homeByte t (compKey s2 c.team.comp) (pa + 3) = BitVec.ofNat 8 (v.nreplay - 1))

/-- A frame that a return refuses (15 R281 step 1). -/
def frameRefused (c : Ctx) (v : FrameView) : Prop :=
  v.valid ≠ 1 ∨ 24 < v.nreplay ∨ v.nfront = 0 ∨ 32 < v.nfront ∨ (∃ e ∈ v.replay, isHint e.word = true) ∨
    ∃ i e, v.front[i]? = some (e, true) ∧ ∀ h ∈ c.team.held, h.frame = c.team.frameBase → h.idx ≠ i

end Sys2Proof.Spec

/-- 15 R281, R282: RTR and RTS go back to what the frame holds: level, predicates, scalars, rejoin masks, the guarded span and the
frontier, with the PCs of the lanes that have exited, and clear VALID; the
replay entries are still to be performed, for RTS without the first. A frame that is not valid, that holds more than 24
replay entries or no frontier, a hint word to be replayed, or an entry that waits on nothing that is held, is refused by either; one
that cannot be read is a HANDLER_FETCH. That LEVEL is the lesser of the field and 1, and that FRONT gives a live lane's PC and LPC a dead
lane's, are the model's choices (logs 62, 92). -/
def Obligations.ReturnsRestoreTheFrame : Prop :=
  (∀ x s c s1 v, Ready (.rtr x) s c → returnGate c s = .go →
    readFrame s c.place.core c.team.comp c.team.frameBase = (s1, some v) →
    ∃ t, exec (.rtr x) s = .next t ∧ Returned c v false t ∧ FrameCleared c s1 v false t) ∧
  (∀ x s c s1 v, Ready (.rts x) s c → returnGate c s = .go →
    readFrame s c.place.core c.team.comp c.team.frameBase = (s1, some v) →
    ∃ t, exec (.rts x) s = .next t ∧ Returned c v true t ∧ FrameCleared c s1 v true t) ∧
  (∀ i x, i = .rtr x ∨ i = .rts x → ∀ s c s1, Ready i s c → rangePending s c.key c.team.frameBase 51200 = false →
    (∀ v, readFrame s c.place.core c.team.comp c.team.frameBase = (s1, some v) → frameRefused c v →
      exec i s = .next (trapHead c { cause := 1 } c.act s)) ∧
    (readFrame s c.place.core c.team.comp c.team.frameBase = (s1, none) →
      exec i s = .next (trapHead c { cause := 0x1A } c.act s)))

/-! ## Hint words (03 R36, R47, R48, 01 R8) -/

namespace Sys2Proof.Spec

/-- The hint words. -/
def isHintInstr : Instr → Bool
  | .himm _ | .hgrd _ | .hprio _ | .hrnd _ | .hscp _ | .hrlx _ | .hyld _ | .hreuse _ | .hsig _ | .hlat _ => true
  | _ => false

end Sys2Proof.Spec

/-- 01 R8, 03 R36, R47: a hint word joins the run of the issue that it is read in, which goes on with the next word; nothing else
changes, and what the run asks for is read from all of its words. -/
def Obligations.HintsJoinTheRun : Prop :=
  (∀ i, isHintInstr i = true → ∀ s u, s.cur = some u → exec i s =
    .next { s with cur := some { u with run := u.run ++ [(u.pc, u.word)], pc := (u.pc + 4) % 2 ^ 57 } }) ∧
  (∀ run pc w, Bits.fld w 26 6 = 0x3F →
    (w.getLsbD 25 = true → (hintsOf (run ++ [(pc, w)])).himm = some (Bits.fld w 0 25)) ∧
    (w.getLsbD 25 = false → Bits.fld w 21 4 = 1 → (hintsOf (run ++ [(pc, w)])).hprio = some (Bits.fld w 13 8)) ∧
    (w.getLsbD 25 = false → Bits.fld w 21 4 = 2 → (hintsOf (run ++ [(pc, w)])).hrnd = some (Bits.fld w 18 3)) ∧
    (w.getLsbD 25 = false → Bits.fld w 21 4 = 3 → (hintsOf (run ++ [(pc, w)])).hscp = some (Bits.fld w 18 3)) ∧
    (w.getLsbD 25 = false → Bits.fld w 21 4 = 4 → (hintsOf (run ++ [(pc, w)])).hrlx = true) ∧
    (w.getLsbD 25 = false → Bits.fld w 21 4 = 5 → (hintsOf (run ++ [(pc, w)])).hyld = true) ∧
    (w.getLsbD 25 = false → Bits.fld w 21 4 = 7 → (hintsOf (run ++ [(pc, w)])).hsig = some (Bits.fld w 15 6)))

/-! ## The checks before an instruction (03 R48, R54) -/

/-- 03 R45, R48, R49, R54, 02 R18, R31: the checks run in their order and the first that fails decides the trap, which leaves the
instruction unperformed: a hint of its run, then an instruction that a guarded span does not admit, fields and operands, the
level, the seventeenth instruction of a chain, an invalid latch. An HGRD inside an active span fails the run. The lanes of a branch or a
transfer that traps stand where they would be had it completed (15 R277), the others at the next word. That the span checked is the
team's one, whichever entry issues, is the model's choice (log 76), as is the place of R49's HINTs in the order (log 91). -/
def Obligations.FailedChecksTrap : Prop :=
  (∀ i s c, context i.shape s = some c → i.shape.maj ≠ 0 → i.shape.maj ≠ 0x3F →
    (∀ n, checks (privOf i) c s = .trap n → ∃ es, exec i s = .next (trapHead c { cause := n } c.act s es) ∧
      (i.shape.maj ≠ 0x1A → i.shape.maj ≠ 0x1B → es = [c.goTo c.nextPc c.cur.mask])) ∧
    (∀ pc ill, checks (privOf i) c s = .run pc ill → ∃ es, exec i s = .next (trapRun c pc ill s es) ∧
      (i.shape.maj ≠ 0x1A → i.shape.maj ≠ 0x1B → es = [c.goTo c.nextPc c.cur.mask]))) ∧
  (∀ p c s pc ill, runFault (hintFits c.shape) c.cur.run = some (pc, ill) → checks p c s = .run pc ill) ∧
  (∀ p c s w, runFault (hintFits c.shape) c.cur.run = none → c.hints.hgrd = some w → c.team.guardLeft ≠ 0 → c.cur.replay = none →
    ∃ pc, checks p c s = .run pc false) ∧
  (∀ p c s, runFault (hintFits c.shape) c.cur.run = none → (c.hints.hgrd = none ∨ c.team.guardLeft = 0 ∨ c.cur.replay.all (·.run) = false) →
    (spanFault c = true → checks p c s = .trap 5) ∧
    (spanFault c = false →
      ((c.shape.r53Ok = false ∨ c.shape.step3Ok = false ∨ allocated c.team c.shape = false) → checks p c s = .trap 1) ∧
      (c.shape.r53Ok = true → c.shape.step3Ok = true → allocated c.team c.shape = true →
        (∀ n, p c s = some n → checks p c s = .trap n) ∧
        (p c s = none →
          (16 ≤ c.team.chain → c.shape.c = true → checks p c s = .trap 4) ∧
          ((c.team.chain < 16 ∨ c.shape.c = false) → inFlight s c.key < 24 → reserved s c.key c.shape = false →
            (c.shape.parks = false ∨ parkBlocked s c.key = false) →
            (latchInvalid s c = true → checks p c s = .trap 3) ∧ (latchInvalid s c = false → checks p c s = .ok)))))) ∧
  (∀ c, c.cur.replay = none → spanFault c = (c.team.guardLeft ≠ 0 && !guardable c.shape.maj)) ∧
  (∀ c s, privCheck c s = if c.team.level < c.shape.level then some 2 else none)

/-- 02 R13, R16, R17, 03 R38, R49, 15 R280: at its issue an instruction captures its operands: the lanes of a register or of a
latch, zeros for code 124, and the scalars in field order; one that parks and waits first keeps what it captured (07 R124). It is performed for the lanes that issue it and that its guarded
span admits; a span begins with the instruction that HGRD is bound to. That a team's one mask and count hold for whichever of its entries
issues is the model's choice (log 76). -/
def Obligations.OperandsAtIssue : Prop :=
  ∀ (i : Instr) s c, context i.shape s = some c → c.cur.replay = none → parked? c.team c.cur = none →
    c.carry = (c.team.carryv, c.team.carrys) ∧
    (∀ o ∈ i.shape.vs, ∀ j l, j < o.n → l < 32 → c.v o.slot j l =
      if o.code.toNat = 124 ∨ o.code.toNat + j = 124 then {}
      else if 120 ≤ o.code.toNat + j then (latch (bench s c.place.benchNo) (o.code.toNat + j - 120)).lanes.getD l {}
      else Team.reg c.team (o.code.toNat + j) l) ∧
    c.cap.s = (i.shape.ss.flatMap fun o => (List.range o.2).map fun j => Team.scalar c.team (o.1.toNat + j)) ∧
    team? s c.key = some c.team ∧ c.team.place = some c.place ∧
    (c.hints.hgrd = none → c.team.guardLeft = 0 → c.act = c.cur.mask) ∧
    (c.team.guardLeft ≠ 0 → c.act = c.cur.mask &&& c.team.guardMask) ∧
    (∀ w, c.hints.hgrd = some w → c.team.guardLeft = 0 → c.gleft = Bits.fld w 13 3 + 1 ∧
      c.act = c.cur.mask &&& (if w.getLsbD 16 then ~~~(Team.pred c.team (Bits.fld w 17 4)) else Team.pred c.team (Bits.fld w 17 4)))

/-- 05 R77 to R80, 04 R63: the word functions of the integer instructions, and rounding of a quotient by a power of two. -/
def Obligations.WordFunctions : Prop :=
  (∀ a b : Word, mulhI a b = BitVec.ofInt 32 (a.toInt * b.toInt / 2 ^ 32) ∧ mulhN a b = BitVec.ofNat 32 (a.toNat * b.toNat / 2 ^ 32) ∧
    absDiffI a b = BitVec.ofInt 32 (max (a.toInt - b.toInt) (b.toInt - a.toInt)) ∧
    absDiffN a b = BitVec.ofNat 32 (max a.toNat b.toNat - min a.toNat b.toNat)) ∧
  (∀ a b : Word, let n := b.toNat % 256
    shlW a b = BitVec.ofNat 32 (a.toNat * 2 ^ n) ∧ shrW a b = BitVec.ofNat 32 (a.toNat / 2 ^ n) ∧
    sarW a b = BitVec.ofInt 32 (a.toInt / 2 ^ n)) ∧
  (∀ a b d : Word,
    let p := b.toNat % 32
    let w := min (min (b.toNat / 256 % 64) 32) (32 - p)
    (∀ k, k < 32 → (bfxNW a b).getLsbD k = (decide (k < w) && a.getLsbD (p + k))) ∧
    (0 < w → ∀ k, k < 32 → (bfxIW a b).getLsbD k = a.getLsbD (p + min k (w - 1))) ∧ (w = 0 → bfxIW a b = 0) ∧
    ∀ k, k < 32 → (bfiW a b d).getLsbD k = if p ≤ k ∧ k < p + w then a.getLsbD (k - p) else d.getLsbD k) ∧
  (∀ a b d : Word, ∀ k j, k < 4 → j < 8 →
    let at' (m : Nat) : Bool := (d ++ a).getLsbD (8 * (b.toNat / 2 ^ (3 * k) % 8) + m)
    (prmbW a b d).getLsbD (8 * k + j) = match b.toNat / 2 ^ (12 + 2 * k) % 4 with
      | 0 => at' j
      | 1 => false
      | 2 => true
      | _ => at' 7) ∧
  (∀ a : Word, (∀ k, k < 32 → (brevW a).getLsbD k = a.getLsbD (31 - k)) ∧
    (popcW a).toNat = ((List.range 32).filter fun k => a.getLsbD k).length ∧
    (∀ k, k < 32 → 32 ≤ k + (clzW a).toNat → a.getLsbD k = false) ∧
    (a ≠ 0 → (clzW a).toNat < 32 ∧ a.getLsbD (31 - (clzW a).toNat) = true) ∧ (a = 0 → (clzW a).toNat = 32)) ∧
  (∀ neg m k, 0 < k →
    (roundShift 1 neg m k).1 = m / 2 ^ k ∧
    (roundShift 2 neg m k).1 = (if neg || m % 2 ^ k = 0 then m / 2 ^ k else m / 2 ^ k + 1) ∧
    (roundShift 3 neg m k).1 = (if neg && m % 2 ^ k ≠ 0 then m / 2 ^ k + 1 else m / 2 ^ k) ∧
    (roundShift 4 neg m k).1 = (m + 2 ^ (k - 1)) / 2 ^ k ∧
    (roundShift 0 neg m k).1 = (if m % 2 ^ k = 2 ^ (k - 1) ∧ m / 2 ^ k % 2 = 0 then m / 2 ^ k else (m + 2 ^ (k - 1)) / 2 ^ k) ∧
    ∀ mode, (roundShift mode neg m k).2 = (m % 2 ^ k ≠ 0))

/-! ## Traps (15 R277 to R282) -/

namespace Sys2Proof.Spec

/-- The fields at the head of a frame (15 R279): offset, size and value. -/
def headOf (t : Team) (i : TrapInfo) : List (Nat × Nat × Nat) :=
  [(0, 1, 1), (1, 1, i.cause), (2, 1, t.level), (3, 1, i.replay.length), (4, 4, t.guardMask.toNat), (8, 1, t.guardLeft),
    (0xA, 1, i.kval), (0x14, 4, i.flane), (0x18, 8, i.faddr), (0x20, 8, i.tpc), (0x28, 4, i.handle)]

/-- The parts of a frame lie in places of memory of their own. -/
def apart (l : List (Nat × Nat × Nat)) : Prop := l.Pairwise fun x y => x.2.2 + x.2.1 ≤ y.2.2 ∨ y.2.2 + y.2.1 ≤ x.2.2

end Sys2Proof.Spec

/-- 15 R277, R279, R282: a trap of a placed team saves its frame at FRAMEBASE and enters the handler at level 1: every live lane
stands at TRAPVEC with block priority 255, the guarded span, the chain and the replay queue are empty, and the latches are
invalid; vector registers stay. A trap while the frame is valid, in a root region, halts the compartment. -/
def Obligations.TrapEntry : Prop :=
  (∀ s key i t p s1 x l, team? s key = some t → t.place = some p → frameValid s p.core t.comp t.frameBase = false →
    partPas s t.comp .rw (pageParts t.frameBase (frameSize + 2048 * i.replay.length)) = (s1, some (x :: l)) →
    viewFails s1 p.core [(t.frameBase, 4, pasFind (x :: l) t.frameBase)] = false →
    ∃ u, team? (deliverTrap s key i) key = some u ∧ u.level = 1 ∧ u.v = t.v ∧ u.p = t.p ∧ u.m = t.m ∧ u.live = t.live ∧
      u.guardMask = 0 ∧ u.guardLeft = 0 ∧ u.chain = 0 ∧ u.replayQ = [] ∧ u.frameBase = t.frameBase ∧
      (∀ k, k < 32 → t.live.getLsbD k = true → LaneIs (deliverTrap s key i) key k fun e =>
        e.pc = handlerPc t.trapVec ∧ e.prio = 255 ∧ e.wait = none) ∧
      (∀ k, (latch (bench (deliverTrap s key i) p.benchNo) k).valid = false) ∧
      (t.frameBase % 2048 = 0 → apart (x :: l) →
        (∀ f ∈ frameFields t i, f.off + f.size ≤ frameSize + 2048 * i.replay.length) → i.ivec.length ≤ 8 →
        ∀ f ∈ headOf t i, memLe (deliverTrap s key i).mem (x.2.2 + f.1) f.2.1 = f.2.2 % 256 ^ f.2.1)) ∧
  (∀ s key i t p r, team? s key = some t → t.place = some p → frameValid s p.core t.comp t.frameBase = true →
    region? s (handlerRegion t) = some r → r.parent = 0 →
    (comp (deliverTrap s key i) t.comp).desc.state = 4)

/-! ## The events of the device (95) -/

namespace Sys2Proof.Spec

/-- When each event can happen, and what it does. -/
def eventOf : Instr → Option ((State → Bool) × (State → State))
  | .stintStart bench' team => some (fun s => stintDue s bench' team,
    fun s =>
      setBench s bench' (voidLatches { bench s bench' with holder := some team, slots := 0 }))
  | .instructionFetch team pc => some (fun s => (fetching? s team pc).isSome,
    fun s =>
      match fetching? s team pc with
      | some u => fetchEnds s u
      | none => s)
  | .trapDelivery team => some (fun s => deliverable s team, fun s => deliverDue s team)
  | .teamEviction team => some (fun s => evictable s team, fun s => evict s team)
  | .crewPlacement crew => some (fun s => (placeCrew? s crew).isSome, fun s => (placeCrew? s crew).getD s)
  | .binTimerExpiry core' bin => some (fun s => (Sys2Proof.Machine.core s core').bins[bin]?.any (binDue s core'),
    fun s =>
      match (Sys2Proof.Machine.core s core').bins[bin]? with
      | some b => launchBins s core' fun x => x = b
      | none => s)
  | .crewMigration crew core' => some (fun s => (migrated s crew core').isSome, fun s => (migrated s crew core').getD s)
  | .steeringInterval comp' => some (fun s => steerDue s comp',
    fun s =>
      let s := { s with steerAt := Tab.put s.steerAt comp' s.time }
      match steerPair s comp' with
      | some (a, b) =>
        let fa := (Sys2Proof.Machine.core s a).mhz
        let fb := (Sys2Proof.Machine.core s b).mhz
        if 1825 ≤ fa && fb ≤ 2375 then setMhz (setMhz s a (fa - 25)) b (fb + 25) else s
      | none => s)
  | .stopRequest comp' sliceEnd => some (fun s => stoppable s comp' && sliceEnd ≤ usec s + drainOf s comp', fun s => stopComp s comp' sliceEnd false)
  | .graceExpiry team => some (fun s => graceDue s team, fun s => forceTeam s team)
  | .deferralExpiry crew => some (fun s => deferDue s crew,
    fun s =>
      let s := ((crewTeams s crew).filter fun k => (team? s k).any uncaptured).foldl forceTeam s
      onCrew s crew fun c => { c with deferUntil := none })
  | .saveReport comp' => some (fun s => saveDue s comp', fun s => reportSave s comp')
  | .tenantSwitch outgoing incoming => some (fun s => (comp s outgoing).desc.state = 3 && outgoing ≠ incoming,
    fun s =>
      let s := ((compCores s outgoing).filter fun k => (compCores s incoming).contains k).foldl (fun s k =>
        let mine (w : Nat) : Bool := (Tab.get? (Sys2Proof.Machine.core s k).l1 w).any fun x => x.comp = outgoing
        dropWords s k mine) s
      (compCrews s outgoing).foldl (fun s ck => spillCrew s outgoing ck) s)
  | .queueBounce req => some (fun s => bounces s req, fun s => bounceHead s req)
  | .bounceArrival req => some (fun s => (req? s req).any fun r => r.stage = .flight,
    fun s =>
      match req? s req with
      | some r => enterPannier s r
      | none => s)
  | .reissueBackoffExpiry req => some (fun s => backoffOver s req, fun s => nowReady s req)
  | .pannierReissue req => some (fun s => (req? s req).any (reissues s) || (mat? s req).any (matReissues s) || (copy? s req).any (copyReissues s),
    fun s => reissue s req)
  | .translationWalk req => some (fun s => (req? s req).any waitsInQueue, fun s => advanceReq s req .clean)
  | .memoryRequestPerformed req ecc => some (fun s => (eccElsewhere s ecc).isSome || (req? s req).any waitsInQueue,
    fun s =>
      match eccElsewhere s ecc with
      | some s' => s'
      | none => advanceReq s req ecc)
  | .faultRecordRetry comp' region => some (fun s => retryDue s comp' region,
    fun s =>
      faultFlush (onRegion s region fun r => { r with retryAt := none }) comp' region)
  | .ownershipRegistration core' word => some (fun s => s.registering.contains (core', word), fun s => registerWord s core' word)
  | .writeBack core' line => some (fun s => dirtyIn s core' line, fun s => writeLineBack s core' line)
  | .writebackTimeLimit core' line => some (fun s => lineDue s core' line, fun s => writeLineBack s core' line)
  | .waitcTimeout team pc => some (fun s => waitsAt s team pc (waitcOver (teamClk s team)),
    fun s =>
      dropPolls (onTeam s team (wakeTeam fun w => if (waitcOver (teamClk s team)) w then some (some 1) else none)) team)
  | .sleepExpiry team pc => some (fun s => waitsAt s team pc (sleepOver (teamClk s team)),
    fun s => onTeam s team (wakeTeam fun w => if (sleepOver (teamClk s team)) w then some none else none))
  | .promwDeadline team pc => some (fun s => waitsAt s team pc (promwOver (teamClk s team)),
    fun s => onTeam s team (wakeTeam fun w => if (promwOver (teamClk s team)) w then some (some 3) else none))
  | .matrixGrant cluster' => some (fun s => (grantMat s cluster').isSome, fun s => (grantMat s cluster').getD s)
  | .matrixCompletion cluster' => some (fun s => (matOver s cluster').isSome,
    fun s =>
      match matOver s cluster' with
      | some m => finishMats s [m]
      | none => s)
  | .fourInHandGrant hitch comp' opid => some (fun s => (setJoined s hitch comp' opid).length = 4,
    fun s => startSet s (setJoined s hitch comp' opid))
  | .fourInHandCompletion hitch => some (fun s => (setRunning s hitch).length = 4 && (setRunning s hitch).all fun m => m.stage.over s.time,
    fun s => finishMats s (setRunning s hitch))
  | .harnessError hitch => some (fun s => setRunning s hitch ≠ [], fun s => loseTile s (setRunning s hitch))
  | .copyAccept cmd => some (fun s => (copy? s cmd).any (acceptable s),
    fun s =>
      match copy? s cmd with
      | some x => replyCopy s (acceptCopy s x)
      | none => s)
  | .copyStart cmd => some (fun s => (copy? s cmd).any (starts s),
    fun s =>
      match copy? s cmd with
      | some x => startCopy s x
      | none => s)
  | .copyCompletion cmd => some (fun s => (copy? s cmd).any fun x => x.stage.isRunning,
    fun s =>
      match copy? s cmd with
      | some x => completeCopy s x
      | none => s)
  | .copyFault cmd => some (fun s => (copy? s cmd).any fun x => x.stage.isRunning,
    fun s =>
      match copy? s cmd with
      | some x => stopCopy s x
      | none => s)
  | .claimAnnouncement core' a => some (fun s => onPlane s (.claimAnnouncement core' a) || (((a.fromCoach ≠ s.coach) : Bool) && s.trainEn),
    fun s => (fun s => hearAnnouncement s core' a) (takePlane s (.claimAnnouncement core' a)))
  | .objectionArrival core' o => some (fun s => onPlane s (.objectionArrival core' o) || (((o.unheard || 2 ^ 40 ≤ o.team) : Bool) && s.trainEn),
    fun s => (fun s => hearObjection s core' o) (takePlane s (.objectionArrival core' o)))
  | .objectionAnswer team proposal late => some (fun s => onPlane s (.objectionAnswer team proposal late) || (((true) : Bool) && s.trainEn),
    fun s => (fun s => hearAnswer s team proposal late) (takePlane s (.objectionAnswer team proposal late)))
  | .claimWindowClose core' handle => some (fun s => (windowDue s core' handle).isSome,
    fun s =>
      match windowDue s core' handle with
      | some p => closeWindow s core' handle p
      | none => s)
  | .membershipUpdate comp' u => some (fun s => memberPending s comp' u || (s.trainEn && 2 ^ 40 ≤ u.team),
    fun s =>
      if u.effective || (u.team < 2 ^ 40 && groupQuiet s comp' u.group) then memberChange s comp' u
      else pendMember s comp' u)
  | .ticketPoll comp' region => some (fun s => pollDue s comp' region, fun s => pollTickets s comp' region)
  | .traincfg v => some (fun s => s.powered, fun s => writeTrain s v.toNat)
  | .linkcfg link v => some (fun s => s.powered, fun s => writeLinkcfg s link v.toNat)
  | .bound deck kind v => some (fun s => s.powered && deck < 2 && kind < 8 && v.toNat < 2 ^ 13,
    fun s =>
      { s with bounds := Tab.put s.bounds (8 * deck + kind) (max 64 (min 4096 v.toNat)) })
  | .engerr cluster' v => some (fun s => s.powered && cluster' < 16 && v.toNat < 16,
    fun s => clearEngerr s cluster' v.toNat)
  | .linkDown link => some (fun s => linkUp s link, fun s => takeDown s link)
  | .linkUp link' => some (fun s => trainLink s link' && !linkUp s link',
    fun s =>
      reroute (setLink s link' { link s link' with
        up := true, txSeq := 0, rxSeq := 0, buffer := [], resends := 0, asked := none, unreturned := [], owedCr := [],
        retrainAt := none }))
  | .linkRetrain link' => some (fun s => s.trainEn && retrainDue s link',
    fun s =>
      setLink s link' { link s link' with retrainAt := some (s.time + retrainTime) })
  | .retryRequest link lseq => some (fun s => linkUp s link, fun s => resend s link lseq)
  | .postedWrite m => some (fun s => s.trainEn, fun s => hearWrite s m none)
  | .readRequest m => some (fun s => s.trainEn, fun s => hearRead s m none)
  | .streamRetire stream coach => some (fun s => s.trainEn, fun s => hearRetire s stream coach)
  | .acknowledgement stream coach below => some (fun s => s.trainEn, fun s => hearAck s stream coach below)
  | .refusal stream coach what reason => some (fun s => s.trainEn, fun s => hearRefusal s stream coach what reason)
  | .unreachable coach => some (fun s => unreachableDue s coach, fun s => declareUnreachable s coach)
  | .streamIdleExpiry stream => some (fun s => s.streams.any fun x => x.team = streamTeam stream && retireDue s x,
    fun s => retireStream s stream)
  | .flit link f => some (fun s => linkUp s link && link < 15, fun s => hearFlit s link f)
  | .doorbell comp' tail => some (fun s => vfServes s comp', fun s => ringDoorbell s comp' tail.toNat)
  | .launchRecord comp' => some (fun s => launchDue s comp', fun s => consumeRecord s comp')
  | .messageLaunch comp' => some (fun s => messageDue s comp', fun s => launchMessage s comp')
  | .scallServiceReturn team r => some (fun s => (team? s team).any fun t => waitsOn Wait.isService t,
    fun s => serviceReturn s team r)
  | .hostBar2Access comp' a => some (fun _ => comp' < 16, fun s => bar2Access s comp' a)
  | .heqcons v => some (fun s => s.powered, fun s => writeHeqcons s v.toNat)
  | .create comp' d => some (fun s => opReady s comp', fun s => createComp s comp' d)
  | .start comp' => some (fun s => opReady s comp', fun s => startComp s comp')
  | .stop comp' => some (fun s => opReady s comp', fun s => stopOp s comp')
  | .resize comp' clusters => some (fun s => opReady s comp', fun s => resizeComp s comp' clusters)
  | .resetCompletion comp' => some (fun s => (comp s comp').resetting.isSome, fun s => endReset s comp')
  | .flr comp' => some (fun s => created s comp', fun s => beginReset s comp' 1 false)
  | .destroy comp' => some (fun s => s.powered && comp' < 16 && ((comp s comp').desc.op = 0 || (comp s comp').desc.state = 5),
    fun s => destroyComp s comp')
  | .getVersion m => some (fun s => s.powered, fun s => spdmReply (onSce s fun x => { x with phase := 1 }) 0x84 0 0 m.body)
  | .getCapabilities m => some (fun s => s.powered,
    fromPhase 1 fun s => spdmReply (onSce s fun x => { x with phase := max x.phase 2 }) 0xE1 0 0 m.body)
  | .negotiateAlgorithms m => some (fun s => s.powered,
    fromPhase 2 fun s =>
      match negotiated m with
      | some set => spdmReply (onSce s fun x => { x with phase := 3, aead := if set.testBit 1 then 1 else 3 }) 0xE3 0 0 m.body
      | none => spdmError s 7 0xE3)
  | .getDigests m => some (fun s => s.powered,
    fromPhase 3 fun s =>
      spdmReply s 0x81 0 3 (Config.sm3 (Config.certificate 0) ++ Config.sm3 (Config.certificate 1) ++ m.body))
  | .getCertificate m => some (fun s => s.powered,
    fromPhase 3 (withSlot m fun s => spdmReply s 0x82 m.slot 0 (Config.certificate m.slot ++ m.body)))
  | .challenge m => some (fun s => s.powered,
    fromPhase 3 (withSlot m fun s =>
      let (s, b) := signed s (Config.sm3 (Config.certificate m.slot) ++ m.body)
      spdmReply s 0x83 m.slot 3 b))
  | .getMeasurements m => some (fun s => s.powered,
    fromPhase 3 fun s =>
      if m.p2 ≠ 0 && m.p2 ≠ 0xFF && measurements s m.p2 = [] then spdmError s 1 0
      else
        let b := measurements s m.p2
        if m.p1 % 2 = 1 then
          let (s, b) := signed s b
          spdmReply s 0xE0 (if m.p2 = 0 then blockCount s else 0) m.slot b
        else spdmReply s 0xE0 (if m.p2 = 0 then blockCount s else 0) m.slot b)
  | .keyExchange m => some (fun s => s.powered,
    fromPhase 3 (withSlot m fun s =>
      let id := newSession s m
      let (s, b) := signed s (Config.ephemeral s.sce.nonce ++ m.body)
      spdmReply (onSce s fun x => { x with sessions := x.sessions ++ [⟨id, false, 0, 0⟩] }) 0xE4 m.slot 0 b))
  | .finish m => some (fun s => s.powered,
    inSession m.session false fun s =>
      if Config.finishOk m.session m.body then spdmReply (onSession s m.session fun x => { x with finished := true }) 0xE5 0 0 m.body
      else spdmError s 6 0)
  | .heartbeat m => some (fun s => s.powered,
    inSession m.session true fun s =>
      spdmReply (onSession s m.session fun x => { x with heartbeat := x.heartbeat + 1 }) 0xE8 0 0 m.body)
  | .keyUpdate m => some (fun s => s.powered,
    inSession m.session true fun s =>
      spdmReply (onSession s m.session fun x => { x with keyUpdates := x.keyUpdates + 1 }) 0xE9 m.p1 m.p2 m.body)
  | .endSession m => some (fun s => s.powered,
    inSession m.session false fun s => spdmReply (dropSession s m.session) 0xEC 0 0 m.body)
  | .vendorDefinedRequest m => some (fun s => s.powered, fromPhase 3 fun s => spdmReply s 0xFE 0 0 (Config.vendorReply m.body))
  | .lockInterfaceRequest comp' session => some (fun s => s.powered && comp' < 16 && s.sce.sessions.any fun x => x.id = session && x.finished,
    fun s => lockInterface s comp' session)
  | .startInterfaceRequest comp' session => some (fun s => s.powered && comp' < 16 && s.sce.sessions.any fun x => x.id = session && x.finished,
    fun s => startInterface s comp' session)
  | .stopInterfaceRequest comp' session => some (fun s => s.powered && comp' < 16 && s.sce.sessions.any fun x => x.id = session && x.finished,
    fun s => stopInterface s comp' session)
  | .getDeviceInterfaceReport comp' session => some (fun s => s.powered && comp' < 16 && s.sce.sessions.any fun x => x.id = session && x.finished,
    fun s => reportInterface s comp')
  | .ideIntegrityFailure comp' => some (fun s => frozen s comp', fun s => tdiError s comp')
  | .powerLimit deck cores => some (fun s => s.powered && deck < 2, fun s => limitPower s deck cores)
  | .thermalTrip => some (fun s => s.powered, tripThermal)
  | .powerOn => some (fun s => !s.powered, bringUp)
  | .remoteLoadReply tag st data => some (fun _ => true, fun s => hearReply s tag st data)
  | .registerWrite t v => some (fun s => s.powered, fun s => writeReg s v.toNat t)
  | .policyObject comp' obj => some (fun s => created s comp' && (comp s comp').desc.state ≠ 5, fun s => takePolicy s comp' obj)
  | _ => none

end Sys2Proof.Spec

/-- An event of the device that can happen does, and one that cannot leaves everything as it is (the model's reading of such an
event, log 17). -/
def Obligations.EventsHappen : Prop :=
  ∀ e can does, eventOf e = some (can, does) → ∀ s, ∃ t, exec e s = .next t ∧
    t = if can s then happen (does s) else s

/-- 07 R127, 08 R162, R165: an entry that waits at SLEEP, at PROMW or at WAITC goes on at the next word once its time has come,
for the last two only after that cycle (a completion in it wins), a PROMW with status 3 and a WAITC with status 1, in a team that lives
and whose cycles are counted: those that are left to a saved one stand (15 R269). -/
def Obligations.TimedWaitsEnd : Prop :=
  ∀ s key u e, team? s key = some u → e ∈ u.front → e.mask ≠ 0 → u.live ≠ 0 → u.frozen = false →
    let on (t : State) : Prop := ∃ w, team? t key = some w ∧ ∃ x ∈ w.front,
      e.mask &&& ~~~x.mask = 0 ∧ x.pc = (e.pc + 4) % 2 ^ 57 ∧ x.wait = none
    let told (t : State) (d : Nat) (st : Word) : Prop := ∃ w, team? t key = some w ∧ Team.scalar w d = st
    let now := clk s (holdingCore s key u)
    let only (dst : Nat) : Prop := ∀ x ∈ u.front, ∀ w, x.wait = some w → w.dest = some dst → e.wait = some w
    (∀ d, e.wait = some (.sleep d) → d ≤ now → ∃ t, exec (.sleepExpiry key e.pc) s = .next t ∧ on t) ∧
    (∀ k ph d dst, e.wait = some (.promw k ph d dst) → d < now → only dst →
      ∃ t, exec (.promwDeadline key e.pc) s = .next t ∧ on t ∧ told t dst 3) ∧
    (∀ a pa pt v m ctl d dst, e.wait = some (.monitor a pa pt v m ctl (some d) dst) → d < now → only dst →
      ∃ t, exec (.waitcTimeout key e.pc) s = .next t ∧ on t ∧ told t dst 1)

/-- 22 R333, R334, R335: CREATE answers with the first reason that refuses it and changes nothing else, or makes the compartment,
in state 1, with the next key of the slot that it gets; START runs a compartment in state 1 or 3; STOP begins to stop one in state 2;
each answers 1 in another state. RESIZE answers 1 in a state that has no clusters to change, 8 for none, 2 for another's, and 7 for a
renumbering of cores that are in use; one that is refused for nothing is applied at once, unless it takes a cluster from a running
compartment, whose crews leave it first. That an unaligned RESV answers 8 is the model's choice (log 30). -/
def Obligations.CompartmentOperations : Prop :=
  (∀ s c d, opReady s c = true → createResult s c d ≠ 0 → exec (.create c d) s = .next (happen (compResult s c (createResult s c d)))) ∧
  (∀ s c d, opReady s c = true → createResult s c d = 0 → ∃ t n, exec (.create c d) s = .next t ∧ 1 ≤ n ∧ n ≤ 31 ∧
    (comp t c).desc.state = 1 ∧ (comp t c).desc.result = 0 ∧ (comp t c).desc.op = 0 ∧ (comp t c).desc.clusters = d.clusters ∧
    (comp t c).desc.keyid = n ∧ (comp t c).xlate.keyid = n ∧ Tab.getD t.keyGen n 0 = Tab.getD s.keyGen n 0 + 1) ∧
  (∀ s c d,
    ((comp s c).desc.state ≠ 0 → createResult s c d = 1) ∧
    ((comp s c).desc.state = 0 → descBad d = true → createResult s c d = 8) ∧
    ((comp s c).desc.state = 0 → descBad d = false → (∃ k, k < 16 ∧ k ≠ c ∧ (comp s k).desc.state ≠ 0 ∧
      (comp s k).desc.clusters &&& d.clusters ≠ 0) → createResult s c d = 2)) ∧
  (∀ s c, opReady s c = true →
    ((comp s c).desc.state = 1 ∨ (comp s c).desc.state = 3 → ∃ t, exec (.start c) s = .next t ∧ (comp t c).desc.state = 2 ∧
      (comp t c).desc.result = 0) ∧
    ((comp s c).desc.state ≠ 1 → (comp s c).desc.state ≠ 3 → exec (.start c) s = .next (happen (compResult s c 1))) ∧
    ((comp s c).desc.state ≠ 2 → exec (.stop c) s = .next (happen (compResult s c 1)))) ∧
  (∀ s c m, opReady s c = true →
    ((comp s c).desc.state = 0 ∨ 4 ≤ (comp s c).desc.state → exec (.resize c m) s = .next (happen (compResult s c 1))) ∧
    (1 ≤ (comp s c).desc.state → (comp s c).desc.state ≤ 3 → m = 0 → exec (.resize c m) s = .next (happen (compResult s c 8))) ∧
    (1 ≤ (comp s c).desc.state → (comp s c).desc.state ≤ 3 → m ≠ 0 → (m = (comp s c).desc.clusters ∨ frozen s c = false) →
      (∃ k, k < 16 ∧ k ≠ c ∧ (comp s k).desc.state ≠ 0 ∧ (comp s k).desc.clusters &&& m ≠ 0) →
      exec (.resize c m) s = .next (happen (compResult s c 2))) ∧
    ((comp s c).desc.state = 2 → m ≠ 0 → (m = (comp s c).desc.clusters ∨ frozen s c = false) →
      (∀ k, k < 16 → k ≠ c → (comp s k).desc.state ≠ 0 → (comp s k).desc.clusters &&& m = 0) →
      resvBad s c m (comp s c).desc.resv (comp s c).desc.resvsz = false → renumbers (comp s c).desc.clusters m = true →
      exec (.resize c m) s = .next (happen (compResult s c 7))) ∧
    (resizeResult s c m = 0 → inReset s c = false →
      ((comp s c).desc.state ≠ 2 ∨ (comp s c).desc.clusters &&& ~~~m = 0 → ∃ t, exec (.resize c m) s = .next t ∧
        (comp t c).desc.clusters = m ∧ (comp t c).desc.op = 0 ∧ (comp t c).desc.result = 0) ∧
      ((comp s c).desc.state = 2 → (comp s c).desc.clusters &&& ~~~m ≠ 0 → ∃ t q, exec (.resize c m) s = .next t ∧
        (comp t c).desc.clusters = (comp s c).desc.clusters ∧ (comp t c).desc.op = 2 ∧ (comp t c).leaving = some q ∧
        q.kept = m))) ∧
  (∀ s c, opReady s c = true → inReset s c = false → (comp s c).desc.state = 2 → ∃ t q, exec (.stop c) s = .next t ∧
    (comp t c).desc.state = 2 ∧ (comp t c).desc.op = 4 ∧ (comp t c).stop = some q ∧ q.op = true)

/-! ## Reset and power (22 R348) -/

/-- 22 R348, 13 R249: at reset nothing runs: no team, crew, region or compartment, no message on its way, every BOUND 256, memory
empty. The first step is POWER_ON, after which memory is zero under key slot 0 and blocks 1 to 4 have been measured. What the tables
hold at reset, that unlisted bytes read as 0, and that POWER_ON is the first step are the model's choices (logs 1, 2, 3). -/
def Obligations.ResetAndPowerOn : Prop :=
  State.reset.powered = false ∧ State.reset.teams = [] ∧ State.reset.crews = [] ∧ State.reset.regions = [] ∧
  State.reset.comps = [] ∧ State.reset.cur = none ∧ State.reset.plane = [] ∧ State.reset.out = [] ∧ State.reset.trainEn = false ∧
  (∀ d k, boundOf State.reset d k = 256) ∧ (∀ a, memByte State.reset.mem a = 0) ∧
  (∀ b k, (latch (bench State.reset b) k).valid = false) ∧
  ∃ t, step State.reset = .next t ∧ t.powered = true ∧ t.teams = [] ∧ (∀ a, homeByte t 0 a = 0) ∧
    t.sce.blocks.map (·.1) = [1, 2, 3, 4]

namespace Sys2Proof.Spec

/-- Memory is in its canonical form, so that equal memories are equal data. -/
def Inv (s : State) : Prop := memWf s.mem = true

/-- What a step from `s` does around the instruction that it runs: what goes on of itself, and the records of the trace buffers. -/
def runs (s : State) (o : Host.Outcome State Fault Refusal) : Host.Outcome State Fault Refusal :=
  match o with
  | .next t => .next (traceStep s (afterStep t))
  | o => o

/-- Words of the spec's tables and listings with what they stand for. -/
noncomputable def words : List (Word × Instr) :=
  [(0x48162FC0#32, .fadd ⟨0, 0, 11, 11, 120⟩), (0x1B002CC3#32, .shflx ⟨1, 1, 0, 11, 24⟩), (0x1413F000#32, .iaddi ⟨0, 0, 9, 124, 0⟩),
    (0xFE000001#32, .himm 1), (0x3071C40F#32, .sandi ⟨0, 14, 14, 15⟩), (0x78800000#32, .baraw 0 ⟨0, 0, 0, 0⟩),
    (0x4000A014#32, .mtc ⟨0, 0, 10, 0x014⟩), (0xA05FE180#32, .ld32 ⟨0, 23, 124, 12, 0, 0⟩), (0xB847E0D6#32, .st32 ⟨0, 17, 124, 6, 2, 6⟩),
    (0xD057E112#32, .atomRedadd 0 ⟨0, 21, 124, 8⟩), (0x6830002F#32, .bra ⟨1, 1, 47⟩), (0x6827FFD3#32, .bra ⟨1, 0, 0x7FFD3⟩),
    (0xFC780000#32, .hscp 0x180000), (0xFCA00000#32, .hyld 0), (0xFC800000#32, .hrlx 0), (0xFC390000#32, .hprio 0x190000)]

end Sys2Proof.Spec

/-- 03 R36 to R52: words of the spec's own listings decode to the instructions that they stand for. -/
def Obligations.DecodeWords : Prop := ∀ x ∈ words, decode x.1 = .ok x.2

/-- 03 R36, R53, 07 R115, 13 R351: a step of a machine that has power, and in which no thread waits for its bin, runs the word
that its issue comes to: the instruction that it decodes to, with the word in hand, or the trap of a word that is none. An
issue that begins does the same. The word is the one that the home holds at the physical address of the PC, little-endian; that no
instruction cache stands before it is the model's choice (log 25). -/
def Obligations.StepRunsTheDecodedWord : Prop :=
  (∀ s u s1 w, s.powered = true → s.spawning = [] → s.cur = some u → currentWord (tick s) u = (s1, .word w) →
    (∀ i, decode w = .ok i → step s = runs s (exec i (withWord s1 u w))) ∧
    (∀ e, decode w = .error e → isHint w = false → step s = .next (traceStep s (afterStep (badWord (withWord s1 u w)))))) ∧
  (∀ s s0 u s1 w i, s.powered = true → s.spawning = [] → s.cur = none → s.inputs = [] → due (tick s) = none →
    pick (retried (tick s)) = some s0 → s0.cur = some u → currentWord s0 u = (s1, .word w) → decode w = .ok i →
    step s = runs s (exec i (withWord s1 u w))) ∧
  (∀ s u t p s1 pa st, u.replay = none → s.stalls = [] → team? s u.team = some t → t.place = some p →
    translate s p.core t.comp t.level .ex u.pc = (s1, .ok pa st) → localClass pa ≠ .none → homeFails s1 pa 4 = false →
    currentWord s u = (l2Touch s1 (compKey s1 t.comp) pa, .word (BitVec.ofNat 32 (homeLe s1 (compKey s1 t.comp) pa 4)))) ∧
  (∀ s u r, u.replay = some r → currentWord s u = (s, .word r.word))

/-- Memory is in its canonical form at reset: the list form is the model's choice (log 70). -/
def Obligations.ResetInvariant : Prop := Inv State.reset

/-- From any state whose memory is in its canonical form (the model's choice, log 70) a step leaves it so; time never goes back, and no key generation is
lost (22 R341). -/
def Obligations.StepKeepsInvariant : Prop :=
  ∀ s t, step s = .next t → (Inv s → Inv t) ∧ s.time ≤ t.time ∧ ∀ k, Tab.getD s.keyGen k 0 ≤ Tab.getD t.keyGen k 0

/-- 03 R51 to R53: every well-formed instruction that has an encoding is read back from its word, with every field at every value;
no two instructions share a word. -/
def Obligations.DecodeReadsBackEveryEncoding : Prop :=
  (∀ i : Instr, i.encoded = true → i.wellFormed = true → decode (encode i) = .ok i) ∧
  (∀ i j : Instr, i.encoded = true → j.encoded = true → encode i = encode j → i = j) ∧
  (∀ w i, decode w = .ok i → i.encoded = true ∧ encode i = w)
end

