-- ==== Sys2Proof/Laws/Encode.lean ====
section
/-! SUPPORT. The words that the encoder packs, field by field (03 R37), and what the parser reads from each format's word. -/

set_option linter.unusedSimpArgs false

namespace Sys2Proof

open Bits

theorem extractLsb'_append_low {n m : Nat} (x : BitVec n) (y : BitVec m) (lo k : Nat) (h : lo + k ≤ m) :
    (x ++ y).extractLsb' lo k = y.extractLsb' lo k := by
  ext i hi
  simp only [BitVec.getElem_extractLsb', BitVec.getLsbD_append]
  rw [if_pos (by omega)]

theorem extractLsb'_append_high {n m : Nat} (x : BitVec n) (y : BitVec m) (lo k : Nat) (h : m ≤ lo) :
    (x ++ y).extractLsb' lo k = x.extractLsb' (lo - m) k := by
  ext i hi
  simp only [BitVec.getElem_extractLsb', BitVec.getLsbD_append]
  rw [if_neg (by omega), show lo + i - m = lo - m + i by omega]

theorem extractLsb'_zero_self {n : Nat} (x : BitVec n) : x.extractLsb' 0 n = x := by
  ext i hi; simp

/-- Two adjacent fields of a word are one field. -/
theorem extractLsb'_append_adjacent (w : Word) (lo n k : Nat) :
    w.extractLsb' (lo + k) n ++ w.extractLsb' lo k = w.extractLsb' lo (n + k) := by
  ext i hi
  simp only [BitVec.getElem_append, BitVec.getElem_extractLsb']
  split
  · rfl
  · rw [show lo + k + (i - k) = lo + i by omega]


theorem packV3_major (m : BitVec 6) (x : V3) (f : BitVec 3) : (packV3 m x f).extractLsb' 26 6 = m := by
  simp (disch := decide) only [packV3, extractLsb'_append_high, extractLsb'_append_low, extractLsb'_zero_self, Nat.reduceSub]
theorem packV3_minor (m : BitVec 6) (x : V3) (f : BitVec 3) : (packV3 m x f).extractLsb' 0 3 = f := by
  simp (disch := decide) only [packV3, extractLsb'_append_high, extractLsb'_append_low, extractLsb'_zero_self, Nat.reduceSub]
theorem V3.of_packV3 (m : BitVec 6) (x : V3) (f : BitVec 3) : V3.of (packV3 m x f) = x := by
  simp (disch := decide) only [V3.of, packV3, extractLsb'_append_high, extractLsb'_append_low, extractLsb'_zero_self, Nat.reduceSub]
theorem packVI_major (m : BitVec 6) (x : VI) (f : BitVec 3) : (packVI m x f).extractLsb' 26 6 = m := by
  simp (disch := decide) only [packVI, extractLsb'_append_high, extractLsb'_append_low, extractLsb'_zero_self, Nat.reduceSub]
theorem packVI_minor (m : BitVec 6) (x : VI) (f : BitVec 3) : (packVI m x f).extractLsb' 7 3 = f := by
  simp (disch := decide) only [packVI, extractLsb'_append_high, extractLsb'_append_low, extractLsb'_zero_self, Nat.reduceSub]
theorem VI.of_packVI (m : BitVec 6) (x : VI) (f : BitVec 3) : VI.of (packVI m x f) = x := by
  simp (disch := decide) only [VI.of, packVI, extractLsb'_append_high, extractLsb'_append_low, extractLsb'_zero_self, Nat.reduceSub]
theorem packP_major (m : BitVec 6) (x : P3) (f : BitVec 3) : (packP m x f).extractLsb' 26 6 = m := by
  simp (disch := decide) only [packP, extractLsb'_append_high, extractLsb'_append_low, extractLsb'_zero_self, Nat.reduceSub]
theorem packP_minor (m : BitVec 6) (x : P3) (f : BitVec 3) : (packP m x f).extractLsb' 0 3 = f := by
  simp (disch := decide) only [packP, extractLsb'_append_high, extractLsb'_append_low, extractLsb'_zero_self, Nat.reduceSub]
theorem P3.of_packP (m : BitVec 6) (x : P3) (f : BitVec 3) : P3.of (packP m x f) = x := by
  simp (disch := decide) only [P3.of, packP, extractLsb'_append_high, extractLsb'_append_low, extractLsb'_zero_self, Nat.reduceSub]
theorem packS_major (m : BitVec 6) (x : SF) (f : BitVec 7) : (packS m x f).extractLsb' 26 6 = m := by
  simp (disch := decide) only [packS, extractLsb'_append_high, extractLsb'_append_low, extractLsb'_zero_self, Nat.reduceSub]
theorem packS_fn (m : BitVec 6) (x : SF) (f : BitVec 7) : (packS m x f).extractLsb' 18 7 = f := by
  simp (disch := decide) only [packS, extractLsb'_append_high, extractLsb'_append_low, extractLsb'_zero_self, Nat.reduceSub]
theorem SF.of_packS (m : BitVec 6) (x : SF) (f : BitVec 7) : SF.of (packS m x f) = x := by
  simp (disch := decide) only [SF.of, packS, extractLsb'_append_high, extractLsb'_append_low, extractLsb'_zero_self, Nat.reduceSub]
theorem packSI_major (m : BitVec 6) (x : SI) (f : BitVec 3) : (packSI m x f).extractLsb' 26 6 = m := by
  simp (disch := decide) only [packSI, extractLsb'_append_high, extractLsb'_append_low, extractLsb'_zero_self, Nat.reduceSub]
theorem packSI_minor (m : BitVec 6) (x : SI) (f : BitVec 3) : (packSI m x f).extractLsb' 10 3 = f := by
  simp (disch := decide) only [packSI, extractLsb'_append_high, extractLsb'_append_low, extractLsb'_zero_self, Nat.reduceSub]
theorem SI.of_packSI (m : BitVec 6) (x : SI) (f : BitVec 3) : SI.of (packSI m x f) = x := by
  simp (disch := decide) only [SI.of, packSI, extractLsb'_append_high, extractLsb'_append_low, extractLsb'_zero_self, Nat.reduceSub]
theorem packX_major (m : BitVec 6) (x : XF) : (packX m x).extractLsb' 26 6 = m := by
  simp (disch := decide) only [packX, extractLsb'_append_high, extractLsb'_append_low, extractLsb'_zero_self, Nat.reduceSub]
theorem XF.of_packX (m : BitVec 6) (x : XF) : XF.of (packX m x) = x := by
  simp (disch := decide) only [XF.of, packX, extractLsb'_append_high, extractLsb'_append_low, extractLsb'_zero_self, Nat.reduceSub]
theorem packM_major (m : BitVec 6) (x : MF) : (packM m x).extractLsb' 26 6 = m := by
  simp (disch := decide) only [packM, extractLsb'_append_high, extractLsb'_append_low, extractLsb'_zero_self, Nat.reduceSub]
theorem MF.of_packM (m : BitVec 6) (x : MF) : MF.of (packM m x) = x := by
  simp (disch := decide) only [MF.of, packM, extractLsb'_append_high, extractLsb'_append_low, extractLsb'_zero_self, Nat.reduceSub]
theorem packAT_op (o : BitVec 2) (x : AT) (f : BitVec 5) : (packAT o x f).extractLsb' 0 5 = f := by
  simp (disch := decide) only [packAT, extractLsb'_append_high, extractLsb'_append_low, extractLsb'_zero_self, Nat.reduceSub]
theorem packAT_order (o : BitVec 2) (x : AT) (f : BitVec 5) : (packAT o x f).extractLsb' 26 2 = o := by
  simp (disch := decide) only [packAT, extractLsb'_append_high, extractLsb'_append_low, extractLsb'_zero_self, Nat.reduceSub]
theorem AT.of_packAT (o : BitVec 2) (x : AT) (f : BitVec 5) : AT.of (packAT o x f) = x := by
  simp (disch := decide) only [AT.of, packAT, extractLsb'_append_high, extractLsb'_append_low, extractLsb'_zero_self, Nat.reduceSub]
theorem packB_major (x : BF) (l : BitVec 1) : (packB x l).extractLsb' 26 6 = 0x1A#6 := by
  simp (disch := decide) only [packB, extractLsb'_append_high, extractLsb'_append_low, extractLsb'_zero_self, Nat.reduceSub]
theorem packB_bit25 (x : BF) (l : BitVec 1) : (packB x l).extractLsb' 25 1 = 0#1 := by
  simp (disch := decide) only [packB, extractLsb'_append_high, extractLsb'_append_low, extractLsb'_zero_self, Nat.reduceSub]
theorem packB_link (x : BF) (l : BitVec 1) : (packB x l).extractLsb' 19 1 = l := by
  simp (disch := decide) only [packB, extractLsb'_append_high, extractLsb'_append_low, extractLsb'_zero_self, Nat.reduceSub]
theorem BF.of_packB (x : BF) (l : BitVec 1) : BF.of (packB x l) = x := by
  simp (disch := decide) only [BF.of, packB, extractLsb'_append_high, extractLsb'_append_low, extractLsb'_zero_self, Nat.reduceSub]
theorem packH_major (k : BitVec 4) (p : BitVec 21) : (packH k p).extractLsb' 26 6 = 0x3F#6 := by
  simp (disch := decide) only [packH, extractLsb'_append_high, extractLsb'_append_low, extractLsb'_zero_self, Nat.reduceSub]
theorem packH_bit25 (k : BitVec 4) (p : BitVec 21) : (packH k p).extractLsb' 25 1 = 0#1 := by
  simp (disch := decide) only [packH, extractLsb'_append_high, extractLsb'_append_low, extractLsb'_zero_self, Nat.reduceSub]
theorem packH_kind (k : BitVec 4) (p : BitVec 21) : (packH k p).extractLsb' 21 4 = k := by
  simp (disch := decide) only [packH, extractLsb'_append_high, extractLsb'_append_low, extractLsb'_zero_self, Nat.reduceSub]
theorem packH_payload (k : BitVec 4) (p : BitVec 21) : (packH k p).extractLsb' 0 21 = p := by
  simp (disch := decide) only [packH, extractLsb'_append_high, extractLsb'_append_low, extractLsb'_zero_self, Nat.reduceSub]
theorem packHimm_major (p : BitVec 25) : (packHimm p).extractLsb' 26 6 = 0x3F#6 := by
  simp (disch := decide) only [packHimm, extractLsb'_append_high, extractLsb'_append_low, extractLsb'_zero_self, Nat.reduceSub]
theorem packHimm_bit25 (p : BitVec 25) : (packHimm p).extractLsb' 25 1 = 1#1 := by
  simp (disch := decide) only [packHimm, extractLsb'_append_high, extractLsb'_append_low, extractLsb'_zero_self, Nat.reduceSub]
theorem packHimm_payload (p : BitVec 25) : (packHimm p).extractLsb' 0 25 = p := by
  simp (disch := decide) only [packHimm, extractLsb'_append_high, extractLsb'_append_low, extractLsb'_zero_self, Nat.reduceSub]
theorem packS_sm_op (m : BitVec 6) (x : SF) (a : BitVec 5) (b : BitVec 2) : (packS m x (a ++ b)).extractLsb' 20 5 = a := by
  simp (disch := decide) only [packS, extractLsb'_append_high, extractLsb'_append_low, extractLsb'_zero_self, Nat.reduceSub]
theorem packS_sm_k (m : BitVec 6) (x : SF) (a : BitVec 5) (b : BitVec 2) : (packS m x (a ++ b)).extractLsb' 18 2 = b := by
  simp (disch := decide) only [packS, extractLsb'_append_high, extractLsb'_append_low, extractLsb'_zero_self, Nat.reduceSub]
theorem packS_sk_op (m : BitVec 6) (x : SF) (a : BitVec 3) (b : BitVec 4) : (packS m x (a ++ b)).extractLsb' 22 3 = a := by
  simp (disch := decide) only [packS, extractLsb'_append_high, extractLsb'_append_low, extractLsb'_zero_self, Nat.reduceSub]
theorem packS_sk_k (m : BitVec 6) (x : SF) (a : BitVec 3) (b : BitVec 4) : (packS m x (a ++ b)).extractLsb' 18 4 = b := by
  simp (disch := decide) only [packS, extractLsb'_append_high, extractLsb'_append_low, extractLsb'_zero_self, Nat.reduceSub]
theorem packS_sg_op (m : BitVec 6) (x : SF) (a b : BitVec 3) : (packS m x (a ++ b ++ 0#1)).extractLsb' 22 3 = a := by
  simp (disch := decide) only [packS, extractLsb'_append_high, extractLsb'_append_low, extractLsb'_zero_self, Nat.reduceSub]
theorem packS_sg_k (m : BitVec 6) (x : SF) (a b : BitVec 3) : (packS m x (a ++ b ++ 0#1)).extractLsb' 19 3 = b := by
  simp (disch := decide) only [packS, extractLsb'_append_high, extractLsb'_append_low, extractLsb'_zero_self, Nat.reduceSub]
theorem packS_sg_bit0 (m : BitVec 6) (x : SF) (a b : BitVec 3) : (packS m x (a ++ b ++ 0#1)).extractLsb' 18 1 = 0#1 := by
  simp (disch := decide) only [packS, extractLsb'_append_high, extractLsb'_append_low, extractLsb'_zero_self, Nat.reduceSub]
theorem packS_sf_op (m : BitVec 6) (x : SF) (a b : BitVec 2) (c : BitVec 3) : (packS m x (a ++ b ++ c)).extractLsb' 23 2 = a := by
  simp (disch := decide) only [packS, extractLsb'_append_high, extractLsb'_append_low, extractLsb'_zero_self, Nat.reduceSub]
theorem packS_sf_order (m : BitVec 6) (x : SF) (a b : BitVec 2) (c : BitVec 3) : (packS m x (a ++ b ++ c)).extractLsb' 21 2 = b := by
  simp (disch := decide) only [packS, extractLsb'_append_high, extractLsb'_append_low, extractLsb'_zero_self, Nat.reduceSub]
theorem packS_sf_scope (m : BitVec 6) (x : SF) (a b : BitVec 2) (c : BitVec 3) : (packS m x (a ++ b ++ c)).extractLsb' 18 3 = c := by
  simp (disch := decide) only [packS, extractLsb'_append_high, extractLsb'_append_low, extractLsb'_zero_self, Nat.reduceSub]

/-! ## What the parser reads -/

theorem parse_packV3 (m : BitVec 6) (x : V3) (f : BitVec 3) (i : Instr) (hf : fmtOf m.toNat = .v3)
    (h : v3Instr m.toNat f.toNat x = some i) : parse (packV3 m x f) = .ok i := by
  simp only [parse, packV3_major, packV3_minor, V3.of_packV3, hf, h]
theorem parse_packVI (m : BitVec 6) (x : VI) (f : BitVec 3) (i : Instr) (hf : fmtOf m.toNat = .vi)
    (h : viInstr m.toNat f.toNat x = some i) : parse (packVI m x f) = .ok i := by
  simp only [parse, packVI_major, packVI_minor, VI.of_packVI, hf, h]
theorem parse_packP (m : BitVec 6) (x : P3) (f : BitVec 3) (i : Instr) (hf : fmtOf m.toNat = .p)
    (h : pInstr m.toNat f.toNat x = some i) : parse (packP m x f) = .ok i := by
  simp only [parse, packP_major, packP_minor, P3.of_packP, hf, h]
theorem parse_packS (m : BitVec 6) (x : SF) (f : BitVec 7) (i : Instr) (hf : fmtOf m.toNat = .s)
    (h : sInstr m.toNat f.toNat x = some i) : parse (packS m x f) = .ok i := by
  simp only [parse, packS_major, packS_fn, SF.of_packS, hf, h]
theorem parse_packSI (m : BitVec 6) (x : SI) (f : BitVec 3) (i : Instr) (hf : fmtOf m.toNat = .si)
    (h : siInstr m.toNat f.toNat x = some i) : parse (packSI m x f) = .ok i := by
  simp only [parse, packSI_major, packSI_minor, SI.of_packSI, hf, h]
theorem parse_packX (m : BitVec 6) (x : XF) (i : Instr) (hf : fmtOf m.toNat = .x)
    (h : xInstr m.toNat x = some i) : parse (packX m x) = .ok i := by
  simp only [parse, packX_major, XF.of_packX, hf, h]
theorem parse_packM (m : BitVec 6) (x : MF) (i : Instr) (hf : fmtOf m.toNat = .m)
    (h : mInstr m.toNat x = some i) : parse (packM m x) = .ok i := by
  simp only [parse, packM_major, MF.of_packM, hf, h]
theorem packAT_fmt (o : BitVec 2) (x : AT) (f : BitVec 5) : fmtOf ((packAT o x f).extractLsb' 26 6).toNat = .at := by
  have : (packAT o x f).extractLsb' 26 6 = 0b1101#4 ++ o := by
    simp (disch := decide) only [packAT, extractLsb'_append_high, Nat.reduceSub]
    exact extractLsb'_zero_self _
  rw [this]
  clear this
  revert o; decide
theorem parse_packAT (o : BitVec 2) (x : AT) (f : BitVec 5) (i : Instr)
    (h : atInstr f.toNat o x = some i) : parse (packAT o x f) = .ok i := by
  simp only [parse, packAT_fmt, packAT_op, packAT_order, AT.of_packAT, h]
theorem parse_packB_bra (x : BF) : parse (packB x 0) = .ok (.bra x) := by
  simp only [parse, packB_major, packB_bit25, packB_link, BF.of_packB]; rfl
theorem parse_packB_call (x : BF) : parse (packB x 1) = .ok (.call x) := by
  simp only [parse, packB_major, packB_bit25, packB_link, BF.of_packB]; rfl
theorem parse_packH (k : BitVec 4) (p : BitVec 21) (i : Instr) (h : hInstr k.toNat p = some i) :
    parse (packH k p) = .ok i := by
  simp only [parse, packH_major, packH_bit25, packH_kind, packH_payload, h]; rfl
theorem parse_packHimm (p : BitVec 25) : parse (packHimm p) = .ok (.himm p) := by
  simp only [parse, packHimm_major, packHimm_bit25, packHimm_payload]; rfl
theorem parse_packSm (m : BitVec 6) (x : SF) (a : BitVec 5) (b : BitVec 2) (i : Instr) (hf : fmtOf m.toNat = .sm)
    (h : smInstr m.toNat a.toNat b x = some i) : parse (packS m x (a ++ b)) = .ok i := by
  simp only [parse, packS_major, packS_sm_op, packS_sm_k, SF.of_packS, hf, h]
theorem parse_packSk (m : BitVec 6) (x : SF) (a : BitVec 3) (b : BitVec 4) (i : Instr) (hf : fmtOf m.toNat = .sk)
    (h : skInstr m.toNat a.toNat b x = some i) : parse (packS m x (a ++ b)) = .ok i := by
  simp only [parse, packS_major, packS_sk_op, packS_sk_k, SF.of_packS, hf, h]
theorem parse_packSg (m : BitVec 6) (x : SF) (a b : BitVec 3) (i : Instr) (hf : fmtOf m.toNat = .sg)
    (h : sgInstr m.toNat a.toNat b x = some i) : parse (packS m x (a ++ b ++ 0#1)) = .ok i := by
  simp only [parse, packS_major, packS_sg_op, packS_sg_k, packS_sg_bit0, SF.of_packS, hf, h]; rfl
theorem parse_packSf (m : BitVec 6) (x : SF) (a b : BitVec 2) (c : BitVec 3) (i : Instr) (hf : fmtOf m.toNat = .sf)
    (h : sfInstr m.toNat a.toNat b c x = some i) : parse (packS m x (a ++ b ++ c)) = .ok i := by
  simp only [parse, packS_major, packS_sf_op, packS_sf_order, packS_sf_scope, SF.of_packS, hf, h]

/-! ## Packing what was unpacked -/

theorem packV3_of (w : Word) : packV3 (w.extractLsb' 26 6) (V3.of w) (w.extractLsb' 0 3) = w := by
  simp only [packV3, V3.of]
  rw [extractLsb'_append_adjacent w 25 6 1, extractLsb'_append_adjacent w 24 7 1, extractLsb'_append_adjacent w 17 8 7,
    extractLsb'_append_adjacent w 10 15 7, extractLsb'_append_adjacent w 3 22 7, extractLsb'_append_adjacent w 0 29 3]
  exact extractLsb'_zero_self w
theorem packVI_of (w : Word) : packVI (w.extractLsb' 26 6) (VI.of w) (w.extractLsb' 7 3) = w := by
  simp only [packVI, VI.of]
  rw [extractLsb'_append_adjacent w 25 6 1, extractLsb'_append_adjacent w 24 7 1, extractLsb'_append_adjacent w 17 8 7,
    extractLsb'_append_adjacent w 10 15 7, extractLsb'_append_adjacent w 7 22 3, extractLsb'_append_adjacent w 0 25 7]
  exact extractLsb'_zero_self w
theorem packP_of (w : Word) : packP (w.extractLsb' 26 6) (P3.of w) (w.extractLsb' 0 3) = w := by
  simp only [packP, P3.of]
  rw [extractLsb'_append_adjacent w 25 6 1, extractLsb'_append_adjacent w 21 7 4, extractLsb'_append_adjacent w 17 11 4,
    extractLsb'_append_adjacent w 10 15 7, extractLsb'_append_adjacent w 3 22 7, extractLsb'_append_adjacent w 0 29 3]
  exact extractLsb'_zero_self w
theorem packS_of (w : Word) : packS (w.extractLsb' 26 6) (SF.of w) (w.extractLsb' 18 7) = w := by
  simp only [packS, SF.of]
  rw [extractLsb'_append_adjacent w 25 6 1, extractLsb'_append_adjacent w 18 7 7, extractLsb'_append_adjacent w 12 14 6,
    extractLsb'_append_adjacent w 6 20 6, extractLsb'_append_adjacent w 0 26 6]
  exact extractLsb'_zero_self w
theorem packSI_of (w : Word) : packSI (w.extractLsb' 26 6) (SI.of w) (w.extractLsb' 10 3) = w := by
  simp only [packSI, SI.of]
  rw [extractLsb'_append_adjacent w 25 6 1, extractLsb'_append_adjacent w 19 7 6, extractLsb'_append_adjacent w 13 13 6,
    extractLsb'_append_adjacent w 10 19 3, extractLsb'_append_adjacent w 0 22 10]
  exact extractLsb'_zero_self w
theorem packX_of (w : Word) : packX (w.extractLsb' 26 6) (XF.of w) = w := by
  simp only [packX, XF.of]
  rw [extractLsb'_append_adjacent w 25 6 1, extractLsb'_append_adjacent w 18 7 7, extractLsb'_append_adjacent w 12 14 6,
    extractLsb'_append_adjacent w 0 20 12]
  exact extractLsb'_zero_self w
theorem packM_of (w : Word) : packM (w.extractLsb' 26 6) (MF.of w) = w := by
  simp only [packM, MF.of]
  rw [extractLsb'_append_adjacent w 25 6 1, extractLsb'_append_adjacent w 18 7 7, extractLsb'_append_adjacent w 11 14 7,
    extractLsb'_append_adjacent w 5 21 6, extractLsb'_append_adjacent w 3 27 2, extractLsb'_append_adjacent w 0 29 3]
  exact extractLsb'_zero_self w

end Sys2Proof
end

