-- ==== Sys2Proof/Laws/Tab.lean ====
section
/-! SUPPORT. Tables: what a key holds after a value is placed. The byte memory: what an address reads as after a write, and that
every memory operation keeps the canonical form. -/

namespace Sys2Proof.Machine

/-! ## Tables -/

@[simp] theorem Tab.get?_put {α : Type} (t : Tab α) (k j : Nat) (v : α) :
    Tab.get? (Tab.put t k v) j = if k = j then some v else Tab.get? t j := by
  induction t with
  | nil => simp [Tab.put, Tab.get?]
  | cons e r ih =>
    obtain ⟨i, w⟩ := e
    simp only [Tab.put]
    split
    · simp only [Tab.get?]
    · split
      · rename_i h; subst h; simp only [Tab.get?]; split <;> simp_all
      · simp only [Tab.get?, ih]; split <;> split <;> simp_all

@[simp] theorem Tab.getD_put {α : Type} (t : Tab α) (k j : Nat) (v d : α) :
    Tab.getD (Tab.put t k v) j d = if k = j then v else Tab.getD t j d := by
  simp only [Tab.getD, Tab.get?_put]; split <;> simp

@[simp] theorem Tab.get?_nil {α : Type} (j : Nat) : Tab.get? ([] : Tab α) j = none := rfl

@[simp] theorem Tab.get?_del {α : Type} (t : Tab α) (k j : Nat) :
    Tab.get? (Tab.del t k) j = if k = j then none else Tab.get? t j := by
  induction t with
  | nil => simp [Tab.del, Tab.get?]
  | cons e r ih =>
    obtain ⟨i, w⟩ := e
    simp only [Tab.del] at ih
    by_cases h : i = k
    · subst h
      have := ih
      simp only [Tab.del, Tab.get?, List.filter]
      simp
      by_cases hij : i = j <;> simp_all
    · simp only [Tab.del, List.filter]
      simp [h, Tab.get?]
      by_cases hij : i = j
      · subst hij; simp [Ne.symm h]
      · simp only [hij, if_false]; simpa using ih

theorem Tab.get?_filter {α : Type} (t : Tab α) (p : Nat → Bool) (j : Nat) :
    Tab.get? (t.filter fun e => p e.1) j = if p j then Tab.get? t j else none := by
  induction t with
  | nil => simp [Tab.get?]
  | cons e r ih =>
    obtain ⟨i, w⟩ := e
    by_cases h : p i
    · simp only [List.filter_cons, h, if_true, Tab.get?]
      by_cases hij : i = j
      · subst hij; simp [h]
      · simp only [hij, if_false]; exact ih
    · simp only [List.filter_cons, h, Tab.get?]
      by_cases hij : i = j
      · subst hij; simp [h]; rw [ih]; simp [h]
      · simp only [hij, if_false]; simpa using ih

theorem Tab.get?_append {α : Type} (t u : Tab α) (j : Nat) :
    Tab.get? (t ++ u) j = (Tab.get? t j).orElse fun _ => Tab.get? u j := by
  induction t with
  | nil => simp [Tab.get?]
  | cons e r ih =>
    obtain ⟨i, w⟩ := e
    simp only [List.cons_append, Tab.get?]
    split <;> simp_all

/-! ## Reading the byte memory -/

theorem memByte_below (m : List Host.Cell) (a j : Nat) : Tab.get? (memBelow m a) j = if j < a then Tab.get? m j else none := by
  have := Tab.get?_filter m (fun i => decide (i < a)) j
  simpa [memBelow] using this

theorem memByte_from (m : List Host.Cell) (a j : Nat) : Tab.get? (memFrom m a) j = if a ≤ j then Tab.get? m j else none := by
  have := Tab.get?_filter m (fun i => decide (a ≤ i)) j
  simpa [memFrom] using this

theorem get?_cellsOf (a : Nat) (bs : List Byte) (j : Nat) :
    (Tab.get? (cellsOf a bs) j).getD 0 = if a ≤ j ∧ j < a + bs.length then bs.getD (j - a) 0 else 0 := by
  induction bs generalizing a with
  | nil => simp [cellsOf]
  | cons b r ih =>
    simp only [cellsOf]
    split
    · rename_i hb
      rw [ih]
      by_cases h : a + 1 ≤ j ∧ j < a + 1 + r.length
      · obtain ⟨k, hk⟩ := Nat.exists_eq_add_of_le h.1
        have : j - a = (j - (a + 1)) + 1 := by omega
        rw [if_pos h, if_pos (by simp only [List.length_cons]; omega), this]; simp
      · rw [if_neg h]
        split
        · rename_i h2
          simp only [List.length_cons] at h2
          have : j - a = 0 := by omega
          simp [this, hb]
        · rfl
    · simp only [Tab.get?]
      split
      · rename_i hj; subst hj; simp
      · rename_i hj
        rw [ih]
        by_cases h : a + 1 ≤ j ∧ j < a + 1 + r.length
        · have : j - a = (j - (a + 1)) + 1 := by omega
          rw [if_pos h, if_pos (by simp only [List.length_cons]; omega), this]; simp
        · rw [if_neg h, if_neg (by simp only [List.length_cons]; omega)]

theorem get?_cellsOf_none (a : Nat) (bs : List Byte) (j : Nat) (h : ¬(a ≤ j ∧ j < a + bs.length)) :
    Tab.get? (cellsOf a bs) j = none := by
  induction bs generalizing a with
  | nil => rfl
  | cons b r ih =>
    simp only [List.length_cons] at h
    simp only [cellsOf]
    split
    · exact ih _ (by omega)
    · simp only [Tab.get?]; rw [if_neg (by omega)]; exact ih _ (by omega)

/-- What a byte reads as after bytes are written: the byte written there, or what it read as before. -/
theorem memByte_memWrite (m : List Host.Cell) (a : Nat) (bs : List Byte) (j : Nat) :
    memByte (memWrite m a bs) j = if a ≤ j ∧ j < a + bs.length then bs.getD (j - a) 0 else memByte m j := by
  simp only [memByte, Tab.getD, memWrite, Tab.get?_append, memByte_below, memByte_from]
  by_cases h : a ≤ j ∧ j < a + bs.length
  · have h1 : ¬ j < a := by omega
    have h2 : ¬ a + bs.length ≤ j := by omega
    have := get?_cellsOf a bs j
    simp only [h1, h2, if_false, h, and_self, if_true] at this ⊢
    rw [← this]
    cases Tab.get? (cellsOf a bs) j <;> simp
  · rw [get?_cellsOf_none a bs j h, if_neg h]
    by_cases h1 : j < a
    · have h2 : ¬ a + bs.length ≤ j := by omega
      simp only [h1, h2, if_true, if_false]; cases Tab.get? m j <;> simp
    · have h2 : a + bs.length ≤ j := by omega
      simp [h1, h2]

/-- What a byte reads as after a range is cleared. -/
theorem memByte_memClear (m : List Host.Cell) (a n j : Nat) :
    memByte (memClear m a n) j = if a ≤ j ∧ j < a + n then 0 else memByte m j := by
  simp only [memByte, Tab.getD, memClear, Tab.get?_append, memByte_below, memByte_from]
  by_cases h1 : j < a
  · have h2 : ¬ a + n ≤ j := by omega
    have h3 : ¬(a ≤ j ∧ j < a + n) := by omega
    simp only [h1, h2, if_true, if_false, h3]; cases Tab.get? m j <;> simp
  · by_cases h2 : a + n ≤ j
    · simp [h1, h2]
    · have h3 : a ≤ j ∧ j < a + n := by omega
      simp [h1, h2, h3]

theorem memRead_length (m : List Host.Cell) (a n : Nat) : (memRead m a n).length = n := by
  induction n generalizing a with
  | zero => rfl
  | succ n ih => simp [memRead, ih]

/-- Reading back what was written. -/
theorem memRead_memWrite (m : List Host.Cell) (a : Nat) (bs : List Byte) : memRead (memWrite m a bs) a bs.length = bs := by
  suffices h : ∀ (cs pre : List Byte), bs = pre ++ cs →
      memRead (memWrite m a bs) (a + pre.length) cs.length = cs by simpa using h bs [] rfl
  intro cs
  induction cs with
  | nil => intros; rfl
  | cons c r ih =>
    intro pre e
    simp only [List.length_cons, memRead]
    have h1 : memByte (memWrite m a bs) (a + pre.length) = c := by
      rw [memByte_memWrite, if_pos (by subst e; simp)]
      subst e; simp
    rw [h1]
    have h2 := ih (pre ++ [c]) (by simp [e])
    simp only [List.length_append, List.length_cons, List.length_nil] at h2
    rw [show a + pre.length + 1 = a + (pre.length + (0 + 1)) by omega, h2]

/-! ## The canonical form -/

/-- The canonical form as a predicate: ascending addresses, no zero byte. -/
theorem memWf_iff (m : List Host.Cell) :
    memWf m = true ↔ m.Pairwise (fun c d => c.1 < d.1) ∧ ∀ c ∈ m, c.2 ≠ 0 := by
  induction m with
  | nil => simp [memWf]
  | cons c r ih =>
    cases r with
    | nil => simp [memWf]
    | cons d r =>
      simp only [memWf, Bool.and_eq_true, decide_eq_true_eq, ih, List.pairwise_cons, List.mem_cons]
      constructor
      · rintro ⟨⟨h1, h2⟩, ⟨h3, h4⟩, h5⟩
        refine ⟨⟨?_, h3, h4⟩, ?_⟩
        · rintro x (rfl | hx)
          · exact h2
          · exact Nat.lt_trans h2 (h3 x hx)
        · rintro x (rfl | hx)
          · simpa using h1
          · exact h5 x hx
      · rintro ⟨⟨h1, h3, h4⟩, h5⟩
        exact ⟨⟨by simpa using h5 c (.inl rfl), h1 d (.inl rfl)⟩, ⟨h3, h4⟩, fun x hx => h5 x (.inr hx)⟩

theorem memWf_nil : memWf [] = true := rfl

theorem cellsOf_bounds (a : Nat) (bs : List Byte) : ∀ c ∈ cellsOf a bs, a ≤ c.1 ∧ c.1 < a + bs.length ∧ c.2 ≠ 0 := by
  induction bs generalizing a with
  | nil => simp [cellsOf]
  | cons b r ih =>
    intro c hc
    simp only [cellsOf] at hc
    split at hc
    · have := ih _ c hc; simp only [List.length_cons]; exact ⟨by omega, by omega, this.2.2⟩
    · rename_i hb
      rcases List.mem_cons.1 hc with rfl | h
      · exact ⟨Nat.le_refl _, by simp, hb⟩
      · have := ih _ c h; simp only [List.length_cons]; exact ⟨by omega, by omega, this.2.2⟩

theorem cellsOf_sorted (a : Nat) (bs : List Byte) : (cellsOf a bs).Pairwise fun c d => c.1 < d.1 := by
  induction bs generalizing a with
  | nil => simp [cellsOf]
  | cons b r ih =>
    simp only [cellsOf]
    split
    · exact ih _
    · refine List.pairwise_cons.2 ⟨fun d hd => ?_, ih _⟩
      have := cellsOf_bounds _ _ d hd
      simp only; omega

/-- Writing keeps the canonical form. -/
theorem memWf_memWrite (m : List Host.Cell) (a : Nat) (bs : List Byte) (h : memWf m = true) :
    memWf (memWrite m a bs) = true := by
  rw [memWf_iff] at h ⊢
  obtain ⟨hs, hz⟩ := h
  simp only [memWrite, List.pairwise_append, memBelow, memFrom]
  refine ⟨⟨⟨hs.filter _, cellsOf_sorted a bs, ?_⟩, hs.filter _, ?_⟩, ?_⟩
  · intro c hc d hd
    have h1 := (List.mem_filter.1 hc).2
    have h2 := cellsOf_bounds a bs d hd
    simp only [decide_eq_true_eq] at h1; omega
  · intro c hc d hd
    have h2 := (List.mem_filter.1 hd).2
    simp only [decide_eq_true_eq] at h2
    rcases List.mem_append.1 hc with h | h
    · have h1 := (List.mem_filter.1 h).2
      simp only [decide_eq_true_eq] at h1; omega
    · have := cellsOf_bounds a bs c h; omega
  · intro c hc
    rcases List.mem_append.1 hc with h | h
    · rcases List.mem_append.1 h with h | h
      · exact hz c (List.mem_filter.1 h).1
      · exact (cellsOf_bounds a bs c h).2.2
    · exact hz c (List.mem_filter.1 h).1

/-- Clearing a range keeps the canonical form. -/
theorem memWf_memClear (m : List Host.Cell) (a n : Nat) (h : memWf m = true) : memWf (memClear m a n) = true := by
  rw [memWf_iff] at h ⊢
  obtain ⟨hs, hz⟩ := h
  simp only [memClear, List.pairwise_append, memBelow, memFrom]
  refine ⟨⟨hs.filter _, hs.filter _, ?_⟩, ?_⟩
  · intro c hc d hd
    have h1 := (List.mem_filter.1 hc).2
    have h2 := (List.mem_filter.1 hd).2
    simp only [decide_eq_true_eq] at h1 h2; omega
  · intro c hc
    rcases List.mem_append.1 hc with h | h
    · exact hz c (List.mem_filter.1 h).1
    · exact hz c (List.mem_filter.1 h).1

/-- Writing a sparse image keeps the canonical form. -/
theorem memWf_memFields (m : List Host.Cell) (base : Nat) (fs : List Bits.Fld) (h : memWf m = true) :
    memWf (memFields m base fs) = true := by
  unfold memFields
  induction fs generalizing m with
  | nil => exact h
  | cons f r ih =>
    simp only [List.foldl_cons]
    split
    · exact ih _ h
    · exact ih _ (memWf_memWrite _ _ _ h)

/-- Memories in the canonical form that read alike are equal. -/
theorem memWf_ext (m n : List Host.Cell) (hm : memWf m = true) (hn : memWf n = true)
    (h : ∀ a, memByte m a = memByte n a) : m = n := by
  rw [memWf_iff] at hm hn
  have key : ∀ (l : List Host.Cell), l.Pairwise (fun c d => c.1 < d.1) → (∀ c ∈ l, c.2 ≠ 0) →
      ∀ c, c ∈ l ↔ c.2 ≠ 0 ∧ memByte l c.1 = c.2 := by
    intro l hs hz
    induction l with
    | nil => intro c; simp [memByte, Tab.getD, Tab.get?]; intro h1 h2; exact h1 h2.symm
    | cons d r ih =>
      intro c
      have hs' := List.pairwise_cons.1 hs
      have ih' := ih hs'.2 (fun x hx => hz x (.tail _ hx))
      have hget : memByte (d :: r) c.1 = if d.1 = c.1 then d.2 else memByte r c.1 := by
        obtain ⟨i, b⟩ := d
        simp only [memByte, Tab.getD, Tab.get?]; split <;> simp
      rw [List.mem_cons, hget]
      by_cases hd : d.1 = c.1
      · simp only [hd, if_true]
        constructor
        · rintro (rfl | hc)
          · exact ⟨hz _ (.head _), rfl⟩
          · have := hs'.1 c hc; omega
        · rintro ⟨_, h2⟩; exact .inl (Prod.ext hd.symm h2.symm)
      · simp only [hd, if_false]
        rw [ih' c]
        constructor
        · rintro (rfl | hc)
          · exact absurd rfl hd
          · exact hc
        · exact .inr
  have hmem : ∀ c, c ∈ m ↔ c ∈ n := fun c => by rw [key m hm.1 hm.2, key n hn.1 hn.2, h]
  have nd : ∀ (l : List Host.Cell), l.Pairwise (fun c d => c.1 < d.1) → l.Nodup := fun l hl =>
    hl.imp (fun {a b} hab he => by subst he; exact absurd hab (Nat.lt_irrefl _))
  refine ((List.perm_ext_iff_of_nodup (nd m hm.1) (nd n hn.1)).2 hmem).eq_of_pairwise ?_ hm.1 hn.1
  intro a b _ _ h1 h2
  exact absurd h1 (Nat.lt_asymm h2)

end Sys2Proof.Machine
end

