-- ==== Sys2Proof/Laws/State.lean ====
section
/-! SUPPORT. Each field of the state after each named update: the simp set that later proofs use instead of unfolding an update. -/

namespace Sys2Proof.Machine

/-! ## setTeam -/

@[simp] theorem setTeam_time (s : State) (k : Nat) (x : Team) : (setTeam s k x).time = s.time := rfl
@[simp] theorem setTeam_pace (s : State) (k : Nat) (x : Team) : (setTeam s k x).pace = s.pace := rfl
@[simp] theorem setTeam_powered (s : State) (k : Nat) (x : Team) : (setTeam s k x).powered = s.powered := rfl
@[simp] theorem setTeam_inputs (s : State) (k : Nat) (x : Team) : (setTeam s k x).inputs = s.inputs := rfl
@[simp] theorem setTeam_out (s : State) (k : Nat) (x : Team) : (setTeam s k x).out = s.out := rfl
@[simp] theorem setTeam_fresh (s : State) (k : Nat) (x : Team) : (setTeam s k x).fresh = s.fresh := rfl
@[simp] theorem setTeam_stalls (s : State) (k : Nat) (x : Team) : (setTeam s k x).stalls = s.stalls := rfl
@[simp] theorem setTeam_mem (s : State) (k : Nat) (x : Team) : (setTeam s k x).mem = s.mem := rfl
@[simp] theorem setTeam_failing (s : State) (k : Nat) (x : Team) : (setTeam s k x).failing = s.failing := rfl
@[simp] theorem setTeam_keys (s : State) (k : Nat) (x : Team) : (setTeam s k x).keys = s.keys := rfl
@[simp] theorem setTeam_keyGen (s : State) (k : Nat) (x : Team) : (setTeam s k x).keyGen = s.keyGen := rfl
@[simp] theorem setTeam_cur (s : State) (k : Nat) (x : Team) : (setTeam s k x).cur = s.cur := rfl
@[simp] theorem setTeam_turn (s : State) (k : Nat) (x : Team) : (setTeam s k x).turn = s.turn := rfl
@[simp] theorem setTeam_stir (s : State) (k : Nat) (x : Team) : (setTeam s k x).stir = s.stir := rfl
@[simp] theorem setTeam_teams (s : State) (k : Nat) (x : Team) : (setTeam s k x).teams = Tab.put s.teams k x := rfl
@[simp] theorem setTeam_crews (s : State) (k : Nat) (x : Team) : (setTeam s k x).crews = s.crews := rfl
@[simp] theorem setTeam_regions (s : State) (k : Nat) (x : Team) : (setTeam s k x).regions = s.regions := rfl
@[simp] theorem setTeam_comps (s : State) (k : Nat) (x : Team) : (setTeam s k x).comps = s.comps := rfl
@[simp] theorem setTeam_cores (s : State) (k : Nat) (x : Team) : (setTeam s k x).cores = s.cores := rfl
@[simp] theorem setTeam_benches (s : State) (k : Nat) (x : Team) : (setTeam s k x).benches = s.benches := rfl
@[simp] theorem setTeam_clusters (s : State) (k : Nat) (x : Team) : (setTeam s k x).clusters = s.clusters := rfl
@[simp] theorem setTeam_owners (s : State) (k : Nat) (x : Team) : (setTeam s k x).owners = s.owners := rfl
@[simp] theorem setTeam_registering (s : State) (k : Nat) (x : Team) : (setTeam s k x).registering = s.registering := rfl
@[simp] theorem setTeam_watches (s : State) (k : Nat) (x : Team) : (setTeam s k x).watches = s.watches := rfl
@[simp] theorem setTeam_reqs (s : State) (k : Nat) (x : Team) : (setTeam s k x).reqs = s.reqs := rfl
@[simp] theorem setTeam_ops (s : State) (k : Nat) (x : Team) : (setTeam s k x).ops = s.ops := rfl
@[simp] theorem setTeam_fetched (s : State) (k : Nat) (x : Team) : (setTeam s k x).fetched = s.fetched := rfl
@[simp] theorem setTeam_spawning (s : State) (k : Nat) (x : Team) : (setTeam s k x).spawning = s.spawning := rfl
@[simp] theorem setTeam_plane (s : State) (k : Nat) (x : Team) : (setTeam s k x).plane = s.plane := rfl
@[simp] theorem setTeam_mats (s : State) (k : Nat) (x : Team) : (setTeam s k x).mats = s.mats := rfl
@[simp] theorem setTeam_copies (s : State) (k : Nat) (x : Team) : (setTeam s k x).copies = s.copies := rfl
@[simp] theorem setTeam_nextId (s : State) (k : Nat) (x : Team) : (setTeam s k x).nextId = s.nextId := rfl
@[simp] theorem setTeam_bounds (s : State) (k : Nat) (x : Team) : (setTeam s k x).bounds = s.bounds := rfl
@[simp] theorem setTeam_coach (s : State) (k : Nat) (x : Team) : (setTeam s k x).coach = s.coach := rfl
@[simp] theorem setTeam_trainSize (s : State) (k : Nat) (x : Team) : (setTeam s k x).trainSize = s.trainSize := rfl
@[simp] theorem setTeam_trainEn (s : State) (k : Nat) (x : Team) : (setTeam s k x).trainEn = s.trainEn := rfl
@[simp] theorem setTeam_links (s : State) (k : Nat) (x : Team) : (setTeam s k x).links = s.links := rfl
@[simp] theorem setTeam_reach (s : State) (k : Nat) (x : Team) : (setTeam s k x).reach = s.reach := rfl
@[simp] theorem setTeam_streams (s : State) (k : Nat) (x : Team) : (setTeam s k x).streams = s.streams := rfl
@[simp] theorem setTeam_seqs (s : State) (k : Nat) (x : Team) : (setTeam s k x).seqs = s.seqs := rfl
@[simp] theorem setTeam_heirs (s : State) (k : Nat) (x : Team) : (setTeam s k x).heirs = s.heirs := rfl
@[simp] theorem setTeam_lateLost (s : State) (k : Nat) (x : Team) : (setTeam s k x).lateLost = s.lateLost := rfl
@[simp] theorem setTeam_lateDone (s : State) (k : Nat) (x : Team) : (setTeam s k x).lateDone = s.lateDone := rfl
@[simp] theorem setTeam_lateAns (s : State) (k : Nat) (x : Team) : (setTeam s k x).lateAns = s.lateAns := rfl
@[simp] theorem setTeam_dedup (s : State) (k : Nat) (x : Team) : (setTeam s k x).dedup = s.dedup := rfl
@[simp] theorem setTeam_filters (s : State) (k : Nat) (x : Team) : (setTeam s k x).filters = s.filters := rfl
@[simp] theorem setTeam_services (s : State) (k : Nat) (x : Team) : (setTeam s k x).services = s.services := rfl
@[simp] theorem setTeam_heq (s : State) (k : Nat) (x : Team) : (setTeam s k x).heq = s.heq := rfl
@[simp] theorem setTeam_sce (s : State) (k : Nat) (x : Team) : (setTeam s k x).sce = s.sce := rfl
@[simp] theorem setTeam_steerAt (s : State) (k : Nat) (x : Team) : (setTeam s k x).steerAt = s.steerAt := rfl
@[simp] theorem setTeam_throttled (s : State) (k : Nat) (x : Team) : (setTeam s k x).throttled = s.throttled := rfl
@[simp] theorem setTeam_l2 (s : State) (k : Nat) (x : Team) : (setTeam s k x).l2 = s.l2 := rfl
@[simp] theorem setTeam_flushes (s : State) (k : Nat) (x : Team) : (setTeam s k x).flushes = s.flushes := rfl
@[simp] theorem setTeam_level2 (s : State) (k : Nat) (x : Team) : (setTeam s k x).level2 = s.level2 := rfl
@[simp] theorem setTeam_lateDests (s : State) (k : Nat) (x : Team) : (setTeam s k x).lateDests = s.lateDests := rfl
@[simp] theorem setTeam_matEnds (s : State) (k : Nat) (x : Team) : (setTeam s k x).matEnds = s.matEnds := rfl
@[simp] theorem setTeam_answers (s : State) (k : Nat) (x : Team) : (setTeam s k x).answers = s.answers := rfl
@[simp] theorem setTeam_ide (s : State) (k : Nat) (x : Team) : (setTeam s k x).ide = s.ide := rfl

/-! ## setCrew -/

@[simp] theorem setCrew_time (s : State) (k : Nat) (x : Crew) : (setCrew s k x).time = s.time := rfl
@[simp] theorem setCrew_pace (s : State) (k : Nat) (x : Crew) : (setCrew s k x).pace = s.pace := rfl
@[simp] theorem setCrew_powered (s : State) (k : Nat) (x : Crew) : (setCrew s k x).powered = s.powered := rfl
@[simp] theorem setCrew_inputs (s : State) (k : Nat) (x : Crew) : (setCrew s k x).inputs = s.inputs := rfl
@[simp] theorem setCrew_out (s : State) (k : Nat) (x : Crew) : (setCrew s k x).out = s.out := rfl
@[simp] theorem setCrew_fresh (s : State) (k : Nat) (x : Crew) : (setCrew s k x).fresh = s.fresh := rfl
@[simp] theorem setCrew_stalls (s : State) (k : Nat) (x : Crew) : (setCrew s k x).stalls = s.stalls := rfl
@[simp] theorem setCrew_mem (s : State) (k : Nat) (x : Crew) : (setCrew s k x).mem = s.mem := rfl
@[simp] theorem setCrew_failing (s : State) (k : Nat) (x : Crew) : (setCrew s k x).failing = s.failing := rfl
@[simp] theorem setCrew_keys (s : State) (k : Nat) (x : Crew) : (setCrew s k x).keys = s.keys := rfl
@[simp] theorem setCrew_keyGen (s : State) (k : Nat) (x : Crew) : (setCrew s k x).keyGen = s.keyGen := rfl
@[simp] theorem setCrew_cur (s : State) (k : Nat) (x : Crew) : (setCrew s k x).cur = s.cur := rfl
@[simp] theorem setCrew_turn (s : State) (k : Nat) (x : Crew) : (setCrew s k x).turn = s.turn := rfl
@[simp] theorem setCrew_stir (s : State) (k : Nat) (x : Crew) : (setCrew s k x).stir = s.stir := rfl
@[simp] theorem setCrew_teams (s : State) (k : Nat) (x : Crew) : (setCrew s k x).teams = s.teams := rfl
@[simp] theorem setCrew_crews (s : State) (k : Nat) (x : Crew) : (setCrew s k x).crews = Tab.put s.crews k x := rfl
@[simp] theorem setCrew_regions (s : State) (k : Nat) (x : Crew) : (setCrew s k x).regions = s.regions := rfl
@[simp] theorem setCrew_comps (s : State) (k : Nat) (x : Crew) : (setCrew s k x).comps = s.comps := rfl
@[simp] theorem setCrew_cores (s : State) (k : Nat) (x : Crew) : (setCrew s k x).cores = s.cores := rfl
@[simp] theorem setCrew_benches (s : State) (k : Nat) (x : Crew) : (setCrew s k x).benches = s.benches := rfl
@[simp] theorem setCrew_clusters (s : State) (k : Nat) (x : Crew) : (setCrew s k x).clusters = s.clusters := rfl
@[simp] theorem setCrew_owners (s : State) (k : Nat) (x : Crew) : (setCrew s k x).owners = s.owners := rfl
@[simp] theorem setCrew_registering (s : State) (k : Nat) (x : Crew) : (setCrew s k x).registering = s.registering := rfl
@[simp] theorem setCrew_watches (s : State) (k : Nat) (x : Crew) : (setCrew s k x).watches = s.watches := rfl
@[simp] theorem setCrew_reqs (s : State) (k : Nat) (x : Crew) : (setCrew s k x).reqs = s.reqs := rfl
@[simp] theorem setCrew_ops (s : State) (k : Nat) (x : Crew) : (setCrew s k x).ops = s.ops := rfl
@[simp] theorem setCrew_fetched (s : State) (k : Nat) (x : Crew) : (setCrew s k x).fetched = s.fetched := rfl
@[simp] theorem setCrew_spawning (s : State) (k : Nat) (x : Crew) : (setCrew s k x).spawning = s.spawning := rfl
@[simp] theorem setCrew_plane (s : State) (k : Nat) (x : Crew) : (setCrew s k x).plane = s.plane := rfl
@[simp] theorem setCrew_mats (s : State) (k : Nat) (x : Crew) : (setCrew s k x).mats = s.mats := rfl
@[simp] theorem setCrew_copies (s : State) (k : Nat) (x : Crew) : (setCrew s k x).copies = s.copies := rfl
@[simp] theorem setCrew_nextId (s : State) (k : Nat) (x : Crew) : (setCrew s k x).nextId = s.nextId := rfl
@[simp] theorem setCrew_bounds (s : State) (k : Nat) (x : Crew) : (setCrew s k x).bounds = s.bounds := rfl
@[simp] theorem setCrew_coach (s : State) (k : Nat) (x : Crew) : (setCrew s k x).coach = s.coach := rfl
@[simp] theorem setCrew_trainSize (s : State) (k : Nat) (x : Crew) : (setCrew s k x).trainSize = s.trainSize := rfl
@[simp] theorem setCrew_trainEn (s : State) (k : Nat) (x : Crew) : (setCrew s k x).trainEn = s.trainEn := rfl
@[simp] theorem setCrew_links (s : State) (k : Nat) (x : Crew) : (setCrew s k x).links = s.links := rfl
@[simp] theorem setCrew_reach (s : State) (k : Nat) (x : Crew) : (setCrew s k x).reach = s.reach := rfl
@[simp] theorem setCrew_streams (s : State) (k : Nat) (x : Crew) : (setCrew s k x).streams = s.streams := rfl
@[simp] theorem setCrew_seqs (s : State) (k : Nat) (x : Crew) : (setCrew s k x).seqs = s.seqs := rfl
@[simp] theorem setCrew_heirs (s : State) (k : Nat) (x : Crew) : (setCrew s k x).heirs = s.heirs := rfl
@[simp] theorem setCrew_lateLost (s : State) (k : Nat) (x : Crew) : (setCrew s k x).lateLost = s.lateLost := rfl
@[simp] theorem setCrew_lateDone (s : State) (k : Nat) (x : Crew) : (setCrew s k x).lateDone = s.lateDone := rfl
@[simp] theorem setCrew_lateAns (s : State) (k : Nat) (x : Crew) : (setCrew s k x).lateAns = s.lateAns := rfl
@[simp] theorem setCrew_dedup (s : State) (k : Nat) (x : Crew) : (setCrew s k x).dedup = s.dedup := rfl
@[simp] theorem setCrew_filters (s : State) (k : Nat) (x : Crew) : (setCrew s k x).filters = s.filters := rfl
@[simp] theorem setCrew_services (s : State) (k : Nat) (x : Crew) : (setCrew s k x).services = s.services := rfl
@[simp] theorem setCrew_heq (s : State) (k : Nat) (x : Crew) : (setCrew s k x).heq = s.heq := rfl
@[simp] theorem setCrew_sce (s : State) (k : Nat) (x : Crew) : (setCrew s k x).sce = s.sce := rfl
@[simp] theorem setCrew_steerAt (s : State) (k : Nat) (x : Crew) : (setCrew s k x).steerAt = s.steerAt := rfl
@[simp] theorem setCrew_throttled (s : State) (k : Nat) (x : Crew) : (setCrew s k x).throttled = s.throttled := rfl
@[simp] theorem setCrew_l2 (s : State) (k : Nat) (x : Crew) : (setCrew s k x).l2 = s.l2 := rfl
@[simp] theorem setCrew_flushes (s : State) (k : Nat) (x : Crew) : (setCrew s k x).flushes = s.flushes := rfl
@[simp] theorem setCrew_level2 (s : State) (k : Nat) (x : Crew) : (setCrew s k x).level2 = s.level2 := rfl
@[simp] theorem setCrew_lateDests (s : State) (k : Nat) (x : Crew) : (setCrew s k x).lateDests = s.lateDests := rfl
@[simp] theorem setCrew_matEnds (s : State) (k : Nat) (x : Crew) : (setCrew s k x).matEnds = s.matEnds := rfl
@[simp] theorem setCrew_answers (s : State) (k : Nat) (x : Crew) : (setCrew s k x).answers = s.answers := rfl
@[simp] theorem setCrew_ide (s : State) (k : Nat) (x : Crew) : (setCrew s k x).ide = s.ide := rfl

/-! ## setCore -/

@[simp] theorem setCore_time (s : State) (k : Nat) (x : Core) : (setCore s k x).time = s.time := rfl
@[simp] theorem setCore_pace (s : State) (k : Nat) (x : Core) : (setCore s k x).pace = s.pace := rfl
@[simp] theorem setCore_powered (s : State) (k : Nat) (x : Core) : (setCore s k x).powered = s.powered := rfl
@[simp] theorem setCore_inputs (s : State) (k : Nat) (x : Core) : (setCore s k x).inputs = s.inputs := rfl
@[simp] theorem setCore_out (s : State) (k : Nat) (x : Core) : (setCore s k x).out = s.out := rfl
@[simp] theorem setCore_fresh (s : State) (k : Nat) (x : Core) : (setCore s k x).fresh = s.fresh := rfl
@[simp] theorem setCore_stalls (s : State) (k : Nat) (x : Core) : (setCore s k x).stalls = s.stalls := rfl
@[simp] theorem setCore_mem (s : State) (k : Nat) (x : Core) : (setCore s k x).mem = s.mem := rfl
@[simp] theorem setCore_failing (s : State) (k : Nat) (x : Core) : (setCore s k x).failing = s.failing := rfl
@[simp] theorem setCore_keys (s : State) (k : Nat) (x : Core) : (setCore s k x).keys = s.keys := rfl
@[simp] theorem setCore_keyGen (s : State) (k : Nat) (x : Core) : (setCore s k x).keyGen = s.keyGen := rfl
@[simp] theorem setCore_cur (s : State) (k : Nat) (x : Core) : (setCore s k x).cur = s.cur := rfl
@[simp] theorem setCore_turn (s : State) (k : Nat) (x : Core) : (setCore s k x).turn = s.turn := rfl
@[simp] theorem setCore_stir (s : State) (k : Nat) (x : Core) : (setCore s k x).stir = s.stir := rfl
@[simp] theorem setCore_teams (s : State) (k : Nat) (x : Core) : (setCore s k x).teams = s.teams := rfl
@[simp] theorem setCore_crews (s : State) (k : Nat) (x : Core) : (setCore s k x).crews = s.crews := rfl
@[simp] theorem setCore_regions (s : State) (k : Nat) (x : Core) : (setCore s k x).regions = s.regions := rfl
@[simp] theorem setCore_comps (s : State) (k : Nat) (x : Core) : (setCore s k x).comps = s.comps := rfl
@[simp] theorem setCore_cores (s : State) (k : Nat) (x : Core) : (setCore s k x).cores = Tab.put s.cores k x := rfl
@[simp] theorem setCore_benches (s : State) (k : Nat) (x : Core) : (setCore s k x).benches = s.benches := rfl
@[simp] theorem setCore_clusters (s : State) (k : Nat) (x : Core) : (setCore s k x).clusters = s.clusters := rfl
@[simp] theorem setCore_owners (s : State) (k : Nat) (x : Core) : (setCore s k x).owners = s.owners := rfl
@[simp] theorem setCore_registering (s : State) (k : Nat) (x : Core) : (setCore s k x).registering = s.registering := rfl
@[simp] theorem setCore_watches (s : State) (k : Nat) (x : Core) : (setCore s k x).watches = s.watches := rfl
@[simp] theorem setCore_reqs (s : State) (k : Nat) (x : Core) : (setCore s k x).reqs = s.reqs := rfl
@[simp] theorem setCore_ops (s : State) (k : Nat) (x : Core) : (setCore s k x).ops = s.ops := rfl
@[simp] theorem setCore_fetched (s : State) (k : Nat) (x : Core) : (setCore s k x).fetched = s.fetched := rfl
@[simp] theorem setCore_spawning (s : State) (k : Nat) (x : Core) : (setCore s k x).spawning = s.spawning := rfl
@[simp] theorem setCore_plane (s : State) (k : Nat) (x : Core) : (setCore s k x).plane = s.plane := rfl
@[simp] theorem setCore_mats (s : State) (k : Nat) (x : Core) : (setCore s k x).mats = s.mats := rfl
@[simp] theorem setCore_copies (s : State) (k : Nat) (x : Core) : (setCore s k x).copies = s.copies := rfl
@[simp] theorem setCore_nextId (s : State) (k : Nat) (x : Core) : (setCore s k x).nextId = s.nextId := rfl
@[simp] theorem setCore_bounds (s : State) (k : Nat) (x : Core) : (setCore s k x).bounds = s.bounds := rfl
@[simp] theorem setCore_coach (s : State) (k : Nat) (x : Core) : (setCore s k x).coach = s.coach := rfl
@[simp] theorem setCore_trainSize (s : State) (k : Nat) (x : Core) : (setCore s k x).trainSize = s.trainSize := rfl
@[simp] theorem setCore_trainEn (s : State) (k : Nat) (x : Core) : (setCore s k x).trainEn = s.trainEn := rfl
@[simp] theorem setCore_links (s : State) (k : Nat) (x : Core) : (setCore s k x).links = s.links := rfl
@[simp] theorem setCore_reach (s : State) (k : Nat) (x : Core) : (setCore s k x).reach = s.reach := rfl
@[simp] theorem setCore_streams (s : State) (k : Nat) (x : Core) : (setCore s k x).streams = s.streams := rfl
@[simp] theorem setCore_seqs (s : State) (k : Nat) (x : Core) : (setCore s k x).seqs = s.seqs := rfl
@[simp] theorem setCore_heirs (s : State) (k : Nat) (x : Core) : (setCore s k x).heirs = s.heirs := rfl
@[simp] theorem setCore_lateLost (s : State) (k : Nat) (x : Core) : (setCore s k x).lateLost = s.lateLost := rfl
@[simp] theorem setCore_lateDone (s : State) (k : Nat) (x : Core) : (setCore s k x).lateDone = s.lateDone := rfl
@[simp] theorem setCore_lateAns (s : State) (k : Nat) (x : Core) : (setCore s k x).lateAns = s.lateAns := rfl
@[simp] theorem setCore_dedup (s : State) (k : Nat) (x : Core) : (setCore s k x).dedup = s.dedup := rfl
@[simp] theorem setCore_filters (s : State) (k : Nat) (x : Core) : (setCore s k x).filters = s.filters := rfl
@[simp] theorem setCore_services (s : State) (k : Nat) (x : Core) : (setCore s k x).services = s.services := rfl
@[simp] theorem setCore_heq (s : State) (k : Nat) (x : Core) : (setCore s k x).heq = s.heq := rfl
@[simp] theorem setCore_sce (s : State) (k : Nat) (x : Core) : (setCore s k x).sce = s.sce := rfl
@[simp] theorem setCore_steerAt (s : State) (k : Nat) (x : Core) : (setCore s k x).steerAt = s.steerAt := rfl
@[simp] theorem setCore_throttled (s : State) (k : Nat) (x : Core) : (setCore s k x).throttled = s.throttled := rfl
@[simp] theorem setCore_l2 (s : State) (k : Nat) (x : Core) : (setCore s k x).l2 = s.l2 := rfl
@[simp] theorem setCore_flushes (s : State) (k : Nat) (x : Core) : (setCore s k x).flushes = s.flushes := rfl
@[simp] theorem setCore_level2 (s : State) (k : Nat) (x : Core) : (setCore s k x).level2 = s.level2 := rfl
@[simp] theorem setCore_lateDests (s : State) (k : Nat) (x : Core) : (setCore s k x).lateDests = s.lateDests := rfl
@[simp] theorem setCore_matEnds (s : State) (k : Nat) (x : Core) : (setCore s k x).matEnds = s.matEnds := rfl
@[simp] theorem setCore_answers (s : State) (k : Nat) (x : Core) : (setCore s k x).answers = s.answers := rfl
@[simp] theorem setCore_ide (s : State) (k : Nat) (x : Core) : (setCore s k x).ide = s.ide := rfl

/-! ## setCluster -/

@[simp] theorem setCluster_time (s : State) (k : Nat) (x : Cluster) : (setCluster s k x).time = s.time := rfl
@[simp] theorem setCluster_pace (s : State) (k : Nat) (x : Cluster) : (setCluster s k x).pace = s.pace := rfl
@[simp] theorem setCluster_powered (s : State) (k : Nat) (x : Cluster) : (setCluster s k x).powered = s.powered := rfl
@[simp] theorem setCluster_inputs (s : State) (k : Nat) (x : Cluster) : (setCluster s k x).inputs = s.inputs := rfl
@[simp] theorem setCluster_out (s : State) (k : Nat) (x : Cluster) : (setCluster s k x).out = s.out := rfl
@[simp] theorem setCluster_fresh (s : State) (k : Nat) (x : Cluster) : (setCluster s k x).fresh = s.fresh := rfl
@[simp] theorem setCluster_stalls (s : State) (k : Nat) (x : Cluster) : (setCluster s k x).stalls = s.stalls := rfl
@[simp] theorem setCluster_mem (s : State) (k : Nat) (x : Cluster) : (setCluster s k x).mem = s.mem := rfl
@[simp] theorem setCluster_failing (s : State) (k : Nat) (x : Cluster) : (setCluster s k x).failing = s.failing := rfl
@[simp] theorem setCluster_keys (s : State) (k : Nat) (x : Cluster) : (setCluster s k x).keys = s.keys := rfl
@[simp] theorem setCluster_keyGen (s : State) (k : Nat) (x : Cluster) : (setCluster s k x).keyGen = s.keyGen := rfl
@[simp] theorem setCluster_cur (s : State) (k : Nat) (x : Cluster) : (setCluster s k x).cur = s.cur := rfl
@[simp] theorem setCluster_turn (s : State) (k : Nat) (x : Cluster) : (setCluster s k x).turn = s.turn := rfl
@[simp] theorem setCluster_stir (s : State) (k : Nat) (x : Cluster) : (setCluster s k x).stir = s.stir := rfl
@[simp] theorem setCluster_teams (s : State) (k : Nat) (x : Cluster) : (setCluster s k x).teams = s.teams := rfl
@[simp] theorem setCluster_crews (s : State) (k : Nat) (x : Cluster) : (setCluster s k x).crews = s.crews := rfl
@[simp] theorem setCluster_regions (s : State) (k : Nat) (x : Cluster) : (setCluster s k x).regions = s.regions := rfl
@[simp] theorem setCluster_comps (s : State) (k : Nat) (x : Cluster) : (setCluster s k x).comps = s.comps := rfl
@[simp] theorem setCluster_cores (s : State) (k : Nat) (x : Cluster) : (setCluster s k x).cores = s.cores := rfl
@[simp] theorem setCluster_benches (s : State) (k : Nat) (x : Cluster) : (setCluster s k x).benches = s.benches := rfl
@[simp] theorem setCluster_clusters (s : State) (k : Nat) (x : Cluster) : (setCluster s k x).clusters = Tab.put s.clusters k x := rfl
@[simp] theorem setCluster_owners (s : State) (k : Nat) (x : Cluster) : (setCluster s k x).owners = s.owners := rfl
@[simp] theorem setCluster_registering (s : State) (k : Nat) (x : Cluster) : (setCluster s k x).registering = s.registering := rfl
@[simp] theorem setCluster_watches (s : State) (k : Nat) (x : Cluster) : (setCluster s k x).watches = s.watches := rfl
@[simp] theorem setCluster_reqs (s : State) (k : Nat) (x : Cluster) : (setCluster s k x).reqs = s.reqs := rfl
@[simp] theorem setCluster_ops (s : State) (k : Nat) (x : Cluster) : (setCluster s k x).ops = s.ops := rfl
@[simp] theorem setCluster_fetched (s : State) (k : Nat) (x : Cluster) : (setCluster s k x).fetched = s.fetched := rfl
@[simp] theorem setCluster_spawning (s : State) (k : Nat) (x : Cluster) : (setCluster s k x).spawning = s.spawning := rfl
@[simp] theorem setCluster_plane (s : State) (k : Nat) (x : Cluster) : (setCluster s k x).plane = s.plane := rfl
@[simp] theorem setCluster_mats (s : State) (k : Nat) (x : Cluster) : (setCluster s k x).mats = s.mats := rfl
@[simp] theorem setCluster_copies (s : State) (k : Nat) (x : Cluster) : (setCluster s k x).copies = s.copies := rfl
@[simp] theorem setCluster_nextId (s : State) (k : Nat) (x : Cluster) : (setCluster s k x).nextId = s.nextId := rfl
@[simp] theorem setCluster_bounds (s : State) (k : Nat) (x : Cluster) : (setCluster s k x).bounds = s.bounds := rfl
@[simp] theorem setCluster_coach (s : State) (k : Nat) (x : Cluster) : (setCluster s k x).coach = s.coach := rfl
@[simp] theorem setCluster_trainSize (s : State) (k : Nat) (x : Cluster) : (setCluster s k x).trainSize = s.trainSize := rfl
@[simp] theorem setCluster_trainEn (s : State) (k : Nat) (x : Cluster) : (setCluster s k x).trainEn = s.trainEn := rfl
@[simp] theorem setCluster_links (s : State) (k : Nat) (x : Cluster) : (setCluster s k x).links = s.links := rfl
@[simp] theorem setCluster_reach (s : State) (k : Nat) (x : Cluster) : (setCluster s k x).reach = s.reach := rfl
@[simp] theorem setCluster_streams (s : State) (k : Nat) (x : Cluster) : (setCluster s k x).streams = s.streams := rfl
@[simp] theorem setCluster_seqs (s : State) (k : Nat) (x : Cluster) : (setCluster s k x).seqs = s.seqs := rfl
@[simp] theorem setCluster_heirs (s : State) (k : Nat) (x : Cluster) : (setCluster s k x).heirs = s.heirs := rfl
@[simp] theorem setCluster_lateLost (s : State) (k : Nat) (x : Cluster) : (setCluster s k x).lateLost = s.lateLost := rfl
@[simp] theorem setCluster_lateDone (s : State) (k : Nat) (x : Cluster) : (setCluster s k x).lateDone = s.lateDone := rfl
@[simp] theorem setCluster_lateAns (s : State) (k : Nat) (x : Cluster) : (setCluster s k x).lateAns = s.lateAns := rfl
@[simp] theorem setCluster_dedup (s : State) (k : Nat) (x : Cluster) : (setCluster s k x).dedup = s.dedup := rfl
@[simp] theorem setCluster_filters (s : State) (k : Nat) (x : Cluster) : (setCluster s k x).filters = s.filters := rfl
@[simp] theorem setCluster_services (s : State) (k : Nat) (x : Cluster) : (setCluster s k x).services = s.services := rfl
@[simp] theorem setCluster_heq (s : State) (k : Nat) (x : Cluster) : (setCluster s k x).heq = s.heq := rfl
@[simp] theorem setCluster_sce (s : State) (k : Nat) (x : Cluster) : (setCluster s k x).sce = s.sce := rfl
@[simp] theorem setCluster_steerAt (s : State) (k : Nat) (x : Cluster) : (setCluster s k x).steerAt = s.steerAt := rfl
@[simp] theorem setCluster_throttled (s : State) (k : Nat) (x : Cluster) : (setCluster s k x).throttled = s.throttled := rfl
@[simp] theorem setCluster_l2 (s : State) (k : Nat) (x : Cluster) : (setCluster s k x).l2 = s.l2 := rfl
@[simp] theorem setCluster_flushes (s : State) (k : Nat) (x : Cluster) : (setCluster s k x).flushes = s.flushes := rfl
@[simp] theorem setCluster_level2 (s : State) (k : Nat) (x : Cluster) : (setCluster s k x).level2 = s.level2 := rfl
@[simp] theorem setCluster_lateDests (s : State) (k : Nat) (x : Cluster) : (setCluster s k x).lateDests = s.lateDests := rfl
@[simp] theorem setCluster_matEnds (s : State) (k : Nat) (x : Cluster) : (setCluster s k x).matEnds = s.matEnds := rfl
@[simp] theorem setCluster_answers (s : State) (k : Nat) (x : Cluster) : (setCluster s k x).answers = s.answers := rfl
@[simp] theorem setCluster_ide (s : State) (k : Nat) (x : Cluster) : (setCluster s k x).ide = s.ide := rfl

/-! ## setBench -/

@[simp] theorem setBench_time (s : State) (k : Nat) (x : Bench) : (setBench s k x).time = s.time := rfl
@[simp] theorem setBench_pace (s : State) (k : Nat) (x : Bench) : (setBench s k x).pace = s.pace := rfl
@[simp] theorem setBench_powered (s : State) (k : Nat) (x : Bench) : (setBench s k x).powered = s.powered := rfl
@[simp] theorem setBench_inputs (s : State) (k : Nat) (x : Bench) : (setBench s k x).inputs = s.inputs := rfl
@[simp] theorem setBench_out (s : State) (k : Nat) (x : Bench) : (setBench s k x).out = s.out := rfl
@[simp] theorem setBench_fresh (s : State) (k : Nat) (x : Bench) : (setBench s k x).fresh = s.fresh := rfl
@[simp] theorem setBench_stalls (s : State) (k : Nat) (x : Bench) : (setBench s k x).stalls = s.stalls := rfl
@[simp] theorem setBench_mem (s : State) (k : Nat) (x : Bench) : (setBench s k x).mem = s.mem := rfl
@[simp] theorem setBench_failing (s : State) (k : Nat) (x : Bench) : (setBench s k x).failing = s.failing := rfl
@[simp] theorem setBench_keys (s : State) (k : Nat) (x : Bench) : (setBench s k x).keys = s.keys := rfl
@[simp] theorem setBench_keyGen (s : State) (k : Nat) (x : Bench) : (setBench s k x).keyGen = s.keyGen := rfl
@[simp] theorem setBench_cur (s : State) (k : Nat) (x : Bench) : (setBench s k x).cur = s.cur := rfl
@[simp] theorem setBench_turn (s : State) (k : Nat) (x : Bench) : (setBench s k x).turn = s.turn := rfl
@[simp] theorem setBench_stir (s : State) (k : Nat) (x : Bench) : (setBench s k x).stir = s.stir := rfl
@[simp] theorem setBench_teams (s : State) (k : Nat) (x : Bench) : (setBench s k x).teams = s.teams := rfl
@[simp] theorem setBench_crews (s : State) (k : Nat) (x : Bench) : (setBench s k x).crews = s.crews := rfl
@[simp] theorem setBench_regions (s : State) (k : Nat) (x : Bench) : (setBench s k x).regions = s.regions := rfl
@[simp] theorem setBench_comps (s : State) (k : Nat) (x : Bench) : (setBench s k x).comps = s.comps := rfl
@[simp] theorem setBench_cores (s : State) (k : Nat) (x : Bench) : (setBench s k x).cores = s.cores := rfl
@[simp] theorem setBench_benches (s : State) (k : Nat) (x : Bench) : (setBench s k x).benches = Tab.put s.benches k x := rfl
@[simp] theorem setBench_clusters (s : State) (k : Nat) (x : Bench) : (setBench s k x).clusters = s.clusters := rfl
@[simp] theorem setBench_owners (s : State) (k : Nat) (x : Bench) : (setBench s k x).owners = s.owners := rfl
@[simp] theorem setBench_registering (s : State) (k : Nat) (x : Bench) : (setBench s k x).registering = s.registering := rfl
@[simp] theorem setBench_watches (s : State) (k : Nat) (x : Bench) : (setBench s k x).watches = s.watches := rfl
@[simp] theorem setBench_reqs (s : State) (k : Nat) (x : Bench) : (setBench s k x).reqs = s.reqs := rfl
@[simp] theorem setBench_ops (s : State) (k : Nat) (x : Bench) : (setBench s k x).ops = s.ops := rfl
@[simp] theorem setBench_fetched (s : State) (k : Nat) (x : Bench) : (setBench s k x).fetched = s.fetched := rfl
@[simp] theorem setBench_spawning (s : State) (k : Nat) (x : Bench) : (setBench s k x).spawning = s.spawning := rfl
@[simp] theorem setBench_plane (s : State) (k : Nat) (x : Bench) : (setBench s k x).plane = s.plane := rfl
@[simp] theorem setBench_mats (s : State) (k : Nat) (x : Bench) : (setBench s k x).mats = s.mats := rfl
@[simp] theorem setBench_copies (s : State) (k : Nat) (x : Bench) : (setBench s k x).copies = s.copies := rfl
@[simp] theorem setBench_nextId (s : State) (k : Nat) (x : Bench) : (setBench s k x).nextId = s.nextId := rfl
@[simp] theorem setBench_bounds (s : State) (k : Nat) (x : Bench) : (setBench s k x).bounds = s.bounds := rfl
@[simp] theorem setBench_coach (s : State) (k : Nat) (x : Bench) : (setBench s k x).coach = s.coach := rfl
@[simp] theorem setBench_trainSize (s : State) (k : Nat) (x : Bench) : (setBench s k x).trainSize = s.trainSize := rfl
@[simp] theorem setBench_trainEn (s : State) (k : Nat) (x : Bench) : (setBench s k x).trainEn = s.trainEn := rfl
@[simp] theorem setBench_links (s : State) (k : Nat) (x : Bench) : (setBench s k x).links = s.links := rfl
@[simp] theorem setBench_reach (s : State) (k : Nat) (x : Bench) : (setBench s k x).reach = s.reach := rfl
@[simp] theorem setBench_streams (s : State) (k : Nat) (x : Bench) : (setBench s k x).streams = s.streams := rfl
@[simp] theorem setBench_seqs (s : State) (k : Nat) (x : Bench) : (setBench s k x).seqs = s.seqs := rfl
@[simp] theorem setBench_heirs (s : State) (k : Nat) (x : Bench) : (setBench s k x).heirs = s.heirs := rfl
@[simp] theorem setBench_lateLost (s : State) (k : Nat) (x : Bench) : (setBench s k x).lateLost = s.lateLost := rfl
@[simp] theorem setBench_lateDone (s : State) (k : Nat) (x : Bench) : (setBench s k x).lateDone = s.lateDone := rfl
@[simp] theorem setBench_lateAns (s : State) (k : Nat) (x : Bench) : (setBench s k x).lateAns = s.lateAns := rfl
@[simp] theorem setBench_dedup (s : State) (k : Nat) (x : Bench) : (setBench s k x).dedup = s.dedup := rfl
@[simp] theorem setBench_filters (s : State) (k : Nat) (x : Bench) : (setBench s k x).filters = s.filters := rfl
@[simp] theorem setBench_services (s : State) (k : Nat) (x : Bench) : (setBench s k x).services = s.services := rfl
@[simp] theorem setBench_heq (s : State) (k : Nat) (x : Bench) : (setBench s k x).heq = s.heq := rfl
@[simp] theorem setBench_sce (s : State) (k : Nat) (x : Bench) : (setBench s k x).sce = s.sce := rfl
@[simp] theorem setBench_steerAt (s : State) (k : Nat) (x : Bench) : (setBench s k x).steerAt = s.steerAt := rfl
@[simp] theorem setBench_throttled (s : State) (k : Nat) (x : Bench) : (setBench s k x).throttled = s.throttled := rfl
@[simp] theorem setBench_l2 (s : State) (k : Nat) (x : Bench) : (setBench s k x).l2 = s.l2 := rfl
@[simp] theorem setBench_flushes (s : State) (k : Nat) (x : Bench) : (setBench s k x).flushes = s.flushes := rfl
@[simp] theorem setBench_level2 (s : State) (k : Nat) (x : Bench) : (setBench s k x).level2 = s.level2 := rfl
@[simp] theorem setBench_lateDests (s : State) (k : Nat) (x : Bench) : (setBench s k x).lateDests = s.lateDests := rfl
@[simp] theorem setBench_matEnds (s : State) (k : Nat) (x : Bench) : (setBench s k x).matEnds = s.matEnds := rfl
@[simp] theorem setBench_answers (s : State) (k : Nat) (x : Bench) : (setBench s k x).answers = s.answers := rfl
@[simp] theorem setBench_ide (s : State) (k : Nat) (x : Bench) : (setBench s k x).ide = s.ide := rfl

/-! ## setComp -/

@[simp] theorem setComp_time (s : State) (k : Nat) (x : Comp) : (setComp s k x).time = s.time := rfl
@[simp] theorem setComp_pace (s : State) (k : Nat) (x : Comp) : (setComp s k x).pace = s.pace := rfl
@[simp] theorem setComp_powered (s : State) (k : Nat) (x : Comp) : (setComp s k x).powered = s.powered := rfl
@[simp] theorem setComp_inputs (s : State) (k : Nat) (x : Comp) : (setComp s k x).inputs = s.inputs := rfl
@[simp] theorem setComp_out (s : State) (k : Nat) (x : Comp) : (setComp s k x).out = s.out := rfl
@[simp] theorem setComp_fresh (s : State) (k : Nat) (x : Comp) : (setComp s k x).fresh = s.fresh := rfl
@[simp] theorem setComp_stalls (s : State) (k : Nat) (x : Comp) : (setComp s k x).stalls = s.stalls := rfl
@[simp] theorem setComp_mem (s : State) (k : Nat) (x : Comp) : (setComp s k x).mem = s.mem := rfl
@[simp] theorem setComp_failing (s : State) (k : Nat) (x : Comp) : (setComp s k x).failing = s.failing := rfl
@[simp] theorem setComp_keys (s : State) (k : Nat) (x : Comp) : (setComp s k x).keys = s.keys := rfl
@[simp] theorem setComp_keyGen (s : State) (k : Nat) (x : Comp) : (setComp s k x).keyGen = s.keyGen := rfl
@[simp] theorem setComp_cur (s : State) (k : Nat) (x : Comp) : (setComp s k x).cur = s.cur := rfl
@[simp] theorem setComp_turn (s : State) (k : Nat) (x : Comp) : (setComp s k x).turn = s.turn := rfl
@[simp] theorem setComp_stir (s : State) (k : Nat) (x : Comp) : (setComp s k x).stir = s.stir := rfl
@[simp] theorem setComp_teams (s : State) (k : Nat) (x : Comp) : (setComp s k x).teams = s.teams := rfl
@[simp] theorem setComp_crews (s : State) (k : Nat) (x : Comp) : (setComp s k x).crews = s.crews := rfl
@[simp] theorem setComp_regions (s : State) (k : Nat) (x : Comp) : (setComp s k x).regions = s.regions := rfl
@[simp] theorem setComp_comps (s : State) (k : Nat) (x : Comp) : (setComp s k x).comps = Tab.put s.comps k x := rfl
@[simp] theorem setComp_cores (s : State) (k : Nat) (x : Comp) : (setComp s k x).cores = s.cores := rfl
@[simp] theorem setComp_benches (s : State) (k : Nat) (x : Comp) : (setComp s k x).benches = s.benches := rfl
@[simp] theorem setComp_clusters (s : State) (k : Nat) (x : Comp) : (setComp s k x).clusters = s.clusters := rfl
@[simp] theorem setComp_owners (s : State) (k : Nat) (x : Comp) : (setComp s k x).owners = s.owners := rfl
@[simp] theorem setComp_registering (s : State) (k : Nat) (x : Comp) : (setComp s k x).registering = s.registering := rfl
@[simp] theorem setComp_watches (s : State) (k : Nat) (x : Comp) : (setComp s k x).watches = s.watches := rfl
@[simp] theorem setComp_reqs (s : State) (k : Nat) (x : Comp) : (setComp s k x).reqs = s.reqs := rfl
@[simp] theorem setComp_ops (s : State) (k : Nat) (x : Comp) : (setComp s k x).ops = s.ops := rfl
@[simp] theorem setComp_fetched (s : State) (k : Nat) (x : Comp) : (setComp s k x).fetched = s.fetched := rfl
@[simp] theorem setComp_spawning (s : State) (k : Nat) (x : Comp) : (setComp s k x).spawning = s.spawning := rfl
@[simp] theorem setComp_plane (s : State) (k : Nat) (x : Comp) : (setComp s k x).plane = s.plane := rfl
@[simp] theorem setComp_mats (s : State) (k : Nat) (x : Comp) : (setComp s k x).mats = s.mats := rfl
@[simp] theorem setComp_copies (s : State) (k : Nat) (x : Comp) : (setComp s k x).copies = s.copies := rfl
@[simp] theorem setComp_nextId (s : State) (k : Nat) (x : Comp) : (setComp s k x).nextId = s.nextId := rfl
@[simp] theorem setComp_bounds (s : State) (k : Nat) (x : Comp) : (setComp s k x).bounds = s.bounds := rfl
@[simp] theorem setComp_coach (s : State) (k : Nat) (x : Comp) : (setComp s k x).coach = s.coach := rfl
@[simp] theorem setComp_trainSize (s : State) (k : Nat) (x : Comp) : (setComp s k x).trainSize = s.trainSize := rfl
@[simp] theorem setComp_trainEn (s : State) (k : Nat) (x : Comp) : (setComp s k x).trainEn = s.trainEn := rfl
@[simp] theorem setComp_links (s : State) (k : Nat) (x : Comp) : (setComp s k x).links = s.links := rfl
@[simp] theorem setComp_reach (s : State) (k : Nat) (x : Comp) : (setComp s k x).reach = s.reach := rfl
@[simp] theorem setComp_streams (s : State) (k : Nat) (x : Comp) : (setComp s k x).streams = s.streams := rfl
@[simp] theorem setComp_seqs (s : State) (k : Nat) (x : Comp) : (setComp s k x).seqs = s.seqs := rfl
@[simp] theorem setComp_heirs (s : State) (k : Nat) (x : Comp) : (setComp s k x).heirs = s.heirs := rfl
@[simp] theorem setComp_lateLost (s : State) (k : Nat) (x : Comp) : (setComp s k x).lateLost = s.lateLost := rfl
@[simp] theorem setComp_lateDone (s : State) (k : Nat) (x : Comp) : (setComp s k x).lateDone = s.lateDone := rfl
@[simp] theorem setComp_lateAns (s : State) (k : Nat) (x : Comp) : (setComp s k x).lateAns = s.lateAns := rfl
@[simp] theorem setComp_dedup (s : State) (k : Nat) (x : Comp) : (setComp s k x).dedup = s.dedup := rfl
@[simp] theorem setComp_filters (s : State) (k : Nat) (x : Comp) : (setComp s k x).filters = s.filters := rfl
@[simp] theorem setComp_services (s : State) (k : Nat) (x : Comp) : (setComp s k x).services = s.services := rfl
@[simp] theorem setComp_heq (s : State) (k : Nat) (x : Comp) : (setComp s k x).heq = s.heq := rfl
@[simp] theorem setComp_sce (s : State) (k : Nat) (x : Comp) : (setComp s k x).sce = s.sce := rfl
@[simp] theorem setComp_steerAt (s : State) (k : Nat) (x : Comp) : (setComp s k x).steerAt = s.steerAt := rfl
@[simp] theorem setComp_throttled (s : State) (k : Nat) (x : Comp) : (setComp s k x).throttled = s.throttled := rfl
@[simp] theorem setComp_l2 (s : State) (k : Nat) (x : Comp) : (setComp s k x).l2 = s.l2 := rfl
@[simp] theorem setComp_flushes (s : State) (k : Nat) (x : Comp) : (setComp s k x).flushes = s.flushes := rfl
@[simp] theorem setComp_level2 (s : State) (k : Nat) (x : Comp) : (setComp s k x).level2 = s.level2 := rfl
@[simp] theorem setComp_lateDests (s : State) (k : Nat) (x : Comp) : (setComp s k x).lateDests = s.lateDests := rfl
@[simp] theorem setComp_matEnds (s : State) (k : Nat) (x : Comp) : (setComp s k x).matEnds = s.matEnds := rfl
@[simp] theorem setComp_answers (s : State) (k : Nat) (x : Comp) : (setComp s k x).answers = s.answers := rfl
@[simp] theorem setComp_ide (s : State) (k : Nat) (x : Comp) : (setComp s k x).ide = s.ide := rfl

/-! ## onTeam -/

@[simp] theorem onTeam_time (s : State) (k : Nat) (f : Team → Team) : (onTeam s k f).time = s.time := by
  unfold onTeam; split <;> rfl
@[simp] theorem onTeam_pace (s : State) (k : Nat) (f : Team → Team) : (onTeam s k f).pace = s.pace := by
  unfold onTeam; split <;> rfl
@[simp] theorem onTeam_powered (s : State) (k : Nat) (f : Team → Team) : (onTeam s k f).powered = s.powered := by
  unfold onTeam; split <;> rfl
@[simp] theorem onTeam_inputs (s : State) (k : Nat) (f : Team → Team) : (onTeam s k f).inputs = s.inputs := by
  unfold onTeam; split <;> rfl
@[simp] theorem onTeam_out (s : State) (k : Nat) (f : Team → Team) : (onTeam s k f).out = s.out := by
  unfold onTeam; split <;> rfl
@[simp] theorem onTeam_fresh (s : State) (k : Nat) (f : Team → Team) : (onTeam s k f).fresh = s.fresh := by
  unfold onTeam; split <;> rfl
@[simp] theorem onTeam_stalls (s : State) (k : Nat) (f : Team → Team) : (onTeam s k f).stalls = s.stalls := by
  unfold onTeam; split <;> rfl
@[simp] theorem onTeam_mem (s : State) (k : Nat) (f : Team → Team) : (onTeam s k f).mem = s.mem := by
  unfold onTeam; split <;> rfl
@[simp] theorem onTeam_failing (s : State) (k : Nat) (f : Team → Team) : (onTeam s k f).failing = s.failing := by
  unfold onTeam; split <;> rfl
@[simp] theorem onTeam_keys (s : State) (k : Nat) (f : Team → Team) : (onTeam s k f).keys = s.keys := by
  unfold onTeam; split <;> rfl
@[simp] theorem onTeam_keyGen (s : State) (k : Nat) (f : Team → Team) : (onTeam s k f).keyGen = s.keyGen := by
  unfold onTeam; split <;> rfl
@[simp] theorem onTeam_cur (s : State) (k : Nat) (f : Team → Team) : (onTeam s k f).cur = s.cur := by
  unfold onTeam; split <;> rfl
@[simp] theorem onTeam_turn (s : State) (k : Nat) (f : Team → Team) : (onTeam s k f).turn = s.turn := by
  unfold onTeam; split <;> rfl
@[simp] theorem onTeam_stir (s : State) (k : Nat) (f : Team → Team) : (onTeam s k f).stir = s.stir := by
  unfold onTeam; split <;> rfl
@[simp] theorem onTeam_crews (s : State) (k : Nat) (f : Team → Team) : (onTeam s k f).crews = s.crews := by
  unfold onTeam; split <;> rfl
@[simp] theorem onTeam_regions (s : State) (k : Nat) (f : Team → Team) : (onTeam s k f).regions = s.regions := by
  unfold onTeam; split <;> rfl
@[simp] theorem onTeam_comps (s : State) (k : Nat) (f : Team → Team) : (onTeam s k f).comps = s.comps := by
  unfold onTeam; split <;> rfl
@[simp] theorem onTeam_cores (s : State) (k : Nat) (f : Team → Team) : (onTeam s k f).cores = s.cores := by
  unfold onTeam; split <;> rfl
@[simp] theorem onTeam_benches (s : State) (k : Nat) (f : Team → Team) : (onTeam s k f).benches = s.benches := by
  unfold onTeam; split <;> rfl
@[simp] theorem onTeam_clusters (s : State) (k : Nat) (f : Team → Team) : (onTeam s k f).clusters = s.clusters := by
  unfold onTeam; split <;> rfl
@[simp] theorem onTeam_owners (s : State) (k : Nat) (f : Team → Team) : (onTeam s k f).owners = s.owners := by
  unfold onTeam; split <;> rfl
@[simp] theorem onTeam_registering (s : State) (k : Nat) (f : Team → Team) : (onTeam s k f).registering = s.registering := by
  unfold onTeam; split <;> rfl
@[simp] theorem onTeam_watches (s : State) (k : Nat) (f : Team → Team) : (onTeam s k f).watches = s.watches := by
  unfold onTeam; split <;> rfl
@[simp] theorem onTeam_reqs (s : State) (k : Nat) (f : Team → Team) : (onTeam s k f).reqs = s.reqs := by
  unfold onTeam; split <;> rfl
@[simp] theorem onTeam_ops (s : State) (k : Nat) (f : Team → Team) : (onTeam s k f).ops = s.ops := by
  unfold onTeam; split <;> rfl
@[simp] theorem onTeam_fetched (s : State) (k : Nat) (f : Team → Team) : (onTeam s k f).fetched = s.fetched := by
  unfold onTeam; split <;> rfl
@[simp] theorem onTeam_spawning (s : State) (k : Nat) (f : Team → Team) : (onTeam s k f).spawning = s.spawning := by
  unfold onTeam; split <;> rfl
@[simp] theorem onTeam_plane (s : State) (k : Nat) (f : Team → Team) : (onTeam s k f).plane = s.plane := by
  unfold onTeam; split <;> rfl
@[simp] theorem onTeam_mats (s : State) (k : Nat) (f : Team → Team) : (onTeam s k f).mats = s.mats := by
  unfold onTeam; split <;> rfl
@[simp] theorem onTeam_copies (s : State) (k : Nat) (f : Team → Team) : (onTeam s k f).copies = s.copies := by
  unfold onTeam; split <;> rfl
@[simp] theorem onTeam_nextId (s : State) (k : Nat) (f : Team → Team) : (onTeam s k f).nextId = s.nextId := by
  unfold onTeam; split <;> rfl
@[simp] theorem onTeam_bounds (s : State) (k : Nat) (f : Team → Team) : (onTeam s k f).bounds = s.bounds := by
  unfold onTeam; split <;> rfl
@[simp] theorem onTeam_coach (s : State) (k : Nat) (f : Team → Team) : (onTeam s k f).coach = s.coach := by
  unfold onTeam; split <;> rfl
@[simp] theorem onTeam_trainSize (s : State) (k : Nat) (f : Team → Team) : (onTeam s k f).trainSize = s.trainSize := by
  unfold onTeam; split <;> rfl
@[simp] theorem onTeam_trainEn (s : State) (k : Nat) (f : Team → Team) : (onTeam s k f).trainEn = s.trainEn := by
  unfold onTeam; split <;> rfl
@[simp] theorem onTeam_links (s : State) (k : Nat) (f : Team → Team) : (onTeam s k f).links = s.links := by
  unfold onTeam; split <;> rfl
@[simp] theorem onTeam_reach (s : State) (k : Nat) (f : Team → Team) : (onTeam s k f).reach = s.reach := by
  unfold onTeam; split <;> rfl
@[simp] theorem onTeam_streams (s : State) (k : Nat) (f : Team → Team) : (onTeam s k f).streams = s.streams := by
  unfold onTeam; split <;> rfl
@[simp] theorem onTeam_seqs (s : State) (k : Nat) (f : Team → Team) : (onTeam s k f).seqs = s.seqs := by
  unfold onTeam; split <;> rfl
@[simp] theorem onTeam_heirs (s : State) (k : Nat) (f : Team → Team) : (onTeam s k f).heirs = s.heirs := by
  unfold onTeam; split <;> rfl
@[simp] theorem onTeam_lateLost (s : State) (k : Nat) (f : Team → Team) : (onTeam s k f).lateLost = s.lateLost := by
  unfold onTeam; split <;> rfl
@[simp] theorem onTeam_lateDone (s : State) (k : Nat) (f : Team → Team) : (onTeam s k f).lateDone = s.lateDone := by
  unfold onTeam; split <;> rfl
@[simp] theorem onTeam_lateAns (s : State) (k : Nat) (f : Team → Team) : (onTeam s k f).lateAns = s.lateAns := by
  unfold onTeam; split <;> rfl
@[simp] theorem onTeam_dedup (s : State) (k : Nat) (f : Team → Team) : (onTeam s k f).dedup = s.dedup := by
  unfold onTeam; split <;> rfl
@[simp] theorem onTeam_filters (s : State) (k : Nat) (f : Team → Team) : (onTeam s k f).filters = s.filters := by
  unfold onTeam; split <;> rfl
@[simp] theorem onTeam_services (s : State) (k : Nat) (f : Team → Team) : (onTeam s k f).services = s.services := by
  unfold onTeam; split <;> rfl
@[simp] theorem onTeam_heq (s : State) (k : Nat) (f : Team → Team) : (onTeam s k f).heq = s.heq := by
  unfold onTeam; split <;> rfl
@[simp] theorem onTeam_sce (s : State) (k : Nat) (f : Team → Team) : (onTeam s k f).sce = s.sce := by
  unfold onTeam; split <;> rfl
@[simp] theorem onTeam_steerAt (s : State) (k : Nat) (f : Team → Team) : (onTeam s k f).steerAt = s.steerAt := by
  unfold onTeam; split <;> rfl
@[simp] theorem onTeam_throttled (s : State) (k : Nat) (f : Team → Team) : (onTeam s k f).throttled = s.throttled := by
  unfold onTeam; split <;> rfl

/-! ## onCrew -/

@[simp] theorem onCrew_time (s : State) (k : Nat) (f : Crew → Crew) : (onCrew s k f).time = s.time := by
  unfold onCrew; split <;> rfl
@[simp] theorem onCrew_pace (s : State) (k : Nat) (f : Crew → Crew) : (onCrew s k f).pace = s.pace := by
  unfold onCrew; split <;> rfl
@[simp] theorem onCrew_powered (s : State) (k : Nat) (f : Crew → Crew) : (onCrew s k f).powered = s.powered := by
  unfold onCrew; split <;> rfl
@[simp] theorem onCrew_inputs (s : State) (k : Nat) (f : Crew → Crew) : (onCrew s k f).inputs = s.inputs := by
  unfold onCrew; split <;> rfl
@[simp] theorem onCrew_out (s : State) (k : Nat) (f : Crew → Crew) : (onCrew s k f).out = s.out := by
  unfold onCrew; split <;> rfl
@[simp] theorem onCrew_fresh (s : State) (k : Nat) (f : Crew → Crew) : (onCrew s k f).fresh = s.fresh := by
  unfold onCrew; split <;> rfl
@[simp] theorem onCrew_stalls (s : State) (k : Nat) (f : Crew → Crew) : (onCrew s k f).stalls = s.stalls := by
  unfold onCrew; split <;> rfl
@[simp] theorem onCrew_mem (s : State) (k : Nat) (f : Crew → Crew) : (onCrew s k f).mem = s.mem := by
  unfold onCrew; split <;> rfl
@[simp] theorem onCrew_failing (s : State) (k : Nat) (f : Crew → Crew) : (onCrew s k f).failing = s.failing := by
  unfold onCrew; split <;> rfl
@[simp] theorem onCrew_keys (s : State) (k : Nat) (f : Crew → Crew) : (onCrew s k f).keys = s.keys := by
  unfold onCrew; split <;> rfl
@[simp] theorem onCrew_keyGen (s : State) (k : Nat) (f : Crew → Crew) : (onCrew s k f).keyGen = s.keyGen := by
  unfold onCrew; split <;> rfl
@[simp] theorem onCrew_cur (s : State) (k : Nat) (f : Crew → Crew) : (onCrew s k f).cur = s.cur := by
  unfold onCrew; split <;> rfl
@[simp] theorem onCrew_turn (s : State) (k : Nat) (f : Crew → Crew) : (onCrew s k f).turn = s.turn := by
  unfold onCrew; split <;> rfl
@[simp] theorem onCrew_stir (s : State) (k : Nat) (f : Crew → Crew) : (onCrew s k f).stir = s.stir := by
  unfold onCrew; split <;> rfl
@[simp] theorem onCrew_teams (s : State) (k : Nat) (f : Crew → Crew) : (onCrew s k f).teams = s.teams := by
  unfold onCrew; split <;> rfl
@[simp] theorem onCrew_regions (s : State) (k : Nat) (f : Crew → Crew) : (onCrew s k f).regions = s.regions := by
  unfold onCrew; split <;> rfl
@[simp] theorem onCrew_comps (s : State) (k : Nat) (f : Crew → Crew) : (onCrew s k f).comps = s.comps := by
  unfold onCrew; split <;> rfl
@[simp] theorem onCrew_cores (s : State) (k : Nat) (f : Crew → Crew) : (onCrew s k f).cores = s.cores := by
  unfold onCrew; split <;> rfl
@[simp] theorem onCrew_benches (s : State) (k : Nat) (f : Crew → Crew) : (onCrew s k f).benches = s.benches := by
  unfold onCrew; split <;> rfl
@[simp] theorem onCrew_clusters (s : State) (k : Nat) (f : Crew → Crew) : (onCrew s k f).clusters = s.clusters := by
  unfold onCrew; split <;> rfl
@[simp] theorem onCrew_owners (s : State) (k : Nat) (f : Crew → Crew) : (onCrew s k f).owners = s.owners := by
  unfold onCrew; split <;> rfl
@[simp] theorem onCrew_registering (s : State) (k : Nat) (f : Crew → Crew) : (onCrew s k f).registering = s.registering := by
  unfold onCrew; split <;> rfl
@[simp] theorem onCrew_watches (s : State) (k : Nat) (f : Crew → Crew) : (onCrew s k f).watches = s.watches := by
  unfold onCrew; split <;> rfl
@[simp] theorem onCrew_reqs (s : State) (k : Nat) (f : Crew → Crew) : (onCrew s k f).reqs = s.reqs := by
  unfold onCrew; split <;> rfl
@[simp] theorem onCrew_ops (s : State) (k : Nat) (f : Crew → Crew) : (onCrew s k f).ops = s.ops := by
  unfold onCrew; split <;> rfl
@[simp] theorem onCrew_fetched (s : State) (k : Nat) (f : Crew → Crew) : (onCrew s k f).fetched = s.fetched := by
  unfold onCrew; split <;> rfl
@[simp] theorem onCrew_spawning (s : State) (k : Nat) (f : Crew → Crew) : (onCrew s k f).spawning = s.spawning := by
  unfold onCrew; split <;> rfl
@[simp] theorem onCrew_plane (s : State) (k : Nat) (f : Crew → Crew) : (onCrew s k f).plane = s.plane := by
  unfold onCrew; split <;> rfl
@[simp] theorem onCrew_mats (s : State) (k : Nat) (f : Crew → Crew) : (onCrew s k f).mats = s.mats := by
  unfold onCrew; split <;> rfl
@[simp] theorem onCrew_copies (s : State) (k : Nat) (f : Crew → Crew) : (onCrew s k f).copies = s.copies := by
  unfold onCrew; split <;> rfl
@[simp] theorem onCrew_nextId (s : State) (k : Nat) (f : Crew → Crew) : (onCrew s k f).nextId = s.nextId := by
  unfold onCrew; split <;> rfl
@[simp] theorem onCrew_bounds (s : State) (k : Nat) (f : Crew → Crew) : (onCrew s k f).bounds = s.bounds := by
  unfold onCrew; split <;> rfl
@[simp] theorem onCrew_coach (s : State) (k : Nat) (f : Crew → Crew) : (onCrew s k f).coach = s.coach := by
  unfold onCrew; split <;> rfl
@[simp] theorem onCrew_trainSize (s : State) (k : Nat) (f : Crew → Crew) : (onCrew s k f).trainSize = s.trainSize := by
  unfold onCrew; split <;> rfl
@[simp] theorem onCrew_trainEn (s : State) (k : Nat) (f : Crew → Crew) : (onCrew s k f).trainEn = s.trainEn := by
  unfold onCrew; split <;> rfl
@[simp] theorem onCrew_links (s : State) (k : Nat) (f : Crew → Crew) : (onCrew s k f).links = s.links := by
  unfold onCrew; split <;> rfl
@[simp] theorem onCrew_reach (s : State) (k : Nat) (f : Crew → Crew) : (onCrew s k f).reach = s.reach := by
  unfold onCrew; split <;> rfl
@[simp] theorem onCrew_streams (s : State) (k : Nat) (f : Crew → Crew) : (onCrew s k f).streams = s.streams := by
  unfold onCrew; split <;> rfl
@[simp] theorem onCrew_seqs (s : State) (k : Nat) (f : Crew → Crew) : (onCrew s k f).seqs = s.seqs := by
  unfold onCrew; split <;> rfl
@[simp] theorem onCrew_heirs (s : State) (k : Nat) (f : Crew → Crew) : (onCrew s k f).heirs = s.heirs := by
  unfold onCrew; split <;> rfl
@[simp] theorem onCrew_lateLost (s : State) (k : Nat) (f : Crew → Crew) : (onCrew s k f).lateLost = s.lateLost := by
  unfold onCrew; split <;> rfl
@[simp] theorem onCrew_lateDone (s : State) (k : Nat) (f : Crew → Crew) : (onCrew s k f).lateDone = s.lateDone := by
  unfold onCrew; split <;> rfl
@[simp] theorem onCrew_lateAns (s : State) (k : Nat) (f : Crew → Crew) : (onCrew s k f).lateAns = s.lateAns := by
  unfold onCrew; split <;> rfl
@[simp] theorem onCrew_dedup (s : State) (k : Nat) (f : Crew → Crew) : (onCrew s k f).dedup = s.dedup := by
  unfold onCrew; split <;> rfl
@[simp] theorem onCrew_filters (s : State) (k : Nat) (f : Crew → Crew) : (onCrew s k f).filters = s.filters := by
  unfold onCrew; split <;> rfl
@[simp] theorem onCrew_services (s : State) (k : Nat) (f : Crew → Crew) : (onCrew s k f).services = s.services := by
  unfold onCrew; split <;> rfl
@[simp] theorem onCrew_heq (s : State) (k : Nat) (f : Crew → Crew) : (onCrew s k f).heq = s.heq := by
  unfold onCrew; split <;> rfl
@[simp] theorem onCrew_sce (s : State) (k : Nat) (f : Crew → Crew) : (onCrew s k f).sce = s.sce := by
  unfold onCrew; split <;> rfl
@[simp] theorem onCrew_steerAt (s : State) (k : Nat) (f : Crew → Crew) : (onCrew s k f).steerAt = s.steerAt := by
  unfold onCrew; split <;> rfl
@[simp] theorem onCrew_throttled (s : State) (k : Nat) (f : Crew → Crew) : (onCrew s k f).throttled = s.throttled := by
  unfold onCrew; split <;> rfl

/-! ## Reading what was set -/

@[simp] theorem team?_setTeam (s : State) (k j : Nat) (x : Team) : team? (setTeam s k x) j = if k = j then some x else team? s j := by
  simp [team?, setTeam]
@[simp] theorem crew?_setCrew (s : State) (k j : Nat) (x : Crew) : crew? (setCrew s k x) j = if k = j then some x else crew? s j := by
  simp [crew?, setCrew]
@[simp] theorem core_setCore (s : State) (k j : Nat) (x : Core) : core (setCore s k x) j = if k = j then x else core s j := by
  simp [core, setCore]
@[simp] theorem cluster_setCluster (s : State) (k j : Nat) (x : Cluster) : cluster (setCluster s k x) j = if k = j then x else cluster s j := by
  simp [cluster, setCluster]
@[simp] theorem bench_setBench (s : State) (k j : Nat) (x : Bench) : bench (setBench s k x) j = if k = j then x else bench s j := by
  simp [bench, setBench]
@[simp] theorem comp_setComp (s : State) (k j : Nat) (x : Comp) : comp (setComp s k x) j = if k = j then x else comp s j := by
  simp [comp, setComp]
@[simp] theorem team?_setCrew (s : State) (k j : Nat) (x : Crew) : team? (setCrew s k x) j = team? s j := rfl
@[simp] theorem team?_setCore (s : State) (k j : Nat) (x : Core) : team? (setCore s k x) j = team? s j := rfl
@[simp] theorem team?_setCluster (s : State) (k j : Nat) (x : Cluster) : team? (setCluster s k x) j = team? s j := rfl
@[simp] theorem team?_setBench (s : State) (k j : Nat) (x : Bench) : team? (setBench s k x) j = team? s j := rfl
@[simp] theorem team?_setComp (s : State) (k j : Nat) (x : Comp) : team? (setComp s k x) j = team? s j := rfl
@[simp] theorem crew?_setTeam (s : State) (k j : Nat) (x : Team) : crew? (setTeam s k x) j = crew? s j := rfl
@[simp] theorem crew?_setCore (s : State) (k j : Nat) (x : Core) : crew? (setCore s k x) j = crew? s j := rfl
@[simp] theorem crew?_setCluster (s : State) (k j : Nat) (x : Cluster) : crew? (setCluster s k x) j = crew? s j := rfl
@[simp] theorem crew?_setBench (s : State) (k j : Nat) (x : Bench) : crew? (setBench s k x) j = crew? s j := rfl
@[simp] theorem crew?_setComp (s : State) (k j : Nat) (x : Comp) : crew? (setComp s k x) j = crew? s j := rfl
@[simp] theorem core_setTeam (s : State) (k j : Nat) (x : Team) : core (setTeam s k x) j = core s j := rfl
@[simp] theorem core_setCrew (s : State) (k j : Nat) (x : Crew) : core (setCrew s k x) j = core s j := rfl
@[simp] theorem core_setCluster (s : State) (k j : Nat) (x : Cluster) : core (setCluster s k x) j = core s j := rfl
@[simp] theorem core_setBench (s : State) (k j : Nat) (x : Bench) : core (setBench s k x) j = core s j := rfl
@[simp] theorem core_setComp (s : State) (k j : Nat) (x : Comp) : core (setComp s k x) j = core s j := rfl
@[simp] theorem cluster_setTeam (s : State) (k j : Nat) (x : Team) : cluster (setTeam s k x) j = cluster s j := rfl
@[simp] theorem cluster_setCrew (s : State) (k j : Nat) (x : Crew) : cluster (setCrew s k x) j = cluster s j := rfl
@[simp] theorem cluster_setCore (s : State) (k j : Nat) (x : Core) : cluster (setCore s k x) j = cluster s j := rfl
@[simp] theorem cluster_setBench (s : State) (k j : Nat) (x : Bench) : cluster (setBench s k x) j = cluster s j := rfl
@[simp] theorem cluster_setComp (s : State) (k j : Nat) (x : Comp) : cluster (setComp s k x) j = cluster s j := rfl
@[simp] theorem bench_setTeam (s : State) (k j : Nat) (x : Team) : bench (setTeam s k x) j = bench s j := rfl
@[simp] theorem bench_setCrew (s : State) (k j : Nat) (x : Crew) : bench (setCrew s k x) j = bench s j := rfl
@[simp] theorem bench_setCore (s : State) (k j : Nat) (x : Core) : bench (setCore s k x) j = bench s j := rfl
@[simp] theorem bench_setCluster (s : State) (k j : Nat) (x : Cluster) : bench (setCluster s k x) j = bench s j := rfl
@[simp] theorem bench_setComp (s : State) (k j : Nat) (x : Comp) : bench (setComp s k x) j = bench s j := rfl
@[simp] theorem comp_setTeam (s : State) (k j : Nat) (x : Team) : comp (setTeam s k x) j = comp s j := rfl
@[simp] theorem comp_setCrew (s : State) (k j : Nat) (x : Crew) : comp (setCrew s k x) j = comp s j := rfl
@[simp] theorem comp_setCore (s : State) (k j : Nat) (x : Core) : comp (setCore s k x) j = comp s j := rfl
@[simp] theorem comp_setCluster (s : State) (k j : Nat) (x : Cluster) : comp (setCluster s k x) j = comp s j := rfl
@[simp] theorem comp_setBench (s : State) (k j : Nat) (x : Bench) : comp (setBench s k x) j = comp s j := rfl
@[simp] theorem team?_onTeam (s : State) (k j : Nat) (f : Team → Team) :
    team? (onTeam s k f) j = if k = j then (team? s j).map f else team? s j := by
  unfold onTeam
  split <;> rename_i h
  · rw [team?_setTeam]; split
    · rename_i e; subst e; simp [h]
    · rfl
  · split
    · rename_i e; subst e; simp [h]
    · rfl
@[simp] theorem crew?_onTeam (s : State) (k j : Nat) (f : Team → Team) : crew? (onTeam s k f) j = crew? s j := by
  unfold onTeam; split <;> rfl
@[simp] theorem core_onTeam (s : State) (k j : Nat) (f : Team → Team) : core (onTeam s k f) j = core s j := by
  unfold onTeam; split <;> rfl
@[simp] theorem cluster_onTeam (s : State) (k j : Nat) (f : Team → Team) : cluster (onTeam s k f) j = cluster s j := by
  unfold onTeam; split <;> rfl
@[simp] theorem bench_onTeam (s : State) (k j : Nat) (f : Team → Team) : bench (onTeam s k f) j = bench s j := by
  unfold onTeam; split <;> rfl
@[simp] theorem comp_onTeam (s : State) (k j : Nat) (f : Team → Team) : comp (onTeam s k f) j = comp s j := by
  unfold onTeam; split <;> rfl
@[simp] theorem crew?_onCrew (s : State) (k j : Nat) (f : Crew → Crew) :
    crew? (onCrew s k f) j = if k = j then (crew? s j).map f else crew? s j := by
  unfold onCrew
  split <;> rename_i h
  · rw [crew?_setCrew]; split
    · rename_i e; subst e; simp [h]
    · rfl
  · split
    · rename_i e; subst e; simp [h]
    · rfl
@[simp] theorem team?_onCrew (s : State) (k j : Nat) (f : Crew → Crew) : team? (onCrew s k f) j = team? s j := by
  unfold onCrew; split <;> rfl
@[simp] theorem core_onCrew (s : State) (k j : Nat) (f : Crew → Crew) : core (onCrew s k f) j = core s j := by
  unfold onCrew; split <;> rfl
@[simp] theorem cluster_onCrew (s : State) (k j : Nat) (f : Crew → Crew) : cluster (onCrew s k f) j = cluster s j := by
  unfold onCrew; split <;> rfl
@[simp] theorem bench_onCrew (s : State) (k j : Nat) (f : Crew → Crew) : bench (onCrew s k f) j = bench s j := by
  unfold onCrew; split <;> rfl
@[simp] theorem comp_onCrew (s : State) (k j : Nat) (f : Crew → Crew) : comp (onCrew s k f) j = comp s j := by
  unfold onCrew; split <;> rfl

end Sys2Proof.Machine
end

