-- ==== Sys2Proof/Laws/KeepsHome.lean ====
section
/-! SUPPORT. What every change keeps (Keeps), for Home. -/

set_option linter.unusedTactic false
set_option linter.unreachableTactic false

namespace Sys2Proof.Machine

/-- What every change of the device keeps: a memory in the canonical form stays in it, time does not run back, and no key slot
returns to an earlier key. -/
def Keeps (s t : State) : Prop :=
  (memWf s.mem = true → memWf t.mem = true) ∧ s.time ≤ t.time ∧ ∀ k, Tab.getD s.keyGen k 0 ≤ Tab.getD t.keyGen k 0

theorem Keeps.refl (s : State) : Keeps s s := ⟨id, Nat.le_refl _, fun _ => Nat.le_refl _⟩

theorem Keeps.trans {a b c : State} (h : Keeps a b) (k : Keeps b c) : Keeps a c :=
  ⟨fun x => k.1 (h.1 x), Nat.le_trans h.2.1 k.2.1, fun i => Nat.le_trans (h.2.2 i) (k.2.2 i)⟩

variable {sK : State}

/-- A change of other fields. -/
theorem keeps_mk {t : State} (h : Keeps sK t) {pace powered inputs out fresh stalls failing keys cur turn stir teams crews regions comps cores benches clusters
    owners l2 registering watches reqs ops fetched spawning flushes level2 plane mats matEnds copies nextId bounds
    coach trainSize trainEn links reach streams seqs heirs lateLost lateDone lateDests lateAns dedup answers filters
    services heq sce ide steerAt throttled} :
    Keeps sK ⟨t.time, pace, powered, inputs, out, fresh, stalls, t.mem, failing, keys, t.keyGen, cur, turn, stir, teams, crews,
      regions, comps, cores, benches, clusters, owners, l2, registering, watches, reqs, ops, fetched, spawning, flushes,
      level2, plane, mats, matEnds, copies, nextId, bounds, coach, trainSize, trainEn, links, reach, streams, seqs, heirs,
      lateLost, lateDone, lateDests, lateAns, dedup, answers, filters, services, heq, sce, ide, steerAt, throttled⟩ := h

/-- A change of the memory that keeps its form. -/
theorem keeps_mem {s t : State} (h : Keeps sK s) (hm : memWf s.mem = true → memWf t.mem = true) (ht : t.time = s.time)
    (hk : t.keyGen = s.keyGen) : Keeps sK t :=
  ⟨fun x => hm (h.1 x), ht ▸ h.2.1, fun i => hk ▸ h.2.2 i⟩

theorem foldl_keeps {α : Type _} {f : State → α → State} {l : List α} {s : State} (h : Keeps sK s)
    (hf : ∀ t x, Keeps sK t → Keeps sK (f t x)) : Keeps sK (l.foldl f s) := by
  induction l generalizing s with
  | nil => exact h
  | cons x r ih => exact ih (hf _ _ h)

theorem foldl1_keeps {α β : Type _} {f : State × β → α → State × β} {l : List α} {a : State × β} (h : Keeps sK a.1)
    (hf : ∀ t x, Keeps sK t.1 → Keeps sK (f t x).1) : Keeps sK (l.foldl f a).1 := by
  induction l generalizing a with
  | nil => exact h
  | cons x r ih => exact ih (hf _ _ h)

theorem getD_keeps {o : Option State} {d : State} (ho : ∀ u, o = some u → Keeps sK u) (h : Keeps sK d) :
    Keeps sK (o.getD d) := by
  cases o with
  | none => exact h
  | some u => exact ho u rfl

theorem keeps_ite {p : Prop} [Decidable p] {a b : State} (ha : p → Keeps sK a) (hb : ¬p → Keeps sK b) :
    Keeps sK (if p then a else b) := by
  split
  · exact ha ‹_›
  · exact hb ‹_›

theorem foldlBind_keeps {α : Type _} {f : State → α → Option State} {l : List α} {s u : State}
    (hf : ∀ t x v, f t x = some v → Keeps sK t → Keeps sK v)
    (e : l.foldl (fun s a => s.bind fun s => f s a) (some s) = some u) (h : Keeps sK s) : Keeps sK u := by
  induction l generalizing s with
  | nil => cases e; exact h
  | cons x r ih =>
    simp only [List.foldl_cons, Option.bind_some] at e
    cases hx : f s x with
    | some v => rw [hx] at e; exact ih e (hf _ _ _ hx h)
    | none =>
      rw [hx] at e
      have : ∀ l : List α, l.foldl (fun s a => s.bind fun s => f s a) (none : Option State) = none := by
        intro l; induction l with
        | nil => rfl
        | cons y t it => simpa using it
      rw [this] at e; cases e

theorem findSome_keeps {α β : Type _} {f : α → Option β} {l : List α} {g : β} {u : State}
    (hf : ∀ x, f x = some g → Keeps sK u) (e : l.findSome? f = some g) : Keeps sK u := by
  obtain ⟨x, _, hx⟩ := List.exists_of_findSome?_eq_some e
  exact hf x hx

theorem setCore_keeps {s : State} {c : Nat} {x : Core}  (hK : Keeps sK s) : Keeps sK (setCore s c x) := by
  unfold setCore
  try dsimp only
  repeat' first | with_reducible assumption | with_reducible exact Keeps.refl _ | fail_if_no_progress (with_reducible refine keeps_mk ?_) | with_reducible refine keeps_ite (fun _ => ?_) (fun _ => ?_) | split | dsimp only

theorem setCluster_keeps {s : State} {c : Nat} {x : Cluster}  (hK : Keeps sK s) : Keeps sK (setCluster s c x) := by
  unfold setCluster
  try dsimp only
  repeat' first | with_reducible assumption | with_reducible exact Keeps.refl _ | fail_if_no_progress (with_reducible refine keeps_mk ?_) | with_reducible refine keeps_ite (fun _ => ?_) (fun _ => ?_) | split | dsimp only

theorem setBench_keeps {s : State} {b : Nat} {x : Bench}  (hK : Keeps sK s) : Keeps sK (setBench s b x) := by
  unfold setBench
  try dsimp only
  repeat' first | with_reducible assumption | with_reducible exact Keeps.refl _ | fail_if_no_progress (with_reducible refine keeps_mk ?_) | with_reducible refine keeps_ite (fun _ => ?_) (fun _ => ?_) | split | dsimp only

theorem setComp_keeps {s : State} {k : Nat} {x : Comp}  (hK : Keeps sK s) : Keeps sK (setComp s k x) := by
  unfold setComp
  try dsimp only
  repeat' first | with_reducible assumption | with_reducible exact Keeps.refl _ | fail_if_no_progress (with_reducible refine keeps_mk ?_) | with_reducible refine keeps_ite (fun _ => ?_) (fun _ => ?_) | split | dsimp only

theorem setCrew_keeps {s : State} {k : Nat} {x : Crew}  (hK : Keeps sK s) : Keeps sK (setCrew s k x) := by
  unfold setCrew
  try dsimp only
  repeat' first | with_reducible assumption | with_reducible exact Keeps.refl _ | fail_if_no_progress (with_reducible refine keeps_mk ?_) | with_reducible refine keeps_ite (fun _ => ?_) (fun _ => ?_) | split | dsimp only

theorem setTeam_keeps {s : State} {k : Nat} {x : Team}  (hK : Keeps sK s) : Keeps sK (setTeam s k x) := by
  unfold setTeam
  try dsimp only
  repeat' first | with_reducible assumption | with_reducible exact Keeps.refl _ | fail_if_no_progress (with_reducible refine keeps_mk ?_) | with_reducible refine keeps_ite (fun _ => ?_) (fun _ => ?_) | split | dsimp only

theorem onTeam_keeps {s : State} {k : Nat} {f : Team → Team}  (hK : Keeps sK s) : Keeps sK (onTeam s k f) := by
  unfold onTeam
  try dsimp only
  repeat' first | with_reducible assumption | with_reducible exact Keeps.refl _ | with_reducible refine setTeam_keeps ?_ | fail_if_no_progress (with_reducible refine keeps_mk ?_) | with_reducible refine keeps_ite (fun _ => ?_) (fun _ => ?_) | split | dsimp only

theorem onCrew_keeps {s : State} {k : Nat} {f : Crew → Crew}  (hK : Keeps sK s) : Keeps sK (onCrew s k f) := by
  unfold onCrew
  try dsimp only
  repeat' first | with_reducible assumption | with_reducible exact Keeps.refl _ | with_reducible refine setCrew_keeps ?_ | fail_if_no_progress (with_reducible refine keeps_mk ?_) | with_reducible refine keeps_ite (fun _ => ?_) (fun _ => ?_) | split | dsimp only

theorem fresh_keeps {s : State}  (hK : Keeps sK s) : Keeps sK (fresh s).2 := by
  unfold fresh
  try dsimp only
  repeat' first | with_reducible assumption | with_reducible exact Keeps.refl _ | fail_if_no_progress (with_reducible refine keeps_mk ?_) | with_reducible refine keeps_ite (fun _ => ?_) (fun _ => ?_) | split | dsimp only

theorem tagLine_keeps {s : State} {key line mask : Nat}  (hK : Keeps sK s) : Keeps sK (tagLine s key line mask) := by
  unfold tagLine
  try dsimp only
  repeat' first | with_reducible assumption | with_reducible exact Keeps.refl _ | with_reducible refine fresh_keeps ?_ | fail_if_no_progress (with_reducible refine keeps_mk ?_) | with_reducible refine keeps_ite (fun _ => ?_) (fun _ => ?_) | split | dsimp only

theorem tagRange_keeps {s : State} {key a n : Nat}  (hK : Keeps sK s) : Keeps sK (tagRange s key a n) := by
  unfold tagRange
  try dsimp only
  repeat' first | with_reducible assumption | with_reducible exact Keeps.refl _ | with_reducible refine tagLine_keeps ?_ | fail_if_no_progress (with_reducible refine keeps_mk ?_) | with_reducible refine foldl_keeps ?_ ?_ | with_reducible refine foldl1_keeps ?_ ?_ | intro _ _ hk | with_reducible refine keeps_ite (fun _ => ?_) (fun _ => ?_) | split | dsimp only

theorem tagLines_keeps {s : State} {key lo hi : Nat}  (hK : Keeps sK s) : Keeps sK (tagLines s key lo hi) := by
  unfold tagLines
  try dsimp only
  repeat' first | with_reducible assumption | with_reducible exact Keeps.refl _ | with_reducible refine fresh_keeps ?_ | fail_if_no_progress (with_reducible refine keeps_mk ?_) | with_reducible refine keeps_ite (fun _ => ?_) (fun _ => ?_) | split | dsimp only

theorem noteLine_keeps {s : State} {key line words : Nat}  (hK : Keeps sK s) : Keeps sK (noteLine s key line words) := by
  unfold noteLine
  try dsimp only
  repeat' first | with_reducible assumption | with_reducible exact Keeps.refl _ | fail_if_no_progress (with_reducible refine keeps_mk ?_) | with_reducible refine keeps_ite (fun _ => ?_) (fun _ => ?_) | split | dsimp only

theorem noteWrite_keeps {s : State} {key a n : Nat}  (hK : Keeps sK s) : Keeps sK (noteWrite s key a n) := by
  unfold noteWrite
  try dsimp only
  repeat' first | with_reducible assumption | with_reducible exact Keeps.refl _ | with_reducible refine noteLine_keeps ?_ | fail_if_no_progress (with_reducible refine keeps_mk ?_) | with_reducible refine foldl_keeps ?_ ?_ | with_reducible refine foldl1_keeps ?_ ?_ | intro _ _ hk | with_reducible refine keeps_ite (fun _ => ?_) (fun _ => ?_) | split | dsimp only

theorem forgetLine_keeps {s : State} {e : L2Line}  (hK : Keeps sK s) : Keeps sK (forgetLine s e) := by
  unfold forgetLine
  split
  · exact hK
  · refine keeps_mem hK (fun hw => ?_) rfl rfl
    dsimp only
    generalize List.range 16 = l
    revert hw
    generalize s.mem = m
    intro hw
    induction l generalizing m with
    | nil => exact hw
    | cons i l ih => rw [List.foldl_cons]; refine ih _ ?_; split; exact memWf_memWrite _ _ _ hw; exact hw

theorem putHome_keeps {s : State} {key pa : Nat} {bs : List Byte}  (hK : Keeps sK s) : Keeps sK (putHome s key pa bs) := by
  unfold putHome
  dsimp only
  exact keeps_mem (tagRange_keeps (noteWrite_keeps hK)) (memWf_memWrite _ _ _) rfl rfl

theorem disown_keeps {s : State} {pa n : Nat}  (hK : Keeps sK s) : Keeps sK (disown s pa n) := by
  unfold disown
  try dsimp only
  repeat' first | with_reducible assumption | with_reducible exact Keeps.refl _ | fail_if_no_progress (with_reducible refine keeps_mk ?_) | with_reducible refine keeps_ite (fun _ => ?_) (fun _ => ?_) | split | dsimp only


end Sys2Proof.Machine
end

