-- ==== Sys2Proof/Laws/KeepsTranslate.lean ====
section
/-! SUPPORT. What every change keeps (Keeps), for Translate. -/

set_option linter.unusedTactic false
set_option linter.unreachableTactic false

namespace Sys2Proof.Machine

variable {sK : State}

theorem tlbFill_keeps {s : State} {k : Nat} {e : TlbEntry}  (hK : Keeps sK s) : Keeps sK (tlbFill s k e) := by
  unfold tlbFill
  try dsimp only
  repeat' first | with_reducible assumption | with_reducible exact Keeps.refl _ | with_reducible refine setCore_keeps ?_ | with_reducible refine setCluster_keeps ?_ | fail_if_no_progress (with_reducible refine keeps_mk ?_) | with_reducible refine keeps_ite (fun _ => ?_) (fun _ => ?_) | split | dsimp only

theorem tlb2Fill_keeps {s : State} {cl c : Nat} {x : Combined} {write : Bool}  (hK : Keeps sK s) : Keeps sK (tlb2Fill s cl c x write) := by
  unfold tlb2Fill
  try dsimp only
  repeat' first | with_reducible assumption | with_reducible exact Keeps.refl _ | with_reducible refine setCluster_keeps ?_ | fail_if_no_progress (with_reducible refine keeps_mk ?_) | with_reducible refine keeps_ite (fun _ => ?_) (fun _ => ?_) | split | dsimp only

theorem orDesc_keeps {s : State} {key d m : Nat}  (hK : Keeps sK s) : Keeps sK (orDesc s key d m) := by
  unfold orDesc
  try dsimp only
  repeat' first | with_reducible assumption | with_reducible exact Keeps.refl _ | with_reducible refine disown_keeps ?_ | with_reducible refine putHome_keeps ?_ | fail_if_no_progress (with_reducible refine keeps_mk ?_) | with_reducible refine keeps_ite (fun _ => ?_) (fun _ => ?_) | split | dsimp only

theorem markLeaf_keeps {s : State} {key : Nat} {l : Leaf} {write : Bool}  (hK : Keeps sK s) : Keeps sK (markLeaf s key l write) := by
  unfold markLeaf
  try dsimp only
  repeat' first | with_reducible assumption | with_reducible exact Keeps.refl _ | with_reducible refine orDesc_keeps ?_ | fail_if_no_progress (with_reducible refine keeps_mk ?_) | with_reducible refine foldl_keeps ?_ ?_ | with_reducible refine foldl1_keeps ?_ ?_ | intro _ _ hk | with_reducible refine keeps_ite (fun _ => ?_) (fun _ => ?_) | split | dsimp only

theorem markLeaves_keeps {s : State} {c : Nat} {x : Combined} {write : Bool}  (hK : Keeps sK s) : Keeps sK (markLeaves s c x write) := by
  unfold markLeaves
  try dsimp only
  repeat' first | with_reducible assumption | with_reducible exact Keeps.refl _ | with_reducible refine markLeaf_keeps ?_ | fail_if_no_progress (with_reducible refine keeps_mk ?_) | with_reducible refine keeps_ite (fun _ => ?_) (fun _ => ?_) | split | dsimp only

theorem markWalk_keeps {s : State} {cl : Option Nat} {c va : Nat} {write granted : Bool}  (hK : Keeps sK s) : Keeps sK (markWalk s cl c va write granted) := by
  unfold markWalk
  try dsimp only
  repeat' first | with_reducible assumption | with_reducible exact Keeps.refl _ | with_reducible refine markLeaf_keeps ?_ | with_reducible refine markLeaves_keeps ?_ | fail_if_no_progress (with_reducible refine keeps_mk ?_) | with_reducible refine foldl_keeps ?_ ?_ | with_reducible refine foldl1_keeps ?_ ?_ | intro _ _ hk | with_reducible refine keeps_ite (fun _ => ?_) (fun _ => ?_) | split | dsimp only

theorem translate_keeps {s : State} {k c level : Nat} {n : Need} {va : Nat}  (hK : Keeps sK s) : Keeps sK (translate s k c level n va).1 := by
  unfold translate
  try dsimp only
  repeat' first | with_reducible assumption | with_reducible exact Keeps.refl _ | with_reducible refine tlb2Fill_keeps ?_ | with_reducible refine markWalk_keeps ?_ | with_reducible refine tlbFill_keeps ?_ | fail_if_no_progress (with_reducible refine keeps_mk ?_) | with_reducible refine keeps_ite (fun _ => ?_) (fun _ => ?_) | split | dsimp only

theorem translate_keeps_eq {s : State} {k c level : Nat} {n : Need} {va : Nat} {u0 : State} {q0 : _} (eK : translate s k c level n va = (u0, q0)) (hK : Keeps sK s) : Keeps sK u0 := by
  have := translate_keeps (sK := sK) (s := s) (k := k) (c := c) (level := level) (n := n) (va := va) hK; rw [eK] at this; exact this

theorem markRefused_keeps {s : State} {k c va : Nat}  (hK : Keeps sK s) : Keeps sK (markRefused s k c va) := by
  unfold markRefused
  try dsimp only
  repeat' first | with_reducible assumption | with_reducible exact Keeps.refl _ | with_reducible refine markWalk_keeps ?_ | fail_if_no_progress (with_reducible refine keeps_mk ?_) | with_reducible refine keeps_ite (fun _ => ?_) (fun _ => ?_) | split | dsimp only

theorem markIpa_keeps {s : State} {c ipa : Nat} {write : Bool}  (hK : Keeps sK s) : Keeps sK (markIpa s c ipa write) := by
  unfold markIpa
  try dsimp only
  repeat' first | with_reducible assumption | with_reducible exact Keeps.refl _ | with_reducible refine markLeaf_keeps ?_ | fail_if_no_progress (with_reducible refine keeps_mk ?_) | with_reducible refine keeps_ite (fun _ => ?_) (fun _ => ?_) | split | dsimp only


end Sys2Proof.Machine
end

