-- ==== Sys2Proof/Laws/KeepsFrontier.lean ====
section
/-! SUPPORT. What every change keeps (Keeps), for Frontier. -/

set_option linter.unusedTactic false
set_option linter.unreachableTactic false

namespace Sys2Proof.Machine

variable {sK : State}

theorem voidTeamLatches_keeps {s : State} {t : Team}  (hK : Keeps sK s) : Keeps sK (voidTeamLatches s t) := by
  unfold voidTeamLatches
  try dsimp only
  repeat' first | with_reducible assumption | with_reducible exact Keeps.refl _ | with_reducible refine setBench_keeps ?_ | fail_if_no_progress (with_reducible refine keeps_mk ?_) | with_reducible refine keeps_ite (fun _ => ?_) (fun _ => ?_) | split | dsimp only

theorem wakeAll_keeps {s : State} {pick : Nat → Team → Bool} {p : Wait → Option (Option Word)}  (hK : Keeps sK s) : Keeps sK (wakeAll s pick p) := by
  unfold wakeAll
  try dsimp only
  repeat' first | with_reducible assumption | with_reducible exact Keeps.refl _ | fail_if_no_progress (with_reducible refine keeps_mk ?_) | with_reducible refine keeps_ite (fun _ => ?_) (fun _ => ?_) | split | dsimp only | with_reducible refine pick_keeps (by assumption) ?_


end Sys2Proof.Machine
end

