-- ==== Sys2Proof/Laws/KeepsCache.lean ====
section
/-! SUPPORT. What every change keeps (Keeps), for Cache. -/

set_option linter.unusedTactic false
set_option linter.unreachableTactic false

namespace Sys2Proof.Machine

variable {sK : State}

theorem acquireL1_keeps {s : State} {k : Nat}  (hK : Keeps sK s) : Keeps sK (acquireL1 s k) := by
  unfold acquireL1
  try dsimp only
  repeat' first | with_reducible assumption | with_reducible exact Keeps.refl _ | with_reducible refine setCore_keeps ?_ | fail_if_no_progress (with_reducible refine keeps_mk ?_) | with_reducible refine foldl_keeps ?_ ?_ | with_reducible refine foldl1_keeps ?_ ?_ | intro _ _ hk | with_reducible refine keeps_ite (fun _ => ?_) (fun _ => ?_) | split | dsimp only

theorem acquireAt_keeps {s : State} {k scope : Nat}  (hK : Keeps sK s) : Keeps sK (acquireAt s k scope) := by
  unfold acquireAt
  try dsimp only
  repeat' first | with_reducible assumption | with_reducible exact Keeps.refl _ | with_reducible refine acquireL1_keeps ?_ | fail_if_no_progress (with_reducible refine keeps_mk ?_) | with_reducible refine keeps_ite (fun _ => ?_) (fun _ => ?_) | split | dsimp only

theorem acquireRange_keeps {s : State} {k lo n : Nat}  (hK : Keeps sK s) : Keeps sK (acquireRange s k lo n) := by
  unfold acquireRange
  try dsimp only
  repeat' first | with_reducible assumption | with_reducible exact Keeps.refl _ | with_reducible refine setCore_keeps ?_ | fail_if_no_progress (with_reducible refine keeps_mk ?_) | with_reducible refine foldl_keeps ?_ ?_ | with_reducible refine foldl1_keeps ?_ ?_ | intro _ _ hk | with_reducible refine keeps_ite (fun _ => ?_) (fun _ => ?_) | split | dsimp only

theorem wakeMonitors_keeps {s : State} {point : Option Nat} {lo n : Nat}  (hK : Keeps sK s) : Keeps sK (wakeMonitors s point lo n) := by
  unfold wakeMonitors
  try dsimp only
  repeat' first | with_reducible assumption | with_reducible exact Keeps.refl _ | with_reducible refine acquireAt_keeps ?_ | with_reducible refine onTeam_keeps ?_ | fail_if_no_progress (with_reducible refine keeps_mk ?_) | with_reducible refine foldl_keeps ?_ ?_ | with_reducible refine foldl1_keeps ?_ ?_ | intro _ _ hk | with_reducible refine keeps_ite (fun _ => ?_) (fun _ => ?_) | split | dsimp only

theorem matchWatches_keeps {s : State} {lo n : Nat} {by' : Option Nat}  (hK : Keeps sK s) : Keeps sK (matchWatches s lo n by') := by
  unfold matchWatches
  try dsimp only
  repeat' first | with_reducible assumption | with_reducible exact Keeps.refl _ | fail_if_no_progress (with_reducible refine keeps_mk ?_) | with_reducible refine foldl_keeps ?_ ?_ | with_reducible refine foldl1_keeps ?_ ?_ | intro _ _ hk | with_reducible refine keeps_ite (fun _ => ?_) (fun _ => ?_) | split | dsimp only

theorem writeHome_keeps {s : State} {key pa : Nat} {bs : List Byte} {by' : Option Nat}  (hK : Keeps sK s) : Keeps sK (writeHome s key pa bs by') := by
  unfold writeHome
  try dsimp only
  repeat' first | with_reducible assumption | with_reducible exact Keeps.refl _ | with_reducible refine disown_keeps ?_ | with_reducible refine putHome_keeps ?_ | with_reducible refine matchWatches_keeps ?_ | with_reducible refine wakeMonitors_keeps ?_ | fail_if_no_progress (with_reducible refine keeps_mk ?_) | with_reducible refine keeps_ite (fun _ => ?_) (fun _ => ?_) | split | dsimp only

theorem writeOut_keeps {s : State} {key pa : Nat} {bs : List Byte}  (hK : Keeps sK s) : Keeps sK (writeOut s key pa bs) := by
  unfold writeOut
  try dsimp only
  repeat' first | with_reducible assumption | with_reducible exact Keeps.refl _ | with_reducible refine writeHome_keeps ?_ | fail_if_no_progress (with_reducible refine keeps_mk ?_) | with_reducible refine keeps_ite (fun _ => ?_) (fun _ => ?_) | split | dsimp only

theorem registerWord_keeps {s : State} {k w : Nat}  (hK : Keeps sK s) : Keeps sK (registerWord s k w) := by
  unfold registerWord
  try dsimp only
  repeat' first | with_reducible assumption | with_reducible exact Keeps.refl _ | fail_if_no_progress (with_reducible refine keeps_mk ?_) | with_reducible refine keeps_ite (fun _ => ?_) (fun _ => ?_) | split | dsimp only

theorem writeBackWord_keeps {s : State} {k w : Nat}  (hK : Keeps sK s) : Keeps sK (writeBackWord s k w) := by
  unfold writeBackWord
  try dsimp only
  repeat' first | with_reducible assumption | with_reducible exact Keeps.refl _ | with_reducible refine registerWord_keeps ?_ | with_reducible refine setCore_keeps ?_ | with_reducible refine writeHome_keeps ?_ | fail_if_no_progress (with_reducible refine keeps_mk ?_) | with_reducible refine keeps_ite (fun _ => ?_) (fun _ => ?_) | split | dsimp only

theorem writeBackIf_keeps {s : State} {k : Nat} {p : Nat → Bool}  (hK : Keeps sK s) : Keeps sK (writeBackIf s k p) := by
  unfold writeBackIf
  try dsimp only
  repeat' first | with_reducible assumption | with_reducible exact Keeps.refl _ | with_reducible refine writeBackWord_keeps ?_ | fail_if_no_progress (with_reducible refine keeps_mk ?_) | with_reducible refine foldl_keeps ?_ ?_ | with_reducible refine foldl1_keeps ?_ ?_ | intro _ _ hk | with_reducible refine keeps_ite (fun _ => ?_) (fun _ => ?_) | split | dsimp only

theorem writeBackAll_keeps {s : State} {k : Nat}  (hK : Keeps sK s) : Keeps sK (writeBackAll s k) := by
  unfold writeBackAll
  try dsimp only
  repeat' first | with_reducible assumption | with_reducible exact Keeps.refl _ | with_reducible refine writeBackIf_keeps ?_ | fail_if_no_progress (with_reducible refine keeps_mk ?_) | with_reducible refine foldl_keeps ?_ ?_ | with_reducible refine foldl1_keeps ?_ ?_ | intro _ _ hk | with_reducible refine keeps_ite (fun _ => ?_) (fun _ => ?_) | split | dsimp only

theorem releaseAt_keeps {s : State} {k scope : Nat}  (hK : Keeps sK s) : Keeps sK (releaseAt s k scope) := by
  unfold releaseAt
  try dsimp only
  repeat' first | with_reducible assumption | with_reducible exact Keeps.refl _ | with_reducible refine writeBackAll_keeps ?_ | fail_if_no_progress (with_reducible refine keeps_mk ?_) | with_reducible refine keeps_ite (fun _ => ?_) (fun _ => ?_) | split | dsimp only

theorem dropWords_keeps {s : State} {k : Nat} {p : Nat → Bool}  (hK : Keeps sK s) : Keeps sK (dropWords s k p) := by
  unfold dropWords
  try dsimp only
  repeat' first | with_reducible assumption | with_reducible exact Keeps.refl _ | with_reducible refine writeBackIf_keeps ?_ | with_reducible refine setCore_keeps ?_ | fail_if_no_progress (with_reducible refine keeps_mk ?_) | with_reducible refine keeps_ite (fun _ => ?_) (fun _ => ?_) | split | dsimp only

theorem flushL1_keeps {s : State} {k : Nat}  (hK : Keeps sK s) : Keeps sK (flushL1 s k) := by
  unfold flushL1
  try dsimp only
  repeat' first | with_reducible assumption | with_reducible exact Keeps.refl _ | with_reducible refine dropWords_keeps ?_ | fail_if_no_progress (with_reducible refine keeps_mk ?_) | with_reducible refine keeps_ite (fun _ => ?_) (fun _ => ?_) | split | dsimp only

theorem takeWay_keeps {s : State} {j line : Nat}  (hK : Keeps sK s) : Keeps sK (takeWay s j line) := by
  unfold takeWay
  try dsimp only
  repeat' first | with_reducible assumption | with_reducible exact Keeps.refl _ | with_reducible refine setCore_keeps ?_ | with_reducible refine dropWords_keeps ?_ | with_reducible refine fresh_keeps ?_ | fail_if_no_progress (with_reducible refine keeps_mk ?_) | with_reducible refine getD_keeps ?_ ?_ | intro _ hk | with_reducible refine keeps_ite (fun _ => ?_) (fun _ => ?_) | split | dsimp only

theorem giveWays_keeps {s : State} {k n : Nat}  (hK : Keeps sK s) : Keeps sK (giveWays s k n) := by
  unfold giveWays
  try dsimp only
  repeat' first | with_reducible assumption | with_reducible exact Keeps.refl _ | with_reducible refine dropWords_keeps ?_ | with_reducible refine setCore_keeps ?_ | fail_if_no_progress (with_reducible refine keeps_mk ?_) | with_reducible refine keeps_ite (fun _ => ?_) (fun _ => ?_) | split | dsimp only

theorem recallLine_keeps {s : State} {line : Nat}  (hK : Keeps sK s) : Keeps sK (recallLine s line) := by
  unfold recallLine
  try dsimp only
  repeat' first | with_reducible assumption | with_reducible exact Keeps.refl _ | with_reducible refine writeBackWord_keeps ?_ | fail_if_no_progress (with_reducible refine keeps_mk ?_) | with_reducible refine foldl_keeps ?_ ?_ | with_reducible refine foldl1_keeps ?_ ?_ | intro _ _ hk | with_reducible refine keeps_ite (fun _ => ?_) (fun _ => ?_) | split | dsimp only

theorem evictLine_keeps {s : State} {w line : Nat}  (hK : Keeps sK s) : Keeps sK (evictLine s w line) := by
  unfold evictLine
  try dsimp only
  repeat' first | with_reducible assumption | with_reducible exact Keeps.refl _ | with_reducible refine recallLine_keeps ?_ | fail_if_no_progress (with_reducible refine keeps_mk ?_) | with_reducible refine keeps_ite (fun _ => ?_) (fun _ => ?_) | split | dsimp only

theorem l2Touch_keeps {s : State} {key pa : Nat}  (hK : Keeps sK s) : Keeps sK (l2Touch s key pa) := by
  unfold l2Touch
  try dsimp only
  repeat' first | with_reducible assumption | with_reducible exact Keeps.refl _ | with_reducible refine evictLine_keeps ?_ | with_reducible refine fresh_keeps ?_ | fail_if_no_progress (with_reducible refine keeps_mk ?_) | with_reducible refine getD_keeps ?_ ?_ | intro _ hk | with_reducible refine keeps_ite (fun _ => ?_) (fun _ => ?_) | split | dsimp only

theorem writeProg_keeps {s : State} {key pa : Nat} {bs : List Byte} {by' : Option Nat}  (hK : Keeps sK s) : Keeps sK (writeProg s key pa bs by') := by
  unfold writeProg
  try dsimp only
  repeat' first | with_reducible assumption | with_reducible exact Keeps.refl _ | with_reducible refine writeHome_keeps ?_ | with_reducible refine l2Touch_keeps ?_ | fail_if_no_progress (with_reducible refine keeps_mk ?_) | with_reducible refine keeps_ite (fun _ => ?_) (fun _ => ?_) | split | dsimp only

theorem l1Fetch_keeps {s : State} {k c : Nat} {stable : Bool} {pa : Nat}  (hK : Keeps sK s) : Keeps sK (l1Fetch s k c stable pa).1 := by
  unfold l1Fetch
  try dsimp only
  repeat' first | with_reducible assumption | with_reducible exact Keeps.refl _ | with_reducible refine takeWay_keeps ?_ | with_reducible refine l2Touch_keeps ?_ | with_reducible refine setCore_keeps ?_ | fail_if_no_progress (with_reducible refine keeps_mk ?_) | with_reducible refine keeps_ite (fun _ => ?_) (fun _ => ?_) | split | dsimp only

theorem l1Fetch_keeps_eq {s : State} {k c : Nat} {stable : Bool} {pa : Nat} {u0 : State} {q0 : _} (eK : l1Fetch s k c stable pa = (u0, q0)) (hK : Keeps sK s) : Keeps sK u0 := by
  have := l1Fetch_keeps (sK := sK) (s := s) (k := k) (c := c) (stable := stable) (pa := pa) hK; rw [eK] at this; exact this

theorem l1Words_keeps {s : State} {k c : Nat} {stable : Bool} {ws : List Nat} (h : Keeps sK s) :
    Keeps sK (l1Words s k c stable ws).1 := by
  induction ws generalizing s with
  | nil => exact h
  | cons w r ih => unfold l1Words; exact ih (l1Fetch_keeps h)

theorem l1Words_keeps_eq {s : State} {k c : Nat} {stable : Bool} {ws : List Nat} {t : State} {q : _}
    (e : l1Words s k c stable ws = (t, q)) (h : Keeps sK s) : Keeps sK t := by
  have := l1Words_keeps (sK := sK) (k := k) (c := c) (stable := stable) (ws := ws) h; rw [e] at this; exact this

theorem weakLoad_keeps {s : State} {k c : Nat} {stable : Bool} {pa n : Nat}  (hK : Keeps sK s) : Keeps sK (weakLoad s k c stable pa n).1 := by
  unfold weakLoad
  try dsimp only
  repeat' first | with_reducible assumption | with_reducible exact Keeps.refl _ | with_reducible refine l1Words_keeps ?_ | fail_if_no_progress (with_reducible refine keeps_mk ?_) | with_reducible refine keeps_ite (fun _ => ?_) (fun _ => ?_) | split | dsimp only | with_reducible refine l1Words_keeps_eq (by assumption) ?_

theorem weakLoad_keeps_eq {s : State} {k c : Nat} {stable : Bool} {pa n : Nat} {u0 : State} {q0 : _} (eK : weakLoad s k c stable pa n = (u0, q0)) (hK : Keeps sK s) : Keeps sK u0 := by
  have := weakLoad_keeps (sK := sK) (s := s) (k := k) (c := c) (stable := stable) (pa := pa) (n := n) hK; rw [eK] at this; exact this

theorem markLine_keeps {s : State} {j line : Nat}  (hK : Keeps sK s) : Keeps sK (markLine s j line) := by
  unfold markLine
  try dsimp only
  repeat' first | with_reducible assumption | with_reducible exact Keeps.refl _ | with_reducible refine writeBackIf_keeps ?_ | with_reducible refine setCore_keeps ?_ | fail_if_no_progress (with_reducible refine keeps_mk ?_) | with_reducible refine keeps_ite (fun _ => ?_) (fun _ => ?_) | split | dsimp only

theorem weakWord_keeps {s : State} {k c : Nat} {stable : Bool} {w : Nat} {v : Word}  (hK : Keeps sK s) : Keeps sK (weakWord s k c stable w v) := by
  unfold weakWord
  try dsimp only
  repeat' first | with_reducible assumption | with_reducible exact Keeps.refl _ | with_reducible refine markLine_keeps ?_ | with_reducible refine takeWay_keeps ?_ | with_reducible refine l2Touch_keeps ?_ | with_reducible refine setCore_keeps ?_ | with_reducible refine wakeMonitors_keeps ?_ | fail_if_no_progress (with_reducible refine keeps_mk ?_) | with_reducible refine keeps_ite (fun _ => ?_) (fun _ => ?_) | split | dsimp only

theorem weakStore_keeps {s : State} {k c : Nat} {stable : Bool} {pa : Nat} {bs : List Byte}  (hK : Keeps sK s) : Keeps sK (weakStore s k c stable pa bs) := by
  unfold weakStore
  try dsimp only
  repeat' first | with_reducible assumption | with_reducible exact Keeps.refl _ | with_reducible refine putHome_keeps ?_ | with_reducible refine l1Fetch_keeps ?_ | with_reducible refine weakWord_keeps ?_ | fail_if_no_progress (with_reducible refine keeps_mk ?_) | with_reducible refine foldl_keeps ?_ ?_ | with_reducible refine foldl1_keeps ?_ ?_ | intro _ _ hk | with_reducible refine keeps_ite (fun _ => ?_) (fun _ => ?_) | split | dsimp only | with_reducible refine l1Fetch_keeps_eq (by assumption) ?_

theorem syncWords_keeps {s : State} {k pa n : Nat}  (hK : Keeps sK s) : Keeps sK (syncWords s k pa n) := by
  unfold syncWords
  try dsimp only
  repeat' first | with_reducible assumption | with_reducible exact Keeps.refl _ | with_reducible refine writeBackWord_keeps ?_ | fail_if_no_progress (with_reducible refine keeps_mk ?_) | with_reducible refine foldl_keeps ?_ ?_ | with_reducible refine foldl1_keeps ?_ ?_ | intro _ _ hk | with_reducible refine keeps_ite (fun _ => ?_) (fun _ => ?_) | split | dsimp only

theorem refreshWords_keeps {s : State} {k c pa n : Nat}  (hK : Keeps sK s) : Keeps sK (refreshWords s k c pa n) := by
  unfold refreshWords
  try dsimp only
  repeat' first | with_reducible assumption | with_reducible exact Keeps.refl _ | with_reducible refine setCore_keeps ?_ | fail_if_no_progress (with_reducible refine keeps_mk ?_) | with_reducible refine foldl_keeps ?_ ?_ | with_reducible refine foldl1_keeps ?_ ?_ | intro _ _ hk | with_reducible refine keeps_ite (fun _ => ?_) (fun _ => ?_) | split | dsimp only

theorem strongLoad_keeps {s : State} {k c pa n : Nat}  (hK : Keeps sK s) : Keeps sK (strongLoad s k c pa n).1 := by
  unfold strongLoad
  try dsimp only
  repeat' first | with_reducible assumption | with_reducible exact Keeps.refl _ | with_reducible refine syncWords_keeps ?_ | with_reducible refine l2Touch_keeps ?_ | with_reducible refine refreshWords_keeps ?_ | fail_if_no_progress (with_reducible refine keeps_mk ?_) | with_reducible refine keeps_ite (fun _ => ?_) (fun _ => ?_) | split | dsimp only

theorem strongLoad_keeps_eq {s : State} {k c pa n : Nat} {u0 : State} {q0 : _} (eK : strongLoad s k c pa n = (u0, q0)) (hK : Keeps sK s) : Keeps sK u0 := by
  have := strongLoad_keeps (sK := sK) (s := s) (k := k) (c := c) (pa := pa) (n := n) hK; rw [eK] at this; exact this

theorem strongStore_keeps {s : State} {k c pa : Nat} {bs : List Byte}  (hK : Keeps sK s) : Keeps sK (strongStore s k c pa bs) := by
  unfold strongStore
  try dsimp only
  repeat' first | with_reducible assumption | with_reducible exact Keeps.refl _ | with_reducible refine syncWords_keeps ?_ | with_reducible refine l2Touch_keeps ?_ | with_reducible refine writeProg_keeps ?_ | with_reducible refine refreshWords_keeps ?_ | fail_if_no_progress (with_reducible refine keeps_mk ?_) | with_reducible refine keeps_ite (fun _ => ?_) (fun _ => ?_) | split | dsimp only

theorem localLoad_keeps {s : State} {k c : Nat} {near stable : Bool} {pa n : Nat}  (hK : Keeps sK s) : Keeps sK (localLoad s k c near stable pa n).1 := by
  unfold localLoad
  try dsimp only
  repeat' first | with_reducible assumption | with_reducible exact Keeps.refl _ | with_reducible refine weakLoad_keeps ?_ | with_reducible refine strongLoad_keeps ?_ | fail_if_no_progress (with_reducible refine keeps_mk ?_) | with_reducible refine keeps_ite (fun _ => ?_) (fun _ => ?_) | split | dsimp only | with_reducible refine weakLoad_keeps_eq (by assumption) ?_ | with_reducible refine strongLoad_keeps_eq (by assumption) ?_

theorem localLoad_keeps_eq {s : State} {k c : Nat} {near stable : Bool} {pa n : Nat} {u0 : State} {q0 : _} (eK : localLoad s k c near stable pa n = (u0, q0)) (hK : Keeps sK s) : Keeps sK u0 := by
  have := localLoad_keeps (sK := sK) (s := s) (k := k) (c := c) (near := near) (stable := stable) (pa := pa) (n := n) hK; rw [eK] at this; exact this

theorem localStore_keeps {s : State} {k c : Nat} {near stable : Bool} {pa : Nat} {bs : List Byte}  (hK : Keeps sK s) : Keeps sK (localStore s k c near stable pa bs) := by
  unfold localStore
  try dsimp only
  repeat' first | with_reducible assumption | with_reducible exact Keeps.refl _ | with_reducible refine weakStore_keeps ?_ | with_reducible refine strongStore_keeps ?_ | fail_if_no_progress (with_reducible refine keeps_mk ?_) | with_reducible refine keeps_ite (fun _ => ?_) (fun _ => ?_) | split | dsimp only

theorem deviceXlate_keeps {s : State} {c : Nat} {n : Need} {va : Nat}  (hK : Keeps sK s) : Keeps sK (deviceXlate s c n va).1 := by
  unfold deviceXlate
  try dsimp only
  repeat' first | with_reducible assumption | with_reducible exact Keeps.refl _ | with_reducible refine markWalk_keeps ?_ | fail_if_no_progress (with_reducible refine keeps_mk ?_) | with_reducible refine keeps_ite (fun _ => ?_) (fun _ => ?_) | split | dsimp only

theorem deviceXlate_keeps_eq {s : State} {c : Nat} {n : Need} {va : Nat} {u0 : State} {q0 : _} (eK : deviceXlate s c n va = (u0, q0)) (hK : Keeps sK s) : Keeps sK u0 := by
  have := deviceXlate_keeps (sK := sK) (s := s) (c := c) (n := n) (va := va) hK; rw [eK] at this; exact this

theorem devicePa_keeps {s : State} {c : Nat} {n : Need} {va : Nat}  (hK : Keeps sK s) : Keeps sK (devicePa s c n va).1 := by
  unfold devicePa
  try dsimp only
  repeat' first | with_reducible assumption | with_reducible exact Keeps.refl _ | with_reducible refine deviceXlate_keeps ?_ | fail_if_no_progress (with_reducible refine keeps_mk ?_) | with_reducible refine keeps_ite (fun _ => ?_) (fun _ => ?_) | split | dsimp only | with_reducible refine deviceXlate_keeps_eq (by assumption) ?_

theorem devicePa_keeps_eq {s : State} {c : Nat} {n : Need} {va : Nat} {u0 : State} {q0 : _} (eK : devicePa s c n va = (u0, q0)) (hK : Keeps sK s) : Keeps sK u0 := by
  have := devicePa_keeps (sK := sK) (s := s) (c := c) (n := n) (va := va) hK; rw [eK] at this; exact this


end Sys2Proof.Machine
end

