-- ==== Sys2Proof/Laws/KeepsRecords.lean ====
section
/-! SUPPORT. What every change keeps (Keeps), for Records. -/

set_option linter.unusedTactic false
set_option linter.unreachableTactic false

namespace Sys2Proof.Machine

variable {sK : State}

theorem errStep_keeps {s : State} {c : Nat}  (hK : Keeps sK s) : Keeps sK (errStep s c) := by
  unfold errStep
  try dsimp only
  repeat' first | with_reducible assumption | with_reducible exact Keeps.refl _ | with_reducible refine markIpa_keeps ?_ | with_reducible refine writeOut_keeps ?_ | with_reducible refine setComp_keeps ?_ | fail_if_no_progress (with_reducible refine keeps_mk ?_) | with_reducible refine keeps_ite (fun _ => ?_) (fun _ => ?_) | split | dsimp only

theorem errFlush_keeps {s : State} {c : Nat}  (hK : Keeps sK s) : Keeps sK (errFlush s c) := by
  unfold errFlush
  try dsimp only
  repeat' first | with_reducible assumption | with_reducible exact Keeps.refl _ | with_reducible refine errStep_keeps ?_ | fail_if_no_progress (with_reducible refine keeps_mk ?_) | with_reducible refine foldl_keeps ?_ ?_ | with_reducible refine foldl1_keeps ?_ ?_ | intro _ _ hk | with_reducible refine keeps_ite (fun _ => ?_) (fun _ => ?_) | split | dsimp only

theorem pushErr_keeps {s : State} {c : Nat} {r : ErrRecord}  (hK : Keeps sK s) : Keeps sK (pushErr s c r) := by
  unfold pushErr
  try dsimp only
  repeat' first | with_reducible assumption | with_reducible exact Keeps.refl _ | with_reducible refine errFlush_keeps ?_ | with_reducible refine setComp_keeps ?_ | fail_if_no_progress (with_reducible refine keeps_mk ?_) | with_reducible refine keeps_ite (fun _ => ?_) (fun _ => ?_) | split | dsimp only

theorem heqStep_keeps {s : State}  (hK : Keeps sK s) : Keeps sK (heqStep s) := by
  unfold heqStep
  try dsimp only
  repeat' first | with_reducible assumption | with_reducible exact Keeps.refl _ | with_reducible refine writeOut_keeps ?_ | fail_if_no_progress (with_reducible refine keeps_mk ?_) | with_reducible refine keeps_ite (fun _ => ?_) (fun _ => ?_) | split | dsimp only

theorem heqFlush_keeps {s : State}  (hK : Keeps sK s) : Keeps sK (heqFlush s) := by
  unfold heqFlush
  try dsimp only
  repeat' first | with_reducible assumption | with_reducible exact Keeps.refl _ | with_reducible refine heqStep_keeps ?_ | fail_if_no_progress (with_reducible refine keeps_mk ?_) | with_reducible refine foldl_keeps ?_ ?_ | with_reducible refine foldl1_keeps ?_ ?_ | intro _ _ hk | with_reducible refine keeps_ite (fun _ => ?_) (fun _ => ?_) | split | dsimp only

theorem pushHeq_keeps {s : State} {r : List Byte}  (hK : Keeps sK s) : Keeps sK (pushHeq s r) := by
  unfold pushHeq
  try dsimp only
  repeat' first | with_reducible assumption | with_reducible exact Keeps.refl _ | with_reducible refine heqFlush_keeps ?_ | fail_if_no_progress (with_reducible refine keeps_mk ?_) | with_reducible refine keeps_ite (fun _ => ?_) (fun _ => ?_) | split | dsimp only

theorem countCorrected_keeps {s : State}  (hK : Keeps sK s) : Keeps sK (countCorrected s) := by
  unfold countCorrected
  try dsimp only
  repeat' first | with_reducible assumption | with_reducible exact Keeps.refl _ | fail_if_no_progress (with_reducible refine keeps_mk ?_) | with_reducible refine keeps_ite (fun _ => ?_) (fun _ => ?_) | split | dsimp only

theorem loseLine_keeps {s : State} {line : Nat}  (hK : Keeps sK s) : Keeps sK (loseLine s line) := by
  unfold loseLine
  try dsimp only
  repeat' first | with_reducible assumption | with_reducible exact Keeps.refl _ | fail_if_no_progress (with_reducible refine keeps_mk ?_) | with_reducible refine keeps_ite (fun _ => ?_) (fun _ => ?_) | split | dsimp only

theorem reportUncorr_keeps {s : State} {c pa action : Nat} {unit : Option Nat}  (hK : Keeps sK s) : Keeps sK (reportUncorr s c pa action unit) := by
  unfold reportUncorr
  try dsimp only
  repeat' first | with_reducible assumption | with_reducible exact Keeps.refl _ | with_reducible refine loseLine_keeps ?_ | with_reducible refine pushHeq_keeps ?_ | fail_if_no_progress (with_reducible refine keeps_mk ?_) | with_reducible refine getD_keeps ?_ ?_ | intro _ hk | with_reducible refine keeps_ite (fun _ => ?_) (fun _ => ?_) | split | dsimp only

theorem reportAt_keeps {s : State} {k c level va action : Nat} {unit : Option Nat}  (hK : Keeps sK s) : Keeps sK (reportAt s k c level va action unit) := by
  unfold reportAt
  try dsimp only
  repeat' first | with_reducible assumption | with_reducible exact Keeps.refl _ | with_reducible refine reportUncorr_keeps ?_ | fail_if_no_progress (with_reducible refine keeps_mk ?_) | with_reducible refine keeps_ite (fun _ => ?_) (fun _ => ?_) | split | dsimp only

theorem reportFrame_keeps {s : State} {k c f : Nat}  (hK : Keeps sK s) : Keeps sK (reportFrame s k c f) := by
  unfold reportFrame
  try dsimp only
  repeat' first | with_reducible assumption | with_reducible exact Keeps.refl _ | with_reducible refine reportAt_keeps ?_ | fail_if_no_progress (with_reducible refine keeps_mk ?_) | with_reducible refine keeps_ite (fun _ => ?_) (fun _ => ?_) | split | dsimp only

theorem reportScratch_keeps {s : State} {k c : Nat}  (hK : Keeps sK s) : Keeps sK (reportScratch s k c) := by
  unfold reportScratch
  try dsimp only
  repeat' first | with_reducible assumption | with_reducible exact Keeps.refl _ | with_reducible refine pushHeq_keeps ?_ | fail_if_no_progress (with_reducible refine keeps_mk ?_) | with_reducible refine keeps_ite (fun _ => ?_) (fun _ => ?_) | split | dsimp only

theorem faultqFail_keeps {s : State} {c rk addr : Nat} {why : Xres}  (hK : Keeps sK s) : Keeps sK (faultqFail s c rk addr why) := by
  unfold faultqFail
  try dsimp only
  repeat' first | with_reducible assumption | with_reducible exact Keeps.refl _ | with_reducible refine pushErr_keeps ?_ | fail_if_no_progress (with_reducible refine keeps_mk ?_) | with_reducible refine keeps_ite (fun _ => ?_) (fun _ => ?_) | split | dsimp only

theorem faultPage_keeps {s : State} {c : Nat} {n : Need} {va : Nat}  (hK : Keeps sK s) : Keeps sK (faultPage s c n va).1 := by
  unfold faultPage
  try dsimp only
  repeat' first | with_reducible assumption | with_reducible exact Keeps.refl _ | with_reducible refine deviceXlate_keeps ?_ | fail_if_no_progress (with_reducible refine keeps_mk ?_) | with_reducible refine keeps_ite (fun _ => ?_) (fun _ => ?_) | split | dsimp only | with_reducible refine deviceXlate_keeps_eq (by assumption) ?_

theorem faultPage_keeps_eq {s : State} {c : Nat} {n : Need} {va : Nat} {u0 : State} {q0 : _} (eK : faultPage s c n va = (u0, q0)) (hK : Keeps sK s) : Keeps sK u0 := by
  have := faultPage_keeps (sK := sK) (s := s) (c := c) (n := n) (va := va) hK; rw [eK] at this; exact this

theorem faultStep_keeps {s : State} {c rk : Nat}  (hK : Keeps sK s) : Keeps sK (faultStep s c rk) := by
  unfold faultStep
  try dsimp only
  repeat' first | with_reducible assumption | with_reducible exact Keeps.refl _ | with_reducible refine faultPage_keeps ?_ | with_reducible refine writeOut_keeps ?_ | with_reducible refine writeHome_keeps ?_ | with_reducible refine setComp_keeps ?_ | with_reducible refine faultqFail_keeps ?_ | fail_if_no_progress (with_reducible refine keeps_mk ?_) | with_reducible refine keeps_ite (fun _ => ?_) (fun _ => ?_) | split | dsimp only | with_reducible refine faultPage_keeps_eq (by assumption) ?_

theorem faultFlush_keeps {s : State} {c rk : Nat}  (hK : Keeps sK s) : Keeps sK (faultFlush s c rk) := by
  unfold faultFlush
  try dsimp only
  repeat' first | with_reducible assumption | with_reducible exact Keeps.refl _ | with_reducible refine faultStep_keeps ?_ | fail_if_no_progress (with_reducible refine keeps_mk ?_) | with_reducible refine foldl_keeps ?_ ?_ | with_reducible refine foldl1_keeps ?_ ?_ | intro _ _ hk | with_reducible refine keeps_ite (fun _ => ?_) (fun _ => ?_) | split | dsimp only

theorem pushFault_keeps {s : State} {c : Nat} {f : FaultRecord}  (hK : Keeps sK s) : Keeps sK (pushFault s c f) := by
  unfold pushFault
  try dsimp only
  repeat' first | with_reducible assumption | with_reducible exact Keeps.refl _ | with_reducible refine faultFlush_keeps ?_ | with_reducible refine setComp_keeps ?_ | fail_if_no_progress (with_reducible refine keeps_mk ?_) | with_reducible refine keeps_ite (fun _ => ?_) (fun _ => ?_) | split | dsimp only

theorem countRecord_keeps {s : State} {c rk at' pa : Nat}  (hK : Keeps sK s) : Keeps sK (countRecord s c rk at' pa) := by
  unfold countRecord
  try dsimp only
  repeat' first | with_reducible assumption | with_reducible exact Keeps.refl _ | with_reducible refine writeOut_keeps ?_ | with_reducible refine writeHome_keeps ?_ | fail_if_no_progress (with_reducible refine keeps_mk ?_) | with_reducible refine getD_keeps ?_ ?_ | intro _ hk | with_reducible refine keeps_ite (fun _ => ?_) (fun _ => ?_) | split | dsimp only

theorem raiseFault_keeps {s : State} {c : Nat} {f : FaultRecord}  (hK : Keeps sK s) : Keeps sK (raiseFault s c f) := by
  unfold raiseFault
  try dsimp only
  repeat' first | with_reducible assumption | with_reducible exact Keeps.refl _ | with_reducible refine setComp_keeps ?_ | with_reducible refine countRecord_keeps ?_ | with_reducible refine pushFault_keeps ?_ | fail_if_no_progress (with_reducible refine keeps_mk ?_) | with_reducible refine keeps_ite (fun _ => ?_) (fun _ => ?_) | split | dsimp only | with_reducible refine findSome_keeps ?_ (by assumption) | intro _ eK | split at eK | (injection eK with eK)

theorem missFault_keeps {s : State} {c old : Nat} {f : FaultRecord} {page : Nat}  (hK : Keeps sK s) : Keeps sK (missFault s c old f page).1 := by
  unfold missFault
  try dsimp only
  repeat' first | with_reducible assumption | with_reducible exact Keeps.refl _ | with_reducible refine setComp_keeps ?_ | with_reducible refine raiseFault_keeps ?_ | fail_if_no_progress (with_reducible refine keeps_mk ?_) | with_reducible refine keeps_ite (fun _ => ?_) (fun _ => ?_) | split | dsimp only

theorem missFault_keeps_eq {s : State} {c old : Nat} {f : FaultRecord} {page : Nat} {u0 : State} {q0 : _} (eK : missFault s c old f page = (u0, q0)) (hK : Keeps sK s) : Keeps sK u0 := by
  have := missFault_keeps (sK := sK) (s := s) (c := c) (old := old) (f := f) (page := page) hK; rw [eK] at this; exact this

theorem takeFid_keeps {s : State} {c stage page : Nat}  (hK : Keeps sK s) : Keeps sK (takeFid s c stage page).1 := by
  unfold takeFid
  try dsimp only
  repeat' first | with_reducible assumption | with_reducible exact Keeps.refl _ | with_reducible refine setComp_keeps ?_ | fail_if_no_progress (with_reducible refine keeps_mk ?_) | with_reducible refine keeps_ite (fun _ => ?_) (fun _ => ?_) | split | dsimp only

theorem takeFid_keeps_eq {s : State} {c stage page : Nat} {u0 : State} {q0 : _} (eK : takeFid s c stage page = (u0, q0)) (hK : Keeps sK s) : Keeps sK u0 := by
  have := takeFid_keeps (sK := sK) (s := s) (c := c) (stage := stage) (page := page) hK; rw [eK] at this; exact this

theorem retireFid_keeps {s : State} {c fid : Nat}  (hK : Keeps sK s) : Keeps sK (retireFid s c fid) := by
  unfold retireFid
  try dsimp only
  repeat' first | with_reducible assumption | with_reducible exact Keeps.refl _ | with_reducible refine setComp_keeps ?_ | fail_if_no_progress (with_reducible refine keeps_mk ?_) | with_reducible refine keeps_ite (fun _ => ?_) (fun _ => ?_) | split | dsimp only


end Sys2Proof.Machine
end

