-- ==== Sys2Proof/Laws/KeepsRegions.lean ====
section
/-! SUPPORT. What every change keeps (Keeps), for Regions. -/

set_option linter.unusedTactic false
set_option linter.unreachableTactic false

namespace Sys2Proof.Machine

variable {sK : State}

theorem onRegion_keeps {s : State} {rk : Nat} {f : Region → Region}  (hK : Keeps sK s) : Keeps sK (onRegion s rk f) := by
  unfold onRegion
  try dsimp only
  repeat' first | with_reducible assumption | with_reducible exact Keeps.refl _ | fail_if_no_progress (with_reducible refine keeps_mk ?_) | with_reducible refine keeps_ite (fun _ => ?_) (fun _ => ?_) | split | dsimp only

theorem writeRcb_keeps {s : State} {rk off size v : Nat}  (hK : Keeps sK s) : Keeps sK (writeRcb s rk off size v) := by
  unfold writeRcb
  try dsimp only
  repeat' first | with_reducible assumption | with_reducible exact Keeps.refl _ | with_reducible refine writeHome_keeps ?_ | fail_if_no_progress (with_reducible refine keeps_mk ?_) | with_reducible refine keeps_ite (fun _ => ?_) (fun _ => ?_) | split | dsimp only

theorem setRegionState_keeps {s : State} {rk st : Nat}  (hK : Keeps sK s) : Keeps sK (setRegionState s rk st) := by
  unfold setRegionState
  try dsimp only
  repeat' first | with_reducible assumption | with_reducible exact Keeps.refl _ | with_reducible refine writeRcb_keeps ?_ | with_reducible refine onRegion_keeps ?_ | fail_if_no_progress (with_reducible refine keeps_mk ?_) | with_reducible refine keeps_ite (fun _ => ?_) (fun _ => ?_) | split | dsimp only

theorem haltWith_keeps {s : State} {c : Nat} {r : ErrRecord}  (hK : Keeps sK s) : Keeps sK (haltWith s c r) := by
  unfold haltWith
  try dsimp only
  repeat' first | with_reducible assumption | with_reducible exact Keeps.refl _ | with_reducible refine setComp_keeps ?_ | with_reducible refine setRegionState_keeps ?_ | with_reducible refine pushErr_keeps ?_ | fail_if_no_progress (with_reducible refine keeps_mk ?_) | with_reducible refine foldl_keeps ?_ ?_ | with_reducible refine foldl1_keeps ?_ ?_ | intro _ _ hk | with_reducible refine keeps_ite (fun _ => ?_) (fun _ => ?_) | split | dsimp only

theorem haltComp_keeps {s : State} {c info : Nat}  (hK : Keeps sK s) : Keeps sK (haltComp s c info) := by
  unfold haltComp
  try dsimp only
  repeat' first | with_reducible assumption | with_reducible exact Keeps.refl _ | with_reducible refine haltWith_keeps ?_ | fail_if_no_progress (with_reducible refine keeps_mk ?_) | with_reducible refine keeps_ite (fun _ => ?_) (fun _ => ?_) | split | dsimp only

theorem haltLost_keeps {s : State} {c pa : Nat}  (hK : Keeps sK s) : Keeps sK (haltLost s c pa) := by
  unfold haltLost
  try dsimp only
  repeat' first | with_reducible assumption | with_reducible exact Keeps.refl _ | with_reducible refine haltWith_keeps ?_ | fail_if_no_progress (with_reducible refine keeps_mk ?_) | with_reducible refine keeps_ite (fun _ => ?_) (fun _ => ?_) | split | dsimp only

theorem writeLive_keeps {s : State} {rk : Nat}  (hK : Keeps sK s) : Keeps sK (writeLive s rk) := by
  unfold writeLive
  try dsimp only
  repeat' first | with_reducible assumption | with_reducible exact Keeps.refl _ | with_reducible refine writeRcb_keeps ?_ | fail_if_no_progress (with_reducible refine keeps_mk ?_) | with_reducible refine keeps_ite (fun _ => ?_) (fun _ => ?_) | split | dsimp only

theorem refuse_keeps {s : State} {c : Nat}  (hK : Keeps sK s) : Keeps sK (refuse s c) := by
  unfold refuse
  try dsimp only
  repeat' first | with_reducible assumption | with_reducible exact Keeps.refl _ | with_reducible refine flushL1_keeps ?_ | with_reducible refine setCluster_keeps ?_ | fail_if_no_progress (with_reducible refine keeps_mk ?_) | with_reducible refine foldl_keeps ?_ ?_ | with_reducible refine foldl1_keeps ?_ ?_ | intro _ _ hk | with_reducible refine keeps_ite (fun _ => ?_) (fun _ => ?_) | split | dsimp only

theorem activate_keeps {s : State} {r : Region}  (hK : Keeps sK s) : Keeps sK (activate s r) := by
  unfold activate
  try dsimp only
  repeat' first | with_reducible assumption | with_reducible exact Keeps.refl _ | with_reducible refine refuse_keeps ?_ | with_reducible refine writeLive_keeps ?_ | with_reducible refine setRegionState_keeps ?_ | with_reducible refine writeRcb_keeps ?_ | fail_if_no_progress (with_reducible refine keeps_mk ?_) | with_reducible refine keeps_ite (fun _ => ?_) (fun _ => ?_) | split | dsimp only

theorem validate_keeps {s : State} {c addr : Nat}  (hK : Keeps sK s) : Keeps sK (validate s c addr).1 := by
  unfold validate
  try dsimp only
  repeat' first | with_reducible assumption | with_reducible exact Keeps.refl _ | with_reducible refine devicePa_keeps ?_ | with_reducible refine activate_keeps ?_ | fail_if_no_progress (with_reducible refine keeps_mk ?_) | with_reducible refine keeps_ite (fun _ => ?_) (fun _ => ?_) | split | dsimp only | with_reducible refine devicePa_keeps_eq (by assumption) ?_

theorem validate_keeps_eq {s : State} {c addr : Nat} {u0 : State} {q0 : _} (eK : validate s c addr = (u0, q0)) (hK : Keeps sK s) : Keeps sK u0 := by
  have := validate_keeps (sK := sK) (s := s) (c := c) (addr := addr) hK; rw [eK] at this; exact this

theorem writeDone_keeps {s : State} {c ipa v : Nat}  (hK : Keeps sK s) : Keeps sK (writeDone s c ipa v) := by
  unfold writeDone
  try dsimp only
  repeat' first | with_reducible assumption | with_reducible exact Keeps.refl _ | with_reducible refine markIpa_keeps ?_ | with_reducible refine writeOut_keeps ?_ | fail_if_no_progress (with_reducible refine keeps_mk ?_) | with_reducible refine keeps_ite (fun _ => ?_) (fun _ => ?_) | split | dsimp only

theorem dropStable_keeps {s : State} {c : Nat}  (hK : Keeps sK s) : Keeps sK (dropStable s c) := by
  unfold dropStable
  try dsimp only
  repeat' first | with_reducible assumption | with_reducible exact Keeps.refl _ | with_reducible refine writeBackIf_keeps ?_ | with_reducible refine setCore_keeps ?_ | fail_if_no_progress (with_reducible refine keeps_mk ?_) | with_reducible refine foldl_keeps ?_ ?_ | with_reducible refine foldl1_keeps ?_ ?_ | intro _ _ hk | with_reducible refine keeps_ite (fun _ => ?_) (fun _ => ?_) | split | dsimp only

theorem endRegion_keeps {s : State} {n rk : Nat} (h : Keeps sK s) : Keeps sK (endRegion s n rk) := by
  induction n generalizing s rk with
  | zero => exact h
  | succ n ih =>
    unfold endRegion
    split
    · exact h
    · split
      · exact h
      · dsimp only
        split
        · exact writeDone_keeps (dropStable_keeps (refuse_keeps (keeps_mk (setRegionState_keeps h))))
        · exact ih (refuse_keeps (keeps_mk (setRegionState_keeps h)))

theorem endIdle_keeps {s : State} {rk : Nat}  (hK : Keeps sK s) : Keeps sK (endIdle s rk) := by
  unfold endIdle
  try dsimp only
  repeat' first | with_reducible assumption | with_reducible exact Keeps.refl _ | with_reducible refine endRegion_keeps ?_ | fail_if_no_progress (with_reducible refine keeps_mk ?_) | with_reducible refine keeps_ite (fun _ => ?_) (fun _ => ?_) | split | dsimp only


end Sys2Proof.Machine
end

