-- ==== Sys2Proof/Laws/KeepsSpawn.lean ====
section
/-! SUPPORT. What every change keeps (Keeps), for Spawn. -/

set_option linter.unusedTactic false
set_option linter.unreachableTactic false

namespace Sys2Proof.Machine

variable {sK : State}

theorem addCrew_keeps {s : State} {c rk scr tiles : Nat} {teams : Nat → List Team}  (hK : Keeps sK s) : Keeps sK (addCrew s c rk scr tiles teams) := by
  unfold addCrew
  try dsimp only
  repeat' first | with_reducible assumption | with_reducible exact Keeps.refl _ | with_reducible refine setComp_keeps ?_ | with_reducible refine setCrew_keeps ?_ | with_reducible refine setTeam_keeps ?_ | fail_if_no_progress (with_reducible refine keeps_mk ?_) | with_reducible refine foldl_keeps ?_ ?_ | with_reducible refine foldl1_keeps ?_ ?_ | intro _ _ hk | with_reducible refine keeps_ite (fun _ => ?_) (fun _ => ?_) | split | dsimp only

theorem launchBin_keeps {s : State} {b : Bin}  (hK : Keeps sK s) : Keeps sK (launchBin s b) := by
  unfold launchBin
  try dsimp only
  repeat' first | with_reducible assumption | with_reducible exact Keeps.refl _ | with_reducible refine addCrew_keeps ?_ | fail_if_no_progress (with_reducible refine keeps_mk ?_) | with_reducible refine keeps_ite (fun _ => ?_) (fun _ => ?_) | split | dsimp only

theorem launchBins_keeps {s : State} {k : Nat} {p : Bin → Bool}  (hK : Keeps sK s) : Keeps sK (launchBins s k p) := by
  unfold launchBins
  try dsimp only
  repeat' first | with_reducible assumption | with_reducible exact Keeps.refl _ | with_reducible refine setCore_keeps ?_ | with_reducible refine launchBin_keeps ?_ | fail_if_no_progress (with_reducible refine keeps_mk ?_) | with_reducible refine foldl_keeps ?_ ?_ | with_reducible refine foldl1_keeps ?_ ?_ | intro _ _ hk | with_reducible refine keeps_ite (fun _ => ?_) (fun _ => ?_) | split | dsimp only

theorem flushBins_keeps {s : State} {c k : Nat} {p : Bin → Bool}  (hK : Keeps sK s) : Keeps sK (flushBins s c k p) := by
  unfold flushBins
  try dsimp only
  repeat' first | with_reducible assumption | with_reducible exact Keeps.refl _ | with_reducible refine launchBins_keeps ?_ | with_reducible refine setCore_keeps ?_ | fail_if_no_progress (with_reducible refine keeps_mk ?_) | with_reducible refine keeps_ite (fun _ => ?_) (fun _ => ?_) | split | dsimp only

theorem binAdd_keeps {s : State} {x : Spawning}  (hK : Keeps sK s) : Keeps sK (binAdd s x) := by
  unfold binAdd
  try dsimp only
  repeat' first | with_reducible assumption | with_reducible exact Keeps.refl _ | with_reducible refine setCore_keeps ?_ | with_reducible refine launchBin_keeps ?_ | with_reducible refine launchBins_keeps ?_ | fail_if_no_progress (with_reducible refine keeps_mk ?_) | with_reducible refine keeps_ite (fun _ => ?_) (fun _ => ?_) | split | dsimp only

theorem enterBin_keeps {s : State}  (hK : Keeps sK s) : Keeps sK (enterBin s) := by
  unfold enterBin
  try dsimp only
  repeat' first | with_reducible assumption | with_reducible exact Keeps.refl _ | with_reducible refine writeBackAll_keeps ?_ | with_reducible refine binAdd_keeps ?_ | with_reducible refine validate_keeps ?_ | fail_if_no_progress (with_reducible refine keeps_mk ?_) | with_reducible refine keeps_ite (fun _ => ?_) (fun _ => ?_) | split | dsimp only | with_reducible refine validate_keeps_eq (by assumption) ?_

theorem crewBarCheck_keeps {s : State} {ck b : Nat}  (hK : Keeps sK s) : Keeps sK (crewBarCheck s ck b) := by
  unfold crewBarCheck
  try dsimp only
  repeat' first | with_reducible assumption | with_reducible exact Keeps.refl _ | with_reducible refine setCrew_keeps ?_ | with_reducible refine wakeAll_keeps ?_ | with_reducible refine setCore_keeps ?_ | fail_if_no_progress (with_reducible refine keeps_mk ?_) | with_reducible refine getD_keeps ?_ ?_ | intro _ hk | with_reducible refine keeps_ite (fun _ => ?_) (fun _ => ?_) | split | dsimp only

theorem freeProposals_keeps {s : State} {key : Nat}  (hK : Keeps sK s) : Keeps sK (freeProposals s key) := by
  unfold freeProposals
  try dsimp only
  repeat' first | with_reducible assumption | with_reducible exact Keeps.refl _ | fail_if_no_progress (with_reducible refine keeps_mk ?_) | with_reducible refine keeps_ite (fun _ => ?_) (fun _ => ?_) | split | dsimp only

theorem reapTeam_keeps {s : State} {key : Nat}  (hK : Keeps sK s) : Keeps sK (reapTeam s key) := by
  unfold reapTeam
  try dsimp only
  repeat' first | with_reducible assumption | with_reducible exact Keeps.refl _ | fail_if_no_progress (with_reducible refine keeps_mk ?_) | with_reducible refine keeps_ite (fun _ => ?_) (fun _ => ?_) | split | dsimp only

theorem reapCrew_keeps {s : State} {ck : Nat}  (hK : Keeps sK s) : Keeps sK (reapCrew s ck) := by
  unfold reapCrew
  try dsimp only
  repeat' first | with_reducible assumption | with_reducible exact Keeps.refl _ | with_reducible refine endIdle_keeps ?_ | with_reducible refine setCrew_keeps ?_ | fail_if_no_progress (with_reducible refine keeps_mk ?_) | with_reducible refine keeps_ite (fun _ => ?_) (fun _ => ?_) | split | dsimp only

theorem reap_keeps {s : State}  (hK : Keeps sK s) : Keeps sK (reap s) := by
  unfold reap
  try dsimp only
  repeat' first | with_reducible assumption | with_reducible exact Keeps.refl _ | with_reducible refine reapTeam_keeps ?_ | with_reducible refine reapCrew_keeps ?_ | fail_if_no_progress (with_reducible refine keeps_mk ?_) | with_reducible refine foldl_keeps ?_ ?_ | with_reducible refine foldl1_keeps ?_ ?_ | intro _ _ hk | with_reducible refine keeps_ite (fun _ => ?_) (fun _ => ?_) | split | dsimp only

theorem endTeam_keeps {s : State} {key : Nat}  (hK : Keeps sK s) : Keeps sK (endTeam s key) := by
  unfold endTeam
  try dsimp only
  repeat' first | with_reducible assumption | with_reducible exact Keeps.refl _ | with_reducible refine freeProposals_keeps ?_ | with_reducible refine setTeam_keeps ?_ | with_reducible refine onRegion_keeps ?_ | with_reducible refine writeLive_keeps ?_ | with_reducible refine crewBarCheck_keeps ?_ | with_reducible refine reap_keeps ?_ | fail_if_no_progress (with_reducible refine keeps_mk ?_) | with_reducible refine foldl_keeps ?_ ?_ | with_reducible refine foldl1_keeps ?_ ?_ | intro _ _ hk | with_reducible refine keeps_ite (fun _ => ?_) (fun _ => ?_) | split | dsimp only


end Sys2Proof.Machine
end

