-- ==== Sys2Proof/Laws/KeepsOps.lean ====
section
/-! SUPPORT. What every change keeps (Keeps), for Ops. -/

set_option linter.unusedTactic false
set_option linter.unreachableTactic false

namespace Sys2Proof.Machine

variable {sK : State}

theorem readLine_keeps {s : State} {k c level : Nat} {strong : Bool} {p : Nat × Nat}  (hK : Keeps sK s) : Keeps sK (readLine s k c level strong p) := by
  unfold readLine
  try dsimp only
  repeat' first | with_reducible assumption | with_reducible exact Keeps.refl _ | with_reducible refine translate_keeps ?_ | with_reducible refine localLoad_keeps ?_ | fail_if_no_progress (with_reducible refine keeps_mk ?_) | with_reducible refine keeps_ite (fun _ => ?_) (fun _ => ?_) | split | dsimp only | with_reducible refine translate_keeps_eq (by assumption) ?_ | with_reducible refine localLoad_keeps_eq (by assumption) ?_

theorem readLines_keeps {s : State} {k c level : Nat} {strong : Bool} {l : List (Nat × Nat)}  (hK : Keeps sK s) : Keeps sK (readLines s k c level strong l) := by
  unfold readLines
  try dsimp only
  repeat' first | with_reducible assumption | with_reducible exact Keeps.refl _ | with_reducible refine readLine_keeps ?_ | fail_if_no_progress (with_reducible refine keeps_mk ?_) | with_reducible refine foldl_keeps ?_ ?_ | with_reducible refine foldl1_keeps ?_ ?_ | intro _ _ hk | with_reducible refine keeps_ite (fun _ => ?_) (fun _ => ?_) | split | dsimp only

theorem acquireDest_keeps {s : State} {k c : Nat} {r : Nat × Nat}  (hK : Keeps sK s) : Keeps sK (acquireDest s k c r) := by
  unfold acquireDest
  try dsimp only
  repeat' first | with_reducible assumption | with_reducible exact Keeps.refl _ | with_reducible refine acquireRange_keeps ?_ | fail_if_no_progress (with_reducible refine keeps_mk ?_) | with_reducible refine foldl_keeps ?_ ?_ | with_reducible refine foldl1_keeps ?_ ?_ | intro _ _ hk | with_reducible refine keeps_ite (fun _ => ?_) (fun _ => ?_) | split | dsimp only

theorem partPas_keeps {s : State} {c : Nat} {n : Need} {l : List (Nat × Nat)} (h : Keeps sK s) :
    Keeps sK (partPas s c n l).1 := by
  induction l generalizing s with
  | nil => exact h
  | cons x r ih =>
    obtain ⟨va, len⟩ := x
    unfold partPas
    split
    · exact devicePa_keeps_eq (by assumption) h
    · have h1 := ih (devicePa_keeps_eq (sK := sK) (by assumption) h)
      split
      · rename_i e; rw [e] at h1; exact h1
      · rename_i e; rw [e] at h1; exact h1

theorem partPas_keeps_eq {s : State} {c : Nat} {n : Need} {l : List (Nat × Nat)} {t : State} {q : _}
    (e : partPas s c n l = (t, q)) (h : Keeps sK s) : Keeps sK t := by
  have := partPas_keeps (sK := sK) (c := c) (n := n) (l := l) h; rw [e] at this; exact this

theorem writeImage_keeps {s : State} {k c base : Nat} {l : List (Nat × Nat × Nat)} {fs : List Bits.Fld}  (hK : Keeps sK s) : Keeps sK (writeImage s k c base l fs) := by
  unfold writeImage
  dsimp only
  refine foldl_keeps ?_ (fun t x ht => matchWatches_keeps (wakeMonitors_keeps ht))
  refine keeps_mem (foldl_keeps hK ?_) ?_ rfl rfl
  · intro t x ht
    exact keeps_mem (disown_keeps (tagRange_keeps (noteWrite_keeps (foldl_keeps ht fun u j hu => setCore_keeps hu)))) (memWf_memClear _ _ _) rfl rfl
  · dsimp only
    generalize List.foldl _ _ _ = u
    generalize u.mem = m
    intro hm
    induction fs generalizing m with
    | nil => exact hm
    | cons f r ih =>
      rw [List.foldl_cons]
      refine ih _ ?_
      split
      · exact hm
      · exact memWf_memWrite _ _ _ hm

theorem enterHandler_keeps {s : State} {key : Nat} {t : Team} {p : Place} {i : TrapInfo} {f handler : Nat}  {u0 : State} (eK : enterHandler s key t p i f handler = some u0) (hK : Keeps sK s) : Keeps sK u0 := by
  unfold enterHandler at eK
  try dsimp only at eK
  repeat' first | split at eK | (rw [Option.map_eq_some_iff] at eK; obtain ⟨_, _, eK⟩ := eK; try dsimp only at eK) | (rw [Option.bind_eq_some_iff] at eK; obtain ⟨_, _, eK⟩ := eK; try dsimp only at eK)
  all_goals (try first | (injection eK with eK; subst eK) | (injection eK; done) | subst eK)
  all_goals (repeat' first | (intro _ _ _ eK h1; (try dsimp only at eK); repeat' (split at eK)) | (intro _ _ _ eK; (try dsimp only at eK); repeat' (split at eK)) | (intro _ _ eK; (try dsimp only at eK); repeat' (split at eK)) | (intro _ eK; (try dsimp only at eK); repeat' (split at eK)) | intro _ | with_reducible assumption | with_reducible exact Keeps.refl _ | with_reducible refine partPas_keeps ?_ | with_reducible refine writeImage_keeps ?_ | with_reducible refine setTeam_keeps ?_ | with_reducible refine voidTeamLatches_keeps ?_ | fail_if_no_progress (with_reducible refine keeps_mk ?_) | with_reducible refine getD_keeps ?_ ?_ | with_reducible refine keeps_ite (fun _ => ?_) (fun _ => ?_) | split | dsimp only | with_reducible refine partPas_keeps_eq (by assumption) ?_ | (injection eK; done) | (injection eK with eK; subst eK))

theorem escalate_keeps {s : State} {key : Nat} {t : Team} {p : Place} {i : TrapInfo} {n rk : Nat} (h : Keeps sK s) :
    Keeps sK (escalate s key t p i n rk) := by
  induction n generalizing i rk with
  | zero => exact haltComp_keeps h
  | succ n ih =>
    unfold escalate
    split
    · exact haltComp_keeps h
    · split
      · exact haltComp_keeps h
      · dsimp only
        split
        · exact haltComp_keeps h
        · split
          · exact haltComp_keeps h
          · split
            · exact onTeam_keeps (onRegion_keeps (enterHandler_keeps (by assumption) h))
            · exact ih

theorem deliverTrap_keeps {s : State} {key : Nat} {i : TrapInfo}  (hK : Keeps sK s) : Keeps sK (deliverTrap s key i) := by
  unfold deliverTrap
  try dsimp only
  repeat' first | with_reducible assumption | with_reducible exact Keeps.refl _ | with_reducible refine escalate_keeps ?_ | with_reducible refine reportAt_keeps ?_ | fail_if_no_progress (with_reducible refine keeps_mk ?_) | with_reducible refine keeps_ite (fun _ => ?_) (fun _ => ?_) | split | dsimp only | with_reducible refine enterHandler_keeps (by assumption) ?_

theorem acquireGate_keeps {s : State} {key : Nat}  {u0 : State} (eK : acquireGate s key = .hold u0) (hK : Keeps sK s) : Keeps sK u0 := by
  unfold acquireGate at eK
  try dsimp only at eK
  repeat' first | split at eK | (rw [Option.map_eq_some_iff] at eK; obtain ⟨_, _, eK⟩ := eK; try dsimp only at eK) | (rw [Option.bind_eq_some_iff] at eK; obtain ⟨_, _, eK⟩ := eK; try dsimp only at eK)
  all_goals (try first | (injection eK with eK; subst eK) | (injection eK; done) | subst eK)
  all_goals (repeat' first | with_reducible assumption | with_reducible exact Keeps.refl _ | fail_if_no_progress (with_reducible refine keeps_mk ?_) | with_reducible refine keeps_ite (fun _ => ?_) (fun _ => ?_) | split | dsimp only | (injection eK; done) | (injection eK with eK; subst eK) | (injection eK with eK; split at eK) | (injection eK with eK) | split at eK)

theorem takeTrap_keeps {s : State} {key : Nat} {i : TrapInfo}  (hK : Keeps sK s) : Keeps sK (takeTrap s key i) := by
  unfold takeTrap
  try dsimp only
  repeat' first | with_reducible assumption | with_reducible exact Keeps.refl _ | with_reducible refine setTeam_keeps ?_ | with_reducible refine deliverTrap_keeps ?_ | fail_if_no_progress (with_reducible refine keeps_mk ?_) | with_reducible refine keeps_ite (fun _ => ?_) (fun _ => ?_) | split | dsimp only

theorem olderGate_keeps {c : Ctx} {s : State}  {u0 : State} (eK : olderGate c s = .hold u0) (hK : Keeps sK s) : Keeps sK u0 := by
  unfold olderGate at eK
  try dsimp only at eK
  repeat' first | split at eK | (rw [Option.map_eq_some_iff] at eK; obtain ⟨_, _, eK⟩ := eK; try dsimp only at eK) | (rw [Option.bind_eq_some_iff] at eK; obtain ⟨_, _, eK⟩ := eK; try dsimp only at eK)
  all_goals (try first | (injection eK with eK; subst eK) | (injection eK; done) | subst eK)
  all_goals (repeat' first | with_reducible assumption | with_reducible exact Keeps.refl _ | fail_if_no_progress (with_reducible refine keeps_mk ?_) | with_reducible refine keeps_ite (fun _ => ?_) (fun _ => ?_) | split | dsimp only | (injection eK; done) | (injection eK with eK; subst eK) | (injection eK with eK; split at eK) | (injection eK with eK) | split at eK)

theorem endStint_keeps {s : State} {b : Nat}  (hK : Keeps sK s) : Keeps sK (endStint s b) := by
  unfold endStint
  try dsimp only
  repeat' first | with_reducible assumption | with_reducible exact Keeps.refl _ | with_reducible refine setBench_keeps ?_ | with_reducible refine onTeam_keeps ?_ | fail_if_no_progress (with_reducible refine keeps_mk ?_) | with_reducible refine keeps_ite (fun _ => ?_) (fun _ => ?_) | split | dsimp only

theorem stintCheck_keeps {s : State} {b key : Nat} {c waits yields : Bool}  (hK : Keeps sK s) : Keeps sK (stintCheck s b key c waits yields) := by
  unfold stintCheck
  try dsimp only
  repeat' first | with_reducible assumption | with_reducible exact Keeps.refl _ | with_reducible refine setBench_keeps ?_ | with_reducible refine endStint_keeps ?_ | fail_if_no_progress (with_reducible refine keeps_mk ?_) | with_reducible refine keeps_ite (fun _ => ?_) (fun _ => ?_) | split | dsimp only

theorem passBy_keeps {c : Ctx} {es : List Entry} {s : State}  (hK : Keeps sK s) : Keeps sK (passBy c es s) := by
  unfold passBy
  try dsimp only
  repeat' first | with_reducible assumption | with_reducible exact Keeps.refl _ | with_reducible refine onTeam_keeps ?_ | fail_if_no_progress (with_reducible refine keeps_mk ?_) | with_reducible refine keeps_ite (fun _ => ?_) (fun _ => ?_) | split | dsimp only

theorem dropFetched_keeps {c : Ctx} {s : State}  (hK : Keeps sK s) : Keeps sK (dropFetched c s) := by
  unfold dropFetched
  try dsimp only
  repeat' first | with_reducible assumption | with_reducible exact Keeps.refl _ | with_reducible refine onTeam_keeps ?_ | fail_if_no_progress (with_reducible refine keeps_mk ?_) | with_reducible refine keeps_ite (fun _ => ?_) (fun _ => ?_) | split | dsimp only

theorem trapHead_keeps {c : Ctx} {r : Raise} {mask : Word} {s : State} {es : List Entry}  (hK : Keeps sK s) : Keeps sK (trapHead c r mask s es) := by
  unfold trapHead
  try dsimp only
  repeat' first | with_reducible assumption | with_reducible exact Keeps.refl _ | with_reducible refine readLines_keeps ?_ | with_reducible refine dropFetched_keeps ?_ | with_reducible refine passBy_keeps ?_ | with_reducible refine onTeam_keeps ?_ | with_reducible refine markRefused_keeps ?_ | with_reducible refine reportScratch_keeps ?_ | with_reducible refine reportAt_keeps ?_ | with_reducible refine reportFrame_keeps ?_ | with_reducible refine takeTrap_keeps ?_ | fail_if_no_progress (with_reducible refine keeps_mk ?_) | with_reducible refine foldl_keeps ?_ ?_ | with_reducible refine foldl1_keeps ?_ ?_ | intro _ _ hk | with_reducible refine keeps_ite (fun _ => ?_) (fun _ => ?_) | split | dsimp only

theorem trapRun_keeps {c : Ctx} {pc : Nat} {illegal : Bool} {s : State} {es : List Entry}  (hK : Keeps sK s) : Keeps sK (trapRun c pc illegal s es) := by
  unfold trapRun
  try dsimp only
  repeat' first | with_reducible assumption | with_reducible exact Keeps.refl _ | with_reducible refine passBy_keeps ?_ | with_reducible refine dropFetched_keeps ?_ | with_reducible refine takeTrap_keeps ?_ | fail_if_no_progress (with_reducible refine keeps_mk ?_) | with_reducible refine keeps_ite (fun _ => ?_) (fun _ => ?_) | split | dsimp only

theorem waitAgain_keeps {c : Ctx} {s : State} {held : Bool}  (hK : Keeps sK s) : Keeps sK (waitAgain c s held) := by
  unfold waitAgain
  try dsimp only
  repeat' first | with_reducible assumption | with_reducible exact Keeps.refl _ | with_reducible refine onTeam_keeps ?_ | with_reducible refine endStint_keeps ?_ | fail_if_no_progress (with_reducible refine keeps_mk ?_) | with_reducible refine keeps_ite (fun _ => ?_) (fun _ => ?_) | split | dsimp only

theorem wakeAgain_keeps {s : State}  (hK : Keeps sK s) : Keeps sK (wakeAgain s) := by
  unfold wakeAgain
  try dsimp only
  repeat' first | with_reducible assumption | with_reducible exact Keeps.refl _ | fail_if_no_progress (with_reducible refine keeps_mk ?_) | with_reducible refine keeps_ite (fun _ => ?_) (fun _ => ?_) | split | dsimp only

theorem conclude_keeps {c : Ctx} {r : Done} (hK : Keeps sK r.s) : Keeps sK (conclude c r) := by
  unfold conclude
  try dsimp only
  repeat' first | with_reducible assumption | with_reducible exact Keeps.refl _ | with_reducible refine trapHead_keeps ?_ | with_reducible refine onTeam_keeps ?_ | with_reducible refine dropFetched_keeps ?_ | with_reducible refine stintCheck_keeps ?_ | with_reducible refine takeTrap_keeps ?_ | fail_if_no_progress (with_reducible refine keeps_mk ?_) | with_reducible refine getD_keeps ?_ ?_ | intro _ hk | with_reducible refine keeps_ite (fun _ => ?_) (fun _ => ?_) | split | dsimp only

theorem issue_keeps {priv : Ctx → State → Option Nat} {own : Ctx → State → Gate} {eff : Ctx → State → Done} {c : Ctx}
    {s : State} (hg : ∀ c s t, own c s = .hold t → Keeps sK s → Keeps sK t)
    (he : ∀ c s, Keeps sK s → Keeps sK (eff c s).s) (h : Keeps sK s) : Keeps sK (issue priv own eff c s) := by
  unfold issue
  split
  · exact trapRun_keeps h
  · exact trapHead_keeps h
  · exact waitAgain_keeps h
  · split
    · exact trapHead_keeps h
    · exact waitAgain_keeps h
    · exact waitAgain_keeps (hg _ _ _ (by assumption) h)
    · exact conclude_keeps (he _ _ h)

theorem performPriv_keeps {x : Shape} {priv : Ctx → State → Option Nat} {own : Ctx → State → Gate} {eff : Ctx → State → Done}
    {s u0 : State} (hg : ∀ c s t, own c s = .hold t → Keeps sK s → Keeps sK t)
    (he : ∀ c s, Keeps sK s → Keeps sK (eff c s).s) (e : performPriv x priv own eff s = .next u0) (h : Keeps sK s) : Keeps sK u0 := by
  unfold performPriv at e
  split at e
  · cases e
  · cases e; exact issue_keeps hg he h

theorem performGated_keeps {x : Shape} {own : Ctx → State → Gate} {eff : Ctx → State → Done}
    {s u0 : State} (hg : ∀ c s t, own c s = .hold t → Keeps sK s → Keeps sK t)
    (he : ∀ c s, Keeps sK s → Keeps sK (eff c s).s) (e : performGated x own eff s = .next u0) (h : Keeps sK s) : Keeps sK u0 :=
  performPriv_keeps hg he e h

theorem perform_keeps {x : Shape} {eff : Ctx → State → State} {s u0 : State}
    (he : ∀ c s, Keeps sK s → Keeps sK (eff c s)) (e : perform x eff s = .next u0) (h : Keeps sK s) : Keeps sK u0 :=
  performGated_keeps (fun _ _ _ x _ => by cases x) he e h

theorem performHint_keeps {s : State}  {u0 : State} (eK : performHint s = .next u0) (hK : Keeps sK s) : Keeps sK u0 := by
  unfold performHint at eK
  try dsimp only at eK
  repeat' first | split at eK | (rw [Option.map_eq_some_iff] at eK; obtain ⟨_, _, eK⟩ := eK; try dsimp only at eK) | (rw [Option.bind_eq_some_iff] at eK; obtain ⟨_, _, eK⟩ := eK; try dsimp only at eK)
  all_goals (try first | (injection eK with eK; subst eK) | (injection eK; done) | subst eK)
  all_goals (repeat' first | with_reducible assumption | with_reducible exact Keeps.refl _ | fail_if_no_progress (with_reducible refine keeps_mk ?_) | with_reducible refine keeps_ite (fun _ => ?_) (fun _ => ?_) | split | dsimp only | (injection eK; done) | (injection eK with eK; subst eK))

theorem badWord_keeps {s : State}  (hK : Keeps sK s) : Keeps sK (badWord s) := by
  unfold badWord
  try dsimp only
  repeat' first | with_reducible assumption | with_reducible exact Keeps.refl _ | with_reducible refine trapRun_keeps ?_ | fail_if_no_progress (with_reducible refine keeps_mk ?_) | with_reducible refine keeps_ite (fun _ => ?_) (fun _ => ?_) | split | dsimp only

theorem parkTeam_keeps {s : State} {key : Nat} {carry : Word × Word}  (hK : Keeps sK s) : Keeps sK (parkTeam s key carry) := by
  unfold parkTeam
  try dsimp only
  repeat' first | with_reducible assumption | with_reducible exact Keeps.refl _ | with_reducible refine voidTeamLatches_keeps ?_ | with_reducible refine setTeam_keeps ?_ | fail_if_no_progress (with_reducible refine keeps_mk ?_) | with_reducible refine keeps_ite (fun _ => ?_) (fun _ => ?_) | split | dsimp only

theorem readFrame_keeps {s : State} {k c f : Nat}  (hK : Keeps sK s) : Keeps sK (readFrame s k c f).1 := by
  unfold readFrame
  try dsimp only
  repeat' first | with_reducible assumption | with_reducible exact Keeps.refl _ | with_reducible refine partPas_keeps ?_ | fail_if_no_progress (with_reducible refine keeps_mk ?_) | with_reducible refine keeps_ite (fun _ => ?_) (fun _ => ?_) | split | dsimp only | with_reducible refine partPas_keeps_eq (by assumption) ?_

theorem readFrame_keeps_eq {s : State} {k c f : Nat} {u0 : State} {q0 : _} (eK : readFrame s k c f = (u0, q0)) (hK : Keeps sK s) : Keeps sK u0 := by
  have := readFrame_keeps (sK := sK) (s := s) (k := k) (c := c) (f := f) hK; rw [eK] at this; exact this

theorem leaveEscalation_keeps {s : State} {key f : Nat}  (hK : Keeps sK s) : Keeps sK (leaveEscalation s key f) := by
  unfold leaveEscalation
  try dsimp only
  repeat' first | with_reducible assumption | with_reducible exact Keeps.refl _ | with_reducible refine onRegion_keeps ?_ | with_reducible refine setTeam_keeps ?_ | fail_if_no_progress (with_reducible refine keeps_mk ?_) | with_reducible refine keeps_ite (fun _ => ?_) (fun _ => ?_) | split | dsimp only

theorem returnFrom_keeps {s : State} {key : Nat} {p : Place} {f : Nat} {v : FrameView} {drop : Bool}  (hK : Keeps sK s) : Keeps sK (returnFrom s key p f v drop) := by
  unfold returnFrom
  try dsimp only
  repeat' first | with_reducible assumption | with_reducible exact Keeps.refl _ | with_reducible refine devicePa_keeps ?_ | with_reducible refine strongStore_keeps ?_ | with_reducible refine onTeam_keeps ?_ | with_reducible refine leaveEscalation_keeps ?_ | fail_if_no_progress (with_reducible refine keeps_mk ?_) | with_reducible refine foldl_keeps ?_ ?_ | with_reducible refine foldl1_keeps ?_ ?_ | intro _ _ hk | with_reducible refine keeps_ite (fun _ => ?_) (fun _ => ?_) | split | dsimp only | with_reducible refine devicePa_keeps_eq (by assumption) ?_


end Sys2Proof.Machine
end

