-- ==== Sys2Proof/Laws/KeepsOperands.lean ====
section
/-! SUPPORT. What every change keeps (Keeps), for Operands. -/

set_option linter.unusedTactic false
set_option linter.unreachableTactic false

namespace Sys2Proof.Machine

variable {sK : State}

theorem enterLatch_keeps {c : Ctx} {f : Nat → Cell} {s : State}  (hK : Keeps sK s) : Keeps sK (enterLatch c f s) := by
  unfold enterLatch
  try dsimp only
  repeat' first | with_reducible assumption | with_reducible exact Keeps.refl _ | with_reducible refine setBench_keeps ?_ | fail_if_no_progress (with_reducible refine keeps_mk ?_) | with_reducible refine keeps_ite (fun _ => ?_) (fun _ => ?_) | split | dsimp only

theorem writeVector_keeps {c : Ctx} {f : Nat → Cell} {s : State}  (hK : Keeps sK s) : Keeps sK (writeVector c f s) := by
  unfold writeVector
  try dsimp only
  repeat' first | with_reducible assumption | with_reducible exact Keeps.refl _ | with_reducible refine onTeam_keeps ?_ | with_reducible refine enterLatch_keeps ?_ | fail_if_no_progress (with_reducible refine keeps_mk ?_) | with_reducible refine keeps_ite (fun _ => ?_) (fun _ => ?_) | split | dsimp only

theorem writeGroup_keeps {c : Ctx} {n : Nat} {f : Nat → Nat → Cell} {s : State}  (hK : Keeps sK s) : Keeps sK (writeGroup c n f s) := by
  unfold writeGroup
  try dsimp only
  repeat' first | with_reducible assumption | with_reducible exact Keeps.refl _ | with_reducible refine onTeam_keeps ?_ | fail_if_no_progress (with_reducible refine keeps_mk ?_) | with_reducible refine foldl_keeps ?_ ?_ | with_reducible refine foldl1_keeps ?_ ?_ | intro _ _ hk | with_reducible refine keeps_ite (fun _ => ?_) (fun _ => ?_) | split | dsimp only

theorem writePred_keeps {c : Ctx} {m : Word} {s : State}  (hK : Keeps sK s) : Keeps sK (writePred c m s) := by
  unfold writePred
  try dsimp only
  repeat' first | with_reducible assumption | with_reducible exact Keeps.refl _ | with_reducible refine onTeam_keeps ?_ | fail_if_no_progress (with_reducible refine keeps_mk ?_) | with_reducible refine keeps_ite (fun _ => ?_) (fun _ => ?_) | split | dsimp only

theorem writeScalars_keeps {c : Ctx} {xs : List Word} {s : State}  (hK : Keeps sK s) : Keeps sK (writeScalars c xs s) := by
  unfold writeScalars
  try dsimp only
  repeat' first | with_reducible assumption | with_reducible exact Keeps.refl _ | with_reducible refine onTeam_keeps ?_ | fail_if_no_progress (with_reducible refine keeps_mk ?_) | with_reducible refine keeps_ite (fun _ => ?_) (fun _ => ?_) | split | dsimp only

theorem writeScalar_keeps {c : Ctx} {x : Word} {s : State}  (hK : Keeps sK s) : Keeps sK (writeScalar c x s) := by
  unfold writeScalar
  try dsimp only
  repeat' first | with_reducible assumption | with_reducible exact Keeps.refl _ | with_reducible refine writeScalars_keeps ?_ | fail_if_no_progress (with_reducible refine keeps_mk ?_) | with_reducible refine keeps_ite (fun _ => ?_) (fun _ => ?_) | split | dsimp only

theorem lanes2_keeps {h : Shape} {f : Word → Word → Word} {s : State}  {u0 : State} (eK : lanes2 h f s = .next u0) (hK : Keeps sK s) : Keeps sK u0 := by
  unfold lanes2 at eK
  try dsimp only at eK
  repeat' first | split at eK | (rw [Option.map_eq_some_iff] at eK; obtain ⟨_, _, eK⟩ := eK; try dsimp only at eK) | (rw [Option.bind_eq_some_iff] at eK; obtain ⟨_, _, eK⟩ := eK; try dsimp only at eK)
  all_goals (try first | (injection eK with eK; subst eK) | (injection eK; done) | subst eK)
  all_goals (repeat' first | (intro _ _ _ eK h1; (try dsimp only at eK); repeat' (split at eK)) | (intro _ _ _ eK; (try dsimp only at eK); repeat' (split at eK)) | (intro _ _ eK; (try dsimp only at eK); repeat' (split at eK)) | (intro _ eK; (try dsimp only at eK); repeat' (split at eK)) | intro _ | with_reducible assumption | with_reducible exact Keeps.refl _ | with_reducible refine writeVector_keeps ?_ | fail_if_no_progress (with_reducible refine keeps_mk ?_) | with_reducible refine keeps_ite (fun _ => ?_) (fun _ => ?_) | split | dsimp only | with_reducible refine perform_keeps ?_ (by assumption) ?_ | (injection eK; done) | (injection eK with eK; subst eK))

theorem lanes1_keeps {h : Shape} {f : Word → Word} {s : State}  {u0 : State} (eK : lanes1 h f s = .next u0) (hK : Keeps sK s) : Keeps sK u0 := by
  unfold lanes1 at eK
  try dsimp only at eK
  repeat' first | split at eK | (rw [Option.map_eq_some_iff] at eK; obtain ⟨_, _, eK⟩ := eK; try dsimp only at eK) | (rw [Option.bind_eq_some_iff] at eK; obtain ⟨_, _, eK⟩ := eK; try dsimp only at eK)
  all_goals (try first | (injection eK with eK; subst eK) | (injection eK; done) | subst eK)
  all_goals (repeat' first | (intro _ _ _ eK h1; (try dsimp only at eK); repeat' (split at eK)) | (intro _ _ _ eK; (try dsimp only at eK); repeat' (split at eK)) | (intro _ _ eK; (try dsimp only at eK); repeat' (split at eK)) | (intro _ eK; (try dsimp only at eK); repeat' (split at eK)) | intro _ | with_reducible assumption | with_reducible exact Keeps.refl _ | with_reducible refine writeVector_keeps ?_ | fail_if_no_progress (with_reducible refine keeps_mk ?_) | with_reducible refine keeps_ite (fun _ => ?_) (fun _ => ?_) | split | dsimp only | with_reducible refine perform_keeps ?_ (by assumption) ?_ | (injection eK; done) | (injection eK with eK; subst eK))

theorem lanes3_keeps {h : Shape} {f : Word → Word → Word → Word} {s : State}  {u0 : State} (eK : lanes3 h f s = .next u0) (hK : Keeps sK s) : Keeps sK u0 := by
  unfold lanes3 at eK
  try dsimp only at eK
  repeat' first | split at eK | (rw [Option.map_eq_some_iff] at eK; obtain ⟨_, _, eK⟩ := eK; try dsimp only at eK) | (rw [Option.bind_eq_some_iff] at eK; obtain ⟨_, _, eK⟩ := eK; try dsimp only at eK)
  all_goals (try first | (injection eK with eK; subst eK) | (injection eK; done) | subst eK)
  all_goals (repeat' first | (intro _ _ _ eK h1; (try dsimp only at eK); repeat' (split at eK)) | (intro _ _ _ eK; (try dsimp only at eK); repeat' (split at eK)) | (intro _ _ eK; (try dsimp only at eK); repeat' (split at eK)) | (intro _ eK; (try dsimp only at eK); repeat' (split at eK)) | intro _ | with_reducible assumption | with_reducible exact Keeps.refl _ | with_reducible refine writeVector_keeps ?_ | fail_if_no_progress (with_reducible refine keeps_mk ?_) | with_reducible refine keeps_ite (fun _ => ?_) (fun _ => ?_) | split | dsimp only | with_reducible refine perform_keeps ?_ (by assumption) ?_ | (injection eK; done) | (injection eK with eK; subst eK))

theorem lanesImm_keeps {x : VI} {f : Word → Word → Word} {s : State}  {u0 : State} (eK : lanesImm x f s = .next u0) (hK : Keeps sK s) : Keeps sK u0 := by
  unfold lanesImm at eK
  try dsimp only at eK
  repeat' first | split at eK | (rw [Option.map_eq_some_iff] at eK; obtain ⟨_, _, eK⟩ := eK; try dsimp only at eK) | (rw [Option.bind_eq_some_iff] at eK; obtain ⟨_, _, eK⟩ := eK; try dsimp only at eK)
  all_goals (try first | (injection eK with eK; subst eK) | (injection eK; done) | subst eK)
  all_goals (repeat' first | (intro _ _ _ eK h1; (try dsimp only at eK); repeat' (split at eK)) | (intro _ _ _ eK; (try dsimp only at eK); repeat' (split at eK)) | (intro _ _ eK; (try dsimp only at eK); repeat' (split at eK)) | (intro _ eK; (try dsimp only at eK); repeat' (split at eK)) | intro _ | with_reducible assumption | with_reducible exact Keeps.refl _ | with_reducible refine writeVector_keeps ?_ | fail_if_no_progress (with_reducible refine keeps_mk ?_) | with_reducible refine keeps_ite (fun _ => ?_) (fun _ => ?_) | split | dsimp only | with_reducible refine perform_keeps ?_ (by assumption) ?_ | (injection eK; done) | (injection eK with eK; subst eK))

theorem scalarOp_keeps {h : Shape} {f : Ctx → List Word} {s : State}  {u0 : State} (eK : scalarOp h f s = .next u0) (hK : Keeps sK s) : Keeps sK u0 := by
  unfold scalarOp at eK
  try dsimp only at eK
  repeat' first | split at eK | (rw [Option.map_eq_some_iff] at eK; obtain ⟨_, _, eK⟩ := eK; try dsimp only at eK) | (rw [Option.bind_eq_some_iff] at eK; obtain ⟨_, _, eK⟩ := eK; try dsimp only at eK)
  all_goals (try first | (injection eK with eK; subst eK) | (injection eK; done) | subst eK)
  all_goals (repeat' first | (intro _ _ _ eK h1; (try dsimp only at eK); repeat' (split at eK)) | (intro _ _ _ eK; (try dsimp only at eK); repeat' (split at eK)) | (intro _ _ eK; (try dsimp only at eK); repeat' (split at eK)) | (intro _ eK; (try dsimp only at eK); repeat' (split at eK)) | intro _ | with_reducible assumption | with_reducible exact Keeps.refl _ | with_reducible refine writeScalars_keeps ?_ | fail_if_no_progress (with_reducible refine keeps_mk ?_) | with_reducible refine keeps_ite (fun _ => ?_) (fun _ => ?_) | split | dsimp only | with_reducible refine perform_keeps ?_ (by assumption) ?_ | (injection eK; done) | (injection eK with eK; subst eK))


end Sys2Proof.Machine
end

