-- ==== Sys2Proof/Laws/KeepsFlags.lean ====
section
/-! SUPPORT. What every change keeps (Keeps), for Flags. -/

set_option linter.unusedTactic false
set_option linter.unreachableTactic false

namespace Sys2Proof.Machine

variable {sK : State}

theorem raiseFlags_keeps {c : Ctx} {bits : Nat} {s : State}  (hK : Keeps sK s) : Keeps sK (raiseFlags c bits s) := by
  unfold raiseFlags
  try dsimp only
  repeat' first | with_reducible assumption | with_reducible exact Keeps.refl _ | with_reducible refine onTeam_keeps ?_ | fail_if_no_progress (with_reducible refine keeps_mk ?_) | with_reducible refine keeps_ite (fun _ => ?_) (fun _ => ?_) | split | dsimp only

theorem fpPerform_keeps {h : Shape} {out : Ctx → FpOut} {w : Ctx → FpOut → State → State} {s : State} (h_w : ∀ a0 a1 s, Keeps sK s → Keeps sK (w a0 a1 s))  {u0 : State} (eK : fpPerform h out w s = .next u0) (hK : Keeps sK s) : Keeps sK u0 := by
  unfold fpPerform at eK
  try dsimp only at eK
  repeat' first | split at eK | (rw [Option.map_eq_some_iff] at eK; obtain ⟨_, _, eK⟩ := eK; try dsimp only at eK) | (rw [Option.bind_eq_some_iff] at eK; obtain ⟨_, _, eK⟩ := eK; try dsimp only at eK)
  all_goals (try first | (injection eK with eK; subst eK) | (injection eK; done) | subst eK)
  all_goals (repeat' first | (intro _ _ _ eK h1; (try dsimp only at eK); repeat' (split at eK)) | (intro _ _ _ eK; (try dsimp only at eK); repeat' (split at eK)) | (intro _ _ eK; (try dsimp only at eK); repeat' (split at eK)) | (intro _ eK; (try dsimp only at eK); repeat' (split at eK)) | intro _ | with_reducible assumption | with_reducible exact Keeps.refl _ | with_reducible refine h_w _ _ _ ?_ | with_reducible refine raiseFlags_keeps ?_ | fail_if_no_progress (with_reducible refine keeps_mk ?_) | with_reducible refine keeps_ite (fun _ => ?_) (fun _ => ?_) | split | dsimp only | with_reducible refine performGated_keeps ?_ ?_ (by assumption) ?_ | (injection eK; done) | (injection eK with eK; subst eK))

theorem writeFp1_keeps {c : Ctx} {o : FpOut} {s : State}  (hK : Keeps sK s) : Keeps sK (writeFp1 c o s) := by
  unfold writeFp1
  try dsimp only
  repeat' first | with_reducible assumption | with_reducible exact Keeps.refl _ | with_reducible refine writeVector_keeps ?_ | fail_if_no_progress (with_reducible refine keeps_mk ?_) | with_reducible refine keeps_ite (fun _ => ?_) (fun _ => ?_) | split | dsimp only

theorem writeFpN_keeps {c : Ctx} {o : FpOut} {s : State}  (hK : Keeps sK s) : Keeps sK (writeFpN c o s) := by
  unfold writeFpN
  try dsimp only
  repeat' first | with_reducible assumption | with_reducible exact Keeps.refl _ | with_reducible refine writeGroup_keeps ?_ | fail_if_no_progress (with_reducible refine keeps_mk ?_) | with_reducible refine keeps_ite (fun _ => ?_) (fun _ => ?_) | split | dsimp only

theorem writeFp64_keeps {c : Ctx} {o : FpOut} {s : State}  (hK : Keeps sK s) : Keeps sK (writeFp64 c o s) := by
  unfold writeFp64
  try dsimp only
  repeat' first | with_reducible assumption | with_reducible exact Keeps.refl _ | with_reducible refine writeGroup_keeps ?_ | fail_if_no_progress (with_reducible refine keeps_mk ?_) | with_reducible refine keeps_ite (fun _ => ?_) (fun _ => ?_) | split | dsimp only

theorem raiseIdz_keeps {c : Ctx} {s : State}  (hK : Keeps sK s) : Keeps sK (raiseIdz c s) := by
  unfold raiseIdz
  try dsimp only
  repeat' first | with_reducible assumption | with_reducible exact Keeps.refl _ | with_reducible refine raiseFlags_keeps ?_ | fail_if_no_progress (with_reducible refine keeps_mk ?_) | with_reducible refine keeps_ite (fun _ => ?_) (fun _ => ?_) | split | dsimp only


end Sys2Proof.Machine
end

