-- ==== Sys2Proof/Laws/KeepsFabric.lean ====
section
/-! SUPPORT. What every change keeps (Keeps), for Fabric. -/

set_option linter.unusedTactic false
set_option linter.unreachableTactic false

namespace Sys2Proof.Machine

variable {sK : State}

theorem setLink_keeps {s : State} {l : Nat} {x : Link}  (hK : Keeps sK s) : Keeps sK (setLink s l x) := by
  unfold setLink
  try dsimp only
  repeat' first | with_reducible assumption | with_reducible exact Keeps.refl _ | fail_if_no_progress (with_reducible refine keeps_mk ?_) | with_reducible refine keeps_ite (fun _ => ?_) (fun _ => ?_) | split | dsimp only

theorem emitFlit_keeps {s : State} {l : Nat} {f : Flit} {cls : Option Nat}  (hK : Keeps sK s) : Keeps sK (emitFlit s l f cls) := by
  unfold emitFlit
  try dsimp only
  repeat' first | with_reducible assumption | with_reducible exact Keeps.refl _ | with_reducible refine setLink_keeps ?_ | fail_if_no_progress (with_reducible refine keeps_mk ?_) | with_reducible refine getD_keeps ?_ ?_ | intro _ hk | with_reducible refine keeps_ite (fun _ => ?_) (fun _ => ?_) | split | dsimp only

theorem emit_keeps {s : State} {l q : Nat} {relay : Option Nat} {coach : Nat} {m : FabMsg}  (hK : Keeps sK s) : Keeps sK (emit s l q relay coach m) := by
  unfold emit
  try dsimp only
  repeat' first | with_reducible assumption | with_reducible exact Keeps.refl _ | with_reducible refine emitFlit_keeps ?_ | fail_if_no_progress (with_reducible refine keeps_mk ?_) | with_reducible refine keeps_ite (fun _ => ?_) (fun _ => ?_) | split | dsimp only

theorem emitIdle_keeps {s : State} {l : Nat}  (hK : Keeps sK s) : Keeps sK (emitIdle s l) := by
  unfold emitIdle
  try dsimp only
  repeat' first | with_reducible assumption | with_reducible exact Keeps.refl _ | with_reducible refine emitFlit_keeps ?_ | fail_if_no_progress (with_reducible refine keeps_mk ?_) | with_reducible refine getD_keeps ?_ ?_ | intro _ hk | with_reducible refine keeps_ite (fun _ => ?_) (fun _ => ?_) | split | dsimp only

theorem sendMsg_keeps {s : State} {coach : Nat} {sub : Option Nat} {m : FabMsg}  {u0 : State} (eK : sendMsg s coach sub m = some u0) (hK : Keeps sK s) : Keeps sK u0 := by
  unfold sendMsg at eK
  try dsimp only at eK
  repeat' first | split at eK | (rw [Option.map_eq_some_iff] at eK; obtain ⟨_, _, eK⟩ := eK; try dsimp only at eK) | (rw [Option.bind_eq_some_iff] at eK; obtain ⟨_, _, eK⟩ := eK; try dsimp only at eK)
  all_goals (try first | (injection eK with eK; subst eK) | (injection eK; done) | subst eK)
  all_goals (repeat' first | with_reducible assumption | with_reducible exact Keeps.refl _ | with_reducible refine emit_keeps ?_ | fail_if_no_progress (with_reducible refine keeps_mk ?_) | with_reducible refine keeps_ite (fun _ => ?_) (fun _ => ?_) | split | dsimp only | (injection eK; done) | (injection eK with eK; subst eK))

theorem sendBack_keeps {s : State} {c coach : Nat} {m : FabMsg}  (hK : Keeps sK s) : Keeps sK (sendBack s c coach m) := by
  unfold sendBack
  try dsimp only
  repeat' first | with_reducible assumption | with_reducible exact Keeps.refl _ | fail_if_no_progress (with_reducible refine keeps_mk ?_) | with_reducible refine getD_keeps ?_ ?_ | intro _ hk | with_reducible refine keeps_ite (fun _ => ?_) (fun _ => ?_) | split | dsimp only | with_reducible refine sendMsg_keeps (by assumption) ?_

theorem flushAnswers_keeps {s : State}  (hK : Keeps sK s) : Keeps sK (flushAnswers s) := by
  unfold flushAnswers
  try dsimp only
  repeat' first | with_reducible assumption | with_reducible exact Keeps.refl _ | with_reducible refine sendBack_keeps ?_ | fail_if_no_progress (with_reducible refine keeps_mk ?_) | with_reducible refine foldl_keeps ?_ ?_ | with_reducible refine foldl1_keeps ?_ ?_ | intro _ _ hk | with_reducible refine keeps_ite (fun _ => ?_) (fun _ => ?_) | split | dsimp only

theorem countLost_keeps {n : Nat} {s : State} {key : Nat}  (hK : Keeps sK s) : Keeps sK (countLost n s key) := by
  unfold countLost
  try dsimp only
  repeat' first | with_reducible assumption | with_reducible exact Keeps.refl _ | with_reducible refine onTeam_keeps ?_ | fail_if_no_progress (with_reducible refine keeps_mk ?_) | with_reducible refine getD_keeps ?_ ?_ | intro _ hk | with_reducible refine keeps_ite (fun _ => ?_) (fun _ => ?_) | split | dsimp only

theorem loseWrites_keeps {s : State} {key coach n seq0 seq1 info : Nat} {sent : Bool}  (hK : Keeps sK s) : Keeps sK (loseWrites s key coach n seq0 seq1 info sent) := by
  unfold loseWrites
  try dsimp only
  repeat' first | with_reducible assumption | with_reducible exact Keeps.refl _ | with_reducible refine onTeam_keeps ?_ | with_reducible refine countLost_keeps ?_ | with_reducible refine pushErr_keeps ?_ | fail_if_no_progress (with_reducible refine keeps_mk ?_) | with_reducible refine foldl_keeps ?_ ?_ | with_reducible refine foldl1_keeps ?_ ?_ | intro _ _ hk | with_reducible refine keeps_ite (fun _ => ?_) (fun _ => ?_) | split | dsimp only

theorem settleForeign_keeps {s : State}  (hK : Keeps sK s) : Keeps sK (settleForeign s) := by
  unfold settleForeign
  try dsimp only
  repeat' first | with_reducible assumption | with_reducible exact Keeps.refl _ | with_reducible refine countLost_keeps ?_ | fail_if_no_progress (with_reducible refine keeps_mk ?_) | with_reducible refine foldl_keeps ?_ ?_ | with_reducible refine foldl1_keeps ?_ ?_ | intro _ _ hk | with_reducible refine keeps_ite (fun _ => ?_) (fun _ => ?_) | split | dsimp only

theorem setSubStream_keeps {s : State} {x : SubStream}  (hK : Keeps sK s) : Keeps sK (setSubStream s x) := by
  unfold setSubStream
  try dsimp only
  repeat' first | with_reducible assumption | with_reducible exact Keeps.refl _ | fail_if_no_progress (with_reducible refine keeps_mk ?_) | with_reducible refine keeps_ite (fun _ => ?_) (fun _ => ?_) | split | dsimp only

theorem takeSeq_keeps {s : State} {key coach : Nat}  {q0 : _} (eK : takeSeq s key coach = some q0) (hK : Keeps sK s) : Keeps sK q0.1 := by
  unfold takeSeq at eK
  try dsimp only at eK
  repeat' first | split at eK | (rw [Option.map_eq_some_iff] at eK; obtain ⟨_, _, eK⟩ := eK; try dsimp only at eK) | (rw [Option.bind_eq_some_iff] at eK; obtain ⟨_, _, eK⟩ := eK; try dsimp only at eK)
  all_goals (try first | (injection eK with eK; subst eK) | (injection eK; done) | subst eK)
  all_goals (repeat' first | with_reducible assumption | with_reducible exact Keeps.refl _ | fail_if_no_progress (with_reducible refine keeps_mk ?_) | with_reducible refine keeps_ite (fun _ => ?_) (fun _ => ?_) | split | dsimp only | with_reducible refine sendMsg_keeps (by assumption) ?_ | (injection eK; done) | (injection eK with eK; subst eK))

theorem seqFor_keeps {s : State} {key coach : Nat} {pre : Option Nat} {q0 : _} (e : seqFor s key coach pre = some q0)
    (h : Keeps sK s) : Keeps sK q0.1 := by
  cases pre with
  | some q => simp only [seqFor, Option.some.injEq] at e; subst e; exact h
  | none => exact takeSeq_keeps e h

theorem postRemote_keeps {s : State} {key coach addr : Nat} {mask : BitVec 64} {data : List Byte} {red : Option Nat} {rlx : Bool} {pre : Option Nat}  {u0 : State} (eK : postRemote s key coach addr mask data red rlx pre = some u0) (hK : Keeps sK s) : Keeps sK u0 := by
  unfold postRemote at eK
  try dsimp only at eK
  repeat' first | split at eK | (rw [Option.map_eq_some_iff] at eK; obtain ⟨_, _, eK⟩ := eK; try dsimp only at eK) | (rw [Option.bind_eq_some_iff] at eK; obtain ⟨_, _, eK⟩ := eK; try dsimp only at eK)
  all_goals (try first | (injection eK with eK; subst eK) | (injection eK; done) | subst eK)
  all_goals (repeat' first | (intro _ _ _ eK h1; (try dsimp only at eK); repeat' (split at eK)) | (intro _ _ _ eK; (try dsimp only at eK); repeat' (split at eK)) | (intro _ _ eK; (try dsimp only at eK); repeat' (split at eK)) | (intro _ eK; (try dsimp only at eK); repeat' (split at eK)) | intro _ | with_reducible assumption | with_reducible exact Keeps.refl _ | with_reducible refine loseWrites_keeps ?_ | with_reducible refine onTeam_keeps ?_ | with_reducible refine setSubStream_keeps ?_ | fail_if_no_progress (with_reducible refine keeps_mk ?_) | with_reducible refine getD_keeps ?_ ?_ | with_reducible refine keeps_ite (fun _ => ?_) (fun _ => ?_) | split | dsimp only | with_reducible refine seqFor_keeps (by assumption) ?_ | with_reducible refine sendMsg_keeps (by assumption) ?_ | (injection eK; done) | (injection eK with eK; subst eK))

theorem askRemote_keeps {s : State} {key coach tag addr size : Nat} {op : Option (Nat × List Word)} {rlx : Bool}  {u0 : State} (eK : askRemote s key coach tag addr size op rlx = some u0) (hK : Keeps sK s) : Keeps sK u0 := by
  unfold askRemote at eK
  try dsimp only at eK
  repeat' first | split at eK | (rw [Option.map_eq_some_iff] at eK; obtain ⟨_, _, eK⟩ := eK; try dsimp only at eK) | (rw [Option.bind_eq_some_iff] at eK; obtain ⟨_, _, eK⟩ := eK; try dsimp only at eK)
  all_goals (try first | (injection eK with eK; subst eK) | (injection eK; done) | subst eK)
  all_goals (repeat' first | with_reducible assumption | with_reducible exact Keeps.refl _ | with_reducible refine setSubStream_keeps ?_ | fail_if_no_progress (with_reducible refine keeps_mk ?_) | with_reducible refine keeps_ite (fun _ => ?_) (fun _ => ?_) | split | dsimp only | with_reducible refine sendMsg_keeps (by assumption) ?_ | (injection eK; done) | (injection eK with eK; subst eK))

theorem storeAway_keeps {s : State} {key pa : Nat} {bs : List Byte}  {u0 : State} (eK : storeAway s key pa bs = some u0) (hK : Keeps sK s) : Keeps sK u0 := by
  unfold storeAway at eK
  try dsimp only at eK
  repeat' first | split at eK | (rw [Option.map_eq_some_iff] at eK; obtain ⟨_, _, eK⟩ := eK; try dsimp only at eK) | (rw [Option.bind_eq_some_iff] at eK; obtain ⟨_, _, eK⟩ := eK; try dsimp only at eK)
  all_goals (try first | (injection eK with eK; subst eK) | (injection eK; done) | subst eK)
  all_goals (repeat' first | (intro _ _ _ eK h1; (try dsimp only at eK); repeat' (split at eK)) | (intro _ _ _ eK; (try dsimp only at eK); repeat' (split at eK)) | (intro _ _ eK; (try dsimp only at eK); repeat' (split at eK)) | (intro _ eK; (try dsimp only at eK); repeat' (split at eK)) | intro _ | with_reducible assumption | with_reducible exact Keeps.refl _ | fail_if_no_progress (with_reducible refine keeps_mk ?_) | with_reducible refine foldl_keeps ?_ ?_ | with_reducible refine foldl1_keeps ?_ ?_ | with_reducible refine keeps_ite (fun _ => ?_) (fun _ => ?_) | split | dsimp only | with_reducible refine foldlBind_keeps ?_ (by assumption) ?_ | with_reducible refine postRemote_keeps (by assumption) ?_ | (injection eK; done) | (injection eK with eK; subst eK))

theorem reduceRemote_keeps {s : State} {key coach pa op v : Nat}  {u0 : State} (eK : reduceRemote s key coach pa op v = some u0) (hK : Keeps sK s) : Keeps sK u0 := by
  unfold reduceRemote at eK
  try dsimp only at eK
  repeat' first | split at eK | (rw [Option.map_eq_some_iff] at eK; obtain ⟨_, _, eK⟩ := eK; try dsimp only at eK) | (rw [Option.bind_eq_some_iff] at eK; obtain ⟨_, _, eK⟩ := eK; try dsimp only at eK)
  all_goals (try first | (injection eK with eK; subst eK) | (injection eK; done) | subst eK)
  all_goals (repeat' first | with_reducible assumption | with_reducible exact Keeps.refl _ | fail_if_no_progress (with_reducible refine keeps_mk ?_) | with_reducible refine keeps_ite (fun _ => ?_) (fun _ => ?_) | split | dsimp only | with_reducible refine postRemote_keeps (by assumption) ?_ | (injection eK; done) | (injection eK with eK; subst eK))

theorem flushWaiting_keeps {s : State} {key coach : Nat}  (hK : Keeps sK s) : Keeps sK (flushWaiting s key coach) := by
  unfold flushWaiting
  try dsimp only
  repeat' first | with_reducible assumption | with_reducible exact Keeps.refl _ | with_reducible refine setSubStream_keeps ?_ | fail_if_no_progress (with_reducible refine keeps_mk ?_) | with_reducible refine foldl_keeps ?_ ?_ | with_reducible refine foldl1_keeps ?_ ?_ | intro _ _ hk | with_reducible refine getD_keeps ?_ ?_ | intro _ hk | with_reducible refine keeps_ite (fun _ => ?_) (fun _ => ?_) | split | dsimp only | with_reducible refine sendMsg_keeps (by assumption) ?_

theorem resendStream_keeps {s : State} {x : SubStream}  (hK : Keeps sK s) : Keeps sK (resendStream s x) := by
  unfold resendStream
  try dsimp only
  repeat' first | with_reducible assumption | with_reducible exact Keeps.refl _ | with_reducible refine setSubStream_keeps ?_ | fail_if_no_progress (with_reducible refine keeps_mk ?_) | with_reducible refine foldl_keeps ?_ ?_ | with_reducible refine foldl1_keeps ?_ ?_ | intro _ _ hk | with_reducible refine getD_keeps ?_ ?_ | intro _ hk | with_reducible refine keeps_ite (fun _ => ?_) (fun _ => ?_) | split | dsimp only | with_reducible refine foldlBind_keeps ?_ (by assumption) ?_ | intro _ | with_reducible refine sendMsg_keeps (by assumption) ?_

theorem sendLines_keeps {key : Nat} {s : State} {l : List (Nat × List Byte)} (hK : Keeps sK s) : Keeps sK (sendLines key s l).1 := by
  induction l generalizing s with
  | nil => exact hK
  | cons x r ih =>
    obtain ⟨pa, bs⟩ := x
    unfold sendLines
    split
    · exact ih (storeAway_keeps (by assumption) hK)
    · exact hK

theorem sendLines_keeps_eq {key : Nat} {s : State} {l : List (Nat × List Byte)} {u0 : State} {q0 : _}
    (eK : sendLines key s l = (u0, q0)) (hK : Keeps sK s) : Keeps sK u0 := by
  have := sendLines_keeps (key := key) (l := l) hK; rw [eK] at this; exact this

theorem fillSeq_keeps {s : State} {key coach q : Nat}  (hK : Keeps sK s) : Keeps sK (fillSeq s key coach q) := by
  unfold fillSeq
  try dsimp only
  repeat' first | with_reducible assumption | with_reducible exact Keeps.refl _ | with_reducible refine onTeam_keeps ?_ | with_reducible refine setSubStream_keeps ?_ | fail_if_no_progress (with_reducible refine keeps_mk ?_) | with_reducible refine keeps_ite (fun _ => ?_) (fun _ => ?_) | split | dsimp only


end Sys2Proof.Machine
end

