-- ==== Sys2Proof/Laws/KeepsInteger.lean ====
section
/-! SUPPORT. What every change keeps (Keeps), for Integer. -/

set_option linter.unusedTactic false
set_option linter.unreachableTactic false

namespace Sys2Proof.Machine

variable {sK : State}

theorem execIadd_keeps {x : V3} {s : State}  {u0 : State} (eK : execIadd x s = .next u0) (hK : Keeps sK s) : Keeps sK u0 := by
  unfold execIadd at eK
  try dsimp only at eK
  repeat' first | split at eK | (rw [Option.map_eq_some_iff] at eK; obtain ⟨_, _, eK⟩ := eK; try dsimp only at eK) | (rw [Option.bind_eq_some_iff] at eK; obtain ⟨_, _, eK⟩ := eK; try dsimp only at eK)
  all_goals (try first | (injection eK with eK; subst eK) | (injection eK; done) | subst eK)
  all_goals (repeat' first | with_reducible assumption | with_reducible exact Keeps.refl _ | fail_if_no_progress (with_reducible refine keeps_mk ?_) | with_reducible refine keeps_ite (fun _ => ?_) (fun _ => ?_) | split | dsimp only | with_reducible refine lanes2_keeps (by assumption) ?_ | (injection eK; done) | (injection eK with eK; subst eK))

theorem execIsub_keeps {x : V3} {s : State}  {u0 : State} (eK : execIsub x s = .next u0) (hK : Keeps sK s) : Keeps sK u0 := by
  unfold execIsub at eK
  try dsimp only at eK
  repeat' first | split at eK | (rw [Option.map_eq_some_iff] at eK; obtain ⟨_, _, eK⟩ := eK; try dsimp only at eK) | (rw [Option.bind_eq_some_iff] at eK; obtain ⟨_, _, eK⟩ := eK; try dsimp only at eK)
  all_goals (try first | (injection eK with eK; subst eK) | (injection eK; done) | subst eK)
  all_goals (repeat' first | with_reducible assumption | with_reducible exact Keeps.refl _ | fail_if_no_progress (with_reducible refine keeps_mk ?_) | with_reducible refine keeps_ite (fun _ => ?_) (fun _ => ?_) | split | dsimp only | with_reducible refine lanes2_keeps (by assumption) ?_ | (injection eK; done) | (injection eK with eK; subst eK))

theorem execImul_keeps {x : V3} {s : State}  {u0 : State} (eK : execImul x s = .next u0) (hK : Keeps sK s) : Keeps sK u0 := by
  unfold execImul at eK
  try dsimp only at eK
  repeat' first | split at eK | (rw [Option.map_eq_some_iff] at eK; obtain ⟨_, _, eK⟩ := eK; try dsimp only at eK) | (rw [Option.bind_eq_some_iff] at eK; obtain ⟨_, _, eK⟩ := eK; try dsimp only at eK)
  all_goals (try first | (injection eK with eK; subst eK) | (injection eK; done) | subst eK)
  all_goals (repeat' first | with_reducible assumption | with_reducible exact Keeps.refl _ | fail_if_no_progress (with_reducible refine keeps_mk ?_) | with_reducible refine keeps_ite (fun _ => ?_) (fun _ => ?_) | split | dsimp only | with_reducible refine lanes2_keeps (by assumption) ?_ | (injection eK; done) | (injection eK with eK; subst eK))

theorem execImulhI_keeps {x : V3} {s : State}  {u0 : State} (eK : execImulhI x s = .next u0) (hK : Keeps sK s) : Keeps sK u0 := by
  unfold execImulhI at eK
  try dsimp only at eK
  repeat' first | split at eK | (rw [Option.map_eq_some_iff] at eK; obtain ⟨_, _, eK⟩ := eK; try dsimp only at eK) | (rw [Option.bind_eq_some_iff] at eK; obtain ⟨_, _, eK⟩ := eK; try dsimp only at eK)
  all_goals (try first | (injection eK with eK; subst eK) | (injection eK; done) | subst eK)
  all_goals (repeat' first | with_reducible assumption | with_reducible exact Keeps.refl _ | fail_if_no_progress (with_reducible refine keeps_mk ?_) | with_reducible refine keeps_ite (fun _ => ?_) (fun _ => ?_) | split | dsimp only | with_reducible refine lanes2_keeps (by assumption) ?_ | (injection eK; done) | (injection eK with eK; subst eK))

theorem execImulhN_keeps {x : V3} {s : State}  {u0 : State} (eK : execImulhN x s = .next u0) (hK : Keeps sK s) : Keeps sK u0 := by
  unfold execImulhN at eK
  try dsimp only at eK
  repeat' first | split at eK | (rw [Option.map_eq_some_iff] at eK; obtain ⟨_, _, eK⟩ := eK; try dsimp only at eK) | (rw [Option.bind_eq_some_iff] at eK; obtain ⟨_, _, eK⟩ := eK; try dsimp only at eK)
  all_goals (try first | (injection eK with eK; subst eK) | (injection eK; done) | subst eK)
  all_goals (repeat' first | with_reducible assumption | with_reducible exact Keeps.refl _ | fail_if_no_progress (with_reducible refine keeps_mk ?_) | with_reducible refine keeps_ite (fun _ => ?_) (fun _ => ?_) | split | dsimp only | with_reducible refine lanes2_keeps (by assumption) ?_ | (injection eK; done) | (injection eK with eK; subst eK))

theorem execImad_keeps {x : V3} {s : State}  {u0 : State} (eK : execImad x s = .next u0) (hK : Keeps sK s) : Keeps sK u0 := by
  unfold execImad at eK
  try dsimp only at eK
  repeat' first | split at eK | (rw [Option.map_eq_some_iff] at eK; obtain ⟨_, _, eK⟩ := eK; try dsimp only at eK) | (rw [Option.bind_eq_some_iff] at eK; obtain ⟨_, _, eK⟩ := eK; try dsimp only at eK)
  all_goals (try first | (injection eK with eK; subst eK) | (injection eK; done) | subst eK)
  all_goals (repeat' first | with_reducible assumption | with_reducible exact Keeps.refl _ | fail_if_no_progress (with_reducible refine keeps_mk ?_) | with_reducible refine keeps_ite (fun _ => ?_) (fun _ => ?_) | split | dsimp only | with_reducible refine lanes3_keeps (by assumption) ?_ | (injection eK; done) | (injection eK with eK; subst eK))

theorem execIabsdI_keeps {x : V3} {s : State}  {u0 : State} (eK : execIabsdI x s = .next u0) (hK : Keeps sK s) : Keeps sK u0 := by
  unfold execIabsdI at eK
  try dsimp only at eK
  repeat' first | split at eK | (rw [Option.map_eq_some_iff] at eK; obtain ⟨_, _, eK⟩ := eK; try dsimp only at eK) | (rw [Option.bind_eq_some_iff] at eK; obtain ⟨_, _, eK⟩ := eK; try dsimp only at eK)
  all_goals (try first | (injection eK with eK; subst eK) | (injection eK; done) | subst eK)
  all_goals (repeat' first | with_reducible assumption | with_reducible exact Keeps.refl _ | fail_if_no_progress (with_reducible refine keeps_mk ?_) | with_reducible refine keeps_ite (fun _ => ?_) (fun _ => ?_) | split | dsimp only | with_reducible refine lanes2_keeps (by assumption) ?_ | (injection eK; done) | (injection eK with eK; subst eK))

theorem execIsadN_keeps {x : V3} {s : State}  {u0 : State} (eK : execIsadN x s = .next u0) (hK : Keeps sK s) : Keeps sK u0 := by
  unfold execIsadN at eK
  try dsimp only at eK
  repeat' first | split at eK | (rw [Option.map_eq_some_iff] at eK; obtain ⟨_, _, eK⟩ := eK; try dsimp only at eK) | (rw [Option.bind_eq_some_iff] at eK; obtain ⟨_, _, eK⟩ := eK; try dsimp only at eK)
  all_goals (try first | (injection eK with eK; subst eK) | (injection eK; done) | subst eK)
  all_goals (repeat' first | with_reducible assumption | with_reducible exact Keeps.refl _ | fail_if_no_progress (with_reducible refine keeps_mk ?_) | with_reducible refine keeps_ite (fun _ => ?_) (fun _ => ?_) | split | dsimp only | with_reducible refine lanes3_keeps (by assumption) ?_ | (injection eK; done) | (injection eK with eK; subst eK))

theorem execIminI_keeps {x : V3} {s : State}  {u0 : State} (eK : execIminI x s = .next u0) (hK : Keeps sK s) : Keeps sK u0 := by
  unfold execIminI at eK
  try dsimp only at eK
  repeat' first | split at eK | (rw [Option.map_eq_some_iff] at eK; obtain ⟨_, _, eK⟩ := eK; try dsimp only at eK) | (rw [Option.bind_eq_some_iff] at eK; obtain ⟨_, _, eK⟩ := eK; try dsimp only at eK)
  all_goals (try first | (injection eK with eK; subst eK) | (injection eK; done) | subst eK)
  all_goals (repeat' first | with_reducible assumption | with_reducible exact Keeps.refl _ | fail_if_no_progress (with_reducible refine keeps_mk ?_) | with_reducible refine keeps_ite (fun _ => ?_) (fun _ => ?_) | split | dsimp only | with_reducible refine lanes2_keeps (by assumption) ?_ | (injection eK; done) | (injection eK with eK; subst eK))

theorem execImaxI_keeps {x : V3} {s : State}  {u0 : State} (eK : execImaxI x s = .next u0) (hK : Keeps sK s) : Keeps sK u0 := by
  unfold execImaxI at eK
  try dsimp only at eK
  repeat' first | split at eK | (rw [Option.map_eq_some_iff] at eK; obtain ⟨_, _, eK⟩ := eK; try dsimp only at eK) | (rw [Option.bind_eq_some_iff] at eK; obtain ⟨_, _, eK⟩ := eK; try dsimp only at eK)
  all_goals (try first | (injection eK with eK; subst eK) | (injection eK; done) | subst eK)
  all_goals (repeat' first | with_reducible assumption | with_reducible exact Keeps.refl _ | fail_if_no_progress (with_reducible refine keeps_mk ?_) | with_reducible refine keeps_ite (fun _ => ?_) (fun _ => ?_) | split | dsimp only | with_reducible refine lanes2_keeps (by assumption) ?_ | (injection eK; done) | (injection eK with eK; subst eK))

theorem execIminN_keeps {x : V3} {s : State}  {u0 : State} (eK : execIminN x s = .next u0) (hK : Keeps sK s) : Keeps sK u0 := by
  unfold execIminN at eK
  try dsimp only at eK
  repeat' first | split at eK | (rw [Option.map_eq_some_iff] at eK; obtain ⟨_, _, eK⟩ := eK; try dsimp only at eK) | (rw [Option.bind_eq_some_iff] at eK; obtain ⟨_, _, eK⟩ := eK; try dsimp only at eK)
  all_goals (try first | (injection eK with eK; subst eK) | (injection eK; done) | subst eK)
  all_goals (repeat' first | with_reducible assumption | with_reducible exact Keeps.refl _ | fail_if_no_progress (with_reducible refine keeps_mk ?_) | with_reducible refine keeps_ite (fun _ => ?_) (fun _ => ?_) | split | dsimp only | with_reducible refine lanes2_keeps (by assumption) ?_ | (injection eK; done) | (injection eK with eK; subst eK))

theorem execImaxN_keeps {x : V3} {s : State}  {u0 : State} (eK : execImaxN x s = .next u0) (hK : Keeps sK s) : Keeps sK u0 := by
  unfold execImaxN at eK
  try dsimp only at eK
  repeat' first | split at eK | (rw [Option.map_eq_some_iff] at eK; obtain ⟨_, _, eK⟩ := eK; try dsimp only at eK) | (rw [Option.bind_eq_some_iff] at eK; obtain ⟨_, _, eK⟩ := eK; try dsimp only at eK)
  all_goals (try first | (injection eK with eK; subst eK) | (injection eK; done) | subst eK)
  all_goals (repeat' first | with_reducible assumption | with_reducible exact Keeps.refl _ | fail_if_no_progress (with_reducible refine keeps_mk ?_) | with_reducible refine keeps_ite (fun _ => ?_) (fun _ => ?_) | split | dsimp only | with_reducible refine lanes2_keeps (by assumption) ?_ | (injection eK; done) | (injection eK with eK; subst eK))

theorem execIaddsI_keeps {x : V3} {s : State}  {u0 : State} (eK : execIaddsI x s = .next u0) (hK : Keeps sK s) : Keeps sK u0 := by
  unfold execIaddsI at eK
  try dsimp only at eK
  repeat' first | split at eK | (rw [Option.map_eq_some_iff] at eK; obtain ⟨_, _, eK⟩ := eK; try dsimp only at eK) | (rw [Option.bind_eq_some_iff] at eK; obtain ⟨_, _, eK⟩ := eK; try dsimp only at eK)
  all_goals (try first | (injection eK with eK; subst eK) | (injection eK; done) | subst eK)
  all_goals (repeat' first | with_reducible assumption | with_reducible exact Keeps.refl _ | fail_if_no_progress (with_reducible refine keeps_mk ?_) | with_reducible refine keeps_ite (fun _ => ?_) (fun _ => ?_) | split | dsimp only | with_reducible refine lanes2_keeps (by assumption) ?_ | (injection eK; done) | (injection eK with eK; subst eK))

theorem execIsubsI_keeps {x : V3} {s : State}  {u0 : State} (eK : execIsubsI x s = .next u0) (hK : Keeps sK s) : Keeps sK u0 := by
  unfold execIsubsI at eK
  try dsimp only at eK
  repeat' first | split at eK | (rw [Option.map_eq_some_iff] at eK; obtain ⟨_, _, eK⟩ := eK; try dsimp only at eK) | (rw [Option.bind_eq_some_iff] at eK; obtain ⟨_, _, eK⟩ := eK; try dsimp only at eK)
  all_goals (try first | (injection eK with eK; subst eK) | (injection eK; done) | subst eK)
  all_goals (repeat' first | with_reducible assumption | with_reducible exact Keeps.refl _ | fail_if_no_progress (with_reducible refine keeps_mk ?_) | with_reducible refine keeps_ite (fun _ => ?_) (fun _ => ?_) | split | dsimp only | with_reducible refine lanes2_keeps (by assumption) ?_ | (injection eK; done) | (injection eK with eK; subst eK))

theorem execIaddsN_keeps {x : V3} {s : State}  {u0 : State} (eK : execIaddsN x s = .next u0) (hK : Keeps sK s) : Keeps sK u0 := by
  unfold execIaddsN at eK
  try dsimp only at eK
  repeat' first | split at eK | (rw [Option.map_eq_some_iff] at eK; obtain ⟨_, _, eK⟩ := eK; try dsimp only at eK) | (rw [Option.bind_eq_some_iff] at eK; obtain ⟨_, _, eK⟩ := eK; try dsimp only at eK)
  all_goals (try first | (injection eK with eK; subst eK) | (injection eK; done) | subst eK)
  all_goals (repeat' first | with_reducible assumption | with_reducible exact Keeps.refl _ | fail_if_no_progress (with_reducible refine keeps_mk ?_) | with_reducible refine keeps_ite (fun _ => ?_) (fun _ => ?_) | split | dsimp only | with_reducible refine lanes2_keeps (by assumption) ?_ | (injection eK; done) | (injection eK with eK; subst eK))

theorem execIsubsN_keeps {x : V3} {s : State}  {u0 : State} (eK : execIsubsN x s = .next u0) (hK : Keeps sK s) : Keeps sK u0 := by
  unfold execIsubsN at eK
  try dsimp only at eK
  repeat' first | split at eK | (rw [Option.map_eq_some_iff] at eK; obtain ⟨_, _, eK⟩ := eK; try dsimp only at eK) | (rw [Option.bind_eq_some_iff] at eK; obtain ⟨_, _, eK⟩ := eK; try dsimp only at eK)
  all_goals (try first | (injection eK with eK; subst eK) | (injection eK; done) | subst eK)
  all_goals (repeat' first | with_reducible assumption | with_reducible exact Keeps.refl _ | fail_if_no_progress (with_reducible refine keeps_mk ?_) | with_reducible refine keeps_ite (fun _ => ?_) (fun _ => ?_) | split | dsimp only | with_reducible refine lanes2_keeps (by assumption) ?_ | (injection eK; done) | (injection eK with eK; subst eK))

theorem execAnd_keeps {x : V3} {s : State}  {u0 : State} (eK : execAnd x s = .next u0) (hK : Keeps sK s) : Keeps sK u0 := by
  unfold execAnd at eK
  try dsimp only at eK
  repeat' first | split at eK | (rw [Option.map_eq_some_iff] at eK; obtain ⟨_, _, eK⟩ := eK; try dsimp only at eK) | (rw [Option.bind_eq_some_iff] at eK; obtain ⟨_, _, eK⟩ := eK; try dsimp only at eK)
  all_goals (try first | (injection eK with eK; subst eK) | (injection eK; done) | subst eK)
  all_goals (repeat' first | with_reducible assumption | with_reducible exact Keeps.refl _ | fail_if_no_progress (with_reducible refine keeps_mk ?_) | with_reducible refine keeps_ite (fun _ => ?_) (fun _ => ?_) | split | dsimp only | with_reducible refine lanes2_keeps (by assumption) ?_ | (injection eK; done) | (injection eK with eK; subst eK))

theorem execOr_keeps {x : V3} {s : State}  {u0 : State} (eK : execOr x s = .next u0) (hK : Keeps sK s) : Keeps sK u0 := by
  unfold execOr at eK
  try dsimp only at eK
  repeat' first | split at eK | (rw [Option.map_eq_some_iff] at eK; obtain ⟨_, _, eK⟩ := eK; try dsimp only at eK) | (rw [Option.bind_eq_some_iff] at eK; obtain ⟨_, _, eK⟩ := eK; try dsimp only at eK)
  all_goals (try first | (injection eK with eK; subst eK) | (injection eK; done) | subst eK)
  all_goals (repeat' first | with_reducible assumption | with_reducible exact Keeps.refl _ | fail_if_no_progress (with_reducible refine keeps_mk ?_) | with_reducible refine keeps_ite (fun _ => ?_) (fun _ => ?_) | split | dsimp only | with_reducible refine lanes2_keeps (by assumption) ?_ | (injection eK; done) | (injection eK with eK; subst eK))

theorem execXor_keeps {x : V3} {s : State}  {u0 : State} (eK : execXor x s = .next u0) (hK : Keeps sK s) : Keeps sK u0 := by
  unfold execXor at eK
  try dsimp only at eK
  repeat' first | split at eK | (rw [Option.map_eq_some_iff] at eK; obtain ⟨_, _, eK⟩ := eK; try dsimp only at eK) | (rw [Option.bind_eq_some_iff] at eK; obtain ⟨_, _, eK⟩ := eK; try dsimp only at eK)
  all_goals (try first | (injection eK with eK; subst eK) | (injection eK; done) | subst eK)
  all_goals (repeat' first | with_reducible assumption | with_reducible exact Keeps.refl _ | fail_if_no_progress (with_reducible refine keeps_mk ?_) | with_reducible refine keeps_ite (fun _ => ?_) (fun _ => ?_) | split | dsimp only | with_reducible refine lanes2_keeps (by assumption) ?_ | (injection eK; done) | (injection eK with eK; subst eK))

theorem execAndn_keeps {x : V3} {s : State}  {u0 : State} (eK : execAndn x s = .next u0) (hK : Keeps sK s) : Keeps sK u0 := by
  unfold execAndn at eK
  try dsimp only at eK
  repeat' first | split at eK | (rw [Option.map_eq_some_iff] at eK; obtain ⟨_, _, eK⟩ := eK; try dsimp only at eK) | (rw [Option.bind_eq_some_iff] at eK; obtain ⟨_, _, eK⟩ := eK; try dsimp only at eK)
  all_goals (try first | (injection eK with eK; subst eK) | (injection eK; done) | subst eK)
  all_goals (repeat' first | with_reducible assumption | with_reducible exact Keeps.refl _ | fail_if_no_progress (with_reducible refine keeps_mk ?_) | with_reducible refine keeps_ite (fun _ => ?_) (fun _ => ?_) | split | dsimp only | with_reducible refine lanes2_keeps (by assumption) ?_ | (injection eK; done) | (injection eK with eK; subst eK))

theorem execOrn_keeps {x : V3} {s : State}  {u0 : State} (eK : execOrn x s = .next u0) (hK : Keeps sK s) : Keeps sK u0 := by
  unfold execOrn at eK
  try dsimp only at eK
  repeat' first | split at eK | (rw [Option.map_eq_some_iff] at eK; obtain ⟨_, _, eK⟩ := eK; try dsimp only at eK) | (rw [Option.bind_eq_some_iff] at eK; obtain ⟨_, _, eK⟩ := eK; try dsimp only at eK)
  all_goals (try first | (injection eK with eK; subst eK) | (injection eK; done) | subst eK)
  all_goals (repeat' first | with_reducible assumption | with_reducible exact Keeps.refl _ | fail_if_no_progress (with_reducible refine keeps_mk ?_) | with_reducible refine keeps_ite (fun _ => ?_) (fun _ => ?_) | split | dsimp only | with_reducible refine lanes2_keeps (by assumption) ?_ | (injection eK; done) | (injection eK with eK; subst eK))

theorem execShl_keeps {x : V3} {s : State}  {u0 : State} (eK : execShl x s = .next u0) (hK : Keeps sK s) : Keeps sK u0 := by
  unfold execShl at eK
  try dsimp only at eK
  repeat' first | split at eK | (rw [Option.map_eq_some_iff] at eK; obtain ⟨_, _, eK⟩ := eK; try dsimp only at eK) | (rw [Option.bind_eq_some_iff] at eK; obtain ⟨_, _, eK⟩ := eK; try dsimp only at eK)
  all_goals (try first | (injection eK with eK; subst eK) | (injection eK; done) | subst eK)
  all_goals (repeat' first | with_reducible assumption | with_reducible exact Keeps.refl _ | fail_if_no_progress (with_reducible refine keeps_mk ?_) | with_reducible refine keeps_ite (fun _ => ?_) (fun _ => ?_) | split | dsimp only | with_reducible refine lanes2_keeps (by assumption) ?_ | (injection eK; done) | (injection eK with eK; subst eK))

theorem execShr_keeps {x : V3} {s : State}  {u0 : State} (eK : execShr x s = .next u0) (hK : Keeps sK s) : Keeps sK u0 := by
  unfold execShr at eK
  try dsimp only at eK
  repeat' first | split at eK | (rw [Option.map_eq_some_iff] at eK; obtain ⟨_, _, eK⟩ := eK; try dsimp only at eK) | (rw [Option.bind_eq_some_iff] at eK; obtain ⟨_, _, eK⟩ := eK; try dsimp only at eK)
  all_goals (try first | (injection eK with eK; subst eK) | (injection eK; done) | subst eK)
  all_goals (repeat' first | with_reducible assumption | with_reducible exact Keeps.refl _ | fail_if_no_progress (with_reducible refine keeps_mk ?_) | with_reducible refine keeps_ite (fun _ => ?_) (fun _ => ?_) | split | dsimp only | with_reducible refine lanes2_keeps (by assumption) ?_ | (injection eK; done) | (injection eK with eK; subst eK))

theorem execSar_keeps {x : V3} {s : State}  {u0 : State} (eK : execSar x s = .next u0) (hK : Keeps sK s) : Keeps sK u0 := by
  unfold execSar at eK
  try dsimp only at eK
  repeat' first | split at eK | (rw [Option.map_eq_some_iff] at eK; obtain ⟨_, _, eK⟩ := eK; try dsimp only at eK) | (rw [Option.bind_eq_some_iff] at eK; obtain ⟨_, _, eK⟩ := eK; try dsimp only at eK)
  all_goals (try first | (injection eK with eK; subst eK) | (injection eK; done) | subst eK)
  all_goals (repeat' first | with_reducible assumption | with_reducible exact Keeps.refl _ | fail_if_no_progress (with_reducible refine keeps_mk ?_) | with_reducible refine keeps_ite (fun _ => ?_) (fun _ => ?_) | split | dsimp only | with_reducible refine lanes2_keeps (by assumption) ?_ | (injection eK; done) | (injection eK with eK; subst eK))

theorem execRotl_keeps {x : V3} {s : State}  {u0 : State} (eK : execRotl x s = .next u0) (hK : Keeps sK s) : Keeps sK u0 := by
  unfold execRotl at eK
  try dsimp only at eK
  repeat' first | split at eK | (rw [Option.map_eq_some_iff] at eK; obtain ⟨_, _, eK⟩ := eK; try dsimp only at eK) | (rw [Option.bind_eq_some_iff] at eK; obtain ⟨_, _, eK⟩ := eK; try dsimp only at eK)
  all_goals (try first | (injection eK with eK; subst eK) | (injection eK; done) | subst eK)
  all_goals (repeat' first | with_reducible assumption | with_reducible exact Keeps.refl _ | fail_if_no_progress (with_reducible refine keeps_mk ?_) | with_reducible refine keeps_ite (fun _ => ?_) (fun _ => ?_) | split | dsimp only | with_reducible refine lanes2_keeps (by assumption) ?_ | (injection eK; done) | (injection eK with eK; subst eK))

theorem execBfxI_keeps {x : V3} {s : State}  {u0 : State} (eK : execBfxI x s = .next u0) (hK : Keeps sK s) : Keeps sK u0 := by
  unfold execBfxI at eK
  try dsimp only at eK
  repeat' first | split at eK | (rw [Option.map_eq_some_iff] at eK; obtain ⟨_, _, eK⟩ := eK; try dsimp only at eK) | (rw [Option.bind_eq_some_iff] at eK; obtain ⟨_, _, eK⟩ := eK; try dsimp only at eK)
  all_goals (try first | (injection eK with eK; subst eK) | (injection eK; done) | subst eK)
  all_goals (repeat' first | with_reducible assumption | with_reducible exact Keeps.refl _ | fail_if_no_progress (with_reducible refine keeps_mk ?_) | with_reducible refine keeps_ite (fun _ => ?_) (fun _ => ?_) | split | dsimp only | with_reducible refine lanes2_keeps (by assumption) ?_ | (injection eK; done) | (injection eK with eK; subst eK))

theorem execBfxN_keeps {x : V3} {s : State}  {u0 : State} (eK : execBfxN x s = .next u0) (hK : Keeps sK s) : Keeps sK u0 := by
  unfold execBfxN at eK
  try dsimp only at eK
  repeat' first | split at eK | (rw [Option.map_eq_some_iff] at eK; obtain ⟨_, _, eK⟩ := eK; try dsimp only at eK) | (rw [Option.bind_eq_some_iff] at eK; obtain ⟨_, _, eK⟩ := eK; try dsimp only at eK)
  all_goals (try first | (injection eK with eK; subst eK) | (injection eK; done) | subst eK)
  all_goals (repeat' first | with_reducible assumption | with_reducible exact Keeps.refl _ | fail_if_no_progress (with_reducible refine keeps_mk ?_) | with_reducible refine keeps_ite (fun _ => ?_) (fun _ => ?_) | split | dsimp only | with_reducible refine lanes2_keeps (by assumption) ?_ | (injection eK; done) | (injection eK with eK; subst eK))

theorem execBfi_keeps {x : V3} {s : State}  {u0 : State} (eK : execBfi x s = .next u0) (hK : Keeps sK s) : Keeps sK u0 := by
  unfold execBfi at eK
  try dsimp only at eK
  repeat' first | split at eK | (rw [Option.map_eq_some_iff] at eK; obtain ⟨_, _, eK⟩ := eK; try dsimp only at eK) | (rw [Option.bind_eq_some_iff] at eK; obtain ⟨_, _, eK⟩ := eK; try dsimp only at eK)
  all_goals (try first | (injection eK with eK; subst eK) | (injection eK; done) | subst eK)
  all_goals (repeat' first | with_reducible assumption | with_reducible exact Keeps.refl _ | fail_if_no_progress (with_reducible refine keeps_mk ?_) | with_reducible refine keeps_ite (fun _ => ?_) (fun _ => ?_) | split | dsimp only | with_reducible refine lanes3_keeps (by assumption) ?_ | (injection eK; done) | (injection eK with eK; subst eK))

theorem execPrmb_keeps {x : V3} {s : State}  {u0 : State} (eK : execPrmb x s = .next u0) (hK : Keeps sK s) : Keeps sK u0 := by
  unfold execPrmb at eK
  try dsimp only at eK
  repeat' first | split at eK | (rw [Option.map_eq_some_iff] at eK; obtain ⟨_, _, eK⟩ := eK; try dsimp only at eK) | (rw [Option.bind_eq_some_iff] at eK; obtain ⟨_, _, eK⟩ := eK; try dsimp only at eK)
  all_goals (try first | (injection eK with eK; subst eK) | (injection eK; done) | subst eK)
  all_goals (repeat' first | with_reducible assumption | with_reducible exact Keeps.refl _ | fail_if_no_progress (with_reducible refine keeps_mk ?_) | with_reducible refine keeps_ite (fun _ => ?_) (fun _ => ?_) | split | dsimp only | with_reducible refine lanes3_keeps (by assumption) ?_ | (injection eK; done) | (injection eK with eK; subst eK))

theorem execClz_keeps {x : V3} {s : State}  {u0 : State} (eK : execClz x s = .next u0) (hK : Keeps sK s) : Keeps sK u0 := by
  unfold execClz at eK
  try dsimp only at eK
  repeat' first | split at eK | (rw [Option.map_eq_some_iff] at eK; obtain ⟨_, _, eK⟩ := eK; try dsimp only at eK) | (rw [Option.bind_eq_some_iff] at eK; obtain ⟨_, _, eK⟩ := eK; try dsimp only at eK)
  all_goals (try first | (injection eK with eK; subst eK) | (injection eK; done) | subst eK)
  all_goals (repeat' first | with_reducible assumption | with_reducible exact Keeps.refl _ | fail_if_no_progress (with_reducible refine keeps_mk ?_) | with_reducible refine keeps_ite (fun _ => ?_) (fun _ => ?_) | split | dsimp only | with_reducible refine lanes1_keeps (by assumption) ?_ | (injection eK; done) | (injection eK with eK; subst eK))

theorem execPopc_keeps {x : V3} {s : State}  {u0 : State} (eK : execPopc x s = .next u0) (hK : Keeps sK s) : Keeps sK u0 := by
  unfold execPopc at eK
  try dsimp only at eK
  repeat' first | split at eK | (rw [Option.map_eq_some_iff] at eK; obtain ⟨_, _, eK⟩ := eK; try dsimp only at eK) | (rw [Option.bind_eq_some_iff] at eK; obtain ⟨_, _, eK⟩ := eK; try dsimp only at eK)
  all_goals (try first | (injection eK with eK; subst eK) | (injection eK; done) | subst eK)
  all_goals (repeat' first | with_reducible assumption | with_reducible exact Keeps.refl _ | fail_if_no_progress (with_reducible refine keeps_mk ?_) | with_reducible refine keeps_ite (fun _ => ?_) (fun _ => ?_) | split | dsimp only | with_reducible refine lanes1_keeps (by assumption) ?_ | (injection eK; done) | (injection eK with eK; subst eK))

theorem execBrev_keeps {x : V3} {s : State}  {u0 : State} (eK : execBrev x s = .next u0) (hK : Keeps sK s) : Keeps sK u0 := by
  unfold execBrev at eK
  try dsimp only at eK
  repeat' first | split at eK | (rw [Option.map_eq_some_iff] at eK; obtain ⟨_, _, eK⟩ := eK; try dsimp only at eK) | (rw [Option.bind_eq_some_iff] at eK; obtain ⟨_, _, eK⟩ := eK; try dsimp only at eK)
  all_goals (try first | (injection eK with eK; subst eK) | (injection eK; done) | subst eK)
  all_goals (repeat' first | with_reducible assumption | with_reducible exact Keeps.refl _ | fail_if_no_progress (with_reducible refine keeps_mk ?_) | with_reducible refine keeps_ite (fun _ => ?_) (fun _ => ?_) | split | dsimp only | with_reducible refine lanes1_keeps (by assumption) ?_ | (injection eK; done) | (injection eK with eK; subst eK))

theorem amountGate_keeps {imm : Word}  {u0 : State} : ¬ (amountGate imm = .hold u0) := by
  intro eK
  unfold amountGate at eK
  try dsimp only at eK
  repeat' (split at eK)
  all_goals first | (cases eK; done) | exact absurd eK (by first | fail)

theorem shiftImm_keeps {x : VI} {f : Word → Word → Word} {s : State}  {u0 : State} (eK : shiftImm x f s = .next u0) (hK : Keeps sK s) : Keeps sK u0 := by
  unfold shiftImm at eK
  try dsimp only at eK
  repeat' first | split at eK | (rw [Option.map_eq_some_iff] at eK; obtain ⟨_, _, eK⟩ := eK; try dsimp only at eK) | (rw [Option.bind_eq_some_iff] at eK; obtain ⟨_, _, eK⟩ := eK; try dsimp only at eK)
  all_goals (try first | (injection eK with eK; subst eK) | (injection eK; done) | subst eK)
  all_goals (repeat' first | (intro _ _ _ eK h1; (try dsimp only at eK); repeat' (split at eK)) | (intro _ _ _ eK; (try dsimp only at eK); repeat' (split at eK)) | (intro _ _ eK; (try dsimp only at eK); repeat' (split at eK)) | (intro _ eK; (try dsimp only at eK); repeat' (split at eK)) | intro _ | with_reducible assumption | with_reducible exact Keeps.refl _ | with_reducible refine writeVector_keeps ?_ | fail_if_no_progress (with_reducible refine keeps_mk ?_) | with_reducible refine keeps_ite (fun _ => ?_) (fun _ => ?_) | split | dsimp only | with_reducible refine performGated_keeps ?_ ?_ (by assumption) ?_ | exact absurd (by assumption) amountGate_keeps | (injection eK; done) | (injection eK with eK; subst eK))

theorem execIaddi_keeps {x : VI} {s : State}  {u0 : State} (eK : execIaddi x s = .next u0) (hK : Keeps sK s) : Keeps sK u0 := by
  unfold execIaddi at eK
  try dsimp only at eK
  repeat' first | split at eK | (rw [Option.map_eq_some_iff] at eK; obtain ⟨_, _, eK⟩ := eK; try dsimp only at eK) | (rw [Option.bind_eq_some_iff] at eK; obtain ⟨_, _, eK⟩ := eK; try dsimp only at eK)
  all_goals (try first | (injection eK with eK; subst eK) | (injection eK; done) | subst eK)
  all_goals (repeat' first | with_reducible assumption | with_reducible exact Keeps.refl _ | fail_if_no_progress (with_reducible refine keeps_mk ?_) | with_reducible refine keeps_ite (fun _ => ?_) (fun _ => ?_) | split | dsimp only | with_reducible refine lanesImm_keeps (by assumption) ?_ | (injection eK; done) | (injection eK with eK; subst eK))

theorem execShli_keeps {x : VI} {s : State}  {u0 : State} (eK : execShli x s = .next u0) (hK : Keeps sK s) : Keeps sK u0 := by
  unfold execShli at eK
  try dsimp only at eK
  repeat' first | split at eK | (rw [Option.map_eq_some_iff] at eK; obtain ⟨_, _, eK⟩ := eK; try dsimp only at eK) | (rw [Option.bind_eq_some_iff] at eK; obtain ⟨_, _, eK⟩ := eK; try dsimp only at eK)
  all_goals (try first | (injection eK with eK; subst eK) | (injection eK; done) | subst eK)
  all_goals (repeat' first | with_reducible assumption | with_reducible exact Keeps.refl _ | fail_if_no_progress (with_reducible refine keeps_mk ?_) | with_reducible refine keeps_ite (fun _ => ?_) (fun _ => ?_) | split | dsimp only | with_reducible refine shiftImm_keeps (by assumption) ?_ | (injection eK; done) | (injection eK with eK; subst eK))

theorem execShri_keeps {x : VI} {s : State}  {u0 : State} (eK : execShri x s = .next u0) (hK : Keeps sK s) : Keeps sK u0 := by
  unfold execShri at eK
  try dsimp only at eK
  repeat' first | split at eK | (rw [Option.map_eq_some_iff] at eK; obtain ⟨_, _, eK⟩ := eK; try dsimp only at eK) | (rw [Option.bind_eq_some_iff] at eK; obtain ⟨_, _, eK⟩ := eK; try dsimp only at eK)
  all_goals (try first | (injection eK with eK; subst eK) | (injection eK; done) | subst eK)
  all_goals (repeat' first | with_reducible assumption | with_reducible exact Keeps.refl _ | fail_if_no_progress (with_reducible refine keeps_mk ?_) | with_reducible refine keeps_ite (fun _ => ?_) (fun _ => ?_) | split | dsimp only | with_reducible refine shiftImm_keeps (by assumption) ?_ | (injection eK; done) | (injection eK with eK; subst eK))

theorem execSari_keeps {x : VI} {s : State}  {u0 : State} (eK : execSari x s = .next u0) (hK : Keeps sK s) : Keeps sK u0 := by
  unfold execSari at eK
  try dsimp only at eK
  repeat' first | split at eK | (rw [Option.map_eq_some_iff] at eK; obtain ⟨_, _, eK⟩ := eK; try dsimp only at eK) | (rw [Option.bind_eq_some_iff] at eK; obtain ⟨_, _, eK⟩ := eK; try dsimp only at eK)
  all_goals (try first | (injection eK with eK; subst eK) | (injection eK; done) | subst eK)
  all_goals (repeat' first | with_reducible assumption | with_reducible exact Keeps.refl _ | fail_if_no_progress (with_reducible refine keeps_mk ?_) | with_reducible refine keeps_ite (fun _ => ?_) (fun _ => ?_) | split | dsimp only | with_reducible refine shiftImm_keeps (by assumption) ?_ | (injection eK; done) | (injection eK with eK; subst eK))

theorem execAndi_keeps {x : VI} {s : State}  {u0 : State} (eK : execAndi x s = .next u0) (hK : Keeps sK s) : Keeps sK u0 := by
  unfold execAndi at eK
  try dsimp only at eK
  repeat' first | split at eK | (rw [Option.map_eq_some_iff] at eK; obtain ⟨_, _, eK⟩ := eK; try dsimp only at eK) | (rw [Option.bind_eq_some_iff] at eK; obtain ⟨_, _, eK⟩ := eK; try dsimp only at eK)
  all_goals (try first | (injection eK with eK; subst eK) | (injection eK; done) | subst eK)
  all_goals (repeat' first | with_reducible assumption | with_reducible exact Keeps.refl _ | fail_if_no_progress (with_reducible refine keeps_mk ?_) | with_reducible refine keeps_ite (fun _ => ?_) (fun _ => ?_) | split | dsimp only | with_reducible refine lanesImm_keeps (by assumption) ?_ | (injection eK; done) | (injection eK with eK; subst eK))

theorem execOri_keeps {x : VI} {s : State}  {u0 : State} (eK : execOri x s = .next u0) (hK : Keeps sK s) : Keeps sK u0 := by
  unfold execOri at eK
  try dsimp only at eK
  repeat' first | split at eK | (rw [Option.map_eq_some_iff] at eK; obtain ⟨_, _, eK⟩ := eK; try dsimp only at eK) | (rw [Option.bind_eq_some_iff] at eK; obtain ⟨_, _, eK⟩ := eK; try dsimp only at eK)
  all_goals (try first | (injection eK with eK; subst eK) | (injection eK; done) | subst eK)
  all_goals (repeat' first | with_reducible assumption | with_reducible exact Keeps.refl _ | fail_if_no_progress (with_reducible refine keeps_mk ?_) | with_reducible refine keeps_ite (fun _ => ?_) (fun _ => ?_) | split | dsimp only | with_reducible refine lanesImm_keeps (by assumption) ?_ | (injection eK; done) | (injection eK with eK; subst eK))

theorem execXori_keeps {x : VI} {s : State}  {u0 : State} (eK : execXori x s = .next u0) (hK : Keeps sK s) : Keeps sK u0 := by
  unfold execXori at eK
  try dsimp only at eK
  repeat' first | split at eK | (rw [Option.map_eq_some_iff] at eK; obtain ⟨_, _, eK⟩ := eK; try dsimp only at eK) | (rw [Option.bind_eq_some_iff] at eK; obtain ⟨_, _, eK⟩ := eK; try dsimp only at eK)
  all_goals (try first | (injection eK with eK; subst eK) | (injection eK; done) | subst eK)
  all_goals (repeat' first | with_reducible assumption | with_reducible exact Keeps.refl _ | fail_if_no_progress (with_reducible refine keeps_mk ?_) | with_reducible refine keeps_ite (fun _ => ?_) (fun _ => ?_) | split | dsimp only | with_reducible refine lanesImm_keeps (by assumption) ?_ | (injection eK; done) | (injection eK with eK; subst eK))

theorem execRotli_keeps {x : VI} {s : State}  {u0 : State} (eK : execRotli x s = .next u0) (hK : Keeps sK s) : Keeps sK u0 := by
  unfold execRotli at eK
  try dsimp only at eK
  repeat' first | split at eK | (rw [Option.map_eq_some_iff] at eK; obtain ⟨_, _, eK⟩ := eK; try dsimp only at eK) | (rw [Option.bind_eq_some_iff] at eK; obtain ⟨_, _, eK⟩ := eK; try dsimp only at eK)
  all_goals (try first | (injection eK with eK; subst eK) | (injection eK; done) | subst eK)
  all_goals (repeat' first | with_reducible assumption | with_reducible exact Keeps.refl _ | fail_if_no_progress (with_reducible refine keeps_mk ?_) | with_reducible refine keeps_ite (fun _ => ?_) (fun _ => ?_) | split | dsimp only | with_reducible refine shiftImm_keeps (by assumption) ?_ | (injection eK; done) | (injection eK with eK; subst eK))

theorem shuffle_keeps {x : V3} {src : Nat → Nat → Nat} {s : State}  {u0 : State} (eK : shuffle x src s = .next u0) (hK : Keeps sK s) : Keeps sK u0 := by
  unfold shuffle at eK
  try dsimp only at eK
  repeat' first | split at eK | (rw [Option.map_eq_some_iff] at eK; obtain ⟨_, _, eK⟩ := eK; try dsimp only at eK) | (rw [Option.bind_eq_some_iff] at eK; obtain ⟨_, _, eK⟩ := eK; try dsimp only at eK)
  all_goals (try first | (injection eK with eK; subst eK) | (injection eK; done) | subst eK)
  all_goals (repeat' first | (intro _ _ _ eK h1; (try dsimp only at eK); repeat' (split at eK)) | (intro _ _ _ eK; (try dsimp only at eK); repeat' (split at eK)) | (intro _ _ eK; (try dsimp only at eK); repeat' (split at eK)) | (intro _ eK; (try dsimp only at eK); repeat' (split at eK)) | intro _ | with_reducible assumption | with_reducible exact Keeps.refl _ | with_reducible refine writeVector_keeps ?_ | fail_if_no_progress (with_reducible refine keeps_mk ?_) | with_reducible refine keeps_ite (fun _ => ?_) (fun _ => ?_) | split | dsimp only | with_reducible refine perform_keeps ?_ (by assumption) ?_ | (injection eK; done) | (injection eK with eK; subst eK))

theorem execShfl_keeps {x : V3} {s : State}  {u0 : State} (eK : execShfl x s = .next u0) (hK : Keeps sK s) : Keeps sK u0 := by
  unfold execShfl at eK
  try dsimp only at eK
  repeat' first | split at eK | (rw [Option.map_eq_some_iff] at eK; obtain ⟨_, _, eK⟩ := eK; try dsimp only at eK) | (rw [Option.bind_eq_some_iff] at eK; obtain ⟨_, _, eK⟩ := eK; try dsimp only at eK)
  all_goals (try first | (injection eK with eK; subst eK) | (injection eK; done) | subst eK)
  all_goals (repeat' first | with_reducible assumption | with_reducible exact Keeps.refl _ | fail_if_no_progress (with_reducible refine keeps_mk ?_) | with_reducible refine keeps_ite (fun _ => ?_) (fun _ => ?_) | split | dsimp only | with_reducible refine shuffle_keeps (by assumption) ?_ | (injection eK; done) | (injection eK with eK; subst eK))

theorem execShflup_keeps {x : V3} {s : State}  {u0 : State} (eK : execShflup x s = .next u0) (hK : Keeps sK s) : Keeps sK u0 := by
  unfold execShflup at eK
  try dsimp only at eK
  repeat' first | split at eK | (rw [Option.map_eq_some_iff] at eK; obtain ⟨_, _, eK⟩ := eK; try dsimp only at eK) | (rw [Option.bind_eq_some_iff] at eK; obtain ⟨_, _, eK⟩ := eK; try dsimp only at eK)
  all_goals (try first | (injection eK with eK; subst eK) | (injection eK; done) | subst eK)
  all_goals (repeat' first | with_reducible assumption | with_reducible exact Keeps.refl _ | fail_if_no_progress (with_reducible refine keeps_mk ?_) | with_reducible refine keeps_ite (fun _ => ?_) (fun _ => ?_) | split | dsimp only | with_reducible refine shuffle_keeps (by assumption) ?_ | (injection eK; done) | (injection eK with eK; subst eK))

theorem execShfldn_keeps {x : V3} {s : State}  {u0 : State} (eK : execShfldn x s = .next u0) (hK : Keeps sK s) : Keeps sK u0 := by
  unfold execShfldn at eK
  try dsimp only at eK
  repeat' first | split at eK | (rw [Option.map_eq_some_iff] at eK; obtain ⟨_, _, eK⟩ := eK; try dsimp only at eK) | (rw [Option.bind_eq_some_iff] at eK; obtain ⟨_, _, eK⟩ := eK; try dsimp only at eK)
  all_goals (try first | (injection eK with eK; subst eK) | (injection eK; done) | subst eK)
  all_goals (repeat' first | with_reducible assumption | with_reducible exact Keeps.refl _ | fail_if_no_progress (with_reducible refine keeps_mk ?_) | with_reducible refine keeps_ite (fun _ => ?_) (fun _ => ?_) | split | dsimp only | with_reducible refine shuffle_keeps (by assumption) ?_ | (injection eK; done) | (injection eK with eK; subst eK))

theorem execShflx_keeps {x : V3} {s : State}  {u0 : State} (eK : execShflx x s = .next u0) (hK : Keeps sK s) : Keeps sK u0 := by
  unfold execShflx at eK
  try dsimp only at eK
  repeat' first | split at eK | (rw [Option.map_eq_some_iff] at eK; obtain ⟨_, _, eK⟩ := eK; try dsimp only at eK) | (rw [Option.bind_eq_some_iff] at eK; obtain ⟨_, _, eK⟩ := eK; try dsimp only at eK)
  all_goals (try first | (injection eK with eK; subst eK) | (injection eK; done) | subst eK)
  all_goals (repeat' first | with_reducible assumption | with_reducible exact Keeps.refl _ | fail_if_no_progress (with_reducible refine keeps_mk ?_) | with_reducible refine keeps_ite (fun _ => ?_) (fun _ => ?_) | split | dsimp only | with_reducible refine shuffle_keeps (by assumption) ?_ | (injection eK; done) | (injection eK with eK; subst eK))

theorem reduce_keeps {x : V3} {f : Word → Word → Word} {z : Word} {pick : Nat → Nat → Bool} {s : State}  {u0 : State} (eK : reduce x f z pick s = .next u0) (hK : Keeps sK s) : Keeps sK u0 := by
  unfold reduce at eK
  try dsimp only at eK
  repeat' first | split at eK | (rw [Option.map_eq_some_iff] at eK; obtain ⟨_, _, eK⟩ := eK; try dsimp only at eK) | (rw [Option.bind_eq_some_iff] at eK; obtain ⟨_, _, eK⟩ := eK; try dsimp only at eK)
  all_goals (try first | (injection eK with eK; subst eK) | (injection eK; done) | subst eK)
  all_goals (repeat' first | (intro _ _ _ eK h1; (try dsimp only at eK); repeat' (split at eK)) | (intro _ _ _ eK; (try dsimp only at eK); repeat' (split at eK)) | (intro _ _ eK; (try dsimp only at eK); repeat' (split at eK)) | (intro _ eK; (try dsimp only at eK); repeat' (split at eK)) | intro _ | with_reducible assumption | with_reducible exact Keeps.refl _ | with_reducible refine writeVector_keeps ?_ | fail_if_no_progress (with_reducible refine keeps_mk ?_) | with_reducible refine foldl_keeps ?_ ?_ | with_reducible refine foldl1_keeps ?_ ?_ | with_reducible refine keeps_ite (fun _ => ?_) (fun _ => ?_) | split | dsimp only | with_reducible refine perform_keeps ?_ (by assumption) ?_ | with_reducible refine pick_keeps (by assumption) ?_ | (injection eK; done) | (injection eK with eK; subst eK))

theorem execTsumI_keeps {x : V3} {s : State}  {u0 : State} (eK : execTsumI x s = .next u0) (hK : Keeps sK s) : Keeps sK u0 := by
  unfold execTsumI at eK
  try dsimp only at eK
  repeat' first | split at eK | (rw [Option.map_eq_some_iff] at eK; obtain ⟨_, _, eK⟩ := eK; try dsimp only at eK) | (rw [Option.bind_eq_some_iff] at eK; obtain ⟨_, _, eK⟩ := eK; try dsimp only at eK)
  all_goals (try first | (injection eK with eK; subst eK) | (injection eK; done) | subst eK)
  all_goals (repeat' first | with_reducible assumption | with_reducible exact Keeps.refl _ | fail_if_no_progress (with_reducible refine keeps_mk ?_) | with_reducible refine keeps_ite (fun _ => ?_) (fun _ => ?_) | split | dsimp only | with_reducible refine reduce_keeps (by assumption) ?_ | (injection eK; done) | (injection eK with eK; subst eK))

theorem execTminI_keeps {x : V3} {s : State}  {u0 : State} (eK : execTminI x s = .next u0) (hK : Keeps sK s) : Keeps sK u0 := by
  unfold execTminI at eK
  try dsimp only at eK
  repeat' first | split at eK | (rw [Option.map_eq_some_iff] at eK; obtain ⟨_, _, eK⟩ := eK; try dsimp only at eK) | (rw [Option.bind_eq_some_iff] at eK; obtain ⟨_, _, eK⟩ := eK; try dsimp only at eK)
  all_goals (try first | (injection eK with eK; subst eK) | (injection eK; done) | subst eK)
  all_goals (repeat' first | with_reducible assumption | with_reducible exact Keeps.refl _ | fail_if_no_progress (with_reducible refine keeps_mk ?_) | with_reducible refine keeps_ite (fun _ => ?_) (fun _ => ?_) | split | dsimp only | with_reducible refine reduce_keeps (by assumption) ?_ | (injection eK; done) | (injection eK with eK; subst eK))

theorem execTmaxI_keeps {x : V3} {s : State}  {u0 : State} (eK : execTmaxI x s = .next u0) (hK : Keeps sK s) : Keeps sK u0 := by
  unfold execTmaxI at eK
  try dsimp only at eK
  repeat' first | split at eK | (rw [Option.map_eq_some_iff] at eK; obtain ⟨_, _, eK⟩ := eK; try dsimp only at eK) | (rw [Option.bind_eq_some_iff] at eK; obtain ⟨_, _, eK⟩ := eK; try dsimp only at eK)
  all_goals (try first | (injection eK with eK; subst eK) | (injection eK; done) | subst eK)
  all_goals (repeat' first | with_reducible assumption | with_reducible exact Keeps.refl _ | fail_if_no_progress (with_reducible refine keeps_mk ?_) | with_reducible refine keeps_ite (fun _ => ?_) (fun _ => ?_) | split | dsimp only | with_reducible refine reduce_keeps (by assumption) ?_ | (injection eK; done) | (injection eK with eK; subst eK))

theorem execTscanI_keeps {x : V3} {s : State}  {u0 : State} (eK : execTscanI x s = .next u0) (hK : Keeps sK s) : Keeps sK u0 := by
  unfold execTscanI at eK
  try dsimp only at eK
  repeat' first | split at eK | (rw [Option.map_eq_some_iff] at eK; obtain ⟨_, _, eK⟩ := eK; try dsimp only at eK) | (rw [Option.bind_eq_some_iff] at eK; obtain ⟨_, _, eK⟩ := eK; try dsimp only at eK)
  all_goals (try first | (injection eK with eK; subst eK) | (injection eK; done) | subst eK)
  all_goals (repeat' first | with_reducible assumption | with_reducible exact Keeps.refl _ | fail_if_no_progress (with_reducible refine keeps_mk ?_) | with_reducible refine keeps_ite (fun _ => ?_) (fun _ => ?_) | split | dsimp only | with_reducible refine reduce_keeps (by assumption) ?_ | (injection eK; done) | (injection eK with eK; subst eK))

theorem execMov_keeps {x : V3} {s : State}  {u0 : State} (eK : execMov x s = .next u0) (hK : Keeps sK s) : Keeps sK u0 := by
  unfold execMov at eK
  try dsimp only at eK
  repeat' first | split at eK | (rw [Option.map_eq_some_iff] at eK; obtain ⟨_, _, eK⟩ := eK; try dsimp only at eK) | (rw [Option.bind_eq_some_iff] at eK; obtain ⟨_, _, eK⟩ := eK; try dsimp only at eK)
  all_goals (try first | (injection eK with eK; subst eK) | (injection eK; done) | subst eK)
  all_goals (repeat' first | (intro _ _ _ eK h1; (try dsimp only at eK); repeat' (split at eK)) | (intro _ _ _ eK; (try dsimp only at eK); repeat' (split at eK)) | (intro _ _ eK; (try dsimp only at eK); repeat' (split at eK)) | (intro _ eK; (try dsimp only at eK); repeat' (split at eK)) | intro _ | with_reducible assumption | with_reducible exact Keeps.refl _ | with_reducible refine writeVector_keeps ?_ | fail_if_no_progress (with_reducible refine keeps_mk ?_) | with_reducible refine keeps_ite (fun _ => ?_) (fun _ => ?_) | split | dsimp only | with_reducible refine perform_keeps ?_ (by assumption) ?_ | (injection eK; done) | (injection eK with eK; subst eK))

theorem execLaneid_keeps {x : V3} {s : State}  {u0 : State} (eK : execLaneid x s = .next u0) (hK : Keeps sK s) : Keeps sK u0 := by
  unfold execLaneid at eK
  try dsimp only at eK
  repeat' first | split at eK | (rw [Option.map_eq_some_iff] at eK; obtain ⟨_, _, eK⟩ := eK; try dsimp only at eK) | (rw [Option.bind_eq_some_iff] at eK; obtain ⟨_, _, eK⟩ := eK; try dsimp only at eK)
  all_goals (try first | (injection eK with eK; subst eK) | (injection eK; done) | subst eK)
  all_goals (repeat' first | (intro _ _ _ eK h1; (try dsimp only at eK); repeat' (split at eK)) | (intro _ _ _ eK; (try dsimp only at eK); repeat' (split at eK)) | (intro _ _ eK; (try dsimp only at eK); repeat' (split at eK)) | (intro _ eK; (try dsimp only at eK); repeat' (split at eK)) | intro _ | with_reducible assumption | with_reducible exact Keeps.refl _ | with_reducible refine writeVector_keeps ?_ | fail_if_no_progress (with_reducible refine keeps_mk ?_) | with_reducible refine keeps_ite (fun _ => ?_) (fun _ => ?_) | split | dsimp only | with_reducible refine perform_keeps ?_ (by assumption) ?_ | (injection eK; done) | (injection eK with eK; subst eK))

theorem execLidx_keeps {x : V3} {s : State}  {u0 : State} (eK : execLidx x s = .next u0) (hK : Keeps sK s) : Keeps sK u0 := by
  unfold execLidx at eK
  try dsimp only at eK
  repeat' first | split at eK | (rw [Option.map_eq_some_iff] at eK; obtain ⟨_, _, eK⟩ := eK; try dsimp only at eK) | (rw [Option.bind_eq_some_iff] at eK; obtain ⟨_, _, eK⟩ := eK; try dsimp only at eK)
  all_goals (try first | (injection eK with eK; subst eK) | (injection eK; done) | subst eK)
  all_goals (repeat' first | (intro _ _ _ eK h1; (try dsimp only at eK); repeat' (split at eK)) | (intro _ _ _ eK; (try dsimp only at eK); repeat' (split at eK)) | (intro _ _ eK; (try dsimp only at eK); repeat' (split at eK)) | (intro _ eK; (try dsimp only at eK); repeat' (split at eK)) | intro _ | with_reducible assumption | with_reducible exact Keeps.refl _ | with_reducible refine writeVector_keeps ?_ | fail_if_no_progress (with_reducible refine keeps_mk ?_) | with_reducible refine keeps_ite (fun _ => ?_) (fun _ => ?_) | split | dsimp only | with_reducible refine perform_keeps ?_ (by assumption) ?_ | (injection eK; done) | (injection eK with eK; subst eK))


end Sys2Proof.Machine
end

