-- ==== Sys2Proof/Laws/KeepsScalar.lean ====
section
/-! SUPPORT. What every change keeps (Keeps), for Scalar. -/

set_option linter.unusedTactic false
set_option linter.unreachableTactic false

namespace Sys2Proof.Machine

variable {sK : State}

theorem scalar2_keeps {x : SF} {f : Word → Word → Word} {s : State}  {u0 : State} (eK : scalar2 x f s = .next u0) (hK : Keeps sK s) : Keeps sK u0 := by
  unfold scalar2 at eK
  try dsimp only at eK
  repeat' first | split at eK | (rw [Option.map_eq_some_iff] at eK; obtain ⟨_, _, eK⟩ := eK; try dsimp only at eK) | (rw [Option.bind_eq_some_iff] at eK; obtain ⟨_, _, eK⟩ := eK; try dsimp only at eK)
  all_goals (try first | (injection eK with eK; subst eK) | (injection eK; done) | subst eK)
  all_goals (repeat' first | with_reducible assumption | with_reducible exact Keeps.refl _ | fail_if_no_progress (with_reducible refine keeps_mk ?_) | with_reducible refine keeps_ite (fun _ => ?_) (fun _ => ?_) | split | dsimp only | with_reducible refine scalarOp_keeps (by assumption) ?_ | (injection eK; done) | (injection eK with eK; subst eK))

theorem scalar1_keeps {x : SF} {f : Word → Word} {s : State}  {u0 : State} (eK : scalar1 x f s = .next u0) (hK : Keeps sK s) : Keeps sK u0 := by
  unfold scalar1 at eK
  try dsimp only at eK
  repeat' first | split at eK | (rw [Option.map_eq_some_iff] at eK; obtain ⟨_, _, eK⟩ := eK; try dsimp only at eK) | (rw [Option.bind_eq_some_iff] at eK; obtain ⟨_, _, eK⟩ := eK; try dsimp only at eK)
  all_goals (try first | (injection eK with eK; subst eK) | (injection eK; done) | subst eK)
  all_goals (repeat' first | with_reducible assumption | with_reducible exact Keeps.refl _ | fail_if_no_progress (with_reducible refine keeps_mk ?_) | with_reducible refine keeps_ite (fun _ => ?_) (fun _ => ?_) | split | dsimp only | with_reducible refine scalarOp_keeps (by assumption) ?_ | (injection eK; done) | (injection eK with eK; subst eK))

theorem execSadd_keeps {x : SF} {s : State}  {u0 : State} (eK : execSadd x s = .next u0) (hK : Keeps sK s) : Keeps sK u0 := by
  unfold execSadd at eK
  try dsimp only at eK
  repeat' first | split at eK | (rw [Option.map_eq_some_iff] at eK; obtain ⟨_, _, eK⟩ := eK; try dsimp only at eK) | (rw [Option.bind_eq_some_iff] at eK; obtain ⟨_, _, eK⟩ := eK; try dsimp only at eK)
  all_goals (try first | (injection eK with eK; subst eK) | (injection eK; done) | subst eK)
  all_goals (repeat' first | with_reducible assumption | with_reducible exact Keeps.refl _ | fail_if_no_progress (with_reducible refine keeps_mk ?_) | with_reducible refine keeps_ite (fun _ => ?_) (fun _ => ?_) | split | dsimp only | with_reducible refine scalar2_keeps (by assumption) ?_ | (injection eK; done) | (injection eK with eK; subst eK))

theorem execSsub_keeps {x : SF} {s : State}  {u0 : State} (eK : execSsub x s = .next u0) (hK : Keeps sK s) : Keeps sK u0 := by
  unfold execSsub at eK
  try dsimp only at eK
  repeat' first | split at eK | (rw [Option.map_eq_some_iff] at eK; obtain ⟨_, _, eK⟩ := eK; try dsimp only at eK) | (rw [Option.bind_eq_some_iff] at eK; obtain ⟨_, _, eK⟩ := eK; try dsimp only at eK)
  all_goals (try first | (injection eK with eK; subst eK) | (injection eK; done) | subst eK)
  all_goals (repeat' first | with_reducible assumption | with_reducible exact Keeps.refl _ | fail_if_no_progress (with_reducible refine keeps_mk ?_) | with_reducible refine keeps_ite (fun _ => ?_) (fun _ => ?_) | split | dsimp only | with_reducible refine scalar2_keeps (by assumption) ?_ | (injection eK; done) | (injection eK with eK; subst eK))

theorem execSmul_keeps {x : SF} {s : State}  {u0 : State} (eK : execSmul x s = .next u0) (hK : Keeps sK s) : Keeps sK u0 := by
  unfold execSmul at eK
  try dsimp only at eK
  repeat' first | split at eK | (rw [Option.map_eq_some_iff] at eK; obtain ⟨_, _, eK⟩ := eK; try dsimp only at eK) | (rw [Option.bind_eq_some_iff] at eK; obtain ⟨_, _, eK⟩ := eK; try dsimp only at eK)
  all_goals (try first | (injection eK with eK; subst eK) | (injection eK; done) | subst eK)
  all_goals (repeat' first | with_reducible assumption | with_reducible exact Keeps.refl _ | fail_if_no_progress (with_reducible refine keeps_mk ?_) | with_reducible refine keeps_ite (fun _ => ?_) (fun _ => ?_) | split | dsimp only | with_reducible refine scalar2_keeps (by assumption) ?_ | (injection eK; done) | (injection eK with eK; subst eK))

theorem execSmulhI_keeps {x : SF} {s : State}  {u0 : State} (eK : execSmulhI x s = .next u0) (hK : Keeps sK s) : Keeps sK u0 := by
  unfold execSmulhI at eK
  try dsimp only at eK
  repeat' first | split at eK | (rw [Option.map_eq_some_iff] at eK; obtain ⟨_, _, eK⟩ := eK; try dsimp only at eK) | (rw [Option.bind_eq_some_iff] at eK; obtain ⟨_, _, eK⟩ := eK; try dsimp only at eK)
  all_goals (try first | (injection eK with eK; subst eK) | (injection eK; done) | subst eK)
  all_goals (repeat' first | with_reducible assumption | with_reducible exact Keeps.refl _ | fail_if_no_progress (with_reducible refine keeps_mk ?_) | with_reducible refine keeps_ite (fun _ => ?_) (fun _ => ?_) | split | dsimp only | with_reducible refine scalar2_keeps (by assumption) ?_ | (injection eK; done) | (injection eK with eK; subst eK))

theorem execSmulhN_keeps {x : SF} {s : State}  {u0 : State} (eK : execSmulhN x s = .next u0) (hK : Keeps sK s) : Keeps sK u0 := by
  unfold execSmulhN at eK
  try dsimp only at eK
  repeat' first | split at eK | (rw [Option.map_eq_some_iff] at eK; obtain ⟨_, _, eK⟩ := eK; try dsimp only at eK) | (rw [Option.bind_eq_some_iff] at eK; obtain ⟨_, _, eK⟩ := eK; try dsimp only at eK)
  all_goals (try first | (injection eK with eK; subst eK) | (injection eK; done) | subst eK)
  all_goals (repeat' first | with_reducible assumption | with_reducible exact Keeps.refl _ | fail_if_no_progress (with_reducible refine keeps_mk ?_) | with_reducible refine keeps_ite (fun _ => ?_) (fun _ => ?_) | split | dsimp only | with_reducible refine scalar2_keeps (by assumption) ?_ | (injection eK; done) | (injection eK with eK; subst eK))

theorem execSand_keeps {x : SF} {s : State}  {u0 : State} (eK : execSand x s = .next u0) (hK : Keeps sK s) : Keeps sK u0 := by
  unfold execSand at eK
  try dsimp only at eK
  repeat' first | split at eK | (rw [Option.map_eq_some_iff] at eK; obtain ⟨_, _, eK⟩ := eK; try dsimp only at eK) | (rw [Option.bind_eq_some_iff] at eK; obtain ⟨_, _, eK⟩ := eK; try dsimp only at eK)
  all_goals (try first | (injection eK with eK; subst eK) | (injection eK; done) | subst eK)
  all_goals (repeat' first | with_reducible assumption | with_reducible exact Keeps.refl _ | fail_if_no_progress (with_reducible refine keeps_mk ?_) | with_reducible refine keeps_ite (fun _ => ?_) (fun _ => ?_) | split | dsimp only | with_reducible refine scalar2_keeps (by assumption) ?_ | (injection eK; done) | (injection eK with eK; subst eK))

theorem execSor_keeps {x : SF} {s : State}  {u0 : State} (eK : execSor x s = .next u0) (hK : Keeps sK s) : Keeps sK u0 := by
  unfold execSor at eK
  try dsimp only at eK
  repeat' first | split at eK | (rw [Option.map_eq_some_iff] at eK; obtain ⟨_, _, eK⟩ := eK; try dsimp only at eK) | (rw [Option.bind_eq_some_iff] at eK; obtain ⟨_, _, eK⟩ := eK; try dsimp only at eK)
  all_goals (try first | (injection eK with eK; subst eK) | (injection eK; done) | subst eK)
  all_goals (repeat' first | with_reducible assumption | with_reducible exact Keeps.refl _ | fail_if_no_progress (with_reducible refine keeps_mk ?_) | with_reducible refine keeps_ite (fun _ => ?_) (fun _ => ?_) | split | dsimp only | with_reducible refine scalar2_keeps (by assumption) ?_ | (injection eK; done) | (injection eK with eK; subst eK))

theorem execSxor_keeps {x : SF} {s : State}  {u0 : State} (eK : execSxor x s = .next u0) (hK : Keeps sK s) : Keeps sK u0 := by
  unfold execSxor at eK
  try dsimp only at eK
  repeat' first | split at eK | (rw [Option.map_eq_some_iff] at eK; obtain ⟨_, _, eK⟩ := eK; try dsimp only at eK) | (rw [Option.bind_eq_some_iff] at eK; obtain ⟨_, _, eK⟩ := eK; try dsimp only at eK)
  all_goals (try first | (injection eK with eK; subst eK) | (injection eK; done) | subst eK)
  all_goals (repeat' first | with_reducible assumption | with_reducible exact Keeps.refl _ | fail_if_no_progress (with_reducible refine keeps_mk ?_) | with_reducible refine keeps_ite (fun _ => ?_) (fun _ => ?_) | split | dsimp only | with_reducible refine scalar2_keeps (by assumption) ?_ | (injection eK; done) | (injection eK with eK; subst eK))

theorem execSandn_keeps {x : SF} {s : State}  {u0 : State} (eK : execSandn x s = .next u0) (hK : Keeps sK s) : Keeps sK u0 := by
  unfold execSandn at eK
  try dsimp only at eK
  repeat' first | split at eK | (rw [Option.map_eq_some_iff] at eK; obtain ⟨_, _, eK⟩ := eK; try dsimp only at eK) | (rw [Option.bind_eq_some_iff] at eK; obtain ⟨_, _, eK⟩ := eK; try dsimp only at eK)
  all_goals (try first | (injection eK with eK; subst eK) | (injection eK; done) | subst eK)
  all_goals (repeat' first | with_reducible assumption | with_reducible exact Keeps.refl _ | fail_if_no_progress (with_reducible refine keeps_mk ?_) | with_reducible refine keeps_ite (fun _ => ?_) (fun _ => ?_) | split | dsimp only | with_reducible refine scalar2_keeps (by assumption) ?_ | (injection eK; done) | (injection eK with eK; subst eK))

theorem execSshl_keeps {x : SF} {s : State}  {u0 : State} (eK : execSshl x s = .next u0) (hK : Keeps sK s) : Keeps sK u0 := by
  unfold execSshl at eK
  try dsimp only at eK
  repeat' first | split at eK | (rw [Option.map_eq_some_iff] at eK; obtain ⟨_, _, eK⟩ := eK; try dsimp only at eK) | (rw [Option.bind_eq_some_iff] at eK; obtain ⟨_, _, eK⟩ := eK; try dsimp only at eK)
  all_goals (try first | (injection eK with eK; subst eK) | (injection eK; done) | subst eK)
  all_goals (repeat' first | with_reducible assumption | with_reducible exact Keeps.refl _ | fail_if_no_progress (with_reducible refine keeps_mk ?_) | with_reducible refine keeps_ite (fun _ => ?_) (fun _ => ?_) | split | dsimp only | with_reducible refine scalar2_keeps (by assumption) ?_ | (injection eK; done) | (injection eK with eK; subst eK))

theorem execSshr_keeps {x : SF} {s : State}  {u0 : State} (eK : execSshr x s = .next u0) (hK : Keeps sK s) : Keeps sK u0 := by
  unfold execSshr at eK
  try dsimp only at eK
  repeat' first | split at eK | (rw [Option.map_eq_some_iff] at eK; obtain ⟨_, _, eK⟩ := eK; try dsimp only at eK) | (rw [Option.bind_eq_some_iff] at eK; obtain ⟨_, _, eK⟩ := eK; try dsimp only at eK)
  all_goals (try first | (injection eK with eK; subst eK) | (injection eK; done) | subst eK)
  all_goals (repeat' first | with_reducible assumption | with_reducible exact Keeps.refl _ | fail_if_no_progress (with_reducible refine keeps_mk ?_) | with_reducible refine keeps_ite (fun _ => ?_) (fun _ => ?_) | split | dsimp only | with_reducible refine scalar2_keeps (by assumption) ?_ | (injection eK; done) | (injection eK with eK; subst eK))

theorem execSsar_keeps {x : SF} {s : State}  {u0 : State} (eK : execSsar x s = .next u0) (hK : Keeps sK s) : Keeps sK u0 := by
  unfold execSsar at eK
  try dsimp only at eK
  repeat' first | split at eK | (rw [Option.map_eq_some_iff] at eK; obtain ⟨_, _, eK⟩ := eK; try dsimp only at eK) | (rw [Option.bind_eq_some_iff] at eK; obtain ⟨_, _, eK⟩ := eK; try dsimp only at eK)
  all_goals (try first | (injection eK with eK; subst eK) | (injection eK; done) | subst eK)
  all_goals (repeat' first | with_reducible assumption | with_reducible exact Keeps.refl _ | fail_if_no_progress (with_reducible refine keeps_mk ?_) | with_reducible refine keeps_ite (fun _ => ?_) (fun _ => ?_) | split | dsimp only | with_reducible refine scalar2_keeps (by assumption) ?_ | (injection eK; done) | (injection eK with eK; subst eK))

theorem execSminI_keeps {x : SF} {s : State}  {u0 : State} (eK : execSminI x s = .next u0) (hK : Keeps sK s) : Keeps sK u0 := by
  unfold execSminI at eK
  try dsimp only at eK
  repeat' first | split at eK | (rw [Option.map_eq_some_iff] at eK; obtain ⟨_, _, eK⟩ := eK; try dsimp only at eK) | (rw [Option.bind_eq_some_iff] at eK; obtain ⟨_, _, eK⟩ := eK; try dsimp only at eK)
  all_goals (try first | (injection eK with eK; subst eK) | (injection eK; done) | subst eK)
  all_goals (repeat' first | with_reducible assumption | with_reducible exact Keeps.refl _ | fail_if_no_progress (with_reducible refine keeps_mk ?_) | with_reducible refine keeps_ite (fun _ => ?_) (fun _ => ?_) | split | dsimp only | with_reducible refine scalar2_keeps (by assumption) ?_ | (injection eK; done) | (injection eK with eK; subst eK))

theorem execSmaxI_keeps {x : SF} {s : State}  {u0 : State} (eK : execSmaxI x s = .next u0) (hK : Keeps sK s) : Keeps sK u0 := by
  unfold execSmaxI at eK
  try dsimp only at eK
  repeat' first | split at eK | (rw [Option.map_eq_some_iff] at eK; obtain ⟨_, _, eK⟩ := eK; try dsimp only at eK) | (rw [Option.bind_eq_some_iff] at eK; obtain ⟨_, _, eK⟩ := eK; try dsimp only at eK)
  all_goals (try first | (injection eK with eK; subst eK) | (injection eK; done) | subst eK)
  all_goals (repeat' first | with_reducible assumption | with_reducible exact Keeps.refl _ | fail_if_no_progress (with_reducible refine keeps_mk ?_) | with_reducible refine keeps_ite (fun _ => ?_) (fun _ => ?_) | split | dsimp only | with_reducible refine scalar2_keeps (by assumption) ?_ | (injection eK; done) | (injection eK with eK; subst eK))

theorem execSminN_keeps {x : SF} {s : State}  {u0 : State} (eK : execSminN x s = .next u0) (hK : Keeps sK s) : Keeps sK u0 := by
  unfold execSminN at eK
  try dsimp only at eK
  repeat' first | split at eK | (rw [Option.map_eq_some_iff] at eK; obtain ⟨_, _, eK⟩ := eK; try dsimp only at eK) | (rw [Option.bind_eq_some_iff] at eK; obtain ⟨_, _, eK⟩ := eK; try dsimp only at eK)
  all_goals (try first | (injection eK with eK; subst eK) | (injection eK; done) | subst eK)
  all_goals (repeat' first | with_reducible assumption | with_reducible exact Keeps.refl _ | fail_if_no_progress (with_reducible refine keeps_mk ?_) | with_reducible refine keeps_ite (fun _ => ?_) (fun _ => ?_) | split | dsimp only | with_reducible refine scalar2_keeps (by assumption) ?_ | (injection eK; done) | (injection eK with eK; subst eK))

theorem execSmaxN_keeps {x : SF} {s : State}  {u0 : State} (eK : execSmaxN x s = .next u0) (hK : Keeps sK s) : Keeps sK u0 := by
  unfold execSmaxN at eK
  try dsimp only at eK
  repeat' first | split at eK | (rw [Option.map_eq_some_iff] at eK; obtain ⟨_, _, eK⟩ := eK; try dsimp only at eK) | (rw [Option.bind_eq_some_iff] at eK; obtain ⟨_, _, eK⟩ := eK; try dsimp only at eK)
  all_goals (try first | (injection eK with eK; subst eK) | (injection eK; done) | subst eK)
  all_goals (repeat' first | with_reducible assumption | with_reducible exact Keeps.refl _ | fail_if_no_progress (with_reducible refine keeps_mk ?_) | with_reducible refine keeps_ite (fun _ => ?_) (fun _ => ?_) | split | dsimp only | with_reducible refine scalar2_keeps (by assumption) ?_ | (injection eK; done) | (injection eK with eK; subst eK))

theorem execSseq_keeps {x : SF} {s : State}  {u0 : State} (eK : execSseq x s = .next u0) (hK : Keeps sK s) : Keeps sK u0 := by
  unfold execSseq at eK
  try dsimp only at eK
  repeat' first | split at eK | (rw [Option.map_eq_some_iff] at eK; obtain ⟨_, _, eK⟩ := eK; try dsimp only at eK) | (rw [Option.bind_eq_some_iff] at eK; obtain ⟨_, _, eK⟩ := eK; try dsimp only at eK)
  all_goals (try first | (injection eK with eK; subst eK) | (injection eK; done) | subst eK)
  all_goals (repeat' first | with_reducible assumption | with_reducible exact Keeps.refl _ | fail_if_no_progress (with_reducible refine keeps_mk ?_) | with_reducible refine keeps_ite (fun _ => ?_) (fun _ => ?_) | split | dsimp only | with_reducible refine scalar2_keeps (by assumption) ?_ | (injection eK; done) | (injection eK with eK; subst eK))

theorem execSsltI_keeps {x : SF} {s : State}  {u0 : State} (eK : execSsltI x s = .next u0) (hK : Keeps sK s) : Keeps sK u0 := by
  unfold execSsltI at eK
  try dsimp only at eK
  repeat' first | split at eK | (rw [Option.map_eq_some_iff] at eK; obtain ⟨_, _, eK⟩ := eK; try dsimp only at eK) | (rw [Option.bind_eq_some_iff] at eK; obtain ⟨_, _, eK⟩ := eK; try dsimp only at eK)
  all_goals (try first | (injection eK with eK; subst eK) | (injection eK; done) | subst eK)
  all_goals (repeat' first | with_reducible assumption | with_reducible exact Keeps.refl _ | fail_if_no_progress (with_reducible refine keeps_mk ?_) | with_reducible refine keeps_ite (fun _ => ?_) (fun _ => ?_) | split | dsimp only | with_reducible refine scalar2_keeps (by assumption) ?_ | (injection eK; done) | (injection eK with eK; subst eK))

theorem execSsltN_keeps {x : SF} {s : State}  {u0 : State} (eK : execSsltN x s = .next u0) (hK : Keeps sK s) : Keeps sK u0 := by
  unfold execSsltN at eK
  try dsimp only at eK
  repeat' first | split at eK | (rw [Option.map_eq_some_iff] at eK; obtain ⟨_, _, eK⟩ := eK; try dsimp only at eK) | (rw [Option.bind_eq_some_iff] at eK; obtain ⟨_, _, eK⟩ := eK; try dsimp only at eK)
  all_goals (try first | (injection eK with eK; subst eK) | (injection eK; done) | subst eK)
  all_goals (repeat' first | with_reducible assumption | with_reducible exact Keeps.refl _ | fail_if_no_progress (with_reducible refine keeps_mk ?_) | with_reducible refine keeps_ite (fun _ => ?_) (fun _ => ?_) | split | dsimp only | with_reducible refine scalar2_keeps (by assumption) ?_ | (injection eK; done) | (injection eK with eK; subst eK))

theorem execSbfx_keeps {x : SF} {s : State}  {u0 : State} (eK : execSbfx x s = .next u0) (hK : Keeps sK s) : Keeps sK u0 := by
  unfold execSbfx at eK
  try dsimp only at eK
  repeat' first | split at eK | (rw [Option.map_eq_some_iff] at eK; obtain ⟨_, _, eK⟩ := eK; try dsimp only at eK) | (rw [Option.bind_eq_some_iff] at eK; obtain ⟨_, _, eK⟩ := eK; try dsimp only at eK)
  all_goals (try first | (injection eK with eK; subst eK) | (injection eK; done) | subst eK)
  all_goals (repeat' first | with_reducible assumption | with_reducible exact Keeps.refl _ | fail_if_no_progress (with_reducible refine keeps_mk ?_) | with_reducible refine keeps_ite (fun _ => ?_) (fun _ => ?_) | split | dsimp only | with_reducible refine scalar2_keeps (by assumption) ?_ | (injection eK; done) | (injection eK with eK; subst eK))

theorem execSclz_keeps {x : SF} {s : State}  {u0 : State} (eK : execSclz x s = .next u0) (hK : Keeps sK s) : Keeps sK u0 := by
  unfold execSclz at eK
  try dsimp only at eK
  repeat' first | split at eK | (rw [Option.map_eq_some_iff] at eK; obtain ⟨_, _, eK⟩ := eK; try dsimp only at eK) | (rw [Option.bind_eq_some_iff] at eK; obtain ⟨_, _, eK⟩ := eK; try dsimp only at eK)
  all_goals (try first | (injection eK with eK; subst eK) | (injection eK; done) | subst eK)
  all_goals (repeat' first | with_reducible assumption | with_reducible exact Keeps.refl _ | fail_if_no_progress (with_reducible refine keeps_mk ?_) | with_reducible refine keeps_ite (fun _ => ?_) (fun _ => ?_) | split | dsimp only | with_reducible refine scalar1_keeps (by assumption) ?_ | (injection eK; done) | (injection eK with eK; subst eK))

theorem execSpopc_keeps {x : SF} {s : State}  {u0 : State} (eK : execSpopc x s = .next u0) (hK : Keeps sK s) : Keeps sK u0 := by
  unfold execSpopc at eK
  try dsimp only at eK
  repeat' first | split at eK | (rw [Option.map_eq_some_iff] at eK; obtain ⟨_, _, eK⟩ := eK; try dsimp only at eK) | (rw [Option.bind_eq_some_iff] at eK; obtain ⟨_, _, eK⟩ := eK; try dsimp only at eK)
  all_goals (try first | (injection eK with eK; subst eK) | (injection eK; done) | subst eK)
  all_goals (repeat' first | with_reducible assumption | with_reducible exact Keeps.refl _ | fail_if_no_progress (with_reducible refine keeps_mk ?_) | with_reducible refine keeps_ite (fun _ => ?_) (fun _ => ?_) | split | dsimp only | with_reducible refine scalar1_keeps (by assumption) ?_ | (injection eK; done) | (injection eK with eK; subst eK))

theorem execSmov_keeps {x : SF} {s : State}  {u0 : State} (eK : execSmov x s = .next u0) (hK : Keeps sK s) : Keeps sK u0 := by
  unfold execSmov at eK
  try dsimp only at eK
  repeat' first | split at eK | (rw [Option.map_eq_some_iff] at eK; obtain ⟨_, _, eK⟩ := eK; try dsimp only at eK) | (rw [Option.bind_eq_some_iff] at eK; obtain ⟨_, _, eK⟩ := eK; try dsimp only at eK)
  all_goals (try first | (injection eK with eK; subst eK) | (injection eK; done) | subst eK)
  all_goals (repeat' first | with_reducible assumption | with_reducible exact Keeps.refl _ | fail_if_no_progress (with_reducible refine keeps_mk ?_) | with_reducible refine keeps_ite (fun _ => ?_) (fun _ => ?_) | split | dsimp only | with_reducible refine scalar1_keeps (by assumption) ?_ | (injection eK; done) | (injection eK with eK; subst eK))

theorem pairOp_keeps {h : Shape} {f : Ctx → Nat} {s : State}  {u0 : State} (eK : pairOp h f s = .next u0) (hK : Keeps sK s) : Keeps sK u0 := by
  unfold pairOp at eK
  try dsimp only at eK
  repeat' first | split at eK | (rw [Option.map_eq_some_iff] at eK; obtain ⟨_, _, eK⟩ := eK; try dsimp only at eK) | (rw [Option.bind_eq_some_iff] at eK; obtain ⟨_, _, eK⟩ := eK; try dsimp only at eK)
  all_goals (try first | (injection eK with eK; subst eK) | (injection eK; done) | subst eK)
  all_goals (repeat' first | with_reducible assumption | with_reducible exact Keeps.refl _ | fail_if_no_progress (with_reducible refine keeps_mk ?_) | with_reducible refine keeps_ite (fun _ => ?_) (fun _ => ?_) | split | dsimp only | with_reducible refine scalarOp_keeps (by assumption) ?_ | (injection eK; done) | (injection eK with eK; subst eK))

theorem execSadd64_keeps {x : SF} {s : State}  {u0 : State} (eK : execSadd64 x s = .next u0) (hK : Keeps sK s) : Keeps sK u0 := by
  unfold execSadd64 at eK
  try dsimp only at eK
  repeat' first | split at eK | (rw [Option.map_eq_some_iff] at eK; obtain ⟨_, _, eK⟩ := eK; try dsimp only at eK) | (rw [Option.bind_eq_some_iff] at eK; obtain ⟨_, _, eK⟩ := eK; try dsimp only at eK)
  all_goals (try first | (injection eK with eK; subst eK) | (injection eK; done) | subst eK)
  all_goals (repeat' first | with_reducible assumption | with_reducible exact Keeps.refl _ | fail_if_no_progress (with_reducible refine keeps_mk ?_) | with_reducible refine keeps_ite (fun _ => ?_) (fun _ => ?_) | split | dsimp only | with_reducible refine pairOp_keeps (by assumption) ?_ | (injection eK; done) | (injection eK with eK; subst eK))

theorem execSsub64_keeps {x : SF} {s : State}  {u0 : State} (eK : execSsub64 x s = .next u0) (hK : Keeps sK s) : Keeps sK u0 := by
  unfold execSsub64 at eK
  try dsimp only at eK
  repeat' first | split at eK | (rw [Option.map_eq_some_iff] at eK; obtain ⟨_, _, eK⟩ := eK; try dsimp only at eK) | (rw [Option.bind_eq_some_iff] at eK; obtain ⟨_, _, eK⟩ := eK; try dsimp only at eK)
  all_goals (try first | (injection eK with eK; subst eK) | (injection eK; done) | subst eK)
  all_goals (repeat' first | with_reducible assumption | with_reducible exact Keeps.refl _ | fail_if_no_progress (with_reducible refine keeps_mk ?_) | with_reducible refine keeps_ite (fun _ => ?_) (fun _ => ?_) | split | dsimp only | with_reducible refine pairOp_keeps (by assumption) ?_ | (injection eK; done) | (injection eK with eK; subst eK))

theorem execSshl64_keeps {x : SF} {s : State}  {u0 : State} (eK : execSshl64 x s = .next u0) (hK : Keeps sK s) : Keeps sK u0 := by
  unfold execSshl64 at eK
  try dsimp only at eK
  repeat' first | split at eK | (rw [Option.map_eq_some_iff] at eK; obtain ⟨_, _, eK⟩ := eK; try dsimp only at eK) | (rw [Option.bind_eq_some_iff] at eK; obtain ⟨_, _, eK⟩ := eK; try dsimp only at eK)
  all_goals (try first | (injection eK with eK; subst eK) | (injection eK; done) | subst eK)
  all_goals (repeat' first | with_reducible assumption | with_reducible exact Keeps.refl _ | fail_if_no_progress (with_reducible refine keeps_mk ?_) | with_reducible refine keeps_ite (fun _ => ?_) (fun _ => ?_) | split | dsimp only | with_reducible refine pairOp_keeps (by assumption) ?_ | (injection eK; done) | (injection eK with eK; subst eK))

theorem execSshr64_keeps {x : SF} {s : State}  {u0 : State} (eK : execSshr64 x s = .next u0) (hK : Keeps sK s) : Keeps sK u0 := by
  unfold execSshr64 at eK
  try dsimp only at eK
  repeat' first | split at eK | (rw [Option.map_eq_some_iff] at eK; obtain ⟨_, _, eK⟩ := eK; try dsimp only at eK) | (rw [Option.bind_eq_some_iff] at eK; obtain ⟨_, _, eK⟩ := eK; try dsimp only at eK)
  all_goals (try first | (injection eK with eK; subst eK) | (injection eK; done) | subst eK)
  all_goals (repeat' first | with_reducible assumption | with_reducible exact Keeps.refl _ | fail_if_no_progress (with_reducible refine keeps_mk ?_) | with_reducible refine keeps_ite (fun _ => ?_) (fun _ => ?_) | split | dsimp only | with_reducible refine pairOp_keeps (by assumption) ?_ | (injection eK; done) | (injection eK with eK; subst eK))

theorem execSaddx_keeps {x : SF} {s : State}  {u0 : State} (eK : execSaddx x s = .next u0) (hK : Keeps sK s) : Keeps sK u0 := by
  unfold execSaddx at eK
  try dsimp only at eK
  repeat' first | split at eK | (rw [Option.map_eq_some_iff] at eK; obtain ⟨_, _, eK⟩ := eK; try dsimp only at eK) | (rw [Option.bind_eq_some_iff] at eK; obtain ⟨_, _, eK⟩ := eK; try dsimp only at eK)
  all_goals (try first | (injection eK with eK; subst eK) | (injection eK; done) | subst eK)
  all_goals (repeat' first | with_reducible assumption | with_reducible exact Keeps.refl _ | fail_if_no_progress (with_reducible refine keeps_mk ?_) | with_reducible refine keeps_ite (fun _ => ?_) (fun _ => ?_) | split | dsimp only | with_reducible refine pairOp_keeps (by assumption) ?_ | (injection eK; done) | (injection eK with eK; subst eK))

theorem divOp_keeps {x : SF} {f : Word → Word → Word} {s : State}  {u0 : State} (eK : divOp x f s = .next u0) (hK : Keeps sK s) : Keeps sK u0 := by
  unfold divOp at eK
  try dsimp only at eK
  repeat' first | split at eK | (rw [Option.map_eq_some_iff] at eK; obtain ⟨_, _, eK⟩ := eK; try dsimp only at eK) | (rw [Option.bind_eq_some_iff] at eK; obtain ⟨_, _, eK⟩ := eK; try dsimp only at eK)
  all_goals (try first | (injection eK with eK; subst eK) | (injection eK; done) | subst eK)
  all_goals (repeat' first | (intro _ _ _ eK h1; (try dsimp only at eK); repeat' (split at eK)) | (intro _ _ _ eK; (try dsimp only at eK); repeat' (split at eK)) | (intro _ _ eK; (try dsimp only at eK); repeat' (split at eK)) | (intro _ eK; (try dsimp only at eK); repeat' (split at eK)) | intro _ | with_reducible assumption | with_reducible exact Keeps.refl _ | with_reducible refine raiseIdz_keeps ?_ | with_reducible refine writeScalar_keeps ?_ | fail_if_no_progress (with_reducible refine keeps_mk ?_) | with_reducible refine keeps_ite (fun _ => ?_) (fun _ => ?_) | split | dsimp only | with_reducible refine perform_keeps ?_ (by assumption) ?_ | (injection eK; done) | (injection eK with eK; subst eK))

theorem execSdivI_keeps {x : SF} {s : State}  {u0 : State} (eK : execSdivI x s = .next u0) (hK : Keeps sK s) : Keeps sK u0 := by
  unfold execSdivI at eK
  try dsimp only at eK
  repeat' first | split at eK | (rw [Option.map_eq_some_iff] at eK; obtain ⟨_, _, eK⟩ := eK; try dsimp only at eK) | (rw [Option.bind_eq_some_iff] at eK; obtain ⟨_, _, eK⟩ := eK; try dsimp only at eK)
  all_goals (try first | (injection eK with eK; subst eK) | (injection eK; done) | subst eK)
  all_goals (repeat' first | with_reducible assumption | with_reducible exact Keeps.refl _ | fail_if_no_progress (with_reducible refine keeps_mk ?_) | with_reducible refine keeps_ite (fun _ => ?_) (fun _ => ?_) | split | dsimp only | with_reducible refine divOp_keeps (by assumption) ?_ | (injection eK; done) | (injection eK with eK; subst eK))

theorem execSdivN_keeps {x : SF} {s : State}  {u0 : State} (eK : execSdivN x s = .next u0) (hK : Keeps sK s) : Keeps sK u0 := by
  unfold execSdivN at eK
  try dsimp only at eK
  repeat' first | split at eK | (rw [Option.map_eq_some_iff] at eK; obtain ⟨_, _, eK⟩ := eK; try dsimp only at eK) | (rw [Option.bind_eq_some_iff] at eK; obtain ⟨_, _, eK⟩ := eK; try dsimp only at eK)
  all_goals (try first | (injection eK with eK; subst eK) | (injection eK; done) | subst eK)
  all_goals (repeat' first | with_reducible assumption | with_reducible exact Keeps.refl _ | fail_if_no_progress (with_reducible refine keeps_mk ?_) | with_reducible refine keeps_ite (fun _ => ?_) (fun _ => ?_) | split | dsimp only | with_reducible refine divOp_keeps (by assumption) ?_ | (injection eK; done) | (injection eK with eK; subst eK))

theorem execSremI_keeps {x : SF} {s : State}  {u0 : State} (eK : execSremI x s = .next u0) (hK : Keeps sK s) : Keeps sK u0 := by
  unfold execSremI at eK
  try dsimp only at eK
  repeat' first | split at eK | (rw [Option.map_eq_some_iff] at eK; obtain ⟨_, _, eK⟩ := eK; try dsimp only at eK) | (rw [Option.bind_eq_some_iff] at eK; obtain ⟨_, _, eK⟩ := eK; try dsimp only at eK)
  all_goals (try first | (injection eK with eK; subst eK) | (injection eK; done) | subst eK)
  all_goals (repeat' first | with_reducible assumption | with_reducible exact Keeps.refl _ | fail_if_no_progress (with_reducible refine keeps_mk ?_) | with_reducible refine keeps_ite (fun _ => ?_) (fun _ => ?_) | split | dsimp only | with_reducible refine divOp_keeps (by assumption) ?_ | (injection eK; done) | (injection eK with eK; subst eK))

theorem execSremN_keeps {x : SF} {s : State}  {u0 : State} (eK : execSremN x s = .next u0) (hK : Keeps sK s) : Keeps sK u0 := by
  unfold execSremN at eK
  try dsimp only at eK
  repeat' first | split at eK | (rw [Option.map_eq_some_iff] at eK; obtain ⟨_, _, eK⟩ := eK; try dsimp only at eK) | (rw [Option.bind_eq_some_iff] at eK; obtain ⟨_, _, eK⟩ := eK; try dsimp only at eK)
  all_goals (try first | (injection eK with eK; subst eK) | (injection eK; done) | subst eK)
  all_goals (repeat' first | with_reducible assumption | with_reducible exact Keeps.refl _ | fail_if_no_progress (with_reducible refine keeps_mk ?_) | with_reducible refine keeps_ite (fun _ => ?_) (fun _ => ?_) | split | dsimp only | with_reducible refine divOp_keeps (by assumption) ?_ | (injection eK; done) | (injection eK with eK; subst eK))

theorem scalarImm_keeps {x : SI} {f : Word → Word → Word} {s : State}  {u0 : State} (eK : scalarImm x f s = .next u0) (hK : Keeps sK s) : Keeps sK u0 := by
  unfold scalarImm at eK
  try dsimp only at eK
  repeat' first | split at eK | (rw [Option.map_eq_some_iff] at eK; obtain ⟨_, _, eK⟩ := eK; try dsimp only at eK) | (rw [Option.bind_eq_some_iff] at eK; obtain ⟨_, _, eK⟩ := eK; try dsimp only at eK)
  all_goals (try first | (injection eK with eK; subst eK) | (injection eK; done) | subst eK)
  all_goals (repeat' first | with_reducible assumption | with_reducible exact Keeps.refl _ | fail_if_no_progress (with_reducible refine keeps_mk ?_) | with_reducible refine keeps_ite (fun _ => ?_) (fun _ => ?_) | split | dsimp only | with_reducible refine scalarOp_keeps (by assumption) ?_ | (injection eK; done) | (injection eK with eK; subst eK))

theorem scalarShift_keeps {x : SI} {f : Word → Word → Word} {s : State}  {u0 : State} (eK : scalarShift x f s = .next u0) (hK : Keeps sK s) : Keeps sK u0 := by
  unfold scalarShift at eK
  try dsimp only at eK
  repeat' first | split at eK | (rw [Option.map_eq_some_iff] at eK; obtain ⟨_, _, eK⟩ := eK; try dsimp only at eK) | (rw [Option.bind_eq_some_iff] at eK; obtain ⟨_, _, eK⟩ := eK; try dsimp only at eK)
  all_goals (try first | (injection eK with eK; subst eK) | (injection eK; done) | subst eK)
  all_goals (repeat' first | (intro _ _ _ eK h1; (try dsimp only at eK); repeat' (split at eK)) | (intro _ _ _ eK; (try dsimp only at eK); repeat' (split at eK)) | (intro _ _ eK; (try dsimp only at eK); repeat' (split at eK)) | (intro _ eK; (try dsimp only at eK); repeat' (split at eK)) | intro _ | with_reducible assumption | with_reducible exact Keeps.refl _ | with_reducible refine writeScalar_keeps ?_ | fail_if_no_progress (with_reducible refine keeps_mk ?_) | with_reducible refine keeps_ite (fun _ => ?_) (fun _ => ?_) | split | dsimp only | with_reducible refine performGated_keeps ?_ ?_ (by assumption) ?_ | exact absurd (by assumption) amountGate_keeps | (injection eK; done) | (injection eK with eK; subst eK))

theorem execSaddi_keeps {x : SI} {s : State}  {u0 : State} (eK : execSaddi x s = .next u0) (hK : Keeps sK s) : Keeps sK u0 := by
  unfold execSaddi at eK
  try dsimp only at eK
  repeat' first | split at eK | (rw [Option.map_eq_some_iff] at eK; obtain ⟨_, _, eK⟩ := eK; try dsimp only at eK) | (rw [Option.bind_eq_some_iff] at eK; obtain ⟨_, _, eK⟩ := eK; try dsimp only at eK)
  all_goals (try first | (injection eK with eK; subst eK) | (injection eK; done) | subst eK)
  all_goals (repeat' first | with_reducible assumption | with_reducible exact Keeps.refl _ | fail_if_no_progress (with_reducible refine keeps_mk ?_) | with_reducible refine keeps_ite (fun _ => ?_) (fun _ => ?_) | split | dsimp only | with_reducible refine scalarImm_keeps (by assumption) ?_ | (injection eK; done) | (injection eK with eK; subst eK))

theorem execSandi_keeps {x : SI} {s : State}  {u0 : State} (eK : execSandi x s = .next u0) (hK : Keeps sK s) : Keeps sK u0 := by
  unfold execSandi at eK
  try dsimp only at eK
  repeat' first | split at eK | (rw [Option.map_eq_some_iff] at eK; obtain ⟨_, _, eK⟩ := eK; try dsimp only at eK) | (rw [Option.bind_eq_some_iff] at eK; obtain ⟨_, _, eK⟩ := eK; try dsimp only at eK)
  all_goals (try first | (injection eK with eK; subst eK) | (injection eK; done) | subst eK)
  all_goals (repeat' first | with_reducible assumption | with_reducible exact Keeps.refl _ | fail_if_no_progress (with_reducible refine keeps_mk ?_) | with_reducible refine keeps_ite (fun _ => ?_) (fun _ => ?_) | split | dsimp only | with_reducible refine scalarImm_keeps (by assumption) ?_ | (injection eK; done) | (injection eK with eK; subst eK))

theorem execSori_keeps {x : SI} {s : State}  {u0 : State} (eK : execSori x s = .next u0) (hK : Keeps sK s) : Keeps sK u0 := by
  unfold execSori at eK
  try dsimp only at eK
  repeat' first | split at eK | (rw [Option.map_eq_some_iff] at eK; obtain ⟨_, _, eK⟩ := eK; try dsimp only at eK) | (rw [Option.bind_eq_some_iff] at eK; obtain ⟨_, _, eK⟩ := eK; try dsimp only at eK)
  all_goals (try first | (injection eK with eK; subst eK) | (injection eK; done) | subst eK)
  all_goals (repeat' first | with_reducible assumption | with_reducible exact Keeps.refl _ | fail_if_no_progress (with_reducible refine keeps_mk ?_) | with_reducible refine keeps_ite (fun _ => ?_) (fun _ => ?_) | split | dsimp only | with_reducible refine scalarImm_keeps (by assumption) ?_ | (injection eK; done) | (injection eK with eK; subst eK))

theorem execSxori_keeps {x : SI} {s : State}  {u0 : State} (eK : execSxori x s = .next u0) (hK : Keeps sK s) : Keeps sK u0 := by
  unfold execSxori at eK
  try dsimp only at eK
  repeat' first | split at eK | (rw [Option.map_eq_some_iff] at eK; obtain ⟨_, _, eK⟩ := eK; try dsimp only at eK) | (rw [Option.bind_eq_some_iff] at eK; obtain ⟨_, _, eK⟩ := eK; try dsimp only at eK)
  all_goals (try first | (injection eK with eK; subst eK) | (injection eK; done) | subst eK)
  all_goals (repeat' first | with_reducible assumption | with_reducible exact Keeps.refl _ | fail_if_no_progress (with_reducible refine keeps_mk ?_) | with_reducible refine keeps_ite (fun _ => ?_) (fun _ => ?_) | split | dsimp only | with_reducible refine scalarImm_keeps (by assumption) ?_ | (injection eK; done) | (injection eK with eK; subst eK))

theorem execSshli_keeps {x : SI} {s : State}  {u0 : State} (eK : execSshli x s = .next u0) (hK : Keeps sK s) : Keeps sK u0 := by
  unfold execSshli at eK
  try dsimp only at eK
  repeat' first | split at eK | (rw [Option.map_eq_some_iff] at eK; obtain ⟨_, _, eK⟩ := eK; try dsimp only at eK) | (rw [Option.bind_eq_some_iff] at eK; obtain ⟨_, _, eK⟩ := eK; try dsimp only at eK)
  all_goals (try first | (injection eK with eK; subst eK) | (injection eK; done) | subst eK)
  all_goals (repeat' first | with_reducible assumption | with_reducible exact Keeps.refl _ | fail_if_no_progress (with_reducible refine keeps_mk ?_) | with_reducible refine keeps_ite (fun _ => ?_) (fun _ => ?_) | split | dsimp only | with_reducible refine scalarShift_keeps (by assumption) ?_ | (injection eK; done) | (injection eK with eK; subst eK))

theorem execSshri_keeps {x : SI} {s : State}  {u0 : State} (eK : execSshri x s = .next u0) (hK : Keeps sK s) : Keeps sK u0 := by
  unfold execSshri at eK
  try dsimp only at eK
  repeat' first | split at eK | (rw [Option.map_eq_some_iff] at eK; obtain ⟨_, _, eK⟩ := eK; try dsimp only at eK) | (rw [Option.bind_eq_some_iff] at eK; obtain ⟨_, _, eK⟩ := eK; try dsimp only at eK)
  all_goals (try first | (injection eK with eK; subst eK) | (injection eK; done) | subst eK)
  all_goals (repeat' first | with_reducible assumption | with_reducible exact Keeps.refl _ | fail_if_no_progress (with_reducible refine keeps_mk ?_) | with_reducible refine keeps_ite (fun _ => ?_) (fun _ => ?_) | split | dsimp only | with_reducible refine scalarShift_keeps (by assumption) ?_ | (injection eK; done) | (injection eK with eK; subst eK))

theorem execSsari_keeps {x : SI} {s : State}  {u0 : State} (eK : execSsari x s = .next u0) (hK : Keeps sK s) : Keeps sK u0 := by
  unfold execSsari at eK
  try dsimp only at eK
  repeat' first | split at eK | (rw [Option.map_eq_some_iff] at eK; obtain ⟨_, _, eK⟩ := eK; try dsimp only at eK) | (rw [Option.bind_eq_some_iff] at eK; obtain ⟨_, _, eK⟩ := eK; try dsimp only at eK)
  all_goals (try first | (injection eK with eK; subst eK) | (injection eK; done) | subst eK)
  all_goals (repeat' first | with_reducible assumption | with_reducible exact Keeps.refl _ | fail_if_no_progress (with_reducible refine keeps_mk ?_) | with_reducible refine keeps_ite (fun _ => ?_) (fun _ => ?_) | split | dsimp only | with_reducible refine scalarShift_keeps (by assumption) ?_ | (injection eK; done) | (injection eK with eK; subst eK))

theorem execSsltiI_keeps {x : SI} {s : State}  {u0 : State} (eK : execSsltiI x s = .next u0) (hK : Keeps sK s) : Keeps sK u0 := by
  unfold execSsltiI at eK
  try dsimp only at eK
  repeat' first | split at eK | (rw [Option.map_eq_some_iff] at eK; obtain ⟨_, _, eK⟩ := eK; try dsimp only at eK) | (rw [Option.bind_eq_some_iff] at eK; obtain ⟨_, _, eK⟩ := eK; try dsimp only at eK)
  all_goals (try first | (injection eK with eK; subst eK) | (injection eK; done) | subst eK)
  all_goals (repeat' first | with_reducible assumption | with_reducible exact Keeps.refl _ | fail_if_no_progress (with_reducible refine keeps_mk ?_) | with_reducible refine keeps_ite (fun _ => ?_) (fun _ => ?_) | split | dsimp only | with_reducible refine scalarImm_keeps (by assumption) ?_ | (injection eK; done) | (injection eK with eK; subst eK))


end Sys2Proof.Machine
end

