-- ==== Sys2Proof/Laws/KeepsFloat.lean ====
section
/-! SUPPORT. What every change keeps (Keeps), for Float. -/

set_option linter.unusedTactic false
set_option linter.unreachableTactic false

namespace Sys2Proof.Machine

variable {sK : State}

theorem fp1_keeps {h : Shape} {slots : List Nat} {f : Ctx → Nat → FRes} {s : State}  {u0 : State} (eK : fp1 h slots f s = .next u0) (hK : Keeps sK s) : Keeps sK u0 := by
  unfold fp1 at eK
  try dsimp only at eK
  refine fpPerform_keeps (fun s hK => ?_) eK hK
  try dsimp only
  repeat' first | with_reducible assumption | with_reducible exact Keeps.refl _ | with_reducible refine writeFp1_keeps ?_ | fail_if_no_progress (with_reducible refine keeps_mk ?_) | intro _ hk | with_reducible refine keeps_ite (fun _ => ?_) (fun _ => ?_) | split | dsimp only

theorem fpBin_keeps {h : Shape} {f : Nat → Fop → Fop → FRes} {s : State}  {u0 : State} (eK : fpBin h f s = .next u0) (hK : Keeps sK s) : Keeps sK u0 := by
  unfold fpBin at eK
  try dsimp only at eK
  repeat' first | split at eK | (rw [Option.map_eq_some_iff] at eK; obtain ⟨_, _, eK⟩ := eK; try dsimp only at eK) | (rw [Option.bind_eq_some_iff] at eK; obtain ⟨_, _, eK⟩ := eK; try dsimp only at eK)
  all_goals (try first | (injection eK with eK; subst eK) | (injection eK; done) | subst eK)
  all_goals (repeat' first | with_reducible assumption | with_reducible exact Keeps.refl _ | fail_if_no_progress (with_reducible refine keeps_mk ?_) | with_reducible refine keeps_ite (fun _ => ?_) (fun _ => ?_) | split | dsimp only | with_reducible refine fp1_keeps (by assumption) ?_ | (injection eK; done) | (injection eK with eK; subst eK))

theorem fpUn_keeps {h : Shape} {f : Nat → Fop → FRes} {s : State}  {u0 : State} (eK : fpUn h f s = .next u0) (hK : Keeps sK s) : Keeps sK u0 := by
  unfold fpUn at eK
  try dsimp only at eK
  repeat' first | split at eK | (rw [Option.map_eq_some_iff] at eK; obtain ⟨_, _, eK⟩ := eK; try dsimp only at eK) | (rw [Option.bind_eq_some_iff] at eK; obtain ⟨_, _, eK⟩ := eK; try dsimp only at eK)
  all_goals (try first | (injection eK with eK; subst eK) | (injection eK; done) | subst eK)
  all_goals (repeat' first | with_reducible assumption | with_reducible exact Keeps.refl _ | fail_if_no_progress (with_reducible refine keeps_mk ?_) | with_reducible refine keeps_ite (fun _ => ?_) (fun _ => ?_) | split | dsimp only | with_reducible refine fp1_keeps (by assumption) ?_ | (injection eK; done) | (injection eK with eK; subst eK))

theorem fpFma_keeps {h : Shape} {neg sub : Bool} {s : State}  {u0 : State} (eK : fpFma h neg sub s = .next u0) (hK : Keeps sK s) : Keeps sK u0 := by
  unfold fpFma at eK
  try dsimp only at eK
  repeat' first | split at eK | (rw [Option.map_eq_some_iff] at eK; obtain ⟨_, _, eK⟩ := eK; try dsimp only at eK) | (rw [Option.bind_eq_some_iff] at eK; obtain ⟨_, _, eK⟩ := eK; try dsimp only at eK)
  all_goals (try first | (injection eK with eK; subst eK) | (injection eK; done) | subst eK)
  all_goals (repeat' first | with_reducible assumption | with_reducible exact Keeps.refl _ | fail_if_no_progress (with_reducible refine keeps_mk ?_) | with_reducible refine keeps_ite (fun _ => ?_) (fun _ => ?_) | split | dsimp only | with_reducible refine fp1_keeps (by assumption) ?_ | (injection eK; done) | (injection eK with eK; subst eK))

theorem execFadd_keeps {x : V3} {s : State}  {u0 : State} (eK : execFadd x s = .next u0) (hK : Keeps sK s) : Keeps sK u0 := by
  unfold execFadd at eK
  try dsimp only at eK
  repeat' first | split at eK | (rw [Option.map_eq_some_iff] at eK; obtain ⟨_, _, eK⟩ := eK; try dsimp only at eK) | (rw [Option.bind_eq_some_iff] at eK; obtain ⟨_, _, eK⟩ := eK; try dsimp only at eK)
  all_goals (try first | (injection eK with eK; subst eK) | (injection eK; done) | subst eK)
  all_goals (repeat' first | with_reducible assumption | with_reducible exact Keeps.refl _ | fail_if_no_progress (with_reducible refine keeps_mk ?_) | with_reducible refine keeps_ite (fun _ => ?_) (fun _ => ?_) | split | dsimp only | with_reducible refine fpBin_keeps (by assumption) ?_ | (injection eK; done) | (injection eK with eK; subst eK))

theorem execFsub_keeps {x : V3} {s : State}  {u0 : State} (eK : execFsub x s = .next u0) (hK : Keeps sK s) : Keeps sK u0 := by
  unfold execFsub at eK
  try dsimp only at eK
  repeat' first | split at eK | (rw [Option.map_eq_some_iff] at eK; obtain ⟨_, _, eK⟩ := eK; try dsimp only at eK) | (rw [Option.bind_eq_some_iff] at eK; obtain ⟨_, _, eK⟩ := eK; try dsimp only at eK)
  all_goals (try first | (injection eK with eK; subst eK) | (injection eK; done) | subst eK)
  all_goals (repeat' first | with_reducible assumption | with_reducible exact Keeps.refl _ | fail_if_no_progress (with_reducible refine keeps_mk ?_) | with_reducible refine keeps_ite (fun _ => ?_) (fun _ => ?_) | split | dsimp only | with_reducible refine fpBin_keeps (by assumption) ?_ | (injection eK; done) | (injection eK with eK; subst eK))

theorem execFmul_keeps {x : V3} {s : State}  {u0 : State} (eK : execFmul x s = .next u0) (hK : Keeps sK s) : Keeps sK u0 := by
  unfold execFmul at eK
  try dsimp only at eK
  repeat' first | split at eK | (rw [Option.map_eq_some_iff] at eK; obtain ⟨_, _, eK⟩ := eK; try dsimp only at eK) | (rw [Option.bind_eq_some_iff] at eK; obtain ⟨_, _, eK⟩ := eK; try dsimp only at eK)
  all_goals (try first | (injection eK with eK; subst eK) | (injection eK; done) | subst eK)
  all_goals (repeat' first | with_reducible assumption | with_reducible exact Keeps.refl _ | fail_if_no_progress (with_reducible refine keeps_mk ?_) | with_reducible refine keeps_ite (fun _ => ?_) (fun _ => ?_) | split | dsimp only | with_reducible refine fpBin_keeps (by assumption) ?_ | (injection eK; done) | (injection eK with eK; subst eK))

theorem execFmin_keeps {x : V3} {s : State}  {u0 : State} (eK : execFmin x s = .next u0) (hK : Keeps sK s) : Keeps sK u0 := by
  unfold execFmin at eK
  try dsimp only at eK
  repeat' first | split at eK | (rw [Option.map_eq_some_iff] at eK; obtain ⟨_, _, eK⟩ := eK; try dsimp only at eK) | (rw [Option.bind_eq_some_iff] at eK; obtain ⟨_, _, eK⟩ := eK; try dsimp only at eK)
  all_goals (try first | (injection eK with eK; subst eK) | (injection eK; done) | subst eK)
  all_goals (repeat' first | with_reducible assumption | with_reducible exact Keeps.refl _ | fail_if_no_progress (with_reducible refine keeps_mk ?_) | with_reducible refine keeps_ite (fun _ => ?_) (fun _ => ?_) | split | dsimp only | with_reducible refine fp1_keeps (by assumption) ?_ | (injection eK; done) | (injection eK with eK; subst eK))

theorem execFmax_keeps {x : V3} {s : State}  {u0 : State} (eK : execFmax x s = .next u0) (hK : Keeps sK s) : Keeps sK u0 := by
  unfold execFmax at eK
  try dsimp only at eK
  repeat' first | split at eK | (rw [Option.map_eq_some_iff] at eK; obtain ⟨_, _, eK⟩ := eK; try dsimp only at eK) | (rw [Option.bind_eq_some_iff] at eK; obtain ⟨_, _, eK⟩ := eK; try dsimp only at eK)
  all_goals (try first | (injection eK with eK; subst eK) | (injection eK; done) | subst eK)
  all_goals (repeat' first | with_reducible assumption | with_reducible exact Keeps.refl _ | fail_if_no_progress (with_reducible refine keeps_mk ?_) | with_reducible refine keeps_ite (fun _ => ?_) (fun _ => ?_) | split | dsimp only | with_reducible refine fp1_keeps (by assumption) ?_ | (injection eK; done) | (injection eK with eK; subst eK))

theorem execFabs_keeps {x : V3} {s : State}  {u0 : State} (eK : execFabs x s = .next u0) (hK : Keeps sK s) : Keeps sK u0 := by
  unfold execFabs at eK
  try dsimp only at eK
  repeat' first | split at eK | (rw [Option.map_eq_some_iff] at eK; obtain ⟨_, _, eK⟩ := eK; try dsimp only at eK) | (rw [Option.bind_eq_some_iff] at eK; obtain ⟨_, _, eK⟩ := eK; try dsimp only at eK)
  all_goals (try first | (injection eK with eK; subst eK) | (injection eK; done) | subst eK)
  all_goals (repeat' first | with_reducible assumption | with_reducible exact Keeps.refl _ | fail_if_no_progress (with_reducible refine keeps_mk ?_) | with_reducible refine keeps_ite (fun _ => ?_) (fun _ => ?_) | split | dsimp only | with_reducible refine fp1_keeps (by assumption) ?_ | (injection eK; done) | (injection eK with eK; subst eK))

theorem execFneg_keeps {x : V3} {s : State}  {u0 : State} (eK : execFneg x s = .next u0) (hK : Keeps sK s) : Keeps sK u0 := by
  unfold execFneg at eK
  try dsimp only at eK
  repeat' first | split at eK | (rw [Option.map_eq_some_iff] at eK; obtain ⟨_, _, eK⟩ := eK; try dsimp only at eK) | (rw [Option.bind_eq_some_iff] at eK; obtain ⟨_, _, eK⟩ := eK; try dsimp only at eK)
  all_goals (try first | (injection eK with eK; subst eK) | (injection eK; done) | subst eK)
  all_goals (repeat' first | with_reducible assumption | with_reducible exact Keeps.refl _ | fail_if_no_progress (with_reducible refine keeps_mk ?_) | with_reducible refine keeps_ite (fun _ => ?_) (fun _ => ?_) | split | dsimp only | with_reducible refine fp1_keeps (by assumption) ?_ | (injection eK; done) | (injection eK with eK; subst eK))

theorem execFcpsgn_keeps {x : V3} {s : State}  {u0 : State} (eK : execFcpsgn x s = .next u0) (hK : Keeps sK s) : Keeps sK u0 := by
  unfold execFcpsgn at eK
  try dsimp only at eK
  repeat' first | split at eK | (rw [Option.map_eq_some_iff] at eK; obtain ⟨_, _, eK⟩ := eK; try dsimp only at eK) | (rw [Option.bind_eq_some_iff] at eK; obtain ⟨_, _, eK⟩ := eK; try dsimp only at eK)
  all_goals (try first | (injection eK with eK; subst eK) | (injection eK; done) | subst eK)
  all_goals (repeat' first | with_reducible assumption | with_reducible exact Keeps.refl _ | fail_if_no_progress (with_reducible refine keeps_mk ?_) | with_reducible refine keeps_ite (fun _ => ?_) (fun _ => ?_) | split | dsimp only | with_reducible refine fp1_keeps (by assumption) ?_ | (injection eK; done) | (injection eK with eK; subst eK))

theorem execFfma_keeps {x : V3} {s : State}  {u0 : State} (eK : execFfma x s = .next u0) (hK : Keeps sK s) : Keeps sK u0 := by
  unfold execFfma at eK
  try dsimp only at eK
  repeat' first | split at eK | (rw [Option.map_eq_some_iff] at eK; obtain ⟨_, _, eK⟩ := eK; try dsimp only at eK) | (rw [Option.bind_eq_some_iff] at eK; obtain ⟨_, _, eK⟩ := eK; try dsimp only at eK)
  all_goals (try first | (injection eK with eK; subst eK) | (injection eK; done) | subst eK)
  all_goals (repeat' first | with_reducible assumption | with_reducible exact Keeps.refl _ | fail_if_no_progress (with_reducible refine keeps_mk ?_) | with_reducible refine keeps_ite (fun _ => ?_) (fun _ => ?_) | split | dsimp only | with_reducible refine fpFma_keeps (by assumption) ?_ | (injection eK; done) | (injection eK with eK; subst eK))

theorem execFfms_keeps {x : V3} {s : State}  {u0 : State} (eK : execFfms x s = .next u0) (hK : Keeps sK s) : Keeps sK u0 := by
  unfold execFfms at eK
  try dsimp only at eK
  repeat' first | split at eK | (rw [Option.map_eq_some_iff] at eK; obtain ⟨_, _, eK⟩ := eK; try dsimp only at eK) | (rw [Option.bind_eq_some_iff] at eK; obtain ⟨_, _, eK⟩ := eK; try dsimp only at eK)
  all_goals (try first | (injection eK with eK; subst eK) | (injection eK; done) | subst eK)
  all_goals (repeat' first | with_reducible assumption | with_reducible exact Keeps.refl _ | fail_if_no_progress (with_reducible refine keeps_mk ?_) | with_reducible refine keeps_ite (fun _ => ?_) (fun _ => ?_) | split | dsimp only | with_reducible refine fpFma_keeps (by assumption) ?_ | (injection eK; done) | (injection eK with eK; subst eK))

theorem execFnfma_keeps {x : V3} {s : State}  {u0 : State} (eK : execFnfma x s = .next u0) (hK : Keeps sK s) : Keeps sK u0 := by
  unfold execFnfma at eK
  try dsimp only at eK
  repeat' first | split at eK | (rw [Option.map_eq_some_iff] at eK; obtain ⟨_, _, eK⟩ := eK; try dsimp only at eK) | (rw [Option.bind_eq_some_iff] at eK; obtain ⟨_, _, eK⟩ := eK; try dsimp only at eK)
  all_goals (try first | (injection eK with eK; subst eK) | (injection eK; done) | subst eK)
  all_goals (repeat' first | with_reducible assumption | with_reducible exact Keeps.refl _ | fail_if_no_progress (with_reducible refine keeps_mk ?_) | with_reducible refine keeps_ite (fun _ => ?_) (fun _ => ?_) | split | dsimp only | with_reducible refine fpFma_keeps (by assumption) ?_ | (injection eK; done) | (injection eK with eK; subst eK))

theorem execFdiv_keeps {x : V3} {s : State}  {u0 : State} (eK : execFdiv x s = .next u0) (hK : Keeps sK s) : Keeps sK u0 := by
  unfold execFdiv at eK
  try dsimp only at eK
  repeat' first | split at eK | (rw [Option.map_eq_some_iff] at eK; obtain ⟨_, _, eK⟩ := eK; try dsimp only at eK) | (rw [Option.bind_eq_some_iff] at eK; obtain ⟨_, _, eK⟩ := eK; try dsimp only at eK)
  all_goals (try first | (injection eK with eK; subst eK) | (injection eK; done) | subst eK)
  all_goals (repeat' first | with_reducible assumption | with_reducible exact Keeps.refl _ | fail_if_no_progress (with_reducible refine keeps_mk ?_) | with_reducible refine keeps_ite (fun _ => ?_) (fun _ => ?_) | split | dsimp only | with_reducible refine fpBin_keeps (by assumption) ?_ | (injection eK; done) | (injection eK with eK; subst eK))

theorem execFsqrt_keeps {x : V3} {s : State}  {u0 : State} (eK : execFsqrt x s = .next u0) (hK : Keeps sK s) : Keeps sK u0 := by
  unfold execFsqrt at eK
  try dsimp only at eK
  repeat' first | split at eK | (rw [Option.map_eq_some_iff] at eK; obtain ⟨_, _, eK⟩ := eK; try dsimp only at eK) | (rw [Option.bind_eq_some_iff] at eK; obtain ⟨_, _, eK⟩ := eK; try dsimp only at eK)
  all_goals (try first | (injection eK with eK; subst eK) | (injection eK; done) | subst eK)
  all_goals (repeat' first | with_reducible assumption | with_reducible exact Keeps.refl _ | fail_if_no_progress (with_reducible refine keeps_mk ?_) | with_reducible refine keeps_ite (fun _ => ?_) (fun _ => ?_) | split | dsimp only | with_reducible refine fpUn_keeps (by assumption) ?_ | (injection eK; done) | (injection eK with eK; subst eK))

theorem execFrcp_keeps {x : V3} {s : State}  {u0 : State} (eK : execFrcp x s = .next u0) (hK : Keeps sK s) : Keeps sK u0 := by
  unfold execFrcp at eK
  try dsimp only at eK
  repeat' first | split at eK | (rw [Option.map_eq_some_iff] at eK; obtain ⟨_, _, eK⟩ := eK; try dsimp only at eK) | (rw [Option.bind_eq_some_iff] at eK; obtain ⟨_, _, eK⟩ := eK; try dsimp only at eK)
  all_goals (try first | (injection eK with eK; subst eK) | (injection eK; done) | subst eK)
  all_goals (repeat' first | with_reducible assumption | with_reducible exact Keeps.refl _ | fail_if_no_progress (with_reducible refine keeps_mk ?_) | with_reducible refine keeps_ite (fun _ => ?_) (fun _ => ?_) | split | dsimp only | with_reducible refine fpUn_keeps (by assumption) ?_ | (injection eK; done) | (injection eK with eK; subst eK))

theorem execFrsq_keeps {x : V3} {s : State}  {u0 : State} (eK : execFrsq x s = .next u0) (hK : Keeps sK s) : Keeps sK u0 := by
  unfold execFrsq at eK
  try dsimp only at eK
  repeat' first | split at eK | (rw [Option.map_eq_some_iff] at eK; obtain ⟨_, _, eK⟩ := eK; try dsimp only at eK) | (rw [Option.bind_eq_some_iff] at eK; obtain ⟨_, _, eK⟩ := eK; try dsimp only at eK)
  all_goals (try first | (injection eK with eK; subst eK) | (injection eK; done) | subst eK)
  all_goals (repeat' first | with_reducible assumption | with_reducible exact Keeps.refl _ | fail_if_no_progress (with_reducible refine keeps_mk ?_) | with_reducible refine keeps_ite (fun _ => ?_) (fun _ => ?_) | split | dsimp only | with_reducible refine fpUn_keeps (by assumption) ?_ | (injection eK; done) | (injection eK with eK; subst eK))

theorem execFexp2_keeps {x : V3} {s : State}  {u0 : State} (eK : execFexp2 x s = .next u0) (hK : Keeps sK s) : Keeps sK u0 := by
  unfold execFexp2 at eK
  try dsimp only at eK
  repeat' first | split at eK | (rw [Option.map_eq_some_iff] at eK; obtain ⟨_, _, eK⟩ := eK; try dsimp only at eK) | (rw [Option.bind_eq_some_iff] at eK; obtain ⟨_, _, eK⟩ := eK; try dsimp only at eK)
  all_goals (try first | (injection eK with eK; subst eK) | (injection eK; done) | subst eK)
  all_goals (repeat' first | with_reducible assumption | with_reducible exact Keeps.refl _ | fail_if_no_progress (with_reducible refine keeps_mk ?_) | with_reducible refine keeps_ite (fun _ => ?_) (fun _ => ?_) | split | dsimp only | with_reducible refine fpUn_keeps (by assumption) ?_ | (injection eK; done) | (injection eK with eK; subst eK))

theorem execFlog2_keeps {x : V3} {s : State}  {u0 : State} (eK : execFlog2 x s = .next u0) (hK : Keeps sK s) : Keeps sK u0 := by
  unfold execFlog2 at eK
  try dsimp only at eK
  repeat' first | split at eK | (rw [Option.map_eq_some_iff] at eK; obtain ⟨_, _, eK⟩ := eK; try dsimp only at eK) | (rw [Option.bind_eq_some_iff] at eK; obtain ⟨_, _, eK⟩ := eK; try dsimp only at eK)
  all_goals (try first | (injection eK with eK; subst eK) | (injection eK; done) | subst eK)
  all_goals (repeat' first | with_reducible assumption | with_reducible exact Keeps.refl _ | fail_if_no_progress (with_reducible refine keeps_mk ?_) | with_reducible refine keeps_ite (fun _ => ?_) (fun _ => ?_) | split | dsimp only | with_reducible refine fpUn_keeps (by assumption) ?_ | (injection eK; done) | (injection eK with eK; subst eK))

theorem execFsinpi_keeps {x : V3} {s : State}  {u0 : State} (eK : execFsinpi x s = .next u0) (hK : Keeps sK s) : Keeps sK u0 := by
  unfold execFsinpi at eK
  try dsimp only at eK
  repeat' first | split at eK | (rw [Option.map_eq_some_iff] at eK; obtain ⟨_, _, eK⟩ := eK; try dsimp only at eK) | (rw [Option.bind_eq_some_iff] at eK; obtain ⟨_, _, eK⟩ := eK; try dsimp only at eK)
  all_goals (try first | (injection eK with eK; subst eK) | (injection eK; done) | subst eK)
  all_goals (repeat' first | with_reducible assumption | with_reducible exact Keeps.refl _ | fail_if_no_progress (with_reducible refine keeps_mk ?_) | with_reducible refine keeps_ite (fun _ => ?_) (fun _ => ?_) | split | dsimp only | with_reducible refine fpUn_keeps (by assumption) ?_ | (injection eK; done) | (injection eK with eK; subst eK))

theorem execFcospi_keeps {x : V3} {s : State}  {u0 : State} (eK : execFcospi x s = .next u0) (hK : Keeps sK s) : Keeps sK u0 := by
  unfold execFcospi at eK
  try dsimp only at eK
  repeat' first | split at eK | (rw [Option.map_eq_some_iff] at eK; obtain ⟨_, _, eK⟩ := eK; try dsimp only at eK) | (rw [Option.bind_eq_some_iff] at eK; obtain ⟨_, _, eK⟩ := eK; try dsimp only at eK)
  all_goals (try first | (injection eK with eK; subst eK) | (injection eK; done) | subst eK)
  all_goals (repeat' first | with_reducible assumption | with_reducible exact Keeps.refl _ | fail_if_no_progress (with_reducible refine keeps_mk ?_) | with_reducible refine keeps_ite (fun _ => ?_) (fun _ => ?_) | split | dsimp only | with_reducible refine fpUn_keeps (by assumption) ?_ | (injection eK; done) | (injection eK with eK; subst eK))

theorem fpIntegral_keeps {x : V3} {mode : Ctx → Nat} {s : State}  {u0 : State} (eK : fpIntegral x mode s = .next u0) (hK : Keeps sK s) : Keeps sK u0 := by
  unfold fpIntegral at eK
  try dsimp only at eK
  repeat' first | split at eK | (rw [Option.map_eq_some_iff] at eK; obtain ⟨_, _, eK⟩ := eK; try dsimp only at eK) | (rw [Option.bind_eq_some_iff] at eK; obtain ⟨_, _, eK⟩ := eK; try dsimp only at eK)
  all_goals (try first | (injection eK with eK; subst eK) | (injection eK; done) | subst eK)
  all_goals (repeat' first | with_reducible assumption | with_reducible exact Keeps.refl _ | fail_if_no_progress (with_reducible refine keeps_mk ?_) | with_reducible refine keeps_ite (fun _ => ?_) (fun _ => ?_) | split | dsimp only | with_reducible refine fp1_keeps (by assumption) ?_ | (injection eK; done) | (injection eK with eK; subst eK))

theorem execFfloor_keeps {x : V3} {s : State}  {u0 : State} (eK : execFfloor x s = .next u0) (hK : Keeps sK s) : Keeps sK u0 := by
  unfold execFfloor at eK
  try dsimp only at eK
  repeat' first | split at eK | (rw [Option.map_eq_some_iff] at eK; obtain ⟨_, _, eK⟩ := eK; try dsimp only at eK) | (rw [Option.bind_eq_some_iff] at eK; obtain ⟨_, _, eK⟩ := eK; try dsimp only at eK)
  all_goals (try first | (injection eK with eK; subst eK) | (injection eK; done) | subst eK)
  all_goals (repeat' first | with_reducible assumption | with_reducible exact Keeps.refl _ | fail_if_no_progress (with_reducible refine keeps_mk ?_) | with_reducible refine keeps_ite (fun _ => ?_) (fun _ => ?_) | split | dsimp only | with_reducible refine fpIntegral_keeps (by assumption) ?_ | (injection eK; done) | (injection eK with eK; subst eK))

theorem execFceil_keeps {x : V3} {s : State}  {u0 : State} (eK : execFceil x s = .next u0) (hK : Keeps sK s) : Keeps sK u0 := by
  unfold execFceil at eK
  try dsimp only at eK
  repeat' first | split at eK | (rw [Option.map_eq_some_iff] at eK; obtain ⟨_, _, eK⟩ := eK; try dsimp only at eK) | (rw [Option.bind_eq_some_iff] at eK; obtain ⟨_, _, eK⟩ := eK; try dsimp only at eK)
  all_goals (try first | (injection eK with eK; subst eK) | (injection eK; done) | subst eK)
  all_goals (repeat' first | with_reducible assumption | with_reducible exact Keeps.refl _ | fail_if_no_progress (with_reducible refine keeps_mk ?_) | with_reducible refine keeps_ite (fun _ => ?_) (fun _ => ?_) | split | dsimp only | with_reducible refine fpIntegral_keeps (by assumption) ?_ | (injection eK; done) | (injection eK with eK; subst eK))

theorem execFtrunc_keeps {x : V3} {s : State}  {u0 : State} (eK : execFtrunc x s = .next u0) (hK : Keeps sK s) : Keeps sK u0 := by
  unfold execFtrunc at eK
  try dsimp only at eK
  repeat' first | split at eK | (rw [Option.map_eq_some_iff] at eK; obtain ⟨_, _, eK⟩ := eK; try dsimp only at eK) | (rw [Option.bind_eq_some_iff] at eK; obtain ⟨_, _, eK⟩ := eK; try dsimp only at eK)
  all_goals (try first | (injection eK with eK; subst eK) | (injection eK; done) | subst eK)
  all_goals (repeat' first | with_reducible assumption | with_reducible exact Keeps.refl _ | fail_if_no_progress (with_reducible refine keeps_mk ?_) | with_reducible refine keeps_ite (fun _ => ?_) (fun _ => ?_) | split | dsimp only | with_reducible refine fpIntegral_keeps (by assumption) ?_ | (injection eK; done) | (injection eK with eK; subst eK))

theorem execFrint_keeps {x : V3} {s : State}  {u0 : State} (eK : execFrint x s = .next u0) (hK : Keeps sK s) : Keeps sK u0 := by
  unfold execFrint at eK
  try dsimp only at eK
  repeat' first | split at eK | (rw [Option.map_eq_some_iff] at eK; obtain ⟨_, _, eK⟩ := eK; try dsimp only at eK) | (rw [Option.bind_eq_some_iff] at eK; obtain ⟨_, _, eK⟩ := eK; try dsimp only at eK)
  all_goals (try first | (injection eK with eK; subst eK) | (injection eK; done) | subst eK)
  all_goals (repeat' first | with_reducible assumption | with_reducible exact Keeps.refl _ | fail_if_no_progress (with_reducible refine keeps_mk ?_) | with_reducible refine keeps_ite (fun _ => ?_) (fun _ => ?_) | split | dsimp only | with_reducible refine fpIntegral_keeps (by assumption) ?_ | (injection eK; done) | (injection eK with eK; subst eK))

theorem execFfract_keeps {x : V3} {s : State}  {u0 : State} (eK : execFfract x s = .next u0) (hK : Keeps sK s) : Keeps sK u0 := by
  unfold execFfract at eK
  try dsimp only at eK
  repeat' first | split at eK | (rw [Option.map_eq_some_iff] at eK; obtain ⟨_, _, eK⟩ := eK; try dsimp only at eK) | (rw [Option.bind_eq_some_iff] at eK; obtain ⟨_, _, eK⟩ := eK; try dsimp only at eK)
  all_goals (try first | (injection eK with eK; subst eK) | (injection eK; done) | subst eK)
  all_goals (repeat' first | with_reducible assumption | with_reducible exact Keeps.refl _ | fail_if_no_progress (with_reducible refine keeps_mk ?_) | with_reducible refine keeps_ite (fun _ => ?_) (fun _ => ?_) | split | dsimp only | with_reducible refine fpUn_keeps (by assumption) ?_ | (injection eK; done) | (injection eK with eK; subst eK))

theorem fp4_keeps {h : Shape} {slots : List Nat} {f : Ctx → Nat → Nat → FRes} {s : State}  {u0 : State} (eK : fp4 h slots f s = .next u0) (hK : Keeps sK s) : Keeps sK u0 := by
  unfold fp4 at eK
  try dsimp only at eK
  refine fpPerform_keeps (fun s hK => ?_) eK hK
  try dsimp only
  repeat' first | with_reducible assumption | with_reducible exact Keeps.refl _ | with_reducible refine writeFpN_keeps ?_ | fail_if_no_progress (with_reducible refine keeps_mk ?_) | intro _ hk | with_reducible refine keeps_ite (fun _ => ?_) (fun _ => ?_) | split | dsimp only

theorem quadBin_keeps {x : V3} {f : Nat → Fop → Fop → FRes} {s : State}  {u0 : State} (eK : quadBin x f s = .next u0) (hK : Keeps sK s) : Keeps sK u0 := by
  unfold quadBin at eK
  try dsimp only at eK
  repeat' first | split at eK | (rw [Option.map_eq_some_iff] at eK; obtain ⟨_, _, eK⟩ := eK; try dsimp only at eK) | (rw [Option.bind_eq_some_iff] at eK; obtain ⟨_, _, eK⟩ := eK; try dsimp only at eK)
  all_goals (try first | (injection eK with eK; subst eK) | (injection eK; done) | subst eK)
  all_goals (repeat' first | with_reducible assumption | with_reducible exact Keeps.refl _ | fail_if_no_progress (with_reducible refine keeps_mk ?_) | with_reducible refine keeps_ite (fun _ => ?_) (fun _ => ?_) | split | dsimp only | with_reducible refine fp4_keeps (by assumption) ?_ | (injection eK; done) | (injection eK with eK; subst eK))

theorem quadFma_keeps {x : V3} {sub : Bool} {s : State}  {u0 : State} (eK : quadFma x sub s = .next u0) (hK : Keeps sK s) : Keeps sK u0 := by
  unfold quadFma at eK
  try dsimp only at eK
  repeat' first | split at eK | (rw [Option.map_eq_some_iff] at eK; obtain ⟨_, _, eK⟩ := eK; try dsimp only at eK) | (rw [Option.bind_eq_some_iff] at eK; obtain ⟨_, _, eK⟩ := eK; try dsimp only at eK)
  all_goals (try first | (injection eK with eK; subst eK) | (injection eK; done) | subst eK)
  all_goals (repeat' first | with_reducible assumption | with_reducible exact Keeps.refl _ | fail_if_no_progress (with_reducible refine keeps_mk ?_) | with_reducible refine keeps_ite (fun _ => ?_) (fun _ => ?_) | split | dsimp only | with_reducible refine fp4_keeps (by assumption) ?_ | (injection eK; done) | (injection eK with eK; subst eK))

theorem quadSel_keeps {x : V3} {greater : Bool} {s : State}  {u0 : State} (eK : quadSel x greater s = .next u0) (hK : Keeps sK s) : Keeps sK u0 := by
  unfold quadSel at eK
  try dsimp only at eK
  repeat' first | split at eK | (rw [Option.map_eq_some_iff] at eK; obtain ⟨_, _, eK⟩ := eK; try dsimp only at eK) | (rw [Option.bind_eq_some_iff] at eK; obtain ⟨_, _, eK⟩ := eK; try dsimp only at eK)
  all_goals (try first | (injection eK with eK; subst eK) | (injection eK; done) | subst eK)
  all_goals (repeat' first | with_reducible assumption | with_reducible exact Keeps.refl _ | fail_if_no_progress (with_reducible refine keeps_mk ?_) | with_reducible refine keeps_ite (fun _ => ?_) (fun _ => ?_) | split | dsimp only | with_reducible refine fp4_keeps (by assumption) ?_ | (injection eK; done) | (injection eK with eK; subst eK))

theorem execF4add_keeps {x : V3} {s : State}  {u0 : State} (eK : execF4add x s = .next u0) (hK : Keeps sK s) : Keeps sK u0 := by
  unfold execF4add at eK
  try dsimp only at eK
  repeat' first | split at eK | (rw [Option.map_eq_some_iff] at eK; obtain ⟨_, _, eK⟩ := eK; try dsimp only at eK) | (rw [Option.bind_eq_some_iff] at eK; obtain ⟨_, _, eK⟩ := eK; try dsimp only at eK)
  all_goals (try first | (injection eK with eK; subst eK) | (injection eK; done) | subst eK)
  all_goals (repeat' first | with_reducible assumption | with_reducible exact Keeps.refl _ | fail_if_no_progress (with_reducible refine keeps_mk ?_) | with_reducible refine keeps_ite (fun _ => ?_) (fun _ => ?_) | split | dsimp only | with_reducible refine quadBin_keeps (by assumption) ?_ | (injection eK; done) | (injection eK with eK; subst eK))

theorem execF4sub_keeps {x : V3} {s : State}  {u0 : State} (eK : execF4sub x s = .next u0) (hK : Keeps sK s) : Keeps sK u0 := by
  unfold execF4sub at eK
  try dsimp only at eK
  repeat' first | split at eK | (rw [Option.map_eq_some_iff] at eK; obtain ⟨_, _, eK⟩ := eK; try dsimp only at eK) | (rw [Option.bind_eq_some_iff] at eK; obtain ⟨_, _, eK⟩ := eK; try dsimp only at eK)
  all_goals (try first | (injection eK with eK; subst eK) | (injection eK; done) | subst eK)
  all_goals (repeat' first | with_reducible assumption | with_reducible exact Keeps.refl _ | fail_if_no_progress (with_reducible refine keeps_mk ?_) | with_reducible refine keeps_ite (fun _ => ?_) (fun _ => ?_) | split | dsimp only | with_reducible refine quadBin_keeps (by assumption) ?_ | (injection eK; done) | (injection eK with eK; subst eK))

theorem execF4mul_keeps {x : V3} {s : State}  {u0 : State} (eK : execF4mul x s = .next u0) (hK : Keeps sK s) : Keeps sK u0 := by
  unfold execF4mul at eK
  try dsimp only at eK
  repeat' first | split at eK | (rw [Option.map_eq_some_iff] at eK; obtain ⟨_, _, eK⟩ := eK; try dsimp only at eK) | (rw [Option.bind_eq_some_iff] at eK; obtain ⟨_, _, eK⟩ := eK; try dsimp only at eK)
  all_goals (try first | (injection eK with eK; subst eK) | (injection eK; done) | subst eK)
  all_goals (repeat' first | with_reducible assumption | with_reducible exact Keeps.refl _ | fail_if_no_progress (with_reducible refine keeps_mk ?_) | with_reducible refine keeps_ite (fun _ => ?_) (fun _ => ?_) | split | dsimp only | with_reducible refine quadBin_keeps (by assumption) ?_ | (injection eK; done) | (injection eK with eK; subst eK))

theorem execF4fma_keeps {x : V3} {s : State}  {u0 : State} (eK : execF4fma x s = .next u0) (hK : Keeps sK s) : Keeps sK u0 := by
  unfold execF4fma at eK
  try dsimp only at eK
  repeat' first | split at eK | (rw [Option.map_eq_some_iff] at eK; obtain ⟨_, _, eK⟩ := eK; try dsimp only at eK) | (rw [Option.bind_eq_some_iff] at eK; obtain ⟨_, _, eK⟩ := eK; try dsimp only at eK)
  all_goals (try first | (injection eK with eK; subst eK) | (injection eK; done) | subst eK)
  all_goals (repeat' first | with_reducible assumption | with_reducible exact Keeps.refl _ | fail_if_no_progress (with_reducible refine keeps_mk ?_) | with_reducible refine keeps_ite (fun _ => ?_) (fun _ => ?_) | split | dsimp only | with_reducible refine quadFma_keeps (by assumption) ?_ | (injection eK; done) | (injection eK with eK; subst eK))

theorem execF4fms_keeps {x : V3} {s : State}  {u0 : State} (eK : execF4fms x s = .next u0) (hK : Keeps sK s) : Keeps sK u0 := by
  unfold execF4fms at eK
  try dsimp only at eK
  repeat' first | split at eK | (rw [Option.map_eq_some_iff] at eK; obtain ⟨_, _, eK⟩ := eK; try dsimp only at eK) | (rw [Option.bind_eq_some_iff] at eK; obtain ⟨_, _, eK⟩ := eK; try dsimp only at eK)
  all_goals (try first | (injection eK with eK; subst eK) | (injection eK; done) | subst eK)
  all_goals (repeat' first | with_reducible assumption | with_reducible exact Keeps.refl _ | fail_if_no_progress (with_reducible refine keeps_mk ?_) | with_reducible refine keeps_ite (fun _ => ?_) (fun _ => ?_) | split | dsimp only | with_reducible refine quadFma_keeps (by assumption) ?_ | (injection eK; done) | (injection eK with eK; subst eK))

theorem execF4min_keeps {x : V3} {s : State}  {u0 : State} (eK : execF4min x s = .next u0) (hK : Keeps sK s) : Keeps sK u0 := by
  unfold execF4min at eK
  try dsimp only at eK
  repeat' first | split at eK | (rw [Option.map_eq_some_iff] at eK; obtain ⟨_, _, eK⟩ := eK; try dsimp only at eK) | (rw [Option.bind_eq_some_iff] at eK; obtain ⟨_, _, eK⟩ := eK; try dsimp only at eK)
  all_goals (try first | (injection eK with eK; subst eK) | (injection eK; done) | subst eK)
  all_goals (repeat' first | with_reducible assumption | with_reducible exact Keeps.refl _ | fail_if_no_progress (with_reducible refine keeps_mk ?_) | with_reducible refine keeps_ite (fun _ => ?_) (fun _ => ?_) | split | dsimp only | with_reducible refine quadSel_keeps (by assumption) ?_ | (injection eK; done) | (injection eK with eK; subst eK))

theorem execF4max_keeps {x : V3} {s : State}  {u0 : State} (eK : execF4max x s = .next u0) (hK : Keeps sK s) : Keeps sK u0 := by
  unfold execF4max at eK
  try dsimp only at eK
  repeat' first | split at eK | (rw [Option.map_eq_some_iff] at eK; obtain ⟨_, _, eK⟩ := eK; try dsimp only at eK) | (rw [Option.bind_eq_some_iff] at eK; obtain ⟨_, _, eK⟩ := eK; try dsimp only at eK)
  all_goals (try first | (injection eK with eK; subst eK) | (injection eK; done) | subst eK)
  all_goals (repeat' first | with_reducible assumption | with_reducible exact Keeps.refl _ | fail_if_no_progress (with_reducible refine keeps_mk ?_) | with_reducible refine keeps_ite (fun _ => ?_) (fun _ => ?_) | split | dsimp only | with_reducible refine quadSel_keeps (by assumption) ?_ | (injection eK; done) | (injection eK with eK; subst eK))

theorem fp64_keeps {h : Shape} {slots : List Nat} {f : Ctx → Nat → FRes} {s : State}  {u0 : State} (eK : fp64 h slots f s = .next u0) (hK : Keeps sK s) : Keeps sK u0 := by
  unfold fp64 at eK
  try dsimp only at eK
  refine fpPerform_keeps (fun s hK => ?_) eK hK
  try dsimp only
  repeat' first | with_reducible assumption | with_reducible exact Keeps.refl _ | with_reducible refine writeFp64_keeps ?_ | fail_if_no_progress (with_reducible refine keeps_mk ?_) | intro _ hk | with_reducible refine keeps_ite (fun _ => ?_) (fun _ => ?_) | split | dsimp only

theorem pairBin_keeps {x : V3} {f : Nat → Fop → Fop → FRes} {s : State}  {u0 : State} (eK : pairBin x f s = .next u0) (hK : Keeps sK s) : Keeps sK u0 := by
  unfold pairBin at eK
  try dsimp only at eK
  repeat' first | split at eK | (rw [Option.map_eq_some_iff] at eK; obtain ⟨_, _, eK⟩ := eK; try dsimp only at eK) | (rw [Option.bind_eq_some_iff] at eK; obtain ⟨_, _, eK⟩ := eK; try dsimp only at eK)
  all_goals (try first | (injection eK with eK; subst eK) | (injection eK; done) | subst eK)
  all_goals (repeat' first | with_reducible assumption | with_reducible exact Keeps.refl _ | fail_if_no_progress (with_reducible refine keeps_mk ?_) | with_reducible refine keeps_ite (fun _ => ?_) (fun _ => ?_) | split | dsimp only | with_reducible refine fp64_keeps (by assumption) ?_ | (injection eK; done) | (injection eK with eK; subst eK))

theorem pairSel_keeps {x : V3} {greater : Bool} {s : State}  {u0 : State} (eK : pairSel x greater s = .next u0) (hK : Keeps sK s) : Keeps sK u0 := by
  unfold pairSel at eK
  try dsimp only at eK
  repeat' first | split at eK | (rw [Option.map_eq_some_iff] at eK; obtain ⟨_, _, eK⟩ := eK; try dsimp only at eK) | (rw [Option.bind_eq_some_iff] at eK; obtain ⟨_, _, eK⟩ := eK; try dsimp only at eK)
  all_goals (try first | (injection eK with eK; subst eK) | (injection eK; done) | subst eK)
  all_goals (repeat' first | with_reducible assumption | with_reducible exact Keeps.refl _ | fail_if_no_progress (with_reducible refine keeps_mk ?_) | with_reducible refine keeps_ite (fun _ => ?_) (fun _ => ?_) | split | dsimp only | with_reducible refine fp64_keeps (by assumption) ?_ | (injection eK; done) | (injection eK with eK; subst eK))

theorem execDadd_keeps {x : V3} {s : State}  {u0 : State} (eK : execDadd x s = .next u0) (hK : Keeps sK s) : Keeps sK u0 := by
  unfold execDadd at eK
  try dsimp only at eK
  repeat' first | split at eK | (rw [Option.map_eq_some_iff] at eK; obtain ⟨_, _, eK⟩ := eK; try dsimp only at eK) | (rw [Option.bind_eq_some_iff] at eK; obtain ⟨_, _, eK⟩ := eK; try dsimp only at eK)
  all_goals (try first | (injection eK with eK; subst eK) | (injection eK; done) | subst eK)
  all_goals (repeat' first | with_reducible assumption | with_reducible exact Keeps.refl _ | fail_if_no_progress (with_reducible refine keeps_mk ?_) | with_reducible refine keeps_ite (fun _ => ?_) (fun _ => ?_) | split | dsimp only | with_reducible refine pairBin_keeps (by assumption) ?_ | (injection eK; done) | (injection eK with eK; subst eK))

theorem execDsub_keeps {x : V3} {s : State}  {u0 : State} (eK : execDsub x s = .next u0) (hK : Keeps sK s) : Keeps sK u0 := by
  unfold execDsub at eK
  try dsimp only at eK
  repeat' first | split at eK | (rw [Option.map_eq_some_iff] at eK; obtain ⟨_, _, eK⟩ := eK; try dsimp only at eK) | (rw [Option.bind_eq_some_iff] at eK; obtain ⟨_, _, eK⟩ := eK; try dsimp only at eK)
  all_goals (try first | (injection eK with eK; subst eK) | (injection eK; done) | subst eK)
  all_goals (repeat' first | with_reducible assumption | with_reducible exact Keeps.refl _ | fail_if_no_progress (with_reducible refine keeps_mk ?_) | with_reducible refine keeps_ite (fun _ => ?_) (fun _ => ?_) | split | dsimp only | with_reducible refine pairBin_keeps (by assumption) ?_ | (injection eK; done) | (injection eK with eK; subst eK))

theorem execDmul_keeps {x : V3} {s : State}  {u0 : State} (eK : execDmul x s = .next u0) (hK : Keeps sK s) : Keeps sK u0 := by
  unfold execDmul at eK
  try dsimp only at eK
  repeat' first | split at eK | (rw [Option.map_eq_some_iff] at eK; obtain ⟨_, _, eK⟩ := eK; try dsimp only at eK) | (rw [Option.bind_eq_some_iff] at eK; obtain ⟨_, _, eK⟩ := eK; try dsimp only at eK)
  all_goals (try first | (injection eK with eK; subst eK) | (injection eK; done) | subst eK)
  all_goals (repeat' first | with_reducible assumption | with_reducible exact Keeps.refl _ | fail_if_no_progress (with_reducible refine keeps_mk ?_) | with_reducible refine keeps_ite (fun _ => ?_) (fun _ => ?_) | split | dsimp only | with_reducible refine pairBin_keeps (by assumption) ?_ | (injection eK; done) | (injection eK with eK; subst eK))

theorem execDfma_keeps {x : V3} {s : State}  {u0 : State} (eK : execDfma x s = .next u0) (hK : Keeps sK s) : Keeps sK u0 := by
  unfold execDfma at eK
  try dsimp only at eK
  repeat' first | split at eK | (rw [Option.map_eq_some_iff] at eK; obtain ⟨_, _, eK⟩ := eK; try dsimp only at eK) | (rw [Option.bind_eq_some_iff] at eK; obtain ⟨_, _, eK⟩ := eK; try dsimp only at eK)
  all_goals (try first | (injection eK with eK; subst eK) | (injection eK; done) | subst eK)
  all_goals (repeat' first | with_reducible assumption | with_reducible exact Keeps.refl _ | fail_if_no_progress (with_reducible refine keeps_mk ?_) | with_reducible refine keeps_ite (fun _ => ?_) (fun _ => ?_) | split | dsimp only | with_reducible refine fp64_keeps (by assumption) ?_ | (injection eK; done) | (injection eK with eK; subst eK))

theorem execDdiv_keeps {x : V3} {s : State}  {u0 : State} (eK : execDdiv x s = .next u0) (hK : Keeps sK s) : Keeps sK u0 := by
  unfold execDdiv at eK
  try dsimp only at eK
  repeat' first | split at eK | (rw [Option.map_eq_some_iff] at eK; obtain ⟨_, _, eK⟩ := eK; try dsimp only at eK) | (rw [Option.bind_eq_some_iff] at eK; obtain ⟨_, _, eK⟩ := eK; try dsimp only at eK)
  all_goals (try first | (injection eK with eK; subst eK) | (injection eK; done) | subst eK)
  all_goals (repeat' first | with_reducible assumption | with_reducible exact Keeps.refl _ | fail_if_no_progress (with_reducible refine keeps_mk ?_) | with_reducible refine keeps_ite (fun _ => ?_) (fun _ => ?_) | split | dsimp only | with_reducible refine pairBin_keeps (by assumption) ?_ | (injection eK; done) | (injection eK with eK; subst eK))

theorem execDsqrt_keeps {x : V3} {s : State}  {u0 : State} (eK : execDsqrt x s = .next u0) (hK : Keeps sK s) : Keeps sK u0 := by
  unfold execDsqrt at eK
  try dsimp only at eK
  repeat' first | split at eK | (rw [Option.map_eq_some_iff] at eK; obtain ⟨_, _, eK⟩ := eK; try dsimp only at eK) | (rw [Option.bind_eq_some_iff] at eK; obtain ⟨_, _, eK⟩ := eK; try dsimp only at eK)
  all_goals (try first | (injection eK with eK; subst eK) | (injection eK; done) | subst eK)
  all_goals (repeat' first | with_reducible assumption | with_reducible exact Keeps.refl _ | fail_if_no_progress (with_reducible refine keeps_mk ?_) | with_reducible refine keeps_ite (fun _ => ?_) (fun _ => ?_) | split | dsimp only | with_reducible refine fp64_keeps (by assumption) ?_ | (injection eK; done) | (injection eK with eK; subst eK))

theorem execDmin_keeps {x : V3} {s : State}  {u0 : State} (eK : execDmin x s = .next u0) (hK : Keeps sK s) : Keeps sK u0 := by
  unfold execDmin at eK
  try dsimp only at eK
  repeat' first | split at eK | (rw [Option.map_eq_some_iff] at eK; obtain ⟨_, _, eK⟩ := eK; try dsimp only at eK) | (rw [Option.bind_eq_some_iff] at eK; obtain ⟨_, _, eK⟩ := eK; try dsimp only at eK)
  all_goals (try first | (injection eK with eK; subst eK) | (injection eK; done) | subst eK)
  all_goals (repeat' first | with_reducible assumption | with_reducible exact Keeps.refl _ | fail_if_no_progress (with_reducible refine keeps_mk ?_) | with_reducible refine keeps_ite (fun _ => ?_) (fun _ => ?_) | split | dsimp only | with_reducible refine pairSel_keeps (by assumption) ?_ | (injection eK; done) | (injection eK with eK; subst eK))

theorem execDmax_keeps {x : V3} {s : State}  {u0 : State} (eK : execDmax x s = .next u0) (hK : Keeps sK s) : Keeps sK u0 := by
  unfold execDmax at eK
  try dsimp only at eK
  repeat' first | split at eK | (rw [Option.map_eq_some_iff] at eK; obtain ⟨_, _, eK⟩ := eK; try dsimp only at eK) | (rw [Option.bind_eq_some_iff] at eK; obtain ⟨_, _, eK⟩ := eK; try dsimp only at eK)
  all_goals (try first | (injection eK with eK; subst eK) | (injection eK; done) | subst eK)
  all_goals (repeat' first | with_reducible assumption | with_reducible exact Keeps.refl _ | fail_if_no_progress (with_reducible refine keeps_mk ?_) | with_reducible refine keeps_ite (fun _ => ?_) (fun _ => ?_) | split | dsimp only | with_reducible refine pairSel_keeps (by assumption) ?_ | (injection eK; done) | (injection eK with eK; subst eK))

theorem packed_keeps {n : Nat} {h : Shape} {f : Ctx → Nat → Nat → Nat × FFlags} {s : State}  {u0 : State} (eK : packed n h f s = .next u0) (hK : Keeps sK s) : Keeps sK u0 := by
  unfold packed at eK
  try dsimp only at eK
  refine fpPerform_keeps (fun s hK => ?_) eK hK
  try dsimp only
  repeat' first | with_reducible assumption | with_reducible exact Keeps.refl _ | with_reducible refine writeFp1_keeps ?_ | fail_if_no_progress (with_reducible refine keeps_mk ?_) | intro _ hk | with_reducible refine keeps_ite (fun _ => ?_) (fun _ => ?_) | split | dsimp only

theorem packedBin_keeps {x : V3} {f : Format} {op : Format → Nat → Fval → Fval → Nat × FFlags} {s : State}  {u0 : State} (eK : packedBin x f op s = .next u0) (hK : Keeps sK s) : Keeps sK u0 := by
  unfold packedBin at eK
  try dsimp only at eK
  repeat' first | split at eK | (rw [Option.map_eq_some_iff] at eK; obtain ⟨_, _, eK⟩ := eK; try dsimp only at eK) | (rw [Option.bind_eq_some_iff] at eK; obtain ⟨_, _, eK⟩ := eK; try dsimp only at eK)
  all_goals (try first | (injection eK with eK; subst eK) | (injection eK; done) | subst eK)
  all_goals (repeat' first | with_reducible assumption | with_reducible exact Keeps.refl _ | fail_if_no_progress (with_reducible refine keeps_mk ?_) | with_reducible refine keeps_ite (fun _ => ?_) (fun _ => ?_) | split | dsimp only | with_reducible refine packed_keeps (by assumption) ?_ | (injection eK; done) | (injection eK with eK; subst eK))

theorem packedFma_keeps {x : V3} {f : Format} {s : State}  {u0 : State} (eK : packedFma x f s = .next u0) (hK : Keeps sK s) : Keeps sK u0 := by
  unfold packedFma at eK
  try dsimp only at eK
  repeat' first | split at eK | (rw [Option.map_eq_some_iff] at eK; obtain ⟨_, _, eK⟩ := eK; try dsimp only at eK) | (rw [Option.bind_eq_some_iff] at eK; obtain ⟨_, _, eK⟩ := eK; try dsimp only at eK)
  all_goals (try first | (injection eK with eK; subst eK) | (injection eK; done) | subst eK)
  all_goals (repeat' first | with_reducible assumption | with_reducible exact Keeps.refl _ | fail_if_no_progress (with_reducible refine keeps_mk ?_) | with_reducible refine keeps_ite (fun _ => ?_) (fun _ => ?_) | split | dsimp only | with_reducible refine packed_keeps (by assumption) ?_ | (injection eK; done) | (injection eK with eK; subst eK))

theorem packedMax_keeps {x : V3} {f : Format} {s : State}  {u0 : State} (eK : packedMax x f s = .next u0) (hK : Keeps sK s) : Keeps sK u0 := by
  unfold packedMax at eK
  try dsimp only at eK
  repeat' first | split at eK | (rw [Option.map_eq_some_iff] at eK; obtain ⟨_, _, eK⟩ := eK; try dsimp only at eK) | (rw [Option.bind_eq_some_iff] at eK; obtain ⟨_, _, eK⟩ := eK; try dsimp only at eK)
  all_goals (try first | (injection eK with eK; subst eK) | (injection eK; done) | subst eK)
  all_goals (repeat' first | with_reducible assumption | with_reducible exact Keeps.refl _ | fail_if_no_progress (with_reducible refine keeps_mk ?_) | with_reducible refine keeps_ite (fun _ => ?_) (fun _ => ?_) | split | dsimp only | with_reducible refine packed_keeps (by assumption) ?_ | (injection eK; done) | (injection eK with eK; subst eK))

theorem execHadd2_keeps {x : V3} {s : State}  {u0 : State} (eK : execHadd2 x s = .next u0) (hK : Keeps sK s) : Keeps sK u0 := by
  unfold execHadd2 at eK
  try dsimp only at eK
  repeat' first | split at eK | (rw [Option.map_eq_some_iff] at eK; obtain ⟨_, _, eK⟩ := eK; try dsimp only at eK) | (rw [Option.bind_eq_some_iff] at eK; obtain ⟨_, _, eK⟩ := eK; try dsimp only at eK)
  all_goals (try first | (injection eK with eK; subst eK) | (injection eK; done) | subst eK)
  all_goals (repeat' first | with_reducible assumption | with_reducible exact Keeps.refl _ | fail_if_no_progress (with_reducible refine keeps_mk ?_) | with_reducible refine keeps_ite (fun _ => ?_) (fun _ => ?_) | split | dsimp only | with_reducible refine packedBin_keeps (by assumption) ?_ | (injection eK; done) | (injection eK with eK; subst eK))

theorem execHmul2_keeps {x : V3} {s : State}  {u0 : State} (eK : execHmul2 x s = .next u0) (hK : Keeps sK s) : Keeps sK u0 := by
  unfold execHmul2 at eK
  try dsimp only at eK
  repeat' first | split at eK | (rw [Option.map_eq_some_iff] at eK; obtain ⟨_, _, eK⟩ := eK; try dsimp only at eK) | (rw [Option.bind_eq_some_iff] at eK; obtain ⟨_, _, eK⟩ := eK; try dsimp only at eK)
  all_goals (try first | (injection eK with eK; subst eK) | (injection eK; done) | subst eK)
  all_goals (repeat' first | with_reducible assumption | with_reducible exact Keeps.refl _ | fail_if_no_progress (with_reducible refine keeps_mk ?_) | with_reducible refine keeps_ite (fun _ => ?_) (fun _ => ?_) | split | dsimp only | with_reducible refine packedBin_keeps (by assumption) ?_ | (injection eK; done) | (injection eK with eK; subst eK))

theorem execHfma2_keeps {x : V3} {s : State}  {u0 : State} (eK : execHfma2 x s = .next u0) (hK : Keeps sK s) : Keeps sK u0 := by
  unfold execHfma2 at eK
  try dsimp only at eK
  repeat' first | split at eK | (rw [Option.map_eq_some_iff] at eK; obtain ⟨_, _, eK⟩ := eK; try dsimp only at eK) | (rw [Option.bind_eq_some_iff] at eK; obtain ⟨_, _, eK⟩ := eK; try dsimp only at eK)
  all_goals (try first | (injection eK with eK; subst eK) | (injection eK; done) | subst eK)
  all_goals (repeat' first | with_reducible assumption | with_reducible exact Keeps.refl _ | fail_if_no_progress (with_reducible refine keeps_mk ?_) | with_reducible refine keeps_ite (fun _ => ?_) (fun _ => ?_) | split | dsimp only | with_reducible refine packedFma_keeps (by assumption) ?_ | (injection eK; done) | (injection eK with eK; subst eK))

theorem execHmax2_keeps {x : V3} {s : State}  {u0 : State} (eK : execHmax2 x s = .next u0) (hK : Keeps sK s) : Keeps sK u0 := by
  unfold execHmax2 at eK
  try dsimp only at eK
  repeat' first | split at eK | (rw [Option.map_eq_some_iff] at eK; obtain ⟨_, _, eK⟩ := eK; try dsimp only at eK) | (rw [Option.bind_eq_some_iff] at eK; obtain ⟨_, _, eK⟩ := eK; try dsimp only at eK)
  all_goals (try first | (injection eK with eK; subst eK) | (injection eK; done) | subst eK)
  all_goals (repeat' first | with_reducible assumption | with_reducible exact Keeps.refl _ | fail_if_no_progress (with_reducible refine keeps_mk ?_) | with_reducible refine keeps_ite (fun _ => ?_) (fun _ => ?_) | split | dsimp only | with_reducible refine packedMax_keeps (by assumption) ?_ | (injection eK; done) | (injection eK with eK; subst eK))

theorem execBadd2_keeps {x : V3} {s : State}  {u0 : State} (eK : execBadd2 x s = .next u0) (hK : Keeps sK s) : Keeps sK u0 := by
  unfold execBadd2 at eK
  try dsimp only at eK
  repeat' first | split at eK | (rw [Option.map_eq_some_iff] at eK; obtain ⟨_, _, eK⟩ := eK; try dsimp only at eK) | (rw [Option.bind_eq_some_iff] at eK; obtain ⟨_, _, eK⟩ := eK; try dsimp only at eK)
  all_goals (try first | (injection eK with eK; subst eK) | (injection eK; done) | subst eK)
  all_goals (repeat' first | with_reducible assumption | with_reducible exact Keeps.refl _ | fail_if_no_progress (with_reducible refine keeps_mk ?_) | with_reducible refine keeps_ite (fun _ => ?_) (fun _ => ?_) | split | dsimp only | with_reducible refine packedBin_keeps (by assumption) ?_ | (injection eK; done) | (injection eK with eK; subst eK))

theorem execBmul2_keeps {x : V3} {s : State}  {u0 : State} (eK : execBmul2 x s = .next u0) (hK : Keeps sK s) : Keeps sK u0 := by
  unfold execBmul2 at eK
  try dsimp only at eK
  repeat' first | split at eK | (rw [Option.map_eq_some_iff] at eK; obtain ⟨_, _, eK⟩ := eK; try dsimp only at eK) | (rw [Option.bind_eq_some_iff] at eK; obtain ⟨_, _, eK⟩ := eK; try dsimp only at eK)
  all_goals (try first | (injection eK with eK; subst eK) | (injection eK; done) | subst eK)
  all_goals (repeat' first | with_reducible assumption | with_reducible exact Keeps.refl _ | fail_if_no_progress (with_reducible refine keeps_mk ?_) | with_reducible refine keeps_ite (fun _ => ?_) (fun _ => ?_) | split | dsimp only | with_reducible refine packedBin_keeps (by assumption) ?_ | (injection eK; done) | (injection eK with eK; subst eK))

theorem execBfma2_keeps {x : V3} {s : State}  {u0 : State} (eK : execBfma2 x s = .next u0) (hK : Keeps sK s) : Keeps sK u0 := by
  unfold execBfma2 at eK
  try dsimp only at eK
  repeat' first | split at eK | (rw [Option.map_eq_some_iff] at eK; obtain ⟨_, _, eK⟩ := eK; try dsimp only at eK) | (rw [Option.bind_eq_some_iff] at eK; obtain ⟨_, _, eK⟩ := eK; try dsimp only at eK)
  all_goals (try first | (injection eK with eK; subst eK) | (injection eK; done) | subst eK)
  all_goals (repeat' first | with_reducible assumption | with_reducible exact Keeps.refl _ | fail_if_no_progress (with_reducible refine keeps_mk ?_) | with_reducible refine keeps_ite (fun _ => ?_) (fun _ => ?_) | split | dsimp only | with_reducible refine packedFma_keeps (by assumption) ?_ | (injection eK; done) | (injection eK with eK; subst eK))

theorem execBmax2_keeps {x : V3} {s : State}  {u0 : State} (eK : execBmax2 x s = .next u0) (hK : Keeps sK s) : Keeps sK u0 := by
  unfold execBmax2 at eK
  try dsimp only at eK
  repeat' first | split at eK | (rw [Option.map_eq_some_iff] at eK; obtain ⟨_, _, eK⟩ := eK; try dsimp only at eK) | (rw [Option.bind_eq_some_iff] at eK; obtain ⟨_, _, eK⟩ := eK; try dsimp only at eK)
  all_goals (try first | (injection eK with eK; subst eK) | (injection eK; done) | subst eK)
  all_goals (repeat' first | with_reducible assumption | with_reducible exact Keeps.refl _ | fail_if_no_progress (with_reducible refine keeps_mk ?_) | with_reducible refine keeps_ite (fun _ => ?_) (fun _ => ?_) | split | dsimp only | with_reducible refine packedMax_keeps (by assumption) ?_ | (injection eK; done) | (injection eK with eK; subst eK))

theorem convert_keeps {x : V3} {sat : Bool} {s : State}  {u0 : State} (eK : convert x sat s = .next u0) (hK : Keeps sK s) : Keeps sK u0 := by
  unfold convert at eK
  try dsimp only at eK
  refine fpPerform_keeps (fun s hK => ?_) eK hK
  try dsimp only
  repeat' first | with_reducible assumption | with_reducible exact Keeps.refl _ | with_reducible refine writeFp64_keeps ?_ | with_reducible refine writeFp1_keeps ?_ | fail_if_no_progress (with_reducible refine keeps_mk ?_) | intro _ hk | with_reducible refine keeps_ite (fun _ => ?_) (fun _ => ?_) | split | dsimp only

theorem execCvt_keeps {x : V3} {s : State}  {u0 : State} (eK : execCvt x s = .next u0) (hK : Keeps sK s) : Keeps sK u0 := by
  unfold execCvt at eK
  try dsimp only at eK
  repeat' first | split at eK | (rw [Option.map_eq_some_iff] at eK; obtain ⟨_, _, eK⟩ := eK; try dsimp only at eK) | (rw [Option.bind_eq_some_iff] at eK; obtain ⟨_, _, eK⟩ := eK; try dsimp only at eK)
  all_goals (try first | (injection eK with eK; subst eK) | (injection eK; done) | subst eK)
  all_goals (repeat' first | with_reducible assumption | with_reducible exact Keeps.refl _ | fail_if_no_progress (with_reducible refine keeps_mk ?_) | with_reducible refine keeps_ite (fun _ => ?_) (fun _ => ?_) | split | dsimp only | with_reducible refine convert_keeps (by assumption) ?_ | (injection eK; done) | (injection eK with eK; subst eK))

theorem execCvts_keeps {x : V3} {s : State}  {u0 : State} (eK : execCvts x s = .next u0) (hK : Keeps sK s) : Keeps sK u0 := by
  unfold execCvts at eK
  try dsimp only at eK
  repeat' first | split at eK | (rw [Option.map_eq_some_iff] at eK; obtain ⟨_, _, eK⟩ := eK; try dsimp only at eK) | (rw [Option.bind_eq_some_iff] at eK; obtain ⟨_, _, eK⟩ := eK; try dsimp only at eK)
  all_goals (try first | (injection eK with eK; subst eK) | (injection eK; done) | subst eK)
  all_goals (repeat' first | with_reducible assumption | with_reducible exact Keeps.refl _ | fail_if_no_progress (with_reducible refine keeps_mk ?_) | with_reducible refine keeps_ite (fun _ => ?_) (fun _ => ?_) | split | dsimp only | with_reducible refine convert_keeps (by assumption) ?_ | (injection eK; done) | (injection eK with eK; subst eK))

theorem controlGate_keeps {bad : Nat → Bool} {c : Ctx} {z2 : State}  {u0 : State} (eK : controlGate bad c z2 = .hold u0) (hK : Keeps sK z2) : Keeps sK u0 := by
  unfold controlGate at eK
  try dsimp only at eK
  repeat' first | split at eK | (rw [Option.map_eq_some_iff] at eK; obtain ⟨_, _, eK⟩ := eK; try dsimp only at eK) | (rw [Option.bind_eq_some_iff] at eK; obtain ⟨_, _, eK⟩ := eK; try dsimp only at eK)
  all_goals (try first | (injection eK with eK; subst eK) | (injection eK; done) | subst eK)
  all_goals (repeat' first | with_reducible assumption | with_reducible exact Keeps.refl _ | fail_if_no_progress (with_reducible refine keeps_mk ?_) | with_reducible refine keeps_ite (fun _ => ?_) (fun _ => ?_) | split | dsimp only | (injection eK; done) | (injection eK with eK; subst eK) | (injection eK with eK; split at eK) | (injection eK with eK) | split at eK)

theorem controlled_keeps {h : Shape} {bad : Nat → Bool} {check : Bool} {slots : List Nat} {f : Ctx → Nat → FRes} {s : State}  {u0 : State} (eK : controlled h bad check slots f s = .next u0) (hK : Keeps sK s) : Keeps sK u0 := by
  unfold controlled at eK
  try dsimp only at eK
  repeat' first | split at eK | (rw [Option.map_eq_some_iff] at eK; obtain ⟨_, _, eK⟩ := eK; try dsimp only at eK) | (rw [Option.bind_eq_some_iff] at eK; obtain ⟨_, _, eK⟩ := eK; try dsimp only at eK)
  all_goals (try first | (injection eK with eK; subst eK) | (injection eK; done) | subst eK)
  all_goals (repeat' first | (intro _ _ _ eK h1; (try dsimp only at eK); repeat' (split at eK)) | (intro _ _ _ eK; (try dsimp only at eK); repeat' (split at eK)) | (intro _ _ eK; (try dsimp only at eK); repeat' (split at eK)) | (intro _ eK; (try dsimp only at eK); repeat' (split at eK)) | intro _ | with_reducible assumption | with_reducible exact Keeps.refl _ | with_reducible refine raiseFlags_keeps ?_ | with_reducible refine writeFp1_keeps ?_ | fail_if_no_progress (with_reducible refine keeps_mk ?_) | with_reducible refine keeps_ite (fun _ => ?_) (fun _ => ?_) | split | dsimp only | with_reducible refine performGated_keeps ?_ ?_ (by assumption) ?_ | with_reducible refine controlGate_keeps (by assumption) ?_ | (injection eK; done) | (injection eK with eK; subst eK))

theorem execPk8_keeps {x : V3} {s : State}  {u0 : State} (eK : execPk8 x s = .next u0) (hK : Keeps sK s) : Keeps sK u0 := by
  unfold execPk8 at eK
  try dsimp only at eK
  repeat' first | split at eK | (rw [Option.map_eq_some_iff] at eK; obtain ⟨_, _, eK⟩ := eK; try dsimp only at eK) | (rw [Option.bind_eq_some_iff] at eK; obtain ⟨_, _, eK⟩ := eK; try dsimp only at eK)
  all_goals (try first | (injection eK with eK; subst eK) | (injection eK; done) | subst eK)
  all_goals (repeat' first | with_reducible assumption | with_reducible exact Keeps.refl _ | fail_if_no_progress (with_reducible refine keeps_mk ?_) | with_reducible refine keeps_ite (fun _ => ?_) (fun _ => ?_) | split | dsimp only | with_reducible refine controlled_keeps (by assumption) ?_ | (injection eK; done) | (injection eK with eK; subst eK))

theorem execPk4_keeps {x : V3} {s : State}  {u0 : State} (eK : execPk4 x s = .next u0) (hK : Keeps sK s) : Keeps sK u0 := by
  unfold execPk4 at eK
  try dsimp only at eK
  repeat' first | split at eK | (rw [Option.map_eq_some_iff] at eK; obtain ⟨_, _, eK⟩ := eK; try dsimp only at eK) | (rw [Option.bind_eq_some_iff] at eK; obtain ⟨_, _, eK⟩ := eK; try dsimp only at eK)
  all_goals (try first | (injection eK with eK; subst eK) | (injection eK; done) | subst eK)
  all_goals (repeat' first | with_reducible assumption | with_reducible exact Keeps.refl _ | fail_if_no_progress (with_reducible refine keeps_mk ?_) | with_reducible refine keeps_ite (fun _ => ?_) (fun _ => ?_) | split | dsimp only | with_reducible refine controlled_keeps (by assumption) ?_ | (injection eK; done) | (injection eK with eK; subst eK))

theorem execUpk8_keeps {x : V3} {s : State}  {u0 : State} (eK : execUpk8 x s = .next u0) (hK : Keeps sK s) : Keeps sK u0 := by
  unfold execUpk8 at eK
  try dsimp only at eK
  repeat' first | split at eK | (rw [Option.map_eq_some_iff] at eK; obtain ⟨_, _, eK⟩ := eK; try dsimp only at eK) | (rw [Option.bind_eq_some_iff] at eK; obtain ⟨_, _, eK⟩ := eK; try dsimp only at eK)
  all_goals (try first | (injection eK with eK; subst eK) | (injection eK; done) | subst eK)
  all_goals (repeat' first | with_reducible assumption | with_reducible exact Keeps.refl _ | fail_if_no_progress (with_reducible refine keeps_mk ?_) | with_reducible refine keeps_ite (fun _ => ?_) (fun _ => ?_) | split | dsimp only | with_reducible refine controlled_keeps (by assumption) ?_ | (injection eK; done) | (injection eK with eK; subst eK))

theorem execUpk4_keeps {x : V3} {s : State}  {u0 : State} (eK : execUpk4 x s = .next u0) (hK : Keeps sK s) : Keeps sK u0 := by
  unfold execUpk4 at eK
  try dsimp only at eK
  repeat' first | split at eK | (rw [Option.map_eq_some_iff] at eK; obtain ⟨_, _, eK⟩ := eK; try dsimp only at eK) | (rw [Option.bind_eq_some_iff] at eK; obtain ⟨_, _, eK⟩ := eK; try dsimp only at eK)
  all_goals (try first | (injection eK with eK; subst eK) | (injection eK; done) | subst eK)
  all_goals (repeat' first | with_reducible assumption | with_reducible exact Keeps.refl _ | fail_if_no_progress (with_reducible refine keeps_mk ?_) | with_reducible refine keeps_ite (fun _ => ?_) (fun _ => ?_) | split | dsimp only | with_reducible refine controlled_keeps (by assumption) ?_ | (injection eK; done) | (injection eK with eK; subst eK))

theorem execQdec_keeps {x : V3} {s : State}  {u0 : State} (eK : execQdec x s = .next u0) (hK : Keeps sK s) : Keeps sK u0 := by
  unfold execQdec at eK
  try dsimp only at eK
  repeat' first | split at eK | (rw [Option.map_eq_some_iff] at eK; obtain ⟨_, _, eK⟩ := eK; try dsimp only at eK) | (rw [Option.bind_eq_some_iff] at eK; obtain ⟨_, _, eK⟩ := eK; try dsimp only at eK)
  all_goals (try first | (injection eK with eK; subst eK) | (injection eK; done) | subst eK)
  all_goals (repeat' first | with_reducible assumption | with_reducible exact Keeps.refl _ | fail_if_no_progress (with_reducible refine keeps_mk ?_) | with_reducible refine keeps_ite (fun _ => ?_) (fun _ => ?_) | split | dsimp only | with_reducible refine fp1_keeps (by assumption) ?_ | (injection eK; done) | (injection eK with eK; subst eK))

theorem execQenc_keeps {x : V3} {s : State}  {u0 : State} (eK : execQenc x s = .next u0) (hK : Keeps sK s) : Keeps sK u0 := by
  unfold execQenc at eK
  try dsimp only at eK
  repeat' first | split at eK | (rw [Option.map_eq_some_iff] at eK; obtain ⟨_, _, eK⟩ := eK; try dsimp only at eK) | (rw [Option.bind_eq_some_iff] at eK; obtain ⟨_, _, eK⟩ := eK; try dsimp only at eK)
  all_goals (try first | (injection eK with eK; subst eK) | (injection eK; done) | subst eK)
  all_goals (repeat' first | with_reducible assumption | with_reducible exact Keeps.refl _ | fail_if_no_progress (with_reducible refine keeps_mk ?_) | with_reducible refine keeps_ite (fun _ => ?_) (fun _ => ?_) | split | dsimp only | with_reducible refine controlled_keeps (by assumption) ?_ | (injection eK; done) | (injection eK with eK; subst eK))

theorem tagOp_keeps {h : Shape} {f : Ctx → Nat → Cell} {s : State}  {u0 : State} (eK : tagOp h f s = .next u0) (hK : Keeps sK s) : Keeps sK u0 := by
  unfold tagOp at eK
  try dsimp only at eK
  repeat' first | split at eK | (rw [Option.map_eq_some_iff] at eK; obtain ⟨_, _, eK⟩ := eK; try dsimp only at eK) | (rw [Option.bind_eq_some_iff] at eK; obtain ⟨_, _, eK⟩ := eK; try dsimp only at eK)
  all_goals (try first | (injection eK with eK; subst eK) | (injection eK; done) | subst eK)
  all_goals (repeat' first | (intro _ _ _ eK h1; (try dsimp only at eK); repeat' (split at eK)) | (intro _ _ _ eK; (try dsimp only at eK); repeat' (split at eK)) | (intro _ _ eK; (try dsimp only at eK); repeat' (split at eK)) | (intro _ eK; (try dsimp only at eK); repeat' (split at eK)) | intro _ | with_reducible assumption | with_reducible exact Keeps.refl _ | with_reducible refine writeVector_keeps ?_ | fail_if_no_progress (with_reducible refine keeps_mk ?_) | with_reducible refine keeps_ite (fun _ => ?_) (fun _ => ?_) | split | dsimp only | with_reducible refine perform_keeps ?_ (by assumption) ?_ | (injection eK; done) | (injection eK with eK; subst eK))

theorem execTagrd_keeps {x : V3} {s : State}  {u0 : State} (eK : execTagrd x s = .next u0) (hK : Keeps sK s) : Keeps sK u0 := by
  unfold execTagrd at eK
  try dsimp only at eK
  repeat' first | split at eK | (rw [Option.map_eq_some_iff] at eK; obtain ⟨_, _, eK⟩ := eK; try dsimp only at eK) | (rw [Option.bind_eq_some_iff] at eK; obtain ⟨_, _, eK⟩ := eK; try dsimp only at eK)
  all_goals (try first | (injection eK with eK; subst eK) | (injection eK; done) | subst eK)
  all_goals (repeat' first | with_reducible assumption | with_reducible exact Keeps.refl _ | fail_if_no_progress (with_reducible refine keeps_mk ?_) | with_reducible refine keeps_ite (fun _ => ?_) (fun _ => ?_) | split | dsimp only | with_reducible refine tagOp_keeps (by assumption) ?_ | (injection eK; done) | (injection eK with eK; subst eK))

theorem execTagwr_keeps {x : V3} {s : State}  {u0 : State} (eK : execTagwr x s = .next u0) (hK : Keeps sK s) : Keeps sK u0 := by
  unfold execTagwr at eK
  try dsimp only at eK
  repeat' first | split at eK | (rw [Option.map_eq_some_iff] at eK; obtain ⟨_, _, eK⟩ := eK; try dsimp only at eK) | (rw [Option.bind_eq_some_iff] at eK; obtain ⟨_, _, eK⟩ := eK; try dsimp only at eK)
  all_goals (try first | (injection eK with eK; subst eK) | (injection eK; done) | subst eK)
  all_goals (repeat' first | with_reducible assumption | with_reducible exact Keeps.refl _ | fail_if_no_progress (with_reducible refine keeps_mk ?_) | with_reducible refine keeps_ite (fun _ => ?_) (fun _ => ?_) | split | dsimp only | with_reducible refine tagOp_keeps (by assumption) ?_ | (injection eK; done) | (injection eK with eK; subst eK))

theorem execTagmin_keeps {x : V3} {s : State}  {u0 : State} (eK : execTagmin x s = .next u0) (hK : Keeps sK s) : Keeps sK u0 := by
  unfold execTagmin at eK
  try dsimp only at eK
  repeat' first | split at eK | (rw [Option.map_eq_some_iff] at eK; obtain ⟨_, _, eK⟩ := eK; try dsimp only at eK) | (rw [Option.bind_eq_some_iff] at eK; obtain ⟨_, _, eK⟩ := eK; try dsimp only at eK)
  all_goals (try first | (injection eK with eK; subst eK) | (injection eK; done) | subst eK)
  all_goals (repeat' first | with_reducible assumption | with_reducible exact Keeps.refl _ | fail_if_no_progress (with_reducible refine keeps_mk ?_) | with_reducible refine keeps_ite (fun _ => ?_) (fun _ => ?_) | split | dsimp only | with_reducible refine tagOp_keeps (by assumption) ?_ | (injection eK; done) | (injection eK with eK; subst eK))

theorem execTagfull_keeps {x : V3} {s : State}  {u0 : State} (eK : execTagfull x s = .next u0) (hK : Keeps sK s) : Keeps sK u0 := by
  unfold execTagfull at eK
  try dsimp only at eK
  repeat' first | split at eK | (rw [Option.map_eq_some_iff] at eK; obtain ⟨_, _, eK⟩ := eK; try dsimp only at eK) | (rw [Option.bind_eq_some_iff] at eK; obtain ⟨_, _, eK⟩ := eK; try dsimp only at eK)
  all_goals (try first | (injection eK with eK; subst eK) | (injection eK; done) | subst eK)
  all_goals (repeat' first | with_reducible assumption | with_reducible exact Keeps.refl _ | fail_if_no_progress (with_reducible refine keeps_mk ?_) | with_reducible refine keeps_ite (fun _ => ?_) (fun _ => ?_) | split | dsimp only | with_reducible refine tagOp_keeps (by assumption) ?_ | (injection eK; done) | (injection eK with eK; subst eK))

theorem execTagunt_keeps {x : V3} {s : State}  {u0 : State} (eK : execTagunt x s = .next u0) (hK : Keeps sK s) : Keeps sK u0 := by
  unfold execTagunt at eK
  try dsimp only at eK
  repeat' first | split at eK | (rw [Option.map_eq_some_iff] at eK; obtain ⟨_, _, eK⟩ := eK; try dsimp only at eK) | (rw [Option.bind_eq_some_iff] at eK; obtain ⟨_, _, eK⟩ := eK; try dsimp only at eK)
  all_goals (try first | (injection eK with eK; subst eK) | (injection eK; done) | subst eK)
  all_goals (repeat' first | with_reducible assumption | with_reducible exact Keeps.refl _ | fail_if_no_progress (with_reducible refine keeps_mk ?_) | with_reducible refine keeps_ite (fun _ => ?_) (fun _ => ?_) | split | dsimp only | with_reducible refine tagOp_keeps (by assumption) ?_ | (injection eK; done) | (injection eK with eK; subst eK))


end Sys2Proof.Machine
end

