-- ==== Sys2Proof/Laws/KeepsPlace.lean ====
section
/-! SUPPORT. What every change keeps (Keeps), for Place. -/

set_option linter.unusedTactic false
set_option linter.unreachableTactic false

namespace Sys2Proof.Machine

variable {sK : State}

theorem seatTeam_keeps {s : State} {key k : Nat}  {u0 : State} (eK : seatTeam s key k = some u0) (hK : Keeps sK s) : Keeps sK u0 := by
  unfold seatTeam at eK
  try dsimp only at eK
  repeat' first | split at eK | (rw [Option.map_eq_some_iff] at eK; obtain ⟨_, _, eK⟩ := eK; try dsimp only at eK) | (rw [Option.bind_eq_some_iff] at eK; obtain ⟨_, _, eK⟩ := eK; try dsimp only at eK)
  all_goals (try first | (injection eK with eK; subst eK) | (injection eK; done) | subst eK)
  all_goals (repeat' first | with_reducible assumption | with_reducible exact Keeps.refl _ | with_reducible refine setTeam_keeps ?_ | with_reducible refine setBench_keeps ?_ | fail_if_no_progress (with_reducible refine keeps_mk ?_) | with_reducible refine keeps_ite (fun _ => ?_) (fun _ => ?_) | split | dsimp only | (injection eK; done) | (injection eK with eK; subst eK))

theorem seatTeams_keeps {s : State} {k : Nat} {l : List Nat} {t : State} (e : seatTeams s k l = some t) (h : Keeps sK s) :
    Keeps sK t := by
  induction l generalizing s with
  | nil => unfold seatTeams at e; cases e; exact h
  | cons x r ih =>
    unfold seatTeams at e
    obtain ⟨u, h1, h2⟩ := Option.bind_eq_some_iff.1 e
    exact ih h2 (seatTeam_keeps h1 h)

theorem takeFrame_keeps {s : State} {key : Nat}  (hK : Keeps sK s) : Keeps sK (takeFrame s key) := by
  unfold takeFrame
  try dsimp only
  repeat' first | with_reducible assumption | with_reducible exact Keeps.refl _ | with_reducible refine onRegion_keeps ?_ | with_reducible refine setTeam_keeps ?_ | with_reducible refine devicePa_keeps ?_ | with_reducible refine writeHome_keeps ?_ | fail_if_no_progress (with_reducible refine keeps_mk ?_) | with_reducible refine keeps_ite (fun _ => ?_) (fun _ => ?_) | split | dsimp only | with_reducible refine devicePa_keeps_eq (by assumption) ?_

theorem startTeam_keeps {s : State} {key : Nat}  (hK : Keeps sK s) : Keeps sK (startTeam s key) := by
  unfold startTeam
  try dsimp only
  repeat' first | with_reducible assumption | with_reducible exact Keeps.refl _ | with_reducible refine setTeam_keeps ?_ | with_reducible refine fresh_keeps ?_ | with_reducible refine acquireAt_keeps ?_ | with_reducible refine writeLive_keeps ?_ | with_reducible refine takeFrame_keeps ?_ | with_reducible refine onTeam_keeps ?_ | with_reducible refine readFrame_keeps ?_ | with_reducible refine takeTrap_keeps ?_ | with_reducible refine returnFrom_keeps ?_ | fail_if_no_progress (with_reducible refine keeps_mk ?_) | with_reducible refine keeps_ite (fun _ => ?_) (fun _ => ?_) | split | dsimp only | with_reducible refine readFrame_keeps_eq (by assumption) ?_

theorem placeCrewQ_keeps {s : State} {ck : Nat}  {u0 : State} (eK : placeCrew? s ck = some u0) (hK : Keeps sK s) : Keeps sK u0 := by
  unfold placeCrew? at eK
  try dsimp only at eK
  repeat' first | split at eK | (rw [Option.map_eq_some_iff] at eK; obtain ⟨_, _, eK⟩ := eK; try dsimp only at eK) | (rw [Option.bind_eq_some_iff] at eK; obtain ⟨_, _, eK⟩ := eK; try dsimp only at eK)
  all_goals (try first | (injection eK with eK; subst eK) | (injection eK; done) | subst eK)
  all_goals (repeat' first | (intro _ _ _ eK h1; (try dsimp only at eK); repeat' (split at eK)) | (intro _ _ _ eK; (try dsimp only at eK); repeat' (split at eK)) | (intro _ _ eK; (try dsimp only at eK); repeat' (split at eK)) | (intro _ eK; (try dsimp only at eK); repeat' (split at eK)) | intro _ | with_reducible assumption | with_reducible exact Keeps.refl _ | with_reducible refine fresh_keeps ?_ | with_reducible refine giveWays_keeps ?_ | with_reducible refine onCrew_keeps ?_ | with_reducible refine startTeam_keeps ?_ | fail_if_no_progress (with_reducible refine keeps_mk ?_) | with_reducible refine foldl_keeps ?_ ?_ | with_reducible refine foldl1_keeps ?_ ?_ | with_reducible refine keeps_ite (fun _ => ?_) (fun _ => ?_) | split | dsimp only | with_reducible refine seatTeams_keeps (by assumption) ?_ | (injection eK; done) | (injection eK with eK; subst eK))


end Sys2Proof.Machine
end

