-- ==== Sys2Proof/Laws/KeepsFetch.lean ====
section
/-! SUPPORT. What every change keeps (Keeps), for Fetch. -/

set_option linter.unusedTactic false
set_option linter.unreachableTactic false

namespace Sys2Proof.Machine

variable {sK : State}

theorem fetchAt_keeps {s : State} {t : Team} {k pc : Nat}  (hK : Keeps sK s) : Keeps sK (fetchAt s t k pc).1 := by
  unfold fetchAt
  try dsimp only
  repeat' first | with_reducible assumption | with_reducible exact Keeps.refl _ | with_reducible refine translate_keeps ?_ | with_reducible refine l2Touch_keeps ?_ | fail_if_no_progress (with_reducible refine keeps_mk ?_) | with_reducible refine keeps_ite (fun _ => ?_) (fun _ => ?_) | split | dsimp only | with_reducible refine findSome_keeps ?_ (by assumption) | intro _ eK | split at eK | (injection eK with eK) | with_reducible refine translate_keeps_eq (by assumption) ?_

theorem fetchAt_keeps_eq {s : State} {t : Team} {k pc : Nat} {u0 : State} {q0 : _} (eK : fetchAt s t k pc = (u0, q0)) (hK : Keeps sK s) : Keeps sK u0 := by
  have := fetchAt_keeps (sK := sK) (s := s) (t := t) (k := k) (pc := pc) hK; rw [eK] at this; exact this

theorem pick_keeps {s : State}  {u0 : State} (eK : pick s = some u0) (hK : Keeps sK s) : Keeps sK u0 := by
  unfold pick at eK
  obtain ⟨b, _, eK⟩ := List.exists_of_findSome?_eq_some eK
  obtain ⟨u, _, eK⟩ := Option.map_eq_some_iff.1 eK
  subst eK
  exact keeps_mk hK

theorem currentWord_keeps {s : State} {u : Cur}  (hK : Keeps sK s) : Keeps sK (currentWord s u).1 := by
  unfold currentWord
  try dsimp only
  repeat' first | with_reducible assumption | with_reducible exact Keeps.refl _ | with_reducible refine fetchAt_keeps ?_ | fail_if_no_progress (with_reducible refine keeps_mk ?_) | with_reducible refine keeps_ite (fun _ => ?_) (fun _ => ?_) | split | dsimp only | with_reducible refine fetchAt_keeps_eq (by assumption) ?_

theorem currentWord_keeps_eq {s : State} {u : Cur} {u0 : State} {q0 : _} (eK : currentWord s u = (u0, q0)) (hK : Keeps sK s) : Keeps sK u0 := by
  have := currentWord_keeps (sK := sK) (s := s) (u := u) hK; rw [eK] at this; exact this

theorem traceStore_keeps {s : State} {c k off : Nat} {bs : List Byte}  (hK : Keeps sK s) : Keeps sK (traceStore s c k off bs) := by
  unfold traceStore
  try dsimp only
  repeat' first | with_reducible assumption | with_reducible exact Keeps.refl _ | with_reducible refine weakStore_keeps ?_ | with_reducible refine markIpa_keeps ?_ | fail_if_no_progress (with_reducible refine keeps_mk ?_) | with_reducible refine keeps_ite (fun _ => ?_) (fun _ => ?_) | split | dsimp only

theorem traceCount_keeps {s : State} {c k : Nat}  (hK : Keeps sK s) : Keeps sK (traceCount s c k) := by
  unfold traceCount
  try dsimp only
  repeat' first | with_reducible assumption | with_reducible exact Keeps.refl _ | with_reducible refine traceStore_keeps ?_ | fail_if_no_progress (with_reducible refine keeps_mk ?_) | with_reducible refine keeps_ite (fun _ => ?_) (fun _ => ?_) | split | dsimp only

theorem traceWrite_keeps {s : State} {c k kind : Nat} {what : List Nat}  (hK : Keeps sK s) : Keeps sK (traceWrite s c k kind what) := by
  unfold traceWrite
  try dsimp only
  repeat' first | with_reducible assumption | with_reducible exact Keeps.refl _ | with_reducible refine traceCount_keeps ?_ | with_reducible refine setComp_keeps ?_ | with_reducible refine traceStore_keeps ?_ | fail_if_no_progress (with_reducible refine keeps_mk ?_) | with_reducible refine keeps_ite (fun _ => ?_) (fun _ => ?_) | split | dsimp only

theorem recordBreak_keeps {s : State} {u : Cur}  (hK : Keeps sK s) : Keeps sK (recordBreak s u) := by
  unfold recordBreak
  try dsimp only
  repeat' first | with_reducible assumption | with_reducible exact Keeps.refl _ | with_reducible refine traceWrite_keeps ?_ | fail_if_no_progress (with_reducible refine keeps_mk ?_) | with_reducible refine keeps_ite (fun _ => ?_) (fun _ => ?_) | split | dsimp only

theorem withWord_keeps {s : State} {u : Cur} {w : Word}  (hK : Keeps sK s) : Keeps sK (withWord s u w) := by
  unfold withWord
  try dsimp only
  repeat' first | with_reducible assumption | with_reducible exact Keeps.refl _ | with_reducible refine recordBreak_keeps ?_ | with_reducible refine onTeam_keeps ?_ | fail_if_no_progress (with_reducible refine keeps_mk ?_) | with_reducible refine keeps_ite (fun _ => ?_) (fun _ => ?_) | split | dsimp only

theorem tick_keeps {s : State}  (hK : Keeps sK s) : Keeps sK (tick s) := by
  unfold tick
  split <;> exact ⟨hK.1, Nat.le_trans hK.2.1 (Nat.le_add_right _ _), hK.2.2⟩


end Sys2Proof.Machine
end

