-- ==== Sys2Proof/Laws/KeepsRequests.lean ====
section
/-! SUPPORT. What every change keeps (Keeps), for Requests. -/

set_option linter.unusedTactic false
set_option linter.unreachableTactic false

namespace Sys2Proof.Machine

variable {sK : State}

theorem putReq_keeps {s : State} {r : Req}  (hK : Keeps sK s) : Keeps sK (putReq s r) := by
  unfold putReq
  try dsimp only
  repeat' first | with_reducible assumption | with_reducible exact Keeps.refl _ | fail_if_no_progress (with_reducible refine keeps_mk ?_) | with_reducible refine keeps_ite (fun _ => ?_) (fun _ => ?_) | split | dsimp only

theorem dropReq_keeps {s : State} {id : Nat}  (hK : Keeps sK s) : Keeps sK (dropReq s id) := by
  unfold dropReq
  try dsimp only
  repeat' first | with_reducible assumption | with_reducible exact Keeps.refl _ | fail_if_no_progress (with_reducible refine keeps_mk ?_) | with_reducible refine keeps_ite (fun _ => ?_) (fun _ => ?_) | split | dsimp only

theorem putOp_keeps {s : State} {o : MemOp}  (hK : Keeps sK s) : Keeps sK (putOp s o) := by
  unfold putOp
  try dsimp only
  repeat' first | with_reducible assumption | with_reducible exact Keeps.refl _ | fail_if_no_progress (with_reducible refine keeps_mk ?_) | with_reducible refine keeps_ite (fun _ => ?_) (fun _ => ?_) | split | dsimp only

theorem takeSeqs_keeps {s : State} {r : Req}  (hK : Keeps sK s) : Keeps sK (takeSeqs s r) := by
  unfold takeSeqs
  try dsimp only
  repeat' first | with_reducible assumption | with_reducible exact Keeps.refl _ | with_reducible refine putReq_keeps ?_ | fail_if_no_progress (with_reducible refine keeps_mk ?_) | with_reducible refine foldl_keeps ?_ ?_ | with_reducible refine foldl1_keeps ?_ ?_ | intro _ _ hk | with_reducible refine keeps_ite (fun _ => ?_) (fun _ => ?_) | split | dsimp only | with_reducible refine takeSeq_keeps (by assumption) ?_

theorem giveSeqs_keeps {s : State} {rs : List Req}  (hK : Keeps sK s) : Keeps sK (giveSeqs s rs) := by
  unfold giveSeqs
  try dsimp only
  repeat' first | with_reducible assumption | with_reducible exact Keeps.refl _ | with_reducible refine fillSeq_keeps ?_ | fail_if_no_progress (with_reducible refine keeps_mk ?_) | with_reducible refine foldl_keeps ?_ ?_ | with_reducible refine foldl1_keeps ?_ ?_ | intro _ _ hk | with_reducible refine keeps_ite (fun _ => ?_) (fun _ => ?_) | split | dsimp only

theorem recordThread_keeps {s : State} {key k : Nat} {b : List Byte}  (hK : Keeps sK s) : Keeps sK (recordThread s key k b).1 := by
  unfold recordThread
  try dsimp only
  repeat' first | with_reducible assumption | with_reducible exact Keeps.refl _ | with_reducible refine validate_keeps ?_ | fail_if_no_progress (with_reducible refine keeps_mk ?_) | with_reducible refine keeps_ite (fun _ => ?_) (fun _ => ?_) | split | dsimp only | with_reducible refine validate_keeps_eq (by assumption) ?_

theorem recordThread_keeps_eq {s : State} {key k : Nat} {b : List Byte} {u0 : State} {q0 : _} (eK : recordThread s key k b = (u0, q0)) (hK : Keeps sK s) : Keeps sK u0 := by
  have := recordThread_keeps (sK := sK) (s := s) (key := key) (k := k) (b := b) hK; rw [eK] at this; exact this

theorem trySpawn_keeps {s : State} {key k va pa : Nat}  (hK : Keeps sK s) : Keeps sK (trySpawn s key k va pa).1 := by
  unfold trySpawn
  try dsimp only
  repeat' first | with_reducible assumption | with_reducible exact Keeps.refl _ | with_reducible refine recordThread_keeps ?_ | with_reducible refine pushFault_keeps ?_ | fail_if_no_progress (with_reducible refine keeps_mk ?_) | with_reducible refine keeps_ite (fun _ => ?_) (fun _ => ?_) | split | dsimp only | with_reducible refine recordThread_keeps_eq (by assumption) ?_

theorem trySpawn_keeps_eq {s : State} {key k va pa : Nat} {u0 : State} {q0 : _} (eK : trySpawn s key k va pa = (u0, q0)) (hK : Keeps sK s) : Keeps sK u0 := by
  have := trySpawn_keeps (sK := sK) (s := s) (key := key) (k := k) (va := va) (pa := pa) hK; rw [eK] at this; exact this

theorem nextAge_keeps {s : State} {key : Nat}  (hK : Keeps sK s) : Keeps sK (nextAge s key).2 := by
  unfold nextAge
  try dsimp only
  repeat' first | with_reducible assumption | with_reducible exact Keeps.refl _ | with_reducible refine onTeam_keeps ?_ | fail_if_no_progress (with_reducible refine keeps_mk ?_) | with_reducible refine getD_keeps ?_ ?_ | intro _ hk | with_reducible refine keeps_ite (fun _ => ?_) (fun _ => ?_) | split | dsimp only

theorem addReq_keeps {s : State} {r : Req}  (hK : Keeps sK s) : Keeps sK (addReq s r) := by
  unfold addReq
  try dsimp only
  repeat' first | with_reducible assumption | with_reducible exact Keeps.refl _ | with_reducible refine fresh_keeps ?_ | with_reducible refine nextAge_keeps ?_ | fail_if_no_progress (with_reducible refine keeps_mk ?_) | with_reducible refine keeps_ite (fun _ => ?_) (fun _ => ?_) | split | dsimp only

theorem spawnRetry_keeps {s : State} {r : Req} {va cause : Nat}  (hK : Keeps sK s) : Keeps sK (spawnRetry s r va cause) := by
  unfold spawnRetry
  try dsimp only
  repeat' first | with_reducible assumption | with_reducible exact Keeps.refl _ | with_reducible refine addReq_keeps ?_ | fail_if_no_progress (with_reducible refine keeps_mk ?_) | with_reducible refine keeps_ite (fun _ => ?_) (fun _ => ?_) | split | dsimp only

theorem keepGot_keeps {s : State} {r : Req} {lane v : Nat}  (hK : Keeps sK s) : Keeps sK (keepGot s r lane v) := by
  unfold keepGot
  try dsimp only
  repeat' first | with_reducible assumption | with_reducible exact Keeps.refl _ | with_reducible refine putOp_keeps ?_ | fail_if_no_progress (with_reducible refine keeps_mk ?_) | with_reducible refine keeps_ite (fun _ => ?_) (fun _ => ?_) | split | dsimp only

theorem keepBad_keeps {s : State} {id cause lane va : Nat}  (hK : Keeps sK s) : Keeps sK (keepBad s id cause lane va) := by
  unfold keepBad
  try dsimp only
  repeat' first | with_reducible assumption | with_reducible exact Keeps.refl _ | with_reducible refine putOp_keeps ?_ | fail_if_no_progress (with_reducible refine keeps_mk ?_) | with_reducible refine getD_keeps ?_ ?_ | intro _ hk | with_reducible refine keeps_ite (fun _ => ?_) (fun _ => ?_) | split | dsimp only

theorem atomLane_keeps {s : State} {r : Req} {near stable : Bool} {pa : Nat} {a : Acc}  (hK : Keeps sK s) : Keeps sK (atomLane s r near stable pa a) := by
  unfold atomLane
  try dsimp only
  repeat' first | with_reducible assumption | with_reducible exact Keeps.refl _ | with_reducible refine localLoad_keeps ?_ | with_reducible refine localStore_keeps ?_ | with_reducible refine keepGot_keeps ?_ | with_reducible refine trySpawn_keeps ?_ | with_reducible refine spawnRetry_keeps ?_ | fail_if_no_progress (with_reducible refine keeps_mk ?_) | with_reducible refine getD_keeps ?_ ?_ | intro _ hk | with_reducible refine keeps_ite (fun _ => ?_) (fun _ => ?_) | split | dsimp only | with_reducible refine localLoad_keeps_eq (by assumption) ?_ | with_reducible refine trySpawn_keeps_eq (by assumption) ?_

theorem performLocal_keeps {s : State} {r : Req} {stable : Bool} {base : Nat → Nat}  (hK : Keeps sK s) : Keeps sK (performLocal s r stable base) := by
  unfold performLocal
  try dsimp only
  repeat' first | with_reducible assumption | with_reducible exact Keeps.refl _ | with_reducible refine releaseAt_keeps ?_ | with_reducible refine localLoad_keeps ?_ | with_reducible refine keepGot_keeps ?_ | with_reducible refine localStore_keeps ?_ | with_reducible refine atomLane_keeps ?_ | fail_if_no_progress (with_reducible refine keeps_mk ?_) | with_reducible refine foldl_keeps ?_ ?_ | with_reducible refine foldl1_keeps ?_ ?_ | intro _ _ hk | with_reducible refine keeps_ite (fun _ => ?_) (fun _ => ?_) | split | dsimp only | with_reducible refine localLoad_keeps_eq (by assumption) ?_

theorem stay_keeps {s : State} {r : Req} {k : Nat}  (hK : Keeps sK s) : Keeps sK (stay s r k) := by
  unfold stay
  try dsimp only
  repeat' first | with_reducible assumption | with_reducible exact Keeps.refl _ | with_reducible refine putReq_keeps ?_ | fail_if_no_progress (with_reducible refine keeps_mk ?_) | with_reducible refine keeps_ite (fun _ => ?_) (fun _ => ?_) | split | dsimp only

theorem fly_keeps {s : State} {r : Req} {cause : Nat} {pulled : Bool}  (hK : Keeps sK s) : Keeps sK (fly s r cause pulled) := by
  unfold fly
  try dsimp only
  repeat' first | with_reducible assumption | with_reducible exact Keeps.refl _ | with_reducible refine putReq_keeps ?_ | fail_if_no_progress (with_reducible refine keeps_mk ?_) | with_reducible refine keeps_ite (fun _ => ?_) (fun _ => ?_) | split | dsimp only

theorem flyOff_keeps {s : State} {id cause : Nat} {pulled : Bool}  (hK : Keeps sK s) : Keeps sK (flyOff s id cause pulled) := by
  unfold flyOff
  dsimp only
  have h1 : Keeps sK (((req? s id).map (takeSeqs s)).getD s) := by
    refine getD_keeps (fun u e => ?_) hK
    obtain ⟨r, -, rfl⟩ := Option.map_eq_some_iff.1 e
    exact takeSeqs_keeps hK
  refine getD_keeps (fun u e => ?_) h1
  obtain ⟨r, -, rfl⟩ := Option.map_eq_some_iff.1 e
  exact fly_keeps h1

theorem bounceReq_keeps {s : State} {r : Req} {cause : Nat}  (hK : Keeps sK s) : Keeps sK (bounceReq s r cause) := by
  unfold bounceReq
  try dsimp only
  repeat' first | with_reducible assumption | with_reducible exact Keeps.refl _ | with_reducible refine flyOff_keeps ?_ | with_reducible refine putReq_keeps ?_ | fail_if_no_progress (with_reducible refine keeps_mk ?_) | with_reducible refine foldl_keeps ?_ ?_ | with_reducible refine foldl1_keeps ?_ ?_ | intro _ _ hk | with_reducible refine keeps_ite (fun _ => ?_) (fun _ => ?_) | split | dsimp only

theorem writeArea_keeps {s : State} {key : Nat}  (hK : Keeps sK s) : Keeps sK (writeArea s key) := by
  unfold writeArea
  try dsimp only
  repeat' first | with_reducible assumption | with_reducible exact Keeps.refl _ | with_reducible refine putHome_keeps ?_ | fail_if_no_progress (with_reducible refine keeps_mk ?_) | with_reducible refine keeps_ite (fun _ => ?_) (fun _ => ?_) | split | dsimp only

theorem makeRoom_keeps {s : State} {key : Nat}  (hK : Keeps sK s) : Keeps sK (makeRoom s key) := by
  unfold makeRoom
  try dsimp only
  repeat' first | with_reducible assumption | with_reducible exact Keeps.refl _ | with_reducible refine writeArea_keeps ?_ | fail_if_no_progress (with_reducible refine keeps_mk ?_) | with_reducible refine keeps_ite (fun _ => ?_) (fun _ => ?_) | split | dsimp only

theorem enterPannier_keeps {s : State} {r : Req}  (hK : Keeps sK s) : Keeps sK (enterPannier s r) := by
  unfold enterPannier
  try dsimp only
  repeat' first | with_reducible assumption | with_reducible exact Keeps.refl _ | with_reducible refine makeRoom_keeps ?_ | with_reducible refine putReq_keeps ?_ | fail_if_no_progress (with_reducible refine keeps_mk ?_) | with_reducible refine keeps_ite (fun _ => ?_) (fun _ => ?_) | split | dsimp only

theorem missReq_keeps {s : State} {r : Req} {stage ipa : Nat}  (hK : Keeps sK s) : Keeps sK (missReq s r stage ipa) := by
  unfold missReq
  try dsimp only
  repeat' first | with_reducible assumption | with_reducible exact Keeps.refl _ | with_reducible refine dropReq_keeps ?_ | with_reducible refine missFault_keeps ?_ | with_reducible refine stay_keeps ?_ | fail_if_no_progress (with_reducible refine keeps_mk ?_) | with_reducible refine keeps_ite (fun _ => ?_) (fun _ => ?_) | split | dsimp only | with_reducible refine missFault_keeps_eq (by assumption) ?_

theorem releaseWaits_keeps {s : State} {id : Nat}  (hK : Keeps sK s) : Keeps sK (releaseWaits s id) := by
  unfold releaseWaits
  try dsimp only
  repeat' first | with_reducible assumption | with_reducible exact Keeps.refl _ | with_reducible refine wakeAll_keeps ?_ | fail_if_no_progress (with_reducible refine keeps_mk ?_) | with_reducible refine keeps_ite (fun _ => ?_) (fun _ => ?_) | split | dsimp only

theorem disarm_keeps {s : State} {o : MemOp}  (hK : Keeps sK s) : Keeps sK (disarm s o) := by
  unfold disarm
  try dsimp only
  repeat' first | with_reducible assumption | with_reducible exact Keeps.refl _ | with_reducible refine onTeam_keeps ?_ | fail_if_no_progress (with_reducible refine keeps_mk ?_) | with_reducible refine keeps_ite (fun _ => ?_) (fun _ => ?_) | split | dsimp only

theorem passWaiting_keeps {s : State} {key : Nat} {e : ReplayEntry}  (hK : Keeps sK s) : Keeps sK (passWaiting s key e) := by
  unfold passWaiting
  try dsimp only
  repeat' first | with_reducible assumption | with_reducible exact Keeps.refl _ | with_reducible refine onTeam_keeps ?_ | fail_if_no_progress (with_reducible refine keeps_mk ?_) | with_reducible refine keeps_ite (fun _ => ?_) (fun _ => ?_) | split | dsimp only

theorem withdraw_keeps {s : State} {l : List MemOp}  (hK : Keeps sK s) : Keeps sK (withdraw s l) := by
  unfold withdraw
  try dsimp only
  repeat' first | with_reducible assumption | with_reducible exact Keeps.refl _ | with_reducible refine giveSeqs_keeps ?_ | with_reducible refine releaseWaits_keeps ?_ | fail_if_no_progress (with_reducible refine keeps_mk ?_) | with_reducible refine foldl_keeps ?_ ?_ | with_reducible refine foldl1_keeps ?_ ?_ | intro _ _ hk | with_reducible refine keeps_ite (fun _ => ?_) (fun _ => ?_) | split | dsimp only

theorem blockHere_keeps {s : State} {o : MemOp}  (hK : Keeps sK s) : Keeps sK (blockHere s o) := by
  unfold blockHere
  try dsimp only
  repeat' first | with_reducible assumption | with_reducible exact Keeps.refl _ | with_reducible refine onTeam_keeps ?_ | fail_if_no_progress (with_reducible refine keeps_mk ?_) | with_reducible refine keeps_ite (fun _ => ?_) (fun _ => ?_) | split | dsimp only

theorem abortOp_keeps {s : State} {o : MemOp} {mask : Word} {cause flane faddr : Nat}  (hK : Keeps sK s) : Keeps sK (abortOp s o mask cause flane faddr) := by
  unfold abortOp
  try dsimp only
  repeat' first | with_reducible assumption | with_reducible exact Keeps.refl _ | with_reducible refine giveSeqs_keeps ?_ | with_reducible refine blockHere_keeps ?_ | with_reducible refine takeTrap_keeps ?_ | with_reducible refine passWaiting_keeps ?_ | with_reducible refine reap_keeps ?_ | with_reducible refine withdraw_keeps ?_ | with_reducible refine disarm_keeps ?_ | with_reducible refine releaseWaits_keeps ?_ | fail_if_no_progress (with_reducible refine keeps_mk ?_) | with_reducible refine keeps_ite (fun _ => ?_) (fun _ => ?_) | split | dsimp only | with_reducible refine step_keeps (by assumption) ?_

theorem failLater_keeps {s : State} {o : MemOp} {cause lane va : Nat}  (hK : Keeps sK s) : Keeps sK (failLater s o cause lane va) := by
  unfold failLater
  try dsimp only
  repeat' first | with_reducible assumption | with_reducible exact Keeps.refl _ | with_reducible refine giveSeqs_keeps ?_ | with_reducible refine putOp_keeps ?_ | fail_if_no_progress (with_reducible refine keeps_mk ?_) | with_reducible refine getD_keeps ?_ ?_ | intro _ hk | with_reducible refine keeps_ite (fun _ => ?_) (fun _ => ?_) | split | dsimp only

theorem failReq_keeps {s : State} {r : Req} {cause : Nat}  (hK : Keeps sK s) : Keeps sK (failReq s r cause) := by
  unfold failReq
  try dsimp only
  repeat' first | with_reducible assumption | with_reducible exact Keeps.refl _ | with_reducible refine dropReq_keeps ?_ | with_reducible refine giveSeqs_keeps ?_ | with_reducible refine reportAt_keeps ?_ | with_reducible refine failLater_keeps ?_ | with_reducible refine abortOp_keeps ?_ | fail_if_no_progress (with_reducible refine keeps_mk ?_) | with_reducible refine getD_keeps ?_ ?_ | intro _ hk | with_reducible refine keeps_ite (fun _ => ?_) (fun _ => ?_) | split | dsimp only

theorem writeOp_keeps {s : State} {o : MemOp}  (hK : Keeps sK s) : Keeps sK (writeOp s o) := by
  unfold writeOp
  try dsimp only
  repeat' first | with_reducible assumption | with_reducible exact Keeps.refl _ | with_reducible refine onTeam_keeps ?_ | with_reducible refine setBench_keeps ?_ | fail_if_no_progress (with_reducible refine keeps_mk ?_) | with_reducible refine foldl_keeps ?_ ?_ | with_reducible refine foldl1_keeps ?_ ?_ | intro _ _ hk | with_reducible refine keeps_ite (fun _ => ?_) (fun _ => ?_) | split | dsimp only | with_reducible refine foldlBind_keeps ?_ (by assumption) ?_ | intro _

theorem writeTile_keeps {s : State} {o : MemOp}  (hK : Keeps sK s) : Keeps sK (writeTile s o) := by
  unfold writeTile
  try dsimp only
  repeat' first | with_reducible assumption | with_reducible exact Keeps.refl _ | with_reducible refine onCrew_keeps ?_ | fail_if_no_progress (with_reducible refine keeps_mk ?_) | with_reducible refine keeps_ite (fun _ => ?_) (fun _ => ?_) | split | dsimp only

theorem keepFetched_keeps {s : State} {o : MemOp}  (hK : Keeps sK s) : Keeps sK (keepFetched s o) := by
  unfold keepFetched
  try dsimp only
  repeat' first | with_reducible assumption | with_reducible exact Keeps.refl _ | fail_if_no_progress (with_reducible refine keeps_mk ?_) | with_reducible refine keeps_ite (fun _ => ?_) (fun _ => ?_) | split | dsimp only

theorem finishOp_keeps {s : State} {id : Nat}  (hK : Keeps sK s) : Keeps sK (finishOp s id) := by
  unfold finishOp
  try dsimp only
  repeat' first | with_reducible assumption | with_reducible exact Keeps.refl _ | with_reducible refine abortOp_keeps ?_ | with_reducible refine reap_keeps ?_ | with_reducible refine blockHere_keeps ?_ | with_reducible refine writeTile_keeps ?_ | with_reducible refine keepFetched_keeps ?_ | with_reducible refine writeOp_keeps ?_ | with_reducible refine acquireAt_keeps ?_ | with_reducible refine releaseWaits_keeps ?_ | fail_if_no_progress (with_reducible refine keeps_mk ?_) | with_reducible refine keeps_ite (fun _ => ?_) (fun _ => ?_) | split | dsimp only

theorem waitLate_keeps {s : State} {o : MemOp} {w : Wait}  (hK : Keeps sK s) : Keeps sK (waitLate s o w) := by
  unfold waitLate
  try dsimp only
  repeat' first | with_reducible assumption | with_reducible exact Keeps.refl _ | with_reducible refine onTeam_keeps ?_ | fail_if_no_progress (with_reducible refine keeps_mk ?_) | with_reducible refine keeps_ite (fun _ => ?_) (fun _ => ?_) | split | dsimp only

theorem parkFor_keeps {s : State} {o : MemOp}  (hK : Keeps sK s) : Keeps sK (parkFor s o) := by
  unfold parkFor
  try dsimp only
  repeat' first | with_reducible assumption | with_reducible exact Keeps.refl _ | with_reducible refine parkTeam_keeps ?_ | with_reducible refine putOp_keeps ?_ | with_reducible refine endStint_keeps ?_ | fail_if_no_progress (with_reducible refine keeps_mk ?_) | with_reducible refine keeps_ite (fun _ => ?_) (fun _ => ?_) | split | dsimp only

theorem meetRemote_keeps {s : State} {r : Req}  (hK : Keeps sK s) : Keeps sK (meetRemote s r).1 := by
  unfold meetRemote
  try dsimp only
  repeat' first | with_reducible assumption | with_reducible exact Keeps.refl _ | with_reducible refine waitLate_keeps ?_ | with_reducible refine putOp_keeps ?_ | with_reducible refine parkFor_keeps ?_ | fail_if_no_progress (with_reducible refine keeps_mk ?_) | with_reducible refine keeps_ite (fun _ => ?_) (fun _ => ?_) | split | dsimp only

theorem meetRemote_keeps_eq {s : State} {r : Req} {u0 : State} {q0 : _} (eK : meetRemote s r = (u0, q0)) (hK : Keeps sK s) : Keeps sK u0 := by
  have := meetRemote_keeps (sK := sK) (s := s) (r := r) hK; rw [eK] at this; exact this

theorem keepOrigin_keeps {s : State} {r : Req} {coach q : Nat}  (hK : Keeps sK s) : Keeps sK (keepOrigin s r coach q) := by
  unfold keepOrigin
  try dsimp only
  repeat' first | with_reducible assumption | with_reducible exact Keeps.refl _ | with_reducible refine setSubStream_keeps ?_ | fail_if_no_progress (with_reducible refine keeps_mk ?_) | with_reducible refine keeps_ite (fun _ => ?_) (fun _ => ?_) | split | dsimp only

theorem postReq_keeps {s : State} {r : Req} {coach addr : Nat} {mask : BitVec 64} {line : List Byte} {red : Option Nat} {j : Nat} {one : Req}  {u0 : State} (eK : postReq s r coach addr mask line red j one = some u0) (hK : Keeps sK s) : Keeps sK u0 := by
  unfold postReq at eK
  try dsimp only at eK
  repeat' first | split at eK | (rw [Option.map_eq_some_iff] at eK; obtain ⟨_, _, eK⟩ := eK; try dsimp only at eK) | (rw [Option.bind_eq_some_iff] at eK; obtain ⟨_, _, eK⟩ := eK; try dsimp only at eK)
  all_goals (try first | (injection eK with eK; subst eK) | (injection eK; done) | subst eK)
  all_goals (repeat' first | (intro _ _ _ eK h1; (try dsimp only at eK); repeat' (split at eK)) | (intro _ _ _ eK; (try dsimp only at eK); repeat' (split at eK)) | (intro _ _ eK; (try dsimp only at eK); repeat' (split at eK)) | (intro _ eK; (try dsimp only at eK); repeat' (split at eK)) | intro _ | with_reducible assumption | with_reducible exact Keeps.refl _ | with_reducible refine keepOrigin_keeps ?_ | fail_if_no_progress (with_reducible refine keeps_mk ?_) | with_reducible refine getD_keeps ?_ ?_ | with_reducible refine keeps_ite (fun _ => ?_) (fun _ => ?_) | split | dsimp only | with_reducible refine postRemote_keeps (by assumption) ?_ | (injection eK; done) | (injection eK with eK; subst eK))

theorem postLanes_keeps {coach addr : Nat} {r : Req} {l : List (Acc × Nat)} :
    ∀ {s u0 : State}, postLanes coach r addr s l = some u0 → Keeps sK s → Keeps sK u0 := by
  induction l with
  | nil => intro s u0 e hK; cases e; exact hK
  | cons x l ih =>
    intro s u0 e hK
    obtain ⟨a, j⟩ := x
    unfold postLanes at e
    dsimp only at e
    split at e
    · next h => exact ih e (postReq_keeps h hK)
    · cases e

theorem toPeer_keeps {s : State} {r : Req} {coach : Nat} {base : Nat → Nat}  {u0 : State} (eK : toPeer s r coach base = some u0) (hK : Keeps sK s) : Keeps sK u0 := by
  unfold toPeer at eK
  try dsimp only at eK
  repeat' first | split at eK | (rw [Option.map_eq_some_iff] at eK; obtain ⟨_, _, eK⟩ := eK; try dsimp only at eK) | (rw [Option.bind_eq_some_iff] at eK; obtain ⟨_, _, eK⟩ := eK; try dsimp only at eK)
  all_goals (try first | (injection eK with eK; subst eK) | (injection eK; done) | subst eK)
  all_goals (repeat' first | (intro _ _ _ eK h1; (try dsimp only at eK); repeat' (split at eK)) | (intro _ _ _ eK; (try dsimp only at eK); repeat' (split at eK)) | (intro _ _ eK; (try dsimp only at eK); repeat' (split at eK)) | (intro _ eK; (try dsimp only at eK); repeat' (split at eK)) | intro _ | with_reducible assumption | with_reducible exact Keeps.refl _ | with_reducible refine putReq_keeps ?_ | with_reducible refine dropReq_keeps ?_ | fail_if_no_progress (with_reducible refine keeps_mk ?_) | with_reducible refine foldl_keeps ?_ ?_ | with_reducible refine foldl1_keeps ?_ ?_ | with_reducible refine getD_keeps ?_ ?_ | with_reducible refine keeps_ite (fun _ => ?_) (fun _ => ?_) | split | dsimp only | with_reducible refine foldlBind_keeps ?_ (by assumption) ?_ | with_reducible refine postReq_keeps (by assumption) ?_ | with_reducible refine postLanes_keeps (by assumption) ?_ | with_reducible refine askRemote_keeps (by assumption) ?_ | (injection eK; done) | (injection eK with eK; subst eK))

theorem toHost_keeps {s : State} {r : Req} {base : Nat → Nat}  (hK : Keeps sK s) : Keeps sK (toHost s r base) := by
  unfold toHost
  try dsimp only
  repeat' first | with_reducible assumption | with_reducible exact Keeps.refl _ | with_reducible refine putReq_keeps ?_ | with_reducible refine dropReq_keeps ?_ | fail_if_no_progress (with_reducible refine keeps_mk ?_) | with_reducible refine getD_keeps ?_ ?_ | intro _ hk | with_reducible refine keeps_ite (fun _ => ?_) (fun _ => ?_) | split | dsimp only

theorem pollAway_keeps {s : State} {r : Req} {pa : Nat}  (hK : Keeps sK s) : Keeps sK (pollAway s r pa) := by
  unfold pollAway
  try dsimp only
  repeat' first | with_reducible assumption | with_reducible exact Keeps.refl _ | with_reducible refine putReq_keeps ?_ | with_reducible refine stay_keeps ?_ | with_reducible refine dropReq_keeps ?_ | fail_if_no_progress (with_reducible refine keeps_mk ?_) | with_reducible refine keeps_ite (fun _ => ?_) (fun _ => ?_) | split | dsimp only | with_reducible refine askRemote_keeps (by assumption) ?_

theorem leaveDevice_keeps {s : State} {r : Req} {pa : Nat}  (hK : Keeps sK s) : Keeps sK (leaveDevice s r pa) := by
  unfold leaveDevice
  try dsimp only
  repeat' first | with_reducible assumption | with_reducible exact Keeps.refl _ | with_reducible refine meetRemote_keeps ?_ | with_reducible refine releaseAt_keeps ?_ | with_reducible refine failReq_keeps ?_ | with_reducible refine stay_keeps ?_ | with_reducible refine dropReq_keeps ?_ | with_reducible refine keepBad_keeps ?_ | with_reducible refine takeSeqs_keeps ?_ | with_reducible refine putReq_keeps ?_ | with_reducible refine toHost_keeps ?_ | fail_if_no_progress (with_reducible refine keeps_mk ?_) | with_reducible refine getD_keeps ?_ ?_ | intro _ hk | with_reducible refine keeps_ite (fun _ => ?_) (fun _ => ?_) | split | dsimp only | with_reducible refine meetRemote_keeps_eq (by assumption) ?_ | with_reducible refine toPeer_keeps (by assumption) ?_

theorem performHome_keeps {s : State} {r : Req} {pa : Nat} {stable : Bool} {ecc : Ecc}  (hK : Keeps sK s) : Keeps sK (performHome s r pa stable ecc) := by
  unfold performHome
  try dsimp only
  repeat' first | with_reducible assumption | with_reducible exact Keeps.refl _ | with_reducible refine countCorrected_keeps ?_ | with_reducible refine dropReq_keeps ?_ | with_reducible refine keepBad_keeps ?_ | with_reducible refine reportUncorr_keeps ?_ | with_reducible refine performLocal_keeps ?_ | fail_if_no_progress (with_reducible refine keeps_mk ?_) | with_reducible refine keeps_ite (fun _ => ?_) (fun _ => ?_) | split | dsimp only

theorem armMonitor_keeps {s : State} {r : Req} {pa : Nat} {stable : Bool}  (hK : Keeps sK s) : Keeps sK (armMonitor s r pa stable) := by
  unfold armMonitor
  try dsimp only
  repeat' first | with_reducible assumption | with_reducible exact Keeps.refl _ | with_reducible refine localLoad_keeps ?_ | with_reducible refine acquireAt_keeps ?_ | with_reducible refine onTeam_keeps ?_ | fail_if_no_progress (with_reducible refine keeps_mk ?_) | with_reducible refine keeps_ite (fun _ => ?_) (fun _ => ?_) | split | dsimp only | with_reducible refine localLoad_keeps_eq (by assumption) ?_

theorem fitSeqs_keeps {s : State} {r : Req} {pa : Nat}  (hK : Keeps sK s) : Keeps sK (fitSeqs s r pa).1 := by
  unfold fitSeqs
  try dsimp only
  repeat' first | with_reducible assumption | with_reducible exact Keeps.refl _ | with_reducible refine giveSeqs_keeps ?_ | with_reducible refine putReq_keeps ?_ | fail_if_no_progress (with_reducible refine keeps_mk ?_) | with_reducible refine keeps_ite (fun _ => ?_) (fun _ => ?_) | split | dsimp only

theorem fitSeqs_keeps_eq {s : State} {r : Req} {pa : Nat} {u0 : State} {q0 : _} (eK : fitSeqs s r pa = (u0, q0)) (hK : Keeps sK s) : Keeps sK u0 := by
  have := fitSeqs_keeps (sK := sK) (s := s) (r := r) (pa := pa) hK; rw [eK] at this; exact this

theorem arrive_keeps {s : State} {r : Req} {pa : Nat} {stable : Bool} {ecc : Ecc}  (hK : Keeps sK s) : Keeps sK (arrive s r pa stable ecc) := by
  unfold arrive
  try dsimp only
  repeat' first | with_reducible assumption | with_reducible exact Keeps.refl _ | with_reducible refine fitSeqs_keeps ?_ | with_reducible refine dropReq_keeps ?_ | with_reducible refine trySpawn_keeps ?_ | with_reducible refine bounceReq_keeps ?_ | with_reducible refine pollAway_keeps ?_ | with_reducible refine armMonitor_keeps ?_ | with_reducible refine leaveDevice_keeps ?_ | with_reducible refine performHome_keeps ?_ | fail_if_no_progress (with_reducible refine keeps_mk ?_) | with_reducible refine keeps_ite (fun _ => ?_) (fun _ => ?_) | split | dsimp only | with_reducible refine fitSeqs_keeps_eq (by assumption) ?_ | with_reducible refine trySpawn_keeps_eq (by assumption) ?_

theorem runReq_keeps {s : State} {id : Nat} {ecc : Ecc}  (hK : Keeps sK s) : Keeps sK (runReq s id ecc) := by
  unfold runReq
  try dsimp only
  repeat' first | with_reducible assumption | with_reducible exact Keeps.refl _ | with_reducible refine enterPannier_keeps ?_ | with_reducible refine stay_keeps ?_ | with_reducible refine translate_keeps ?_ | with_reducible refine arrive_keeps ?_ | with_reducible refine missReq_keeps ?_ | with_reducible refine failReq_keeps ?_ | fail_if_no_progress (with_reducible refine keeps_mk ?_) | with_reducible refine keeps_ite (fun _ => ?_) (fun _ => ?_) | split | dsimp only | with_reducible refine translate_keeps_eq (by assumption) ?_

theorem startReq_keeps {s : State} {r : Req}  (hK : Keeps sK s) : Keeps sK (startReq s r) := by
  unfold startReq
  try dsimp only
  repeat' first | with_reducible assumption | with_reducible exact Keeps.refl _ | with_reducible refine runReq_keeps ?_ | with_reducible refine addReq_keeps ?_ | fail_if_no_progress (with_reducible refine keeps_mk ?_) | with_reducible refine keeps_ite (fun _ => ?_) (fun _ => ?_) | split | dsimp only

theorem feedOp_keeps {s : State} {id : Nat}  (hK : Keeps sK s) : Keeps sK (feedOp s id) := by
  unfold feedOp
  try dsimp only
  repeat' first | with_reducible assumption | with_reducible exact Keeps.refl _ | with_reducible refine startReq_keeps ?_ | with_reducible refine putOp_keeps ?_ | fail_if_no_progress (with_reducible refine keeps_mk ?_) | with_reducible refine foldl_keeps ?_ ?_ | with_reducible refine foldl1_keeps ?_ ?_ | intro _ _ hk | with_reducible refine getD_keeps ?_ ?_ | intro _ hk | with_reducible refine keeps_ite (fun _ => ?_) (fun _ => ?_) | split | dsimp only

theorem feedTeam_keeps {s : State} {key : Nat}  (hK : Keeps sK s) : Keeps sK (feedTeam s key) := by
  unfold feedTeam
  try dsimp only
  repeat' first | with_reducible assumption | with_reducible exact Keeps.refl _ | with_reducible refine finishOp_keeps ?_ | with_reducible refine feedOp_keeps ?_ | fail_if_no_progress (with_reducible refine keeps_mk ?_) | with_reducible refine foldl_keeps ?_ ?_ | with_reducible refine foldl1_keeps ?_ ?_ | intro _ _ hk | with_reducible refine keeps_ite (fun _ => ?_) (fun _ => ?_) | split | dsimp only

theorem advanceReq_keeps {s : State} {id : Nat} {ecc : Ecc}  (hK : Keeps sK s) : Keeps sK (advanceReq s id ecc) := by
  unfold advanceReq
  try dsimp only
  repeat' first | with_reducible assumption | with_reducible exact Keeps.refl _ | with_reducible refine feedTeam_keeps ?_ | with_reducible refine finishOp_keeps ?_ | with_reducible refine runReq_keeps ?_ | fail_if_no_progress (with_reducible refine keeps_mk ?_) | with_reducible refine keeps_ite (fun _ => ?_) (fun _ => ?_) | split | dsimp only

theorem startOp_keeps {s : State} {o : MemOp} {reqs : List Req}  (hK : Keeps sK s) : Keeps sK (startOp s o reqs).1 := by
  unfold startOp
  try dsimp only
  repeat' first | with_reducible assumption | with_reducible exact Keeps.refl _ | with_reducible refine fresh_keeps ?_ | with_reducible refine finishOp_keeps ?_ | with_reducible refine feedOp_keeps ?_ | fail_if_no_progress (with_reducible refine keeps_mk ?_) | with_reducible refine keeps_ite (fun _ => ?_) (fun _ => ?_) | split | dsimp only

theorem startOp_keeps_eq {s : State} {o : MemOp} {reqs : List Req} {u0 : State} {q0 : _} (eK : startOp s o reqs = (u0, q0)) (hK : Keeps sK s) : Keeps sK u0 := by
  have := startOp_keeps (sK := sK) (s := s) (o := o) (reqs := reqs) hK; rw [eK] at this; exact this

theorem touchPage_keeps {c : Ctx} {cls : Nat} {va : Nat} {s : State} {pay : List Byte}  {u0 : State} (eK : touchPage c cls va s pay = .hold u0) (hK : Keeps sK s) : Keeps sK u0 := by
  unfold touchPage at eK
  try dsimp only at eK
  repeat' first | split at eK | (rw [Option.map_eq_some_iff] at eK; obtain ⟨_, _, eK⟩ := eK; try dsimp only at eK) | (rw [Option.bind_eq_some_iff] at eK; obtain ⟨_, _, eK⟩ := eK; try dsimp only at eK)
  all_goals (try first | (injection eK with eK; subst eK) | (injection eK; done) | subst eK)
  all_goals (repeat' first | (intro _ _ _ eK h1; (try dsimp only at eK); repeat' (split at eK)) | (intro _ _ _ eK; (try dsimp only at eK); repeat' (split at eK)) | (intro _ _ eK; (try dsimp only at eK); repeat' (split at eK)) | (intro _ eK; (try dsimp only at eK); repeat' (split at eK)) | intro _ | with_reducible assumption | with_reducible exact Keeps.refl _ | with_reducible refine startOp_keeps ?_ | with_reducible refine issue_keeps ?_ ?_ ?_ | fail_if_no_progress (with_reducible refine keeps_mk ?_) | with_reducible refine getD_keeps ?_ ?_ | with_reducible refine keeps_ite (fun _ => ?_) (fun _ => ?_) | split | dsimp only | with_reducible refine startOp_keeps_eq (by assumption) ?_ | (injection eK; done) | (injection eK with eK; subst eK) | (injection eK with eK; split at eK) | (injection eK with eK) | split at eK)


end Sys2Proof.Machine
end

