-- ==== Sys2Proof/Laws/KeepsMemory.lean ====
section
/-! SUPPORT. What every change keeps (Keeps), for Memory. -/

set_option linter.unusedTactic false
set_option linter.unreachableTactic false

namespace Sys2Proof.Machine

variable {sK : State}

theorem accTrap_keeps {cause : Nat} {a : Acc}  {u0 : State} : ¬ (accTrap cause a = .hold u0) := by
  intro eK
  unfold accTrap at eK
  try dsimp only at eK
  repeat' (split at eK)
  all_goals first | (cases eK; done) | exact absurd eK (by first | fail)

theorem accessChecks_keeps {c : Ctx} {s : State} {need : Need} {size : Nat} {as : List Acc} {local' : Bool}  {u0 : State} (eK : accessChecks c s need size as local' = .hold u0) (hK : Keeps sK s) : Keeps sK u0 := by
  unfold accessChecks at eK
  try dsimp only at eK
  repeat' first | split at eK | (rw [Option.map_eq_some_iff] at eK; obtain ⟨_, _, eK⟩ := eK; try dsimp only at eK) | (rw [Option.bind_eq_some_iff] at eK; obtain ⟨_, _, eK⟩ := eK; try dsimp only at eK)
  all_goals (try first | (injection eK with eK; subst eK) | (injection eK; done) | subst eK)
  all_goals (repeat' first | with_reducible assumption | with_reducible exact Keeps.refl _ | fail_if_no_progress (with_reducible refine keeps_mk ?_) | with_reducible refine keeps_ite (fun _ => ?_) (fun _ => ?_) | split | dsimp only | exact absurd (by assumption) accTrap_keeps | (injection eK; done) | (injection eK with eK; subst eK) | (injection eK with eK; split at eK) | (injection eK with eK) | split at eK)

theorem releaseWait_keeps {c : Ctx} {s : State} {scope : Nat} {lane : Nat}  {u0 : State} (eK : releaseWait c s scope lane = .hold u0) (hK : Keeps sK s) : Keeps sK u0 := by
  unfold releaseWait at eK
  try dsimp only at eK
  repeat' first | split at eK | (rw [Option.map_eq_some_iff] at eK; obtain ⟨_, _, eK⟩ := eK; try dsimp only at eK) | (rw [Option.bind_eq_some_iff] at eK; obtain ⟨_, _, eK⟩ := eK; try dsimp only at eK)
  all_goals (try first | (injection eK with eK; subst eK) | (injection eK; done) | subst eK)
  all_goals (repeat' first | with_reducible assumption | with_reducible exact Keeps.refl _ | fail_if_no_progress (with_reducible refine keeps_mk ?_) | with_reducible refine keeps_ite (fun _ => ?_) (fun _ => ?_) | split | dsimp only | (injection eK; done) | (injection eK with eK; subst eK) | (injection eK with eK; split at eK) | (injection eK with eK) | split at eK)

theorem memGate_keeps {m : Access} {c : Ctx} {s : State}  {u0 : State} (eK : memGate m c s = .hold u0) (hK : Keeps sK s) : Keeps sK u0 := by
  unfold memGate at eK
  try dsimp only at eK
  repeat' first | split at eK | (rw [Option.map_eq_some_iff] at eK; obtain ⟨_, _, eK⟩ := eK; try dsimp only at eK) | (rw [Option.bind_eq_some_iff] at eK; obtain ⟨_, _, eK⟩ := eK; try dsimp only at eK)
  all_goals (try first | (injection eK with eK; subst eK) | (injection eK; done) | subst eK)
  all_goals (repeat' first | (intro _ _ _ eK h1; (try dsimp only at eK); repeat' (split at eK)) | (intro _ _ _ eK; (try dsimp only at eK); repeat' (split at eK)) | (intro _ _ eK; (try dsimp only at eK); repeat' (split at eK)) | (intro _ eK; (try dsimp only at eK); repeat' (split at eK)) | intro _ | with_reducible assumption | with_reducible exact Keeps.refl _ | fail_if_no_progress (with_reducible refine keeps_mk ?_) | with_reducible refine getD_keeps ?_ ?_ | with_reducible refine keeps_ite (fun _ => ?_) (fun _ => ?_) | split | dsimp only | with_reducible refine accessChecks_keeps (by assumption) ?_ | with_reducible refine releaseWait_keeps (by assumption) ?_ | (injection eK; done) | (injection eK with eK; subst eK) | (injection eK with eK; split at eK) | (injection eK with eK) | split at eK)

theorem memEffect_keeps {m : Access} {c : Ctx} {s : State}  (hK : Keeps sK s) : Keeps sK (memEffect m c s).s := by
  unfold memEffect
  try dsimp only
  repeat' first | with_reducible assumption | with_reducible exact Keeps.refl _ | with_reducible refine parkTeam_keeps ?_ | with_reducible refine startOp_keeps ?_ | with_reducible refine issue_keeps ?_ ?_ ?_ | fail_if_no_progress (with_reducible refine keeps_mk ?_) | intro _ hk | with_reducible refine keeps_ite (fun _ => ?_) (fun _ => ?_) | split | dsimp only | with_reducible refine startOp_keeps_eq (by assumption) ?_

theorem memPerform_keeps {h : Shape} {m : Ctx → Access} {s : State}  {u0 : State} (eK : memPerform h m s = .next u0) (hK : Keeps sK s) : Keeps sK u0 := by
  unfold memPerform at eK
  try dsimp only at eK
  repeat' first | split at eK | (rw [Option.map_eq_some_iff] at eK; obtain ⟨_, _, eK⟩ := eK; try dsimp only at eK) | (rw [Option.bind_eq_some_iff] at eK; obtain ⟨_, _, eK⟩ := eK; try dsimp only at eK)
  all_goals (try first | (injection eK with eK; subst eK) | (injection eK; done) | subst eK)
  all_goals (repeat' first | (intro _ _ _ eK h1; (try dsimp only at eK); repeat' (split at eK)) | (intro _ _ _ eK; (try dsimp only at eK); repeat' (split at eK)) | (intro _ _ eK; (try dsimp only at eK); repeat' (split at eK)) | (intro _ eK; (try dsimp only at eK); repeat' (split at eK)) | intro _ | with_reducible assumption | with_reducible exact Keeps.refl _ | with_reducible refine memEffect_keeps ?_ | fail_if_no_progress (with_reducible refine keeps_mk ?_) | with_reducible refine keeps_ite (fun _ => ?_) (fun _ => ?_) | split | dsimp only | with_reducible refine performGated_keeps ?_ ?_ (by assumption) ?_ | with_reducible refine memGate_keeps (by assumption) ?_ | (injection eK; done) | (injection eK with eK; subst eK))

theorem execLd8I_keeps {x : MF} {s : State}  {u0 : State} (eK : execLd8I x s = .next u0) (hK : Keeps sK s) : Keeps sK u0 := by
  unfold execLd8I at eK
  try dsimp only at eK
  repeat' first | split at eK | (rw [Option.map_eq_some_iff] at eK; obtain ⟨_, _, eK⟩ := eK; try dsimp only at eK) | (rw [Option.bind_eq_some_iff] at eK; obtain ⟨_, _, eK⟩ := eK; try dsimp only at eK)
  all_goals (try first | (injection eK with eK; subst eK) | (injection eK; done) | subst eK)
  all_goals (repeat' first | with_reducible assumption | with_reducible exact Keeps.refl _ | fail_if_no_progress (with_reducible refine keeps_mk ?_) | with_reducible refine keeps_ite (fun _ => ?_) (fun _ => ?_) | split | dsimp only | with_reducible refine memPerform_keeps (by assumption) ?_ | (injection eK; done) | (injection eK with eK; subst eK))

theorem execLd8N_keeps {x : MF} {s : State}  {u0 : State} (eK : execLd8N x s = .next u0) (hK : Keeps sK s) : Keeps sK u0 := by
  unfold execLd8N at eK
  try dsimp only at eK
  repeat' first | split at eK | (rw [Option.map_eq_some_iff] at eK; obtain ⟨_, _, eK⟩ := eK; try dsimp only at eK) | (rw [Option.bind_eq_some_iff] at eK; obtain ⟨_, _, eK⟩ := eK; try dsimp only at eK)
  all_goals (try first | (injection eK with eK; subst eK) | (injection eK; done) | subst eK)
  all_goals (repeat' first | with_reducible assumption | with_reducible exact Keeps.refl _ | fail_if_no_progress (with_reducible refine keeps_mk ?_) | with_reducible refine keeps_ite (fun _ => ?_) (fun _ => ?_) | split | dsimp only | with_reducible refine memPerform_keeps (by assumption) ?_ | (injection eK; done) | (injection eK with eK; subst eK))

theorem execLd16I_keeps {x : MF} {s : State}  {u0 : State} (eK : execLd16I x s = .next u0) (hK : Keeps sK s) : Keeps sK u0 := by
  unfold execLd16I at eK
  try dsimp only at eK
  repeat' first | split at eK | (rw [Option.map_eq_some_iff] at eK; obtain ⟨_, _, eK⟩ := eK; try dsimp only at eK) | (rw [Option.bind_eq_some_iff] at eK; obtain ⟨_, _, eK⟩ := eK; try dsimp only at eK)
  all_goals (try first | (injection eK with eK; subst eK) | (injection eK; done) | subst eK)
  all_goals (repeat' first | with_reducible assumption | with_reducible exact Keeps.refl _ | fail_if_no_progress (with_reducible refine keeps_mk ?_) | with_reducible refine keeps_ite (fun _ => ?_) (fun _ => ?_) | split | dsimp only | with_reducible refine memPerform_keeps (by assumption) ?_ | (injection eK; done) | (injection eK with eK; subst eK))

theorem execLd16N_keeps {x : MF} {s : State}  {u0 : State} (eK : execLd16N x s = .next u0) (hK : Keeps sK s) : Keeps sK u0 := by
  unfold execLd16N at eK
  try dsimp only at eK
  repeat' first | split at eK | (rw [Option.map_eq_some_iff] at eK; obtain ⟨_, _, eK⟩ := eK; try dsimp only at eK) | (rw [Option.bind_eq_some_iff] at eK; obtain ⟨_, _, eK⟩ := eK; try dsimp only at eK)
  all_goals (try first | (injection eK with eK; subst eK) | (injection eK; done) | subst eK)
  all_goals (repeat' first | with_reducible assumption | with_reducible exact Keeps.refl _ | fail_if_no_progress (with_reducible refine keeps_mk ?_) | with_reducible refine keeps_ite (fun _ => ?_) (fun _ => ?_) | split | dsimp only | with_reducible refine memPerform_keeps (by assumption) ?_ | (injection eK; done) | (injection eK with eK; subst eK))

theorem execLd32_keeps {x : MF} {s : State}  {u0 : State} (eK : execLd32 x s = .next u0) (hK : Keeps sK s) : Keeps sK u0 := by
  unfold execLd32 at eK
  try dsimp only at eK
  repeat' first | split at eK | (rw [Option.map_eq_some_iff] at eK; obtain ⟨_, _, eK⟩ := eK; try dsimp only at eK) | (rw [Option.bind_eq_some_iff] at eK; obtain ⟨_, _, eK⟩ := eK; try dsimp only at eK)
  all_goals (try first | (injection eK with eK; subst eK) | (injection eK; done) | subst eK)
  all_goals (repeat' first | with_reducible assumption | with_reducible exact Keeps.refl _ | fail_if_no_progress (with_reducible refine keeps_mk ?_) | with_reducible refine keeps_ite (fun _ => ?_) (fun _ => ?_) | split | dsimp only | with_reducible refine memPerform_keeps (by assumption) ?_ | (injection eK; done) | (injection eK with eK; subst eK))

theorem execLd64_keeps {x : MF} {s : State}  {u0 : State} (eK : execLd64 x s = .next u0) (hK : Keeps sK s) : Keeps sK u0 := by
  unfold execLd64 at eK
  try dsimp only at eK
  repeat' first | split at eK | (rw [Option.map_eq_some_iff] at eK; obtain ⟨_, _, eK⟩ := eK; try dsimp only at eK) | (rw [Option.bind_eq_some_iff] at eK; obtain ⟨_, _, eK⟩ := eK; try dsimp only at eK)
  all_goals (try first | (injection eK with eK; subst eK) | (injection eK; done) | subst eK)
  all_goals (repeat' first | with_reducible assumption | with_reducible exact Keeps.refl _ | fail_if_no_progress (with_reducible refine keeps_mk ?_) | with_reducible refine keeps_ite (fun _ => ?_) (fun _ => ?_) | split | dsimp only | with_reducible refine memPerform_keeps (by assumption) ?_ | (injection eK; done) | (injection eK with eK; subst eK))

theorem execLd128_keeps {x : MF} {s : State}  {u0 : State} (eK : execLd128 x s = .next u0) (hK : Keeps sK s) : Keeps sK u0 := by
  unfold execLd128 at eK
  try dsimp only at eK
  repeat' first | split at eK | (rw [Option.map_eq_some_iff] at eK; obtain ⟨_, _, eK⟩ := eK; try dsimp only at eK) | (rw [Option.bind_eq_some_iff] at eK; obtain ⟨_, _, eK⟩ := eK; try dsimp only at eK)
  all_goals (try first | (injection eK with eK; subst eK) | (injection eK; done) | subst eK)
  all_goals (repeat' first | with_reducible assumption | with_reducible exact Keeps.refl _ | fail_if_no_progress (with_reducible refine keeps_mk ?_) | with_reducible refine keeps_ite (fun _ => ?_) (fun _ => ?_) | split | dsimp only | with_reducible refine memPerform_keeps (by assumption) ?_ | (injection eK; done) | (injection eK with eK; subst eK))

theorem execLdt32_keeps {x : MF} {s : State}  {u0 : State} (eK : execLdt32 x s = .next u0) (hK : Keeps sK s) : Keeps sK u0 := by
  unfold execLdt32 at eK
  try dsimp only at eK
  repeat' first | split at eK | (rw [Option.map_eq_some_iff] at eK; obtain ⟨_, _, eK⟩ := eK; try dsimp only at eK) | (rw [Option.bind_eq_some_iff] at eK; obtain ⟨_, _, eK⟩ := eK; try dsimp only at eK)
  all_goals (try first | (injection eK with eK; subst eK) | (injection eK; done) | subst eK)
  all_goals (repeat' first | with_reducible assumption | with_reducible exact Keeps.refl _ | fail_if_no_progress (with_reducible refine keeps_mk ?_) | with_reducible refine keeps_ite (fun _ => ?_) (fun _ => ?_) | split | dsimp only | with_reducible refine memPerform_keeps (by assumption) ?_ | (injection eK; done) | (injection eK with eK; subst eK))

theorem execSt8_keeps {x : MF} {s : State}  {u0 : State} (eK : execSt8 x s = .next u0) (hK : Keeps sK s) : Keeps sK u0 := by
  unfold execSt8 at eK
  try dsimp only at eK
  repeat' first | split at eK | (rw [Option.map_eq_some_iff] at eK; obtain ⟨_, _, eK⟩ := eK; try dsimp only at eK) | (rw [Option.bind_eq_some_iff] at eK; obtain ⟨_, _, eK⟩ := eK; try dsimp only at eK)
  all_goals (try first | (injection eK with eK; subst eK) | (injection eK; done) | subst eK)
  all_goals (repeat' first | with_reducible assumption | with_reducible exact Keeps.refl _ | fail_if_no_progress (with_reducible refine keeps_mk ?_) | with_reducible refine keeps_ite (fun _ => ?_) (fun _ => ?_) | split | dsimp only | with_reducible refine memPerform_keeps (by assumption) ?_ | (injection eK; done) | (injection eK with eK; subst eK))

theorem execSt16_keeps {x : MF} {s : State}  {u0 : State} (eK : execSt16 x s = .next u0) (hK : Keeps sK s) : Keeps sK u0 := by
  unfold execSt16 at eK
  try dsimp only at eK
  repeat' first | split at eK | (rw [Option.map_eq_some_iff] at eK; obtain ⟨_, _, eK⟩ := eK; try dsimp only at eK) | (rw [Option.bind_eq_some_iff] at eK; obtain ⟨_, _, eK⟩ := eK; try dsimp only at eK)
  all_goals (try first | (injection eK with eK; subst eK) | (injection eK; done) | subst eK)
  all_goals (repeat' first | with_reducible assumption | with_reducible exact Keeps.refl _ | fail_if_no_progress (with_reducible refine keeps_mk ?_) | with_reducible refine keeps_ite (fun _ => ?_) (fun _ => ?_) | split | dsimp only | with_reducible refine memPerform_keeps (by assumption) ?_ | (injection eK; done) | (injection eK with eK; subst eK))

theorem execSt32_keeps {x : MF} {s : State}  {u0 : State} (eK : execSt32 x s = .next u0) (hK : Keeps sK s) : Keeps sK u0 := by
  unfold execSt32 at eK
  try dsimp only at eK
  repeat' first | split at eK | (rw [Option.map_eq_some_iff] at eK; obtain ⟨_, _, eK⟩ := eK; try dsimp only at eK) | (rw [Option.bind_eq_some_iff] at eK; obtain ⟨_, _, eK⟩ := eK; try dsimp only at eK)
  all_goals (try first | (injection eK with eK; subst eK) | (injection eK; done) | subst eK)
  all_goals (repeat' first | with_reducible assumption | with_reducible exact Keeps.refl _ | fail_if_no_progress (with_reducible refine keeps_mk ?_) | with_reducible refine keeps_ite (fun _ => ?_) (fun _ => ?_) | split | dsimp only | with_reducible refine memPerform_keeps (by assumption) ?_ | (injection eK; done) | (injection eK with eK; subst eK))

theorem execSt64_keeps {x : MF} {s : State}  {u0 : State} (eK : execSt64 x s = .next u0) (hK : Keeps sK s) : Keeps sK u0 := by
  unfold execSt64 at eK
  try dsimp only at eK
  repeat' first | split at eK | (rw [Option.map_eq_some_iff] at eK; obtain ⟨_, _, eK⟩ := eK; try dsimp only at eK) | (rw [Option.bind_eq_some_iff] at eK; obtain ⟨_, _, eK⟩ := eK; try dsimp only at eK)
  all_goals (try first | (injection eK with eK; subst eK) | (injection eK; done) | subst eK)
  all_goals (repeat' first | with_reducible assumption | with_reducible exact Keeps.refl _ | fail_if_no_progress (with_reducible refine keeps_mk ?_) | with_reducible refine keeps_ite (fun _ => ?_) (fun _ => ?_) | split | dsimp only | with_reducible refine memPerform_keeps (by assumption) ?_ | (injection eK; done) | (injection eK with eK; subst eK))

theorem execSt128_keeps {x : MF} {s : State}  {u0 : State} (eK : execSt128 x s = .next u0) (hK : Keeps sK s) : Keeps sK u0 := by
  unfold execSt128 at eK
  try dsimp only at eK
  repeat' first | split at eK | (rw [Option.map_eq_some_iff] at eK; obtain ⟨_, _, eK⟩ := eK; try dsimp only at eK) | (rw [Option.bind_eq_some_iff] at eK; obtain ⟨_, _, eK⟩ := eK; try dsimp only at eK)
  all_goals (try first | (injection eK with eK; subst eK) | (injection eK; done) | subst eK)
  all_goals (repeat' first | with_reducible assumption | with_reducible exact Keeps.refl _ | fail_if_no_progress (with_reducible refine keeps_mk ?_) | with_reducible refine keeps_ite (fun _ => ?_) (fun _ => ?_) | split | dsimp only | with_reducible refine memPerform_keeps (by assumption) ?_ | (injection eK; done) | (injection eK with eK; subst eK))

theorem execStt32_keeps {x : MF} {s : State}  {u0 : State} (eK : execStt32 x s = .next u0) (hK : Keeps sK s) : Keeps sK u0 := by
  unfold execStt32 at eK
  try dsimp only at eK
  repeat' first | split at eK | (rw [Option.map_eq_some_iff] at eK; obtain ⟨_, _, eK⟩ := eK; try dsimp only at eK) | (rw [Option.bind_eq_some_iff] at eK; obtain ⟨_, _, eK⟩ := eK; try dsimp only at eK)
  all_goals (try first | (injection eK with eK; subst eK) | (injection eK; done) | subst eK)
  all_goals (repeat' first | with_reducible assumption | with_reducible exact Keeps.refl _ | fail_if_no_progress (with_reducible refine keeps_mk ?_) | with_reducible refine keeps_ite (fun _ => ?_) (fun _ => ?_) | split | dsimp only | with_reducible refine memPerform_keeps (by assumption) ?_ | (injection eK; done) | (injection eK with eK; subst eK))

theorem scratchGate_keeps {size : Nat} {write : Bool} {c : Ctx} {s : State}  {u0 : State} (eK : scratchGate size write c s = .hold u0) (hK : Keeps sK s) : Keeps sK u0 := by
  unfold scratchGate at eK
  try dsimp only at eK
  repeat' first | split at eK | (rw [Option.map_eq_some_iff] at eK; obtain ⟨_, _, eK⟩ := eK; try dsimp only at eK) | (rw [Option.bind_eq_some_iff] at eK; obtain ⟨_, _, eK⟩ := eK; try dsimp only at eK)
  all_goals (try first | (injection eK with eK; subst eK) | (injection eK; done) | subst eK)
  all_goals (repeat' first | with_reducible assumption | with_reducible exact Keeps.refl _ | fail_if_no_progress (with_reducible refine keeps_mk ?_) | with_reducible refine keeps_ite (fun _ => ?_) (fun _ => ?_) | split | dsimp only | with_reducible refine acquireGate_keeps (by assumption) ?_ | (injection eK; done) | (injection eK with eK; subst eK) | (injection eK with eK; split at eK) | (injection eK with eK) | split at eK)

theorem execLds_keeps {x : MF} {s : State}  {u0 : State} (eK : execLds x s = .next u0) (hK : Keeps sK s) : Keeps sK u0 := by
  unfold execLds at eK
  try dsimp only at eK
  repeat' first | split at eK | (rw [Option.map_eq_some_iff] at eK; obtain ⟨_, _, eK⟩ := eK; try dsimp only at eK) | (rw [Option.bind_eq_some_iff] at eK; obtain ⟨_, _, eK⟩ := eK; try dsimp only at eK)
  all_goals (try first | (injection eK with eK; subst eK) | (injection eK; done) | subst eK)
  all_goals (repeat' first | (intro _ _ _ eK h1; (try dsimp only at eK); repeat' (split at eK)) | (intro _ _ _ eK; (try dsimp only at eK); repeat' (split at eK)) | (intro _ _ eK; (try dsimp only at eK); repeat' (split at eK)) | (intro _ eK; (try dsimp only at eK); repeat' (split at eK)) | intro _ | with_reducible assumption | with_reducible exact Keeps.refl _ | with_reducible refine writeVector_keeps ?_ | with_reducible refine writeGroup_keeps ?_ | fail_if_no_progress (with_reducible refine keeps_mk ?_) | with_reducible refine keeps_ite (fun _ => ?_) (fun _ => ?_) | split | dsimp only | with_reducible refine performGated_keeps ?_ ?_ (by assumption) ?_ | with_reducible refine scratchGate_keeps (by assumption) ?_ | (injection eK; done) | (injection eK with eK; subst eK))

theorem execSts_keeps {x : MF} {s : State}  {u0 : State} (eK : execSts x s = .next u0) (hK : Keeps sK s) : Keeps sK u0 := by
  unfold execSts at eK
  try dsimp only at eK
  repeat' first | split at eK | (rw [Option.map_eq_some_iff] at eK; obtain ⟨_, _, eK⟩ := eK; try dsimp only at eK) | (rw [Option.bind_eq_some_iff] at eK; obtain ⟨_, _, eK⟩ := eK; try dsimp only at eK)
  all_goals (try first | (injection eK with eK; subst eK) | (injection eK; done) | subst eK)
  all_goals (repeat' first | (intro _ _ _ eK h1; (try dsimp only at eK); repeat' (split at eK)) | (intro _ _ _ eK; (try dsimp only at eK); repeat' (split at eK)) | (intro _ _ eK; (try dsimp only at eK); repeat' (split at eK)) | (intro _ eK; (try dsimp only at eK); repeat' (split at eK)) | intro _ | with_reducible assumption | with_reducible exact Keeps.refl _ | with_reducible refine onCrew_keeps ?_ | fail_if_no_progress (with_reducible refine keeps_mk ?_) | with_reducible refine foldl_keeps ?_ ?_ | with_reducible refine foldl1_keeps ?_ ?_ | with_reducible refine keeps_ite (fun _ => ?_) (fun _ => ?_) | split | dsimp only | with_reducible refine performGated_keeps ?_ ?_ (by assumption) ?_ | with_reducible refine scratchGate_keeps (by assumption) ?_ | (injection eK; done) | (injection eK with eK; subst eK))

theorem atomPerform_keeps {o : BitVec 2} {x : AT} {code n size regs tag : Nat} {s : State}  {u0 : State} (eK : atomPerform o x code n size regs tag s = .next u0) (hK : Keeps sK s) : Keeps sK u0 := by
  unfold atomPerform at eK
  try dsimp only at eK
  repeat' first | split at eK | (rw [Option.map_eq_some_iff] at eK; obtain ⟨_, _, eK⟩ := eK; try dsimp only at eK) | (rw [Option.bind_eq_some_iff] at eK; obtain ⟨_, _, eK⟩ := eK; try dsimp only at eK)
  all_goals (try first | (injection eK with eK; subst eK) | (injection eK; done) | subst eK)
  all_goals (repeat' first | with_reducible assumption | with_reducible exact Keeps.refl _ | fail_if_no_progress (with_reducible refine keeps_mk ?_) | with_reducible refine keeps_ite (fun _ => ?_) (fun _ => ?_) | split | dsimp only | with_reducible refine memPerform_keeps (by assumption) ?_ | (injection eK; done) | (injection eK with eK; subst eK))

theorem execAtomAdd_keeps {o : BitVec 2} {x : AT} {s : State}  {u0 : State} (eK : execAtomAdd o x s = .next u0) (hK : Keeps sK s) : Keeps sK u0 := by
  unfold execAtomAdd at eK
  try dsimp only at eK
  repeat' first | split at eK | (rw [Option.map_eq_some_iff] at eK; obtain ⟨_, _, eK⟩ := eK; try dsimp only at eK) | (rw [Option.bind_eq_some_iff] at eK; obtain ⟨_, _, eK⟩ := eK; try dsimp only at eK)
  all_goals (try first | (injection eK with eK; subst eK) | (injection eK; done) | subst eK)
  all_goals (repeat' first | with_reducible assumption | with_reducible exact Keeps.refl _ | fail_if_no_progress (with_reducible refine keeps_mk ?_) | with_reducible refine keeps_ite (fun _ => ?_) (fun _ => ?_) | split | dsimp only | with_reducible refine atomPerform_keeps (by assumption) ?_ | (injection eK; done) | (injection eK with eK; subst eK))

theorem execAtomAdd64_keeps {o : BitVec 2} {x : AT} {s : State}  {u0 : State} (eK : execAtomAdd64 o x s = .next u0) (hK : Keeps sK s) : Keeps sK u0 := by
  unfold execAtomAdd64 at eK
  try dsimp only at eK
  repeat' first | split at eK | (rw [Option.map_eq_some_iff] at eK; obtain ⟨_, _, eK⟩ := eK; try dsimp only at eK) | (rw [Option.bind_eq_some_iff] at eK; obtain ⟨_, _, eK⟩ := eK; try dsimp only at eK)
  all_goals (try first | (injection eK with eK; subst eK) | (injection eK; done) | subst eK)
  all_goals (repeat' first | with_reducible assumption | with_reducible exact Keeps.refl _ | fail_if_no_progress (with_reducible refine keeps_mk ?_) | with_reducible refine keeps_ite (fun _ => ?_) (fun _ => ?_) | split | dsimp only | with_reducible refine atomPerform_keeps (by assumption) ?_ | (injection eK; done) | (injection eK with eK; subst eK))

theorem execAtomMini_keeps {o : BitVec 2} {x : AT} {s : State}  {u0 : State} (eK : execAtomMini o x s = .next u0) (hK : Keeps sK s) : Keeps sK u0 := by
  unfold execAtomMini at eK
  try dsimp only at eK
  repeat' first | split at eK | (rw [Option.map_eq_some_iff] at eK; obtain ⟨_, _, eK⟩ := eK; try dsimp only at eK) | (rw [Option.bind_eq_some_iff] at eK; obtain ⟨_, _, eK⟩ := eK; try dsimp only at eK)
  all_goals (try first | (injection eK with eK; subst eK) | (injection eK; done) | subst eK)
  all_goals (repeat' first | with_reducible assumption | with_reducible exact Keeps.refl _ | fail_if_no_progress (with_reducible refine keeps_mk ?_) | with_reducible refine keeps_ite (fun _ => ?_) (fun _ => ?_) | split | dsimp only | with_reducible refine atomPerform_keeps (by assumption) ?_ | (injection eK; done) | (injection eK with eK; subst eK))

theorem execAtomMaxi_keeps {o : BitVec 2} {x : AT} {s : State}  {u0 : State} (eK : execAtomMaxi o x s = .next u0) (hK : Keeps sK s) : Keeps sK u0 := by
  unfold execAtomMaxi at eK
  try dsimp only at eK
  repeat' first | split at eK | (rw [Option.map_eq_some_iff] at eK; obtain ⟨_, _, eK⟩ := eK; try dsimp only at eK) | (rw [Option.bind_eq_some_iff] at eK; obtain ⟨_, _, eK⟩ := eK; try dsimp only at eK)
  all_goals (try first | (injection eK with eK; subst eK) | (injection eK; done) | subst eK)
  all_goals (repeat' first | with_reducible assumption | with_reducible exact Keeps.refl _ | fail_if_no_progress (with_reducible refine keeps_mk ?_) | with_reducible refine keeps_ite (fun _ => ?_) (fun _ => ?_) | split | dsimp only | with_reducible refine atomPerform_keeps (by assumption) ?_ | (injection eK; done) | (injection eK with eK; subst eK))

theorem execAtomMinn_keeps {o : BitVec 2} {x : AT} {s : State}  {u0 : State} (eK : execAtomMinn o x s = .next u0) (hK : Keeps sK s) : Keeps sK u0 := by
  unfold execAtomMinn at eK
  try dsimp only at eK
  repeat' first | split at eK | (rw [Option.map_eq_some_iff] at eK; obtain ⟨_, _, eK⟩ := eK; try dsimp only at eK) | (rw [Option.bind_eq_some_iff] at eK; obtain ⟨_, _, eK⟩ := eK; try dsimp only at eK)
  all_goals (try first | (injection eK with eK; subst eK) | (injection eK; done) | subst eK)
  all_goals (repeat' first | with_reducible assumption | with_reducible exact Keeps.refl _ | fail_if_no_progress (with_reducible refine keeps_mk ?_) | with_reducible refine keeps_ite (fun _ => ?_) (fun _ => ?_) | split | dsimp only | with_reducible refine atomPerform_keeps (by assumption) ?_ | (injection eK; done) | (injection eK with eK; subst eK))

theorem execAtomMaxn_keeps {o : BitVec 2} {x : AT} {s : State}  {u0 : State} (eK : execAtomMaxn o x s = .next u0) (hK : Keeps sK s) : Keeps sK u0 := by
  unfold execAtomMaxn at eK
  try dsimp only at eK
  repeat' first | split at eK | (rw [Option.map_eq_some_iff] at eK; obtain ⟨_, _, eK⟩ := eK; try dsimp only at eK) | (rw [Option.bind_eq_some_iff] at eK; obtain ⟨_, _, eK⟩ := eK; try dsimp only at eK)
  all_goals (try first | (injection eK with eK; subst eK) | (injection eK; done) | subst eK)
  all_goals (repeat' first | with_reducible assumption | with_reducible exact Keeps.refl _ | fail_if_no_progress (with_reducible refine keeps_mk ?_) | with_reducible refine keeps_ite (fun _ => ?_) (fun _ => ?_) | split | dsimp only | with_reducible refine atomPerform_keeps (by assumption) ?_ | (injection eK; done) | (injection eK with eK; subst eK))

theorem execAtomAnd_keeps {o : BitVec 2} {x : AT} {s : State}  {u0 : State} (eK : execAtomAnd o x s = .next u0) (hK : Keeps sK s) : Keeps sK u0 := by
  unfold execAtomAnd at eK
  try dsimp only at eK
  repeat' first | split at eK | (rw [Option.map_eq_some_iff] at eK; obtain ⟨_, _, eK⟩ := eK; try dsimp only at eK) | (rw [Option.bind_eq_some_iff] at eK; obtain ⟨_, _, eK⟩ := eK; try dsimp only at eK)
  all_goals (try first | (injection eK with eK; subst eK) | (injection eK; done) | subst eK)
  all_goals (repeat' first | with_reducible assumption | with_reducible exact Keeps.refl _ | fail_if_no_progress (with_reducible refine keeps_mk ?_) | with_reducible refine keeps_ite (fun _ => ?_) (fun _ => ?_) | split | dsimp only | with_reducible refine atomPerform_keeps (by assumption) ?_ | (injection eK; done) | (injection eK with eK; subst eK))

theorem execAtomOr_keeps {o : BitVec 2} {x : AT} {s : State}  {u0 : State} (eK : execAtomOr o x s = .next u0) (hK : Keeps sK s) : Keeps sK u0 := by
  unfold execAtomOr at eK
  try dsimp only at eK
  repeat' first | split at eK | (rw [Option.map_eq_some_iff] at eK; obtain ⟨_, _, eK⟩ := eK; try dsimp only at eK) | (rw [Option.bind_eq_some_iff] at eK; obtain ⟨_, _, eK⟩ := eK; try dsimp only at eK)
  all_goals (try first | (injection eK with eK; subst eK) | (injection eK; done) | subst eK)
  all_goals (repeat' first | with_reducible assumption | with_reducible exact Keeps.refl _ | fail_if_no_progress (with_reducible refine keeps_mk ?_) | with_reducible refine keeps_ite (fun _ => ?_) (fun _ => ?_) | split | dsimp only | with_reducible refine atomPerform_keeps (by assumption) ?_ | (injection eK; done) | (injection eK with eK; subst eK))

theorem execAtomXor_keeps {o : BitVec 2} {x : AT} {s : State}  {u0 : State} (eK : execAtomXor o x s = .next u0) (hK : Keeps sK s) : Keeps sK u0 := by
  unfold execAtomXor at eK
  try dsimp only at eK
  repeat' first | split at eK | (rw [Option.map_eq_some_iff] at eK; obtain ⟨_, _, eK⟩ := eK; try dsimp only at eK) | (rw [Option.bind_eq_some_iff] at eK; obtain ⟨_, _, eK⟩ := eK; try dsimp only at eK)
  all_goals (try first | (injection eK with eK; subst eK) | (injection eK; done) | subst eK)
  all_goals (repeat' first | with_reducible assumption | with_reducible exact Keeps.refl _ | fail_if_no_progress (with_reducible refine keeps_mk ?_) | with_reducible refine keeps_ite (fun _ => ?_) (fun _ => ?_) | split | dsimp only | with_reducible refine atomPerform_keeps (by assumption) ?_ | (injection eK; done) | (injection eK with eK; subst eK))

theorem execAtomSwap_keeps {o : BitVec 2} {x : AT} {s : State}  {u0 : State} (eK : execAtomSwap o x s = .next u0) (hK : Keeps sK s) : Keeps sK u0 := by
  unfold execAtomSwap at eK
  try dsimp only at eK
  repeat' first | split at eK | (rw [Option.map_eq_some_iff] at eK; obtain ⟨_, _, eK⟩ := eK; try dsimp only at eK) | (rw [Option.bind_eq_some_iff] at eK; obtain ⟨_, _, eK⟩ := eK; try dsimp only at eK)
  all_goals (try first | (injection eK with eK; subst eK) | (injection eK; done) | subst eK)
  all_goals (repeat' first | with_reducible assumption | with_reducible exact Keeps.refl _ | fail_if_no_progress (with_reducible refine keeps_mk ?_) | with_reducible refine keeps_ite (fun _ => ?_) (fun _ => ?_) | split | dsimp only | with_reducible refine atomPerform_keeps (by assumption) ?_ | (injection eK; done) | (injection eK with eK; subst eK))

theorem execAtomCas_keeps {o : BitVec 2} {x : AT} {s : State}  {u0 : State} (eK : execAtomCas o x s = .next u0) (hK : Keeps sK s) : Keeps sK u0 := by
  unfold execAtomCas at eK
  try dsimp only at eK
  repeat' first | split at eK | (rw [Option.map_eq_some_iff] at eK; obtain ⟨_, _, eK⟩ := eK; try dsimp only at eK) | (rw [Option.bind_eq_some_iff] at eK; obtain ⟨_, _, eK⟩ := eK; try dsimp only at eK)
  all_goals (try first | (injection eK with eK; subst eK) | (injection eK; done) | subst eK)
  all_goals (repeat' first | with_reducible assumption | with_reducible exact Keeps.refl _ | fail_if_no_progress (with_reducible refine keeps_mk ?_) | with_reducible refine keeps_ite (fun _ => ?_) (fun _ => ?_) | split | dsimp only | with_reducible refine atomPerform_keeps (by assumption) ?_ | (injection eK; done) | (injection eK with eK; subst eK))

theorem execAtomSwap64_keeps {o : BitVec 2} {x : AT} {s : State}  {u0 : State} (eK : execAtomSwap64 o x s = .next u0) (hK : Keeps sK s) : Keeps sK u0 := by
  unfold execAtomSwap64 at eK
  try dsimp only at eK
  repeat' first | split at eK | (rw [Option.map_eq_some_iff] at eK; obtain ⟨_, _, eK⟩ := eK; try dsimp only at eK) | (rw [Option.bind_eq_some_iff] at eK; obtain ⟨_, _, eK⟩ := eK; try dsimp only at eK)
  all_goals (try first | (injection eK with eK; subst eK) | (injection eK; done) | subst eK)
  all_goals (repeat' first | with_reducible assumption | with_reducible exact Keeps.refl _ | fail_if_no_progress (with_reducible refine keeps_mk ?_) | with_reducible refine keeps_ite (fun _ => ?_) (fun _ => ?_) | split | dsimp only | with_reducible refine atomPerform_keeps (by assumption) ?_ | (injection eK; done) | (injection eK with eK; subst eK))

theorem execAtomCas64_keeps {o : BitVec 2} {x : AT} {s : State}  {u0 : State} (eK : execAtomCas64 o x s = .next u0) (hK : Keeps sK s) : Keeps sK u0 := by
  unfold execAtomCas64 at eK
  try dsimp only at eK
  repeat' first | split at eK | (rw [Option.map_eq_some_iff] at eK; obtain ⟨_, _, eK⟩ := eK; try dsimp only at eK) | (rw [Option.bind_eq_some_iff] at eK; obtain ⟨_, _, eK⟩ := eK; try dsimp only at eK)
  all_goals (try first | (injection eK with eK; subst eK) | (injection eK; done) | subst eK)
  all_goals (repeat' first | with_reducible assumption | with_reducible exact Keeps.refl _ | fail_if_no_progress (with_reducible refine keeps_mk ?_) | with_reducible refine keeps_ite (fun _ => ?_) (fun _ => ?_) | split | dsimp only | with_reducible refine atomPerform_keeps (by assumption) ?_ | (injection eK; done) | (injection eK with eK; subst eK))

theorem execAtomFadd_keeps {o : BitVec 2} {x : AT} {s : State}  {u0 : State} (eK : execAtomFadd o x s = .next u0) (hK : Keeps sK s) : Keeps sK u0 := by
  unfold execAtomFadd at eK
  try dsimp only at eK
  repeat' first | split at eK | (rw [Option.map_eq_some_iff] at eK; obtain ⟨_, _, eK⟩ := eK; try dsimp only at eK) | (rw [Option.bind_eq_some_iff] at eK; obtain ⟨_, _, eK⟩ := eK; try dsimp only at eK)
  all_goals (try first | (injection eK with eK; subst eK) | (injection eK; done) | subst eK)
  all_goals (repeat' first | with_reducible assumption | with_reducible exact Keeps.refl _ | fail_if_no_progress (with_reducible refine keeps_mk ?_) | with_reducible refine keeps_ite (fun _ => ?_) (fun _ => ?_) | split | dsimp only | with_reducible refine atomPerform_keeps (by assumption) ?_ | (injection eK; done) | (injection eK with eK; subst eK))

theorem execAtomFmin_keeps {o : BitVec 2} {x : AT} {s : State}  {u0 : State} (eK : execAtomFmin o x s = .next u0) (hK : Keeps sK s) : Keeps sK u0 := by
  unfold execAtomFmin at eK
  try dsimp only at eK
  repeat' first | split at eK | (rw [Option.map_eq_some_iff] at eK; obtain ⟨_, _, eK⟩ := eK; try dsimp only at eK) | (rw [Option.bind_eq_some_iff] at eK; obtain ⟨_, _, eK⟩ := eK; try dsimp only at eK)
  all_goals (try first | (injection eK with eK; subst eK) | (injection eK; done) | subst eK)
  all_goals (repeat' first | with_reducible assumption | with_reducible exact Keeps.refl _ | fail_if_no_progress (with_reducible refine keeps_mk ?_) | with_reducible refine keeps_ite (fun _ => ?_) (fun _ => ?_) | split | dsimp only | with_reducible refine atomPerform_keeps (by assumption) ?_ | (injection eK; done) | (injection eK with eK; subst eK))

theorem execAtomFmax_keeps {o : BitVec 2} {x : AT} {s : State}  {u0 : State} (eK : execAtomFmax o x s = .next u0) (hK : Keeps sK s) : Keeps sK u0 := by
  unfold execAtomFmax at eK
  try dsimp only at eK
  repeat' first | split at eK | (rw [Option.map_eq_some_iff] at eK; obtain ⟨_, _, eK⟩ := eK; try dsimp only at eK) | (rw [Option.bind_eq_some_iff] at eK; obtain ⟨_, _, eK⟩ := eK; try dsimp only at eK)
  all_goals (try first | (injection eK with eK; subst eK) | (injection eK; done) | subst eK)
  all_goals (repeat' first | with_reducible assumption | with_reducible exact Keeps.refl _ | fail_if_no_progress (with_reducible refine keeps_mk ?_) | with_reducible refine keeps_ite (fun _ => ?_) (fun _ => ?_) | split | dsimp only | with_reducible refine atomPerform_keeps (by assumption) ?_ | (injection eK; done) | (injection eK with eK; subst eK))

theorem execAtomIncw_keeps {o : BitVec 2} {x : AT} {s : State}  {u0 : State} (eK : execAtomIncw o x s = .next u0) (hK : Keeps sK s) : Keeps sK u0 := by
  unfold execAtomIncw at eK
  try dsimp only at eK
  repeat' first | split at eK | (rw [Option.map_eq_some_iff] at eK; obtain ⟨_, _, eK⟩ := eK; try dsimp only at eK) | (rw [Option.bind_eq_some_iff] at eK; obtain ⟨_, _, eK⟩ := eK; try dsimp only at eK)
  all_goals (try first | (injection eK with eK; subst eK) | (injection eK; done) | subst eK)
  all_goals (repeat' first | with_reducible assumption | with_reducible exact Keeps.refl _ | fail_if_no_progress (with_reducible refine keeps_mk ?_) | with_reducible refine keeps_ite (fun _ => ?_) (fun _ => ?_) | split | dsimp only | with_reducible refine atomPerform_keeps (by assumption) ?_ | (injection eK; done) | (injection eK with eK; subst eK))

theorem execAtomDecsp_keeps {o : BitVec 2} {x : AT} {s : State}  {u0 : State} (eK : execAtomDecsp o x s = .next u0) (hK : Keeps sK s) : Keeps sK u0 := by
  unfold execAtomDecsp at eK
  try dsimp only at eK
  repeat' first | split at eK | (rw [Option.map_eq_some_iff] at eK; obtain ⟨_, _, eK⟩ := eK; try dsimp only at eK) | (rw [Option.bind_eq_some_iff] at eK; obtain ⟨_, _, eK⟩ := eK; try dsimp only at eK)
  all_goals (try first | (injection eK with eK; subst eK) | (injection eK; done) | subst eK)
  all_goals (repeat' first | with_reducible assumption | with_reducible exact Keeps.refl _ | fail_if_no_progress (with_reducible refine keeps_mk ?_) | with_reducible refine keeps_ite (fun _ => ?_) (fun _ => ?_) | split | dsimp only | with_reducible refine atomPerform_keeps (by assumption) ?_ | (injection eK; done) | (injection eK with eK; subst eK))

theorem execAtomRedadd_keeps {o : BitVec 2} {x : AT} {s : State}  {u0 : State} (eK : execAtomRedadd o x s = .next u0) (hK : Keeps sK s) : Keeps sK u0 := by
  unfold execAtomRedadd at eK
  try dsimp only at eK
  repeat' first | split at eK | (rw [Option.map_eq_some_iff] at eK; obtain ⟨_, _, eK⟩ := eK; try dsimp only at eK) | (rw [Option.bind_eq_some_iff] at eK; obtain ⟨_, _, eK⟩ := eK; try dsimp only at eK)
  all_goals (try first | (injection eK with eK; subst eK) | (injection eK; done) | subst eK)
  all_goals (repeat' first | with_reducible assumption | with_reducible exact Keeps.refl _ | fail_if_no_progress (with_reducible refine keeps_mk ?_) | with_reducible refine keeps_ite (fun _ => ?_) (fun _ => ?_) | split | dsimp only | with_reducible refine atomPerform_keeps (by assumption) ?_ | (injection eK; done) | (injection eK with eK; subst eK))

theorem execAtomRedfadd_keeps {o : BitVec 2} {x : AT} {s : State}  {u0 : State} (eK : execAtomRedfadd o x s = .next u0) (hK : Keeps sK s) : Keeps sK u0 := by
  unfold execAtomRedfadd at eK
  try dsimp only at eK
  repeat' first | split at eK | (rw [Option.map_eq_some_iff] at eK; obtain ⟨_, _, eK⟩ := eK; try dsimp only at eK) | (rw [Option.bind_eq_some_iff] at eK; obtain ⟨_, _, eK⟩ := eK; try dsimp only at eK)
  all_goals (try first | (injection eK with eK; subst eK) | (injection eK; done) | subst eK)
  all_goals (repeat' first | with_reducible assumption | with_reducible exact Keeps.refl _ | fail_if_no_progress (with_reducible refine keeps_mk ?_) | with_reducible refine keeps_ite (fun _ => ?_) (fun _ => ?_) | split | dsimp only | with_reducible refine atomPerform_keeps (by assumption) ?_ | (injection eK; done) | (injection eK with eK; subst eK))

theorem fenceGate_keeps {scope : Nat} {c : Ctx} {s : State}  {u0 : State} (eK : fenceGate scope c s = .hold u0) (hK : Keeps sK s) : Keeps sK u0 := by
  unfold fenceGate at eK
  try dsimp only at eK
  repeat' first | split at eK | (rw [Option.map_eq_some_iff] at eK; obtain ⟨_, _, eK⟩ := eK; try dsimp only at eK) | (rw [Option.bind_eq_some_iff] at eK; obtain ⟨_, _, eK⟩ := eK; try dsimp only at eK)
  all_goals (try first | (injection eK with eK; subst eK) | (injection eK; done) | subst eK)
  all_goals (repeat' first | with_reducible assumption | with_reducible exact Keeps.refl _ | fail_if_no_progress (with_reducible refine keeps_mk ?_) | with_reducible refine keeps_ite (fun _ => ?_) (fun _ => ?_) | split | dsimp only | with_reducible refine olderGate_keeps (by assumption) ?_ | (injection eK; done) | (injection eK with eK; subst eK) | (injection eK with eK; split at eK) | (injection eK with eK) | split at eK)

theorem execFence_keeps {order : BitVec 2} {scope : BitVec 3} {x : SF} {s : State}  {u0 : State} (eK : execFence order scope x s = .next u0) (hK : Keeps sK s) : Keeps sK u0 := by
  unfold execFence at eK
  try dsimp only at eK
  repeat' first | split at eK | (rw [Option.map_eq_some_iff] at eK; obtain ⟨_, _, eK⟩ := eK; try dsimp only at eK) | (rw [Option.bind_eq_some_iff] at eK; obtain ⟨_, _, eK⟩ := eK; try dsimp only at eK)
  all_goals (try first | (injection eK with eK; subst eK) | (injection eK; done) | subst eK)
  all_goals (repeat' first | (intro _ _ _ eK h1; (try dsimp only at eK); repeat' (split at eK)) | (intro _ _ _ eK; (try dsimp only at eK); repeat' (split at eK)) | (intro _ _ eK; (try dsimp only at eK); repeat' (split at eK)) | (intro _ eK; (try dsimp only at eK); repeat' (split at eK)) | intro _ | with_reducible assumption | with_reducible exact Keeps.refl _ | with_reducible refine releaseAt_keeps ?_ | with_reducible refine acquireAt_keeps ?_ | with_reducible refine onTeam_keeps ?_ | fail_if_no_progress (with_reducible refine keeps_mk ?_) | with_reducible refine keeps_ite (fun _ => ?_) (fun _ => ?_) | split | dsimp only | with_reducible refine performGated_keeps ?_ ?_ (by assumption) ?_ | with_reducible refine fenceGate_keeps (by assumption) ?_ | (injection eK; done) | (injection eK with eK; subst eK))

theorem markRange_keeps {s : State} {k c base len : Nat}  (hK : Keeps sK s) : Keeps sK (markRange s k c base len) := by
  unfold markRange
  try dsimp only
  repeat' first | with_reducible assumption | with_reducible exact Keeps.refl _ | with_reducible refine markRefused_keeps ?_ | fail_if_no_progress (with_reducible refine keeps_mk ?_) | with_reducible refine foldl_keeps ?_ ?_ | with_reducible refine foldl1_keeps ?_ ?_ | intro _ _ hk | with_reducible refine keeps_ite (fun _ => ?_) (fun _ => ?_) | split | dsimp only

theorem execFlushr_keeps {order : BitVec 2} {scope : BitVec 3} {x : SF} {s : State}  {u0 : State} (eK : execFlushr order scope x s = .next u0) (hK : Keeps sK s) : Keeps sK u0 := by
  unfold execFlushr at eK
  try dsimp only at eK
  repeat' first | split at eK | (rw [Option.map_eq_some_iff] at eK; obtain ⟨_, _, eK⟩ := eK; try dsimp only at eK) | (rw [Option.bind_eq_some_iff] at eK; obtain ⟨_, _, eK⟩ := eK; try dsimp only at eK)
  all_goals (try first | (injection eK with eK; subst eK) | (injection eK; done) | subst eK)
  all_goals (repeat' first | (intro _ _ _ eK h1; (try dsimp only at eK); repeat' (split at eK)) | (intro _ _ _ eK; (try dsimp only at eK); repeat' (split at eK)) | (intro _ _ eK; (try dsimp only at eK); repeat' (split at eK)) | (intro _ eK; (try dsimp only at eK); repeat' (split at eK)) | intro _ | with_reducible assumption | with_reducible exact Keeps.refl _ | with_reducible refine markRange_keeps ?_ | with_reducible refine writeBackIf_keeps ?_ | fail_if_no_progress (with_reducible refine keeps_mk ?_) | with_reducible refine foldl_keeps ?_ ?_ | with_reducible refine foldl1_keeps ?_ ?_ | with_reducible refine keeps_ite (fun _ => ?_) (fun _ => ?_) | split | dsimp only | with_reducible refine performGated_keeps ?_ ?_ (by assumption) ?_ | with_reducible refine olderGate_keeps (by assumption) ?_ | (injection eK; done) | (injection eK with eK; subst eK))

theorem execInvr_keeps {order : BitVec 2} {scope : BitVec 3} {x : SF} {s : State}  {u0 : State} (eK : execInvr order scope x s = .next u0) (hK : Keeps sK s) : Keeps sK u0 := by
  unfold execInvr at eK
  try dsimp only at eK
  repeat' first | split at eK | (rw [Option.map_eq_some_iff] at eK; obtain ⟨_, _, eK⟩ := eK; try dsimp only at eK) | (rw [Option.bind_eq_some_iff] at eK; obtain ⟨_, _, eK⟩ := eK; try dsimp only at eK)
  all_goals (try first | (injection eK with eK; subst eK) | (injection eK; done) | subst eK)
  all_goals (repeat' first | (intro _ _ _ eK h1; (try dsimp only at eK); repeat' (split at eK)) | (intro _ _ _ eK; (try dsimp only at eK); repeat' (split at eK)) | (intro _ _ eK; (try dsimp only at eK); repeat' (split at eK)) | (intro _ eK; (try dsimp only at eK); repeat' (split at eK)) | intro _ | with_reducible assumption | with_reducible exact Keeps.refl _ | with_reducible refine markRange_keeps ?_ | with_reducible refine dropWords_keeps ?_ | fail_if_no_progress (with_reducible refine keeps_mk ?_) | with_reducible refine foldl_keeps ?_ ?_ | with_reducible refine foldl1_keeps ?_ ?_ | with_reducible refine keeps_ite (fun _ => ?_) (fun _ => ?_) | split | dsimp only | with_reducible refine performGated_keeps ?_ ?_ (by assumption) ?_ | with_reducible refine olderGate_keeps (by assumption) ?_ | (injection eK; done) | (injection eK with eK; subst eK))

theorem ownLine_keeps {s : State} {j line : Nat}  (hK : Keeps sK s) : Keeps sK (ownLine s j line) := by
  unfold ownLine
  try dsimp only
  repeat' first | with_reducible assumption | with_reducible exact Keeps.refl _ | with_reducible refine writeBackWord_keeps ?_ | fail_if_no_progress (with_reducible refine keeps_mk ?_) | with_reducible refine foldl_keeps ?_ ?_ | with_reducible refine foldl1_keeps ?_ ?_ | intro _ _ hk | with_reducible refine keeps_ite (fun _ => ?_) (fun _ => ?_) | split | dsimp only

theorem prefLine_keeps {s : State} {k c order pa : Nat} {stable : Bool}  (hK : Keeps sK s) : Keeps sK (prefLine s k c order pa stable) := by
  unfold prefLine
  try dsimp only
  repeat' first | with_reducible assumption | with_reducible exact Keeps.refl _ | with_reducible refine l2Touch_keeps ?_ | with_reducible refine ownLine_keeps ?_ | with_reducible refine l1Words_keeps ?_ | fail_if_no_progress (with_reducible refine keeps_mk ?_) | with_reducible refine keeps_ite (fun _ => ?_) (fun _ => ?_) | split | dsimp only | with_reducible refine l1Words_keeps_eq (by assumption) ?_

theorem execPref_keeps {order : BitVec 2} {scope : BitVec 3} {x : SF} {s : State}  {u0 : State} (eK : execPref order scope x s = .next u0) (hK : Keeps sK s) : Keeps sK u0 := by
  unfold execPref at eK
  try dsimp only at eK
  repeat' first | split at eK | (rw [Option.map_eq_some_iff] at eK; obtain ⟨_, _, eK⟩ := eK; try dsimp only at eK) | (rw [Option.bind_eq_some_iff] at eK; obtain ⟨_, _, eK⟩ := eK; try dsimp only at eK)
  all_goals (try first | (injection eK with eK; subst eK) | (injection eK; done) | subst eK)
  all_goals (repeat' first | (intro _ _ _ eK h1; (try dsimp only at eK); repeat' (split at eK)) | (intro _ _ _ eK; (try dsimp only at eK); repeat' (split at eK)) | (intro _ _ eK; (try dsimp only at eK); repeat' (split at eK)) | (intro _ eK; (try dsimp only at eK); repeat' (split at eK)) | intro _ | with_reducible assumption | with_reducible exact Keeps.refl _ | with_reducible refine prefLine_keeps ?_ | with_reducible refine markRefused_keeps ?_ | fail_if_no_progress (with_reducible refine keeps_mk ?_) | with_reducible refine foldl_keeps ?_ ?_ | with_reducible refine foldl1_keeps ?_ ?_ | with_reducible refine keeps_ite (fun _ => ?_) (fun _ => ?_) | split | dsimp only | with_reducible refine performGated_keeps ?_ ?_ (by assumption) ?_ | (injection eK; done) | (injection eK with eK; subst eK))


end Sys2Proof.Machine
end

