-- ==== Sys2Proof/Laws/KeepsReading.lean ====
section
/-! SUPPORT. What every change keeps (Keeps), for Reading. -/

set_option linter.unusedTactic false
set_option linter.unreachableTactic false

namespace Sys2Proof.Machine

variable {sK : State}

theorem Ctx_trapAt_keeps {c : Ctx} {cause va : Nat}  {u0 : State} : ¬ (Ctx.trapAt c cause va = .hold u0) := by
  intro eK
  unfold Ctx.trapAt at eK
  try dsimp only at eK
  repeat' (split at eK)
  all_goals first | (cases eK; done) | exact absurd eK (by first | fail)

theorem Ctx_pageTrap_keeps {c : Ctx} {cause va : Nat}  {u0 : State} : ¬ (Ctx.pageTrap c cause va = .hold u0) := by
  intro eK
  unfold Ctx.pageTrap at eK
  try dsimp only at eK
  repeat' (split at eK)
  all_goals first | (cases eK; done) | exact absurd eK (by first | fail)

theorem pageGate_keeps {c : Ctx} {s : State} {cls : Nat} {need : Need} {va : Nat} {ok : Nat → Bool → Gate} {pay : List Byte} (h_ok : ∀ a0 a9 u, ok a0 a9 = .hold u → Keeps sK u)  {u0 : State} (eK : pageGate c s cls need va ok pay = .hold u0) (hK : Keeps sK s) : Keeps sK u0 := by
  unfold pageGate at eK
  try dsimp only at eK
  repeat' first | split at eK | (rw [Option.map_eq_some_iff] at eK; obtain ⟨_, _, eK⟩ := eK; try dsimp only at eK) | (rw [Option.bind_eq_some_iff] at eK; obtain ⟨_, _, eK⟩ := eK; try dsimp only at eK)
  all_goals (try first | (injection eK with eK; subst eK) | (injection eK; done) | subst eK)
  all_goals (repeat' first | with_reducible assumption | with_reducible exact Keeps.refl _ | fail_if_no_progress (with_reducible refine keeps_mk ?_) | with_reducible refine keeps_ite (fun _ => ?_) (fun _ => ?_) | split | dsimp only | exact h_ok _ _ _ (by assumption) | exact absurd (by assumption) Ctx_pageTrap_keeps | exact absurd (by assumption) Ctx_trapAt_keeps | with_reducible refine touchPage_keeps (by assumption) ?_ | (injection eK; done) | (injection eK with eK; subst eK) | (injection eK with eK; split at eK) | (injection eK with eK) | split at eK)

theorem localGate_keeps {c : Ctx} {s : State} {cls : Nat} {need : Need} {va : Nat} {ok : Nat → Gate} {pay : List Byte} (h_ok : ∀  a9 u, ok  a9 = .hold u → Keeps sK u)  {u0 : State} (eK : localGate c s cls need va ok pay = .hold u0) (hK : Keeps sK s) : Keeps sK u0 := by
  unfold localGate at eK
  try dsimp only at eK
  repeat' first | split at eK | (rw [Option.map_eq_some_iff] at eK; obtain ⟨_, _, eK⟩ := eK; try dsimp only at eK) | (rw [Option.bind_eq_some_iff] at eK; obtain ⟨_, _, eK⟩ := eK; try dsimp only at eK)
  all_goals (try first | (injection eK with eK; subst eK) | (injection eK; done) | subst eK)
  all_goals (repeat' first | (intro _ _ _ eK h1; (try dsimp only at eK); repeat' (split at eK)) | (intro _ _ _ eK; (try dsimp only at eK); repeat' (split at eK)) | (intro _ _ eK; (try dsimp only at eK); repeat' (split at eK)) | (intro _ eK; (try dsimp only at eK); repeat' (split at eK)) | intro _ | with_reducible assumption | with_reducible exact Keeps.refl _ | fail_if_no_progress (with_reducible refine keeps_mk ?_) | with_reducible refine keeps_ite (fun _ => ?_) (fun _ => ?_) | split | dsimp only | exact h_ok _ _ (by assumption) | with_reducible refine pageGate_keeps ?_ (by assumption) ?_ | exact absurd (by assumption) Ctx_pageTrap_keeps | (injection eK; done) | (injection eK with eK; subst eK) | (injection eK with eK; split at eK) | (injection eK with eK) | split at eK)

theorem pathGate_keeps {c : Ctx} {s : State} {r : Req} {ok : Gate} {pay : List Byte} (h_ok : ∀ u, ok = .hold u → Keeps sK u)  {u0 : State} (eK : pathGate c s r ok pay = .hold u0) (hK : Keeps sK s) : Keeps sK u0 := by
  unfold pathGate at eK
  try dsimp only at eK
  repeat' first | split at eK | (rw [Option.map_eq_some_iff] at eK; obtain ⟨_, _, eK⟩ := eK; try dsimp only at eK) | (rw [Option.bind_eq_some_iff] at eK; obtain ⟨_, _, eK⟩ := eK; try dsimp only at eK)
  all_goals (try first | (injection eK with eK; subst eK) | (injection eK; done) | subst eK)
  all_goals (repeat' first | with_reducible assumption | with_reducible exact Keeps.refl _ | fail_if_no_progress (with_reducible refine keeps_mk ?_) | with_reducible refine keeps_ite (fun _ => ?_) (fun _ => ?_) | split | dsimp only | exact h_ok _ (by assumption) | exact h_ok _ rfl | with_reducible refine touchPage_keeps (by assumption) ?_ | (injection eK; done) | (injection eK with eK; subst eK) | (injection eK with eK; split at eK) | (injection eK with eK) | split at eK)

theorem pageOf_keeps {c : Ctx} {s : State} {need : Need} {va : Nat}  (hK : Keeps sK s) : Keeps sK (pageOf c s need va).1 := by
  unfold pageOf
  try dsimp only
  repeat' first | with_reducible assumption | with_reducible exact Keeps.refl _ | with_reducible refine translate_keeps ?_ | fail_if_no_progress (with_reducible refine keeps_mk ?_) | with_reducible refine keeps_ite (fun _ => ?_) (fun _ => ?_) | split | dsimp only | with_reducible refine translate_keeps_eq (by assumption) ?_

theorem pageOf_keeps_eq {c : Ctx} {s : State} {need : Need} {va : Nat} {u0 : State} {q0 : _} (eK : pageOf c s need va = (u0, q0)) (hK : Keeps sK s) : Keeps sK u0 := by
  have := pageOf_keeps (sK := sK) (c := c) (s := s) (need := need) (va := va) hK; rw [eK] at this; exact this

theorem startFetch_keeps {c : Ctx} {va n : Nat} {s : State} {cls : Nat}  {u0 : State} (eK : startFetch c va n s cls = .hold u0) (hK : Keeps sK s) : Keeps sK u0 := by
  unfold startFetch at eK
  try dsimp only at eK
  repeat' first | split at eK | (rw [Option.map_eq_some_iff] at eK; obtain ⟨_, _, eK⟩ := eK; try dsimp only at eK) | (rw [Option.bind_eq_some_iff] at eK; obtain ⟨_, _, eK⟩ := eK; try dsimp only at eK)
  all_goals (try first | (injection eK with eK; subst eK) | (injection eK; done) | subst eK)
  all_goals (repeat' first | (intro _ _ _ eK h1; (try dsimp only at eK); repeat' (split at eK)) | (intro _ _ _ eK; (try dsimp only at eK); repeat' (split at eK)) | (intro _ _ eK; (try dsimp only at eK); repeat' (split at eK)) | (intro _ eK; (try dsimp only at eK); repeat' (split at eK)) | intro _ | with_reducible assumption | with_reducible exact Keeps.refl _ | with_reducible refine startOp_keeps ?_ | with_reducible refine issue_keeps ?_ ?_ ?_ | fail_if_no_progress (with_reducible refine keeps_mk ?_) | with_reducible refine keeps_ite (fun _ => ?_) (fun _ => ?_) | split | dsimp only | with_reducible refine startOp_keeps_eq (by assumption) ?_ | (injection eK; done) | (injection eK with eK; subst eK) | (injection eK with eK; split at eK) | (injection eK with eK) | split at eK)

theorem readPart_keeps {c : Ctx} {s : State} {strong : Bool} {va n : Nat} {cls : Nat}  {u0 : State} (eK : readPart c s strong va n cls = .gate (.hold u0)) (hK : Keeps sK s) : Keeps sK u0 := by
  unfold readPart at eK
  try dsimp only at eK
  repeat' first | split at eK | (rw [Option.map_eq_some_iff] at eK; obtain ⟨_, _, eK⟩ := eK; try dsimp only at eK) | (rw [Option.bind_eq_some_iff] at eK; obtain ⟨_, _, eK⟩ := eK; try dsimp only at eK)
  all_goals (try first | (injection eK with eK; subst eK) | (injection eK; done) | subst eK)
  all_goals (repeat' first | with_reducible assumption | with_reducible exact Keeps.refl _ | fail_if_no_progress (with_reducible refine keeps_mk ?_) | with_reducible refine keeps_ite (fun _ => ?_) (fun _ => ?_) | split | dsimp only | exact absurd (by assumption) Ctx_pageTrap_keeps | exact absurd (by assumption) Ctx_trapAt_keeps | with_reducible refine touchPage_keeps (by assumption) ?_ | with_reducible refine step_keeps (by assumption) ?_ | with_reducible refine startFetch_keeps (by assumption) ?_ | (injection eK; done) | (injection eK with eK; subst eK) | (injection eK with eK; split at eK) | (injection eK with eK) | split at eK)

theorem readParts_keeps {c : Ctx} {s : State} {strong : Bool} {l : List (Nat × Nat)} {u0 : State}
    (e : readParts c s strong l = .gate (.hold u0)) (h : Keeps sK s) : Keeps sK u0 := by
  induction l with
  | nil => cases e
  | cons x r ih =>
    obtain ⟨va, n⟩ := x
    unfold readParts at e
    split at e
    · injection e with e; subst e; exact readPart_keeps (by assumption) h
    · split at e
      · injection e with e; subst e; exact ih (by assumption)
      · cases e

theorem readRange_keeps {c : Ctx} {s : State} {strong : Bool} {va n : Nat}  {u0 : State} (eK : readRange c s strong va n = .gate (.hold u0)) (hK : Keeps sK s) : Keeps sK u0 := by
  unfold readRange at eK
  try dsimp only at eK
  repeat' first | split at eK | (rw [Option.map_eq_some_iff] at eK; obtain ⟨_, _, eK⟩ := eK; try dsimp only at eK) | (rw [Option.bind_eq_some_iff] at eK; obtain ⟨_, _, eK⟩ := eK; try dsimp only at eK)
  all_goals (try first | (injection eK with eK; subst eK) | (injection eK; done) | subst eK)
  all_goals (repeat' first | with_reducible assumption | with_reducible exact Keeps.refl _ | fail_if_no_progress (with_reducible refine keeps_mk ?_) | with_reducible refine keeps_ite (fun _ => ?_) (fun _ => ?_) | split | dsimp only | with_reducible refine readParts_keeps (by assumption) ?_ | (injection eK; done) | (injection eK with eK; subst eK) | (injection eK with eK; split at eK) | (injection eK with eK) | split at eK)

theorem readBlock_keeps {c : Ctx} {s : State} {cls va : Nat}  {u0 : State} (eK : readBlock c s cls va = .gate (.hold u0)) (hK : Keeps sK s) : Keeps sK u0 := by
  unfold readBlock at eK
  try dsimp only at eK
  repeat' first | split at eK | (rw [Option.map_eq_some_iff] at eK; obtain ⟨_, _, eK⟩ := eK; try dsimp only at eK) | (rw [Option.bind_eq_some_iff] at eK; obtain ⟨_, _, eK⟩ := eK; try dsimp only at eK)
  all_goals (try first | (injection eK with eK; subst eK) | (injection eK; done) | subst eK)
  all_goals (repeat' first | with_reducible assumption | with_reducible exact Keeps.refl _ | fail_if_no_progress (with_reducible refine keeps_mk ?_) | with_reducible refine keeps_ite (fun _ => ?_) (fun _ => ?_) | split | dsimp only | with_reducible refine readPart_keeps (by assumption) ?_ | (injection eK; done) | (injection eK with eK; subst eK) | (injection eK with eK; split at eK) | (injection eK with eK) | split at eK)

theorem reading_hold {b : Bool} {l : List (Nat × Nat)} {g : Gate} {u : State} (e : Gate.reading b l g = .hold u) : g = .hold u := by
  cases g <;> first | exact e | cases e

theorem Got_go_keeps {r : Got} {f : List Byte → Gate} {u0 : State} (hr : ∀ u, r = .gate (.hold u) → Keeps sK u)
    (hf : ∀ b u, f b = .hold u → Keeps sK u) (e : r.go f = .hold u0) : Keeps sK u0 := by
  cases r with
  | bytes b => exact hf b _ e
  | gate g => exact hr _ (congrArg Got.gate e)


end Sys2Proof.Machine
end

