-- ==== Sys2Proof/Laws/KeepsMonitor.lean ====
section
/-! SUPPORT. What every change keeps (Keeps), for Monitor. -/

set_option linter.unusedTactic false
set_option linter.unreachableTactic false

namespace Sys2Proof.Machine

variable {sK : State}

theorem waitcGate_keeps {c : Ctx} {s : State}  {u0 : State} (eK : waitcGate c s = .hold u0) (hK : Keeps sK s) : Keeps sK u0 := by
  unfold waitcGate at eK
  try dsimp only at eK
  repeat' first | split at eK | (rw [Option.map_eq_some_iff] at eK; obtain ⟨_, _, eK⟩ := eK; try dsimp only at eK) | (rw [Option.bind_eq_some_iff] at eK; obtain ⟨_, _, eK⟩ := eK; try dsimp only at eK)
  all_goals (try first | (injection eK with eK; subst eK) | (injection eK; done) | subst eK)
  all_goals (repeat' first | with_reducible assumption | with_reducible exact Keeps.refl _ | fail_if_no_progress (with_reducible refine keeps_mk ?_) | with_reducible refine keeps_ite (fun _ => ?_) (fun _ => ?_) | split | dsimp only | exact absurd (by assumption) Ctx_trapAt_keeps | exact absurd (by assumption) Ctx_pageTrap_keeps | (injection eK; done) | (injection eK with eK; subst eK) | (injection eK with eK; split at eK) | (injection eK with eK) | split at eK)

theorem waitcEffect_keeps {x : SF} {c : Ctx} {s : State}  (hK : Keeps sK s) : Keeps sK (waitcEffect x c s).s := by
  unfold waitcEffect
  try dsimp only
  repeat' first | with_reducible assumption | with_reducible exact Keeps.refl _ | with_reducible refine parkTeam_keeps ?_ | with_reducible refine pageOf_keeps ?_ | with_reducible refine localLoad_keeps ?_ | with_reducible refine parkDone_keeps ?_ | with_reducible refine writeScalar_keeps ?_ | with_reducible refine acquireAt_keeps ?_ | with_reducible refine startOp_keeps ?_ | with_reducible refine issue_keeps ?_ ?_ ?_ | fail_if_no_progress (with_reducible refine keeps_mk ?_) | intro _ hk | with_reducible refine keeps_ite (fun _ => ?_) (fun _ => ?_) | split | dsimp only | with_reducible refine pageOf_keeps_eq (by assumption) ?_ | with_reducible refine localLoad_keeps_eq (by assumption) ?_ | with_reducible refine startOp_keeps_eq (by assumption) ?_

theorem execWaitc_keeps {x : SF} {s : State}  {u0 : State} (eK : execWaitc x s = .next u0) (hK : Keeps sK s) : Keeps sK u0 := by
  unfold execWaitc at eK
  try dsimp only at eK
  repeat' first | split at eK | (rw [Option.map_eq_some_iff] at eK; obtain ⟨_, _, eK⟩ := eK; try dsimp only at eK) | (rw [Option.bind_eq_some_iff] at eK; obtain ⟨_, _, eK⟩ := eK; try dsimp only at eK)
  all_goals (try first | (injection eK with eK; subst eK) | (injection eK; done) | subst eK)
  all_goals (repeat' first | (intro _ _ _ eK h1; (try dsimp only at eK); repeat' (split at eK)) | (intro _ _ _ eK; (try dsimp only at eK); repeat' (split at eK)) | (intro _ _ eK; (try dsimp only at eK); repeat' (split at eK)) | (intro _ eK; (try dsimp only at eK); repeat' (split at eK)) | intro _ | with_reducible assumption | with_reducible exact Keeps.refl _ | with_reducible refine waitcEffect_keeps ?_ | fail_if_no_progress (with_reducible refine keeps_mk ?_) | with_reducible refine keeps_ite (fun _ => ?_) (fun _ => ?_) | split | dsimp only | with_reducible refine performGated_keeps ?_ ?_ (by assumption) ?_ | with_reducible refine waitcGate_keeps (by assumption) ?_ | (injection eK; done) | (injection eK with eK; subst eK))

theorem watchDesc_keeps {c : Ctx} {s : State}  {u0 : State} (eK : watchDesc c s = .gate (.hold u0)) (hK : Keeps sK s) : Keeps sK u0 := by
  unfold watchDesc at eK
  try dsimp only at eK
  repeat' first | split at eK | (rw [Option.map_eq_some_iff] at eK; obtain ⟨_, _, eK⟩ := eK; try dsimp only at eK) | (rw [Option.bind_eq_some_iff] at eK; obtain ⟨_, _, eK⟩ := eK; try dsimp only at eK)
  all_goals (try first | (injection eK with eK; subst eK) | (injection eK; done) | subst eK)
  all_goals (repeat' first | with_reducible assumption | with_reducible exact Keeps.refl _ | fail_if_no_progress (with_reducible refine keeps_mk ?_) | with_reducible refine keeps_ite (fun _ => ?_) (fun _ => ?_) | split | dsimp only | with_reducible refine readRange_keeps (by assumption) ?_ | (injection eK; done) | (injection eK with eK; subst eK) | (injection eK with eK; split at eK) | (injection eK with eK) | split at eK)

theorem watchRecord_keeps {c : Ctx} {s : State} {b : List Byte}  {u0 : State} (eK : watchRecord c s b = .gate (.hold u0)) (hK : Keeps sK s) : Keeps sK u0 := by
  unfold watchRecord at eK
  try dsimp only at eK
  repeat' first | split at eK | (rw [Option.map_eq_some_iff] at eK; obtain ⟨_, _, eK⟩ := eK; try dsimp only at eK) | (rw [Option.bind_eq_some_iff] at eK; obtain ⟨_, _, eK⟩ := eK; try dsimp only at eK)
  all_goals (try first | (injection eK with eK; subst eK) | (injection eK; done) | subst eK)
  all_goals (repeat' first | with_reducible assumption | with_reducible exact Keeps.refl _ | fail_if_no_progress (with_reducible refine keeps_mk ?_) | with_reducible refine keeps_ite (fun _ => ?_) (fun _ => ?_) | split | dsimp only | with_reducible refine readRange_keeps (by assumption) ?_ | (injection eK; done) | (injection eK with eK; subst eK) | (injection eK with eK; split at eK) | (injection eK with eK) | split at eK)

theorem watchLine_keeps {c : Ctx} {s : State} {cls va : Nat} {pay : List Byte} {ok : Gate} (h_ok : ∀ u, ok = .hold u → Keeps sK u)  {u0 : State} (eK : watchLine c s cls va pay ok = .hold u0) (hK : Keeps sK s) : Keeps sK u0 := by
  unfold watchLine at eK
  try dsimp only at eK
  repeat' first | split at eK | (rw [Option.map_eq_some_iff] at eK; obtain ⟨_, _, eK⟩ := eK; try dsimp only at eK) | (rw [Option.bind_eq_some_iff] at eK; obtain ⟨_, _, eK⟩ := eK; try dsimp only at eK)
  all_goals (try first | (injection eK with eK; subst eK) | (injection eK; done) | subst eK)
  all_goals (repeat' first | (intro _ _ _ eK h1; (try dsimp only at eK); repeat' (split at eK)) | (intro _ _ _ eK; (try dsimp only at eK); repeat' (split at eK)) | (intro _ _ eK; (try dsimp only at eK); repeat' (split at eK)) | (intro _ eK; (try dsimp only at eK); repeat' (split at eK)) | intro _ | with_reducible assumption | with_reducible exact Keeps.refl _ | fail_if_no_progress (with_reducible refine keeps_mk ?_) | with_reducible refine keeps_ite (fun _ => ?_) (fun _ => ?_) | split | dsimp only | exact h_ok _ (by assumption) | exact h_ok _ rfl | with_reducible refine pathGate_keeps ?_ (by assumption) ?_ | (injection eK; done) | (injection eK with eK; subst eK) | (injection eK with eK; split at eK) | (injection eK with eK) | split at eK)

theorem watchGate_keeps {c : Ctx} {s : State}  {u0 : State} (eK : watchGate c s = .hold u0) (hK : Keeps sK s) : Keeps sK u0 := by
  unfold watchGate at eK
  dsimp only at eK
  split at eK
  · exact absurd eK Ctx_trapAt_keeps
  split at eK
  · cases eK
  refine watchLine_keeps (fun u eK => ?_) eK hK
  refine Got_go_keeps (fun u e => watchDesc_keeps e hK) (fun b u eK => ?_) eK
  replace eK := reading_hold eK
  split at eK
  · exact absurd eK Ctx_trapAt_keeps
  split at eK
  · cases eK
  refine localGate_keeps (fun _ u eK => ?_) eK hK
  refine watchLine_keeps (fun u eK => ?_) eK hK
  refine watchLine_keeps (fun u eK => ?_) eK hK
  refine Got_go_keeps (fun u e => watchRecord_keeps e hK) (fun b u eK => ?_) eK
  split at eK <;> cases eK

theorem watchEffect_keeps {c : Ctx} {s : State}  (hK : Keeps sK s) : Keeps sK (watchEffect c s) := by
  unfold watchEffect
  try dsimp only
  repeat' first | with_reducible assumption | with_reducible exact Keeps.refl _ | with_reducible refine readLines_keeps ?_ | with_reducible refine pageOf_keeps ?_ | with_reducible refine writeScalar_keeps ?_ | with_reducible refine recordThread_keeps ?_ | with_reducible refine pushFault_keeps ?_ | fail_if_no_progress (with_reducible refine keeps_mk ?_) | with_reducible refine keeps_ite (fun _ => ?_) (fun _ => ?_) | split | dsimp only | with_reducible refine watchDesc_keeps (by assumption) ?_ | with_reducible refine watchRecord_keeps (by assumption) ?_ | with_reducible refine pageOf_keeps_eq (by assumption) ?_ | with_reducible refine recordThread_keeps_eq (by assumption) ?_

theorem execWatch_keeps {x : SF} {s : State}  {u0 : State} (eK : execWatch x s = .next u0) (hK : Keeps sK s) : Keeps sK u0 := by
  unfold execWatch at eK
  try dsimp only at eK
  repeat' first | split at eK | (rw [Option.map_eq_some_iff] at eK; obtain ⟨_, _, eK⟩ := eK; try dsimp only at eK) | (rw [Option.bind_eq_some_iff] at eK; obtain ⟨_, _, eK⟩ := eK; try dsimp only at eK)
  all_goals (try first | (injection eK with eK; subst eK) | (injection eK; done) | subst eK)
  all_goals (repeat' first | (intro _ _ _ eK h1; (try dsimp only at eK); repeat' (split at eK)) | (intro _ _ _ eK; (try dsimp only at eK); repeat' (split at eK)) | (intro _ _ eK; (try dsimp only at eK); repeat' (split at eK)) | (intro _ eK; (try dsimp only at eK); repeat' (split at eK)) | intro _ | with_reducible assumption | with_reducible exact Keeps.refl _ | with_reducible refine watchEffect_keeps ?_ | fail_if_no_progress (with_reducible refine keeps_mk ?_) | with_reducible refine keeps_ite (fun _ => ?_) (fun _ => ?_) | split | dsimp only | with_reducible refine performGated_keeps ?_ ?_ (by assumption) ?_ | with_reducible refine watchGate_keeps (by assumption) ?_ | (injection eK; done) | (injection eK with eK; subst eK))

theorem execUnwatch_keeps {x : SF} {s : State}  {u0 : State} (eK : execUnwatch x s = .next u0) (hK : Keeps sK s) : Keeps sK u0 := by
  unfold execUnwatch at eK
  try dsimp only at eK
  repeat' first | split at eK | (rw [Option.map_eq_some_iff] at eK; obtain ⟨_, _, eK⟩ := eK; try dsimp only at eK) | (rw [Option.bind_eq_some_iff] at eK; obtain ⟨_, _, eK⟩ := eK; try dsimp only at eK)
  all_goals (try first | (injection eK with eK; subst eK) | (injection eK; done) | subst eK)
  all_goals (repeat' first | (intro _ _ _ eK h1; (try dsimp only at eK); repeat' (split at eK)) | (intro _ _ _ eK; (try dsimp only at eK); repeat' (split at eK)) | (intro _ _ eK; (try dsimp only at eK); repeat' (split at eK)) | (intro _ eK; (try dsimp only at eK); repeat' (split at eK)) | intro _ | with_reducible assumption | with_reducible exact Keeps.refl _ | with_reducible refine writeScalar_keeps ?_ | fail_if_no_progress (with_reducible refine keeps_mk ?_) | with_reducible refine keeps_ite (fun _ => ?_) (fun _ => ?_) | split | dsimp only | with_reducible refine perform_keeps ?_ (by assumption) ?_ | (injection eK; done) | (injection eK with eK; subst eK))

theorem execSleep_keeps {x : SF} {s : State}  {u0 : State} (eK : execSleep x s = .next u0) (hK : Keeps sK s) : Keeps sK u0 := by
  unfold execSleep at eK
  try dsimp only at eK
  repeat' first | split at eK | (rw [Option.map_eq_some_iff] at eK; obtain ⟨_, _, eK⟩ := eK; try dsimp only at eK) | (rw [Option.bind_eq_some_iff] at eK; obtain ⟨_, _, eK⟩ := eK; try dsimp only at eK)
  all_goals (try first | (injection eK with eK; subst eK) | (injection eK; done) | subst eK)
  all_goals (repeat' first | (intro _ _ _ eK h1; (try dsimp only at eK); repeat' (split at eK)) | (intro _ _ _ eK; (try dsimp only at eK); repeat' (split at eK)) | (intro _ _ eK; (try dsimp only at eK); repeat' (split at eK)) | (intro _ eK; (try dsimp only at eK); repeat' (split at eK)) | intro _ | with_reducible assumption | with_reducible exact Keeps.refl _ | fail_if_no_progress (with_reducible refine keeps_mk ?_) | with_reducible refine keeps_ite (fun _ => ?_) (fun _ => ?_) | split | dsimp only | with_reducible refine performGated_keeps ?_ ?_ (by assumption) ?_ | (injection eK; done) | (injection eK with eK; subst eK))

theorem execBinfl_keeps {x : SF} {s : State}  {u0 : State} (eK : execBinfl x s = .next u0) (hK : Keeps sK s) : Keeps sK u0 := by
  unfold execBinfl at eK
  try dsimp only at eK
  repeat' first | split at eK | (rw [Option.map_eq_some_iff] at eK; obtain ⟨_, _, eK⟩ := eK; try dsimp only at eK) | (rw [Option.bind_eq_some_iff] at eK; obtain ⟨_, _, eK⟩ := eK; try dsimp only at eK)
  all_goals (try first | (injection eK with eK; subst eK) | (injection eK; done) | subst eK)
  all_goals (repeat' first | (intro _ _ _ eK h1; (try dsimp only at eK); repeat' (split at eK)) | (intro _ _ _ eK; (try dsimp only at eK); repeat' (split at eK)) | (intro _ _ eK; (try dsimp only at eK); repeat' (split at eK)) | (intro _ eK; (try dsimp only at eK); repeat' (split at eK)) | intro _ | with_reducible assumption | with_reducible exact Keeps.refl _ | with_reducible refine flushBins_keeps ?_ | fail_if_no_progress (with_reducible refine keeps_mk ?_) | with_reducible refine keeps_ite (fun _ => ?_) (fun _ => ?_) | split | dsimp only | with_reducible refine perform_keeps ?_ (by assumption) ?_ | (injection eK; done) | (injection eK with eK; subst eK))


end Sys2Proof.Machine
end

