-- ==== Sys2Proof/Laws/KeepsClaims.lean ====
section
/-! SUPPORT. What every change keeps (Keeps), for Claims. -/

set_option linter.unusedTactic false
set_option linter.unreachableTactic false

namespace Sys2Proof.Machine

variable {sK : State}

theorem sendPlane_keeps {s : State} {bound : Nat} {e : Instr}  (hK : Keeps sK s) : Keeps sK (sendPlane s bound e) := by
  unfold sendPlane
  try dsimp only
  repeat' first | with_reducible assumption | with_reducible exact Keeps.refl _ | fail_if_no_progress (with_reducible refine keeps_mk ?_) | with_reducible refine keeps_ite (fun _ => ?_) (fun _ => ?_) | split | dsimp only

theorem claimGate_keeps {g d : Nat} {c : Ctx} {s : State}  {u0 : State} (eK : claimGate g d c s = .hold u0) (hK : Keeps sK s) : Keeps sK u0 := by
  unfold claimGate at eK
  try dsimp only at eK
  repeat' first | split at eK | (rw [Option.map_eq_some_iff] at eK; obtain ⟨_, _, eK⟩ := eK; try dsimp only at eK) | (rw [Option.bind_eq_some_iff] at eK; obtain ⟨_, _, eK⟩ := eK; try dsimp only at eK)
  all_goals (try first | (injection eK with eK; subst eK) | (injection eK; done) | subst eK)
  all_goals (repeat' first | (intro _ _ _ eK h1; (try dsimp only at eK); repeat' (split at eK)) | (intro _ _ _ eK; (try dsimp only at eK); repeat' (split at eK)) | (intro _ _ eK; (try dsimp only at eK); repeat' (split at eK)) | (intro _ eK; (try dsimp only at eK); repeat' (split at eK)) | intro _ | with_reducible assumption | with_reducible exact Keeps.refl _ | fail_if_no_progress (with_reducible refine keeps_mk ?_) | with_reducible refine keeps_ite (fun _ => ?_) (fun _ => ?_) | split | dsimp only | exact absurd (by assumption) Ctx_trapAt_keeps | with_reducible refine pageGate_keeps ?_ (by assumption) ?_ | with_reducible refine pathGate_keeps ?_ (by assumption) ?_ | with_reducible refine releaseWait_keeps (by assumption) ?_ | (injection eK; done) | (injection eK with eK; subst eK) | (injection eK with eK; split at eK) | (injection eK with eK) | split at eK)

theorem announceTo_keeps {s : State} {k c : Nat} {a : Announcement} {m : Word}  {u0 : State} (eK : announceTo s k c a m = some u0) (hK : Keeps sK s) : Keeps sK u0 := by
  unfold announceTo at eK
  try dsimp only at eK
  repeat' first | split at eK | (rw [Option.map_eq_some_iff] at eK; obtain ⟨_, _, eK⟩ := eK; try dsimp only at eK) | (rw [Option.bind_eq_some_iff] at eK; obtain ⟨_, _, eK⟩ := eK; try dsimp only at eK)
  all_goals (try first | (injection eK with eK; subst eK) | (injection eK; done) | subst eK)
  all_goals (repeat' first | with_reducible assumption | with_reducible exact Keeps.refl _ | with_reducible refine announce_keeps ?_ | with_reducible refine sendPlane_keeps ?_ | fail_if_no_progress (with_reducible refine keeps_mk ?_) | with_reducible refine keeps_ite (fun _ => ?_) (fun _ => ?_) | split | dsimp only | with_reducible refine announce_keeps_eq (by assumption) ?_ | (injection eK; done) | (injection eK with eK; subst eK))

theorem announce_keeps {s : State} {k c g : Nat} {a : Announcement}  (hK : Keeps sK s) : Keeps sK (announce s k c g a).1 := by
  unfold announce
  try dsimp only
  repeat' first | with_reducible assumption | with_reducible exact Keeps.refl _ | fail_if_no_progress (with_reducible refine keeps_mk ?_) | with_reducible refine foldl_keeps ?_ ?_ | with_reducible refine foldl1_keeps ?_ ?_ | intro _ _ hk | with_reducible refine keeps_ite (fun _ => ?_) (fun _ => ?_) | split | dsimp only | with_reducible refine announceTo_keeps (by assumption) ?_

theorem announce_keeps_eq {s : State} {k c g : Nat} {a : Announcement} {u0 : State} {q0 : _} (eK : announce s k c g a = (u0, q0)) (hK : Keeps sK s) : Keeps sK u0 := by
  have := announce_keeps (sK := sK) (s := s) (k := k) (c := c) (g := g) (a := a) hK; rw [eK] at this; exact this

theorem propose_keeps {g : Nat} {c : Ctx} {s : State} {pa : Nat}  (hK : Keeps sK s) : Keeps sK (propose g c s pa) := by
  unfold propose
  try dsimp only
  repeat' first | with_reducible assumption | with_reducible exact Keeps.refl _ | with_reducible refine lower_keeps ?_ | with_reducible refine setCore_keeps ?_ | with_reducible refine announce_keeps ?_ | with_reducible refine writeScalar_keeps ?_ | fail_if_no_progress (with_reducible refine keeps_mk ?_) | with_reducible refine getD_keeps ?_ ?_ | intro _ hk | with_reducible refine keeps_ite (fun _ => ?_) (fun _ => ?_) | split | dsimp only | with_reducible refine announce_keeps_eq (by assumption) ?_

theorem execClaim_keeps {k : BitVec 3} {x : SF} {s : State}  {u0 : State} (eK : execClaim k x s = .next u0) (hK : Keeps sK s) : Keeps sK u0 := by
  unfold execClaim at eK
  try dsimp only at eK
  repeat' first | split at eK | (rw [Option.map_eq_some_iff] at eK; obtain ⟨_, _, eK⟩ := eK; try dsimp only at eK) | (rw [Option.bind_eq_some_iff] at eK; obtain ⟨_, _, eK⟩ := eK; try dsimp only at eK)
  all_goals (try first | (injection eK with eK; subst eK) | (injection eK; done) | subst eK)
  all_goals (repeat' first | (intro _ _ _ eK h1; (try dsimp only at eK); repeat' (split at eK)) | (intro _ _ _ eK; (try dsimp only at eK); repeat' (split at eK)) | (intro _ _ eK; (try dsimp only at eK); repeat' (split at eK)) | (intro _ eK; (try dsimp only at eK); repeat' (split at eK)) | intro _ | with_reducible assumption | with_reducible exact Keeps.refl _ | with_reducible refine pageOf_keeps ?_ | with_reducible refine releaseAt_keeps ?_ | with_reducible refine writeScalar_keeps ?_ | with_reducible refine propose_keeps ?_ | fail_if_no_progress (with_reducible refine keeps_mk ?_) | with_reducible refine keeps_ite (fun _ => ?_) (fun _ => ?_) | split | dsimp only | with_reducible refine performGated_keeps ?_ ?_ (by assumption) ?_ | with_reducible refine claimGate_keeps (by assumption) ?_ | with_reducible refine pageOf_keeps_eq (by assumption) ?_ | (injection eK; done) | (injection eK with eK; subst eK))

theorem effectWrite_keeps {s : State} {p : Proposal}  {q0 : _} (eK : effectWrite s p = some q0) (hK : Keeps sK s) : Keeps sK q0.1 := by
  unfold effectWrite at eK
  try dsimp only at eK
  repeat' first | split at eK | (rw [Option.map_eq_some_iff] at eK; obtain ⟨_, _, eK⟩ := eK; try dsimp only at eK) | (rw [Option.bind_eq_some_iff] at eK; obtain ⟨_, _, eK⟩ := eK; try dsimp only at eK)
  all_goals (try first | (injection eK with eK; subst eK) | (injection eK; done) | subst eK)
  all_goals (repeat' first | with_reducible assumption | with_reducible exact Keeps.refl _ | with_reducible refine writeProg_keeps ?_ | fail_if_no_progress (with_reducible refine keeps_mk ?_) | with_reducible refine keeps_ite (fun _ => ?_) (fun _ => ?_) | split | dsimp only | with_reducible refine postRemote_keeps (by assumption) ?_ | (injection eK; done) | (injection eK with eK; subst eK))

theorem setProposal_keeps {s : State} {k h : Nat} {p : Proposal}  (hK : Keeps sK s) : Keeps sK (setProposal s k h p) := by
  unfold setProposal
  try dsimp only
  repeat' first | with_reducible assumption | with_reducible exact Keeps.refl _ | with_reducible refine setCore_keeps ?_ | fail_if_no_progress (with_reducible refine keeps_mk ?_) | with_reducible refine keeps_ite (fun _ => ?_) (fun _ => ?_) | split | dsimp only

theorem freeProposal_keeps {s : State} {k h : Nat}  (hK : Keeps sK s) : Keeps sK (freeProposal s k h) := by
  unfold freeProposal
  try dsimp only
  repeat' first | with_reducible assumption | with_reducible exact Keeps.refl _ | with_reducible refine setCore_keeps ?_ | fail_if_no_progress (with_reducible refine keeps_mk ?_) | with_reducible refine keeps_ite (fun _ => ?_) (fun _ => ?_) | split | dsimp only

theorem recordOutcome_keeps {s : State} {k h : Nat} {p : Proposal} {o : Nat}  (hK : Keeps sK s) : Keeps sK (recordOutcome s k h p o) := by
  unfold recordOutcome
  try dsimp only
  repeat' first | with_reducible assumption | with_reducible exact Keeps.refl _ | with_reducible refine freeProposal_keeps ?_ | with_reducible refine setProposal_keeps ?_ | with_reducible refine acquireAt_keeps ?_ | with_reducible refine reap_keeps ?_ | with_reducible refine onTeam_keeps ?_ | fail_if_no_progress (with_reducible refine keeps_mk ?_) | with_reducible refine keeps_ite (fun _ => ?_) (fun _ => ?_) | split | dsimp only

theorem closeWindow_keeps {s : State} {k h : Nat} {p : Proposal}  (hK : Keeps sK s) : Keeps sK (closeWindow s k h p) := by
  unfold closeWindow
  try dsimp only
  repeat' first | with_reducible assumption | with_reducible exact Keeps.refl _ | with_reducible refine recordOutcome_keeps ?_ | with_reducible refine setProposal_keeps ?_ | fail_if_no_progress (with_reducible refine keeps_mk ?_) | with_reducible refine keeps_ite (fun _ => ?_) (fun _ => ?_) | split | dsimp only | with_reducible refine effectWrite_keeps (by assumption) ?_

theorem execClwait_keeps {k : BitVec 3} {x : SF} {s : State}  {u0 : State} (eK : execClwait k x s = .next u0) (hK : Keeps sK s) : Keeps sK u0 := by
  unfold execClwait at eK
  try dsimp only at eK
  repeat' first | split at eK | (rw [Option.map_eq_some_iff] at eK; obtain ⟨_, _, eK⟩ := eK; try dsimp only at eK) | (rw [Option.bind_eq_some_iff] at eK; obtain ⟨_, _, eK⟩ := eK; try dsimp only at eK)
  all_goals (try first | (injection eK with eK; subst eK) | (injection eK; done) | subst eK)
  all_goals (repeat' first | (intro _ _ _ eK h1; (try dsimp only at eK); repeat' (split at eK)) | (intro _ _ _ eK; (try dsimp only at eK); repeat' (split at eK)) | (intro _ _ eK; (try dsimp only at eK); repeat' (split at eK)) | (intro _ eK; (try dsimp only at eK); repeat' (split at eK)) | intro _ | with_reducible assumption | with_reducible exact Keeps.refl _ | with_reducible refine parkTeam_keeps ?_ | with_reducible refine parkDone_keeps ?_ | with_reducible refine writeScalar_keeps ?_ | with_reducible refine acquireAt_keeps ?_ | with_reducible refine onCrew_keeps ?_ | with_reducible refine freeProposal_keeps ?_ | fail_if_no_progress (with_reducible refine keeps_mk ?_) | with_reducible refine keeps_ite (fun _ => ?_) (fun _ => ?_) | split | dsimp only | with_reducible refine performGated_keeps ?_ ?_ (by assumption) ?_ | (injection eK; done) | (injection eK with eK; subst eK))

theorem execClpeek_keeps {k : BitVec 3} {x : SF} {s : State}  {u0 : State} (eK : execClpeek k x s = .next u0) (hK : Keeps sK s) : Keeps sK u0 := by
  unfold execClpeek at eK
  try dsimp only at eK
  repeat' first | split at eK | (rw [Option.map_eq_some_iff] at eK; obtain ⟨_, _, eK⟩ := eK; try dsimp only at eK) | (rw [Option.bind_eq_some_iff] at eK; obtain ⟨_, _, eK⟩ := eK; try dsimp only at eK)
  all_goals (try first | (injection eK with eK; subst eK) | (injection eK; done) | subst eK)
  all_goals (repeat' first | (intro _ _ _ eK h1; (try dsimp only at eK); repeat' (split at eK)) | (intro _ _ _ eK; (try dsimp only at eK); repeat' (split at eK)) | (intro _ _ eK; (try dsimp only at eK); repeat' (split at eK)) | (intro _ eK; (try dsimp only at eK); repeat' (split at eK)) | intro _ | with_reducible assumption | with_reducible exact Keeps.refl _ | with_reducible refine writeScalars_keeps ?_ | fail_if_no_progress (with_reducible refine keeps_mk ?_) | with_reducible refine keeps_ite (fun _ => ?_) (fun _ => ?_) | split | dsimp only | with_reducible refine perform_keeps ?_ (by assumption) ?_ | (injection eK; done) | (injection eK with eK; subst eK))

theorem execClpop_keeps {k : BitVec 3} {x : SF} {s : State}  {u0 : State} (eK : execClpop k x s = .next u0) (hK : Keeps sK s) : Keeps sK u0 := by
  unfold execClpop at eK
  try dsimp only at eK
  repeat' first | split at eK | (rw [Option.map_eq_some_iff] at eK; obtain ⟨_, _, eK⟩ := eK; try dsimp only at eK) | (rw [Option.bind_eq_some_iff] at eK; obtain ⟨_, _, eK⟩ := eK; try dsimp only at eK)
  all_goals (try first | (injection eK with eK; subst eK) | (injection eK; done) | subst eK)
  all_goals (repeat' first | (intro _ _ _ eK h1; (try dsimp only at eK); repeat' (split at eK)) | (intro _ _ _ eK; (try dsimp only at eK); repeat' (split at eK)) | (intro _ _ eK; (try dsimp only at eK); repeat' (split at eK)) | (intro _ eK; (try dsimp only at eK); repeat' (split at eK)) | intro _ | with_reducible assumption | with_reducible exact Keeps.refl _ | with_reducible refine setCore_keeps ?_ | with_reducible refine acquireAt_keeps ?_ | with_reducible refine writeScalars_keeps ?_ | fail_if_no_progress (with_reducible refine keeps_mk ?_) | with_reducible refine keeps_ite (fun _ => ?_) (fun _ => ?_) | split | dsimp only | with_reducible refine performGated_keeps ?_ ?_ (by assumption) ?_ | with_reducible refine olderGate_keeps (by assumption) ?_ | (injection eK; done) | (injection eK with eK; subst eK))

theorem objectTo_keeps {s : State} {k c : Nat} {o : Objection} {m : Word}  (hK : Keeps sK s) : Keeps sK (objectTo s k c o m) := by
  unfold objectTo
  try dsimp only
  repeat' first | with_reducible assumption | with_reducible exact Keeps.refl _ | with_reducible refine sendPlane_keeps ?_ | fail_if_no_progress (with_reducible refine keeps_mk ?_) | with_reducible refine getD_keeps ?_ ?_ | intro _ hk | with_reducible refine keeps_ite (fun _ => ?_) (fun _ => ?_) | split | dsimp only

theorem execObject_keeps {k : BitVec 3} {x : SF} {s : State}  {u0 : State} (eK : execObject k x s = .next u0) (hK : Keeps sK s) : Keeps sK u0 := by
  unfold execObject at eK
  try dsimp only at eK
  repeat' first | split at eK | (rw [Option.map_eq_some_iff] at eK; obtain ⟨_, _, eK⟩ := eK; try dsimp only at eK) | (rw [Option.bind_eq_some_iff] at eK; obtain ⟨_, _, eK⟩ := eK; try dsimp only at eK)
  all_goals (try first | (injection eK with eK; subst eK) | (injection eK; done) | subst eK)
  all_goals (repeat' first | (intro _ _ _ eK h1; (try dsimp only at eK); repeat' (split at eK)) | (intro _ _ _ eK; (try dsimp only at eK); repeat' (split at eK)) | (intro _ _ eK; (try dsimp only at eK); repeat' (split at eK)) | (intro _ eK; (try dsimp only at eK); repeat' (split at eK)) | intro _ | with_reducible assumption | with_reducible exact Keeps.refl _ | with_reducible refine parkTeam_keeps ?_ | with_reducible refine parkDone_keeps ?_ | with_reducible refine writeScalar_keeps ?_ | with_reducible refine objectTo_keeps ?_ | fail_if_no_progress (with_reducible refine keeps_mk ?_) | with_reducible refine keeps_ite (fun _ => ?_) (fun _ => ?_) | split | dsimp only | with_reducible refine performGated_keeps ?_ ?_ (by assumption) ?_ | (injection eK; done) | (injection eK with eK; subst eK))

theorem onGroup_keeps {s : State} {c g : Nat} {f : Group → Group}  (hK : Keeps sK s) : Keeps sK (onGroup s c g f) := by
  unfold onGroup
  try dsimp only
  repeat' first | with_reducible assumption | with_reducible exact Keeps.refl _ | with_reducible refine setCore_keeps ?_ | fail_if_no_progress (with_reducible refine keeps_mk ?_) | with_reducible refine foldl_keeps ?_ ?_ | with_reducible refine foldl1_keeps ?_ ?_ | intro _ _ hk | with_reducible refine getD_keeps ?_ ?_ | intro _ hk | with_reducible refine keeps_ite (fun _ => ?_) (fun _ => ?_) | split | dsimp only

theorem memberGate_keeps {g : Nat} {c : Ctx} {s : State}  {u0 : State} (eK : memberGate g c s = .hold u0) (hK : Keeps sK s) : Keeps sK u0 := by
  unfold memberGate at eK
  try dsimp only at eK
  repeat' first | split at eK | (rw [Option.map_eq_some_iff] at eK; obtain ⟨_, _, eK⟩ := eK; try dsimp only at eK) | (rw [Option.bind_eq_some_iff] at eK; obtain ⟨_, _, eK⟩ := eK; try dsimp only at eK)
  all_goals (try first | (injection eK with eK; subst eK) | (injection eK; done) | subst eK)
  all_goals (repeat' first | with_reducible assumption | with_reducible exact Keeps.refl _ | fail_if_no_progress (with_reducible refine keeps_mk ?_) | with_reducible refine keeps_ite (fun _ => ?_) (fun _ => ?_) | split | dsimp only | (injection eK; done) | (injection eK with eK; subst eK) | (injection eK with eK; split at eK) | (injection eK with eK) | split at eK)

theorem changeMember_keeps {g : Nat} {d : Nat} {bad : Option Nat} {m : Option Word} {c : Ctx} {s : State}  (hK : Keeps sK s) : Keeps sK (changeMember g d bad m c s).s := by
  unfold changeMember
  try dsimp only
  repeat' first | with_reducible assumption | with_reducible exact Keeps.refl _ | with_reducible refine writeScalar_keeps ?_ | with_reducible refine onGroup_keeps ?_ | fail_if_no_progress (with_reducible refine keeps_mk ?_) | with_reducible refine keeps_ite (fun _ => ?_) (fun _ => ?_) | split | dsimp only

theorem execCljoin_keeps {k : BitVec 3} {x : SF} {s : State}  {u0 : State} (eK : execCljoin k x s = .next u0) (hK : Keeps sK s) : Keeps sK u0 := by
  unfold execCljoin at eK
  try dsimp only at eK
  repeat' first | split at eK | (rw [Option.map_eq_some_iff] at eK; obtain ⟨_, _, eK⟩ := eK; try dsimp only at eK) | (rw [Option.bind_eq_some_iff] at eK; obtain ⟨_, _, eK⟩ := eK; try dsimp only at eK)
  all_goals (try first | (injection eK with eK; subst eK) | (injection eK; done) | subst eK)
  all_goals (repeat' first | (intro _ _ _ eK h1; (try dsimp only at eK); repeat' (split at eK)) | (intro _ _ _ eK; (try dsimp only at eK); repeat' (split at eK)) | (intro _ _ eK; (try dsimp only at eK); repeat' (split at eK)) | (intro _ eK; (try dsimp only at eK); repeat' (split at eK)) | intro _ | with_reducible assumption | with_reducible exact Keeps.refl _ | with_reducible refine changeMember_keeps ?_ | fail_if_no_progress (with_reducible refine keeps_mk ?_) | with_reducible refine keeps_ite (fun _ => ?_) (fun _ => ?_) | split | dsimp only | with_reducible refine performGated_keeps ?_ ?_ (by assumption) ?_ | with_reducible refine memberGate_keeps (by assumption) ?_ | (injection eK; done) | (injection eK with eK; subst eK))

theorem execClleave_keeps {k : BitVec 3} {x : SF} {s : State}  {u0 : State} (eK : execClleave k x s = .next u0) (hK : Keeps sK s) : Keeps sK u0 := by
  unfold execClleave at eK
  try dsimp only at eK
  repeat' first | split at eK | (rw [Option.map_eq_some_iff] at eK; obtain ⟨_, _, eK⟩ := eK; try dsimp only at eK) | (rw [Option.bind_eq_some_iff] at eK; obtain ⟨_, _, eK⟩ := eK; try dsimp only at eK)
  all_goals (try first | (injection eK with eK; subst eK) | (injection eK; done) | subst eK)
  all_goals (repeat' first | (intro _ _ _ eK h1; (try dsimp only at eK); repeat' (split at eK)) | (intro _ _ _ eK; (try dsimp only at eK); repeat' (split at eK)) | (intro _ _ eK; (try dsimp only at eK); repeat' (split at eK)) | (intro _ eK; (try dsimp only at eK); repeat' (split at eK)) | intro _ | with_reducible assumption | with_reducible exact Keeps.refl _ | with_reducible refine changeMember_keeps ?_ | fail_if_no_progress (with_reducible refine keeps_mk ?_) | with_reducible refine keeps_ite (fun _ => ?_) (fun _ => ?_) | split | dsimp only | with_reducible refine performGated_keeps ?_ ?_ (by assumption) ?_ | with_reducible refine memberGate_keeps (by assumption) ?_ | (injection eK; done) | (injection eK with eK; subst eK))

theorem applyMember_keeps {s : State} {c : Nat} {u : Membership}  (hK : Keeps sK s) : Keeps sK (applyMember s c u).1 := by
  unfold applyMember
  try dsimp only
  repeat' first | with_reducible assumption | with_reducible exact Keeps.refl _ | with_reducible refine onGroup_keeps ?_ | with_reducible refine setCore_keeps ?_ | fail_if_no_progress (with_reducible refine keeps_mk ?_) | with_reducible refine getD_keeps ?_ ?_ | intro _ hk | with_reducible refine keeps_ite (fun _ => ?_) (fun _ => ?_) | split | dsimp only

theorem applyMember_keeps_eq {s : State} {c : Nat} {u : Membership} {u0 : State} {q0 : _} (eK : applyMember s c u = (u0, q0)) (hK : Keeps sK s) : Keeps sK u0 := by
  have := applyMember_keeps (sK := sK) (s := s) (c := c) (u := u) hK; rw [eK] at this; exact this

theorem memberChange_keeps {s : State} {c : Nat} {u : Membership}  (hK : Keeps sK s) : Keeps sK (memberChange s c u) := by
  unfold memberChange
  try dsimp only
  repeat' first | with_reducible assumption | with_reducible exact Keeps.refl _ | with_reducible refine applyMember_keeps ?_ | with_reducible refine onTeam_keeps ?_ | fail_if_no_progress (with_reducible refine keeps_mk ?_) | with_reducible refine keeps_ite (fun _ => ?_) (fun _ => ?_) | split | dsimp only | with_reducible refine applyMember_keeps_eq (by assumption) ?_

theorem hearAnnouncement_keeps {s : State} {k : Nat} {a : Announcement}  (hK : Keeps sK s) : Keeps sK (hearAnnouncement s k a) := by
  unfold hearAnnouncement
  try dsimp only
  repeat' first | with_reducible assumption | with_reducible exact Keeps.refl _ | with_reducible refine setCore_keeps ?_ | with_reducible refine sendPlane_keeps ?_ | fail_if_no_progress (with_reducible refine keeps_mk ?_) | with_reducible refine keeps_ite (fun _ => ?_) (fun _ => ?_) | split | dsimp only

theorem answerTo_keeps {s : State} {k : Nat} {o : Objection} {late : Bool}  (hK : Keeps sK s) : Keeps sK (answerTo s k o late) := by
  unfold answerTo
  try dsimp only
  repeat' first | with_reducible assumption | with_reducible exact Keeps.refl _ | with_reducible refine sendPlane_keeps ?_ | fail_if_no_progress (with_reducible refine keeps_mk ?_) | with_reducible refine keeps_ite (fun _ => ?_) (fun _ => ?_) | split | dsimp only

theorem hearObjection_keeps {s : State} {k : Nat} {o : Objection}  (hK : Keeps sK s) : Keeps sK (hearObjection s k o) := by
  unfold hearObjection
  try dsimp only
  repeat' first | with_reducible assumption | with_reducible exact Keeps.refl _ | with_reducible refine setProposal_keeps ?_ | with_reducible refine answerTo_keeps ?_ | fail_if_no_progress (with_reducible refine keeps_mk ?_) | with_reducible refine keeps_ite (fun _ => ?_) (fun _ => ?_) | split | dsimp only

theorem wakeTrap_keeps {s : State} {key : Nat} {p : Wait → Option (Option Word)} {i : Nat → TrapInfo}  (hK : Keeps sK s) : Keeps sK (wakeTrap s key p i) := by
  unfold wakeTrap
  try dsimp only
  repeat' first | with_reducible assumption | with_reducible exact Keeps.refl _ | with_reducible refine takeTrap_keeps ?_ | with_reducible refine setTeam_keeps ?_ | fail_if_no_progress (with_reducible refine keeps_mk ?_) | with_reducible refine keeps_ite (fun _ => ?_) (fun _ => ?_) | split | dsimp only

theorem giveAnswer_keeps {s : State} {key : Nat} {id : Word} {late : Bool}  (hK : Keeps sK s) : Keeps sK (giveAnswer s key id late) := by
  unfold giveAnswer
  try dsimp only
  repeat' first | with_reducible assumption | with_reducible exact Keeps.refl _ | with_reducible refine wakeTrap_keeps ?_ | with_reducible refine onTeam_keeps ?_ | fail_if_no_progress (with_reducible refine keeps_mk ?_) | with_reducible refine keeps_ite (fun _ => ?_) (fun _ => ?_) | split | dsimp only

theorem hearAnswer_keeps {s : State} {key : Nat} {id : Word} {late : Bool}  (hK : Keeps sK s) : Keeps sK (hearAnswer s key id late) := by
  unfold hearAnswer
  try dsimp only
  repeat' first | with_reducible assumption | with_reducible exact Keeps.refl _ | with_reducible refine giveAnswer_keeps ?_ | fail_if_no_progress (with_reducible refine keeps_mk ?_) | with_reducible refine foldl_keeps ?_ ?_ | with_reducible refine foldl1_keeps ?_ ?_ | intro _ _ hk | with_reducible refine keeps_ite (fun _ => ?_) (fun _ => ?_) | split | dsimp only

theorem retestClaims_keeps {s : State}  (hK : Keeps sK s) : Keeps sK (retestClaims s) := by
  unfold retestClaims
  try dsimp only
  repeat' first | with_reducible assumption | with_reducible exact Keeps.refl _ | fail_if_no_progress (with_reducible refine keeps_mk ?_) | with_reducible refine keeps_ite (fun _ => ?_) (fun _ => ?_) | split | dsimp only


end Sys2Proof.Machine
end

