-- ==== Sys2Proof/Laws/KeepsSystem.lean ====
section
/-! SUPPORT. What every change keeps (Keeps), for System. -/

set_option linter.unusedTactic false
set_option linter.unreachableTactic false

namespace Sys2Proof.Machine

variable {sK : State}

theorem execHimm_keeps {z0 : BitVec 25} {s : State}  {u0 : State} (eK : execHimm z0 s = .next u0) (hK : Keeps sK s) : Keeps sK u0 := by
  unfold execHimm at eK
  try dsimp only at eK
  repeat' first | split at eK | (rw [Option.map_eq_some_iff] at eK; obtain ⟨_, _, eK⟩ := eK; try dsimp only at eK) | (rw [Option.bind_eq_some_iff] at eK; obtain ⟨_, _, eK⟩ := eK; try dsimp only at eK)
  all_goals (try first | (injection eK with eK; subst eK) | (injection eK; done) | subst eK)
  all_goals (repeat' first | with_reducible assumption | with_reducible exact Keeps.refl _ | fail_if_no_progress (with_reducible refine keeps_mk ?_) | with_reducible refine keeps_ite (fun _ => ?_) (fun _ => ?_) | split | dsimp only | with_reducible refine performHint_keeps (by assumption) ?_ | (injection eK; done) | (injection eK with eK; subst eK))

theorem execHgrd_keeps {z0 : BitVec 21} {s : State}  {u0 : State} (eK : execHgrd z0 s = .next u0) (hK : Keeps sK s) : Keeps sK u0 := by
  unfold execHgrd at eK
  try dsimp only at eK
  repeat' first | split at eK | (rw [Option.map_eq_some_iff] at eK; obtain ⟨_, _, eK⟩ := eK; try dsimp only at eK) | (rw [Option.bind_eq_some_iff] at eK; obtain ⟨_, _, eK⟩ := eK; try dsimp only at eK)
  all_goals (try first | (injection eK with eK; subst eK) | (injection eK; done) | subst eK)
  all_goals (repeat' first | with_reducible assumption | with_reducible exact Keeps.refl _ | fail_if_no_progress (with_reducible refine keeps_mk ?_) | with_reducible refine keeps_ite (fun _ => ?_) (fun _ => ?_) | split | dsimp only | with_reducible refine performHint_keeps (by assumption) ?_ | (injection eK; done) | (injection eK with eK; subst eK))

theorem execHprio_keeps {z0 : BitVec 21} {s : State}  {u0 : State} (eK : execHprio z0 s = .next u0) (hK : Keeps sK s) : Keeps sK u0 := by
  unfold execHprio at eK
  try dsimp only at eK
  repeat' first | split at eK | (rw [Option.map_eq_some_iff] at eK; obtain ⟨_, _, eK⟩ := eK; try dsimp only at eK) | (rw [Option.bind_eq_some_iff] at eK; obtain ⟨_, _, eK⟩ := eK; try dsimp only at eK)
  all_goals (try first | (injection eK with eK; subst eK) | (injection eK; done) | subst eK)
  all_goals (repeat' first | with_reducible assumption | with_reducible exact Keeps.refl _ | fail_if_no_progress (with_reducible refine keeps_mk ?_) | with_reducible refine keeps_ite (fun _ => ?_) (fun _ => ?_) | split | dsimp only | with_reducible refine performHint_keeps (by assumption) ?_ | (injection eK; done) | (injection eK with eK; subst eK))

theorem execHrnd_keeps {z0 : BitVec 21} {s : State}  {u0 : State} (eK : execHrnd z0 s = .next u0) (hK : Keeps sK s) : Keeps sK u0 := by
  unfold execHrnd at eK
  try dsimp only at eK
  repeat' first | split at eK | (rw [Option.map_eq_some_iff] at eK; obtain ⟨_, _, eK⟩ := eK; try dsimp only at eK) | (rw [Option.bind_eq_some_iff] at eK; obtain ⟨_, _, eK⟩ := eK; try dsimp only at eK)
  all_goals (try first | (injection eK with eK; subst eK) | (injection eK; done) | subst eK)
  all_goals (repeat' first | with_reducible assumption | with_reducible exact Keeps.refl _ | fail_if_no_progress (with_reducible refine keeps_mk ?_) | with_reducible refine keeps_ite (fun _ => ?_) (fun _ => ?_) | split | dsimp only | with_reducible refine performHint_keeps (by assumption) ?_ | (injection eK; done) | (injection eK with eK; subst eK))

theorem execHscp_keeps {z0 : BitVec 21} {s : State}  {u0 : State} (eK : execHscp z0 s = .next u0) (hK : Keeps sK s) : Keeps sK u0 := by
  unfold execHscp at eK
  try dsimp only at eK
  repeat' first | split at eK | (rw [Option.map_eq_some_iff] at eK; obtain ⟨_, _, eK⟩ := eK; try dsimp only at eK) | (rw [Option.bind_eq_some_iff] at eK; obtain ⟨_, _, eK⟩ := eK; try dsimp only at eK)
  all_goals (try first | (injection eK with eK; subst eK) | (injection eK; done) | subst eK)
  all_goals (repeat' first | with_reducible assumption | with_reducible exact Keeps.refl _ | fail_if_no_progress (with_reducible refine keeps_mk ?_) | with_reducible refine keeps_ite (fun _ => ?_) (fun _ => ?_) | split | dsimp only | with_reducible refine performHint_keeps (by assumption) ?_ | (injection eK; done) | (injection eK with eK; subst eK))

theorem execHrlx_keeps {z0 : BitVec 21} {s : State}  {u0 : State} (eK : execHrlx z0 s = .next u0) (hK : Keeps sK s) : Keeps sK u0 := by
  unfold execHrlx at eK
  try dsimp only at eK
  repeat' first | split at eK | (rw [Option.map_eq_some_iff] at eK; obtain ⟨_, _, eK⟩ := eK; try dsimp only at eK) | (rw [Option.bind_eq_some_iff] at eK; obtain ⟨_, _, eK⟩ := eK; try dsimp only at eK)
  all_goals (try first | (injection eK with eK; subst eK) | (injection eK; done) | subst eK)
  all_goals (repeat' first | with_reducible assumption | with_reducible exact Keeps.refl _ | fail_if_no_progress (with_reducible refine keeps_mk ?_) | with_reducible refine keeps_ite (fun _ => ?_) (fun _ => ?_) | split | dsimp only | with_reducible refine performHint_keeps (by assumption) ?_ | (injection eK; done) | (injection eK with eK; subst eK))

theorem execHyld_keeps {z0 : BitVec 21} {s : State}  {u0 : State} (eK : execHyld z0 s = .next u0) (hK : Keeps sK s) : Keeps sK u0 := by
  unfold execHyld at eK
  try dsimp only at eK
  repeat' first | split at eK | (rw [Option.map_eq_some_iff] at eK; obtain ⟨_, _, eK⟩ := eK; try dsimp only at eK) | (rw [Option.bind_eq_some_iff] at eK; obtain ⟨_, _, eK⟩ := eK; try dsimp only at eK)
  all_goals (try first | (injection eK with eK; subst eK) | (injection eK; done) | subst eK)
  all_goals (repeat' first | with_reducible assumption | with_reducible exact Keeps.refl _ | fail_if_no_progress (with_reducible refine keeps_mk ?_) | with_reducible refine keeps_ite (fun _ => ?_) (fun _ => ?_) | split | dsimp only | with_reducible refine performHint_keeps (by assumption) ?_ | (injection eK; done) | (injection eK with eK; subst eK))

theorem execHreuse_keeps {z0 : BitVec 21} {s : State}  {u0 : State} (eK : execHreuse z0 s = .next u0) (hK : Keeps sK s) : Keeps sK u0 := by
  unfold execHreuse at eK
  try dsimp only at eK
  repeat' first | split at eK | (rw [Option.map_eq_some_iff] at eK; obtain ⟨_, _, eK⟩ := eK; try dsimp only at eK) | (rw [Option.bind_eq_some_iff] at eK; obtain ⟨_, _, eK⟩ := eK; try dsimp only at eK)
  all_goals (try first | (injection eK with eK; subst eK) | (injection eK; done) | subst eK)
  all_goals (repeat' first | with_reducible assumption | with_reducible exact Keeps.refl _ | fail_if_no_progress (with_reducible refine keeps_mk ?_) | with_reducible refine keeps_ite (fun _ => ?_) (fun _ => ?_) | split | dsimp only | with_reducible refine performHint_keeps (by assumption) ?_ | (injection eK; done) | (injection eK with eK; subst eK))

theorem execHsig_keeps {z0 : BitVec 21} {s : State}  {u0 : State} (eK : execHsig z0 s = .next u0) (hK : Keeps sK s) : Keeps sK u0 := by
  unfold execHsig at eK
  try dsimp only at eK
  repeat' first | split at eK | (rw [Option.map_eq_some_iff] at eK; obtain ⟨_, _, eK⟩ := eK; try dsimp only at eK) | (rw [Option.bind_eq_some_iff] at eK; obtain ⟨_, _, eK⟩ := eK; try dsimp only at eK)
  all_goals (try first | (injection eK with eK; subst eK) | (injection eK; done) | subst eK)
  all_goals (repeat' first | with_reducible assumption | with_reducible exact Keeps.refl _ | fail_if_no_progress (with_reducible refine keeps_mk ?_) | with_reducible refine keeps_ite (fun _ => ?_) (fun _ => ?_) | split | dsimp only | with_reducible refine performHint_keeps (by assumption) ?_ | (injection eK; done) | (injection eK with eK; subst eK))

theorem execHlat_keeps {z0 : BitVec 21} {s : State}  {u0 : State} (eK : execHlat z0 s = .next u0) (hK : Keeps sK s) : Keeps sK u0 := by
  unfold execHlat at eK
  try dsimp only at eK
  repeat' first | split at eK | (rw [Option.map_eq_some_iff] at eK; obtain ⟨_, _, eK⟩ := eK; try dsimp only at eK) | (rw [Option.bind_eq_some_iff] at eK; obtain ⟨_, _, eK⟩ := eK; try dsimp only at eK)
  all_goals (try first | (injection eK with eK; subst eK) | (injection eK; done) | subst eK)
  all_goals (repeat' first | with_reducible assumption | with_reducible exact Keeps.refl _ | fail_if_no_progress (with_reducible refine keeps_mk ?_) | with_reducible refine keeps_ite (fun _ => ?_) (fun _ => ?_) | split | dsimp only | with_reducible refine performHint_keeps (by assumption) ?_ | (injection eK; done) | (injection eK with eK; subst eK))

theorem returnGate_keeps {c : Ctx} {s : State}  {u0 : State} (eK : returnGate c s = .hold u0) (hK : Keeps sK s) : Keeps sK u0 := by
  unfold returnGate at eK
  try dsimp only at eK
  repeat' first | split at eK | (rw [Option.map_eq_some_iff] at eK; obtain ⟨_, _, eK⟩ := eK; try dsimp only at eK) | (rw [Option.bind_eq_some_iff] at eK; obtain ⟨_, _, eK⟩ := eK; try dsimp only at eK)
  all_goals (try first | (injection eK with eK; subst eK) | (injection eK; done) | subst eK)
  all_goals (repeat' first | with_reducible assumption | with_reducible exact Keeps.refl _ | with_reducible refine readFrame_keeps ?_ | fail_if_no_progress (with_reducible refine keeps_mk ?_) | with_reducible refine keeps_ite (fun _ => ?_) (fun _ => ?_) | split | dsimp only | with_reducible refine readFrame_keeps_eq (by assumption) ?_ | (injection eK; done) | (injection eK with eK; subst eK) | (injection eK with eK; split at eK) | (injection eK with eK) | split at eK)

theorem returnEffect_keeps {drop : Bool} {c : Ctx} {s : State}  (hK : Keeps sK s) : Keeps sK (returnEffect drop c s).s := by
  unfold returnEffect
  try dsimp only
  repeat' first | with_reducible assumption | with_reducible exact Keeps.refl _ | with_reducible refine readFrame_keeps ?_ | with_reducible refine returnFrom_keeps ?_ | fail_if_no_progress (with_reducible refine keeps_mk ?_) | with_reducible refine keeps_ite (fun _ => ?_) (fun _ => ?_) | split | dsimp only | with_reducible refine readFrame_keeps_eq (by assumption) ?_

theorem execRtr_keeps {x : SF} {s : State}  {u0 : State} (eK : execRtr x s = .next u0) (hK : Keeps sK s) : Keeps sK u0 := by
  unfold execRtr at eK
  try dsimp only at eK
  repeat' first | split at eK | (rw [Option.map_eq_some_iff] at eK; obtain ⟨_, _, eK⟩ := eK; try dsimp only at eK) | (rw [Option.bind_eq_some_iff] at eK; obtain ⟨_, _, eK⟩ := eK; try dsimp only at eK)
  all_goals (try first | (injection eK with eK; subst eK) | (injection eK; done) | subst eK)
  all_goals (repeat' first | (intro _ _ _ eK h1; (try dsimp only at eK); repeat' (split at eK)) | (intro _ _ _ eK; (try dsimp only at eK); repeat' (split at eK)) | (intro _ _ eK; (try dsimp only at eK); repeat' (split at eK)) | (intro _ eK; (try dsimp only at eK); repeat' (split at eK)) | intro _ | with_reducible assumption | with_reducible exact Keeps.refl _ | with_reducible refine returnEffect_keeps ?_ | fail_if_no_progress (with_reducible refine keeps_mk ?_) | with_reducible refine keeps_ite (fun _ => ?_) (fun _ => ?_) | split | dsimp only | with_reducible refine performGated_keeps ?_ ?_ (by assumption) ?_ | with_reducible refine returnGate_keeps (by assumption) ?_ | (injection eK; done) | (injection eK with eK; subst eK))

theorem execRts_keeps {x : SF} {s : State}  {u0 : State} (eK : execRts x s = .next u0) (hK : Keeps sK s) : Keeps sK u0 := by
  unfold execRts at eK
  try dsimp only at eK
  repeat' first | split at eK | (rw [Option.map_eq_some_iff] at eK; obtain ⟨_, _, eK⟩ := eK; try dsimp only at eK) | (rw [Option.bind_eq_some_iff] at eK; obtain ⟨_, _, eK⟩ := eK; try dsimp only at eK)
  all_goals (try first | (injection eK with eK; subst eK) | (injection eK; done) | subst eK)
  all_goals (repeat' first | (intro _ _ _ eK h1; (try dsimp only at eK); repeat' (split at eK)) | (intro _ _ _ eK; (try dsimp only at eK); repeat' (split at eK)) | (intro _ _ eK; (try dsimp only at eK); repeat' (split at eK)) | (intro _ eK; (try dsimp only at eK); repeat' (split at eK)) | intro _ | with_reducible assumption | with_reducible exact Keeps.refl _ | with_reducible refine returnEffect_keeps ?_ | fail_if_no_progress (with_reducible refine keeps_mk ?_) | with_reducible refine keeps_ite (fun _ => ?_) (fun _ => ?_) | split | dsimp only | with_reducible refine performGated_keeps ?_ ?_ (by assumption) ?_ | with_reducible refine returnGate_keeps (by assumption) ?_ | (injection eK; done) | (injection eK with eK; subst eK))

theorem replayFid_keeps {s : State} {c fid : Nat}  (hK : Keeps sK s) : Keeps sK (replayFid s c fid) := by
  unfold replayFid
  try dsimp only
  repeat' first | with_reducible assumption | with_reducible exact Keeps.refl _ | with_reducible refine retireFid_keeps ?_ | with_reducible refine advanceReq_keeps ?_ | fail_if_no_progress (with_reducible refine keeps_mk ?_) | with_reducible refine foldl_keeps ?_ ?_ | with_reducible refine foldl1_keeps ?_ ?_ | intro _ _ hk | with_reducible refine keeps_ite (fun _ => ?_) (fun _ => ?_) | split | dsimp only

theorem execReplay_keeps {x : SF} {s : State}  {u0 : State} (eK : execReplay x s = .next u0) (hK : Keeps sK s) : Keeps sK u0 := by
  unfold execReplay at eK
  try dsimp only at eK
  repeat' first | split at eK | (rw [Option.map_eq_some_iff] at eK; obtain ⟨_, _, eK⟩ := eK; try dsimp only at eK) | (rw [Option.bind_eq_some_iff] at eK; obtain ⟨_, _, eK⟩ := eK; try dsimp only at eK)
  all_goals (try first | (injection eK with eK; subst eK) | (injection eK; done) | subst eK)
  all_goals (repeat' first | (intro _ _ _ eK h1; (try dsimp only at eK); repeat' (split at eK)) | (intro _ _ _ eK; (try dsimp only at eK); repeat' (split at eK)) | (intro _ _ eK; (try dsimp only at eK); repeat' (split at eK)) | (intro _ eK; (try dsimp only at eK); repeat' (split at eK)) | intro _ | with_reducible assumption | with_reducible exact Keeps.refl _ | with_reducible refine replayFid_keeps ?_ | fail_if_no_progress (with_reducible refine keeps_mk ?_) | with_reducible refine keeps_ite (fun _ => ?_) (fun _ => ?_) | split | dsimp only | with_reducible refine perform_keeps ?_ (by assumption) ?_ | (injection eK; done) | (injection eK with eK; subst eK))

theorem dropEntries_keeps {s : State} {p : TlbEntry → Bool}  (hK : Keeps sK s) : Keeps sK (dropEntries s p) := by
  unfold dropEntries
  try dsimp only
  repeat' first | with_reducible assumption | with_reducible exact Keeps.refl _ | fail_if_no_progress (with_reducible refine keeps_mk ?_) | with_reducible refine keeps_ite (fun _ => ?_) (fun _ => ?_) | split | dsimp only

theorem dropTlb_keeps {s : State} {p : TlbEntry → Bool} {whole : Bool}  (hK : Keeps sK s) : Keeps sK (dropTlb s p whole) := by
  unfold dropTlb
  try dsimp only
  repeat' first | with_reducible assumption | with_reducible exact Keeps.refl _ | with_reducible refine dropEntries_keeps ?_ | with_reducible refine dropStable_keeps ?_ | with_reducible refine dropWords_keeps ?_ | fail_if_no_progress (with_reducible refine keeps_mk ?_) | with_reducible refine foldl_keeps ?_ ?_ | with_reducible refine foldl1_keeps ?_ ?_ | intro _ _ hk | with_reducible refine keeps_ite (fun _ => ?_) (fun _ => ?_) | split | dsimp only

theorem dropTlb2_keeps {s : State} {p : Tlb2Entry → Bool}  (hK : Keeps sK s) : Keeps sK (dropTlb2 s p) := by
  unfold dropTlb2
  try dsimp only
  repeat' first | with_reducible assumption | with_reducible exact Keeps.refl _ | fail_if_no_progress (with_reducible refine keeps_mk ?_) | with_reducible refine keeps_ite (fun _ => ?_) (fun _ => ?_) | split | dsimp only

theorem ownXlate_keeps {s : State} {c keyid colmask : Nat}  (hK : Keeps sK s) : Keeps sK (ownXlate s c keyid colmask) := by
  unfold ownXlate
  try dsimp only
  repeat' first | with_reducible assumption | with_reducible exact Keeps.refl _ | with_reducible refine writeHome_keeps ?_ | fail_if_no_progress (with_reducible refine keeps_mk ?_) | with_reducible refine keeps_ite (fun _ => ?_) (fun _ => ?_) | split | dsimp only

theorem takeXlate_keeps {s : State} {c kind : Nat}  (hK : Keeps sK s) : Keeps sK (takeXlate s c kind) := by
  unfold takeXlate
  try dsimp only
  repeat' first | with_reducible assumption | with_reducible exact Keeps.refl _ | with_reducible refine ownXlate_keeps ?_ | with_reducible refine setComp_keeps ?_ | fail_if_no_progress (with_reducible refine keeps_mk ?_) | with_reducible refine keeps_ite (fun _ => ?_) (fun _ => ?_) | split | dsimp only

theorem dropCovered_keeps {s : State} {c kind a : Nat}  (hK : Keeps sK s) : Keeps sK (dropCovered s c kind a) := by
  unfold dropCovered
  try dsimp only
  repeat' first | with_reducible assumption | with_reducible exact Keeps.refl _ | with_reducible refine dropTlb_keeps ?_ | with_reducible refine dropTlb2_keeps ?_ | fail_if_no_progress (with_reducible refine keeps_mk ?_) | with_reducible refine keeps_ite (fun _ => ?_) (fun _ => ?_) | split | dsimp only

theorem awaitFlush_keeps {s : State} {c : Ctx} {f : Flush} {dirty : List Bool}  {u0 : State} (eK : awaitFlush s c f dirty = .hold u0) (hK : Keeps sK s) : Keeps sK u0 := by
  unfold awaitFlush at eK
  try dsimp only at eK
  repeat' first | split at eK | (rw [Option.map_eq_some_iff] at eK; obtain ⟨_, _, eK⟩ := eK; try dsimp only at eK) | (rw [Option.bind_eq_some_iff] at eK; obtain ⟨_, _, eK⟩ := eK; try dsimp only at eK)
  all_goals (try first | (injection eK with eK; subst eK) | (injection eK; done) | subst eK)
  all_goals (repeat' first | with_reducible assumption | with_reducible exact Keeps.refl _ | fail_if_no_progress (with_reducible refine keeps_mk ?_) | with_reducible refine keeps_ite (fun _ => ?_) (fun _ => ?_) | split | dsimp only | (injection eK; done) | (injection eK with eK; subst eK) | (injection eK with eK; split at eK) | (injection eK with eK) | split at eK)

theorem endFlush_keeps {s : State} {c : Ctx}  (hK : Keeps sK s) : Keeps sK (endFlush s c) := by
  unfold endFlush
  try dsimp only
  repeat' first | with_reducible assumption | with_reducible exact Keeps.refl _ | fail_if_no_progress (with_reducible refine keeps_mk ?_) | with_reducible refine keeps_ite (fun _ => ?_) (fun _ => ?_) | split | dsimp only

theorem settleWords_keeps {s : State} {c kind a : Nat}  (hK : Keeps sK s) : Keeps sK (settleWords s c kind a) := by
  unfold settleWords
  try dsimp only
  repeat' first | with_reducible assumption | with_reducible exact Keeps.refl _ | with_reducible refine writeBackIf_keeps ?_ | fail_if_no_progress (with_reducible refine keeps_mk ?_) | with_reducible refine foldl_keeps ?_ ?_ | with_reducible refine foldl1_keeps ?_ ?_ | intro _ _ hk | with_reducible refine keeps_ite (fun _ => ?_) (fun _ => ?_) | split | dsimp only

theorem beginTlbi_keeps {s : State} {c kind a : Nat}  (hK : Keeps sK s) : Keeps sK (beginTlbi s c kind a) := by
  unfold beginTlbi
  try dsimp only
  repeat' first | with_reducible assumption | with_reducible exact Keeps.refl _ | with_reducible refine dropCovered_keeps ?_ | with_reducible refine settleWords_keeps ?_ | fail_if_no_progress (with_reducible refine keeps_mk ?_) | with_reducible refine keeps_ite (fun _ => ?_) (fun _ => ?_) | split | dsimp only

theorem invalidate_keeps {s : State} {c kind a : Nat}  (hK : Keeps sK s) : Keeps sK (invalidate s c kind a) := by
  unfold invalidate
  try dsimp only
  repeat' first | with_reducible assumption | with_reducible exact Keeps.refl _ | with_reducible refine beginTlbi_keeps ?_ | with_reducible refine takeXlate_keeps ?_ | fail_if_no_progress (with_reducible refine keeps_mk ?_) | with_reducible refine keeps_ite (fun _ => ?_) (fun _ => ?_) | split | dsimp only

theorem tlbiGate_keeps {x : SF} {c : Ctx} {s : State}  {u0 : State} (eK : tlbiGate x c s = .hold u0) (hK : Keeps sK s) : Keeps sK u0 := by
  unfold tlbiGate at eK
  try dsimp only at eK
  repeat' first | split at eK | (rw [Option.map_eq_some_iff] at eK; obtain ⟨_, _, eK⟩ := eK; try dsimp only at eK) | (rw [Option.bind_eq_some_iff] at eK; obtain ⟨_, _, eK⟩ := eK; try dsimp only at eK)
  all_goals (try first | (injection eK with eK; subst eK) | (injection eK; done) | subst eK)
  all_goals (repeat' first | with_reducible assumption | with_reducible exact Keeps.refl _ | with_reducible refine beginTlbi_keeps ?_ | fail_if_no_progress (with_reducible refine keeps_mk ?_) | with_reducible refine keeps_ite (fun _ => ?_) (fun _ => ?_) | split | dsimp only | with_reducible refine awaitFlush_keeps (by assumption) ?_ | (injection eK; done) | (injection eK with eK; subst eK) | (injection eK with eK; split at eK) | (injection eK with eK) | split at eK)

theorem execTlbi_keeps {x : SF} {s : State}  {u0 : State} (eK : execTlbi x s = .next u0) (hK : Keeps sK s) : Keeps sK u0 := by
  unfold execTlbi at eK
  try dsimp only at eK
  repeat' first | split at eK | (rw [Option.map_eq_some_iff] at eK; obtain ⟨_, _, eK⟩ := eK; try dsimp only at eK) | (rw [Option.bind_eq_some_iff] at eK; obtain ⟨_, _, eK⟩ := eK; try dsimp only at eK)
  all_goals (try first | (injection eK with eK; subst eK) | (injection eK; done) | subst eK)
  all_goals (repeat' first | (intro _ _ _ eK h1; (try dsimp only at eK); repeat' (split at eK)) | (intro _ _ _ eK; (try dsimp only at eK); repeat' (split at eK)) | (intro _ _ eK; (try dsimp only at eK); repeat' (split at eK)) | (intro _ eK; (try dsimp only at eK); repeat' (split at eK)) | intro _ | with_reducible assumption | with_reducible exact Keeps.refl _ | with_reducible refine invalidate_keeps ?_ | with_reducible refine endFlush_keeps ?_ | fail_if_no_progress (with_reducible refine keeps_mk ?_) | with_reducible refine keeps_ite (fun _ => ?_) (fun _ => ?_) | split | dsimp only | with_reducible refine performGated_keeps ?_ ?_ (by assumption) ?_ | with_reducible refine tlbiGate_keeps (by assumption) ?_ | (injection eK; done) | (injection eK with eK; subst eK))

theorem clearDirty_keeps {s : State} {key d : Nat}  (hK : Keeps sK s) : Keeps sK (clearDirty s key d) := by
  unfold clearDirty
  try dsimp only
  repeat' first | with_reducible assumption | with_reducible exact Keeps.refl _ | with_reducible refine disown_keeps ?_ | with_reducible refine putHome_keeps ?_ | fail_if_no_progress (with_reducible refine keeps_mk ?_) | with_reducible refine keeps_ite (fun _ => ?_) (fun _ => ?_) | split | dsimp only

theorem harvestPage_keeps {s : State} {level c a : Nat} {h : Harvested}  (hK : Keeps sK s) : Keeps sK (harvestPage s level c a h) := by
  unfold harvestPage
  try dsimp only
  repeat' first | with_reducible assumption | with_reducible exact Keeps.refl _ | with_reducible refine dropEntries_keeps ?_ | with_reducible refine clearDirty_keeps ?_ | with_reducible refine dropTlb2_keeps ?_ | with_reducible refine writeBackIf_keeps ?_ | fail_if_no_progress (with_reducible refine keeps_mk ?_) | with_reducible refine foldl_keeps ?_ ?_ | with_reducible refine foldl1_keeps ?_ ?_ | intro _ _ hk | with_reducible refine keeps_ite (fun _ => ?_) (fun _ => ?_) | split | dsimp only

theorem harvestPages_keeps {s : State} {level c a n : Nat}  (hK : Keeps sK s) : Keeps sK (harvestPages s level c a n).1 := by
  unfold harvestPages
  try dsimp only
  repeat' first | with_reducible assumption | with_reducible exact Keeps.refl _ | with_reducible refine harvestPage_keeps ?_ | fail_if_no_progress (with_reducible refine keeps_mk ?_) | with_reducible refine foldl_keeps ?_ ?_ | with_reducible refine foldl1_keeps ?_ ?_ | intro _ _ hk | with_reducible refine keeps_ite (fun _ => ?_) (fun _ => ?_) | split | dsimp only

theorem harvestPages_keeps_eq {s : State} {level c a n : Nat} {u0 : State} {q0 : _} (eK : harvestPages s level c a n = (u0, q0)) (hK : Keeps sK s) : Keeps sK u0 := by
  have := harvestPages_keeps (sK := sK) (s := s) (level := level) (c := c) (a := a) (n := n) hK; rw [eK] at this; exact this

theorem storePart_keeps {c : Ctx} {s : State} {va : Nat} {bs : List Byte}  {u0 : State} (eK : storePart c s va bs = some u0) (hK : Keeps sK s) : Keeps sK u0 := by
  unfold storePart at eK
  try dsimp only at eK
  repeat' first | split at eK | (rw [Option.map_eq_some_iff] at eK; obtain ⟨_, _, eK⟩ := eK; try dsimp only at eK) | (rw [Option.bind_eq_some_iff] at eK; obtain ⟨_, _, eK⟩ := eK; try dsimp only at eK)
  all_goals (try first | (injection eK with eK; subst eK) | (injection eK; done) | subst eK)
  all_goals (repeat' first | with_reducible assumption | with_reducible exact Keeps.refl _ | with_reducible refine pageOf_keeps ?_ | with_reducible refine weakStore_keeps ?_ | fail_if_no_progress (with_reducible refine keeps_mk ?_) | with_reducible refine keeps_ite (fun _ => ?_) (fun _ => ?_) | split | dsimp only | with_reducible refine pageOf_keeps_eq (by assumption) ?_ | with_reducible refine storeAway_keeps (by assumption) ?_ | (injection eK; done) | (injection eK with eK; subst eK))

theorem storeBitmap_keeps {c : Ctx} {s : State} {ds : List Bool}  {u0 : State} (eK : storeBitmap c s ds = some u0) (hK : Keeps sK s) : Keeps sK u0 := by
  unfold storeBitmap at eK
  try dsimp only at eK
  repeat' first | split at eK | (rw [Option.map_eq_some_iff] at eK; obtain ⟨_, _, eK⟩ := eK; try dsimp only at eK) | (rw [Option.bind_eq_some_iff] at eK; obtain ⟨_, _, eK⟩ := eK; try dsimp only at eK)
  all_goals (try first | (injection eK with eK; subst eK) | (injection eK; done) | subst eK)
  all_goals (repeat' first | (intro _ _ _ eK h1; (try dsimp only at eK); repeat' (split at eK)) | (intro _ _ _ eK; (try dsimp only at eK); repeat' (split at eK)) | (intro _ _ eK; (try dsimp only at eK); repeat' (split at eK)) | (intro _ eK; (try dsimp only at eK); repeat' (split at eK)) | intro _ | with_reducible assumption | with_reducible exact Keeps.refl _ | fail_if_no_progress (with_reducible refine keeps_mk ?_) | with_reducible refine foldl_keeps ?_ ?_ | with_reducible refine foldl1_keeps ?_ ?_ | with_reducible refine keeps_ite (fun _ => ?_) (fun _ => ?_) | split | dsimp only | with_reducible refine foldlBind_keeps ?_ (by assumption) ?_ | with_reducible refine storePart_keeps (by assumption) ?_ | (injection eK; done) | (injection eK with eK; subst eK))

theorem harvestGate_keeps {c : Ctx} {s : State}  {u0 : State} (eK : harvestGate c s = .hold u0) (hK : Keeps sK s) : Keeps sK u0 := by
  unfold harvestGate at eK
  dsimp only at eK
  split at eK
  · injection eK
  split at eK
  · exact absurd eK Ctx_trapAt_keeps
  split at eK
  · rename_i g hg
    subst eK
    refine findSome_keeps (fun p e => ?_) hg
    split at e
    · injection e with e; exact absurd e Ctx_pageTrap_keeps
    · injection e with e; exact absurd e Ctx_pageTrap_keeps
    · injection e with e; exact absurd e Ctx_trapAt_keeps
    · injection e with e; exact touchPage_keeps e hK
    · cases e
  split at eK
  · cases eK
  split at eK
  · cases eK
  split at eK
  · split at eK <;> cases eK
  · exact awaitFlush_keeps eK (harvestPages_keeps hK)

theorem execHarvest_keeps {x : SF} {s : State}  {u0 : State} (eK : execHarvest x s = .next u0) (hK : Keeps sK s) : Keeps sK u0 := by
  unfold execHarvest at eK
  try dsimp only at eK
  repeat' first | split at eK | (rw [Option.map_eq_some_iff] at eK; obtain ⟨_, _, eK⟩ := eK; try dsimp only at eK) | (rw [Option.bind_eq_some_iff] at eK; obtain ⟨_, _, eK⟩ := eK; try dsimp only at eK)
  all_goals (try first | (injection eK with eK; subst eK) | (injection eK; done) | subst eK)
  all_goals (repeat' first | (intro _ _ _ eK h1; (try dsimp only at eK); repeat' (split at eK)) | (intro _ _ _ eK; (try dsimp only at eK); repeat' (split at eK)) | (intro _ _ eK; (try dsimp only at eK); repeat' (split at eK)) | (intro _ eK; (try dsimp only at eK); repeat' (split at eK)) | intro _ | with_reducible assumption | with_reducible exact Keeps.refl _ | with_reducible refine endFlush_keeps ?_ | with_reducible refine harvestPages_keeps ?_ | with_reducible refine writeScalar_keeps ?_ | fail_if_no_progress (with_reducible refine keeps_mk ?_) | with_reducible refine getD_keeps ?_ ?_ | with_reducible refine keeps_ite (fun _ => ?_) (fun _ => ?_) | split | dsimp only | with_reducible refine performGated_keeps ?_ ?_ (by assumption) ?_ | with_reducible refine harvestGate_keeps (by assumption) ?_ | with_reducible refine harvestPages_keeps_eq (by assumption) ?_ | with_reducible refine storeBitmap_keeps (by assumption) ?_ | (injection eK; done) | (injection eK with eK; subst eK))

theorem level2Begin_keeps {s : State} {a : Level2} {v : Nat}  (hK : Keeps sK s) : Keeps sK (level2Begin s a v) := by
  unfold level2Begin
  try dsimp only
  repeat' first | with_reducible assumption | with_reducible exact Keeps.refl _ | with_reducible refine setComp_keeps ?_ | with_reducible refine beginTlbi_keeps ?_ | with_reducible refine harvestPages_keeps ?_ | fail_if_no_progress (with_reducible refine keeps_mk ?_) | with_reducible refine keeps_ite (fun _ => ?_) (fun _ => ?_) | split | dsimp only | with_reducible refine harvestPages_keeps_eq (by assumption) ?_

theorem level2End_keeps {s : State} {w : Level2Wait}  (hK : Keeps sK s) : Keeps sK (level2End s w) := by
  unfold level2End
  try dsimp only
  repeat' first | with_reducible assumption | with_reducible exact Keeps.refl _ | with_reducible refine invalidate_keeps ?_ | fail_if_no_progress (with_reducible refine keeps_mk ?_) | with_reducible refine keeps_ite (fun _ => ?_) (fun _ => ?_) | split | dsimp only

theorem level2Step_keeps {s : State}  (hK : Keeps sK s) : Keeps sK (level2Step s) := by
  unfold level2Step
  try dsimp only
  repeat' first | with_reducible assumption | with_reducible exact Keeps.refl _ | with_reducible refine level2End_keeps ?_ | fail_if_no_progress (with_reducible refine keeps_mk ?_) | with_reducible refine foldl_keeps ?_ ?_ | with_reducible refine foldl1_keeps ?_ ?_ | intro _ _ hk | with_reducible refine keeps_ite (fun _ => ?_) (fun _ => ?_) | split | dsimp only

theorem parkGate_keeps {c : Ctx} {s : State}  {u0 : State} (eK : parkGate c s = .hold u0) (hK : Keeps sK s) : Keeps sK u0 := by
  unfold parkGate at eK
  try dsimp only at eK
  repeat' first | split at eK | (rw [Option.map_eq_some_iff] at eK; obtain ⟨_, _, eK⟩ := eK; try dsimp only at eK) | (rw [Option.bind_eq_some_iff] at eK; obtain ⟨_, _, eK⟩ := eK; try dsimp only at eK)
  all_goals (try first | (injection eK with eK; subst eK) | (injection eK; done) | subst eK)
  all_goals (repeat' first | with_reducible assumption | with_reducible exact Keeps.refl _ | fail_if_no_progress (with_reducible refine keeps_mk ?_) | with_reducible refine keeps_ite (fun _ => ?_) (fun _ => ?_) | split | dsimp only | (injection eK; done) | (injection eK with eK; subst eK) | (injection eK with eK; split at eK) | (injection eK with eK) | split at eK)

theorem execPark_keeps {x : SF} {s : State}  {u0 : State} (eK : execPark x s = .next u0) (hK : Keeps sK s) : Keeps sK u0 := by
  unfold execPark at eK
  try dsimp only at eK
  repeat' first | split at eK | (rw [Option.map_eq_some_iff] at eK; obtain ⟨_, _, eK⟩ := eK; try dsimp only at eK) | (rw [Option.bind_eq_some_iff] at eK; obtain ⟨_, _, eK⟩ := eK; try dsimp only at eK)
  all_goals (try first | (injection eK with eK; subst eK) | (injection eK; done) | subst eK)
  all_goals (repeat' first | (intro _ _ _ eK h1; (try dsimp only at eK); repeat' (split at eK)) | (intro _ _ _ eK; (try dsimp only at eK); repeat' (split at eK)) | (intro _ _ eK; (try dsimp only at eK); repeat' (split at eK)) | (intro _ eK; (try dsimp only at eK); repeat' (split at eK)) | intro _ | with_reducible assumption | with_reducible exact Keeps.refl _ | with_reducible refine voidTeamLatches_keeps ?_ | with_reducible refine onTeam_keeps ?_ | fail_if_no_progress (with_reducible refine keeps_mk ?_) | with_reducible refine keeps_ite (fun _ => ?_) (fun _ => ?_) | split | dsimp only | with_reducible refine performGated_keeps ?_ ?_ (by assumption) ?_ | with_reducible refine parkGate_keeps (by assumption) ?_ | (injection eK; done) | (injection eK with eK; subst eK))

theorem execHalt_keeps {x : SF} {s : State}  {u0 : State} (eK : execHalt x s = .next u0) (hK : Keeps sK s) : Keeps sK u0 := by
  unfold execHalt at eK
  try dsimp only at eK
  repeat' first | split at eK | (rw [Option.map_eq_some_iff] at eK; obtain ⟨_, _, eK⟩ := eK; try dsimp only at eK) | (rw [Option.bind_eq_some_iff] at eK; obtain ⟨_, _, eK⟩ := eK; try dsimp only at eK)
  all_goals (try first | (injection eK with eK; subst eK) | (injection eK; done) | subst eK)
  all_goals (repeat' first | (intro _ _ _ eK h1; (try dsimp only at eK); repeat' (split at eK)) | (intro _ _ _ eK; (try dsimp only at eK); repeat' (split at eK)) | (intro _ _ eK; (try dsimp only at eK); repeat' (split at eK)) | (intro _ eK; (try dsimp only at eK); repeat' (split at eK)) | intro _ | with_reducible assumption | with_reducible exact Keeps.refl _ | with_reducible refine haltComp_keeps ?_ | fail_if_no_progress (with_reducible refine keeps_mk ?_) | with_reducible refine keeps_ite (fun _ => ?_) (fun _ => ?_) | split | dsimp only | with_reducible refine perform_keeps ?_ (by assumption) ?_ | (injection eK; done) | (injection eK with eK; subst eK))

theorem enqueue_keeps {s : State} {c : Nat} {s0 : Word} {msg : Nat}  (hK : Keeps sK s) : Keeps sK (enqueue s c s0 msg).1 := by
  unfold enqueue
  try dsimp only
  repeat' first | with_reducible assumption | with_reducible exact Keeps.refl _ | with_reducible refine devicePa_keeps ?_ | with_reducible refine setComp_keeps ?_ | fail_if_no_progress (with_reducible refine keeps_mk ?_) | with_reducible refine keeps_ite (fun _ => ?_) (fun _ => ?_) | split | dsimp only | with_reducible refine devicePa_keeps_eq (by assumption) ?_

theorem enqueue_keeps_eq {s : State} {c : Nat} {s0 : Word} {msg : Nat} {u0 : State} {q0 : _} (eK : enqueue s c s0 msg = (u0, q0)) (hK : Keeps sK s) : Keeps sK u0 := by
  have := enqueue_keeps (sK := sK) (s := s) (c := c) (s0 := s0) (msg := msg) hK; rw [eK] at this; exact this

theorem scallGate_keeps {c : Ctx} {s : State}  {u0 : State} (eK : scallGate c s = .hold u0) (hK : Keeps sK s) : Keeps sK u0 := by
  unfold scallGate at eK
  try dsimp only at eK
  repeat' first | split at eK | (rw [Option.map_eq_some_iff] at eK; obtain ⟨_, _, eK⟩ := eK; try dsimp only at eK) | (rw [Option.bind_eq_some_iff] at eK; obtain ⟨_, _, eK⟩ := eK; try dsimp only at eK)
  all_goals (try first | (injection eK with eK; subst eK) | (injection eK; done) | subst eK)
  all_goals (repeat' first | with_reducible assumption | with_reducible exact Keeps.refl _ | fail_if_no_progress (with_reducible refine keeps_mk ?_) | with_reducible refine keeps_ite (fun _ => ?_) (fun _ => ?_) | split | dsimp only | with_reducible refine releaseWait_keeps (by assumption) ?_ | (injection eK; done) | (injection eK with eK; subst eK) | (injection eK with eK; split at eK) | (injection eK with eK) | split at eK)

theorem serviceEnds_keeps {s : State} {key k : Nat} {ws : List Word}  (hK : Keeps sK s) : Keeps sK (serviceEnds s key k ws) := by
  unfold serviceEnds
  try dsimp only
  repeat' first | with_reducible assumption | with_reducible exact Keeps.refl _ | with_reducible refine onTeam_keeps ?_ | with_reducible refine acquireAt_keeps ?_ | fail_if_no_progress (with_reducible refine keeps_mk ?_) | with_reducible refine keeps_ite (fun _ => ?_) (fun _ => ?_) | split | dsimp only

theorem scallEffect_keeps {k : Nat} {c : Ctx} {s : State}  (hK : Keeps sK s) : Keeps sK (scallEffect k c s).s := by
  unfold scallEffect
  try dsimp only
  repeat' first | with_reducible assumption | with_reducible exact Keeps.refl _ | with_reducible refine releaseAt_keeps ?_ | with_reducible refine enqueue_keeps ?_ | with_reducible refine serviceEnds_keeps ?_ | fail_if_no_progress (with_reducible refine keeps_mk ?_) | with_reducible refine getD_keeps ?_ ?_ | intro _ hk | with_reducible refine keeps_ite (fun _ => ?_) (fun _ => ?_) | split | dsimp only | with_reducible refine enqueue_keeps_eq (by assumption) ?_

theorem execScall_keeps {x : SF} {s : State}  {u0 : State} (eK : execScall x s = .next u0) (hK : Keeps sK s) : Keeps sK u0 := by
  unfold execScall at eK
  try dsimp only at eK
  repeat' first | split at eK | (rw [Option.map_eq_some_iff] at eK; obtain ⟨_, _, eK⟩ := eK; try dsimp only at eK) | (rw [Option.bind_eq_some_iff] at eK; obtain ⟨_, _, eK⟩ := eK; try dsimp only at eK)
  all_goals (try first | (injection eK with eK; subst eK) | (injection eK; done) | subst eK)
  all_goals (repeat' first | (intro _ _ _ eK h1; (try dsimp only at eK); repeat' (split at eK)) | (intro _ _ _ eK; (try dsimp only at eK); repeat' (split at eK)) | (intro _ _ eK; (try dsimp only at eK); repeat' (split at eK)) | (intro _ eK; (try dsimp only at eK); repeat' (split at eK)) | intro _ | with_reducible assumption | with_reducible exact Keeps.refl _ | with_reducible refine scallEffect_keeps ?_ | fail_if_no_progress (with_reducible refine keeps_mk ?_) | with_reducible refine keeps_ite (fun _ => ?_) (fun _ => ?_) | split | dsimp only | with_reducible refine performGated_keeps ?_ ?_ (by assumption) ?_ | with_reducible refine scallGate_keeps (by assumption) ?_ | (injection eK; done) | (injection eK with eK; subst eK))


end Sys2Proof.Machine
end

