-- ==== Sys2Proof/Laws/KeepsTiles.lean ====
section
/-! SUPPORT. What every change keeps (Keeps), for Tiles. -/

set_option linter.unusedTactic false
set_option linter.unreachableTactic false

namespace Sys2Proof.Machine

variable {sK : State}

theorem tileGate_keeps {k : Nat} {write : Bool} {c : Ctx} {s : State} {next : Gate} {u0 : State}
    (eK : tileGate k write c s next = .hold u0) (hn : next = .hold u0 → Keeps sK u0) : Keeps sK u0 := by
  unfold tileGate at eK
  split at eK
  · cases eK
  · split at eK
    · cases eK
    · split at eK
      · cases eK
      · split at eK
        · cases eK
        · exact hn eK

theorem onTile_keeps {s : State} {key k : Nat} {f : Tile → Tile}  (hK : Keeps sK s) : Keeps sK (onTile s key k f) := by
  unfold onTile
  try dsimp only
  repeat' first | with_reducible assumption | with_reducible exact Keeps.refl _ | with_reducible refine onCrew_keeps ?_ | fail_if_no_progress (with_reducible refine keeps_mk ?_) | with_reducible refine keeps_ite (fun _ => ?_) (fun _ => ?_) | split | dsimp only

theorem tileMemGate_keeps {k : Nat} {store : Bool} {c : Ctx} {s : State}  {u0 : State} (eK : tileMemGate k store c s = .hold u0) (hK : Keeps sK s) : Keeps sK u0 := by
  unfold tileMemGate at eK
  dsimp only at eK
  refine tileGate_keeps eK fun eK => ?_
  split at eK
  · cases eK
  · split at eK
    · exact absurd eK Ctx_trapAt_keeps
    · split at eK
      · split at eK <;> cases eK
      · exact accessChecks_keeps (by assumption) hK

theorem tileMemEffect_keeps {k : Nat} {store : Bool} {c : Ctx} {s : State}  (hK : Keeps sK s) : Keeps sK (tileMemEffect k store c s) := by
  unfold tileMemEffect
  try dsimp only
  repeat' first | with_reducible assumption | with_reducible exact Keeps.refl _ | with_reducible refine startOp_keeps ?_ | with_reducible refine issue_keeps ?_ ?_ ?_ | fail_if_no_progress (with_reducible refine keeps_mk ?_) | intro _ hk | with_reducible refine keeps_ite (fun _ => ?_) (fun _ => ?_) | split | dsimp only | with_reducible refine startOp_keeps_eq (by assumption) ?_

theorem execTld_keeps {k : BitVec 4} {x : SF} {s : State}  {u0 : State} (eK : execTld k x s = .next u0) (hK : Keeps sK s) : Keeps sK u0 := by
  unfold execTld at eK
  try dsimp only at eK
  repeat' first | split at eK | (rw [Option.map_eq_some_iff] at eK; obtain ⟨_, _, eK⟩ := eK; try dsimp only at eK) | (rw [Option.bind_eq_some_iff] at eK; obtain ⟨_, _, eK⟩ := eK; try dsimp only at eK)
  all_goals (try first | (injection eK with eK; subst eK) | (injection eK; done) | subst eK)
  all_goals (repeat' first | (intro _ _ _ eK h1; (try dsimp only at eK); repeat' (split at eK)) | (intro _ _ _ eK; (try dsimp only at eK); repeat' (split at eK)) | (intro _ _ eK; (try dsimp only at eK); repeat' (split at eK)) | (intro _ eK; (try dsimp only at eK); repeat' (split at eK)) | intro _ | with_reducible assumption | with_reducible exact Keeps.refl _ | with_reducible refine tileMemEffect_keeps ?_ | fail_if_no_progress (with_reducible refine keeps_mk ?_) | with_reducible refine keeps_ite (fun _ => ?_) (fun _ => ?_) | split | dsimp only | with_reducible refine performGated_keeps ?_ ?_ (by assumption) ?_ | with_reducible refine tileMemGate_keeps (by assumption) ?_ | (injection eK; done) | (injection eK with eK; subst eK))

theorem execTst_keeps {k : BitVec 4} {x : SF} {s : State}  {u0 : State} (eK : execTst k x s = .next u0) (hK : Keeps sK s) : Keeps sK u0 := by
  unfold execTst at eK
  try dsimp only at eK
  repeat' first | split at eK | (rw [Option.map_eq_some_iff] at eK; obtain ⟨_, _, eK⟩ := eK; try dsimp only at eK) | (rw [Option.bind_eq_some_iff] at eK; obtain ⟨_, _, eK⟩ := eK; try dsimp only at eK)
  all_goals (try first | (injection eK with eK; subst eK) | (injection eK; done) | subst eK)
  all_goals (repeat' first | (intro _ _ _ eK h1; (try dsimp only at eK); repeat' (split at eK)) | (intro _ _ _ eK; (try dsimp only at eK); repeat' (split at eK)) | (intro _ _ eK; (try dsimp only at eK); repeat' (split at eK)) | (intro _ eK; (try dsimp only at eK); repeat' (split at eK)) | intro _ | with_reducible assumption | with_reducible exact Keeps.refl _ | with_reducible refine tileMemEffect_keeps ?_ | fail_if_no_progress (with_reducible refine keeps_mk ?_) | with_reducible refine keeps_ite (fun _ => ?_) (fun _ => ?_) | split | dsimp only | with_reducible refine performGated_keeps ?_ ?_ (by assumption) ?_ | with_reducible refine tileMemGate_keeps (by assumption) ?_ | (injection eK; done) | (injection eK with eK; subst eK))

theorem execTzero_keeps {k : BitVec 4} {x : SF} {s : State}  {u0 : State} (eK : execTzero k x s = .next u0) (hK : Keeps sK s) : Keeps sK u0 := by
  unfold execTzero at eK
  refine performGated_keeps (fun _ _ _ e hs => tileGate_keeps e (fun e => acquireGate_keeps e hs)) (fun c s h => ?_) eK hK
  exact onTile_keeps h

theorem execTtag_keeps {k : BitVec 4} {x : SF} {s : State}  {u0 : State} (eK : execTtag k x s = .next u0) (hK : Keeps sK s) : Keeps sK u0 := by
  unfold execTtag at eK
  refine performGated_keeps (fun _ _ _ e hs => tileGate_keeps e (fun e => ?_)) (fun c s h => ?_) eK hK
  · split at e
    · exact absurd e Ctx_trapAt_keeps
    · exact acquireGate_keeps e hs
  · exact writeScalar_keeps h

theorem tileWordGate_keeps {x : XF} {write : Bool} {c : Ctx} {s : State}  {u0 : State} (eK : tileWordGate x write c s = .hold u0) (hK : Keeps sK s) : Keeps sK u0 := by
  unfold tileWordGate at eK
  split at eK
  · split at eK <;> first | (cases eK; done) | exact acquireGate_keeps eK hK
  · refine tileGate_keeps eK fun eK => ?_
    dsimp only at eK
    split at eK <;> first | (cases eK; done) | exact acquireGate_keeps eK hK

theorem execTrdv_keeps {x : XF} {s : State}  {u0 : State} (eK : execTrdv x s = .next u0) (hK : Keeps sK s) : Keeps sK u0 := by
  unfold execTrdv at eK
  try dsimp only at eK
  repeat' first | split at eK | (rw [Option.map_eq_some_iff] at eK; obtain ⟨_, _, eK⟩ := eK; try dsimp only at eK) | (rw [Option.bind_eq_some_iff] at eK; obtain ⟨_, _, eK⟩ := eK; try dsimp only at eK)
  all_goals (try first | (injection eK with eK; subst eK) | (injection eK; done) | subst eK)
  all_goals (repeat' first | (intro _ _ _ eK h1; (try dsimp only at eK); repeat' (split at eK)) | (intro _ _ _ eK; (try dsimp only at eK); repeat' (split at eK)) | (intro _ _ eK; (try dsimp only at eK); repeat' (split at eK)) | (intro _ eK; (try dsimp only at eK); repeat' (split at eK)) | intro _ | with_reducible assumption | with_reducible exact Keeps.refl _ | with_reducible refine writeVector_keeps ?_ | fail_if_no_progress (with_reducible refine keeps_mk ?_) | with_reducible refine keeps_ite (fun _ => ?_) (fun _ => ?_) | split | dsimp only | with_reducible refine performGated_keeps ?_ ?_ (by assumption) ?_ | with_reducible refine tileWordGate_keeps (by assumption) ?_ | (injection eK; done) | (injection eK with eK; subst eK))

theorem execTwrv_keeps {x : XF} {s : State}  {u0 : State} (eK : execTwrv x s = .next u0) (hK : Keeps sK s) : Keeps sK u0 := by
  unfold execTwrv at eK
  try dsimp only at eK
  repeat' first | split at eK | (rw [Option.map_eq_some_iff] at eK; obtain ⟨_, _, eK⟩ := eK; try dsimp only at eK) | (rw [Option.bind_eq_some_iff] at eK; obtain ⟨_, _, eK⟩ := eK; try dsimp only at eK)
  all_goals (try first | (injection eK with eK; subst eK) | (injection eK; done) | subst eK)
  all_goals (repeat' first | (intro _ _ _ eK h1; (try dsimp only at eK); repeat' (split at eK)) | (intro _ _ _ eK; (try dsimp only at eK); repeat' (split at eK)) | (intro _ _ eK; (try dsimp only at eK); repeat' (split at eK)) | (intro _ eK; (try dsimp only at eK); repeat' (split at eK)) | intro _ | with_reducible assumption | with_reducible exact Keeps.refl _ | with_reducible refine onTile_keeps ?_ | fail_if_no_progress (with_reducible refine keeps_mk ?_) | with_reducible refine keeps_ite (fun _ => ?_) (fun _ => ?_) | split | dsimp only | with_reducible refine performGated_keeps ?_ ?_ (by assumption) ?_ | with_reducible refine tileWordGate_keeps (by assumption) ?_ | (injection eK; done) | (injection eK with eK; subst eK))


end Sys2Proof.Machine
end

