-- ==== Sys2Proof/Laws/KeepsCopyEng.lean ====
section
/-! SUPPORT. What every change keeps (Keeps), for CopyEng. -/

set_option linter.unusedTactic false
set_option linter.unreachableTactic false

namespace Sys2Proof.Machine

variable {sK : State}

theorem putCopy_keeps {s : State} {x : Copy}  (hK : Keeps sK s) : Keeps sK (putCopy s x) := by
  unfold putCopy
  try dsimp only
  repeat' first | with_reducible assumption | with_reducible exact Keeps.refl _ | fail_if_no_progress (with_reducible refine keeps_mk ?_) | with_reducible refine keeps_ite (fun _ => ?_) (fun _ => ?_) | split | dsimp only

theorem replyCopy_keeps {s : State} {x : Copy}  (hK : Keeps sK s) : Keeps sK (replyCopy s x) := by
  unfold replyCopy
  try dsimp only
  repeat' first | with_reducible assumption | with_reducible exact Keeps.refl _ | with_reducible refine putCopy_keeps ?_ | with_reducible refine onTeam_keeps ?_ | fail_if_no_progress (with_reducible refine keeps_mk ?_) | with_reducible refine keeps_ite (fun _ => ?_) (fun _ => ?_) | split | dsimp only

theorem copyGate_keeps {kind : Nat} {c : Ctx} {s : State}  {u0 : State} (eK : copyGate kind c s = .hold u0) (hK : Keeps sK s) : Keeps sK u0 := by
  unfold copyGate at eK
  dsimp only at eK
  split at eK
  · exact absurd eK Ctx_trapAt_keeps
  refine Got_go_keeps (fun u e => readBlock_keeps e hK) (fun b u eK => ?_) eK
  replace eK := reading_hold eK
  split at eK
  · cases eK
  split at eK
  · exact absurd eK Ctx_trapAt_keeps
  split at eK
  · exact absurd eK Ctx_trapAt_keeps
  split at eK
  · cases eK
  split at eK
  · cases eK
  · exact releaseWait_keeps eK hK

theorem postCopy_keeps {kind : Nat} {c : Ctx} {s : State}  (hK : Keeps sK s) : Keeps sK (postCopy kind c s).s := by
  unfold postCopy
  try dsimp only
  repeat' first | with_reducible assumption | with_reducible exact Keeps.refl _ | with_reducible refine releaseAt_keeps ?_ | with_reducible refine readLines_keeps ?_ | with_reducible refine fresh_keeps ?_ | with_reducible refine nextAge_keeps ?_ | with_reducible refine makeRoom_keeps ?_ | with_reducible refine onTeam_keeps ?_ | with_reducible refine replyCopy_keeps ?_ | fail_if_no_progress (with_reducible refine keeps_mk ?_) | with_reducible refine getD_keeps ?_ ?_ | intro _ hk | with_reducible refine keeps_ite (fun _ => ?_) (fun _ => ?_) | split | dsimp only | with_reducible refine readBlock_keeps (by assumption) ?_

theorem execCpy_keeps {x : SF} {s : State}  {u0 : State} (eK : execCpy x s = .next u0) (hK : Keeps sK s) : Keeps sK u0 := by
  unfold execCpy at eK
  try dsimp only at eK
  repeat' first | split at eK | (rw [Option.map_eq_some_iff] at eK; obtain ⟨_, _, eK⟩ := eK; try dsimp only at eK) | (rw [Option.bind_eq_some_iff] at eK; obtain ⟨_, _, eK⟩ := eK; try dsimp only at eK)
  all_goals (try first | (injection eK with eK; subst eK) | (injection eK; done) | subst eK)
  all_goals (repeat' first | (intro _ _ _ eK h1; (try dsimp only at eK); repeat' (split at eK)) | (intro _ _ _ eK; (try dsimp only at eK); repeat' (split at eK)) | (intro _ _ eK; (try dsimp only at eK); repeat' (split at eK)) | (intro _ eK; (try dsimp only at eK); repeat' (split at eK)) | intro _ | with_reducible assumption | with_reducible exact Keeps.refl _ | with_reducible refine postCopy_keeps ?_ | fail_if_no_progress (with_reducible refine keeps_mk ?_) | with_reducible refine keeps_ite (fun _ => ?_) (fun _ => ?_) | split | dsimp only | with_reducible refine performGated_keeps ?_ ?_ (by assumption) ?_ | with_reducible refine copyGate_keeps (by assumption) ?_ | (injection eK; done) | (injection eK with eK; subst eK))

theorem execGath_keeps {x : SF} {s : State}  {u0 : State} (eK : execGath x s = .next u0) (hK : Keeps sK s) : Keeps sK u0 := by
  unfold execGath at eK
  try dsimp only at eK
  repeat' first | split at eK | (rw [Option.map_eq_some_iff] at eK; obtain ⟨_, _, eK⟩ := eK; try dsimp only at eK) | (rw [Option.bind_eq_some_iff] at eK; obtain ⟨_, _, eK⟩ := eK; try dsimp only at eK)
  all_goals (try first | (injection eK with eK; subst eK) | (injection eK; done) | subst eK)
  all_goals (repeat' first | (intro _ _ _ eK h1; (try dsimp only at eK); repeat' (split at eK)) | (intro _ _ _ eK; (try dsimp only at eK); repeat' (split at eK)) | (intro _ _ eK; (try dsimp only at eK); repeat' (split at eK)) | (intro _ eK; (try dsimp only at eK); repeat' (split at eK)) | intro _ | with_reducible assumption | with_reducible exact Keeps.refl _ | with_reducible refine postCopy_keeps ?_ | fail_if_no_progress (with_reducible refine keeps_mk ?_) | with_reducible refine keeps_ite (fun _ => ?_) (fun _ => ?_) | split | dsimp only | with_reducible refine performGated_keeps ?_ ?_ (by assumption) ?_ | with_reducible refine copyGate_keeps (by assumption) ?_ | (injection eK; done) | (injection eK with eK; subst eK))

theorem execScat_keeps {x : SF} {s : State}  {u0 : State} (eK : execScat x s = .next u0) (hK : Keeps sK s) : Keeps sK u0 := by
  unfold execScat at eK
  try dsimp only at eK
  repeat' first | split at eK | (rw [Option.map_eq_some_iff] at eK; obtain ⟨_, _, eK⟩ := eK; try dsimp only at eK) | (rw [Option.bind_eq_some_iff] at eK; obtain ⟨_, _, eK⟩ := eK; try dsimp only at eK)
  all_goals (try first | (injection eK with eK; subst eK) | (injection eK; done) | subst eK)
  all_goals (repeat' first | (intro _ _ _ eK h1; (try dsimp only at eK); repeat' (split at eK)) | (intro _ _ _ eK; (try dsimp only at eK); repeat' (split at eK)) | (intro _ _ eK; (try dsimp only at eK); repeat' (split at eK)) | (intro _ eK; (try dsimp only at eK); repeat' (split at eK)) | intro _ | with_reducible assumption | with_reducible exact Keeps.refl _ | with_reducible refine postCopy_keeps ?_ | fail_if_no_progress (with_reducible refine keeps_mk ?_) | with_reducible refine keeps_ite (fun _ => ?_) (fun _ => ?_) | split | dsimp only | with_reducible refine performGated_keeps ?_ ?_ (by assumption) ?_ | with_reducible refine copyGate_keeps (by assumption) ?_ | (injection eK; done) | (injection eK with eK; subst eK))

theorem execColl_keeps {x : SF} {s : State}  {u0 : State} (eK : execColl x s = .next u0) (hK : Keeps sK s) : Keeps sK u0 := by
  unfold execColl at eK
  try dsimp only at eK
  repeat' first | split at eK | (rw [Option.map_eq_some_iff] at eK; obtain ⟨_, _, eK⟩ := eK; try dsimp only at eK) | (rw [Option.bind_eq_some_iff] at eK; obtain ⟨_, _, eK⟩ := eK; try dsimp only at eK)
  all_goals (try first | (injection eK with eK; subst eK) | (injection eK; done) | subst eK)
  all_goals (repeat' first | (intro _ _ _ eK h1; (try dsimp only at eK); repeat' (split at eK)) | (intro _ _ _ eK; (try dsimp only at eK); repeat' (split at eK)) | (intro _ _ eK; (try dsimp only at eK); repeat' (split at eK)) | (intro _ eK; (try dsimp only at eK); repeat' (split at eK)) | intro _ | with_reducible assumption | with_reducible exact Keeps.refl _ | with_reducible refine postCopy_keeps ?_ | fail_if_no_progress (with_reducible refine keeps_mk ?_) | with_reducible refine keeps_ite (fun _ => ?_) (fun _ => ?_) | split | dsimp only | with_reducible refine performGated_keeps ?_ ?_ (by assumption) ?_ | with_reducible refine copyGate_keeps (by assumption) ?_ | (injection eK; done) | (injection eK with eK; subst eK))

theorem engLine_keeps {s : State} {x : Copy} {need : Need} {slot va n : Nat}  (hK : Keeps sK s) : Keeps sK (engLine s x need slot va n).1 := by
  unfold engLine
  try dsimp only
  repeat' first | with_reducible assumption | with_reducible exact Keeps.refl _ | with_reducible refine translate_keeps ?_ | with_reducible refine reportUncorr_keeps ?_ | with_reducible refine l2Touch_keeps ?_ | fail_if_no_progress (with_reducible refine keeps_mk ?_) | with_reducible refine keeps_ite (fun _ => ?_) (fun _ => ?_) | split | dsimp only | with_reducible refine translate_keeps_eq (by assumption) ?_ | with_reducible refine askRemote_keeps (by assumption) ?_

theorem engLine_keeps_eq {s : State} {x : Copy} {need : Need} {slot va n : Nat} {u0 : State} {q0 : _} (eK : engLine s x need slot va n = (u0, q0)) (hK : Keeps sK s) : Keeps sK u0 := by
  have := engLine_keeps (sK := sK) (s := s) (x := x) (need := need) (slot := slot) (va := va) (n := n) hK; rw [eK] at this; exact this

theorem engLines_keeps {need : Need} {l : List (Nat × Nat)} {slot : Nat} {s : State} {x : Copy} (h : Keeps sK s) :
    Keeps sK (engLines need l slot s x).1 := by
  induction l generalizing slot s x with
  | nil => exact h
  | cons y r ih =>
    obtain ⟨va, n⟩ := y
    unfold engLines
    split
    · rename_i e
      have h1 := ih (slot := slot + 4) (x := ‹Copy›) (engLine_keeps_eq e h)
      split
      · rename_i e2; rw [e2] at h1; exact h1
      · exact ih (engLine_keeps_eq e h)
    · exact engLine_keeps h

theorem engLines_keeps_eq {need : Need} {l : List (Nat × Nat)} {slot : Nat} {s : State} {x : Copy} {t : State} {q : _}
    (e : engLines need l slot s x = (t, q)) (h : Keeps sK s) : Keeps sK t := by
  have := engLines_keeps (sK := sK) (need := need) (l := l) (slot := slot) (x := x) h; rw [e] at this; exact this

theorem engRead_keeps {s : State} {x : Copy} {scratch : Bool} {need : Need} {slot : Nat} {a : Int} {n : Nat}  (hK : Keeps sK s) : Keeps sK (engRead s x scratch need slot a n).1 := by
  unfold engRead
  try dsimp only
  repeat' first | with_reducible assumption | with_reducible exact Keeps.refl _ | with_reducible refine engLines_keeps ?_ | fail_if_no_progress (with_reducible refine keeps_mk ?_) | with_reducible refine keeps_ite (fun _ => ?_) (fun _ => ?_) | split | dsimp only | with_reducible refine engLines_keeps_eq (by assumption) ?_

theorem engRead_keeps_eq {s : State} {x : Copy} {scratch : Bool} {need : Need} {slot : Nat} {a : Int} {n : Nat} {u0 : State} {q0 : _} (eK : engRead s x scratch need slot a n = (u0, q0)) (hK : Keeps sK s) : Keeps sK u0 := by
  have := engRead_keeps (sK := sK) (s := s) (x := x) (scratch := scratch) (need := need) (slot := slot) (a := a) (n := n) hK; rw [eK] at this; exact this

theorem engPut_keeps {s : State} {x : Copy} {va : Nat} {bs : List Byte}  {q0 : _} (eK : engPut s x va bs = some q0) (hK : Keeps sK s) : Keeps sK q0.1 := by
  unfold engPut at eK
  try dsimp only at eK
  repeat' first | split at eK | (rw [Option.map_eq_some_iff] at eK; obtain ⟨_, _, eK⟩ := eK; try dsimp only at eK) | (rw [Option.bind_eq_some_iff] at eK; obtain ⟨_, _, eK⟩ := eK; try dsimp only at eK)
  all_goals (try first | (injection eK with eK; subst eK) | (injection eK; done) | subst eK)
  all_goals (repeat' first | with_reducible assumption | with_reducible exact Keeps.refl _ | with_reducible refine translate_keeps ?_ | with_reducible refine writeProg_keeps ?_ | fail_if_no_progress (with_reducible refine keeps_mk ?_) | with_reducible refine keeps_ite (fun _ => ?_) (fun _ => ?_) | split | dsimp only | with_reducible refine translate_keeps_eq (by assumption) ?_ | with_reducible refine postRemote_keeps (by assumption) ?_ | (injection eK; done) | (injection eK with eK; subst eK))

theorem engPuts_keeps {va : Nat} {bs : List Byte} {l : List (Nat × Nat)} {s : State} {x : Copy} {q : _}
    (e : engPuts va bs l s x = some q) (h : Keeps sK s) : Keeps sK q.1 := by
  induction l generalizing va bs s x with
  | nil => unfold engPuts at e; cases e; exact h
  | cons y r ih =>
    obtain ⟨a, n⟩ := y
    unfold engPuts at e
    obtain ⟨u, h1, h2⟩ := Option.bind_eq_some_iff.1 e
    exact ih h2 (engPut_keeps h1 h)

theorem engWrite_keeps {s : State} {x : Copy} {scratch : Bool} {a : Int} {bs : List Byte} {q0 : State × Copy} {w : Option Nat}
    (eK : engWrite s x scratch a bs = (some q0, w)) (hK : Keeps sK s) : Keeps sK q0.1 := by
  unfold engWrite at eK
  dsimp only at eK
  split at eK
  · split at eK
    · cases eK
    · cases eK; exact onCrew_keeps hK
  · split at eK
    · obtain ⟨y, h1, h2⟩ := Option.map_eq_some_iff.1 (Prod.mk.inj eK).1
      have h3 := engPuts_keeps h1 hK
      subst h2
      exact h3
    · cases eK
    · exact engPuts_keeps (Prod.mk.inj eK).1 hK

theorem engIndex_keeps {s : State} {x : Copy}  (hK : Keeps sK s) : Keeps sK (engIndex s x).1 := by
  unfold engIndex
  try dsimp only
  repeat' first | with_reducible assumption | with_reducible exact Keeps.refl _ | with_reducible refine engRead_keeps ?_ | fail_if_no_progress (with_reducible refine keeps_mk ?_) | with_reducible refine keeps_ite (fun _ => ?_) (fun _ => ?_) | split | dsimp only | with_reducible refine engRead_keeps_eq (by assumption) ?_

theorem engIndex_keeps_eq {s : State} {x : Copy} {u0 : State} {q0 : _} (eK : engIndex s x = (u0, q0)) (hK : Keeps sK s) : Keeps sK u0 := by
  have := engIndex_keeps (sK := sK) (s := s) (x := x) hK; rw [eK] at this; exact this

theorem wrote_keeps {s : State} {x : Copy} {a : Int}  (hK : Keeps sK s) : Keeps sK (wrote s x a).1 := by
  unfold wrote
  try dsimp only
  repeat' first | with_reducible assumption | with_reducible exact Keeps.refl _ | with_reducible refine setCluster_keeps ?_ | fail_if_no_progress (with_reducible refine keeps_mk ?_) | with_reducible refine getD_keeps ?_ ?_ | intro _ hk | with_reducible refine keeps_ite (fun _ => ?_) (fun _ => ?_) | split | dsimp only

theorem wrote_keeps_eq {s : State} {x : Copy} {a : Int} {u0 : State} {q0 : _} (eK : wrote s x a = (u0, q0)) (hK : Keeps sK s) : Keeps sK u0 := by
  have := wrote_keeps (sK := sK) (s := s) (x := x) (a := a) hK; rw [eK] at this; exact this

theorem element_keeps {s : State} {x : Copy} (hK : Keeps sK s) : Keeps sK (element s x).1 := by
  unfold element
  split
  · exact engIndex_keeps_eq (by assumption) hK
  · exact engIndex_keeps_eq (by assumption) hK
  · rename_i e1
    have h1 := engIndex_keeps_eq e1 hK
    dsimp only
    split
    · exact engRead_keeps_eq (by assumption) h1
    · exact engRead_keeps_eq (by assumption) h1
    · rename_i e2
      have h2 := engRead_keeps_eq e2 h1
      split
      · rename_i e3; split at e3
        · exact engRead_keeps_eq e3 h2
        · cases e3
      · rename_i e3; split at e3
        · exact engRead_keeps_eq e3 h2
        · cases e3
      · rename_i e3
        rename_i s4 x4 old4
        have h4 : Keeps sK s4 := by
          split at e3
          · exact engRead_keeps_eq e3 h2
          · cases e3; exact h2
        split
        · rename_i e4
          dsimp only
          refine wrote_keeps ?_
          exact engWrite_keeps e4 h4
        · rename_i e4
          exact engWrite_keeps e4 h4
        · exact h4
        · exact h4

theorem element_keeps_eq {s : State} {x : Copy} {u0 : State} {q0 : _} (eK : element s x = (u0, q0)) (hK : Keeps sK s) :
    Keeps sK u0 := by
  have := element_keeps (sK := sK) (s := s) (x := x) hK; rw [eK] at this; exact this

theorem passRing_keeps {s : State} {x : Copy} (hK : Keeps sK s) : Keeps sK (passRing s x).1 := by
  unfold passRing
  split
  · rename_i e; have h := engWrite_keeps e hK; exact h
  · rename_i e; have h := engWrite_keeps e hK; exact h
  · exact hK
  · exact hK

theorem passRing_keeps_eq {s : State} {x : Copy} {u0 : State} {q0 : _} (eK : passRing s x = (u0, q0)) (hK : Keeps sK s) :
    Keeps sK u0 := by
  have := passRing_keeps (sK := sK) (s := s) (x := x) hK; rw [eK] at this; exact this

theorem elements_keeps {n : Nat} {s : State} {x : Copy} (hK : Keeps sK s) : Keeps sK (elements n s x).1 := by
  induction n generalizing s x with
  | zero => exact hK
  | succ n ih =>
    unfold elements
    split
    · exact hK
    · split
      · split
        · exact passRing_keeps hK
        · exact hK
      · split
        · exact ih (element_keeps_eq (by assumption) hK)
        · exact element_keeps_eq (by assumption) hK

theorem elements_keeps_eq {n : Nat} {s : State} {x : Copy} {u0 : State} {q0 : _} (eK : elements n s x = (u0, q0))
    (hK : Keeps sK s) : Keeps sK u0 := by
  have := elements_keeps (sK := sK) (n := n) (s := s) (x := x) hK; rw [eK] at this; exact this

theorem runCopy_keeps {s : State} {x : Copy}  (hK : Keeps sK s) : Keeps sK (runCopy s x).1 := by
  unfold runCopy
  try dsimp only
  repeat' first | with_reducible assumption | with_reducible exact Keeps.refl _ | with_reducible refine elements_keeps ?_ | with_reducible refine putCopy_keeps ?_ | fail_if_no_progress (with_reducible refine keeps_mk ?_) | with_reducible refine keeps_ite (fun _ => ?_) (fun _ => ?_) | split | dsimp only | with_reducible refine elements_keeps_eq (by assumption) ?_

theorem runCopy_keeps_eq {s : State} {x : Copy} {u0 : State} {q0 : _} (eK : runCopy s x = (u0, q0)) (hK : Keeps sK s) : Keeps sK u0 := by
  have := runCopy_keeps (sK := sK) (s := s) (x := x) hK; rw [eK] at this; exact this

theorem trunkAtomic_keeps {s : State} {x : Copy} {pa op v : Nat}  {u0 : State} (eK : trunkAtomic s x pa op v = some u0) (hK : Keeps sK s) : Keeps sK u0 := by
  unfold trunkAtomic at eK
  try dsimp only at eK
  repeat' first | split at eK | (rw [Option.map_eq_some_iff] at eK; obtain ⟨_, _, eK⟩ := eK; try dsimp only at eK) | (rw [Option.bind_eq_some_iff] at eK; obtain ⟨_, _, eK⟩ := eK; try dsimp only at eK)
  all_goals (try first | (injection eK with eK; subst eK) | (injection eK; done) | subst eK)
  all_goals (repeat' first | with_reducible assumption | with_reducible exact Keeps.refl _ | with_reducible refine writeHome_keeps ?_ | fail_if_no_progress (with_reducible refine keeps_mk ?_) | with_reducible refine keeps_ite (fun _ => ?_) (fun _ => ?_) | split | dsimp only | with_reducible refine reduceRemote_keeps (by assumption) ?_ | (injection eK; done) | (injection eK with eK; subst eK))

theorem trunkArrive_keeps {s : State} {x : Copy} {pa e n : Nat}  {u0 : State} (eK : trunkArrive s x pa e n = some u0) (hK : Keeps sK s) : Keeps sK u0 := by
  unfold trunkArrive at eK
  obtain ⟨t, h1, h2⟩ := Option.bind_eq_some_iff.1 eK
  refine trunkAtomic_keeps h2 ?_
  split at h1
  · exact trunkAtomic_keeps h1 hK
  · cases h1; exact hK

theorem copyArrive_keeps {s : State} {x : Copy}  (hK : Keeps sK s) : Keeps sK (copyArrive s x) := by
  unfold copyArrive
  try dsimp only
  repeat' first | with_reducible assumption | with_reducible exact Keeps.refl _ | with_reducible refine arriveBytes_keeps ?_ | with_reducible refine setByteBar_keeps ?_ | fail_if_no_progress (with_reducible refine keeps_mk ?_) | with_reducible refine getD_keeps ?_ ?_ | intro _ hk | with_reducible refine keeps_ite (fun _ => ?_) (fun _ => ?_) | split | dsimp only | with_reducible refine trunkArrive_keeps (by assumption) ?_

theorem wakeCopy_keeps {s : State} {x : Copy} {e why : Nat}  (hK : Keeps sK s) : Keeps sK (wakeCopy s x e why) := by
  unfold wakeCopy
  try dsimp only
  repeat' first | with_reducible assumption | with_reducible exact Keeps.refl _ | with_reducible refine acquireDest_keeps ?_ | with_reducible refine wakeTrap_keeps ?_ | with_reducible refine onTeam_keeps ?_ | fail_if_no_progress (with_reducible refine keeps_mk ?_) | with_reducible refine keeps_ite (fun _ => ?_) (fun _ => ?_) | split | dsimp only

theorem promiseMiss_keeps {s : State} {x : Copy}  (hK : Keeps sK s) : Keeps sK (promiseMiss s x) := by
  unfold promiseMiss
  try dsimp only
  repeat' first | with_reducible assumption | with_reducible exact Keeps.refl _ | with_reducible refine onTeam_keeps ?_ | fail_if_no_progress (with_reducible refine keeps_mk ?_) | with_reducible refine getD_keeps ?_ ?_ | intro _ hk | with_reducible refine keeps_ite (fun _ => ?_) (fun _ => ?_) | split | dsimp only

theorem endCopy_keeps {s : State} {x : Copy} {e why : Nat}  (hK : Keeps sK s) : Keeps sK (endCopy s x e why) := by
  unfold endCopy
  try dsimp only
  repeat' first | with_reducible assumption | with_reducible exact Keeps.refl _ | with_reducible refine onTeam_keeps ?_ | with_reducible refine setEngerr_keeps ?_ | with_reducible refine copyArrive_keeps ?_ | with_reducible refine reap_keeps ?_ | with_reducible refine promiseMiss_keeps ?_ | with_reducible refine wakeCopy_keeps ?_ | fail_if_no_progress (with_reducible refine keeps_mk ?_) | with_reducible refine getD_keeps ?_ ?_ | intro _ hk | with_reducible refine keeps_ite (fun _ => ?_) (fun _ => ?_) | split | dsimp only

theorem copyRecord_keeps {s : State} {x : Copy} {why : Nat} {dst : Bool} {va : Nat}  (hK : Keeps sK s) : Keeps sK (copyRecord s x why dst va) := by
  unfold copyRecord
  try dsimp only
  repeat' first | with_reducible assumption | with_reducible exact Keeps.refl _ | with_reducible refine takeFid_keeps ?_ | with_reducible refine pushFault_keeps ?_ | fail_if_no_progress (with_reducible refine keeps_mk ?_) | with_reducible refine keeps_ite (fun _ => ?_) (fun _ => ?_) | split | dsimp only | with_reducible refine takeFid_keeps_eq (by assumption) ?_

theorem faultCopy_keeps {s : State} {x : Copy}  (hK : Keeps sK s) : Keeps sK (faultCopy s x) := by
  unfold faultCopy
  try dsimp only
  repeat' first | with_reducible assumption | with_reducible exact Keeps.refl _ | with_reducible refine endCopy_keeps ?_ | with_reducible refine copyRecord_keeps ?_ | fail_if_no_progress (with_reducible refine keeps_mk ?_) | with_reducible refine keeps_ite (fun _ => ?_) (fun _ => ?_) | split | dsimp only

theorem startCopy_keeps {s : State} {x : Copy}  (hK : Keeps sK s) : Keeps sK (startCopy s x) := by
  unfold startCopy
  try dsimp only
  repeat' first | with_reducible assumption | with_reducible exact Keeps.refl _ | with_reducible refine putCopy_keeps ?_ | with_reducible refine engLine_keeps ?_ | fail_if_no_progress (with_reducible refine keeps_mk ?_) | with_reducible refine keeps_ite (fun _ => ?_) (fun _ => ?_) | split | dsimp only | with_reducible refine engLine_keeps_eq (by assumption) ?_

theorem execEwait_keeps {x : SF} {s : State}  {u0 : State} (eK : execEwait x s = .next u0) (hK : Keeps sK s) : Keeps sK u0 := by
  unfold execEwait at eK
  try dsimp only at eK
  repeat' first | split at eK | (rw [Option.map_eq_some_iff] at eK; obtain ⟨_, _, eK⟩ := eK; try dsimp only at eK) | (rw [Option.bind_eq_some_iff] at eK; obtain ⟨_, _, eK⟩ := eK; try dsimp only at eK)
  all_goals (try first | (injection eK with eK; subst eK) | (injection eK; done) | subst eK)
  all_goals (repeat' first | (intro _ _ _ eK h1; (try dsimp only at eK); repeat' (split at eK)) | (intro _ _ _ eK; (try dsimp only at eK); repeat' (split at eK)) | (intro _ _ eK; (try dsimp only at eK); repeat' (split at eK)) | (intro _ eK; (try dsimp only at eK); repeat' (split at eK)) | intro _ | with_reducible assumption | with_reducible exact Keeps.refl _ | with_reducible refine parkTeam_keeps ?_ | with_reducible refine parkDone_keeps ?_ | with_reducible refine writeScalar_keeps ?_ | with_reducible refine acquireDest_keeps ?_ | fail_if_no_progress (with_reducible refine keeps_mk ?_) | with_reducible refine keeps_ite (fun _ => ?_) (fun _ => ?_) | split | dsimp only | with_reducible refine performGated_keeps ?_ ?_ (by assumption) ?_ | with_reducible refine handleGate_keeps (by assumption) ?_ | (injection eK; done) | (injection eK with eK; subst eK))

theorem execEcan_keeps {x : SF} {s : State}  {u0 : State} (eK : execEcan x s = .next u0) (hK : Keeps sK s) : Keeps sK u0 := by
  unfold execEcan at eK
  try dsimp only at eK
  repeat' first | split at eK | (rw [Option.map_eq_some_iff] at eK; obtain ⟨_, _, eK⟩ := eK; try dsimp only at eK) | (rw [Option.bind_eq_some_iff] at eK; obtain ⟨_, _, eK⟩ := eK; try dsimp only at eK)
  all_goals (try first | (injection eK with eK; subst eK) | (injection eK; done) | subst eK)
  all_goals (repeat' first | (intro _ _ _ eK h1; (try dsimp only at eK); repeat' (split at eK)) | (intro _ _ _ eK; (try dsimp only at eK); repeat' (split at eK)) | (intro _ _ eK; (try dsimp only at eK); repeat' (split at eK)) | (intro _ eK; (try dsimp only at eK); repeat' (split at eK)) | intro _ | with_reducible assumption | with_reducible exact Keeps.refl _ | with_reducible refine writeScalar_keeps ?_ | with_reducible refine endCopy_keeps ?_ | fail_if_no_progress (with_reducible refine keeps_mk ?_) | with_reducible refine keeps_ite (fun _ => ?_) (fun _ => ?_) | split | dsimp only | with_reducible refine performGated_keeps ?_ ?_ (by assumption) ?_ | with_reducible refine handleGate_keeps (by assumption) ?_ | (injection eK; done) | (injection eK with eK; subst eK))

theorem execEqry_keeps {x : SF} {s : State}  {u0 : State} (eK : execEqry x s = .next u0) (hK : Keeps sK s) : Keeps sK u0 := by
  unfold execEqry at eK
  try dsimp only at eK
  repeat' first | split at eK | (rw [Option.map_eq_some_iff] at eK; obtain ⟨_, _, eK⟩ := eK; try dsimp only at eK) | (rw [Option.bind_eq_some_iff] at eK; obtain ⟨_, _, eK⟩ := eK; try dsimp only at eK)
  all_goals (try first | (injection eK with eK; subst eK) | (injection eK; done) | subst eK)
  all_goals (repeat' first | (intro _ _ _ eK h1; (try dsimp only at eK); repeat' (split at eK)) | (intro _ _ _ eK; (try dsimp only at eK); repeat' (split at eK)) | (intro _ _ eK; (try dsimp only at eK); repeat' (split at eK)) | (intro _ eK; (try dsimp only at eK); repeat' (split at eK)) | intro _ | with_reducible assumption | with_reducible exact Keeps.refl _ | with_reducible refine writeScalars_keeps ?_ | fail_if_no_progress (with_reducible refine keeps_mk ?_) | with_reducible refine keeps_ite (fun _ => ?_) (fun _ => ?_) | split | dsimp only | with_reducible refine performGated_keeps ?_ ?_ (by assumption) ?_ | with_reducible refine handleGate_keeps (by assumption) ?_ | (injection eK; done) | (injection eK with eK; subst eK))


end Sys2Proof.Machine
end

