-- ==== Sys2Proof/Laws/KeepsTrunk.lean ====
section
/-! SUPPORT. What every change keeps (Keeps), for Trunk. -/

set_option linter.unusedTactic false
set_option linter.unreachableTactic false

namespace Sys2Proof.Machine

variable {sK : State}

theorem suspendGate_keeps {c : Ctx} {s : State}  {u0 : State} (eK : suspendGate c s = .hold u0) (hK : Keeps sK s) : Keeps sK u0 := by
  unfold suspendGate at eK
  try dsimp only at eK
  repeat' first | split at eK | (rw [Option.map_eq_some_iff] at eK; obtain ⟨_, _, eK⟩ := eK; try dsimp only at eK) | (rw [Option.bind_eq_some_iff] at eK; obtain ⟨_, _, eK⟩ := eK; try dsimp only at eK)
  all_goals (try first | (injection eK with eK; subst eK) | (injection eK; done) | subst eK)
  all_goals (repeat' first | with_reducible assumption | with_reducible exact Keeps.refl _ | fail_if_no_progress (with_reducible refine keeps_mk ?_) | with_reducible refine keeps_ite (fun _ => ?_) (fun _ => ?_) | split | dsimp only | exact absurd (by assumption) Ctx_trapAt_keeps | (injection eK; done) | (injection eK with eK; subst eK) | (injection eK with eK; split at eK) | (injection eK with eK) | split at eK)

theorem suspendEffect_keeps {f : Nat} {c : Ctx} {s : State}  (hK : Keeps sK s) : Keeps sK (suspendEffect f c s).s := by
  unfold suspendEffect
  try dsimp only
  repeat' first | with_reducible assumption | with_reducible exact Keeps.refl _ | with_reducible refine parkDone_keeps ?_ | with_reducible refine parkTeam_keeps ?_ | with_reducible refine issue_keeps ?_ ?_ ?_ | with_reducible refine onCrew_keeps ?_ | with_reducible refine onTeam_keeps ?_ | fail_if_no_progress (with_reducible refine keeps_mk ?_) | with_reducible refine foldl_keeps ?_ ?_ | with_reducible refine foldl1_keeps ?_ ?_ | intro _ _ hk | intro _ hk | with_reducible refine keeps_ite (fun _ => ?_) (fun _ => ?_) | split | dsimp only

theorem execSuspend_keeps {x : SF} {s : State}  {u0 : State} (eK : execSuspend x s = .next u0) (hK : Keeps sK s) : Keeps sK u0 := by
  unfold execSuspend at eK
  try dsimp only at eK
  repeat' first | split at eK | (rw [Option.map_eq_some_iff] at eK; obtain ⟨_, _, eK⟩ := eK; try dsimp only at eK) | (rw [Option.bind_eq_some_iff] at eK; obtain ⟨_, _, eK⟩ := eK; try dsimp only at eK)
  all_goals (try first | (injection eK with eK; subst eK) | (injection eK; done) | subst eK)
  all_goals (repeat' first | (intro _ _ _ eK h1; (try dsimp only at eK); repeat' (split at eK)) | (intro _ _ _ eK; (try dsimp only at eK); repeat' (split at eK)) | (intro _ _ eK; (try dsimp only at eK); repeat' (split at eK)) | (intro _ eK; (try dsimp only at eK); repeat' (split at eK)) | intro _ | with_reducible assumption | with_reducible exact Keeps.refl _ | with_reducible refine suspendEffect_keeps ?_ | fail_if_no_progress (with_reducible refine keeps_mk ?_) | with_reducible refine keeps_ite (fun _ => ?_) (fun _ => ?_) | split | dsimp only | with_reducible refine performGated_keeps ?_ ?_ (by assumption) ?_ | with_reducible refine suspendGate_keeps (by assumption) ?_ | (injection eK; done) | (injection eK with eK; subst eK))

theorem takeUnfinished_keeps {s : State} {key : Nat}  (hK : Keeps sK s) : Keeps sK (takeUnfinished s key) := by
  unfold takeUnfinished
  try dsimp only
  repeat' first | with_reducible assumption | with_reducible exact Keeps.refl _ | with_reducible refine withdraw_keeps ?_ | with_reducible refine onTeam_keeps ?_ | fail_if_no_progress (with_reducible refine keeps_mk ?_) | with_reducible refine keeps_ite (fun _ => ?_) (fun _ => ?_) | split | dsimp only

theorem captures_keeps {s : State}  (hK : Keeps sK s) : Keeps sK (captures s) := by
  unfold captures
  try dsimp only
  repeat' first | with_reducible assumption | with_reducible exact Keeps.refl _ | with_reducible refine takeUnfinished_keeps ?_ | fail_if_no_progress (with_reducible refine keeps_mk ?_) | with_reducible refine foldl_keeps ?_ ?_ | with_reducible refine foldl1_keeps ?_ ?_ | intro _ _ hk | with_reducible refine keeps_ite (fun _ => ?_) (fun _ => ?_) | split | dsimp only

theorem dropCrew_keeps {s : State} {ck : Nat}  (hK : Keeps sK s) : Keeps sK (dropCrew s ck) := by
  unfold dropCrew
  try dsimp only
  repeat' first | with_reducible assumption | with_reducible exact Keeps.refl _ | with_reducible refine freeProposals_keeps ?_ | with_reducible refine endStint_keeps ?_ | with_reducible refine onRegion_keeps ?_ | with_reducible refine endIdle_keeps ?_ | with_reducible refine writeLive_keeps ?_ | fail_if_no_progress (with_reducible refine keeps_mk ?_) | with_reducible refine foldl_keeps ?_ ?_ | with_reducible refine foldl1_keeps ?_ ?_ | intro _ _ hk | with_reducible refine getD_keeps ?_ ?_ | intro _ hk | with_reducible refine keeps_ite (fun _ => ?_) (fun _ => ?_) | split | dsimp only

theorem writtenPas_keeps {s : State} {k : Nat} {t : Team} {l : List (Nat × Nat)} (h : Keeps sK s) :
    Keeps sK (writtenPas s k t l).1 := by
  induction l generalizing s with
  | nil => exact h
  | cons y r ih =>
    obtain ⟨va, n⟩ := y
    unfold writtenPas
    split
    · exact ih (translate_keeps_eq (by assumption) h)
    · exact ih (translate_keeps_eq (by assumption) h)

theorem writtenPas_keeps_eq {s : State} {k : Nat} {t : Team} {l : List (Nat × Nat)} {u : State} {q : _}
    (e : writtenPas s k t l = (u, q)) (h : Keeps sK s) : Keeps sK u := by
  have := writtenPas_keeps (sK := sK) (k := k) (t := t) (l := l) h; rw [e] at this; exact this

theorem touchFor_keeps {s : State} {key : Nat} {t : Team} {k : Nat} {issue : ReplayEntry} {cls va : Nat}  (hK : Keeps sK s) : Keeps sK (touchFor s key t k issue cls va) := by
  unfold touchFor
  try dsimp only
  repeat' first | with_reducible assumption | with_reducible exact Keeps.refl _ | with_reducible refine startOp_keeps ?_ | with_reducible refine issue_keeps ?_ ?_ ?_ | fail_if_no_progress (with_reducible refine keeps_mk ?_) | intro _ hk | with_reducible refine getD_keeps ?_ ?_ | intro _ hk | with_reducible refine keeps_ite (fun _ => ?_) (fun _ => ?_) | split | dsimp only | with_reducible refine startOp_keeps_eq (by assumption) ?_

theorem suspendFails_keeps {s : State} {ck : Nat} {q : Suspending} {va : Nat}  (hK : Keeps sK s) : Keeps sK (suspendFails s ck q va) := by
  unfold suspendFails
  try dsimp only
  repeat' first | with_reducible assumption | with_reducible exact Keeps.refl _ | with_reducible refine onCrew_keeps ?_ | with_reducible refine onTeam_keeps ?_ | with_reducible refine takeTrap_keeps ?_ | fail_if_no_progress (with_reducible refine keeps_mk ?_) | with_reducible refine foldl_keeps ?_ ?_ | with_reducible refine foldl1_keeps ?_ ?_ | intro _ _ hk | with_reducible refine getD_keeps ?_ ?_ | intro _ hk | with_reducible refine keeps_ite (fun _ => ?_) (fun _ => ?_) | split | dsimp only

theorem nextGen_keeps {s : State} {c : Nat}  (hK : Keeps sK s) : Keeps sK (nextGen s c).1 := by
  unfold nextGen
  try dsimp only
  repeat' first | with_reducible assumption | with_reducible exact Keeps.refl _ | with_reducible refine setComp_keeps ?_ | fail_if_no_progress (with_reducible refine keeps_mk ?_) | with_reducible refine keeps_ite (fun _ => ?_) (fun _ => ?_) | split | dsimp only

theorem nextGen_keeps_eq {s : State} {c : Nat} {u0 : State} {q0 : _} (eK : nextGen s c = (u0, q0)) (hK : Keeps sK s) : Keeps sK u0 := by
  have := nextGen_keeps (sK := sK) (s := s) (c := c) hK; rw [eK] at this; exact this

theorem dropCrewPolls_keeps {s : State} {ck : Nat}  (hK : Keeps sK s) : Keeps sK (dropCrewPolls s ck) := by
  unfold dropCrewPolls
  try dsimp only
  repeat' first | with_reducible assumption | with_reducible exact Keeps.refl _ | fail_if_no_progress (with_reducible refine keeps_mk ?_) | with_reducible refine keeps_ite (fun _ => ?_) (fun _ => ?_) | split | dsimp only

theorem takeTrunk_keeps {s : State} {ck : Nat} {c : Crew} {q : Suspending} {t : Team} {k : Nat}  (hK : Keeps sK s) : Keeps sK (takeTrunk s ck c q t k).1 := by
  unfold takeTrunk
  try dsimp only
  repeat' first | with_reducible assumption | with_reducible exact Keeps.refl _ | with_reducible refine nextGen_keeps ?_ | with_reducible refine writtenPas_keeps ?_ | with_reducible refine writeImage_keeps ?_ | with_reducible refine onTeam_keeps ?_ | with_reducible refine dropCrewPolls_keeps ?_ | fail_if_no_progress (with_reducible refine keeps_mk ?_) | with_reducible refine foldl_keeps ?_ ?_ | with_reducible refine foldl1_keeps ?_ ?_ | intro _ _ hk | with_reducible refine keeps_ite (fun _ => ?_) (fun _ => ?_) | split | dsimp only | with_reducible refine nextGen_keeps_eq (by assumption) ?_ | with_reducible refine writtenPas_keeps_eq (by assumption) ?_

theorem takeTrunk_keeps_eq {s : State} {ck : Nat} {c : Crew} {q : Suspending} {t : Team} {k : Nat} {u0 : State} {q0 : _} (eK : takeTrunk s ck c q t k = (u0, q0)) (hK : Keeps sK s) : Keeps sK u0 := by
  have := takeTrunk_keeps (sK := sK) (s := s) (ck := ck) (c := c) (q := q) (t := t) (k := k) hK; rw [eK] at this; exact this

theorem endTrunk_keeps {s : State} {ck : Nat} {c : Crew} {q : Suspending} {k gen tpa : Nat}  (hK : Keeps sK s) : Keeps sK (endTrunk s ck c q k gen tpa) := by
  unfold endTrunk
  have h1 : Keeps sK (sendLines q.team s q.left).1 := sendLines_keeps hK
  dsimp only
  split
  · exact onCrew_keeps h1
  · have h2 := releaseAt_keeps (k := k) (scope := 4) h1
    split
    · exact onCrew_keeps h2
    · rename_i e
      refine dropCrew_keeps (onRegion_keeps ?_)
      split at e
      · exact storeAway_keeps e h2
      · cases e; exact strongStore_keeps h2

theorem advanceSuspend_keeps {s : State} {ck : Nat}  (hK : Keeps sK s) : Keeps sK (advanceSuspend s ck) := by
  unfold advanceSuspend
  try dsimp only
  repeat' first | with_reducible assumption | with_reducible exact Keeps.refl _ | with_reducible refine endMats_keeps ?_ | with_reducible refine endTrunk_keeps ?_ | with_reducible refine suspendFails_keeps ?_ | with_reducible refine touchFor_keeps ?_ | with_reducible refine takeTrunk_keeps ?_ | fail_if_no_progress (with_reducible refine keeps_mk ?_) | with_reducible refine getD_keeps ?_ ?_ | intro _ hk | with_reducible refine keeps_ite (fun _ => ?_) (fun _ => ?_) | split | dsimp only | with_reducible refine takeTrunk_keeps_eq (by assumption) ?_

theorem suspensions_keeps {s : State}  (hK : Keeps sK s) : Keeps sK (suspensions s) := by
  unfold suspensions
  try dsimp only
  repeat' first | with_reducible assumption | with_reducible exact Keeps.refl _ | with_reducible refine captures_keeps ?_ | with_reducible refine advanceSuspend_keeps ?_ | fail_if_no_progress (with_reducible refine keeps_mk ?_) | with_reducible refine foldl_keeps ?_ ?_ | with_reducible refine foldl1_keeps ?_ ?_ | intro _ _ hk | with_reducible refine keeps_ite (fun _ => ?_) (fun _ => ?_) | split | dsimp only

theorem checkTrap_keeps {c : Ctx} {code va : Nat}  {u0 : State} : ¬ (checkTrap c code va = .hold u0) := by
  intro eK
  unfold checkTrap at eK
  try dsimp only at eK
  repeat' (split at eK)
  all_goals first | (cases eK; done) | exact absurd eK (by first | exact Ctx_trapAt_keeps)

theorem checkTrunk_keeps {c : Ctx} {s : State} {va : Nat} {u0 : State} (eK : checkTrunk c s va = .gate (.hold u0))
    (hK : Keeps sK s) : Keeps sK u0 := by
  unfold checkTrunk at eK
  split at eK
  · injection eK with eK; subst eK; exact readRange_keeps (by assumption) hK
  · split at eK
    · cases eK
    · split at eK
      · cases eK
      · split at eK
        · injection eK with eK; subst eK; exact readRange_keeps (by assumption) hK
        · split at eK <;> cases eK

theorem trunkGate_keeps {c : Ctx} {s : State} {shape : Bool} {go : Nat → List Byte → Gate}
    (h_go : ∀ a b u, go a b = .hold u → Keeps sK u) {u0 : State} (eK : trunkGate c s shape go = .hold u0) (hK : Keeps sK s) :
    Keeps sK u0 := by
  unfold trunkGate at eK
  dsimp only at eK
  split at eK
  · exact absurd eK Ctx_trapAt_keeps
  · split at eK
    · subst eK; exact checkTrunk_keeps (by assumption) hK
    · split at eK
      · exact absurd (reading_hold eK) checkTrap_keeps
      · exact Got_go_keeps (fun u e => readRange_keeps e hK) (fun b u e => h_go _ _ _ e) (reading_hold eK)
    · exact absurd (reading_hold eK) checkTrap_keeps
    · exact h_go _ _ _ (reading_hold eK)

theorem readTrunk_keeps {c : Ctx} {s : State}  (hK : Keeps sK s) : Keeps sK (readTrunk c s) := by
  unfold readTrunk
  try dsimp only
  repeat' first | with_reducible assumption | with_reducible exact Keeps.refl _ | with_reducible refine readLines_keeps ?_ | fail_if_no_progress (with_reducible refine keeps_mk ?_) | with_reducible refine keeps_ite (fun _ => ?_) (fun _ => ?_) | split | dsimp only

theorem pollCompl_keeps {c : Ctx} {s : State} {va : Nat} {b : List Byte}  {u0 : State} (eK : pollCompl c s va b = .hold u0) (hK : Keeps sK s) : Keeps sK u0 := by
  unfold pollCompl at eK
  try dsimp only at eK
  repeat' first | split at eK | (rw [Option.map_eq_some_iff] at eK; obtain ⟨_, _, eK⟩ := eK; try dsimp only at eK) | (rw [Option.bind_eq_some_iff] at eK; obtain ⟨_, _, eK⟩ := eK; try dsimp only at eK)
  all_goals (try first | (injection eK with eK; subst eK) | (injection eK; done) | subst eK)
  all_goals (repeat' first | with_reducible assumption | with_reducible exact Keeps.refl _ | fail_if_no_progress (with_reducible refine keeps_mk ?_) | with_reducible refine keeps_ite (fun _ => ?_) (fun _ => ?_) | split | dsimp only | (injection eK; done) | (injection eK with eK; subst eK) | (injection eK with eK; split at eK) | (injection eK with eK) | split at eK)

theorem ticketGate_keeps {c : Ctx} {s : State} {b : List Byte} {next : Gate} (hn : ∀ u, next = .hold u → Keeps sK u) {u0 : State}
    (eK : ticketGate c s b next = .hold u0) (hK : Keeps sK s) : Keeps sK u0 := by
  unfold ticketGate at eK
  dsimp only at eK
  split at eK
  · exact absurd eK Ctx_trapAt_keeps
  refine pageGate_keeps (fun pa st u e => ?_) eK hK
  have ht : ∀ v, (if v = liveTicket (thGen b) then next else (c.trapAt 0x11 (c.pair 0 % 2 ^ 57)).reading true [(thTicket b % 2 ^ 57, 8)]) = .hold u →
      Keeps sK u := fun v e => by
    split at e
    · exact hn _ e
    · exact absurd (reading_hold e) Ctx_trapAt_keeps
  split at e
  · exact ht _ e
  split at e
  · cases e
  split at e
  · split at e
    · exact absurd e Ctx_trapAt_keeps
    · exact ht _ e
  · split at e
    · cases e
    · injection e with e; subst e; exact startOp_keeps hK

theorem spendTicket_keeps {s : State} {c pa gen : Nat}  (hK : Keeps sK s) : Keeps sK (spendTicket s c pa gen) := by
  unfold spendTicket
  try dsimp only
  repeat' first | with_reducible assumption | with_reducible exact Keeps.refl _ | with_reducible refine endIdle_keeps ?_ | with_reducible refine onRegion_keeps ?_ | fail_if_no_progress (with_reducible refine keeps_mk ?_) | with_reducible refine keeps_ite (fun _ => ?_) (fun _ => ?_) | split | dsimp only

theorem swapTicket_keeps {c : Ctx} {s : State} {b : List Byte}  (hK : Keeps sK s) : Keeps sK (swapTicket c s b).1 := by
  unfold swapTicket
  try dsimp only
  repeat' first | with_reducible assumption | with_reducible exact Keeps.refl _ | with_reducible refine pageOf_keeps ?_ | with_reducible refine strongStore_keeps ?_ | fail_if_no_progress (with_reducible refine keeps_mk ?_) | with_reducible refine keeps_ite (fun _ => ?_) (fun _ => ?_) | split | dsimp only | with_reducible refine pageOf_keeps_eq (by assumption) ?_

theorem swapTicket_keeps_eq {c : Ctx} {s : State} {b : List Byte} {u0 : State} {q0 : _} (eK : swapTicket c s b = (u0, q0)) (hK : Keeps sK s) : Keeps sK u0 := by
  have := swapTicket_keeps (sK := sK) (c := c) (s := s) (b := b) hK; rw [eK] at this; exact this

theorem cancelPending_keeps {s : State} {c pa gen : Nat}  (hK : Keeps sK s) : Keeps sK (cancelPending s c pa gen) := by
  unfold cancelPending
  try dsimp only
  repeat' first | with_reducible assumption | with_reducible exact Keeps.refl _ | with_reducible refine endCopy_keeps ?_ | fail_if_no_progress (with_reducible refine keeps_mk ?_) | with_reducible refine foldl_keeps ?_ ?_ | with_reducible refine foldl1_keeps ?_ ?_ | intro _ _ hk | with_reducible refine keeps_ite (fun _ => ?_) (fun _ => ?_) | split | dsimp only

theorem adoptCopies_keeps {s : State} {old new' : Nat}  (hK : Keeps sK s) : Keeps sK (adoptCopies s old new') := by
  unfold adoptCopies
  try dsimp only
  repeat' first | with_reducible assumption | with_reducible exact Keeps.refl _ | fail_if_no_progress (with_reducible refine keeps_mk ?_) | with_reducible refine keeps_ite (fun _ => ?_) (fun _ => ?_) | split | dsimp only

theorem inheritStream_keeps {s : State} {b : List Byte} {o new' : Nat}  (hK : Keeps sK s) : Keeps sK (inheritStream s b o new') := by
  unfold inheritStream
  try dsimp only
  repeat' first | with_reducible assumption | with_reducible exact Keeps.refl _ | with_reducible refine onTeam_keeps ?_ | fail_if_no_progress (with_reducible refine keeps_mk ?_) | with_reducible refine getD_keeps ?_ ?_ | intro _ hk | with_reducible refine keeps_ite (fun _ => ?_) (fun _ => ?_) | split | dsimp only

theorem inherit_keeps {s : State} {old new' : Nat}  (hK : Keeps sK s) : Keeps sK (inherit s old new') := by
  unfold inherit
  try dsimp only
  repeat' first | with_reducible assumption | with_reducible exact Keeps.refl _ | with_reducible refine onTeam_keeps ?_ | with_reducible refine giveAnswer_keeps ?_ | fail_if_no_progress (with_reducible refine keeps_mk ?_) | with_reducible refine foldl_keeps ?_ ?_ | with_reducible refine foldl1_keeps ?_ ?_ | intro _ _ hk | with_reducible refine getD_keeps ?_ ?_ | intro _ hk | with_reducible refine keeps_ite (fun _ => ?_) (fun _ => ?_) | split | dsimp only

theorem inheritDests_keeps {s : State} {old new' : Nat}  (hK : Keeps sK s) : Keeps sK (inheritDests s old new') := by
  unfold inheritDests
  try dsimp only
  repeat' first | with_reducible assumption | with_reducible exact Keeps.refl _ | with_reducible refine onCrew_keeps ?_ | fail_if_no_progress (with_reducible refine keeps_mk ?_) | with_reducible refine getD_keeps ?_ ?_ | intro _ hk | with_reducible refine keeps_ite (fun _ => ?_) (fun _ => ?_) | split | dsimp only

theorem homePart_keeps {c : Ctx} {s : State} {va : Nat} {bs : List Byte}  {u0 : State} (eK : homePart c s va bs = some u0) (hK : Keeps sK s) : Keeps sK u0 := by
  unfold homePart at eK
  try dsimp only at eK
  repeat' first | split at eK | (rw [Option.map_eq_some_iff] at eK; obtain ⟨_, _, eK⟩ := eK; try dsimp only at eK) | (rw [Option.bind_eq_some_iff] at eK; obtain ⟨_, _, eK⟩ := eK; try dsimp only at eK)
  all_goals (try first | (injection eK with eK; subst eK) | (injection eK; done) | subst eK)
  all_goals (repeat' first | with_reducible assumption | with_reducible exact Keeps.refl _ | with_reducible refine pageOf_keeps ?_ | with_reducible refine strongStore_keeps ?_ | fail_if_no_progress (with_reducible refine keeps_mk ?_) | with_reducible refine keeps_ite (fun _ => ?_) (fun _ => ?_) | split | dsimp only | with_reducible refine pageOf_keeps_eq (by assumption) ?_ | with_reducible refine storeAway_keeps (by assumption) ?_ | (injection eK; done) | (injection eK with eK; subst eK))

theorem clearCompl_keeps {c : Ctx} {s : State} {va : Nat} {b : List Byte}  {u0 : State} (eK : clearCompl c s va b = some u0) (hK : Keeps sK s) : Keeps sK u0 := by
  unfold clearCompl at eK
  try dsimp only at eK
  repeat' first | split at eK | (rw [Option.map_eq_some_iff] at eK; obtain ⟨_, _, eK⟩ := eK; try dsimp only at eK) | (rw [Option.bind_eq_some_iff] at eK; obtain ⟨_, _, eK⟩ := eK; try dsimp only at eK)
  all_goals (try first | (injection eK with eK; subst eK) | (injection eK; done) | subst eK)
  all_goals (repeat' first | with_reducible assumption | with_reducible exact Keeps.refl _ | fail_if_no_progress (with_reducible refine keeps_mk ?_) | with_reducible refine keeps_ite (fun _ => ?_) (fun _ => ?_) | split | dsimp only | with_reducible refine homePart_keeps (by assumption) ?_ | (injection eK; done) | (injection eK with eK; subst eK))

theorem wakeMet_keeps {k : Nat} {s : State} {key : Nat}  (hK : Keeps sK s) : Keeps sK (wakeMet k s key) := by
  unfold wakeMet
  try dsimp only
  repeat' first | with_reducible assumption | with_reducible exact Keeps.refl _ | with_reducible refine acquireDest_keeps ?_ | with_reducible refine onTeam_keeps ?_ | fail_if_no_progress (with_reducible refine keeps_mk ?_) | with_reducible refine foldl_keeps ?_ ?_ | with_reducible refine foldl1_keeps ?_ ?_ | intro _ _ hk | with_reducible refine keeps_ite (fun _ => ?_) (fun _ => ?_) | split | dsimp only

theorem rebuildCrew_keeps {c : Ctx} {s : State} {va : Nat} {b : List Byte}  (hK : Keeps sK s) : Keeps sK (rebuildCrew c s va b).1 := by
  unfold rebuildCrew
  try dsimp only
  repeat' first | with_reducible assumption | with_reducible exact Keeps.refl _ | with_reducible refine setComp_keeps ?_ | with_reducible refine setCrew_keeps ?_ | with_reducible refine setTeam_keeps ?_ | with_reducible refine inheritDests_keeps ?_ | with_reducible refine adoptCopies_keeps ?_ | with_reducible refine inheritStream_keeps ?_ | with_reducible refine inherit_keeps ?_ | with_reducible refine arriveBytes_keeps ?_ | with_reducible refine wakeMet_keeps ?_ | with_reducible refine writeLive_keeps ?_ | fail_if_no_progress (with_reducible refine keeps_mk ?_) | with_reducible refine foldl_keeps ?_ ?_ | with_reducible refine foldl1_keeps ?_ ?_ | intro _ _ hk | with_reducible refine getD_keeps ?_ ?_ | intro _ hk | with_reducible refine keeps_ite (fun _ => ?_) (fun _ => ?_) | split | dsimp only | with_reducible refine clearCompl_keeps (by assumption) ?_

theorem rebuildCrew_keeps_eq {c : Ctx} {s : State} {va : Nat} {b : List Byte} {u0 : State} {q0 : _} (eK : rebuildCrew c s va b = (u0, q0)) (hK : Keeps sK s) : Keeps sK u0 := by
  have := rebuildCrew_keeps (sK := sK) (c := c) (s := s) (va := va) (b := b) hK; rw [eK] at this; exact this

theorem resumeGate_keeps {c : Ctx} {s : State}  {u0 : State} (eK : resumeGate c s = .hold u0) (hK : Keeps sK s) : Keeps sK u0 := by
  unfold resumeGate at eK
  refine trunkGate_keeps (fun va b u e => ?_) eK hK
  have hs : ∀ u, ticketGate c s b .go = .hold u → Keeps sK u := fun u e => ticketGate_keeps (fun u e => by cases e) e hK
  split at e
  · exact pollCompl_keeps e hK
  dsimp only at e
  split at e
  · cases e
  split at e
  · exact hs _ e
  · refine pageGate_keeps (fun _ _ u e => ?_) e hK
    split at e
    · cases e
    · exact hs _ e

theorem execResume_keeps {x : SF} {s : State}  {u0 : State} (eK : execResume x s = .next u0) (hK : Keeps sK s) : Keeps sK u0 := by
  unfold execResume at eK
  try dsimp only at eK
  repeat' first | split at eK | (rw [Option.map_eq_some_iff] at eK; obtain ⟨_, _, eK⟩ := eK; try dsimp only at eK) | (rw [Option.bind_eq_some_iff] at eK; obtain ⟨_, _, eK⟩ := eK; try dsimp only at eK)
  all_goals (try first | (injection eK with eK; subst eK) | (injection eK; done) | subst eK)
  all_goals (repeat' first | (intro _ _ _ eK h1; (try dsimp only at eK); repeat' (split at eK)) | (intro _ _ _ eK; (try dsimp only at eK); repeat' (split at eK)) | (intro _ _ eK; (try dsimp only at eK); repeat' (split at eK)) | (intro _ eK; (try dsimp only at eK); repeat' (split at eK)) | intro _ | with_reducible assumption | with_reducible exact Keeps.refl _ | with_reducible refine swapTicket_keeps ?_ | with_reducible refine readTrunk_keeps ?_ | with_reducible refine rebuildCrew_keeps ?_ | with_reducible refine writeScalar_keeps ?_ | with_reducible refine spendTicket_keeps ?_ | with_reducible refine acquireAt_keeps ?_ | fail_if_no_progress (with_reducible refine keeps_mk ?_) | with_reducible refine getD_keeps ?_ ?_ | with_reducible refine keeps_ite (fun _ => ?_) (fun _ => ?_) | split | dsimp only | with_reducible refine performGated_keeps ?_ ?_ (by assumption) ?_ | with_reducible refine resumeGate_keeps (by assumption) ?_ | with_reducible refine swapTicket_keeps_eq (by assumption) ?_ | with_reducible refine rebuildCrew_keeps_eq (by assumption) ?_ | (injection eK; done) | (injection eK with eK; subst eK))

theorem readTicket_keeps {c : Ctx} {s : State} {b : List Byte} {f : Nat → Gate} (h_f : ∀  a9 u, f  a9 = .hold u → Keeps sK u)  {u0 : State} (eK : readTicket c s b f = .hold u0) (hK : Keeps sK s) : Keeps sK u0 := by
  unfold readTicket at eK
  try dsimp only at eK
  repeat' first | split at eK | (rw [Option.map_eq_some_iff] at eK; obtain ⟨_, _, eK⟩ := eK; try dsimp only at eK) | (rw [Option.bind_eq_some_iff] at eK; obtain ⟨_, _, eK⟩ := eK; try dsimp only at eK)
  all_goals (try first | (injection eK with eK; subst eK) | (injection eK; done) | subst eK)
  all_goals (repeat' first | (intro _ _ _ eK h1; (try dsimp only at eK); repeat' (split at eK)) | (intro _ _ _ eK; (try dsimp only at eK); repeat' (split at eK)) | (intro _ _ eK; (try dsimp only at eK); repeat' (split at eK)) | (intro _ eK; (try dsimp only at eK); repeat' (split at eK)) | intro _ | with_reducible assumption | with_reducible exact Keeps.refl _ | fail_if_no_progress (with_reducible refine keeps_mk ?_) | with_reducible refine keeps_ite (fun _ => ?_) (fun _ => ?_) | split | dsimp only | exact h_f _ _ (by assumption) | with_reducible refine Got_go_keeps ?_ ?_ (by assumption) | exact absurd (by assumption) Ctx_trapAt_keeps | with_reducible refine readRange_keeps (by assumption) ?_ | (injection eK; done) | (injection eK with eK; subst eK) | (injection eK with eK; split at eK) | (injection eK with eK) | split at eK)

theorem writeGates_keeps {c : Ctx} {s : State} {l : List (Nat × Nat)} {t : State} (e : writeGates c s l = .hold t)
    (h : Keeps sK s) : Keeps sK t := by
  induction l with
  | nil => cases e
  | cons y r ih =>
    obtain ⟨va, n⟩ := y
    unfold writeGates at e
    split at e
    · exact ih e
    · exact pageGate_keeps (fun _ _ _ e => by cases e) e h

theorem storeParts_keeps {c : Ctx} {s : State} {l : List (Nat × List Byte)} (hK : Keeps sK s) : Keeps sK (storeParts c s l).1 := by
  induction l generalizing s with
  | nil => exact hK
  | cons x r ih =>
    obtain ⟨va, bs⟩ := x
    unfold storeParts
    split
    · exact ih (homePart_keeps (by assumption) hK)
    · exact hK

theorem storeParts_keeps_eq {c : Ctx} {s : State} {l : List (Nat × List Byte)} {u0 : State} {q0 : _}
    (eK : storeParts c s l = (u0, q0)) (hK : Keeps sK s) : Keeps sK u0 := by
  have := storeParts_keeps (c := c) (l := l) hK; rw [eK] at this; exact this

theorem keepCopy_keeps {c : Ctx} {s : State} {gen : Nat} {left : List (Nat × List Byte)}  (hK : Keeps sK s) : Keeps sK (keepCopy c s gen left) := by
  unfold keepCopy
  try dsimp only
  repeat' first | with_reducible assumption | with_reducible exact Keeps.refl _ | fail_if_no_progress (with_reducible refine keeps_mk ?_) | with_reducible refine keeps_ite (fun _ => ?_) (fun _ => ?_) | split | dsimp only

theorem beginCopy_keeps {c : Ctx} {s : State} {b : List Byte}  (hK : Keeps sK s) : Keeps sK (beginCopy c s b).1 := by
  unfold beginCopy
  try dsimp only
  repeat' first | with_reducible assumption | with_reducible exact Keeps.refl _ | with_reducible refine nextGen_keeps ?_ | fail_if_no_progress (with_reducible refine keeps_mk ?_) | with_reducible refine keeps_ite (fun _ => ?_) (fun _ => ?_) | split | dsimp only | with_reducible refine nextGen_keeps_eq (by assumption) ?_

theorem beginCopy_keeps_eq {c : Ctx} {s : State} {b : List Byte} {u0 : State} {q0 : _} (eK : beginCopy c s b = (u0, q0)) (hK : Keeps sK s) : Keeps sK u0 := by
  have := beginCopy_keeps (sK := sK) (c := c) (s := s) (b := b) hK; rw [eK] at this; exact this

theorem copyOn_keeps {c : Ctx} {s : State}  (hK : Keeps sK s) : Keeps sK (copyOn c s).1 := by
  unfold copyOn
  try dsimp only
  repeat' first | with_reducible assumption | with_reducible exact Keeps.refl _ | with_reducible refine beginCopy_keeps ?_ | with_reducible refine storeParts_keeps ?_ | fail_if_no_progress (with_reducible refine keeps_mk ?_) | with_reducible refine keeps_ite (fun _ => ?_) (fun _ => ?_) | split | dsimp only | with_reducible refine beginCopy_keeps_eq (by assumption) ?_ | with_reducible refine storeParts_keeps_eq (by assumption) ?_

theorem copyOn_keeps_eq {c : Ctx} {s : State} {u0 : State} {q0 : _} (eK : copyOn c s = (u0, q0)) (hK : Keeps sK s) : Keeps sK u0 := by
  have := copyOn_keeps (sK := sK) (c := c) (s := s) hK; rw [eK] at this; exact this

theorem copyTicket_keeps {c : Ctx} {s : State} {gen : Nat}  {u0 : State} (eK : copyTicket c s gen = some u0) (hK : Keeps sK s) : Keeps sK u0 := by
  unfold copyTicket at eK
  try dsimp only at eK
  repeat' first | split at eK | (rw [Option.map_eq_some_iff] at eK; obtain ⟨_, _, eK⟩ := eK; try dsimp only at eK) | (rw [Option.bind_eq_some_iff] at eK; obtain ⟨_, _, eK⟩ := eK; try dsimp only at eK)
  all_goals (try first | (injection eK with eK; subst eK) | (injection eK; done) | subst eK)
  all_goals (repeat' first | with_reducible assumption | with_reducible exact Keeps.refl _ | fail_if_no_progress (with_reducible refine keeps_mk ?_) | with_reducible refine keeps_ite (fun _ => ?_) (fun _ => ?_) | split | dsimp only | with_reducible refine homePart_keeps (by assumption) ?_ | (injection eK; done) | (injection eK with eK; subst eK))

theorem tcopyGate_keeps {c : Ctx} {s : State}  {u0 : State} (eK : tcopyGate c s = .hold u0) (hK : Keeps sK s) : Keeps sK u0 := by
  unfold tcopyGate at eK
  split at eK
  · exact absurd eK Ctx_trapAt_keeps
  split at eK
  · exact absurd eK Ctx_trapAt_keeps
  refine trunkGate_keeps (fun va b u e => readTicket_keeps (fun v u e => ?_) e hK) eK hK
  split at e
  · exact absurd (reading_hold e) Ctx_trapAt_keeps
  split at e
  · exact pollCompl_keeps e hK
  split at e
  · split at e
    · cases e
    dsimp only at e
    split at e
    · cases e
    · injection e with e; subst e; exact keepCopy_keeps (copyOn_keeps hK)
  · exact writeGates_keeps e hK

theorem execTcopy_keeps {x : SF} {s : State}  {u0 : State} (eK : execTcopy x s = .next u0) (hK : Keeps sK s) : Keeps sK u0 := by
  unfold execTcopy at eK
  try dsimp only at eK
  repeat' first | split at eK | (rw [Option.map_eq_some_iff] at eK; obtain ⟨_, _, eK⟩ := eK; try dsimp only at eK) | (rw [Option.bind_eq_some_iff] at eK; obtain ⟨_, _, eK⟩ := eK; try dsimp only at eK)
  all_goals (try first | (injection eK with eK; subst eK) | (injection eK; done) | subst eK)
  all_goals (repeat' first | (intro _ _ _ eK h1; (try dsimp only at eK); repeat' (split at eK)) | (intro _ _ _ eK; (try dsimp only at eK); repeat' (split at eK)) | (intro _ _ eK; (try dsimp only at eK); repeat' (split at eK)) | (intro _ eK; (try dsimp only at eK); repeat' (split at eK)) | intro _ | with_reducible assumption | with_reducible exact Keeps.refl _ | with_reducible refine readLines_keeps ?_ | with_reducible refine readTrunk_keeps ?_ | with_reducible refine copyOn_keeps ?_ | with_reducible refine pageOf_keeps ?_ | with_reducible refine onRegion_keeps ?_ | fail_if_no_progress (with_reducible refine keeps_mk ?_) | with_reducible refine getD_keeps ?_ ?_ | with_reducible refine keeps_ite (fun _ => ?_) (fun _ => ?_) | split | dsimp only | with_reducible refine performGated_keeps ?_ ?_ (by assumption) ?_ | with_reducible refine tcopyGate_keeps (by assumption) ?_ | with_reducible refine copyOn_keeps_eq (by assumption) ?_ | with_reducible refine copyTicket_keeps (by assumption) ?_ | with_reducible refine pageOf_keeps_eq (by assumption) ?_ | (injection eK; done) | (injection eK with eK; subst eK))

theorem execTdisc_keeps {x : SF} {s : State}  {u0 : State} (eK : execTdisc x s = .next u0) (hK : Keeps sK s) : Keeps sK u0 := by
  unfold execTdisc at eK
  refine performGated_keeps (fun c s u e h => trunkGate_keeps (fun va b u e => ticketGate_keeps (fun u e => by cases e) e h) e h)
    (fun c s h => ?_) eK hK
  dsimp only
  have h1 := spendTicket_keeps (c := c.team.comp) (pa := (swapTicket c (readTrunk c s) (trunkBytes c s)).2)
    (gen := thGen (trunkBytes c s)) (swapTicket_keeps (c := c) (b := trunkBytes c s) (readTrunk_keeps (c := c) h))
  refine keeps_ite (fun _ => cancelPending_keeps ?_) fun _ => ?_ <;>
    exact keeps_ite (fun _ => foldl_keeps h1 (fun _ _ h => endCopy_keeps h)) fun _ => h1

theorem tstatRead_keeps {c : Ctx} {s : State} {u0 : State} (eK : tstatRead c s = .inl (.hold u0)) (hK : Keeps sK s) :
    Keeps sK u0 := by
  unfold tstatRead at eK
  dsimp only at eK
  split at eK
  · injection eK with eK; exact absurd eK Ctx_trapAt_keeps
  · split at eK
    · injection eK with eK; subst eK; exact checkTrunk_keeps (by assumption) hK
    · cases eK
    · split at eK
      · injection eK with eK; exact absurd eK Ctx_trapAt_keeps
      · split at eK
        · injection eK with eK; subst eK; exact readRange_keeps (by assumption) hK
        · cases eK

theorem execTstat_keeps {x : SF} {s u0 : State} (eK : execTstat x s = .next u0) (hK : Keeps sK s) : Keeps sK u0 := by
  unfold execTstat at eK
  refine performGated_keeps (fun c s u e h => ?_) (fun c s h => ?_) eK hK
  · split at e
    · subst e; exact tstatRead_keeps (by assumption) h
    · cases e
  · split
    · exact h
    · exact writeScalar_keeps (readLines_keeps h)


end Sys2Proof.Machine
end

