-- ==== Sys2Proof/Laws/KeepsTeamEvents.lean ====
section
/-! SUPPORT. What every change keeps (Keeps), for TeamEvents. -/

set_option linter.unusedTactic false
set_option linter.unreachableTactic false

namespace Sys2Proof.Machine

variable {sK : State}

theorem happen_keeps {s : State}  (hK : Keeps sK s) : Keeps sK (happen s) := by
  unfold happen
  try dsimp only
  repeat' first | with_reducible assumption | with_reducible exact Keeps.refl _ | with_reducible refine reap_keeps ?_ | fail_if_no_progress (with_reducible refine keeps_mk ?_) | with_reducible refine keeps_ite (fun _ => ?_) (fun _ => ?_) | split | dsimp only

theorem occur_keeps {enabled : Bool} {f : State → State} {s : State} (h_f : ∀  s, Keeps sK s → Keeps sK (f  s))  {u0 : State} (eK : occur enabled f s = .next u0) (hK : Keeps sK s) : Keeps sK u0 := by
  unfold occur at eK
  try dsimp only at eK
  repeat' first | split at eK | (rw [Option.map_eq_some_iff] at eK; obtain ⟨_, _, eK⟩ := eK; try dsimp only at eK) | (rw [Option.bind_eq_some_iff] at eK; obtain ⟨_, _, eK⟩ := eK; try dsimp only at eK)
  all_goals (try first | (injection eK with eK; subst eK) | (injection eK; done) | subst eK)
  all_goals (repeat' first | with_reducible assumption | with_reducible exact Keeps.refl _ | with_reducible refine h_f _ ?_ | with_reducible refine happen_keeps ?_ | fail_if_no_progress (with_reducible refine keeps_mk ?_) | with_reducible refine keeps_ite (fun _ => ?_) (fun _ => ?_) | split | dsimp only | (injection eK; done) | (injection eK with eK; subst eK))

theorem execStintStart_keeps {bench' team : Nat} {s : State}  {u0 : State} (eK : execStintStart bench' team s = .next u0) (hK : Keeps sK s) : Keeps sK u0 := by
  unfold execStintStart at eK
  try dsimp only at eK
  refine occur_keeps (fun s hK => ?_) eK hK
  try dsimp only
  repeat' first | with_reducible assumption | with_reducible exact Keeps.refl _ | with_reducible refine setBench_keeps ?_ | fail_if_no_progress (with_reducible refine keeps_mk ?_) | intro _ hk | with_reducible refine keeps_ite (fun _ => ?_) (fun _ => ?_) | split | dsimp only

theorem leaveStint_keeps {s : State} {key : Nat}  (hK : Keeps sK s) : Keeps sK (leaveStint s key) := by
  unfold leaveStint
  try dsimp only
  repeat' first | with_reducible assumption | with_reducible exact Keeps.refl _ | with_reducible refine endStint_keeps ?_ | fail_if_no_progress (with_reducible refine keeps_mk ?_) | with_reducible refine keeps_ite (fun _ => ?_) (fun _ => ?_) | split | dsimp only

theorem fetchWait_keeps {s : State} {u : Cur} {w : Wait}  (hK : Keeps sK s) : Keeps sK (fetchWait s u w) := by
  unfold fetchWait
  try dsimp only
  repeat' first | with_reducible assumption | with_reducible exact Keeps.refl _ | with_reducible refine onTeam_keeps ?_ | fail_if_no_progress (with_reducible refine keeps_mk ?_) | with_reducible refine keeps_ite (fun _ => ?_) (fun _ => ?_) | split | dsimp only

theorem fetchMiss_keeps {s : State} {u : Cur} {t : Team} {stage ipa : Nat}  (hK : Keeps sK s) : Keeps sK (fetchMiss s u t stage ipa) := by
  unfold fetchMiss
  try dsimp only
  repeat' first | with_reducible assumption | with_reducible exact Keeps.refl _ | with_reducible refine missFault_keeps ?_ | with_reducible refine fetchWait_keeps ?_ | with_reducible refine onTeam_keeps ?_ | fail_if_no_progress (with_reducible refine keeps_mk ?_) | with_reducible refine getD_keeps ?_ ?_ | intro _ hk | with_reducible refine keeps_ite (fun _ => ?_) (fun _ => ?_) | split | dsimp only | with_reducible refine missFault_keeps_eq (by assumption) ?_

theorem fetchHeld_keeps {s : State} {u : Cur} {t : Team} {kind over' : Nat}  (hK : Keeps sK s) : Keeps sK (fetchHeld s u t kind over') := by
  unfold fetchHeld
  try dsimp only
  repeat' first | with_reducible assumption | with_reducible exact Keeps.refl _ | with_reducible refine fetchWait_keeps ?_ | fail_if_no_progress (with_reducible refine keeps_mk ?_) | with_reducible refine getD_keeps ?_ ?_ | intro _ hk | with_reducible refine keeps_ite (fun _ => ?_) (fun _ => ?_) | split | dsimp only

theorem fetchFails_keeps {s : State} {u : Cur} {t : Team} {cause : Nat}  (hK : Keeps sK s) : Keeps sK (fetchFails s u t cause) := by
  unfold fetchFails
  try dsimp only
  repeat' first | with_reducible assumption | with_reducible exact Keeps.refl _ | with_reducible refine reportAt_keeps ?_ | with_reducible refine takeTrap_keeps ?_ | with_reducible refine onTeam_keeps ?_ | fail_if_no_progress (with_reducible refine keeps_mk ?_) | with_reducible refine getD_keeps ?_ ?_ | intro _ hk | with_reducible refine keeps_ite (fun _ => ?_) (fun _ => ?_) | split | dsimp only

theorem fetchEnds_keeps {s : State} {u : Cur}  (hK : Keeps sK s) : Keeps sK (fetchEnds s u) := by
  unfold fetchEnds
  try dsimp only
  repeat' first | with_reducible assumption | with_reducible exact Keeps.refl _ | with_reducible refine currentWord_keeps ?_ | with_reducible refine leaveStint_keeps ?_ | with_reducible refine fetchFails_keeps ?_ | with_reducible refine fetchMiss_keeps ?_ | with_reducible refine fetchHeld_keeps ?_ | fail_if_no_progress (with_reducible refine keeps_mk ?_) | with_reducible refine keeps_ite (fun _ => ?_) (fun _ => ?_) | split | dsimp only | with_reducible refine currentWord_keeps_eq (by assumption) ?_

theorem execInstructionFetch_keeps {team pc : Nat} {s : State}  {u0 : State} (eK : execInstructionFetch team pc s = .next u0) (hK : Keeps sK s) : Keeps sK u0 := by
  unfold execInstructionFetch at eK
  try dsimp only at eK
  refine occur_keeps (fun s hK => ?_) eK hK
  try dsimp only
  repeat' first | with_reducible assumption | with_reducible exact Keeps.refl _ | with_reducible refine fetchEnds_keeps ?_ | fail_if_no_progress (with_reducible refine keeps_mk ?_) | intro _ hk | with_reducible refine keeps_ite (fun _ => ?_) (fun _ => ?_) | split | dsimp only

theorem deliverDue_keeps {s : State} {key : Nat}  (hK : Keeps sK s) : Keeps sK (deliverDue s key) := by
  unfold deliverDue
  try dsimp only
  repeat' first | with_reducible assumption | with_reducible exact Keeps.refl _ | with_reducible refine deliverTrap_keeps ?_ | with_reducible refine setTeam_keeps ?_ | fail_if_no_progress (with_reducible refine keeps_mk ?_) | with_reducible refine keeps_ite (fun _ => ?_) (fun _ => ?_) | split | dsimp only

theorem execTrapDelivery_keeps {team : Nat} {s : State}  {u0 : State} (eK : execTrapDelivery team s = .next u0) (hK : Keeps sK s) : Keeps sK u0 := by
  unfold execTrapDelivery at eK
  try dsimp only at eK
  refine occur_keeps (fun s hK => ?_) eK hK
  try dsimp only
  repeat' first | with_reducible assumption | with_reducible exact Keeps.refl _ | with_reducible refine deliverDue_keeps ?_ | fail_if_no_progress (with_reducible refine keeps_mk ?_) | intro _ hk | with_reducible refine keeps_ite (fun _ => ?_) (fun _ => ?_) | split | dsimp only

theorem evict_keeps {s : State} {key : Nat}  (hK : Keeps sK s) : Keeps sK (evict s key) := by
  unfold evict
  try dsimp only
  repeat' first | with_reducible assumption | with_reducible exact Keeps.refl _ | with_reducible refine endStint_keeps ?_ | with_reducible refine onTeam_keeps ?_ | with_reducible refine onCrew_keeps ?_ | fail_if_no_progress (with_reducible refine keeps_mk ?_) | with_reducible refine keeps_ite (fun _ => ?_) (fun _ => ?_) | split | dsimp only

theorem execTeamEviction_keeps {team : Nat} {s : State}  {u0 : State} (eK : execTeamEviction team s = .next u0) (hK : Keeps sK s) : Keeps sK u0 := by
  unfold execTeamEviction at eK
  try dsimp only at eK
  refine occur_keeps (fun s hK => ?_) eK hK
  try dsimp only
  repeat' first | with_reducible assumption | with_reducible exact Keeps.refl _ | with_reducible refine evict_keeps ?_ | fail_if_no_progress (with_reducible refine keeps_mk ?_) | intro _ hk | with_reducible refine keeps_ite (fun _ => ?_) (fun _ => ?_) | split | dsimp only

theorem execCrewPlacement_keeps {crew : Nat} {s : State}  {u0 : State} (eK : execCrewPlacement crew s = .next u0) (hK : Keeps sK s) : Keeps sK u0 := by
  unfold execCrewPlacement at eK
  try dsimp only at eK
  refine occur_keeps (fun s hK => ?_) eK hK
  try dsimp only
  repeat' first | with_reducible assumption | with_reducible exact Keeps.refl _ | fail_if_no_progress (with_reducible refine keeps_mk ?_) | intro _ hk | with_reducible refine getD_keeps ?_ ?_ | intro _ hk | with_reducible refine keeps_ite (fun _ => ?_) (fun _ => ?_) | split | dsimp only | with_reducible refine placeCrewQ_keeps (by assumption) ?_

theorem execBinTimerExpiry_keeps {core' bin : Nat} {s : State}  {u0 : State} (eK : execBinTimerExpiry core' bin s = .next u0) (hK : Keeps sK s) : Keeps sK u0 := by
  unfold execBinTimerExpiry at eK
  try dsimp only at eK
  refine occur_keeps (fun s hK => ?_) eK hK
  try dsimp only
  repeat' first | with_reducible assumption | with_reducible exact Keeps.refl _ | with_reducible refine launchBins_keeps ?_ | fail_if_no_progress (with_reducible refine keeps_mk ?_) | intro _ hk | with_reducible refine keeps_ite (fun _ => ?_) (fun _ => ?_) | split | dsimp only

theorem dropForwards_keeps {s : State} {k : Nat}  (hK : Keeps sK s) : Keeps sK (dropForwards s k) := by
  unfold dropForwards
  try dsimp only
  repeat' first | with_reducible assumption | with_reducible exact Keeps.refl _ | with_reducible refine setCore_keeps ?_ | fail_if_no_progress (with_reducible refine keeps_mk ?_) | with_reducible refine keeps_ite (fun _ => ?_) (fun _ => ?_) | split | dsimp only

theorem moveOrder_keeps {s : State} {old new' : Nat}  (hK : Keeps sK s) : Keeps sK (moveOrder s old new') := by
  unfold moveOrder
  try dsimp only
  repeat' first | with_reducible assumption | with_reducible exact Keeps.refl _ | with_reducible refine acquireAt_keeps ?_ | with_reducible refine releaseAt_keeps ?_ | fail_if_no_progress (with_reducible refine keeps_mk ?_) | with_reducible refine keeps_ite (fun _ => ?_) (fun _ => ?_) | split | dsimp only

theorem moveReqs_keeps {s : State} {ck new' : Nat}  (hK : Keeps sK s) : Keeps sK (moveReqs s ck new') := by
  unfold moveReqs
  try dsimp only
  repeat' first | with_reducible assumption | with_reducible exact Keeps.refl _ | fail_if_no_progress (with_reducible refine keeps_mk ?_) | with_reducible refine keeps_ite (fun _ => ?_) (fun _ => ?_) | split | dsimp only

theorem moved_keeps {s : State} {ck new' : Nat} {c : Crew} {old : Nat}  {u0 : State} (eK : moved s ck new' c old = some u0) (hK : Keeps sK s) : Keeps sK u0 := by
  unfold moved at eK
  try dsimp only at eK
  repeat' first | split at eK | (rw [Option.map_eq_some_iff] at eK; obtain ⟨_, _, eK⟩ := eK; try dsimp only at eK) | (rw [Option.bind_eq_some_iff] at eK; obtain ⟨_, _, eK⟩ := eK; try dsimp only at eK)
  all_goals (try first | (injection eK with eK; subst eK) | (injection eK; done) | subst eK)
  all_goals (repeat' first | (intro _ _ _ eK h1; (try dsimp only at eK); repeat' (split at eK)) | (intro _ _ _ eK; (try dsimp only at eK); repeat' (split at eK)) | (intro _ _ eK; (try dsimp only at eK); repeat' (split at eK)) | (intro _ eK; (try dsimp only at eK); repeat' (split at eK)) | intro _ | with_reducible assumption | with_reducible exact Keeps.refl _ | with_reducible refine dropForwards_keeps ?_ | with_reducible refine endStint_keeps ?_ | with_reducible refine onTeam_keeps ?_ | with_reducible refine onCrew_keeps ?_ | with_reducible refine moveReqs_keeps ?_ | with_reducible refine moveOrder_keeps ?_ | with_reducible refine giveWays_keeps ?_ | with_reducible refine setCore_keeps ?_ | fail_if_no_progress (with_reducible refine keeps_mk ?_) | with_reducible refine foldl_keeps ?_ ?_ | with_reducible refine foldl1_keeps ?_ ?_ | with_reducible refine keeps_ite (fun _ => ?_) (fun _ => ?_) | split | dsimp only | with_reducible refine foldlBind_keeps ?_ (by assumption) ?_ | with_reducible refine seatTeams_keeps (by assumption) ?_ | (injection eK; done) | (injection eK with eK; subst eK))

theorem migrated_keeps {s : State} {ck new' : Nat}  {u0 : State} (eK : migrated s ck new' = some u0) (hK : Keeps sK s) : Keeps sK u0 := by
  unfold migrated at eK
  try dsimp only at eK
  repeat' first | split at eK | (rw [Option.map_eq_some_iff] at eK; obtain ⟨_, _, eK⟩ := eK; try dsimp only at eK) | (rw [Option.bind_eq_some_iff] at eK; obtain ⟨_, _, eK⟩ := eK; try dsimp only at eK)
  all_goals (try first | (injection eK with eK; subst eK) | (injection eK; done) | subst eK)
  all_goals (repeat' first | with_reducible assumption | with_reducible exact Keeps.refl _ | fail_if_no_progress (with_reducible refine keeps_mk ?_) | with_reducible refine keeps_ite (fun _ => ?_) (fun _ => ?_) | split | dsimp only | with_reducible refine moved_keeps (by assumption) ?_ | (injection eK; done) | (injection eK with eK; subst eK))

theorem execCrewMigration_keeps {crew core' : Nat} {s : State}  {u0 : State} (eK : execCrewMigration crew core' s = .next u0) (hK : Keeps sK s) : Keeps sK u0 := by
  unfold execCrewMigration at eK
  try dsimp only at eK
  refine occur_keeps (fun s hK => ?_) eK hK
  try dsimp only
  repeat' first | with_reducible assumption | with_reducible exact Keeps.refl _ | fail_if_no_progress (with_reducible refine keeps_mk ?_) | intro _ hk | with_reducible refine getD_keeps ?_ ?_ | intro _ hk | with_reducible refine keeps_ite (fun _ => ?_) (fun _ => ?_) | split | dsimp only | with_reducible refine migrated_keeps (by assumption) ?_

theorem setMhz_keeps {s : State} {k mhz : Nat}  (hK : Keeps sK s) : Keeps sK (setMhz s k mhz) := by
  unfold setMhz
  try dsimp only
  repeat' first | with_reducible assumption | with_reducible exact Keeps.refl _ | with_reducible refine setCore_keeps ?_ | fail_if_no_progress (with_reducible refine keeps_mk ?_) | with_reducible refine keeps_ite (fun _ => ?_) (fun _ => ?_) | split | dsimp only

theorem execSteeringInterval_keeps {comp' : Nat} {s : State}  {u0 : State} (eK : execSteeringInterval comp' s = .next u0) (hK : Keeps sK s) : Keeps sK u0 := by
  unfold execSteeringInterval at eK
  try dsimp only at eK
  refine occur_keeps (fun s hK => ?_) eK hK
  try dsimp only
  repeat' first | with_reducible assumption | with_reducible exact Keeps.refl _ | with_reducible refine setMhz_keeps ?_ | fail_if_no_progress (with_reducible refine keeps_mk ?_) | intro _ hk | with_reducible refine keeps_ite (fun _ => ?_) (fun _ => ?_) | split | dsimp only

theorem askStop_keeps {s : State} {ck : Nat}  (hK : Keeps sK s) : Keeps sK (askStop s ck) := by
  unfold askStop
  try dsimp only
  repeat' first | with_reducible assumption | with_reducible exact Keeps.refl _ | with_reducible refine onTeam_keeps ?_ | fail_if_no_progress (with_reducible refine keeps_mk ?_) | with_reducible refine foldl_keeps ?_ ?_ | with_reducible refine foldl1_keeps ?_ ?_ | intro _ _ hk | with_reducible refine keeps_ite (fun _ => ?_) (fun _ => ?_) | split | dsimp only

theorem trapStop_keeps {s : State} {ck : Nat}  (hK : Keeps sK s) : Keeps sK (trapStop s ck) := by
  unfold trapStop
  try dsimp only
  repeat' first | with_reducible assumption | with_reducible exact Keeps.refl _ | with_reducible refine onTeam_keeps ?_ | with_reducible refine askStop_keeps ?_ | fail_if_no_progress (with_reducible refine keeps_mk ?_) | with_reducible refine keeps_ite (fun _ => ?_) (fun _ => ?_) | split | dsimp only

theorem shiftStops_keeps {s : State}  (hK : Keeps sK s) : Keeps sK (shiftStops s) := by
  unfold shiftStops
  try dsimp only
  repeat' first | with_reducible assumption | with_reducible exact Keeps.refl _ | with_reducible refine trapStop_keeps ?_ | with_reducible refine onTeam_keeps ?_ | fail_if_no_progress (with_reducible refine keeps_mk ?_) | with_reducible refine foldl_keeps ?_ ?_ | with_reducible refine foldl1_keeps ?_ ?_ | intro _ _ hk | with_reducible refine keeps_ite (fun _ => ?_) (fun _ => ?_) | split | dsimp only

theorem stopCrew_keeps {s : State} {ck : Nat}  (hK : Keeps sK s) : Keeps sK (stopCrew s ck) := by
  unfold stopCrew
  try dsimp only
  repeat' first | with_reducible assumption | with_reducible exact Keeps.refl _ | with_reducible refine onCrew_keeps ?_ | with_reducible refine onTeam_keeps ?_ | with_reducible refine trapStop_keeps ?_ | with_reducible refine askStop_keeps ?_ | fail_if_no_progress (with_reducible refine keeps_mk ?_) | with_reducible refine foldl_keeps ?_ ?_ | with_reducible refine foldl1_keeps ?_ ?_ | intro _ _ hk | with_reducible refine getD_keeps ?_ ?_ | intro _ hk | with_reducible refine keeps_ite (fun _ => ?_) (fun _ => ?_) | split | dsimp only

theorem stopComp_keeps {s : State} {c sliceEnd : Nat} {op : Bool}  (hK : Keeps sK s) : Keeps sK (stopComp s c sliceEnd op) := by
  unfold stopComp
  try dsimp only
  repeat' first | with_reducible assumption | with_reducible exact Keeps.refl _ | with_reducible refine setComp_keeps ?_ | with_reducible refine setRegionState_keeps ?_ | with_reducible refine stopCrew_keeps ?_ | fail_if_no_progress (with_reducible refine keeps_mk ?_) | with_reducible refine foldl_keeps ?_ ?_ | with_reducible refine foldl1_keeps ?_ ?_ | intro _ _ hk | with_reducible refine keeps_ite (fun _ => ?_) (fun _ => ?_) | split | dsimp only

theorem execStopRequest_keeps {comp' sliceEnd : Nat} {s : State}  {u0 : State} (eK : execStopRequest comp' sliceEnd s = .next u0) (hK : Keeps sK s) : Keeps sK u0 := by
  unfold execStopRequest at eK
  try dsimp only at eK
  refine occur_keeps (fun s hK => ?_) eK hK
  try dsimp only
  repeat' first | with_reducible assumption | with_reducible exact Keeps.refl _ | with_reducible refine stopComp_keeps ?_ | fail_if_no_progress (with_reducible refine keeps_mk ?_) | intro _ hk | with_reducible refine keeps_ite (fun _ => ?_) (fun _ => ?_) | split | dsimp only

theorem forceTeam_keeps {s : State} {key : Nat}  (hK : Keeps sK s) : Keeps sK (forceTeam s key) := by
  unfold forceTeam
  try dsimp only
  repeat' first | with_reducible assumption | with_reducible exact Keeps.refl _ | with_reducible refine onTeam_keeps ?_ | fail_if_no_progress (with_reducible refine keeps_mk ?_) | with_reducible refine keeps_ite (fun _ => ?_) (fun _ => ?_) | split | dsimp only

theorem execGraceExpiry_keeps {team : Nat} {s : State}  {u0 : State} (eK : execGraceExpiry team s = .next u0) (hK : Keeps sK s) : Keeps sK u0 := by
  unfold execGraceExpiry at eK
  try dsimp only at eK
  refine occur_keeps (fun s hK => ?_) eK hK
  try dsimp only
  repeat' first | with_reducible assumption | with_reducible exact Keeps.refl _ | with_reducible refine forceTeam_keeps ?_ | fail_if_no_progress (with_reducible refine keeps_mk ?_) | intro _ hk | with_reducible refine keeps_ite (fun _ => ?_) (fun _ => ?_) | split | dsimp only

theorem execDeferralExpiry_keeps {crew : Nat} {s : State}  {u0 : State} (eK : execDeferralExpiry crew s = .next u0) (hK : Keeps sK s) : Keeps sK u0 := by
  unfold execDeferralExpiry at eK
  try dsimp only at eK
  refine occur_keeps (fun s hK => ?_) eK hK
  try dsimp only
  repeat' first | with_reducible assumption | with_reducible exact Keeps.refl _ | with_reducible refine forceTeam_keeps ?_ | with_reducible refine onCrew_keeps ?_ | fail_if_no_progress (with_reducible refine keeps_mk ?_) | with_reducible refine foldl_keeps ?_ ?_ | with_reducible refine foldl1_keeps ?_ ?_ | intro _ _ hk | intro _ hk | with_reducible refine keeps_ite (fun _ => ?_) (fun _ => ?_) | split | dsimp only

theorem reportSave_keeps {s : State} {c : Nat}  (hK : Keeps sK s) : Keeps sK (reportSave s c) := by
  unfold reportSave
  try dsimp only
  repeat' first | with_reducible assumption | with_reducible exact Keeps.refl _ | with_reducible refine setComp_keeps ?_ | with_reducible refine onCrew_keeps ?_ | with_reducible refine releaseAt_keeps ?_ | with_reducible refine setRegionState_keeps ?_ | fail_if_no_progress (with_reducible refine keeps_mk ?_) | with_reducible refine foldl_keeps ?_ ?_ | with_reducible refine foldl1_keeps ?_ ?_ | intro _ _ hk | with_reducible refine keeps_ite (fun _ => ?_) (fun _ => ?_) | split | dsimp only

theorem execSaveReport_keeps {comp' : Nat} {s : State}  {u0 : State} (eK : execSaveReport comp' s = .next u0) (hK : Keeps sK s) : Keeps sK u0 := by
  unfold execSaveReport at eK
  try dsimp only at eK
  refine occur_keeps (fun s hK => ?_) eK hK
  try dsimp only
  repeat' first | with_reducible assumption | with_reducible exact Keeps.refl _ | with_reducible refine reportSave_keeps ?_ | fail_if_no_progress (with_reducible refine keeps_mk ?_) | intro _ hk | with_reducible refine keeps_ite (fun _ => ?_) (fun _ => ?_) | split | dsimp only

theorem spillCrew_keeps {s : State} {c : Nat} {ck : Nat}  (hK : Keeps sK s) : Keeps sK (spillCrew s c ck) := by
  unfold spillCrew
  try dsimp only
  repeat' first | with_reducible assumption | with_reducible exact Keeps.refl _ | with_reducible refine onCrew_keeps ?_ | fail_if_no_progress (with_reducible refine keeps_mk ?_) | with_reducible refine keeps_ite (fun _ => ?_) (fun _ => ?_) | split | dsimp only

theorem execTenantSwitch_keeps {outgoing incoming : Nat} {s : State}  {u0 : State} (eK : execTenantSwitch outgoing incoming s = .next u0) (hK : Keeps sK s) : Keeps sK u0 := by
  unfold execTenantSwitch at eK
  try dsimp only at eK
  refine occur_keeps (fun s hK => ?_) eK hK
  try dsimp only
  repeat' first | with_reducible assumption | with_reducible exact Keeps.refl _ | with_reducible refine dropWords_keeps ?_ | with_reducible refine spillCrew_keeps ?_ | fail_if_no_progress (with_reducible refine keeps_mk ?_) | with_reducible refine foldl_keeps ?_ ?_ | with_reducible refine foldl1_keeps ?_ ?_ | intro _ _ hk | intro _ hk | with_reducible refine keeps_ite (fun _ => ?_) (fun _ => ?_) | split | dsimp only

theorem cancelStopped_keeps {s : State}  (hK : Keeps sK s) : Keeps sK (cancelStopped s) := by
  unfold cancelStopped
  try dsimp only
  repeat' first | with_reducible assumption | with_reducible exact Keeps.refl _ | with_reducible refine endMats_keeps ?_ | fail_if_no_progress (with_reducible refine keeps_mk ?_) | with_reducible refine foldl_keeps ?_ ?_ | with_reducible refine foldl1_keeps ?_ ?_ | intro _ _ hk | with_reducible refine keeps_ite (fun _ => ?_) (fun _ => ?_) | split | dsimp only

theorem settleWaits_keeps {s : State}  (hK : Keeps sK s) : Keeps sK (settleWaits s) := by
  unfold settleWaits
  try dsimp only
  repeat' first | with_reducible assumption | with_reducible exact Keeps.refl _ | fail_if_no_progress (with_reducible refine keeps_mk ?_) | with_reducible refine keeps_ite (fun _ => ?_) (fun _ => ?_) | split | dsimp only

theorem armEntry_keeps {s : State} {key : Nat} {t : Team} {e : Entry}  (hK : Keeps sK s) : Keeps sK (armEntry s key t e) := by
  unfold armEntry
  try dsimp only
  repeat' first | with_reducible assumption | with_reducible exact Keeps.refl _ | with_reducible refine issue_keeps ?_ ?_ ?_ | with_reducible refine startOp_keeps ?_ | fail_if_no_progress (with_reducible refine keeps_mk ?_) | intro _ hk | with_reducible refine getD_keeps ?_ ?_ | intro _ hk | with_reducible refine keeps_ite (fun _ => ?_) (fun _ => ?_) | split | dsimp only | with_reducible refine startOp_keeps_eq (by assumption) ?_

theorem armRebuilt_keeps {s : State}  (hK : Keeps sK s) : Keeps sK (armRebuilt s) := by
  unfold armRebuilt
  try dsimp only
  repeat' first | with_reducible assumption | with_reducible exact Keeps.refl _ | with_reducible refine armEntry_keeps ?_ | fail_if_no_progress (with_reducible refine keeps_mk ?_) | with_reducible refine foldl_keeps ?_ ?_ | with_reducible refine foldl1_keeps ?_ ?_ | intro _ _ hk | with_reducible refine keeps_ite (fun _ => ?_) (fun _ => ?_) | split | dsimp only

theorem teamsAfter_keeps {s : State}  (hK : Keeps sK s) : Keeps sK (teamsAfter s) := by
  unfold teamsAfter
  try dsimp only
  repeat' first | with_reducible assumption | with_reducible exact Keeps.refl _ | with_reducible refine shiftStops_keeps ?_ | with_reducible refine armRebuilt_keeps ?_ | with_reducible refine settleWaits_keeps ?_ | with_reducible refine cancelStopped_keeps ?_ | with_reducible refine suspensions_keeps ?_ | fail_if_no_progress (with_reducible refine keeps_mk ?_) | with_reducible refine keeps_ite (fun _ => ?_) (fun _ => ?_) | split | dsimp only


end Sys2Proof.Machine
end

