-- ==== Sys2Proof/Laws/KeepsMemEvents.lean ====
section
/-! SUPPORT. What every change keeps (Keeps), for MemEvents. -/

set_option linter.unusedTactic false
set_option linter.unreachableTactic false

namespace Sys2Proof.Machine

variable {sK : State}

theorem bounceMat_keeps {s : State} {m : MatOp}  (hK : Keeps sK s) : Keeps sK (bounceMat s m) := by
  unfold bounceMat
  try dsimp only
  repeat' first | with_reducible assumption | with_reducible exact Keeps.refl _ | with_reducible refine makeRoom_keeps ?_ | with_reducible refine setStage_keeps ?_ | fail_if_no_progress (with_reducible refine keeps_mk ?_) | with_reducible refine getD_keeps ?_ ?_ | intro _ hk | with_reducible refine keeps_ite (fun _ => ?_) (fun _ => ?_) | split | dsimp only

theorem bounceCopy_keeps {s : State} {x : Copy}  (hK : Keeps sK s) : Keeps sK (bounceCopy s x) := by
  unfold bounceCopy
  try dsimp only
  repeat' first | with_reducible assumption | with_reducible exact Keeps.refl _ | with_reducible refine replyCopy_keeps ?_ | with_reducible refine makeRoom_keeps ?_ | fail_if_no_progress (with_reducible refine keeps_mk ?_) | with_reducible refine keeps_ite (fun _ => ?_) (fun _ => ?_) | split | dsimp only

theorem bounceHead_keeps {s : State} {id : Nat}  (hK : Keeps sK s) : Keeps sK (bounceHead s id) := by
  unfold bounceHead
  try dsimp only
  repeat' first | with_reducible assumption | with_reducible exact Keeps.refl _ | with_reducible refine bounceReq_keeps ?_ | with_reducible refine bounceMat_keeps ?_ | with_reducible refine bounceCopy_keeps ?_ | fail_if_no_progress (with_reducible refine keeps_mk ?_) | with_reducible refine keeps_ite (fun _ => ?_) (fun _ => ?_) | split | dsimp only

theorem execQueueBounce_keeps {req : Nat} {s : State}  {u0 : State} (eK : execQueueBounce req s = .next u0) (hK : Keeps sK s) : Keeps sK u0 := by
  unfold execQueueBounce at eK
  try dsimp only at eK
  refine occur_keeps (fun s hK => ?_) eK hK
  try dsimp only
  repeat' first | with_reducible assumption | with_reducible exact Keeps.refl _ | with_reducible refine bounceHead_keeps ?_ | fail_if_no_progress (with_reducible refine keeps_mk ?_) | intro _ hk | with_reducible refine keeps_ite (fun _ => ?_) (fun _ => ?_) | split | dsimp only

theorem execBounceArrival_keeps {req : Nat} {s : State}  {u0 : State} (eK : execBounceArrival req s = .next u0) (hK : Keeps sK s) : Keeps sK u0 := by
  unfold execBounceArrival at eK
  try dsimp only at eK
  refine occur_keeps (fun s hK => ?_) eK hK
  try dsimp only
  repeat' first | with_reducible assumption | with_reducible exact Keeps.refl _ | with_reducible refine enterPannier_keeps ?_ | fail_if_no_progress (with_reducible refine keeps_mk ?_) | intro _ hk | with_reducible refine keeps_ite (fun _ => ?_) (fun _ => ?_) | split | dsimp only

theorem nowReady_keeps {s : State} {id : Nat}  (hK : Keeps sK s) : Keeps sK (nowReady s id) := by
  unfold nowReady
  try dsimp only
  repeat' first | with_reducible assumption | with_reducible exact Keeps.refl _ | with_reducible refine putReq_keeps ?_ | with_reducible refine setStage_keeps ?_ | with_reducible refine putCopy_keeps ?_ | fail_if_no_progress (with_reducible refine keeps_mk ?_) | with_reducible refine keeps_ite (fun _ => ?_) (fun _ => ?_) | split | dsimp only

theorem execReissueBackoffExpiry_keeps {req : Nat} {s : State}  {u0 : State} (eK : execReissueBackoffExpiry req s = .next u0) (hK : Keeps sK s) : Keeps sK u0 := by
  unfold execReissueBackoffExpiry at eK
  try dsimp only at eK
  refine occur_keeps (fun s hK => ?_) eK hK
  try dsimp only
  repeat' first | with_reducible assumption | with_reducible exact Keeps.refl _ | with_reducible refine nowReady_keeps ?_ | fail_if_no_progress (with_reducible refine keeps_mk ?_) | intro _ hk | with_reducible refine keeps_ite (fun _ => ?_) (fun _ => ?_) | split | dsimp only

theorem reissue_keeps {s : State} {id : Nat}  (hK : Keeps sK s) : Keeps sK (reissue s id) := by
  unfold reissue
  try dsimp only
  repeat' first | with_reducible assumption | with_reducible exact Keeps.refl _ | with_reducible refine advanceReq_keeps ?_ | with_reducible refine putReq_keeps ?_ | with_reducible refine putCopy_keeps ?_ | fail_if_no_progress (with_reducible refine keeps_mk ?_) | with_reducible refine getD_keeps ?_ ?_ | intro _ hk | with_reducible refine keeps_ite (fun _ => ?_) (fun _ => ?_) | split | dsimp only

theorem execPannierReissue_keeps {req : Nat} {s : State}  {u0 : State} (eK : execPannierReissue req s = .next u0) (hK : Keeps sK s) : Keeps sK u0 := by
  unfold execPannierReissue at eK
  try dsimp only at eK
  refine occur_keeps (fun s hK => ?_) eK hK
  try dsimp only
  repeat' first | with_reducible assumption | with_reducible exact Keeps.refl _ | with_reducible refine reissue_keeps ?_ | fail_if_no_progress (with_reducible refine keeps_mk ?_) | intro _ hk | with_reducible refine keeps_ite (fun _ => ?_) (fun _ => ?_) | split | dsimp only

theorem execTranslationWalk_keeps {req : Nat} {s : State}  {u0 : State} (eK : execTranslationWalk req s = .next u0) (hK : Keeps sK s) : Keeps sK u0 := by
  unfold execTranslationWalk at eK
  try dsimp only at eK
  refine occur_keeps (fun s hK => ?_) eK hK
  try dsimp only
  repeat' first | with_reducible assumption | with_reducible exact Keeps.refl _ | with_reducible refine advanceReq_keeps ?_ | fail_if_no_progress (with_reducible refine keeps_mk ?_) | intro _ hk | with_reducible refine keeps_ite (fun _ => ?_) (fun _ => ?_) | split | dsimp only

theorem loseData_keeps {s : State} {c unit where' pa : Nat}  (hK : Keeps sK s) : Keeps sK (loseData s c unit where' pa) := by
  unfold loseData
  try dsimp only
  repeat' first | with_reducible assumption | with_reducible exact Keeps.refl _ | with_reducible refine setCore_keeps ?_ | with_reducible refine countPasses_keeps ?_ | fail_if_no_progress (with_reducible refine keeps_mk ?_) | with_reducible refine foldl_keeps ?_ ?_ | with_reducible refine foldl1_keeps ?_ ?_ | intro _ _ hk | with_reducible refine keeps_ite (fun _ => ?_) (fun _ => ?_) | split | dsimp only | with_reducible refine foldlBind_keeps ?_ (by assumption) ?_ | intro _

theorem eccElsewhere_keeps {s : State} {ecc : Ecc} {u0 : State} (eK : eccElsewhere s ecc = some u0) (hK : Keeps sK s) :
    Keeps sK u0 := by
  cases ecc <;> cases eK
  · exact countCorrected_keeps hK
  · exact keeps_ite (fun _ => hK) fun _ => keeps_mk hK
  · exact onCrew_keeps hK
  · exact loseData_keeps (keeps_ite (fun _ => pushHeq_keeps hK) fun _ => haltLost_keeps (pushHeq_keeps hK))

theorem execMemoryRequestPerformed_keeps {req : Nat} {ecc : Ecc} {s : State}  {u0 : State} (eK : execMemoryRequestPerformed req ecc s = .next u0) (hK : Keeps sK s) : Keeps sK u0 := by
  unfold execMemoryRequestPerformed at eK
  split at eK
  · exact occur_keeps (fun _ _ => eccElsewhere_keeps (by assumption) hK) eK hK
  · exact occur_keeps (fun _ hK => advanceReq_keeps hK) eK hK

theorem execFaultRecordRetry_keeps {comp' region : Nat} {s : State}  {u0 : State} (eK : execFaultRecordRetry comp' region s = .next u0) (hK : Keeps sK s) : Keeps sK u0 := by
  unfold execFaultRecordRetry at eK
  try dsimp only at eK
  refine occur_keeps (fun s hK => ?_) eK hK
  try dsimp only
  repeat' first | with_reducible assumption | with_reducible exact Keeps.refl _ | with_reducible refine faultFlush_keeps ?_ | with_reducible refine onRegion_keeps ?_ | fail_if_no_progress (with_reducible refine keeps_mk ?_) | intro _ hk | with_reducible refine keeps_ite (fun _ => ?_) (fun _ => ?_) | split | dsimp only

theorem execOwnershipRegistration_keeps {core' word : Nat} {s : State}  {u0 : State} (eK : execOwnershipRegistration core' word s = .next u0) (hK : Keeps sK s) : Keeps sK u0 := by
  unfold execOwnershipRegistration at eK
  try dsimp only at eK
  refine occur_keeps (fun s hK => ?_) eK hK
  try dsimp only
  repeat' first | with_reducible assumption | with_reducible exact Keeps.refl _ | with_reducible refine registerWord_keeps ?_ | fail_if_no_progress (with_reducible refine keeps_mk ?_) | intro _ hk | with_reducible refine keeps_ite (fun _ => ?_) (fun _ => ?_) | split | dsimp only

theorem writeLineBack_keeps {s : State} {k line : Nat}  (hK : Keeps sK s) : Keeps sK (writeLineBack s k line) := by
  unfold writeLineBack
  try dsimp only
  repeat' first | with_reducible assumption | with_reducible exact Keeps.refl _ | with_reducible refine writeBackIf_keeps ?_ | fail_if_no_progress (with_reducible refine keeps_mk ?_) | with_reducible refine keeps_ite (fun _ => ?_) (fun _ => ?_) | split | dsimp only

theorem execWriteBack_keeps {core' line : Nat} {s : State}  {u0 : State} (eK : execWriteBack core' line s = .next u0) (hK : Keeps sK s) : Keeps sK u0 := by
  unfold execWriteBack at eK
  try dsimp only at eK
  refine occur_keeps (fun s hK => ?_) eK hK
  try dsimp only
  repeat' first | with_reducible assumption | with_reducible exact Keeps.refl _ | with_reducible refine writeLineBack_keeps ?_ | fail_if_no_progress (with_reducible refine keeps_mk ?_) | intro _ hk | with_reducible refine keeps_ite (fun _ => ?_) (fun _ => ?_) | split | dsimp only

theorem execWritebackTimeLimit_keeps {core' line : Nat} {s : State}  {u0 : State} (eK : execWritebackTimeLimit core' line s = .next u0) (hK : Keeps sK s) : Keeps sK u0 := by
  unfold execWritebackTimeLimit at eK
  try dsimp only at eK
  refine occur_keeps (fun s hK => ?_) eK hK
  try dsimp only
  repeat' first | with_reducible assumption | with_reducible exact Keeps.refl _ | with_reducible refine writeLineBack_keeps ?_ | fail_if_no_progress (with_reducible refine keeps_mk ?_) | intro _ hk | with_reducible refine keeps_ite (fun _ => ?_) (fun _ => ?_) | split | dsimp only

theorem dropPolls_keeps {s : State} {key : Nat}  (hK : Keeps sK s) : Keeps sK (dropPolls s key) := by
  unfold dropPolls
  try dsimp only
  repeat' first | with_reducible assumption | with_reducible exact Keeps.refl _ | fail_if_no_progress (with_reducible refine keeps_mk ?_) | with_reducible refine keeps_ite (fun _ => ?_) (fun _ => ?_) | split | dsimp only

theorem execWaitcTimeout_keeps {team pc : Nat} {s : State}  {u0 : State} (eK : execWaitcTimeout team pc s = .next u0) (hK : Keeps sK s) : Keeps sK u0 := by
  unfold execWaitcTimeout at eK
  try dsimp only at eK
  refine occur_keeps (fun s hK => ?_) eK hK
  try dsimp only
  repeat' first | with_reducible assumption | with_reducible exact Keeps.refl _ | with_reducible refine dropPolls_keeps ?_ | with_reducible refine onTeam_keeps ?_ | fail_if_no_progress (with_reducible refine keeps_mk ?_) | intro _ hk | with_reducible refine keeps_ite (fun _ => ?_) (fun _ => ?_) | split | dsimp only

theorem execSleepExpiry_keeps {team pc : Nat} {s : State}  {u0 : State} (eK : execSleepExpiry team pc s = .next u0) (hK : Keeps sK s) : Keeps sK u0 := by
  unfold execSleepExpiry at eK
  try dsimp only at eK
  refine occur_keeps (fun s hK => ?_) eK hK
  try dsimp only
  repeat' first | with_reducible assumption | with_reducible exact Keeps.refl _ | with_reducible refine onTeam_keeps ?_ | fail_if_no_progress (with_reducible refine keeps_mk ?_) | intro _ hk | with_reducible refine keeps_ite (fun _ => ?_) (fun _ => ?_) | split | dsimp only

theorem execPromwDeadline_keeps {team pc : Nat} {s : State}  {u0 : State} (eK : execPromwDeadline team pc s = .next u0) (hK : Keeps sK s) : Keeps sK u0 := by
  unfold execPromwDeadline at eK
  try dsimp only at eK
  refine occur_keeps (fun s hK => ?_) eK hK
  try dsimp only
  repeat' first | with_reducible assumption | with_reducible exact Keeps.refl _ | with_reducible refine onTeam_keeps ?_ | fail_if_no_progress (with_reducible refine keeps_mk ?_) | intro _ hk | with_reducible refine keeps_ite (fun _ => ?_) (fun _ => ?_) | split | dsimp only


end Sys2Proof.Machine
end

