-- ==== Sys2Proof/Laws/KeepsEngineEvents.lean ====
section
/-! SUPPORT. What every change keeps (Keeps), for EngineEvents. -/

set_option linter.unusedTactic false
set_option linter.unreachableTactic false

namespace Sys2Proof.Machine

variable {sK : State}

theorem execMatrixGrant_keeps {cluster' : Nat} {s : State}  {u0 : State} (eK : execMatrixGrant cluster' s = .next u0) (hK : Keeps sK s) : Keeps sK u0 := by
  unfold execMatrixGrant at eK
  try dsimp only at eK
  refine occur_keeps (fun s hK => ?_) eK hK
  try dsimp only
  repeat' first | with_reducible assumption | with_reducible exact Keeps.refl _ | fail_if_no_progress (with_reducible refine keeps_mk ?_) | intro _ hk | with_reducible refine getD_keeps ?_ ?_ | intro _ hk | with_reducible refine keeps_ite (fun _ => ?_) (fun _ => ?_) | split | dsimp only | with_reducible refine grantMat_keeps (by assumption) ?_

theorem execMatrixCompletion_keeps {cluster' : Nat} {s : State}  {u0 : State} (eK : execMatrixCompletion cluster' s = .next u0) (hK : Keeps sK s) : Keeps sK u0 := by
  unfold execMatrixCompletion at eK
  try dsimp only at eK
  refine occur_keeps (fun s hK => ?_) eK hK
  try dsimp only
  repeat' first | with_reducible assumption | with_reducible exact Keeps.refl _ | with_reducible refine finishMats_keeps ?_ | fail_if_no_progress (with_reducible refine keeps_mk ?_) | intro _ hk | with_reducible refine keeps_ite (fun _ => ?_) (fun _ => ?_) | split | dsimp only

theorem execFourInHandGrant_keeps {hitch comp' opid : Nat} {s : State}  {u0 : State} (eK : execFourInHandGrant hitch comp' opid s = .next u0) (hK : Keeps sK s) : Keeps sK u0 := by
  unfold execFourInHandGrant at eK
  try dsimp only at eK
  refine occur_keeps (fun s hK => ?_) eK hK
  try dsimp only
  repeat' first | with_reducible assumption | with_reducible exact Keeps.refl _ | with_reducible refine startSet_keeps ?_ | fail_if_no_progress (with_reducible refine keeps_mk ?_) | intro _ hk | with_reducible refine keeps_ite (fun _ => ?_) (fun _ => ?_) | split | dsimp only

theorem execFourInHandCompletion_keeps {hitch : Nat} {s : State}  {u0 : State} (eK : execFourInHandCompletion hitch s = .next u0) (hK : Keeps sK s) : Keeps sK u0 := by
  unfold execFourInHandCompletion at eK
  try dsimp only at eK
  refine occur_keeps (fun s hK => ?_) eK hK
  try dsimp only
  repeat' first | with_reducible assumption | with_reducible exact Keeps.refl _ | with_reducible refine finishMats_keeps ?_ | fail_if_no_progress (with_reducible refine keeps_mk ?_) | intro _ hk | with_reducible refine keeps_ite (fun _ => ?_) (fun _ => ?_) | split | dsimp only

theorem loseTile_keeps {s : State} {l : List MatOp}  (hK : Keeps sK s) : Keeps sK (loseTile s l) := by
  unfold loseTile
  try dsimp only
  repeat' first | with_reducible assumption | with_reducible exact Keeps.refl _ | with_reducible refine pushHeq_keeps ?_ | with_reducible refine countPasses_keeps ?_ | with_reducible refine haltLost_keeps ?_ | fail_if_no_progress (with_reducible refine keeps_mk ?_) | with_reducible refine foldl_keeps ?_ ?_ | with_reducible refine foldl1_keeps ?_ ?_ | intro _ _ hk | with_reducible refine getD_keeps ?_ ?_ | intro _ hk | with_reducible refine keeps_ite (fun _ => ?_) (fun _ => ?_) | split | dsimp only | with_reducible refine foldlBind_keeps ?_ (by assumption) ?_ | intro _

theorem execHarnessError_keeps {hitch : Nat} {s : State}  {u0 : State} (eK : execHarnessError hitch s = .next u0) (hK : Keeps sK s) : Keeps sK u0 := by
  unfold execHarnessError at eK
  try dsimp only at eK
  refine occur_keeps (fun s hK => ?_) eK hK
  try dsimp only
  repeat' first | with_reducible assumption | with_reducible exact Keeps.refl _ | with_reducible refine loseTile_keeps ?_ | fail_if_no_progress (with_reducible refine keeps_mk ?_) | intro _ hk | with_reducible refine keeps_ite (fun _ => ?_) (fun _ => ?_) | split | dsimp only

theorem execCopyAccept_keeps {cmd : Nat} {s : State}  {u0 : State} (eK : execCopyAccept cmd s = .next u0) (hK : Keeps sK s) : Keeps sK u0 := by
  unfold execCopyAccept at eK
  try dsimp only at eK
  refine occur_keeps (fun s hK => ?_) eK hK
  try dsimp only
  repeat' first | with_reducible assumption | with_reducible exact Keeps.refl _ | with_reducible refine replyCopy_keeps ?_ | fail_if_no_progress (with_reducible refine keeps_mk ?_) | intro _ hk | with_reducible refine keeps_ite (fun _ => ?_) (fun _ => ?_) | split | dsimp only

theorem execCopyStart_keeps {cmd : Nat} {s : State}  {u0 : State} (eK : execCopyStart cmd s = .next u0) (hK : Keeps sK s) : Keeps sK u0 := by
  unfold execCopyStart at eK
  try dsimp only at eK
  refine occur_keeps (fun s hK => ?_) eK hK
  try dsimp only
  repeat' first | with_reducible assumption | with_reducible exact Keeps.refl _ | with_reducible refine startCopy_keeps ?_ | fail_if_no_progress (with_reducible refine keeps_mk ?_) | intro _ hk | with_reducible refine keeps_ite (fun _ => ?_) (fun _ => ?_) | split | dsimp only

theorem completeCopy_keeps {s : State} {x : Copy}  (hK : Keeps sK s) : Keeps sK (completeCopy s x) := by
  unfold completeCopy
  try dsimp only
  repeat' first | with_reducible assumption | with_reducible exact Keeps.refl _ | with_reducible refine runCopy_keeps ?_ | with_reducible refine endCopy_keeps ?_ | fail_if_no_progress (with_reducible refine keeps_mk ?_) | with_reducible refine keeps_ite (fun _ => ?_) (fun _ => ?_) | split | dsimp only | with_reducible refine runCopy_keeps_eq (by assumption) ?_

theorem execCopyCompletion_keeps {cmd : Nat} {s : State}  {u0 : State} (eK : execCopyCompletion cmd s = .next u0) (hK : Keeps sK s) : Keeps sK u0 := by
  unfold execCopyCompletion at eK
  try dsimp only at eK
  refine occur_keeps (fun s hK => ?_) eK hK
  try dsimp only
  repeat' first | with_reducible assumption | with_reducible exact Keeps.refl _ | with_reducible refine completeCopy_keeps ?_ | fail_if_no_progress (with_reducible refine keeps_mk ?_) | intro _ hk | with_reducible refine keeps_ite (fun _ => ?_) (fun _ => ?_) | split | dsimp only

theorem stopCopy_keeps {s : State} {x : Copy}  (hK : Keeps sK s) : Keeps sK (stopCopy s x) := by
  unfold stopCopy
  try dsimp only
  repeat' first | with_reducible assumption | with_reducible exact Keeps.refl _ | with_reducible refine runCopy_keeps ?_ | with_reducible refine faultCopy_keeps ?_ | fail_if_no_progress (with_reducible refine keeps_mk ?_) | with_reducible refine keeps_ite (fun _ => ?_) (fun _ => ?_) | split | dsimp only | with_reducible refine runCopy_keeps_eq (by assumption) ?_

theorem execCopyFault_keeps {cmd : Nat} {s : State}  {u0 : State} (eK : execCopyFault cmd s = .next u0) (hK : Keeps sK s) : Keeps sK u0 := by
  unfold execCopyFault at eK
  try dsimp only at eK
  refine occur_keeps (fun s hK => ?_) eK hK
  try dsimp only
  repeat' first | with_reducible assumption | with_reducible exact Keeps.refl _ | with_reducible refine stopCopy_keeps ?_ | fail_if_no_progress (with_reducible refine keeps_mk ?_) | intro _ hk | with_reducible refine keeps_ite (fun _ => ?_) (fun _ => ?_) | split | dsimp only

theorem takePlane_keeps {s : State} {e : Instr}  (hK : Keeps sK s) : Keeps sK (takePlane s e) := by
  unfold takePlane
  try dsimp only
  repeat' first | with_reducible assumption | with_reducible exact Keeps.refl _ | fail_if_no_progress (with_reducible refine keeps_mk ?_) | with_reducible refine keeps_ite (fun _ => ?_) (fun _ => ?_) | split | dsimp only

theorem arrives_keeps {s : State} {e : Instr} {far : Bool} {f : State → State} (h_f : ∀  s, Keeps sK s → Keeps sK (f  s))  {u0 : State} (eK : arrives s e far f = .next u0) (hK : Keeps sK s) : Keeps sK u0 := by
  unfold arrives at eK
  try dsimp only at eK
  refine occur_keeps (fun s hK => ?_) eK hK
  try dsimp only
  repeat' first | with_reducible assumption | with_reducible exact Keeps.refl _ | with_reducible refine h_f _ ?_ | with_reducible refine takePlane_keeps ?_ | fail_if_no_progress (with_reducible refine keeps_mk ?_) | intro _ hk | with_reducible refine keeps_ite (fun _ => ?_) (fun _ => ?_) | split | dsimp only

theorem execClaimAnnouncement_keeps {core' : Nat} {a : Announcement} {s : State}  {u0 : State} (eK : execClaimAnnouncement core' a s = .next u0) (hK : Keeps sK s) : Keeps sK u0 := by
  unfold execClaimAnnouncement at eK
  try dsimp only at eK
  refine arrives_keeps (fun s hK => ?_) eK hK
  try dsimp only
  repeat' first | with_reducible assumption | with_reducible exact Keeps.refl _ | with_reducible refine hearAnnouncement_keeps ?_ | fail_if_no_progress (with_reducible refine keeps_mk ?_) | intro _ hk | with_reducible refine keeps_ite (fun _ => ?_) (fun _ => ?_) | split | dsimp only

theorem execObjectionArrival_keeps {core' : Nat} {o : Objection} {s : State}  {u0 : State} (eK : execObjectionArrival core' o s = .next u0) (hK : Keeps sK s) : Keeps sK u0 := by
  unfold execObjectionArrival at eK
  try dsimp only at eK
  refine arrives_keeps (fun s hK => ?_) eK hK
  try dsimp only
  repeat' first | with_reducible assumption | with_reducible exact Keeps.refl _ | with_reducible refine hearObjection_keeps ?_ | fail_if_no_progress (with_reducible refine keeps_mk ?_) | intro _ hk | with_reducible refine keeps_ite (fun _ => ?_) (fun _ => ?_) | split | dsimp only

theorem execObjectionAnswer_keeps {team : Nat} {proposal : BitVec 32} {late : Bool} {s : State}  {u0 : State} (eK : execObjectionAnswer team proposal late s = .next u0) (hK : Keeps sK s) : Keeps sK u0 := by
  unfold execObjectionAnswer at eK
  try dsimp only at eK
  refine arrives_keeps (fun s hK => ?_) eK hK
  try dsimp only
  repeat' first | with_reducible assumption | with_reducible exact Keeps.refl _ | with_reducible refine hearAnswer_keeps ?_ | fail_if_no_progress (with_reducible refine keeps_mk ?_) | intro _ hk | with_reducible refine keeps_ite (fun _ => ?_) (fun _ => ?_) | split | dsimp only

theorem execClaimWindowClose_keeps {core' handle : Nat} {s : State}  {u0 : State} (eK : execClaimWindowClose core' handle s = .next u0) (hK : Keeps sK s) : Keeps sK u0 := by
  unfold execClaimWindowClose at eK
  try dsimp only at eK
  refine occur_keeps (fun s hK => ?_) eK hK
  try dsimp only
  repeat' first | with_reducible assumption | with_reducible exact Keeps.refl _ | with_reducible refine closeWindow_keeps ?_ | fail_if_no_progress (with_reducible refine keeps_mk ?_) | intro _ hk | with_reducible refine keeps_ite (fun _ => ?_) (fun _ => ?_) | split | dsimp only

theorem pendMember_keeps {s : State} {c : Nat} {u : Membership}  (hK : Keeps sK s) : Keeps sK (pendMember s c u) := by
  unfold pendMember
  try dsimp only
  repeat' first | with_reducible assumption | with_reducible exact Keeps.refl _ | with_reducible refine onGroup_keeps ?_ | fail_if_no_progress (with_reducible refine keeps_mk ?_) | with_reducible refine keeps_ite (fun _ => ?_) (fun _ => ?_) | split | dsimp only

theorem execMembershipUpdate_keeps {comp' : Nat} {u : Membership} {s : State}  {u0 : State} (eK : execMembershipUpdate comp' u s = .next u0) (hK : Keeps sK s) : Keeps sK u0 := by
  unfold execMembershipUpdate at eK
  try dsimp only at eK
  refine occur_keeps (fun s hK => ?_) eK hK
  try dsimp only
  repeat' first | with_reducible assumption | with_reducible exact Keeps.refl _ | with_reducible refine memberChange_keeps ?_ | with_reducible refine pendMember_keeps ?_ | fail_if_no_progress (with_reducible refine keeps_mk ?_) | intro _ hk | with_reducible refine keeps_ite (fun _ => ?_) (fun _ => ?_) | split | dsimp only

theorem sendAsk_keeps {s : State} {c id : Nat} {t : Nat × Nat}  {u0 : State} (eK : sendAsk s c id t = some u0) (hK : Keeps sK s) : Keeps sK u0 := by
  unfold sendAsk at eK
  try dsimp only at eK
  repeat' first | split at eK | (rw [Option.map_eq_some_iff] at eK; obtain ⟨_, _, eK⟩ := eK; try dsimp only at eK) | (rw [Option.bind_eq_some_iff] at eK; obtain ⟨_, _, eK⟩ := eK; try dsimp only at eK)
  all_goals (try first | (injection eK with eK; subst eK) | (injection eK; done) | subst eK)
  all_goals (repeat' first | with_reducible assumption | with_reducible exact Keeps.refl _ | fail_if_no_progress (with_reducible refine keeps_mk ?_) | with_reducible refine keeps_ite (fun _ => ?_) (fun _ => ?_) | split | dsimp only | with_reducible refine askRemote_keeps (by assumption) ?_ | (injection eK; done) | (injection eK with eK; subst eK))

theorem askTicket_keeps {s : State} {c rk : Nat} {t : Nat × Nat}  (hK : Keeps sK s) : Keeps sK (askTicket s c rk t) := by
  unfold askTicket
  try dsimp only
  repeat' first | with_reducible assumption | with_reducible exact Keeps.refl _ | with_reducible refine onRegion_keeps ?_ | fail_if_no_progress (with_reducible refine keeps_mk ?_) | with_reducible refine keeps_ite (fun _ => ?_) (fun _ => ?_) | split | dsimp only | with_reducible refine sendAsk_keeps (by assumption) ?_

theorem ticketSpent_keeps {s : State} {c : Nat} {t : Nat × Nat}  (hK : Keeps sK s) : Keeps sK (ticketSpent s c t) := by
  unfold ticketSpent
  try dsimp only
  repeat' first | with_reducible assumption | with_reducible exact Keeps.refl _ | with_reducible refine cancelPending_keeps ?_ | with_reducible refine spendTicket_keeps ?_ | fail_if_no_progress (with_reducible refine keeps_mk ?_) | with_reducible refine keeps_ite (fun _ => ?_) (fun _ => ?_) | split | dsimp only

theorem pollTickets_keeps {s : State} {c rk : Nat}  (hK : Keeps sK s) : Keeps sK (pollTickets s c rk) := by
  unfold pollTickets
  try dsimp only
  repeat' first | with_reducible assumption | with_reducible exact Keeps.refl _ | with_reducible refine onRegion_keeps ?_ | with_reducible refine askTicket_keeps ?_ | with_reducible refine ticketSpent_keeps ?_ | fail_if_no_progress (with_reducible refine keeps_mk ?_) | with_reducible refine foldl_keeps ?_ ?_ | with_reducible refine foldl1_keeps ?_ ?_ | intro _ _ hk | with_reducible refine getD_keeps ?_ ?_ | intro _ hk | with_reducible refine keeps_ite (fun _ => ?_) (fun _ => ?_) | split | dsimp only

theorem execTicketPoll_keeps {comp' region : Nat} {s : State}  {u0 : State} (eK : execTicketPoll comp' region s = .next u0) (hK : Keeps sK s) : Keeps sK u0 := by
  unfold execTicketPoll at eK
  try dsimp only at eK
  refine occur_keeps (fun s hK => ?_) eK hK
  try dsimp only
  repeat' first | with_reducible assumption | with_reducible exact Keeps.refl _ | with_reducible refine pollTickets_keeps ?_ | fail_if_no_progress (with_reducible refine keeps_mk ?_) | intro _ hk | with_reducible refine keeps_ite (fun _ => ?_) (fun _ => ?_) | split | dsimp only

theorem hearTicket_keeps {s : State} {id cause : Nat} {b : List Byte}  (hK : Keeps sK s) : Keeps sK (hearTicket s id cause b) := by
  unfold hearTicket
  try dsimp only
  repeat' first | with_reducible assumption | with_reducible exact Keeps.refl _ | with_reducible refine onRegion_keeps ?_ | with_reducible refine ticketSpent_keeps ?_ | fail_if_no_progress (with_reducible refine keeps_mk ?_) | with_reducible refine keeps_ite (fun _ => ?_) (fun _ => ?_) | split | dsimp only | with_reducible refine findSome_keeps ?_ (by assumption) | intro _ eK | split at eK | (injection eK with eK)


end Sys2Proof.Machine
end

