-- ==== Sys2Proof/Laws/KeepsFabricEvents.lean ====
section
/-! SUPPORT. What every change keeps (Keeps), for FabricEvents. -/

set_option linter.unusedTactic false
set_option linter.unreachableTactic false

namespace Sys2Proof.Machine

variable {sK : State}

theorem tdiError_keeps {s : State} {c : Nat}  (hK : Keeps sK s) : Keeps sK (tdiError s c) := by
  unfold tdiError
  try dsimp only
  repeat' first | with_reducible assumption | with_reducible exact Keeps.refl _ | with_reducible refine setComp_keeps ?_ | with_reducible refine setRegionState_keeps ?_ | fail_if_no_progress (with_reducible refine keeps_mk ?_) | with_reducible refine foldl_keeps ?_ ?_ | with_reducible refine foldl1_keeps ?_ ?_ | intro _ _ hk | with_reducible refine keeps_ite (fun _ => ?_) (fun _ => ?_) | split | dsimp only

theorem unlessFrozen_keeps {s : State} {cs : List Nat} {f : State → State} (h_f : ∀  s, Keeps sK s → Keeps sK (f  s))  (hK : Keeps sK s) : Keeps sK (unlessFrozen s cs f) := by
  unfold unlessFrozen
  try dsimp only
  repeat' first | with_reducible assumption | with_reducible exact Keeps.refl _ | with_reducible refine h_f _ ?_ | with_reducible refine tdiError_keeps ?_ | fail_if_no_progress (with_reducible refine keeps_mk ?_) | with_reducible refine foldl_keeps ?_ ?_ | with_reducible refine foldl1_keeps ?_ ?_ | intro _ _ hk | with_reducible refine keeps_ite (fun _ => ?_) (fun _ => ?_) | split | dsimp only

theorem watchRoutes_keeps {s : State}  (hK : Keeps sK s) : Keeps sK (watchRoutes s) := by
  unfold watchRoutes
  try dsimp only
  repeat' first | with_reducible assumption | with_reducible exact Keeps.refl _ | fail_if_no_progress (with_reducible refine keeps_mk ?_) | with_reducible refine foldl_keeps ?_ ?_ | with_reducible refine foldl1_keeps ?_ ?_ | intro _ _ hk | with_reducible refine keeps_ite (fun _ => ?_) (fun _ => ?_) | split | dsimp only

theorem askLanes_keeps {t : Nat} {r : Req} {l : List Acc} : ∀ {s u0 : State}, askLanes t r s l = some u0 → Keeps sK s → Keeps sK u0 := by
  induction l with
  | nil => intro s u0 e hK; cases e; exact hK
  | cons a l ih =>
    intro s u0 e hK
    unfold askLanes at e
    split at e
    · next h => exact ih e (askRemote_keeps h hK)
    · cases e


theorem sendAgain_keeps {s : State} {t : Nat} {r : Req}  {u0 : State} (eK : sendAgain s t r = some u0) (hK : Keeps sK s) : Keeps sK u0 := by
  unfold sendAgain at eK
  try dsimp only at eK
  repeat' first | split at eK | (rw [Option.map_eq_some_iff] at eK; obtain ⟨_, _, eK⟩ := eK; try dsimp only at eK) | (rw [Option.bind_eq_some_iff] at eK; obtain ⟨_, _, eK⟩ := eK; try dsimp only at eK)
  all_goals (try first | (injection eK with eK; subst eK) | (injection eK; done) | subst eK)
  all_goals (repeat' first | with_reducible assumption | with_reducible exact Keeps.refl _ | with_reducible refine putReq_keeps ?_ | fail_if_no_progress (with_reducible refine keeps_mk ?_) | with_reducible refine keeps_ite (fun _ => ?_) (fun _ => ?_) | split | dsimp only | with_reducible refine askLanes_keeps (by assumption) ?_ | with_reducible refine askRemote_keeps (by assumption) ?_ | (injection eK; done) | (injection eK with eK; subst eK))

theorem callBack_keeps {s : State} {r : Req}  (hK : Keeps sK s) : Keeps sK (callBack s r) := by
  unfold callBack
  try dsimp only
  repeat' first | with_reducible assumption | with_reducible exact Keeps.refl _ | with_reducible refine putReq_keeps ?_ | fail_if_no_progress (with_reducible refine keeps_mk ?_) | with_reducible refine keeps_ite (fun _ => ?_) (fun _ => ?_) | split | dsimp only

theorem askAgain_keeps {s : State} {x : Nat × Nat}  (hK : Keeps sK s) : Keeps sK (askAgain s x) := by
  unfold askAgain
  try dsimp only
  repeat' first | with_reducible assumption | with_reducible exact Keeps.refl _ | fail_if_no_progress (with_reducible refine keeps_mk ?_) | with_reducible refine getD_keeps ?_ ?_ | intro _ hk | with_reducible refine keeps_ite (fun _ => ?_) (fun _ => ?_) | split | dsimp only | with_reducible refine sendAgain_keeps (by assumption) ?_

theorem flushFabric_keeps {s : State}  (hK : Keeps sK s) : Keeps sK (flushFabric s) := by
  unfold flushFabric
  try dsimp only
  repeat' first | with_reducible assumption | with_reducible exact Keeps.refl _ | with_reducible refine flushAnswers_keeps ?_ | with_reducible refine resendStream_keeps ?_ | with_reducible refine flushWaiting_keeps ?_ | fail_if_no_progress (with_reducible refine keeps_mk ?_) | with_reducible refine foldl_keeps ?_ ?_ | with_reducible refine foldl1_keeps ?_ ?_ | intro _ _ hk | with_reducible refine keeps_ite (fun _ => ?_) (fun _ => ?_) | split | dsimp only

theorem reroute_keeps {s : State}  (hK : Keeps sK s) : Keeps sK (reroute s) := by
  unfold reroute
  try dsimp only
  repeat' first | with_reducible assumption | with_reducible exact Keeps.refl _ | with_reducible refine flushFabric_keeps ?_ | with_reducible refine retestClaims_keeps ?_ | with_reducible refine watchRoutes_keeps ?_ | fail_if_no_progress (with_reducible refine keeps_mk ?_) | with_reducible refine keeps_ite (fun _ => ?_) (fun _ => ?_) | split | dsimp only

theorem writeLinkcfg_keeps {s : State} {l v : Nat}  (hK : Keeps sK s) : Keeps sK (writeLinkcfg s l v) := by
  unfold writeLinkcfg
  try dsimp only
  repeat' first | with_reducible assumption | with_reducible exact Keeps.refl _ | with_reducible refine unlessFrozen_keeps ?_ ?_ | with_reducible refine setLink_keeps ?_ | fail_if_no_progress (with_reducible refine keeps_mk ?_) | intro _ hk | with_reducible refine getD_keeps ?_ ?_ | intro _ hk | with_reducible refine keeps_ite (fun _ => ?_) (fun _ => ?_) | split | dsimp only

theorem execLinkcfg_keeps {link : Nat} {v : BitVec 32} {s : State}  {u0 : State} (eK : execLinkcfg link v s = .next u0) (hK : Keeps sK s) : Keeps sK u0 := by
  unfold execLinkcfg at eK
  try dsimp only at eK
  refine occur_keeps (fun s hK => ?_) eK hK
  try dsimp only
  repeat' first | with_reducible assumption | with_reducible exact Keeps.refl _ | with_reducible refine writeLinkcfg_keeps ?_ | fail_if_no_progress (with_reducible refine keeps_mk ?_) | intro _ hk | with_reducible refine keeps_ite (fun _ => ?_) (fun _ => ?_) | split | dsimp only

theorem execBound_keeps {deck kind : Nat} {v : BitVec 32} {s : State}  {u0 : State} (eK : execBound deck kind v s = .next u0) (hK : Keeps sK s) : Keeps sK u0 := by
  unfold execBound at eK
  try dsimp only at eK
  refine occur_keeps (fun s hK => ?_) eK hK
  try dsimp only
  repeat' first | with_reducible assumption | with_reducible exact Keeps.refl _ | fail_if_no_progress (with_reducible refine keeps_mk ?_) | intro _ hk | with_reducible refine keeps_ite (fun _ => ?_) (fun _ => ?_) | split | dsimp only

theorem execEngerr_keeps {cluster' : Nat} {v : BitVec 32} {s : State}  {u0 : State} (eK : execEngerr cluster' v s = .next u0) (hK : Keeps sK s) : Keeps sK u0 := by
  unfold execEngerr at eK
  try dsimp only at eK
  refine occur_keeps (fun s hK => ?_) eK hK
  try dsimp only
  repeat' first | with_reducible assumption | with_reducible exact Keeps.refl _ | with_reducible refine clearEngerr_keeps ?_ | fail_if_no_progress (with_reducible refine keeps_mk ?_) | intro _ hk | with_reducible refine keeps_ite (fun _ => ?_) (fun _ => ?_) | split | dsimp only

theorem takeDown_keeps {s : State} {l : Nat}  (hK : Keeps sK s) : Keeps sK (takeDown s l) := by
  unfold takeDown
  try dsimp only
  repeat' first | with_reducible assumption | with_reducible exact Keeps.refl _ | with_reducible refine setLink_keeps ?_ | with_reducible refine callBack_keeps ?_ | with_reducible refine askAgain_keeps ?_ | with_reducible refine reroute_keeps ?_ | fail_if_no_progress (with_reducible refine keeps_mk ?_) | with_reducible refine foldl_keeps ?_ ?_ | with_reducible refine foldl1_keeps ?_ ?_ | intro _ _ hk | with_reducible refine keeps_ite (fun _ => ?_) (fun _ => ?_) | split | dsimp only | with_reducible refine foldlBind_keeps ?_ (by assumption) ?_ | intro _

theorem execLinkDown_keeps {link : Nat} {s : State}  {u0 : State} (eK : execLinkDown link s = .next u0) (hK : Keeps sK s) : Keeps sK u0 := by
  unfold execLinkDown at eK
  try dsimp only at eK
  refine occur_keeps (fun s hK => ?_) eK hK
  try dsimp only
  repeat' first | with_reducible assumption | with_reducible exact Keeps.refl _ | with_reducible refine takeDown_keeps ?_ | fail_if_no_progress (with_reducible refine keeps_mk ?_) | intro _ hk | with_reducible refine keeps_ite (fun _ => ?_) (fun _ => ?_) | split | dsimp only

theorem execLinkUp_keeps {link' : Nat} {s : State}  {u0 : State} (eK : execLinkUp link' s = .next u0) (hK : Keeps sK s) : Keeps sK u0 := by
  unfold execLinkUp at eK
  try dsimp only at eK
  refine occur_keeps (fun s hK => ?_) eK hK
  try dsimp only
  repeat' first | with_reducible assumption | with_reducible exact Keeps.refl _ | with_reducible refine reroute_keeps ?_ | with_reducible refine setLink_keeps ?_ | fail_if_no_progress (with_reducible refine keeps_mk ?_) | intro _ hk | with_reducible refine keeps_ite (fun _ => ?_) (fun _ => ?_) | split | dsimp only

theorem execLinkRetrain_keeps {link' : Nat} {s : State}  {u0 : State} (eK : execLinkRetrain link' s = .next u0) (hK : Keeps sK s) : Keeps sK u0 := by
  unfold execLinkRetrain at eK
  try dsimp only at eK
  refine occur_keeps (fun s hK => ?_) eK hK
  try dsimp only
  repeat' first | with_reducible assumption | with_reducible exact Keeps.refl _ | with_reducible refine setLink_keeps ?_ | fail_if_no_progress (with_reducible refine keeps_mk ?_) | intro _ hk | with_reducible refine keeps_ite (fun _ => ?_) (fun _ => ?_) | split | dsimp only

theorem resend_keeps {s : State} {l lseq : Nat}  (hK : Keeps sK s) : Keeps sK (resend s l lseq) := by
  unfold resend
  try dsimp only
  repeat' first | with_reducible assumption | with_reducible exact Keeps.refl _ | with_reducible refine takeDown_keeps ?_ | with_reducible refine setLink_keeps ?_ | fail_if_no_progress (with_reducible refine keeps_mk ?_) | with_reducible refine keeps_ite (fun _ => ?_) (fun _ => ?_) | split | dsimp only

theorem execRetryRequest_keeps {link lseq : Nat} {s : State}  {u0 : State} (eK : execRetryRequest link lseq s = .next u0) (hK : Keeps sK s) : Keeps sK u0 := by
  unfold execRetryRequest at eK
  try dsimp only at eK
  refine occur_keeps (fun s hK => ?_) eK hK
  try dsimp only
  repeat' first | with_reducible assumption | with_reducible exact Keeps.refl _ | with_reducible refine resend_keeps ?_ | fail_if_no_progress (with_reducible refine keeps_mk ?_) | intro _ hk | with_reducible refine keeps_ite (fun _ => ?_) (fun _ => ?_) | split | dsimp only

theorem putDedup_keeps {s : State} {d : Dedup}  (hK : Keeps sK s) : Keeps sK (putDedup s d) := by
  unfold putDedup
  try dsimp only
  repeat' first | with_reducible assumption | with_reducible exact Keeps.refl _ | fail_if_no_progress (with_reducible refine keeps_mk ?_) | with_reducible refine keeps_ite (fun _ => ?_) (fun _ => ?_) | split | dsimp only

theorem performRemote_keeps {s : State} {m : RemoteWrite}  (hK : Keeps sK s) : Keeps sK (performRemote s m) := by
  unfold performRemote
  try dsimp only
  repeat' first | with_reducible assumption | with_reducible exact Keeps.refl _ | with_reducible refine writeProg_keeps ?_ | with_reducible refine reportUncorr_keeps ?_ | fail_if_no_progress (with_reducible refine keeps_mk ?_) | with_reducible refine foldl_keeps ?_ ?_ | with_reducible refine foldl1_keeps ?_ ?_ | intro _ _ hk | with_reducible refine keeps_ite (fun _ => ?_) (fun _ => ?_) | split | dsimp only

theorem hearWrite_keeps {s : State} {m : RemoteWrite} {sub : Option Nat}  (hK : Keeps sK s) : Keeps sK (hearWrite s m sub) := by
  unfold hearWrite
  try dsimp only
  repeat' first | with_reducible assumption | with_reducible exact Keeps.refl _ | with_reducible refine refuse_keeps ?_ | with_reducible refine sendBack_keeps ?_ | with_reducible refine putDedup_keeps ?_ | with_reducible refine performRemote_keeps ?_ | fail_if_no_progress (with_reducible refine keeps_mk ?_) | with_reducible refine keeps_ite (fun _ => ?_) (fun _ => ?_) | split | dsimp only

theorem execPostedWrite_keeps {m : RemoteWrite} {s : State}  {u0 : State} (eK : execPostedWrite m s = .next u0) (hK : Keeps sK s) : Keeps sK u0 := by
  unfold execPostedWrite at eK
  try dsimp only at eK
  refine occur_keeps (fun s hK => ?_) eK hK
  try dsimp only
  repeat' first | with_reducible assumption | with_reducible exact Keeps.refl _ | with_reducible refine hearWrite_keeps ?_ | fail_if_no_progress (with_reducible refine keeps_mk ?_) | intro _ hk | with_reducible refine keeps_ite (fun _ => ?_) (fun _ => ?_) | split | dsimp only

theorem performRead_keeps {s : State} {m : RemoteRead}  (hK : Keeps sK s) : Keeps sK (performRead s m) := by
  unfold performRead
  try dsimp only
  repeat' first | with_reducible assumption | with_reducible exact Keeps.refl _ | with_reducible refine sendBack_keeps ?_ | with_reducible refine reportUncorr_keeps ?_ | with_reducible refine writeProg_keeps ?_ | fail_if_no_progress (with_reducible refine keeps_mk ?_) | with_reducible refine keeps_ite (fun _ => ?_) (fun _ => ?_) | split | dsimp only

theorem hearRead_keeps {s : State} {m : RemoteRead} {sub : Option Nat}  (hK : Keeps sK s) : Keeps sK (hearRead s m sub) := by
  unfold hearRead
  try dsimp only
  repeat' first | with_reducible assumption | with_reducible exact Keeps.refl _ | with_reducible refine sendBack_keeps ?_ | with_reducible refine performRead_keeps ?_ | with_reducible refine putDedup_keeps ?_ | fail_if_no_progress (with_reducible refine keeps_mk ?_) | with_reducible refine keeps_ite (fun _ => ?_) (fun _ => ?_) | split | dsimp only

theorem execReadRequest_keeps {m : RemoteRead} {s : State}  {u0 : State} (eK : execReadRequest m s = .next u0) (hK : Keeps sK s) : Keeps sK u0 := by
  unfold execReadRequest at eK
  try dsimp only at eK
  refine occur_keeps (fun s hK => ?_) eK hK
  try dsimp only
  repeat' first | with_reducible assumption | with_reducible exact Keeps.refl _ | with_reducible refine hearRead_keeps ?_ | fail_if_no_progress (with_reducible refine keeps_mk ?_) | intro _ hk | with_reducible refine keeps_ite (fun _ => ?_) (fun _ => ?_) | split | dsimp only

theorem hearRetire_keeps {s : State} {stream coach : Nat}  (hK : Keeps sK s) : Keeps sK (hearRetire s stream coach) := by
  unfold hearRetire
  try dsimp only
  repeat' first | with_reducible assumption | with_reducible exact Keeps.refl _ | fail_if_no_progress (with_reducible refine keeps_mk ?_) | with_reducible refine keeps_ite (fun _ => ?_) (fun _ => ?_) | split | dsimp only

theorem execStreamRetire_keeps {stream coach : Nat} {s : State}  {u0 : State} (eK : execStreamRetire stream coach s = .next u0) (hK : Keeps sK s) : Keeps sK u0 := by
  unfold execStreamRetire at eK
  try dsimp only at eK
  refine occur_keeps (fun s hK => ?_) eK hK
  try dsimp only
  repeat' first | with_reducible assumption | with_reducible exact Keeps.refl _ | with_reducible refine hearRetire_keeps ?_ | fail_if_no_progress (with_reducible refine keeps_mk ?_) | intro _ hk | with_reducible refine keeps_ite (fun _ => ?_) (fun _ => ?_) | split | dsimp only

theorem closeReq_keeps {s : State} {r : Req}  (hK : Keeps sK s) : Keeps sK (closeReq s r) := by
  unfold closeReq
  try dsimp only
  repeat' first | with_reducible assumption | with_reducible exact Keeps.refl _ | with_reducible refine feedTeam_keeps ?_ | with_reducible refine finishOp_keeps ?_ | with_reducible refine dropReq_keeps ?_ | fail_if_no_progress (with_reducible refine keeps_mk ?_) | with_reducible refine keeps_ite (fun _ => ?_) (fun _ => ?_) | split | dsimp only

theorem hearPoll_keeps {s : State} {r : Req} {cause : Nat} {b : List Byte}  (hK : Keeps sK s) : Keeps sK (hearPoll s r cause b) := by
  unfold hearPoll
  try dsimp only
  repeat' first | with_reducible assumption | with_reducible exact Keeps.refl _ | with_reducible refine closeReq_keeps ?_ | with_reducible refine wakeTrap_keeps ?_ | with_reducible refine acquireAt_keeps ?_ | with_reducible refine onTeam_keeps ?_ | with_reducible refine advanceReq_keeps ?_ | with_reducible refine putReq_keeps ?_ | with_reducible refine bounceReq_keeps ?_ | fail_if_no_progress (with_reducible refine keeps_mk ?_) | with_reducible refine keeps_ite (fun _ => ?_) (fun _ => ?_) | split | dsimp only

theorem hearLine_keeps {s : State} {r : Req} {b : List Byte}  (hK : Keeps sK s) : Keeps sK (hearLine s r b) := by
  unfold hearLine
  try dsimp only
  repeat' first | with_reducible assumption | with_reducible exact Keeps.refl _ | with_reducible refine closeReq_keeps ?_ | with_reducible refine keepGot_keeps ?_ | fail_if_no_progress (with_reducible refine keeps_mk ?_) | with_reducible refine foldl_keeps ?_ ?_ | with_reducible refine foldl1_keeps ?_ ?_ | intro _ _ hk | with_reducible refine keeps_ite (fun _ => ?_) (fun _ => ?_) | split | dsimp only

theorem hearLane_keeps {s : State} {r : Req} {lane cause : Nat} {b : List Byte}  (hK : Keeps sK s) : Keeps sK (hearLane s r lane cause b) := by
  unfold hearLane
  try dsimp only
  repeat' first | with_reducible assumption | with_reducible exact Keeps.refl _ | with_reducible refine keepGot_keeps ?_ | with_reducible refine keepBad_keeps ?_ | with_reducible refine closeReq_keeps ?_ | with_reducible refine putReq_keeps ?_ | fail_if_no_progress (with_reducible refine keeps_mk ?_) | with_reducible refine getD_keeps ?_ ?_ | intro _ hk | with_reducible refine keeps_ite (fun _ => ?_) (fun _ => ?_) | split | dsimp only

theorem hearCopy_keeps {s : State} {x : Copy} {slot cause : Nat} {b : List Byte}  (hK : Keeps sK s) : Keeps sK (hearCopy s x slot cause b) := by
  unfold hearCopy
  try dsimp only
  repeat' first | with_reducible assumption | with_reducible exact Keeps.refl _ | with_reducible refine putCopy_keeps ?_ | with_reducible refine engIndex_keeps ?_ | fail_if_no_progress (with_reducible refine keeps_mk ?_) | with_reducible refine keeps_ite (fun _ => ?_) (fun _ => ?_) | split | dsimp only | with_reducible refine engIndex_keeps_eq (by assumption) ?_

theorem hearReply_keeps {s : State} {tag : Nat} {st : ReplyStatus} {b : List Byte}  (hK : Keeps sK s) : Keeps sK (hearReply s tag st b) := by
  unfold hearReply
  try dsimp only
  repeat' first | with_reducible assumption | with_reducible exact Keeps.refl _ | with_reducible refine hearPoll_keeps ?_ | with_reducible refine hearLane_keeps ?_ | with_reducible refine hearLine_keeps ?_ | with_reducible refine closeReq_keeps ?_ | with_reducible refine keepBad_keeps ?_ | with_reducible refine hearCopy_keeps ?_ | with_reducible refine hearTicket_keeps ?_ | fail_if_no_progress (with_reducible refine keeps_mk ?_) | with_reducible refine getD_keeps ?_ ?_ | intro _ hk | with_reducible refine keeps_ite (fun _ => ?_) (fun _ => ?_) | split | dsimp only

theorem execRemoteLoadReply_keeps {tag : Nat} {status : ReplyStatus} {data : List (BitVec 8)} {s : State}  {u0 : State} (eK : execRemoteLoadReply tag status data s = .next u0) (hK : Keeps sK s) : Keeps sK u0 := by
  unfold execRemoteLoadReply at eK
  try dsimp only at eK
  refine occur_keeps (fun s hK => ?_) eK hK
  try dsimp only
  repeat' first | with_reducible assumption | with_reducible exact Keeps.refl _ | with_reducible refine hearReply_keeps ?_ | fail_if_no_progress (with_reducible refine keeps_mk ?_) | intro _ hk | with_reducible refine keeps_ite (fun _ => ?_) (fun _ => ?_) | split | dsimp only

theorem settleWrites_keeps {s : State} {key coach : Nat} {done : Nat → Bool}  (hK : Keeps sK s) : Keeps sK (settleWrites s key coach done) := by
  unfold settleWrites
  try dsimp only
  repeat' first | with_reducible assumption | with_reducible exact Keeps.refl _ | with_reducible refine recordOutcome_keeps ?_ | fail_if_no_progress (with_reducible refine keeps_mk ?_) | with_reducible refine foldl_keeps ?_ ?_ | with_reducible refine foldl1_keeps ?_ ?_ | intro _ _ hk | with_reducible refine keeps_ite (fun _ => ?_) (fun _ => ?_) | split | dsimp only

theorem hearAck_keeps {s : State} {stream coach below : Nat}  (hK : Keeps sK s) : Keeps sK (hearAck s stream coach below) := by
  unfold hearAck
  try dsimp only
  repeat' first | with_reducible assumption | with_reducible exact Keeps.refl _ | with_reducible refine setSubStream_keeps ?_ | with_reducible refine onTeam_keeps ?_ | with_reducible refine flushWaiting_keeps ?_ | with_reducible refine settleWrites_keeps ?_ | fail_if_no_progress (with_reducible refine keeps_mk ?_) | with_reducible refine keeps_ite (fun _ => ?_) (fun _ => ?_) | split | dsimp only

theorem execAcknowledgement_keeps {stream coach below : Nat} {s : State}  {u0 : State} (eK : execAcknowledgement stream coach below s = .next u0) (hK : Keeps sK s) : Keeps sK u0 := by
  unfold execAcknowledgement at eK
  try dsimp only at eK
  refine occur_keeps (fun s hK => ?_) eK hK
  try dsimp only
  repeat' first | with_reducible assumption | with_reducible exact Keeps.refl _ | with_reducible refine hearAck_keeps ?_ | fail_if_no_progress (with_reducible refine keeps_mk ?_) | intro _ hk | with_reducible refine keeps_ite (fun _ => ?_) (fun _ => ?_) | split | dsimp only

theorem loseSome_keeps {s : State} {key coach : Nat} {lost : Nat → Bool}  (hK : Keeps sK s) : Keeps sK (loseSome s key coach lost) := by
  unfold loseSome
  try dsimp only
  repeat' first | with_reducible assumption | with_reducible exact Keeps.refl _ | with_reducible refine settleWrites_keeps ?_ | fail_if_no_progress (with_reducible refine keeps_mk ?_) | with_reducible refine keeps_ite (fun _ => ?_) (fun _ => ?_) | split | dsimp only

theorem bounceWrite_keeps {s : State} {r : Req} {o : MemOp}  (hK : Keeps sK s) : Keeps sK (bounceWrite s r o) := by
  unfold bounceWrite
  try dsimp only
  repeat' first | with_reducible assumption | with_reducible exact Keeps.refl _ | with_reducible refine bounceReq_keeps ?_ | fail_if_no_progress (with_reducible refine keeps_mk ?_) | with_reducible refine keeps_ite (fun _ => ?_) (fun _ => ?_) | split | dsimp only

theorem fullWrite_keeps {s : State} {key : Nat} {x : SubStream} {w : RemoteWrite}  (hK : Keeps sK s) : Keeps sK (fullWrite s key x w) := by
  unfold fullWrite
  try dsimp only
  repeat' first | with_reducible assumption | with_reducible exact Keeps.refl _ | with_reducible refine setSubStream_keeps ?_ | with_reducible refine bounceWrite_keeps ?_ | with_reducible refine onTeam_keeps ?_ | fail_if_no_progress (with_reducible refine keeps_mk ?_) | with_reducible refine getD_keeps ?_ ?_ | intro _ hk | with_reducible refine keeps_ite (fun _ => ?_) (fun _ => ?_) | split | dsimp only

theorem fullRead_keeps {s : State} {tag : Nat}  (hK : Keeps sK s) : Keeps sK (fullRead s tag) := by
  unfold fullRead
  try dsimp only
  repeat' first | with_reducible assumption | with_reducible exact Keeps.refl _ | with_reducible refine bounceReq_keeps ?_ | with_reducible refine fresh_keeps ?_ | with_reducible refine putReq_keeps ?_ | with_reducible refine putCopy_keeps ?_ | fail_if_no_progress (with_reducible refine keeps_mk ?_) | with_reducible refine keeps_ite (fun _ => ?_) (fun _ => ?_) | split | dsimp only

theorem hearRefusal_keeps {s : State} {stream coach : Nat} {what : Refused} {reason : RefuseReason}  (hK : Keeps sK s) : Keeps sK (hearRefusal s stream coach what reason) := by
  unfold hearRefusal
  try dsimp only
  repeat' first | with_reducible assumption | with_reducible exact Keeps.refl _ | with_reducible refine fullRead_keeps ?_ | with_reducible refine hearReply_keeps ?_ | with_reducible refine fullWrite_keeps ?_ | with_reducible refine setSubStream_keeps ?_ | with_reducible refine flushWaiting_keeps ?_ | with_reducible refine loseSome_keeps ?_ | with_reducible refine loseWrites_keeps ?_ | fail_if_no_progress (with_reducible refine keeps_mk ?_) | with_reducible refine keeps_ite (fun _ => ?_) (fun _ => ?_) | split | dsimp only

theorem execRefusal_keeps {stream coach : Nat} {what : Refused} {reason : RefuseReason} {s : State}  {u0 : State} (eK : execRefusal stream coach what reason s = .next u0) (hK : Keeps sK s) : Keeps sK u0 := by
  unfold execRefusal at eK
  try dsimp only at eK
  refine occur_keeps (fun s hK => ?_) eK hK
  try dsimp only
  repeat' first | with_reducible assumption | with_reducible exact Keeps.refl _ | with_reducible refine hearRefusal_keeps ?_ | fail_if_no_progress (with_reducible refine keeps_mk ?_) | intro _ hk | with_reducible refine keeps_ite (fun _ => ?_) (fun _ => ?_) | split | dsimp only

theorem declareUnreachable_keeps {s : State} {coach : Nat}  (hK : Keeps sK s) : Keeps sK (declareUnreachable s coach) := by
  unfold declareUnreachable
  try dsimp only
  repeat' first | with_reducible assumption | with_reducible exact Keeps.refl _ | with_reducible refine setSubStream_keeps ?_ | with_reducible refine loseSome_keeps ?_ | with_reducible refine loseWrites_keeps ?_ | with_reducible refine hearPoll_keeps ?_ | with_reducible refine closeReq_keeps ?_ | with_reducible refine keepBad_keeps ?_ | fail_if_no_progress (with_reducible refine keeps_mk ?_) | with_reducible refine foldl_keeps ?_ ?_ | with_reducible refine foldl1_keeps ?_ ?_ | intro _ _ hk | with_reducible refine getD_keeps ?_ ?_ | intro _ hk | with_reducible refine keeps_ite (fun _ => ?_) (fun _ => ?_) | split | dsimp only

theorem execUnreachable_keeps {coach : Nat} {s : State}  {u0 : State} (eK : execUnreachable coach s = .next u0) (hK : Keeps sK s) : Keeps sK u0 := by
  unfold execUnreachable at eK
  try dsimp only at eK
  refine occur_keeps (fun s hK => ?_) eK hK
  try dsimp only
  repeat' first | with_reducible assumption | with_reducible exact Keeps.refl _ | with_reducible refine declareUnreachable_keeps ?_ | fail_if_no_progress (with_reducible refine keeps_mk ?_) | intro _ hk | with_reducible refine keeps_ite (fun _ => ?_) (fun _ => ?_) | split | dsimp only

theorem retireStream_keeps {s : State} {stream : Nat}  (hK : Keeps sK s) : Keeps sK (retireStream s stream) := by
  unfold retireStream
  try dsimp only
  repeat' first | with_reducible assumption | with_reducible exact Keeps.refl _ | fail_if_no_progress (with_reducible refine keeps_mk ?_) | with_reducible refine foldl_keeps ?_ ?_ | with_reducible refine foldl1_keeps ?_ ?_ | intro _ _ hk | with_reducible refine keeps_ite (fun _ => ?_) (fun _ => ?_) | split | dsimp only | with_reducible refine sendMsg_keeps (by assumption) ?_

theorem execStreamIdleExpiry_keeps {stream : Nat} {s : State}  {u0 : State} (eK : execStreamIdleExpiry stream s = .next u0) (hK : Keeps sK s) : Keeps sK u0 := by
  unfold execStreamIdleExpiry at eK
  try dsimp only at eK
  refine occur_keeps (fun s hK => ?_) eK hK
  try dsimp only
  repeat' first | with_reducible assumption | with_reducible exact Keeps.refl _ | with_reducible refine retireStream_keeps ?_ | fail_if_no_progress (with_reducible refine keeps_mk ?_) | intro _ hk | with_reducible refine keeps_ite (fun _ => ?_) (fun _ => ?_) | split | dsimp only

theorem leaveTrain_keeps {s : State} {size : Nat}  (hK : Keeps sK s) : Keeps sK (leaveTrain s size) := by
  unfold leaveTrain
  try dsimp only
  repeat' first | with_reducible assumption | with_reducible exact Keeps.refl _ | with_reducible refine declareUnreachable_keeps ?_ | fail_if_no_progress (with_reducible refine keeps_mk ?_) | with_reducible refine foldl_keeps ?_ ?_ | with_reducible refine foldl1_keeps ?_ ?_ | intro _ _ hk | with_reducible refine keeps_ite (fun _ => ?_) (fun _ => ?_) | split | dsimp only

theorem writeTrain_keeps {s : State} {v : Nat}  (hK : Keeps sK s) : Keeps sK (writeTrain s v) := by
  unfold writeTrain
  try dsimp only
  repeat' first | with_reducible assumption | with_reducible exact Keeps.refl _ | with_reducible refine setLink_keeps ?_ | with_reducible refine leaveTrain_keeps ?_ | with_reducible refine watchRoutes_keeps ?_ | with_reducible refine takeDown_keeps ?_ | fail_if_no_progress (with_reducible refine keeps_mk ?_) | with_reducible refine foldl_keeps ?_ ?_ | with_reducible refine foldl1_keeps ?_ ?_ | intro _ _ hk | with_reducible refine keeps_ite (fun _ => ?_) (fun _ => ?_) | split | dsimp only

theorem execTraincfg_keeps {v : BitVec 32} {s : State}  {u0 : State} (eK : execTraincfg v s = .next u0) (hK : Keeps sK s) : Keeps sK u0 := by
  unfold execTraincfg at eK
  try dsimp only at eK
  refine occur_keeps (fun s hK => ?_) eK hK
  try dsimp only
  repeat' first | with_reducible assumption | with_reducible exact Keeps.refl _ | with_reducible refine writeTrain_keeps ?_ | fail_if_no_progress (with_reducible refine keeps_mk ?_) | intro _ hk | with_reducible refine keeps_ite (fun _ => ?_) (fun _ => ?_) | split | dsimp only

theorem hearMsg_keeps {s : State} {owner : Option Nat} {sub : Option Nat} {m : FabMsg}  (hK : Keeps sK s) : Keeps sK (hearMsg s owner sub m) := by
  unfold hearMsg
  try dsimp only
  repeat' first | with_reducible assumption | with_reducible exact Keeps.refl _ | with_reducible refine hearWrite_keeps ?_ | with_reducible refine hearRead_keeps ?_ | with_reducible refine hearReply_keeps ?_ | with_reducible refine hearAck_keeps ?_ | with_reducible refine hearRefusal_keeps ?_ | with_reducible refine hearRetire_keeps ?_ | fail_if_no_progress (with_reducible refine keeps_mk ?_) | with_reducible refine getD_keeps ?_ ?_ | intro _ hk | with_reducible refine keeps_ite (fun _ => ?_) (fun _ => ?_) | split | dsimp only

theorem forward_keeps {s : State} {f : Flit}  (hK : Keeps sK s) : Keeps sK (forward s f) := by
  unfold forward
  try dsimp only
  repeat' first | with_reducible assumption | with_reducible exact Keeps.refl _ | with_reducible refine emit_keeps ?_ | fail_if_no_progress (with_reducible refine keeps_mk ?_) | with_reducible refine foldl_keeps ?_ ?_ | with_reducible refine foldl1_keeps ?_ ?_ | intro _ _ hk | with_reducible refine keeps_ite (fun _ => ?_) (fun _ => ?_) | split | dsimp only

theorem countCredits_keeps {s : State} {l : Nat} {f : Flit}  (hK : Keeps sK s) : Keeps sK (countCredits s l f) := by
  unfold countCredits
  try dsimp only
  repeat' first | with_reducible assumption | with_reducible exact Keeps.refl _ | with_reducible refine setLink_keeps ?_ | fail_if_no_progress (with_reducible refine keeps_mk ?_) | with_reducible refine foldl_keeps ?_ ?_ | with_reducible refine foldl1_keeps ?_ ?_ | intro _ _ hk | with_reducible refine getD_keeps ?_ ?_ | intro _ hk | with_reducible refine keeps_ite (fun _ => ?_) (fun _ => ?_) | split | dsimp only

theorem hearFlit_keeps {s : State} {l : Nat} {f : Flit}  (hK : Keeps sK s) : Keeps sK (hearFlit s l f) := by
  unfold hearFlit
  try dsimp only
  repeat' first | with_reducible assumption | with_reducible exact Keeps.refl _ | with_reducible refine resend_keeps ?_ | with_reducible refine countCredits_keeps ?_ | with_reducible refine setLink_keeps ?_ | with_reducible refine emitIdle_keeps ?_ | with_reducible refine forward_keeps ?_ | with_reducible refine hearMsg_keeps ?_ | fail_if_no_progress (with_reducible refine keeps_mk ?_) | with_reducible refine foldl_keeps ?_ ?_ | with_reducible refine foldl1_keeps ?_ ?_ | intro _ _ hk | with_reducible refine keeps_ite (fun _ => ?_) (fun _ => ?_) | split | dsimp only

theorem execFlit_keeps {link : Nat} {f : Flit} {s : State}  {u0 : State} (eK : execFlit link f s = .next u0) (hK : Keeps sK s) : Keeps sK u0 := by
  unfold execFlit at eK
  try dsimp only at eK
  refine occur_keeps (fun s hK => ?_) eK hK
  try dsimp only
  repeat' first | with_reducible assumption | with_reducible exact Keeps.refl _ | with_reducible refine hearFlit_keeps ?_ | fail_if_no_progress (with_reducible refine keeps_mk ?_) | intro _ hk | with_reducible refine keeps_ite (fun _ => ?_) (fun _ => ?_) | split | dsimp only


end Sys2Proof.Machine
end

