-- ==== Sys2Proof/Laws/KeepsHostEvents.lean ====
section
/-! SUPPORT. What every change keeps (Keeps), for HostEvents. -/

set_option linter.unusedTactic false
set_option linter.unreachableTactic false

namespace Sys2Proof.Machine

variable {sK : State}

theorem ringDoorbell_keeps {s : State} {c tail : Nat}  (hK : Keeps sK s) : Keeps sK (ringDoorbell s c tail) := by
  unfold ringDoorbell
  try dsimp only
  repeat' first | with_reducible assumption | with_reducible exact Keeps.refl _ | with_reducible refine pushErr_keeps ?_ | with_reducible refine setComp_keeps ?_ | fail_if_no_progress (with_reducible refine keeps_mk ?_) | with_reducible refine keeps_ite (fun _ => ?_) (fun _ => ?_) | split | dsimp only

theorem execDoorbell_keeps {comp' : Nat} {tail : BitVec 32} {s : State}  {u0 : State} (eK : execDoorbell comp' tail s = .next u0) (hK : Keeps sK s) : Keeps sK u0 := by
  unfold execDoorbell at eK
  try dsimp only at eK
  refine occur_keeps (fun s hK => ?_) eK hK
  try dsimp only
  repeat' first | with_reducible assumption | with_reducible exact Keeps.refl _ | with_reducible refine ringDoorbell_keeps ?_ | fail_if_no_progress (with_reducible refine keeps_mk ?_) | intro _ hk | with_reducible refine keeps_ite (fun _ => ?_) (fun _ => ?_) | split | dsimp only

theorem markIpas_keeps {s : State} {c a n : Nat} {write : Bool}  (hK : Keeps sK s) : Keeps sK (markIpas s c a n write) := by
  unfold markIpas
  try dsimp only
  repeat' first | with_reducible assumption | with_reducible exact Keeps.refl _ | with_reducible refine markIpa_keeps ?_ | fail_if_no_progress (with_reducible refine keeps_mk ?_) | with_reducible refine foldl_keeps ?_ ?_ | with_reducible refine foldl1_keeps ?_ ?_ | intro _ _ hk | with_reducible refine keeps_ite (fun _ => ?_) (fun _ => ?_) | split | dsimp only

theorem launchCrew_keeps {s : State} {c rk : Nat} {r : Region} {code : Nat} {e : List Byte}  (hK : Keeps sK s) : Keeps sK (launchCrew s c rk r code e) := by
  unfold launchCrew
  try dsimp only
  repeat' first | with_reducible assumption | with_reducible exact Keeps.refl _ | with_reducible refine addCrew_keeps ?_ | fail_if_no_progress (with_reducible refine keeps_mk ?_) | with_reducible refine keeps_ite (fun _ => ?_) (fun _ => ?_) | split | dsimp only

theorem buildRoot_keeps {s : State} {c : Nat} {b e : List Byte}  {u0 : State} (eK : buildRoot s c b e = .ok u0) (hK : Keeps sK s) : Keeps sK u0 := by
  unfold buildRoot at eK
  try dsimp only at eK
  repeat' first | split at eK | (rw [Option.map_eq_some_iff] at eK; obtain ⟨_, _, eK⟩ := eK; try dsimp only at eK) | (rw [Option.bind_eq_some_iff] at eK; obtain ⟨_, _, eK⟩ := eK; try dsimp only at eK)
  all_goals (try first | (injection eK with eK; subst eK) | (injection eK; done) | subst eK)
  all_goals (repeat' first | with_reducible assumption | with_reducible exact Keeps.refl _ | with_reducible refine devicePa_keeps ?_ | with_reducible refine activate_keeps ?_ | with_reducible refine writeHome_keeps ?_ | with_reducible refine launchCrew_keeps ?_ | fail_if_no_progress (with_reducible refine keeps_mk ?_) | with_reducible refine keeps_ite (fun _ => ?_) (fun _ => ?_) | split | dsimp only | with_reducible refine devicePa_keeps_eq (by assumption) ?_ | (injection eK; done) | (injection eK with eK; subst eK))

theorem markObject_keeps {s : State} {c code : Nat}  (hK : Keeps sK s) : Keeps sK (markObject s c code) := by
  unfold markObject
  try dsimp only
  repeat' first | with_reducible assumption | with_reducible exact Keeps.refl _ | with_reducible refine markIpas_keeps ?_ | fail_if_no_progress (with_reducible refine keeps_mk ?_) | with_reducible refine keeps_ite (fun _ => ?_) (fun _ => ?_) | split | dsimp only

theorem launchOf_keeps {s : State} {c : Nat} {b : List Byte}  {u0 : State} (eK : launchOf s c b = .ok u0) (hK : Keeps sK s) : Keeps sK u0 := by
  unfold launchOf at eK
  try dsimp only at eK
  repeat' first | split at eK | (rw [Option.map_eq_some_iff] at eK; obtain ⟨_, _, eK⟩ := eK; try dsimp only at eK) | (rw [Option.bind_eq_some_iff] at eK; obtain ⟨_, _, eK⟩ := eK; try dsimp only at eK)
  all_goals (try first | (injection eK with eK; subst eK) | (injection eK; done) | subst eK)
  all_goals (repeat' first | with_reducible assumption | with_reducible exact Keeps.refl _ | fail_if_no_progress (with_reducible refine keeps_mk ?_) | with_reducible refine keeps_ite (fun _ => ?_) (fun _ => ?_) | split | dsimp only | with_reducible refine buildRoot_keeps (by assumption) ?_ | (injection eK; done) | (injection eK with eK; subst eK))

theorem refuseLaunch_keeps {s : State} {c code ipa done : Nat}  (hK : Keeps sK s) : Keeps sK (refuseLaunch s c code ipa done) := by
  unfold refuseLaunch
  try dsimp only
  repeat' first | with_reducible assumption | with_reducible exact Keeps.refl _ | with_reducible refine writeDone_keeps ?_ | with_reducible refine pushErr_keeps ?_ | fail_if_no_progress (with_reducible refine keeps_mk ?_) | with_reducible refine keeps_ite (fun _ => ?_) (fun _ => ?_) | split | dsimp only

theorem consumeRecord_keeps {s : State} {c : Nat}  (hK : Keeps sK s) : Keeps sK (consumeRecord s c) := by
  unfold consumeRecord
  try dsimp only
  repeat' first | with_reducible assumption | with_reducible exact Keeps.refl _ | with_reducible refine markIpas_keeps ?_ | with_reducible refine setComp_keeps ?_ | with_reducible refine refuseLaunch_keeps ?_ | with_reducible refine markObject_keeps ?_ | with_reducible refine writeDone_keeps ?_ | fail_if_no_progress (with_reducible refine keeps_mk ?_) | with_reducible refine keeps_ite (fun _ => ?_) (fun _ => ?_) | split | dsimp only | with_reducible refine launchOf_keeps (by assumption) ?_

theorem execLaunchRecord_keeps {comp' : Nat} {s : State}  {u0 : State} (eK : execLaunchRecord comp' s = .next u0) (hK : Keeps sK s) : Keeps sK u0 := by
  unfold execLaunchRecord at eK
  try dsimp only at eK
  refine occur_keeps (fun s hK => ?_) eK hK
  try dsimp only
  repeat' first | with_reducible assumption | with_reducible exact Keeps.refl _ | with_reducible refine consumeRecord_keeps ?_ | fail_if_no_progress (with_reducible refine keeps_mk ?_) | intro _ hk | with_reducible refine keeps_ite (fun _ => ?_) (fun _ => ?_) | split | dsimp only

theorem launchMessage_keeps {s : State} {c : Nat}  (hK : Keeps sK s) : Keeps sK (launchMessage s c) := by
  unfold launchMessage
  try dsimp only
  repeat' first | with_reducible assumption | with_reducible exact Keeps.refl _ | with_reducible refine setComp_keeps ?_ | with_reducible refine pushErr_keeps ?_ | with_reducible refine markObject_keeps ?_ | with_reducible refine refuseLaunch_keeps ?_ | with_reducible refine launchCrew_keeps ?_ | with_reducible refine writeDone_keeps ?_ | fail_if_no_progress (with_reducible refine keeps_mk ?_) | with_reducible refine keeps_ite (fun _ => ?_) (fun _ => ?_) | split | dsimp only | with_reducible refine buildRoot_keeps (by assumption) ?_

theorem execMessageLaunch_keeps {comp' : Nat} {s : State}  {u0 : State} (eK : execMessageLaunch comp' s = .next u0) (hK : Keeps sK s) : Keeps sK u0 := by
  unfold execMessageLaunch at eK
  try dsimp only at eK
  refine occur_keeps (fun s hK => ?_) eK hK
  try dsimp only
  repeat' first | with_reducible assumption | with_reducible exact Keeps.refl _ | with_reducible refine launchMessage_keeps ?_ | fail_if_no_progress (with_reducible refine keeps_mk ?_) | intro _ hk | with_reducible refine keeps_ite (fun _ => ?_) (fun _ => ?_) | split | dsimp only

theorem serviceWrites_keeps {s : State} {c : Nat} {ws : List (Nat × List Byte)}  (hK : Keeps sK s) : Keeps sK (serviceWrites s c ws) := by
  unfold serviceWrites
  try dsimp only
  repeat' first | with_reducible assumption | with_reducible exact Keeps.refl _ | with_reducible refine devicePa_keeps ?_ | with_reducible refine writeProg_keeps ?_ | fail_if_no_progress (with_reducible refine keeps_mk ?_) | with_reducible refine foldl_keeps ?_ ?_ | with_reducible refine foldl1_keeps ?_ ?_ | intro _ _ hk | with_reducible refine keeps_ite (fun _ => ?_) (fun _ => ?_) | split | dsimp only | with_reducible refine devicePa_keeps_eq (by assumption) ?_

theorem serviceReturn_keeps {s : State} {key : Nat} {r : ServiceResult}  (hK : Keeps sK s) : Keeps sK (serviceReturn s key r) := by
  unfold serviceReturn
  try dsimp only
  repeat' first | with_reducible assumption | with_reducible exact Keeps.refl _ | with_reducible refine serviceEnds_keeps ?_ | with_reducible refine serviceWrites_keeps ?_ | with_reducible refine onTeam_keeps ?_ | fail_if_no_progress (with_reducible refine keeps_mk ?_) | with_reducible refine keeps_ite (fun _ => ?_) (fun _ => ?_) | split | dsimp only

theorem execScallServiceReturn_keeps {team : Nat} {r : ServiceResult} {s : State}  {u0 : State} (eK : execScallServiceReturn team r s = .next u0) (hK : Keeps sK s) : Keeps sK u0 := by
  unfold execScallServiceReturn at eK
  try dsimp only at eK
  refine occur_keeps (fun s hK => ?_) eK hK
  try dsimp only
  repeat' first | with_reducible assumption | with_reducible exact Keeps.refl _ | with_reducible refine serviceReturn_keeps ?_ | fail_if_no_progress (with_reducible refine keeps_mk ?_) | intro _ hk | with_reducible refine keeps_ite (fun _ => ?_) (fun _ => ?_) | split | dsimp only

theorem bar2Refuse_keeps {s : State} {c : Nat}  (hK : Keeps sK s) : Keeps sK (bar2Refuse s c) := by
  unfold bar2Refuse
  try dsimp only
  repeat' first | with_reducible assumption | with_reducible exact Keeps.refl _ | fail_if_no_progress (with_reducible refine keeps_mk ?_) | with_reducible refine keeps_ite (fun _ => ?_) (fun _ => ?_) | split | dsimp only

theorem bar2Read_keeps {s : State} {c a n : Nat}  (hK : Keeps sK s) : Keeps sK (bar2Read s c a n) := by
  unfold bar2Read
  try dsimp only
  repeat' first | with_reducible assumption | with_reducible exact Keeps.refl _ | with_reducible refine bar2Refuse_keeps ?_ | with_reducible refine reportUncorr_keeps ?_ | fail_if_no_progress (with_reducible refine keeps_mk ?_) | with_reducible refine getD_keeps ?_ ?_ | intro _ hk | with_reducible refine keeps_ite (fun _ => ?_) (fun _ => ?_) | split | dsimp only

theorem bar2Put_keeps {s : State} {c pa : Nat} {bs : List Byte}  (hK : Keeps sK s) : Keeps sK (bar2Put s c pa bs) := by
  unfold bar2Put
  try dsimp only
  repeat' first | with_reducible assumption | with_reducible exact Keeps.refl _ | with_reducible refine writeProg_keeps ?_ | fail_if_no_progress (with_reducible refine keeps_mk ?_) | with_reducible refine keeps_ite (fun _ => ?_) (fun _ => ?_) | split | dsimp only

theorem bar2Write_keeps {s : State} {c a : Nat} {bs : List Byte}  (hK : Keeps sK s) : Keeps sK (bar2Write s c a bs) := by
  unfold bar2Write
  try dsimp only
  repeat' first | with_reducible assumption | with_reducible exact Keeps.refl _ | with_reducible refine bar2Put_keeps ?_ | fail_if_no_progress (with_reducible refine keeps_mk ?_) | with_reducible refine foldl_keeps ?_ ?_ | with_reducible refine foldl1_keeps ?_ ?_ | intro _ _ hk | with_reducible refine keeps_ite (fun _ => ?_) (fun _ => ?_) | split | dsimp only

theorem bar2Access_keeps {s : State} {c : Nat} {a : Bar2Access} (h : Keeps sK s) : Keeps sK (bar2Access s c a) := by
  have hs : ∀ b a n w, Keeps sK (if b = true then markIpas s c a n w else s) := fun _ _ _ _ =>
    keeps_ite (fun _ => markIpas_keeps h) fun _ => h
  cases a <;> (unfold bar2Access; dsimp only)
  · exact keeps_ite (fun _ => bar2Read_keeps (hs ..)) fun _ => bar2Refuse_keeps (hs ..)
  · exact keeps_ite (fun _ => bar2Write_keeps (hs ..)) fun _ => bar2Refuse_keeps (hs ..)

theorem execHostBar2Access_keeps {comp' : Nat} {a : Bar2Access} {s : State}  {u0 : State} (eK : execHostBar2Access comp' a s = .next u0) (hK : Keeps sK s) : Keeps sK u0 := by
  unfold execHostBar2Access at eK
  try dsimp only at eK
  refine occur_keeps (fun s hK => ?_) eK hK
  try dsimp only
  repeat' first | with_reducible assumption | with_reducible exact Keeps.refl _ | with_reducible refine bar2Access_keeps ?_ | fail_if_no_progress (with_reducible refine keeps_mk ?_) | intro _ hk | with_reducible refine keeps_ite (fun _ => ?_) (fun _ => ?_) | split | dsimp only

theorem writeHeqcons_keeps {s : State} {v : Nat}  (hK : Keeps sK s) : Keeps sK (writeHeqcons s v) := by
  unfold writeHeqcons
  try dsimp only
  repeat' first | with_reducible assumption | with_reducible exact Keeps.refl _ | with_reducible refine heqFlush_keeps ?_ | fail_if_no_progress (with_reducible refine keeps_mk ?_) | with_reducible refine keeps_ite (fun _ => ?_) (fun _ => ?_) | split | dsimp only

theorem execHeqcons_keeps {v : BitVec 32} {s : State}  {u0 : State} (eK : execHeqcons v s = .next u0) (hK : Keeps sK s) : Keeps sK u0 := by
  unfold execHeqcons at eK
  try dsimp only at eK
  refine occur_keeps (fun s hK => ?_) eK hK
  try dsimp only
  repeat' first | with_reducible assumption | with_reducible exact Keeps.refl _ | with_reducible refine writeHeqcons_keeps ?_ | fail_if_no_progress (with_reducible refine keeps_mk ?_) | intro _ hk | with_reducible refine keeps_ite (fun _ => ?_) (fun _ => ?_) | split | dsimp only


end Sys2Proof.Machine
end

