-- ==== Sys2Proof/Laws/KeepsCompEvents.lean ====
section
/-! SUPPORT. What every change keeps (Keeps), for CompEvents. -/

set_option linter.unusedTactic false
set_option linter.unreachableTactic false

namespace Sys2Proof.Machine

variable {sK : State}

theorem compResult_keeps {s : State} {c r : Nat}  (hK : Keeps sK s) : Keeps sK (compResult s c r) := by
  unfold compResult
  try dsimp only
  repeat' first | with_reducible assumption | with_reducible exact Keeps.refl _ | with_reducible refine setComp_keeps ?_ | fail_if_no_progress (with_reducible refine keeps_mk ?_) | with_reducible refine keeps_ite (fun _ => ?_) (fun _ => ?_) | split | dsimp only

theorem newKey_keeps {s : State} {slot : Nat}  (hK : Keeps sK s) : Keeps sK (newKey s slot) := by
  refine ⟨hK.1, hK.2.1, fun k => Nat.le_trans (hK.2.2 k) ?_⟩
  unfold newKey
  rw [Tab.getD_put]
  split
  · subst_vars; exact Nat.le_succ _
  · exact Nat.le_refl _

theorem createComp_keeps {s : State} {c : Nat} {d : Descriptor}  (hK : Keeps sK s) : Keeps sK (createComp s c d) := by
  unfold createComp
  try dsimp only
  repeat' first | with_reducible assumption | with_reducible exact Keeps.refl _ | with_reducible refine compResult_keeps ?_ | with_reducible refine newKey_keeps ?_ | with_reducible refine setComp_keeps ?_ | with_reducible refine ownXlate_keeps ?_ | fail_if_no_progress (with_reducible refine keeps_mk ?_) | with_reducible refine keeps_ite (fun _ => ?_) (fun _ => ?_) | split | dsimp only

theorem execCreate_keeps {comp' : Nat} {d : Descriptor} {s : State}  {u0 : State} (eK : execCreate comp' d s = .next u0) (hK : Keeps sK s) : Keeps sK u0 := by
  unfold execCreate at eK
  try dsimp only at eK
  refine occur_keeps (fun s hK => ?_) eK hK
  try dsimp only
  repeat' first | with_reducible assumption | with_reducible exact Keeps.refl _ | with_reducible refine createComp_keeps ?_ | fail_if_no_progress (with_reducible refine keeps_mk ?_) | intro _ hk | with_reducible refine keeps_ite (fun _ => ?_) (fun _ => ?_) | split | dsimp only

theorem restoreCrew_keeps {s : State} {ck k : Nat}  (hK : Keeps sK s) : Keeps sK (restoreCrew s ck k) := by
  unfold restoreCrew
  try dsimp only
  repeat' first | with_reducible assumption | with_reducible exact Keeps.refl _ | with_reducible refine onTeam_keeps ?_ | with_reducible refine acquireAt_keeps ?_ | fail_if_no_progress (with_reducible refine keeps_mk ?_) | with_reducible refine foldl_keeps ?_ ?_ | with_reducible refine foldl1_keeps ?_ ?_ | intro _ _ hk | with_reducible refine keeps_ite (fun _ => ?_) (fun _ => ?_) | split | dsimp only

theorem restoreCheck_keeps {s : State} {c ck : Nat}  (hK : Keeps sK s) : Keeps sK (restoreCheck s c ck) := by
  unfold restoreCheck
  try dsimp only
  repeat' first | with_reducible assumption | with_reducible exact Keeps.refl _ | with_reducible refine onCrew_keeps ?_ | with_reducible refine pushErr_keeps ?_ | with_reducible refine restoreCrew_keeps ?_ | fail_if_no_progress (with_reducible refine keeps_mk ?_) | with_reducible refine keeps_ite (fun _ => ?_) (fun _ => ?_) | split | dsimp only

theorem startComp_keeps {s : State} {c : Nat}  (hK : Keeps sK s) : Keeps sK (startComp s c) := by
  unfold startComp
  try dsimp only
  repeat' first | with_reducible assumption | with_reducible exact Keeps.refl _ | with_reducible refine compResult_keeps ?_ | with_reducible refine setComp_keeps ?_ | with_reducible refine restoreCheck_keeps ?_ | with_reducible refine setRegionState_keeps ?_ | with_reducible refine refuse_keeps ?_ | fail_if_no_progress (with_reducible refine keeps_mk ?_) | with_reducible refine foldl_keeps ?_ ?_ | with_reducible refine foldl1_keeps ?_ ?_ | intro _ _ hk | with_reducible refine keeps_ite (fun _ => ?_) (fun _ => ?_) | split | dsimp only

theorem execStart_keeps {comp' : Nat} {s : State}  {u0 : State} (eK : execStart comp' s = .next u0) (hK : Keeps sK s) : Keeps sK u0 := by
  unfold execStart at eK
  try dsimp only at eK
  refine occur_keeps (fun s hK => ?_) eK hK
  try dsimp only
  repeat' first | with_reducible assumption | with_reducible exact Keeps.refl _ | with_reducible refine startComp_keeps ?_ | fail_if_no_progress (with_reducible refine keeps_mk ?_) | intro _ hk | with_reducible refine keeps_ite (fun _ => ?_) (fun _ => ?_) | split | dsimp only

theorem stopOp_keeps {s : State} {c : Nat}  (hK : Keeps sK s) : Keeps sK (stopOp s c) := by
  unfold stopOp
  try dsimp only
  repeat' first | with_reducible assumption | with_reducible exact Keeps.refl _ | with_reducible refine compResult_keeps ?_ | with_reducible refine setComp_keeps ?_ | with_reducible refine stopComp_keeps ?_ | fail_if_no_progress (with_reducible refine keeps_mk ?_) | with_reducible refine keeps_ite (fun _ => ?_) (fun _ => ?_) | split | dsimp only

theorem execStop_keeps {comp' : Nat} {s : State}  {u0 : State} (eK : execStop comp' s = .next u0) (hK : Keeps sK s) : Keeps sK u0 := by
  unfold execStop at eK
  try dsimp only at eK
  refine occur_keeps (fun s hK => ?_) eK hK
  try dsimp only
  repeat' first | with_reducible assumption | with_reducible exact Keeps.refl _ | with_reducible refine stopOp_keeps ?_ | fail_if_no_progress (with_reducible refine keeps_mk ?_) | intro _ hk | with_reducible refine keeps_ite (fun _ => ?_) (fun _ => ?_) | split | dsimp only

theorem leaveCores_keeps {s : State} {c : Nat} {ks : List Nat}  (hK : Keeps sK s) : Keeps sK (leaveCores s c ks) := by
  unfold leaveCores
  try dsimp only
  repeat' first | with_reducible assumption | with_reducible exact Keeps.refl _ | with_reducible refine flushL1_keeps ?_ | with_reducible refine setCore_keeps ?_ | with_reducible refine setMhz_keeps ?_ | with_reducible refine setCluster_keeps ?_ | fail_if_no_progress (with_reducible refine keeps_mk ?_) | with_reducible refine foldl_keeps ?_ ?_ | with_reducible refine foldl1_keeps ?_ ?_ | intro _ _ hk | with_reducible refine keeps_ite (fun _ => ?_) (fun _ => ?_) | split | dsimp only

theorem moveBins_keeps {s : State} {c : Nat} {ks : List Nat} {to' : Option Nat}  (hK : Keeps sK s) : Keeps sK (moveBins s c ks to') := by
  unfold moveBins
  try dsimp only
  repeat' first | with_reducible assumption | with_reducible exact Keeps.refl _ | with_reducible refine setCore_keeps ?_ | fail_if_no_progress (with_reducible refine keeps_mk ?_) | with_reducible refine foldl_keeps ?_ ?_ | with_reducible refine foldl1_keeps ?_ ?_ | intro _ _ hk | with_reducible refine keeps_ite (fun _ => ?_) (fun _ => ?_) | split | dsimp only

theorem joinCores_keeps {s : State} {from' : Nat} {ks : List Nat}  (hK : Keeps sK s) : Keeps sK (joinCores s from' ks) := by
  unfold joinCores
  try dsimp only
  repeat' first | with_reducible assumption | with_reducible exact Keeps.refl _ | with_reducible refine setCore_keeps ?_ | fail_if_no_progress (with_reducible refine keeps_mk ?_) | with_reducible refine foldl_keeps ?_ ?_ | with_reducible refine foldl1_keeps ?_ ?_ | intro _ _ hk | with_reducible refine keeps_ite (fun _ => ?_) (fun _ => ?_) | split | dsimp only

theorem takeClusters_keeps {s : State} {c : Nat} {clusters : BitVec 16}  (hK : Keeps sK s) : Keeps sK (takeClusters s c clusters) := by
  unfold takeClusters
  try dsimp only
  repeat' first | with_reducible assumption | with_reducible exact Keeps.refl _ | with_reducible refine setComp_keeps ?_ | with_reducible refine leaveCores_keeps ?_ | with_reducible refine moveBins_keeps ?_ | with_reducible refine joinCores_keeps ?_ | with_reducible refine setMhz_keeps ?_ | with_reducible refine refuse_keeps ?_ | fail_if_no_progress (with_reducible refine keeps_mk ?_) | with_reducible refine foldl_keeps ?_ ?_ | with_reducible refine foldl1_keeps ?_ ?_ | intro _ _ hk | with_reducible refine keeps_ite (fun _ => ?_) (fun _ => ?_) | split | dsimp only

theorem unseat_keeps {s : State} {c : Nat}  (hK : Keeps sK s) : Keeps sK (unseat s c) := by
  unfold unseat
  try dsimp only
  repeat' first | with_reducible assumption | with_reducible exact Keeps.refl _ | with_reducible refine evict_keeps ?_ | with_reducible refine onCrew_keeps ?_ | fail_if_no_progress (with_reducible refine keeps_mk ?_) | with_reducible refine foldl_keeps ?_ ?_ | with_reducible refine foldl1_keeps ?_ ?_ | intro _ _ hk | with_reducible refine keeps_ite (fun _ => ?_) (fun _ => ?_) | split | dsimp only

theorem resizeComp_keeps {s : State} {c : Nat} {clusters : BitVec 16}  (hK : Keeps sK s) : Keeps sK (resizeComp s c clusters) := by
  unfold resizeComp
  try dsimp only
  repeat' first | with_reducible assumption | with_reducible exact Keeps.refl _ | with_reducible refine compResult_keeps ?_ | with_reducible refine setComp_keeps ?_ | with_reducible refine takeClusters_keeps ?_ | with_reducible refine unseat_keeps ?_ | fail_if_no_progress (with_reducible refine keeps_mk ?_) | with_reducible refine foldl_keeps ?_ ?_ | with_reducible refine foldl1_keeps ?_ ?_ | intro _ _ hk | with_reducible refine getD_keeps ?_ ?_ | intro _ hk | with_reducible refine keeps_ite (fun _ => ?_) (fun _ => ?_) | split | dsimp only

theorem execResize_keeps {comp' : Nat} {clusters : BitVec 16} {s : State}  {u0 : State} (eK : execResize comp' clusters s = .next u0) (hK : Keeps sK s) : Keeps sK u0 := by
  unfold execResize at eK
  try dsimp only at eK
  refine occur_keeps (fun s hK => ?_) eK hK
  try dsimp only
  repeat' first | with_reducible assumption | with_reducible exact Keeps.refl _ | with_reducible refine resizeComp_keeps ?_ | fail_if_no_progress (with_reducible refine keeps_mk ?_) | intro _ hk | with_reducible refine keeps_ite (fun _ => ?_) (fun _ => ?_) | split | dsimp only

theorem moveOff_keeps {s : State} {ck : Nat} {c : Crew} {old : Nat}  (hK : Keeps sK s) : Keeps sK (moveOff s ck c old) := by
  unfold moveOff
  try dsimp only
  repeat' first | with_reducible assumption | with_reducible exact Keeps.refl _ | with_reducible refine dropForwards_keeps ?_ | with_reducible refine evict_keeps ?_ | with_reducible refine moveReqs_keeps ?_ | with_reducible refine moveOrder_keeps ?_ | with_reducible refine giveWays_keeps ?_ | with_reducible refine onCrew_keeps ?_ | with_reducible refine onTeam_keeps ?_ | with_reducible refine setCore_keeps ?_ | fail_if_no_progress (with_reducible refine keeps_mk ?_) | with_reducible refine foldl_keeps ?_ ?_ | with_reducible refine foldl1_keeps ?_ ?_ | intro _ _ hk | with_reducible refine keeps_ite (fun _ => ?_) (fun _ => ?_) | split | dsimp only

theorem wantElsewhere_keeps {s : State} {ck : Nat} {c : Crew} {old : Nat}  (hK : Keeps sK s) : Keeps sK (wantElsewhere s ck c old) := by
  unfold wantElsewhere
  try dsimp only
  repeat' first | with_reducible assumption | with_reducible exact Keeps.refl _ | with_reducible refine onCrew_keeps ?_ | with_reducible refine onTeam_keeps ?_ | fail_if_no_progress (with_reducible refine keeps_mk ?_) | with_reducible refine foldl_keeps ?_ ?_ | with_reducible refine foldl1_keeps ?_ ?_ | intro _ _ hk | with_reducible refine keeps_ite (fun _ => ?_) (fun _ => ?_) | split | dsimp only

theorem leaveCore_keeps {s : State} {l : Leaving} {ck : Nat}  (hK : Keeps sK s) : Keeps sK (leaveCore s l ck) := by
  unfold leaveCore
  try dsimp only
  repeat' first | with_reducible assumption | with_reducible exact Keeps.refl _ | with_reducible refine moveOff_keeps ?_ | with_reducible refine wantElsewhere_keeps ?_ | fail_if_no_progress (with_reducible refine keeps_mk ?_) | with_reducible refine keeps_ite (fun _ => ?_) (fun _ => ?_) | split | dsimp only

theorem endLeaving_keeps {s : State} {c : Nat} {l : Leaving}  (hK : Keeps sK s) : Keeps sK (endLeaving s c l) := by
  unfold endLeaving
  try dsimp only
  repeat' first | with_reducible assumption | with_reducible exact Keeps.refl _ | with_reducible refine compResult_keeps ?_ | with_reducible refine takeClusters_keeps ?_ | with_reducible refine setComp_keeps ?_ | fail_if_no_progress (with_reducible refine keeps_mk ?_) | with_reducible refine keeps_ite (fun _ => ?_) (fun _ => ?_) | split | dsimp only

theorem advanceLeaving_keeps {s : State} {c : Nat}  (hK : Keeps sK s) : Keeps sK (advanceLeaving s c) := by
  unfold advanceLeaving
  try dsimp only
  repeat' first | with_reducible assumption | with_reducible exact Keeps.refl _ | with_reducible refine endLeaving_keeps ?_ | with_reducible refine unseat_keeps ?_ | with_reducible refine setComp_keeps ?_ | with_reducible refine stopCrew_keeps ?_ | with_reducible refine leaveCore_keeps ?_ | fail_if_no_progress (with_reducible refine keeps_mk ?_) | with_reducible refine foldl_keeps ?_ ?_ | with_reducible refine foldl1_keeps ?_ ?_ | intro _ _ hk | with_reducible refine keeps_ite (fun _ => ?_) (fun _ => ?_) | split | dsimp only

theorem startLate_keeps {s : State} {c : Nat}  (hK : Keeps sK s) : Keeps sK (startLate s c) := by
  unfold startLate
  try dsimp only
  repeat' first | with_reducible assumption | with_reducible exact Keeps.refl _ | with_reducible refine startComp_keeps ?_ | with_reducible refine setComp_keeps ?_ | fail_if_no_progress (with_reducible refine keeps_mk ?_) | with_reducible refine keeps_ite (fun _ => ?_) (fun _ => ?_) | split | dsimp only

theorem finishQueued_keeps {s : State} {c : Nat}  (hK : Keeps sK s) : Keeps sK (finishQueued s c).1 := by
  unfold finishQueued
  try dsimp only
  repeat' first | with_reducible assumption | with_reducible exact Keeps.refl _ | with_reducible refine runReq_keeps ?_ | fail_if_no_progress (with_reducible refine keeps_mk ?_) | with_reducible refine foldl_keeps ?_ ?_ | with_reducible refine foldl1_keeps ?_ ?_ | intro _ _ hk | with_reducible refine keeps_ite (fun _ => ?_) (fun _ => ?_) | split | dsimp only

theorem finishQueued_keeps_eq {s : State} {c : Nat} {u0 : State} {q0 : _} (eK : finishQueued s c = (u0, q0)) (hK : Keeps sK s) : Keeps sK u0 := by
  have := finishQueued_keeps (sK := sK) (s := s) (c := c) hK; rw [eK] at this; exact this

theorem discardWork_keeps {s : State} {c : Nat}  (hK : Keeps sK s) : Keeps sK (discardWork s c).1 := by
  unfold discardWork
  try dsimp only
  repeat' first | with_reducible assumption | with_reducible exact Keeps.refl _ | with_reducible refine countPasses_keeps ?_ | fail_if_no_progress (with_reducible refine keeps_mk ?_) | with_reducible refine foldl_keeps ?_ ?_ | with_reducible refine foldl1_keeps ?_ ?_ | intro _ _ hk | with_reducible refine keeps_ite (fun _ => ?_) (fun _ => ?_) | split | dsimp only

theorem discardWork_keeps_eq {s : State} {c : Nat} {u0 : State} {q0 : _} (eK : discardWork s c = (u0, q0)) (hK : Keeps sK s) : Keeps sK u0 := by
  have := discardWork_keeps (sK := sK) (s := s) (c := c) hK; rw [eK] at this; exact this

theorem loseStreams_keeps {s : State} {c : Nat}  (hK : Keeps sK s) : Keeps sK (loseStreams s c).1 := by
  unfold loseStreams
  try dsimp only
  repeat' first | with_reducible assumption | with_reducible exact Keeps.refl _ | with_reducible refine loseWrites_keeps ?_ | fail_if_no_progress (with_reducible refine keeps_mk ?_) | with_reducible refine foldl_keeps ?_ ?_ | with_reducible refine foldl1_keeps ?_ ?_ | intro _ _ hk | with_reducible refine keeps_ite (fun _ => ?_) (fun _ => ?_) | split | dsimp only

theorem loseStreams_keeps_eq {s : State} {c : Nat} {u0 : State} {q0 : _} (eK : loseStreams s c = (u0, q0)) (hK : Keeps sK s) : Keeps sK u0 := by
  have := loseStreams_keeps (sK := sK) (s := s) (c := c) hK; rw [eK] at this; exact this

theorem dropClaims_keeps {s : State} {c : Nat}  (hK : Keeps sK s) : Keeps sK (dropClaims s c).1 := by
  unfold dropClaims
  try dsimp only
  repeat' first | with_reducible assumption | with_reducible exact Keeps.refl _ | with_reducible refine setCore_keeps ?_ | fail_if_no_progress (with_reducible refine keeps_mk ?_) | with_reducible refine foldl_keeps ?_ ?_ | with_reducible refine foldl1_keeps ?_ ?_ | intro _ _ hk | with_reducible refine keeps_ite (fun _ => ?_) (fun _ => ?_) | split | dsimp only

theorem dropClaims_keeps_eq {s : State} {c : Nat} {u0 : State} {q0 : _} (eK : dropClaims s c = (u0, q0)) (hK : Keeps sK s) : Keeps sK u0 := by
  have := dropClaims_keeps (sK := sK) (s := s) (c := c) hK; rw [eK] at this; exact this

theorem beginReset_keeps {s : State} {c kind : Nat} {free : Bool}  (hK : Keeps sK s) : Keeps sK (beginReset s c kind free) := by
  unfold beginReset
  try dsimp only
  repeat' first | with_reducible assumption | with_reducible exact Keeps.refl _ | with_reducible refine setComp_keeps ?_ | with_reducible refine setCore_keeps ?_ | with_reducible refine finishQueued_keeps ?_ | with_reducible refine discardWork_keeps ?_ | with_reducible refine loseStreams_keeps ?_ | with_reducible refine dropClaims_keeps ?_ | fail_if_no_progress (with_reducible refine keeps_mk ?_) | with_reducible refine foldl_keeps ?_ ?_ | with_reducible refine foldl1_keeps ?_ ?_ | intro _ _ hk | with_reducible refine keeps_ite (fun _ => ?_) (fun _ => ?_) | split | dsimp only | with_reducible refine finishQueued_keeps_eq (by assumption) ?_ | with_reducible refine discardWork_keeps_eq (by assumption) ?_ | with_reducible refine loseStreams_keeps_eq (by assumption) ?_ | with_reducible refine dropClaims_keeps_eq (by assumption) ?_

theorem scrub_keeps {s : State} {c : Nat}  (hK : Keeps sK s) : Keeps sK (scrub s c) := by
  unfold scrub
  try dsimp only
  repeat' first | with_reducible assumption | with_reducible exact Keeps.refl _ | with_reducible refine endStint_keeps ?_ | with_reducible refine setMhz_keeps ?_ | with_reducible refine forgetLine_keeps ?_ | fail_if_no_progress (with_reducible refine keeps_mk ?_) | with_reducible refine foldl_keeps ?_ ?_ | with_reducible refine foldl1_keeps ?_ ?_ | intro _ _ hk | with_reducible refine keeps_ite (fun _ => ?_) (fun _ => ?_) | split | dsimp only

theorem endReset_keeps {s : State} {c : Nat}  (hK : Keeps sK s) : Keeps sK (endReset s c) := by
  unfold endReset
  try dsimp only
  repeat' first | with_reducible assumption | with_reducible exact Keeps.refl _ | with_reducible refine newKey_keeps ?_ | with_reducible refine scrub_keeps ?_ | with_reducible refine pushHeq_keeps ?_ | with_reducible refine setComp_keeps ?_ | fail_if_no_progress (with_reducible refine keeps_mk ?_) | with_reducible refine keeps_ite (fun _ => ?_) (fun _ => ?_) | split | dsimp only

theorem execResetCompletion_keeps {comp' : Nat} {s : State}  {u0 : State} (eK : execResetCompletion comp' s = .next u0) (hK : Keeps sK s) : Keeps sK u0 := by
  unfold execResetCompletion at eK
  try dsimp only at eK
  refine occur_keeps (fun s hK => ?_) eK hK
  try dsimp only
  repeat' first | with_reducible assumption | with_reducible exact Keeps.refl _ | with_reducible refine endReset_keeps ?_ | fail_if_no_progress (with_reducible refine keeps_mk ?_) | intro _ hk | with_reducible refine keeps_ite (fun _ => ?_) (fun _ => ?_) | split | dsimp only

theorem execFlr_keeps {comp' : Nat} {s : State}  {u0 : State} (eK : execFlr comp' s = .next u0) (hK : Keeps sK s) : Keeps sK u0 := by
  unfold execFlr at eK
  try dsimp only at eK
  refine occur_keeps (fun s hK => ?_) eK hK
  try dsimp only
  repeat' first | with_reducible assumption | with_reducible exact Keeps.refl _ | with_reducible refine beginReset_keeps ?_ | fail_if_no_progress (with_reducible refine keeps_mk ?_) | intro _ hk | with_reducible refine keeps_ite (fun _ => ?_) (fun _ => ?_) | split | dsimp only

theorem destroyComp_keeps {s : State} {c : Nat}  (hK : Keeps sK s) : Keeps sK (destroyComp s c) := by
  unfold destroyComp
  try dsimp only
  repeat' first | with_reducible assumption | with_reducible exact Keeps.refl _ | with_reducible refine beginReset_keeps ?_ | with_reducible refine compResult_keeps ?_ | with_reducible refine setComp_keeps ?_ | fail_if_no_progress (with_reducible refine keeps_mk ?_) | with_reducible refine keeps_ite (fun _ => ?_) (fun _ => ?_) | split | dsimp only

theorem execDestroy_keeps {comp' : Nat} {s : State}  {u0 : State} (eK : execDestroy comp' s = .next u0) (hK : Keeps sK s) : Keeps sK u0 := by
  unfold execDestroy at eK
  try dsimp only at eK
  refine occur_keeps (fun s hK => ?_) eK hK
  try dsimp only
  repeat' first | with_reducible assumption | with_reducible exact Keeps.refl _ | with_reducible refine destroyComp_keeps ?_ | fail_if_no_progress (with_reducible refine keeps_mk ?_) | intro _ hk | with_reducible refine keeps_ite (fun _ => ?_) (fun _ => ?_) | split | dsimp only


end Sys2Proof.Machine
end

