-- ==== Sys2Proof/Laws/KeepsRegWrite.lean ====
section
/-! SUPPORT. What every change keeps (Keeps), for RegWrite. -/

set_option linter.unusedTactic false
set_option linter.unreachableTactic false

namespace Sys2Proof.Machine

variable {sK : State}

theorem writeFilter_keeps {s : State} {off v : Nat}  (hK : Keeps sK s) : Keeps sK (writeFilter s off v) := by
  unfold writeFilter
  try dsimp only
  repeat' first | with_reducible assumption | with_reducible exact Keeps.refl _ | with_reducible refine unlessFrozen_keeps ?_ ?_ | fail_if_no_progress (with_reducible refine keeps_mk ?_) | intro _ hk | with_reducible refine getD_keeps ?_ ?_ | intro _ hk | with_reducible refine keeps_ite (fun _ => ?_) (fun _ => ?_) | split | dsimp only

theorem writeHeq_keeps {s : State} {off v : Nat}  (hK : Keeps sK s) : Keeps sK (writeHeq s off v) := by
  unfold writeHeq
  try dsimp only
  repeat' first | with_reducible assumption | with_reducible exact Keeps.refl _ | with_reducible refine heqFlush_keeps ?_ | with_reducible refine writeHeqcons_keeps ?_ | fail_if_no_progress (with_reducible refine keeps_mk ?_) | with_reducible refine keeps_ite (fun _ => ?_) (fun _ => ?_) | split | dsimp only

theorem writeDev_keeps {s : State} {off v : Nat}  (hK : Keeps sK s) : Keeps sK (writeDev s off v) := by
  unfold writeDev
  try dsimp only
  repeat' first | with_reducible assumption | with_reducible exact Keeps.refl _ | with_reducible refine clearEngerr_keeps ?_ | with_reducible refine writeTrain_keeps ?_ | with_reducible refine writeLinkcfg_keeps ?_ | with_reducible refine writeFilter_keeps ?_ | with_reducible refine writeHeq_keeps ?_ | fail_if_no_progress (with_reducible refine keeps_mk ?_) | with_reducible refine keeps_ite (fun _ => ?_) (fun _ => ?_) | split | dsimp only

theorem writeVf_keeps {s : State} {c off v : Nat}  (hK : Keeps sK s) : Keeps sK (writeVf s c off v) := by
  unfold writeVf
  try dsimp only
  repeat' first | with_reducible assumption | with_reducible exact Keeps.refl _ | with_reducible refine setComp_keeps ?_ | with_reducible refine ringDoorbell_keeps ?_ | with_reducible refine errFlush_keeps ?_ | fail_if_no_progress (with_reducible refine keeps_mk ?_) | with_reducible refine keeps_ite (fun _ => ?_) (fun _ => ?_) | split | dsimp only

theorem writeVfConfig_keeps {s : State} {c reg v : Nat}  (hK : Keeps sK s) : Keeps sK (writeVfConfig s c reg v) := by
  unfold writeVfConfig
  try dsimp only
  repeat' first | with_reducible assumption | with_reducible exact Keeps.refl _ | with_reducible refine unlessFrozen_keeps ?_ ?_ | with_reducible refine setComp_keeps ?_ | fail_if_no_progress (with_reducible refine keeps_mk ?_) | intro _ hk | with_reducible refine getD_keeps ?_ ?_ | intro _ hk | with_reducible refine keeps_ite (fun _ => ?_) (fun _ => ?_) | split | dsimp only

theorem writeDesc_keeps {s : State} {c off v : Nat}  (hK : Keeps sK s) : Keeps sK (writeDesc s c off v) := by
  unfold writeDesc
  try dsimp only
  repeat' first | with_reducible assumption | with_reducible exact Keeps.refl _ | with_reducible refine setComp_keeps ?_ | with_reducible refine unlessFrozen_keeps ?_ ?_ | fail_if_no_progress (with_reducible refine keeps_mk ?_) | intro _ hk | with_reducible refine keeps_ite (fun _ => ?_) (fun _ => ?_) | split | dsimp only

theorem writeXlate_keeps {s : State} {c off v : Nat}  (hK : Keeps sK s) : Keeps sK (writeXlate s c off v) := by
  unfold writeXlate
  try dsimp only
  repeat' first | with_reducible assumption | with_reducible exact Keeps.refl _ | with_reducible refine writeHome_keeps ?_ | with_reducible refine unlessFrozen_keeps ?_ ?_ | fail_if_no_progress (with_reducible refine keeps_mk ?_) | intro _ hk | with_reducible refine keeps_ite (fun _ => ?_) (fun _ => ?_) | split | dsimp only

theorem writeExport_keeps {s : State} {c i v : Nat} {limit : Bool}  (hK : Keeps sK s) : Keeps sK (writeExport s c i v limit) := by
  unfold writeExport
  try dsimp only
  repeat' first | with_reducible assumption | with_reducible exact Keeps.refl _ | with_reducible refine unlessFrozen_keeps ?_ ?_ | with_reducible refine setComp_keeps ?_ | fail_if_no_progress (with_reducible refine keeps_mk ?_) | intro _ hk | with_reducible refine getD_keeps ?_ ?_ | intro _ hk | with_reducible refine keeps_ite (fun _ => ?_) (fun _ => ?_) | split | dsimp only

theorem writeBreak_keeps {s : State} {c team pc : Nat} {on : Bool}  (hK : Keeps sK s) : Keeps sK (writeBreak s c team pc on) := by
  unfold writeBreak
  try dsimp only
  repeat' first | with_reducible assumption | with_reducible exact Keeps.refl _ | with_reducible refine setComp_keeps ?_ | fail_if_no_progress (with_reducible refine keeps_mk ?_) | with_reducible refine keeps_ite (fun _ => ?_) (fun _ => ?_) | split | dsimp only

theorem writeReg_keeps {s : State} {v : Nat} {x : RegTarget} (h : Keeps sK s) : Keeps sK (writeReg s v x) := by
  cases x <;> unfold writeReg <;> dsimp only <;> (try split) <;>
    first | exact h | exact writeDev_keeps h | exact writeVf_keeps h | exact writeVfConfig_keeps h | exact writeDesc_keeps h | exact writeXlate_keeps h | exact writeExport_keeps h | exact level2Begin_keeps h | exact writeBreak_keeps h

theorem execRegisterWrite_keeps {t : RegTarget} {v : BitVec 64} {s : State}  {u0 : State} (eK : execRegisterWrite t v s = .next u0) (hK : Keeps sK s) : Keeps sK u0 := by
  unfold execRegisterWrite at eK
  try dsimp only at eK
  refine occur_keeps (fun s hK => ?_) eK hK
  try dsimp only
  repeat' first | with_reducible assumption | with_reducible exact Keeps.refl _ | with_reducible refine writeReg_keeps ?_ | fail_if_no_progress (with_reducible refine keeps_mk ?_) | intro _ hk | with_reducible refine keeps_ite (fun _ => ?_) (fun _ => ?_) | split | dsimp only


end Sys2Proof.Machine
end

