-- ==== Sys2Proof/Laws/KeepsSecEvents.lean ====
section
/-! SUPPORT. What every change keeps (Keeps), for SecEvents. -/

set_option linter.unusedTactic false
set_option linter.unreachableTactic false

namespace Sys2Proof.Machine

variable {sK : State}

theorem spdmOut_keeps {s : State} {b : List Byte}  (hK : Keeps sK s) : Keeps sK (spdmOut s b) := by
  unfold spdmOut
  try dsimp only
  repeat' first | with_reducible assumption | with_reducible exact Keeps.refl _ | fail_if_no_progress (with_reducible refine keeps_mk ?_) | with_reducible refine keeps_ite (fun _ => ?_) (fun _ => ?_) | split | dsimp only

theorem spdmError_keeps {s : State} {err data : Nat}  (hK : Keeps sK s) : Keeps sK (spdmError s err data) := by
  unfold spdmError
  try dsimp only
  repeat' first | with_reducible assumption | with_reducible exact Keeps.refl _ | with_reducible refine spdmOut_keeps ?_ | fail_if_no_progress (with_reducible refine keeps_mk ?_) | with_reducible refine keeps_ite (fun _ => ?_) (fun _ => ?_) | split | dsimp only

theorem spdmReply_keeps {s : State} {code p1 p2 : Nat} {content : List Byte}  (hK : Keeps sK s) : Keeps sK (spdmReply s code p1 p2 content) := by
  unfold spdmReply
  try dsimp only
  repeat' first | with_reducible assumption | with_reducible exact Keeps.refl _ | with_reducible refine spdmOut_keeps ?_ | fail_if_no_progress (with_reducible refine keeps_mk ?_) | with_reducible refine keeps_ite (fun _ => ?_) (fun _ => ?_) | split | dsimp only

theorem spdmEvent_keeps {f : State → State} {s : State} (h_f : ∀  s, Keeps sK s → Keeps sK (f  s))  {u0 : State} (eK : spdmEvent f s = .next u0) (hK : Keeps sK s) : Keeps sK u0 := by
  unfold spdmEvent at eK
  try dsimp only at eK
  refine occur_keeps (fun s hK => ?_) eK hK
  try dsimp only
  repeat' first | with_reducible assumption | with_reducible exact Keeps.refl _ | with_reducible refine h_f _ ?_ | fail_if_no_progress (with_reducible refine keeps_mk ?_) | intro _ hk | with_reducible refine keeps_ite (fun _ => ?_) (fun _ => ?_) | split | dsimp only

theorem fromPhase_keeps {n : Nat} {f : State → State} {s : State} (h_f : ∀  s, Keeps sK s → Keeps sK (f  s))  (hK : Keeps sK s) : Keeps sK (fromPhase n f s) := by
  unfold fromPhase
  try dsimp only
  repeat' first | with_reducible assumption | with_reducible exact Keeps.refl _ | with_reducible refine h_f _ ?_ | with_reducible refine spdmError_keeps ?_ | fail_if_no_progress (with_reducible refine keeps_mk ?_) | with_reducible refine keeps_ite (fun _ => ?_) (fun _ => ?_) | split | dsimp only

theorem onSce_keeps {s : State} {f : Sce → Sce}  (hK : Keeps sK s) : Keeps sK (onSce s f) := by
  unfold onSce
  try dsimp only
  repeat' first | with_reducible assumption | with_reducible exact Keeps.refl _ | fail_if_no_progress (with_reducible refine keeps_mk ?_) | with_reducible refine keeps_ite (fun _ => ?_) (fun _ => ?_) | split | dsimp only

theorem signed_keeps {s : State} {b : List Byte}  (hK : Keeps sK s) : Keeps sK (signed s b).1 := by
  unfold signed
  try dsimp only
  repeat' first | with_reducible assumption | with_reducible exact Keeps.refl _ | with_reducible refine onSce_keeps ?_ | fail_if_no_progress (with_reducible refine keeps_mk ?_) | with_reducible refine keeps_ite (fun _ => ?_) (fun _ => ?_) | split | dsimp only

theorem signed_keeps_eq {s : State} {b : List Byte} {u0 : State} {q0 : _} (eK : signed s b = (u0, q0)) (hK : Keeps sK s) : Keeps sK u0 := by
  have := signed_keeps (sK := sK) (s := s) (b := b) hK; rw [eK] at this; exact this

theorem execGetVersion_keeps {m : Spdm} {s : State}  {u0 : State} (eK : execGetVersion m s = .next u0) (hK : Keeps sK s) : Keeps sK u0 := by
  unfold execGetVersion at eK
  try dsimp only at eK
  refine spdmEvent_keeps (fun s hK => ?_) eK hK
  try dsimp only
  repeat' first | with_reducible assumption | with_reducible exact Keeps.refl _ | with_reducible refine spdmReply_keeps ?_ | with_reducible refine onSce_keeps ?_ | fail_if_no_progress (with_reducible refine keeps_mk ?_) | intro _ hk | with_reducible refine keeps_ite (fun _ => ?_) (fun _ => ?_) | split | dsimp only

theorem execGetCapabilities_keeps {m : Spdm} {s : State}  {u0 : State} (eK : execGetCapabilities m s = .next u0) (hK : Keeps sK s) : Keeps sK u0 := by
  unfold execGetCapabilities at eK
  try dsimp only at eK
  refine spdmEvent_keeps (fun s hK => ?_) eK hK
  try dsimp only
  repeat' first | with_reducible assumption | with_reducible exact Keeps.refl _ | with_reducible refine fromPhase_keeps ?_ ?_ | with_reducible refine spdmReply_keeps ?_ | with_reducible refine onSce_keeps ?_ | fail_if_no_progress (with_reducible refine keeps_mk ?_) | intro _ hk | with_reducible refine keeps_ite (fun _ => ?_) (fun _ => ?_) | split | dsimp only

theorem execNegotiateAlgorithms_keeps {m : Spdm} {s : State}  {u0 : State} (eK : execNegotiateAlgorithms m s = .next u0) (hK : Keeps sK s) : Keeps sK u0 := by
  unfold execNegotiateAlgorithms at eK
  try dsimp only at eK
  refine spdmEvent_keeps (fun s hK => ?_) eK hK
  try dsimp only
  repeat' first | with_reducible assumption | with_reducible exact Keeps.refl _ | with_reducible refine fromPhase_keeps ?_ ?_ | with_reducible refine spdmReply_keeps ?_ | with_reducible refine onSce_keeps ?_ | with_reducible refine spdmError_keeps ?_ | fail_if_no_progress (with_reducible refine keeps_mk ?_) | intro _ hk | with_reducible refine keeps_ite (fun _ => ?_) (fun _ => ?_) | split | dsimp only

theorem execGetDigests_keeps {m : Spdm} {s : State}  {u0 : State} (eK : execGetDigests m s = .next u0) (hK : Keeps sK s) : Keeps sK u0 := by
  unfold execGetDigests at eK
  try dsimp only at eK
  refine spdmEvent_keeps (fun s hK => ?_) eK hK
  try dsimp only
  repeat' first | with_reducible assumption | with_reducible exact Keeps.refl _ | with_reducible refine fromPhase_keeps ?_ ?_ | with_reducible refine spdmReply_keeps ?_ | fail_if_no_progress (with_reducible refine keeps_mk ?_) | intro _ hk | with_reducible refine keeps_ite (fun _ => ?_) (fun _ => ?_) | split | dsimp only

theorem withSlot_keeps {m : Spdm} {f : State → State} {s : State} (h_f : ∀  s, Keeps sK s → Keeps sK (f  s))  (hK : Keeps sK s) : Keeps sK (withSlot m f s) := by
  unfold withSlot
  try dsimp only
  repeat' first | with_reducible assumption | with_reducible exact Keeps.refl _ | with_reducible refine h_f _ ?_ | with_reducible refine spdmError_keeps ?_ | fail_if_no_progress (with_reducible refine keeps_mk ?_) | with_reducible refine keeps_ite (fun _ => ?_) (fun _ => ?_) | split | dsimp only

theorem execGetCertificate_keeps {m : Spdm} {s : State}  {u0 : State} (eK : execGetCertificate m s = .next u0) (hK : Keeps sK s) : Keeps sK u0 := by
  unfold execGetCertificate at eK
  try dsimp only at eK
  refine spdmEvent_keeps (fun s hK => ?_) eK hK
  try dsimp only
  repeat' first | with_reducible assumption | with_reducible exact Keeps.refl _ | with_reducible refine fromPhase_keeps ?_ ?_ | with_reducible refine withSlot_keeps ?_ ?_ | with_reducible refine spdmReply_keeps ?_ | fail_if_no_progress (with_reducible refine keeps_mk ?_) | intro _ hk | with_reducible refine keeps_ite (fun _ => ?_) (fun _ => ?_) | split | dsimp only

theorem execChallenge_keeps {m : Spdm} {s : State}  {u0 : State} (eK : execChallenge m s = .next u0) (hK : Keeps sK s) : Keeps sK u0 := by
  unfold execChallenge at eK
  try dsimp only at eK
  refine spdmEvent_keeps (fun s hK => ?_) eK hK
  try dsimp only
  repeat' first | with_reducible assumption | with_reducible exact Keeps.refl _ | with_reducible refine fromPhase_keeps ?_ ?_ | with_reducible refine withSlot_keeps ?_ ?_ | with_reducible refine signed_keeps ?_ | with_reducible refine spdmReply_keeps ?_ | fail_if_no_progress (with_reducible refine keeps_mk ?_) | intro _ hk | with_reducible refine keeps_ite (fun _ => ?_) (fun _ => ?_) | split | dsimp only | with_reducible refine signed_keeps_eq (by assumption) ?_

theorem execGetMeasurements_keeps {m : Spdm} {s : State}  {u0 : State} (eK : execGetMeasurements m s = .next u0) (hK : Keeps sK s) : Keeps sK u0 := by
  unfold execGetMeasurements at eK
  try dsimp only at eK
  refine spdmEvent_keeps (fun s hK => ?_) eK hK
  try dsimp only
  repeat' first | with_reducible assumption | with_reducible exact Keeps.refl _ | with_reducible refine fromPhase_keeps ?_ ?_ | with_reducible refine spdmError_keeps ?_ | with_reducible refine signed_keeps ?_ | with_reducible refine spdmReply_keeps ?_ | fail_if_no_progress (with_reducible refine keeps_mk ?_) | intro _ hk | with_reducible refine keeps_ite (fun _ => ?_) (fun _ => ?_) | split | dsimp only | with_reducible refine signed_keeps_eq (by assumption) ?_

theorem execKeyExchange_keeps {m : Spdm} {s : State}  {u0 : State} (eK : execKeyExchange m s = .next u0) (hK : Keeps sK s) : Keeps sK u0 := by
  unfold execKeyExchange at eK
  try dsimp only at eK
  refine spdmEvent_keeps (fun s hK => ?_) eK hK
  try dsimp only
  repeat' first | with_reducible assumption | with_reducible exact Keeps.refl _ | with_reducible refine fromPhase_keeps ?_ ?_ | with_reducible refine withSlot_keeps ?_ ?_ | with_reducible refine signed_keeps ?_ | with_reducible refine spdmReply_keeps ?_ | with_reducible refine onSce_keeps ?_ | fail_if_no_progress (with_reducible refine keeps_mk ?_) | intro _ hk | with_reducible refine keeps_ite (fun _ => ?_) (fun _ => ?_) | split | dsimp only | with_reducible refine signed_keeps_eq (by assumption) ?_

theorem onSession_keeps {s : State} {id : Nat} {f : Session → Session}  (hK : Keeps sK s) : Keeps sK (onSession s id f) := by
  unfold onSession
  try dsimp only
  repeat' first | with_reducible assumption | with_reducible exact Keeps.refl _ | with_reducible refine onSce_keeps ?_ | fail_if_no_progress (with_reducible refine keeps_mk ?_) | with_reducible refine keeps_ite (fun _ => ?_) (fun _ => ?_) | split | dsimp only

theorem inSession_keeps {id : Nat} {finished : Bool} {f : State → State} {s : State} (h_f : ∀  s, Keeps sK s → Keeps sK (f  s))  (hK : Keeps sK s) : Keeps sK (inSession id finished f s) := by
  unfold inSession
  try dsimp only
  repeat' first | with_reducible assumption | with_reducible exact Keeps.refl _ | with_reducible refine h_f _ ?_ | with_reducible refine spdmError_keeps ?_ | fail_if_no_progress (with_reducible refine keeps_mk ?_) | with_reducible refine keeps_ite (fun _ => ?_) (fun _ => ?_) | split | dsimp only

theorem execFinish_keeps {m : Spdm} {s : State}  {u0 : State} (eK : execFinish m s = .next u0) (hK : Keeps sK s) : Keeps sK u0 := by
  unfold execFinish at eK
  try dsimp only at eK
  refine spdmEvent_keeps (fun s hK => ?_) eK hK
  try dsimp only
  repeat' first | with_reducible assumption | with_reducible exact Keeps.refl _ | with_reducible refine inSession_keeps ?_ ?_ | with_reducible refine spdmReply_keeps ?_ | with_reducible refine onSession_keeps ?_ | with_reducible refine spdmError_keeps ?_ | fail_if_no_progress (with_reducible refine keeps_mk ?_) | intro _ hk | with_reducible refine keeps_ite (fun _ => ?_) (fun _ => ?_) | split | dsimp only

theorem execHeartbeat_keeps {m : Spdm} {s : State}  {u0 : State} (eK : execHeartbeat m s = .next u0) (hK : Keeps sK s) : Keeps sK u0 := by
  unfold execHeartbeat at eK
  try dsimp only at eK
  refine spdmEvent_keeps (fun s hK => ?_) eK hK
  try dsimp only
  repeat' first | with_reducible assumption | with_reducible exact Keeps.refl _ | with_reducible refine inSession_keeps ?_ ?_ | with_reducible refine spdmReply_keeps ?_ | with_reducible refine onSession_keeps ?_ | fail_if_no_progress (with_reducible refine keeps_mk ?_) | intro _ hk | with_reducible refine keeps_ite (fun _ => ?_) (fun _ => ?_) | split | dsimp only

theorem execKeyUpdate_keeps {m : Spdm} {s : State}  {u0 : State} (eK : execKeyUpdate m s = .next u0) (hK : Keeps sK s) : Keeps sK u0 := by
  unfold execKeyUpdate at eK
  try dsimp only at eK
  refine spdmEvent_keeps (fun s hK => ?_) eK hK
  try dsimp only
  repeat' first | with_reducible assumption | with_reducible exact Keeps.refl _ | with_reducible refine inSession_keeps ?_ ?_ | with_reducible refine spdmReply_keeps ?_ | with_reducible refine onSession_keeps ?_ | fail_if_no_progress (with_reducible refine keeps_mk ?_) | intro _ hk | with_reducible refine keeps_ite (fun _ => ?_) (fun _ => ?_) | split | dsimp only

theorem dropSession_keeps {s : State} {id : Nat}  (hK : Keeps sK s) : Keeps sK (dropSession s id) := by
  unfold dropSession
  try dsimp only
  repeat' first | with_reducible assumption | with_reducible exact Keeps.refl _ | with_reducible refine onSce_keeps ?_ | with_reducible refine tdiError_keeps ?_ | fail_if_no_progress (with_reducible refine keeps_mk ?_) | with_reducible refine foldl_keeps ?_ ?_ | with_reducible refine foldl1_keeps ?_ ?_ | intro _ _ hk | with_reducible refine keeps_ite (fun _ => ?_) (fun _ => ?_) | split | dsimp only

theorem execEndSession_keeps {m : Spdm} {s : State}  {u0 : State} (eK : execEndSession m s = .next u0) (hK : Keeps sK s) : Keeps sK u0 := by
  unfold execEndSession at eK
  try dsimp only at eK
  refine spdmEvent_keeps (fun s hK => ?_) eK hK
  try dsimp only
  repeat' first | with_reducible assumption | with_reducible exact Keeps.refl _ | with_reducible refine inSession_keeps ?_ ?_ | with_reducible refine spdmReply_keeps ?_ | with_reducible refine dropSession_keeps ?_ | fail_if_no_progress (with_reducible refine keeps_mk ?_) | intro _ hk | with_reducible refine keeps_ite (fun _ => ?_) (fun _ => ?_) | split | dsimp only

theorem setIdeKey_keeps {s : State} {m : Spdm}  (hK : Keeps sK s) : Keeps sK (setIdeKey s m) := by
  unfold setIdeKey
  try dsimp only
  repeat' first | with_reducible assumption | with_reducible exact Keeps.refl _ | fail_if_no_progress (with_reducible refine keeps_mk ?_) | with_reducible refine keeps_ite (fun _ => ?_) (fun _ => ?_) | split | dsimp only

theorem execVendorDefinedRequest_keeps {m : Spdm} {s : State}  {u0 : State} (eK : execVendorDefinedRequest m s = .next u0) (hK : Keeps sK s) : Keeps sK u0 := by
  unfold execVendorDefinedRequest at eK
  try dsimp only at eK
  refine spdmEvent_keeps (fun s hK => ?_) eK hK
  try dsimp only
  repeat' first | with_reducible assumption | with_reducible exact Keeps.refl _ | with_reducible refine fromPhase_keeps ?_ ?_ | with_reducible refine spdmReply_keeps ?_ | with_reducible refine setIdeKey_keeps ?_ | fail_if_no_progress (with_reducible refine keeps_mk ?_) | intro _ hk | with_reducible refine keeps_ite (fun _ => ?_) (fun _ => ?_) | split | dsimp only

theorem tdispOut_keeps {s : State} {c : Nat} {ok : Bool} {b : List Byte}  (hK : Keeps sK s) : Keeps sK (tdispOut s c ok b) := by
  unfold tdispOut
  try dsimp only
  repeat' first | with_reducible assumption | with_reducible exact Keeps.refl _ | fail_if_no_progress (with_reducible refine keeps_mk ?_) | with_reducible refine keeps_ite (fun _ => ?_) (fun _ => ?_) | split | dsimp only

theorem tdispEvent_keeps {c session : Nat} {f : State → State} {s : State} (h_f : ∀  s, Keeps sK s → Keeps sK (f  s))  {u0 : State} (eK : tdispEvent c session f s = .next u0) (hK : Keeps sK s) : Keeps sK u0 := by
  unfold tdispEvent at eK
  try dsimp only at eK
  refine occur_keeps (fun s hK => ?_) eK hK
  try dsimp only
  repeat' first | with_reducible assumption | with_reducible exact Keeps.refl _ | with_reducible refine h_f _ ?_ | fail_if_no_progress (with_reducible refine keeps_mk ?_) | intro _ hk | with_reducible refine keeps_ite (fun _ => ?_) (fun _ => ?_) | split | dsimp only

theorem lockInterface_keeps {s : State} {c session : Nat}  (hK : Keeps sK s) : Keeps sK (lockInterface s c session) := by
  unfold lockInterface
  try dsimp only
  repeat' first | with_reducible assumption | with_reducible exact Keeps.refl _ | with_reducible refine onSce_keeps ?_ | with_reducible refine tdispOut_keeps ?_ | with_reducible refine setComp_keeps ?_ | fail_if_no_progress (with_reducible refine keeps_mk ?_) | with_reducible refine keeps_ite (fun _ => ?_) (fun _ => ?_) | split | dsimp only

theorem execLockInterfaceRequest_keeps {comp' session : Nat} {s : State}  {u0 : State} (eK : execLockInterfaceRequest comp' session s = .next u0) (hK : Keeps sK s) : Keeps sK u0 := by
  unfold execLockInterfaceRequest at eK
  try dsimp only at eK
  refine tdispEvent_keeps (fun s hK => ?_) eK hK
  try dsimp only
  repeat' first | with_reducible assumption | with_reducible exact Keeps.refl _ | with_reducible refine lockInterface_keeps ?_ | fail_if_no_progress (with_reducible refine keeps_mk ?_) | intro _ hk | with_reducible refine keeps_ite (fun _ => ?_) (fun _ => ?_) | split | dsimp only

theorem startInterface_keeps {s : State} {c session : Nat}  (hK : Keeps sK s) : Keeps sK (startInterface s c session) := by
  unfold startInterface
  try dsimp only
  repeat' first | with_reducible assumption | with_reducible exact Keeps.refl _ | with_reducible refine setComp_keeps ?_ | with_reducible refine tdispOut_keeps ?_ | with_reducible refine startComp_keeps ?_ | fail_if_no_progress (with_reducible refine keeps_mk ?_) | with_reducible refine keeps_ite (fun _ => ?_) (fun _ => ?_) | split | dsimp only

theorem execStartInterfaceRequest_keeps {comp' session : Nat} {s : State}  {u0 : State} (eK : execStartInterfaceRequest comp' session s = .next u0) (hK : Keeps sK s) : Keeps sK u0 := by
  unfold execStartInterfaceRequest at eK
  try dsimp only at eK
  refine tdispEvent_keeps (fun s hK => ?_) eK hK
  try dsimp only
  repeat' first | with_reducible assumption | with_reducible exact Keeps.refl _ | with_reducible refine startInterface_keeps ?_ | fail_if_no_progress (with_reducible refine keeps_mk ?_) | intro _ hk | with_reducible refine keeps_ite (fun _ => ?_) (fun _ => ?_) | split | dsimp only

theorem stopInterface_keeps {s : State} {c session : Nat}  (hK : Keeps sK s) : Keeps sK (stopInterface s c session) := by
  unfold stopInterface
  try dsimp only
  repeat' first | with_reducible assumption | with_reducible exact Keeps.refl _ | with_reducible refine tdispOut_keeps ?_ | with_reducible refine beginReset_keeps ?_ | fail_if_no_progress (with_reducible refine keeps_mk ?_) | with_reducible refine keeps_ite (fun _ => ?_) (fun _ => ?_) | split | dsimp only

theorem execStopInterfaceRequest_keeps {comp' session : Nat} {s : State}  {u0 : State} (eK : execStopInterfaceRequest comp' session s = .next u0) (hK : Keeps sK s) : Keeps sK u0 := by
  unfold execStopInterfaceRequest at eK
  try dsimp only at eK
  refine tdispEvent_keeps (fun s hK => ?_) eK hK
  try dsimp only
  repeat' first | with_reducible assumption | with_reducible exact Keeps.refl _ | with_reducible refine stopInterface_keeps ?_ | fail_if_no_progress (with_reducible refine keeps_mk ?_) | intro _ hk | with_reducible refine keeps_ite (fun _ => ?_) (fun _ => ?_) | split | dsimp only

theorem reportInterface_keeps {s : State} {c : Nat}  (hK : Keeps sK s) : Keeps sK (reportInterface s c) := by
  unfold reportInterface
  try dsimp only
  repeat' first | with_reducible assumption | with_reducible exact Keeps.refl _ | with_reducible refine tdispOut_keeps ?_ | fail_if_no_progress (with_reducible refine keeps_mk ?_) | with_reducible refine keeps_ite (fun _ => ?_) (fun _ => ?_) | split | dsimp only

theorem execGetDeviceInterfaceReport_keeps {comp' session : Nat} {s : State}  {u0 : State} (eK : execGetDeviceInterfaceReport comp' session s = .next u0) (hK : Keeps sK s) : Keeps sK u0 := by
  unfold execGetDeviceInterfaceReport at eK
  try dsimp only at eK
  refine tdispEvent_keeps (fun s hK => ?_) eK hK
  try dsimp only
  repeat' first | with_reducible assumption | with_reducible exact Keeps.refl _ | with_reducible refine reportInterface_keeps ?_ | fail_if_no_progress (with_reducible refine keeps_mk ?_) | intro _ hk | with_reducible refine keeps_ite (fun _ => ?_) (fun _ => ?_) | split | dsimp only

theorem execIdeIntegrityFailure_keeps {comp' : Nat} {s : State}  {u0 : State} (eK : execIdeIntegrityFailure comp' s = .next u0) (hK : Keeps sK s) : Keeps sK u0 := by
  unfold execIdeIntegrityFailure at eK
  try dsimp only at eK
  refine occur_keeps (fun s hK => ?_) eK hK
  try dsimp only
  repeat' first | with_reducible assumption | with_reducible exact Keeps.refl _ | with_reducible refine tdiError_keeps ?_ | fail_if_no_progress (with_reducible refine keeps_mk ?_) | intro _ hk | with_reducible refine keeps_ite (fun _ => ?_) (fun _ => ?_) | split | dsimp only

theorem takePolicy_keeps {s : State} {c : Nat} {b : List Byte}  (hK : Keeps sK s) : Keeps sK (takePolicy s c b) := by
  unfold takePolicy
  try dsimp only
  repeat' first | with_reducible assumption | with_reducible exact Keeps.refl _ | with_reducible refine setComp_keeps ?_ | fail_if_no_progress (with_reducible refine keeps_mk ?_) | with_reducible refine keeps_ite (fun _ => ?_) (fun _ => ?_) | split | dsimp only

theorem execPolicyObject_keeps {comp' : Nat} {obj : List (BitVec 8)} {s : State}  {u0 : State} (eK : execPolicyObject comp' obj s = .next u0) (hK : Keeps sK s) : Keeps sK u0 := by
  unfold execPolicyObject at eK
  try dsimp only at eK
  refine occur_keeps (fun s hK => ?_) eK hK
  try dsimp only
  repeat' first | with_reducible assumption | with_reducible exact Keeps.refl _ | with_reducible refine takePolicy_keeps ?_ | fail_if_no_progress (with_reducible refine keeps_mk ?_) | intro _ hk | with_reducible refine keeps_ite (fun _ => ?_) (fun _ => ?_) | split | dsimp only

theorem lower_keeps {s : State} {k : Nat}  (hK : Keeps sK s) : Keeps sK (lower s k) := by
  unfold lower
  try dsimp only
  repeat' first | with_reducible assumption | with_reducible exact Keeps.refl _ | with_reducible refine setMhz_keeps ?_ | fail_if_no_progress (with_reducible refine keeps_mk ?_) | with_reducible refine keeps_ite (fun _ => ?_) (fun _ => ?_) | split | dsimp only

theorem limitPower_keeps {s : State} {deck : Nat} {cores : BitVec 64}  (hK : Keeps sK s) : Keeps sK (limitPower s deck cores) := by
  unfold limitPower
  try dsimp only
  repeat' first | with_reducible assumption | with_reducible exact Keeps.refl _ | with_reducible refine lower_keeps ?_ | fail_if_no_progress (with_reducible refine keeps_mk ?_) | with_reducible refine foldl_keeps ?_ ?_ | with_reducible refine foldl1_keeps ?_ ?_ | intro _ _ hk | with_reducible refine keeps_ite (fun _ => ?_) (fun _ => ?_) | split | dsimp only

theorem execPowerLimit_keeps {deck : Nat} {cores : BitVec 64} {s : State}  {u0 : State} (eK : execPowerLimit deck cores s = .next u0) (hK : Keeps sK s) : Keeps sK u0 := by
  unfold execPowerLimit at eK
  try dsimp only at eK
  refine occur_keeps (fun s hK => ?_) eK hK
  try dsimp only
  repeat' first | with_reducible assumption | with_reducible exact Keeps.refl _ | with_reducible refine limitPower_keeps ?_ | fail_if_no_progress (with_reducible refine keeps_mk ?_) | intro _ hk | with_reducible refine keeps_ite (fun _ => ?_) (fun _ => ?_) | split | dsimp only

theorem tripThermal_keeps {s : State}  (hK : Keeps sK s) : Keeps sK (tripThermal s) := by
  unfold tripThermal
  try dsimp only
  repeat' first | with_reducible assumption | with_reducible exact Keeps.refl _ | with_reducible refine pushErr_keeps ?_ | with_reducible refine lower_keeps ?_ | fail_if_no_progress (with_reducible refine keeps_mk ?_) | with_reducible refine foldl_keeps ?_ ?_ | with_reducible refine foldl1_keeps ?_ ?_ | intro _ _ hk | with_reducible refine keeps_ite (fun _ => ?_) (fun _ => ?_) | split | dsimp only

theorem execThermalTrip_keeps {s : State}  {u0 : State} (eK : execThermalTrip s = .next u0) (hK : Keeps sK s) : Keeps sK u0 := by
  unfold execThermalTrip at eK
  try dsimp only at eK
  refine occur_keeps (fun s hK => ?_) eK hK
  try dsimp only
  repeat' first | with_reducible assumption | with_reducible exact Keeps.refl _ | with_reducible refine tripThermal_keeps ?_ | fail_if_no_progress (with_reducible refine keeps_mk ?_) | intro _ hk | with_reducible refine keeps_ite (fun _ => ?_) (fun _ => ?_) | split | dsimp only

theorem bringUp_keeps {s : State}  (hK : Keeps sK s) : Keeps sK (bringUp s) := by
  exact ⟨fun _ => rfl, hK.2.1, hK.2.2⟩

theorem execPowerOn_keeps {s : State}  {u0 : State} (eK : execPowerOn s = .next u0) (hK : Keeps sK s) : Keeps sK u0 := by
  unfold execPowerOn at eK
  try dsimp only at eK
  refine occur_keeps (fun s hK => ?_) eK hK
  try dsimp only
  repeat' first | with_reducible assumption | with_reducible exact Keeps.refl _ | with_reducible refine bringUp_keeps ?_ | fail_if_no_progress (with_reducible refine keeps_mk ?_) | intro _ hk | with_reducible refine keeps_ite (fun _ => ?_) (fun _ => ?_) | split | dsimp only


end Sys2Proof.Machine
end

