-- ==== Sys2Proof/Laws/KeepsSched.lean ====
section
/-! SUPPORT. What every change keeps (Keeps), for Sched. -/

set_option linter.unusedTactic false
set_option linter.unreachableTactic false

namespace Sys2Proof.Machine

variable {sK : State}

theorem freeBenches_keeps {s : State}  (hK : Keeps sK s) : Keeps sK (freeBenches s) := by
  unfold freeBenches
  try dsimp only
  repeat' first | with_reducible assumption | with_reducible exact Keeps.refl _ | with_reducible refine endStint_keeps ?_ | fail_if_no_progress (with_reducible refine keeps_mk ?_) | with_reducible refine foldl_keeps ?_ ?_ | with_reducible refine foldl1_keeps ?_ ?_ | intro _ _ hk | with_reducible refine keeps_ite (fun _ => ?_) (fun _ => ?_) | split | dsimp only

theorem removals_keeps {s : State}  (hK : Keeps sK s) : Keeps sK (removals s) := by
  unfold removals
  try dsimp only
  repeat' first | with_reducible assumption | with_reducible exact Keeps.refl _ | with_reducible refine advanceLeaving_keeps ?_ | fail_if_no_progress (with_reducible refine keeps_mk ?_) | with_reducible refine foldl_keeps ?_ ?_ | with_reducible refine foldl1_keeps ?_ ?_ | intro _ _ hk | with_reducible refine keeps_ite (fun _ => ?_) (fun _ => ?_) | split | dsimp only

theorem startsLate_keeps {s : State}  (hK : Keeps sK s) : Keeps sK (startsLate s) := by
  unfold startsLate
  try dsimp only
  repeat' first | with_reducible assumption | with_reducible exact Keeps.refl _ | with_reducible refine startLate_keeps ?_ | fail_if_no_progress (with_reducible refine keeps_mk ?_) | with_reducible refine foldl_keeps ?_ ?_ | with_reducible refine foldl1_keeps ?_ ?_ | intro _ _ hk | with_reducible refine keeps_ite (fun _ => ?_) (fun _ => ?_) | split | dsimp only

theorem afterStep_keeps {s : State}  (hK : Keeps sK s) : Keeps sK (afterStep s) := by
  unfold afterStep
  try dsimp only
  repeat' first | with_reducible assumption | with_reducible exact Keeps.refl _ | with_reducible refine freeBenches_keeps ?_ | with_reducible refine teamsAfter_keeps ?_ | with_reducible refine startsLate_keeps ?_ | with_reducible refine removals_keeps ?_ | with_reducible refine level2Step_keeps ?_ | with_reducible refine settleForeign_keeps ?_ | with_reducible refine flushFabric_keeps ?_ | fail_if_no_progress (with_reducible refine keeps_mk ?_) | with_reducible refine keeps_ite (fun _ => ?_) (fun _ => ?_) | split | dsimp only

theorem traceTeam_keeps {old s : State} {kt : Nat × Team} (hK : Keeps sK s) : Keeps sK (traceTeam old s kt) := by
  have hi : ∀ {p : Prop} [Decidable p] {t : State} {c k kind : Nat} {l : List Nat}, Keeps sK t →
      Keeps sK (if p then traceWrite t c k kind l else t) := fun h => keeps_ite (fun _ => traceWrite_keeps h) fun _ => h
  unfold traceTeam
  split
  · exact hK
  · exact hi (hi (hi hK))

theorem traceEngines_keeps {old s : State} (hK : Keeps sK s) : Keeps sK (traceEngines old s) :=
  foldl_keeps (foldl_keeps hK fun _ _ h => traceWrite_keeps h) fun _ _ h => traceWrite_keeps h

theorem traceBounces_keeps {old s : State} (hK : Keeps sK s) : Keeps sK (traceBounces old s) :=
  foldl_keeps (foldl_keeps (foldl_keeps hK fun _ _ h => traceWrite_keeps h) fun _ _ h => traceWrite_keeps h) fun _ _ h => traceWrite_keeps h

theorem traceStep_keeps {old s : State} (hK : Keeps sK s) : Keeps sK (traceStep old s) :=
  keeps_ite (fun _ => traceBounces_keeps (traceEngines_keeps (foldl_keeps hK fun _ _ h => traceTeam_keeps h))) fun _ => hK


end Sys2Proof.Machine
end

