-- ==== Sys2Proof/Laws/Exec.lean ====
section
/-! SUPPORT. What every instruction and event keeps. -/

namespace Sys2Proof.Machine

set_option maxHeartbeats 400000 in
/-- Every instruction and event keeps what Keeps says. -/
theorem exec_keeps {i : Instr} {s t : State} (h : exec i s = .next t) : Keeps s t := by
  cases i with
  | stintStart => exact execStintStart_keeps h (Keeps.refl _)
  | instructionFetch => exact execInstructionFetch_keeps h (Keeps.refl _)
  | trapDelivery => exact execTrapDelivery_keeps h (Keeps.refl _)
  | teamEviction => exact execTeamEviction_keeps h (Keeps.refl _)
  | crewPlacement => exact execCrewPlacement_keeps h (Keeps.refl _)
  | binTimerExpiry => exact execBinTimerExpiry_keeps h (Keeps.refl _)
  | crewMigration => exact execCrewMigration_keeps h (Keeps.refl _)
  | steeringInterval => exact execSteeringInterval_keeps h (Keeps.refl _)
  | stopRequest => exact execStopRequest_keeps h (Keeps.refl _)
  | graceExpiry => exact execGraceExpiry_keeps h (Keeps.refl _)
  | deferralExpiry => exact execDeferralExpiry_keeps h (Keeps.refl _)
  | saveReport => exact execSaveReport_keeps h (Keeps.refl _)
  | tenantSwitch => exact execTenantSwitch_keeps h (Keeps.refl _)
  | queueBounce => exact execQueueBounce_keeps h (Keeps.refl _)
  | bounceArrival => exact execBounceArrival_keeps h (Keeps.refl _)
  | reissueBackoffExpiry => exact execReissueBackoffExpiry_keeps h (Keeps.refl _)
  | pannierReissue => exact execPannierReissue_keeps h (Keeps.refl _)
  | translationWalk => exact execTranslationWalk_keeps h (Keeps.refl _)
  | faultRecordRetry => exact execFaultRecordRetry_keeps h (Keeps.refl _)
  | memoryRequestPerformed => exact execMemoryRequestPerformed_keeps h (Keeps.refl _)
  | ownershipRegistration => exact execOwnershipRegistration_keeps h (Keeps.refl _)
  | writeBack => exact execWriteBack_keeps h (Keeps.refl _)
  | writebackTimeLimit => exact execWritebackTimeLimit_keeps h (Keeps.refl _)
  | waitcTimeout => exact execWaitcTimeout_keeps h (Keeps.refl _)
  | sleepExpiry => exact execSleepExpiry_keeps h (Keeps.refl _)
  | promwDeadline => exact execPromwDeadline_keeps h (Keeps.refl _)
  | matrixGrant => exact execMatrixGrant_keeps h (Keeps.refl _)
  | matrixCompletion => exact execMatrixCompletion_keeps h (Keeps.refl _)
  | fourInHandGrant => exact execFourInHandGrant_keeps h (Keeps.refl _)
  | fourInHandCompletion => exact execFourInHandCompletion_keeps h (Keeps.refl _)
  | harnessError => exact execHarnessError_keeps h (Keeps.refl _)
  | copyAccept => exact execCopyAccept_keeps h (Keeps.refl _)
  | copyStart => exact execCopyStart_keeps h (Keeps.refl _)
  | copyFault => exact execCopyFault_keeps h (Keeps.refl _)
  | copyCompletion => exact execCopyCompletion_keeps h (Keeps.refl _)
  | claimAnnouncement => exact execClaimAnnouncement_keeps h (Keeps.refl _)
  | objectionArrival => exact execObjectionArrival_keeps h (Keeps.refl _)
  | objectionAnswer => exact execObjectionAnswer_keeps h (Keeps.refl _)
  | claimWindowClose => exact execClaimWindowClose_keeps h (Keeps.refl _)
  | membershipUpdate => exact execMembershipUpdate_keeps h (Keeps.refl _)
  | ticketPoll => exact execTicketPoll_keeps h (Keeps.refl _)
  | traincfg => exact execTraincfg_keeps h (Keeps.refl _)
  | linkcfg => exact execLinkcfg_keeps h (Keeps.refl _)
  | bound => exact execBound_keeps h (Keeps.refl _)
  | engerr => exact execEngerr_keeps h (Keeps.refl _)
  | linkDown => exact execLinkDown_keeps h (Keeps.refl _)
  | linkUp => exact execLinkUp_keeps h (Keeps.refl _)
  | linkRetrain => exact execLinkRetrain_keeps h (Keeps.refl _)
  | flit => exact execFlit_keeps h (Keeps.refl _)
  | retryRequest => exact execRetryRequest_keeps h (Keeps.refl _)
  | postedWrite => exact execPostedWrite_keeps h (Keeps.refl _)
  | readRequest => exact execReadRequest_keeps h (Keeps.refl _)
  | remoteLoadReply => exact execRemoteLoadReply_keeps h (Keeps.refl _)
  | acknowledgement => exact execAcknowledgement_keeps h (Keeps.refl _)
  | refusal => exact execRefusal_keeps h (Keeps.refl _)
  | streamRetire => exact execStreamRetire_keeps h (Keeps.refl _)
  | unreachable => exact execUnreachable_keeps h (Keeps.refl _)
  | doorbell => exact execDoorbell_keeps h (Keeps.refl _)
  | launchRecord => exact execLaunchRecord_keeps h (Keeps.refl _)
  | messageLaunch => exact execMessageLaunch_keeps h (Keeps.refl _)
  | scallServiceReturn => exact execScallServiceReturn_keeps h (Keeps.refl _)
  | hostBar2Access => exact execHostBar2Access_keeps h (Keeps.refl _)
  | heqcons => exact execHeqcons_keeps h (Keeps.refl _)
  | registerWrite => exact execRegisterWrite_keeps h (Keeps.refl _)
  | create => exact execCreate_keeps h (Keeps.refl _)
  | resize => exact execResize_keeps h (Keeps.refl _)
  | destroy => exact execDestroy_keeps h (Keeps.refl _)
  | stop => exact execStop_keeps h (Keeps.refl _)
  | start => exact execStart_keeps h (Keeps.refl _)
  | getVersion => exact execGetVersion_keeps h (Keeps.refl _)
  | getCapabilities => exact execGetCapabilities_keeps h (Keeps.refl _)
  | negotiateAlgorithms => exact execNegotiateAlgorithms_keeps h (Keeps.refl _)
  | getDigests => exact execGetDigests_keeps h (Keeps.refl _)
  | getCertificate => exact execGetCertificate_keeps h (Keeps.refl _)
  | challenge => exact execChallenge_keeps h (Keeps.refl _)
  | getMeasurements => exact execGetMeasurements_keeps h (Keeps.refl _)
  | keyExchange => exact execKeyExchange_keeps h (Keeps.refl _)
  | finish => exact execFinish_keeps h (Keeps.refl _)
  | heartbeat => exact execHeartbeat_keeps h (Keeps.refl _)
  | keyUpdate => exact execKeyUpdate_keeps h (Keeps.refl _)
  | endSession => exact execEndSession_keeps h (Keeps.refl _)
  | vendorDefinedRequest => exact execVendorDefinedRequest_keeps h (Keeps.refl _)
  | lockInterfaceRequest => exact execLockInterfaceRequest_keeps h (Keeps.refl _)
  | startInterfaceRequest => exact execStartInterfaceRequest_keeps h (Keeps.refl _)
  | stopInterfaceRequest => exact execStopInterfaceRequest_keeps h (Keeps.refl _)
  | getDeviceInterfaceReport => exact execGetDeviceInterfaceReport_keeps h (Keeps.refl _)
  | ideIntegrityFailure => exact execIdeIntegrityFailure_keeps h (Keeps.refl _)
  | policyObject => exact execPolicyObject_keeps h (Keeps.refl _)
  | flr => exact execFlr_keeps h (Keeps.refl _)
  | resetCompletion => exact execResetCompletion_keeps h (Keeps.refl _)
  | powerLimit => exact execPowerLimit_keeps h (Keeps.refl _)
  | thermalTrip => exact execThermalTrip_keeps h (Keeps.refl _)
  | powerOn => exact execPowerOn_keeps h (Keeps.refl _)
  | streamIdleExpiry => exact execStreamIdleExpiry_keeps h (Keeps.refl _)
  | iadd => exact execIadd_keeps h (Keeps.refl _)
  | isub => exact execIsub_keeps h (Keeps.refl _)
  | imul => exact execImul_keeps h (Keeps.refl _)
  | imulhI => exact execImulhI_keeps h (Keeps.refl _)
  | imulhN => exact execImulhN_keeps h (Keeps.refl _)
  | imad => exact execImad_keeps h (Keeps.refl _)
  | iabsdI => exact execIabsdI_keeps h (Keeps.refl _)
  | isadN => exact execIsadN_keeps h (Keeps.refl _)
  | iminI => exact execIminI_keeps h (Keeps.refl _)
  | imaxI => exact execImaxI_keeps h (Keeps.refl _)
  | iminN => exact execIminN_keeps h (Keeps.refl _)
  | imaxN => exact execImaxN_keeps h (Keeps.refl _)
  | iaddsI => exact execIaddsI_keeps h (Keeps.refl _)
  | isubsI => exact execIsubsI_keeps h (Keeps.refl _)
  | iaddsN => exact execIaddsN_keeps h (Keeps.refl _)
  | isubsN => exact execIsubsN_keeps h (Keeps.refl _)
  | and => exact execAnd_keeps h (Keeps.refl _)
  | or => exact execOr_keeps h (Keeps.refl _)
  | xor => exact execXor_keeps h (Keeps.refl _)
  | andn => exact execAndn_keeps h (Keeps.refl _)
  | orn => exact execOrn_keeps h (Keeps.refl _)
  | shl => exact execShl_keeps h (Keeps.refl _)
  | shr => exact execShr_keeps h (Keeps.refl _)
  | sar => exact execSar_keeps h (Keeps.refl _)
  | rotl => exact execRotl_keeps h (Keeps.refl _)
  | bfxI => exact execBfxI_keeps h (Keeps.refl _)
  | bfxN => exact execBfxN_keeps h (Keeps.refl _)
  | bfi => exact execBfi_keeps h (Keeps.refl _)
  | prmb => exact execPrmb_keeps h (Keeps.refl _)
  | clz => exact execClz_keeps h (Keeps.refl _)
  | popc => exact execPopc_keeps h (Keeps.refl _)
  | brev => exact execBrev_keeps h (Keeps.refl _)
  | iaddi => exact execIaddi_keeps h (Keeps.refl _)
  | shli => exact execShli_keeps h (Keeps.refl _)
  | shri => exact execShri_keeps h (Keeps.refl _)
  | sari => exact execSari_keeps h (Keeps.refl _)
  | andi => exact execAndi_keeps h (Keeps.refl _)
  | ori => exact execOri_keeps h (Keeps.refl _)
  | xori => exact execXori_keeps h (Keeps.refl _)
  | rotli => exact execRotli_keeps h (Keeps.refl _)
  | shfl => exact execShfl_keeps h (Keeps.refl _)
  | shflup => exact execShflup_keeps h (Keeps.refl _)
  | shfldn => exact execShfldn_keeps h (Keeps.refl _)
  | shflx => exact execShflx_keeps h (Keeps.refl _)
  | tsumI => exact execTsumI_keeps h (Keeps.refl _)
  | tminI => exact execTminI_keeps h (Keeps.refl _)
  | tmaxI => exact execTmaxI_keeps h (Keeps.refl _)
  | tscanI => exact execTscanI_keeps h (Keeps.refl _)
  | mov => exact execMov_keeps h (Keeps.refl _)
  | laneid => exact execLaneid_keeps h (Keeps.refl _)
  | lidx => exact execLidx_keeps h (Keeps.refl _)
  | iseq => exact execIseq_keeps h (Keeps.refl _)
  | isne => exact execIsne_keeps h (Keeps.refl _)
  | isltI => exact execIsltI_keeps h (Keeps.refl _)
  | isleI => exact execIsleI_keeps h (Keeps.refl _)
  | isltN => exact execIsltN_keeps h (Keeps.refl _)
  | isleN => exact execIsleN_keeps h (Keeps.refl _)
  | isany => exact execIsany_keeps h (Keeps.refl _)
  | isnone => exact execIsnone_keeps h (Keeps.refl _)
  | fseq => exact execFseq_keeps h (Keeps.refl _)
  | fsne => exact execFsne_keeps h (Keeps.refl _)
  | fslt => exact execFslt_keeps h (Keeps.refl _)
  | fsle => exact execFsle_keeps h (Keeps.refl _)
  | fsun => exact execFsun_keeps h (Keeps.refl _)
  | fsord => exact execFsord_keeps h (Keeps.refl _)
  | fsnan => exact execFsnan_keeps h (Keeps.refl _)
  | fsinf => exact execFsinf_keeps h (Keeps.refl _)
  | pand => exact execPand_keeps h (Keeps.refl _)
  | por => exact execPor_keeps h (Keeps.refl _)
  | pxor => exact execPxor_keeps h (Keeps.refl _)
  | pnot => exact execPnot_keeps h (Keeps.refl _)
  | pany => exact execPany_keeps h (Keeps.refl _)
  | pall => exact execPall_keeps h (Keeps.refl _)
  | psig => exact execPsig_keeps h (Keeps.refl _)
  | pelect => exact execPelect_keeps h (Keeps.refl _)
  | sadd => exact execSadd_keeps h (Keeps.refl _)
  | ssub => exact execSsub_keeps h (Keeps.refl _)
  | smul => exact execSmul_keeps h (Keeps.refl _)
  | smulhI => exact execSmulhI_keeps h (Keeps.refl _)
  | smulhN => exact execSmulhN_keeps h (Keeps.refl _)
  | sdivI => exact execSdivI_keeps h (Keeps.refl _)
  | sdivN => exact execSdivN_keeps h (Keeps.refl _)
  | sremI => exact execSremI_keeps h (Keeps.refl _)
  | sremN => exact execSremN_keeps h (Keeps.refl _)
  | sand => exact execSand_keeps h (Keeps.refl _)
  | sor => exact execSor_keeps h (Keeps.refl _)
  | sxor => exact execSxor_keeps h (Keeps.refl _)
  | sandn => exact execSandn_keeps h (Keeps.refl _)
  | sshl => exact execSshl_keeps h (Keeps.refl _)
  | sshr => exact execSshr_keeps h (Keeps.refl _)
  | ssar => exact execSsar_keeps h (Keeps.refl _)
  | sminI => exact execSminI_keeps h (Keeps.refl _)
  | smaxI => exact execSmaxI_keeps h (Keeps.refl _)
  | sminN => exact execSminN_keeps h (Keeps.refl _)
  | smaxN => exact execSmaxN_keeps h (Keeps.refl _)
  | sclz => exact execSclz_keeps h (Keeps.refl _)
  | spopc => exact execSpopc_keeps h (Keeps.refl _)
  | sseq => exact execSseq_keeps h (Keeps.refl _)
  | ssltI => exact execSsltI_keeps h (Keeps.refl _)
  | ssltN => exact execSsltN_keeps h (Keeps.refl _)
  | smov => exact execSmov_keeps h (Keeps.refl _)
  | sadd64 => exact execSadd64_keeps h (Keeps.refl _)
  | ssub64 => exact execSsub64_keeps h (Keeps.refl _)
  | sshl64 => exact execSshl64_keeps h (Keeps.refl _)
  | sshr64 => exact execSshr64_keeps h (Keeps.refl _)
  | saddx => exact execSaddx_keeps h (Keeps.refl _)
  | sbfx => exact execSbfx_keeps h (Keeps.refl _)
  | saddi => exact execSaddi_keeps h (Keeps.refl _)
  | sandi => exact execSandi_keeps h (Keeps.refl _)
  | sori => exact execSori_keeps h (Keeps.refl _)
  | sxori => exact execSxori_keeps h (Keeps.refl _)
  | sshli => exact execSshli_keeps h (Keeps.refl _)
  | sshri => exact execSshri_keeps h (Keeps.refl _)
  | ssari => exact execSsari_keeps h (Keeps.refl _)
  | ssltiI => exact execSsltiI_keeps h (Keeps.refl _)
  | bcast => exact execBcast_keeps h (Keeps.refl _)
  | lanerd => exact execLanerd_keeps h (Keeps.refl _)
  | mfc => exact execMfc_keeps h (Keeps.refl _)
  | mtc => exact execMtc_keeps h (Keeps.refl _)
  | pmov => exact execPmov_keeps h (Keeps.refl _)
  | fadd => exact execFadd_keeps h (Keeps.refl _)
  | fsub => exact execFsub_keeps h (Keeps.refl _)
  | fmul => exact execFmul_keeps h (Keeps.refl _)
  | fmin => exact execFmin_keeps h (Keeps.refl _)
  | fmax => exact execFmax_keeps h (Keeps.refl _)
  | fabs => exact execFabs_keeps h (Keeps.refl _)
  | fneg => exact execFneg_keeps h (Keeps.refl _)
  | fcpsgn => exact execFcpsgn_keeps h (Keeps.refl _)
  | ffma => exact execFfma_keeps h (Keeps.refl _)
  | ffms => exact execFfms_keeps h (Keeps.refl _)
  | fnfma => exact execFnfma_keeps h (Keeps.refl _)
  | fdiv => exact execFdiv_keeps h (Keeps.refl _)
  | fsqrt => exact execFsqrt_keeps h (Keeps.refl _)
  | frcp => exact execFrcp_keeps h (Keeps.refl _)
  | frsq => exact execFrsq_keeps h (Keeps.refl _)
  | fexp2 => exact execFexp2_keeps h (Keeps.refl _)
  | flog2 => exact execFlog2_keeps h (Keeps.refl _)
  | fsinpi => exact execFsinpi_keeps h (Keeps.refl _)
  | fcospi => exact execFcospi_keeps h (Keeps.refl _)
  | ffloor => exact execFfloor_keeps h (Keeps.refl _)
  | fceil => exact execFceil_keeps h (Keeps.refl _)
  | ftrunc => exact execFtrunc_keeps h (Keeps.refl _)
  | frint => exact execFrint_keeps h (Keeps.refl _)
  | ffract => exact execFfract_keeps h (Keeps.refl _)
  | f4add => exact execF4add_keeps h (Keeps.refl _)
  | f4sub => exact execF4sub_keeps h (Keeps.refl _)
  | f4mul => exact execF4mul_keeps h (Keeps.refl _)
  | f4fma => exact execF4fma_keeps h (Keeps.refl _)
  | f4fms => exact execF4fms_keeps h (Keeps.refl _)
  | f4min => exact execF4min_keeps h (Keeps.refl _)
  | f4max => exact execF4max_keeps h (Keeps.refl _)
  | dadd => exact execDadd_keeps h (Keeps.refl _)
  | dsub => exact execDsub_keeps h (Keeps.refl _)
  | dmul => exact execDmul_keeps h (Keeps.refl _)
  | dfma => exact execDfma_keeps h (Keeps.refl _)
  | ddiv => exact execDdiv_keeps h (Keeps.refl _)
  | dsqrt => exact execDsqrt_keeps h (Keeps.refl _)
  | dmin => exact execDmin_keeps h (Keeps.refl _)
  | dmax => exact execDmax_keeps h (Keeps.refl _)
  | hadd2 => exact execHadd2_keeps h (Keeps.refl _)
  | hmul2 => exact execHmul2_keeps h (Keeps.refl _)
  | hfma2 => exact execHfma2_keeps h (Keeps.refl _)
  | hmax2 => exact execHmax2_keeps h (Keeps.refl _)
  | badd2 => exact execBadd2_keeps h (Keeps.refl _)
  | bmul2 => exact execBmul2_keeps h (Keeps.refl _)
  | bfma2 => exact execBfma2_keeps h (Keeps.refl _)
  | bmax2 => exact execBmax2_keeps h (Keeps.refl _)
  | cvt => exact execCvt_keeps h (Keeps.refl _)
  | cvts => exact execCvts_keeps h (Keeps.refl _)
  | pk8 => exact execPk8_keeps h (Keeps.refl _)
  | pk4 => exact execPk4_keeps h (Keeps.refl _)
  | upk8 => exact execUpk8_keeps h (Keeps.refl _)
  | upk4 => exact execUpk4_keeps h (Keeps.refl _)
  | qdec => exact execQdec_keeps h (Keeps.refl _)
  | qenc => exact execQenc_keeps h (Keeps.refl _)
  | tagrd => exact execTagrd_keeps h (Keeps.refl _)
  | tagwr => exact execTagwr_keeps h (Keeps.refl _)
  | tagmin => exact execTagmin_keeps h (Keeps.refl _)
  | tagfull => exact execTagfull_keeps h (Keeps.refl _)
  | tagunt => exact execTagunt_keeps h (Keeps.refl _)
  | bra => exact execBra_keeps h (Keeps.refl _)
  | call => exact execCall_keeps h (Keeps.refl _)
  | ret => exact execRet_keeps h (Keeps.refl _)
  | jmpi => exact execJmpi_keeps h (Keeps.refl _)
  | calli => exact execCalli_keeps h (Keeps.refl _)
  | exit => exact execExit_keeps h (Keeps.refl _)
  | yield => exact execYield_keeps h (Keeps.refl _)
  | nop => exact execNop_keeps h (Keeps.refl _)
  | brk => exact execBrk_keeps h (Keeps.refl _)
  | trap => exact execTrap_keeps h (Keeps.refl _)
  | prioset => exact execPrioset_keeps h (Keeps.refl _)
  | enrol => exact execEnrol_keeps h (Keeps.refl _)
  | joinw => exact execJoinw_keeps h (Keeps.refl _)
  | joinq => exact execJoinq_keeps h (Keeps.refl _)
  | maskrd => exact execMaskrd_keeps h (Keeps.refl _)
  | spawn => exact execSpawn_keeps h (Keeps.refl _)
  | bara => exact execBara_keeps h (Keeps.refl _)
  | barw => exact execBarw_keeps h (Keeps.refl _)
  | baraw => exact execBaraw_keeps h (Keeps.refl _)
  | bcbi => exact execBcbi_keeps h (Keeps.refl _)
  | bcbx => exact execBcbx_keeps h (Keeps.refl _)
  | bcbw => exact execBcbw_keeps h (Keeps.refl _)
  | bcba => exact execBcba_keeps h (Keeps.refl _)
  | promw => exact execPromw_keeps h (Keeps.refl _)
  | waitc => exact execWaitc_keeps h (Keeps.refl _)
  | watch => exact execWatch_keeps h (Keeps.refl _)
  | unwatch => exact execUnwatch_keeps h (Keeps.refl _)
  | sleep => exact execSleep_keeps h (Keeps.refl _)
  | binfl => exact execBinfl_keeps h (Keeps.refl _)
  | suspend => exact execSuspend_keeps h (Keeps.refl _)
  | resume => exact execResume_keeps h (Keeps.refl _)
  | tcopy => exact execTcopy_keeps h (Keeps.refl _)
  | tdisc => exact execTdisc_keeps h (Keeps.refl _)
  | tstat => exact execTstat_keeps h (Keeps.refl _)
  | claim => exact execClaim_keeps h (Keeps.refl _)
  | object => exact execObject_keeps h (Keeps.refl _)
  | clpeek => exact execClpeek_keeps h (Keeps.refl _)
  | clpop => exact execClpop_keeps h (Keeps.refl _)
  | clwait => exact execClwait_keeps h (Keeps.refl _)
  | cljoin => exact execCljoin_keeps h (Keeps.refl _)
  | clleave => exact execClleave_keeps h (Keeps.refl _)
  | rtr => exact execRtr_keeps h (Keeps.refl _)
  | rts => exact execRts_keeps h (Keeps.refl _)
  | replay => exact execReplay_keeps h (Keeps.refl _)
  | tlbi => exact execTlbi_keeps h (Keeps.refl _)
  | harvest => exact execHarvest_keeps h (Keeps.refl _)
  | park => exact execPark_keeps h (Keeps.refl _)
  | halt => exact execHalt_keeps h (Keeps.refl _)
  | scall => exact execScall_keeps h (Keeps.refl _)
  | ld8I => exact execLd8I_keeps h (Keeps.refl _)
  | ld8N => exact execLd8N_keeps h (Keeps.refl _)
  | ld16I => exact execLd16I_keeps h (Keeps.refl _)
  | ld16N => exact execLd16N_keeps h (Keeps.refl _)
  | ld32 => exact execLd32_keeps h (Keeps.refl _)
  | ld64 => exact execLd64_keeps h (Keeps.refl _)
  | ld128 => exact execLd128_keeps h (Keeps.refl _)
  | ldt32 => exact execLdt32_keeps h (Keeps.refl _)
  | st8 => exact execSt8_keeps h (Keeps.refl _)
  | st16 => exact execSt16_keeps h (Keeps.refl _)
  | st32 => exact execSt32_keeps h (Keeps.refl _)
  | st64 => exact execSt64_keeps h (Keeps.refl _)
  | st128 => exact execSt128_keeps h (Keeps.refl _)
  | stt32 => exact execStt32_keeps h (Keeps.refl _)
  | lds => exact execLds_keeps h (Keeps.refl _)
  | sts => exact execSts_keeps h (Keeps.refl _)
  | atomAdd => exact execAtomAdd_keeps h (Keeps.refl _)
  | atomAdd64 => exact execAtomAdd64_keeps h (Keeps.refl _)
  | atomMini => exact execAtomMini_keeps h (Keeps.refl _)
  | atomMaxi => exact execAtomMaxi_keeps h (Keeps.refl _)
  | atomMinn => exact execAtomMinn_keeps h (Keeps.refl _)
  | atomMaxn => exact execAtomMaxn_keeps h (Keeps.refl _)
  | atomAnd => exact execAtomAnd_keeps h (Keeps.refl _)
  | atomOr => exact execAtomOr_keeps h (Keeps.refl _)
  | atomXor => exact execAtomXor_keeps h (Keeps.refl _)
  | atomSwap => exact execAtomSwap_keeps h (Keeps.refl _)
  | atomCas => exact execAtomCas_keeps h (Keeps.refl _)
  | atomSwap64 => exact execAtomSwap64_keeps h (Keeps.refl _)
  | atomCas64 => exact execAtomCas64_keeps h (Keeps.refl _)
  | atomFadd => exact execAtomFadd_keeps h (Keeps.refl _)
  | atomFmin => exact execAtomFmin_keeps h (Keeps.refl _)
  | atomFmax => exact execAtomFmax_keeps h (Keeps.refl _)
  | atomIncw => exact execAtomIncw_keeps h (Keeps.refl _)
  | atomDecsp => exact execAtomDecsp_keeps h (Keeps.refl _)
  | atomRedadd => exact execAtomRedadd_keeps h (Keeps.refl _)
  | atomRedfadd => exact execAtomRedfadd_keeps h (Keeps.refl _)
  | fence => exact execFence_keeps h (Keeps.refl _)
  | flushr => exact execFlushr_keeps h (Keeps.refl _)
  | invr => exact execInvr_keeps h (Keeps.refl _)
  | pref => exact execPref_keeps h (Keeps.refl _)
  | tld => exact execTld_keeps h (Keeps.refl _)
  | tst => exact execTst_keeps h (Keeps.refl _)
  | tzero => exact execTzero_keeps h (Keeps.refl _)
  | ttag => exact execTtag_keeps h (Keeps.refl _)
  | mma => exact execMma_keeps h (Keeps.refl _)
  | mma4 => exact execMma4_keeps h (Keeps.refl _)
  | mmaw => exact execMmaw_keeps h (Keeps.refl _)
  | mmaq => exact execMmaq_keeps h (Keeps.refl _)
  | mmax => exact execMmax_keeps h (Keeps.refl _)
  | cpy => exact execCpy_keeps h (Keeps.refl _)
  | gath => exact execGath_keeps h (Keeps.refl _)
  | scat => exact execScat_keeps h (Keeps.refl _)
  | coll => exact execColl_keeps h (Keeps.refl _)
  | ewait => exact execEwait_keeps h (Keeps.refl _)
  | ecan => exact execEcan_keeps h (Keeps.refl _)
  | eqry => exact execEqry_keeps h (Keeps.refl _)
  | trdv => exact execTrdv_keeps h (Keeps.refl _)
  | twrv => exact execTwrv_keeps h (Keeps.refl _)
  | himm => exact execHimm_keeps (z0 := 0) h (Keeps.refl _)
  | hgrd => exact execHgrd_keeps (z0 := 0) h (Keeps.refl _)
  | hprio => exact execHprio_keeps (z0 := 0) h (Keeps.refl _)
  | hrnd => exact execHrnd_keeps (z0 := 0) h (Keeps.refl _)
  | hscp => exact execHscp_keeps (z0 := 0) h (Keeps.refl _)
  | hrlx => exact execHrlx_keeps (z0 := 0) h (Keeps.refl _)
  | hyld => exact execHyld_keeps (z0 := 0) h (Keeps.refl _)
  | hreuse => exact execHreuse_keeps (z0 := 0) h (Keeps.refl _)
  | hsig => exact execHsig_keeps (z0 := 0) h (Keeps.refl _)
  | hlat => exact execHlat_keeps (z0 := 0) h (Keeps.refl _)

theorem stepWord_keeps {w : Word} {s t : State} (h : stepWord w s = .next t) : Keeps s t := by
  unfold stepWord at h
  split at h
  · exact exec_keeps h
  · split at h
    · exact performHint_keeps h (Keeps.refl s)
    · cases h; exact badWord_keeps (Keeps.refl s)

theorem stepIssue_keeps {s t : State} {u : Cur} (h : stepIssue s u = .next t) : Keeps s t := by
  unfold stepIssue at h
  split at h
  · exact (withWord_keeps (currentWord_keeps_eq (by assumption) (Keeps.refl s))).trans (stepWord_keeps h)
  · exact exec_keeps h

theorem retried_keeps {s : State} : Keeps s (retried s) := by
  unfold retried
  split
  · exact wakeAgain_keeps (Keeps.refl s)
  · exact Keeps.refl s

theorem stepPick_keeps {s t : State} (h : stepPick s = .next t) : Keeps s t := by
  unfold stepPick at h
  split at h
  · have hp := pick_keeps (by assumption) (retried_keeps (s := s))
    split at h
    · exact hp.trans (stepIssue_keeps h)
    · cases h; exact hp
  · cases h; exact retried_keeps

theorem stepCore_keeps {s t : State} (h : stepCore s = .next t) : Keeps s t := by
  unfold stepCore at h
  split at h
  · exact exec_keeps h
  · split at h
    · cases h; exact enterBin_keeps (Keeps.refl s)
    · split at h
      · exact stepIssue_keeps h
      · split at h
        · have hi : ∀ r, Keeps s { s with inputs := r } := fun r => keeps_mk (Keeps.refl s)
          split at h
          · exact (hi _).trans (exec_keeps h)
          · cases h; exact hi _
        · split at h
          · exact exec_keeps h
          · exact stepPick_keeps h

end Sys2Proof.Machine
end

