-- ==== Sys2Proof/Laws/Issue.lean ====
section
/-! SUPPORT. What the end of an instruction leaves unchanged, and what the named operations over registers, predicates and
latches do. -/

namespace Sys2Proof.Machine

/-! ## Stints -/

/-- Only the stint and the latches of bench `b` have changed, and the chain and times of teams. -/
structure Quiet (b : Nat) (s t : State) : Prop where
  rest : t.kept = s.kept
  teams : ∀ k, (team? t k).map Team.unstinted = (team? s k).map Team.unstinted
  benches : ∀ j, j ≠ b → bench t j = bench s j
  lanes : ∀ k, (latch (bench t b) k).lanes = (latch (bench s b) k).lanes
  valid : ∀ k, (latch (bench t b) k).valid = (latch (bench s b) k).valid ∨ (bench t b).holder = none

theorem Quiet.refl (b : Nat) (s : State) : Quiet b s s := ⟨rfl, fun _ => rfl, fun _ _ => rfl, fun _ => rfl, fun _ => .inl rfl⟩

theorem latch_void (x : Bench) (k : Nat) : (latch (voidLatches x) k).lanes = (latch x k).lanes := by
  unfold latch voidLatches
  simp only [List.getD_eq_getElem?_getD, List.getElem?_map]
  cases x.latches[k]? <;> rfl

theorem endStint_quiet (b : Nat) (s : State) : Quiet b s (endStint s b) := by
  have hb : ∀ t : State, t.benches = Tab.put s.benches b (voidLatches { bench s b with holder := none, slots := 0 }) →
      (∀ j, j ≠ b → bench t j = bench s j) ∧ (∀ k, (latch (bench t b) k).lanes = (latch (bench s b) k).lanes) ∧
        (bench t b).holder = none := by
    intro t h
    refine ⟨fun j hj => ?_, fun k => ?_, ?_⟩
    · simp [bench, h, Ne.symm hj]
    · rw [show bench t b = voidLatches { bench s b with holder := none, slots := 0 } by simp [bench, h], latch_void]
      rfl
    · simp [bench, h, voidLatches]
  unfold endStint
  dsimp only
  split
  · rename_i k hk
    refine ⟨?_, fun j => ?_, (hb _ ?_).1, (hb _ ?_).2.1, fun _ => .inr (hb _ ?_).2.2⟩
    · unfold onTeam; split <;> rfl
    · rw [team?_onTeam]; split
      · subst_vars; rw [Option.map_map]; rfl
      · rfl
    all_goals (unfold onTeam; split <;> rfl)
  · exact ⟨rfl, fun _ => rfl, (hb _ rfl).1, (hb _ rfl).2.1, fun _ => .inr (hb _ rfl).2.2⟩

theorem Quiet.trans {b : Nat} {s t u : State} (h : Quiet b s t) (k : Quiet b t u) (hk : (bench u b).holder = none ∨
    ∀ j, (latch (bench u b) j).valid = (latch (bench t b) j).valid ∧ (bench u b).holder = (bench t b).holder) : Quiet b s u where
  rest := k.rest.trans h.rest
  teams j := (k.teams j).trans (h.teams j)
  benches j hj := (k.benches j hj).trans (h.benches j hj)
  lanes j := (k.lanes j).trans (h.lanes j)
  valid j := by
    rcases hk with hk | hk
    · exact .inr hk
    · rw [(hk j).1, (hk j).2]; exact h.valid j

theorem stintCheck_quiet (s : State) (b key : Nat) (c waits yields : Bool) : Quiet b s (stintCheck s b key c waits yields) := by
  have hs : Quiet b s (setBench s b { bench s b with slots := (bench s b).slots + 1 }) :=
    ⟨rfl, fun _ => rfl, fun j hj => by simp [bench, setBench, Ne.symm hj], fun _ => by simp [bench, setBench, latch],
      fun _ => .inl (by simp [bench, setBench, latch])⟩
  have he : Quiet b s (endStint (setBench s b { bench s b with slots := (bench s b).slots + 1 }) b) := by
    refine hs.trans (endStint_quiet b _) (.inl ?_)
    unfold endStint
    dsimp only
    split <;> simp [bench, setBench, voidLatches]
  unfold stintCheck
  dsimp only
  split
  · exact he
  · split
    · split
      · exact he
      · exact hs
    · split
      · exact he
      · exact hs

/-- A stint check after changes that leave the benches as they were. -/
theorem Quiet.stint {b : Nat} {s t u : State} (h : Quiet b s t ∧ ∀ j, bench t j = bench s j) (k : Quiet b t u) : Quiet b s u where
  rest := k.rest.trans h.1.rest
  teams j := (k.teams j).trans (h.1.teams j)
  benches j hj := (k.benches j hj).trans (h.2 j)
  lanes j := by rw [k.lanes, h.2]
  valid j := by rw [← h.2]; exact k.valid j

/-! ## The end of an instruction -/

/-- What an instruction read for its issue, and the parking that it was to take, are forgotten. -/
theorem dropFetched_quiet (c : Ctx) (b : Nat) (s : State) (F : Team → Team) :
    Quiet b (onTeam s c.key fun t =>
        { F t with first := none, parking := (F t).parking.filter fun p => !(p.pc = c.cur.start && p.mask &&& c.cur.mask ≠ 0) })
      { dropFetched c (onTeam s c.key F) with cur := none, stir := true } ∧
    ∀ j, bench { dropFetched c (onTeam s c.key F) with cur := none, stir := true } j = bench (onTeam s c.key fun t =>
        { F t with first := none, parking := (F t).parking.filter fun p => !(p.pc = c.cur.start && p.mask &&& c.cur.mask ≠ 0) }) j := by
  have hb : ∀ j, bench { dropFetched c (onTeam s c.key F) with cur := none, stir := true } j = bench (onTeam s c.key fun t =>
        { F t with first := none, parking := (F t).parking.filter fun p => !(p.pc = c.cur.start && p.mask &&& c.cur.mask ≠ 0) }) j := by
    intro j
    refine (bench_onTeam _ _ j _).trans ((bench_onTeam s c.key j F).trans (bench_onTeam s c.key j _).symm)
  refine ⟨⟨?_, fun k => ?_, fun j _ => hb j, fun k => by rw [hb], fun k => .inl (by rw [hb])⟩, hb⟩
  · have e : ∀ (u : State) G, (onTeam u c.key G).kept = u.kept := fun u G => by unfold onTeam; split <;> rfl
    exact (e _ _).trans ((e s F).trans (e s _).symm)
  · refine congrArg _ ((team?_onTeam ..).trans ?_)
    rw [team?_onTeam]
    show (if c.key = k then ((team? (onTeam s c.key F) k).map _) else team? (onTeam s c.key F) k) = _
    rw [team?_onTeam]
    split <;> simp [Option.map_map, Function.comp_def]

/-! ## Joins -/

/-- Some entry of a frontier holds lane `l` waiting at a JOINW on mask `k`. -/
def Waits (es : List Entry) (k l : Nat) : Prop := ∃ e ∈ es, e.wait = some (.join k) ∧ e.mask.getLsbD l = true

theorem joinWaiting_iff (t : Team) (k l : Nat) : (joinWaiting t k).getLsbD l = true ↔ Waits t.front k l := by
  have key : ∀ (es : List Entry) (m : Word),
      (es.foldl (fun m e => if e.wait = some (.join k) then m ||| e.mask else m) m).getLsbD l = true ↔
        m.getLsbD l = true ∨ Waits es k l := by
    intro es
    induction es with
    | nil => intro m; simp [Waits]
    | cons e r ih =>
      intro m
      rw [List.foldl_cons, ih]
      simp only [Waits, List.mem_cons, exists_eq_or_imp]
      split
      · rename_i h; simp [h, or_assoc]
      · rename_i h; simp [h]
  unfold joinWaiting
  rw [key]
  simp

theorem Waits.cons {e : Entry} {r : List Entry} {k l : Nat} (h : Waits (e :: r) k l) : Waits [e] k l ∨ Waits r k l := by
  obtain ⟨x, hx, hw⟩ := h
  rcases List.mem_cons.1 hx with rfl | hx
  · exact .inl ⟨x, by simp, hw⟩
  · exact .inr ⟨x, hx, hw⟩

theorem Waits.sub {a b : List Entry} {k l : Nat} (h : Waits a k l) (s : ∀ e ∈ a, e ∈ b) : Waits b k l := by
  obtain ⟨x, hx, hw⟩ := h
  exact ⟨x, s x hx, hw⟩

theorem Waits.append {a b : List Entry} {k l : Nat} (h : Waits (a ++ b) k l) : Waits a k l ∨ Waits b k l := by
  obtain ⟨x, hx, hw⟩ := h
  rcases List.mem_append.1 hx with hx | hx
  · exact .inl ⟨x, hx, hw⟩
  · exact .inr ⟨x, hx, hw⟩

theorem Waits.insert {e : Entry} {f : List Entry} {k l : Nat} (h : Waits (insertEntry e f) k l) : Waits [e] k l ∨ Waits f k l := by
  induction f with
  | nil => exact .inl h
  | cons x r ih =>
    unfold insertEntry at h
    split at h
    · rename_i he
      simp only [Bool.and_eq_true, decide_eq_true_eq] at he
      obtain ⟨y, hy, hw, hl⟩ := h
      rcases List.mem_cons.1 hy with rfl | hy
      · simp only [BitVec.getLsbD_or, Bool.or_eq_true] at hl
        rcases hl with hl | hl
        · exact .inr ⟨x, by simp, hw, hl⟩
        · exact .inl ⟨e, by simp, he.2 ▸ hw, hl⟩
      · exact .inr ⟨y, by simp [hy], hw, hl⟩
    · split at h
      · exact h.cons
      · rcases h.cons with h | h
        · exact .inr (h.sub (by simp))
        · exact (ih h).imp id fun h => h.sub fun e he => List.mem_cons_of_mem _ he

/-- Making a frontier of entries makes no lane wait. -/
theorem Waits.rebuild {es : List Entry} {k l : Nat} (h : Waits (rebuild es) k l) : Waits es k l := by
  have key : ∀ (es f : List Entry), Waits (es.foldl (fun f e => if e.mask = 0 then f else insertEntry e f) f) k l →
      Waits f k l ∨ Waits es k l := by
    intro es
    induction es with
    | nil => exact fun f h => .inl h
    | cons e r ih =>
      intro f h
      rw [List.foldl_cons] at h
      have hr : Waits r k l → Waits (e :: r) k l := fun h => h.sub fun x hx => List.mem_cons_of_mem _ hx
      rcases ih _ h with h | h
      · split at h
        · exact .inl h
        · rcases h.insert with h | h
          · exact .inr (h.sub (by simp))
          · exact .inl h
      · exact .inr (hr h)
  exact (key es [] h).resolve_left fun h => by obtain ⟨x, hx, _⟩ := h; cases hx

theorem Waits.drop {es : List Entry} {m : Word} {k l : Nat} (h : Waits (dropLanes es m) k l) : Waits es k l := by
  obtain ⟨x, hx, hw, hl⟩ := h
  obtain ⟨y, hy, rfl⟩ := List.mem_map.1 (List.mem_filter.1 hx).1
  simp only [BitVec.getLsbD_and, Bool.and_eq_true] at hl
  exact ⟨y, hy, hw, hl.1⟩

theorem Waits.age {es : List Entry} {ready : Entry → Bool} {e : Entry} {k l : Nat} (h : Waits (ageEntries es ready e) k l) :
    Waits es k l := by
  obtain ⟨x, hx, hw, hl⟩ := h
  obtain ⟨y, hy, rfl⟩ := List.mem_map.1 hx
  refine ⟨y, hy, ?_, ?_⟩
  · split at hw
    · exact hw
    · split at hw <;> exact hw
  · split at hl
    · exact hl
    · split at hl <;> exact hl

/-- Entries that wait at no JOINW. -/
def NoJoin (es : List Entry) : Prop := ∀ e ∈ es, ∀ k, e.wait ≠ some (.join k)

theorem NoJoin.not {es : List Entry} {k l : Nat} (h : NoJoin es) : ¬ Waits es k l := fun ⟨e, he, hw, _⟩ => h e he k hw

theorem NoJoin.spread {c : Ctx} {front es : List Entry} (h : NoJoin es) : NoJoin (c.spread front es) := by
  unfold Ctx.spread
  split
  · exact h
  · intro x hx k
    obtain ⟨e, he, hx⟩ := List.mem_flatMap.1 hx
    obtain ⟨y, hy, hx⟩ := List.mem_flatMap.1 hx
    have hw : y.wait = e.wait := by
      split at hy
      · rcases List.mem_cons.1 hy with rfl | hy
        · rfl
        · rcases List.mem_cons.1 hy with rfl | hy
          · rfl
          · cases hy
      · rcases List.mem_cons.1 hy with rfl | hy
        · rfl
        · cases hy
    have hx' : x.wait = y.wait := by
      split at hx
      · obtain ⟨z, _, rfl⟩ := List.mem_map.1 hx; rfl
      · rcases List.mem_cons.1 hx with rfl | hx
        · rfl
        · cases hx
    rw [hx', hw]
    exact h e he k

/-- The issue of an instruction that moves its lanes to no JOINW makes none wait there. -/
theorem advanceTeam_waits {c : Ctx} {moves : Option (List Entry)} {t : Team} (hm : ∀ l, moves = some l → NoJoin l) {k l : Nat}
    (h : Waits (advanceTeam c moves t).front k l) : Waits t.front k l := by
  have hd : NoJoin [c.goTo c.nextPc c.cur.mask] := by
    intro e he k
    rcases List.mem_cons.1 he with rfl | he
    · exact fun h => by cases h
    · cases he
  unfold advanceTeam at h
  dsimp only at h
  split at h
  · split at h
    · rcases h.rebuild.append with h | h
      · exact h.drop
      · exact absurd h (hm _ rfl).spread.not
    · exact h
  · rcases h.rebuild.append with h | h
    · exact h.drop.age
    · refine absurd h (NoJoin.spread ?_).not
      split
      · exact hm _ rfl
      · exact hd

/-- A join completes only where every lane of its mask waits (07 R123); then the mask is cleared and no lane waits anew. -/
theorem joinCheck_kept (t : Team) (k : Nat) :
    (joinCheck t k).kept = t.kept ∧ (∀ j l, Waits (joinCheck t k).front j l → Waits t.front j l) ∧
      ∀ j, MaskStands t (joinCheck t k) j (Team.mask t j) := by
  unfold joinCheck
  dsimp only
  split
  · rename_i h
    simp only [Bool.and_eq_true, decide_eq_true_eq] at h
    refine ⟨rfl, fun j l h => ?_, fun j => ?_⟩
    · obtain ⟨x, hx, hw, hl⟩ := h.rebuild
      obtain ⟨y, hy, rfl⟩ := List.mem_map.1 hx
      split at hw
      · cases hw
      · rename_i hn
        rw [if_neg hn] at hl
        exact ⟨y, hy, hw, hl⟩
    · unfold MaskStands
      by_cases hj : k = j
      · subst hj
        exact .inr ⟨by simp [Team.mask], h.2⟩
      · exact .inl (by simp [Team.mask, hj])
  · exact ⟨rfl, fun _ _ h => h, fun _ => .inl rfl⟩

/-- One mask condition after another. -/
theorem MaskStands.trans {a b d : Team} {k : Nat} {m : Word} (h : MaskStands a b k m) (w : ∀ l, Waits b.front k l → Waits a.front k l)
    (h' : MaskStands b d k (Team.mask b k)) : MaskStands a d k m := by
  have hs : ∀ x : Word, x &&& ~~~(joinWaiting b k) = 0 → x &&& ~~~(joinWaiting a k) = 0 := by
    intro x hx
    apply BitVec.eq_of_getLsbD_eq
    intro l hl
    have := congrArg (fun w : Word => w.getLsbD l) hx
    have hw := fun h => (joinWaiting_iff a k l).2 (w l ((joinWaiting_iff b k l).1 h))
    revert this
    simp only [BitVec.getLsbD_and, BitVec.getLsbD_not, hl, decide_true, Bool.true_and]
    cases x.getLsbD l
    · simp
    · cases hb : (joinWaiting b k).getLsbD l
      · simp
      · simp [hw hb]
  rcases h' with e | ⟨e, e'⟩
  · unfold MaskStands; rw [e]; exact h
  · rcases h with f | ⟨_, f⟩
    · exact .inr ⟨e, hs m (f ▸ e')⟩
    · exact .inr ⟨e, f⟩

/-- Joins change a team's frontier and clear the rejoin masks of which every lane waits, and nothing else. -/
theorem joinChecks_kept (t : Team) :
    (joinChecks t).kept = t.kept ∧ ∀ j, MaskStands t (joinChecks t) j (Team.mask t j) := by
  have h0 := joinCheck_kept t 0
  have h1 := joinCheck_kept (joinCheck t 0) 1
  have h2 := joinCheck_kept (joinCheck (joinCheck t 0) 1) 2
  have h3 := joinCheck_kept (joinCheck (joinCheck (joinCheck t 0) 1) 2) 3
  refine ⟨h3.1.trans (h2.1.trans (h1.1.trans h0.1)), fun j => ?_⟩
  have w1 := fun l h => h0.2.1 j l (h1.2.1 j l h)
  exact (((h0.2.2 j).trans (h0.2.1 j) (h1.2.2 j)).trans w1 (h2.2.2 j)).trans (fun l h => w1 l (h2.2.1 j l h)) (h3.2.2 j)

theorem kept_unstinted (t u : Team) (h : t.unstinted = u.unstinted) : t.kept = u.kept ∧ t.m = u.m := by
  have h1 := congrArg Team.kept h
  have h2 := congrArg Team.m h
  exact ⟨h1, h2⟩

/-- What the end of an instruction that raises no trap leaves unchanged, against the state its effect has made. -/
structure Concludes (c : Ctx) (u t : State) : Prop where
  rest : t.kept = u.kept
  others : ∀ k, k ≠ c.key → (team? t k).map Team.unstinted = (team? u k).map Team.unstinted
  own : ∀ x, team? u c.key = some x → ∃ y, team? t c.key = some y ∧ y.kept = x.kept ∧ ∀ k, MaskStands x y k (Team.mask x k)
  benches : ∀ b, b ≠ c.place.benchNo → bench t b = bench u b
  lanes : ∀ k, (latch (bench t c.place.benchNo) k).lanes = (latch (bench u c.place.benchNo) k).lanes
  valid : ∀ k, (latch (bench t c.place.benchNo) k).valid = (latch (bench u c.place.benchNo) k).valid ∨
    (bench t c.place.benchNo).holder = none

/-- The issue moves a team's frontier and its own bookkeeping, and completes joins. -/
theorem advance_kept (c : Ctx) (r : Done) (hm : ∀ l, r.moves = some l → NoJoin l) (x : Team) :
    (if r.keep then { x with chain := if c.shape.c then x.chain + 1 else 0 } else joinChecks (advanceTeam c r.moves x)).kept = x.kept ∧
      ∀ j, MaskStands x (if r.keep then { x with chain := if c.shape.c then x.chain + 1 else 0 }
        else joinChecks (advanceTeam c r.moves x)) j (Team.mask x j) := by
  split
  · exact ⟨rfl, fun _ => .inl rfl⟩
  · have h := joinChecks_kept (advanceTeam c r.moves x)
    exact ⟨h.1, fun j => MaskStands.trans (b := advanceTeam c r.moves x) (.inl rfl) (fun _ h => advanceTeam_waits hm h) (h.2 j)⟩

theorem onTeam_concludes (c : Ctx) (u : State) (F : Team → Team) (hF : ∀ x, (F x).kept = x.kept ∧
    ∀ j, MaskStands x (F x) j (Team.mask x j)) (t : State)
    (q : Quiet c.place.benchNo (onTeam u c.key F) t) : Concludes c u t := by
  have hk : (onTeam u c.key F).kept = u.kept := by unfold onTeam; split <;> rfl
  refine ⟨q.rest.trans hk, fun k hne => ?_, fun x hx => ?_, fun b hb' => (q.benches b hb').trans (bench_onTeam _ _ _ _), fun k => ?_,
    fun k => ?_⟩
  · refine (q.teams k).trans ?_
    rw [team?_onTeam, if_neg (Ne.symm hne)]
  · have hq := q.teams c.key
    rw [team?_onTeam, if_pos rfl, hx, Option.map_some, Option.map_some] at hq
    obtain ⟨y, hy, e⟩ := Option.map_eq_some_iff.1 hq
    obtain ⟨e1, e2⟩ := kept_unstinted _ _ e
    refine ⟨y, hy, e1.trans (hF x).1, fun k => ?_⟩
    have hm : Team.mask y k = Team.mask (F x) k := by unfold Team.mask; rw [e2]
    unfold MaskStands
    rw [hm]
    exact (hF x).2 k
  · rw [q.lanes k, bench_onTeam]
  · rw [← bench_onTeam u c.key _ F]; exact q.valid k

theorem conclude_concludes (c : Ctx) (r : Done) (hf : r.fail = none) (hp : r.post = none)
    (hm : ∀ l, r.moves = some l → NoJoin l) : Concludes c r.s (conclude c r) := by
  unfold conclude
  rw [hf, hp]
  dsimp only
  generalize hF : (fun t => if r.keep then { t with chain := if c.shape.c then t.chain + 1 else 0 }
    else joinChecks (advanceTeam c r.moves t)) = F
  have hk : ∀ x, (F x).kept = x.kept ∧ ∀ j, MaskStands x (F x) j (Team.mask x j) := by
    subst hF; exact advance_kept c r hm
  exact onTeam_concludes c r.s (fun t =>
    { F t with first := none, parking := (F t).parking.filter fun p => !(p.pc = c.cur.start && p.mask &&& c.cur.mask ≠ 0) })
    (fun x => ⟨(hk x).1, (hk x).2⟩) _
    (Quiet.stint (dropFetched_quiet c c.place.benchNo r.s F) (stintCheck_quiet _ ..))

/-- What the effect of an instruction has changed before the instruction concludes: as `Frame`, with the frontier and the rejoin masks
of its team as they were. -/
structure Effect (g : Team → Team) (c : Ctx) (s u : State) : Prop where
  rest : u.kept = s.kept
  others : ∀ k, k ≠ c.key → (team? u k).map Team.unstinted = (team? s k).map Team.unstinted
  own : ∃ x, team? u c.key = some x ∧ g x.kept = g c.team.kept ∧ x.m = c.team.m ∧ x.front = c.team.front
  benches : ∀ b, b ≠ c.place.benchNo → bench u b = bench s b

theorem Effect.concludes {g : Team → Team} {c : Ctx} {s u t : State} (h : Effect g c s u) (k : Concludes c u t) :
    Frame g c s t where
  rest := k.rest.trans h.rest
  others j hj := (k.others j hj).trans (h.others j hj)
  own := by
    obtain ⟨x, hx, hg, hm, hf⟩ := h.own
    obtain ⟨y, hy, hk, hn⟩ := k.own x hx
    refine ⟨y, hy, by rw [hk, hg], fun j => ?_⟩
    have e : Team.mask x j = Team.mask c.team j := by unfold Team.mask; rw [hm]
    have w : joinWaiting x j = joinWaiting c.team j := by unfold joinWaiting; rw [hf]
    have := hn j
    unfold MaskStands at this ⊢
    rw [← e, ← w]; exact this
  benches b hb := (k.benches b hb).trans (h.benches b hb)

/-! ## The instruction that issues -/

theorem context_team {h : Shape} {s : State} {c : Ctx} (e : context h s = some c) :
    team? s c.key = some c.team ∧ c.shape = h ∧ s.cur = some c.cur ∧ c.cur.team = c.key ∧ c.team.place = some c.place := by
  unfold context at e
  split at e
  · cases e
  · split at e
    · cases e
    · split at e
      · cases e
      · rename_i hu _ _ ht _ _ hp
        dsimp only at e
        injection e with e
        subst e
        exact ⟨ht, rfl, hu, rfl, hp⟩

/-- An instruction that passes its checks and its own is concluded after its effect. -/
theorem performPriv_go {h : Shape} {priv : Ctx → State → Option Nat} {own : Ctx → State → Gate} {eff : Ctx → State → Done}
    {s : State} {c : Ctx} (hc : context h s = some c) (hk : checks priv c s = .ok) (hg : own c s = .go) :
    performPriv h priv own eff s = .next (conclude c (eff c s)) := by
  simp only [performPriv, hc, issue, hk, hg]

theorem performGated_go {h : Shape} {own : Ctx → State → Gate} {eff : Ctx → State → Done} {s : State} {c : Ctx}
    (hc : context h s = some c) (hk : checks privCheck c s = .ok) (hg : own c s = .go) :
    performGated h own eff s = .next (conclude c (eff c s)) := performPriv_go hc hk hg

theorem perform_go {h : Shape} {eff : Ctx → State → State} {s : State} {c : Ctx} (hc : context h s = some c)
    (hk : checks privCheck c s = .ok) : perform h eff s = .next (conclude c { s := eff c s }) := performGated_go hc hk rfl

/-! ## What is written -/

/-- A change of the issuing team alone. -/
theorem onTeam_effect {g : Team → Team} {c : Ctx} {s : State} {F : Team → Team} (ht : team? s c.key = some c.team)
    (hF : g (F c.team).kept = g c.team.kept) (hm : (F c.team).m = c.team.m) (hf : (F c.team).front = c.team.front) :
    Effect g c s (onTeam s c.key F) where
  rest := by unfold onTeam; split <;> rfl
  others k hk := by rw [team?_onTeam, if_neg (Ne.symm hk)]
  own := ⟨F c.team, by rw [team?_onTeam, if_pos rfl, ht]; rfl, hF, hm, hf⟩
  benches b _ := bench_onTeam _ _ _ _

theorem Effect.refl {g : Team → Team} {c : Ctx} {s : State} (ht : team? s c.key = some c.team) : Effect g c s s :=
  ⟨rfl, fun _ _ => rfl, ⟨c.team, ht, rfl, rfl, rfl⟩, fun _ _ => rfl⟩

theorem Effect.enterLatch {g : Team → Team} {c : Ctx} {s u : State} (h : Effect g c s u) (f : Nat → Cell) :
    Effect g c s (enterLatch c f u) where
  rest := h.rest
  others := h.others
  own := h.own
  benches b hb := by rw [← h.benches b hb]; simp [Machine.enterLatch, bench, setBench, Ne.symm hb]

theorem laneList_get {α : Type} (f : Nat → α) (d : α) (l : Nat) (hl : l < 32) : (laneList.map f).getD l d = f l := by
  have : laneList = List.range 32 := by decide
  rw [this]
  simp [List.getD_eq_getElem?_getD, hl]

/-- A lane of a vector register after a write of one. -/
theorem reg_setReg (t : Team) (d r l : Nat) (act : Word) (f : Nat → Cell) (hl : l < 32) :
    Team.reg (Team.setReg t d act f) r l = if d = r ∧ r ≠ 124 ∧ act.getLsbD l = true then f l else Team.reg t r l := by
  unfold Team.setReg
  split
  · subst_vars
    split
    · rename_i h; exact absurd h.1.symm h.2.1
    · rfl
  · rename_i hd
    unfold Team.reg
    rw [Tab.getD_put]
    by_cases hr : d = r
    · subst hr
      rw [if_pos rfl, laneList_get _ _ _ hl]
      simp [hd]
    · simp [hr]

theorem scalar_setScalar (t : Team) (d r : Nat) (x : Word) : Team.scalar (Team.setScalar t d x) r = if d = r then x else Team.scalar t r := by
  simp [Team.scalar, Team.setScalar]

theorem scalar_setScalars (xs : List Word) (t : Team) (d r : Nat) :
    Team.scalar (Team.setScalars t d xs) r = if d ≤ r ∧ r < d + xs.length then xs.getD (r - d) 0 else Team.scalar t r := by
  induction xs generalizing t d with
  | nil => simp only [Team.setScalars, List.length_nil]; rw [if_neg (by omega)]
  | cons x xs ih =>
    simp only [Team.setScalars, ih, scalar_setScalar, List.length_cons]
    by_cases h1 : d = r
    · subst h1; simp
    · by_cases h2 : d + 1 ≤ r ∧ r < d + 1 + xs.length
      · have h3 : d ≤ r ∧ r < d + (xs.length + 1) := by omega
        rw [if_pos h2, if_pos h3, show r - d = (r - (d + 1)) + 1 by omega, List.getD_cons_succ]
      · have h3 : ¬(d ≤ r ∧ r < d + (xs.length + 1)) := by omega
        rw [if_neg h2, if_neg h3, if_neg h1]

theorem setScalars_kept (xs : List Word) (t : Team) (d : Nat) :
    (Team.setScalars t d xs).kept.sansS = t.kept.sansS ∧ (Team.setScalars t d xs).m = t.m ∧
      (Team.setScalars t d xs).front = t.front := by
  induction xs generalizing t d with
  | nil => exact ⟨rfl, rfl, rfl⟩
  | cons x xs ih =>
    have h := ih (Team.setScalar t d x) (d + 1)
    exact ⟨h.1.trans rfl, h.2.1.trans rfl, h.2.2.trans rfl⟩

theorem pred_setPred (t : Team) (d r l : Nat) (act m : Word) (hl : l < 32) (hr : r ≠ 15) :
    (Team.pred (Team.setPred t d act m) r).getLsbD l =
      if d = r ∧ act.getLsbD l = true then m.getLsbD l else (Team.pred t r).getLsbD l := by
  unfold Team.setPred Team.pred
  rw [if_neg hr, if_neg hr]
  simp only [Tab.getD_put]
  by_cases h : d = r
  · subst h
    rw [if_pos rfl, if_neg hr]
    simp only [BitVec.getLsbD_or, BitVec.getLsbD_and, BitVec.getLsbD_not, hl, decide_true, Bool.true_and]
    cases act.getLsbD l <;> simp
  · simp [h]

/-! ## Results -/

/-- What `writeVector` does. -/
theorem writeVector_result {c : Ctx} {s : State} {f : Nat → Cell} (ht : team? s c.key = some c.team) :
    Effect Team.sansV c s (writeVector c f s) ∧ VectorWritten c f (writeVector c f s) ∧
      LatchEntered c f s (writeVector c f s) ∧ (latch (bench (writeVector c f s) c.place.benchNo) 0).valid = true := by
  have hb : ∀ u : State, (∀ k, bench u k = bench s k) → ((bench (enterLatch c f u) c.place.benchNo).latches =
      [⟨true, laneList.map fun i => if c.active i then f i else {}⟩, latch (bench s c.place.benchNo) 0,
        latch (bench s c.place.benchNo) 1, latch (bench s c.place.benchNo) 2]) := by
    intro u hu
    simp only [enterLatch, bench, setBench, Tab.getD_put, if_true, pushLatch]
    have := hu c.place.benchNo
    unfold bench at this
    rw [this]
  have hl : ∀ u : State, (∀ k, bench u k = bench s k) → LatchEntered c f s (enterLatch c f u) ∧
      (latch (bench (enterLatch c f u) c.place.benchNo) 0).valid = true := by
    intro u hu
    have e := hb u hu
    refine ⟨⟨fun l hl => ?_, fun k hk => ?_, .inl ?_⟩, ?_⟩
    · unfold latch; rw [e]; exact laneList_get (fun i => if c.active i then f i else {}) _ _ hl
    · unfold latch; rw [e]
      have : k = 0 ∨ k = 1 ∨ k = 2 := by omega
      rcases this with rfl | rfl | rfl <;> rfl
    · unfold latch; rw [e]; rfl
    · unfold latch; rw [e]; rfl
  unfold writeVector
  dsimp only
  split
  · rename_i d hd
    refine ⟨Effect.enterLatch (onTeam_effect ht ?_ ?_ ?_) f, ?_, hl _ fun k => bench_onTeam _ _ _ _⟩
    · unfold Team.setReg; split <;> rfl
    · unfold Team.setReg; split <;> rfl
    · unfold Team.setReg; split <;> rfl
    · refine ⟨Team.setReg c.team d.1.toNat c.act f, ?_, fun r l hl' => ?_⟩
      · show team? (onTeam s c.key _) c.key = _
        rw [team?_onTeam, if_pos rfl, ht]; rfl
      · rw [reg_setReg _ _ _ _ _ _ hl', hd]
        simp only [Option.any_some, Ctx.active, Bool.and_eq_true, decide_eq_true_eq, and_assoc]
  · rename_i hd
    refine ⟨Effect.enterLatch (Effect.refl ht) f, ⟨c.team, ht, fun r l _ => ?_⟩, hl _ fun _ => rfl⟩
    rw [hd]; simp

theorem LatchEntered.concludes {c : Ctx} {s u t : State} {f : Nat → Cell} (h : LatchEntered c f s u)
    (hv : (latch (bench u c.place.benchNo) 0).valid = true) (k : Concludes c u t) : LatchEntered c f s t := by
  refine ⟨fun l hl => ?_, fun j hj => ?_, ?_⟩
  · rw [k.lanes]; exact h.1 l hl
  · rw [k.lanes]; exact h.2.1 j hj
  · rw [← hv]; exact k.valid 0

theorem reg_kept {x y : Team} (h : y.kept = x.kept) (r l : Nat) : Team.reg y r l = Team.reg x r l := by
  have : y.v = x.v := (congrArg Team.v h : y.kept.v = x.kept.v)
  unfold Team.reg; rw [this]

theorem scalar_kept {x y : Team} (h : y.kept = x.kept) (r : Nat) : Team.scalar y r = Team.scalar x r := by
  have : y.s = x.s := (congrArg Team.s h : y.kept.s = x.kept.s)
  unfold Team.scalar; rw [this]

theorem pred_kept {x y : Team} (h : y.kept = x.kept) (r : Nat) : Team.pred y r = Team.pred x r := by
  have : y.p = x.p := (congrArg Team.p h : y.kept.p = x.kept.p)
  unfold Team.pred; rw [this]

theorem VectorWritten.concludes {c : Ctx} {u t : State} {f : Nat → Cell} (h : VectorWritten c f u) (k : Concludes c u t) :
    VectorWritten c f t := by
  obtain ⟨x, hx, hr⟩ := h
  obtain ⟨y, hy, hk, _⟩ := k.own x hx
  exact ⟨y, hy, fun r l hl => by rw [reg_kept hk]; exact hr r l hl⟩

theorem GroupWritten.concludes {c : Ctx} {u t : State} {n : Nat} {f : Nat → Nat → Cell} (h : GroupWritten c n f u)
    (k : Concludes c u t) : GroupWritten c n f t := by
  obtain ⟨x, hx, hr⟩ := h
  obtain ⟨y, hy, hk, _⟩ := k.own x hx
  exact ⟨y, hy, fun r l hl => by rw [reg_kept hk]; exact hr r l hl⟩

theorem ScalarsWritten.concludes {c : Ctx} {u t : State} {xs : List Word} (h : ScalarsWritten c xs u) (k : Concludes c u t) :
    ScalarsWritten c xs t := by
  obtain ⟨x, hx, hr⟩ := h
  obtain ⟨y, hy, hk, _⟩ := k.own x hx
  exact ⟨y, hy, fun r => by rw [scalar_kept hk]; exact hr r⟩

theorem PredWritten.concludes {c : Ctx} {u t : State} {m : Nat → Bool} (h : PredWritten c m u) (k : Concludes c u t) :
    PredWritten c m t := by
  obtain ⟨x, hx, hr⟩ := h
  obtain ⟨y, hy, hk, _⟩ := k.own x hx
  exact ⟨y, hy, fun r l hl => by rw [pred_kept hk]; exact hr r l hl⟩

theorem LatchesKept.concludes {c : Ctx} {s u t : State} (h : ∀ k, bench u k = bench s k) (k : Concludes c u t) :
    LatchesKept c s t := fun j => by
  rw [← h c.place.benchNo]
  exact ⟨k.lanes j, k.valid j⟩

/-- What `writeScalars` does. -/
theorem writeScalars_result {c : Ctx} {s : State} {xs : List Word} (ht : team? s c.key = some c.team) :
    Effect Team.sansS c s (writeScalars c xs s) ∧ ScalarsWritten c xs (writeScalars c xs s) ∧
      ∀ k, bench (writeScalars c xs s) k = bench s k := by
  unfold writeScalars
  split
  · rename_i d hd
    refine ⟨onTeam_effect ht (setScalars_kept _ _ _).1 (setScalars_kept _ _ _).2.1 (setScalars_kept _ _ _).2.2, ⟨Team.setScalars c.team d.1.toNat xs, ?_, fun r => ?_⟩, fun k => bench_onTeam _ _ k _⟩
    · rw [team?_onTeam, if_pos rfl, ht]; rfl
    · rw [scalar_setScalars, hd]; simp only [Bool.and_eq_true, decide_eq_true_eq]
  · rename_i hd
    refine ⟨Effect.refl ht, ⟨c.team, ht, fun r => ?_⟩, fun _ => rfl⟩
    rw [hd]

/-- What `writePred` does. -/
theorem writePred_result {c : Ctx} {s : State} {m : Word} (ht : team? s c.key = some c.team) :
    Effect Team.sansP c s (writePred c m s) ∧ PredWritten c m.getLsbD (writePred c m s) ∧
      ∀ k, bench (writePred c m s) k = bench s k := by
  unfold writePred
  split
  · rename_i d hd
    refine ⟨onTeam_effect ht rfl rfl rfl, ⟨Team.setPred c.team d.toNat c.act m, ?_, fun r l hl => ?_⟩, fun k => bench_onTeam _ _ k _⟩
    · rw [team?_onTeam, if_pos rfl, ht]; rfl
    · by_cases hr : r = 15
      · subst hr; simp [Team.pred, hl]
      · rw [pred_setPred _ _ _ _ _ _ hl hr, hd]
        simp [hr, Ctx.active]
  · rename_i hd
    refine ⟨Effect.refl ht, ⟨c.team, ht, fun r l _ => ?_⟩, fun _ => rfl⟩
    rw [hd]; simp

theorem lane_result {c : Ctx} {s : State} {f : Nat → Cell} (ht : team? s c.key = some c.team) :
    LaneResult c f s (conclude c { s := writeVector c f s }) := by
  have h := writeVector_result (f := f) ht
  have k := conclude_concludes c { s := writeVector c f s } rfl rfl (fun _ e => by cases e)
  exact ⟨h.2.1.concludes k, h.2.2.1.concludes h.2.2.2 k, h.1.concludes k⟩

theorem scalar_result {c : Ctx} {s : State} {xs : List Word} (ht : team? s c.key = some c.team) :
    ScalarResult c xs s (conclude c { s := writeScalars c xs s }) := by
  have h := writeScalars_result (xs := xs) ht
  have k := conclude_concludes c { s := writeScalars c xs s } rfl rfl (fun _ e => by cases e)
  exact ⟨h.2.1.concludes k, .concludes h.2.2 k, h.1.concludes k⟩

theorem pred_result {c : Ctx} {s : State} {m : Word} (ht : team? s c.key = some c.team) :
    PredResult c m.getLsbD s (conclude c { s := writePred c m s }) := by
  have h := writePred_result (m := m) ht
  have k := conclude_concludes c { s := writePred c m s } rfl rfl (fun _ e => by cases e)
  exact ⟨h.2.1.concludes k, .concludes h.2.2 k, h.1.concludes k⟩

end Sys2Proof.Machine
end

