-- ==== Sys2Proof/Laws/PerInstr.lean ====
section
/-! SUPPORT. Family Encoding: the parser reads from the word of an encoded instruction that instruction, every field at every value. -/

namespace Sys2Proof.Laws.Encoding

open Sys2Proof

/-- The parser gives back the instruction that the encoder packed (03 R51, R52). -/
def Statement (i : Instr) : Prop := i.encoded = true → parse (encode i) = .ok i

theorem stintStart (bench : Nat) (team : Nat) : Statement (.stintStart bench team) := fun h => nomatch h
theorem instructionFetch (team : Nat) (pc : Nat) : Statement (.instructionFetch team pc) := fun h => nomatch h
theorem trapDelivery (team : Nat) : Statement (.trapDelivery team) := fun h => nomatch h
theorem teamEviction (team : Nat) : Statement (.teamEviction team) := fun h => nomatch h
theorem crewPlacement (crew : Nat) : Statement (.crewPlacement crew) := fun h => nomatch h
theorem binTimerExpiry (core : Nat) (bin : Nat) : Statement (.binTimerExpiry core bin) := fun h => nomatch h
theorem crewMigration (crew : Nat) (core : Nat) : Statement (.crewMigration crew core) := fun h => nomatch h
theorem steeringInterval (comp : Nat) : Statement (.steeringInterval comp) := fun h => nomatch h
theorem stopRequest (comp : Nat) (sliceEnd : Nat) : Statement (.stopRequest comp sliceEnd) := fun h => nomatch h
theorem graceExpiry (team : Nat) : Statement (.graceExpiry team) := fun h => nomatch h
theorem deferralExpiry (crew : Nat) : Statement (.deferralExpiry crew) := fun h => nomatch h
theorem saveReport (comp : Nat) : Statement (.saveReport comp) := fun h => nomatch h
theorem tenantSwitch (outgoing : Nat) (incoming : Nat) : Statement (.tenantSwitch outgoing incoming) := fun h => nomatch h
theorem queueBounce (req : Nat) : Statement (.queueBounce req) := fun h => nomatch h
theorem bounceArrival (req : Nat) : Statement (.bounceArrival req) := fun h => nomatch h
theorem reissueBackoffExpiry (req : Nat) : Statement (.reissueBackoffExpiry req) := fun h => nomatch h
theorem pannierReissue (req : Nat) : Statement (.pannierReissue req) := fun h => nomatch h
theorem translationWalk (req : Nat) : Statement (.translationWalk req) := fun h => nomatch h
theorem faultRecordRetry (comp : Nat) (region : Nat) : Statement (.faultRecordRetry comp region) := fun h => nomatch h
theorem memoryRequestPerformed (req : Nat) (ecc : Ecc) : Statement (.memoryRequestPerformed req ecc) := fun h => nomatch h
theorem ownershipRegistration (core : Nat) (word : Nat) : Statement (.ownershipRegistration core word) := fun h => nomatch h
theorem writeBack (core : Nat) (line : Nat) : Statement (.writeBack core line) := fun h => nomatch h
theorem writebackTimeLimit (core : Nat) (line : Nat) : Statement (.writebackTimeLimit core line) := fun h => nomatch h
theorem waitcTimeout (team : Nat) (pc : Nat) : Statement (.waitcTimeout team pc) := fun h => nomatch h
theorem sleepExpiry (team : Nat) (pc : Nat) : Statement (.sleepExpiry team pc) := fun h => nomatch h
theorem promwDeadline (team : Nat) (pc : Nat) : Statement (.promwDeadline team pc) := fun h => nomatch h
theorem matrixGrant (cluster : Nat) : Statement (.matrixGrant cluster) := fun h => nomatch h
theorem matrixCompletion (cluster : Nat) : Statement (.matrixCompletion cluster) := fun h => nomatch h
theorem fourInHandGrant (hitch : Nat) (comp : Nat) (opid : Nat) : Statement (.fourInHandGrant hitch comp opid) := fun h => nomatch h
theorem fourInHandCompletion (hitch : Nat) : Statement (.fourInHandCompletion hitch) := fun h => nomatch h
theorem harnessError (hitch : Nat) : Statement (.harnessError hitch) := fun h => nomatch h
theorem copyAccept (cmd : Nat) : Statement (.copyAccept cmd) := fun h => nomatch h
theorem copyStart (cmd : Nat) : Statement (.copyStart cmd) := fun h => nomatch h
theorem copyFault (cmd : Nat) : Statement (.copyFault cmd) := fun h => nomatch h
theorem copyCompletion (cmd : Nat) : Statement (.copyCompletion cmd) := fun h => nomatch h
theorem claimAnnouncement (core : Nat) (a : Announcement) : Statement (.claimAnnouncement core a) := fun h => nomatch h
theorem objectionArrival (core : Nat) (o : Objection) : Statement (.objectionArrival core o) := fun h => nomatch h
theorem objectionAnswer (team : Nat) (proposal : BitVec 32) (late : Bool) : Statement (.objectionAnswer team proposal late) := fun h => nomatch h
theorem claimWindowClose (core : Nat) (handle : Nat) : Statement (.claimWindowClose core handle) := fun h => nomatch h
theorem membershipUpdate (comp : Nat) (u : Membership) : Statement (.membershipUpdate comp u) := fun h => nomatch h
theorem ticketPoll (comp : Nat) (region : Nat) : Statement (.ticketPoll comp region) := fun h => nomatch h
theorem traincfg (v : BitVec 32) : Statement (.traincfg v) := fun h => nomatch h
theorem linkcfg (link : Nat) (v : BitVec 32) : Statement (.linkcfg link v) := fun h => nomatch h
theorem bound (deck : Nat) (kind : Nat) (v : BitVec 32) : Statement (.bound deck kind v) := fun h => nomatch h
theorem engerr (cluster : Nat) (v : BitVec 32) : Statement (.engerr cluster v) := fun h => nomatch h
theorem linkDown (link : Nat) : Statement (.linkDown link) := fun h => nomatch h
theorem linkUp (link : Nat) : Statement (.linkUp link) := fun h => nomatch h
theorem linkRetrain (link : Nat) : Statement (.linkRetrain link) := fun h => nomatch h
theorem flit (link : Nat) (f : Flit) : Statement (.flit link f) := fun h => nomatch h
theorem retryRequest (link : Nat) (lseq : Nat) : Statement (.retryRequest link lseq) := fun h => nomatch h
theorem postedWrite (m : RemoteWrite) : Statement (.postedWrite m) := fun h => nomatch h
theorem readRequest (m : RemoteRead) : Statement (.readRequest m) := fun h => nomatch h
theorem remoteLoadReply (tag : Nat) (status : ReplyStatus) (data : List (BitVec 8)) : Statement (.remoteLoadReply tag status data) := fun h => nomatch h
theorem acknowledgement (stream : Nat) (coach : Nat) (below : Nat) : Statement (.acknowledgement stream coach below) := fun h => nomatch h
theorem refusal (stream : Nat) (coach : Nat) (what : Refused) (reason : RefuseReason) : Statement (.refusal stream coach what reason) := fun h => nomatch h
theorem streamRetire (stream : Nat) (coach : Nat) : Statement (.streamRetire stream coach) := fun h => nomatch h
theorem unreachable (coach : Nat) : Statement (.unreachable coach) := fun h => nomatch h
theorem doorbell (comp : Nat) (tail : BitVec 32) : Statement (.doorbell comp tail) := fun h => nomatch h
theorem launchRecord (comp : Nat) : Statement (.launchRecord comp) := fun h => nomatch h
theorem messageLaunch (comp : Nat) : Statement (.messageLaunch comp) := fun h => nomatch h
theorem scallServiceReturn (team : Nat) (r : ServiceResult) : Statement (.scallServiceReturn team r) := fun h => nomatch h
theorem hostBar2Access (comp : Nat) (a : Bar2Access) : Statement (.hostBar2Access comp a) := fun h => nomatch h
theorem heqcons (v : BitVec 32) : Statement (.heqcons v) := fun h => nomatch h
theorem registerWrite (t : RegTarget) (v : BitVec 64) : Statement (.registerWrite t v) := fun h => nomatch h
theorem create (comp : Nat) (d : Descriptor) : Statement (.create comp d) := fun h => nomatch h
theorem resize (comp : Nat) (clusters : BitVec 16) : Statement (.resize comp clusters) := fun h => nomatch h
theorem destroy (comp : Nat) : Statement (.destroy comp) := fun h => nomatch h
theorem stop (comp : Nat) : Statement (.stop comp) := fun h => nomatch h
theorem start (comp : Nat) : Statement (.start comp) := fun h => nomatch h
theorem getVersion (m : Spdm) : Statement (.getVersion m) := fun h => nomatch h
theorem getCapabilities (m : Spdm) : Statement (.getCapabilities m) := fun h => nomatch h
theorem negotiateAlgorithms (m : Spdm) : Statement (.negotiateAlgorithms m) := fun h => nomatch h
theorem getDigests (m : Spdm) : Statement (.getDigests m) := fun h => nomatch h
theorem getCertificate (m : Spdm) : Statement (.getCertificate m) := fun h => nomatch h
theorem challenge (m : Spdm) : Statement (.challenge m) := fun h => nomatch h
theorem getMeasurements (m : Spdm) : Statement (.getMeasurements m) := fun h => nomatch h
theorem keyExchange (m : Spdm) : Statement (.keyExchange m) := fun h => nomatch h
theorem finish (m : Spdm) : Statement (.finish m) := fun h => nomatch h
theorem heartbeat (m : Spdm) : Statement (.heartbeat m) := fun h => nomatch h
theorem keyUpdate (m : Spdm) : Statement (.keyUpdate m) := fun h => nomatch h
theorem endSession (m : Spdm) : Statement (.endSession m) := fun h => nomatch h
theorem vendorDefinedRequest (m : Spdm) : Statement (.vendorDefinedRequest m) := fun h => nomatch h
theorem lockInterfaceRequest (comp : Nat) (session : Nat) : Statement (.lockInterfaceRequest comp session) := fun h => nomatch h
theorem startInterfaceRequest (comp : Nat) (session : Nat) : Statement (.startInterfaceRequest comp session) := fun h => nomatch h
theorem stopInterfaceRequest (comp : Nat) (session : Nat) : Statement (.stopInterfaceRequest comp session) := fun h => nomatch h
theorem getDeviceInterfaceReport (comp : Nat) (session : Nat) : Statement (.getDeviceInterfaceReport comp session) := fun h => nomatch h
theorem ideIntegrityFailure (comp : Nat) : Statement (.ideIntegrityFailure comp) := fun h => nomatch h
theorem policyObject (comp : Nat) (obj : List (BitVec 8)) : Statement (.policyObject comp obj) := fun h => nomatch h
theorem flr (comp : Nat) : Statement (.flr comp) := fun h => nomatch h
theorem resetCompletion (comp : Nat) : Statement (.resetCompletion comp) := fun h => nomatch h
theorem powerLimit (deck : Nat) (cores : BitVec 64) : Statement (.powerLimit deck cores) := fun h => nomatch h
theorem thermalTrip : Statement (.thermalTrip) := fun h => nomatch h
theorem powerOn : Statement (.powerOn) := fun h => nomatch h
theorem streamIdleExpiry (stream : Nat) : Statement (.streamIdleExpiry stream) := fun h => nomatch h
theorem iadd (x : V3) : Statement (.iadd x) := fun _ => parse_packV3 _ _ _ _ rfl rfl
theorem isub (x : V3) : Statement (.isub x) := fun _ => parse_packV3 _ _ _ _ rfl rfl
theorem imul (x : V3) : Statement (.imul x) := fun _ => parse_packV3 _ _ _ _ rfl rfl
theorem imulhI (x : V3) : Statement (.imulhI x) := fun _ => parse_packV3 _ _ _ _ rfl rfl
theorem imulhN (x : V3) : Statement (.imulhN x) := fun _ => parse_packV3 _ _ _ _ rfl rfl
theorem imad (x : V3) : Statement (.imad x) := fun _ => parse_packV3 _ _ _ _ rfl rfl
theorem iabsdI (x : V3) : Statement (.iabsdI x) := fun _ => parse_packV3 _ _ _ _ rfl rfl
theorem isadN (x : V3) : Statement (.isadN x) := fun _ => parse_packV3 _ _ _ _ rfl rfl
theorem iminI (x : V3) : Statement (.iminI x) := fun _ => parse_packV3 _ _ _ _ rfl rfl
theorem imaxI (x : V3) : Statement (.imaxI x) := fun _ => parse_packV3 _ _ _ _ rfl rfl
theorem iminN (x : V3) : Statement (.iminN x) := fun _ => parse_packV3 _ _ _ _ rfl rfl
theorem imaxN (x : V3) : Statement (.imaxN x) := fun _ => parse_packV3 _ _ _ _ rfl rfl
theorem iaddsI (x : V3) : Statement (.iaddsI x) := fun _ => parse_packV3 _ _ _ _ rfl rfl
theorem isubsI (x : V3) : Statement (.isubsI x) := fun _ => parse_packV3 _ _ _ _ rfl rfl
theorem iaddsN (x : V3) : Statement (.iaddsN x) := fun _ => parse_packV3 _ _ _ _ rfl rfl
theorem isubsN (x : V3) : Statement (.isubsN x) := fun _ => parse_packV3 _ _ _ _ rfl rfl
theorem and (x : V3) : Statement (.and x) := fun _ => parse_packV3 _ _ _ _ rfl rfl
theorem or (x : V3) : Statement (.or x) := fun _ => parse_packV3 _ _ _ _ rfl rfl
theorem xor (x : V3) : Statement (.xor x) := fun _ => parse_packV3 _ _ _ _ rfl rfl
theorem andn (x : V3) : Statement (.andn x) := fun _ => parse_packV3 _ _ _ _ rfl rfl
theorem orn (x : V3) : Statement (.orn x) := fun _ => parse_packV3 _ _ _ _ rfl rfl
theorem shl (x : V3) : Statement (.shl x) := fun _ => parse_packV3 _ _ _ _ rfl rfl
theorem shr (x : V3) : Statement (.shr x) := fun _ => parse_packV3 _ _ _ _ rfl rfl
theorem sar (x : V3) : Statement (.sar x) := fun _ => parse_packV3 _ _ _ _ rfl rfl
theorem rotl (x : V3) : Statement (.rotl x) := fun _ => parse_packV3 _ _ _ _ rfl rfl
theorem bfxI (x : V3) : Statement (.bfxI x) := fun _ => parse_packV3 _ _ _ _ rfl rfl
theorem bfxN (x : V3) : Statement (.bfxN x) := fun _ => parse_packV3 _ _ _ _ rfl rfl
theorem bfi (x : V3) : Statement (.bfi x) := fun _ => parse_packV3 _ _ _ _ rfl rfl
theorem prmb (x : V3) : Statement (.prmb x) := fun _ => parse_packV3 _ _ _ _ rfl rfl
theorem clz (x : V3) : Statement (.clz x) := fun _ => parse_packV3 _ _ _ _ rfl rfl
theorem popc (x : V3) : Statement (.popc x) := fun _ => parse_packV3 _ _ _ _ rfl rfl
theorem brev (x : V3) : Statement (.brev x) := fun _ => parse_packV3 _ _ _ _ rfl rfl
theorem iaddi (x : VI) : Statement (.iaddi x) := fun _ => parse_packVI _ _ _ _ rfl rfl
theorem shli (x : VI) : Statement (.shli x) := fun _ => parse_packVI _ _ _ _ rfl rfl
theorem shri (x : VI) : Statement (.shri x) := fun _ => parse_packVI _ _ _ _ rfl rfl
theorem sari (x : VI) : Statement (.sari x) := fun _ => parse_packVI _ _ _ _ rfl rfl
theorem andi (x : VI) : Statement (.andi x) := fun _ => parse_packVI _ _ _ _ rfl rfl
theorem ori (x : VI) : Statement (.ori x) := fun _ => parse_packVI _ _ _ _ rfl rfl
theorem xori (x : VI) : Statement (.xori x) := fun _ => parse_packVI _ _ _ _ rfl rfl
theorem rotli (x : VI) : Statement (.rotli x) := fun _ => parse_packVI _ _ _ _ rfl rfl
theorem shfl (x : V3) : Statement (.shfl x) := fun _ => parse_packV3 _ _ _ _ rfl rfl
theorem shflup (x : V3) : Statement (.shflup x) := fun _ => parse_packV3 _ _ _ _ rfl rfl
theorem shfldn (x : V3) : Statement (.shfldn x) := fun _ => parse_packV3 _ _ _ _ rfl rfl
theorem shflx (x : V3) : Statement (.shflx x) := fun _ => parse_packV3 _ _ _ _ rfl rfl
theorem tsumI (x : V3) : Statement (.tsumI x) := fun _ => parse_packV3 _ _ _ _ rfl rfl
theorem tminI (x : V3) : Statement (.tminI x) := fun _ => parse_packV3 _ _ _ _ rfl rfl
theorem tmaxI (x : V3) : Statement (.tmaxI x) := fun _ => parse_packV3 _ _ _ _ rfl rfl
theorem tscanI (x : V3) : Statement (.tscanI x) := fun _ => parse_packV3 _ _ _ _ rfl rfl
theorem mov (x : V3) : Statement (.mov x) := fun _ => parse_packV3 _ _ _ _ rfl rfl
theorem laneid (x : V3) : Statement (.laneid x) := fun _ => parse_packV3 _ _ _ _ rfl rfl
theorem lidx (x : V3) : Statement (.lidx x) := fun _ => parse_packV3 _ _ _ _ rfl rfl
theorem iseq (x : P3) : Statement (.iseq x) := fun _ => parse_packP _ _ _ _ rfl rfl
theorem isne (x : P3) : Statement (.isne x) := fun _ => parse_packP _ _ _ _ rfl rfl
theorem isltI (x : P3) : Statement (.isltI x) := fun _ => parse_packP _ _ _ _ rfl rfl
theorem isleI (x : P3) : Statement (.isleI x) := fun _ => parse_packP _ _ _ _ rfl rfl
theorem isltN (x : P3) : Statement (.isltN x) := fun _ => parse_packP _ _ _ _ rfl rfl
theorem isleN (x : P3) : Statement (.isleN x) := fun _ => parse_packP _ _ _ _ rfl rfl
theorem isany (x : P3) : Statement (.isany x) := fun _ => parse_packP _ _ _ _ rfl rfl
theorem isnone (x : P3) : Statement (.isnone x) := fun _ => parse_packP _ _ _ _ rfl rfl
theorem fseq (x : P3) : Statement (.fseq x) := fun _ => parse_packP _ _ _ _ rfl rfl
theorem fsne (x : P3) : Statement (.fsne x) := fun _ => parse_packP _ _ _ _ rfl rfl
theorem fslt (x : P3) : Statement (.fslt x) := fun _ => parse_packP _ _ _ _ rfl rfl
theorem fsle (x : P3) : Statement (.fsle x) := fun _ => parse_packP _ _ _ _ rfl rfl
theorem fsun (x : P3) : Statement (.fsun x) := fun _ => parse_packP _ _ _ _ rfl rfl
theorem fsord (x : P3) : Statement (.fsord x) := fun _ => parse_packP _ _ _ _ rfl rfl
theorem fsnan (x : P3) : Statement (.fsnan x) := fun _ => parse_packP _ _ _ _ rfl rfl
theorem fsinf (x : P3) : Statement (.fsinf x) := fun _ => parse_packP _ _ _ _ rfl rfl
theorem pand (x : P3) : Statement (.pand x) := fun _ => parse_packP _ _ _ _ rfl rfl
theorem por (x : P3) : Statement (.por x) := fun _ => parse_packP _ _ _ _ rfl rfl
theorem pxor (x : P3) : Statement (.pxor x) := fun _ => parse_packP _ _ _ _ rfl rfl
theorem pnot (x : P3) : Statement (.pnot x) := fun _ => parse_packP _ _ _ _ rfl rfl
theorem pany (x : P3) : Statement (.pany x) := fun _ => parse_packP _ _ _ _ rfl rfl
theorem pall (x : P3) : Statement (.pall x) := fun _ => parse_packP _ _ _ _ rfl rfl
theorem psig (x : P3) : Statement (.psig x) := fun _ => parse_packP _ _ _ _ rfl rfl
theorem pelect (x : P3) : Statement (.pelect x) := fun _ => parse_packP _ _ _ _ rfl rfl
theorem sadd (x : SF) : Statement (.sadd x) := fun _ => parse_packS _ _ _ _ rfl rfl
theorem ssub (x : SF) : Statement (.ssub x) := fun _ => parse_packS _ _ _ _ rfl rfl
theorem smul (x : SF) : Statement (.smul x) := fun _ => parse_packS _ _ _ _ rfl rfl
theorem smulhI (x : SF) : Statement (.smulhI x) := fun _ => parse_packS _ _ _ _ rfl rfl
theorem smulhN (x : SF) : Statement (.smulhN x) := fun _ => parse_packS _ _ _ _ rfl rfl
theorem sdivI (x : SF) : Statement (.sdivI x) := fun _ => parse_packS _ _ _ _ rfl rfl
theorem sdivN (x : SF) : Statement (.sdivN x) := fun _ => parse_packS _ _ _ _ rfl rfl
theorem sremI (x : SF) : Statement (.sremI x) := fun _ => parse_packS _ _ _ _ rfl rfl
theorem sremN (x : SF) : Statement (.sremN x) := fun _ => parse_packS _ _ _ _ rfl rfl
theorem sand (x : SF) : Statement (.sand x) := fun _ => parse_packS _ _ _ _ rfl rfl
theorem sor (x : SF) : Statement (.sor x) := fun _ => parse_packS _ _ _ _ rfl rfl
theorem sxor (x : SF) : Statement (.sxor x) := fun _ => parse_packS _ _ _ _ rfl rfl
theorem sandn (x : SF) : Statement (.sandn x) := fun _ => parse_packS _ _ _ _ rfl rfl
theorem sshl (x : SF) : Statement (.sshl x) := fun _ => parse_packS _ _ _ _ rfl rfl
theorem sshr (x : SF) : Statement (.sshr x) := fun _ => parse_packS _ _ _ _ rfl rfl
theorem ssar (x : SF) : Statement (.ssar x) := fun _ => parse_packS _ _ _ _ rfl rfl
theorem sminI (x : SF) : Statement (.sminI x) := fun _ => parse_packS _ _ _ _ rfl rfl
theorem smaxI (x : SF) : Statement (.smaxI x) := fun _ => parse_packS _ _ _ _ rfl rfl
theorem sminN (x : SF) : Statement (.sminN x) := fun _ => parse_packS _ _ _ _ rfl rfl
theorem smaxN (x : SF) : Statement (.smaxN x) := fun _ => parse_packS _ _ _ _ rfl rfl
theorem sclz (x : SF) : Statement (.sclz x) := fun _ => parse_packS _ _ _ _ rfl rfl
theorem spopc (x : SF) : Statement (.spopc x) := fun _ => parse_packS _ _ _ _ rfl rfl
theorem sseq (x : SF) : Statement (.sseq x) := fun _ => parse_packS _ _ _ _ rfl rfl
theorem ssltI (x : SF) : Statement (.ssltI x) := fun _ => parse_packS _ _ _ _ rfl rfl
theorem ssltN (x : SF) : Statement (.ssltN x) := fun _ => parse_packS _ _ _ _ rfl rfl
theorem smov (x : SF) : Statement (.smov x) := fun _ => parse_packS _ _ _ _ rfl rfl
theorem sadd64 (x : SF) : Statement (.sadd64 x) := fun _ => parse_packS _ _ _ _ rfl rfl
theorem ssub64 (x : SF) : Statement (.ssub64 x) := fun _ => parse_packS _ _ _ _ rfl rfl
theorem sshl64 (x : SF) : Statement (.sshl64 x) := fun _ => parse_packS _ _ _ _ rfl rfl
theorem sshr64 (x : SF) : Statement (.sshr64 x) := fun _ => parse_packS _ _ _ _ rfl rfl
theorem saddx (x : SF) : Statement (.saddx x) := fun _ => parse_packS _ _ _ _ rfl rfl
theorem sbfx (x : SF) : Statement (.sbfx x) := fun _ => parse_packS _ _ _ _ rfl rfl
theorem saddi (x : SI) : Statement (.saddi x) := fun _ => parse_packSI _ _ _ _ rfl rfl
theorem sandi (x : SI) : Statement (.sandi x) := fun _ => parse_packSI _ _ _ _ rfl rfl
theorem sori (x : SI) : Statement (.sori x) := fun _ => parse_packSI _ _ _ _ rfl rfl
theorem sxori (x : SI) : Statement (.sxori x) := fun _ => parse_packSI _ _ _ _ rfl rfl
theorem sshli (x : SI) : Statement (.sshli x) := fun _ => parse_packSI _ _ _ _ rfl rfl
theorem sshri (x : SI) : Statement (.sshri x) := fun _ => parse_packSI _ _ _ _ rfl rfl
theorem ssari (x : SI) : Statement (.ssari x) := fun _ => parse_packSI _ _ _ _ rfl rfl
theorem ssltiI (x : SI) : Statement (.ssltiI x) := fun _ => parse_packSI _ _ _ _ rfl rfl
theorem bcast (x : XF) : Statement (.bcast x) := fun _ => parse_packX _ _ _ rfl rfl
theorem lanerd (x : XF) : Statement (.lanerd x) := fun _ => parse_packX _ _ _ rfl rfl
theorem mfc (x : XF) : Statement (.mfc x) := fun _ => parse_packX _ _ _ rfl rfl
theorem mtc (x : XF) : Statement (.mtc x) := fun _ => parse_packX _ _ _ rfl rfl
theorem pmov (x : XF) : Statement (.pmov x) := fun _ => parse_packX _ _ _ rfl rfl
theorem fadd (x : V3) : Statement (.fadd x) := fun _ => parse_packV3 _ _ _ _ rfl rfl
theorem fsub (x : V3) : Statement (.fsub x) := fun _ => parse_packV3 _ _ _ _ rfl rfl
theorem fmul (x : V3) : Statement (.fmul x) := fun _ => parse_packV3 _ _ _ _ rfl rfl
theorem fmin (x : V3) : Statement (.fmin x) := fun _ => parse_packV3 _ _ _ _ rfl rfl
theorem fmax (x : V3) : Statement (.fmax x) := fun _ => parse_packV3 _ _ _ _ rfl rfl
theorem fabs (x : V3) : Statement (.fabs x) := fun _ => parse_packV3 _ _ _ _ rfl rfl
theorem fneg (x : V3) : Statement (.fneg x) := fun _ => parse_packV3 _ _ _ _ rfl rfl
theorem fcpsgn (x : V3) : Statement (.fcpsgn x) := fun _ => parse_packV3 _ _ _ _ rfl rfl
theorem ffma (x : V3) : Statement (.ffma x) := fun _ => parse_packV3 _ _ _ _ rfl rfl
theorem ffms (x : V3) : Statement (.ffms x) := fun _ => parse_packV3 _ _ _ _ rfl rfl
theorem fnfma (x : V3) : Statement (.fnfma x) := fun _ => parse_packV3 _ _ _ _ rfl rfl
theorem fdiv (x : V3) : Statement (.fdiv x) := fun _ => parse_packV3 _ _ _ _ rfl rfl
theorem fsqrt (x : V3) : Statement (.fsqrt x) := fun _ => parse_packV3 _ _ _ _ rfl rfl
theorem frcp (x : V3) : Statement (.frcp x) := fun _ => parse_packV3 _ _ _ _ rfl rfl
theorem frsq (x : V3) : Statement (.frsq x) := fun _ => parse_packV3 _ _ _ _ rfl rfl
theorem fexp2 (x : V3) : Statement (.fexp2 x) := fun _ => parse_packV3 _ _ _ _ rfl rfl
theorem flog2 (x : V3) : Statement (.flog2 x) := fun _ => parse_packV3 _ _ _ _ rfl rfl
theorem fsinpi (x : V3) : Statement (.fsinpi x) := fun _ => parse_packV3 _ _ _ _ rfl rfl
theorem fcospi (x : V3) : Statement (.fcospi x) := fun _ => parse_packV3 _ _ _ _ rfl rfl
theorem ffloor (x : V3) : Statement (.ffloor x) := fun _ => parse_packV3 _ _ _ _ rfl rfl
theorem fceil (x : V3) : Statement (.fceil x) := fun _ => parse_packV3 _ _ _ _ rfl rfl
theorem ftrunc (x : V3) : Statement (.ftrunc x) := fun _ => parse_packV3 _ _ _ _ rfl rfl
theorem frint (x : V3) : Statement (.frint x) := fun _ => parse_packV3 _ _ _ _ rfl rfl
theorem ffract (x : V3) : Statement (.ffract x) := fun _ => parse_packV3 _ _ _ _ rfl rfl
theorem f4add (x : V3) : Statement (.f4add x) := fun _ => parse_packV3 _ _ _ _ rfl rfl
theorem f4sub (x : V3) : Statement (.f4sub x) := fun _ => parse_packV3 _ _ _ _ rfl rfl
theorem f4mul (x : V3) : Statement (.f4mul x) := fun _ => parse_packV3 _ _ _ _ rfl rfl
theorem f4fma (x : V3) : Statement (.f4fma x) := fun _ => parse_packV3 _ _ _ _ rfl rfl
theorem f4fms (x : V3) : Statement (.f4fms x) := fun _ => parse_packV3 _ _ _ _ rfl rfl
theorem f4min (x : V3) : Statement (.f4min x) := fun _ => parse_packV3 _ _ _ _ rfl rfl
theorem f4max (x : V3) : Statement (.f4max x) := fun _ => parse_packV3 _ _ _ _ rfl rfl
theorem dadd (x : V3) : Statement (.dadd x) := fun _ => parse_packV3 _ _ _ _ rfl rfl
theorem dsub (x : V3) : Statement (.dsub x) := fun _ => parse_packV3 _ _ _ _ rfl rfl
theorem dmul (x : V3) : Statement (.dmul x) := fun _ => parse_packV3 _ _ _ _ rfl rfl
theorem dfma (x : V3) : Statement (.dfma x) := fun _ => parse_packV3 _ _ _ _ rfl rfl
theorem ddiv (x : V3) : Statement (.ddiv x) := fun _ => parse_packV3 _ _ _ _ rfl rfl
theorem dsqrt (x : V3) : Statement (.dsqrt x) := fun _ => parse_packV3 _ _ _ _ rfl rfl
theorem dmin (x : V3) : Statement (.dmin x) := fun _ => parse_packV3 _ _ _ _ rfl rfl
theorem dmax (x : V3) : Statement (.dmax x) := fun _ => parse_packV3 _ _ _ _ rfl rfl
theorem hadd2 (x : V3) : Statement (.hadd2 x) := fun _ => parse_packV3 _ _ _ _ rfl rfl
theorem hmul2 (x : V3) : Statement (.hmul2 x) := fun _ => parse_packV3 _ _ _ _ rfl rfl
theorem hfma2 (x : V3) : Statement (.hfma2 x) := fun _ => parse_packV3 _ _ _ _ rfl rfl
theorem hmax2 (x : V3) : Statement (.hmax2 x) := fun _ => parse_packV3 _ _ _ _ rfl rfl
theorem badd2 (x : V3) : Statement (.badd2 x) := fun _ => parse_packV3 _ _ _ _ rfl rfl
theorem bmul2 (x : V3) : Statement (.bmul2 x) := fun _ => parse_packV3 _ _ _ _ rfl rfl
theorem bfma2 (x : V3) : Statement (.bfma2 x) := fun _ => parse_packV3 _ _ _ _ rfl rfl
theorem bmax2 (x : V3) : Statement (.bmax2 x) := fun _ => parse_packV3 _ _ _ _ rfl rfl
theorem cvt (x : V3) : Statement (.cvt x) := fun _ => parse_packV3 _ _ _ _ rfl rfl
theorem cvts (x : V3) : Statement (.cvts x) := fun _ => parse_packV3 _ _ _ _ rfl rfl
theorem pk8 (x : V3) : Statement (.pk8 x) := fun _ => parse_packV3 _ _ _ _ rfl rfl
theorem pk4 (x : V3) : Statement (.pk4 x) := fun _ => parse_packV3 _ _ _ _ rfl rfl
theorem upk8 (x : V3) : Statement (.upk8 x) := fun _ => parse_packV3 _ _ _ _ rfl rfl
theorem upk4 (x : V3) : Statement (.upk4 x) := fun _ => parse_packV3 _ _ _ _ rfl rfl
theorem qdec (x : V3) : Statement (.qdec x) := fun _ => parse_packV3 _ _ _ _ rfl rfl
theorem qenc (x : V3) : Statement (.qenc x) := fun _ => parse_packV3 _ _ _ _ rfl rfl
theorem tagrd (x : V3) : Statement (.tagrd x) := fun _ => parse_packV3 _ _ _ _ rfl rfl
theorem tagwr (x : V3) : Statement (.tagwr x) := fun _ => parse_packV3 _ _ _ _ rfl rfl
theorem tagmin (x : V3) : Statement (.tagmin x) := fun _ => parse_packV3 _ _ _ _ rfl rfl
theorem tagfull (x : V3) : Statement (.tagfull x) := fun _ => parse_packV3 _ _ _ _ rfl rfl
theorem tagunt (x : V3) : Statement (.tagunt x) := fun _ => parse_packV3 _ _ _ _ rfl rfl
theorem bra (x : BF) : Statement (.bra x) := fun _ => parse_packB_bra _
theorem call (x : BF) : Statement (.call x) := fun _ => parse_packB_call _
theorem ret (x : SF) : Statement (.ret x) := fun _ => parse_packS _ _ _ _ rfl rfl
theorem jmpi (x : SF) : Statement (.jmpi x) := fun _ => parse_packS _ _ _ _ rfl rfl
theorem calli (x : SF) : Statement (.calli x) := fun _ => parse_packS _ _ _ _ rfl rfl
theorem exit (x : SF) : Statement (.exit x) := fun _ => parse_packS _ _ _ _ rfl rfl
theorem yield (x : SF) : Statement (.yield x) := fun _ => parse_packS _ _ _ _ rfl rfl
theorem nop (x : SF) : Statement (.nop x) := fun _ => parse_packS _ _ _ _ rfl rfl
theorem brk (x : SF) : Statement (.brk x) := fun _ => parse_packS _ _ _ _ rfl rfl
theorem trap (x : SF) : Statement (.trap x) := fun _ => parse_packS _ _ _ _ rfl rfl
theorem prioset (x : SF) : Statement (.prioset x) := fun _ => parse_packS _ _ _ _ rfl rfl
theorem enrol (m : BitVec 2) (x : SF) : Statement (.enrol m x) := fun _ => parse_packSm _ _ _ _ _ rfl rfl
theorem joinw (m : BitVec 2) (x : SF) : Statement (.joinw m x) := fun _ => parse_packSm _ _ _ _ _ rfl rfl
theorem joinq (m : BitVec 2) (x : SF) : Statement (.joinq m x) := fun _ => parse_packSm _ _ _ _ _ rfl rfl
theorem maskrd (m : BitVec 2) (x : SF) : Statement (.maskrd m x) := fun _ => parse_packSm _ _ _ _ _ rfl rfl
theorem spawn (x : XF) : Statement (.spawn x) := fun _ => parse_packX _ _ _ rfl rfl
theorem bara (k : BitVec 4) (x : SF) : Statement (.bara k x) := fun _ => parse_packSk _ _ _ _ _ rfl rfl
theorem barw (k : BitVec 4) (x : SF) : Statement (.barw k x) := fun _ => parse_packSk _ _ _ _ _ rfl rfl
theorem baraw (k : BitVec 4) (x : SF) : Statement (.baraw k x) := fun _ => parse_packSk _ _ _ _ _ rfl rfl
theorem bcbi (k : BitVec 4) (x : SF) : Statement (.bcbi k x) := fun _ => parse_packSk _ _ _ _ _ rfl rfl
theorem bcbx (k : BitVec 4) (x : SF) : Statement (.bcbx k x) := fun _ => parse_packSk _ _ _ _ _ rfl rfl
theorem bcbw (k : BitVec 4) (x : SF) : Statement (.bcbw k x) := fun _ => parse_packSk _ _ _ _ _ rfl rfl
theorem bcba (k : BitVec 4) (x : SF) : Statement (.bcba k x) := fun _ => parse_packSk _ _ _ _ _ rfl rfl
theorem promw (k : BitVec 4) (x : SF) : Statement (.promw k x) := fun _ => parse_packSk _ _ _ _ _ rfl rfl
theorem waitc (x : SF) : Statement (.waitc x) := fun _ => parse_packS _ _ _ _ rfl rfl
theorem watch (x : SF) : Statement (.watch x) := fun _ => parse_packS _ _ _ _ rfl rfl
theorem unwatch (x : SF) : Statement (.unwatch x) := fun _ => parse_packS _ _ _ _ rfl rfl
theorem sleep (x : SF) : Statement (.sleep x) := fun _ => parse_packS _ _ _ _ rfl rfl
theorem binfl (x : SF) : Statement (.binfl x) := fun _ => parse_packS _ _ _ _ rfl rfl
theorem suspend (x : SF) : Statement (.suspend x) := fun _ => parse_packS _ _ _ _ rfl rfl
theorem resume (x : SF) : Statement (.resume x) := fun _ => parse_packS _ _ _ _ rfl rfl
theorem tcopy (x : SF) : Statement (.tcopy x) := fun _ => parse_packS _ _ _ _ rfl rfl
theorem tdisc (x : SF) : Statement (.tdisc x) := fun _ => parse_packS _ _ _ _ rfl rfl
theorem tstat (x : SF) : Statement (.tstat x) := fun _ => parse_packS _ _ _ _ rfl rfl
theorem claim (k : BitVec 3) (x : SF) : Statement (.claim k x) := fun _ => parse_packSg _ _ _ _ _ rfl rfl
theorem object (k : BitVec 3) (x : SF) : Statement (.object k x) := fun _ => parse_packSg _ _ _ _ _ rfl rfl
theorem clpeek (k : BitVec 3) (x : SF) : Statement (.clpeek k x) := fun _ => parse_packSg _ _ _ _ _ rfl rfl
theorem clpop (k : BitVec 3) (x : SF) : Statement (.clpop k x) := fun _ => parse_packSg _ _ _ _ _ rfl rfl
theorem clwait (k : BitVec 3) (x : SF) : Statement (.clwait k x) := fun _ => parse_packSg _ _ _ _ _ rfl rfl
theorem cljoin (k : BitVec 3) (x : SF) : Statement (.cljoin k x) := fun _ => parse_packSg _ _ _ _ _ rfl rfl
theorem clleave (k : BitVec 3) (x : SF) : Statement (.clleave k x) := fun _ => parse_packSg _ _ _ _ _ rfl rfl
theorem rtr (x : SF) : Statement (.rtr x) := fun _ => parse_packS _ _ _ _ rfl rfl
theorem rts (x : SF) : Statement (.rts x) := fun _ => parse_packS _ _ _ _ rfl rfl
theorem replay (x : SF) : Statement (.replay x) := fun _ => parse_packS _ _ _ _ rfl rfl
theorem tlbi (x : SF) : Statement (.tlbi x) := fun _ => parse_packS _ _ _ _ rfl rfl
theorem harvest (x : SF) : Statement (.harvest x) := fun _ => parse_packS _ _ _ _ rfl rfl
theorem park (x : SF) : Statement (.park x) := fun _ => parse_packS _ _ _ _ rfl rfl
theorem halt (x : SF) : Statement (.halt x) := fun _ => parse_packS _ _ _ _ rfl rfl
theorem scall (x : SF) : Statement (.scall x) := fun _ => parse_packS _ _ _ _ rfl rfl
theorem ld8I (x : MF) : Statement (.ld8I x) := fun _ => parse_packM _ _ _ rfl rfl
theorem ld8N (x : MF) : Statement (.ld8N x) := fun _ => parse_packM _ _ _ rfl rfl
theorem ld16I (x : MF) : Statement (.ld16I x) := fun _ => parse_packM _ _ _ rfl rfl
theorem ld16N (x : MF) : Statement (.ld16N x) := fun _ => parse_packM _ _ _ rfl rfl
theorem ld32 (x : MF) : Statement (.ld32 x) := fun _ => parse_packM _ _ _ rfl rfl
theorem ld64 (x : MF) : Statement (.ld64 x) := fun _ => parse_packM _ _ _ rfl rfl
theorem ld128 (x : MF) : Statement (.ld128 x) := fun _ => parse_packM _ _ _ rfl rfl
theorem ldt32 (x : MF) : Statement (.ldt32 x) := fun _ => parse_packM _ _ _ rfl rfl
theorem st8 (x : MF) : Statement (.st8 x) := fun _ => parse_packM _ _ _ rfl rfl
theorem st16 (x : MF) : Statement (.st16 x) := fun _ => parse_packM _ _ _ rfl rfl
theorem st32 (x : MF) : Statement (.st32 x) := fun _ => parse_packM _ _ _ rfl rfl
theorem st64 (x : MF) : Statement (.st64 x) := fun _ => parse_packM _ _ _ rfl rfl
theorem st128 (x : MF) : Statement (.st128 x) := fun _ => parse_packM _ _ _ rfl rfl
theorem stt32 (x : MF) : Statement (.stt32 x) := fun _ => parse_packM _ _ _ rfl rfl
theorem lds (x : MF) : Statement (.lds x) := fun _ => parse_packM _ _ _ rfl rfl
theorem sts (x : MF) : Statement (.sts x) := fun _ => parse_packM _ _ _ rfl rfl
theorem atomAdd (m : BitVec 2) (x : AT) : Statement (.atomAdd m x) := fun _ => parse_packAT _ _ _ _ rfl
theorem atomAdd64 (m : BitVec 2) (x : AT) : Statement (.atomAdd64 m x) := fun _ => parse_packAT _ _ _ _ rfl
theorem atomMini (m : BitVec 2) (x : AT) : Statement (.atomMini m x) := fun _ => parse_packAT _ _ _ _ rfl
theorem atomMaxi (m : BitVec 2) (x : AT) : Statement (.atomMaxi m x) := fun _ => parse_packAT _ _ _ _ rfl
theorem atomMinn (m : BitVec 2) (x : AT) : Statement (.atomMinn m x) := fun _ => parse_packAT _ _ _ _ rfl
theorem atomMaxn (m : BitVec 2) (x : AT) : Statement (.atomMaxn m x) := fun _ => parse_packAT _ _ _ _ rfl
theorem atomAnd (m : BitVec 2) (x : AT) : Statement (.atomAnd m x) := fun _ => parse_packAT _ _ _ _ rfl
theorem atomOr (m : BitVec 2) (x : AT) : Statement (.atomOr m x) := fun _ => parse_packAT _ _ _ _ rfl
theorem atomXor (m : BitVec 2) (x : AT) : Statement (.atomXor m x) := fun _ => parse_packAT _ _ _ _ rfl
theorem atomSwap (m : BitVec 2) (x : AT) : Statement (.atomSwap m x) := fun _ => parse_packAT _ _ _ _ rfl
theorem atomCas (m : BitVec 2) (x : AT) : Statement (.atomCas m x) := fun _ => parse_packAT _ _ _ _ rfl
theorem atomSwap64 (m : BitVec 2) (x : AT) : Statement (.atomSwap64 m x) := fun _ => parse_packAT _ _ _ _ rfl
theorem atomCas64 (m : BitVec 2) (x : AT) : Statement (.atomCas64 m x) := fun _ => parse_packAT _ _ _ _ rfl
theorem atomFadd (m : BitVec 2) (x : AT) : Statement (.atomFadd m x) := fun _ => parse_packAT _ _ _ _ rfl
theorem atomFmin (m : BitVec 2) (x : AT) : Statement (.atomFmin m x) := fun _ => parse_packAT _ _ _ _ rfl
theorem atomFmax (m : BitVec 2) (x : AT) : Statement (.atomFmax m x) := fun _ => parse_packAT _ _ _ _ rfl
theorem atomIncw (m : BitVec 2) (x : AT) : Statement (.atomIncw m x) := fun _ => parse_packAT _ _ _ _ rfl
theorem atomDecsp (m : BitVec 2) (x : AT) : Statement (.atomDecsp m x) := fun _ => parse_packAT _ _ _ _ rfl
theorem atomRedadd (m : BitVec 2) (x : AT) : Statement (.atomRedadd m x) := fun _ => parse_packAT _ _ _ _ rfl
theorem atomRedfadd (m : BitVec 2) (x : AT) : Statement (.atomRedfadd m x) := fun _ => parse_packAT _ _ _ _ rfl
theorem fence (order : BitVec 2) (scope : BitVec 3) (x : SF) : Statement (.fence order scope x) := fun _ => parse_packSf _ _ _ _ _ _ rfl rfl
theorem flushr (order : BitVec 2) (scope : BitVec 3) (x : SF) : Statement (.flushr order scope x) := fun _ => parse_packSf _ _ _ _ _ _ rfl rfl
theorem invr (order : BitVec 2) (scope : BitVec 3) (x : SF) : Statement (.invr order scope x) := fun _ => parse_packSf _ _ _ _ _ _ rfl rfl
theorem pref (order : BitVec 2) (scope : BitVec 3) (x : SF) : Statement (.pref order scope x) := fun _ => parse_packSf _ _ _ _ _ _ rfl rfl
theorem tld (k : BitVec 4) (x : SF) : Statement (.tld k x) := fun _ => parse_packSk _ _ _ _ _ rfl rfl
theorem tst (k : BitVec 4) (x : SF) : Statement (.tst k x) := fun _ => parse_packSk _ _ _ _ _ rfl rfl
theorem tzero (k : BitVec 4) (x : SF) : Statement (.tzero k x) := fun _ => parse_packSk _ _ _ _ _ rfl rfl
theorem ttag (k : BitVec 4) (x : SF) : Statement (.ttag k x) := fun _ => parse_packSk _ _ _ _ _ rfl rfl
theorem mma (x : SF) : Statement (.mma x) := fun _ => parse_packS _ _ _ _ rfl rfl
theorem mma4 (x : SF) : Statement (.mma4 x) := fun _ => parse_packS _ _ _ _ rfl rfl
theorem mmaw (x : SF) : Statement (.mmaw x) := fun _ => parse_packS _ _ _ _ rfl rfl
theorem mmaq (x : SF) : Statement (.mmaq x) := fun _ => parse_packS _ _ _ _ rfl rfl
theorem mmax (x : SF) : Statement (.mmax x) := fun _ => parse_packS _ _ _ _ rfl rfl
theorem cpy (x : SF) : Statement (.cpy x) := fun _ => parse_packS _ _ _ _ rfl rfl
theorem gath (x : SF) : Statement (.gath x) := fun _ => parse_packS _ _ _ _ rfl rfl
theorem scat (x : SF) : Statement (.scat x) := fun _ => parse_packS _ _ _ _ rfl rfl
theorem coll (x : SF) : Statement (.coll x) := fun _ => parse_packS _ _ _ _ rfl rfl
theorem ewait (x : SF) : Statement (.ewait x) := fun _ => parse_packS _ _ _ _ rfl rfl
theorem ecan (x : SF) : Statement (.ecan x) := fun _ => parse_packS _ _ _ _ rfl rfl
theorem eqry (x : SF) : Statement (.eqry x) := fun _ => parse_packS _ _ _ _ rfl rfl
theorem trdv (x : XF) : Statement (.trdv x) := fun _ => parse_packX _ _ _ rfl rfl
theorem twrv (x : XF) : Statement (.twrv x) := fun _ => parse_packX _ _ _ rfl rfl
theorem himm (p : BitVec 25) : Statement (.himm p) := fun _ => parse_packHimm _
theorem hgrd (p : BitVec 21) : Statement (.hgrd p) := fun _ => parse_packH _ _ _ rfl
theorem hprio (p : BitVec 21) : Statement (.hprio p) := fun _ => parse_packH _ _ _ rfl
theorem hrnd (p : BitVec 21) : Statement (.hrnd p) := fun _ => parse_packH _ _ _ rfl
theorem hscp (p : BitVec 21) : Statement (.hscp p) := fun _ => parse_packH _ _ _ rfl
theorem hrlx (p : BitVec 21) : Statement (.hrlx p) := fun _ => parse_packH _ _ _ rfl
theorem hyld (p : BitVec 21) : Statement (.hyld p) := fun _ => parse_packH _ _ _ rfl
theorem hreuse (p : BitVec 21) : Statement (.hreuse p) := fun _ => parse_packH _ _ _ rfl
theorem hsig (p : BitVec 21) : Statement (.hsig p) := fun _ => parse_packH _ _ _ rfl
theorem hlat (p : BitVec 21) : Statement (.hlat p) := fun _ => parse_packH _ _ _ rfl

end Sys2Proof.Laws.Encoding
end

