-- ==== Sys2Proof/Laws/Results.lean ====
section
/-! SUPPORT. What the shared forms of the arithmetic instructions do, once their checks have passed. -/

namespace Sys2Proof.Machine

/-- A lane of a mask made from a test. -/
theorem maskOf_getLsbD (f : Nat → Bool) (l : Nat) (hl : l < 32) : (maskOf f).getLsbD l = f l := by
  have key : ∀ n, ∀ l, (((List.range n).foldl (fun m i => if f i then m + 2 ^ i else m) 0).testBit l = (decide (l < n) && f l)) ∧
      ((List.range n).foldl (fun m i => if f i then m + 2 ^ i else m) 0) < 2 ^ n := by
    intro n
    induction n with
    | zero => intro l; simp
    | succ n ih =>
      intro l
      rw [List.range_succ, List.foldl_append, List.foldl_cons, List.foldl_nil]
      have hlt := (ih 0).2
      have hb := (ih l).1
      generalize hm : (List.range n).foldl (fun m i => if f i then m + 2 ^ i else m) 0 = m at hlt hb
      split
      · rename_i hf
        refine ⟨?_, by rw [Nat.pow_succ]; omega⟩
        rw [Nat.add_comm]
        rcases Nat.lt_trichotomy l n with h | h | h
        · rw [Nat.testBit_two_pow_add_gt h, hb]
          simp [h, Nat.lt_succ_of_lt h]
        · subst h
          rw [Nat.testBit_two_pow_add_eq, hb]
          simp [hf]
        · rw [Nat.testBit_lt_two_pow (Nat.lt_of_lt_of_le (m := 2 ^ (n + 1)) (by rw [Nat.pow_succ]; omega)
            (Nat.pow_le_pow_right (by decide) h))]
          simp; omega
      · rename_i hf
        refine ⟨?_, by rw [Nat.pow_succ]; omega⟩
        rw [hb]
        by_cases h : l = n
        · subst h; simp [hf]
        · have : decide (l < n + 1) = decide (l < n) := by congr 1; simp; omega
          rw [this]
  have h := (key 32 l).1
  have e : laneList = List.range 32 := by decide
  unfold maskOf
  rw [e, BitVec.getLsbD_ofNat, h]
  simp [hl]

/-! ## Composition -/

theorem Effect.mono {g g' : Team → Team} {c : Ctx} {s t : State} (h : Effect g c s t) (hg : ∀ x y, g x = g y → g' x = g' y) :
    Effect g' c s t where
  rest := h.rest
  others := h.others
  own := by
    obtain ⟨u, hu, e, m⟩ := h.own
    exact ⟨u, hu, hg _ _ e, m⟩
  benches := h.benches

theorem Effect.onTeam {g : Team → Team} {c : Ctx} {s u : State} {F : Team → Team} (h : Effect g c s u)
    (hF : ∀ x, g (F x).kept = g x.kept ∧ (F x).m = x.m ∧ (F x).front = x.front) : Effect g c s (Machine.onTeam u c.key F) where
  rest := by rw [← h.rest]; unfold Machine.onTeam; split <;> rfl
  others k hk := by rw [team?_onTeam, if_neg (Ne.symm hk)]; exact h.others k hk
  own := by
    obtain ⟨x, hx, e, m, f⟩ := h.own
    exact ⟨F x, by rw [team?_onTeam, if_pos rfl, hx]; rfl, (hF x).1.trans e, (hF x).2.1.trans m, (hF x).2.2.trans f⟩
  benches b hb := (bench_onTeam _ _ _ _).trans (h.benches b hb)

theorem VectorWritten.onTeam {c : Ctx} {u : State} {f : Nat → Cell} {F : Team → Team} (h : VectorWritten c f u)
    (hF : ∀ x, (F x).v = x.v) : VectorWritten c f (Machine.onTeam u c.key F) := by
  obtain ⟨x, hx, hr⟩ := h
  refine ⟨F x, by rw [team?_onTeam, if_pos rfl, hx]; rfl, fun r l hl => ?_⟩
  have : Team.reg (F x) r l = Team.reg x r l := by unfold Team.reg; rw [hF]
  rw [this]; exact hr r l hl

theorem GroupWritten.onTeam {c : Ctx} {u : State} {n : Nat} {f : Nat → Nat → Cell} {F : Team → Team} (h : GroupWritten c n f u)
    (hF : ∀ x, (F x).v = x.v) : GroupWritten c n f (Machine.onTeam u c.key F) := by
  obtain ⟨x, hx, hr⟩ := h
  refine ⟨F x, by rw [team?_onTeam, if_pos rfl, hx]; rfl, fun r l hl => ?_⟩
  have : Team.reg (F x) r l = Team.reg x r l := by unfold Team.reg; rw [hF]
  rw [this]; exact hr r l hl

theorem ScalarsWritten.onTeam {c : Ctx} {u : State} {xs : List Word} {F : Team → Team} (h : ScalarsWritten c xs u)
    (hF : ∀ x, (F x).s = x.s) : ScalarsWritten c xs (Machine.onTeam u c.key F) := by
  obtain ⟨x, hx, hr⟩ := h
  refine ⟨F x, by rw [team?_onTeam, if_pos rfl, hx]; rfl, fun r => ?_⟩
  have : Team.scalar (F x) r = Team.scalar x r := by unfold Team.scalar; rw [hF]
  rw [this]; exact hr r

theorem PredWritten.onTeam {c : Ctx} {u : State} {m : Nat → Bool} {F : Team → Team} (h : PredWritten c m u)
    (hF : ∀ x, (F x).p = x.p) : PredWritten c m (Machine.onTeam u c.key F) := by
  obtain ⟨x, hx, hr⟩ := h
  refine ⟨F x, by rw [team?_onTeam, if_pos rfl, hx]; rfl, fun r l hl => ?_⟩
  have : Team.pred (F x) r = Team.pred x r := by unfold Team.pred; rw [hF]
  rw [this]; exact hr r l hl

theorem PredWritten.ext {c : Ctx} {t : State} {m n : Nat → Bool} (h : PredWritten c m t) (e : ∀ l, l < 32 → n l = m l) :
    PredWritten c n t := by
  obtain ⟨x, hx, hr⟩ := h
  refine ⟨x, hx, fun r l hl => ?_⟩
  rw [hr r l hl, e l hl]

theorem LatchEntered.benches {c : Ctx} {s u v : State} {f : Nat → Cell} (h : LatchEntered c f s u)
    (e : ∀ k, bench v k = bench u k) : LatchEntered c f s v := by
  unfold LatchEntered at h ⊢
  rw [e]; exact h

theorem StatRaised.concludes {c : Ctx} {u t : State} {b : Nat} (h : StatRaised c b u) (k : Concludes c u t) : StatRaised c b t := by
  obtain ⟨x, hx, hr⟩ := h
  obtain ⟨y, hy, hk, _⟩ := k.own x hx
  exact ⟨y, hy, by rw [← hr]; exact (congrArg Team.fpstat hk : y.kept.fpstat = x.kept.fpstat)⟩

theorem PredResult.ext {c : Ctx} {s t : State} {m n : Nat → Bool} (h : PredResult c m s t) (e : ∀ l, l < 32 → n l = m l) :
    PredResult c n s t := ⟨PredWritten.ext h.1 e, h.2⟩

theorem LaneResult.ext {c : Ctx} {s t : State} {f g : Nat → Cell} (h : LaneResult c f s t) (e : ∀ l, g l = f l) :
    LaneResult c g s t := by
  rw [show g = f from funext e]; exact h

/-! ## Flags -/

/-- `raiseFlags` on a state whose issuing team still has its FPSTAT. -/
theorem raiseFlags_stat {c : Ctx} {u : State} {b : Nat} (h : ∃ x, team? u c.key = some x ∧ x.fpstat = c.team.fpstat) :
    StatRaised c b (raiseFlags c b u) := by
  obtain ⟨x, hx, e⟩ := h
  exact ⟨{ x with fpstat := x.fpstat ||| BitVec.ofNat 32 b }, by unfold raiseFlags; rw [team?_onTeam, if_pos rfl, hx]; rfl, by rw [e]⟩

theorem Effect.fpstat {g : Team → Team} {c : Ctx} {s u : State} (h : Effect g c s u) (hg : ∀ x y, g x = g y → x.fpstat = y.fpstat) :
    ∃ x, team? u c.key = some x ∧ x.fpstat = c.team.fpstat := by
  obtain ⟨x, hx, e, _⟩ := h.own
  exact ⟨x, hx, (hg _ _ e : x.kept.fpstat = c.team.kept.fpstat)⟩

theorem sansV_fpstat (x y : Team) (h : x.sansV = y.sansV) : x.fpstat = y.fpstat := (congrArg Team.fpstat h : x.sansV.fpstat = y.sansV.fpstat)
theorem sansP_fpstat (x y : Team) (h : x.sansP = y.sansP) : x.fpstat = y.fpstat := (congrArg Team.fpstat h : x.sansP.fpstat = y.sansP.fpstat)
theorem sansV_sansVF (x y : Team) (h : x.sansV = y.sansV) : x.sansVF = y.sansVF := congrArg (fun t : Team => { t with fpstat := 0 }) h
theorem sansP_sansPF (x y : Team) (h : x.sansP = y.sansP) : x.sansPF = y.sansPF := congrArg (fun t : Team => { t with fpstat := 0 }) h
theorem sansS_sansSF (x y : Team) (h : x.sansS = y.sansS) : x.sansSF = y.sansSF := congrArg (fun t : Team => { t with fpstat := 0 }) h

/-! ## Groups of registers -/

theorem reg_setRegs (n : Nat) (t : Team) (d r l : Nat) (act : Word) (f : Nat → Nat → Cell) (hl : l < 32) (h0 : d + n ≤ 124 ∨ 124 < d) :
    Team.reg ((List.range n).foldl (fun t j => Team.setReg t (d + j) act (f j)) t) r l =
      if d ≤ r ∧ r < d + n ∧ act.getLsbD l = true then f (r - d) l else Team.reg t r l := by
  induction n with
  | zero => rw [if_neg (by omega)]; rfl
  | succ n ih =>
    rw [List.range_succ, List.foldl_append, List.foldl_cons, List.foldl_nil, reg_setReg _ _ _ _ _ _ hl, ih (by omega)]
    by_cases hr : d + n = r
    · subst hr
      have h2 : d + n ≠ 124 := by omega
      by_cases ha : act.getLsbD l = true
      · rw [if_pos ⟨rfl, h2, ha⟩, if_pos ⟨by omega, by omega, ha⟩, Nat.add_sub_cancel_left]
      · rw [if_neg (fun h => ha h.2.2), if_neg (fun h => ha h.2.2), if_neg (fun h => ha h.2.2)]
    · rw [if_neg (fun h => hr h.1)]
      by_cases h3 : d ≤ r ∧ r < d + n ∧ act.getLsbD l = true
      · rw [if_pos h3, if_pos ⟨h3.1, by omega, h3.2.2⟩]
      · rw [if_neg h3, if_neg (fun h => h3 ⟨h.1, by omega, h.2.2⟩)]

theorem setRegs_kept (n : Nat) (t : Team) (d : Nat) (act : Word) (f : Nat → Nat → Cell) :
    ((List.range n).foldl (fun t j => Team.setReg t (d + j) act (f j)) t).kept.sansV = t.kept.sansV ∧
      ((List.range n).foldl (fun t j => Team.setReg t (d + j) act (f j)) t).m = t.m ∧
      ((List.range n).foldl (fun t j => Team.setReg t (d + j) act (f j)) t).front = t.front := by
  generalize List.range n = l
  induction l generalizing t with
  | nil => exact ⟨rfl, rfl, rfl⟩
  | cons j r ih =>
    have h := ih (Team.setReg t (d + j) act (f j))
    refine ⟨h.1.trans ?_, h.2.1.trans ?_, h.2.2.trans ?_⟩ <;> (unfold Team.setReg; split <;> rfl)

/-- What `writeGroup` does: a group of a register file does not reach past code 120. -/
theorem writeGroup_result {c : Ctx} {s : State} {n : Nat} {f : Nat → Nat → Cell} (ht : team? s c.key = some c.team)
    (hd : ∀ d, c.shape.written = some d → d.1.toNat = 124 ∨ d.1.toNat + n ≤ 124) :
    Effect Team.sansV c s (writeGroup c n f s) ∧ GroupWritten c n f (writeGroup c n f s) ∧
      ∀ k, bench (writeGroup c n f s) k = bench s k := by
  unfold writeGroup
  split
  · rename_i d h
    split
    · rename_i e
      refine ⟨Effect.refl ht, ⟨c.team, ht, fun r l _ => ?_⟩, fun _ => rfl⟩
      rw [h]
      simp [e]
    · rename_i e
      refine ⟨onTeam_effect ht (setRegs_kept _ _ _ _ _).1 (setRegs_kept _ _ _ _ _).2.1 (setRegs_kept _ _ _ _ _).2.2, ⟨_, by rw [team?_onTeam, if_pos rfl, ht]; rfl, fun r l hl => ?_⟩,
        fun k => bench_onTeam _ _ k _⟩
      · rw [reg_setRegs _ _ _ _ _ _ _ hl (.inl ((hd d h).resolve_left e)), h]
        obtain ⟨d, m⟩ := d
        simp only at e ⊢
        by_cases h1 : d.toNat ≤ r ∧ r < d.toNat + n ∧ c.act.getLsbD l = true
        · rw [if_pos h1, if_pos (by simp [e, h1.1, h1.2.1, Ctx.active, h1.2.2])]
        · rw [if_neg h1, if_neg (by simp only [Bool.and_eq_true, decide_eq_true_eq, Ctx.active]; exact fun x => h1 ⟨x.1.1.2, x.1.2, x.2⟩)]
  · rename_i h
    refine ⟨Effect.refl ht, ⟨c.team, ht, fun r l _ => ?_⟩, fun _ => rfl⟩
    rw [h]

/-! ## Floating-point results -/

/-- The state that a floating-point instruction with one result per lane makes before it concludes. -/
theorem fpLane_effect {c : Ctx} {s : State} {o : FpOut} (ht : team? s c.key = some c.team) (p : Option TrapInfo) (hp : p = none) :
    FpLane c o s (conclude c { s := raiseFlags c (o.statBits c) (writeFp1 c o s), post := p }) := by
  subst hp
  have h := writeVector_result (f := o.cell 0) ht
  have k := conclude_concludes c { s := raiseFlags c (o.statBits c) (writeFp1 c o s) } rfl rfl (fun _ e => by cases e)
  have hf : Effect Team.sansVF c s (raiseFlags c (o.statBits c) (writeFp1 c o s)) :=
    (h.1.mono sansV_sansVF).onTeam fun x => ⟨rfl, rfl, rfl⟩
  have hw : VectorWritten c (o.cell 0) (raiseFlags c (o.statBits c) (writeFp1 c o s)) := h.2.1.onTeam fun _ => rfl
  refine ⟨hw.concludes k, ?_, (raiseFlags_stat (h.1.fpstat sansV_fpstat)).concludes k, hf.concludes k⟩
  refine (h.2.2.1.benches fun k => bench_onTeam _ _ k _).concludes ?_ k
  show (latch (bench (onTeam _ _ _) _) 0).valid = true
  rw [bench_onTeam]
  exact h.2.2.2

/-- The same for a group of results. -/
theorem fpGroup_effect {c : Ctx} {s : State} {o : FpOut} {n : Nat} {f : Nat → Nat → Cell} (ht : team? s c.key = some c.team)
    (hd : ∀ d, c.shape.written = some d → d.1.toNat = 124 ∨ d.1.toNat + n ≤ 124) (p : Option TrapInfo) (hp : p = none) :
    FpGroup c o n f s (conclude c { s := raiseFlags c (o.statBits c) (writeGroup c n f s), post := p }) := by
  subst hp
  have h := writeGroup_result (f := f) ht hd
  have k := conclude_concludes c { s := raiseFlags c (o.statBits c) (writeGroup c n f s) } rfl rfl (fun _ e => by cases e)
  have hf : Effect Team.sansVF c s (raiseFlags c (o.statBits c) (writeGroup c n f s)) :=
    (h.1.mono sansV_sansVF).onTeam fun x => ⟨rfl, rfl, rfl⟩
  have hw : GroupWritten c n f (raiseFlags c (o.statBits c) (writeGroup c n f s)) := h.2.1.onTeam fun _ => rfl
  exact ⟨hw.concludes k, .concludes (fun k => (bench_onTeam _ _ k _).trans (h.2.2 k)) k,
    (raiseFlags_stat (h.1.fpstat sansV_fpstat)).concludes k, hf.concludes k⟩

/-- An instruction that raises a trap after its effect takes it from the state in which it has completed. -/
theorem conclude_post (c : Ctx) (r : Done) (i : TrapInfo) (hf : r.fail = none) (hp : r.post = some i) :
    ∃ q, conclude c r = takeTrap (conclude c { r with post := none }) c.key { i with replay := q } := by
  unfold conclude
  rw [hf, hp]
  exact ⟨_, rfl⟩

/-! ## The checks -/

theorem checks_ok {priv : Ctx → State → Option Nat} {c : Ctx} {s : State} (h : checks priv c s = .ok) :
    c.shape.r53Ok = true ∧ c.shape.step3Ok = true ∧ allocated c.team c.shape = true ∧ priv c s = none := by
  unfold checks at h
  split at h
  · cases h
  · split at h
    · cases h
    · split at h
      · cases h
      · split at h
        · cases h
        · rename_i hx
          simp only [Bool.or_eq_true, Bool.not_eq_true', not_or, Bool.not_eq_false] at hx
          split at h
          · cases h
          · exact ⟨hx.1.1, hx.1.2, hx.2, ‹_›⟩

/-- A destination group that passes the checks is vz or lies below code 120. -/
theorem checks_group {priv : Ctx → State → Option Nat} {c : Ctx} {s : State} (h : checks priv c s = .ok) (d : BitVec 7 × Nat)
    (hd : c.shape.written = some d) : d.1.toNat = 124 ∨ d.1.toNat + d.2 ≤ 124 := by
  obtain ⟨h1, h2, h3, _⟩ := checks_ok h
  have hv : c.shape.vd = some d := by
    unfold Shape.written at hd
    split at hd
    · cases hd
    · exact hd
  simp only [Shape.r53Ok, Shape.codesOk, Shape.step3Ok, Shape.vectorsOk, allocated, hv, Option.all_some, Bool.and_eq_true,
    Bool.or_eq_true, decide_eq_true_eq, Shape.isLatch, Bool.not_eq_true', Bool.and_eq_false_iff, decide_eq_false_iff_not] at h1 h2 h3
  obtain ⟨_, h2⟩ := h2.1.1
  obtain ⟨_, h3⟩ := h3
  have h5 := h1.1.2.2
  omega

end Sys2Proof.Machine
end

