-- ==== Sys2Proof/Tests/Slice0.lean ====
section
/-! SUPPORT. Tests of the model. Every expected result comes from the spec: the encoding tables of 03 R37, R47, R51 and R52, the
worked values of its chapters. The witnesses show, for the hypotheses of each statement, states and operands that meet them. -/

namespace Sys2Proof.Tests

open Sys2Proof.Machine Sys2Proof.Spec

set_option maxRecDepth 100000
set_option Elab.async false

/-! ## Decoding: each constructor that has an encoding, from a word written out field by field (03 R37, R47, R51, R52; the
fields from the top bit down) -/

theorem test_decode_01 : decode (0x01#6 ++ 0#1 ++ 0#1 ++ 12#7 ++ 16#7 ++ 20#7 ++ 0#3) = .ok (.iadd ⟨0, 0, 12, 16, 20⟩) ∧
    decode (0x01#6 ++ 0#1 ++ 0#1 ++ 12#7 ++ 16#7 ++ 20#7 ++ 1#3) = .ok (.isub ⟨0, 0, 12, 16, 20⟩) ∧
    decode (0x01#6 ++ 0#1 ++ 0#1 ++ 12#7 ++ 16#7 ++ 20#7 ++ 2#3) = .ok (.imul ⟨0, 0, 12, 16, 20⟩) ∧
    decode (0x01#6 ++ 0#1 ++ 0#1 ++ 12#7 ++ 16#7 ++ 20#7 ++ 3#3) = .ok (.imulhI ⟨0, 0, 12, 16, 20⟩) ∧
    decode (0x01#6 ++ 0#1 ++ 0#1 ++ 12#7 ++ 16#7 ++ 20#7 ++ 4#3) = .ok (.imulhN ⟨0, 0, 12, 16, 20⟩) ∧
    decode (0x01#6 ++ 0#1 ++ 0#1 ++ 12#7 ++ 16#7 ++ 20#7 ++ 5#3) = .ok (.imad ⟨0, 0, 12, 16, 20⟩) ∧
    decode (0x01#6 ++ 0#1 ++ 0#1 ++ 12#7 ++ 16#7 ++ 20#7 ++ 6#3) = .ok (.iabsdI ⟨0, 0, 12, 16, 20⟩) ∧
    decode (0x01#6 ++ 0#1 ++ 0#1 ++ 12#7 ++ 16#7 ++ 20#7 ++ 7#3) = .ok (.isadN ⟨0, 0, 12, 16, 20⟩) := by decide +kernel
theorem test_decode_02 : decode (0x02#6 ++ 0#1 ++ 0#1 ++ 12#7 ++ 16#7 ++ 20#7 ++ 0#3) = .ok (.iminI ⟨0, 0, 12, 16, 20⟩) ∧
    decode (0x02#6 ++ 0#1 ++ 0#1 ++ 12#7 ++ 16#7 ++ 20#7 ++ 1#3) = .ok (.imaxI ⟨0, 0, 12, 16, 20⟩) ∧
    decode (0x02#6 ++ 0#1 ++ 0#1 ++ 12#7 ++ 16#7 ++ 20#7 ++ 2#3) = .ok (.iminN ⟨0, 0, 12, 16, 20⟩) ∧
    decode (0x02#6 ++ 0#1 ++ 0#1 ++ 12#7 ++ 16#7 ++ 20#7 ++ 3#3) = .ok (.imaxN ⟨0, 0, 12, 16, 20⟩) ∧
    decode (0x02#6 ++ 0#1 ++ 0#1 ++ 12#7 ++ 16#7 ++ 20#7 ++ 4#3) = .ok (.iaddsI ⟨0, 0, 12, 16, 20⟩) ∧
    decode (0x02#6 ++ 0#1 ++ 0#1 ++ 12#7 ++ 16#7 ++ 20#7 ++ 5#3) = .ok (.isubsI ⟨0, 0, 12, 16, 20⟩) ∧
    decode (0x02#6 ++ 0#1 ++ 0#1 ++ 12#7 ++ 16#7 ++ 20#7 ++ 6#3) = .ok (.iaddsN ⟨0, 0, 12, 16, 20⟩) ∧
    decode (0x02#6 ++ 0#1 ++ 0#1 ++ 12#7 ++ 16#7 ++ 20#7 ++ 7#3) = .ok (.isubsN ⟨0, 0, 12, 16, 20⟩) := by decide +kernel
theorem test_decode_03 : decode (0x03#6 ++ 0#1 ++ 0#1 ++ 12#7 ++ 16#7 ++ 20#7 ++ 0#3) = .ok (.and ⟨0, 0, 12, 16, 20⟩) ∧
    decode (0x03#6 ++ 0#1 ++ 0#1 ++ 12#7 ++ 16#7 ++ 20#7 ++ 1#3) = .ok (.or ⟨0, 0, 12, 16, 20⟩) ∧
    decode (0x03#6 ++ 0#1 ++ 0#1 ++ 12#7 ++ 16#7 ++ 20#7 ++ 2#3) = .ok (.xor ⟨0, 0, 12, 16, 20⟩) ∧
    decode (0x03#6 ++ 0#1 ++ 0#1 ++ 12#7 ++ 16#7 ++ 20#7 ++ 3#3) = .ok (.andn ⟨0, 0, 12, 16, 20⟩) ∧
    decode (0x03#6 ++ 0#1 ++ 0#1 ++ 12#7 ++ 16#7 ++ 20#7 ++ 4#3) = .ok (.orn ⟨0, 0, 12, 16, 20⟩) ∧
    decode (0x03#6 ++ 0#1 ++ 0#1 ++ 12#7 ++ 16#7 ++ 20#7 ++ 5#3) = .ok (.shl ⟨0, 0, 12, 16, 20⟩) ∧
    decode (0x03#6 ++ 0#1 ++ 0#1 ++ 12#7 ++ 16#7 ++ 20#7 ++ 6#3) = .ok (.shr ⟨0, 0, 12, 16, 20⟩) ∧
    decode (0x03#6 ++ 0#1 ++ 0#1 ++ 12#7 ++ 16#7 ++ 20#7 ++ 7#3) = .ok (.sar ⟨0, 0, 12, 16, 20⟩) := by decide +kernel
theorem test_decode_04 : decode (0x04#6 ++ 0#1 ++ 0#1 ++ 12#7 ++ 16#7 ++ 20#7 ++ 0#3) = .ok (.rotl ⟨0, 0, 12, 16, 20⟩) ∧
    decode (0x04#6 ++ 0#1 ++ 0#1 ++ 12#7 ++ 16#7 ++ 20#7 ++ 1#3) = .ok (.bfxI ⟨0, 0, 12, 16, 20⟩) ∧
    decode (0x04#6 ++ 0#1 ++ 0#1 ++ 12#7 ++ 16#7 ++ 20#7 ++ 2#3) = .ok (.bfxN ⟨0, 0, 12, 16, 20⟩) ∧
    decode (0x04#6 ++ 0#1 ++ 0#1 ++ 12#7 ++ 16#7 ++ 20#7 ++ 3#3) = .ok (.bfi ⟨0, 0, 12, 16, 20⟩) ∧
    decode (0x04#6 ++ 0#1 ++ 0#1 ++ 12#7 ++ 16#7 ++ 20#7 ++ 4#3) = .ok (.prmb ⟨0, 0, 12, 16, 20⟩) ∧
    decode (0x04#6 ++ 0#1 ++ 0#1 ++ 12#7 ++ 16#7 ++ 0#7 ++ 5#3) = .ok (.clz ⟨0, 0, 12, 16, 0⟩) ∧
    decode (0x04#6 ++ 0#1 ++ 0#1 ++ 12#7 ++ 16#7 ++ 0#7 ++ 6#3) = .ok (.popc ⟨0, 0, 12, 16, 0⟩) ∧
    decode (0x04#6 ++ 0#1 ++ 0#1 ++ 12#7 ++ 16#7 ++ 0#7 ++ 7#3) = .ok (.brev ⟨0, 0, 12, 16, 0⟩) := by decide +kernel
theorem test_decode_05 : decode (0x05#6 ++ 1#1 ++ 0#1 ++ 12#7 ++ 16#7 ++ 0#3 ++ 5#7) = .ok (.iaddi ⟨1, 0, 12, 16, 5⟩) ∧
    decode (0x05#6 ++ 1#1 ++ 0#1 ++ 12#7 ++ 16#7 ++ 1#3 ++ 5#7) = .ok (.shli ⟨1, 0, 12, 16, 5⟩) ∧
    decode (0x05#6 ++ 1#1 ++ 0#1 ++ 12#7 ++ 16#7 ++ 2#3 ++ 5#7) = .ok (.shri ⟨1, 0, 12, 16, 5⟩) ∧
    decode (0x05#6 ++ 1#1 ++ 0#1 ++ 12#7 ++ 16#7 ++ 3#3 ++ 5#7) = .ok (.sari ⟨1, 0, 12, 16, 5⟩) ∧
    decode (0x05#6 ++ 1#1 ++ 0#1 ++ 12#7 ++ 16#7 ++ 4#3 ++ 5#7) = .ok (.andi ⟨1, 0, 12, 16, 5⟩) ∧
    decode (0x05#6 ++ 1#1 ++ 0#1 ++ 12#7 ++ 16#7 ++ 5#3 ++ 5#7) = .ok (.ori ⟨1, 0, 12, 16, 5⟩) ∧
    decode (0x05#6 ++ 1#1 ++ 0#1 ++ 12#7 ++ 16#7 ++ 6#3 ++ 5#7) = .ok (.xori ⟨1, 0, 12, 16, 5⟩) ∧
    decode (0x05#6 ++ 1#1 ++ 0#1 ++ 12#7 ++ 16#7 ++ 7#3 ++ 5#7) = .ok (.rotli ⟨1, 0, 12, 16, 5⟩) := by decide +kernel
theorem test_decode_06 : decode (0x06#6 ++ 0#1 ++ 0#1 ++ 12#7 ++ 16#7 ++ 20#7 ++ 0#3) = .ok (.shfl ⟨0, 0, 12, 16, 20⟩) ∧
    decode (0x06#6 ++ 0#1 ++ 0#1 ++ 12#7 ++ 16#7 ++ 20#7 ++ 1#3) = .ok (.shflup ⟨0, 0, 12, 16, 20⟩) ∧
    decode (0x06#6 ++ 0#1 ++ 0#1 ++ 12#7 ++ 16#7 ++ 20#7 ++ 2#3) = .ok (.shfldn ⟨0, 0, 12, 16, 20⟩) ∧
    decode (0x06#6 ++ 0#1 ++ 0#1 ++ 12#7 ++ 16#7 ++ 20#7 ++ 3#3) = .ok (.shflx ⟨0, 0, 12, 16, 20⟩) ∧
    decode (0x06#6 ++ 0#1 ++ 0#1 ++ 12#7 ++ 16#7 ++ 0#7 ++ 4#3) = .ok (.tsumI ⟨0, 0, 12, 16, 0⟩) ∧
    decode (0x06#6 ++ 0#1 ++ 0#1 ++ 12#7 ++ 16#7 ++ 0#7 ++ 5#3) = .ok (.tminI ⟨0, 0, 12, 16, 0⟩) ∧
    decode (0x06#6 ++ 0#1 ++ 0#1 ++ 12#7 ++ 16#7 ++ 0#7 ++ 6#3) = .ok (.tmaxI ⟨0, 0, 12, 16, 0⟩) ∧
    decode (0x06#6 ++ 0#1 ++ 0#1 ++ 12#7 ++ 16#7 ++ 0#7 ++ 7#3) = .ok (.tscanI ⟨0, 0, 12, 16, 0⟩) := by decide +kernel
theorem test_decode_07 : decode (0x07#6 ++ 0#1 ++ 0#1 ++ 12#7 ++ 16#7 ++ 0#7 ++ 0#3) = .ok (.mov ⟨0, 0, 12, 16, 0⟩) ∧
    decode (0x07#6 ++ 0#1 ++ 0#1 ++ 12#7 ++ 0#7 ++ 0#7 ++ 1#3) = .ok (.laneid ⟨0, 0, 12, 0, 0⟩) ∧
    decode (0x07#6 ++ 0#1 ++ 0#1 ++ 12#7 ++ 16#7 ++ 20#7 ++ 2#3) = .ok (.lidx ⟨0, 0, 12, 16, 20⟩) := by decide +kernel
theorem test_decode_08 : decode (0x08#6 ++ 0#1 ++ 2#4 ++ 5#4 ++ 16#7 ++ 20#7 ++ 0#3) = .ok (.iseq ⟨0, 2, 5, 16, 20⟩) ∧
    decode (0x08#6 ++ 0#1 ++ 2#4 ++ 5#4 ++ 16#7 ++ 20#7 ++ 1#3) = .ok (.isne ⟨0, 2, 5, 16, 20⟩) ∧
    decode (0x08#6 ++ 0#1 ++ 2#4 ++ 5#4 ++ 16#7 ++ 20#7 ++ 2#3) = .ok (.isltI ⟨0, 2, 5, 16, 20⟩) ∧
    decode (0x08#6 ++ 0#1 ++ 2#4 ++ 5#4 ++ 16#7 ++ 20#7 ++ 3#3) = .ok (.isleI ⟨0, 2, 5, 16, 20⟩) ∧
    decode (0x08#6 ++ 0#1 ++ 2#4 ++ 5#4 ++ 16#7 ++ 20#7 ++ 4#3) = .ok (.isltN ⟨0, 2, 5, 16, 20⟩) ∧
    decode (0x08#6 ++ 0#1 ++ 2#4 ++ 5#4 ++ 16#7 ++ 20#7 ++ 5#3) = .ok (.isleN ⟨0, 2, 5, 16, 20⟩) ∧
    decode (0x08#6 ++ 0#1 ++ 2#4 ++ 5#4 ++ 16#7 ++ 20#7 ++ 6#3) = .ok (.isany ⟨0, 2, 5, 16, 20⟩) ∧
    decode (0x08#6 ++ 0#1 ++ 2#4 ++ 5#4 ++ 16#7 ++ 20#7 ++ 7#3) = .ok (.isnone ⟨0, 2, 5, 16, 20⟩) := by decide +kernel
theorem test_decode_09 : decode (0x09#6 ++ 0#1 ++ 2#4 ++ 5#4 ++ 16#7 ++ 20#7 ++ 0#3) = .ok (.fseq ⟨0, 2, 5, 16, 20⟩) ∧
    decode (0x09#6 ++ 0#1 ++ 2#4 ++ 5#4 ++ 16#7 ++ 20#7 ++ 1#3) = .ok (.fsne ⟨0, 2, 5, 16, 20⟩) ∧
    decode (0x09#6 ++ 0#1 ++ 2#4 ++ 5#4 ++ 16#7 ++ 20#7 ++ 2#3) = .ok (.fslt ⟨0, 2, 5, 16, 20⟩) ∧
    decode (0x09#6 ++ 0#1 ++ 2#4 ++ 5#4 ++ 16#7 ++ 20#7 ++ 3#3) = .ok (.fsle ⟨0, 2, 5, 16, 20⟩) ∧
    decode (0x09#6 ++ 0#1 ++ 2#4 ++ 5#4 ++ 16#7 ++ 20#7 ++ 4#3) = .ok (.fsun ⟨0, 2, 5, 16, 20⟩) ∧
    decode (0x09#6 ++ 0#1 ++ 2#4 ++ 5#4 ++ 16#7 ++ 20#7 ++ 5#3) = .ok (.fsord ⟨0, 2, 5, 16, 20⟩) ∧
    decode (0x09#6 ++ 0#1 ++ 2#4 ++ 5#4 ++ 16#7 ++ 0#7 ++ 6#3) = .ok (.fsnan ⟨0, 2, 5, 16, 0⟩) ∧
    decode (0x09#6 ++ 0#1 ++ 2#4 ++ 5#4 ++ 16#7 ++ 0#7 ++ 7#3) = .ok (.fsinf ⟨0, 2, 5, 16, 0⟩) := by decide +kernel
theorem test_decode_0a : decode (0x0A#6 ++ 0#1 ++ 2#4 ++ 5#4 ++ 6#7 ++ 0#7 ++ 0#3) = .ok (.pand ⟨0, 2, 5, 6, 0⟩) ∧
    decode (0x0A#6 ++ 0#1 ++ 2#4 ++ 5#4 ++ 6#7 ++ 0#7 ++ 1#3) = .ok (.por ⟨0, 2, 5, 6, 0⟩) ∧
    decode (0x0A#6 ++ 0#1 ++ 2#4 ++ 5#4 ++ 6#7 ++ 0#7 ++ 2#3) = .ok (.pxor ⟨0, 2, 5, 6, 0⟩) ∧
    decode (0x0A#6 ++ 0#1 ++ 2#4 ++ 5#4 ++ 0#7 ++ 0#7 ++ 3#3) = .ok (.pnot ⟨0, 2, 5, 0, 0⟩) ∧
    decode (0x0A#6 ++ 0#1 ++ 2#4 ++ 5#4 ++ 0#7 ++ 0#7 ++ 4#3) = .ok (.pany ⟨0, 2, 5, 0, 0⟩) ∧
    decode (0x0A#6 ++ 0#1 ++ 2#4 ++ 5#4 ++ 0#7 ++ 0#7 ++ 5#3) = .ok (.pall ⟨0, 2, 5, 0, 0⟩) ∧
    decode (0x0A#6 ++ 0#1 ++ 2#4 ++ 5#4 ++ 16#7 ++ 20#7 ++ 6#3) = .ok (.psig ⟨0, 2, 5, 16, 20⟩) ∧
    decode (0x0A#6 ++ 0#1 ++ 2#4 ++ 5#4 ++ 0#7 ++ 0#7 ++ 7#3) = .ok (.pelect ⟨0, 2, 5, 0, 0⟩) := by decide +kernel
theorem test_decode_0ba : decode (0x0B#6 ++ 0#1 ++ 0#7 ++ 12#6 ++ 16#6 ++ 20#6) = .ok (.sadd ⟨0, 12, 16, 20⟩) ∧
    decode (0x0B#6 ++ 0#1 ++ 1#7 ++ 12#6 ++ 16#6 ++ 20#6) = .ok (.ssub ⟨0, 12, 16, 20⟩) ∧
    decode (0x0B#6 ++ 0#1 ++ 2#7 ++ 12#6 ++ 16#6 ++ 20#6) = .ok (.smul ⟨0, 12, 16, 20⟩) ∧
    decode (0x0B#6 ++ 0#1 ++ 3#7 ++ 12#6 ++ 16#6 ++ 20#6) = .ok (.smulhI ⟨0, 12, 16, 20⟩) ∧
    decode (0x0B#6 ++ 0#1 ++ 4#7 ++ 12#6 ++ 16#6 ++ 20#6) = .ok (.smulhN ⟨0, 12, 16, 20⟩) ∧
    decode (0x0B#6 ++ 0#1 ++ 5#7 ++ 12#6 ++ 16#6 ++ 20#6) = .ok (.sdivI ⟨0, 12, 16, 20⟩) ∧
    decode (0x0B#6 ++ 0#1 ++ 6#7 ++ 12#6 ++ 16#6 ++ 20#6) = .ok (.sdivN ⟨0, 12, 16, 20⟩) ∧
    decode (0x0B#6 ++ 0#1 ++ 7#7 ++ 12#6 ++ 16#6 ++ 20#6) = .ok (.sremI ⟨0, 12, 16, 20⟩) := by decide +kernel
theorem test_decode_0bb : decode (0x0B#6 ++ 0#1 ++ 8#7 ++ 12#6 ++ 16#6 ++ 20#6) = .ok (.sremN ⟨0, 12, 16, 20⟩) ∧
    decode (0x0B#6 ++ 0#1 ++ 9#7 ++ 12#6 ++ 16#6 ++ 20#6) = .ok (.sand ⟨0, 12, 16, 20⟩) ∧
    decode (0x0B#6 ++ 0#1 ++ 10#7 ++ 12#6 ++ 16#6 ++ 20#6) = .ok (.sor ⟨0, 12, 16, 20⟩) ∧
    decode (0x0B#6 ++ 0#1 ++ 11#7 ++ 12#6 ++ 16#6 ++ 20#6) = .ok (.sxor ⟨0, 12, 16, 20⟩) ∧
    decode (0x0B#6 ++ 0#1 ++ 12#7 ++ 12#6 ++ 16#6 ++ 20#6) = .ok (.sandn ⟨0, 12, 16, 20⟩) ∧
    decode (0x0B#6 ++ 0#1 ++ 13#7 ++ 12#6 ++ 16#6 ++ 20#6) = .ok (.sshl ⟨0, 12, 16, 20⟩) ∧
    decode (0x0B#6 ++ 0#1 ++ 14#7 ++ 12#6 ++ 16#6 ++ 20#6) = .ok (.sshr ⟨0, 12, 16, 20⟩) ∧
    decode (0x0B#6 ++ 0#1 ++ 15#7 ++ 12#6 ++ 16#6 ++ 20#6) = .ok (.ssar ⟨0, 12, 16, 20⟩) := by decide +kernel
theorem test_decode_0bc : decode (0x0B#6 ++ 0#1 ++ 16#7 ++ 12#6 ++ 16#6 ++ 20#6) = .ok (.sminI ⟨0, 12, 16, 20⟩) ∧
    decode (0x0B#6 ++ 0#1 ++ 17#7 ++ 12#6 ++ 16#6 ++ 20#6) = .ok (.smaxI ⟨0, 12, 16, 20⟩) ∧
    decode (0x0B#6 ++ 0#1 ++ 18#7 ++ 12#6 ++ 16#6 ++ 20#6) = .ok (.sminN ⟨0, 12, 16, 20⟩) ∧
    decode (0x0B#6 ++ 0#1 ++ 19#7 ++ 12#6 ++ 16#6 ++ 20#6) = .ok (.smaxN ⟨0, 12, 16, 20⟩) ∧
    decode (0x0B#6 ++ 0#1 ++ 20#7 ++ 12#6 ++ 16#6 ++ 0#6) = .ok (.sclz ⟨0, 12, 16, 0⟩) ∧
    decode (0x0B#6 ++ 0#1 ++ 21#7 ++ 12#6 ++ 16#6 ++ 0#6) = .ok (.spopc ⟨0, 12, 16, 0⟩) ∧
    decode (0x0B#6 ++ 0#1 ++ 22#7 ++ 12#6 ++ 16#6 ++ 20#6) = .ok (.sseq ⟨0, 12, 16, 20⟩) ∧
    decode (0x0B#6 ++ 0#1 ++ 23#7 ++ 12#6 ++ 16#6 ++ 20#6) = .ok (.ssltI ⟨0, 12, 16, 20⟩) := by decide +kernel
theorem test_decode_0bd : decode (0x0B#6 ++ 0#1 ++ 24#7 ++ 12#6 ++ 16#6 ++ 20#6) = .ok (.ssltN ⟨0, 12, 16, 20⟩) ∧
    decode (0x0B#6 ++ 0#1 ++ 25#7 ++ 12#6 ++ 16#6 ++ 0#6) = .ok (.smov ⟨0, 12, 16, 0⟩) ∧
    decode (0x0B#6 ++ 0#1 ++ 26#7 ++ 12#6 ++ 16#6 ++ 20#6) = .ok (.sadd64 ⟨0, 12, 16, 20⟩) ∧
    decode (0x0B#6 ++ 0#1 ++ 27#7 ++ 12#6 ++ 16#6 ++ 20#6) = .ok (.ssub64 ⟨0, 12, 16, 20⟩) ∧
    decode (0x0B#6 ++ 0#1 ++ 28#7 ++ 12#6 ++ 16#6 ++ 20#6) = .ok (.sshl64 ⟨0, 12, 16, 20⟩) ∧
    decode (0x0B#6 ++ 0#1 ++ 29#7 ++ 12#6 ++ 16#6 ++ 20#6) = .ok (.sshr64 ⟨0, 12, 16, 20⟩) ∧
    decode (0x0B#6 ++ 0#1 ++ 30#7 ++ 12#6 ++ 16#6 ++ 20#6) = .ok (.saddx ⟨0, 12, 16, 20⟩) ∧
    decode (0x0B#6 ++ 0#1 ++ 31#7 ++ 12#6 ++ 16#6 ++ 20#6) = .ok (.sbfx ⟨0, 12, 16, 20⟩) := by decide +kernel
theorem test_decode_0c : decode (0x0C#6 ++ 0#1 ++ 12#6 ++ 16#6 ++ 0#3 ++ 21#10) = .ok (.saddi ⟨0, 12, 16, 21⟩) ∧
    decode (0x0C#6 ++ 0#1 ++ 12#6 ++ 16#6 ++ 1#3 ++ 21#10) = .ok (.sandi ⟨0, 12, 16, 21⟩) ∧
    decode (0x0C#6 ++ 0#1 ++ 12#6 ++ 16#6 ++ 2#3 ++ 21#10) = .ok (.sori ⟨0, 12, 16, 21⟩) ∧
    decode (0x0C#6 ++ 0#1 ++ 12#6 ++ 16#6 ++ 3#3 ++ 21#10) = .ok (.sxori ⟨0, 12, 16, 21⟩) ∧
    decode (0x0C#6 ++ 0#1 ++ 12#6 ++ 16#6 ++ 4#3 ++ 21#10) = .ok (.sshli ⟨0, 12, 16, 21⟩) ∧
    decode (0x0C#6 ++ 0#1 ++ 12#6 ++ 16#6 ++ 5#3 ++ 21#10) = .ok (.sshri ⟨0, 12, 16, 21⟩) ∧
    decode (0x0C#6 ++ 0#1 ++ 12#6 ++ 16#6 ++ 6#3 ++ 21#10) = .ok (.ssari ⟨0, 12, 16, 21⟩) ∧
    decode (0x0C#6 ++ 0#1 ++ 12#6 ++ 16#6 ++ 7#3 ++ 21#10) = .ok (.ssltiI ⟨0, 12, 16, 21⟩) := by decide +kernel
theorem test_decode_0d : decode (0x0D#6 ++ 0#1 ++ 12#7 ++ 20#6 ++ 0#12) = .ok (.bcast ⟨0, 12, 20, 0⟩) := by decide +kernel
theorem test_decode_0e : decode (0x0E#6 ++ 0#1 ++ 12#7 ++ 20#6 ++ 7#12) = .ok (.lanerd ⟨0, 12, 20, 7⟩) := by decide +kernel
theorem test_decode_0f : decode (0x0F#6 ++ 0#1 ++ 0#7 ++ 20#6 ++ 16#12) = .ok (.mfc ⟨0, 0, 20, 16⟩) := by decide +kernel
theorem test_decode_10 : decode (0x10#6 ++ 0#1 ++ 0#7 ++ 20#6 ++ 18#12) = .ok (.mtc ⟨0, 0, 20, 18⟩) := by decide +kernel
theorem test_decode_11 : decode (0x11#6 ++ 0#1 ++ 0#7 ++ 20#6 ++ 5#12) = .ok (.pmov ⟨0, 0, 20, 5⟩) := by decide +kernel
theorem test_decode_12 : decode (0x12#6 ++ 0#1 ++ 0#1 ++ 12#7 ++ 16#7 ++ 20#7 ++ 0#3) = .ok (.fadd ⟨0, 0, 12, 16, 20⟩) ∧
    decode (0x12#6 ++ 0#1 ++ 0#1 ++ 12#7 ++ 16#7 ++ 20#7 ++ 1#3) = .ok (.fsub ⟨0, 0, 12, 16, 20⟩) ∧
    decode (0x12#6 ++ 0#1 ++ 0#1 ++ 12#7 ++ 16#7 ++ 20#7 ++ 2#3) = .ok (.fmul ⟨0, 0, 12, 16, 20⟩) ∧
    decode (0x12#6 ++ 0#1 ++ 0#1 ++ 12#7 ++ 16#7 ++ 20#7 ++ 3#3) = .ok (.fmin ⟨0, 0, 12, 16, 20⟩) ∧
    decode (0x12#6 ++ 0#1 ++ 0#1 ++ 12#7 ++ 16#7 ++ 20#7 ++ 4#3) = .ok (.fmax ⟨0, 0, 12, 16, 20⟩) ∧
    decode (0x12#6 ++ 0#1 ++ 0#1 ++ 12#7 ++ 16#7 ++ 0#7 ++ 5#3) = .ok (.fabs ⟨0, 0, 12, 16, 0⟩) ∧
    decode (0x12#6 ++ 0#1 ++ 0#1 ++ 12#7 ++ 16#7 ++ 0#7 ++ 6#3) = .ok (.fneg ⟨0, 0, 12, 16, 0⟩) ∧
    decode (0x12#6 ++ 0#1 ++ 0#1 ++ 12#7 ++ 16#7 ++ 20#7 ++ 7#3) = .ok (.fcpsgn ⟨0, 0, 12, 16, 20⟩) := by decide +kernel
theorem test_decode_13 : decode (0x13#6 ++ 0#1 ++ 0#1 ++ 12#7 ++ 16#7 ++ 20#7 ++ 0#3) = .ok (.ffma ⟨0, 0, 12, 16, 20⟩) ∧
    decode (0x13#6 ++ 0#1 ++ 0#1 ++ 12#7 ++ 16#7 ++ 20#7 ++ 1#3) = .ok (.ffms ⟨0, 0, 12, 16, 20⟩) ∧
    decode (0x13#6 ++ 0#1 ++ 0#1 ++ 12#7 ++ 16#7 ++ 20#7 ++ 2#3) = .ok (.fnfma ⟨0, 0, 12, 16, 20⟩) ∧
    decode (0x13#6 ++ 0#1 ++ 0#1 ++ 12#7 ++ 16#7 ++ 20#7 ++ 3#3) = .ok (.fdiv ⟨0, 0, 12, 16, 20⟩) ∧
    decode (0x13#6 ++ 0#1 ++ 0#1 ++ 12#7 ++ 16#7 ++ 0#7 ++ 4#3) = .ok (.fsqrt ⟨0, 0, 12, 16, 0⟩) ∧
    decode (0x13#6 ++ 0#1 ++ 0#1 ++ 12#7 ++ 16#7 ++ 0#7 ++ 5#3) = .ok (.frcp ⟨0, 0, 12, 16, 0⟩) ∧
    decode (0x13#6 ++ 0#1 ++ 0#1 ++ 12#7 ++ 16#7 ++ 0#7 ++ 6#3) = .ok (.frsq ⟨0, 0, 12, 16, 0⟩) ∧
    decode (0x13#6 ++ 0#1 ++ 0#1 ++ 12#7 ++ 16#7 ++ 0#7 ++ 7#3) = .ok (.fexp2 ⟨0, 0, 12, 16, 0⟩) := by decide +kernel
theorem test_decode_14 : decode (0x14#6 ++ 0#1 ++ 0#1 ++ 12#7 ++ 16#7 ++ 0#7 ++ 0#3) = .ok (.flog2 ⟨0, 0, 12, 16, 0⟩) ∧
    decode (0x14#6 ++ 0#1 ++ 0#1 ++ 12#7 ++ 16#7 ++ 0#7 ++ 1#3) = .ok (.fsinpi ⟨0, 0, 12, 16, 0⟩) ∧
    decode (0x14#6 ++ 0#1 ++ 0#1 ++ 12#7 ++ 16#7 ++ 0#7 ++ 2#3) = .ok (.fcospi ⟨0, 0, 12, 16, 0⟩) ∧
    decode (0x14#6 ++ 0#1 ++ 0#1 ++ 12#7 ++ 16#7 ++ 0#7 ++ 3#3) = .ok (.ffloor ⟨0, 0, 12, 16, 0⟩) ∧
    decode (0x14#6 ++ 0#1 ++ 0#1 ++ 12#7 ++ 16#7 ++ 0#7 ++ 4#3) = .ok (.fceil ⟨0, 0, 12, 16, 0⟩) ∧
    decode (0x14#6 ++ 0#1 ++ 0#1 ++ 12#7 ++ 16#7 ++ 0#7 ++ 5#3) = .ok (.ftrunc ⟨0, 0, 12, 16, 0⟩) ∧
    decode (0x14#6 ++ 0#1 ++ 0#1 ++ 12#7 ++ 16#7 ++ 0#7 ++ 6#3) = .ok (.frint ⟨0, 0, 12, 16, 0⟩) ∧
    decode (0x14#6 ++ 0#1 ++ 0#1 ++ 12#7 ++ 16#7 ++ 0#7 ++ 7#3) = .ok (.ffract ⟨0, 0, 12, 16, 0⟩) := by decide +kernel
theorem test_decode_15 : decode (0x15#6 ++ 0#1 ++ 0#1 ++ 12#7 ++ 16#7 ++ 20#7 ++ 0#3) = .ok (.f4add ⟨0, 0, 12, 16, 20⟩) ∧
    decode (0x15#6 ++ 0#1 ++ 0#1 ++ 12#7 ++ 16#7 ++ 20#7 ++ 1#3) = .ok (.f4sub ⟨0, 0, 12, 16, 20⟩) ∧
    decode (0x15#6 ++ 0#1 ++ 0#1 ++ 12#7 ++ 16#7 ++ 20#7 ++ 2#3) = .ok (.f4mul ⟨0, 0, 12, 16, 20⟩) ∧
    decode (0x15#6 ++ 0#1 ++ 0#1 ++ 12#7 ++ 16#7 ++ 20#7 ++ 3#3) = .ok (.f4fma ⟨0, 0, 12, 16, 20⟩) ∧
    decode (0x15#6 ++ 0#1 ++ 0#1 ++ 12#7 ++ 16#7 ++ 20#7 ++ 4#3) = .ok (.f4fms ⟨0, 0, 12, 16, 20⟩) ∧
    decode (0x15#6 ++ 0#1 ++ 0#1 ++ 12#7 ++ 16#7 ++ 20#7 ++ 5#3) = .ok (.f4min ⟨0, 0, 12, 16, 20⟩) ∧
    decode (0x15#6 ++ 0#1 ++ 0#1 ++ 12#7 ++ 16#7 ++ 20#7 ++ 6#3) = .ok (.f4max ⟨0, 0, 12, 16, 20⟩) := by decide +kernel
theorem test_decode_16 : decode (0x16#6 ++ 0#1 ++ 0#1 ++ 12#7 ++ 16#7 ++ 20#7 ++ 0#3) = .ok (.dadd ⟨0, 0, 12, 16, 20⟩) ∧
    decode (0x16#6 ++ 0#1 ++ 0#1 ++ 12#7 ++ 16#7 ++ 20#7 ++ 1#3) = .ok (.dsub ⟨0, 0, 12, 16, 20⟩) ∧
    decode (0x16#6 ++ 0#1 ++ 0#1 ++ 12#7 ++ 16#7 ++ 20#7 ++ 2#3) = .ok (.dmul ⟨0, 0, 12, 16, 20⟩) ∧
    decode (0x16#6 ++ 0#1 ++ 0#1 ++ 12#7 ++ 16#7 ++ 20#7 ++ 3#3) = .ok (.dfma ⟨0, 0, 12, 16, 20⟩) ∧
    decode (0x16#6 ++ 0#1 ++ 0#1 ++ 12#7 ++ 16#7 ++ 20#7 ++ 4#3) = .ok (.ddiv ⟨0, 0, 12, 16, 20⟩) ∧
    decode (0x16#6 ++ 0#1 ++ 0#1 ++ 12#7 ++ 16#7 ++ 0#7 ++ 5#3) = .ok (.dsqrt ⟨0, 0, 12, 16, 0⟩) ∧
    decode (0x16#6 ++ 0#1 ++ 0#1 ++ 12#7 ++ 16#7 ++ 20#7 ++ 6#3) = .ok (.dmin ⟨0, 0, 12, 16, 20⟩) ∧
    decode (0x16#6 ++ 0#1 ++ 0#1 ++ 12#7 ++ 16#7 ++ 20#7 ++ 7#3) = .ok (.dmax ⟨0, 0, 12, 16, 20⟩) := by decide +kernel
theorem test_decode_17 : decode (0x17#6 ++ 0#1 ++ 0#1 ++ 12#7 ++ 16#7 ++ 20#7 ++ 0#3) = .ok (.hadd2 ⟨0, 0, 12, 16, 20⟩) ∧
    decode (0x17#6 ++ 0#1 ++ 0#1 ++ 12#7 ++ 16#7 ++ 20#7 ++ 1#3) = .ok (.hmul2 ⟨0, 0, 12, 16, 20⟩) ∧
    decode (0x17#6 ++ 0#1 ++ 0#1 ++ 12#7 ++ 16#7 ++ 20#7 ++ 2#3) = .ok (.hfma2 ⟨0, 0, 12, 16, 20⟩) ∧
    decode (0x17#6 ++ 0#1 ++ 0#1 ++ 12#7 ++ 16#7 ++ 20#7 ++ 3#3) = .ok (.hmax2 ⟨0, 0, 12, 16, 20⟩) ∧
    decode (0x17#6 ++ 0#1 ++ 0#1 ++ 12#7 ++ 16#7 ++ 20#7 ++ 4#3) = .ok (.badd2 ⟨0, 0, 12, 16, 20⟩) ∧
    decode (0x17#6 ++ 0#1 ++ 0#1 ++ 12#7 ++ 16#7 ++ 20#7 ++ 5#3) = .ok (.bmul2 ⟨0, 0, 12, 16, 20⟩) ∧
    decode (0x17#6 ++ 0#1 ++ 0#1 ++ 12#7 ++ 16#7 ++ 20#7 ++ 6#3) = .ok (.bfma2 ⟨0, 0, 12, 16, 20⟩) ∧
    decode (0x17#6 ++ 0#1 ++ 0#1 ++ 12#7 ++ 16#7 ++ 20#7 ++ 7#3) = .ok (.bmax2 ⟨0, 0, 12, 16, 20⟩) := by decide +kernel
theorem test_decode_18 : decode (0x18#6 ++ 0#1 ++ 0#1 ++ 12#7 ++ 16#7 ++ 0#7 ++ 0#3) = .ok (.cvt ⟨0, 0, 12, 16, 0⟩) ∧
    decode (0x18#6 ++ 0#1 ++ 0#1 ++ 12#7 ++ 16#7 ++ 0#7 ++ 1#3) = .ok (.cvts ⟨0, 0, 12, 16, 0⟩) ∧
    decode (0x18#6 ++ 0#1 ++ 0#1 ++ 12#7 ++ 16#7 ++ 20#7 ++ 2#3) = .ok (.pk8 ⟨0, 0, 12, 16, 20⟩) ∧
    decode (0x18#6 ++ 0#1 ++ 0#1 ++ 12#7 ++ 16#7 ++ 20#7 ++ 3#3) = .ok (.pk4 ⟨0, 0, 12, 16, 20⟩) ∧
    decode (0x18#6 ++ 0#1 ++ 0#1 ++ 12#7 ++ 16#7 ++ 20#7 ++ 4#3) = .ok (.upk8 ⟨0, 0, 12, 16, 20⟩) ∧
    decode (0x18#6 ++ 0#1 ++ 0#1 ++ 12#7 ++ 16#7 ++ 20#7 ++ 5#3) = .ok (.upk4 ⟨0, 0, 12, 16, 20⟩) ∧
    decode (0x18#6 ++ 0#1 ++ 0#1 ++ 12#7 ++ 16#7 ++ 20#7 ++ 6#3) = .ok (.qdec ⟨0, 0, 12, 16, 20⟩) ∧
    decode (0x18#6 ++ 0#1 ++ 0#1 ++ 12#7 ++ 16#7 ++ 20#7 ++ 7#3) = .ok (.qenc ⟨0, 0, 12, 16, 20⟩) := by decide +kernel
theorem test_decode_19 : decode (0x19#6 ++ 0#1 ++ 0#1 ++ 12#7 ++ 16#7 ++ 0#7 ++ 0#3) = .ok (.tagrd ⟨0, 0, 12, 16, 0⟩) ∧
    decode (0x19#6 ++ 0#1 ++ 0#1 ++ 12#7 ++ 16#7 ++ 20#7 ++ 1#3) = .ok (.tagwr ⟨0, 0, 12, 16, 20⟩) ∧
    decode (0x19#6 ++ 0#1 ++ 0#1 ++ 12#7 ++ 16#7 ++ 20#7 ++ 2#3) = .ok (.tagmin ⟨0, 0, 12, 16, 20⟩) ∧
    decode (0x19#6 ++ 0#1 ++ 0#1 ++ 12#7 ++ 16#7 ++ 1#7 ++ 3#3) = .ok (.tagfull ⟨0, 0, 12, 16, 1⟩) ∧
    decode (0x19#6 ++ 0#1 ++ 0#1 ++ 12#7 ++ 16#7 ++ 0#7 ++ 4#3) = .ok (.tagunt ⟨0, 0, 12, 16, 0⟩) := by decide +kernel
theorem test_decode_1a : decode (0x1A#6 ++ 0#1 ++ 5#4 ++ 1#1 ++ 0#1 ++ 77#19) = .ok (.bra ⟨5, 1, 77⟩) ∧
    decode (0x1A#6 ++ 0#1 ++ 5#4 ++ 1#1 ++ 1#1 ++ 77#19) = .ok (.call ⟨5, 1, 77⟩) := by decide +kernel
theorem test_decode_1ba : decode (0x1B#6 ++ 0#1 ++ 0#7 ++ 0#6 ++ 16#6 ++ 0#6) = .ok (.ret ⟨0, 0, 16, 0⟩) ∧
    decode (0x1B#6 ++ 0#1 ++ 1#7 ++ 0#6 ++ 16#6 ++ 0#6) = .ok (.jmpi ⟨0, 0, 16, 0⟩) ∧
    decode (0x1B#6 ++ 0#1 ++ 2#7 ++ 0#6 ++ 16#6 ++ 0#6) = .ok (.calli ⟨0, 0, 16, 0⟩) ∧
    decode (0x1B#6 ++ 0#1 ++ 3#7 ++ 0#6 ++ 0#6 ++ 0#6) = .ok (.exit ⟨0, 0, 0, 0⟩) ∧
    decode (0x1B#6 ++ 0#1 ++ 4#7 ++ 0#6 ++ 0#6 ++ 0#6) = .ok (.yield ⟨0, 0, 0, 0⟩) ∧
    decode (0x1B#6 ++ 0#1 ++ 5#7 ++ 0#6 ++ 0#6 ++ 0#6) = .ok (.nop ⟨0, 0, 0, 0⟩) ∧
    decode (0x1B#6 ++ 0#1 ++ 6#7 ++ 0#6 ++ 0#6 ++ 20#6) = .ok (.brk ⟨0, 0, 0, 20⟩) ∧
    decode (0x1B#6 ++ 0#1 ++ 7#7 ++ 0#6 ++ 0#6 ++ 20#6) = .ok (.trap ⟨0, 0, 0, 20⟩) := by decide +kernel
theorem test_decode_1bb : decode (0x1B#6 ++ 0#1 ++ 8#7 ++ 0#6 ++ 16#6 ++ 0#6) = .ok (.prioset ⟨0, 0, 16, 0⟩) := by decide +kernel
theorem test_decode_1c : decode (0x1C#6 ++ 0#1 ++ 3#7 ++ 0#6 ++ 0#6 ++ 0#6) = .ok (.enrol 3 ⟨0, 0, 0, 0⟩) ∧
    decode (0x1C#6 ++ 0#1 ++ 7#7 ++ 0#6 ++ 0#6 ++ 0#6) = .ok (.joinw 3 ⟨0, 0, 0, 0⟩) ∧
    decode (0x1C#6 ++ 0#1 ++ 11#7 ++ 12#6 ++ 0#6 ++ 0#6) = .ok (.joinq 3 ⟨0, 12, 0, 0⟩) ∧
    decode (0x1C#6 ++ 0#1 ++ 15#7 ++ 12#6 ++ 0#6 ++ 0#6) = .ok (.maskrd 3 ⟨0, 12, 0, 0⟩) := by decide +kernel
theorem test_decode_1d : decode (0x1D#6 ++ 0#1 ++ 12#7 ++ 20#6 ++ 2048#12) = .ok (.spawn ⟨0, 12, 20, 2048⟩) := by decide +kernel
theorem test_decode_1e : decode (0x1E#6 ++ 0#1 ++ 5#7 ++ 0#6 ++ 0#6 ++ 0#6) = .ok (.bara 5 ⟨0, 0, 0, 0⟩) ∧
    decode (0x1E#6 ++ 0#1 ++ 21#7 ++ 0#6 ++ 0#6 ++ 0#6) = .ok (.barw 5 ⟨0, 0, 0, 0⟩) ∧
    decode (0x1E#6 ++ 0#1 ++ 37#7 ++ 0#6 ++ 0#6 ++ 0#6) = .ok (.baraw 5 ⟨0, 0, 0, 0⟩) ∧
    decode (0x1E#6 ++ 0#1 ++ 53#7 ++ 0#6 ++ 16#6 ++ 0#6) = .ok (.bcbi 5 ⟨0, 0, 16, 0⟩) ∧
    decode (0x1E#6 ++ 0#1 ++ 69#7 ++ 0#6 ++ 16#6 ++ 0#6) = .ok (.bcbx 5 ⟨0, 0, 16, 0⟩) ∧
    decode (0x1E#6 ++ 0#1 ++ 85#7 ++ 12#6 ++ 0#6 ++ 0#6) = .ok (.bcbw 5 ⟨0, 12, 0, 0⟩) ∧
    decode (0x1E#6 ++ 0#1 ++ 101#7 ++ 0#6 ++ 16#6 ++ 0#6) = .ok (.bcba 5 ⟨0, 0, 16, 0⟩) ∧
    decode (0x1E#6 ++ 0#1 ++ 117#7 ++ 12#6 ++ 16#6 ++ 0#6) = .ok (.promw 5 ⟨0, 12, 16, 0⟩) := by decide +kernel
theorem test_decode_1f : decode (0x1F#6 ++ 0#1 ++ 0#7 ++ 12#6 ++ 16#6 ++ 20#6) = .ok (.waitc ⟨0, 12, 16, 20⟩) ∧
    decode (0x1F#6 ++ 0#1 ++ 1#7 ++ 12#6 ++ 16#6 ++ 0#6) = .ok (.watch ⟨0, 12, 16, 0⟩) ∧
    decode (0x1F#6 ++ 0#1 ++ 2#7 ++ 12#6 ++ 16#6 ++ 0#6) = .ok (.unwatch ⟨0, 12, 16, 0⟩) ∧
    decode (0x1F#6 ++ 0#1 ++ 3#7 ++ 0#6 ++ 16#6 ++ 0#6) = .ok (.sleep ⟨0, 0, 16, 0⟩) ∧
    decode (0x1F#6 ++ 0#1 ++ 4#7 ++ 0#6 ++ 16#6 ++ 0#6) = .ok (.binfl ⟨0, 0, 16, 0⟩) := by decide +kernel
theorem test_decode_20 : decode (0x20#6 ++ 0#1 ++ 0#7 ++ 0#6 ++ 16#6 ++ 20#6) = .ok (.suspend ⟨0, 0, 16, 20⟩) ∧
    decode (0x20#6 ++ 0#1 ++ 1#7 ++ 12#6 ++ 16#6 ++ 0#6) = .ok (.resume ⟨0, 12, 16, 0⟩) ∧
    decode (0x20#6 ++ 0#1 ++ 2#7 ++ 12#6 ++ 16#6 ++ 20#6) = .ok (.tcopy ⟨0, 12, 16, 20⟩) ∧
    decode (0x20#6 ++ 0#1 ++ 3#7 ++ 0#6 ++ 16#6 ++ 0#6) = .ok (.tdisc ⟨0, 0, 16, 0⟩) ∧
    decode (0x20#6 ++ 0#1 ++ 4#7 ++ 12#6 ++ 16#6 ++ 0#6) = .ok (.tstat ⟨0, 12, 16, 0⟩) := by decide +kernel
theorem test_decode_21 : decode (0x21#6 ++ 0#1 ++ 12#7 ++ 12#6 ++ 16#6 ++ 20#6) = .ok (.claim 6 ⟨0, 12, 16, 20⟩) ∧
    decode (0x21#6 ++ 0#1 ++ 28#7 ++ 12#6 ++ 16#6 ++ 0#6) = .ok (.object 6 ⟨0, 12, 16, 0⟩) ∧
    decode (0x21#6 ++ 0#1 ++ 44#7 ++ 12#6 ++ 0#6 ++ 0#6) = .ok (.clpeek 6 ⟨0, 12, 0, 0⟩) ∧
    decode (0x21#6 ++ 0#1 ++ 60#7 ++ 12#6 ++ 0#6 ++ 0#6) = .ok (.clpop 6 ⟨0, 12, 0, 0⟩) ∧
    decode (0x21#6 ++ 0#1 ++ 76#7 ++ 12#6 ++ 16#6 ++ 0#6) = .ok (.clwait 6 ⟨0, 12, 16, 0⟩) ∧
    decode (0x21#6 ++ 0#1 ++ 92#7 ++ 12#6 ++ 16#6 ++ 20#6) = .ok (.cljoin 6 ⟨0, 12, 16, 20⟩) ∧
    decode (0x21#6 ++ 0#1 ++ 108#7 ++ 12#6 ++ 16#6 ++ 0#6) = .ok (.clleave 6 ⟨0, 12, 16, 0⟩) := by decide +kernel
theorem test_decode_22 : decode (0x22#6 ++ 0#1 ++ 0#7 ++ 0#6 ++ 0#6 ++ 0#6) = .ok (.rtr ⟨0, 0, 0, 0⟩) ∧
    decode (0x22#6 ++ 0#1 ++ 1#7 ++ 0#6 ++ 0#6 ++ 0#6) = .ok (.rts ⟨0, 0, 0, 0⟩) ∧
    decode (0x22#6 ++ 0#1 ++ 2#7 ++ 0#6 ++ 16#6 ++ 0#6) = .ok (.replay ⟨0, 0, 16, 0⟩) ∧
    decode (0x22#6 ++ 0#1 ++ 3#7 ++ 0#6 ++ 16#6 ++ 0#6) = .ok (.tlbi ⟨0, 0, 16, 0⟩) ∧
    decode (0x22#6 ++ 0#1 ++ 4#7 ++ 12#6 ++ 16#6 ++ 20#6) = .ok (.harvest ⟨0, 12, 16, 20⟩) ∧
    decode (0x22#6 ++ 0#1 ++ 5#7 ++ 0#6 ++ 16#6 ++ 0#6) = .ok (.park ⟨0, 0, 16, 0⟩) ∧
    decode (0x22#6 ++ 0#1 ++ 6#7 ++ 0#6 ++ 16#6 ++ 0#6) = .ok (.halt ⟨0, 0, 16, 0⟩) ∧
    decode (0x22#6 ++ 0#1 ++ 7#7 ++ 0#6 ++ 0#6 ++ 20#6) = .ok (.scall ⟨0, 0, 0, 20⟩) := by decide +kernel
theorem test_decode_24 : decode (0x24#6 ++ 0#1 ++ 12#7 ++ 16#7 ++ 20#6 ++ 1#2 ++ 4#3) = .ok (.ld8I ⟨0, 12, 16, 20, 1, 4⟩) := by decide +kernel
theorem test_decode_25 : decode (0x25#6 ++ 0#1 ++ 12#7 ++ 16#7 ++ 20#6 ++ 1#2 ++ 4#3) = .ok (.ld8N ⟨0, 12, 16, 20, 1, 4⟩) := by decide +kernel
theorem test_decode_26 : decode (0x26#6 ++ 0#1 ++ 12#7 ++ 16#7 ++ 20#6 ++ 1#2 ++ 4#3) = .ok (.ld16I ⟨0, 12, 16, 20, 1, 4⟩) := by decide +kernel
theorem test_decode_27 : decode (0x27#6 ++ 0#1 ++ 12#7 ++ 16#7 ++ 20#6 ++ 1#2 ++ 4#3) = .ok (.ld16N ⟨0, 12, 16, 20, 1, 4⟩) := by decide +kernel
theorem test_decode_28 : decode (0x28#6 ++ 0#1 ++ 12#7 ++ 16#7 ++ 20#6 ++ 1#2 ++ 4#3) = .ok (.ld32 ⟨0, 12, 16, 20, 1, 4⟩) := by decide +kernel
theorem test_decode_29 : decode (0x29#6 ++ 0#1 ++ 12#7 ++ 16#7 ++ 20#6 ++ 1#2 ++ 4#3) = .ok (.ld64 ⟨0, 12, 16, 20, 1, 4⟩) := by decide +kernel
theorem test_decode_2a : decode (0x2A#6 ++ 0#1 ++ 12#7 ++ 16#7 ++ 20#6 ++ 1#2 ++ 4#3) = .ok (.ld128 ⟨0, 12, 16, 20, 1, 4⟩) := by decide +kernel
theorem test_decode_2b : decode (0x2B#6 ++ 0#1 ++ 12#7 ++ 16#7 ++ 20#6 ++ 1#2 ++ 4#3) = .ok (.ldt32 ⟨0, 12, 16, 20, 1, 4⟩) := by decide +kernel
theorem test_decode_2c : decode (0x2C#6 ++ 0#1 ++ 12#7 ++ 16#7 ++ 20#6 ++ 1#2 ++ 4#3) = .ok (.st8 ⟨0, 12, 16, 20, 1, 4⟩) := by decide +kernel
theorem test_decode_2d : decode (0x2D#6 ++ 0#1 ++ 12#7 ++ 16#7 ++ 20#6 ++ 1#2 ++ 4#3) = .ok (.st16 ⟨0, 12, 16, 20, 1, 4⟩) := by decide +kernel
theorem test_decode_2e : decode (0x2E#6 ++ 0#1 ++ 12#7 ++ 16#7 ++ 20#6 ++ 1#2 ++ 4#3) = .ok (.st32 ⟨0, 12, 16, 20, 1, 4⟩) := by decide +kernel
theorem test_decode_2f : decode (0x2F#6 ++ 0#1 ++ 12#7 ++ 16#7 ++ 20#6 ++ 1#2 ++ 4#3) = .ok (.st64 ⟨0, 12, 16, 20, 1, 4⟩) := by decide +kernel
theorem test_decode_30 : decode (0x30#6 ++ 0#1 ++ 12#7 ++ 16#7 ++ 20#6 ++ 1#2 ++ 4#3) = .ok (.st128 ⟨0, 12, 16, 20, 1, 4⟩) := by decide +kernel
theorem test_decode_31 : decode (0x31#6 ++ 0#1 ++ 12#7 ++ 16#7 ++ 20#6 ++ 1#2 ++ 4#3) = .ok (.stt32 ⟨0, 12, 16, 20, 1, 4⟩) := by decide +kernel
theorem test_decode_32 : decode (0x32#6 ++ 0#1 ++ 12#7 ++ 16#7 ++ 20#6 ++ 0#2 ++ 4#3) = .ok (.lds ⟨0, 12, 16, 20, 0, 4⟩) := by decide +kernel
theorem test_decode_33 : decode (0x33#6 ++ 0#1 ++ 12#7 ++ 16#7 ++ 20#6 ++ 0#2 ++ 4#3) = .ok (.sts ⟨0, 12, 16, 20, 0, 4⟩) := by decide +kernel
theorem test_decode_34a : decode (0x34#6 ++ 0#1 ++ 12#7 ++ 16#7 ++ 20#6 ++ 0#5) = .ok (.atomAdd 0 ⟨0, 12, 16, 20⟩) ∧
    decode (0x35#6 ++ 0#1 ++ 12#7 ++ 16#7 ++ 20#6 ++ 1#5) = .ok (.atomAdd64 1 ⟨0, 12, 16, 20⟩) ∧
    decode (0x36#6 ++ 0#1 ++ 12#7 ++ 16#7 ++ 20#6 ++ 2#5) = .ok (.atomMini 2 ⟨0, 12, 16, 20⟩) ∧
    decode (0x37#6 ++ 0#1 ++ 12#7 ++ 16#7 ++ 20#6 ++ 3#5) = .ok (.atomMaxi 3 ⟨0, 12, 16, 20⟩) ∧
    decode (0x34#6 ++ 0#1 ++ 12#7 ++ 16#7 ++ 20#6 ++ 4#5) = .ok (.atomMinn 0 ⟨0, 12, 16, 20⟩) ∧
    decode (0x35#6 ++ 0#1 ++ 12#7 ++ 16#7 ++ 20#6 ++ 5#5) = .ok (.atomMaxn 1 ⟨0, 12, 16, 20⟩) ∧
    decode (0x36#6 ++ 0#1 ++ 12#7 ++ 16#7 ++ 20#6 ++ 6#5) = .ok (.atomAnd 2 ⟨0, 12, 16, 20⟩) ∧
    decode (0x37#6 ++ 0#1 ++ 12#7 ++ 16#7 ++ 20#6 ++ 7#5) = .ok (.atomOr 3 ⟨0, 12, 16, 20⟩) := by decide +kernel
theorem test_decode_34b : decode (0x34#6 ++ 0#1 ++ 12#7 ++ 16#7 ++ 20#6 ++ 8#5) = .ok (.atomXor 0 ⟨0, 12, 16, 20⟩) ∧
    decode (0x35#6 ++ 0#1 ++ 12#7 ++ 16#7 ++ 20#6 ++ 9#5) = .ok (.atomSwap 1 ⟨0, 12, 16, 20⟩) ∧
    decode (0x36#6 ++ 0#1 ++ 12#7 ++ 16#7 ++ 20#6 ++ 10#5) = .ok (.atomCas 2 ⟨0, 12, 16, 20⟩) ∧
    decode (0x37#6 ++ 0#1 ++ 12#7 ++ 16#7 ++ 20#6 ++ 11#5) = .ok (.atomSwap64 3 ⟨0, 12, 16, 20⟩) ∧
    decode (0x34#6 ++ 0#1 ++ 12#7 ++ 16#7 ++ 20#6 ++ 12#5) = .ok (.atomCas64 0 ⟨0, 12, 16, 20⟩) ∧
    decode (0x35#6 ++ 0#1 ++ 12#7 ++ 16#7 ++ 20#6 ++ 13#5) = .ok (.atomFadd 1 ⟨0, 12, 16, 20⟩) ∧
    decode (0x36#6 ++ 0#1 ++ 12#7 ++ 16#7 ++ 20#6 ++ 14#5) = .ok (.atomFmin 2 ⟨0, 12, 16, 20⟩) ∧
    decode (0x37#6 ++ 0#1 ++ 12#7 ++ 16#7 ++ 20#6 ++ 15#5) = .ok (.atomFmax 3 ⟨0, 12, 16, 20⟩) := by decide +kernel
theorem test_decode_34c : decode (0x34#6 ++ 0#1 ++ 12#7 ++ 16#7 ++ 20#6 ++ 16#5) = .ok (.atomIncw 0 ⟨0, 12, 16, 20⟩) ∧
    decode (0x35#6 ++ 0#1 ++ 12#7 ++ 16#7 ++ 20#6 ++ 17#5) = .ok (.atomDecsp 1 ⟨0, 12, 16, 20⟩) ∧
    decode (0x36#6 ++ 0#1 ++ 12#7 ++ 16#7 ++ 20#6 ++ 18#5) = .ok (.atomRedadd 2 ⟨0, 12, 16, 20⟩) ∧
    decode (0x37#6 ++ 0#1 ++ 12#7 ++ 16#7 ++ 20#6 ++ 19#5) = .ok (.atomRedfadd 3 ⟨0, 12, 16, 20⟩) := by decide +kernel
theorem test_decode_38 : decode (0x38#6 ++ 0#1 ++ 12#7 ++ 0#6 ++ 0#6 ++ 0#6) = .ok (.fence 1 4 ⟨0, 0, 0, 0⟩) ∧
    decode (0x38#6 ++ 0#1 ++ 44#7 ++ 0#6 ++ 16#6 ++ 20#6) = .ok (.flushr 1 4 ⟨0, 0, 16, 20⟩) ∧
    decode (0x38#6 ++ 0#1 ++ 68#7 ++ 0#6 ++ 16#6 ++ 20#6) = .ok (.invr 0 4 ⟨0, 0, 16, 20⟩) ∧
    decode (0x38#6 ++ 0#1 ++ 96#7 ++ 0#6 ++ 16#6 ++ 20#6) = .ok (.pref 0 0 ⟨0, 0, 16, 20⟩) := by decide +kernel
theorem test_decode_39 : decode (0x39#6 ++ 0#1 ++ 5#7 ++ 0#6 ++ 16#6 ++ 0#6) = .ok (.tld 5 ⟨0, 0, 16, 0⟩) ∧
    decode (0x39#6 ++ 0#1 ++ 21#7 ++ 0#6 ++ 16#6 ++ 0#6) = .ok (.tst 5 ⟨0, 0, 16, 0⟩) ∧
    decode (0x39#6 ++ 0#1 ++ 37#7 ++ 0#6 ++ 0#6 ++ 0#6) = .ok (.tzero 5 ⟨0, 0, 0, 0⟩) ∧
    decode (0x39#6 ++ 0#1 ++ 53#7 ++ 12#6 ++ 16#6 ++ 0#6) = .ok (.ttag 5 ⟨0, 12, 16, 0⟩) := by decide +kernel
theorem test_decode_3a : decode (0x3A#6 ++ 0#1 ++ 0#7 ++ 12#6 ++ 16#6 ++ 0#6) = .ok (.mma ⟨0, 12, 16, 0⟩) ∧
    decode (0x3A#6 ++ 0#1 ++ 1#7 ++ 12#6 ++ 16#6 ++ 0#6) = .ok (.mma4 ⟨0, 12, 16, 0⟩) ∧
    decode (0x3A#6 ++ 0#1 ++ 2#7 ++ 12#6 ++ 16#6 ++ 0#6) = .ok (.mmaw ⟨0, 12, 16, 0⟩) ∧
    decode (0x3A#6 ++ 0#1 ++ 3#7 ++ 12#6 ++ 16#6 ++ 0#6) = .ok (.mmaq ⟨0, 12, 16, 0⟩) ∧
    decode (0x3A#6 ++ 0#1 ++ 4#7 ++ 12#6 ++ 16#6 ++ 0#6) = .ok (.mmax ⟨0, 12, 16, 0⟩) := by decide +kernel
theorem test_decode_3b : decode (0x3B#6 ++ 0#1 ++ 0#7 ++ 12#6 ++ 16#6 ++ 0#6) = .ok (.cpy ⟨0, 12, 16, 0⟩) ∧
    decode (0x3B#6 ++ 0#1 ++ 1#7 ++ 12#6 ++ 16#6 ++ 20#6) = .ok (.gath ⟨0, 12, 16, 20⟩) ∧
    decode (0x3B#6 ++ 0#1 ++ 2#7 ++ 12#6 ++ 16#6 ++ 20#6) = .ok (.scat ⟨0, 12, 16, 20⟩) ∧
    decode (0x3B#6 ++ 0#1 ++ 3#7 ++ 12#6 ++ 16#6 ++ 20#6) = .ok (.coll ⟨0, 12, 16, 20⟩) ∧
    decode (0x3B#6 ++ 0#1 ++ 4#7 ++ 12#6 ++ 16#6 ++ 0#6) = .ok (.ewait ⟨0, 12, 16, 0⟩) ∧
    decode (0x3B#6 ++ 0#1 ++ 5#7 ++ 12#6 ++ 16#6 ++ 0#6) = .ok (.ecan ⟨0, 12, 16, 0⟩) ∧
    decode (0x3B#6 ++ 0#1 ++ 6#7 ++ 12#6 ++ 16#6 ++ 0#6) = .ok (.eqry ⟨0, 12, 16, 0⟩) := by decide +kernel
theorem test_decode_3c : decode (0x3C#6 ++ 0#1 ++ 12#7 ++ 20#6 ++ 3#12) = .ok (.trdv ⟨0, 12, 20, 3⟩) := by decide +kernel
theorem test_decode_3d : decode (0x3D#6 ++ 0#1 ++ 12#7 ++ 20#6 ++ 3#12) = .ok (.twrv ⟨0, 12, 20, 3⟩) := by decide +kernel
theorem test_decode_3fa : decode (0x3F#6 ++ 1#1 ++ 77#25) = .ok (.himm 77) ∧
    decode (0x3F#6 ++ 0#1 ++ 0#4 ++ 475136#21) = .ok (.hgrd 475136) ∧
    decode (0x3F#6 ++ 0#1 ++ 1#4 ++ 73728#21) = .ok (.hprio 73728) ∧
    decode (0x3F#6 ++ 0#1 ++ 2#4 ++ 524288#21) = .ok (.hrnd 524288) ∧
    decode (0x3F#6 ++ 0#1 ++ 3#4 ++ 1048576#21) = .ok (.hscp 1048576) ∧
    decode (0x3F#6 ++ 0#1 ++ 4#4 ++ 0#21) = .ok (.hrlx 0) ∧
    decode (0x3F#6 ++ 0#1 ++ 5#4 ++ 0#21) = .ok (.hyld 0) ∧
    decode (0x3F#6 ++ 0#1 ++ 6#4 ++ 1048576#21) = .ok (.hreuse 1048576) := by decide +kernel
theorem test_decode_3fb : decode (0x3F#6 ++ 0#1 ++ 7#4 ++ 983040#21) = .ok (.hsig 983040) ∧
    decode (0x3F#6 ++ 0#1 ++ 8#4 ++ 51200#21) = .ok (.hlat 51200) := by decide +kernel

/-- Words that decode to nothing: two reserved majors, a reserved minor, a field that must be zero (03 R53). -/
theorem test_decode_refuses : (decode 0x00000000).isOk = false ∧ (decode (0x07#6 ++ 0#1 ++ 0#1 ++ 0#7 ++ 0#7 ++ 0#7 ++ 3#3)).isOk = false ∧
    (decode (0x3E#6 ++ 0#26)).isOk = false ∧ (decode (0x04#6 ++ 0#1 ++ 0#1 ++ 0#7 ++ 0#7 ++ 1#7 ++ 5#3)).isOk = false := by decide +kernel

/-! ## Well-formedness: an instruction that each check refuses -/

/-- W = 1 with D not zero (03 R41). -/
theorem test_wellFormed_refuses_w : (Instr.iadd ⟨0, 1, 5, 0, 0⟩).wellFormed = false ∧ (Instr.iadd ⟨0, 1, 0, 0, 0⟩).wellFormed = true := by decide

/-- CLZ with B not zero (03 R37). -/
theorem test_wellFormed_refuses_unused : (Instr.clz ⟨0, 0, 1, 2, 3⟩).wellFormed = false ∧ (Instr.clz ⟨0, 0, 1, 2, 0⟩).wellFormed = true := by decide

/-- A weak access with a scope (03 R43); a threshold of PSIG above 53 (03 R40). -/
theorem test_wellFormed_refuses_reserved : (Instr.ld32 ⟨0, 1, 2, 4, 0, 3⟩).wellFormed = false ∧ (Instr.psig ⟨0, 1, 15, 2, 54⟩).wellFormed = false ∧
    (Instr.psig ⟨0, 1, 15, 2, 53⟩).wellFormed = true := by decide

/-- Vector code 125 (03 R38), a latch as a destination, a group that is not aligned (02 R13). -/
theorem test_wellFormed_refuses_vectors : (Instr.iadd ⟨0, 0, 1, 125, 2⟩).wellFormed = false ∧ (Instr.iadd ⟨0, 0, 120, 1, 2⟩).wellFormed = false ∧
    (Instr.f4add ⟨0, 0, 2, 4, 8⟩).wellFormed = false ∧ (Instr.f4add ⟨0, 0, 4, 8, 12⟩).wellFormed = true := by decide

/-- An odd scalar pair (02 R13). -/
theorem test_wellFormed_refuses_scalars : (Instr.sadd64 ⟨0, 1, 2, 4⟩).wellFormed = false ∧ (Instr.sadd64 ⟨0, 2, 4, 6⟩).wellFormed = true := by decide

/-- Predicate codes 12 to 14, and 15 as a destination (03 R40). -/
theorem test_wellFormed_refuses_predicates : (Instr.iseq ⟨0, 12, 15, 0, 0⟩).wellFormed = false ∧ (Instr.iseq ⟨0, 15, 15, 0, 0⟩).wellFormed = false ∧
    (Instr.iseq ⟨0, 11, 15, 0, 0⟩).wellFormed = true := by decide

/-- C = 1 on EXIT (03 R46). -/
theorem test_wellFormed_refuses_chain : (Instr.exit ⟨1, 0, 0, 0⟩).wellFormed = false ∧ (Instr.exit ⟨0, 0, 0, 0⟩).wellFormed = true := by decide

/-! ## Worked values -/

/-- 05 R80's table. -/
theorem test_integer_worked : mulhI 0x80000000 2 = 0xFFFFFFFF ∧ mulhN 0x80000000 2 = 1 ∧ absDiffI 0x80000000 0x7FFFFFFF = 0xFFFFFFFF ∧
    sarW 0x80000000 0x28 = 0xFFFFFFFF ∧ bfxIW 0xF0000000 0x081C = 0xFFFFFFFF ∧ bfxNW 0xF0000000 0x081C = 0xF := by decide +kernel

/-- An FP32 operand. -/
def op32 (bits tag : Nat) : Fop := ⟨decodeF f32 bits, tag⟩

/-- 04 R70's worked tags: FFMA 1.5 (24), 1.5 (12), −2.0 (24); FSUB 3.0, 3.0; FADD 0 (0), 5.0 (20); FMUL 2^−140, 0.5; CVT of 0x44. -/
theorem test_worked_tags :
    fmaR f32 0 false false (op32 0x3FC00000 24) (op32 0x3FC00000 12) (op32 0xC0000000 24) = ⟨0x3E800000, {}, 9⟩ ∧
    (addR f32 0 (op32 0x40400000 24) { op32 0x40400000 24 with val := negF (decodeF f32 0x40400000) }).tag = 0 ∧
    (addR f32 0 (op32 0 0) (op32 0x40A00000 20)) = ⟨0x40A00000, {}, 20⟩ ∧
    (mulR f32 0 (op32 (2 ^ 9) 24) (op32 0x3F000000 24)).tag = 9 ∧ (unpackElem false 0 0x44).tag = 4 := by decide +kernel

/-- 06's worked example of packing to E4M3: 1.0, −3.3, 500.0 and 0.01 with RNE. -/
theorem test_pack_e4m3 : (packElem false 0 0 0x3F800000).1 = 0x38 ∧ (packElem false 0 0 0xC0533333).1 = 0xC5 ∧
    (packElem false 0 0 0x43FA0000).1 = 0x7E ∧ (packElem false 0 0 0x3C23D70A).1 = 0x05 := by decide +kernel


theorem test_integer_worked_tables : (∀ f, wordOp (.iaddsI ⟨0, 0, 0, 0, 0⟩) = some f → f 0x7FFFFFF0 0x20 0 = 0x7FFFFFFF) ∧
    (∀ f, wordOp (.isubsN ⟨0, 0, 0, 0, 0⟩) = some f → f 5 9 0 = 0) ∧ (∀ f, wordOp (.rotl ⟨0, 0, 0, 0, 0⟩) = some f → f 0x80000001 0x21 0 = 3) ∧
    (∀ f, wordOp (.prmb ⟨0, 0, 0, 0, 0⟩) = some f → f 0x44332211 0x000701E0 0x88776655 = 0x00FF5511) := by
  refine ⟨?_, ?_, ?_, ?_⟩ <;> intro f h <;> cases h <;> decide +kernel

/-! ## States in which the team of log 3 issues an instruction -/

/-- The team of log 3 issues an instruction from the first word, all lanes active, in a state that `f` makes of it. -/
def issuing (i : Instr) (f : State → State := id) : State :=
  f { hostPlace State.reset 0 with
    cur := some { team := 0, mask := 0xFFFFFFFF, start := hostPc, pc := hostPc, word := encode i } }

/-- The team has changed, its crew has, or memory holds bytes from an address. -/
def own (g : Team → Team) (s : State) : State := onTeam s 0 g
def crew (g : Crew → Crew) (s : State) : State := onCrew s 0 g
def holds (a : Nat) (bs : List Byte) (s : State) : State := { s with mem := memWrite s.mem a bs }

/-- Scalars from s20 on, and the same word in every lane of v16. -/
def scalars (l : List Word) (t : Team) : Team := { t with s := l.zipIdx.map fun x => (20 + x.2, x.1) }
def vector (x : Word) (t : Team) : Team := { t with v := [(16, List.replicate 32 ⟨x, 24⟩)] }

/-- The instruction issues and passes the checks before its own, and what it captured meets a test. -/
def meets (i : Instr) (s : State) (p : Ctx → Bool := fun _ => true) : Bool :=
  match context i.shape s with
  | some c => decide (checks (privOf i) c s = .ok) && p c
  | none => false

/-- A test that holds is a state and operands that meet the hypothesis. -/
theorem meets_sound {i : Instr} {s : State} {p : Ctx → Bool} (h : meets i s p = true) : ∃ c, Ready i s c ∧ p c = true := by
  unfold meets at h
  split at h
  · rename_i c hc
    simp only [Bool.and_eq_true, decide_eq_true_eq] at h
    exact ⟨c, ⟨hc, h.1⟩, h.2⟩
  · cases h

/-! ## Witnesses: lanes, floating point, predicates, scalars -/

theorem witness_IntegerLaneResults : (wordOp (.iadd ⟨0, 1, 0, 16, 124⟩)).isSome = true ∧ meets (.iadd ⟨0, 1, 0, 16, 124⟩) (issuing (.iadd ⟨0, 1, 0, 16, 124⟩)) = true := by
  decide +kernel

theorem witness_ImmediateLaneResults : meets (.shli ⟨0, 0, 12, 16, 31⟩) (issuing (.shli ⟨0, 0, 12, 16, 31⟩))
    (fun c => (c.immVI ⟨0, 0, 12, 16, 31⟩).toNat = 31) = true ∧
    meets (.shli ⟨0, 0, 12, 16, 32⟩) (issuing (.shli ⟨0, 0, 12, 16, 32⟩)) (fun c => 32 ≤ (c.immVI ⟨0, 0, 12, 16, 32⟩).toNat) = true := by
  decide +kernel

theorem witness_LaneCellResults : (cellOp (.shfl ⟨0, 0, 12, 16, 20⟩)).isSome = true ∧ meets (.shfl ⟨0, 0, 12, 16, 20⟩) (issuing (.shfl ⟨0, 0, 12, 16, 20⟩)) = true := by
  decide +kernel

/-- The statement about a floating-point instruction holds of one that raises nothing, and of one that divides by zero. -/
def fpWitness (i : Instr) (f : State → State) (post : Option Nat) : Bool :=
  match fpOne i with
  | some o => meets i (issuing i f) fun c =>
      decide (∀ l ∈ lanesOf c.act, badControl i (controlOf c l) = false) && decide (((o c).post c).map (·.cause) = post)
  | none => false

theorem witness_FpLaneResults : fpWitness (.fadd ⟨0, 0, 12, 16, 124⟩) (own (vector 0x3F800000)) none = true ∧
    fpWitness (.pk4 ⟨0, 0, 12, 16, 124⟩) id none = true ∧
    (fpOne (.pk8 ⟨0, 0, 12, 16, 16⟩)).isSome = true ∧
    meets (.pk8 ⟨0, 0, 12, 16, 16⟩) (issuing (.pk8 ⟨0, 0, 12, 16, 16⟩) (own (vector 0x60)))
      (fun c => decide ((lanesOf c.act).find? (fun l => badControl (.pk8 ⟨0, 0, 12, 16, 16⟩) (controlOf c l)) = some 0)) = true := by
  decide +kernel

/-- A zero divisor with the trap of DZ enabled (cause FPX), and a result below the threshold with EN (cause SIGLOSS). -/
theorem witness_FpTrapAfterResult :
    fpWitness (.fdiv ⟨0, 0, 12, 16, 124⟩) (own fun t => { vector 0x3F800000 t with fpstat := 0x20000 }) (some 0xC) = true ∧
    fpWitness (.fadd ⟨0, 0, 12, 16, 124⟩) (own fun t => { vector 0x3F800000 t with sigth := 0x11E }) (some 0xB) = true ∧
    (match fpFour (.f4add ⟨0, 0, 12, 16, 124⟩) with
      | some o => meets (.f4add ⟨0, 0, 12, 16, 124⟩) (issuing (.f4add ⟨0, 0, 12, 16, 124⟩)
          (own fun t => { vector 0x3F800000 t with sigth := 0x11E })) fun c => decide (((o c).post c).map (·.cause) = some 0xB)
      | none => false) = true ∧
    (match fpWide (.ddiv ⟨0, 0, 12, 16, 124⟩) with
      | some o => meets (.ddiv ⟨0, 0, 12, 16, 124⟩) (issuing (.ddiv ⟨0, 0, 12, 16, 124⟩)
          (own fun t => { vector 0x3F800000 t with fpstat := 0x20000 })) fun c => decide (((o c).post c).map (·.cause) = some 0xC)
      | none => false) = true := by
  decide +kernel

theorem witness_FpGroupResults : (match fpFour (.f4add ⟨0, 0, 12, 16, 124⟩) with
      | some o => meets (.f4add ⟨0, 0, 12, 16, 124⟩) (issuing (.f4add ⟨0, 0, 12, 16, 124⟩)) fun c => decide ((o c).post c = none)
      | none => false) = true ∧
    (match fpWide (.dadd ⟨0, 0, 12, 16, 124⟩) with
      | some o => meets (.dadd ⟨0, 0, 12, 16, 124⟩) (issuing (.dadd ⟨0, 0, 12, 16, 124⟩)) fun c => decide ((o c).post c = none)
      | none => false) = true := by decide +kernel

/-- The three cases of 04 R74: a trap of an enabled flag, one of a lost result, and none with CROSS where an operand was below
the threshold already. -/
def fpCase (f : Team → Team) (enabled : Bool) (lost : Bool) : Bool :=
  match fpOne (.fdiv ⟨0, 0, 12, 16, 124⟩) with
  | some o => meets (.fdiv ⟨0, 0, 12, 16, 124⟩) (issuing (.fdiv ⟨0, 0, 12, 16, 124⟩) (own fun t => f (vector 0x3F800000 t))) fun c =>
      let x := o c
      let e := Nat.land (x.flags c).bits (c.team.fpstat.toNat / 2 ^ 16 % 32)
      decide ((e ≠ 0) = enabled) &&
        decide ((c.team.sigth.getLsbD 8 && (lanesOf c.act).any (x.laneLost c) && (!c.team.sigth.getLsbD 9 || x.crossed c)) = lost)
  | none => false

theorem witness_FpTrapChoice : fpCase (fun t => { t with fpstat := 0x20000 }) true false = true ∧ fpCase id false false = true ∧
    fpWitness (.fadd ⟨0, 0, 12, 16, 124⟩) (own fun t => { vector 0x3F800000 t with sigth := 0x11E }) (some 0xB) = true ∧
    fpWitness (.fadd ⟨0, 0, 12, 16, 124⟩) (own fun t => { vector 0x3F800000 t with sigth := 0x31E }) none = true := by decide +kernel

theorem witness_PredicateResults : meets (.isltI ⟨0, 1, 15, 16, 20⟩) (issuing (.isltI ⟨0, 1, 15, 16, 20⟩)) = true := by decide +kernel

/-- A compare of a NaN raises IV, with its trap enabled and not. -/
theorem witness_FpCompareResults : (match fpCompare (.fslt ⟨0, 1, 15, 16, 124⟩) with
      | some k => (meets (.fslt ⟨0, 1, 15, 16, 124⟩) (issuing (.fslt ⟨0, 1, 15, 16, 124⟩)
            (own fun t => { vector 0x7FC00000 t with fpstat := 0x10000 })) fun c =>
          (lanesOf c.act).any (compareInvalid k c) && c.team.fpstat.getLsbD 16) &&
        meets (.fslt ⟨0, 1, 15, 16, 124⟩) (issuing (.fslt ⟨0, 1, 15, 16, 124⟩) (own (vector 0x7FC00000))) fun c =>
          !((lanesOf c.act).any (compareInvalid k c) && c.team.fpstat.getLsbD 16)
      | none => false) = true := by decide +kernel

theorem witness_ScalarResults : meets (.sadd64 ⟨0, 2, 20, 22⟩) (issuing (.sadd64 ⟨0, 2, 20, 22⟩)) = true := by decide +kernel

/-- A zero divisor; a shift by 31, and one by 32. -/
theorem witness_ScalarDivisionsAndShifts : meets (.sdivI ⟨0, 2, 20, 21⟩) (issuing (.sdivI ⟨0, 2, 20, 21⟩)) (fun c => c.s 1 = 0) = true ∧
    meets (.ssari ⟨0, 2, 20, 31⟩) (issuing (.ssari ⟨0, 2, 20, 31⟩)) (fun c => (c.immSI ⟨0, 2, 20, 31⟩).toNat < 32) = true ∧
    meets (.ssari ⟨0, 2, 20, 32⟩) (issuing (.ssari ⟨0, 2, 20, 32⟩)) (fun c => 32 ≤ (c.immSI ⟨0, 2, 20, 32⟩).toNat) = true := by
  decide +kernel

/-- The four forms of 05 R96. -/
theorem witness_PmovResults : meets (.pmov ⟨0, 0, 20, 15⟩) (issuing (.pmov ⟨0, 0, 20, 15⟩)) = true ∧
    meets (.pmov ⟨0, 12, 0, 0x403⟩) (issuing (.pmov ⟨0, 12, 0, 0x403⟩)) = true ∧
    meets (.pmov ⟨0, 0, 20, 0x803⟩) (issuing (.pmov ⟨0, 0, 20, 0x803⟩)) = true ∧
    meets (.pmov ⟨0, 12, 0, 0xC03⟩) (issuing (.pmov ⟨0, 12, 0, 0xC03⟩)) = true := by decide +kernel

/-- A group of the team's core alone, with a window of 1,000 beats. -/
def grouped (members : List (Nat × Word)) (s : State) : State :=
  { s with cores := Tab.put s.cores 0 { Sys2Proof.Machine.core s 0 with groups := [(0, { members := members })], clwin := [(0, 1000)] } }

/-- The team of log 3 and its crew; a group in which its core has a rank, and one in which it has none. -/
theorem witness_MfcReads : meets (.mfc ⟨0, 0, 20, 0x020⟩) (issuing (.mfc ⟨0, 0, 20, 0x020⟩)) = true ∧
    (let s := issuing (.nop ⟨0, 0, 0, 0⟩) (grouped [(3, 0)])
     hostTeam.place = some ⟨0, 0, 0⟩ ∧ hostTeam.idx < 16 ∧ logicalCore s hostTeam.comp 0 < 64 ∧ hostTeam.level < 4 ∧
      (crew? s (crewOf 0)).any (fun w => decide (w.serial < 2 ^ 20 ∧ 1 ≤ w.teams ∧ w.teams ≤ 16 ∧ w.comp < 16)) = true ∧
      rankOf s 0 hostTeam.comp 1 = none ∧ rankOf s 0 hostTeam.comp 0 = some 3 ∧ (groupOf s 0 0).members.length ≤ 64 ∧
      groupSpan s 0 hostTeam.comp 0 < 4) := by decide +kernel

/-- PRIO, and another register. -/
theorem witness_MtcWrites : meets (.mtc ⟨0, 0, 20, 0x018⟩) (issuing (.mtc ⟨0, 0, 20, 0x018⟩)) = true ∧
    meets (.mtc ⟨0, 0, 20, 0x012⟩) (issuing (.mtc ⟨0, 0, 20, 0x012⟩)) = true := by decide +kernel

/-- A reserved number, a level, a tile beyond the grant, a write of a read-only register, an illegal value (RMODE 5), a legal
one. -/
theorem witness_ControlRegisterChecks : crLevels 3 = none ∧ crLevels 0x030 = some (1, some 1) ∧ crLevels 0x100 = some (0, some 0) ∧
    beyondGrant (issuing (.nop ⟨0, 0, 0, 0⟩) (crew fun w => { w with tiles := [] })) 0 0x100 = true ∧ crLevels 0 = some (0, none) ∧
    beyondGrant (issuing (.nop ⟨0, 0, 0, 0⟩)) 0 0 = false ∧ crLevels 0x011 = some (0, some 0) ∧ crIllegal hostTeam 0x011 5 = true ∧
    crIllegal hostTeam 0x011 4 = false := by decide +kernel

/-! ## Witnesses: control flow, spawning, barriers -/

/-- The state and what the performance of a NOP leaves. -/
theorem witness_LanesGoOnToTheNextWord : meets (.nop ⟨0, 0, 0, 0⟩) (issuing (.nop ⟨0, 0, 0, 0⟩))
    (fun c => decide (team? (issuing (.nop ⟨0, 0, 0, 0⟩)) c.key = some hostTeam) && decide (c.cur.replay = none) && c.cur.mask.getLsbD 31) = true := by
  decide +kernel

theorem witness_BranchMovesLanes : meets (.bra ⟨15, 0, 0x7FFFF⟩) (issuing (.bra ⟨15, 0, 0x7FFFF⟩)) (fun c => decide (c.cur.replay = none)) = true := by
  decide +kernel

theorem witness_CallsLink : meets (.call ⟨15, 0, 4⟩) (issuing (.call ⟨15, 0, 4⟩)) = true ∧
    meets (.calli ⟨0, 0, 20, 0⟩) (issuing (.calli ⟨0, 0, 20, 0⟩) (own (scalars [0xFFFFFFFC, 0x1FFFFFF])))
      (fun c => c.pair 0 % 4 = 0 && decide (c.pair 0 < 2 ^ 57)) = true := by decide +kernel

/-- The highest word, one past it, and an odd address. -/
theorem witness_IndirectTransfers :
    meets (.ret ⟨0, 0, 16, 0⟩) (issuing (.ret ⟨0, 0, 16, 0⟩) (own (vector 0x2000)))
      (fun c => decide (∀ l ∈ lanesOf c.act, c.v64 0 l % 4 = 0 ∧ c.v64 0 l < 2 ^ 57)) = true ∧
    meets (.jmpi ⟨0, 0, 20, 0⟩) (issuing (.jmpi ⟨0, 0, 20, 0⟩) (own (scalars [0xFFFFFFFC, 0x1FFFFFF])))
      (fun c => c.pair 0 % 4 = 0 && decide (c.pair 0 < 2 ^ 57)) = true ∧
    meets (.ret ⟨0, 0, 16, 0⟩) (issuing (.ret ⟨0, 0, 16, 0⟩) (own (vector 0x2001)))
      (fun c => decide ((lanesOf c.act).find? (fun l => c.v64 0 l % 4 ≠ 0) = some 0)) = true ∧
    meets (.ret ⟨0, 0, 16, 0⟩) (issuing (.ret ⟨0, 0, 16, 0⟩) (own fun t => { t with v := [(17, List.replicate 32 ⟨0x2000000, 63⟩)] }))
      (fun c => decide ((∀ l ∈ lanesOf c.act, c.v64 0 l % 4 = 0) ∧ (lanesOf c.act).find? (fun l => 2 ^ 57 ≤ c.v64 0 l) = some 0)) = true := by
  decide +kernel

theorem witness_YieldPriosetAndSoftTraps : meets (.nop ⟨0, 0, 0, 0⟩) (issuing (.nop ⟨0, 0, 0, 0⟩)) = true ∧
    meets (.yield ⟨0, 0, 0, 0⟩) (issuing (.yield ⟨0, 0, 0, 0⟩)) = true ∧
    meets (.prioset ⟨0, 0, 20, 0⟩) (issuing (.prioset ⟨0, 0, 20, 0⟩)) (fun c => decide (c.cur.replay = none ∧ c.hints.hprio = none)) = true ∧
    meets (.brk ⟨0, 0, 0, 63⟩) (issuing (.brk ⟨0, 0, 0, 63⟩)) = true ∧ meets (.trap ⟨0, 0, 0, 63⟩) (issuing (.trap ⟨0, 0, 0, 63⟩)) = true := by
  decide +kernel

/-- Some lanes stay; none does. -/
theorem witness_ExitEndsLanes : meets (.exit ⟨0, 0, 0, 0⟩)
      (issuing (.exit ⟨0, 0, 0, 0⟩) fun s => { s with cur := s.cur.map fun u => { u with mask := 1 } }) (fun c => c.team.live &&& ~~~c.act ≠ 0) = true ∧
    meets (.exit ⟨0, 0, 0, 0⟩) (issuing (.exit ⟨0, 0, 0, 0⟩)) (fun c => c.team.live &&& ~~~c.act = 0) = true := by decide +kernel

/-- The lowest lane reaches the JOINW of a mask that lane 1 is in as well; it does so when lane 1 waits there. -/
theorem witness_RejoinMasks : meets (.enrol 3 ⟨0, 0, 0, 0⟩) (issuing (.enrol 3 ⟨0, 0, 0, 0⟩)) = true ∧
    meets (.joinw 0 ⟨0, 0, 0, 0⟩)
      (issuing (.joinw 0 ⟨0, 0, 0, 0⟩) fun s => own (fun t => { t with m := [(0, 3)] }) { s with cur := s.cur.map fun u => { u with mask := 1 } })
      (fun c => decide (c.cur.replay = none) &&
        Team.mask c.team 0 &&& ~~~(joinWaiting c.team 0 ||| (c.act &&& Team.mask c.team 0)) ≠ 0) = true ∧
    meets (.joinw 0 ⟨0, 0, 0, 0⟩)
      (issuing (.joinw 0 ⟨0, 0, 0, 0⟩) fun s => own (fun t => { t with
        m := [(0, 3)]
        front := [{ prio := 9, pc := 0x3000, mask := 2, wait := some (.join 0) }, { prio := 5, pc := hostPc, mask := 0xFFFFFFFD }] })
        { s with cur := s.cur.map fun u => { u with mask := 0xFFFFFFFD } })
      (fun c => decide (c.cur.replay = none) &&
        let w := c.act &&& Team.mask c.team 0
        w ≠ 0 && Team.mask c.team 0 &&& ~~~(joinWaiting c.team 0 &&& ~~~c.cur.mask ||| w) = 0) = true := by decide +kernel

/-- A valid region control block at 0x3000 (15 R262: its first byte is the state). -/
theorem witness_SpawnMakesThreads :
    meets (.spawn ⟨0, 16, 20, 0x800⟩) (issuing (.spawn ⟨0, 16, 20, 0x800⟩) (own (scalars [0x2000, 0])))
      (fun c => decide (spawnGate ⟨0, 16, 20, 0x800⟩ c (issuing (.spawn ⟨0, 16, 20, 0x800⟩) (own (scalars [0x2000, 0]))) = .go)) = true ∧
    meets (.spawn ⟨0, 16, 20, 0x801⟩) (issuing (.spawn ⟨0, 16, 20, 0x801⟩) (own (scalars [0x2000, 0, 0x3000, 0])))
      (fun c => decide (spawnGate ⟨0, 16, 20, 0x801⟩ c (issuing (.spawn ⟨0, 16, 20, 0x801⟩) (own (scalars [0x2000, 0, 0x3000, 0]))) = .go)) = true := by
  decide +kernel

theorem witness_CrewBarrierArrival : meets (.bara 15 ⟨0, 0, 0, 0⟩) (issuing (.bara 15 ⟨0, 0, 0, 0⟩))
    (fun c => decide (olderGate c (issuing (.bara 15 ⟨0, 0, 0, 0⟩)) = .go) && (crew? (issuing (.bara 15 ⟨0, 0, 0, 0⟩)) (crewOf c.key)).isSome) = true := by
  decide +kernel

theorem witness_CrewBarrierWaits : meets (.barw 0 ⟨0, 0, 0, 0⟩) (issuing (.barw 0 ⟨0, 0, 0, 0⟩)) = true ∧
    meets (.baraw 0 ⟨0, 0, 0, 0⟩) (issuing (.baraw 0 ⟨0, 0, 0, 0⟩))
      (fun c => decide (olderGate c (issuing (.baraw 0 ⟨0, 0, 0, 0⟩)) = .go) &&
        (crew? (issuing (.baraw 0 ⟨0, 0, 0, 0⟩)) (crewOf c.key)).isSome) = true := by decide +kernel

/-- A crew whose byte-count barrier 2 is armed. -/
def armed : State → State := crew fun w => { w with bytes := [(2, { expect := 8, armed := true })] }

theorem witness_ByteBarrierCounts :
    meets (.bcbi 2 ⟨0, 0, 20, 0⟩) (issuing (.bcbi 2 ⟨0, 0, 20, 0⟩) armed) (fun c => (bar (issuing (.bcbi 2 ⟨0, 0, 20, 0⟩) armed) c 2).armed) = true ∧
    meets (.bcbi 2 ⟨0, 0, 20, 0⟩) (issuing (.bcbi 2 ⟨0, 0, 20, 0⟩))
      (fun c => !(bar (issuing (.bcbi 2 ⟨0, 0, 20, 0⟩)) c 2).armed && (crew? (issuing (.bcbi 2 ⟨0, 0, 20, 0⟩)) (crewOf c.key)).isSome) = true ∧
    meets (.bcbx 2 ⟨0, 0, 20, 0⟩) (issuing (.bcbx 2 ⟨0, 0, 20, 0⟩) armed)
      (fun c => (crew? (issuing (.bcbx 2 ⟨0, 0, 20, 0⟩) armed) (crewOf c.key)).isSome) = true ∧
    meets (.bcba 2 ⟨0, 0, 20, 0⟩) (issuing (.bcba 2 ⟨0, 0, 20, 0⟩) armed)
      (fun c => decide (olderGate c (issuing (.bcba 2 ⟨0, 0, 20, 0⟩) armed) = .go) &&
        (crew? (issuing (.bcba 2 ⟨0, 0, 20, 0⟩) armed) (crewOf c.key)).isSome) = true := by decide +kernel

/-- The team of log 3 has nothing that waits. -/
theorem witness_noWaiter (c : Ctx) (h : c.team = hostTeam) : noWaiter c 2 := by
  intro w hw
  rw [h] at hw
  rcases hw with ⟨e, he, hw⟩ | ⟨x, hx, hw⟩
  · simp only [hostTeam, List.mem_singleton] at he
    subst he
    cases hw
  · cases hx

theorem witness_noMonitor (c : Ctx) (h : c.team.front = hostTeam.front) (hh : c.team.held = []) : noMonitor c := by
  intro w hw
  rw [h, hh] at hw
  rcases hw with ⟨e, he, hw⟩ | ⟨x, hx, hw⟩
  · simp only [hostTeam, List.mem_singleton] at he
    subst he
    cases hw
  · cases hx

/-- An armed barrier, and one that is not. -/
theorem witness_ByteBarrierWaits : meets (.bcbw 2 ⟨0, 22, 0, 0⟩) (issuing (.bcbw 2 ⟨0, 22, 0, 0⟩) armed) = true ∧
    meets (.bcbw 2 ⟨0, 22, 0, 0⟩) (issuing (.bcbw 2 ⟨0, 22, 0, 0⟩)) = true ∧
    meets (.promw 2 ⟨0, 22, 20, 0⟩) (issuing (.promw 2 ⟨0, 22, 20, 0⟩) armed) = true ∧
    meets (.promw 2 ⟨0, 22, 20, 0⟩) (issuing (.promw 2 ⟨0, 22, 20, 0⟩)) = true := by decide +kernel

/-! ## Witnesses: monitors, memory, tiles -/

/-- A test of the state and the context together. -/
def at' (i : Instr) (f : State → State) (p : State → Ctx → Bool) : Bool := meets i (issuing i f) (p (issuing i f))

/-- The scalar pair s20:s21 holds an address, and a page of it translates. -/
def pointing (a : Nat) (r : List Word) : State → State := own (scalars ([BitVec.ofNat 32 a, BitVec.ofNat 32 (a / 2 ^ 32)] ++ r))

/-- WAITC at 0x4000: the word is 0, which meets the condition with VALUE 0 and does not with VALUE 1; its arming request goes straight
through, and is held up by a queue that stands still (13 R247). -/
def waitcState (v : Word) (s : State) : State :=
  own (fun t => { t with s := [(20, 0x4000), (24, v), (25, 0xFFFFFFFF), (27, 9)] }) s

noncomputable def waitcReady (v : Word) (holds : Bool) : Bool :=
  at' (.waitc ⟨0, 30, 20, 24⟩) (waitcState v) fun s c =>
    let p := pageOf c (parkTeam s c.key c.carry) .rd (waitcVa c)
    let r := localLoad p.1 c.place.core c.team.comp (nearScope p.1 c.place.core 1 (waitcScope c)) p.2.2 p.2.1 4
    decide (waitcGate c s = .go) && armsNow c s &&
      monitorHolds (c.s 2) (c.s 3) (c.s 4) (BitVec.ofNat 32 (Bits.ofLe r.2)) == holds && decide (c.cur.replay = none)

noncomputable def waitcHeld : Bool :=
  at' (.waitc ⟨0, 30, 20, 24⟩) (fun s => { waitcState 0 s with stalls := [⟨0, 0, 2 ^ 40⟩] }) fun s c =>
    decide (waitcGate c s = .go) && !armsNow c s && decide (c.cur.replay = none) &&
      match peek s c.place.core c.team.comp c.team.level .rd (waitcVa c) with
      | .ok pa _ => localClass pa ≠ .none
      | _ => true

/-- A watch descriptor at 0x4000 for the four bytes at 0x5000, with a successor record at 0x6000. -/
def watchDesc : State → State :=
  holds 0x4000 ([0x00, 0x50, 0, 0, 0, 0, 0, 0, 4, 0, 0, 0] ++ List.replicate 12 0 ++ [0x00, 0x60, 0, 0, 0, 0, 0, 0])

theorem witness_MonitorsArm : waitcReady 0 true = true ∧ waitcReady 1 false = true ∧ waitcHeld = true ∧
    at' (.watch ⟨0, 30, 20, 0⟩) (fun s => watchDesc (pointing 0x4000 [] s)) (fun s c => decide (watchGate c s = .go)) = true := by
  decide +kernel

/-- A watchpoint of the team's compartment. -/
def watched (s : State) : State :=
  { s with watches := [⟨0, 0, 0x4000, 0x5000, 0x5000, 4, 0, 0, false, 0x2000, 0, 0, 0, true⟩] }

theorem witness_UnwatchSleepBinfl :
    at' (.unwatch ⟨0, 30, 20, 0⟩) (pointing 0x4000 []) (fun s c =>
      decide ((s.watches.find? fun w => w.comp = c.team.comp && w.desc = c.pair 0 % 2 ^ 57) = none)) = true ∧
    at' (.unwatch ⟨0, 30, 20, 0⟩) (fun s => watched (pointing 0x4000 [] s)) (fun s c =>
      (s.watches.find? fun w => w.comp = c.team.comp && w.desc = c.pair 0 % 2 ^ 57).isSome) = true ∧
    at' (.sleep ⟨0, 0, 20, 0⟩) id (fun _ c => c.s 0 = 0) = true ∧ at' (.sleep ⟨0, 0, 20, 0⟩) (own (scalars [1])) (fun _ c => c.s 0 ≠ 0) = true ∧
    at' (.binfl ⟨0, 0, 20, 0⟩) id (fun s c => binsLaunch s c.team.comp c.place.core) = true ∧ at' (.binfl ⟨0, 0, 0, 1⟩) id (fun _ _ => true) = true := by decide +kernel

/-- A load, a store and an atomic at 0x4000. -/
def setsOut (i : Instr) : Bool :=
  match accessOf i with
  | some m => at' i (pointing 0x4000 []) fun s c => decide (memGate (m c) c s = .go)
  | none => false

theorem witness_MemoryAccessesSetOut : setsOut (.ld128 ⟨0, 12, 124, 20, 3, 6⟩) = true ∧ setsOut (.st8 ⟨0, 12, 124, 20, 0, 0⟩) = true ∧
    setsOut (.atomCas64 3 ⟨0, 12, 124, 20⟩) = true := by decide +kernel

/-- The accesses of LD32 in a state, and what their translation answers. -/
noncomputable def ldMeets (f : State → State) (p : State → Ctx → List Acc → Bool) : Bool :=
  match accessOf (.ld32 ⟨0, 12, 124, 20, 0, 0⟩) with
  | some m => at' (.ld32 ⟨0, 12, 124, 20, 0, 0⟩) f fun s c => p s c ((m c).accs c)
  | none => false

/-- The team's page has no right, or lies outside every class of memory. -/
def unreadable (f : TlbEntry → TlbEntry) (s : State) : State :=
  { s with cores := Tab.put s.cores 0 { Sys2Proof.Machine.core s 0 with tlb := [f hostTlb] } }

/-- A crew with two tiles: tile 0 FP32 of 32 rows and 32 columns, tile 1 of a format that there is not. -/
def tiled : State → State := crew fun w => { w with tiles := [{ ts := 0x1F1F0 }, { ts := 0x1F1FF }] }

/-- TZERO of a tile of that crew. -/
noncomputable def tileTest (k : Nat) (p : State → Ctx → Bool) : Bool :=
  at' (.tzero (BitVec.ofNat 4 k) ⟨0, 0, 0, 0⟩) tiled p

theorem witness_MemoryAndTileTraps :
    ldMeets (pointing 0x4001 []) (fun _ c _ => decide ((lanesOf c.act).find? (fun l => c.address l % 4 ≠ 0) = some 0)) = true ∧
    ldMeets (fun s => unreadable (fun e => { e with pa := 0x30000000000 }) (pointing 0x4000 [] s)) (fun s c as =>
      decide (∀ l ∈ lanesOf c.act, c.address l % 4 = 0) &&
        (as.find? fun a => peek s c.place.core c.team.comp c.team.level .rd a.va = .addr).isSome) = true ∧
    ldMeets (fun s => unreadable (fun e => { e with rd := false }) (pointing 0x4000 [] s)) (fun s c as =>
      decide (∀ l ∈ lanesOf c.act, c.address l % 4 = 0) && decide (∀ b ∈ as, peek s c.place.core c.team.comp c.team.level .rd b.va ≠ .addr) &&
        (as.find? fun a => peek s c.place.core c.team.comp c.team.level .rd a.va = .access).isSome) = true ∧
    tileTest 2 (fun s c => decide (c.act ≠ 0) && decide ((tiles s c).length ≤ 2)) = true ∧
    tileTest 1 (fun s c => decide (c.act ≠ 0) && decide (1 < (tiles s c).length) && !tileBusy s c.key 1 && !shapeLegal ((tiles s c).getD 1 {}).ts) = true ∧
    at' (.tzero 0 ⟨0, 0, 0, 0⟩) (fun s => { tiled s with mats := [⟨7, 0, 0, 0, false, 8, 9, 0, 1, 0, 0, 0, 0, 0, 0, 0, some 0, .running 9, none, {}⟩] })
      (fun s c => shapeLegal ((tiles s c).getD 0 {}).ts && tileLocked s (crewOf c.key) 0 true && !tileBusy s c.key 0) = true := by
  decide +kernel

/-- A store of four bytes within a line; a clean word in the L1. -/
theorem witness_LoadsAndStoresAtTheirPoint :
    (∀ a, 0x4000 ≤ a → a < 0x4000 + 4 → rcbOwned (issuing (.nop ⟨0, 0, 0, 0⟩)) a = false) ∧
    (Sys2Proof.Machine.core (issuing (.nop ⟨0, 0, 0, 0⟩)) (l1Loc (issuing (.nop ⟨0, 0, 0, 0⟩)) 0 0x4000)).dirtyLines.length < 1024 ∧
    (∀ w ∈ wordsOf 0x4000 4, ∀ v, Tab.get? (Sys2Proof.Machine.core (issuing (.nop ⟨0, 0, 0, 0⟩)) (l1Loc (issuing (.nop ⟨0, 0, 0, 0⟩)) 0 0x4000)).l1 w = some v →
      v.dirty = false) ∧
    0 < l1WayCount (issuing (.nop ⟨0, 0, 0, 0⟩)) (l1Loc (issuing (.nop ⟨0, 0, 0, 0⟩)) 0 0x4000) ∧
    wayFree (issuing (.nop ⟨0, 0, 0, 0⟩)) (l1Loc (issuing (.nop ⟨0, 0, 0, 0⟩)) 0 0x4000) 0x4000 ∧
    sliceFree (issuing (.nop ⟨0, 0, 0, 0⟩)) 0x4000 := by
  refine ⟨?_, by decide +kernel, ?_, by decide +kernel, ⟨0, by decide +kernel, fun l h => ?_⟩, ?_⟩
  · intro a h1 h2
    have h : a = 0x4000 ∨ a = 0x4001 ∨ a = 0x4002 ∨ a = 0x4003 := by omega
    rcases h with rfl | rfl | rfl | rfl <;> decide +kernel
  · have h : (Sys2Proof.Machine.core (issuing (.nop ⟨0, 0, 0, 0⟩)) (l1Loc (issuing (.nop ⟨0, 0, 0, 0⟩)) 0 0x4000)).l1 = [] := by decide +kernel
    intro w _ v hv
    rw [h] at hv
    cases hv
  · rw [show (Sys2Proof.Machine.core (issuing (.nop ⟨0, 0, 0, 0⟩)) (l1Loc (issuing (.nop ⟨0, 0, 0, 0⟩)) 0 0x4000)).ways = [] by decide +kernel] at h
    cases h
  · exact .inr ⟨0, by decide +kernel, by decide +kernel⟩

/-- A signed load of a byte, a load of two registers, an atomic. -/
def done (k : OpKind) : MemOp := { id := 1, team := 0, issue := { word := 0, pc := 0, mask := 1 }, kind := k }

theorem witness_LoadedRegisters : (done (.load 12 1 1 true 63)).result = some (12, 1) ∧ (done (.load 12 4 16 false 64)).result = some (12, 4) ∧
    (done (.atomic 1 12 2 2 63)).result = some (12, 2) ∧ team? (issuing (.nop ⟨0, 0, 0, 0⟩)) 0 = some hostTeam := by decide +kernel

/-- A crew with one way of scratchpad. -/
def scratched : State → State := crew fun w => { w with scr := 1 }

theorem witness_ScratchpadAccesses :
    at' (.lds ⟨0, 12, 124, 20, 0, 1⟩) scratched (fun s c => decide (ScratchFits s c 1 false) && !acquiring s c.key && (crew? s (crewOf c.key)).all fun w => w.failing = []) = true ∧
    at' (.lds ⟨0, 12, 124, 20, 0, 4⟩) scratched (fun s c => decide (ScratchFits s c 4 false) && !acquiring s c.key && (crew? s (crewOf c.key)).all fun w => w.failing = []) = true ∧
    at' (.lds ⟨0, 12, 124, 20, 0, 6⟩) (fun s => scratched (pointing 0xFFF0 [] s)) (fun s c => decide (ScratchFits s c 16 false) && !acquiring s c.key && (crew? s (crewOf c.key)).all fun w => w.failing = []) = true ∧
    at' (.sts ⟨0, 12, 124, 20, 0, 6⟩) (fun s => scratched (pointing 0xFFF0 [] s)) (fun s c =>
      decide (ScratchFits s c 16 true) && !acquiring s c.key && (crew? s (crewOf c.key)).isSome) = true ∧
    at' (.lds ⟨0, 12, 124, 20, 0, 4⟩) (fun s => scratched (pointing 2 [] s)) (fun _ c =>
      decide ((lanesOf c.act).find? (fun l => scratchOffset c l % 4 ≠ 0) = some 0)) = true ∧
    at' (.sts ⟨0, 12, 124, 20, 0, 6⟩) (fun s => scratched (pointing 0x10000 [] s)) (fun s c =>
      decide ((∀ l ∈ lanesOf c.act, scratchOffset c l % 16 = 0) ∧
        (lanesOf c.act).find? (fun l => scratchBytes s (crewOf c.key) < scratchOffset c l + 16) = some 0)) = true ∧
    at' (.sts ⟨0, 12, 124, 20, 0, 4⟩) (fun s => scratched (pointing 2 [] s)) (fun _ c =>
      decide ((lanesOf c.act).find? (fun l => scratchOffset c l % 4 ≠ 0) = some 0)) = true ∧
    at' (.lds ⟨0, 12, 124, 20, 0, 6⟩) (fun s => scratched (pointing 0x10000 [] s)) (fun s c =>
      decide ((∀ l ∈ lanesOf c.act, scratchOffset c l % 16 = 0) ∧
        (lanesOf c.act).find? (fun l => scratchBytes s (crewOf c.key) < scratchOffset c l + 16) = some 0)) = true := by decide +kernel

/-- A dirty word of the L1 of core 0 that is being registered. -/
def dirtied (s : State) : State :=
  { s with
    cores := Tab.put s.cores 0 { Sys2Proof.Machine.core s 0 with l1 := [(0x1000, { val := 7, dirty := true, comp := 0, key := 1, stable := false })] }
    registering := [(0, 0x1000)] }

/-- Fences of each kind of scope; a dirty word and a clean one; ranges at 0x4000. -/
theorem witness_FencesAndCacheControl :
    at' (.fence 3 6 ⟨0, 0, 0, 0⟩) id (fun s c => decide (fenceGate 6 c s = .go) && decide (c.team.lost = 0)) = true ∧
    at' (.fence 1 5 ⟨0, 0, 0, 0⟩) (own fun t => { t with lost := 1 }) (fun s c => decide (fenceGate 5 c s = .go) && decide (c.team.lost ≠ 0)) = true ∧
    at' (.fence 0 2 ⟨0, 0, 0, 0⟩) id (fun s c => decide (fenceGate 2 c s = .go)) = true ∧
    at' (.fence 0 4 ⟨0, 0, 0, 0⟩) id (fun s c => decide (fenceGate 4 c s = .go)) = true ∧
    (∀ j ∈ l1Group (dirtied State.reset) 0, ((Sys2Proof.Machine.core (dirtied State.reset) j).l1.map (·.1)).Pairwise (· < ·)) ∧
    (Tab.get? (Sys2Proof.Machine.core (dirtied State.reset) 0).l1 0x1000).any (fun v => v.dirty) = true ∧
    (dirtied State.reset).registering.contains (0, 0x1000) = true ∧
    at' (.flushr 1 4 ⟨0, 0, 20, 24⟩) (pointing 0x4000 []) (fun s c => decide (olderGate c s = .go)) = true ∧
    at' (.invr 0 4 ⟨0, 0, 20, 24⟩) (pointing 0x4000 []) (fun s c => decide (olderGate c s = .go)) = true ∧
    at' (.pref 0 0 ⟨0, 0, 20, 24⟩) (pointing 0x4000 []) (fun _ _ => true) = true := by decide +kernel

/-- A guarded span that admits no lane. -/
def noLane : State → State := own fun t => { t with guardLeft := 1, guardMask := 0 }

theorem witness_TileInstructions :
    at' (.tzero 0 ⟨0, 0, 0, 0⟩) tiled (fun s c => decide (TileFree s c 0 true) && (crew? s (crewOf c.key)).isSome) = true ∧
    at' (.ttag 0 ⟨0, 30, 20, 0⟩) (fun s => tiled (own (scalars [31]) s)) (fun s c =>
      decide (TileFree s c 0 false) && decide ((c.s 0).toNat < tsRows ((tiles s c).getD 0 {}).ts)) = true ∧
    at' (.trdv ⟨0, 12, 20, 0⟩) (fun s => tiled (own (scalars [992]) s)) (fun s c => decide (TileFree s c 0 false) && decide (WordsFit s c 0)) = true ∧
    at' (.twrv ⟨0, 16, 20, 0⟩) (fun s => tiled (own (scalars [992]) s)) (fun s c =>
      decide (TileFree s c 0 true) && decide (WordsFit s c 0) && (crew? s (crewOf c.key)).isSome) = true ∧
    at' (.tld 0 ⟨0, 0, 20, 0⟩) (fun s => tiled (pointing 0x4000 [128, 0] s)) (fun s c => decide (TileFree s c 0 true) && decide (TileImageFits s c 0 false) && !acquiring s c.key && !starved s c.key) = true ∧
    at' (.tst 0 ⟨0, 0, 20, 0⟩) (fun s => tiled (pointing 0x4000 [128, 0] s)) (fun s c => decide (TileFree s c 0 false) && decide (TileImageFits s c 0 true) && !acquiring s c.key && !starved s c.key) = true ∧
    at' (.trdv ⟨0, 12, 20, 0⟩) (fun s => noLane (tiled s)) (fun s c => decide (c.act = 0) && shapeLegal ((tiles s c).getD 0 {}).ts) = true ∧
    at' (.twrv ⟨0, 16, 20, 0⟩) (fun s => noLane (tiled s)) (fun s c => decide (c.act = 0) && shapeLegal ((tiles s c).getD 0 {}).ts) = true := by
  decide +kernel

/-! ## Witnesses: engines -/

/-- The bytes of a number, low byte first. -/
def le (n v : Nat) : List Byte := Bits.leBytes n v

/-- Tiles for an MMA: two operands in FP16 of 128 rows and 32 columns, and four of 32 rows and 128 columns in FP32; and those of an
MMA4, on a compartment and a region that hold a hitch (09 R184, R188). -/
def matTiles (four : Bool) (s : State) : State :=
  let a : Tile := { ts := if four then 0x1F3F1 else 0x1F7F1 }
  let z : Tile := { ts := if four then 0xFF0F0 else 0x7F1F0 }
  let s := crew (fun w => { w with tiles := [a, a, z, z, z, z] }) s
  let d := (comp s 0).desc
  { setComp s 0 { comp s 0 with desc := { d with clusters := 0xF } } with
    regions := [(regionKey 0 0x3000, { hostRegion with flags := 2 })] }

/-- The parameter block of an operation of one chunk at 0x4000 (09 R184). -/
def matBlock : State → State := holds 0x4000 [0, 1, 2, 1]

/-- The block of a copy of one element of four bytes at 0x4000 (09 R191); a COLL with one member (R193). -/
def copyBlock (members : Byte) : State → State :=
  holds 0x4000 (le 8 0x5000 ++ le 8 0x6000 ++ le 10 0x00010001000100010001 ++ le 31 0 ++ [2, 0, 0, 0, 0, members, 0])

theorem witness_EnginesTakePosts :
    at' (.mma ⟨0, 30, 20, 0⟩) (fun s => matTiles false (matBlock (pointing 0x4000 [] s))) (fun s c => decide (matGate false c s = .go)) = true ∧
    at' (.mma4 ⟨0, 30, 20, 0⟩) (fun s => matTiles true (matBlock (pointing 0x4000 [] s))) (fun s c => decide (matGate true c s = .go)) = true ∧
    at' (.cpy ⟨0, 32, 20, 0⟩) (fun s => copyBlock 0 (pointing 0x4000 [] s)) (fun s c => decide (copyGate 0 c s = .go)) = true ∧
    at' (.gath ⟨0, 32, 20, 22⟩) (fun s => copyBlock 0 (pointing 0x4000 [0x7000, 0] s)) (fun s c => decide (copyGate 1 c s = .go)) = true ∧
    at' (.scat ⟨0, 32, 20, 22⟩) (fun s => copyBlock 0 (pointing 0x4000 [0x7000, 0] s)) (fun s c => decide (copyGate 2 c s = .go)) = true ∧
    at' (.coll ⟨0, 32, 20, 22⟩) (fun s => copyBlock 1 (pointing 0x4000 [0x7000, 0] s)) (fun s c => decide (copyGate 3 c s = .go)) = true := by
  decide +kernel

/-- An operation of the team in the reservation table, and one that runs; a copy command of the team, and one that has faulted. -/
def withMat (started : Bool) (s : State) : State :=
  { s with mats := [⟨7, 0, 0, 5, false, 0, 1, 2, 1, 0, 0, 0, 0, 0, 0, 0, some 0, if started then .running 9 else .table 0, none, {}⟩] }
def withCopy (bad : Option (Nat × Bool × Nat)) (s : State) : State :=
  let x : Copy :=
    { id := 7, cluster := 0, core := 0, team := 0, via := 0, level := 0, region := 0, handle := 5, kind := 0, src := 0x5000, dst := 0x6000,
      n := [1], ss := [0], ds := [0], ush := 0, esz := 2, flags := 0, bar := 0, collop := 0, mem := 0, mems := 0, aux := 0, dest := 0,
      first := 0, next := 0, bad := bad, stage := .queued 0 }
  { s with copies := [x] }

/-- A handle of the last value below 2^16, and one past it; an outstanding and an unknown one. -/
theorem witness_EngineHandles :
    at' (.mmaq ⟨0, 30, 20, 0⟩) (own (scalars [0x10000])) (fun _ c => 2 ^ 16 ≤ (c.s 0).toNat) = true ∧
    at' (.mmaq ⟨0, 30, 20, 0⟩) (own (scalars [5])) (fun s c => decide (matOut s c (c.s 0).toNat = none) && s.matEnds == []) = true ∧
    at' (.mmaq ⟨0, 30, 20, 0⟩) (fun s => { withMat true (own (scalars [5]) s) with mats := [], matEnds := (withMat true s).mats.map fun m => ⟨s.time, m, 2, 3⟩ })
      (fun s c => decide (matOut s c (c.s 0).toNat = none) &&
        (s.matEnds.find? fun e => e.time = s.time && e.op.team = c.key && e.op.handle = (c.s 0).toNat).any fun e => e.was = 2) = true ∧
    at' (.mmaw ⟨0, 30, 20, 0⟩) (own (scalars [0xFFFF])) (fun _ c => (c.s 0).toNat < 2 ^ 16 && decide (matNewest c.team (c.s 0).toNat = none)) = true ∧
    at' (.mmaw ⟨0, 30, 20, 0⟩) (fun s => withMat false (own (scalars [5]) s)) (fun s c => (matOut s c (c.s 0).toNat).isSome) = true ∧
    at' (.ewait ⟨0, 30, 20, 0⟩) (own (scalars [5])) (fun _ c => decide (copyNewest c.team (c.s 0).toNat = none)) = true ∧
    at' (.ewait ⟨0, 30, 20, 0⟩) (own fun t => { scalars [5] t with copyDone := [{ handle := 5, finish := 1, why := 0, vec := [] }] })
      (fun s c => decide (copyOut s c (c.s 0).toNat = none) && (copyNewest c.team (c.s 0).toNat).any fun r => r.finish ≠ 2) = true ∧
    at' (.eqry ⟨0, 32, 20, 0⟩) (fun s => withCopy none (own (scalars [5]) s)) (fun s c => (copyOut s c (c.s 0).toNat).isSome) = true ∧
    at' (.mmax ⟨0, 30, 20, 0⟩) (fun s => withMat false (own (scalars [5]) s)) (fun s c =>
      (matOut s c (c.s 0).toNat).any fun m => (cancelSet s m).all fun y => !y.stage.started) = true ∧
    at' (.mmax ⟨0, 30, 20, 0⟩) (fun s => withMat true (own (scalars [5]) s)) (fun s c =>
      (matOut s c (c.s 0).toNat).any fun m => (cancelSet s m).any fun y => y.stage.started) = true ∧
    at' (.ecan ⟨0, 30, 20, 0⟩) (fun s => withCopy none (own (scalars [5]) s)) (fun s c =>
      (copyOut s c (c.s 0).toNat).any fun y => decide (y.bad = none)) = true ∧
    at' (.ecan ⟨0, 30, 20, 0⟩) (fun s => withCopy (some (1, false, 0)) (own (scalars [5]) s)) (fun s c =>
      (copyOut s c (c.s 0).toNat).any fun y => decide (y.bad ≠ none)) = true := by decide +kernel

/-! ## Witnesses: claims, trunks -/

/-- The team runs at level 1. -/
def atLevel1 : State → State := own fun t => { t with level := 1 }

theorem witness_ClaimsAnnounce :
    at' (.claim 0 ⟨0, 30, 20, 22⟩) (pointing 0x4000 [1, 2]) (fun s c =>
      decide (claimGate 0 30 c s = .go) && decide (claimReason s c.place.core c.team.comp 0 = some 6)) = true ∧
    at' (.claim 0 ⟨0, 30, 20, 22⟩) (fun s => grouped [(3, 0)] (pointing 0x4000 [1, 2] s)) (fun s c =>
      decide (claimGate 0 30 c s = .go) && decide (claimReason s c.place.core c.team.comp 0 = none)) = true := by decide +kernel

/-- Ranks that are vacant, held by this core and by a peer; operands that a change of membership takes and refuses (64). -/
theorem witness_ClaimInstructions :
    at' (.clwait 0 ⟨0, 30, 20, 0⟩) (own (scalars [0])) (fun s c => decide (trunkClaim s c.key 0 (c.s 0).toNat = none)) = true ∧
    at' (.clpeek 7 ⟨0, 32, 0, 0⟩) id (fun _ _ => true) = true ∧ at' (.clpop 7 ⟨0, 32, 0, 0⟩) id (fun s c => decide (olderGate c s = .go)) = true ∧
    at' (.object 0 ⟨0, 30, 20, 0⟩) (fun s => grouped [(3, 0x1100)] (own (scalars [3]) s)) (fun s c =>
      (Tab.get? (groupOf s c.place.core 0).members ((c.s 0).toNat % 64)).any memberPeer) = true ∧
    at' (.cljoin 0 ⟨0, 30, 20, 21⟩) (fun s => atLevel1 (own (scalars [63, 0]) s)) (fun s c =>
      decide ((groupOf s c.place.core 0).pending = none) && decide (memberBad s c.team.comp (c.s 0) (c.s 1) = none)) = true ∧
    at' (.cljoin 0 ⟨0, 30, 20, 21⟩) (fun s => atLevel1 (own (scalars [64, 0]) s)) (fun s c =>
      decide ((groupOf s c.place.core 0).pending = none) && (memberBad s c.team.comp (c.s 0) (c.s 1)).isSome) = true ∧
    at' (.clleave 0 ⟨0, 30, 20, 0⟩) (fun s => atLevel1 (own (scalars [63]) s)) (fun s c =>
      decide ((groupOf s c.place.core 0).pending = none) && decide ((c.s 0).toNat ≤ 63)) = true ∧
    at' (.clleave 0 ⟨0, 30, 20, 0⟩) (fun s => atLevel1 (own (scalars [64]) s)) (fun s c =>
      decide ((groupOf s c.place.core 0).pending = none) && decide (63 < (c.s 0).toNat)) = true := by decide +kernel

/-- A suspension of the crew by another of its teams. -/
def suspended : State → State :=
  crew fun w => { w with suspending := some { team := 1, trunk := 0x8000, ticket := 0x5000, flags := 0, since := 0, issue := { word := 0, pc := 0, mask := 1 } } }

theorem witness_SuspendAsksTheCrew :
    at' (.suspend ⟨0, 0, 20, 22⟩) (pointing 0x8000 [0x5000, 0]) (fun s c => (crew? s (crewOf c.key)).any fun w =>
      decide (w.suspending = none) && decide (c.pair 0 % 2 ^ 57 % 256 = 0) && decide (c.pair 2 % 2 ^ 57 % 8 = 0)) = true ∧
    at' (.suspend ⟨0, 0, 20, 22⟩) (fun s => suspended (pointing 0x8000 [0x5000, 0] s)) (fun s c => (crew? s (crewOf c.key)).any fun w =>
      decide (w.suspending ≠ none)) = true ∧
    at' (.suspend ⟨0, 0, 20, 22⟩) (pointing 0x8080 [0x5000, 0]) (fun s c => (crew? s (crewOf c.key)).any fun w =>
      decide (w.suspending = none) && decide (c.pair 0 % 2 ^ 57 % 256 ≠ 0)) = true ∧
    at' (.suspend ⟨0, 0, 20, 22⟩) (pointing 0x8000 [0x5004, 0]) (fun s c => (crew? s (crewOf c.key)).any fun w =>
      decide (w.suspending = none) && decide (c.pair 0 % 2 ^ 57 % 256 = 0) && decide (c.pair 2 % 2 ^ 57 % 8 ≠ 0)) = true := by decide +kernel

/-- What stands at 0x8000 is no trunk. -/
theorem witness_TrunkInstructions_tstat : at' (.tstat ⟨0, 30, 20, 0⟩) (pointing 0x8000 []) (fun s c =>
    decide (trunkAt c % 256 = 0) && match checkTrunk c s (trunkAt c) with
    | .fails code _ => decide (code = 3)
    | _ => false) = true := by decide +kernel

/-- The pages of a trunk and of a ticket are on this device. -/
theorem witness_TrunkInstructions_stores : at' (.tcopy ⟨0, 24, 20, 22⟩) (pointing 0x8000 [0x9000, 0, 0xA000, 0]) (fun s c =>
    decide (∀ p ∈ pageParts (tcopyDst c) (thTotal (trunkBytes c s)), localClass p.1 ≠ .none ∧
      peek s c.place.core c.team.comp c.team.level .wr (p.1 % 2 ^ 57) = .ok p.1 false) &&
    decide (peek s c.place.core c.team.comp c.team.level .wr (tcopyTicket c % 2 ^ 57) = .ok 0xA000 false) &&
    decide (peek s c.place.core c.team.comp c.team.level .rw 0 = .ok 0 false) && decide (localClass 0xA000 ≠ .none) &&
    decide (localClass 0 ≠ .none) && (List.range 8).all (fun a => !rcbOwned s (0xA000 + a) && !rcbOwned s a)) = true := by decide +kernel

/-! ## Witnesses: the system group, returns, hints -/

theorem witness_SystemInstructions :
    at' (.replay ⟨0, 0, 20, 0⟩) atLevel1 (fun _ c => c.s 0 = 0) = true ∧ at' (.replay ⟨0, 0, 20, 0⟩) (fun s => atLevel1 (own (scalars [9]) s)) (fun _ c => c.s 0 ≠ 0) = true ∧
    at' (.tlbi ⟨0, 0, 20, 0⟩) atLevel1 (fun s c => decide (tlbiGate ⟨0, 0, 20, 0⟩ c s = .go)) = true ∧ at' (.tlbi ⟨0, 0, 20, 1⟩) atLevel1 (fun s c => decide (tlbiGate ⟨0, 0, 20, 1⟩ c s = .go)) = true ∧
    at' (.park ⟨0, 0, 20, 0⟩) atLevel1 (fun s c => !undrained s c.key c.team) = true ∧ at' (.halt ⟨0, 0, 20, 0⟩) atLevel1 (fun _ _ => true) = true ∧
    at' (.scall ⟨0, 0, 0, 3⟩) id (fun _ c => decide (c.team.level = 0)) = true ∧
    at' (.scall ⟨0, 0, 0, 3⟩) atLevel1 (fun s c => decide (c.team.level = 1) && decide (scallGate c s = .go) && decide (Tab.getD s.services 3 0 = 0)) = true ∧
    at' (.scall ⟨0, 0, 0, 3⟩) (fun s => atLevel1 { s with services := [(3, 0x100)] })
      (fun s c => decide (c.team.level = 1) && decide (scallGate c s = .go) && decide (Tab.getD s.services 3 0 ≠ 0)) = true := by decide +kernel

/-- One page; 4,096 and 4,097 of them; none. -/
theorem witness_HarvestCountsDirtyPages :
    at' (.harvest ⟨0, 24, 20, 22⟩) (fun s => atLevel1 (pointing 0x10000 [0x5000, 0, 1] s)) (fun s c => decide (harvestGate c s = .go)) = true ∧
    at' (.harvest ⟨0, 24, 20, 22⟩) (fun s => atLevel1 (pointing 0x10000 [0x5000, 0, 4096] s)) (fun s c => decide (harvestGate c s = .go)) = true ∧
    at' (.harvest ⟨0, 24, 20, 22⟩) (fun s => atLevel1 (pointing 0x10000 [0x5000, 0, 4097] s)) (fun _ c => 4096 < (c.s 4).toNat) = true ∧
    at' (.harvest ⟨0, 24, 20, 22⟩) (fun s => atLevel1 (pointing 0x10000 [0x5000, 0, 0] s)) (fun _ c => c.s 4 = 0) = true := by decide +kernel

/-- The frames' page lies in the heap window (02 R30). -/
def heaped (s : State) : State :=
  setComp s 0 { comp s 0 with heap := { base := 0x100000, lim := 0x100000, off := 0 }, xlate := { colmask := 0xFFFF, keyid := 1, glim := 2 ^ 30 } }

/-- A frame at FRAMEBASE with one entry of all lanes at 0x1000 (15 R279); the same that is not valid. -/
def framed (valid : Nat) (s : State) : State :=
  holds 0x100200 (le 8 0x1000 ++ le 4 0xFFFFFFFF ++ [128]) (holds 0x100058 (le 4 1) (holds 0x100000 (le 4 (valid + 2 ^ 16)) (heaped (atLevel1 s))))

/-- The frame that a return reads, and whether it is refused. -/
def returns (i : Instr) (valid : Nat) (p : State → Ctx → FrameView → Bool) : Bool :=
  at' i (framed valid) fun s c =>
    match readFrame s c.place.core c.team.comp c.team.frameBase with
    | (_, some v) => p s c v
    | (_, none) => false

theorem witness_ReturnsRestoreTheFrame : returns (.rtr ⟨0, 0, 0, 0⟩) 1 (fun s c _ => decide (returnGate c s = .go)) = true ∧
    returns (.rts ⟨0, 0, 0, 0⟩) 1 (fun s c _ => decide (returnGate c s = .go)) = true ∧
    returns (.rtr ⟨0, 0, 0, 0⟩) 0 (fun s c v => !rangePending s c.key c.team.frameBase 51200 && decide (v.valid ≠ 1)) = true ∧
    returns (.rts ⟨0, 0, 0, 0⟩) 0 (fun s c v => !rangePending s c.key c.team.frameBase 51200 && decide (v.valid ≠ 1)) = true ∧
    returns (.rtr ⟨0, 0, 0, 0⟩) 1 (fun _ c v => decide (c.team.held = []) && decide (v.front.length = 1) &&
      v.front.all fun x => !x.2 && x.1.mask.getLsbD 31 && c.team.live.getLsbD 31) = true ∧
    returns (.rts ⟨0, 0, 0, 0⟩) 1 (fun s c _ => match readFrame s c.place.core c.team.comp c.team.frameBase with
      | (s1, _) => match devicePa s1 c.team.comp .wr c.team.frameBase with
        | (s2, some pa) => pa % 64 = 0 && !rcbOwned s2 pa
        | _ => false) = true ∧
    at' (.rtr ⟨0, 0, 0, 0⟩) (fun s => { framed 1 s with failing := [0x40010] }) (fun s c => !rangePending s c.key c.team.frameBase 51200 &&
      (readFrame s c.place.core c.team.comp c.team.frameBase).2.isNone) = true := by decide +kernel

/-- The kinds that a run's hints are read from. -/
theorem witness_HintsJoinTheRun : (issuing (.hsig 0)).cur.isSome = true ∧ isHintInstr (.hsig 0) = true ∧
    (let w := encode (.hsig (30 * 2 ^ 15))
     Bits.fld w 26 6 = 0x3F ∧ w.getLsbD 25 = false ∧ Bits.fld w 21 4 = 7 ∧ Bits.fld w 15 6 = 30) ∧
    (let w := encode (.himm 0x1FFFFFF)
     Bits.fld w 26 6 = 0x3F ∧ w.getLsbD 25 = true) := by decide +kernel

/-- The context of an instruction, and what its checks come to. -/
def checked (i : Instr) (f : State → State) (p : Ctx → State → Check → Bool) : Bool :=
  match context i.shape (issuing i f) with
  | some c => i.shape.maj ≠ 0 && i.shape.maj ≠ 0x3F && p c (issuing i f) (checks (privOf i) c (issuing i f))
  | none => false

/-- A run that the state's issue has read before its word. -/
def hinted (ws : List Word) (s : State) : State := { s with cur := s.cur.map fun u => { u with run := ws.map fun w => (hostPc, w) } }

/-- Each check fails in its turn: a hint that does not apply (HINT by the run), CALL in a guarded span (5), a reserved field, a
register that the team does not hold (1), a level (2), the seventeenth of a chain (4), a latch that is not valid (3); and all
pass. -/
theorem witness_FailedChecksTrap :
    checked (.nop ⟨0, 0, 0, 0⟩) (hinted [encode (.hsig 0)]) (fun c _ r => (runFault (hintFits c.shape) c.cur.run).isSome && r == .run hostPc false) = true ∧
    checked (.nop ⟨0, 0, 0, 0⟩) (own fun t => { t with guardLeft := 2, guardMask := 1 }) (fun c _ r =>
      spanFault c && decide (c.hints.hgrd = none) && decide (c.cur.replay = none) && r == .trap 5) = true ∧
    checked (.iadd ⟨0, 0, 12, 2, 3⟩) (fun s => hinted [encode (.hgrd 0)] (own (fun t => { t with guardLeft := 2, guardMask := 1 }) s)) (fun c _ r =>
      decide (runFault (hintFits c.shape) c.cur.run = none) && c.hints.hgrd.isSome && decide (c.cur.replay = none) && r == .run hostPc false) = true ∧
    checked (.clz ⟨0, 0, 1, 2, 3⟩) id (fun c _ r => !c.shape.r53Ok && r == .trap 1) = true ∧
    checked (.iadd ⟨0, 0, 120, 2, 3⟩) id (fun c _ r => !c.shape.step3Ok && r == .trap 1) = true ∧
    checked (.iadd ⟨0, 0, 119, 2, 3⟩) (own fun t => { t with rows := 1 }) (fun c _ r => !allocated c.team c.shape && r == .trap 1) = true ∧
    checked (.halt ⟨0, 0, 20, 0⟩) id (fun c s r => decide (privOf (.halt ⟨0, 0, 20, 0⟩) c s = some 2) && r == .trap 2) = true ∧
    checked (.iadd ⟨1, 0, 12, 2, 3⟩) (own fun t => { t with chain := 16 }) (fun c _ r => c.shape.c && decide (16 ≤ c.team.chain) && r == .trap 4) = true ∧
    checked (.iadd ⟨0, 0, 12, 120, 3⟩) id (fun c s r => !spanFault c && decide (inFlight s c.key < 24) && latchInvalid s c && !reserved s c.key c.shape && r == .trap 3) = true ∧
    checked (.iadd ⟨0, 0, 12, 2, 3⟩) id (fun c s r => !spanFault c && decide (inFlight s c.key < 24) && !latchInvalid s c && decide (c.team.chain < 16) && r == .ok) = true := by decide +kernel

/-- No span, a span that the team is in, and one that begins. -/
theorem witness_OperandsAtIssue :
    checked (.iadd ⟨0, 0, 12, 2, 3⟩) id (fun c _ _ => decide (c.cur.replay = none) && decide (parked? c.team c.cur = none) && decide (c.hints.hgrd = none) && decide (c.team.guardLeft = 0)) = true ∧
    checked (.iadd ⟨0, 0, 12, 2, 3⟩) (own fun t => { t with guardLeft := 1, guardMask := 5 }) (fun c _ _ => decide (parked? c.team c.cur = none) && decide (c.team.guardLeft ≠ 0)) = true ∧
    checked (.iadd ⟨0, 0, 12, 2, 3⟩) (hinted [encode (.hgrd 0)]) (fun c _ _ => decide (parked? c.team c.cur = none) && c.hints.hgrd.isSome && decide (c.team.guardLeft = 0)) = true := by decide +kernel

/-- A team whose frame is free, in memory that holds it; one whose frame is valid, in a root region. -/
theorem witness_TrapEntry :
    (match partPas (issuing (.nop ⟨0, 0, 0, 0⟩) heaped) 0 .rw (pageParts hostTeam.frameBase frameSize) with
      | (s1, some (x :: l)) => !viewFails s1 0 [(hostTeam.frameBase, 4, pasFind (x :: l) hostTeam.frameBase)] && !frameValid (issuing (.nop ⟨0, 0, 0, 0⟩) heaped) 0 0 hostTeam.frameBase
      | _ => false) = true ∧ team? (issuing (.nop ⟨0, 0, 0, 0⟩) heaped) 0 = some hostTeam ∧ hostTeam.place = some ⟨0, 0, 0⟩ ∧ hostTeam.frameBase % 2048 = 0 ∧
    frameValid (issuing (.nop ⟨0, 0, 0, 0⟩) fun s => holds 0x100000 [1] (heaped s)) 0 0 hostTeam.frameBase = true ∧
    (region? (issuing (.nop ⟨0, 0, 0, 0⟩) fun s => holds 0x100000 [1] (heaped s)) (handlerRegion hostTeam)).any (fun r => r.parent = 0) = true := by decide +kernel

/-! ## Witnesses: events, compartments, steps -/

/-- An event that can happen, and one that cannot. -/
theorem witness_EventsHappen : (match eventOf .powerOn with
      | some (can, _) => can State.reset && !can (hostPlace State.reset 0)
      | none => false) = true := by decide +kernel

/-- An entry of the team waits, at cycle 10. -/
def waiting (w : Wait) : State :=
  { own (fun t => { t with front := [{ prio := 128, pc := hostPc, mask := 1, wait := some w }] }) (hostPlace State.reset 0) with time := 42000 }

theorem witness_TimedWaitsEnd : ([.sleep 0, .promw 3 0 0 9, .monitor 0x4000 0x4000 none 0 0 0 (some 0) 9] : List Wait).all (fun w =>
    match team? (waiting w) 0 with
    | some u => u.front.all (fun e => decide (e.mask ≠ 0) && decide (e.wait = some w)) && decide (u.live ≠ 0) && !u.frozen && decide (0 < clk (waiting w) (holdingCore (waiting w) 0 u))
    | none => false) = true := by decide +kernel

/-- A descriptor that CREATE takes: its translation context at 0x4000 grants every colour. -/
def goodDesc : Descriptor := ⟨0, 1, 0, 0, 2, 7, 0x4000, 0x10000000, 2 ^ 26, 0, 0, 0, 0, 0, 0, true⟩
def powered (s : State) : State := { s with powered := true }
def created' (n : Nat) : State := setComp (powered State.reset) 0 { desc := { goodDesc with state := n, op := 0 } }

def sized (n : Nat) (m : BitVec 16) : State :=
  setComp (powered State.reset) 0 { desc := { goodDesc with state := n, op := 0, clusters := m, resvsz := 2 ^ 27 } }

theorem witness_CompartmentOperations :
    opReady (holds 0x4000 (List.replicate 64 1) (powered State.reset)) 1 = true ∧
    createResult (holds 0x4000 (List.replicate 64 1) (powered State.reset)) 1 goodDesc = 0 ∧
    createResult (powered State.reset) 1 { goodDesc with clusters := 0 } = 8 ∧ createResult (created' 1) 1 goodDesc = 2 ∧
    createResult (created' 1) 0 goodDesc = 1 ∧ ([0, 1, 2, 3, 4].all fun n => opReady (created' n) 0) = true ∧
    -- RESIZE: another's cluster, a renumbering, one applied, one of a running compartment that grows, and one that shrinks
    (let s := setComp (created' 2) 1 { desc := { goodDesc with state := 1, op := 0, clusters := 4 } }
     opReady s 0 = true ∧ frozen s 0 = false ∧ (comp s 1).desc.clusters &&& 6 ≠ 0) ∧
    (opReady (sized 2 2) 0 = true ∧ frozen (sized 2 2) 0 = false ∧ (∀ k, k < 16 → k ≠ 0 → (comp (sized 2 2) k).desc.state = 0) ∧
      resvBad (sized 2 2) 0 3 (comp (sized 2 2) 0).desc.resv (comp (sized 2 2) 0).desc.resvsz = false ∧ renumbers (comp (sized 2 2) 0).desc.clusters 3 = true) ∧
    (resizeResult (sized 1 2) 0 3 = 0 ∧ inReset (sized 1 2) 0 = false) ∧
    (resizeResult (sized 2 2) 0 6 = 0 ∧ (comp (sized 2 2) 0).desc.clusters &&& ~~~(6 : BitVec 16) = 0) ∧
    (resizeResult (sized 2 6) 0 2 = 0 ∧ (comp (sized 2 6) 0).desc.clusters &&& ~~~(2 : BitVec 16) ≠ 0) := by decide +kernel

/-- The first word after the placement of log 3 comes to be issued in one step. -/
noncomputable def fetches (s : State) (w : Word) : Bool :=
  match pick (retried s) with
  | some s0 =>
    match s0.cur with
    | some u =>
      match currentWord s0 u with
      | (_, .word x) => x = w
      | _ => false
    | none => false
  | none => false

theorem witness_StepRunsTheDecodedWord :
    (let s := hostPlace State.reset (encode (.iadd ⟨0, 0, 12, 2, 3⟩)).toNat
     s.powered = true ∧ s.stalls = [] ∧ s.spawning = [] ∧ s.cur = none ∧ s.inputs = [] ∧ due (tick s) = none ∧ fetches (tick s) (encode (.iadd ⟨0, 0, 12, 2, 3⟩)) = true) ∧
    decode (encode (.iadd ⟨0, 0, 12, 2, 3⟩)) = .ok (.iadd ⟨0, 0, 12, 2, 3⟩) ∧ (decode 0xF8000000).isOk = false ∧ isHint 0xF8000000 = false ∧
    (match translate (hostPlace State.reset 7) 0 0 0 .ex hostPc with
      | (s1, .ok pa _) => decide (localClass pa ≠ .none) && !homeFails s1 pa 4
      | _ => false) = true := by decide +kernel

/-- The same with the issue already begun. -/
theorem witness_StepRunsTheDecodedWord_begun :
    (let s := { hostPlace State.reset (encode (.iadd ⟨0, 0, 12, 2, 3⟩)).toNat with
      cur := some { team := 0, mask := 0xFFFFFFFF, start := hostPc, pc := hostPc, word := 0 } }
     s.powered = true ∧ s.spawning = [] ∧ s.stalls = [] ∧
      (match s.cur with
        | some u => match currentWord (tick s) u with
          | (_, .word x) => decide (u.replay = none) && decide (x = encode (.iadd ⟨0, 0, 12, 2, 3⟩))
          | _ => false
        | none => false) = true) := by decide +kernel

/-- The word placed by the host is the one that a step runs. -/
theorem test_step_runs_placed_word : (match step (State.reset.withFetchWord 32 (encode (.sadd ⟨0, 2, 20, 21⟩)).toNat) with
    | .next t => (team? t 0).any fun u => u.front.all fun e => e.pc = hostPc + 4
    | _ => false) = true := by decide +kernel

theorem witness_StepKeepsInvariant : (match step State.reset with
    | .next t => t.powered
    | _ => false) = true := by decide +kernel

theorem witness_DecodeReadsBackEveryEncoding : (Instr.iadd ⟨0, 0, 12, 2, 3⟩).encoded = true ∧ (Instr.iadd ⟨0, 0, 12, 2, 3⟩).wellFormed = true ∧
    decode (encode (.iadd ⟨0, 0, 12, 2, 3⟩)) = .ok (.iadd ⟨0, 0, 12, 2, 3⟩) := by decide +kernel

/-! ## Witnesses: RESUME, TCOPY and TDISC on a trunk whose seal is what the SCE gives it (a free value, log 10) -/

/-- The first 0xF0 bytes of a trunk of one team, without tiles, scratchpad or pending operations (07 R131): ticket at 0x5000, GEN 1. -/
def trunkHead : List Byte :=
  le 4 0x4B4E5254 ++ le 2 3 ++ [0, 1] ++ le 8 Config.encodingHash ++ le 8 0x5000 ++ le 8 1 ++ le 20 0 ++ le 4 0x180 ++ le 20 0 ++ le 4 0x100 ++
    le 160 0

/-- Its 16 bytes of seal, and the whole trunk. -/
def trunkSealed : List Byte := (List.range 16).map fun k => (sealBytes 0 trunkHead).getD k 0
def trunkImage : List Byte := trunkHead ++ (trunkSealed ++ List.replicate 128 0)

theorem sealBytes_eq (t : Nat) (b : List Byte) : (List.range 16).map (fun k => (sealBytes t b).getD k 0) = sealBytes t b := by
  have hl : (sealBytes t b).length = 16 := by simp [sealBytes]
  apply List.ext_getElem
  · simp [hl]
  · intro n h1 h2
    simp [List.getD, h2]

/-- The trunk lies in a window of coach 1 and has been read; the ticket is live. -/
def trunkState (i : Instr) : State :=
  issuing i fun s =>
    let s := holds 0x5000 (le 8 (2 ^ 62 + 1)) (pointing 0x40000000 [0x8000, 0, 0x9000, 0] s)
    { s with
      trainEn := true
      trainSize := 2
      cores := Tab.put s.cores 0 { Sys2Proof.Machine.core s 0 with tlb := [hostTlb, { hostTlb with va := 2 ^ 30, pa := 0x1100000000000 }] }
      fetched := [⟨0, hostPc, 0xFFFFFFFF, 2 ^ 30, trunkImage⟩] }

/-- The context of an instruction that issues. -/
def ctxOf (i : Instr) (h : (context i.shape (trunkState i)).isSome = true) : Ctx := (context i.shape (trunkState i)).get h

theorem trunkHead_length : trunkHead.length = 0xF0 := by decide +kernel

theorem trunk_sealed (i : Instr) : bodyFails (trunkState i) 0 trunkImage = none := by
  have h1 : trunkImage.take 0xF0 ++ (trunkImage.take (thCompl trunkImage)).drop 0x100 = trunkHead := by
    have h2 : trunkImage.take 0xF0 = trunkHead := List.take_left' trunkHead_length
    have h3 : thCompl trunkImage = 0x100 := by rfl
    rw [h2, h3, List.drop_eq_nil_of_le (by simp), List.append_nil]
  have h4 : (trunkImage.drop 0xF0).take 16 = trunkSealed := by
    rw [trunkImage, List.drop_left' trunkHead_length]
    exact List.take_left' (by simp [trunkSealed])
  have h5 : tenancyOf (trunkState i) 0 = 0 := by rfl
  have h6 : fieldAt trunkImage 7 1 = 1 := by rfl
  have h7 : fieldAt trunkImage 0x50 1 = 0 := by rfl
  have h8 : fieldAt trunkImage 0x51 1 = 0 := by rfl
  unfold bodyFails
  rw [h1, h4, h5, h6, h7, h8, trunkSealed, sealBytes_eq]
  simp

/-- The checks of a trunk answer its bytes where both reads do. -/
theorem trunk_checked {c : Ctx} {i : Instr} (hc : c.team.comp = 0)
    (h1 : ∀ n, n = 256 ∨ n = 0x180 → readRange c (trunkState i) true (2 ^ 30) n = .bytes trunkImage) :
    checkTrunk c (trunkState i) (2 ^ 30) = .ok trunkImage := by
  have h2 : headFails (trunkState i) 0 trunkImage = none := by rfl
  have h3 : sizesSane trunkImage = true := by rfl
  have h4 : thTotal trunkImage = 0x180 := by rfl
  unfold checkTrunk
  rw [h1 256 (.inl rfl), hc]
  simp only [h2, h3, h4, Bool.not_true, Bool.false_eq_true, if_false]
  rw [h1 0x180 (.inr rfl)]
  simp only [trunk_sealed]

/-- The ticket at 0x5000 is live. -/
theorem ticket_live {i : Instr} {c : Ctx} (h : peek (trunkState i) c.place.core c.team.comp c.team.level .rw 0x5000 = .ok 0x5000 false)
    (hf : fetchedAt (trunkState i) c (0x5000 + 2 ^ 57) = none) (hb : behindOlder c (trunkState i) true 0x5000 8 = false)
    (he : homeFails (trunkState i) 0x5000 8 = false)
    (hr : Bits.ofLe (readBytes (trunkState i) c.place.core c.team.comp true 0x5000 8) = liveTicket (thGen trunkImage)) :
    TicketLive (trunkState i) c trunkImage := by
  have ht : thTicket trunkImage % 2 ^ 57 = 0x5000 := by rfl
  unfold TicketLive
  rw [ht]
  refine ⟨by rfl, 0x5000, false, h, ?_⟩
  rw [hf]
  exact ⟨hb, by decide, he, hr⟩

theorem witness_TrunkInstructions_tdisc : ∃ c b, Ready (.tdisc ⟨0, 0, 20, 0⟩) (trunkState (.tdisc ⟨0, 0, 20, 0⟩)) c ∧
    c.team.live ≠ 0 ∧ TrunkGood (trunkState (.tdisc ⟨0, 0, 20, 0⟩)) c false b ∧ TicketLive (trunkState (.tdisc ⟨0, 0, 20, 0⟩)) c b :=
  ⟨ctxOf (.tdisc ⟨0, 0, 20, 0⟩) rfl, trunkImage, ⟨rfl, rfl⟩, by decide +kernel,
    ⟨rfl, .inl (trunk_checked (c := ctxOf (.tdisc ⟨0, 0, 20, 0⟩) rfl) rfl (by rintro n (rfl | rfl) <;> rfl))⟩, ticket_live rfl rfl rfl rfl rfl⟩

theorem witness_TrunkInstructions_resume : ∃ c b, Ready (.resume ⟨0, 30, 20, 0⟩) (trunkState (.resume ⟨0, 30, 20, 0⟩)) c ∧
    TrunkGood (trunkState (.resume ⟨0, 30, 20, 0⟩)) c true b ∧ TicketLive (trunkState (.resume ⟨0, 30, 20, 0⟩)) c b ∧
    FoldFits (trunkState (.resume ⟨0, 30, 20, 0⟩)) c b :=
  ⟨ctxOf (.resume ⟨0, 30, 20, 0⟩) rfl, trunkImage, ⟨rfl, rfl⟩,
    ⟨rfl, .inl (trunk_checked (c := ctxOf (.resume ⟨0, 30, 20, 0⟩) rfl) rfl (by rintro n (rfl | rfl) <;> rfl))⟩, ticket_live rfl rfl rfl rfl rfl,
    .inr rfl, rfl, rfl, .inl fun k hk => by interval_cases k <;> rfl⟩

theorem witness_TrunkInstructions_tcopy : ∃ c b, Ready (.tcopy ⟨0, 24, 20, 22⟩) (trunkState (.tcopy ⟨0, 24, 20, 22⟩)) c ∧
    TrunkGood (trunkState (.tcopy ⟨0, 24, 20, 22⟩)) c false b ∧ CopyFits (trunkState (.tcopy ⟨0, 24, 20, 22⟩)) c b ∧
    (region? (trunkState (.tcopy ⟨0, 24, 20, 22⟩)) c.team.region).isSome = true := by
  refine ⟨ctxOf (.tcopy ⟨0, 24, 20, 22⟩) rfl, trunkImage, ⟨rfl, rfl⟩,
    ⟨rfl, .inl (trunk_checked (c := ctxOf (.tcopy ⟨0, 24, 20, 22⟩) rfl) rfl (by rintro n (rfl | rfl) <;> rfl))⟩,
    ⟨rfl, rfl, rfl, ⟨le 8 (2 ^ 62 + 1), rfl, rfl⟩, rfl, ?_, .inr ⟨rfl, rfl⟩, ?_, ?_⟩, rfl⟩
  · have hp : pageParts (tcopyDst (ctxOf (.tcopy ⟨0, 24, 20, 22⟩) rfl)) (thTotal trunkImage) ++
        [(tcopyTicket (ctxOf (.tcopy ⟨0, 24, 20, 22⟩) rfl), 8)] = [(0x8000, 0x180), (0x9000, 8)] := by rfl
    intro p h
    rw [hp] at h
    simp only [List.mem_cons, List.not_mem_nil, or_false] at h
    rcases h with rfl | rfl
    · exact ⟨0x8000, false, rfl⟩
    · exact ⟨0x9000, false, rfl⟩
  · exact ⟨by decide +kernel, by decide +kernel⟩
  · exact ⟨by decide +kernel, by decide +kernel⟩

theorem witness_TrunkInstructions_tstat_good : ∃ c v, Ready (.tstat ⟨0, 30, 20, 0⟩) (trunkState (.tstat ⟨0, 30, 20, 0⟩)) c ∧
    trunkAt c % 256 = 0 ∧ checkTrunk c (trunkState (.tstat ⟨0, 30, 20, 0⟩)) (trunkAt c) = .ok trunkImage ∧ thTicket trunkImage % 2 ^ 57 % 8 = 0 ∧
    readRange c (trunkState (.tstat ⟨0, 30, 20, 0⟩)) true (thTicket trunkImage % 2 ^ 57) 8 = .bytes v :=
  ⟨ctxOf (.tstat ⟨0, 30, 20, 0⟩) rfl, le 8 (2 ^ 62 + 1), ⟨rfl, rfl⟩, rfl,
    trunk_checked (c := ctxOf (.tstat ⟨0, 30, 20, 0⟩) rfl) rfl (by rintro n (rfl | rfl) <;> rfl), rfl, rfl⟩

end Sys2Proof.Tests
end

/-! # Hint words (01 R8, 03 R36, R47)

Rules for `exec` of a hint instruction and for `hintsOf` of a run with one word more. -/

namespace Sys2Proof.Machine

open Sys2Proof.Spec

/-! ## A hint word joins the run of its issue -/

theorem performHint_of_cur {s : State} {u : Cur} (hcur : s.cur = some u) :
    performHint s = .next { s with cur := some { u with run := u.run ++ [(u.pc, u.word)], pc := (u.pc + 4) % 2 ^ 57 } } := by
  simp only [performHint, hcur]

/-- Every hint kind has the one meaning: what tells the kinds apart is read from the run afterwards, by `hintsOf`. -/
theorem exec_of_isHintInstr {i : Instr} (hi : isHintInstr i = true) (s : State) : exec i s = performHint s := by
  unfold isHintInstr at hi
  split at hi
  case h_11 => contradiction -- no hint kind
  all_goals rfl

/-! ## The kind of a hint word -/

theorem hintKind_of_bit25 {w : Word} (hb : w.getLsbD 25 = true) : hintKind w = 16 := by
  simp only [hintKind, hb, if_true]

theorem hintKind_of_not_bit25 {w : Word} (hb : w.getLsbD 25 = false) : hintKind w = Bits.fld w 21 4 := by
  simp only [hintKind, hb, Bool.false_eq_true, if_false]

/-! ## What a run says with one word more: the word's own field is set, and the others are those of the run before it -/

section
variable {w : Word} (run : List (Nat × Word)) (pc : Nat)

theorem hintsOf_append_himm (hk : hintKind w = 16) :
    hintsOf (run ++ [(pc, w)]) = { hintsOf run with himm := some (Bits.fld w 0 25) } := by
  simp only [hintsOf, List.foldl_append, List.foldl_cons, List.foldl_nil, hk]

theorem hintsOf_append_hprio (hk : hintKind w = 1) :
    hintsOf (run ++ [(pc, w)]) = { hintsOf run with hprio := some (Bits.fld w 13 8) } := by
  simp only [hintsOf, List.foldl_append, List.foldl_cons, List.foldl_nil, hk]

theorem hintsOf_append_hrnd (hk : hintKind w = 2) :
    hintsOf (run ++ [(pc, w)]) = { hintsOf run with hrnd := some (Bits.fld w 18 3) } := by
  simp only [hintsOf, List.foldl_append, List.foldl_cons, List.foldl_nil, hk]

theorem hintsOf_append_hscp (hk : hintKind w = 3) :
    hintsOf (run ++ [(pc, w)]) = { hintsOf run with hscp := some (Bits.fld w 18 3) } := by
  simp only [hintsOf, List.foldl_append, List.foldl_cons, List.foldl_nil, hk]

theorem hintsOf_append_hrlx (hk : hintKind w = 4) :
    hintsOf (run ++ [(pc, w)]) = { hintsOf run with hrlx := true } := by
  simp only [hintsOf, List.foldl_append, List.foldl_cons, List.foldl_nil, hk]

theorem hintsOf_append_hyld (hk : hintKind w = 5) :
    hintsOf (run ++ [(pc, w)]) = { hintsOf run with hyld := true } := by
  simp only [hintsOf, List.foldl_append, List.foldl_cons, List.foldl_nil, hk]

theorem hintsOf_append_hsig (hk : hintKind w = 7) :
    hintsOf (run ++ [(pc, w)]) = { hintsOf run with hsig := some (Bits.fld w 15 6) } := by
  simp only [hintsOf, List.foldl_append, List.foldl_cons, List.foldl_nil, hk]

end

/-- Settles O47: every hint instruction is `performHint`, and the last word of a run sets the field of its own kind. -/
theorem hintsJoinTheRun : Obligations.HintsJoinTheRun := by
  unfold Obligations.HintsJoinTheRun
  constructor
  · intro i hi s u hcur
    exact (exec_of_isHintInstr hi s).trans (performHint_of_cur hcur)
  · intro run pc w _
    have kind {n : Nat} (hb : w.getLsbD 25 = false) (hf : Bits.fld w 21 4 = n) : hintKind w = n :=
      (hintKind_of_not_bit25 hb).trans hf
    refine ⟨fun hb => ?himm, fun hb hf => ?hprio, fun hb hf => ?hrnd, fun hb hf => ?hscp,
      fun hb hf => ?hrlx, fun hb hf => ?hyld, fun hb hf => ?hsig⟩
    case himm => rw [hintsOf_append_himm run pc (hintKind_of_bit25 hb)]
    case hprio => rw [hintsOf_append_hprio run pc (kind hb hf)]
    case hrnd => rw [hintsOf_append_hrnd run pc (kind hb hf)]
    case hscp => rw [hintsOf_append_hscp run pc (kind hb hf)]
    case hrlx => rw [hintsOf_append_hrlx run pc (kind hb hf)]
    case hyld => rw [hintsOf_append_hyld run pc (kind hb hf)]
    case hsig => rw [hintsOf_append_hsig run pc (kind hb hf)]

end Sys2Proof.Machine

/-! # The checks on a control register (02 R22, R23, R31) -/

namespace Sys2Proof.Machine

theorem mfcCheck_of_unknown {n : Nat} (h : crLevels n = none) (c : Ctx) (s : State) : mfcCheck n c s = some 1 := by
  simp only [mfcCheck, h]

theorem mtcCheck_of_unknown {n : Nat} (h : crLevels n = none) (c : Ctx) (s : State) : mtcCheck n c s = some 1 := by
  simp only [mtcCheck, h]

theorem mfcCheck_of_levels {n r : Nat} {w : Option Nat} (h : crLevels n = some (r, w)) (c : Ctx) (s : State) :
    mfcCheck n c s =
      if c.team.level < r then some 2 else if beyondGrant s c.key n then some 7 else none := by
  simp only [mfcCheck, h]

theorem mtcCheck_of_readOnly {n r : Nat} (h : crLevels n = some (r, none)) (c : Ctx) (s : State) :
    mtcCheck n c s = if beyondGrant s c.key n then some 7 else some 1 := by
  simp [mtcCheck, h]

theorem mtcCheck_of_writable {n r w : Nat} (h : crLevels n = some (r, some w)) (c : Ctx) (s : State) :
    mtcCheck n c s =
      if c.team.level < w then some 2
      else if beyondGrant s c.key n then some 7
      else if crIllegal c.team n (c.s 0) then some 1 else none := by
  simp [mtcCheck, h]

/-- Settles O15: each clause is one branch of the check's equation for a number of its kind. -/
theorem controlRegisterChecks : Obligations.ControlRegisterChecks := by
  unfold Obligations.ControlRegisterChecks
  intro n c s
  refine ⟨fun h => ⟨mfcCheck_of_unknown h c s, mtcCheck_of_unknown h c s⟩, fun r w h => ?read, fun r h hb => ?readOnly,
    fun r w h => ?write⟩
  case read =>
    rw [mfcCheck_of_levels h]
    refine ⟨fun hl => if_pos hl, fun hl hb => ?_, fun hl hb => ?_⟩ <;> simp [Nat.not_lt.mpr hl, hb]
  case readOnly => simp [mtcCheck_of_readOnly h, hb]
  case write =>
    rw [mtcCheck_of_writable h]
    refine ⟨fun hl => if_pos hl, fun hl hb => ?_, fun hl hb hi => ?_, fun hl hb hi => ?_⟩
    · simp [Nat.not_lt.mpr hl, hb]
    · simp [Nat.not_lt.mpr hl, hb, hi]
    · simp [Nat.not_lt.mpr hl, hb, hi]

end Sys2Proof.Machine

/-! # Control registers: reads (02 R22 to R28, 05 R95) -/

namespace Sys2Proof.Machine

theorem exec_mfc (x : XF) (s : State) : exec (.mfc x) s = execMfc x s := rfl

/-! ## The fields of TEAMID, CREWID and CLG -/

theorem fld_ofNat (v : Nat) {lo n : Nat} (h : lo + n ≤ 32) : Bits.fld (BitVec.ofNat 32 v) lo n = v / 2 ^ lo % 2 ^ n := by
  have hpow : 2 ^ 32 = 2 ^ lo * 2 ^ (32 - lo) := by rw [← Nat.pow_add]; congr 1; omega
  rw [Bits.fld, BitVec.toNat_ofNat, Nat.shiftRight_eq_div_pow, hpow, Nat.mod_mul_right_div_self,
    Nat.mod_mod_of_dvd _ (Nat.pow_dvd_pow 2 (by omega))]

theorem teamId_fields {s : State} {t : Team} {p : Place} (hp : t.place = some p) (hidx : t.idx < 16) (hbench : p.bench < 8)
    (hslot : p.slot < 64) (hcore : logicalCore s t.comp p.core < 64) (hlevel : t.level < 4) :
    let w := teamId s t
    Bits.fld w 0 4 = t.idx ∧ Bits.fld w 4 3 = p.bench ∧ Bits.fld w 7 6 = p.slot ∧ Bits.fld w 13 6 = logicalCore s t.comp p.core ∧
      Bits.fld w 19 2 = t.level ∧ Bits.fld w 21 11 = 0 := by
  simp only [teamId, hp, Option.getD_some]
  refine ⟨?_, ?_, ?_, ?_, ?_, ?_⟩ <;> rw [fld_ofNat _ (by decide)] <;> omega

theorem crewId_fields {w : Crew} (hserial : w.serial < 2 ^ 20) (hpos : 1 ≤ w.teams) (hteams : w.teams ≤ 16) (hcomp : w.comp < 16) :
    let r := crewId w
    Bits.fld r 0 20 = w.serial ∧ Bits.fld r 20 4 + 1 = w.teams ∧ Bits.fld r 24 4 = w.comp ∧ Bits.fld r 28 4 = 0 := by
  simp only [crewId]
  refine ⟨?_, ?_, ?_, ?_⟩ <;> rw [fld_ofNat _ (by decide)] <;> omega

theorem clg_of_no_rank {s : State} {k c g : Nat} (h : rankOf s k c g = none) : clg s k c g = 0 := by
  simp only [clg, h]

theorem clg_fields {s : State} {k c g r : Nat} (h : rankOf s k c g = some r) (hrank : r < 64)
    (hsize : (groupOf s k g).members.length ≤ 64) (hspan : groupSpan s k c g < 4) :
    let w := clg s k c g
    Bits.fld w 0 1 = 1 ∧ Bits.fld w 1 6 = r ∧ Bits.fld w 7 6 = (groupOf s k g).members.length - 1 ∧
      Bits.fld w 13 2 = groupSpan s k c g ∧ Bits.fld w 15 17 = 0 := by
  simp only [clg, h]
  refine ⟨?_, ?_, ?_, ?_, ?_⟩ <;> rw [fld_ofNat _ (by decide)] <;> omega

/-! ## Which register a number reads -/

section
variable (s : State) (key : Nat) (t : Team) (p : Place)

theorem readCr_teamId : readCr s key t p 0 = teamId s t := rfl

theorem readCr_crewId : readCr s key t p 1 = ((crew? s (crewOf key)).map crewId).getD 0 := rfl

theorem readCr_laneMask : readCr s key t p 2 = t.live := rfl

theorem readCr_clkLo : readCr s key t p 0x020 = BitVec.ofNat 32 (clk s p.core) := rfl

theorem readCr_clkHi : readCr s key t p 0x021 = t.clkSnap.getD (BitVec.ofNat 32 (clk s p.core / 2 ^ 32)) := rfl

theorem readCr_clg {g : Nat} (h : g < 8) : readCr s key t p (0x200 + g) = clg s p.core t.comp g := by
  interval_cases g <;> rfl

end

/-! ## MFC -/

/-- A team without what MFC writes (02 R27, 05 R95). -/
def Team.sansSnap (t : Team) : Team := { t with s := [], clkSnap := none }

theorem snapCr_clkSnap (s : State) (p : Place) (n : Nat) (t : Team) :
    (snapCr s p n t).clkSnap = if n = 0x020 then some (BitVec.ofNat 32 (clk s p.core / 2 ^ 32))
      else if n = 0x021 then none else t.clkSnap := by
  unfold snapCr
  split_ifs <;> rfl

theorem snapCr_s (s : State) (p : Place) (n : Nat) (t : Team) : (snapCr s p n t).s = t.s := by
  unfold snapCr
  split_ifs <;> rfl

theorem snapCr_kept (s : State) (p : Place) (n : Nat) (t : Team) :
    (snapCr s p n t).kept.sansSnap = t.kept.sansSnap ∧ (snapCr s p n t).m = t.m ∧ (snapCr s p n t).front = t.front := by
  unfold snapCr
  split_ifs <;> exact ⟨rfl, rfl, rfl⟩

theorem clkSnap_kept {x y : Team} (h : y.kept = x.kept) : y.clkSnap = x.clkSnap := congrArg (·.clkSnap) h

theorem setScalars_clkSnap (xs : List Word) (t : Team) (d : Nat) : (Team.setScalars t d xs).clkSnap = t.clkSnap := by
  induction xs generalizing t d with
  | nil => rfl
  | cons x xs ih => exact ih ..

theorem sansSnap_of_sansS {t u : Team} (h : t.sansS = u.sansS) : t.sansSnap = u.sansSnap :=
  congrArg (fun t : Team => { t with clkSnap := none }) h

section
variable {c : Ctx} {u : State} (xs : List Word)

/-- A write of scalars moves nothing else, whatever has changed before it. -/
theorem Effect.writeScalars {g : Team → Team} {s : State} (h : Effect g c s u)
    (hg : ∀ x y : Team, x.sansS = y.sansS → g x = g y) : Effect g c s (writeScalars c xs u) := by
  unfold Machine.writeScalars
  split
  · exact h.onTeam fun x => ⟨hg _ _ (setScalars_kept xs x _).1, (setScalars_kept xs x _).2⟩
  · exact h

theorem writeScalars_scalarsWritten {x : Team} (hx : team? u c.key = some x) (hs : x.s = c.team.s) :
    ScalarsWritten c xs (writeScalars c xs u) := by
  obtain ⟨y, hy, hr⟩ := (writeScalars_result (c := { c with team := x }) (xs := xs) hx).2.1
  refine ⟨y, hy, fun r => (hr r).trans ?_⟩
  simp only [Team.scalar, hs]

theorem writeScalars_clkSnap {x : Team} (hx : team? u c.key = some x) :
    ∃ y, team? (writeScalars c xs u) c.key = some y ∧ y.clkSnap = x.clkSnap := by
  unfold writeScalars
  split
  · exact ⟨_, by rw [team?_onTeam, if_pos rfl, hx]; rfl, setScalars_clkSnap ..⟩
  · exact ⟨x, hx, rfl⟩

theorem bench_writeScalars (k : Nat) : bench (writeScalars c xs u) k = bench u k := by
  unfold writeScalars
  split
  · exact bench_onTeam ..
  · rfl

end

/-- What MFC of register `n` makes of the state. -/
def mfcEffect (c : Ctx) (n : Nat) (s : State) : State :=
  writeScalars c [readCr s c.key c.team c.place n] (onTeam s c.key (snapCr s c.place n))

theorem exec_mfc_of_ready {x : XF} {s : State} {c : Ctx} (h : Ready (.mfc x) s c) :
    exec (.mfc x) s = .next (conclude c { s := mfcEffect c x.k.toNat s }) :=
  (exec_mfc x s).trans (performPriv_go (priv := mfcCheck x.k.toNat) h.1 h.2 rfl)

section
variable {c : Ctx} {s : State} (ht : team? s c.key = some c.team) (n : Nat)
include ht

theorem team?_onTeam_snapCr : team? (onTeam s c.key (snapCr s c.place n)) c.key = some (snapCr s c.place n c.team) := by
  rw [team?_onTeam, if_pos rfl, ht, Option.map_some]

theorem mfcEffect_effect : Effect Team.sansSnap c s (mfcEffect c n s) :=
  ((Effect.refl ht).onTeam (snapCr_kept s c.place n)).writeScalars _ fun _ _ => sansSnap_of_sansS

theorem mfcEffect_scalarsWritten :
    ScalarsWritten c [readCr s c.key c.team c.place n] (mfcEffect c n s) :=
  writeScalars_scalarsWritten _ (team?_onTeam_snapCr ht n) (snapCr_s ..)

theorem mfcEffect_clkSnap :
    ∃ y, team? (mfcEffect c n s) c.key = some y ∧ y.clkSnap = (snapCr s c.place n c.team).clkSnap :=
  writeScalars_clkSnap _ (team?_onTeam_snapCr ht n)

end

theorem bench_mfcEffect (c : Ctx) (n : Nat) (s : State) (k : Nat) : bench (mfcEffect c n s) k = bench s k :=
  (bench_writeScalars ..).trans (bench_onTeam ..)

/-- Settles O13: MFC by its effect on the state, each read-only register by the fields of the sum that makes its word. -/
theorem mfcReads : Obligations.MfcReads := by
  unfold Obligations.MfcReads
  refine ⟨fun x s c h => ?mfc, fun s key t p hp hidx hbench hslot hcore hlevel => ?teamId,
    fun s key t p w hw hserial hpos hteams hcomp => ?crewId, fun s key t p => ?maskAndClk, fun s key t p g hg => ?clg⟩
  case mfc =>
    have ht := (context_team h.1).1
    have hconc := conclude_concludes c { s := mfcEffect c x.k.toNat s } rfl rfl (fun _ e => by cases e)
    obtain ⟨y, hy, hsnap⟩ := mfcEffect_clkSnap ht x.k.toNat
    obtain ⟨u, hu, hkept, _⟩ := hconc.own y hy
    refine ⟨_, u, exec_mfc_of_ready h, (mfcEffect_scalarsWritten ht _).concludes hconc, .concludes (bench_mfcEffect c _ s) hconc,
      (mfcEffect_effect ht _).concludes hconc, hu, ?_⟩
    calc u.clkSnap = y.clkSnap := clkSnap_kept hkept
      _ = _ := hsnap.trans (snapCr_clkSnap ..)
  case teamId =>
    rw [readCr_teamId]
    exact teamId_fields hp hidx hbench hslot hcore hlevel
  case crewId =>
    rw [readCr_crewId, hw]
    exact crewId_fields hserial hpos hteams hcomp
  case maskAndClk => exact ⟨readCr_laneMask s key t p, readCr_clkLo s key t p, readCr_clkHi s key t p⟩
  case clg =>
    rw [readCr_clg s key t p hg]
    exact ⟨clg_of_no_rank, fun r => clg_fields⟩

end Sys2Proof.Machine

/-! # Control registers: writes (02 R23, R26 to R30) -/

namespace Sys2Proof.Machine

theorem exec_mtc (x : XF) (s : State) : exec (.mtc x) s = execMtc x s := rfl

theorem exec_mtc_of_ready {x : XF} {s : State} {c : Ctx} (h : Ready (.mtc x) s c) :
    exec (.mtc x) s = .next (conclude c { s := writeCr s c.key c.team c.place x.k.toNat (c.s 0) }) :=
  (exec_mtc x s).trans (performPriv_go (priv := mtcCheck x.k.toNat) h.1 h.2 rfl)

/-! ## The numbers that MTC admits -/

/-- The writable registers that a team holds itself, PRIO apart, which is clamped (02 R26). -/
def teamCrs : List Nat := [0x010, 0x011, 0x012, 0x014, 0x015, 0x030, 0x031, 0x032, 0x033, 0x040, 0x041, 0x050]

theorem isTs_iff {n : Nat} : isTs n = true ↔ 0x100 ≤ n ∧ n ≤ 0x10F := by
  simp [isTs]

/-- The writable registers by who holds them: the team, its crew, its core, or its compartment. -/
theorem crLevels_writable {n r w : Nat} (h : crLevels n = some (r, some w)) :
    n ∈ teamCrs ∨ n = 0x018 ∨ isTs n = true ∨ (0x208 ≤ n ∧ n ≤ 0x20F) ∨ (0x300 ≤ n ∧ n ≤ 0x305) := by
  rw [isTs_iff]
  unfold crLevels at h
  simp only [teamCrs, List.mem_cons, List.not_mem_nil, or_false]
  split_ifs at h <;>
    simp only [Bool.or_eq_true, Bool.and_eq_true, decide_eq_true_eq, Option.some.injEq, Prod.mk.injEq, reduceCtorEq,
      and_false] at * <;>
    omega

theorem mtcCheck_passed {n : Nat} {c : Ctx} {s : State} (h : mtcCheck n c s = none) :
    (∃ r w, crLevels n = some (r, some w)) ∧ beyondGrant s c.key n = false := by
  unfold mtcCheck at h
  split at h
  · cases h
  · rename_i r w hl
    split_ifs at h with hlow hgrant hro hill
    obtain ⟨w, rfl⟩ := Option.ne_none_iff_exists'.mp (by simpa using hro)
    exact ⟨⟨r, w, hl⟩, by simpa using hgrant⟩

/-! ## A write by the holder of the register -/

section
variable (s : State) (key : Nat) (t : Team) (p : Place) {n : Nat} (v : Word)

theorem writeCr_of_mem_teamCrs (hn : n ∈ teamCrs) :
    ∃ F : Team → Team, writeCr s key t p n v = onTeam s key F ∧ (∀ u, (F u).v = u.v ∧ (F u).s = u.s ∧ (F u).p = u.p) ∧
      ∀ s' u, readCr s' key (F u) p n = v := by
  simp only [teamCrs, List.mem_cons, List.not_mem_nil, or_false] at hn
  obtain rfl | rfl | rfl | rfl | rfl | rfl | rfl | rfl | rfl | rfl | rfl | rfl := hn <;>
    exact ⟨_, rfl, fun _ => ⟨rfl, rfl, rfl⟩, fun _ _ => rfl⟩

theorem writeCr_prio : writeCr s key t p 0x018 v = onTeam s key fun u => { u with prio := clampPrio s t v } := rfl

theorem writeCr_ts (hn : isTs n = true) :
    writeCr s key t p n v =
      onCrew s (crewOf key) fun c => { c with tiles := c.tiles.modify (n - 0x100) fun x => { x with ts := v } } := by
  obtain ⟨hlo, hhi⟩ := isTs_iff.mp hn
  interval_cases n <;> rfl

theorem readCr_ts (hn : isTs n = true) :
    readCr s key t p n = (((crewTiles s key)[n - 0x100]?).map (·.ts)).getD 0 := by
  obtain ⟨hlo, hhi⟩ := isTs_iff.mp hn
  interval_cases n <;> rfl

theorem writeCr_clwin (hlo : 0x208 ≤ n) (hhi : n ≤ 0x20F) :
    writeCr s key t p n v =
      setCore s p.core { core s p.core with clwin := Tab.put (core s p.core).clwin (n - 0x208) v } := by
  interval_cases n <;> rfl

theorem readCr_clwin (hlo : 0x208 ≤ n) (hhi : n ≤ 0x20F) :
    readCr s key t p n = Tab.getD (core s p.core).clwin (n - 0x208) 0 := by
  interval_cases n <;> rfl

theorem writeCr_heap (hlo : 0x300 ≤ n) (hhi : n ≤ 0x305) :
    writeCr s key t p n v = setComp s t.comp (writeHeap (comp s t.comp) n v) := by
  interval_cases n <;> rfl

end

/-! ## The staged heap window (02 R30, log 79) -/

theorem loW_setLo (a : Nat) (v : Word) : loW (setLo a v) = v := by
  apply BitVec.eq_of_toNat_eq
  have := v.isLt
  rw [loW, setLo, BitVec.toNat_ofNat]
  omega

theorem hiW_setHi (a : Nat) (v : Word) : hiW (setHi a v) = v := by
  apply BitVec.eq_of_toNat_eq
  have := v.isLt
  rw [hiW, setHi, BitVec.toNat_ofNat]
  omega

theorem readCr_setComp_heap (s : State) (key : Nat) (t u : Team) (p : Place) {n : Nat} (v : Word) (hu : u.comp = t.comp)
    (hlo : 0x300 ≤ n) (hhi : n ≤ 0x305) :
    readCr (setComp s t.comp (writeHeap (comp s t.comp) n v)) key u p n = v := by
  have hc : comp (setComp s t.comp (writeHeap (comp s t.comp) n v)) u.comp = writeHeap (comp s t.comp) n v := by
    rw [comp_setComp, if_pos hu.symm]
  unfold readCr
  rw [hc]
  interval_cases n
  · exact loW_setLo ..
  · exact hiW_setHi ..
  · exact loW_setLo ..
  · exact hiW_setHi ..
  · exact loW_setLo ..
  · exact hiW_setHi ..

/-! ## What every write leaves -/

/-- A write of register `n` with `v` by team `t` has made `s'` of `s`: the register holds `v`, PRIO the clamped level, and the other
register files, the latches and memory are as they were. -/
structure CrWritten (s : State) (key : Nat) (t : Team) (p : Place) (n : Nat) (v : Word) (s' : State) : Prop where
  benches : ∀ k, bench s' k = bench s k
  mem : s'.mem = s.mem
  team : ∃ u, team? s' key = some u ∧ u.v = t.v ∧ u.s = t.s ∧ u.p = t.p ∧
    (n ≠ 0x018 → readCr s' key u p n = v) ∧ (n = 0x018 → u.prio = clampPrio s t v)

section
variable {s : State} {key : Nat} {t : Team} (ht : team? s key = some t) (p : Place) {n : Nat} (v : Word)
include ht

theorem crWritten_team (hn : n ∈ teamCrs) : CrWritten s key t p n v (writeCr s key t p n v) := by
  obtain ⟨F, hF, hfiles, hread⟩ := writeCr_of_mem_teamCrs s key t p v hn
  have hprio : n ≠ 0x018 := by rintro rfl; exact absurd hn (by decide)
  rw [hF]
  refine ⟨fun k => bench_onTeam .., onTeam_mem .., F t, ?_, (hfiles t).1, (hfiles t).2.1, (hfiles t).2.2, fun _ => hread _ t,
    fun h => absurd h hprio⟩
  rw [team?_onTeam, if_pos rfl, ht, Option.map_some]

theorem crWritten_prio : CrWritten s key t p 0x018 v (writeCr s key t p 0x018 v) := by
  rw [writeCr_prio]
  refine ⟨fun k => bench_onTeam .., onTeam_mem .., { t with prio := clampPrio s t v }, ?_, rfl, rfl, rfl, fun h => absurd rfl h,
    fun _ => rfl⟩
  rw [team?_onTeam, if_pos rfl, ht, Option.map_some]

theorem crWritten_ts (hn : isTs n = true) (hgrant : beyondGrant s key n = false) :
    CrWritten s key t p n v (writeCr s key t p n v) := by
  have hprio : n ≠ 0x018 := by rintro rfl; exact absurd hn (by decide)
  have hlt : n - 0x100 < (crewTiles s key).length := by simpa [beyondGrant, hn] using hgrant
  rw [writeCr_ts s key t p v hn]
  refine ⟨fun k => bench_onCrew .., onCrew_mem .., t, (team?_onCrew ..).trans ht, rfl, rfl, rfl, fun _ => ?_,
    fun h => absurd h hprio⟩
  rw [readCr_ts _ key t p hn]
  unfold crewTiles at hlt ⊢
  rw [crew?_onCrew, if_pos rfl]
  cases hw : crew? s (crewOf key) with
  | none => simp [hw] at hlt
  | some w =>
    have hlen : n - 0x100 < w.tiles.length := by simpa [hw] using hlt
    simp [hlen]

theorem crWritten_clwin (hlo : 0x208 ≤ n) (hhi : n ≤ 0x20F) : CrWritten s key t p n v (writeCr s key t p n v) := by
  rw [writeCr_clwin s key t p v hlo hhi]
  refine ⟨fun k => bench_setCore .., rfl, t, ht, rfl, rfl, rfl, fun _ => ?_, fun h => by omega⟩
  rw [readCr_clwin _ key t p hlo hhi, core_setCore, if_pos rfl, Tab.getD_put, if_pos rfl]

theorem crWritten_heap (hlo : 0x300 ≤ n) (hhi : n ≤ 0x305) : CrWritten s key t p n v (writeCr s key t p n v) := by
  rw [writeCr_heap s key t p v hlo hhi]
  exact ⟨fun k => bench_setComp .., rfl, t, ht, rfl, rfl, rfl, fun _ => readCr_setComp_heap s key t t p v rfl hlo hhi,
    fun h => by omega⟩

end

/-- Every write that passes the checks of 02 R23. -/
theorem crWritten_of_passed {s : State} {c : Ctx} {n : Nat} (ht : team? s c.key = some c.team) (h : mtcCheck n c s = none) (v : Word) :
    CrWritten s c.key c.team c.place n v (writeCr s c.key c.team c.place n v) := by
  obtain ⟨⟨r, w, hlevels⟩, hgrant⟩ := mtcCheck_passed h
  obtain hn | rfl | hn | ⟨hlo, hhi⟩ | ⟨hlo, hhi⟩ := crLevels_writable hlevels
  · exact crWritten_team ht c.place v hn
  · exact crWritten_prio ht c.place v
  · exact crWritten_ts ht c.place v hn hgrant
  · exact crWritten_clwin ht c.place v hlo hhi
  · exact crWritten_heap ht c.place v hlo hhi

/-- A control register's value rests on nothing that the end of an instruction moves. -/
theorem readCr_kept {s t : State} {x y : Team} (hs : t.kept = s.kept) (hx : y.kept = x.kept) (key : Nat) (p : Place) (n : Nat) :
    readCr t key y p n = readCr s key x p n :=
  calc readCr t key y p n = readCr t.kept key y.kept p n := rfl
    _ = readCr s.kept key x.kept p n := by rw [hs, hx]
    _ = readCr s key x p n := rfl

/-- Settles O14: the write reads back in the state that it makes, and the end of the instruction moves no part of it. -/
theorem mtcWrites : Obligations.MtcWrites := by
  unfold Obligations.MtcWrites
  intro x s c h
  obtain ⟨hbench, hmem, y, hy, hv, hsc, hp, hread, hprio⟩ :=
    crWritten_of_passed (context_team h.1).1 (checks_ok h.2).2.2.2 (c.s 0)
  have hconc := conclude_concludes c { s := writeCr s c.key c.team c.place x.k.toNat (c.s 0) } rfl rfl (fun _ e => by cases e)
  obtain ⟨u, hu, hkept, _⟩ := hconc.own y hy
  refine ⟨_, u, exec_mtc_of_ready h, hu, fun hn => ?read, fun hn => ?prio, ?v, ?s, ?p, ?mem, .concludes hbench hconc⟩
  case read => exact (readCr_kept hconc.rest hkept ..).trans (hread hn)
  case prio => exact (congrArg (·.prio) hkept : u.prio = y.prio).trans (hprio hn)
  case v => exact (congrArg (·.v) hkept : u.v = y.v).trans hv
  case s => exact (congrArg (·.s) hkept : u.s = y.s).trans hsc
  case p => exact (congrArg (·.p) hkept : u.p = y.p).trans hp
  case mem => exact (congrArg (·.mem) hconc.rest : _ = (writeCr s c.key c.team c.place x.k.toNat (c.s 0)).mem).trans hmem

end Sys2Proof.Machine

/-! # What an instruction captures at its issue (02 R13, R16, R17, 03 R38, R49, 15 R280) -/

namespace Sys2Proof.Machine

/-! ## The vector operands of a shape lie apart in what is captured -/

/-- A frame has a place of its own for every vector operand: slots differ, and no operand is wider than a slot (15 R280). -/
def SlotsApart (vs : List VOp) : Prop := (vs.map (·.slot)).Nodup ∧ ∀ o ∈ vs, o.n ≤ 4

@[simp] theorem slotsApart_nil : SlotsApart [] := ⟨List.nodup_nil, by simp⟩

@[simp] theorem slotsApart_a {a : BitVec 7} {n : Nat} (h : n ≤ 4) : SlotsApart [⟨0, a, n⟩] := by
  simp [SlotsApart, h]

@[simp] theorem slotsApart_ab {a b : BitVec 7} {n m : Nat} (hn : n ≤ 4) (hm : m ≤ 4) : SlotsApart [⟨0, a, n⟩, ⟨1, b, m⟩] := by
  simp [SlotsApart, hn, hm]

@[simp] theorem slotsApart_ad {a d : BitVec 7} {n m : Nat} (hn : n ≤ 4) (hm : m ≤ 4) : SlotsApart [⟨0, a, n⟩, ⟨2, d, m⟩] := by
  simp [SlotsApart, hn, hm]

@[simp] theorem slotsApart_abd {a b d : BitVec 7} {n : Nat} (h : n ≤ 4) : SlotsApart [⟨0, a, n⟩, ⟨1, b, n⟩, ⟨2, d, n⟩] := by
  simp [SlotsApart, h]

@[simp] theorem scratchRegs_le (sco : BitVec 3) : Shape.scratchRegs sco ≤ 4 := by
  unfold Shape.scratchRegs
  split_ifs <;> decide

@[simp] theorem slotsApart_pmov (x : XF) : SlotsApart (Shape.pmov x).vs := by
  unfold Shape.pmov
  dsimp only
  split_ifs
  · exact slotsApart_nil
  · exact slotsApart_nil
  · exact slotsApart_nil
  · exact slotsApart_a (by decide)

@[simp] theorem slotsApart_cvt (x : V3) : SlotsApart (Shape.cvt x).vs :=
  slotsApart_a (by split_ifs <;> decide)

theorem slotsApart_shape (i : Instr) : SlotsApart i.shape.vs := by
  unfold Instr.shape
  split
  all_goals simp [Shape.v3, Shape.v3u, Shape.v3d, Shape.v3n, Shape.v3nd, Shape.vi, Shape.p, Shape.pu, Shape.p2, Shape.p1, Shape.s3, Shape.s2,
    Shape.sA, Shape.sD, Shape.s0, Shape.si, Shape.ld, Shape.st, Shape.atom, Shape.parking, Shape.laneid, Shape.psig,
    Shape.bcast, Shape.lanerd, Shape.mfc, Shape.mtc, Shape.dsqrt, Shape.tagfull, Shape.bra, Shape.call, Shape.ret, Shape.jmpi,
    Shape.calli, Shape.exit, Shape.brk, Shape.spawn, Shape.sleep, Shape.binfl, Shape.suspend, Shape.tcopy, Shape.cljoin,
    Shape.clleave, Shape.rtr, Shape.replay, Shape.tlbi, Shape.harvest, Shape.park, Shape.scall, Shape.lds, Shape.sts,
    Shape.fence, Shape.flushr, Shape.invr, Shape.pref, Shape.trdv, Shape.twrv, Shape.engine]

/-! ## What a table of groups holds -/

theorem get?_map_of_mem {α : Type} {f : Nat → Nat} (hf : Function.Injective f) (g : Nat → α) {l : List Nat} {j : Nat} (hj : j ∈ l) :
    Tab.get? (l.map fun j => (f j, g j)) (f j) = some (g j) := by
  induction l with
  | nil => simp at hj
  | cons k l ih =>
    rw [List.map_cons, Tab.get?]
    split
    · rename_i hk; rw [hf hk]
    · rename_i hk
      exact ih ((List.mem_cons.mp hj).resolve_left fun h => hk (h ▸ rfl))

theorem get?_eq_none_of_forall_ne {α : Type} {t : Tab α} {k : Nat} (h : ∀ e ∈ t, e.1 ≠ k) : Tab.get? t k = none := by
  induction t with
  | nil => rfl
  | cons e t ih =>
    obtain ⟨i, x⟩ := e
    rw [Tab.get?, if_neg (h _ List.mem_cons_self), ih fun e he => h e (List.mem_cons_of_mem _ he)]

/-- Each register of each operand has its own key in what is captured. -/
theorem get?_captured {α : Type} (g : VOp → Nat → α) {vs : List VOp} (h : SlotsApart vs) {o : VOp} (ho : o ∈ vs) {j : Nat}
    (hj : j < o.n) :
    Tab.get? (vs.flatMap fun o => (List.range o.n).map fun j => (4 * o.slot + j, g o j)) (4 * o.slot + j) = some (g o j) := by
  obtain ⟨hslots, hwide⟩ := h
  induction vs with
  | nil => cases ho
  | cons x vs ih =>
    rw [List.map_cons, List.nodup_cons] at hslots
    rw [List.flatMap_cons, Tab.get?_append]
    obtain rfl | ho := List.mem_cons.mp ho
    · rw [get?_map_of_mem (f := fun j => 4 * o.slot + j) (fun a b => Nat.add_left_cancel) (g o) (List.mem_range.mpr hj)]
      rfl
    · have hne : x.slot ≠ o.slot := fun e => hslots.1 (e ▸ List.mem_map_of_mem ho)
      have hx := hwide x List.mem_cons_self
      have hon := hwide o (List.mem_cons_of_mem _ ho)
      rw [get?_eq_none_of_forall_ne, ih ho hslots.2 (fun o h => hwide o (List.mem_cons_of_mem _ h))]
      · rfl
      · simp only [List.mem_map, List.mem_range]
        rintro _ ⟨i, hi, rfl⟩
        dsimp only
        omega

/-! ## The operands -/

/-- A lane of a captured operand: vz, a latch, or a register of the team (02 R14, R17, 03 R38). -/
theorem operandLane_eq (s : State) (t : Team) (p : Place) (code j l : Nat) :
    operandLane s t p (if code = 124 then 124 else code + j) l =
      if code = 124 ∨ code + j = 124 then {}
      else if 120 ≤ code + j then (latch (bench s p.benchNo) (code + j - 120)).lanes.getD l {}
      else Team.reg t (code + j) l := by
  unfold operandLane
  by_cases h : code = 124 <;> simp [h]

/-- A context's vector operand is the lane that it captured. -/
theorem ctxV_capture {c : Ctx} {s : State} {t : Team} {p : Place} {h : Shape} (hcap : c.cap = capture s t p h) (hvs : SlotsApart h.vs)
    {o : VOp} (ho : o ∈ h.vs) {j l : Nat} (hj : j < o.n) (hl : l < 32) :
    c.v o.slot j l = operandLane s t p (if o.code.toNat = 124 then 124 else o.code.toNat + j) l := by
  unfold Ctx.v Tab.getD
  rw [hcap]
  simp only [capture]
  rw [get?_captured (fun o j => laneList.map fun i => operandLane s t p (if o.code.toNat = 124 then 124 else o.code.toNat + j) i)
    hvs ho hj, Option.getD_some, laneList_get _ _ _ hl]

/-! ## The issue -/

/-- A first issue, no replay and nothing parked: it captures the operands as they stand, under the team's guard (15 R280, log 76). -/
theorem context_first {h : Shape} {s : State} {c : Ctx} (e : context h s = some c) (hr : c.cur.replay = none)
    (hp : parked? c.team c.cur = none) :
    c.cap = capture s c.team c.place h ∧ c.carry = (c.team.carryv, c.team.carrys) ∧
      (c.gmask, c.gleft) = guardOf c.team c.hints c.cur.mask ∧
      c.act = if c.gleft = 0 then c.cur.mask else c.cur.mask &&& c.gmask := by
  unfold context at e
  split at e
  · cases e
  · split at e
    · cases e
    · split at e
      · cases e
      · injection e with e
        subst e
        dsimp only at hr hp ⊢
        rw [hr, hp]
        exact ⟨rfl, rfl, rfl, rfl⟩

section
variable {t : Team} {hints : Hints} (mask : Word)

theorem guardOf_in_span (h : t.guardLeft ≠ 0) : guardOf t hints mask = (t.guardMask, t.guardLeft) := by
  unfold guardOf
  split <;> simp [h]

theorem guardOf_without_hgrd (h : hints.hgrd = none) : guardOf t hints mask = (t.guardMask, t.guardLeft) := by
  simp only [guardOf, h]

theorem guardOf_begins {w : Word} (hw : hints.hgrd = some w) (h : t.guardLeft = 0) :
    guardOf t hints mask =
      (mask &&& (if w.getLsbD 16 then ~~~(Team.pred t (Bits.fld w 17 4)) else Team.pred t (Bits.fld w 17 4)),
        Bits.fld w 13 3 + 1) := by
  simp [guardOf, hw, h]

end

/-- Settles O49: the operands by the table that an issue captures, the lanes by the guard it issues under. -/
theorem operandsAtIssue : Obligations.OperandsAtIssue := by
  unfold Obligations.OperandsAtIssue
  intro i s c hc hr hp
  obtain ⟨hcap, hcarry, hguard, hact⟩ := context_first hc hr hp
  obtain ⟨ht, _, _, _, hplace⟩ := context_team hc
  refine ⟨hcarry, fun o ho j l hj hl => ?lane, ?scalars, ht, hplace, fun hg h0 => ?plain, fun h0 => ?inSpan,
    fun w hg h0 => ?begins⟩
  case lane => rw [ctxV_capture hcap (slotsApart_shape i) ho hj hl, operandLane_eq]
  case scalars => rw [hcap]; rfl
  case plain =>
    rw [guardOf_without_hgrd _ hg, Prod.mk.injEq] at hguard
    rw [hact, hguard.2, h0, if_pos rfl]
  case inSpan =>
    rw [guardOf_in_span _ h0, Prod.mk.injEq] at hguard
    rw [hact, hguard.1, hguard.2, if_neg h0]
  case begins =>
    rw [guardOf_begins _ hg h0, Prod.mk.injEq] at hguard
    obtain ⟨hgmask, hgleft⟩ := hguard
    refine ⟨hgleft, ?_⟩
    rw [hact, hgleft, if_neg (Nat.succ_ne_zero _), hgmask, ← BitVec.and_assoc, BitVec.and_self]

end Sys2Proof.Machine

/-! # Decoding and encoding (03 R36, R37, R51 to R53)

The opcode map names an instruction for a major and a minor, and the encoder packs the same two numbers back: so the parser undoes
the encoder, the encoder undoes the parser, and the decoder keeps of the parser's answers those whose fields R53 allows. -/

namespace Sys2Proof

open Bits

/-! ## The encoder packs the numbers under which the opcode map names an instruction (03 R51, R52) -/

section
variable {m f : Nat} {i : Instr}

theorem encode_of_v3Instr {x : V3} (h : v3Instr m f x = some i) :
    i.encoded = true ∧ encode i = packV3 (BitVec.ofNat 6 m) x (BitVec.ofNat 3 f) := by
  unfold v3Instr at h
  split at h
  case h_15 => cases h
  all_goals split at h <;> cases h <;> exact ⟨rfl, rfl⟩

theorem encode_of_viInstr {x : VI} (h : viInstr m f x = some i) :
    i.encoded = true ∧ encode i = packVI (BitVec.ofNat 6 m) x (BitVec.ofNat 3 f) := by
  unfold viInstr at h
  split at h
  · split at h <;> cases h <;> exact ⟨rfl, rfl⟩
  · cases h

theorem encode_of_pInstr {x : P3} (h : pInstr m f x = some i) :
    i.encoded = true ∧ encode i = packP (BitVec.ofNat 6 m) x (BitVec.ofNat 3 f) := by
  unfold pInstr at h
  split at h
  case h_4 => cases h
  all_goals split at h <;> cases h <;> exact ⟨rfl, rfl⟩

theorem encode_of_sInstr {x : SF} (h : sInstr m f x = some i) :
    i.encoded = true ∧ encode i = packS (BitVec.ofNat 6 m) x (BitVec.ofNat 7 f) := by
  unfold sInstr at h
  split at h
  case h_8 => cases h
  all_goals split at h <;> cases h <;> exact ⟨rfl, rfl⟩

theorem encode_of_siInstr {x : SI} (h : siInstr m f x = some i) :
    i.encoded = true ∧ encode i = packSI (BitVec.ofNat 6 m) x (BitVec.ofNat 3 f) := by
  unfold siInstr at h
  split at h
  · split at h <;> cases h <;> exact ⟨rfl, rfl⟩
  · cases h

theorem encode_of_xInstr {x : XF} (h : xInstr m x = some i) : i.encoded = true ∧ encode i = packX (BitVec.ofNat 6 m) x := by
  unfold xInstr at h
  split at h <;> cases h <;> exact ⟨rfl, rfl⟩

theorem encode_of_mInstr {x : MF} (h : mInstr m x = some i) : i.encoded = true ∧ encode i = packM (BitVec.ofNat 6 m) x := by
  unfold mInstr at h
  split at h <;> cases h <;> exact ⟨rfl, rfl⟩

theorem encode_of_atInstr {o : BitVec 2} {x : AT} (h : atInstr f o x = some i) :
    i.encoded = true ∧ encode i = packAT o x (BitVec.ofNat 5 f) := by
  unfold atInstr at h
  split at h <;> cases h <;> exact ⟨rfl, rfl⟩

theorem encode_of_smInstr {k : BitVec 2} {x : SF} (h : smInstr m f k x = some i) :
    i.encoded = true ∧ encode i = packS (BitVec.ofNat 6 m) x (BitVec.ofNat 5 f ++ k) := by
  unfold smInstr at h
  split at h
  · split at h <;> cases h <;> exact ⟨rfl, rfl⟩
  · cases h

theorem encode_of_skInstr {k : BitVec 4} {x : SF} (h : skInstr m f k x = some i) :
    i.encoded = true ∧ encode i = packS (BitVec.ofNat 6 m) x (BitVec.ofNat 3 f ++ k) := by
  unfold skInstr at h
  split at h
  case h_3 => cases h
  all_goals split at h <;> cases h <;> exact ⟨rfl, rfl⟩

theorem encode_of_sgInstr {k : BitVec 3} {x : SF} (h : sgInstr m f k x = some i) :
    i.encoded = true ∧ encode i = packS (BitVec.ofNat 6 m) x (BitVec.ofNat 3 f ++ k ++ 0#1) := by
  unfold sgInstr at h
  split at h
  · split at h <;> cases h <;> exact ⟨rfl, rfl⟩
  · cases h

theorem encode_of_sfInstr {k : BitVec 2} {sc : BitVec 3} {x : SF} (h : sfInstr m f k sc x = some i) :
    i.encoded = true ∧ encode i = packS (BitVec.ofNat 6 m) x (BitVec.ofNat 2 f ++ k ++ sc) := by
  unfold sfInstr at h
  split at h
  · split at h <;> cases h <;> exact ⟨rfl, rfl⟩
  · cases h

theorem encode_of_hInstr {p : BitVec 21} (h : hInstr f p = some i) :
    i.encoded = true ∧ encode i = packH (BitVec.ofNat 4 f) p := by
  unfold hInstr at h
  split at h <;> cases h <;> exact ⟨rfl, rfl⟩

end

/-! ## Packing what was unpacked: the formats whose FN, major or top bits the parser reads apart -/

theorem packS_sm_of (w : Word) : packS (w.extractLsb' 26 6) (SF.of w) (w.extractLsb' 20 5 ++ w.extractLsb' 18 2) = w := by
  rw [extractLsb'_append_adjacent w 18 5 2, packS_of]

theorem packS_sk_of (w : Word) : packS (w.extractLsb' 26 6) (SF.of w) (w.extractLsb' 22 3 ++ w.extractLsb' 18 4) = w := by
  rw [extractLsb'_append_adjacent w 18 3 4, packS_of]

theorem packS_sf_of (w : Word) :
    packS (w.extractLsb' 26 6) (SF.of w) (w.extractLsb' 23 2 ++ w.extractLsb' 21 2 ++ w.extractLsb' 18 3) = w := by
  rw [extractLsb'_append_adjacent w 21 2 2, extractLsb'_append_adjacent w 18 4 3, packS_of]

section
variable {w : Word}

theorem packS_sg_of (h : w.extractLsb' 18 1 = 0#1) :
    packS (w.extractLsb' 26 6) (SF.of w) (w.extractLsb' 22 3 ++ w.extractLsb' 19 3 ++ 0#1) = w := by
  rw [← h, extractLsb'_append_adjacent w 19 3 3, extractLsb'_append_adjacent w 18 6 1, packS_of]

theorem packAT_of (h : w.extractLsb' 28 4 = 0b1101#4) : packAT (w.extractLsb' 26 2) (AT.of w) (w.extractLsb' 0 5) = w := by
  simp only [packAT, AT.of]
  rw [← h, extractLsb'_append_adjacent w 26 4 2, extractLsb'_append_adjacent w 25 6 1, extractLsb'_append_adjacent w 18 7 7,
    extractLsb'_append_adjacent w 11 14 7, extractLsb'_append_adjacent w 5 21 6, extractLsb'_append_adjacent w 0 27 5]
  exact extractLsb'_zero_self w

theorem packB_of (hm : w.extractLsb' 26 6 = 0x1A#6) (hb : w.extractLsb' 25 1 = 0#1) :
    packB (BF.of w) (w.extractLsb' 19 1) = w := by
  simp only [packB, BF.of]
  rw [← hm, ← hb, extractLsb'_append_adjacent w 25 6 1, extractLsb'_append_adjacent w 21 7 4,
    extractLsb'_append_adjacent w 20 11 1, extractLsb'_append_adjacent w 19 12 1, extractLsb'_append_adjacent w 0 13 19]
  exact extractLsb'_zero_self w

theorem packH_of (hm : w.extractLsb' 26 6 = 0x3F#6) (hb : w.extractLsb' 25 1 = 0#1) :
    packH (w.extractLsb' 21 4) (w.extractLsb' 0 21) = w := by
  unfold packH
  rw [← hm, ← hb, extractLsb'_append_adjacent w 25 6 1, extractLsb'_append_adjacent w 21 7 4,
    extractLsb'_append_adjacent w 0 11 21]
  exact extractLsb'_zero_self w

theorem packHimm_of (hm : w.extractLsb' 26 6 = 0x3F#6) (hb : w.extractLsb' 25 1 = 1#1) : packHimm (w.extractLsb' 0 25) = w := by
  unfold packHimm
  rw [← hm, ← hb, extractLsb'_append_adjacent w 25 6 1, extractLsb'_append_adjacent w 0 7 25]
  exact extractLsb'_zero_self w

end

/-! ## The majors of the formats that have but one, or four (03 R51) -/

theorem eq_of_fmtOf_b : ∀ m : BitVec 6, fmtOf m.toNat = .b → m = 0x1A#6 := by decide

theorem eq_of_fmtOf_h : ∀ m : BitVec 6, fmtOf m.toNat = .h → m = 0x3F#6 := by decide

theorem eq_of_fmtOf_at : ∀ (a : BitVec 4) (o : BitVec 2), fmtOf (a ++ o).toNat = .at → a = 0b1101#4 := by decide

theorem eq_zero_of_ne_one : ∀ b : BitVec 1, b ≠ 1 → b = 0#1 := by decide

/-! ## The encoder undoes the parser -/

/-- What the parser reads from a word has that word as its encoding. -/
theorem encode_of_parse {w : Word} {i : Instr} (h : parse w = .ok i) : i.encoded = true ∧ encode i = w := by
  unfold parse at h
  dsimp only at h
  split at h
  case h_1 => cases h -- a major without a format
  case h_2 => -- V3
    split at h <;> cases h
    next hi => simpa only [BitVec.ofNat_toNat, BitVec.setWidth_eq, packV3_of] using encode_of_v3Instr hi
  case h_3 => -- VI
    split at h <;> cases h
    next hi => simpa only [BitVec.ofNat_toNat, BitVec.setWidth_eq, packVI_of] using encode_of_viInstr hi
  case h_4 => -- P
    split at h <;> cases h
    next hi => simpa only [BitVec.ofNat_toNat, BitVec.setWidth_eq, packP_of] using encode_of_pInstr hi
  case h_5 => -- S
    split at h <;> cases h
    next hi => simpa only [BitVec.ofNat_toNat, BitVec.setWidth_eq, packS_of] using encode_of_sInstr hi
  case h_6 => -- SI
    split at h <;> cases h
    next hi => simpa only [BitVec.ofNat_toNat, BitVec.setWidth_eq, packSI_of] using encode_of_siInstr hi
  case h_7 => -- X
    split at h <;> cases h
    next hi => simpa only [BitVec.ofNat_toNat, BitVec.setWidth_eq, packX_of] using encode_of_xInstr hi
  case h_8 => -- M
    split at h <;> cases h
    next hi => simpa only [BitVec.ofNat_toNat, BitVec.setWidth_eq, packM_of] using encode_of_mInstr hi
  case h_9 hfmt => -- AT
    have htop : w.extractLsb' 28 4 = 0b1101#4 := by
      rw [← extractLsb'_append_adjacent w 26 4 2] at hfmt
      exact eq_of_fmtOf_at _ _ hfmt
    split at h <;> cases h
    next hi => simpa only [BitVec.ofNat_toNat, BitVec.setWidth_eq, packAT_of htop] using encode_of_atInstr hi
  case h_10 hfmt => -- B
    have hmajor := eq_of_fmtOf_b _ hfmt
    split_ifs at h with hbit hlink <;> cases h
    all_goals have hpack := packB_of hmajor (eq_zero_of_ne_one _ hbit)
    · rw [hlink] at hpack
      exact ⟨rfl, hpack⟩
    · rw [eq_zero_of_ne_one _ hlink] at hpack
      exact ⟨rfl, hpack⟩
  case h_11 => -- S with a rejoin mask
    split at h <;> cases h
    next hi => simpa only [BitVec.ofNat_toNat, BitVec.setWidth_eq, packS_sm_of] using encode_of_smInstr hi
  case h_12 => -- S with a barrier or a tile
    split at h <;> cases h
    next hi => simpa only [BitVec.ofNat_toNat, BitVec.setWidth_eq, packS_sk_of] using encode_of_skInstr hi
  case h_13 => -- S with a claim group
    split_ifs at h with hbit
    split at h <;> cases h
    next hi =>
      simpa only [BitVec.ofNat_toNat, BitVec.setWidth_eq, packS_sg_of (eq_zero_of_ne_one _ hbit)] using encode_of_sgInstr hi
  case h_14 => -- S with an order and a scope
    split at h <;> cases h
    next hi => simpa only [BitVec.ofNat_toNat, BitVec.setWidth_eq, packS_sf_of] using encode_of_sfInstr hi
  case h_15 hfmt => -- H
    have hmajor := eq_of_fmtOf_h _ hfmt
    split_ifs at h with hbit
    · cases h
      exact ⟨rfl, packHimm_of hmajor hbit⟩
    · split at h <;> cases h
      next hi =>
        simpa only [BitVec.ofNat_toNat, BitVec.setWidth_eq, packH_of hmajor (eq_zero_of_ne_one _ hbit)] using encode_of_hInstr hi

end Sys2Proof

/-! ## The parser undoes the encoder -/

namespace Sys2Proof.Laws.Encoding

/-- The parser reads every encoded instruction back from its word. -/
theorem parse_encode (i : Instr) : Statement i := by
  cases i with
  | iadd => exact iadd _ | isub => exact isub _ | imul => exact imul _ | imulhI => exact imulhI _ | imulhN => exact imulhN _
  | imad => exact imad _ | iabsdI => exact iabsdI _ | isadN => exact isadN _ | iminI => exact iminI _ | imaxI => exact imaxI _
  | iminN => exact iminN _ | imaxN => exact imaxN _ | iaddsI => exact iaddsI _ | isubsI => exact isubsI _
  | iaddsN => exact iaddsN _ | isubsN => exact isubsN _ | and => exact and _ | or => exact or _ | xor => exact xor _
  | andn => exact andn _ | orn => exact orn _ | shl => exact shl _ | shr => exact shr _ | sar => exact sar _
  | rotl => exact rotl _ | bfxI => exact bfxI _ | bfxN => exact bfxN _ | bfi => exact bfi _ | prmb => exact prmb _
  | clz => exact clz _ | popc => exact popc _ | brev => exact brev _ | iaddi => exact iaddi _ | shli => exact shli _
  | shri => exact shri _ | sari => exact sari _ | andi => exact andi _ | ori => exact ori _ | xori => exact xori _
  | rotli => exact rotli _ | shfl => exact shfl _ | shflup => exact shflup _ | shfldn => exact shfldn _
  | shflx => exact shflx _ | tsumI => exact tsumI _ | tminI => exact tminI _ | tmaxI => exact tmaxI _
  | tscanI => exact tscanI _ | mov => exact mov _ | laneid => exact laneid _ | lidx => exact lidx _ | iseq => exact iseq _
  | isne => exact isne _ | isltI => exact isltI _ | isleI => exact isleI _ | isltN => exact isltN _ | isleN => exact isleN _
  | isany => exact isany _ | isnone => exact isnone _ | fseq => exact fseq _ | fsne => exact fsne _ | fslt => exact fslt _
  | fsle => exact fsle _ | fsun => exact fsun _ | fsord => exact fsord _ | fsnan => exact fsnan _ | fsinf => exact fsinf _
  | pand => exact pand _ | por => exact por _ | pxor => exact pxor _ | pnot => exact pnot _ | pany => exact pany _
  | pall => exact pall _ | psig => exact psig _ | pelect => exact pelect _ | sadd => exact sadd _ | ssub => exact ssub _
  | smul => exact smul _ | smulhI => exact smulhI _ | smulhN => exact smulhN _ | sdivI => exact sdivI _
  | sdivN => exact sdivN _ | sremI => exact sremI _ | sremN => exact sremN _ | sand => exact sand _ | sor => exact sor _
  | sxor => exact sxor _ | sandn => exact sandn _ | sshl => exact sshl _ | sshr => exact sshr _ | ssar => exact ssar _
  | sminI => exact sminI _ | smaxI => exact smaxI _ | sminN => exact sminN _ | smaxN => exact smaxN _ | sclz => exact sclz _
  | spopc => exact spopc _ | sseq => exact sseq _ | ssltI => exact ssltI _ | ssltN => exact ssltN _ | smov => exact smov _
  | sadd64 => exact sadd64 _ | ssub64 => exact ssub64 _ | sshl64 => exact sshl64 _ | sshr64 => exact sshr64 _
  | saddx => exact saddx _ | sbfx => exact sbfx _ | saddi => exact saddi _ | sandi => exact sandi _ | sori => exact sori _
  | sxori => exact sxori _ | sshli => exact sshli _ | sshri => exact sshri _ | ssari => exact ssari _
  | ssltiI => exact ssltiI _ | bcast => exact bcast _ | lanerd => exact lanerd _ | mfc => exact mfc _ | mtc => exact mtc _
  | pmov => exact pmov _ | fadd => exact fadd _ | fsub => exact fsub _ | fmul => exact fmul _ | fmin => exact fmin _
  | fmax => exact fmax _ | fabs => exact fabs _ | fneg => exact fneg _ | fcpsgn => exact fcpsgn _ | ffma => exact ffma _
  | ffms => exact ffms _ | fnfma => exact fnfma _ | fdiv => exact fdiv _ | fsqrt => exact fsqrt _ | frcp => exact frcp _
  | frsq => exact frsq _ | fexp2 => exact fexp2 _ | flog2 => exact flog2 _ | fsinpi => exact fsinpi _
  | fcospi => exact fcospi _ | ffloor => exact ffloor _ | fceil => exact fceil _ | ftrunc => exact ftrunc _
  | frint => exact frint _ | ffract => exact ffract _ | f4add => exact f4add _ | f4sub => exact f4sub _
  | f4mul => exact f4mul _ | f4fma => exact f4fma _ | f4fms => exact f4fms _ | f4min => exact f4min _ | f4max => exact f4max _
  | dadd => exact dadd _ | dsub => exact dsub _ | dmul => exact dmul _ | dfma => exact dfma _ | ddiv => exact ddiv _
  | dsqrt => exact dsqrt _ | dmin => exact dmin _ | dmax => exact dmax _ | hadd2 => exact hadd2 _ | hmul2 => exact hmul2 _
  | hfma2 => exact hfma2 _ | hmax2 => exact hmax2 _ | badd2 => exact badd2 _ | bmul2 => exact bmul2 _ | bfma2 => exact bfma2 _
  | bmax2 => exact bmax2 _ | cvt => exact cvt _ | cvts => exact cvts _ | pk8 => exact pk8 _ | pk4 => exact pk4 _
  | upk8 => exact upk8 _ | upk4 => exact upk4 _ | qdec => exact qdec _ | qenc => exact qenc _ | tagrd => exact tagrd _
  | tagwr => exact tagwr _ | tagmin => exact tagmin _ | tagfull => exact tagfull _ | tagunt => exact tagunt _
  | bra => exact bra _ | call => exact call _ | ret => exact ret _ | jmpi => exact jmpi _ | calli => exact calli _
  | exit => exact exit _ | yield => exact yield _ | nop => exact nop _ | brk => exact brk _ | trap => exact trap _
  | prioset => exact prioset _ | enrol => exact enrol _ _ | joinw => exact joinw _ _ | joinq => exact joinq _ _
  | maskrd => exact maskrd _ _ | spawn => exact spawn _ | bara => exact bara _ _ | barw => exact barw _ _
  | baraw => exact baraw _ _ | bcbi => exact bcbi _ _ | bcbx => exact bcbx _ _ | bcbw => exact bcbw _ _
  | bcba => exact bcba _ _ | promw => exact promw _ _ | waitc => exact waitc _ | watch => exact watch _
  | unwatch => exact unwatch _ | sleep => exact sleep _ | binfl => exact binfl _ | suspend => exact suspend _
  | resume => exact resume _ | tcopy => exact tcopy _ | tdisc => exact tdisc _ | tstat => exact tstat _
  | claim => exact claim _ _ | object => exact object _ _ | clpeek => exact clpeek _ _ | clpop => exact clpop _ _
  | clwait => exact clwait _ _ | cljoin => exact cljoin _ _ | clleave => exact clleave _ _ | rtr => exact rtr _
  | rts => exact rts _ | replay => exact replay _ | tlbi => exact tlbi _ | harvest => exact harvest _ | park => exact park _
  | halt => exact halt _ | scall => exact scall _ | ld8I => exact ld8I _ | ld8N => exact ld8N _ | ld16I => exact ld16I _
  | ld16N => exact ld16N _ | ld32 => exact ld32 _ | ld64 => exact ld64 _ | ld128 => exact ld128 _ | ldt32 => exact ldt32 _
  | st8 => exact st8 _ | st16 => exact st16 _ | st32 => exact st32 _ | st64 => exact st64 _ | st128 => exact st128 _
  | stt32 => exact stt32 _ | lds => exact lds _ | sts => exact sts _ | atomAdd => exact atomAdd _ _
  | atomAdd64 => exact atomAdd64 _ _ | atomMini => exact atomMini _ _ | atomMaxi => exact atomMaxi _ _
  | atomMinn => exact atomMinn _ _ | atomMaxn => exact atomMaxn _ _ | atomAnd => exact atomAnd _ _ | atomOr => exact atomOr _ _
  | atomXor => exact atomXor _ _ | atomSwap => exact atomSwap _ _ | atomCas => exact atomCas _ _
  | atomSwap64 => exact atomSwap64 _ _ | atomCas64 => exact atomCas64 _ _ | atomFadd => exact atomFadd _ _
  | atomFmin => exact atomFmin _ _ | atomFmax => exact atomFmax _ _ | atomIncw => exact atomIncw _ _
  | atomDecsp => exact atomDecsp _ _ | atomRedadd => exact atomRedadd _ _ | atomRedfadd => exact atomRedfadd _ _
  | fence => exact fence _ _ _ | flushr => exact flushr _ _ _ | invr => exact invr _ _ _ | pref => exact pref _ _ _
  | tld => exact tld _ _ | tst => exact tst _ _ | tzero => exact tzero _ _ | ttag => exact ttag _ _ | mma => exact mma _
  | mma4 => exact mma4 _ | mmaw => exact mmaw _ | mmaq => exact mmaq _ | mmax => exact mmax _ | cpy => exact cpy _
  | gath => exact gath _ | scat => exact scat _ | coll => exact coll _ | ewait => exact ewait _ | ecan => exact ecan _
  | eqry => exact eqry _ | trdv => exact trdv _ | twrv => exact twrv _ | himm => exact himm _ | hgrd => exact hgrd _
  | hprio => exact hprio _ | hrnd => exact hrnd _ | hscp => exact hscp _ | hrlx => exact hrlx _ | hyld => exact hyld _
  | hreuse => exact hreuse _ | hsig => exact hsig _ | hlat => exact hlat _
  | _ => exact fun h => nomatch h -- an event has no encoding

end Sys2Proof.Laws.Encoding

namespace Sys2Proof

open Laws.Encoding (parse_encode)
open Spec (words)

/-! ## The decoder keeps what R53 allows -/

theorem decode_eq_ok_iff {w : Word} {i : Instr} : decode w = .ok i ↔ parse w = .ok i ∧ fieldError i = none := by
  unfold decode
  cases parse w with
  | error e => simp
  | ok j =>
    dsimp only
    split
    next e hf =>
      refine ⟨nofun, fun ⟨hj, hnone⟩ => ?_⟩
      cases hj
      exact absurd (hf.symm.trans hnone) nofun
    next hf =>
      refine ⟨fun hj => ?_, fun h => h.1⟩
      cases hj
      exact ⟨rfl, hf⟩

theorem fieldError_of_wellFormed {i : Instr} (h : i.wellFormed = true) : fieldError i = none := by
  simp only [Instr.wellFormed, Shape.r53Ok, Bool.and_eq_true] at h
  obtain ⟨⟨⟨⟨⟨hunused, hlegal⟩, hw⟩, hcodes⟩, hpreds⟩, _⟩ := h
  simp [fieldError, hunused, hlegal, hw, hcodes, hpreds]

theorem decode_encode {i : Instr} (he : i.encoded = true) (hwf : i.wellFormed = true) : decode (encode i) = .ok i :=
  decode_eq_ok_iff.mpr ⟨parse_encode i he, fieldError_of_wellFormed hwf⟩

theorem encode_injective {i j : Instr} (hi : i.encoded = true) (hj : j.encoded = true) (h : encode i = encode j) : i = j := by
  have hparse : (.ok i : Except DecodeError Instr) = .ok j := by rw [← parse_encode i hi, h, parse_encode j hj]
  exact Except.ok.inj hparse

theorem encode_of_decode {w : Word} {i : Instr} (h : decode w = .ok i) : i.encoded = true ∧ encode i = w :=
  encode_of_parse (decode_eq_ok_iff.mp h).1

/-- Settles O60: parser and encoder undo each other, and a well-formed instruction passes the checks between. -/
theorem decodeReadsBackEveryEncoding : Obligations.DecodeReadsBackEveryEncoding := by
  unfold Obligations.DecodeReadsBackEveryEncoding
  exact ⟨fun _ => decode_encode, fun _ _ => encode_injective, fun _ _ => encode_of_decode⟩

/-! ## Words of the listings -/

theorem words_encode : ∀ x ∈ words, x.2.encoded = true ∧ x.2.wellFormed = true ∧ encode x.2 = x.1 := by decide

/-- Settles O56: each word is the encoding of its instruction, which the decoder reads back. -/
theorem decodeWords : Obligations.DecodeWords := by
  unfold Obligations.DecodeWords
  intro x hx
  obtain ⟨he, hwf, hword⟩ := words_encode x hx
  rw [← hword, decode_encode he hwf]

end Sys2Proof

/-! # A step runs the word that its issue comes to (03 R36, R53, 07 R115, 13 R351) -/

namespace Sys2Proof.Machine

open Sys2Proof.Spec

/-! ## Time passes, and nothing else -/

@[simp] theorem tick_powered (s : State) : (tick s).powered = s.powered := by unfold tick; split <;> rfl
@[simp] theorem tick_spawning (s : State) : (tick s).spawning = s.spawning := by unfold tick; split <;> rfl
@[simp] theorem tick_cur (s : State) : (tick s).cur = s.cur := by unfold tick; split <;> rfl
@[simp] theorem tick_inputs (s : State) : (tick s).inputs = s.inputs := by unfold tick; split <;> rfl

theorem step_eq_runs (s : State) : step s = runs s (stepCore (tick s)) := rfl

/-! ## Which issue a step goes on with -/

section
variable {s : State}

theorem stepCore_of_cur {u : Cur} (hpow : s.powered = true) (hspawn : s.spawning = []) (hcur : s.cur = some u) :
    stepCore s = stepIssue s u := by
  simp [stepCore, hpow, hspawn, hcur]

theorem stepCore_of_idle (hpow : s.powered = true) (hspawn : s.spawning = []) (hcur : s.cur = none) (hin : s.inputs = [])
    (hdue : due s = none) : stepCore s = stepPick s := by
  simp [stepCore, hpow, hspawn, hcur, hin, hdue]

theorem stepPick_of_pick {s0 : State} {u : Cur} (hpick : pick (retried s) = some s0) (hcur : s0.cur = some u) :
    stepPick s = stepIssue s0 u := by
  simp only [stepPick, hpick, hcur]

end

/-! ## What the issue runs -/

section
variable {s s1 : State} {u : Cur} {w : Word}

theorem stepWord_of_ok {i : Instr} (h : decode w = .ok i) : stepWord w s = exec i s := by
  simp only [stepWord, h]

theorem stepWord_of_error {e : DecodeError} (h : decode w = .error e) (hh : isHint w = false) :
    stepWord w s = .next (badWord s) := by
  simp [stepWord, h, hh]

theorem stepIssue_of_word (h : currentWord s u = (s1, .word w)) : stepIssue s u = stepWord w (withWord s1 u w) := by
  simp only [stepIssue, h]

end

/-! ## The word that an issue comes to -/

section
variable {s : State} {u : Cur}

theorem currentWord_of_replay {r : ReplayEntry} (h : u.replay = some r) : currentWord s u = (s, .word r.word) := by
  simp only [currentWord, h]

theorem currentWord_of_place {t : Team} {p : Place} (hr : u.replay = none) (ht : team? s u.team = some t)
    (hp : t.place = some p) : currentWord s u = fetchAt s t p.core u.pc := by
  simp only [currentWord, hr, ht, hp]

theorem fetchAt_of_translate {t : Team} {k pc pa : Nat} {s1 : State} {st : Bool} (hs : s.stalls = [])
    (htr : translate s k t.comp t.level .ex pc = (s1, .ok pa st)) (hl : localClass pa ≠ .none) (hf : homeFails s1 pa 4 = false) :
    fetchAt s t k pc =
      (l2Touch s1 (compKey s1 t.comp) pa, .word (BitVec.ofNat 32 (homeLe s1 (compKey s1 t.comp) pa 4))) := by
  simp [fetchAt, hs, htr, hl, hf]

end

/-- Settles O57: the step's issue by the branch of `stepCore` that reaches it, the word in hand by the decoder's answer. -/
theorem stepRunsTheDecodedWord : Obligations.StepRunsTheDecodedWord := by
  unfold Obligations.StepRunsTheDecodedWord
  refine ⟨fun s u s1 w hpow hspawn hcur hword => ?goesOn,
    fun s s0 u s1 w i hpow hspawn hcur hin hdue hpick hcur0 hword hi => ?begins,
    fun s u t p s1 pa st hr hs ht hp htr hl hf => ?fetched, fun s u r hr => currentWord_of_replay hr⟩
  case goesOn =>
    have hcore : stepCore (tick s) = stepWord w (withWord s1 u w) := by
      rw [stepCore_of_cur (u := u) (by simpa) (by simpa) (by simpa), stepIssue_of_word hword]
    rw [step_eq_runs, hcore]
    exact ⟨fun i hi => by rw [stepWord_of_ok hi], fun e he hh => by rw [stepWord_of_error he hh]; rfl⟩
  case begins =>
    rw [step_eq_runs, stepCore_of_idle (by simpa) (by simpa) (by simpa) (by simpa) hdue, stepPick_of_pick hpick hcur0,
      stepIssue_of_word hword, stepWord_of_ok hi]
  case fetched => rw [currentWord_of_place hr ht hp, fetchAt_of_translate hs htr hl hf]

end Sys2Proof.Machine

/-! # The checks before an instruction (03 R45, R48, R49, R54) -/

namespace Sys2Proof.Machine

/-! ## Every instruction makes the checks of 03 R54 before its own -/

/-- An instruction that is no hint is performed by `performPriv`, with its own shape and its own step 4. -/
theorem exec_eq_performPriv {i : Instr} (hev : i.shape.maj ≠ 0) (hhint : i.shape.maj ≠ 0x3F) :
    ∃ own eff, ∀ s, exec i s = performPriv i.shape (privOf i) own eff s := by
  cases i with
  | stintStart | instructionFetch | trapDelivery | teamEviction | crewPlacement | binTimerExpiry | crewMigration
  | steeringInterval | stopRequest | graceExpiry | deferralExpiry | saveReport | tenantSwitch | queueBounce | bounceArrival
  | reissueBackoffExpiry | pannierReissue | translationWalk | faultRecordRetry | memoryRequestPerformed
  | ownershipRegistration | writeBack | writebackTimeLimit | waitcTimeout | sleepExpiry | promwDeadline | matrixGrant
  | matrixCompletion | fourInHandGrant | fourInHandCompletion | harnessError | copyAccept | copyStart | copyFault
  | copyCompletion | claimAnnouncement | objectionArrival | objectionAnswer | claimWindowClose | membershipUpdate
  | ticketPoll | traincfg | linkcfg | bound | engerr | linkDown | linkUp | linkRetrain | flit | retryRequest | postedWrite
  | readRequest | remoteLoadReply | acknowledgement | refusal | streamRetire | unreachable | doorbell | launchRecord
  | messageLaunch | scallServiceReturn | hostBar2Access | heqcons | registerWrite | create | resize | destroy | stop | start
  | getVersion | getCapabilities | negotiateAlgorithms | getDigests | getCertificate | challenge | getMeasurements
  | keyExchange | finish | heartbeat | keyUpdate | endSession | vendorDefinedRequest | lockInterfaceRequest
  | startInterfaceRequest | stopInterfaceRequest | getDeviceInterfaceReport | ideIntegrityFailure | policyObject | flr
  | resetCompletion | powerLimit | thermalTrip | powerOn | streamIdleExpiry => exact absurd rfl hev
  | himm | hgrd | hprio | hrnd | hscp | hrlx | hyld | hreuse | hsig | hlat => exact absurd rfl hhint
  | _ => exact ⟨_, _, fun _ => rfl⟩

section
variable {h : Shape} {priv : Ctx → State → Option Nat} {own : Ctx → State → Gate} {eff : Ctx → State → Done} {s : State} {c : Ctx}
  (hc : context h s = some c)
include hc

theorem performPriv_of_trap {n : Nat} (hk : checks priv c s = .trap n) :
    performPriv h priv own eff s = .next (trapHead c { cause := n } c.act s (passMoves c (eff c s))) := by
  simp only [performPriv, hc, issue, hk]

theorem performPriv_of_run {pc : Nat} {ill : Bool} (hk : checks priv c s = .run pc ill) :
    performPriv h priv own eff s = .next (trapRun c pc ill s (passMoves c (eff c s))) := by
  simp only [performPriv, hc, issue, hk]

end

/-- Only branches and transfers that trap leave their lanes elsewhere than at the next word (15 R277, log 107). -/
theorem passMoves_of_no_transfer {c : Ctx} (hb : c.shape.maj ≠ 0x1A) (ht : c.shape.maj ≠ 0x1B) (d : Done) :
    passMoves c d = c.onward := by
  unfold passMoves
  split
  · simp [hb, ht]
  · rfl

/-! ## The checks in their order: the first that fails decides -/

section
variable {p : Ctx → State → Option Nat} {c : Ctx} {s : State}

/-- An HGRD of the run stands inside an active span (03 R49). -/
def hgrdInSpan (c : Ctx) : Bool := c.hints.hgrd.isSome && c.team.guardLeft ≠ 0 && c.cur.replay.all (·.run)

theorem hgrdInSpan_eq_false_iff :
    hgrdInSpan c = false ↔ c.hints.hgrd = none ∨ c.team.guardLeft = 0 ∨ c.cur.replay.all (·.run) = false := by
  cases h : c.hints.hgrd <;> by_cases h0 : c.team.guardLeft = 0 <;> simp [hgrdInSpan, h, h0]

theorem checks_of_runFault {pc : Nat} {ill : Bool} (h : runFault (hintFits c.shape) c.cur.run = some (pc, ill)) :
    checks p c s = .run pc ill := by
  simp only [checks, h]

variable (hrun : runFault (hintFits c.shape) c.cur.run = none)
include hrun

theorem checks_of_hgrdInSpan (h : hgrdInSpan c = true) : ∃ pc, checks p c s = .run pc false := by
  unfold hgrdInSpan at h
  simp only [checks, hrun, h, if_true]
  exact ⟨_, rfl⟩

variable (hgrd : hgrdInSpan c = false)
include hgrd

theorem checks_of_spanFault (h : spanFault c = true) : checks p c s = .trap 5 := by
  unfold hgrdInSpan at hgrd
  simp only [checks, hrun, hgrd, h, if_true, Bool.false_eq_true, if_false]

variable (hspan : spanFault c = false)
include hspan

theorem checks_of_bad_fields (h : c.shape.r53Ok = false ∨ c.shape.step3Ok = false ∨ allocated c.team c.shape = false) :
    checks p c s = .trap 1 := by
  have hbad : (!c.shape.r53Ok || !c.shape.step3Ok || !allocated c.team c.shape) = true := by simpa [or_assoc] using h
  unfold hgrdInSpan at hgrd
  simp only [checks, hrun, hgrd, hspan, hbad, if_true, Bool.false_eq_true, if_false]

variable (hr53 : c.shape.r53Ok = true) (hstep3 : c.shape.step3Ok = true) (halloc : allocated c.team c.shape = true)
include hr53 hstep3 halloc

theorem checks_of_priv {n : Nat} (h : p c s = some n) : checks p c s = .trap n := by
  unfold hgrdInSpan at hgrd
  simp only [checks, hrun, hgrd, hspan, hr53, hstep3, halloc, h, Bool.not_true, Bool.or_self, Bool.false_eq_true, if_false]

variable (hpriv : p c s = none)
include hpriv

theorem checks_of_long_chain (hchain : 16 ≤ c.team.chain) (hc : c.shape.c = true) : checks p c s = .trap 4 := by
  unfold hgrdInSpan at hgrd
  simp only [checks, hrun, hgrd, hspan, hr53, hstep3, halloc, hpriv, hchain, hc, Bool.not_true, Bool.or_self,
    Bool.false_eq_true, if_false, decide_true, Bool.and_self, if_true]

variable (hchain : c.team.chain < 16 ∨ c.shape.c = false) (hfull : inFlight s c.key < 24) (hres : reserved s c.key c.shape = false)
  (hpark : c.shape.parks = false ∨ parkBlocked s c.key = false)
include hchain hfull hres hpark

/-- With nothing to wait for, the latches are checked last. -/
theorem checks_of_latches : checks p c s = if latchInvalid s c then .trap 3 else .ok := by
  have hlink : (decide (16 ≤ c.team.chain) && c.shape.c) = false := by
    rcases hchain with h | h <;> simp [h]
  have hwait : (decide (24 ≤ inFlight s c.key) || reserved s c.key c.shape || (c.shape.parks && parkBlocked s c.key)) = false := by
    rcases hpark with h | h <;> simp [h, hfull, hres]
  unfold hgrdInSpan at hgrd
  simp only [checks, hrun, hgrd, hspan, hr53, hstep3, halloc, hpriv, hlink, hwait, Bool.not_true, Bool.or_self,
    Bool.false_eq_true, if_false]

end

theorem spanFault_of_no_replay {c : Ctx} (h : c.cur.replay = none) :
    spanFault c = (c.team.guardLeft ≠ 0 && !guardable c.shape.maj) := by
  simp [spanFault, h]

/-- Settles O48: an instruction that a check stops traps by `performPriv`; which check that is, by the order in `checks`. -/
theorem failedChecksTrap : Obligations.FailedChecksTrap := by
  unfold Obligations.FailedChecksTrap
  refine ⟨fun i s c hc hev hhint => ?traps, fun p c s pc ill => checks_of_runFault, fun p c s w hrun hw hleft hr => ?hgrdInSpan,
    fun p c s hrun hgrd => ?order, fun c => spanFault_of_no_replay, fun c s => rfl⟩
  case traps =>
    obtain ⟨own, eff, hexec⟩ := exec_eq_performPriv hev hhint
    have hmoves (hb : i.shape.maj ≠ 0x1A) (ht : i.shape.maj ≠ 0x1B) : passMoves c (eff c s) = c.onward := by
      rw [← (context_team hc).2.1] at hb ht
      exact passMoves_of_no_transfer hb ht _
    exact ⟨fun n hk => ⟨_, (hexec s).trans (performPriv_of_trap hc hk), hmoves⟩,
      fun pc ill hk => ⟨_, (hexec s).trans (performPriv_of_run hc hk), hmoves⟩⟩
  case hgrdInSpan => exact checks_of_hgrdInSpan hrun (by simp [hgrdInSpan, hw, hleft, hr])
  case order =>
    rw [← hgrdInSpan_eq_false_iff] at hgrd
    refine ⟨checks_of_spanFault hrun hgrd, fun hspan => ⟨checks_of_bad_fields hrun hgrd hspan, fun hr53 hstep3 halloc =>
      ⟨fun n => checks_of_priv hrun hgrd hspan hr53 hstep3 halloc, fun hpriv =>
        ⟨checks_of_long_chain hrun hgrd hspan hr53 hstep3 halloc hpriv, fun hchain hfull hres hpark => ?_⟩⟩⟩⟩
    rw [checks_of_latches hrun hgrd hspan hr53 hstep3 halloc hpriv hchain hfull hres hpark]
    exact ⟨fun h => by rw [h, if_pos rfl], fun h => by simp [h]⟩

end Sys2Proof.Machine

/-! # Where the lanes of an instruction stand when it has concluded (07 R115 to R117, R123) -/

namespace Sys2Proof.Machine

open Sys2Proof.Spec

/-! ## A lane in a list of entries -/

/-- Some entry holds lane `l`. -/
def HasLane (es : List Entry) (l : Nat) : Prop := ∃ e ∈ es, e.mask.getLsbD l = true

/-- Every entry that holds lane `l` stands at `pc` and waits for nothing. -/
def LaneOnlyAt (es : List Entry) (l pc : Nat) : Prop := ∀ e ∈ es, e.mask.getLsbD l = true → e.pc = pc ∧ e.wait = none

/-- The two together, in a team's frontier, are what `LaneAt` says. -/
theorem laneAt_iff {t : State} {key l pc : Nat} :
    LaneAt t key l pc ↔ ∃ u, team? t key = some u ∧ HasLane u.front l ∧ LaneOnlyAt u.front l pc := Iff.rfl

section
variable {e : Entry} {es fs : List Entry} {l pc : Nat}

@[simp] theorem hasLane_nil : ¬ HasLane [] l := by simp [HasLane]
@[simp] theorem laneOnlyAt_nil : LaneOnlyAt [] l pc := by simp [LaneOnlyAt]

theorem hasLane_cons : HasLane (e :: es) l ↔ e.mask.getLsbD l = true ∨ HasLane es l := by
  simp [HasLane]

theorem laneOnlyAt_cons :
    LaneOnlyAt (e :: es) l pc ↔ (e.mask.getLsbD l = true → e.pc = pc ∧ e.wait = none) ∧ LaneOnlyAt es l pc := by
  simp [LaneOnlyAt]

theorem hasLane_append : HasLane (es ++ fs) l ↔ HasLane es l ∨ HasLane fs l := by
  simp [HasLane, or_and_right, exists_or]

theorem laneOnlyAt_append : LaneOnlyAt (es ++ fs) l pc ↔ LaneOnlyAt es l pc ∧ LaneOnlyAt fs l pc := by
  simp only [LaneOnlyAt, List.mem_append, or_imp]
  exact forall_and

theorem LaneOnlyAt.of_not_hasLane (h : ¬ HasLane es l) : LaneOnlyAt es l pc := fun e he hl => absurd ⟨e, he, hl⟩ h

/-! ## The frontier that entries make (07 R116) -/

theorem hasLane_insertEntry : HasLane (insertEntry e es) l ↔ e.mask.getLsbD l = true ∨ HasLane es l := by
  induction es with
  | nil => simp [insertEntry, hasLane_cons]
  | cons x r ih =>
    unfold insertEntry
    split
    · simp only [hasLane_cons, BitVec.getLsbD_or, Bool.or_eq_true]
      tauto
    · split
      · rw [hasLane_cons]
      · rw [hasLane_cons, ih, hasLane_cons]
        tauto

theorem laneOnlyAt_insertEntry (he : e.mask.getLsbD l = true → e.pc = pc ∧ e.wait = none) (h : LaneOnlyAt es l pc) :
    LaneOnlyAt (insertEntry e es) l pc := by
  induction es with
  | nil => exact laneOnlyAt_cons.mpr ⟨he, h⟩
  | cons x r ih =>
    obtain ⟨hx, hr⟩ := laneOnlyAt_cons.mp h
    unfold insertEntry
    split
    · rename_i hsame
      simp only [Bool.and_eq_true, decide_eq_true_eq] at hsame
      obtain ⟨⟨_, hpc⟩, hwait⟩ := hsame
      refine laneOnlyAt_cons.mpr ⟨fun hl => ?_, hr⟩
      rw [BitVec.getLsbD_or, Bool.or_eq_true] at hl
      obtain hl | hl := hl
      · exact hx hl
      · exact ⟨hpc.trans (he hl).1, hwait.trans (he hl).2⟩
    · split
      · exact laneOnlyAt_cons.mpr ⟨he, h⟩
      · exact laneOnlyAt_cons.mpr ⟨hx, ih hr⟩

/-- One step of `rebuild`: an entry without lanes disappears. -/
theorem hasLane_foldl_insertEntry :
    HasLane (es.foldl (fun f e => if e.mask = 0 then f else insertEntry e f) fs) l ↔ HasLane fs l ∨ HasLane es l := by
  induction es generalizing fs with
  | nil => simp
  | cons e r ih =>
    rw [List.foldl_cons, ih, hasLane_cons]
    split
    · rename_i h0
      simp [h0]
    · rw [hasLane_insertEntry]
      tauto

theorem laneOnlyAt_foldl_insertEntry (hf : LaneOnlyAt fs l pc) (h : LaneOnlyAt es l pc) :
    LaneOnlyAt (es.foldl (fun f e => if e.mask = 0 then f else insertEntry e f) fs) l pc := by
  induction es generalizing fs with
  | nil => exact hf
  | cons e r ih =>
    obtain ⟨he, hr⟩ := laneOnlyAt_cons.mp h
    rw [List.foldl_cons]
    refine ih ?_ hr
    split
    · exact hf
    · exact laneOnlyAt_insertEntry he hf

@[simp] theorem hasLane_rebuild : HasLane (rebuild es) l ↔ HasLane es l := by
  rw [rebuild, hasLane_foldl_insertEntry]
  simp

theorem laneOnlyAt_rebuild (h : LaneOnlyAt es l pc) : LaneOnlyAt (rebuild es) l pc :=
  laneOnlyAt_foldl_insertEntry laneOnlyAt_nil h

theorem not_hasLane_dropLanes {m : Word} (hl : m.getLsbD l = true) : ¬ HasLane (dropLanes es m) l := by
  rintro ⟨e, he, h⟩
  obtain ⟨x, _, rfl⟩ := List.mem_map.mp (List.mem_filter.mp he).1
  simp [hl] at h

/-! ## The entries that the lanes move to -/

theorem getLsbD_of_and {a b : Word} (h : (a &&& b).getLsbD l = true) : a.getLsbD l = true :=
  (Bool.and_eq_true_iff.mp ((BitVec.getLsbD_and ..).symm.trans h)).1

theorem hasLane_flatMap {f : Entry → List Entry} : HasLane (es.flatMap f) l ↔ ∃ e ∈ es, HasLane (f e) l := by
  simp only [HasLane, List.mem_flatMap]
  exact ⟨fun ⟨x, ⟨e, he, hx⟩, h⟩ => ⟨e, he, x, hx, h⟩, fun ⟨e, he, x, hx, h⟩ => ⟨x, ⟨e, he, hx⟩, h⟩⟩

theorem laneOnlyAt_flatMap {f : Entry → List Entry} : LaneOnlyAt (es.flatMap f) l pc ↔ ∀ e ∈ es, LaneOnlyAt (f e) l pc := by
  simp only [LaneOnlyAt, List.mem_flatMap]
  exact ⟨fun h e he x hx => h x ⟨e, he, hx⟩, fun h x ⟨e, he, hx⟩ => h e he x hx⟩

/-- A first issue moves its lanes to the entries given: a guarded HPRIO takes its own lanes apart, at the same address (01 R8). -/
theorem spread_of_no_replay {c : Ctx} (hr : c.cur.replay = none) :
    c.spread fs es = if c.hints.hprio.isNone || c.gleft = 0 then es
      else es.flatMap fun e =>
        [{ e with mask := e.mask &&& c.act }, { e with mask := e.mask &&& ~~~c.act, prio := c.entry.prio }] := by
  unfold Ctx.spread
  rw [hr]
  by_cases h : (c.hints.hprio.isNone || decide (c.gleft = 0)) = true
  · simp [h]
  · have hsplit : c.hints.hprio.isSome = true ∧ c.gleft ≠ 0 := by
      simpa [Option.isSome_iff_ne_none] using h
    simp [hsplit]

theorem hasLane_spread {c : Ctx} (hr : c.cur.replay = none) (hl : l < 32) : HasLane (c.spread fs es) l ↔ HasLane es l := by
  rw [spread_of_no_replay hr]
  split
  · rfl
  · simp only [hasLane_flatMap, hasLane_cons, hasLane_nil, or_false, BitVec.getLsbD_and, BitVec.getLsbD_not, hl,
      decide_true, Bool.true_and]
    refine exists_congr fun e => and_congr_right fun _ => ?_
    cases e.mask.getLsbD l <;> cases c.act.getLsbD l <;> simp

theorem laneOnlyAt_spread {c : Ctx} (hr : c.cur.replay = none) (h : LaneOnlyAt es l pc) : LaneOnlyAt (c.spread fs es) l pc := by
  rw [spread_of_no_replay hr]
  split
  · exact h
  · exact laneOnlyAt_flatMap.mpr fun e he => laneOnlyAt_cons.mpr ⟨fun hl => h e he (getLsbD_of_and hl),
      laneOnlyAt_cons.mpr ⟨fun hl => h e he (getLsbD_of_and hl), laneOnlyAt_nil⟩⟩

/-! ## A join that completes moves the lanes that wait at it, and no other (07 R123) -/

theorem hasLane_map {f : Entry → Entry} (hf : ∀ e, (f e).mask = e.mask) : HasLane (es.map f) l ↔ HasLane es l := by
  simp [HasLane, hf]

theorem laneOnlyAt_map {f : Entry → Entry} (hmask : ∀ e, (f e).mask = e.mask) (hf : ∀ e, e.wait = none → f e = e)
    (h : LaneOnlyAt es l pc) : LaneOnlyAt (es.map f) l pc := by
  intro x hx hl
  obtain ⟨e, he, rfl⟩ := List.mem_map.mp hx
  have hat := h e he (hmask e ▸ hl)
  rwa [hf e hat.2]

theorem joinCheck_front (t : Team) (k : Nat) :
    (joinCheck t k).front = t.front ∨
      ∃ f : Entry → Entry, (joinCheck t k).front = rebuild (t.front.map f) ∧ (∀ e, (f e).mask = e.mask) ∧
        ∀ e, e.wait = none → f e = e := by
  unfold joinCheck
  dsimp only
  split
  · refine .inr ⟨_, rfl, fun e => ?_, fun e he => ?_⟩
    · split <;> rfl
    · simp [he]
  · exact .inl rfl

theorem joinCheck_lane {t : Team} (k : Nat) (h : HasLane t.front l ∧ LaneOnlyAt t.front l pc) :
    HasLane (joinCheck t k).front l ∧ LaneOnlyAt (joinCheck t k).front l pc := by
  obtain hsame | ⟨f, hfront, hmask, hf⟩ := joinCheck_front t k
  · rwa [hsame]
  · rw [hfront]
    exact ⟨hasLane_rebuild.mpr ((hasLane_map hmask).mpr h.1), laneOnlyAt_rebuild (laneOnlyAt_map hmask hf h.2)⟩

theorem joinChecks_lane {t : Team} (h : HasLane t.front l ∧ LaneOnlyAt t.front l pc) :
    HasLane (joinChecks t).front l ∧ LaneOnlyAt (joinChecks t).front l pc :=
  joinCheck_lane 3 (joinCheck_lane 2 (joinCheck_lane 1 (joinCheck_lane 0 h)))

end

/-! ## The end of an instruction -/

section
variable {c : Ctx} {l pc : Nat}

theorem advanceTeam_front (hr : c.cur.replay = none) (moves : Option (List Entry)) (t : Team) :
    (advanceTeam c moves t).front =
      rebuild (dropLanes (ageEntries t.front c.wasReady c.entry) c.cur.mask ++ c.spread t.front (moves.getD c.onward)) := by
  cases moves <;> simp [advanceTeam, hr, Ctx.onward]

/-- The lanes of a first issue stand where they move to: at the entries given, or at the next word. -/
theorem advanceTeam_lane {moves : Option (List Entry)} {t : Team} (hr : c.cur.replay = none) (hl : l < 32)
    (hmask : c.cur.mask.getLsbD l = true) (hold : HasLane (moves.getD c.onward) l) (hat : LaneOnlyAt (moves.getD c.onward) l pc) :
    HasLane (advanceTeam c moves t).front l ∧ LaneOnlyAt (advanceTeam c moves t).front l pc := by
  rw [advanceTeam_front hr]
  exact ⟨hasLane_rebuild.mpr (hasLane_append.mpr (.inr ((hasLane_spread hr hl).mpr hold))),
    laneOnlyAt_rebuild (laneOnlyAt_append.mpr ⟨.of_not_hasLane (not_hasLane_dropLanes hmask), laneOnlyAt_spread hr hat⟩)⟩

theorem front_unstinted {t u : Team} (h : t.unstinted = u.unstinted) : t.front = u.front :=
  (congrArg Team.front h : t.unstinted.front = u.unstinted.front)

/-- The end of a stint moves no frontier. -/
theorem Quiet.front_onTeam {b k : Nat} {s t : State} {F : Team → Team} {x : Team} (q : Quiet b (onTeam s k F) t)
    (hx : team? s k = some x) : ∃ y, team? t k = some y ∧ y.front = (F x).front := by
  have hq := q.teams k
  rw [team?_onTeam, if_pos rfl, hx, Option.map_some, Option.map_some] at hq
  obtain ⟨y, hy, hyx⟩ := Option.map_eq_some_iff.mp hq
  exact ⟨y, hy, front_unstinted hyx⟩

/-- The team of an instruction that raises no trap, once it has concluded: its joins are made, and its frontier moves no more. -/
theorem team?_conclude {r : Done} {x : Team} (hf : r.fail = none) (hp : r.post = none) (hk : r.keep = false)
    (hx : team? r.s c.key = some x) :
    ∃ y, team? (conclude c r) c.key = some y ∧ y.front = (joinChecks (advanceTeam c r.moves x)).front := by
  unfold conclude
  rw [hf, hp, hk]
  dsimp only
  simp only [Bool.false_eq_true, if_false]
  generalize hF : (fun t => joinChecks (advanceTeam c r.moves t)) = F
  obtain ⟨y, hy, hfront⟩ := (Quiet.stint (dropFetched_quiet c c.place.benchNo r.s F) (stintCheck_quiet ..)).front_onTeam hx
  exact ⟨y, hy, hfront.trans (by rw [← hF])⟩

/-- A lane of a first issue stands, once the instruction has concluded, where it has moved to. -/
theorem laneAt_conclude {r : Done} {x : Team} (hf : r.fail = none) (hp : r.post = none) (hk : r.keep = false)
    (hx : team? r.s c.key = some x) (hr : c.cur.replay = none) (hl : l < 32) (hmask : c.cur.mask.getLsbD l = true)
    (hold : HasLane (r.moves.getD c.onward) l) (hat : LaneOnlyAt (r.moves.getD c.onward) l pc) :
    LaneAt (conclude c r) c.key l pc := by
  obtain ⟨y, hy, hfront⟩ := team?_conclude hf hp hk hx
  rw [laneAt_iff]
  exact ⟨y, hy, by rw [hfront]; exact joinChecks_lane (advanceTeam_lane hr hl hmask hold hat)⟩

end

/-! ## Branches (03 R44, 07 R117) -/

theorem exec_bra (x : BF) (s : State) : exec (.bra x) s = execBra x s := rfl

theorem exec_bra_of_ready {x : BF} {s : State} {c : Ctx} (h : Ready (.bra x) s c) :
    exec (.bra x) s = .next (conclude c { s := s, moves := some (c.split x) }) :=
  (exec_bra x s).trans (performGated_go h.1 h.2 rfl)

section
variable (c : Ctx) (x : BF)

theorem branchTarget_eq_branchTo : c.branchTarget x = branchTo c x := by
  have hlt := x.off.isLt
  unfold Ctx.branchTarget branchTo Bits.sextNat
  rw [BitVec.toInt_eq_toNat_cond]
  dsimp only
  split_ifs <;> omega

theorem taken_getLsbD {l : Nat} (hl : l < 32) : (c.taken x).getLsbD l = takes c x l := by
  unfold Ctx.taken takes Ctx.active
  rw [BitVec.getLsbD_and]
  obtain hn | hn : x.n = 0#1 ∨ x.n = 1#1 := BitVec.eq_zero_or_eq_one x.n
  · simp [hn]
  · simp [hn, hl]

variable {c}

/-- A lane of the branch is in the one of its two groups that `takes` names. -/
theorem split_lane {l : Nat} (hl : l < 32) (hmask : c.cur.mask.getLsbD l = true) :
    HasLane (c.split x) l ∧ LaneOnlyAt (c.split x) l (if takes c x l then branchTo c x else c.nextPc) := by
  have hrest : (c.cur.mask &&& ~~~(c.taken x)).getLsbD l = !takes c x l := by
    rw [BitVec.getLsbD_and, BitVec.getLsbD_not, hmask, taken_getLsbD c x hl]
    simp [hl]
  simp only [Ctx.split, hasLane_cons, laneOnlyAt_cons, hasLane_nil, laneOnlyAt_nil, or_false, and_true, Ctx.goTo,
    taken_getLsbD c x hl, hrest, branchTarget_eq_branchTo]
  cases takes c x l <;> simp

end

/-- Settles O17: a branch changes nothing before its end, and its end moves its lanes to the two groups of its entries. -/
theorem branchMovesLanes : Obligations.BranchMovesLanes := by
  unfold Obligations.BranchMovesLanes
  intro x s c h
  have ht := (context_team h.1).1
  have hjoin : NoJoin (c.split x) := by simp [NoJoin, Ctx.split, Ctx.goTo]
  have hconc := conclude_concludes c { s := s, moves := some (c.split x) } rfl rfl (fun es e => by cases e; exact hjoin)
  refine ⟨_, exec_bra_of_ready h, ⟨.concludes (fun _ => rfl) hconc, (Effect.refl ht).concludes hconc⟩, fun hr l hl hmask => ?_⟩
  obtain ⟨hold, hat⟩ := split_lane x hl hmask
  exact laneAt_conclude rfl rfl rfl ht hr hl hmask hold hat

end Sys2Proof.Machine

/-! # Floating-point results and the traps they make (04 R73, R74, 06 R97 to R113) -/

namespace Sys2Proof.Machine

open Sys2Proof.Spec

/-! ## Which trap a result makes (04 R74) -/

/-- The flags raised that have their trap enabled (02 R25). -/
def FpOut.enabledFlags (o : FpOut) (c : Ctx) : Nat := Nat.land (o.flags c).bits (c.team.fpstat.toNat / 2 ^ 16 % 32)

/-- A lost result traps: SIGTH.EN is set, and with CROSS it came from operands at or above θ (04 R73). -/
def FpOut.lossTraps (o : FpOut) (c : Ctx) : Bool :=
  c.team.sigth.getLsbD 8 && (lanesOf c.act).any (o.laneLost c) && (!c.team.sigth.getLsbD 9 || o.crossed c)

/-- FPX goes before SIGLOSS; the fields of the frame are the same for both, but for the cause and the lane. -/
theorem FpOut.post_cases (c : Ctx) (o : FpOut) : ∃ fpx loss : TrapInfo,
    o.post c = (if o.enabledFlags c ≠ 0 then some fpx else if o.lossTraps c then some loss else none) ∧
    (fpx.cause = 0xC ∧ loss.cause = 0xB) ∧
    ∀ i, i = fpx ∨ i = loss → i.tpc = c.cur.pc ∧ i.theta = c.theta ∧ i.sigt = o.sigt c := by
  refine ⟨_, _, rfl, ⟨rfl, rfl⟩, ?_⟩
  rintro i (rfl | rfl) <;> exact ⟨rfl, rfl, rfl⟩

section
variable {c : Ctx} {o : FpOut}

theorem FpOut.post_of_enabledFlags (h : o.enabledFlags c ≠ 0) : (o.post c).map (·.cause) = some 0xC := by
  obtain ⟨fpx, loss, hpost, ⟨hcause, _⟩, _⟩ := o.post_cases c
  rw [hpost, if_pos h, Option.map_some, hcause]

theorem FpOut.post_of_lossTraps (h : o.enabledFlags c = 0) (hl : o.lossTraps c = true) :
    (o.post c).map (·.cause) = some 0xB := by
  obtain ⟨fpx, loss, hpost, ⟨_, hcause⟩, _⟩ := o.post_cases c
  rw [hpost, if_neg (not_not.mpr h), if_pos hl, Option.map_some, hcause]

theorem FpOut.post_of_quiet (h : o.enabledFlags c = 0) (hl : o.lossTraps c = false) : o.post c = none := by
  obtain ⟨fpx, loss, hpost, _, _⟩ := o.post_cases c
  rw [hpost, if_neg (not_not.mpr h), hl, if_neg Bool.false_ne_true]

theorem FpOut.post_fields {i : TrapInfo} (h : o.post c = some i) :
    i.tpc = c.cur.pc ∧ i.theta = c.theta ∧ i.sigt = o.sigt c := by
  obtain ⟨fpx, loss, hpost, _, hfields⟩ := o.post_cases c
  rw [hpost] at h
  split_ifs at h
  · exact hfields i (.inl (Option.some.inj h).symm)
  · exact hfields i (.inr (Option.some.inj h).symm)

end

/-- Settles O6: each clause is one branch of the choice in `FpOut.post`. -/
theorem fpTrapChoice : Obligations.FpTrapChoice := by
  unfold Obligations.FpTrapChoice
  intro c o
  exact ⟨FpOut.post_of_enabledFlags, FpOut.post_of_lossTraps, FpOut.post_of_quiet, fun _ => FpOut.post_fields⟩

/-! ## How a floating-point instruction is performed -/

/-- What a floating-point instruction does whose results `w` writes: the results, then the flags, then the trap they make. -/
def fpEffect (out : Ctx → FpOut) (w : Ctx → FpOut → State → State) (c : Ctx) (s : State) : Done :=
  { s := raiseFlags c ((out c).statBits c) (w c (out c) s), post := (out c).post c }

theorem controlGate_go {bad : Nat → Bool} {c : Ctx} (h : ∀ l ∈ lanesOf c.act, bad (controlOf c l) = false) (s : State) :
    controlGate bad c s = .go := by
  have hnone : c.firstLane (fun l => bad (controlOf c l)) = none := List.find?_eq_none.mpr (by simpa using h)
  unfold controlOf at hnone
  simp only [controlGate, hnone]

/-- An instruction without reserved controls passes their check, and so may be said to make it. -/
theorem exec_with_controlGate {i : Instr} {eff : Ctx → State → Done} {s : State} (hbad : ∀ b, badControl i b = false)
    (h : exec i s = performPriv i.shape (privOf i) (fun _ _ => .go) eff s) :
    exec i s = performPriv i.shape (privOf i) (controlGate (badControl i)) eff s := by
  have hgate : controlGate (badControl i) = fun _ _ => .go := by
    funext c t
    exact controlGate_go (fun _ _ => hbad _) t
  rw [h, hgate]

theorem convert_eq_performPriv (x : V3) (sat : Bool) (s : State) :
    convert x sat s = performPriv (Shape.cvt x) privCheck (fun _ _ => .go)
      (fpEffect (cvtOut x sat) (if Shape.cvtPairD x.b then writeFp64 else writeFp1)) s := rfl

section
variable {x : V3}

theorem convert_of_single (h : Shape.cvtPairD x.b = false) (sat : Bool) (s : State) :
    convert x sat s = performPriv (Shape.cvt x) privCheck (fun _ _ => .go) (fpEffect (cvtOut x sat) writeFp1) s := by
  rw [convert_eq_performPriv, h, if_neg Bool.false_ne_true]

theorem convert_of_pair (h : Shape.cvtPairD x.b = true) (sat : Bool) (s : State) :
    convert x sat s = performPriv (Shape.cvt x) privCheck (fun _ _ => .go)
      (fpEffect (cvtOut x sat) fun c y => writeGroup c 2 y.half) s := by
  rw [convert_eq_performPriv, h, if_pos rfl]
  rfl

end

section
variable {i : Instr} {o : Ctx → FpOut}

/-- One result per lane: the check of the control operand, where there is one, and the result in D and b0. -/
theorem exec_of_fpOne (h : fpOne i = some o) (s : State) :
    exec i s = performPriv i.shape (privOf i) (controlGate (badControl i)) (fpEffect o writeFp1) s := by
  cases i with
  | pk8 | pk4 | upk8 | upk4 | qenc => cases h; rfl
  | cvt x | cvts x =>
    obtain ⟨hpair, ho⟩ : Shape.cvtPairD x.b = false ∧ some (cvtOut x _) = some o := by
      simpa [fpOne] using h
    cases ho
    exact exec_with_controlGate (fun _ => rfl) (convert_of_single hpair _ s)
  | fadd | fsub | fmul | fmin | fmax | fabs | fneg | fcpsgn | ffma | ffms | fnfma | fdiv | fsqrt | frcp | frsq | fexp2
  | flog2 | fsinpi | fcospi | ffloor | fceil | ftrunc | frint | ffract | hadd2 | hmul2 | hfma2 | hmax2 | badd2 | bmul2
  | bfma2 | bmax2 | qdec =>
    cases h
    exact exec_with_controlGate (fun _ => rfl) rfl
  | _ => cases h

/-- Four results per lane, in the group from D. -/
theorem exec_of_fpFour (h : fpFour i = some o) (s : State) :
    exec i s = performPriv i.shape (privOf i) (fun _ _ => .go) (fpEffect o fun c x => writeGroup c 4 x.cell) s := by
  cases i with
  | f4add | f4sub | f4mul | f4min | f4max | f4fma | f4fms => cases h; rfl
  | _ => cases h

/-- A 64-bit result per lane, in the pair from D. -/
theorem exec_of_fpWide (h : fpWide i = some o) (s : State) :
    exec i s = performPriv i.shape (privOf i) (fun _ _ => .go) (fpEffect o fun c x => writeGroup c 2 x.half) s := by
  cases i with
  | dadd | dsub | dmul | dfma | ddiv | dsqrt | dmin | dmax => cases h; rfl
  | cvt x | cvts x =>
    obtain ⟨hpair, ho⟩ : Shape.cvtPairD x.b = true ∧ some (cvtOut x _) = some o := by
      simpa [fpWide] using h
    cases ho
    exact convert_of_pair hpair _ s
  | _ => cases h

/-! ## The destination of a group -/

theorem fpFour_vd (h : fpFour i = some o) : ∃ d, i.shape.vd = some (d, 4) := by
  cases i with
  | f4add | f4sub | f4mul | f4min | f4max | f4fma | f4fms => exact ⟨_, rfl⟩
  | _ => cases h

theorem fpWide_vd (h : fpWide i = some o) : ∃ d, i.shape.vd = some (d, 2) := by
  cases i with
  | dadd | dsub | dmul | dfma | ddiv | dsqrt | dmin | dmax => exact ⟨_, rfl⟩
  | cvt x | cvts x =>
    have hpair : Shape.cvtPairD x.b = true := by
      by_contra hn
      simp [fpWide, hn] at h
    exact ⟨x.d, by simp [Instr.shape, Shape.cvt, hpair]⟩
  | _ => cases h

theorem vd_of_written {x : Shape} {d : BitVec 7 × Nat} (h : x.written = some d) : x.vd = some d := by
  unfold Shape.written at h
  split at h
  · cases h
  · exact h

/-- A group of `n` registers that passes the checks is vz or lies below code 120 (03 R38, R54). -/
theorem group_fits {s : State} {c : Ctx} {n : Nat} (hvd : ∃ d, i.shape.vd = some (d, n)) (h : Ready i s c)
    (d : BitVec 7 × Nat) (hd : c.shape.written = some d) : d.1.toNat = 124 ∨ d.1.toNat + n ≤ 124 := by
  obtain ⟨r, hr⟩ := hvd
  rw [← (context_team h.1).2.1, vd_of_written hd] at hr
  cases hr
  exact checks_group h.2 _ hd

/-! ## The trap after the result (04 R74) -/

/-- The trap is taken from the state in which the instruction, its results and flags written, has concluded. -/
theorem exec_traps_after_result {w : Ctx → FpOut → State → State} {own : Ctx → State → Gate} {s : State} {c : Ctx}
    {x : TrapInfo} (hexec : exec i s = performPriv i.shape (privOf i) own (fpEffect o w) s) (h : Ready i s c)
    (hown : own c s = .go) (hx : (o c).post c = some x) :
    ∃ q, exec i s = .next (takeTrap (conclude c { s := raiseFlags c ((o c).statBits c) (w c (o c) s) }) c.key
      { x with replay := q }) := by
  obtain ⟨q, hq⟩ := conclude_post c (fpEffect o w c s) x rfl hx
  exact ⟨q, by rw [hexec, performPriv_go h.1 h.2 hown, hq]; rfl⟩

theorem fpLane_traps {s : State} {c : Ctx} {x : TrapInfo} (hi : fpOne i = some o) (h : Ready i s c)
    (hctl : ∀ l ∈ lanesOf c.act, badControl i (controlOf c l) = false) (hx : (o c).post c = some x) :
    ∃ u q, FpLane c (o c) s u ∧ exec i s = .next (takeTrap u c.key { x with replay := q }) := by
  obtain ⟨q, hq⟩ := exec_traps_after_result (exec_of_fpOne hi s) h (controlGate_go hctl s) hx
  exact ⟨_, q, fpLane_effect (context_team h.1).1 none rfl, hq⟩

theorem fpGroup_traps {s : State} {c : Ctx} {x : TrapInfo} {n : Nat} {cells : FpOut → Nat → Nat → Cell}
    (hexec : exec i s = performPriv i.shape (privOf i) (fun _ _ => .go) (fpEffect o fun c x => writeGroup c n (cells x)) s)
    (hvd : ∃ d, i.shape.vd = some (d, n)) (h : Ready i s c) (hx : (o c).post c = some x) :
    ∃ u q, FpGroup c (o c) n (cells (o c)) s u ∧ exec i s = .next (takeTrap u c.key { x with replay := q }) := by
  obtain ⟨q, hq⟩ := exec_traps_after_result hexec h rfl hx
  exact ⟨_, q, fpGroup_effect (context_team h.1).1 (group_fits hvd h) none rfl, hq⟩

end

/-- Settles O7: the trap is taken from the concluded state, and that state holds the results and flags of the instruction's form. -/
theorem fpTrapAfterResult : Obligations.FpTrapAfterResult := by
  unfold Obligations.FpTrapAfterResult
  exact ⟨fun i o hi s c h hctl x hx => fpLane_traps hi h hctl hx,
    fun i o hi s c h x hx => fpGroup_traps (exec_of_fpFour hi s) (fpFour_vd hi) h hx,
    fun i o hi s c h x hx => fpGroup_traps (exec_of_fpWide hi s) (fpWide_vd hi) h hx⟩

end Sys2Proof.Machine

/-! # The word functions of the integer instructions, and rounding by a power of two (04 R63, 05 R77 to R80) -/

namespace Sys2Proof.Machine

/-! ## Products and differences (05 R77) -/

/-- The high word of a 64-bit value is its floor quotient by 2^32, signed or not. -/
theorem extractLsb'_high (x : BitVec 64) : x.extractLsb' 32 32 = BitVec.ofInt 32 (x.toInt / 2 ^ 32) := by
  apply BitVec.eq_of_toNat_eq
  have hlt := x.isLt
  rw [BitVec.extractLsb'_toNat, BitVec.toNat_ofInt, BitVec.toInt_eq_toNat_cond, Nat.shiftRight_eq_div_pow]
  split <;> omega

/-- The product of two words does not overflow in 64 bits. -/
theorem toInt_mul_signExtend (a b : Word) : (a.signExtend 64 * b.signExtend 64).toInt = a.toInt * b.toInt := by
  have ha := abs_le.mpr ⟨a.le_toInt, a.toInt_lt.le⟩
  have hb := abs_le.mpr ⟨b.le_toInt, b.toInt_lt.le⟩
  have hab : |a.toInt * b.toInt| ≤ 2 ^ 31 * 2 ^ 31 := by
    rw [abs_mul]
    exact mul_le_mul ha hb (abs_nonneg _) (by decide)
  obtain ⟨hlo, hhi⟩ := abs_le.mp hab
  rw [BitVec.toInt_mul, BitVec.toInt_signExtend_of_le (by decide), BitVec.toInt_signExtend_of_le (by decide)]
  apply Int.bmod_eq_of_le <;> omega

theorem mulhI_eq (a b : Word) : mulhI a b = BitVec.ofInt 32 (a.toInt * b.toInt / 2 ^ 32) := by
  rw [mulhI, extractLsb'_high, toInt_mul_signExtend]

theorem mulhN_eq (a b : Word) : mulhN a b = BitVec.ofNat 32 (a.toNat * b.toNat / 2 ^ 32) := by
  have hab : a.toNat * b.toNat < 2 ^ 32 * 2 ^ 32 := Nat.mul_lt_mul'' a.isLt b.isLt
  apply BitVec.eq_of_toNat_eq
  simp only [mulhN, BitVec.extractLsb'_toNat, BitVec.toNat_mul, BitVec.toNat_setWidth, BitVec.toNat_ofNat,
    Nat.shiftRight_eq_div_pow]
  rw [Nat.mod_eq_of_lt (show a.toNat < 2 ^ 64 by omega), Nat.mod_eq_of_lt (show b.toNat < 2 ^ 64 by omega),
    Nat.mod_eq_of_lt (show a.toNat * b.toNat < 2 ^ 64 by omega)]

/-- A difference of signed values, taken modulo 2^32. -/
theorem ofInt_toInt_sub (a b : Word) : BitVec.ofInt 32 (a.toInt - b.toInt) = a - b := by
  apply BitVec.eq_of_toInt_eq
  rw [BitVec.toInt_ofInt, BitVec.toInt_sub]

theorem absDiffI_eq (a b : Word) :
    absDiffI a b = BitVec.ofInt 32 (max (a.toInt - b.toInt) (b.toInt - a.toInt)) := by
  unfold absDiffI
  split
  · rename_i h
    have hlt := BitVec.slt_iff_toInt_lt.mp h
    rw [max_eq_right (by omega), ofInt_toInt_sub]
  · rename_i h
    have hle : ¬ a.toInt < b.toInt := fun hlt => h (BitVec.slt_iff_toInt_lt.mpr hlt)
    rw [max_eq_left (by omega), ofInt_toInt_sub]

theorem absDiffN_eq (a b : Word) :
    absDiffN a b = BitVec.ofNat 32 (max a.toNat b.toNat - min a.toNat b.toNat) := by
  unfold absDiffN
  split <;> bv_omega

/-! ## Shifts: at an amount of 32 and above the bits have all gone (05 R79) -/

theorem shlW_eq (a b : Word) : shlW a b = BitVec.ofNat 32 (a.toNat * 2 ^ (b.toNat % 256)) := by
  unfold shlW amount
  apply BitVec.eq_of_toNat_eq
  split
  · rename_i h
    have hdvd : 2 ^ 32 ∣ a.toNat * 2 ^ (b.toNat % 256) := (Nat.pow_dvd_pow 2 h).mul_left _
    simpa using (Nat.mod_eq_zero_of_dvd hdvd).symm
  · rw [BitVec.toNat_shiftLeft, BitVec.toNat_ofNat, Nat.shiftLeft_eq]

theorem shrW_eq (a b : Word) : shrW a b = BitVec.ofNat 32 (a.toNat / 2 ^ (b.toNat % 256)) := by
  unfold shrW amount
  apply BitVec.eq_of_toNat_eq
  have hle := Nat.div_le_self a.toNat (2 ^ (b.toNat % 256))
  split
  · rename_i h
    have hlt : a.toNat < 2 ^ (b.toNat % 256) := a.isLt.trans_le (Nat.pow_le_pow_right (by decide) h)
    rw [Nat.div_eq_of_lt hlt]
    rfl
  · rw [BitVec.toNat_ushiftRight, BitVec.toNat_ofNat, Nat.shiftRight_eq_div_pow, Nat.mod_eq_of_lt (hle.trans_lt a.isLt)]

theorem sarW_eq (a b : Word) : sarW a b = BitVec.ofInt 32 (a.toInt / 2 ^ (b.toNat % 256)) := by
  have hsshr : sarW a b = a.sshiftRight (amount b) := by
    unfold sarW
    split
    · rename_i h
      apply BitVec.eq_of_getLsbD_eq
      intro l hl
      rw [BitVec.getLsbD_sshiftRight]
      cases hm : a.msb <;> simp [hl, show ¬ amount b + l < 32 by omega, -BitVec.reduceAllOnes]
    · rfl
  rw [hsshr, BitVec.sshiftRight_eq, Int.shiftRight_eq_div_pow, amount]
  push_cast
  rfl

/-! ## Bit fields (05 R80) -/

theorem bfxNW_getLsbD (a b : Word) {k : Nat} (hk : k < 32) :
    (bfxNW a b).getLsbD k = (decide (k < fieldWidth b) && a.getLsbD (fieldPos b + k)) := by
  simp only [bfxNW, BitVec.getLsbD_ofNat, hk, decide_true, Bool.true_and, Nat.testBit_mod_two_pow, Nat.testBit_div_two_pow,
    BitVec.testBit_toNat, Nat.add_comm k]

/-- Sign extension repeats the top bit of the field. -/
theorem sextNat_testBit {v n m k : Nat} (hn : 0 < n) (hnm : n ≤ m) (hk : k < m) :
    (Bits.sextNat v n m).testBit k = v.testBit (min k (n - 1)) := by
  have hlt : v % 2 ^ n < 2 ^ n := Nat.mod_lt _ (Nat.two_pow_pos n)
  have htop : (v % 2 ^ n).testBit (n - 1) = v.testBit (n - 1) := by
    rw [Nat.testBit_mod_two_pow, decide_eq_true (by omega), Bool.true_and]
  have hsplit : 2 ^ n = 2 * 2 ^ (n - 1) := by rw [← pow_succ', Nat.sub_add_cancel hn]
  have hlow : k < n → (v % 2 ^ n).testBit k = v.testBit (min k (n - 1)) := fun h => by
    rw [Nat.testBit_mod_two_pow, decide_eq_true h, Bool.true_and, min_eq_left (by omega)]
  unfold Bits.sextNat
  dsimp only
  split
  case isTrue hneg =>
    have htrue : v.testBit (n - 1) = true := by
      rw [← htop, Nat.testBit_eq_decide_div_mod_eq, decide_eq_true_eq]
      have hdiv : v % 2 ^ n / 2 ^ (n - 1) = 1 := Nat.div_eq_of_lt_le (by omega) (by omega)
      rw [hdiv]
    have hone : 1 ≤ 2 ^ (m - n) := Nat.one_le_two_pow
    have hsum : v % 2 ^ n + 2 ^ m - 2 ^ n = 2 ^ n * (2 ^ (m - n) - 1) + v % 2 ^ n := by
      have hpow : 2 ^ m = 2 ^ n * 2 ^ (m - n) := by rw [← pow_add, Nat.add_sub_cancel' hnm]
      have hle : 2 ^ n ≤ 2 ^ m := Nat.pow_le_pow_right (by decide) hnm
      rw [Nat.mul_sub, ← hpow, Nat.mul_one]
      omega
    rw [hsum, Nat.testBit_mod_two_pow, decide_eq_true hk, Bool.true_and, Nat.testBit_two_pow_mul_add _ hlt]
    split
    · exact hlow ‹_›
    · rw [Nat.testBit_two_pow_sub_one, decide_eq_true (by omega), min_eq_right (by omega), htrue]
  case isFalse hpos =>
    by_cases h : k < n
    · exact hlow h
    · have hfalse : v.testBit (n - 1) = false := by
        rw [← htop]
        exact Nat.testBit_lt_two_pow (not_le.mp hpos)
      rw [min_eq_right (by omega), hfalse]
      exact Nat.testBit_lt_two_pow (hlt.trans_le (Nat.pow_le_pow_right (by decide) (not_lt.mp h)))

theorem bfxIW_getLsbD (a b : Word) (hw : 0 < fieldWidth b) {k : Nat} (hk : k < 32) :
    (bfxIW a b).getLsbD k = a.getLsbD (fieldPos b + min k (fieldWidth b - 1)) := by
  have hle : fieldWidth b ≤ 32 := (min_le_left _ _).trans (min_le_right _ _)
  rw [bfxIW, if_neg hw.ne', BitVec.getLsbD_ofNat, decide_eq_true hk, Bool.true_and, sextNat_testBit hw hle hk,
    Nat.testBit_div_two_pow, BitVec.testBit_toNat, Nat.add_comm]

theorem bfxIW_of_empty (a b : Word) (hw : fieldWidth b = 0) : bfxIW a b = 0 := by rw [bfxIW, if_pos hw]

theorem bfiW_getLsbD (a b d : Word) {k : Nat} (hk : k < 32) :
    (bfiW a b d).getLsbD k =
      if fieldPos b ≤ k ∧ k < fieldPos b + fieldWidth b then a.getLsbD (k - fieldPos b) else d.getLsbD k := by
  have hd : d.toNat % 2 ^ fieldPos b < 2 ^ fieldPos b := Nat.mod_lt _ (Nat.two_pow_pos _)
  have ha : a.toNat % 2 ^ fieldWidth b < 2 ^ fieldWidth b := Nat.mod_lt _ (Nat.two_pow_pos _)
  have hparts : d.toNat / 2 ^ (fieldPos b + fieldWidth b) * 2 ^ (fieldPos b + fieldWidth b) +
      a.toNat % 2 ^ fieldWidth b * 2 ^ fieldPos b + d.toNat % 2 ^ fieldPos b =
      2 ^ fieldPos b * (2 ^ fieldWidth b * (d.toNat / 2 ^ (fieldPos b + fieldWidth b)) + a.toNat % 2 ^ fieldWidth b) +
        d.toNat % 2 ^ fieldPos b := by
    rw [pow_add]
    ring
  rw [bfiW, hparts, BitVec.getLsbD_ofNat, decide_eq_true hk, Bool.true_and, Nat.testBit_two_pow_mul_add _ hd,
    Nat.testBit_two_pow_mul_add _ ha]
  split_ifs with h1 h2 h3 h4 h5
  · omega
  · rw [Nat.testBit_mod_two_pow, decide_eq_true h1, Bool.true_and, BitVec.testBit_toNat]
  · rw [Nat.testBit_mod_two_pow, decide_eq_true h3, Bool.true_and, BitVec.testBit_toNat]
  · omega
  · omega
  · rw [Nat.testBit_div_two_pow, BitVec.testBit_toNat]
    congr 1
    omega

/-! ## PRMB (05 R80) -/

/-- Eight bits of the pool of a PRMB: four bytes of A, then four of the old D. -/
theorem pool_testBit (a d : Word) (p : Nat) {m : Nat} (hm : m < 8) :
    ((d.toNat * 2 ^ 32 + a.toNat) / 2 ^ p % 256).testBit m = (d ++ a).getLsbD (p + m) := by
  have hpool : d.toNat * 2 ^ 32 + a.toNat = (d ++ a).toNat := by
    rw [BitVec.toNat_append, ← Nat.shiftLeft_add_eq_or_of_lt a.isLt, Nat.shiftLeft_eq]
  rw [hpool, show 256 = 2 ^ 8 from rfl, Nat.testBit_mod_two_pow, decide_eq_true hm, Bool.true_and, Nat.testBit_div_two_pow,
    BitVec.testBit_toNat, Nat.add_comm m p]

theorem testBit_255 {j : Nat} (hj : j < 8) : (255 : Nat).testBit j = true := by
  rw [show 255 = 2 ^ 8 - 1 from rfl, Nat.testBit_two_pow_sub_one, decide_eq_true hj]

/-- Eight copies of a byte's top bit. -/
theorem topBit_copies_testBit {x j : Nat} (hx : x < 256) (hj : j < 8) : (if 128 ≤ x then 255 else 0).testBit j = x.testBit 7 := by
  split
  · rw [testBit_255 hj, Nat.testBit_eq_decide_div_mod_eq, show x / 2 ^ 7 = 1 by omega]
    rfl
  · rw [Nat.zero_testBit, Nat.testBit_lt_two_pow (by omega)]

theorem prmbByte_lt (a b d : Word) (k : Nat) : prmbByte a b d k < 2 ^ 8 := by
  unfold prmbByte
  dsimp only
  split
  · exact Nat.mod_lt _ (by decide)
  · decide
  · decide
  · split <;> decide

/-- The fill modes of PRMB on any byte, bit by bit. -/
theorem fill_testBit {x j : Nat} (mode : Nat) (hx : x < 256) (hj : j < 8) :
    (match mode with
      | 0 => x
      | 1 => 0
      | 2 => 255
      | _ => if 128 ≤ x then 255 else 0).testBit j =
    match mode with
      | 0 => x.testBit j
      | 1 => false
      | 2 => true
      | _ => x.testBit 7 := by
  match mode with
  | 0 => rfl
  | 1 => exact Nat.zero_testBit j
  | 2 => exact testBit_255 hj
  | _ + 3 => exact topBit_copies_testBit hx hj

theorem prmbByte_testBit (a b d : Word) (k : Nat) {j : Nat} (hj : j < 8) :
    (prmbByte a b d k).testBit j = match b.toNat / 2 ^ (12 + 2 * k) % 4 with
      | 0 => (d ++ a).getLsbD (8 * (b.toNat / 2 ^ (3 * k) % 8) + j)
      | 1 => false
      | 2 => true
      | _ => (d ++ a).getLsbD (8 * (b.toNat / 2 ^ (3 * k) % 8) + 7) := by
  rw [Nat.add_comm 12, ← pool_testBit a d _ hj, ← pool_testBit a d _ (Nat.lt_add_one 7)]
  exact fill_testBit _ (Nat.mod_lt _ (by decide)) hj

/-- A number made of four bytes, bit by bit. -/
theorem fourBytes_testBit {f : Nat → Nat} (hf : ∀ k, f k < 2 ^ 8) {k j : Nat} (hk : k < 4) (hj : j < 8) :
    (f 0 + 2 ^ 8 * f 1 + 2 ^ 16 * f 2 + 2 ^ 24 * f 3).testBit (8 * k + j) = (f k).testBit j := by
  have hnest : f 0 + 2 ^ 8 * f 1 + 2 ^ 16 * f 2 + 2 ^ 24 * f 3 =
      2 ^ 8 * (2 ^ 8 * (2 ^ 8 * f 3 + f 2) + f 1) + f 0 := by ring
  rw [hnest, Nat.testBit_two_pow_mul_add _ (hf 0), Nat.testBit_two_pow_mul_add _ (hf 1), Nat.testBit_two_pow_mul_add _ (hf 2)]
  obtain rfl | rfl | rfl | rfl : k = 0 ∨ k = 1 ∨ k = 2 ∨ k = 3 := by omega
  · rw [if_pos (by omega), Nat.mul_zero, Nat.zero_add]
  · rw [if_neg (by omega), if_pos (by omega)]
    congr 1; omega
  · rw [if_neg (by omega), if_neg (by omega), if_pos (by omega)]
    congr 1; omega
  · rw [if_neg (by omega), if_neg (by omega), if_neg (by omega)]
    congr 1; omega

theorem prmbW_getLsbD (a b d : Word) {k j : Nat} (hk : k < 4) (hj : j < 8) :
    (prmbW a b d).getLsbD (8 * k + j) = (prmbByte a b d k).testBit j := by
  rw [prmbW, BitVec.getLsbD_ofNat, decide_eq_true (by omega), Bool.true_and, fourBytes_testBit (prmbByte_lt a b d) hk hj]

/-! ## Counts and reversal (05 R80) -/

theorem brevW_getLsbD (a : Word) {k : Nat} (hk : k < 32) : (brevW a).getLsbD k = a.getLsbD (31 - k) := maskOf_getLsbD _ _ hk

theorem laneList_eq_range : laneList = List.range 32 := by decide

theorem popcW_toNat (a : Word) : (popcW a).toNat = ((List.range 32).filter fun k => a.getLsbD k).length := by
  have hle : ((List.range 32).filter fun k => a.getLsbD k).length ≤ 32 :=
    (List.length_filter_le _ _).trans List.length_range.le
  rw [popcW, laneList_eq_range, BitVec.toNat_ofNat, Nat.mod_eq_of_lt (by omega)]

theorem log2_toNat_lt {a : Word} (ha : a ≠ 0) : Nat.log2 a.toNat < 32 :=
  (Nat.log2_lt (by simpa [BitVec.toNat_eq] using ha)).mpr a.isLt

theorem clzW_toNat (a : Word) : (clzW a).toNat = if a = 0 then 32 else 31 - Nat.log2 a.toNat := by
  rw [clzW, BitVec.toNat_ofNat, Nat.mod_eq_of_lt (by split <;> omega)]

/-- The bits that CLZ counts are zero. -/
theorem getLsbD_of_clzW {a : Word} {k : Nat} (hk : k < 32) (h : 32 ≤ k + (clzW a).toNat) : a.getLsbD k = false := by
  rw [clzW_toNat] at h
  split at h
  · simp [*]
  · rename_i ha
    have hlog := log2_toNat_lt ha
    rw [← BitVec.testBit_toNat]
    exact Nat.testBit_lt_two_pow (Nat.lt_log2_self.trans_le (Nat.pow_le_pow_right (by decide) (by omega)))

/-- The bit below them is set. -/
theorem getLsbD_clzW {a : Word} (ha : a ≠ 0) : (clzW a).toNat < 32 ∧ a.getLsbD (31 - (clzW a).toNat) = true := by
  have hlog := log2_toNat_lt ha
  rw [clzW_toNat, if_neg ha, ← BitVec.testBit_toNat, Nat.sub_sub_self (by omega)]
  exact ⟨by omega, Nat.testBit_log2 (by simpa [BitVec.toNat_eq] using ha)⟩

/-! ## Rounding a quotient by a power of two (04 R63) -/

/-- Half a unit added before the division carries into the quotient where the remainder is half a unit or more. -/
theorem add_half_div {m k : Nat} (hk : 0 < k) :
    (m + 2 ^ (k - 1)) / 2 ^ k = if 2 ^ (k - 1) ≤ m % 2 ^ k then m / 2 ^ k + 1 else m / 2 ^ k := by
  have hsplit : 2 ^ k = 2 * 2 ^ (k - 1) := by rw [← pow_succ', Nat.sub_add_cancel hk]
  have hlt := Nat.mod_lt m (Nat.two_pow_pos k)
  have hsum : m + 2 ^ (k - 1) = m % 2 ^ k + 2 ^ (k - 1) + 2 ^ k * (m / 2 ^ k) := by
    have hdiv := Nat.div_add_mod m (2 ^ k)
    omega
  rw [hsum, Nat.add_mul_div_left _ _ (Nat.two_pow_pos k)]
  split
  · have hone : (m % 2 ^ k + 2 ^ (k - 1)) / 2 ^ k = 1 := Nat.div_eq_of_lt_le (by omega) (by omega)
    rw [hone, Nat.add_comm]
  · rw [Nat.div_eq_of_lt (by omega), Nat.zero_add]

section
variable (neg : Bool) (m : Nat) {k : Nat} (hk : 0 < k)
include hk

theorem roundShift_inexact (mode : Nat) : (roundShift mode neg m k).2 = decide (m % 2 ^ k ≠ 0) := by
  rw [roundShift, if_neg hk.ne']

theorem roundShift_towardZero : (roundShift 1 neg m k).1 = m / 2 ^ k := by
  rw [roundShift, if_neg hk.ne']
  rfl

theorem roundShift_up : (roundShift 2 neg m k).1 = if neg || m % 2 ^ k = 0 then m / 2 ^ k else m / 2 ^ k + 1 := by
  rw [roundShift, if_neg hk.ne']
  cases neg <;> simp [Nat.pos_iff_ne_zero]

theorem roundShift_down : (roundShift 3 neg m k).1 = if neg && m % 2 ^ k ≠ 0 then m / 2 ^ k + 1 else m / 2 ^ k := by
  rw [roundShift, if_neg hk.ne']
  cases neg <;> simp [Nat.pos_iff_ne_zero]

theorem roundShift_tiesAway : (roundShift 4 neg m k).1 = (m + 2 ^ (k - 1)) / 2 ^ k := by
  rw [roundShift, if_neg hk.ne', add_half_div hk]
  simp

theorem roundShift_tiesEven : (roundShift 0 neg m k).1 =
    if m % 2 ^ k = 2 ^ (k - 1) ∧ m / 2 ^ k % 2 = 0 then m / 2 ^ k else (m + 2 ^ (k - 1)) / 2 ^ k := by
  rw [roundShift, if_neg hk.ne', add_half_div hk]
  simp only [Bool.or_eq_true, Bool.and_eq_true, decide_eq_true_eq]
  split_ifs <;> omega

end

/-- Settles O50: each word function by its own lemma, a field by its position and width. -/
theorem wordFunctions : Obligations.WordFunctions := by
  unfold Obligations.WordFunctions
  refine ⟨fun a b => ?products, fun a b => ?shifts, fun a b d => ?fields, fun a b d k j hk hj => ?permute, fun a => ?counts,
    fun neg m k hk => ?rounding⟩
  case products => exact ⟨mulhI_eq a b, mulhN_eq a b, absDiffI_eq a b, absDiffN_eq a b⟩
  case shifts => exact ⟨shlW_eq a b, shrW_eq a b, sarW_eq a b⟩
  case fields =>
    exact ⟨fun _ => bfxNW_getLsbD a b, fun hw _ => bfxIW_getLsbD a b hw, bfxIW_of_empty a b, fun _ => bfiW_getLsbD a b d⟩
  case permute => exact (prmbW_getLsbD a b d hk hj).trans (prmbByte_testBit a b d k hj)
  case counts =>
    exact ⟨fun _ => brevW_getLsbD a, popcW_toNat a, fun _ => getLsbD_of_clzW, getLsbD_clzW, fun h => by rw [clzW_toNat, if_pos h]⟩
  case rounding =>
    exact ⟨roundShift_towardZero neg m hk, roundShift_up neg m hk, roundShift_down neg m hk, roundShift_tiesAway neg m hk,
      roundShift_tiesEven neg m hk, fun mode => by simp [roundShift_inexact neg m hk mode]⟩

end Sys2Proof.Machine

/-! # Vector integer, immediate and lane instructions (05 R75 to R84, R93, 06 R114) -/

namespace Sys2Proof.Machine

open Sys2Proof.Spec

/-! ## The forms of an instruction without a trap of its own -/

/-- An instruction without a gate of its own, once it is ready, concludes after its effect. -/
theorem exec_of_ready {i : Instr} {eff : Ctx → State → Done} {s : State} {c : Ctx}
    (hexec : exec i s = performPriv i.shape (privOf i) (fun _ _ => .go) eff s) (h : Ready i s c) :
    exec i s = .next (conclude c (eff c s)) :=
  hexec.trans (performPriv_go h.1 h.2 rfl)

/-- The instruction makes one cell per lane of what it has captured. -/
def WritesCells (i : Instr) (f : Ctx → Nat → Cell) : Prop :=
  ∀ s, exec i s = performPriv i.shape (privOf i) (fun _ _ => .go) (fun c s => { s := writeVector c (f c) s }) s

/-- The instruction makes words for scalar registers of what it has captured. -/
def WritesScalars (i : Instr) (f : Ctx → List Word) : Prop :=
  ∀ s, exec i s = performPriv i.shape (privOf i) (fun _ _ => .go) (fun c s => { s := writeScalars c (f c) s }) s

/-- The instruction makes a predicate of what it has captured. -/
def WritesPred (i : Instr) (m : Ctx → Word) : Prop :=
  ∀ s, exec i s = performPriv i.shape (privOf i) (fun _ _ => .go) (fun c s => { s := writePred c (m c) s }) s

section
variable {i : Instr} {s : State} {c : Ctx}

theorem WritesCells.result {f : Ctx → Nat → Cell} (hi : WritesCells i f) (h : Ready i s c) :
    ∃ t, exec i s = .next t ∧ LaneResult c (f c) s t :=
  ⟨_, exec_of_ready (hi s) h, lane_result (context_team h.1).1⟩

theorem WritesScalars.result {f : Ctx → List Word} (hi : WritesScalars i f) (h : Ready i s c) :
    ∃ t, exec i s = .next t ∧ ScalarResult c (f c) s t :=
  ⟨_, exec_of_ready (hi s) h, scalar_result (context_team h.1).1⟩

theorem WritesPred.result {m : Ctx → Word} (hi : WritesPred i m) (h : Ready i s c) :
    ∃ t, exec i s = .next t ∧ PredResult c (m c).getLsbD s t :=
  ⟨_, exec_of_ready (hi s) h, pred_result (context_team h.1).1⟩

theorem WritesCells.congr {f g : Ctx → Nat → Cell} (hi : WritesCells i f) (e : ∀ c l, f c l = g c l) : WritesCells i g := by
  rw [show g = f from funext fun c => funext fun l => (e c l).symm]
  exact hi

theorem WritesScalars.congr {f g : Ctx → List Word} (hi : WritesScalars i f) (e : ∀ c, f c = g c) : WritesScalars i g := by
  rw [show g = f from funext fun c => (e c).symm]
  exact hi

end

/-! ## Register operations (05 R77 to R80) -/

/-- A word for each lane from A, B and the old D, with tag 63 (05 R75, 04 R68). -/
def wordCell (f : Word → Word → Word → Word) (c : Ctx) (l : Nat) : Cell := ⟨f (c.v 0 0 l).val (c.v 1 0 l).val (c.v 2 0 l).val, 63⟩

theorem WritesCells.word {i : Instr} {f g : Word → Word → Word → Word} (hi : WritesCells i (wordCell f))
    (e : ∀ a b d, f a b d = g a b d) : WritesCells i (wordCell g) :=
  hi.congr fun _ _ => by rw [wordCell, wordCell, e]

/-- The two minima differ in which of two equal words they give. -/
theorem minI_eq (a b : Word) : minI a b = if a.slt b then a else b := by
  unfold minI
  simp only [BitVec.slt_iff_toInt_lt]
  split_ifs with h1 h2 h2
  · omega
  · rfl
  · rfl
  · exact BitVec.eq_of_toInt_eq (by omega)

theorem minN_eq (a b : Word) : minN a b = if a < b then a else b := by
  unfold minN
  split_ifs <;> bv_omega

theorem clampI_eq (x : Int) : clampI x = BitVec.ofInt 32 (clamp (-2 ^ 31) (2 ^ 31 - 1) x) := rfl

theorem clampN_eq (x : Int) : clampN x = BitVec.ofInt 32 (clamp 0 (2 ^ 32 - 1) x) := rfl

theorem writesCells_of_wordOp {i : Instr} {f : Word → Word → Word → Word} (h : wordOp i = some f) :
    WritesCells i (wordCell f) := by
  cases i with
  | iadd | isub | imul | imad | imaxI | imaxN | iaddsI | isubsI | iaddsN | isubsN | and | or | xor | andn | orn | rotl | bfxI
  | bfxN | bfi | prmb | clz | popc | brev => cases h; exact fun _ => rfl
  | imulhI => cases h; exact .word (f := fun a b _ => mulhI a b) (fun _ => rfl) fun a b _ => mulhI_eq a b
  | imulhN => cases h; exact .word (f := fun a b _ => mulhN a b) (fun _ => rfl) fun a b _ => mulhN_eq a b
  | iabsdI => cases h; exact .word (f := fun a b _ => absDiffI a b) (fun _ => rfl) fun a b _ => absDiffI_eq a b
  | isadN =>
    cases h
    exact .word (f := fun a b d => d + absDiffN a b) (fun _ => rfl) fun a b d => congrArg (d + ·) (absDiffN_eq a b)
  | iminI => cases h; exact .word (f := fun a b _ => minI a b) (fun _ => rfl) fun a b _ => minI_eq a b
  | iminN => cases h; exact .word (f := fun a b _ => minN a b) (fun _ => rfl) fun a b _ => minN_eq a b
  | shl => cases h; exact .word (f := fun a b _ => shlW a b) (fun _ => rfl) fun a b _ => shlW_eq a b
  | shr => cases h; exact .word (f := fun a b _ => shrW a b) (fun _ => rfl) fun a b _ => shrW_eq a b
  | sar => cases h; exact .word (f := fun a b _ => sarW a b) (fun _ => rfl) fun a b _ => sarW_eq a b
  | _ => cases h

/-- Settles O1: each instruction writes one word per lane, equal to that of the statement by the word functions' lemmas. -/
theorem integerLaneResults : Obligations.IntegerLaneResults := by
  unfold Obligations.IntegerLaneResults
  exact fun i f hi s c h => (writesCells_of_wordOp hi).result h

/-! ## Immediates (05 R81) -/

/-- An instruction that writes one cell per lane unless the immediate is an amount of 32 or more. -/
def ImmediateCells (i : Instr) (x : VI) (amt : Bool) (f : Word → Word → Word) : Prop :=
  ∀ s, exec i s = performPriv i.shape (privOf i) (fun c _ => if amt then amountGate (c.immVI x) else .go)
    (fun c s => { s := writeVector c (fun l => ⟨f (c.v 0 0 l).val (c.immVI x), 63⟩) s }) s

theorem immediateCells_of_immOp {i : Instr} {x : VI} {amt : Bool} {f : Word → Word → Word} (h : immOp i = some (x, amt, f)) :
    ImmediateCells i x amt f := by
  cases i with
  | iaddi | andi | ori | xori | shli | shri | sari | rotli => cases h; exact fun _ => rfl
  | _ => cases h

/-- A gate that traps keeps an instruction from being performed. -/
theorem performPriv_gate_trap {h : Shape} {priv : Ctx → State → Option Nat} {own : Ctx → State → Gate}
    {eff : Ctx → State → Done} {s : State} {c : Ctx} {r : Raise} (hc : context h s = some c) (hk : checks priv c s = .ok)
    (hg : own c s = .trap r) :
    performPriv h priv own eff s = .next (trapHead c r c.act s) := by
  simp only [performPriv, hc, issue, hk, hg]

theorem amountGate_go {w : Word} (h : w.toNat < 32) : amountGate w = .go := if_neg (by omega)

theorem amountGate_trap {w : Word} (h : 32 ≤ w.toNat) : amountGate w = .trap { cause := 1 } := if_pos h

/-- Settles O2: the gate on the amount decides between the lane result and ILLEGAL. -/
theorem immediateLaneResults : Obligations.ImmediateLaneResults := by
  unfold Obligations.ImmediateLaneResults
  intro i x amt f hi s c h
  have hexec := immediateCells_of_immOp hi s
  refine ⟨fun hlt => ?completes, fun hamt hge => ?traps⟩
  case completes =>
    have hgate : (if amt then amountGate (c.immVI x) else .go) = .go := by
      split
      · exact amountGate_go (hlt ‹_›)
      · rfl
    exact ⟨_, hexec.trans (performPriv_go h.1 h.2 hgate), lane_result (context_team h.1).1⟩
  case traps =>
    exact hexec.trans (performPriv_gate_trap h.1 h.2 ((if_pos hamt).trans (amountGate_trap hge)))

/-! ## Lanes, moves and tags (05 R82 to R84, R93, 06 R114) -/

/-- A reduction over the active lanes that a test picks for lane l (05 R83). -/
def reduceCell (f : Word → Word → Word) (z : Word) (pick : Nat → Nat → Bool) (c : Ctx) (l : Nat) : Cell :=
  ⟨((lanesOf c.act).filter (pick l)).foldl (fun r j => f r (c.v 0 0 j).val) z, 63⟩

/-- A reduction whose test picks every lane runs over the active lanes. -/
theorem WritesCells.reduceAll {i : Instr} {f : Word → Word → Word} {z : Word} (hi : WritesCells i (reduceCell f z fun _ _ => true)) :
    WritesCells i fun c _ => ⟨(lanesOf c.act).foldl (fun r j => f r (c.v 0 0 j).val) z, 63⟩ :=
  hi.congr fun _ _ => by rw [reduceCell, List.filter_true]

/-- A shuffle from the source lane that lane l and its distance give (05 R82). -/
def shuffleCell (src : Nat → Nat → Nat) (c : Ctx) (l : Nat) : Cell := c.v 0 0 (src l ((c.v 1 0 l).val.toNat % 32))

theorem WritesCells.shuffle {i : Instr} {src src' : Nat → Nat → Nat} (hi : WritesCells i (shuffleCell src))
    (e : ∀ l k, src l k = src' l k) : WritesCells i (shuffleCell src') :=
  hi.congr fun _ _ => by rw [shuffleCell, shuffleCell, e]

theorem writesCells_of_cellOp {i : Instr} {f : Ctx → Nat → Cell} (h : cellOp i = some f) : WritesCells i f := by
  cases i with
  | shfl | shflx | tscanI | mov | laneid | lidx | bcast | tagrd | tagwr | tagmin | tagfull | tagunt => cases h; exact fun _ => rfl
  | tsumI => cases h; exact .reduceAll (f := (· + ·)) fun _ => rfl
  | tminI => cases h; exact .reduceAll (f := minI) fun _ => rfl
  | tmaxI => cases h; exact .reduceAll (f := maxI) fun _ => rfl
  | shflup =>
    cases h
    exact .shuffle (src := fun l k => if l < k then l else l - k) (src' := fun l k => if k ≤ l then l - k else l)
      (fun _ => rfl) fun l k => by simp only [← not_le, ite_not]
  | shfldn =>
    cases h
    exact .shuffle (src := fun l k => if 31 < l + k then l else l + k)
      (src' := fun l k => if l + k ≤ 31 then l + k else l) (fun _ => rfl) fun l k => by simp only [← not_le, ite_not]
  | _ => cases h

/-- Settles O3: each instruction writes the cell that the statement names. -/
theorem laneCellResults : Obligations.LaneCellResults := by
  unfold Obligations.LaneCellResults
  exact fun i f hi s c h => (writesCells_of_cellOp hi).result h

end Sys2Proof.Machine

/-! # Predicate compares and logic (05 R85 to R88) -/

namespace Sys2Proof.Machine

open Sys2Proof.Spec

/-! ## Active lanes -/

theorem mem_lanesOf {m : Word} {l : Nat} : l ∈ lanesOf m ↔ l < 32 ∧ m.getLsbD l = true := by
  rw [lanesOf, laneList_eq_range, List.mem_filter, List.mem_range]

/-- Two masks have a lane in common where an active lane of the one is set in the other. -/
theorem and_ne_zero_iff_any (a m : Word) : a &&& m ≠ 0 ↔ (lanesOf m).any a.getLsbD = true := by
  rw [List.any_eq_true]
  constructor
  · intro h
    by_contra hn
    refine h (BitVec.eq_of_getLsbD_eq fun l hl => ?_)
    have hnone : ¬ (m.getLsbD l = true ∧ a.getLsbD l = true) := fun hl' => hn ⟨l, mem_lanesOf.mpr ⟨hl, hl'.1⟩, hl'.2⟩
    revert hnone
    rw [BitVec.getLsbD_and]
    cases a.getLsbD l <;> cases m.getLsbD l <;> simp
  · rintro ⟨l, hl, ha⟩ h
    have hbit := congrArg (fun w : Word => w.getLsbD l) h
    simp [ha, (mem_lanesOf.mp hl).2] at hbit

theorem and_not_eq_zero_iff_all (a m : Word) : m &&& ~~~a = 0 ↔ (lanesOf m).all a.getLsbD = true := by
  rw [BitVec.and_comm, ← not_iff_not, ← ne_eq, and_ne_zero_iff_any, List.all_eq_not_any_not, Bool.not_eq_true,
    Bool.not_eq_false', List.any_eq_true, List.any_eq_true]
  refine exists_congr fun l => and_congr_right fun hl => ?_
  rw [BitVec.getLsbD_not, decide_eq_true (mem_lanesOf.mp hl).1, Bool.true_and]

/-- A mask of all lanes or of none, by the truth of a condition. -/
theorem allOnes_ite_getLsbD {p : Prop} [Decidable p] {b : Bool} (hp : p ↔ b = true) {l : Nat} (hl : l < 32) :
    (if p then BitVec.allOnes 32 else 0).getLsbD l = b := by
  cases b with
  | true => rw [if_pos (hp.mpr rfl), BitVec.getLsbD_allOnes, decide_eq_true hl]
  | false => rw [if_neg fun h => Bool.false_ne_true (hp.mp h)]; exact BitVec.getLsbD_zero

/-! ## The forms of a predicate instruction -/

/-- The lanes in which a condition and PA hold (05 R85). -/
def compareMask (cond : Ctx → Nat → Bool) (c : Ctx) : Word := maskOf (cond c) &&& c.pred 0

theorem compareMask_getLsbD (cond : Ctx → Nat → Bool) (c : Ctx) {l : Nat} (hl : l < 32) :
    (compareMask cond c).getLsbD l = (cond c l && (c.pred 0).getLsbD l) := by
  rw [compareMask, BitVec.getLsbD_and, maskOf_getLsbD _ _ hl]

/-- A predicate instruction, by the mask it makes; what it holds in the 32 lanes is the condition of the statement. -/
def WritesLanes (i : Instr) (m : Ctx → Nat → Bool) : Prop :=
  ∃ w, WritesPred i w ∧ ∀ c l, l < 32 → m c l = (w c).getLsbD l

theorem WritesLanes.result {i : Instr} {m : Ctx → Nat → Bool} {s : State} {c : Ctx} (hi : WritesLanes i m) (h : Ready i s c) :
    ∃ t, exec i s = .next t ∧ PredResult c (m c) s t := by
  obtain ⟨w, hw, hm⟩ := hi
  obtain ⟨t, ht, hres⟩ := hw.result h
  exact ⟨t, ht, hres.ext (hm c)⟩

/-- A compare, by its condition before PA. -/
theorem WritesLanes.compare {i : Instr} {m : Ctx → Nat → Bool} (cond : Ctx → Nat → Bool) (hi : WritesPred i (compareMask cond))
    (e : ∀ c l, m c l = (cond c l && (c.pred 0).getLsbD l)) : WritesLanes i m :=
  ⟨_, hi, fun c l hl => (e c l).trans (compareMask_getLsbD cond c hl).symm⟩

/-- PELECT: the mask of the one lane that an election gives, if it gives one (05 R88). -/
theorem pelect_getLsbD (o : Option Nat) {l : Nat} (hl : l < 32) :
    (match o with | some i => maskOf fun j => j = i | none => 0 : Word).getLsbD l = (o == some l) := by
  cases o with
  | none => exact BitVec.getLsbD_zero
  | some i => exact (maskOf_getLsbD _ l hl).trans (decide_eq_decide.mpr eq_comm)

/-- An integer compare, by its condition on two words (05 R86). -/
def wordCond (f : Word → Word → Bool) (c : Ctx) (l : Nat) : Bool := f (c.v 0 0 l).val (c.v 1 0 l).val

theorem decide_ne_eq_bne (a b : Word) : decide (a ≠ b) = (a != b) := decide_not ..

theorem writesLanes_of_predOp {i : Instr} {m : Ctx → Nat → Bool} (h : predOp i = some m) : WritesLanes i m := by
  cases i with
  | iseq => cases h; exact .compare (wordCond fun a b => a = b) (fun _ => rfl) fun _ _ => rfl
  | isne => cases h; exact .compare (wordCond fun a b => a ≠ b) (fun _ => rfl) fun _ _ => by rw [wordCond, decide_ne_eq_bne]
  | isltI => cases h; exact .compare (wordCond fun a b => a.slt b) (fun _ => rfl) fun _ _ => rfl
  | isleI => cases h; exact .compare (wordCond fun a b => a.sle b) (fun _ => rfl) fun _ _ => rfl
  | isltN => cases h; exact .compare (wordCond fun a b => a < b) (fun _ => rfl) fun _ _ => rfl
  | isleN => cases h; exact .compare (wordCond fun a b => a ≤ b) (fun _ => rfl) fun _ _ => rfl
  | isany => cases h; exact .compare (wordCond fun a b => a &&& b ≠ 0) (fun _ => rfl) fun _ _ => by rw [wordCond, decide_ne_eq_bne]
  | isnone => cases h; exact .compare (wordCond fun a b => a &&& b = 0) (fun _ => rfl) fun _ _ => rfl
  | fsnan => cases h; exact .compare (fun c l => isNaN (c.fval 0 l)) (fun _ => rfl) fun _ _ => rfl
  | fsinf => cases h; exact .compare (fun c l => isInf (c.fval 0 l)) (fun _ => rfl) fun _ _ => rfl
  | psig x => cases h; exact .compare (fun c l => (c.v 0 0 l).tag.toNat < x.b.toNat) (fun _ => rfl) fun _ _ => rfl
  | pand => cases h; exact ⟨fun c => c.pred 0 &&& c.pred 1, fun _ => rfl, fun c l _ => (BitVec.getLsbD_and ..).symm⟩
  | por => cases h; exact ⟨fun c => c.pred 0 ||| c.pred 1, fun _ => rfl, fun c l _ => (BitVec.getLsbD_or ..).symm⟩
  | pxor => cases h; exact ⟨fun c => c.pred 0 ^^^ c.pred 1, fun _ => rfl, fun c l _ => (BitVec.getLsbD_xor ..).symm⟩
  | pnot => cases h; exact ⟨fun c => ~~~(c.pred 0), fun _ => rfl, fun c l hl => by simp [hl]⟩
  | pany =>
    cases h
    exact ⟨_, fun _ => rfl, fun c l hl => (allOnes_ite_getLsbD (and_ne_zero_iff_any (c.pred 0) c.act) hl).symm⟩
  | pall =>
    cases h
    exact ⟨_, fun _ => rfl, fun c l hl => (allOnes_ite_getLsbD (and_not_eq_zero_iff_all (c.pred 0) c.act) hl).symm⟩
  | pelect =>
    cases h
    exact ⟨_, fun _ => rfl, fun c l hl => (pelect_getLsbD _ hl).symm⟩
  | _ => cases h

/-- Settles O8: each instruction writes a mask whose lanes hold the condition of the statement. -/
theorem predicateResults : Obligations.PredicateResults := by
  unfold Obligations.PredicateResults
  exact fun i m hi s c h => (writesLanes_of_predOp hi).result h

end Sys2Proof.Machine

/-! # Floating-point compares (05 R87) -/

namespace Sys2Proof.Machine

open Sys2Proof.Spec

/-! ## Flags raised under a condition (02 R25) -/

section
variable {c : Ctx} {s u : State} (p : Prop) [Decidable p] (bits : Nat)

theorem Effect.raiseIf {g : Team → Team} (h : Effect g c s u)
    (hg : ∀ x : Team, g { x with fpstat := x.fpstat ||| BitVec.ofNat 32 bits }.kept = g x.kept) :
    Effect g c s (if p then raiseFlags c bits u else u) := by
  split
  · exact h.onTeam fun x => ⟨hg x, rfl, rfl⟩
  · exact h

theorem PredWritten.raiseIf {m : Nat → Bool} (h : PredWritten c m u) :
    PredWritten c m (if p then raiseFlags c bits u else u) := by
  split
  · exact h.onTeam fun _ => rfl
  · exact h

theorem statRaised_raiseIf (h : ∃ x, team? u c.key = some x ∧ x.fpstat = c.team.fpstat) :
    StatRaised c (if p then bits else 0) (if p then raiseFlags c bits u else u) := by
  split
  · exact raiseFlags_stat h
  · obtain ⟨x, hx, hstat⟩ := h
    exact ⟨x, hx, by simp [hstat]⟩

theorem bench_raiseIf (k : Nat) : bench (if p then raiseFlags c bits u else u) k = bench u k := by
  split
  · exact bench_onTeam ..
  · rfl

end

/-! ## The effect of a compare -/

/-- The condition of a floating-point compare, as an ordered and an unordered pair of operands give it. -/
def fpCond (k : (Fval → Fval → Bool) × Bool × Bool) (c : Ctx) (l : Nat) : Bool :=
  if isNaN (c.fval 0 l) || isNaN (c.fval 1 l) then k.2.1 else k.1 (c.fval 0 l) (c.fval 1 l)

/-- An active lane raises IV. -/
def compareRaises (k : (Fval → Fval → Bool) × Bool × Bool) (c : Ctx) : Bool := (lanesOf c.act).any (compareInvalid k c)

/-- The state that a floating-point compare makes: PD, then IV. -/
def fpCompareState (k : (Fval → Fval → Bool) × Bool × Bool) (c : Ctx) (s : State) : State :=
  if compareRaises k c then raiseFlags c 1 (writePred c (compareMask (fpCond k) c) s)
  else writePred c (compareMask (fpCond k) c) s

section
variable {i : Instr} {k : (Fval → Fval → Bool) × Bool × Bool} {s : State} {c : Ctx}

theorem exec_of_fpCompare (h : fpCompare i = some k) (s : State) :
    exec i s = performPriv i.shape (privOf i) (fun _ _ => .go)
      (fun c s => { s := fpCompareState k c s, post := comparePost c (compareInvalid k c) }) s := by
  cases i with
  | fseq | fsne | fslt | fsle | fsun | fsord => cases h; rfl
  | _ => cases h

/-- The concluded compare has written PD and raised IV, whatever follows. -/
theorem fpCompareState_concluded (ht : team? s c.key = some c.team) :
    PredWritten c (compareHolds k c) (conclude c { s := fpCompareState k c s }) ∧
    LatchesKept c s (conclude c { s := fpCompareState k c s }) ∧
    StatRaised c (if compareRaises k c then 1 else 0) (conclude c { s := fpCompareState k c s }) ∧
    Frame Team.sansPF c s (conclude c { s := fpCompareState k c s }) := by
  obtain ⟨heffect, hpred, hbench⟩ := writePred_result (m := compareMask (fpCond k) c) ht
  have hconc := conclude_concludes c { s := fpCompareState k c s } rfl rfl (fun _ e => by cases e)
  have hholds := PredWritten.ext hpred fun l hl => (compareMask_getLsbD (fpCond k) c hl).symm
  exact ⟨(hholds.raiseIf _ 1).concludes hconc, .concludes (fun j => (bench_raiseIf _ 1 j).trans (hbench j)) hconc,
    (statRaised_raiseIf _ 1 (heffect.fpstat sansP_fpstat)).concludes hconc,
    ((heffect.mono sansP_sansPF).raiseIf _ 1 fun _ => rfl).concludes hconc⟩

/-! ## The trap of a compare (05 R87, 15 R279, log 84) -/

/-- The trap of a compare at its lowest lane that raises IV, where FPSTAT.EN enables it. -/
theorem comparePost_eq (iv : Nat → Bool) :
    comparePost c iv = if c.team.fpstat.getLsbD 16 then ((lanesOf c.act).find? iv).map fun l =>
      { cause := 0xC, tpc := c.cur.pc, theta := c.theta, flane := l, sigt := compareTags c } else none := rfl

theorem comparePost_of_quiet (h : (compareRaises k c && c.team.fpstat.getLsbD 16) = false) :
    comparePost c (compareInvalid k c) = none := by
  rw [comparePost_eq]
  obtain hraise | hbit := Bool.and_eq_false_iff.mp h
  · have hnone : (lanesOf c.act).find? (compareInvalid k c) = none := by
      rw [List.find?_eq_none]
      exact List.any_eq_false.mp hraise
    rw [hnone, Option.map_none, ite_self]
  · rw [hbit, if_neg Bool.false_ne_true]

theorem comparePost_of_enabled (h : (compareRaises k c && c.team.fpstat.getLsbD 16) = true) :
    ∃ l, comparePost c (compareInvalid k c) =
      some { cause := 0xC, tpc := c.cur.pc, theta := c.theta, flane := l, sigt := compareTags c } := by
  obtain ⟨hraise, hbit⟩ := (Bool.and_eq_true _ _).mp h
  have hsome : ((lanesOf c.act).find? (compareInvalid k c)).isSome = true := by
    rw [List.find?_isSome]
    exact List.any_eq_true.mp hraise
  obtain ⟨l, hl⟩ := Option.isSome_iff_exists.mp hsome
  exact ⟨l, by rw [comparePost_eq, hbit, if_pos rfl, hl, Option.map_some]⟩

end

/-- Settles O9: the compare concludes with PD and IV written, and a trap is taken from that state. -/
theorem fpCompareResults : Obligations.FpCompareResults := by
  unfold Obligations.FpCompareResults
  intro i k hi s c h
  have hexec := exec_of_ready (exec_of_fpCompare hi s) h
  refine ⟨_, fpCompareState_concluded (context_team h.1).1, fun hquiet => ?completes, fun henabled => ?traps⟩
  case completes => rw [hexec, comparePost_of_quiet hquiet]
  case traps =>
    obtain ⟨l, hpost⟩ := comparePost_of_enabled henabled
    obtain ⟨q, hq⟩ := conclude_post c { s := fpCompareState k c s, post := comparePost c (compareInvalid k c) } _ rfl hpost
    exact ⟨q, l, hexec.trans (congrArg _ hq)⟩

end Sys2Proof.Machine

/-! # Scalar instructions and PMOV (05 R89 to R92, R94, R96, 07 R122) -/

namespace Sys2Proof.Machine

open Sys2Proof.Spec

/-! ## Words of scalars (05 R90) -/

theorem boolW_eq (b : Bool) : boolW b = if b = true then 1 else 0 := rfl

theorem boolW_slt (a b : Word) : boolW (a.slt b) = if a.toInt < b.toInt then 1 else 0 := by
  simp only [boolW_eq, BitVec.slt_iff_toInt_lt]

theorem boolW_decide (p : Prop) [Decidable p] : boolW (decide p) = if p then 1 else 0 := by
  simp only [boolW_eq, decide_eq_true_eq]

/-- A 64-bit sum need not be reduced before its words are taken. -/
theorem words64_mod (v : Nat) : words64 v = pairOf (v % 2 ^ 64) := by
  simp only [words64, pairOf, List.cons.injEq, and_true]
  constructor <;> (apply BitVec.eq_of_toNat_eq; simp only [BitVec.toNat_ofNat]; omega)

/-- The low 64 bits of a sum with a sign-extended word. -/
theorem add_sextNat_mod (p : Nat) (b : Word) : (p + Bits.sextNat b.toNat 32 64) % 2 ^ 64 = (((p : Int) + b.toInt) % 2 ^ 64).toNat := by
  have hlt := b.isLt
  rw [BitVec.toInt_eq_toNat_cond]
  unfold Bits.sextNat
  dsimp only
  split_ifs <;> omega

/-! ## The scalar instructions without flags -/

/-- A word from two scalars (05 R90). -/
def scalarWord (f : Word → Word → Word) (c : Ctx) : List Word := [f (c.s 0) (c.s 1)]

/-- A word from a scalar and an immediate (05 R92). -/
def immWord (x : SI) (f : Word → Word → Word) (c : Ctx) : List Word := [f (c.s 0) (c.immSI x)]

theorem firstLane_true (c : Ctx) : c.firstLane (fun _ => true) = (lanesOf c.act).head? := by
  unfold Ctx.firstLane
  cases lanesOf c.act <;> rfl

theorem writesScalars_of_scalarOut {i : Instr} {f : Ctx → List Word} (h : scalarOut i = some f) : WritesScalars i f := by
  cases i with
  | sadd | ssub | smul | smulhI | smulhN | sand | sor | sxor | sandn | sshl | sshr | ssar | sminI | smaxI | sminN | smaxN | sbfx
  | sclz | spopc | smov | saddi | sandi | sori | sxori | joinq | maskrd => cases h; exact fun _ => rfl
  | sshl64 =>
    cases h
    exact .congr (f := fun c => words64 (if 64 ≤ amount (c.s 2) then 0 else c.pair 0 * 2 ^ amount (c.s 2) % 2 ^ 64)) (fun _ => rfl)
      fun _ => rfl
  | sshr64 =>
    cases h
    exact .congr (f := fun c => words64 (if 64 ≤ amount (c.s 2) then 0 else c.pair 0 / 2 ^ amount (c.s 2))) (fun _ => rfl)
      fun _ => rfl
  | sseq =>
    cases h
    exact .congr (f := scalarWord fun a b => boolW (a = b)) (fun _ => rfl) fun _ => congrArg (fun w => [w]) (boolW_decide _)
  | ssltI =>
    cases h
    exact .congr (f := scalarWord fun a b => boolW (a.slt b)) (fun _ => rfl) fun _ => congrArg (fun w => [w]) (boolW_slt ..)
  | ssltN =>
    cases h
    exact .congr (f := scalarWord fun a b => boolW (a < b)) (fun _ => rfl) fun _ => congrArg (fun w => [w]) (boolW_decide _)
  | ssltiI x =>
    cases h
    exact .congr (f := immWord x fun a b => boolW (a.slt b)) (fun _ => rfl) fun _ => congrArg (fun w => [w]) (boolW_slt ..)
  | sadd64 => cases h; exact .congr (f := fun c => words64 (c.pair 0 + c.pair 2)) (fun _ => rfl) fun c => words64_mod _
  | ssub64 => cases h; exact .congr (f := fun c => words64 (c.pair 0 + 2 ^ 64 - c.pair 2)) (fun _ => rfl) fun c => words64_mod _
  | saddx =>
    cases h
    exact .congr (f := fun c => words64 (c.pair 0 + Bits.sextNat (c.s 2).toNat 32 64)) (fun _ => rfl) fun c => by
      rw [words64_mod, add_sextNat_mod]
  | lanerd x =>
    cases h
    exact .congr (f := fun c => [(c.v 0 0 (if x.k.getLsbD 11 then (c.firstLane fun _ => true).getD 0 else x.k.toNat % 32)).val])
      (fun _ => rfl) fun c => by rw [firstLane_true]
  | _ => cases h

/-- Settles O10: each instruction writes the words of the statement, the 64-bit ones reduced to the pair. -/
theorem scalarResults : Obligations.ScalarResults := by
  unfold Obligations.ScalarResults
  exact fun i f hi s c h => (writesScalars_of_scalarOut hi).result h

/-! ## Divisions (05 R91) -/

/-- The state that a division makes: IDZ for a zero divisor, then the word. -/
def divisionState (f : Word → Word → Word) (c : Ctx) (s : State) : State :=
  writeScalars c [f (c.s 0) (c.s 1)] (if c.s 1 = 0 then raiseFlags c 64 s else s)

theorem divRem_unsigned (a b : Word) : divRem false a b =
    (if b = 0 then 0xFFFFFFFF else BitVec.ofNat 32 (a.toNat / b.toNat),
      if b = 0 then a else BitVec.ofNat 32 (a.toNat % b.toNat)) := by
  have hdiv : a / b = BitVec.ofNat 32 (a.toNat / b.toNat) := by
    rw [← BitVec.toNat_udiv, BitVec.ofNat_toNat, BitVec.setWidth_eq]
  have hmod : a % b = BitVec.ofNat 32 (a.toNat % b.toNat) := by
    rw [← BitVec.toNat_umod, BitVec.ofNat_toNat, BitVec.setWidth_eq]
  rw [divRem, ← hdiv, ← hmod, if_neg Bool.false_ne_true]
  split_ifs <;> rfl

theorem divRem_signed (a b : Word) : divRem true a b =
    (if b = 0 then 0xFFFFFFFF else BitVec.ofInt 32 (a.toInt.tdiv b.toInt),
      if b = 0 then a else BitVec.ofInt 32 (a.toInt.tmod b.toInt)) := by
  rw [divRem, if_pos rfl]
  split_ifs <;> rfl

/-- The instruction is the division that `f` gives. -/
def Divides (i : Instr) (f : Word → Word → Word) : Prop :=
  ∀ s, exec i s = performPriv i.shape (privOf i) (fun _ _ => .go) (fun c s => { s := divisionState f c s }) s

theorem Divides.congr {i : Instr} {f g : Word → Word → Word} (hi : Divides i f) (e : ∀ a b, f a b = g a b) : Divides i g := by
  rw [show g = f from funext fun a => funext fun b => (e a b).symm]
  exact hi

theorem divides_of_divisionOut {i : Instr} {f : Word → Word → Word} (h : divisionOut i = some f) : Divides i f := by
  cases i with
  | sdivI => cases h; exact .congr (f := fun a b => (divRem true a b).1) (fun _ => rfl) fun a b => by rw [divRem_signed]
  | sremI => cases h; exact .congr (f := fun a b => (divRem true a b).2) (fun _ => rfl) fun a b => by rw [divRem_signed]
  | sdivN => cases h; exact .congr (f := fun a b => (divRem false a b).1) (fun _ => rfl) fun a b => by rw [divRem_unsigned]
  | sremN => cases h; exact .congr (f := fun a b => (divRem false a b).2) (fun _ => rfl) fun a b => by rw [divRem_unsigned]
  | _ => cases h

theorem sansS_fpstat {x y : Team} (h : x.kept.sansS = y.kept.sansS) : x.fpstat = y.fpstat :=
  (congrArg Team.fpstat h : x.kept.sansS.fpstat = y.kept.sansS.fpstat)

theorem StatRaised.writeScalars {c : Ctx} {u : State} {bits : Nat} (h : StatRaised c bits u) (xs : List Word) :
    StatRaised c bits (writeScalars c xs u) := by
  obtain ⟨x, hx, hstat⟩ := h
  unfold Machine.writeScalars
  split
  · rename_i d _
    have hkept : (Team.setScalars x d.1.toNat xs).fpstat = x.fpstat :=
      sansS_fpstat (setScalars_kept xs x d.1.toNat).1
    exact ⟨_, by rw [team?_onTeam, if_pos rfl, hx]; rfl, hkept.trans hstat⟩
  · exact ⟨x, hx, hstat⟩

/-- The team still holds its scalars when the flag of a division has been raised. -/
theorem team?_raiseIf {c : Ctx} {s : State} (ht : team? s c.key = some c.team) (p : Prop) [Decidable p] (bits : Nat) :
    ∃ x, team? (if p then raiseFlags c bits s else s) c.key = some x ∧ x.s = c.team.s := by
  split
  · exact ⟨{ c.team with fpstat := c.team.fpstat ||| BitVec.ofNat 32 bits },
      by unfold raiseFlags; rw [team?_onTeam, if_pos rfl, ht]; rfl, rfl⟩
  · exact ⟨c.team, ht, rfl⟩

theorem divisionState_concluded {c : Ctx} {s : State} (f : Word → Word → Word) (ht : team? s c.key = some c.team) :
    ScalarsWritten c [f (c.s 0) (c.s 1)] (conclude c { s := divisionState f c s }) ∧
    LatchesKept c s (conclude c { s := divisionState f c s }) ∧
    StatRaised c (if c.s 1 = 0 then 64 else 0) (conclude c { s := divisionState f c s }) ∧
    Frame Team.sansSF c s (conclude c { s := divisionState f c s }) := by
  have hconc := conclude_concludes c { s := divisionState f c s } rfl rfl (fun _ e => by cases e)
  obtain ⟨x, hx, hs⟩ := team?_raiseIf ht (c.s 1 = 0) 64
  have hflags : Effect Team.sansSF c s (if c.s 1 = 0 then raiseFlags c 64 s else s) := (Effect.refl ht).raiseIf _ 64 fun _ => rfl
  exact ⟨(writeScalars_scalarsWritten _ hx hs).concludes hconc,
    .concludes (fun j => (bench_writeScalars ..).trans (bench_raiseIf _ 64 j)) hconc,
    ((statRaised_raiseIf _ 64 ⟨c.team, ht, rfl⟩).writeScalars _).concludes hconc,
    (hflags.writeScalars _ sansS_sansSF).concludes hconc⟩

/-! ## Shifts by an immediate (05 R92) -/

theorem exec_of_scalarShiftOut {i : Instr} {x : SI} {f : Word → Word → Word} (h : scalarShiftOut i = some (x, f)) (s : State) :
    exec i s = performPriv i.shape (privOf i) (fun c _ => amountGate (c.immSI x))
      (fun c s => { s := writeScalars c (immWord x f c) s }) s := by
  cases i with
  | sshli | sshri | ssari => cases h; rfl
  | _ => cases h

/-- Settles O11: a division concludes with its word and IDZ, a shift by an immediate by its gate on the amount. -/
theorem scalarDivisionsAndShifts : Obligations.ScalarDivisionsAndShifts := by
  unfold Obligations.ScalarDivisionsAndShifts
  refine ⟨fun i f hi s c h => ?division, fun i x f hi s c h hlt => ?shift, fun i x f hi s c h hge => ?illegal⟩
  case division => exact ⟨_, exec_of_ready (divides_of_divisionOut hi s) h, divisionState_concluded f (context_team h.1).1⟩
  case shift =>
    exact ⟨_, (exec_of_scalarShiftOut hi s).trans (performPriv_go h.1 h.2 (amountGate_go hlt)), scalar_result (context_team h.1).1⟩
  case illegal => exact (exec_of_scalarShiftOut hi s).trans (performPriv_gate_trap h.1 h.2 (amountGate_trap hge))

/-! ## PMOV (05 R96) -/

/-- What PMOV does, by the direction in bits [11:10] of its immediate. -/
def pmovEffect (dir : Nat) (c : Ctx) (s : State) : State :=
  match dir with
  | 0 => writeScalars c [c.pred 0] s
  | 2 => writePred c (c.s 0) s
  | 1 => writeVector c (fun l => ⟨if (c.pred 0).getLsbD l then 1 else 0, 63⟩) s
  | _ => writePred c (maskOf fun l => (c.v 0 0 l).val ≠ 0) s

theorem maskOf_ne_zero_getLsbD (c : Ctx) {l : Nat} (hl : l < 32) :
    (maskOf fun l => (c.v 0 0 l).val ≠ 0).getLsbD l = ((c.v 0 0 l).val != 0) :=
  (maskOf_getLsbD _ l hl).trans (decide_ne_eq_bne ..)

theorem exec_pmov_of_ready {x : XF} {s : State} {c : Ctx} (h : Ready (.pmov x) s c) :
    exec (.pmov x) s = .next (conclude c { s := pmovEffect (x.k.toNat / 2 ^ 10) c s }) :=
  exec_of_ready (i := .pmov x) (eff := fun c s => { s := pmovEffect (x.k.toNat / 2 ^ 10) c s }) rfl h

/-- Settles O12: each direction of PMOV is one of the three results. -/
theorem pmovResults : Obligations.PmovResults := by
  unfold Obligations.PmovResults
  intro x s c h
  have ht := (context_team h.1).1
  refine ⟨_, exec_pmov_of_ready h, fun hdir => ?toScalar, fun hdir => ?toVector, fun hdir => ?fromScalar,
    fun hdir => ?fromVector⟩
  all_goals rw [hdir]
  case toScalar => exact scalar_result ht
  case toVector => exact lane_result ht
  case fromScalar => exact pred_result ht
  case fromVector => exact (pred_result ht).ext fun l hl => (maskOf_ne_zero_getLsbD c hl).symm

end Sys2Proof.Machine

/-! # Floating-point instructions that complete, and reserved controls (06 R99 to R113) -/

namespace Sys2Proof.Machine

open Sys2Proof.Spec

/-! ## Reserved controls (06 R110, R111) -/

theorem controlGate_trap {bad : Nat → Bool} {c : Ctx} {l : Nat}
    (h : (lanesOf c.act).find? (fun l => bad (controlOf c l)) = some l) (s : State) :
    controlGate bad c s = .trap { cause := 1, flane := l } := by
  have hfirst : c.firstLane (fun l => bad (c.v 1 0 l).val.toNat) = some l := h
  simp only [controlGate, hfirst]

/-! ## Completion without a trap (04 R74) -/

section
variable {i : Instr} {o : Ctx → FpOut} {s : State} {c : Ctx}

/-- Results that make no trap leave an effect of results and flags alone. -/
theorem fpEffect_of_post_none {w : Ctx → FpOut → State → State} (h : (o c).post c = none) :
    fpEffect o w c s = { s := raiseFlags c ((o c).statBits c) (w c (o c) s) } := by
  rw [fpEffect, h]

theorem fpLane_completes (hi : fpOne i = some o) (h : Ready i s c)
    (hctl : ∀ l ∈ lanesOf c.act, badControl i (controlOf c l) = false) (hpost : (o c).post c = none) :
    ∃ t, exec i s = .next t ∧ FpLane c (o c) s t := by
  refine ⟨_, (exec_of_fpOne hi s).trans (performPriv_go h.1 h.2 (controlGate_go hctl s)), ?_⟩
  rw [fpEffect_of_post_none hpost]
  exact fpLane_effect (context_team h.1).1 none rfl

theorem fpGroup_completes {n : Nat} {cells : FpOut → Nat → Nat → Cell}
    (hexec : exec i s = performPriv i.shape (privOf i) (fun _ _ => .go) (fpEffect o fun c x => writeGroup c n (cells x)) s)
    (hvd : ∃ d, i.shape.vd = some (d, n)) (h : Ready i s c) (hpost : (o c).post c = none) :
    ∃ t, exec i s = .next t ∧ FpGroup c (o c) n (cells (o c)) s t := by
  refine ⟨_, exec_of_ready hexec h, ?_⟩
  rw [fpEffect_of_post_none hpost]
  exact fpGroup_effect (context_team h.1).1 (group_fits hvd h) none rfl

end

/-- Settles O4: the check of the control operand decides between the lane result and ILLEGAL for the lowest reserved lane. -/
theorem fpLaneResults : Obligations.FpLaneResults := by
  unfold Obligations.FpLaneResults
  refine ⟨fun i o hi s c h hctl hpost => ?completes, fun i o hi s c h l hl => ?illegal⟩
  case completes => exact fpLane_completes hi h hctl hpost
  case illegal => exact (exec_of_fpOne hi s).trans (performPriv_gate_trap h.1 h.2 (controlGate_trap hl s))

/-- Settles O5: the group of each form fits the register file, so that every register of it is written. -/
theorem fpGroupResults : Obligations.FpGroupResults := by
  unfold Obligations.FpGroupResults
  exact ⟨fun i o hi s c h hpost => fpGroup_completes (exec_of_fpFour hi s) (fpFour_vd hi) h hpost,
    fun i o hi s c h hpost => fpGroup_completes (exec_of_fpWide hi s) (fpWide_vd hi) h hpost⟩

end Sys2Proof.Machine

/-! # Entries and the lanes they hold (07 R115, R116, R123) -/

namespace Sys2Proof.Machine

open Sys2Proof.Spec

/-! ## The spots of lanes -/

/-- Where an entry stands: its priority, its address and what it waits for. -/
abbrev Spot := Nat × Nat × Option Wait

def Entry.spot (e : Entry) : Spot := (e.prio, e.pc, e.wait)

/-- An entry at the spot holds lane `l`. -/
def HasSpot (es : List Entry) (l : Nat) (σ : Spot) : Prop := ∃ e ∈ es, e.mask.getLsbD l = true ∧ e.spot = σ

section
variable {e : Entry} {es fs : List Entry} {l : Nat} {σ : Spot}

@[simp] theorem hasSpot_nil : ¬ HasSpot [] l σ := by simp [HasSpot]

theorem hasSpot_cons : HasSpot (e :: es) l σ ↔ (e.mask.getLsbD l = true ∧ e.spot = σ) ∨ HasSpot es l σ := by simp [HasSpot]

theorem hasSpot_append : HasSpot (es ++ fs) l σ ↔ HasSpot es l σ ∨ HasSpot fs l σ := by
  simp [HasSpot, or_and_right, exists_or]

theorem hasLane_iff_hasSpot : HasLane es l ↔ ∃ σ, HasSpot es l σ :=
  ⟨fun ⟨e, he, hl⟩ => ⟨_, e, he, hl, rfl⟩, fun ⟨_, e, he, hl, _⟩ => ⟨e, he, hl⟩⟩

theorem waits_iff_hasSpot {k : Nat} : Waits es k l ↔ ∃ p pc, HasSpot es l (p, pc, some (.join k)) := by
  constructor
  · rintro ⟨e, he, hw, hl⟩
    exact ⟨e.prio, e.pc, e, he, hl, by rw [Entry.spot, hw]⟩
  · rintro ⟨p, pc, e, he, hl, hs⟩
    exact ⟨e, he, congrArg (·.2.2) hs, hl⟩

/-- What the lanes of a word stand at, in the terms of `LaneIs`. -/
theorem laneIs_iff {t : State} {key : Nat} {P : Spot → Prop} :
    LaneIs t key l (fun e => P e.spot) ↔ ∃ u, team? t key = some u ∧ HasLane u.front l ∧ ∀ σ, HasSpot u.front l σ → P σ := by
  refine exists_congr fun u => and_congr_right fun _ => and_congr_right fun _ => ?_
  exact ⟨fun h σ ⟨e, he, hl, hs⟩ => hs ▸ h e he hl, fun h e he hl => h _ ⟨e, he, hl, rfl⟩⟩

/-! ## The frontier that entries make (07 R116) -/

theorem insertEntry_source {y : Entry} (h : y ∈ insertEntry e es) : y.spot = e.spot ∨ ∃ x ∈ es, y.spot = x.spot := by
  induction es with
  | nil => exact .inl (by rw [List.mem_singleton.mp h])
  | cons x r ih =>
    unfold insertEntry at h
    split at h
    · obtain rfl | h := List.mem_cons.mp h
      · exact .inr ⟨x, by simp, rfl⟩
      · exact .inr ⟨y, by simp [h], rfl⟩
    · split at h
      · obtain rfl | h := List.mem_cons.mp h
        · exact .inl rfl
        · exact .inr ⟨y, h, rfl⟩
      · obtain rfl | h := List.mem_cons.mp h
        · exact .inr ⟨y, by simp, rfl⟩
        · exact (ih h).imp id fun ⟨z, hz, hs⟩ => ⟨z, by simp [hz], hs⟩

theorem hasSpot_insertEntry : HasSpot (insertEntry e es) l σ ↔ (e.mask.getLsbD l = true ∧ e.spot = σ) ∨ HasSpot es l σ := by
  induction es with
  | nil => simp [insertEntry, hasSpot_cons]
  | cons x r ih =>
    unfold insertEntry
    split
    · rename_i hsame
      simp only [Bool.and_eq_true, decide_eq_true_eq] at hsame
      obtain ⟨⟨hprio, hpc⟩, hwait⟩ := hsame
      have hspot : e.spot = x.spot := by simp [Entry.spot, hprio, hpc, hwait]
      have hmerged : ({ x with mask := x.mask ||| e.mask, age := max x.age e.age } : Entry).spot = x.spot := rfl
      simp only [hasSpot_cons, hspot, hmerged, BitVec.getLsbD_or, Bool.or_eq_true]
      tauto
    · split
      · rw [hasSpot_cons]
      · rw [hasSpot_cons, ih, hasSpot_cons]
        tauto

/-- An entry's lanes stay together where it is merged with another. -/
theorem insertEntry_covers (h : ∃ x ∈ es, e.mask &&& ~~~x.mask = 0 ∧ x.spot = σ) (y : Entry) :
    ∃ x ∈ insertEntry y es, e.mask &&& ~~~x.mask = 0 ∧ x.spot = σ := by
  obtain ⟨x, hx, hmask, hspot⟩ := h
  induction es with
  | nil => cases hx
  | cons z r ih =>
    unfold insertEntry
    split
    · obtain rfl | hx := List.mem_cons.mp hx
      · refine ⟨_, List.mem_cons_self .., ?_, hspot⟩
        rw [BitVec.not_or, ← BitVec.and_assoc, hmask]
        exact BitVec.zero_and
      · exact ⟨x, by simp [hx], hmask, hspot⟩
    · split
      · exact ⟨x, List.mem_cons_of_mem _ hx, hmask, hspot⟩
      · obtain rfl | hx := List.mem_cons.mp hx
        · exact ⟨x, by simp, hmask, hspot⟩
        · obtain ⟨w, hw, h⟩ := ih hx
          exact ⟨w, List.mem_cons_of_mem _ hw, h⟩

theorem insertEntry_covers_self : ∃ x ∈ insertEntry e es, e.mask &&& ~~~x.mask = 0 ∧ x.spot = e.spot := by
  have hself : e.mask &&& ~~~e.mask = 0 := BitVec.and_not_self e.mask
  induction es with
  | nil => exact ⟨e, by simp [insertEntry], hself, rfl⟩
  | cons x r ih =>
    unfold insertEntry
    split
    · rename_i hsame
      simp only [Bool.and_eq_true, decide_eq_true_eq] at hsame
      obtain ⟨⟨hprio, hpc⟩, hwait⟩ := hsame
      refine ⟨_, List.mem_cons_self .., ?_, by simp [Entry.spot, hprio, hpc, hwait]⟩
      rw [BitVec.not_or, BitVec.and_comm (~~~x.mask), ← BitVec.and_assoc, hself]
      exact BitVec.zero_and
    · split
      · exact ⟨e, by simp, hself, rfl⟩
      · obtain ⟨w, hw, h⟩ := ih
        exact ⟨w, List.mem_cons_of_mem _ hw, h⟩

theorem insertEntry_mask (he : e.mask ≠ 0) (h : ∀ x ∈ es, x.mask ≠ 0) : ∀ x ∈ insertEntry e es, x.mask ≠ 0 := by
  induction es with
  | nil => simpa [insertEntry] using he
  | cons x r ih =>
    obtain ⟨hx, hr⟩ := List.forall_mem_cons.mp h
    unfold insertEntry
    split
    · refine List.forall_mem_cons.mpr ⟨fun h0 => hx ?_, hr⟩
      exact (BitVec.or_eq_zero_iff.mp h0).1
    · split
      · exact List.forall_mem_cons.mpr ⟨he, h⟩
      · exact List.forall_mem_cons.mpr ⟨hx, ih hr⟩

/-- An induction over the making of a frontier: what holds of no entries and is kept by the entry of each entry with lanes. -/
theorem rebuild_induction {P : List Entry → List Entry → Prop} (h0 : P [] [])
    (hskip : ∀ f d e, e.mask = 0 → P f d → P f (d ++ [e])) (hins : ∀ f d e, e.mask ≠ 0 → P f d → P (insertEntry e f) (d ++ [e])) :
    P (rebuild es) es := by
  have key : ∀ (r f d : List Entry), P f d →
      P (r.foldl (fun f e => if e.mask = 0 then f else insertEntry e f) f) (d ++ r) := by
    intro r
    induction r with
    | nil => intro f d h; simpa using h
    | cons e r ih =>
      intro f d h
      rw [List.foldl_cons, show d ++ e :: r = d ++ [e] ++ r by simp]
      split
      · exact ih _ _ (hskip f d e ‹_› h)
      · exact ih _ _ (hins f d e ‹_› h)
  exact key es [] [] h0

@[simp] theorem hasSpot_rebuild : HasSpot (rebuild es) l σ ↔ HasSpot es l σ := by
  refine rebuild_induction (P := fun f d => HasSpot f l σ ↔ HasSpot d l σ) Iff.rfl (fun f d e h0 h => ?_) fun f d e _ h => ?_
  · simp [hasSpot_append, hasSpot_cons, h0, h]
  · rw [hasSpot_insertEntry, hasSpot_append, h, hasSpot_cons]
    simp [or_comm]

theorem rebuild_source {y : Entry} (h : y ∈ rebuild es) : ∃ x ∈ es, y.spot = x.spot := by
  refine rebuild_induction (P := fun f d => ∀ y ∈ f, ∃ x ∈ d, y.spot = x.spot) (by simp) (fun f d e _ h y hy => ?_)
    (fun f d e _ h y hy => ?_) y h
  · obtain ⟨x, hx, hs⟩ := h y hy
    exact ⟨x, by simp [hx], hs⟩
  · obtain hs | ⟨z, hz, hs⟩ := insertEntry_source hy
    · exact ⟨e, by simp, hs⟩
    · obtain ⟨x, hx, hs'⟩ := h z hz
      exact ⟨x, by simp [hx], hs.trans hs'⟩

theorem rebuild_mask : ∀ y ∈ rebuild es, y.mask ≠ 0 :=
  rebuild_induction (P := fun f _ => ∀ y ∈ f, y.mask ≠ 0) (by simp) (fun _ _ _ _ h => h) fun _ _ _ he h => insertEntry_mask he h

theorem rebuild_covers (he : e ∈ es) (hmask : e.mask ≠ 0) : ∃ x ∈ rebuild es, e.mask &&& ~~~x.mask = 0 ∧ x.spot = e.spot := by
  refine rebuild_induction (P := fun f d => e ∈ d → ∃ x ∈ f, e.mask &&& ~~~x.mask = 0 ∧ x.spot = e.spot) (by simp)
    (fun f d y h0 h hmem => ?_) (fun f d y _ h hmem => ?_) he
  · obtain hd | rfl := by simpa using hmem
    · exact h hd
    · exact absurd h0 hmask
  · obtain hd | rfl := by simpa using hmem
    · exact insertEntry_covers (h hd) y
    · exact insertEntry_covers_self

/-! ## What the issue does to the other entries -/

theorem hasSpot_dropLanes {m : Word} (hl : l < 32) : HasSpot (dropLanes es m) l σ ↔ HasSpot es l σ ∧ m.getLsbD l = false := by
  constructor
  · rintro ⟨e, he, hlane, hs⟩
    obtain ⟨x, hx, rfl⟩ := List.mem_map.mp (List.mem_filter.mp he).1
    simp only [BitVec.getLsbD_and, BitVec.getLsbD_not, hl, decide_true, Bool.true_and, Bool.and_eq_true, Bool.not_eq_true'] at hlane
    exact ⟨⟨x, hx, hlane.1, hs⟩, hlane.2⟩
  · rintro ⟨⟨x, hx, hlane, hs⟩, hm⟩
    have hin : (x.mask &&& ~~~m).getLsbD l = true := by
      rw [BitVec.getLsbD_and, BitVec.getLsbD_not, hlane, hm, decide_eq_true hl]
      rfl
    refine ⟨_, List.mem_filter.mpr ⟨List.mem_map.mpr ⟨x, hx, rfl⟩, decide_eq_true fun h0 => ?_⟩, hin, hs⟩
    rw [show x.mask &&& ~~~m = 0 from h0] at hin
    simp at hin

/-- Entries changed one by one, with their lanes kept. -/
theorem hasSpot_map {f : Entry → Entry} (hmask : ∀ e, (f e).mask = e.mask) :
    HasSpot (es.map f) l σ ↔ ∃ e ∈ es, e.mask.getLsbD l = true ∧ (f e).spot = σ := by
  simp [HasSpot, hmask]

theorem hasSpot_ageEntries {ready : Entry → Bool} : HasSpot (ageEntries es ready e) l σ ↔ HasSpot es l σ := by
  unfold ageEntries
  rw [hasSpot_map]
  · refine exists_congr fun x => and_congr_right fun _ => and_congr_right fun _ => ?_
    split
    · rfl
    · split <;> rfl
  · intro x
    split
    · rfl
    · split <;> rfl

end

/-! ## Where the lanes of an instruction move to -/

section
variable {c : Ctx} {es fs : List Entry} {l : Nat} {σ : Spot}

theorem spread_source {y : Entry} (h : y ∈ c.spread fs es) : ∃ e ∈ es, y.pc = e.pc ∧ y.wait = e.wait := by
  unfold Ctx.spread at h
  split at h
  · exact ⟨y, h, rfl, rfl⟩
  · obtain ⟨e, he, h⟩ := List.mem_flatMap.mp h
    obtain ⟨p, hp, h⟩ := List.mem_flatMap.mp h
    have hpart : p.pc = e.pc ∧ p.wait = e.wait := by
      split at hp
      · obtain rfl | hp := List.mem_cons.mp hp
        · exact ⟨rfl, rfl⟩
        · rw [List.mem_singleton.mp hp]
          exact ⟨rfl, rfl⟩
      · rw [List.mem_singleton.mp hp]
        exact ⟨rfl, rfl⟩
    refine ⟨e, he, ?_⟩
    split at h
    · obtain ⟨z, _, rfl⟩ := List.mem_map.mp h
      exact hpart
    · rw [List.mem_singleton.mp h]
      exact hpart

@[simp] theorem spread_nil : c.spread fs [] = [] := by
  unfold Ctx.spread
  split <;> rfl

theorem hasSpot_spread_source (hr : c.cur.replay = none) (h : HasSpot (c.spread fs es) l σ) : ∃ p, HasSpot es l (p, σ.2) := by
  rw [spread_of_no_replay hr] at h
  split at h
  · exact ⟨σ.1, h⟩
  · obtain ⟨y, hy, hl, rfl⟩ := h
    obtain ⟨e, he, hy⟩ := List.mem_flatMap.mp hy
    refine ⟨e.prio, e, he, ?_⟩
    obtain rfl | hy := List.mem_cons.mp hy
    · exact ⟨getLsbD_of_and hl, rfl⟩
    · rw [List.mem_singleton.mp hy] at hl ⊢
      exact ⟨getLsbD_of_and hl, rfl⟩

/-- A guarded HPRIO takes apart only the lanes that the guard leaves inactive (01 R8). -/
theorem hasSpot_spread_of_active (hr : c.cur.replay = none) (hact : c.act.getLsbD l = true) :
    HasSpot (c.spread fs es) l σ ↔ HasSpot es l σ := by
  rw [spread_of_no_replay hr]
  split
  · rfl
  · constructor
    · rintro ⟨y, hy, hlane, hs⟩
      obtain ⟨e, he, hy⟩ := List.mem_flatMap.mp hy
      obtain rfl | hy := List.mem_cons.mp hy
      · exact ⟨e, he, getLsbD_of_and hlane, hs⟩
      · rw [List.mem_singleton.mp hy, BitVec.getLsbD_and, BitVec.getLsbD_not, hact] at hlane
        simp at hlane
    · rintro ⟨e, he, hlane, hs⟩
      exact ⟨_, List.mem_flatMap.mpr ⟨e, he, List.mem_cons_self ..⟩, by rw [BitVec.getLsbD_and, hlane, hact]; rfl, hs⟩

theorem spread_of_no_hprio (hr : c.cur.replay = none) (hh : c.hints.hprio = none) : c.spread fs es = es := by
  rw [spread_of_no_replay hr]
  simp [hh]

/-- After an issue that replays nothing: the lanes it issued for stand where they have moved to, the others where they stood. -/
theorem hasSpot_advanceTeam (hr : c.cur.replay = none) (moves : Option (List Entry)) (t : Team) (hl : l < 32) :
    HasSpot (advanceTeam c moves t).front l σ ↔
      (HasSpot t.front l σ ∧ c.cur.mask.getLsbD l = false) ∨ HasSpot (c.spread t.front (moves.getD c.onward)) l σ := by
  rw [advanceTeam_front hr, hasSpot_rebuild, hasSpot_append, hasSpot_dropLanes hl, hasSpot_ageEntries]

theorem advanceTeam_mask (hr : c.cur.replay = none) (moves : Option (List Entry)) (t : Team) :
    ∀ e ∈ (advanceTeam c moves t).front, e.mask ≠ 0 := by
  rw [advanceTeam_front hr]
  exact rebuild_mask

/-- Whatever an entry waits for after the issue, one waited for before it, or one of those moved to. -/
theorem advanceTeam_wait {moves : Option (List Entry)} {t : Team} {e : Entry} (h : e ∈ (advanceTeam c moves t).front) :
    (∃ x ∈ t.front, e.wait = x.wait) ∨ ∃ x ∈ moves.getD c.onward, e.wait = x.wait := by
  have hwait : ∀ {x y : Entry}, x.spot = y.spot → x.wait = y.wait := fun h => congrArg (·.2.2) h
  have hdrop : ∀ {es : List Entry} {m : Word} {x : Entry}, x ∈ dropLanes es m → ∃ y ∈ es, x.wait = y.wait := by
    intro es m x hx
    obtain ⟨y, hy, rfl⟩ := List.mem_map.mp (List.mem_filter.mp hx).1
    exact ⟨y, hy, rfl⟩
  have hspread : ∀ {fs es : List Entry} {x : Entry}, x ∈ c.spread fs es → ∃ y ∈ es, x.wait = y.wait := fun hx =>
    let ⟨y, hy, _, hw⟩ := spread_source hx
    ⟨y, hy, hw⟩
  by_cases hr : c.cur.replay = none
  · rw [advanceTeam_front hr] at h
    obtain ⟨x, hx, hs⟩ := rebuild_source h
    rw [hwait hs]
    obtain hx | hx := List.mem_append.mp hx
    · obtain ⟨y, hy, hw⟩ := hdrop hx
      obtain ⟨z, hz, rfl⟩ := List.mem_map.mp hy
      refine .inl ⟨z, hz, hw.trans ?_⟩
      split
      · rfl
      · split <;> rfl
    · exact .inr (hspread hx)
  · have hr' : c.cur.replay.isSome = true := Option.ne_none_iff_isSome.mp hr
    cases moves with
    | none => exact .inl ⟨e, by simpa [advanceTeam, hr'] using h, rfl⟩
    | some es =>
      have h' : e ∈ rebuild (dropLanes t.front c.cur.mask ++ c.spread t.front es) := by simpa [advanceTeam, hr'] using h
      obtain ⟨x, hx, hs⟩ := rebuild_source h'
      rw [hwait hs]
      obtain hx | hx := List.mem_append.mp hx
      · exact .inl (hdrop hx)
      · exact .inr (hspread hx)

end

end Sys2Proof.Machine

/-! # Joins, and the end of an instruction in the terms of its lanes (07 R115 to R123, 15 R267) -/

namespace Sys2Proof.Machine

open Sys2Proof.Spec

/-! ## A join (07 R123) -/

/-- Every enrolled lane waits at a JOINW on mask `k`, and one does. -/
def joinReady (t : Team) (k : Nat) : Prop := joinWaiting t k ≠ 0 ∧ Team.mask t k &&& ~~~joinWaiting t k = 0

/-- The highest block priority among the entries that wait at a JOINW on mask `k`. -/
def joinTop (t : Team) (k : Nat) : Nat := t.front.foldl (fun p e => if e.wait = some (.join k) then max p e.prio else p) 0

/-- What the completion of the join on mask `k` makes of an entry. -/
def joinEntry (t : Team) (k : Nat) (e : Entry) : Entry :=
  if e.wait = some (.join k) then { e with wait := none, pc := (e.pc + 4) % 2 ^ 57, prio := joinTop t k } else e

section
variable {t : Team} {k l : Nat} {σ : Spot}

theorem joinCheck_of_ready (h : joinReady t k) :
    joinCheck t k = { t with m := Tab.put t.m k 0, front := rebuild (t.front.map (joinEntry t k)) } := by
  unfold joinCheck
  exact if_pos (Bool.and_eq_true_iff.mpr ⟨decide_eq_true h.1, decide_eq_true h.2⟩)

theorem joinCheck_of_not_ready (h : ¬ joinReady t k) : joinCheck t k = t := by
  unfold joinCheck
  refine if_neg fun hh => h ?_
  simpa [joinReady] using hh

@[simp] theorem joinEntry_mask (e : Entry) : (joinEntry t k e).mask = e.mask := by
  unfold joinEntry
  split <;> rfl

theorem joinEntry_of_join {e : Entry} (h : e.wait = some (.join k)) :
    (joinEntry t k e).spot = (joinTop t k, (e.pc + 4) % 2 ^ 57, none) := by
  rw [joinEntry, if_pos h]
  rfl

theorem joinEntry_of_ne {e : Entry} (h : e.wait ≠ some (.join k)) : joinEntry t k e = e := if_neg h

/-- A completed join moves the lanes that wait at it behind their JOINW, and no other. -/
theorem hasSpot_joinCheck_of_ready (h : joinReady t k) : HasSpot (joinCheck t k).front l σ ↔
    (HasSpot t.front l σ ∧ σ.2.2 ≠ some (.join k)) ∨
      ∃ p pc, HasSpot t.front l (p, pc, some (.join k)) ∧ σ = (joinTop t k, (pc + 4) % 2 ^ 57, none) := by
  rw [joinCheck_of_ready h, hasSpot_rebuild, hasSpot_map joinEntry_mask]
  constructor
  · rintro ⟨e, he, hl, hs⟩
    by_cases hw : e.wait = some (.join k)
    · rw [joinEntry_of_join hw] at hs
      exact .inr ⟨e.prio, e.pc, ⟨e, he, hl, by rw [Entry.spot, hw]⟩, hs.symm⟩
    · rw [joinEntry_of_ne hw] at hs
      exact .inl ⟨⟨e, he, hl, hs⟩, hs ▸ hw⟩
  · rintro (⟨⟨e, he, hl, hs⟩, hw⟩ | ⟨p, pc, ⟨e, he, hl, hs⟩, rfl⟩)
    · have hne : e.wait ≠ some (.join k) := by rw [← hs] at hw; exact hw
      exact ⟨e, he, hl, by rw [joinEntry_of_ne hne, hs]⟩
    · have hw : e.wait = some (.join k) := congrArg (·.2.2) hs
      have hpc : e.pc = pc := congrArg (·.2.1) hs
      exact ⟨e, he, hl, by rw [joinEntry_of_join hw, hpc]⟩

/-- A spot that waits at no JOINW on mask `k` stays a lane's, whatever becomes of the join. -/
theorem HasSpot.joinCheck (h : HasSpot t.front l σ) (hw : σ.2.2 ≠ some (.join k)) : HasSpot (joinCheck t k).front l σ := by
  by_cases hr : joinReady t k
  · exact (hasSpot_joinCheck_of_ready hr).mpr (.inl ⟨h, hw⟩)
  · rwa [joinCheck_of_not_ready hr]

/-- A lane whose spots wait at no JOINW on mask `k` keeps them. -/
theorem hasSpot_of_joinCheck {P : Spot → Prop} (hP : ∀ p pc, ¬ P (p, pc, some (.join k))) (h : ∀ σ, HasSpot t.front l σ → P σ) :
    ∀ σ, HasSpot (joinCheck t k).front l σ → P σ := by
  intro σ hσ
  by_cases hr : joinReady t k
  · obtain ⟨hσ, _⟩ | ⟨p, pc, hσ, _⟩ := (hasSpot_joinCheck_of_ready hr).mp hσ
    · exact h σ hσ
    · exact absurd (h _ hσ) (hP p pc)
  · exact h σ (by rwa [joinCheck_of_not_ready hr] at hσ)

theorem hasLane_joinCheck (h : HasLane t.front l) : HasLane (joinCheck t k).front l := by
  obtain hsame | ⟨f, hfront, hmask, _⟩ := joinCheck_front t k
  · rwa [hsame]
  · rw [hfront]
    exact hasLane_rebuild.mpr ((hasLane_map hmask).mpr h)

theorem mask_joinCheck_of_ne {j : Nat} (h : k ≠ j) : Team.mask (joinCheck t k) j = Team.mask t j := by
  by_cases hr : joinReady t k
  · rw [joinCheck_of_ready hr]
    simp [Team.mask, h]
  · rw [joinCheck_of_not_ready hr]

theorem joinCheck_mask_ne_zero (h : ∀ e ∈ t.front, e.mask ≠ 0) : ∀ e ∈ (joinCheck t k).front, e.mask ≠ 0 := by
  by_cases hr : joinReady t k
  · rw [joinCheck_of_ready hr]
    exact rebuild_mask
  · rwa [joinCheck_of_not_ready hr]

theorem joinCheck_wait {e : Entry} (h : e ∈ (joinCheck t k).front) {w : Wait} (hw : e.wait = some w) :
    ∃ x ∈ t.front, x.wait = some w := by
  by_cases hr : joinReady t k
  · rw [joinCheck_of_ready hr] at h
    obtain ⟨y, hy, hs⟩ := rebuild_source h
    obtain ⟨x, hx, rfl⟩ := List.mem_map.mp hy
    have hwait : (joinEntry t k x).wait = some w := (congrArg (·.2.2) hs).symm.trans hw
    refine ⟨x, hx, ?_⟩
    unfold joinEntry at hwait
    split at hwait
    · cases hwait
    · exact hwait
  · exact ⟨e, by rwa [joinCheck_of_not_ready hr] at h, hw⟩

/-- Joins change the frontier and the rejoin masks of a team and nothing else. -/
theorem joinChecks_eq (t : Team) : joinChecks t = { t with m := (joinChecks t).m, front := (joinChecks t).front } := by
  have one : ∀ (t : Team) k, joinCheck t k = { t with m := (joinCheck t k).m, front := (joinCheck t k).front } := by
    intro t k
    by_cases hr : joinReady t k
    · rw [joinCheck_of_ready hr]
    · rw [joinCheck_of_not_ready hr]
  have step : ∀ {u : Team} (k : Nat), u = { t with m := u.m, front := u.front } →
      joinCheck u k = { t with m := (joinCheck u k).m, front := (joinCheck u k).front } := by
    intro u k hu
    calc joinCheck u k = { u with m := (joinCheck u k).m, front := (joinCheck u k).front } := one u k
      _ = { t with m := (joinCheck u k).m, front := (joinCheck u k).front } := by rw [hu]
  exact step 3 (step 2 (step 1 (step 0 rfl)))

/-- What every join check keeps, all of them keep. -/
theorem joinChecks_induction {P : Team → Prop} (hstep : ∀ t k, P t → P (joinCheck t k)) (h : P t) : P (joinChecks t) :=
  hstep _ 3 (hstep _ 2 (hstep _ 1 (hstep _ 0 h)))

/-- The same with one join apart: what holds before its check becomes what holds after it. -/
theorem joinChecks_induction_at {P Q : Team → Prop} (hk : k < 4) (before : ∀ t j, j ≠ k → P t → P (joinCheck t j))
    (here : ∀ t, P t → Q (joinCheck t k)) (after : ∀ t j, j ≠ k → Q t → Q (joinCheck t j)) (h : P t) : Q (joinChecks t) := by
  have hcases : k = 0 ∨ k = 1 ∨ k = 2 ∨ k = 3 := by omega
  obtain rfl | rfl | rfl | rfl := hcases
  · exact after _ 3 (by decide) (after _ 2 (by decide) (after _ 1 (by decide) (here _ h)))
  · exact after _ 3 (by decide) (after _ 2 (by decide) (here _ (before _ 0 (by decide) h)))
  · exact after _ 3 (by decide) (here _ (before _ 1 (by decide) (before _ 0 (by decide) h)))
  · exact here _ (before _ 2 (by decide) (before _ 1 (by decide) (before _ 0 (by decide) h)))

/-- Lanes that wait at no JOINW stay where they are while joins complete. -/
theorem joinChecks_spots {P : Spot → Prop} (hP : ∀ k p pc, ¬ P (p, pc, some (.join k)))
    (h : HasLane t.front l ∧ ∀ σ, HasSpot t.front l σ → P σ) :
    HasLane (joinChecks t).front l ∧ ∀ σ, HasSpot (joinChecks t).front l σ → P σ :=
  joinChecks_induction (P := fun t => HasLane t.front l ∧ ∀ σ, HasSpot t.front l σ → P σ)
    (fun _ k h => ⟨hasLane_joinCheck h.1, hasSpot_of_joinCheck (hP k) h.2⟩) h

theorem joinChecks_wait {e : Entry} (h : e ∈ (joinChecks t).front) {w : Wait} (hw : e.wait = some w) :
    ∃ x ∈ t.front, x.wait = some w := by
  have key := joinChecks_induction (P := fun u => ∀ e ∈ u.front, e.wait = some w → ∃ x ∈ t.front, x.wait = some w)
    (fun u k hu e he hw => let ⟨x, hx, hxw⟩ := joinCheck_wait he hw; hu x hx hxw) (fun e he hw => ⟨e, he, hw⟩)
  exact key e h hw

end

/-! ## The team that an instruction leaves -/

/-- The team after its instruction: unless the effect has placed its lanes itself, they have moved, and joins have completed. -/
def finished (c : Ctx) (r : Done) (t : Team) : Team :=
  if r.keep then { t with chain := if c.shape.c then t.chain + 1 else 0 } else joinChecks (advanceTeam c r.moves t)

/-- The team of an instruction that raises no trap, as its end leaves it but for the stint. -/
def concluded (c : Ctx) (r : Done) (t : Team) : Team :=
  { finished c r t with
    first := none
    parking := (finished c r t).parking.filter fun p => !(p.pc = c.cur.start && p.mask &&& c.cur.mask ≠ 0) }

section
variable {c : Ctx} {r : Done} {x : Team} {l : Nat}

/-- The end of an instruction that raises no trap: what it makes of its team, and the count of its stint. -/
theorem conclude_quiet (hf : r.fail = none) (hp : r.post = none) :
    Quiet c.place.benchNo (onTeam r.s c.key (concluded c r)) (conclude c r) := by
  unfold conclude
  rw [hf, hp]
  exact Quiet.stint (dropFetched_quiet c c.place.benchNo r.s _) (stintCheck_quiet ..)

theorem team?_concluded (hf : r.fail = none) (hp : r.post = none) (hx : team? r.s c.key = some x) :
    ∃ y, team? (conclude c r) c.key = some y ∧ y.unstinted = (concluded c r x).unstinted := by
  have hq := (conclude_quiet (c := c) hf hp).teams c.key
  rw [team?_onTeam, if_pos rfl, hx, Option.map_some, Option.map_some] at hq
  obtain ⟨y, hy, hyx⟩ := Option.map_eq_some_iff.mp hq
  exact ⟨y, hy, hyx⟩

theorem conclude_others (hf : r.fail = none) (hp : r.post = none) {k : Nat} (hk : k ≠ c.key) :
    (team? (conclude c r) k).map Team.unstinted = (team? r.s k).map Team.unstinted := by
  rw [(conclude_quiet hf hp).teams k, team?_onTeam, if_neg (Ne.symm hk)]

theorem conclude_rest (hf : r.fail = none) (hp : r.post = none) : (conclude c r).kept = r.s.kept := by
  rw [(conclude_quiet hf hp).rest]
  unfold onTeam
  split <;> rfl

/-- The end of an instruction touches none of these. -/
theorem conclude_device (hf : r.fail = none) (hp : r.post = none) : (conclude c r).mem = r.s.mem ∧
    (conclude c r).crews = r.s.crews ∧ (conclude c r).regions = r.s.regions ∧ (conclude c r).comps = r.s.comps ∧
    (conclude c r).cores = r.s.cores ∧ (conclude c r).clusters = r.s.clusters := by
  have hrest := conclude_rest (c := c) hf hp
  generalize conclude c r = t at hrest
  generalize r.s = s at hrest
  exact ⟨(congrArg State.mem hrest : t.kept.mem = _), (congrArg State.crews hrest : t.kept.crews = _),
    (congrArg State.regions hrest : t.kept.regions = _), (congrArg State.comps hrest : t.kept.comps = _),
    (congrArg State.cores hrest : t.kept.cores = _), (congrArg State.clusters hrest : t.kept.clusters = _)⟩

theorem conclude_benches (hf : r.fail = none) (hp : r.post = none) {b : Nat} (hb : b ≠ c.place.benchNo) :
    bench (conclude c r) b = bench r.s b := by
  rw [(conclude_quiet hf hp).benches b hb, bench_onTeam]

theorem conclude_latchesKept (hf : r.fail = none) (hp : r.post = none) {s : State} (h : ∀ k, bench r.s k = bench s k) :
    LatchesKept c s (conclude c r) := fun k => by
  have hq := conclude_quiet (c := c) hf hp
  rw [← h, ← bench_onTeam r.s c.key c.place.benchNo (concluded c r)]
  exact ⟨hq.lanes k, hq.valid k⟩

theorem finished_of_moves (hk : r.keep = false) : finished c r x = joinChecks (advanceTeam c r.moves x) := by
  simp only [finished, hk, Bool.false_eq_true, if_false]

theorem concluded_front (hk : r.keep = false) : (concluded c r x).front = (joinChecks (advanceTeam c r.moves x)).front := by
  rw [← finished_of_moves hk]
  rfl

theorem concluded_m (hk : r.keep = false) : (concluded c r x).m = (joinChecks (advanceTeam c r.moves x)).m := by
  rw [← finished_of_moves hk]
  rfl

theorem concluded_kept : (concluded c r x).kept = x.kept := by
  have hkept : (finished c r x).kept = x.kept := by
    unfold finished
    split
    · rfl
    · exact (joinChecks_kept _).1
  exact hkept

/-- The replay queue loses the entry that has been performed. -/
theorem concluded_replayQ (hk : r.keep = false) :
    (concluded c r x).replayQ = if c.cur.replay.isSome then x.replayQ.drop 1 else x.replayQ := by
  have hqueue : (joinChecks (advanceTeam c r.moves x)).replayQ = (advanceTeam c r.moves x).replayQ := by rw [joinChecks_eq]
  calc (concluded c r x).replayQ = (finished c r x).replayQ := rfl
    _ = (advanceTeam c r.moves x).replayQ := by rw [finished_of_moves hk, hqueue]

/-- A team and the team it was before the count of its stint agree on every field that a stint does not write. -/
theorem unstinted_fields {t u : Team} (h : t.unstinted = u.unstinted) :
    t.kept = u.kept ∧ t.front = u.front ∧ t.m = u.m ∧ t.replayQ = u.replayQ :=
  ⟨(kept_unstinted t u h).1, front_unstinted h, (kept_unstinted t u h).2, (congrArg Team.replayQ h : t.unstinted.replayQ = _)⟩

/-! ## Its lanes -/

/-- The active lanes are among those that the instruction issued for. -/
theorem act_subset_mask {h : Shape} {s : State} (e : context h s = some c) (hr : c.cur.replay = none)
    (hl : c.act.getLsbD l = true) : c.cur.mask.getLsbD l = true := by
  unfold context at e
  split at e
  · cases e
  · split at e
    · cases e
    · split at e
      · cases e
      · injection e with e
        subst e
        dsimp only at hr hl ⊢
        rw [hr] at hl
        dsimp only at hl
        split at hl
        · exact hl
        · exact getLsbD_of_and hl

/-- The lanes of a first issue are, once it has concluded, at the spots they have moved to, where these wait at no JOINW. -/
theorem laneIs_conclude {P : Spot → Prop} (hP : ∀ k p pc, ¬ P (p, pc, some (.join k))) (hf : r.fail = none) (hp : r.post = none)
    (hk : r.keep = false) (hx : team? r.s c.key = some x) (hr : c.cur.replay = none) (hl : l < 32)
    (hmask : c.cur.mask.getLsbD l = true) (hold : HasLane (r.moves.getD c.onward) l)
    (hat : ∀ σ, HasSpot (c.spread x.front (r.moves.getD c.onward)) l σ → P σ) :
    LaneIs (conclude c r) c.key l fun e => P e.spot := by
  obtain ⟨y, hy, hyx⟩ := team?_concluded hf hp hx
  rw [laneIs_iff]
  refine ⟨y, hy, ?_⟩
  rw [front_unstinted hyx, concluded_front hk]
  refine joinChecks_spots hP ⟨?_, fun σ hσ => ?_⟩
  · rw [advanceTeam_front hr]
    exact hasLane_rebuild.mpr (hasLane_append.mpr (.inr ((hasLane_spread hr hl).mpr hold)))
  · obtain ⟨_, hm⟩ | hσ := (hasSpot_advanceTeam hr _ _ hl).mp hσ
    · rw [hmask] at hm
      cases hm
    · exact hat σ hσ

/-- The lanes of an instruction that moves them nowhere stand at the next word. -/
theorem goesOn_conclude (hf : r.fail = none) (hp : r.post = none) (hk : r.keep = false) (hm : r.moves = none)
    (hx : team? r.s c.key = some x) : GoesOn c (conclude c r) := by
  intro hr l hl hmask
  refine laneAt_conclude hf hp hk hx hr hl hmask ?_ ?_
  · rw [hm]
    exact hasLane_cons.mpr (.inl hmask)
  · rw [hm]
    exact laneOnlyAt_cons.mpr ⟨fun _ => ⟨rfl, rfl⟩, laneOnlyAt_nil⟩

/-- The lanes of an instruction that waits at its own word stand there, each with its wait. -/
theorem waitsHere_conclude {w : Wait} (hw : ∀ k, w ≠ .join k) (hf : r.fail = none) (hp : r.post = none) (hk : r.keep = false)
    (hm : r.moves = some (c.waitHere w)) (hx : team? r.s c.key = some x) : WaitsHere c w (conclude c r) := by
  intro hr l hl hmask
  refine laneIs_conclude (P := fun σ => σ.2.1 = c.cur.pc ∧ σ.2.2 = some w) (fun k p pc h => ?_) hf hp hk hx hr hl hmask ?_ ?_
  · exact hw k (Option.some.inj h.2).symm
  · rw [hm]
    exact hasLane_cons.mpr (.inl hmask)
  · rw [hm]
    intro σ hσ
    obtain ⟨p, e, he, _, hs⟩ := hasSpot_spread_source hr hσ
    rw [List.mem_singleton.mp he] at hs
    exact ⟨(congrArg (·.2.1) hs).symm, (congrArg (·.2.2) hs).symm⟩

/-! ## Its stint -/

theorem latch_voidLatches_valid (b : Bench) (k : Nat) : (latch (voidLatches b) k).valid = false := by
  unfold latch voidLatches
  simp only [List.getD_eq_getElem?_getD, List.getElem?_map]
  cases b.latches[k]? <;> rfl

theorem bench_endStint (s : State) (b : Nat) :
    bench (endStint s b) b = voidLatches { bench s b with holder := none, slots := 0 } := by
  unfold endStint
  dsimp only
  split
  · rw [bench_onTeam, bench_setBench, if_pos rfl]
  · rw [bench_setBench, if_pos rfl]

/-- An instruction that yields ends its stint, and the latches become invalid (02 R18, 15 R267). -/
theorem conclude_yields (hf : r.fail = none) (hp : r.post = none) (hy : r.yields = true) :
    (bench (conclude c r) c.place.benchNo).holder = none ∧ ∀ k, (latch (bench (conclude c r) c.place.benchNo) k).valid = false := by
  unfold conclude
  rw [hf, hp, hy]
  simp only [stintCheck, Bool.true_or, if_true, bench_endStint]
  exact ⟨rfl, latch_voidLatches_valid _⟩

end

end Sys2Proof.Machine

/-! # Transfers, soft traps and priorities (07 R116 to R120, 15 R267) -/

namespace Sys2Proof.Machine

open Sys2Proof.Spec

/-! ## An instruction with checks of its own, once it is ready -/

section
variable {i : Instr} {own : Ctx → State → Gate} {eff : Ctx → State → Done} {s : State} {c : Ctx}

theorem exec_of_gate_go (hexec : exec i s = performPriv i.shape (privOf i) own eff s) (h : Ready i s c) (hg : own c s = .go) :
    exec i s = .next (conclude c (eff c s)) :=
  hexec.trans (performPriv_go h.1 h.2 hg)

theorem exec_of_gate_trap (hexec : exec i s = performPriv i.shape (privOf i) own eff s) (h : Ready i s c) {r : Raise}
    (hg : own c s = .trap r) : exec i s = .next (trapHead c r c.act s) :=
  hexec.trans (performPriv_gate_trap h.1 h.2 hg)

/-- An instruction that changes no state before its end, and moves its lanes to no JOINW, writes nothing. -/
theorem nothingWritten_conclude {r : Done} (ht : team? s c.key = some c.team) (hs : r.s = s) (hf : r.fail = none) (hp : r.post = none)
    (hm : ∀ es, r.moves = some es → NoJoin es) : NothingWritten c s (conclude c r) := by
  have hconc := conclude_concludes c r hf hp hm
  rw [hs] at hconc
  exact ⟨.concludes (fun _ => rfl) hconc, (Effect.refl ht).concludes hconc⟩

end

/-- Settles O16: an instruction without moves of its own leaves its lanes at the next word. -/
theorem lanesGoOnToTheNextWord : Obligations.LanesGoOnToTheNextWord := by
  unfold Obligations.LanesGoOnToTheNextWord
  intro c r x hx hr hf hp hk hm
  exact goesOn_conclude hf hp hk hm hx hr

/-! ## Calls (07 R119) -/

/-- The registers of a team after the link has been written for some lanes. -/
def linked (c : Ctx) (m : Word) (t : Team) : Team :=
  Team.setReg (Team.setReg t 0 m fun _ => ⟨BitVec.ofNat 32 c.nextPc, 63⟩) 1 m fun _ => ⟨BitVec.ofNat 32 (c.nextPc / 2 ^ 32), 63⟩

theorem reg_linked (c : Ctx) (m : Word) (t : Team) (r : Nat) {l : Nat} (hl : l < 32) :
    Team.reg (linked c m t) r l = if r < 2 && m.getLsbD l then ⟨linkWord c r, 63⟩ else Team.reg t r l := by
  rw [linked, reg_setReg _ _ _ _ _ _ hl, reg_setReg _ _ _ _ _ _ hl]
  obtain rfl | rfl | hr : r = 0 ∨ r = 1 ∨ 2 ≤ r := by omega
  · simp [linkWord]
  · simp [linkWord]
  · have h0 : (0 : Nat) ≠ r := by omega
    have h1 : (1 : Nat) ≠ r := by omega
    simp [h0, h1, Nat.not_lt.mpr hr]

section
variable {c : Ctx} {s : State}

theorem writeLink_effect (ht : team? s c.key = some c.team) (m : Word) : Effect Team.sansV c s (writeLink c m s) :=
  onTeam_effect (F := linked c m) ht rfl rfl rfl

theorem team?_writeLink (ht : team? s c.key = some c.team) (m : Word) :
    team? (writeLink c m s) c.key = some (linked c m c.team) := by
  rw [writeLink, team?_onTeam, if_pos rfl, ht]
  rfl

/-- A call that goes on: the link stands in the lanes that take it, and nothing else has been written. -/
theorem call_concluded (ht : team? s c.key = some c.team) (m : Word) {es : List Entry} (hes : NoJoin es) :
    ∃ u, team? (conclude c { s := writeLink c m s, moves := some es }) c.key = some u ∧
      (∀ r l, l < 32 → Team.reg u r l = if r < 2 && m.getLsbD l then ⟨linkWord c r, 63⟩ else Team.reg c.team r l) ∧
      LatchesKept c s (conclude c { s := writeLink c m s, moves := some es }) ∧
      Frame Team.sansV c s (conclude c { s := writeLink c m s, moves := some es }) := by
  have hconc := conclude_concludes c { s := writeLink c m s, moves := some es } rfl rfl (fun _ h => by cases h; exact hes)
  obtain ⟨u, hu, hkept, _⟩ := hconc.own _ (team?_writeLink ht m)
  refine ⟨u, hu, fun r l hl => ?_, .concludes (fun k => bench_onTeam _ _ k _) hconc, (writeLink_effect ht m).concludes hconc⟩
  rw [reg_kept hkept, reg_linked c m _ r hl]

theorem targetGate_go {target : Nat → Nat} (h : ∀ l ∈ lanesOf c.act, target l % 4 = 0 ∧ target l < 2 ^ 57) :
    targetGate c target = .go := by
  have halign : c.firstLane (fun l => target l % 4 ≠ 0) = none :=
    List.find?_eq_none.mpr fun l hl => by simp [(h l hl).1]
  have haddr : c.firstLane (fun l => 2 ^ 57 ≤ target l) = none :=
    List.find?_eq_none.mpr fun l hl => by simpa using (h l hl).2
  simp only [targetGate, halign, haddr]

theorem targetGate_align {target : Nat → Nat} {l : Nat} (h : (lanesOf c.act).find? (fun l => target l % 4 ≠ 0) = some l) :
    targetGate c target = .trap { cause := 6, flane := l, faddr := target l } := by
  have halign : c.firstLane (fun l => target l % 4 ≠ 0) = some l := h
  simp only [targetGate, halign]

theorem targetGate_addr {target : Nat → Nat} {l : Nat} (h0 : ∀ l ∈ lanesOf c.act, target l % 4 = 0)
    (h : (lanesOf c.act).find? (fun l => 2 ^ 57 ≤ target l) = some l) :
    targetGate c target = .trap { cause := 8, flane := l, faddr := target l } := by
  have halign : c.firstLane (fun l => target l % 4 ≠ 0) = none :=
    List.find?_eq_none.mpr fun l hl => by simp [h0 l hl]
  have haddr : c.firstLane (fun l => 2 ^ 57 ≤ target l) = some l := h
  simp only [targetGate, halign, haddr]

/-- A transfer of all lanes to one address leaves them there. -/
theorem laneAt_transfer {u : State} {x : Team} {pc l : Nat} (hx : team? u c.key = some x) (hr : c.cur.replay = none) (hl : l < 32)
    (hmask : c.cur.mask.getLsbD l = true) : LaneAt (conclude c { s := u, moves := some [c.goTo pc c.cur.mask] }) c.key l pc :=
  laneAt_conclude rfl rfl rfl hx hr hl hmask (hasLane_cons.mpr (.inl hmask))
    (laneOnlyAt_cons.mpr ⟨fun _ => ⟨rfl, rfl⟩, laneOnlyAt_nil⟩)

theorem noJoin_split (x : BF) : NoJoin (c.split x) := by simp [NoJoin, Ctx.split, Ctx.goTo]

theorem noJoin_goTo (pc : Nat) (m : Word) : NoJoin [c.goTo pc m] := by simp [NoJoin, Ctx.goTo]

end

/-- Settles O18: the link is written to the lanes that take the call, and the call moves its lanes as a branch or a transfer does. -/
theorem callsLink : Obligations.CallsLink := by
  unfold Obligations.CallsLink
  refine ⟨fun x s c h => ?call, fun x s c h hword hlow => ?calli⟩
  case call =>
    have ht := (context_team h.1).1
    obtain ⟨u, hu, hreg, hlatch, hframe⟩ := call_concluded ht (c.taken x) (noJoin_split x)
    refine ⟨_, u, exec_of_gate_go (own := fun _ _ => .go) rfl h rfl, hu, fun r l hl => ?_, hlatch, hframe, fun hr l hl hmask => ?_⟩
    · rw [hreg r l hl, taken_getLsbD c x hl]
    · obtain ⟨hold, hat⟩ := split_lane x hl hmask
      exact laneAt_conclude rfl rfl rfl (team?_writeLink ht _) hr hl hmask hold hat
  case calli =>
    have ht := (context_team h.1).1
    obtain ⟨u, hu, hreg, hlatch, hframe⟩ := call_concluded ht c.act (noJoin_goTo (c.pair 0) c.cur.mask)
    exact ⟨_, u, exec_of_gate_go (own := fun c _ => targetGate c fun _ => c.pair 0) rfl h (targetGate_go fun _ _ => ⟨hword, hlow⟩), hu,
      hreg, hlatch, hframe, fun hr l hl hmask => laneAt_transfer (team?_writeLink ht _) hr hl hmask⟩

/-! ## Indirect transfers (07 R118) -/

/-- The entries that the lanes of a RET move to: one for each active lane, at the address in its pair. -/
def returnEntries (c : Ctx) : List Entry := (lanesOf c.act).map fun i => c.goTo (c.v64 0 i) (laneMask i)

theorem noJoin_returnEntries (c : Ctx) : NoJoin (returnEntries c) := by
  intro e he k
  obtain ⟨l, _, rfl⟩ := List.mem_map.mp he
  exact fun h => by cases h

/-- Each lane has an entry of its own. -/
theorem returnEntries_lane {c : Ctx} {l : Nat} (h : l ∈ lanesOf c.act) :
    HasLane (returnEntries c) l ∧ LaneOnlyAt (returnEntries c) l (c.v64 0 l) := by
  have hl : l < 32 := (mem_lanesOf.mp h).1
  have hlane : ∀ i, (laneMask i).getLsbD l = true ↔ l = i := fun i => by
    rw [laneMask, maskOf_getLsbD _ _ hl, decide_eq_true_iff]
  refine ⟨⟨_, List.mem_map.mpr ⟨l, h, rfl⟩, (hlane l).mpr rfl⟩, fun e he hm => ?_⟩
  obtain ⟨i, _, rfl⟩ := List.mem_map.mp he
  rw [(hlane i).mp hm]
  exact ⟨rfl, rfl⟩

/-- Settles O19: the check on the targets decides, ALIGN before ADDR, and a transfer that passes it moves each lane to its own
entry. -/
theorem indirectTransfers : Obligations.IndirectTransfers := by
  unfold Obligations.IndirectTransfers
  refine ⟨fun x s c h htarget => ?ret, fun x s c h hword hlow => ?jmpi, fun x s c l h hl => ?align, fun x s c l h hword hl => ?addr⟩
  case ret =>
    have ht := (context_team h.1).1
    refine ⟨_, exec_of_gate_go (own := fun c _ => targetGate c (c.v64 0)) rfl h (targetGate_go htarget),
      nothingWritten_conclude ht rfl rfl rfl (fun _ he => by cases he; exact noJoin_returnEntries c), fun hr l hl => ?_⟩
    obtain ⟨hlt, hact⟩ := mem_lanesOf.mp hl
    obtain ⟨hold, hat⟩ := returnEntries_lane hl
    exact laneAt_conclude rfl rfl rfl ht hr hlt (act_subset_mask h.1 hr hact) hold hat
  case jmpi =>
    have ht := (context_team h.1).1
    exact ⟨_, exec_of_gate_go (own := fun c _ => targetGate c fun _ => c.pair 0) rfl h (targetGate_go fun _ _ => ⟨hword, hlow⟩),
      nothingWritten_conclude ht rfl rfl rfl (fun _ he => by cases he; exact noJoin_goTo _ _),
      fun hr l hl hmask => laneAt_transfer ht hr hl hmask⟩
  case align =>
    exact exec_of_gate_trap (own := fun c _ => targetGate c (c.v64 0)) rfl h (targetGate_align hl)
  case addr =>
    exact exec_of_gate_trap (own := fun c _ => targetGate c (c.v64 0)) rfl h (targetGate_addr hword hl)

/-! ## Soft traps, YIELD and PRIOSET (07 R116, R117, R120, 15 R267) -/

section
variable {c : Ctx} {r : Done}

theorem conclude_of_post {i : TrapInfo} (hf : r.fail = none) (hp : r.post = some i) :
    conclude c r = takeTrap (conclude c { r with post := none }) c.key
      { i with replay := ((team? (conclude c { r with post := none }) c.key).map (·.replayQ)).getD [] } := by
  unfold conclude
  rw [hf, hp]

/-- An instruction that traps once it has completed leaves the rest of the replay queue to the frame (07 R120, 15 R277). -/
theorem conclude_of_post_queue {i : TrapInfo} {s : State} (ht : team? s c.key = some c.team) (hs : r.s = s) (hf : r.fail = none)
    (hp : r.post = some i) (hk : r.keep = false) :
    conclude c r = takeTrap (conclude c { r with post := none }) c.key { i with replay := queueLeft c } := by
  rw [conclude_of_post hf hp]
  obtain ⟨y, hy, hyx⟩ := team?_concluded (c := c) (r := { r with post := none }) hf rfl (by rw [← ht, ← hs])
  obtain ⟨_, _, _, hqueue⟩ := unstinted_fields hyx
  rw [hy, Option.map_some, hqueue, concluded_replayQ (r := { r with post := none }) hk]
  rfl

/-- A soft trap: an instruction that does nothing but trap once it has completed. -/
theorem softTrap_taken {i : TrapInfo} {s : State} (ht : team? s c.key = some c.team) :
    ∃ u, NothingWritten c s u ∧ conclude c { s := s, post := some i } = takeTrap u c.key { i with replay := queueLeft c } :=
  ⟨_, nothingWritten_conclude (r := { s := s }) ht rfl rfl rfl (fun _ he => by cases he), conclude_of_post_queue ht rfl rfl rfl rfl⟩

end

/-- Settles O20: none of the five changes the state before its end; YIELD ends the stint, PRIOSET moves its lanes to an entry of the
new priority, and BRK and TRAP trap from the state in which they have completed. -/
theorem yieldPriosetAndSoftTraps : Obligations.YieldPriosetAndSoftTraps := by
  unfold Obligations.YieldPriosetAndSoftTraps
  refine ⟨fun x s c h => ?nop, fun x s c h => ?yield, fun x s c h => ?prioset, fun x s c h => ?brk, fun x s c h => ?trap⟩
  case nop =>
    exact ⟨_, exec_of_gate_go (own := fun _ _ => .go) rfl h rfl,
      nothingWritten_conclude (context_team h.1).1 rfl rfl rfl (fun _ he => by cases he)⟩
  case yield =>
    exact ⟨_, exec_of_gate_go (own := fun _ _ => .go) rfl h rfl,
      nothingWritten_conclude (context_team h.1).1 rfl rfl rfl (fun _ he => by cases he), (conclude_yields rfl rfl rfl).1⟩
  case prioset =>
    have ht := (context_team h.1).1
    have hjoin : NoJoin [{ c.goTo c.nextPc c.cur.mask with prio := (c.s 0).toNat % 256 }] := by simp [NoJoin, Ctx.goTo]
    refine ⟨_, exec_of_gate_go (own := fun _ _ => .go) rfl h rfl,
      nothingWritten_conclude ht rfl rfl rfl (fun _ he => by cases he; exact hjoin), fun hr hh l hl hmask => ?_⟩
    refine laneIs_conclude (P := fun σ => σ.2.1 = c.nextPc ∧ σ.2.2 = none ∧ σ.1 = (c.s 0).toNat % 256)
      (fun k p pc hP => by cases hP.2.1) rfl rfl rfl ht hr hl hmask (hasLane_cons.mpr (.inl hmask)) fun σ hσ => ?_
    rw [spread_of_no_hprio hr hh] at hσ
    obtain ⟨e, he, _, rfl⟩ := hσ
    rw [List.mem_singleton.mp he]
    exact ⟨rfl, rfl, rfl⟩
  case brk =>
    obtain ⟨u, hu, htrap⟩ := softTrap_taken (i := { cause := 0xE, tpc := c.cur.pc, kval := x.b.toNat }) (context_team h.1).1
    exact ⟨u, hu, (exec_of_gate_go (own := fun _ _ => .go) rfl h rfl).trans (congrArg _ htrap)⟩
  case trap =>
    obtain ⟨u, hu, htrap⟩ := softTrap_taken (i := { cause := 0xF, tpc := c.cur.pc, kval := x.b.toNat }) (context_team h.1).1
    exact ⟨u, hu, (exec_of_gate_go (own := fun _ _ => .go) rfl h rfl).trans (congrArg _ htrap)⟩

end Sys2Proof.Machine

/-! # Rejoin masks (07 R122, R123) -/

namespace Sys2Proof.Machine

open Sys2Proof.Spec

/-! ## ENROL (07 R122) -/

section
variable {c : Ctx} {s : State} {r : Done}

/-- What an instruction that changes its own team alone leaves of everything else. -/
theorem teamOnly_conclude (hf : r.fail = none) (hp : r.post = none) {F : Team → Team} (hs : r.s = onTeam s c.key F) :
    TeamOnly c s (conclude c r) where
  rest := by
    rw [conclude_rest hf hp, hs]
    unfold onTeam
    split <;> rfl
  others k hk := by rw [conclude_others hf hp hk, hs, team?_onTeam, if_neg (Ne.symm hk)]
  benches b hb := by rw [conclude_benches hf hp hb, hs, bench_onTeam]

/-- A team after an ENROL, before its instruction ends. -/
def enrolled (k : Nat) (m : Word) (t : Team) : Team := { t with m := Tab.put t.m k (Team.mask t k ||| m) }

theorem mask_enrolled (k j : Nat) (m : Word) (t : Team) :
    Team.mask (enrolled k m t) j = if k = j then Team.mask t j ||| m else Team.mask t j := by
  simp only [enrolled, Team.mask, Tab.getD_put]
  split
  · rename_i h
    rw [h]
  · rfl

end

/-! ## The lanes of a JOINW (07 R123) -/

section
variable (c : Ctx) (k : Nat)

/-- The lanes that a JOINW makes wait: the active ones that are enrolled. -/
def joining : Word := c.act &&& Team.mask c.team k

/-- The entries that the lanes of a JOINW move to. -/
def joinEntries : List Entry :=
  [c.goTo c.cur.pc (joining c k) (some (.join k)), c.goTo c.nextPc (c.cur.mask &&& ~~~joining c k)]

/-- The team as a JOINW has moved its lanes, before joins complete. -/
def joined : Team := advanceTeam c (some (joinEntries c k)) c.team

variable {c k} {l : Nat} {σ : Spot}

theorem joining_active (h : (joining c k).getLsbD l = true) : c.act.getLsbD l = true := getLsbD_of_and h

/-- A lane of the JOINW is in the one of its two entries that `joining` names. -/
theorem joinEntries_lane (hl : l < 32) (hmask : c.cur.mask.getLsbD l = true) (hw : (joining c k).getLsbD l = false) :
    HasLane (joinEntries c k) l ∧ LaneOnlyAt (joinEntries c k) l c.nextPc := by
  have hrest : (c.cur.mask &&& ~~~joining c k).getLsbD l = true := by
    rw [BitVec.getLsbD_and, BitVec.getLsbD_not, hmask, hw, decide_eq_true hl]
    rfl
  simp [joinEntries, hasLane_cons, laneOnlyAt_cons, Ctx.goTo, hw, hrest]

theorem hasSpot_joinEntries (h : HasSpot (joinEntries c k) l σ) (hw : σ.2.2 ≠ none) :
    (joining c k).getLsbD l = true ∧ σ = (c.prio, c.cur.pc, some (.join k)) := by
  obtain ⟨e, he, hl, rfl⟩ := h
  obtain rfl | he := List.mem_cons.mp he
  · exact ⟨hl, rfl⟩
  · rw [List.mem_singleton.mp he] at hw
    exact absurd rfl hw

theorem hasSpot_joinEntries_joining (hw : (joining c k).getLsbD l = true) :
    HasSpot (joinEntries c k) l σ ↔ σ = (c.prio, c.cur.pc, some (.join k)) := by
  have hrest : (c.cur.mask &&& ~~~joining c k).getLsbD l = false := by
    rw [BitVec.getLsbD_and, BitVec.getLsbD_not, hw]
    simp
  simp only [joinEntries, hasSpot_cons, Ctx.goTo, hw, hrest, Entry.spot, hasSpot_nil, true_and, Bool.false_eq_true, false_and, or_false]
  exact eq_comm

theorem lt_of_waits {es : List Entry} {j : Nat} (hw : Waits es j l) : l < 32 := by
  obtain ⟨e, _, _, hl⟩ := hw
  exact BitVec.lt_of_getLsbD hl

variable {h : Shape} {s : State} (hr : c.cur.replay = none)
include hr

/-- After the JOINW each of its waiting lanes has but one spot. -/
theorem hasSpot_joined_joining (hc : context h s = some c) (hl : l < 32) (hw : (joining c k).getLsbD l = true) :
    HasSpot (joined c k).front l σ ↔ σ = (c.prio, c.cur.pc, some (.join k)) := by
  have hmask : c.cur.mask.getLsbD l = true := act_subset_mask hc hr (joining_active hw)
  rw [joined, hasSpot_advanceTeam hr _ _ hl, hmask, Option.getD_some, hasSpot_spread_of_active hr (joining_active hw),
    hasSpot_joinEntries_joining hw]
  simp

/-- After the JOINW a lane waits at a JOINW where it has moved to this one, or where it waited before and is none of its lanes. -/
theorem hasSpot_joined_join {j p pc : Nat} (hl : l < 32) (h : HasSpot (joined c k).front l (p, pc, some (.join j))) :
    (HasSpot c.team.front l (p, pc, some (.join j)) ∧ c.cur.mask.getLsbD l = false) ∨
      ((joining c k).getLsbD l = true ∧ j = k ∧ p = c.prio ∧ pc = c.cur.pc) := by
  obtain h | h := (hasSpot_advanceTeam hr _ _ hl).mp h
  · exact .inl h
  · obtain ⟨q, hq⟩ := hasSpot_spread_source hr h
    obtain ⟨hw, hq⟩ := hasSpot_joinEntries hq (by simp)
    rw [Option.getD_some, hasSpot_spread_of_active hr (joining_active hw)] at h
    obtain ⟨_, hσ⟩ := hasSpot_joinEntries h (by simp)
    simp only [Prod.mk.injEq, Option.some.injEq, Wait.join.injEq] at hσ
    exact .inr ⟨hw, hσ.2.2, hσ.1, hσ.2.1⟩

theorem hasSpot_joined_of_team (hl : l < 32) (h : HasSpot c.team.front l σ) (hmask : c.cur.mask.getLsbD l = false) :
    HasSpot (joined c k).front l σ := (hasSpot_advanceTeam hr _ _ hl).mpr (.inl ⟨h, hmask⟩)

theorem waits_joined {j : Nat} (hw : Waits (joined c k).front j l) : Waits c.team.front j l ∨ (joining c k).getLsbD l = true ∧ j = k := by
  obtain ⟨p, pc, hs⟩ := waits_iff_hasSpot.mp hw
  obtain ⟨hs, _⟩ | ⟨hl, hj, _⟩ := hasSpot_joined_join hr (lt_of_waits hw) hs
  · exact .inl (waits_iff_hasSpot.mpr ⟨p, pc, hs⟩)
  · exact .inr ⟨hl, hj⟩

/-- The other rejoin masks stand, or their joins complete. -/
theorem maskStands_joined {j : Nat} (hj : j ≠ k) : MaskStands c.team (joinChecks (joined c k)) j (Team.mask c.team j) :=
  MaskStands.trans (b := joined c k) (.inl rfl) (fun _ hw => (waits_joined hr hw).resolve_right fun h => hj h.2)
    ((joinChecks_kept (joined c k)).2 j)

end

/-! ## What a JOINW leaves of its state -/

section
variable {c : Ctx} {k : Nat} {s : State} (ht : team? s c.key = some c.team)
include ht

/-- The team of a JOINW, once it has concluded. -/
theorem team?_joinw : ∃ u, team? (conclude c { s := s, moves := some (joinEntries c k) }) c.key = some u ∧
    u.front = (joinChecks (joined c k)).front ∧ u.m = (joinChecks (joined c k)).m ∧ u.kept = c.team.kept := by
  obtain ⟨u, hu, hux⟩ := team?_concluded (r := { s := s, moves := some (joinEntries c k) }) rfl rfl ht
  obtain ⟨hkept, hfront, hm, _⟩ := unstinted_fields hux
  exact ⟨u, hu, hfront.trans (concluded_front rfl), hm.trans (concluded_m rfl), hkept.trans concluded_kept⟩

omit ht in
theorem teamOnly_joinw : TeamOnly c s (conclude c { s := s, moves := some (joinEntries c k) }) where
  rest := conclude_rest rfl rfl
  others _ hj := conclude_others rfl rfl hj
  benches _ hb := conclude_benches rfl rfl hb

theorem laneAt_joinw {l : Nat} (hr : c.cur.replay = none) (hl : l < 32) (hmask : c.cur.mask.getLsbD l = true)
    (hw : (joining c k).getLsbD l = false) :
    LaneAt (conclude c { s := s, moves := some (joinEntries c k) }) c.key l c.nextPc :=
  let ⟨hold, hat⟩ := joinEntries_lane hl hmask hw
  laneAt_conclude rfl rfl rfl ht hr hl hmask hold hat

end

/-! ## A JOINW whose join does not complete -/

section
variable {c : Ctx} {k : Nat} {h : Shape} {s : State}

/-- A join does not complete while a lane of its mask waits nowhere. -/
theorem not_joinReady {t : Team} {m : Word} (hmask : Team.mask t k = Team.mask c.team k)
    (hw : ∀ l, Waits t.front k l → m.getLsbD l = true) (hlack : Team.mask c.team k &&& ~~~m ≠ 0) : ¬ joinReady t k := by
  rintro ⟨_, hall⟩
  rw [hmask, and_not_eq_zero_iff_all, List.all_eq_true] at hall
  refine hlack ((and_not_eq_zero_iff_all ..).mpr (List.all_eq_true.mpr fun l hl => hw l ?_))
  exact (joinWaiting_iff ..).mp (hall l hl)

/-- The team of a JOINW whose join does not complete, while other joins are checked. -/
structure JoinWaits (c : Ctx) (k : Nat) (t : Team) : Prop where
  mask : Team.mask t k = Team.mask c.team k
  waits : ∀ l, Waits t.front k l → (joinWaiting c.team k ||| joining c k).getLsbD l = true
  mine : ∀ l, l < 32 → (joining c k).getLsbD l = true →
    HasLane t.front l ∧ ∀ σ, HasSpot t.front l σ → σ.2.1 = c.cur.pc ∧ σ.2.2 = some (.join k)

theorem JoinWaits.joinCheck {t : Team} (hlack : Team.mask c.team k &&& ~~~(joinWaiting c.team k ||| joining c k) ≠ 0)
    (hw : JoinWaits c k t) (j : Nat) : JoinWaits c k (joinCheck t j) := by
  by_cases hj : j = k
  · subst hj
    rwa [joinCheck_of_not_ready (not_joinReady hw.mask hw.waits hlack)]
  · refine ⟨(mask_joinCheck_of_ne hj).trans hw.mask, fun l hl => hw.waits l ((joinCheck_kept t j).2.1 k l hl),
      fun l hl hm => ⟨hasLane_joinCheck (hw.mine l hl hm).1, ?_⟩⟩
    refine hasSpot_of_joinCheck (P := fun σ => σ.2.1 = c.cur.pc ∧ σ.2.2 = some (.join k)) (fun p pc hP => hj ?_) (hw.mine l hl hm).2
    simpa using hP.2

theorem joinWaits_joined (hc : context h s = some c) (hr : c.cur.replay = none) : JoinWaits c k (joined c k) where
  mask := rfl
  waits l hw := by
    rw [BitVec.getLsbD_or, Bool.or_eq_true, joinWaiting_iff]
    exact (waits_joined hr hw).imp id And.left
  mine l hl hw := by
    refine ⟨hasLane_iff_hasSpot.mpr ⟨_, (hasSpot_joined_joining hr hc hl hw).mpr rfl⟩, fun σ hσ => ?_⟩
    rw [(hasSpot_joined_joining hr hc hl hw).mp hσ]
    exact ⟨rfl, rfl⟩

/-- While its join does not complete, the mask and the lanes that wait at this JOINW stay as they are. -/
theorem joinw_waits (hc : context h s = some c) (hr : c.cur.replay = none)
    (hlack : Team.mask c.team k &&& ~~~(joinWaiting c.team k ||| joining c k) ≠ 0) : JoinWaits c k (joinChecks (joined c k)) :=
  joinChecks_induction (fun _ j hw => hw.joinCheck hlack j) (joinWaits_joined hc hr)

end

/-! ## A JOINW that completes its join -/

section
variable {c : Ctx} {k : Nat} {h : Shape} {s : State} {t : Team} {l : Nat}

/-- The highest priority among the waiting entries is at least each of theirs, and one of theirs. -/
theorem joinTop_spec (t : Team) (k : Nat) : (∀ e ∈ t.front, e.wait = some (.join k) → e.prio ≤ joinTop t k) ∧
    ((∃ e ∈ t.front, e.wait = some (.join k)) → ∃ e ∈ t.front, e.wait = some (.join k) ∧ e.prio = joinTop t k) := by
  have key : ∀ (es : List Entry) (p : Nat), let q := es.foldl (fun p e => if e.wait = some (.join k) then max p e.prio else p) p
      p ≤ q ∧ (∀ e ∈ es, e.wait = some (.join k) → e.prio ≤ q) ∧
        (q = p ∨ ∃ e ∈ es, e.wait = some (.join k) ∧ e.prio = q) := by
    intro es
    induction es with
    | nil => simp
    | cons e r ih =>
      intro p
      obtain ⟨hle, hall, hsome⟩ := ih (if e.wait = some (.join k) then max p e.prio else p)
      simp only [List.foldl_cons, List.mem_cons, forall_eq_or_imp, exists_eq_or_imp]
      by_cases hw : e.wait = some (.join k)
      · rw [if_pos hw] at hle hall hsome ⊢
        refine ⟨le_trans (le_max_left ..) hle, ⟨fun _ => le_trans (le_max_right ..) hle, hall⟩, ?_⟩
        obtain hq | hq := hsome
        · obtain hmax | hmax := max_choice p e.prio
          · exact .inl (hq.trans hmax)
          · exact .inr (.inl ⟨hw, (hq.trans hmax).symm⟩)
        · exact .inr (.inr hq)
      · rw [if_neg hw] at hle hall hsome ⊢
        exact ⟨hle, ⟨fun h => absurd h hw, hall⟩, hsome.imp id .inr⟩
  obtain ⟨_, hall, hsome⟩ := key t.front 0
  refine ⟨hall, fun ⟨e, he, hw⟩ => ?_⟩
  obtain hq | hq := hsome
  · exact ⟨e, he, hw, le_antisymm (hall e he hw) (hq.le.trans (Nat.zero_le _))⟩
  · exact hq

/-- A check of another join changes nothing of the lanes that wait at this one. -/
theorem hasSpot_joinCheck_other {j p pc : Nat} (hj : j ≠ k) :
    HasSpot (joinCheck t j).front l (p, pc, some (.join k)) ↔ HasSpot t.front l (p, pc, some (.join k)) := by
  have hne : (some (Wait.join k) : Option Wait) ≠ some (.join j) := fun h => hj (Wait.join.inj (Option.some.inj h)).symm
  refine ⟨fun h => ?_, fun h => h.joinCheck hne⟩
  by_cases hr : joinReady t j
  · obtain ⟨h, _⟩ | ⟨_, _, _, h⟩ := (hasSpot_joinCheck_of_ready hr).mp h
    · exact h
    · cases h
  · rwa [joinCheck_of_not_ready hr] at h

/-- Before the check of its join: the team is as the JOINW has left it, as far as that join can see. -/
structure JoinPending (c : Ctx) (k : Nat) (t : Team) : Prop where
  mask : Team.mask t k = Team.mask c.team k
  spots : ∀ l p pc, HasSpot t.front l (p, pc, some (.join k)) ↔ HasSpot (joined c k).front l (p, pc, some (.join k))
  lanes : ∀ e ∈ t.front, e.mask ≠ 0
  mine : ∀ l, l < 32 → (joining c k).getLsbD l = true → ∀ σ, HasSpot t.front l σ → σ = (c.prio, c.cur.pc, some (.join k))

/-- After it: its lanes stand behind their JOINW, with the highest priority among them. -/
structure JoinDone (c : Ctx) (k top : Nat) (t : Team) : Prop where
  mask : Team.mask t k = 0
  freed : ∀ l p pc, HasSpot (joined c k).front l (p, pc, some (.join k)) → p ≤ top ∧ HasSpot t.front l (top, (pc + 4) % 2 ^ 57, none)
  mine : ∀ l, l < 32 → (joining c k).getLsbD l = true → ∀ σ, HasSpot t.front l σ → σ = (top, c.nextPc, none)
  top : ∃ l pc, HasSpot (joined c k).front l (top, pc, some (.join k))

theorem JoinPending.joinCheck {j : Nat} (hj : j ≠ k) (hp : JoinPending c k t) : JoinPending c k (joinCheck t j) where
  mask := (mask_joinCheck_of_ne hj).trans hp.mask
  spots l p pc := (hasSpot_joinCheck_other hj).trans (hp.spots l p pc)
  lanes := joinCheck_mask_ne_zero hp.lanes
  mine l hl hw := by
    refine hasSpot_of_joinCheck (P := fun σ => σ = (c.prio, c.cur.pc, some (.join k))) (fun p pc hP => hj ?_) (hp.mine l hl hw)
    simpa using congrArg (·.2.2) hP

theorem JoinDone.joinCheck {j top : Nat} (hj : j ≠ k) (hd : JoinDone c k top t) : JoinDone c k top (joinCheck t j) where
  mask := (mask_joinCheck_of_ne hj).trans hd.mask
  freed l p pc hs := ⟨(hd.freed l p pc hs).1, (hd.freed l p pc hs).2.joinCheck (by simp)⟩
  mine l hl hw := hasSpot_of_joinCheck (P := fun σ => σ = (top, c.nextPc, none)) (fun p pc hP => by cases hP) (hd.mine l hl hw)
  top := hd.top

theorem exists_lane {m : Word} (h : m ≠ 0) : ∃ l, l < 32 ∧ m.getLsbD l = true := by
  by_contra hnone
  refine h (BitVec.eq_of_getLsbD_eq fun l hl => ?_)
  have hoff : m.getLsbD l = false := Bool.eq_false_iff.mpr fun hm => hnone ⟨l, hl, hm⟩
  exact hoff.trans BitVec.getLsbD_zero.symm

variable (hc : context h s = some c) (hr : c.cur.replay = none)
include hc hr

/-- The last lane to arrive makes the join ready. -/
theorem JoinPending.ready (hp : JoinPending c k t) (hw : joining c k ≠ 0)
    (hall : Team.mask c.team k &&& ~~~(joinWaiting c.team k &&& ~~~c.cur.mask ||| joining c k) = 0) : joinReady t k := by
  have hmine : ∀ l, (joining c k).getLsbD l = true → Waits t.front k l := fun l hl => waits_iff_hasSpot.mpr
    ⟨_, _, (hp.spots l _ _).mpr ((hasSpot_joined_joining hr hc (BitVec.lt_of_getLsbD hl) hl).mpr rfl)⟩
  constructor
  · obtain ⟨l, _, hl⟩ := exists_lane hw
    intro h0
    have := (joinWaiting_iff t k l).mpr (hmine l hl)
    simp [h0] at this
  · rw [hp.mask, and_not_eq_zero_iff_all, List.all_eq_true]
    rw [and_not_eq_zero_iff_all, List.all_eq_true] at hall
    intro l hl
    have hlt : l < 32 := (mem_lanesOf.mp hl).1
    have hin := hall l hl
    rw [BitVec.getLsbD_or, Bool.or_eq_true, BitVec.getLsbD_and, Bool.and_eq_true, BitVec.getLsbD_not, decide_eq_true hlt,
      Bool.true_and, Bool.not_eq_true'] at hin
    refine (joinWaiting_iff t k l).mpr ?_
    obtain ⟨hold, hmask⟩ | hl := hin
    · obtain ⟨p, pc, hs⟩ := waits_iff_hasSpot.mp ((joinWaiting_iff ..).mp hold)
      exact waits_iff_hasSpot.mpr ⟨p, pc, (hp.spots l p pc).mpr (hasSpot_joined_of_team hr hlt hs hmask)⟩
    · exact hmine l hl

/-- The check of the join completes it. -/
theorem JoinPending.completes (hp : JoinPending c k t) (hw : joining c k ≠ 0)
    (hall : Team.mask c.team k &&& ~~~(joinWaiting c.team k &&& ~~~c.cur.mask ||| joining c k) = 0) :
    JoinDone c k (joinTop t k) (Machine.joinCheck t k) := by
  have hready := hp.ready hc hr hw hall
  obtain ⟨hle, hmem⟩ := joinTop_spec t k
  have hmine : ∀ l, l < 32 → (joining c k).getLsbD l = true → HasSpot t.front l (c.prio, c.cur.pc, some (.join k)) :=
    fun l hl hm => (hp.spots l _ _).mpr ((hasSpot_joined_joining hr hc hl hm).mpr rfl)
  refine ⟨?_, fun l p pc hs => ?_, fun l hl hm σ hσ => ?_, ?_⟩
  · rw [joinCheck_of_ready hready]
    simp [Team.mask]
  · have hst := (hp.spots l p pc).mpr hs
    refine ⟨?_, (hasSpot_joinCheck_of_ready hready).mpr (.inr ⟨p, pc, hst, rfl⟩)⟩
    obtain ⟨e, he, _, hes⟩ := hst
    exact (congrArg Prod.fst hes).symm.le.trans (hle e he (congrArg (·.2.2) hes))
  · obtain ⟨hs, hne⟩ | ⟨p, pc, hs, rfl⟩ := (hasSpot_joinCheck_of_ready hready).mp hσ
    · exact absurd (congrArg (·.2.2) (hp.mine l hl hm σ hs)) hne
    · have hpc : pc = c.cur.pc := congrArg (·.2.1) (hp.mine l hl hm _ hs)
      rw [hpc, Ctx.nextPc]
  · obtain ⟨l, hl, hm⟩ := exists_lane hw
    obtain ⟨e0, he0, _, hes0⟩ := hmine l hl hm
    obtain ⟨e, he, hew, htop⟩ := hmem ⟨e0, he0, congrArg (·.2.2) hes0⟩
    obtain ⟨i, _, hi⟩ := exists_lane (hp.lanes e he)
    exact ⟨i, e.pc, (hp.spots i _ _).mp ⟨e, he, hi, by rw [Entry.spot, hew, htop]⟩⟩

theorem joinPending_joined : JoinPending c k (joined c k) where
  mask := rfl
  spots _ _ _ := Iff.rfl
  lanes := advanceTeam_mask hr _ _
  mine _ hl hw _ hσ := (hasSpot_joined_joining hr hc hl hw).mp hσ

theorem joinw_completes (hk : k < 4) (hw : joining c k ≠ 0)
    (hall : Team.mask c.team k &&& ~~~(joinWaiting c.team k &&& ~~~c.cur.mask ||| joining c k) = 0) :
    ∃ top, JoinDone c k top (joinChecks (joined c k)) :=
  joinChecks_induction_at (P := JoinPending c k) (Q := fun t => ∃ top, JoinDone c k top t) hk
    (fun _ _ hj hp => hp.joinCheck hj) (fun t hp => ⟨joinTop t k, hp.completes hc hr hw hall⟩)
    (fun _ _ hj ⟨top, hd⟩ => ⟨top, hd.joinCheck hj⟩) (joinPending_joined hc hr)

omit hc in
/-- Where the highest priority comes from: this JOINW, or an entry that waited before it. -/
theorem JoinDone.top_source {top : Nat} (hd : JoinDone c k top t) :
    top = c.prio ∨ ∃ e ∈ c.team.front, e.wait = some (.join k) ∧ e.prio = top := by
  obtain ⟨l, pc, hs⟩ := hd.top
  have hlt : l < 32 := let ⟨_, _, hl, _⟩ := hs; BitVec.lt_of_getLsbD hl
  obtain ⟨⟨e, he, _, hes⟩, _⟩ | ⟨_, _, hp, _⟩ := hasSpot_joined_join hr hlt hs
  · exact .inr ⟨e, he, congrArg (·.2.2) hes, congrArg Prod.fst hes⟩
  · exact .inl hp

omit hc in
/-- An entry that waited before the JOINW, and none of whose lanes it moves, goes on behind its own JOINW. -/
theorem JoinDone.frees {top : Nat} (hd : JoinDone c k top t) {e : Entry} (he : e ∈ c.team.front) (hwait : e.wait = some (.join k))
    (hl : e.mask.getLsbD l = true) (hmask : c.cur.mask.getLsbD l = false) :
    e.prio ≤ top ∧ HasSpot t.front l (top, (e.pc + 4) % 2 ^ 57, none) :=
  hd.freed l e.prio e.pc
    (hasSpot_joined_of_team hr (BitVec.lt_of_getLsbD hl) ⟨e, he, hl, by rw [Entry.spot, hwait]⟩ hmask)

theorem JoinDone.mine_le {top : Nat} (hd : JoinDone c k top t) (hl : (joining c k).getLsbD l = true) :
    c.prio ≤ top ∧ HasSpot t.front l (top, c.nextPc, none) :=
  hd.freed l c.prio c.cur.pc ((hasSpot_joined_joining hr hc (BitVec.lt_of_getLsbD hl) hl).mpr rfl)

end

theorem exec_joinw_of_ready {k : BitVec 2} {x : SF} {s : State} {c : Ctx} (h : Ready (.joinw k x) s c) :
    exec (.joinw k x) s = .next (conclude c { s := s, moves := some (joinEntries c k.toNat) }) :=
  exec_of_gate_go (own := fun _ _ => .go) rfl h rfl

/-- Settles O22: an ENROL changes a mask and nothing else; a JOINW moves its enrolled lanes to an entry that waits, and the check of
its join, which no other check disturbs, releases them all together once the last of them is there. -/
theorem rejoinMasks : Obligations.RejoinMasks := by
  unfold Obligations.RejoinMasks
  refine ⟨?enrol, ?waits, ?completes⟩
  case enrol =>
    intro k x s c h
    have ht := (context_team h.1).1
    have hx : team? (onTeam s c.key (enrolled k.toNat c.act)) c.key = some (enrolled k.toNat c.act c.team) := by
      rw [team?_onTeam, if_pos rfl, ht]
      rfl
    have hconc := conclude_concludes c { s := onTeam s c.key (enrolled k.toNat c.act) } rfl rfl (fun _ he => by cases he)
    obtain ⟨u, hu, hkept, hmasks⟩ := hconc.own _ hx
    refine ⟨_, u, exec_of_gate_go (own := fun _ _ => .go) rfl h rfl, hu, ?_, fun j hj => ?_, hkept, teamOnly_conclude rfl rfl rfl,
      .concludes (fun b => bench_onTeam _ _ b _) hconc, goesOn_conclude rfl rfl rfl rfl hx⟩
    · have hstands := hmasks k.toNat
      rwa [mask_enrolled, if_pos rfl] at hstands
    · have hstands := hmasks j
      rwa [mask_enrolled, if_neg (Ne.symm hj)] at hstands
  case waits =>
    intro k x s c h hr w hlack
    have ht := (context_team h.1).1
    obtain ⟨u, hu, hfront, hm, hkept⟩ := team?_joinw (k := k.toNat) ht
    have hwaits := joinw_waits h.1 hr hlack
    have honly := teamOnly_joinw (c := c) (k := k.toNat) (s := s)
    have hstands : ∀ j, MaskStands c.team u j (Team.mask c.team j) := fun j => by
      have hj : MaskStands c.team (joinChecks (joined c k.toNat)) j (Team.mask c.team j) := by
        by_cases hj : j = k.toNat
        · exact .inl (by rw [hj, hwaits.mask])
        · exact maskStands_joined hr hj
      simpa only [MaskStands, Team.mask, hm] using hj
    refine ⟨_, exec_joinw_of_ready h, ⟨conclude_latchesKept rfl rfl fun _ => rfl, honly.rest, honly.others,
      ⟨u, hu, hkept, hstands⟩, honly.benches⟩, fun l hl hw => ?_, fun l hl hmask hw => laneAt_joinw ht hr hl hmask hw⟩
    refine (laneIs_iff (P := fun σ => σ.2.1 = c.cur.pc ∧ σ.2.2 = some (.join k.toNat))).mpr ⟨u, hu, ?_⟩
    rw [hfront]
    exact hwaits.mine l hl hw
  case completes =>
    intro k x s c h hr w hw hall
    have ht := (context_team h.1).1
    obtain ⟨u, hu, hfront, hm, hkept⟩ := team?_joinw (k := k.toNat) ht
    obtain ⟨top, hdone⟩ := joinw_completes h.1 hr k.isLt hw hall
    have honly := teamOnly_joinw (c := c) (k := k.toNat) (s := s)
    obtain ⟨l0, _, hl0⟩ := exists_lane hw
    refine ⟨_, u, top, exec_joinw_of_ready h, hu, ?_, fun j hj => ?_, hkept, honly, conclude_latchesKept rfl rfl fun _ => rfl,
      fun l hl hw => ?_, fun l hl hmask hw => laneAt_joinw ht hr hl hmask hw, fun e he hwait hout => ⟨?_, fun l hl hin hmask => ?_⟩,
      (hdone.mine_le h.1 hr hl0).1, hdone.top_source hr⟩
    · rw [Team.mask, hm]
      exact hdone.mask
    · have hstands := maskStands_joined (k := k.toNat) hr hj
      simpa only [MaskStands, Team.mask, hm] using hstands
    · refine (laneIs_iff (P := fun σ => σ.2.1 = c.nextPc ∧ σ.2.2 = none ∧ σ.1 = top)).mpr ⟨u, hu, ?_⟩
      rw [hfront]
      refine ⟨hasLane_iff_hasSpot.mpr ⟨_, (hdone.mine_le h.1 hr hw).2⟩, fun σ hσ => ?_⟩
      rw [hdone.mine l hl hw σ hσ]
      exact ⟨rfl, rfl, rfl⟩
    · obtain ⟨l, hl, hin⟩ := exists_lane hout
      rw [BitVec.getLsbD_and, BitVec.getLsbD_not, decide_eq_true hl, Bool.true_and, Bool.and_eq_true, Bool.not_eq_true'] at hin
      exact (hdone.frees hr he hwait hin.1 hin.2).1
    · obtain ⟨y, hy, hyl, hspot⟩ := (hdone.frees hr he hwait hin hmask).2
      rw [hfront]
      exact ⟨y, hy, hyl, congrArg (·.2.1) hspot, congrArg (·.2.2) hspot, congrArg Prod.fst hspot⟩

end Sys2Proof.Machine

/-! # Waking and parking (02 R18, R20, 07 R124, 15 R281) -/

namespace Sys2Proof.Machine

open Sys2Proof.Spec

/-! ## Waking -/

/-- An entry whose condition has come goes on: at its own word where its wait says so, and at the next word otherwise. -/
def wakeEntry (p : Wait → Option (Option Word)) (e : Entry) : Entry :=
  if (e.wait.bind p).isSome then
    { e with wait := none, pc := if e.wait.any Wait.stays then e.pc else (e.pc + 4) % 2 ^ 57 }
  else e

/-- The scalar that the wake of an entry writes. -/
def wakeWrite (p : Wait → Option (Option Word)) (e : Entry) : Option (Nat × Word) :=
  e.wait.bind fun w => (p w).bind fun res => w.dest.bind fun d => res.map fun x => (d, x)

section
variable {p : Wait → Option (Option Word)} {e : Entry} {es : List Entry} {t : Team} {w : Wait} {l : Nat}

theorem wakeEntries_eq : wakeEntries p es =
    (es.map (wakeEntry p), es.filterMap (wakeWrite p), es.any fun e => (e.wait.bind p).isSome) := by
  induction es with
  | nil => rfl
  | cons e r ih =>
    rw [wakeEntries, ih]
    cases hw : e.wait with
    | none => simp [wakeEntry, wakeWrite, hw]
    | some w =>
      cases hp : p w with
      | none => simp [wakeEntry, wakeWrite, hw, hp]
      | some res => cases hd : w.dest <;> cases res <;> simp [wakeEntry, wakeWrite, hw, hp, hd]

@[simp] theorem wakeEntry_mask (p : Wait → Option (Option Word)) (e : Entry) : (wakeEntry p e).mask = e.mask := by
  unfold wakeEntry
  split <;> rfl

theorem wakeEntry_of_none (h : e.wait.bind p = none) : wakeEntry p e = e := by
  simp [wakeEntry, h]

theorem wakeEntry_of_some (hw : e.wait = some w) (hp : (p w).isSome = true) :
    (wakeEntry p e).spot = (e.prio, if w.stays then e.pc else (e.pc + 4) % 2 ^ 57, none) := by
  simp [wakeEntry, hw, hp, Entry.spot]

/-- What an entry still waits for after a wake is no condition that has come. -/
theorem wakeEntry_wait (h : (wakeEntry p e).wait = some w) : e.wait = some w ∧ p w = none := by
  unfold wakeEntry at h
  split at h
  · cases h
  · rename_i hp
    refine ⟨h, ?_⟩
    rw [h] at hp
    simpa using hp

theorem wakeWrite_eq_some {d : Nat} {x : Word} (h : wakeWrite p e = some (d, x)) :
    ∃ w, e.wait = some w ∧ p w = some (some x) ∧ w.dest = some d := by
  simp only [wakeWrite, Option.bind_eq_some_iff, Option.map_eq_some_iff] at h
  obtain ⟨w, hw, res, hp, d', hd, x', rfl, hpair⟩ := h
  obtain ⟨rfl, rfl⟩ := Prod.mk.inj hpair
  exact ⟨w, hw, hp, hd⟩

/-- The writes of a wake, one after another. -/
def writeWakes (ws : List (Nat × Word)) (t : Team) : Team := ws.foldl (fun t w => Team.setScalar t w.1 w.2) t

theorem writeWakes_eq (ws : List (Nat × Word)) (t : Team) : writeWakes ws t = { t with s := (writeWakes ws t).s } := by
  induction ws generalizing t with
  | nil => rfl
  | cons w r ih => exact ih (Team.setScalar t w.1 w.2)

/-- A scalar that only one value is written to holds it, if it is written at all or has held it before. -/
theorem scalar_writeWakes {ws : List (Nat × Word)} {d : Nat} {x : Word} (hall : ∀ w ∈ ws, w.1 = d → w.2 = x)
    (h : Team.scalar t d = x ∨ ∃ w ∈ ws, w.1 = d) : Team.scalar (writeWakes ws t) d = x := by
  induction ws generalizing t with
  | nil => exact h.resolve_right (by simp)
  | cons w r ih =>
    obtain ⟨hw, hr⟩ := List.forall_mem_cons.mp hall
    refine ih (t := Team.setScalar t w.1 w.2) hr ?_
    rw [scalar_setScalar]
    by_cases hd : w.1 = d
    · exact .inl (by rw [if_pos hd, hw hd])
    · rw [if_neg hd]
      refine h.imp id fun ⟨y, hy, hyd⟩ => ⟨y, ?_, hyd⟩
      exact (List.mem_cons.mp hy).resolve_left fun h => hd (h ▸ hyd)

/-- A wake changes the frontier, the held entries and scalars of a team. -/
theorem wakeTeam_eq (p : Wait → Option (Option Word)) (t : Team) : wakeTeam p t = writeWakes (t.front.filterMap (wakeWrite p))
    { t with
      front := if t.front.any fun e => (e.wait.bind p).isSome then rebuild (t.front.map (wakeEntry p)) else t.front
      held := t.held.map (wakeHeld p)
      woken := t.woken || t.front.any fun e => (e.wait.bind p).isSome } := by
  simp only [wakeTeam, wakeEntries_eq, writeWakes]

theorem wakeTeam_front (p : Wait → Option (Option Word)) (t : Team) : (wakeTeam p t).front =
    if t.front.any fun e => (e.wait.bind p).isSome then rebuild (t.front.map (wakeEntry p)) else t.front := by
  rw [wakeTeam_eq, writeWakes_eq]

/-- A wake writes no vector register and no predicate, and ends no team. -/
theorem wakeTeam_kept (p : Wait → Option (Option Word)) (t : Team) :
    (wakeTeam p t).v = t.v ∧ (wakeTeam p t).p = t.p ∧ (wakeTeam p t).live = t.live := by
  rw [wakeTeam_eq, writeWakes_eq]
  exact ⟨rfl, rfl, rfl⟩

/-- A wake that comes with no status for any entry writes no scalar. -/
theorem wakeTeam_s (h : ∀ e ∈ t.front, wakeWrite p e = none) : (wakeTeam p t).s = t.s := by
  have hnone : t.front.filterMap (wakeWrite p) = [] := List.filterMap_eq_nil_iff.mpr h
  rw [wakeTeam_eq, hnone]
  rfl

theorem scalar_wakeTeam {d : Nat} {x : Word} (hall : ∀ e ∈ t.front, ∀ y, wakeWrite p e = some (d, y) → y = x)
    (h : Team.scalar t d = x ∨ ∃ e ∈ t.front, ∃ y, wakeWrite p e = some (d, y)) : Team.scalar (wakeTeam p t) d = x := by
  rw [wakeTeam_eq]
  refine scalar_writeWakes (fun w hw hd => ?_) (h.imp id fun ⟨e, he, y, hy⟩ => ⟨_, List.mem_filterMap.mpr ⟨e, he, hy⟩, rfl⟩)
  obtain ⟨e, he, hew⟩ := List.mem_filterMap.mp hw
  exact hall e he w.2 (by rw [hew, ← hd])

theorem wakeTeam_source (h : e ∈ (wakeTeam p t).front) : ∃ x ∈ t.front, e.spot = (wakeEntry p x).spot := by
  rw [wakeTeam_front] at h
  split at h
  · obtain ⟨y, hy, hs⟩ := rebuild_source h
    obtain ⟨x, hx, rfl⟩ := List.mem_map.mp hy
    exact ⟨x, hx, hs⟩
  · rename_i hany
    refine ⟨e, h, ?_⟩
    rw [wakeEntry_of_none]
    simpa using fun hw => hany (List.any_eq_true.mpr ⟨e, h, Option.isSome_iff_ne_none.mpr hw⟩)

/-- What an entry of a woken team still waits for is no condition that has come. -/
theorem wakeTeam_wait (h : e ∈ (wakeTeam p t).front) (hw : e.wait = some w) : p w = none ∧ ∃ x ∈ t.front, x.wait = some w := by
  obtain ⟨x, hx, hs⟩ := wakeTeam_source h
  obtain ⟨hxw, hp⟩ := wakeEntry_wait ((congrArg (·.2.2) hs).symm.trans hw)
  exact ⟨hp, x, hx, hxw⟩

/-- The lanes of an entry stay together in a wake. -/
theorem wakeTeam_covers (he : e ∈ t.front) (hmask : e.mask ≠ 0) :
    ∃ x ∈ (wakeTeam p t).front, e.mask &&& ~~~x.mask = 0 ∧ x.spot = (wakeEntry p e).spot := by
  rw [wakeTeam_front]
  split
  · have hcov := rebuild_covers (e := wakeEntry p e) (List.mem_map.mpr ⟨e, he, rfl⟩) (by rwa [wakeEntry_mask])
    rwa [wakeEntry_mask] at hcov
  · rename_i hany
    refine ⟨e, he, BitVec.and_not_self e.mask, ?_⟩
    rw [wakeEntry_of_none]
    simpa using fun hw => hany (List.any_eq_true.mpr ⟨e, he, Option.isSome_iff_ne_none.mpr hw⟩)

theorem wakeTeam_of_no_front (h : t.front = []) : (wakeTeam p t).front = [] := by
  rw [wakeTeam_front, h]
  rfl

theorem get?_map_keyed {α β : Type} (f : Nat → α → β) (t : Tab α) (k : Nat) :
    Tab.get? (t.map fun e => (e.1, f e.1 e.2)) k = (Tab.get? t k).map (f k) := by
  induction t with
  | nil => rfl
  | cons e r ih =>
    obtain ⟨j, v⟩ := e
    simp only [List.map_cons, Tab.get?, ih]
    split
    · rename_i hj
      rw [hj]
      rfl
    · rfl

theorem getD_map {α : Type} (f : α → α) (t : Tab α) (k : Nat) {d : α} (hd : f d = d) :
    Tab.getD (t.map fun e => (e.1, f e.2)) k d = f (Tab.getD t k d) := by
  rw [Tab.getD, Tab.getD, get?_map_keyed (fun _ => f)]
  cases Tab.get? t k with
  | none => exact hd.symm
  | some x => rfl

theorem team?_wakeAll (s : State) (pick : Nat → Team → Bool) (p : Wait → Option (Option Word)) (k : Nat) :
    team? (wakeAll s pick p) k = (team? s k).map fun t => if pick k t then wakeTeam p t else t := by
  rw [team?, team?, ← get?_map_keyed (fun k t => if pick k t then wakeTeam p t else t)]
  congr 1
  refine List.map_congr_left fun kt _ => ?_
  split <;> rfl

end

/-! ## What nothing waits for any more -/

/-- No entry of a team of the crew waits on a condition that the test picks. -/
def NoneWaits (ck : Nat) (W : Wait → Prop) (t : State) : Prop :=
  ∀ key u, crewOf key = ck → team? t key = some u → ∀ e ∈ u.front, ∀ w, e.wait = some w → ¬ W w

theorem noneWaits_wakeAll {s : State} {ck : Nat} {p : Wait → Option (Option Word)} {W : Wait → Prop} (hW : ∀ w, W w → p w ≠ none) :
    NoneWaits ck W (wakeAll s (fun key _ => crewOf key = ck) p) := by
  intro key u hkey hu e he w hw hWw
  rw [team?_wakeAll] at hu
  obtain ⟨x, _, rfl⟩ := Option.map_eq_some_iff.mp hu
  rw [if_pos (decide_eq_true hkey)] at he
  exact hW w hWw (wakeTeam_wait he hw).1

/-- An instruction that moves its lanes to no such wait leaves none. -/
theorem NoneWaits.conclude {c : Ctx} {r : Done} {ck : Nat} {W : Wait → Prop} (h : NoneWaits ck W r.s) (hf : r.fail = none)
    (hp : r.post = none) (hk : r.keep = false) (hm : ∀ es, r.moves = some es → ∀ e ∈ es, ∀ w, e.wait = some w → ¬ W w) :
    NoneWaits ck W (conclude c r) := by
  intro key u hkey hu e he w hw
  by_cases hc : key = c.key
  · subst hc
    have hq := (conclude_quiet (c := c) hf hp).teams c.key
    rw [team?_onTeam, if_pos rfl, hu, Option.map_some, Option.map_map, eq_comm, Option.map_eq_some_iff] at hq
    obtain ⟨x, hx, hux⟩ := hq
    rw [← front_unstinted hux, concluded_front hk] at he
    obtain ⟨y, hy, hyw⟩ := joinChecks_wait he hw
    obtain ⟨z, hz, hzw⟩ | ⟨z, hz, hzw⟩ := advanceTeam_wait hy
    · exact h c.key x hkey hx z hz w (hzw.symm.trans hyw)
    · cases hmv : r.moves with
      | none =>
        rw [hmv] at hz
        rw [List.mem_singleton.mp hz, hyw] at hzw
        cases hzw
      | some es =>
        rw [hmv] at hz
        exact hm es hmv z hz w (hzw.symm.trans hyw)
  · have hq := conclude_others (r := r) hf hp hc
    rw [hu, Option.map_some, eq_comm, Option.map_eq_some_iff] at hq
    obtain ⟨x, hx, hux⟩ := hq
    rw [← front_unstinted hux] at he
    exact h key x hkey hx e he w hw

/-! ## Parking (02 R18, R20, R27, 07 R124) -/

/-- What parking makes of a team. -/
def parkedFrom (carry : Word × Word) (t : Team) : Team :=
  parkZero { t with captured := t.captured || (t.stopReq && !t.inService) } carry

/-- The issuing team after its parking point. -/
def parkedTeam (c : Ctx) : Team := parkedFrom c.carry c.team

section
variable {c : Ctx} {h : Shape} {s : State}

theorem reg_parkedTeam (r l : Nat) :
    Team.reg (parkedTeam c) r l = if c.carry.1.getLsbD (r / 8) then Team.reg c.team r l else {} := by
  have hget := Tab.get?_filter c.team.v (fun r => c.carry.1.getLsbD (r / 8)) r
  rw [Team.reg, Tab.getD, show (parkedTeam c).v = c.team.v.filter fun e => c.carry.1.getLsbD (e.1 / 8) from rfl, hget]
  split
  · rfl
  · rfl

theorem scalar_parkedTeam (r : Nat) :
    Team.scalar (parkedTeam c) r = if c.carry.2.getLsbD (r / 4) then Team.scalar c.team r else 0 := by
  have hget := Tab.get?_filter c.team.s (fun r => c.carry.2.getLsbD (r / 4)) r
  rw [Team.scalar, Tab.getD, show (parkedTeam c).s = c.team.s.filter fun e => c.carry.2.getLsbD (e.1 / 4) from rfl, hget]
  split
  · rfl
  · rfl

theorem pred_parkedTeam {k : Nat} (hk : k < 15) :
    Team.pred (parkedTeam c) k = if c.carry.2.getLsbD (16 + k) then Team.pred c.team k else 0 := by
  have hget := Tab.get?_filter c.team.p (fun k => c.carry.2.getLsbD (16 + k)) k
  have hne : k ≠ 15 := Nat.ne_of_lt hk
  rw [Team.pred, Team.pred, if_neg hne, if_neg hne, Tab.getD,
    show (parkedTeam c).p = c.team.p.filter fun e => c.carry.2.getLsbD (16 + e.1) from rfl, hget]
  split
  · rfl
  · rfl

theorem voidTeamLatches_of_place {t : Team} {p : Place} (hp : t.place = some p) (s : State) :
    voidTeamLatches s t = setBench s p.benchNo (voidLatches (bench s p.benchNo)) := by
  rw [voidTeamLatches, hp]

theorem parkTeam_eq (hc : context h s = some c) : parkTeam s c.key c.carry =
    setBench (setTeam s c.key (parkedTeam c)) c.place.benchNo (voidLatches (bench s c.place.benchNo)) := by
  obtain ⟨ht, _, _, _, hplace⟩ := context_team hc
  rw [parkTeam, ht]
  exact voidTeamLatches_of_place hplace _

theorem team?_parkTeam (hc : context h s = some c) : team? (parkTeam s c.key c.carry) c.key = some (parkedTeam c) := by
  rw [parkTeam_eq hc, team?_setBench, team?_setTeam, if_pos rfl]

theorem parkTeam_effect (hc : context h s = some c) : Effect sansPark c s (parkTeam s c.key c.carry) where
  rest := by
    rw [parkTeam_eq hc]
    rfl
  others k hk := by rw [parkTeam_eq hc, team?_setBench, team?_setTeam, if_neg (Ne.symm hk)]
  own := ⟨parkedTeam c, team?_parkTeam hc, rfl, rfl, rfl⟩
  benches b hb := by rw [parkTeam_eq hc, bench_setBench, if_neg (Ne.symm hb), bench_setTeam]

variable {r : Done}

/-- A team that has parked and yields, with what its instruction has written to scalars since. -/
theorem parked_conclude {x : Team} {ws : Nat → Option Word} (hf : r.fail = none) (hp : r.post = none) (hy : r.yields = true)
    (hx : team? r.s c.key = some x) (hv : x.v = (parkedTeam c).v) (hpred : x.p = (parkedTeam c).p)
    (hs : ∀ d, Team.scalar x d = (ws d).getD (Team.scalar (parkedTeam c) d)) : Parked c ws (conclude c r) := by
  obtain ⟨u, hu, hux⟩ := team?_concluded hf hp hx
  have hkept : u.kept = x.kept := (unstinted_fields hux).1.trans concluded_kept
  refine ⟨u, hu, fun d l => ?_, fun d => ?_, fun k hk => ?_, (conclude_yields hf hp hy).2⟩
  · rw [reg_kept hkept, Team.reg, hv]
    exact reg_parkedTeam d l
  · rw [scalar_kept hkept, hs, scalar_parkedTeam]
  · rw [pred_kept hkept, Team.pred, hpred]
    exact pred_parkedTeam hk

@[simp] theorem parkDone_s (w : Option Wait) : (parkDone c s w).s = s := by cases w <;> rfl
@[simp] theorem parkDone_fail (w : Option Wait) : (parkDone c s w).fail = none := by cases w <;> rfl
@[simp] theorem parkDone_post (w : Option Wait) : (parkDone c s w).post = none := by cases w <;> rfl
@[simp] theorem parkDone_keep (w : Option Wait) : (parkDone c s w).keep = false := by cases w <;> rfl
@[simp] theorem parkDone_yields (w : Option Wait) : (parkDone c s w).yields = true := by cases w <;> rfl
@[simp] theorem parkDone_moves (w : Option Wait) : (parkDone c s w).moves = w.map c.waitHere := by cases w <;> rfl

theorem waitHere_wait {w v : Wait} {e : Entry} (he : e ∈ c.waitHere w) (hv : e.wait = some v) : v = w := by
  rw [List.mem_singleton.mp he] at hv
  exact (Option.some.inj hv).symm

theorem noJoin_parkDone {w : Option Wait} (hw : ∀ k, w ≠ some (.join k)) : ∀ es, (parkDone c s w).moves = some es → NoJoin es := by
  intro es hes e he k hk
  rw [parkDone_moves, Option.map_eq_some_iff] at hes
  obtain ⟨v, hv, rfl⟩ := hes
  exact hw k (hv.trans (congrArg some (waitHere_wait he hk).symm))

/-- A team that has parked, and changed nothing else but what `g` blanks, goes on or waits. -/
theorem Effect.parkDone {g : Team → Team} {u : State} {w : Option Wait} (h : Effect g c s u) (hw : ∀ k, w ≠ some (.join k)) :
    Frame g c s (conclude c (parkDone c u w)) := by
  have hconc := conclude_concludes c (Machine.parkDone c u w) (parkDone_fail w) (parkDone_post w) (noJoin_parkDone hw)
  rw [parkDone_s] at hconc
  exact h.concludes hconc

theorem parked_parkDone {u : State} {x : Team} {w : Option Wait} (hx : team? u c.key = some x) (hv : x.v = (parkedTeam c).v)
    (hpred : x.p = (parkedTeam c).p) {ws : Nat → Option Word}
    (hs : ∀ d, Team.scalar x d = (ws d).getD (Team.scalar (parkedTeam c) d)) : Parked c ws (conclude c (parkDone c u w)) :=
  parked_conclude (parkDone_fail w) (parkDone_post w) (parkDone_yields w) (by rwa [parkDone_s]) hv hpred hs

theorem waitsHere_parkDone {u : State} {x : Team} {w : Wait} (hw : ∀ k, w ≠ .join k) (hx : team? u c.key = some x) :
    WaitsHere c w (conclude c (parkDone c u (some w))) :=
  waitsHere_conclude hw rfl rfl rfl rfl hx

theorem goesOn_parkDone {u : State} {x : Team} (hx : team? u c.key = some x) : GoesOn c (conclude c (parkDone c u none)) :=
  goesOn_conclude rfl rfl rfl rfl hx

end

end Sys2Proof.Machine

/-! # Crew barriers (07 R124, R125, R127) -/

namespace Sys2Proof.Machine

open Sys2Proof.Spec

/-! ## The teams of a crew -/

theorem mem_keys_iff {α : Type} (t : Tab α) (k : Nat) : k ∈ Tab.keys t ↔ ∃ v, Tab.get? t k = some v := by
  induction t with
  | nil => simp [Tab.keys, Tab.get?]
  | cons e r ih =>
    obtain ⟨j, v⟩ := e
    rw [show Tab.keys ((j, v) :: r) = j :: Tab.keys r from rfl, List.mem_cons, ih, Tab.get?]
    split
    · rename_i h
      simp [h]
    · rename_i h
      simp [Ne.symm h]

theorem mem_crewTeams {s : State} {ck j : Nat} : j ∈ crewTeams s ck ↔ crewOf j = ck ∧ ∃ t, team? s j = some t := by
  rw [crewTeams, List.mem_filter, mem_keys_iff, decide_eq_true_iff, and_comm]
  rfl

theorem mem_crewLive {s : State} {ck j : Nat} : j ∈ crewLive s ck ↔ crewOf j = ck ∧ ∃ t, team? s j = some t ∧ t.live ≠ 0 := by
  rw [crewLive, List.mem_filter, mem_crewTeams, Option.any_eq_true]
  constructor
  · rintro ⟨⟨hj, _⟩, t, ht, hlive⟩
    exact ⟨hj, t, ht, of_decide_eq_true hlive⟩
  · rintro ⟨hj, t, ht, hlive⟩
    exact ⟨⟨hj, t, ht⟩, t, ht, decide_eq_true hlive⟩

/-- The same teams live in both states. -/
def SameLive (s t : State) : Prop := ∀ j, (team? t j).map Team.live = (team? s j).map Team.live

theorem SameLive.mem_crewLive {s t : State} (h : SameLive s t) {ck j : Nat} : j ∈ crewLive t ck ↔ j ∈ crewLive s ck := by
  have key : ∀ {a b : Option Team}, a.map Team.live = b.map Team.live → (∃ x, a = some x ∧ x.live ≠ 0) → ∃ x, b = some x ∧ x.live ≠ 0 := by
    rintro a b hab ⟨x, rfl, hx⟩
    obtain ⟨y, hy, hyx⟩ := Option.map_eq_some_iff.mp hab.symm
    exact ⟨y, hy, by rwa [hyx]⟩
  rw [Machine.mem_crewLive, Machine.mem_crewLive]
  exact and_congr_right fun _ => ⟨key (h j), key (h j).symm⟩

theorem sameLive_onTeam {s : State} {k : Nat} {F : Team → Team} (hF : ∀ x, (F x).live = x.live) : SameLive s (onTeam s k F) := by
  intro j
  rw [team?_onTeam]
  split
  · rw [Option.map_map]
    exact congrArg (fun f => Option.map f (team? s j)) (funext hF)
  · rfl

/-! ## Changes of cores alone -/

/-- The two states differ in their cores at most. -/
def CoresOnly (s t : State) : Prop := { t with cores := [] } = { s with cores := [] }

section
variable {s t u : State}

theorem CoresOnly.refl (s : State) : CoresOnly s s := rfl

theorem CoresOnly.trans (h : CoresOnly s t) (k : CoresOnly t u) : CoresOnly s u := Eq.trans k h

theorem coresOnly_setCore (s : State) (k : Nat) (x : Core) : CoresOnly s (setCore s k x) := rfl

theorem CoresOnly.team? (h : CoresOnly s t) (k : Nat) : team? t k = team? s k :=
  congrArg (fun l => Tab.get? l k) (congrArg State.teams h : _)

theorem CoresOnly.crew? (h : CoresOnly s t) (k : Nat) : crew? t k = crew? s k :=
  congrArg (fun l => Tab.get? l k) (congrArg State.crews h : _)

theorem CoresOnly.bench (h : CoresOnly s t) (b : Nat) : bench t b = bench s b :=
  congrArg (fun l : Tab Bench => Tab.getD l b {}) (congrArg State.benches h : _)

theorem CoresOnly.mem (h : CoresOnly s t) : t.mem = s.mem := (congrArg State.mem h : _)

theorem CoresOnly.regions (h : CoresOnly s t) : t.regions = s.regions := (congrArg State.regions h : _)

theorem CoresOnly.comps (h : CoresOnly s t) : t.comps = s.comps := (congrArg State.comps h : _)

theorem coresOnly_foldl {α : Type} {f : State → α → State} (hf : ∀ s x, CoresOnly s (f s x)) (l : List α) (s : State) :
    CoresOnly s (l.foldl f s) := by
  induction l generalizing s with
  | nil => exact .refl s
  | cons x r ih => exact (hf s x).trans (ih (f s x))

theorem CoresOnly.noneWaits {ck : Nat} {W : Wait → Prop} (h : CoresOnly s t) (hs : NoneWaits ck W s) : NoneWaits ck W t :=
  fun key u hkey hu => hs key u hkey ((h.team? key).symm.trans hu)

end

/-! ## The check of a barrier (07 R125) -/

/-- What a completed phase wakes: the waits on it, without a status. -/
def barWake (b ph : Nat) (w : Wait) : Option (Option Word) := if w = .crewBar b ph then some none else none

/-- The crew with one of its barriers changed. -/
def withBar (w : Crew) (b : Nat) (x : CrewBar) : Crew := { w with bars := Tab.put w.bars b x }

section
variable {s : State} {ck b : Nat} {w : Crew}

/-- The state in which a phase of the barrier has completed. -/
def barCompleted (s : State) (ck b : Nat) (w : Crew) : State :=
  wakeAll (setCrew s ck (withBar w b ⟨((Tab.getD w.bars b {}).phase + 1) % 2 ^ 16, 0⟩)) (fun key _ => crewOf key = ck)
    (barWake b (Tab.getD w.bars b {}).phase)

theorem crewBarCheck_of_all (hw : crew? s ck = some w) (ha : (Tab.getD w.bars b {}).arrived ≠ 0)
    (hall : ((crewLive s ck).all fun k => (Tab.getD w.bars b {}).arrived.testBit (k % 16)) = true) :
    CoresOnly (barCompleted s ck b w) (crewBarCheck s ck b) := by
  unfold crewBarCheck
  rw [hw]
  dsimp only
  rw [if_pos (Bool.and_eq_true_iff.mpr ⟨decide_eq_true ha, hall⟩)]
  split
  · exact coresOnly_setCore ..
  · exact .refl _

theorem crewBarCheck_of_not_all (hw : crew? s ck = some w)
    (hall : ((crewLive s ck).all fun k => (Tab.getD w.bars b {}).arrived.testBit (k % 16)) = false) : crewBarCheck s ck b = s := by
  unfold crewBarCheck
  rw [hw]
  dsimp only
  rw [if_neg]
  rw [hall, Bool.and_false]
  exact Bool.false_ne_true

end

/-! ## An arrival (07 R125) -/

section
variable {c : Ctx} {k : Nat} {s t : State}

theorem crewBar_of_crews (h : t.crews = s.crews) (j : Nat) : crewBar t c j = crewBar s c j := by
  unfold crewBar crew?
  rw [h]

theorem crewBar_of_crew {w : Crew} (hw : crew? s (crewOf c.key) = some w) (j : Nat) : crewBar s c j = Tab.getD w.bars j {} := by
  rw [crewBar, hw]
  rfl

theorem barPhase_eq (s : State) (c : Ctx) (k : Nat) : barPhase s (crewOf c.key) k = (crewBar s c k).phase := by
  unfold barPhase crewBar
  cases crew? s (crewOf c.key) <;> rfl

theorem all_congr_mem {l m : List Nat} (h : ∀ j, j ∈ l ↔ j ∈ m) (f : Nat → Bool) : l.all f = m.all f := by
  rw [Bool.eq_iff_iff, List.all_eq_true, List.all_eq_true]
  exact forall_congr' fun j => by rw [h]

theorem allHere_congr (hcrews : t.crews = s.crews) (hlive : SameLive s t) (k : Nat) : allHere t c k = allHere s c k := by
  unfold allHere withMe
  rw [crewBar_of_crews hcrews]
  exact all_congr_mem (fun _ => hlive.mem_crewLive) _

theorem withMe_ne_zero (s : State) (c : Ctx) (k : Nat) : withMe s c k ≠ 0 := by
  intro h
  have hbit : (withMe s c k).testBit (c.key % 16) = true := by
    rw [withMe, show ∀ a b : Nat, Nat.lor a b = a ||| b from fun _ _ => rfl, Nat.testBit_or, Nat.testBit_two_pow_self, Bool.or_true]
  rw [h, Nat.zero_testBit] at hbit
  cases hbit

/-- The state in which an arrival is entered, before the barrier is checked. -/
def arrivalState (s : State) (c : Ctx) (k : Nat) (w : Crew) : State :=
  setCrew (onTeam s c.key fun t => { t with arrived := Tab.put t.arrived k (crewBar s c k).phase }) (crewOf c.key)
    (withBar w k ⟨(crewBar s c k).phase, withMe s c k⟩)

theorem arriveBar_eq {w : Crew} (hw : crew? s (crewOf c.key) = some w) :
    arriveBar s c.key k = crewBarCheck (arrivalState s c k w) (crewOf c.key) k := by
  unfold arriveBar
  dsimp only
  rw [hw, arrivalState, withMe, crewBar_of_crew hw]
  rfl

variable {w : Crew} {x : Team} (hw : crew? s (crewOf c.key) = some w) (hx : team? s c.key = some x)
include hw

omit hw in
theorem crew?_arrivalState :
    crew? (arrivalState s c k w) (crewOf c.key) = some (withBar w k ⟨(crewBar s c k).phase, withMe s c k⟩) := by
  rw [arrivalState, crew?_setCrew, if_pos rfl]

omit hw in
theorem getD_withBar (w : Crew) (b j : Nat) (x : CrewBar) :
    Tab.getD (withBar w b x).bars j {} = if b = j then x else Tab.getD w.bars j {} := Tab.getD_put ..

omit hw in
theorem allHere_arrivalState : ((crewLive (arrivalState s c k w) (crewOf c.key)).all fun j =>
    (Tab.getD (withBar w k ⟨(crewBar s c k).phase, withMe s c k⟩).bars k {}).arrived.testBit (j % 16)) = allHere s c k := by
  rw [getD_withBar, if_pos rfl]
  have hlive : SameLive s (arrivalState s c k w) := sameLive_onTeam fun _ => rfl
  exact all_congr_mem (fun _ => hlive.mem_crewLive) _

omit hw in
theorem arrivalState_rest : (arrivalState s c k w).mem = s.mem ∧ (arrivalState s c k w).regions = s.regions ∧
    (arrivalState s c k w).comps = s.comps ∧ ∀ b, bench (arrivalState s c k w) b = bench s b :=
  ⟨onTeam_mem .., onTeam_regions .., onTeam_comps .., fun _ => bench_onTeam ..⟩

omit hw in
theorem bar_arrivalCrew :
    Tab.getD (withBar w k ⟨(crewBar s c k).phase, withMe s c k⟩).bars k {} = ⟨(crewBar s c k).phase, withMe s c k⟩ := by
  rw [getD_withBar, if_pos rfl]

/-- The state after the arrival of the last live team, but for the cores: the phase has completed, and what waits on it is woken. -/
def arrivalCompleted (s : State) (c : Ctx) (k : Nat) (w : Crew) : State :=
  barCompleted (arrivalState s c k w) (crewOf c.key) k (withBar w k ⟨(crewBar s c k).phase, withMe s c k⟩)

theorem arriveBar_of_all (hall : allHere s c k = true) : CoresOnly (arrivalCompleted s c k w) (arriveBar s c.key k) := by
  rw [arriveBar_eq hw]
  exact crewBarCheck_of_all crew?_arrivalState (by rw [bar_arrivalCrew]; exact withMe_ne_zero s c k)
    (allHere_arrivalState.trans hall)

theorem arriveBar_of_not_all (hall : allHere s c k = false) : arriveBar s c.key k = arrivalState s c k w :=
  (arriveBar_eq hw).trans (crewBarCheck_of_not_all (crew?_arrivalState) (allHere_arrivalState.trans hall))

/-- An arrival touches no memory, region, compartment or bench. -/
theorem arriveBar_rest : (arriveBar s c.key k).mem = s.mem ∧ (arriveBar s c.key k).regions = s.regions ∧
    (arriveBar s c.key k).comps = s.comps ∧ ∀ b, bench (arriveBar s c.key k) b = bench s b := by
  have hrest := arrivalState_rest (s := s) (c := c) (k := k) (w := w)
  cases hall : allHere s c k with
  | true =>
    have hcores := arriveBar_of_all hw hall
    obtain ⟨hmem, hregions, hcomps, hbench⟩ := hrest
    exact ⟨hcores.mem.trans hmem, hcores.regions.trans hregions, hcores.comps.trans hcomps, fun b => (hcores.bench b).trans (hbench b)⟩
  | false =>
    rw [arriveBar_of_not_all hw hall]
    exact hrest

/-- A team's arrival: the barrier has counted it, and a phase that it completes has no waiter left. -/
theorem barArrived_arriveBar : BarArrived s c k (arriveBar s c.key k) := by
  obtain ⟨hmem, hregions, hcomps, _⟩ := arriveBar_rest (k := k) hw
  have hother : ∀ j, j ≠ k → Tab.getD w.bars j {} = crewBar s c j := fun j _ => (crewBar_of_crew hw j).symm
  cases hall : allHere s c k with
  | true =>
    have hcores := arriveBar_of_all hw hall
    have hcrew : crew? (arriveBar s c.key k) (crewOf c.key) =
        some (withBar (withBar w k ⟨(crewBar s c k).phase, withMe s c k⟩) k ⟨((crewBar s c k).phase + 1) % 2 ^ 16, 0⟩) := by
      rw [hcores.crew?, arrivalCompleted, barCompleted, bar_arrivalCrew]
      exact (crew?_setCrew ..).trans (if_pos rfl)
    have hnone : NoneWaits (crewOf c.key) (· = .crewBar k (crewBar s c k).phase) (arriveBar s c.key k) := by
      refine hcores.noneWaits (noneWaits_wakeAll fun v hv => ?_)
      rw [bar_arrivalCrew, barWake, if_pos hv]
      simp
    refine ⟨?_, fun j hj => ?_, fun _ key u hkey hu e he hwait => hnone key u hkey hu e he _ hwait rfl, hmem, hregions, hcomps⟩
    · rw [crewBar_of_crew hcrew, getD_withBar, if_pos rfl, if_pos hall]
    · rw [crewBar_of_crew hcrew, getD_withBar, if_neg (Ne.symm hj), getD_withBar, if_neg (Ne.symm hj), hother j hj]
  | false =>
    have heq := arriveBar_of_not_all hw hall
    have hcrew := crew?_arrivalState (s := s) (c := c) (k := k) (w := w)
    rw [← heq] at hcrew
    refine ⟨?_, fun j hj => ?_, fun h => absurd (hall.symm.trans h) Bool.false_ne_true, hmem,
      hregions, hcomps⟩
    · rw [crewBar_of_crew hcrew, getD_withBar, if_pos rfl, if_neg (by rw [hall]; exact Bool.false_ne_true)]
    · rw [crewBar_of_crew hcrew, getD_withBar, if_neg (Ne.symm hj), hother j hj]

omit hw in
theorem wakeWrite_barWake (ph : Nat) (e : Entry) : wakeWrite (barWake k ph) e = none := by
  rw [Option.eq_none_iff_forall_ne_some]
  rintro ⟨d, y⟩ h
  obtain ⟨v, _, hp, _⟩ := wakeWrite_eq_some h
  unfold barWake at hp
  split at hp <;> cases hp

include hx in
/-- An arrival writes no register of its team. -/
theorem team?_arriveBar : ∃ y, team? (arriveBar s c.key k) c.key = some y ∧ y.v = x.v ∧ y.s = x.s ∧ y.p = x.p := by
  have harrived : team? (arrivalState s c k w) c.key = some { x with arrived := Tab.put x.arrived k (crewBar s c k).phase } := by
    rw [arrivalState, team?_setCrew, team?_onTeam, if_pos rfl, hx]
    rfl
  cases hall : allHere s c k with
  | true =>
    have hteam : team? (arriveBar s c.key k) c.key =
        some (wakeTeam (barWake k (crewBar s c k).phase) { x with arrived := Tab.put x.arrived k (crewBar s c k).phase }) := by
      rw [(arriveBar_of_all hw hall).team?, arrivalCompleted, barCompleted, bar_arrivalCrew, team?_wakeAll, team?_setCrew, harrived,
        Option.map_some, if_pos (decide_eq_true rfl)]
    obtain ⟨hv, hp, _⟩ := wakeTeam_kept (barWake k (crewBar s c k).phase) { x with arrived := Tab.put x.arrived k (crewBar s c k).phase }
    exact ⟨_, hteam, hv, wakeTeam_s fun e _ => wakeWrite_barWake _ e, hp⟩
  | false =>
    rw [arriveBar_of_not_all hw hall]
    exact ⟨_, harrived, rfl, rfl, rfl⟩

end

/-! ## Arrivals and waits once their instruction has concluded -/

section
variable {c : Ctx} {k : Nat} {s : State} {r : Done}

theorem barArrived_conclude (h : BarArrived s c k r.s) (hf : r.fail = none) (hp : r.post = none) (hk : r.keep = false)
    (hm : allHere s c k = true → r.moves = none) : BarArrived s c k (conclude c r) := by
  obtain ⟨hbar, hothers, hwaits, hmem, hregions, hcomps⟩ := h
  obtain ⟨hmem', hcrews, hregions', hcomps', _⟩ := conclude_device (c := c) hf hp
  refine ⟨(crewBar_of_crews hcrews k).trans hbar, fun j hj => (crewBar_of_crews hcrews j).trans (hothers j hj),
    fun hall key u hkey hu e he hwait => ?_, hmem'.trans hmem, hregions'.trans hregions, hcomps'.trans hcomps⟩
  · have hnone : NoneWaits (crewOf c.key) (· = .crewBar k (crewBar s c k).phase) (conclude c r) := by
      refine NoneWaits.conclude (fun key u hkey hu e he v hv hveq => hwaits hall key u hkey hu e he (hveq ▸ hv)) hf hp hk ?_
      intro es hes
      rw [hm hall] at hes
      cases hes
    exact hnone key u hkey hu e he _ hwait rfl

theorem barArrived_congr {s' t : State} (h : BarArrived s' c k t) (hkept : s'.kept = s.kept) (hlive : SameLive s s') :
    BarArrived s c k t := by
  have hcrews : s'.crews = s.crews := (congrArg State.crews hkept : s'.kept.crews = _)
  obtain ⟨hbar, hothers, hwaits, hmem, hregions, hcomps⟩ := h
  have hme : withMe s' c k = withMe s c k := by rw [withMe, withMe, crewBar_of_crews hcrews]
  rw [allHere_congr hcrews hlive, crewBar_of_crews hcrews, hme] at hbar
  rw [allHere_congr hcrews hlive, crewBar_of_crews hcrews] at hwaits
  exact ⟨hbar, fun j hj => (hothers j hj).trans (crewBar_of_crews hcrews j), hwaits,
    hmem.trans (congrArg State.mem hkept : s'.kept.mem = _), hregions.trans (congrArg State.regions hkept : s'.kept.regions = _),
    hcomps.trans (congrArg State.comps hkept : s'.kept.comps = _)⟩

theorem releaseAt_crew (s : State) (k : Nat) : releaseAt s k 2 = s := rfl

theorem sameLive_parkTeam {h : Shape} (hc : context h s = some c) : SameLive s (parkTeam s c.key c.carry) := by
  intro j
  rw [parkTeam_eq hc, team?_setBench, team?_setTeam]
  split
  · rename_i hj
    rw [← hj, (context_team hc).1]
    rfl
  · rfl

theorem crew?_parkTeam {h : Shape} (hc : context h s = some c) (j : Nat) : crew? (parkTeam s c.key c.carry) j = crew? s j := by
  rw [parkTeam_eq hc]
  rfl

theorem noStatus_parked (d : Nat) : Team.scalar (parkedTeam c) d = (noStatus d).getD (Team.scalar (parkedTeam c) d) := rfl

/-- The phase has moved on exactly when the arrival has completed it. -/
theorem phase_eq_iff_of_barArrived {t : State} (h : BarArrived s c k t) :
    (crewBar t c k).phase = (crewBar s c k).phase ↔ allHere s c k = false := by
  rw [h.1]
  cases hall : allHere s c k with
  | true =>
    have hnext : ((crewBar s c k).phase + 1) % 2 ^ 16 ≠ (crewBar s c k).phase := by omega
    simpa using hnext
  | false => simp

end

/-- Settles O24: the arrival is entered and the barrier checked, and the end of the instruction, which moves no lane to a wait, leaves
both as they are. -/
theorem crewBarrierArrival : Obligations.CrewBarrierArrival := by
  unfold Obligations.CrewBarrierArrival
  intro k x s c w h holder hw
  have ht := (context_team h.1).1
  obtain ⟨y, hy, hv, hs, hp⟩ := team?_arriveBar (k := k.toNat) hw ht
  have hconc := conclude_concludes c { s := arriveBar s c.key k.toNat } rfl rfl (fun _ he => by cases he)
  obtain ⟨u, hu, hkept, _⟩ := hconc.own y hy
  refine ⟨_, u, exec_of_gate_go (own := olderGate) rfl h holder, barArrived_conclude (barArrived_arriveBar hw) rfl rfl rfl (fun _ => rfl),
    hu, ?_, ?_, ?_, .concludes (arriveBar_rest hw).2.2.2 hconc, goesOn_conclude rfl rfl rfl rfl hy⟩
  · exact (congrArg Team.v hkept : u.kept.v = _).trans hv
  · exact (congrArg Team.s hkept : u.kept.s = _).trans hs
  · exact (congrArg Team.p hkept : u.kept.p = _).trans hp

/-- What a BARAW waits for once it has arrived: its phase, unless the arrival has completed it. -/
def arrivalWait (s : State) (c : Ctx) (k : Nat) (u : State) : Option Wait :=
  if (crewBar u c k).phase = (crewBar s c k).phase then some (.crewBar k (crewBar s c k).phase) else none

theorem exec_baraw_of_ready {k : BitVec 4} {x : SF} {s : State} {c : Ctx} (h : Ready (.baraw k x) s c) (holder : olderGate c s = .go) :
    exec (.baraw k x) s = .next (conclude c (parkDone c (arriveBar (parkTeam s c.key c.carry) c.key k.toNat)
      (arrivalWait s c k.toNat (arriveBar (parkTeam s c.key c.carry) c.key k.toNat)))) := by
  refine (exec_of_gate_go (own := olderGate) rfl h holder).trans ?_
  rw [arrivalWait]
  simp only [barPhase_eq, releaseAt_crew]

/-- Settles O25: a parked team waits for the phase that stands, which a BARAW's own arrival may have completed. -/
theorem crewBarrierWaits : Obligations.CrewBarrierWaits := by
  unfold Obligations.CrewBarrierWaits
  refine ⟨fun k x s c h => ?barw, fun k x s c w h holder hw => ?baraw⟩
  case barw =>
    have hx := team?_parkTeam h.1
    have hne : ∀ j, Wait.crewBar k.toNat (crewBar s c k.toNat).phase ≠ .join j := fun j hj => by cases hj
    refine ⟨_, exec_of_gate_go (own := fun _ _ => .go) rfl h rfl, ?_⟩
    rw [barPhase_eq]
    exact ⟨parked_parkDone hx rfl rfl noStatus_parked, (parkTeam_effect h.1).parkDone fun j hj => hne j (Option.some.inj hj),
      waitsHere_parkDone hne hx⟩
  case baraw =>
    have hpark := (parkTeam_effect h.1).rest
    have hw' : crew? (parkTeam s c.key c.carry) (crewOf c.key) = some w := (crew?_parkTeam h.1 _).trans hw
    obtain ⟨y, hy, hv, hs, hp⟩ := team?_arriveBar (k := k.toNat) hw' (team?_parkTeam h.1)
    have harrived := barArrived_congr (barArrived_arriveBar (k := k.toNat) hw') hpark (sameLive_parkTeam h.1)
    refine ⟨_, exec_baraw_of_ready h holder, ?_, parked_parkDone hy hv hp fun d => ?_, ?_⟩
    · refine barArrived_conclude (by rwa [parkDone_s]) (parkDone_fail _) (parkDone_post _) (parkDone_keep _) fun hall => ?_
      rw [parkDone_moves, arrivalWait, if_neg fun hphase => ?_]
      · rfl
      · rw [(phase_eq_iff_of_barArrived harrived), hall] at hphase
        cases hphase
    · rw [Team.scalar, hs]
      exact noStatus_parked d
    · cases hall : allHere s c k.toNat with
      | true =>
        rw [if_pos rfl, arrivalWait, if_neg fun hphase => Bool.false_ne_true (((phase_eq_iff_of_barArrived harrived).mp hphase).symm.trans hall)]
        exact goesOn_parkDone hy
      | false =>
        rw [if_neg Bool.false_ne_true, arrivalWait, if_pos ((phase_eq_iff_of_barArrived harrived).mpr hall)]
        exact waitsHere_parkDone (fun j hj => by cases hj) hy

end Sys2Proof.Machine

/-! # Byte-count barriers (07 R124, R126, R127) -/

namespace Sys2Proof.Machine

open Sys2Proof.Spec

/-- What a completed phase wakes: the waits on it, with FAULT as their status (07 R126). -/
def byteWake (k ph : Nat) (fault : Bool) (w : Wait) : Option (Option Word) :=
  match w with
  | .byteBar j q _ | .promw j q _ _ => if j = k && q = ph then some (some (if fault then 1 else 0)) else none
  | _ => none

/-- A byte-count barrier k of the crew ck now is `b`, and its others are as they were. A team of the crew may have been woken from a
phase of it, and no other team has changed; a phase that has completed has no waiter left. -/
structure ByteChange (ck k : Nat) (b : ByteBar) (s t : State) : Prop where
  this : byteBar t ck k = b
  others : ∀ j, j ≠ k → byteBar t ck j = byteBar s ck j
  teams : ∀ j x, team? s j = some x → ∃ y, team? t j = some y ∧ (y = x ∨ ∃ ph fault, y = wakeTeam (byteWake k ph fault) x)
  benches : ∀ j, bench t j = bench s j
  waits : b.phase ≠ (byteBar s ck k).phase → NoneWaits ck (fun w => ∃ d, w = .byteBar k (byteBar s ck k).phase d) t

section
variable {s t : State} {ck k : Nat} {b : ByteBar} {w : Crew}

theorem byteBar_of_crew {j : Nat} (hw : crew? s ck = some w) : byteBar s ck j = Tab.getD w.bytes j {} := by
  rw [byteBar, hw]
  rfl

theorem byteBar_setByteBar (hw : crew? s ck = some w) (j : Nat) :
    byteBar (setByteBar s ck k b) ck j = if k = j then b else byteBar s ck j := by
  have hcrew : crew? (setByteBar s ck k b) ck = some { w with bytes := Tab.put w.bytes k b } := by
    rw [setByteBar, crew?_onCrew, if_pos rfl, hw]
    rfl
  rw [byteBar_of_crew hcrew, byteBar_of_crew hw]
  exact Tab.getD_put ..

theorem ByteChange.refl (h : byteBar s ck k = b) : ByteChange ck k b s s where
  this := h
  others _ _ := rfl
  teams _ x hx := ⟨x, hx, .inl rfl⟩
  benches _ := rfl
  waits hne := absurd (congrArg ByteBar.phase h).symm hne

theorem byteChange_set (hw : crew? s ck = some w) (hph : b.phase = (byteBar s ck k).phase) :
    ByteChange ck k b s (setByteBar s ck k b) where
  this := by rw [byteBar_setByteBar hw, if_pos rfl]
  others j hj := by rw [byteBar_setByteBar hw, if_neg (Ne.symm hj)]
  teams _ x hx := ⟨x, (team?_onCrew ..).trans hx, .inl rfl⟩
  benches _ := bench_onCrew ..
  waits hne := absurd hph hne

/-! ## The completion of a phase (07 R126) -/

theorem coresOnly_acquireDest (s : State) (k c : Nat) (r : Nat × Nat) : CoresOnly s (acquireDest s k c r) :=
  coresOnly_foldl (fun s _ => coresOnly_foldl (fun s _ => coresOnly_setCore s _ _) _ s) _ s

/-- The waiters have acquired what arrived; then the barrier is made ready for its next phase, and they are woken. -/
theorem completeByte_eq (s : State) (ck k : Nat) (fault : Bool) : ∃ u, CoresOnly s u ∧ completeByte s ck k fault =
    wakeAll (setByteBar u ck k (barDone (byteBar s ck k) fault)) (fun key _ => crewOf key = ck)
      (byteWake k (byteBar s ck k).phase fault) :=
  ⟨_, coresOnly_foldl (fun s _ => coresOnly_foldl (fun s _ => coresOnly_acquireDest s ..) _ s) _ s, rfl⟩

theorem byteWake_ne_none {ph d : Nat} {fault : Bool} : byteWake k ph fault (.byteBar k ph d) ≠ none := by
  simp [byteWake]

theorem byteChange_complete (hw : crew? s ck = some w) (hph : b.phase = (byteBar s ck k).phase) (fault : Bool) :
    ByteChange ck k (barDone b fault) s (completeByte (setByteBar s ck k b) ck k fault) := by
  obtain ⟨u, hcores, heq⟩ := completeByte_eq (setByteBar s ck k b) ck k fault
  rw [byteBar_setByteBar hw, if_pos rfl] at heq
  have hcrew : crew? u ck = some { w with bytes := Tab.put w.bytes k b } := by
    rw [hcores.crew?, setByteBar, crew?_onCrew, if_pos rfl, hw]
    rfl
  have hbar : ∀ j, byteBar (completeByte (setByteBar s ck k b) ck k fault) ck j = if k = j then barDone b fault else byteBar s ck j := by
    intro j
    rw [heq]
    refine (byteBar_setByteBar hcrew j).trans ?_
    split
    · rfl
    · rename_i hj
      rw [byteBar_of_crew hcrew, byteBar_of_crew hw, Tab.getD_put, if_neg hj]
  rw [heq] at hbar ⊢
  refine ⟨by rw [hbar, if_pos rfl], fun j hj => by rw [hbar, if_neg (Ne.symm hj)], fun j x hx => ?_, fun j => ?_, fun _ => ?_⟩
  · have hteam : team? (setByteBar u ck k (barDone b fault)) j = some x := by
      rw [setByteBar, team?_onCrew, hcores.team?, setByteBar, team?_onCrew, hx]
    rw [team?_wakeAll, hteam, Option.map_some]
    split
    · exact ⟨_, rfl, .inr ⟨_, _, rfl⟩⟩
    · exact ⟨x, rfl, .inl rfl⟩
  · exact (bench_onCrew ..).trans ((hcores.bench j).trans (bench_onCrew ..))
  · refine noneWaits_wakeAll ?_
    rintro _ ⟨d, rfl⟩
    rw [← hph]
    exact byteWake_ne_none

/-- A barrier that has been changed within its phase is tested at once (07 R126). -/
theorem byteChange_test (hw : crew? s ck = some w) (hph : b.phase = (byteBar s ck k).phase) :
    ByteChange ck k (barTest b) s (testByte (setByteBar s ck k b) ck k) := by
  have hthis : byteBar (setByteBar s ck k b) ck k = b := by rw [byteBar_setByteBar hw, if_pos rfl]
  unfold testByte barTest
  rw [hthis]
  dsimp only
  split
  · exact byteChange_complete hw hph false
  · split
    · exact byteChange_complete hw hph true
    · exact byteChange_set hw hph

/-- BCBX adds to EXPECT, where an overflow completes the phase with FAULT (07 R127). -/
theorem byteChange_more (hw : crew? s ck = some w) (n : Nat) : ByteChange ck k (barMore (byteBar s ck k) n) s
    (if (byteBar s ck k).armed then
      if 2 ^ 32 ≤ (byteBar s ck k).expect + n then
        completeByte (setByteBar s ck k { byteBar s ck k with expect := 2 ^ 32 - 1 }) ck k true
      else testByte (setByteBar s ck k { byteBar s ck k with expect := (byteBar s ck k).expect + n }) ck k
    else s) := by
  unfold barMore
  by_cases harmed : (byteBar s ck k).armed = true
  · rw [if_neg (by simp [harmed]), if_pos harmed]
    split
    · exact byteChange_complete (b := { byteBar s ck k with expect := 2 ^ 32 - 1 }) hw rfl true
    · exact byteChange_test (b := { byteBar s ck k with expect := (byteBar s ck k).expect + n }) hw rfl
  · rw [if_pos (by simp [harmed]), if_neg harmed]
    exact .refl rfl

end

/-! ## A changed barrier once its instruction has concluded -/

section
variable {c : Ctx} {k : Nat} {s u v : State} {b : ByteBar}

theorem bar_eq (s : State) (c : Ctx) (k : Nat) : bar s c k = byteBar s (crewOf c.key) k := rfl

theorem byteBar_of_crews (h : v.crews = u.crews) (ck j : Nat) : byteBar v ck j = byteBar u ck j := by
  unfold byteBar crew?
  rw [h]

theorem ByteChange.barIs (h : ByteChange (crewOf c.key) k b u v) (hu : u.crews = s.crews) : BarIs s c k b (conclude c { s := v }) := by
  have hbar : ∀ j, bar (conclude c { s := v }) c j = byteBar v (crewOf c.key) j := fun j =>
    byteBar_of_crews (conclude_device (c := c) (r := { s := v }) rfl rfl).2.1 _ j
  have hold : ∀ j, byteBar u (crewOf c.key) j = bar s c j := byteBar_of_crews hu _
  refine ⟨(hbar k).trans h.this, fun j hj => (hbar j).trans ((h.others j hj).trans (hold j)), fun hne key x hkey hx e he d hd => ?_⟩
  rw [← hold] at hne hd
  exact NoneWaits.conclude (h.waits hne) rfl rfl rfl (fun _ he => by cases he) key x hkey hx e he _ hd ⟨d, rfl⟩

theorem ByteChange.latchesKept (h : ByteChange (crewOf c.key) k b u v) (hu : ∀ j, bench u j = bench s j) :
    LatchesKept c s (conclude c { s := v }) :=
  conclude_latchesKept rfl rfl fun j => (h.benches j).trans (hu j)

theorem wakeWrite_byteWake {e : Entry} (h : ∀ w, e.wait = some w → (∀ ph d, w ≠ .byteBar k ph d) ∧ ∀ ph dl d, w ≠ .promw k ph dl d)
    (ph : Nat) (fault : Bool) : wakeWrite (byteWake k ph fault) e = none := by
  rw [Option.eq_none_iff_forall_ne_some]
  rintro ⟨d, x⟩ hx
  obtain ⟨w, hw, hwake, _⟩ := wakeWrite_eq_some hx
  obtain ⟨hbyte, hpromw⟩ := h w hw
  unfold byteWake at hwake
  split at hwake
  · split at hwake
    · rename_i hj
      exact hbyte _ _ (by rw [of_decide_eq_true (Bool.and_eq_true_iff.mp hj).1])
    · cases hwake
  · split at hwake
    · rename_i hj
      exact hpromw _ _ _ (by rw [of_decide_eq_true (Bool.and_eq_true_iff.mp hj).1])
    · cases hwake
  · cases hwake

/-- A completed phase writes no register of a team that does not wait on it. -/
theorem ByteChange.own {x : Team} (h : ByteChange (crewOf c.key) k b u v) (hx : team? u c.key = some x) (hfront : x.front = c.team.front)
    (hnone : noWaiter c k) : ∃ y, team? (conclude c { s := v }) c.key = some y ∧ y.v = x.v ∧ y.s = x.s ∧ y.p = x.p := by
  obtain ⟨y, hy, hyx⟩ := h.teams c.key x hx
  have hregs : y.v = x.v ∧ y.s = x.s ∧ y.p = x.p := by
    obtain rfl | ⟨ph, fault, rfl⟩ := hyx
    · exact ⟨rfl, rfl, rfl⟩
    · obtain ⟨hv, hp, _⟩ := wakeTeam_kept (byteWake k ph fault) x
      refine ⟨hv, wakeTeam_s fun e he => wakeWrite_byteWake (fun w hw => hnone w (.inl ⟨e, hfront ▸ he, hw⟩)) ph fault, hp⟩
  obtain ⟨hv, hs, hp⟩ := hregs
  obtain ⟨z, hz, hzy, _⟩ := (conclude_concludes c { s := v } rfl rfl (fun _ he => by cases he)).own y hy
  exact ⟨z, hz, (congrArg Team.v hzy : z.kept.v = _).trans hv, (congrArg Team.s hzy : z.kept.s = _).trans hs,
    (congrArg Team.p hzy : z.kept.p = _).trans hp⟩

end

/-- Settles O26: each of the three sets the barrier within its phase and tests it, and the end of the instruction, which moves no lane
to a wait, leaves it as it is. -/
theorem byteBarrierCounts : Obligations.ByteBarrierCounts := by
  unfold Obligations.ByteBarrierCounts
  refine ⟨fun k x s c h harmed => ?refused, fun k x s c w h hw harmed => ?bcbi, fun k x s c w h hw => ?bcbx,
    fun k x s c w h holder hw => ?bcba⟩
  case refused =>
    refine ⟨_, (exec_of_gate_go (own := fun _ _ => .go) rfl h rfl).trans ?_, scalar_result (context_team h.1).1⟩
    dsimp only
    rw [← bar_eq, if_pos harmed]
    rfl
  case bcbi =>
    obtain ⟨heffect, ⟨y, hy, hscalar⟩, hbench⟩ := writeScalars_result (xs := [0]) (context_team h.1).1
    obtain ⟨hrest, _, ⟨z, hz, _, _, hfront⟩, _⟩ := heffect
    obtain rfl : y = z := Option.some.inj (hy.symm.trans hz)
    have hcrews : (writeScalars c [0] s).crews = s.crews := (congrArg State.crews hrest : (writeScalars c [0] s).kept.crews = _)
    have hbar : ∀ j, byteBar (writeScalars c [0] s) (crewOf c.key) j = bar s c j := byteBar_of_crews hcrews _
    have hchange := byteChange_test (s := writeScalars c [0] s) (ck := crewOf c.key) (k := k.toNat)
      (b := { bar s c k.toNat with expect := (c.s 0).toNat, armed := true }) (w := w)
      ((congrArg (fun l => Tab.get? l (crewOf c.key)) hcrews : _).trans hw) (by rw [hbar])
    refine ⟨_, (exec_of_gate_go (own := fun _ _ => .go) rfl h rfl).trans ?_, hchange.barIs hcrews, hchange.latchesKept hbench,
      fun hnone => ?_⟩
    · dsimp only
      rw [← bar_eq, if_neg (by rw [harmed]; exact Bool.false_ne_true)]
      rfl
    · obtain ⟨u, hu, _, hs, _⟩ := hchange.own hy hfront hnone
      exact ⟨u, hu, fun r => by rw [Team.scalar, hs]; exact hscalar r⟩
  case bcbx =>
    have hchange := byteChange_more (k := k.toNat) hw (c.s 0).toNat
    exact ⟨_, exec_of_gate_go (own := fun _ _ => .go) rfl h rfl, hchange.barIs rfl, hchange.latchesKept fun _ => rfl,
      hchange.own (context_team h.1).1 rfl⟩
  case bcba =>
    have hchange := byteChange_test (k := k.toNat)
      (b := { bar s c k.toNat with arrived := min (2 ^ 32 - 1) ((bar s c k.toNat).arrived + (c.s 0).toNat) }) hw rfl
    exact ⟨_, exec_of_gate_go (own := olderGate) rfl h holder, hchange.barIs rfl, hchange.latchesKept fun _ => rfl,
      hchange.own (context_team h.1).1 rfl⟩

/-! ## Waits for a phase (07 R127) -/

section
variable {c : Ctx} {s : State} {h : Shape}

theorem sansPark_of_sansS (x y : Team) (hxy : x.sansS = y.sansS) : sansPark x = sansPark y :=
  (congrArg sansPark hxy : sansPark x.sansS = _)

/-- A status written to a team that has parked. -/
theorem parked_status (hc : context h s = some c) (n : Word) : ∃ y, team? (writeScalar c n (parkTeam s c.key c.carry)) c.key = some y ∧
    y.v = (parkedTeam c).v ∧ y.p = (parkedTeam c).p ∧
    ∀ d, Team.scalar y d = (status c n d).getD (Team.scalar (parkedTeam c) d) := by
  have hresult := writeScalars_result (c := { c with team := parkedTeam c }) (xs := [n]) (team?_parkTeam hc)
  obtain ⟨⟨_, _, ⟨z, hz, hkept, _⟩, _⟩, ⟨y, hy, hscalar⟩, _⟩ := hresult
  obtain rfl : y = z := Option.some.inj (hy.symm.trans hz)
  refine ⟨y, hy, (congrArg Team.v hkept : y.kept.sansS.v = _), (congrArg Team.p hkept : y.kept.sansS.p = _), fun d => ?_⟩
  rw [hscalar d, status]
  cases c.shape.sd with
  | none => rfl
  | some e =>
    obtain ⟨r, n'⟩ := e
    by_cases hd : r.toNat = d
    · simp [hd]
    · have hout : ¬ (decide (r.toNat ≤ d) && decide (d < r.toNat + [n].length)) = true := by
        simp only [List.length_singleton, Bool.and_eq_true, decide_eq_true_eq]
        omega
      exact (if_neg hout).trans (by simp [hd])

/-- A wait for a phase parks; on a barrier that is not armed it goes on with status 2 (07 R127). -/
theorem waitByte_concludes (hc : context h s = some c) (k : Nat) {W : ByteBar → Wait} (hW : ∀ b j, W b ≠ .join j) :
    Frame sansPark c s (conclude c (waitByte k W c s)) ∧
    (if (bar s c k).armed then Parked c noStatus (conclude c (waitByte k W c s)) ∧ WaitsHere c (W (bar s c k)) (conclude c (waitByte k W c s))
    else Parked c (status c 2) (conclude c (waitByte k W c s)) ∧ GoesOn c (conclude c (waitByte k W c s))) := by
  have hx := team?_parkTeam hc
  have heffect := parkTeam_effect hc
  unfold waitByte
  rw [← bar_eq]
  dsimp only
  split
  · exact ⟨heffect.parkDone fun j hj => hW _ j (Option.some.inj hj), parked_parkDone hx rfl rfl noStatus_parked,
      waitsHere_parkDone (hW _) hx⟩
  · obtain ⟨y, hy, hv, hp, hs⟩ := parked_status hc 2
    exact ⟨(heffect.writeScalars [2] sansPark_of_sansS).parkDone (fun _ => Option.some_ne_none _ ∘ Eq.symm), parked_parkDone hy hv hp hs,
      goesOn_parkDone hy⟩

end

/-- Settles O27: both are the same wait, for their own condition. -/
theorem byteBarrierWaits : Obligations.ByteBarrierWaits := by
  unfold Obligations.ByteBarrierWaits
  refine ⟨fun k x s c h => ?bcbw, fun k x s c h => ?promw⟩
  case bcbw =>
    exact ⟨_, exec_of_gate_go (own := fun _ _ => .go) rfl h rfl,
      waitByte_concludes h.1 k.toNat (W := fun b => .byteBar k.toNat b.phase x.d.toNat) fun b j hj => by cases hj⟩
  case promw =>
    exact ⟨_, exec_of_gate_go (own := fun _ _ => .go) rfl h rfl,
      waitByte_concludes h.1 k.toNat (W := fun b => .promw k.toNat b.phase (c.pair 0) x.d.toNat) fun b j hj => by cases hj⟩

end Sys2Proof.Machine

/-! # What the memory's work leaves as it is

A write at the home wakes those who monitor it, and the write-backs and acquires of the caches change what the caches hold; none of
them moves a team otherwise, nor touches a cached translation or the state of a compartment (08 R162, 11 R213). -/

namespace Sys2Proof.Machine

open Sys2Proof.Spec

/-- The second team is the first after any number of wakes. -/
def Woke : Team → Team → Prop := Relation.ReflTransGen fun x y => ∃ p, y = wakeTeam p x

theorem Woke.refl (x : Team) : Woke x x := Relation.ReflTransGen.refl

theorem woke_wakeTeam (p : Wait → Option (Option Word)) (x : Team) : Woke x (wakeTeam p x) := .single ⟨p, rfl⟩

/-- What every wake keeps holds after any number of them. -/
theorem Woke.keeps {P : Team → Prop} (hP : ∀ p x, P x → P (wakeTeam p x)) {x y : Team} (h : Woke x y) (hx : P x) : P y := by
  induction h with
  | refl => exact hx
  | tail _ hstep ih =>
    obtain ⟨p, rfl⟩ := hstep
    exact hP p _ ih

/-- From `s` to `t` teams may have been woken; they are else as they were, as are cached translations, compartments and services. -/
structure Settles (s t : State) : Prop where
  teams : ∀ k, Option.Rel Woke (team? s k) (team? t k)
  cores : ∀ k, (core t k).tlb = (core s k).tlb
  clusters : ∀ k, (cluster t k).tlb = (cluster s k).tlb
  comps : ∀ k, (comp t k).desc = (comp s k).desc
  services : t.services = s.services

section
variable {s t u : State}

theorem woke_option_refl (x : Option Team) : Option.Rel Woke x x := by
  cases x with
  | none => exact .none
  | some x => exact .some (.refl x)

theorem woke_option_trans {x y z : Option Team} (h : Option.Rel Woke x y) (k : Option.Rel Woke y z) : Option.Rel Woke x z := by
  cases h with
  | none => exact k
  | some h =>
    cases k with
    | some k => exact .some (h.trans k)

theorem Settles.refl (s : State) : Settles s s := ⟨fun _ => woke_option_refl _, fun _ => rfl, fun _ => rfl, fun _ => rfl, rfl⟩

theorem Settles.trans (h : Settles s t) (k : Settles t u) : Settles s u :=
  ⟨fun j => woke_option_trans (h.teams j) (k.teams j), fun j => (k.cores j).trans (h.cores j),
    fun j => (k.clusters j).trans (h.clusters j), fun j => (k.comps j).trans (h.comps j), k.services.trans h.services⟩

theorem settles_foldl {α : Type} {f : State → α → State} (hf : ∀ s x, Settles s (f s x)) (l : List α) (s : State) :
    Settles s (l.foldl f s) := by
  induction l generalizing s with
  | nil => exact .refl s
  | cons x r ih => exact (hf s x).trans (ih (f s x))

theorem Settles.of_eq (hteams : t.teams = s.teams) (hcores : t.cores = s.cores) (hclusters : t.clusters = s.clusters)
    (hcomps : t.comps = s.comps) (hservices : t.services = s.services) : Settles s t where
  teams k := by
    rw [show team? t k = team? s k by rw [team?, team?, hteams]]
    exact woke_option_refl _
  cores k := by rw [core, hcores, core]
  clusters k := by rw [cluster, hclusters, cluster]
  comps k := by rw [comp, hcomps, comp]
  services := hservices

/-- A team that stands after has stood before. -/
theorem Settles.source (h : Settles s t) {k : Nat} {y : Team} (hy : team? t k = some y) : ∃ x, team? s k = some x ∧ Woke x y := by
  have hrel := h.teams k
  rw [hy] at hrel
  cases hx : team? s k with
  | none =>
    rw [hx] at hrel
    cases hrel
  | some x =>
    rw [hx] at hrel
    cases hrel with
    | some hxy => exact ⟨x, rfl, hxy⟩

/-- A team that has stood before stands after. -/
theorem Settles.stays (h : Settles s t) {k : Nat} {x : Team} (hx : team? s k = some x) : ∃ y, team? t k = some y ∧ Woke x y := by
  have hrel := h.teams k
  rw [hx] at hrel
  cases hy : team? t k with
  | none =>
    rw [hy] at hrel
    cases hrel
  | some y =>
    rw [hy] at hrel
    cases hrel with
    | some hxy => exact ⟨y, rfl, hxy⟩

theorem settles_setCore {k : Nat} {x : Core} (h : x.tlb = (core s k).tlb) : Settles s (setCore s k x) where
  teams _ := woke_option_refl _
  cores j := by
    rw [core_setCore]
    split
    · rename_i hj
      rw [h, hj]
    · rfl
  clusters _ := rfl
  comps _ := rfl
  services := rfl

theorem settles_setCluster {k : Nat} {x : Cluster} (h : x.tlb = (cluster s k).tlb) : Settles s (setCluster s k x) where
  teams _ := woke_option_refl _
  cores _ := rfl
  clusters j := by
    rw [cluster_setCluster]
    split
    · rename_i hj
      rw [h, hj]
    · rfl
  comps _ := rfl
  services := rfl

theorem settles_setComp {k : Nat} {x : Comp} (h : x.desc = (comp s k).desc) : Settles s (setComp s k x) where
  teams _ := woke_option_refl _
  cores _ := rfl
  clusters _ := rfl
  comps j := by
    rw [comp_setComp]
    split
    · rename_i hj
      rw [h, hj]
    · rfl
  services := rfl

theorem settles_wake (s : State) (k : Nat) (p : Wait → Option (Option Word)) : Settles s (onTeam s k (wakeTeam p)) where
  teams j := by
    rw [team?_onTeam]
    split
    · cases team? s j with
      | none => exact .none
      | some x => exact .some (woke_wakeTeam p x)
    · exact woke_option_refl _
  cores _ := by rw [core_onTeam]
  clusters _ := by rw [cluster_onTeam]
  comps _ := by rw [comp_onTeam]
  services := onTeam_services ..

theorem settles_wakeAll (s : State) (pick : Nat → Team → Bool) (p : Wait → Option (Option Word)) : Settles s (wakeAll s pick p) where
  teams j := by
    rw [team?_wakeAll]
    cases team? s j with
    | none => exact .none
    | some x =>
      rw [Option.map_some]
      split
      · exact .some (woke_wakeTeam p x)
      · exact .some (.refl x)
  cores _ := rfl
  clusters _ := rfl
  comps _ := rfl
  services := rfl

/-! ## Writes at the home (08 R162, 11 R213) -/

theorem settles_noteLine (s : State) (key line words : Nat) : Settles s (noteLine s key line words) := by
  unfold noteLine
  split
  · exact .refl s
  · exact .of_eq rfl rfl rfl rfl rfl

theorem settles_tagLine (s : State) (key line mask : Nat) : Settles s (tagLine s key line mask) := by
  unfold tagLine
  dsimp only
  split
  · split
    · exact .refl s
    · exact .of_eq rfl rfl rfl rfl rfl
  · exact .of_eq rfl rfl rfl rfl rfl

theorem settles_tagRange (s : State) (key a n : Nat) : Settles s (tagRange s key a n) := by
  unfold tagRange
  split
  · exact .refl s
  · exact settles_foldl (fun s _ => settles_tagLine s ..) _ s

theorem settles_putHome (s : State) (key pa : Nat) (bs : List Byte) : Settles s (putHome s key pa bs) :=
  ((settles_foldl (fun s _ => settles_noteLine s ..) (lineSpans pa bs.length) s).trans (settles_tagRange _ key pa bs.length)).trans
    (.of_eq rfl rfl rfl rfl rfl)

theorem settles_acquireL1 (s : State) (k : Nat) : Settles s (acquireL1 s k) := by
  refine settles_foldl (fun s j => ?_) _ s
  exact settles_setCore rfl

theorem settles_acquireAt (s : State) (k scope : Nat) : Settles s (acquireAt s k scope) := by
  unfold acquireAt
  split
  · exact settles_acquireL1 s k
  · exact .refl s

theorem settles_wakeMonitors (s : State) (point : Option Nat) (lo n : Nat) : Settles s (wakeMonitors s point lo n) :=
  settles_foldl (fun s _ => (settles_foldl (fun s _ => settles_acquireAt s ..) _ s).trans (settles_wake _ ..)) _ s

theorem settles_matchWatches (s : State) (lo n : Nat) (by' : Option Nat) : Settles s (matchWatches s lo n by') := by
  refine settles_foldl (fun s w => ?_) s.watches s
  dsimp only
  split
  · exact .refl s
  · exact .of_eq rfl rfl rfl rfl rfl

theorem settles_disown (s : State) (pa n : Nat) : Settles s (disown s pa n) := .of_eq rfl rfl rfl rfl rfl

theorem settles_writeHome (s : State) (key pa : Nat) (bs : List Byte) (by' : Option Nat) : Settles s (writeHome s key pa bs by') :=
  (((settles_putHome s key pa bs).trans (settles_disown _ pa bs.length)).trans (settles_wakeMonitors _ none pa bs.length)).trans
    (settles_matchWatches _ pa bs.length by')

theorem settles_writeOut (s : State) (key pa : Nat) (bs : List Byte) : Settles s (writeOut s key pa bs) := by
  unfold writeOut
  split
  · exact settles_writeHome s key pa bs none
  · exact settles_writeHome s key pa bs none
  · exact .of_eq rfl rfl rfl rfl rfl
  · exact .refl s

/-! ## Write-backs (10 R207, 11 R213) -/

theorem settles_registerWord (s : State) (k w : Nat) : Settles s (registerWord s k w) := by
  unfold registerWord
  split
  · exact .of_eq rfl rfl rfl rfl rfl
  · exact .refl s

theorem settles_writeBackWord (s : State) (k w : Nat) : Settles s (writeBackWord s k w) := by
  unfold writeBackWord
  split
  · split
    · have hclean : ∀ v, Settles s (setCore (registerWord s k w) k (cleanWord (core (registerWord s k w) k) w v)) := fun v =>
        (settles_registerWord s k w).trans (settles_setCore rfl)
      dsimp only
      split
      · exact (hclean _).trans (settles_writeHome _ ..)
      · exact hclean _
    · exact .refl s
  · exact .refl s

theorem settles_writeBackIf (s : State) (k : Nat) (p : Nat → Bool) : Settles s (writeBackIf s k p) :=
  settles_foldl (fun s _ => settles_writeBackWord s ..) _ s

theorem settles_releaseAt (s : State) (k scope : Nat) : Settles s (releaseAt s k scope) := by
  unfold releaseAt
  split
  · exact settles_foldl (fun s _ => settles_writeBackIf s ..) _ s
  · exact .refl s

theorem settles_dropWords (s : State) (k : Nat) (p : Nat → Bool) : Settles s (dropWords s k p) :=
  (settles_writeBackIf s k p).trans (settles_setCore rfl)

theorem settles_dropStable (s : State) (c : Nat) : Settles s (dropStable s c) := by
  refine settles_foldl (fun s k => ?_) _ s
  refine (settles_writeBackIf s k fun w => (Tab.get? (core s k).l1 w).any (·.stable)).trans ?_
  exact settles_setCore rfl

theorem settles_flushL1 (s : State) (k : Nat) : Settles s (flushL1 s k) := settles_dropWords s k _

/-! ## Regions and their ends (15 R262, R263) -/

theorem settles_onRegion (s : State) (rk : Nat) (f : Region → Region) : Settles s (onRegion s rk f) := by
  unfold onRegion
  split
  · exact .of_eq rfl rfl rfl rfl rfl
  · exact .refl s

theorem settles_writeRcb (s : State) (rk off size v : Nat) : Settles s (writeRcb s rk off size v) := by
  unfold writeRcb
  split
  · exact settles_writeHome s ..
  · exact .refl s

theorem settles_setRegionState (s : State) (rk st : Nat) : Settles s (setRegionState s rk st) :=
  (settles_onRegion s rk fun r => { r with state := st }).trans (settles_writeRcb _ rk 0x64 4 st)

theorem settles_writeLive (s : State) (rk : Nat) : Settles s (writeLive s rk) := settles_writeRcb s rk 0x68 4 _

theorem settles_refuse (s : State) (c : Nat) : Settles s (refuse s c) := by
  refine settles_foldl (fun s cl => ?_) _ s
  dsimp only
  split
  · exact .refl s
  · refine (settles_foldl (fun s i => settles_flushL1 s (4 * cl + i)) (List.range 4) s).trans ?_
    generalize (List.range 4).foldl (fun s i => flushL1 s (4 * cl + i)) s = flushed
    exact settles_setCluster rfl

theorem settles_orDesc (s : State) (key d m : Nat) : Settles s (orDesc s key d m) := by
  unfold orDesc
  dsimp only
  split
  · exact .refl s
  · exact (settles_putHome s ..).trans (settles_disown _ d 8)

theorem settles_markLeaf (s : State) (key : Nat) (l : Leaf) (write : Bool) : Settles s (markLeaf s key l write) := by
  unfold markLeaf
  dsimp only
  split
  · exact (settles_orDesc s ..).trans (settles_foldl (fun s _ => settles_orDesc s ..) _ _)
  · exact settles_orDesc s ..

theorem settles_markIpa (s : State) (c ipa : Nat) (write : Bool) : Settles s (markIpa s c ipa write) := by
  unfold markIpa
  split
  · exact settles_markLeaf s ..
  · exact .refl s

theorem settles_writeDone (s : State) (c ipa v : Nat) : Settles s (writeDone s c ipa v) := by
  unfold writeDone
  split
  · exact .refl s
  · dsimp only
    split
    · exact (settles_markIpa s ..).trans (settles_writeOut _ ..)
    · exact settles_markIpa s ..

theorem settles_regions (s : State) (rs : Tab Region) : Settles s { s with regions := rs } := .of_eq rfl rfl rfl rfl rfl

theorem settles_crews (s : State) (cs : Tab Crew) : Settles s { s with crews := cs } := .of_eq rfl rfl rfl rfl rfl

theorem settles_endRegion (n : Nat) (s : State) (rk : Nat) : Settles s (endRegion s n rk) := by
  induction n generalizing s rk with
  | zero => exact .refl s
  | succ n ih =>
    unfold endRegion
    split
    · exact .refl s
    · rename_i r _
      split
      · exact .refl s
      · have hended : Settles s (refuse { setRegionState s rk 0 with regions := Tab.del (setRegionState s rk 0).regions rk } r.comp) :=
          ((settles_setRegionState s rk 0).trans (settles_regions _ _)).trans (settles_refuse _ _)
        dsimp only
        split
        · exact hended.trans ((settles_dropStable _ _).trans (settles_writeDone _ ..))
        · exact hended.trans (ih _ _)

theorem settles_endIdle (s : State) (rk : Nat) : Settles s (endIdle s rk) := by
  unfold endIdle
  split
  · exact .refl s
  · exact settles_endRegion _ s rk

theorem settles_reapCrew (s : State) (ck : Nat) : Settles s (reapCrew s ck) := by
  unfold reapCrew
  split
  · split
    · exact .refl s
    · split
      · exact (settles_crews s _).trans (settles_endIdle _ _)
      · split
        · exact .refl s
        · exact settles_crews s _
  · exact .refl s

theorem settles_crewBarCheck (s : State) (ck b : Nat) : Settles s (crewBarCheck s ck b) := by
  unfold crewBarCheck
  split
  · exact .refl s
  · rename_i w _
    dsimp only
    split
    · have hwoken : ∀ x p, Settles s (wakeAll (setCrew s ck x) (fun k _ => decide (crewOf k = ck)) p) := fun x p =>
        (settles_crews s _).trans (settles_wakeAll (setCrew s ck x) _ p)
      split
      · exact (hwoken _ _).trans (settles_setCore rfl)
      · exact hwoken _ _
    · exact .refl s

/-! ## What has ended leaves (07 R121) -/

theorem team?_reapTeam_source {k j : Nat} {y : Team} (h : team? (reapTeam s k) j = some y) : team? s j = some y := by
  unfold reapTeam at h
  split at h
  · split at h
    · change Tab.get? (Tab.del s.teams k) j = some y at h
      rw [Tab.get?_del] at h
      split at h
      · cases h
      · exact h
    · exact h
  · exact h

theorem team?_reapTeam_live {k j : Nat} {x : Team} (h : team? s j = some x) (hlive : x.live ≠ 0) : team? (reapTeam s k) j = some x := by
  unfold reapTeam
  split
  · rename_i z hz
    split
    · rename_i hended
      have hne : k ≠ j := by
        rintro rfl
        rw [h] at hz
        obtain rfl := Option.some.inj hz
        simp only [Bool.and_eq_true, decide_eq_true_eq] at hended
        exact hlive hended.1.1
      change Tab.get? (Tab.del s.teams k) j = some x
      rw [Tab.get?_del, if_neg hne]
      exact h
    · exact h
  · exact h

/-- A team that stands once what has ended has left stood before, but for wakes. -/
theorem reap_source {k : Nat} {y : Team} (h : team? (reap s) k = some y) : ∃ x, team? s k = some x ∧ Woke x y := by
  obtain ⟨x, hx, hxy⟩ := (settles_foldl settles_reapCrew _ _).source h
  refine ⟨x, ?_, hxy⟩
  suffices hfold : ∀ (l : List Nat) (s : State), team? (l.foldl reapTeam s) k = some x → team? s k = some x from hfold _ _ hx
  intro l
  induction l with
  | nil => exact fun _ h => h
  | cons j r ih => exact fun s h => team?_reapTeam_source (ih _ h)

/-- A team that lives stays, but for wakes. -/
theorem reap_stays {k : Nat} {x : Team} (h : team? s k = some x) (hlive : x.live ≠ 0) :
    ∃ y, team? (reap s) k = some y ∧ Woke x y := by
  refine (settles_foldl settles_reapCrew _ _).stays ?_
  suffices hfold : ∀ (l : List Nat) (s : State), team? s k = some x → team? (l.foldl reapTeam s) k = some x from hfold _ _ h
  intro l
  induction l with
  | nil => exact fun _ h => h
  | cons j r ih => exact fun s h => ih _ (team?_reapTeam_live h hlive)

end

end Sys2Proof.Machine

/-! # Timed waits (07 R127, 08 R162, R165) -/

namespace Sys2Proof.Machine

open Sys2Proof.Spec

/-- Lanes have an entry that waits for nothing, at an address. -/
def FreeAt (m : Word) (pc : Nat) (t : Team) : Prop := ∃ x ∈ t.front, m &&& ~~~x.mask = 0 ∧ x.pc = pc ∧ x.wait = none

/-- A status stands in its scalar register, and nothing that still waits will write to it. -/
def Told (d : Nat) (x : Word) (t : Team) : Prop := Team.scalar t d = x ∧ ∀ e ∈ t.front, ∀ w, e.wait = some w → w.dest ≠ some d

/-- The wake of the waits that a test picks, with one result for all of them. -/
def dueWake (due : Wait → Bool) (res : Option Word) (w : Wait) : Option (Option Word) := if due w then some res else none

section
variable {p : Wait → Option (Option Word)} {due : Wait → Bool} {res : Option Word} {m : Word} {t : Team} {e : Entry} {w : Wait}

theorem and_not_trans {a b c : Word} (h : a &&& ~~~b = 0) (k : b &&& ~~~c = 0) : a &&& ~~~c = 0 := by
  rw [and_not_eq_zero_iff_all, List.all_eq_true] at h k ⊢
  exact fun l hl => k l (mem_lanesOf.mpr ⟨(mem_lanesOf.mp hl).1, h l hl⟩)

theorem ne_zero_of_covered {a b : Word} (h : a &&& ~~~b = 0) (ha : a ≠ 0) : b ≠ 0 := by
  rintro rfl
  rw [show ~~~(0 : Word) = BitVec.allOnes 32 by decide, BitVec.and_allOnes] at h
  exact ha h

theorem FreeAt.wakeTeam {pc : Nat} (hm : m ≠ 0) (h : FreeAt m pc t) : FreeAt m pc (wakeTeam p t) := by
  obtain ⟨x, hx, hmask, hpc, hwait⟩ := h
  obtain ⟨y, hy, hxy, hspot⟩ := wakeTeam_covers (p := p) hx (ne_zero_of_covered hmask hm)
  rw [wakeEntry_of_none (by rw [hwait]; rfl)] at hspot
  exact ⟨y, hy, and_not_trans hmask hxy, (congrArg (·.2.1) hspot : _).trans hpc, (congrArg (·.2.2) hspot : _).trans hwait⟩

theorem Told.wakeTeam {d : Nat} {x : Word} (h : Told d x t) : Told d x (wakeTeam p t) := by
  obtain ⟨hscalar, hnone⟩ := h
  refine ⟨scalar_wakeTeam (fun e he y hwrite => ?_) (.inl hscalar), fun e he w hw => ?_⟩
  · obtain ⟨w, hw, _, hd⟩ := wakeWrite_eq_some hwrite
    exact absurd hd (hnone e he w hw)
  · obtain ⟨_, x, hx, hxw⟩ := wakeTeam_wait he hw
    exact hnone x hx w hxw

theorem freeAt_dueWake (he : e ∈ t.front) (hm : e.mask ≠ 0) (hw : e.wait = some w) (hdue : due w = true) (hs : w.stays = false) :
    FreeAt e.mask ((e.pc + 4) % 2 ^ 57) (Machine.wakeTeam (dueWake due res) t) := by
  obtain ⟨y, hy, hmask, hspot⟩ := wakeTeam_covers (p := dueWake due res) he hm
  rw [wakeEntry_of_some hw (by rw [dueWake, if_pos hdue]; rfl), hs, if_neg Bool.false_ne_true] at hspot
  exact ⟨y, hy, hmask, (congrArg (·.2.1) hspot : _), (congrArg (·.2.2) hspot : _)⟩

theorem told_dueWake {d : Nat} {x : Word} (he : e ∈ t.front) (hw : e.wait = some w) (hdue : due w = true) (hd : w.dest = some d)
    (honly : ∀ y ∈ t.front, ∀ v, y.wait = some v → v.dest = some d → e.wait = some v) :
    Told d x (Machine.wakeTeam (dueWake due (some x)) t) := by
  refine ⟨scalar_wakeTeam (fun y hy z hwrite => ?_) (.inr ⟨e, he, x, ?_⟩), fun y hy v hv hvd => ?_⟩
  · obtain ⟨v, _, hp, _⟩ := wakeWrite_eq_some hwrite
    unfold dueWake at hp
    split at hp
    · exact (Option.some.inj (Option.some.inj hp)).symm
    · cases hp
  · simp [wakeWrite, hw, dueWake, hdue, hd]
  · obtain ⟨hp, z, hz, hzv⟩ := wakeTeam_wait hy hv
    obtain rfl : w = v := Option.some.inj (hw.symm.trans (honly z hz v hzv hvd))
    rw [dueWake, if_pos hdue] at hp
    cases hp

end

/-! ## The event of a timer -/

section
variable {s t : State} {key : Nat} {u : Team} {e : Entry} {w : Wait} {p : Wait → Option (Option Word)}

theorem waitsAt_of_entry {due : Wait → Bool} (hu : team? s key = some u) (he : e ∈ u.front) (hf : u.frozen = false)
    (hw : e.wait = some w) (hdue : due w = true) : waitsAt s key e.pc due = true := by
  have hany : (u.front.any fun x => decide (x.pc = e.pc) && x.wait.any due) = true :=
    List.any_eq_true.mpr ⟨e, he, by simp [hw, hdue]⟩
  simp [waitsAt, hu, hf, hany]

theorem teamClk_eq (hu : team? s key = some u) : teamClk s key = clk s (holdingCore s key u) := by
  rw [teamClk, hu]
  rfl

/-- Once the event is over, the team has been woken by it, and perhaps by what has ended with it. -/
theorem happen_stays (ht : team? t key = some (wakeTeam p u)) (hlive : u.live ≠ 0) :
    ∃ y, team? (happen t) key = some y ∧ Woke (wakeTeam p u) y :=
  reap_stays (s := { t with stir := true }) ht (by rwa [(wakeTeam_kept p u).2.2])

end

/-- Settles O53: the event of each timer is enabled and wakes the entry, with the status where it has one; what ends with the event can
wake other entries only. -/
theorem timedWaitsEnd : Obligations.TimedWaitsEnd := by
  unfold Obligations.TimedWaitsEnd
  intro s key u e hu he hm hlive hf
  have hclk := teamClk_eq hu
  dsimp only
  rw [← hclk]
  have hwoken : ∀ p, team? (onTeam s key (wakeTeam p)) key = some (wakeTeam p u) := fun p => by
    rw [team?_onTeam, if_pos rfl, hu]
    rfl
  refine ⟨fun d hwait hdue => ?sleep, fun k ph d dst hwait hdue honly => ?promw, fun a pa pt v m ctl d dst hwait hdue honly => ?waitc⟩
  case sleep =>
    have hover : sleepOver (teamClk s key) (.sleep d) = true := decide_eq_true hdue
    obtain ⟨y, hy, hwoke⟩ := happen_stays (hwoken (dueWake (sleepOver (teamClk s key)) none)) hlive
    refine ⟨_, congrArg Host.Outcome.next (if_pos (waitsAt_of_entry hu he hf hwait hover)), y, hy, ?_⟩
    exact hwoke.keeps (fun _ _ => FreeAt.wakeTeam hm) (freeAt_dueWake he hm hwait hover rfl)
  case promw =>
    have hover : promwOver (teamClk s key) (.promw k ph d dst) = true := decide_eq_true hdue
    obtain ⟨y, hy, hwoke⟩ := happen_stays (hwoken (dueWake (promwOver (teamClk s key)) (some 3))) hlive
    refine ⟨_, congrArg Host.Outcome.next (if_pos (waitsAt_of_entry hu he hf hwait hover)), ⟨y, hy, ?_⟩, y, hy, ?_⟩
    · exact hwoke.keeps (fun _ _ => FreeAt.wakeTeam hm) (freeAt_dueWake he hm hwait hover rfl)
    · exact (hwoke.keeps (fun _ _ => Told.wakeTeam) (told_dueWake he hwait hover rfl honly)).1
  case waitc =>
    have hover : waitcOver (teamClk s key) (.monitor a pa pt v m ctl (some d) dst) = true := decide_eq_true hdue
    have hpolls : team? (dropPolls (onTeam s key (wakeTeam (dueWake (waitcOver (teamClk s key)) (some 1)))) key) key =
        some (wakeTeam (dueWake (waitcOver (teamClk s key)) (some 1)) u) := hwoken _
    obtain ⟨y, hy, hwoke⟩ := happen_stays hpolls hlive
    refine ⟨_, congrArg Host.Outcome.next (if_pos (waitsAt_of_entry hu he hf hwait hover)), ⟨y, hy, ?_⟩, y, hy, ?_⟩
    · exact hwoke.keeps (fun _ _ => FreeAt.wakeTeam hm) (freeAt_dueWake he hm hwait hover rfl)
    · exact (hwoke.keeps (fun _ _ => Told.wakeTeam) (told_dueWake he hwait hover rfl honly)).1

end Sys2Proof.Machine

/-! # EXIT (07 R121) -/

namespace Sys2Proof.Machine

open Sys2Proof.Spec

/-! ## The end of a team -/

/-- A team has ended, if it is there at all. -/
def Ended (key : Nat) (s : State) : Prop := ∀ u, team? s key = some u → u.live = 0 ∧ u.front = []

section
variable {s t : State} {key : Nat} {x : Team}

theorem ended_of_source (h : Ended key s) (hst : ∀ y, team? t key = some y → ∃ x, team? s key = some x ∧ Woke x y) : Ended key t := by
  intro y hy
  obtain ⟨x, hx, hxy⟩ := hst y hy
  refine hxy.keeps (P := fun u => u.live = 0 ∧ u.front = []) (fun p u hu => ?_) (h x hx)
  obtain ⟨hlive, hfront⟩ := hu
  exact ⟨(wakeTeam_kept p u).2.2.trans hlive, wakeTeam_of_no_front hfront⟩

theorem Ended.settles (h : Ended key s) (hst : Settles s t) : Ended key t := ended_of_source h fun _ => hst.source

theorem Ended.reap (h : Ended key s) : Ended key (reap s) := ended_of_source h fun _ => reap_source

theorem ended_endTeam (hx : team? s key = some x) (hlive : x.live = 0) : Ended key (endTeam s key) := by
  have hfreed : Ended key (freeProposals (setTeam s key { x with front := [], held := [], escal := [], owed := [], late := [] }) key) := by
    intro u hu
    obtain rfl := Option.some.inj (((team?_setTeam s key key _).trans (if_pos rfl)).symm.trans hu)
    exact ⟨hlive, rfl⟩
  unfold endTeam
  rw [hx]
  refine Ended.reap (Ended.settles ?live (settles_foldl (fun s _ => settles_crewBarCheck s ..) _ _))
  refine Ended.settles ?escal (settles_writeLive _ _)
  refine Ended.settles ?frame (settles_foldl (fun s _ => settles_onRegion s ..) _ _)
  split
  · exact hfreed.settles (settles_onRegion _ ..)
  · exact hfreed

end

/-! ## An instruction that leaves its lanes nowhere -/

section
variable {c : Ctx} {s : State} {t : Team} {l : Nat} {σ : Spot}

theorem hasSpot_advanceTeam_nowhere (hl : l < 32) :
    HasSpot (advanceTeam c (some []) t).front l σ ↔ HasSpot t.front l σ ∧ c.cur.mask.getLsbD l = false := by
  cases hr : c.cur.replay with
  | none => simp [hasSpot_advanceTeam hr _ _ hl]
  | some r =>
    have hfront : (advanceTeam c (some []) t).front = rebuild (dropLanes t.front c.cur.mask ++ []) := by
      simp [advanceTeam, hr]
    rw [hfront, List.append_nil, hasSpot_rebuild, hasSpot_dropLanes hl]

/-- None of the lanes that the instruction issued for stands anywhere. -/
theorem front_disjoint_of_nowhere {e : Entry} (he : e ∈ (joinChecks (advanceTeam c (some []) t)).front) :
    e.mask &&& c.cur.mask = 0 := by
  refine BitVec.eq_of_getLsbD_eq fun l hl => ?_
  rw [BitVec.getLsbD_and, show (0 : Word).getLsbD l = false from BitVec.getLsbD_zero, Bool.and_eq_false_imp]
  intro hlane
  by_contra hmask
  rw [Bool.not_eq_false] at hmask
  have hnowhere : ∀ σ, HasSpot (joinChecks (advanceTeam c (some []) t)).front l σ → False :=
    joinChecks_induction (P := fun t => ∀ σ, HasSpot t.front l σ → False)
      (fun _ _ h => hasSpot_of_joinCheck (P := fun _ => False) (fun _ _ => id) h) fun σ hσ => by
        rw [hasSpot_advanceTeam_nowhere hl, hmask] at hσ
        cases hσ.2
  exact hnowhere _ ⟨e, he, hlane, rfl⟩

theorem joinCheck_no_front (k : Nat) (h : t.front = []) : (joinCheck t k).front = [] := by
  obtain hsame | ⟨f, hfront, _⟩ := joinCheck_front t k
  · exact hsame.trans h
  · rw [hfront, h]
    rfl

theorem advanceTeam_no_front (h : t.front = []) : (joinChecks (advanceTeam c (some []) t)).front = [] := by
  refine joinChecks_induction (P := fun t => t.front = []) (fun _ k => joinCheck_no_front k) ?_
  simp [advanceTeam, h, dropLanes, ageEntries, rebuild]

/-- A team that has ended before its instruction has concluded has ended after. -/
theorem Ended.conclude (h : Ended c.key s) : Ended c.key (conclude c { s := s, moves := some [] }) := by
  intro u hu
  cases hx : team? s c.key with
  | none =>
    have hq := (conclude_quiet (c := c) (r := { s := s, moves := some [] }) rfl rfl).teams c.key
    rw [team?_onTeam, if_pos rfl, hx, hu] at hq
    cases hq
  | some x =>
    obtain ⟨hlive, hfront⟩ := h x hx
    obtain ⟨y, hy, hyx⟩ := team?_concluded (c := c) (r := { s := s, moves := some [] }) rfl rfl hx
    obtain rfl := Option.some.inj (hu.symm.trans hy)
    obtain ⟨hkept, hfronts, _⟩ := unstinted_fields hyx
    exact ⟨(congrArg Team.live (hkept.trans concluded_kept) : u.kept.live = _).trans hlive,
      hfronts.trans ((concluded_front rfl).trans (advanceTeam_no_front hfront))⟩

end

/-! ## The lanes that leave -/

section
variable {c : Ctx} {s : State}

theorem mask_exitLanes (t : Team) (k : Nat) : Team.mask (exitLanes c t) k = Team.mask t k &&& ~~~c.act :=
  getD_map (· &&& ~~~c.act) t.m k BitVec.zero_and

theorem team?_exitLanes (ht : team? s c.key = some c.team) : team? (onTeam s c.key (exitLanes c)) c.key = some (exitLanes c c.team) := by
  rw [team?_onTeam, if_pos rfl, ht]
  rfl

/-- What an EXIT does that leaves lanes of its team alive. -/
theorem exit_concluded (ht : team? s c.key = some c.team) :
    ∃ u, team? (conclude c { s := onTeam s c.key (exitLanes c), moves := some [] }) c.key = some u ∧
      u.live = c.team.live &&& ~~~c.act ∧
      { u.kept with live := 0, deadPc := [] } = { c.team.kept with live := 0, deadPc := [] } ∧
      (∀ e ∈ u.front, e.mask &&& c.cur.mask = 0) ∧ ∀ k, MaskStands c.team u k (Team.mask c.team k &&& ~~~c.act) := by
  have hx := team?_exitLanes ht
  obtain ⟨u, hu, hux⟩ := team?_concluded (c := c) (r := { s := onTeam s c.key (exitLanes c), moves := some [] }) rfl rfl hx
  obtain ⟨hkept, hfront, _⟩ := unstinted_fields hux
  have hfields : u.kept = (exitLanes c c.team).kept := hkept.trans concluded_kept
  have hfront' := hfront.trans (concluded_front rfl)
  refine ⟨u, hu, (congrArg Team.live hfields : u.kept.live = _), ?_, fun e he => ?_, fun k => ?_⟩
  · exact congrArg (fun t : Team => { t with live := 0, deadPc := [] }) hfields
  · exact front_disjoint_of_nowhere (hfront' ▸ he)
  · obtain ⟨y, hy, _, hmask⟩ := (conclude_concludes c { s := onTeam s c.key (exitLanes c), moves := some [] } rfl rfl
      (fun _ he => by cases he; simp [NoJoin])).own _ hx
    obtain rfl := Option.some.inj (hu.symm.trans hy)
    rw [← mask_exitLanes]
    exact MaskStands.trans (b := exitLanes c c.team) (.inl rfl) (fun _ hw => Waits.drop hw) (hmask k)

end

theorem exec_exit_of_ready {x : SF} {s : State} {c : Ctx} (h : Ready (.exit x) s c) : exec (.exit x) s = .next (conclude c
    { s := if c.team.live &&& ~~~c.act = 0 then endTeam (onTeam s c.key (exitLanes c)) c.key else onTeam s c.key (exitLanes c),
      moves := some [] }) := by
  refine (exec_of_gate_go (own := fun _ _ => .go) rfl h rfl).trans ?_
  have hall : ((team? (onTeam s c.key (exitLanes c)) c.key).all fun t => decide (t.live = 0)) = decide (c.team.live &&& ~~~c.act = 0) := by
    rw [team?_exitLanes (context_team h.1).1]
    rfl
  dsimp only
  rw [hall]
  simp only [decide_eq_true_eq]

/-- Settles O21: while a lane lives the lanes that exit are dropped and nothing else is touched; after the last, the team has ended
before its instruction concludes. -/
theorem exitEndsLanes : Obligations.ExitEndsLanes := by
  unfold Obligations.ExitEndsLanes
  intro x s c h
  have ht := (context_team h.1).1
  refine ⟨_, exec_exit_of_ready h, fun hlive => ?_, fun hlast => ?_⟩
  · rw [if_neg hlive]
    exact ⟨teamOnly_conclude rfl rfl rfl, conclude_latchesKept rfl rfl fun _ => bench_onTeam .., exit_concluded ht⟩
  · rw [if_pos hlast]
    exact ⟨rfl, (ended_endTeam (team?_exitLanes ht) hlast).conclude⟩

end Sys2Proof.Machine

/-! # SUSPEND (07 R132) -/

namespace Sys2Proof.Machine

open Sys2Proof.Spec

/-! ## The request to stop (07 R132 step 1) -/

/-- A team that has been asked to stop. -/
def stopped (t : Team) : Team := { t with stopReq := true }

/-- Every team of a list asked to stop. -/
def askTeams (s : State) (l : List Nat) : State := l.foldl (fun s k => onTeam s k stopped) s

section
variable {s : State} {j : Nat}

theorem team?_askTeams (l : List Nat) : team? (askTeams s l) j = if j ∈ l then (team? s j).map stopped else team? s j := by
  induction l generalizing s with
  | nil => rfl
  | cons k r ih =>
    have hstep : team? (askTeams s (k :: r)) j = team? (askTeams (onTeam s k stopped) r) j := rfl
    rw [hstep, ih, team?_onTeam]
    by_cases hk : k = j
    · subst hk
      cases team? s k <;> simp [stopped]
    · have hne : j ≠ k := Ne.symm hk
      simp [hk, hne]

theorem askTeams_kept (l : List Nat) : (askTeams s l).mem = s.mem ∧ (askTeams s l).crews = s.crews := by
  induction l generalizing s with
  | nil => exact ⟨rfl, rfl⟩
  | cons k r ih =>
    obtain ⟨hmem, hcrews⟩ := ih (s := onTeam s k stopped)
    exact ⟨hmem.trans (onTeam_mem ..), hcrews.trans (onTeam_crews ..)⟩

/-- Every team of a crew that is asked to stop has the request. -/
theorem stopReq_askTeams {ck : Nat} {u : Team} (hj : crewOf j = ck) (hu : team? (askTeams s (crewTeams s ck)) j = some u) :
    u.stopReq = true := by
  rw [team?_askTeams] at hu
  split at hu
  · obtain ⟨x, _, rfl⟩ := Option.map_eq_some_iff.mp hu
    rfl
  · rename_i hnot
    exact absurd (mem_crewTeams.mpr ⟨hj, u, hu⟩) hnot

end

/-! ## Parking, whatever has been asked of the team -/

section
variable {s : State} {k j : Nat} {x : Team} {carry : Word × Word}

theorem voidTeamLatches_kept (s : State) (t : Team) : (voidTeamLatches s t).mem = s.mem ∧ (voidTeamLatches s t).crews = s.crews ∧
    ∀ j, team? (voidTeamLatches s t) j = team? s j := by
  unfold voidTeamLatches
  split <;> exact ⟨rfl, rfl, fun _ => rfl⟩

theorem team?_parkTeam_at : team? (parkTeam s k carry) j = if k = j then (team? s j).map (parkedFrom carry) else team? s j := by
  unfold parkTeam
  split
  · rename_i t ht
    rw [(voidTeamLatches_kept _ t).2.2, team?_setTeam]
    split
    · rename_i hkj
      rw [← hkj, ht]
      rfl
    · rfl
  · rename_i hnone
    split
    · rename_i hkj
      rw [← hkj, hnone]
      rfl
    · rfl

theorem parkTeam_kept : (parkTeam s k carry).mem = s.mem ∧ (parkTeam s k carry).crews = s.crews := by
  unfold parkTeam
  split
  · obtain ⟨hmem, hcrews, _⟩ := voidTeamLatches_kept (setTeam s k (parkedFrom carry _)) _
    exact ⟨hmem, hcrews⟩
  · exact ⟨rfl, rfl⟩

end

/-! ## The checks (07 R132) -/

section
variable {c : Ctx} {s : State} {w : Crew} (hw : crew? s (crewOf c.key) = some w)
include hw

theorem suspendGate_of_suspending (hq : w.suspending ≠ none) : suspendGate c s = .go := by
  have hany : ((crew? s (crewOf c.key)).any fun w => w.suspending.isSome) = true := by
    rw [hw]
    exact Option.isSome_iff_ne_none.mpr hq
  rw [suspendGate, if_pos hany]

theorem suspendGate_of_idle (hq : w.suspending = none) : suspendGate c s =
    if c.pair 0 % 2 ^ 57 % 256 ≠ 0 then c.trapAt 6 (c.pair 0 % 2 ^ 57)
    else if c.pair 2 % 2 ^ 57 % 8 ≠ 0 then c.trapAt 6 (c.pair 2 % 2 ^ 57) else .go := by
  have hany : ((crew? s (crewOf c.key)).any fun w => w.suspending.isSome) = false := by
    rw [hw, Option.any_some, hq]
    rfl
  rw [suspendGate, if_neg (by rw [hany]; exact Bool.false_ne_true)]
  rfl

omit hw in
/-- The record of a SUSPEND in progress. -/
def suspending (c : Ctx) (f : Nat) (s : State) : Suspending :=
  { team := c.key, trunk := suspendTrunk c, ticket := suspendTicket c, flags := f, since := clk s c.place.core, issue := c.entryOf c.act true }

omit hw in
/-- The state in which a SUSPEND has asked its crew to stop. -/
def askedState (s : State) (ck : Nat) (q : Suspending) : State :=
  askTeams (onCrew s ck fun w => { w with suspending := some q }) (crewTeams s ck)

theorem suspendEffect_of_idle (hq : w.suspending = none) (f : Nat) : suspendEffect f c s =
    parkDone c (parkTeam (askedState s (crewOf c.key) (suspending c f s)) c.key c.carry) (some .suspend) := by
  have hany : ((crew? s (crewOf c.key)).any fun w => w.suspending.isSome) = false := by
    rw [hw, Option.any_some, hq]
    rfl
  have hteams : crewTeams (onCrew s (crewOf c.key) fun w => { w with suspending := some (suspending c f s) }) (crewOf c.key) =
      crewTeams s (crewOf c.key) := by
    rw [crewTeams, onCrew_teams, crewTeams]
  rw [suspendEffect, if_neg (by rw [hany]; exact Bool.false_ne_true), askedState, ← hteams]
  rfl

theorem suspendEffect_of_suspending (hq : w.suspending ≠ none) (f : Nat) :
    suspendEffect f c s = parkDone c (parkTeam s c.key c.carry) none := by
  have hany : ((crew? s (crewOf c.key)).any fun w => w.suspending.isSome) = true := by
    rw [hw]
    exact Option.isSome_iff_ne_none.mpr hq
  rw [suspendEffect, if_pos hany]

/-- The crew, its teams and the memory once the crew has been asked to stop and the issuing team has parked. -/
theorem askedState_parked (ht : team? s c.key = some c.team) (q : Suspending) :
    let u := parkTeam (askedState s (crewOf c.key) q) c.key c.carry
    u.mem = s.mem ∧ crew? u (crewOf c.key) = some { w with suspending := some q } ∧
    team? u c.key = some (parkedFrom c.carry (stopped c.team)) ∧
    ∀ j y, team? u j = some y → crewOf j = crewOf c.key → y.stopReq = true := by
  dsimp only
  obtain ⟨hmem, hcrews⟩ := parkTeam_kept (s := askedState s (crewOf c.key) q) (k := c.key) (carry := c.carry)
  obtain ⟨hmem', hcrews'⟩ := askTeams_kept (s := onCrew s (crewOf c.key) fun w => { w with suspending := some q }) (crewTeams s (crewOf c.key))
  have hteam : ∀ j, team? (askedState s (crewOf c.key) q) j = team? (askTeams s (crewTeams s (crewOf c.key))) j := fun j => by
    rw [askedState, team?_askTeams, team?_onCrew, team?_askTeams]
  refine ⟨hmem.trans (hmem'.trans (onCrew_mem ..)), ?_, ?_, fun j y hy hj => ?_⟩
  · have hcrew := (crew?_onCrew s (crewOf c.key) (crewOf c.key) fun w => { w with suspending := some q })
    rw [if_pos rfl, hw] at hcrew
    exact (congrArg (fun l : Tab Crew => Tab.get? l (crewOf c.key)) (hcrews.trans hcrews') : _).trans hcrew
  · rw [team?_parkTeam_at, if_pos rfl, hteam, team?_askTeams, if_pos (mem_crewTeams.mpr ⟨rfl, _, ht⟩), ht]
    rfl
  · rw [team?_parkTeam_at] at hy
    split at hy
    · obtain ⟨x, hx, rfl⟩ := Option.map_eq_some_iff.mp hy
      exact (stopReq_askTeams hj ((hteam j).symm.trans hx) : x.stopReq = true)
    · exact stopReq_askTeams hj ((hteam j).symm.trans hy)

omit hw in
/-- A request to stop outlives the end of the instruction. -/
theorem stopReq_conclude {r : Done} (hf : r.fail = none) (hp : r.post = none) {P : Nat → Prop}
    (h : ∀ j y, team? r.s j = some y → P j → y.stopReq = true) {j : Nat} {u : Team} (hu : team? (conclude c r) j = some u) (hj : P j) :
    u.stopReq = true := by
  have hq := (conclude_quiet (c := c) hf hp).teams j
  rw [hu] at hq
  obtain ⟨y, hy, hyu⟩ := Option.map_eq_some_iff.mp hq.symm
  have hreq : u.stopReq = y.stopReq := (congrArg Team.stopReq hyu.symm : u.unstinted.stopReq = _)
  rw [hreq]
  rw [team?_onTeam] at hy
  split at hy
  · obtain ⟨x, hx, rfl⟩ := Option.map_eq_some_iff.mp hy
    exact (congrArg Team.stopReq (concluded_kept (c := c) (r := r) (x := x)) : (concluded c r x).kept.stopReq = _).trans (h j x hx hj)
  · exact h j y hy hj

end

/-- A first SUSPEND of its crew, once it has concluded. -/
theorem suspend_concluded {c : Ctx} {s : State} {w : Crew} (ht : team? s c.key = some c.team) (hw : crew? s (crewOf c.key) = some w)
    (q : Suspending) :
    let t := conclude c (parkDone c (parkTeam (askedState s (crewOf c.key) q) c.key c.carry) (some .suspend))
    Parked c noStatus t ∧ WaitsHere c .suspend t ∧ crew? t (crewOf c.key) = some { w with suspending := some q } ∧
      (∀ k u, team? t k = some u → crewOf k = crewOf c.key → u.stopReq = true) ∧ t.mem = s.mem := by
  obtain ⟨hmem, hcrew, hteam, hstop⟩ := askedState_parked hw ht q
  generalize parkTeam (askedState s (crewOf c.key) q) c.key c.carry = u at hmem hcrew hteam hstop
  obtain ⟨hmem', hcrews, _⟩ := conclude_device (c := c) (r := parkDone c u (some .suspend)) rfl rfl
  refine ⟨parked_parkDone hteam rfl rfl fun _ => rfl, waitsHere_parkDone (fun j hj => by cases hj) hteam, ?_, fun k v hv hk => ?_,
    hmem'.trans hmem⟩
  · rw [crew?, hcrews]
    exact hcrew
  · exact stopReq_conclude (P := fun j => crewOf j = crewOf c.key) rfl rfl hstop hv hk

/-- Settles O42: the checks look at the crew's own SUSPEND before they look at the operands; a first SUSPEND enters its record, asks
the crew's teams to stop and parks, a second one parks and goes on. -/
theorem suspendAsksTheCrew : Obligations.SuspendAsksTheCrew := by
  unfold Obligations.SuspendAsksTheCrew
  refine ⟨fun x s c w h hw hq htrunk hticket => ?first, fun x s c w h hw hq => ?second, fun x s c w h hw hq htrunk => ?trunk,
    fun x s c w h hw hq htrunk hticket => ?ticket⟩
  case first =>
    have hgate : suspendGate c s = .go := by
      rw [suspendGate_of_idle hw hq, if_neg (not_not_intro htrunk), if_neg (not_not_intro hticket)]
    obtain ⟨hparked, hwaits, hcrew, hstop, hmem⟩ := suspend_concluded (context_team h.1).1 hw (suspending c x.d.toNat s)
    exact ⟨_, _, (exec_of_gate_go (own := suspendGate) rfl h hgate).trans
      (congrArg (fun r => Host.Outcome.next (conclude c r)) (suspendEffect_of_idle hw hq x.d.toNat)), hparked, hwaits, hcrew,
      by rw [← hq], ⟨_, rfl, rfl, rfl, rfl⟩, hstop, hmem⟩
  case second =>
    have hx := team?_parkTeam h.1
    refine ⟨_, (exec_of_gate_go (own := suspendGate) rfl h (suspendGate_of_suspending hw hq)).trans
      (congrArg (fun r => Host.Outcome.next (conclude c r)) (suspendEffect_of_suspending hw hq x.d.toNat)),
      parked_parkDone hx rfl rfl noStatus_parked, goesOn_parkDone hx, (parkTeam_effect h.1).parkDone fun j hj => by cases hj⟩
  case trunk =>
    exact exec_of_gate_trap (own := suspendGate) rfl h ((suspendGate_of_idle hw hq).trans (if_pos htrunk))
  case ticket =>
    exact exec_of_gate_trap (own := suspendGate) rfl h
      ((suspendGate_of_idle hw hq).trans ((if_neg (not_not_intro htrunk)).trans (if_pos hticket)))

end Sys2Proof.Machine

/-! # System instructions (07 R136, R137, R139, R140, 12 R240) -/

namespace Sys2Proof.Machine

open Sys2Proof.Spec

/-! ## TLBI: what it drops stays dropped (07 R137, 12 R240) -/

section
variable {s : State} {c a : Nat} {p : TlbEntry → Bool}

/-- No cached translation of the device is one that a test picks. -/
def NoneCached (p : TlbEntry → Bool) (s : State) : Prop :=
  (∀ k, ∀ e ∈ (core s k).tlb, p e = false) ∧ ∀ k, ∀ e ∈ (cluster s k).tlb, p e = false

theorem NoneCached.settles {t : State} (h : NoneCached p s) (hst : Settles s t) : NoneCached p t :=
  ⟨fun k e he => h.1 k e (hst.cores k ▸ he), fun k e he => h.2 k e (hst.clusters k ▸ he)⟩

/-- A core, and a cluster, without the translations that a test picks. -/
def coreWithout (p : TlbEntry → Bool) (x : Core) : Core := { x with tlb := x.tlb.filter fun e => !p e }
def clusterWithout (p : TlbEntry → Bool) (x : Cluster) : Cluster := { x with tlb := x.tlb.filter fun e => !p e }

theorem noneCached_dropEntries (s : State) (p : TlbEntry → Bool) : NoneCached p (dropEntries s p) := by
  have hcore : ∀ k, core (dropEntries s p) k = coreWithout p (core s k) := fun k => getD_map (coreWithout p) s.cores k rfl
  have hcluster : ∀ k, cluster (dropEntries s p) k = clusterWithout p (cluster s k) := fun k =>
    getD_map (clusterWithout p) s.clusters k rfl
  refine ⟨fun k e he => ?_, fun k e he => ?_⟩
  · rw [hcore] at he
    simpa using (List.mem_filter.mp he).2
  · rw [hcluster] at he
    simpa using (List.mem_filter.mp he).2

/-- The stable words that go with a stable translation take no translation with them (10 R210). -/
theorem noneCached_dropTlb (s : State) (p : TlbEntry → Bool) (whole : Bool) : NoneCached p (dropTlb s p whole) := by
  have hdropped := noneCached_dropEntries s p
  unfold dropTlb
  dsimp only
  split
  · exact hdropped
  · split
    · exact hdropped.settles (settles_foldl settles_dropStable _ _)
    · exact hdropped.settles (settles_foldl (fun s _ => settles_foldl (fun s _ => settles_dropWords s ..) _ s) _ _)

theorem noneCached_invalidate (s : State) (c a : Nat) : NoneCached (virtualPage c a) (invalidate s c 0 a) :=
  noneCached_dropTlb _ _ _

theorem NoneCached.conclude {x : Ctx} {r : Done} (h : NoneCached p r.s) (hf : r.fail = none) (hp : r.post = none) :
    NoneCached p (Machine.conclude x r) := by
  obtain ⟨_, _, _, _, hcores, hclusters⟩ := conclude_device (c := x) hf hp
  refine ⟨fun k e he => h.1 k e ?_, fun k e he => h.2 k e ?_⟩
  · rwa [core, hcores] at he
  · rwa [cluster, hclusters] at he

end

/-! ## PARK (07 R139) -/

/-- A team that has left its core until a REPLAY of its identifier. -/
def parkedFor (fid : Nat) (t : Team) : Team := { t with place := none, saved := some (.handler fid), replayQ := [] }

/-- What PARK does, before its end. -/
def parkDoing (c : Ctx) (s : State) : Done :=
  { s := onTeam (voidTeamLatches s c.team) c.key (parkedFor (c.s 0).toNat), keep := true, yields := true }

theorem concluded_front_of_keep {c : Ctx} {r : Done} {x : Team} (hk : r.keep = true) : (concluded c r x).front = x.front := by
  have hfinished : (finished c r x).front = x.front := by rw [finished, if_pos hk]
  exact hfinished

theorem park_concluded {h : Shape} {c : Ctx} {s : State} (hc : context h s = some c) :
    ∃ u, team? (conclude c (parkDoing c s)) c.key = some u ∧ u.place = none ∧ u.saved = some (.handler (c.s 0).toNat) ∧
      u.front = c.team.front ∧ u.v = c.team.v ∧ u.s = c.team.s ∧ u.p = c.team.p := by
  have hx : team? (parkDoing c s).s c.key = some (parkedFor (c.s 0).toNat c.team) := by
    rw [parkDoing, team?_onTeam, if_pos rfl, (voidTeamLatches_kept _ _).2.2, (context_team hc).1]
    rfl
  obtain ⟨u, hu, hux⟩ := team?_concluded (c := c) (r := parkDoing c s) rfl rfl hx
  obtain ⟨hkept, hfront, _⟩ := unstinted_fields hux
  have hfields : u.kept = (parkedFor (c.s 0).toNat c.team).kept := hkept.trans concluded_kept
  exact ⟨u, hu, (congrArg Team.place hfields : u.kept.place = _), (congrArg Team.saved hfields : u.kept.saved = _),
    hfront.trans (concluded_front_of_keep rfl), (congrArg Team.v hfields : u.kept.v = _), (congrArg Team.s hfields : u.kept.s = _),
    (congrArg Team.p hfields : u.kept.p = _)⟩

theorem park_rest {h : Shape} {c : Ctx} {s : State} (hc : context h s = some c) : (conclude c (parkDoing c s)).kept = s.kept := by
  obtain ⟨_, _, _, _, hplace⟩ := context_team hc
  rw [conclude_rest rfl rfl, parkDoing, voidTeamLatches_of_place hplace]
  unfold onTeam
  split <;> rfl

/-! ## HALT (07 R136) -/

section
variable {s : State}

theorem settles_errStep (s : State) (c : Nat) : Settles s (errStep s c) := by
  unfold errStep
  dsimp only
  generalize hx : (if (decide ((comp s c).errStage.length < 64) && decide ((comp s c).errMerged ≠ 0)) = true then
    { comp s c with errStage := (comp s c).errStage ++ [{ code := 8, info := (comp s c).errMerged }], errMerged := 0 }
    else comp s c) = x
  have hdesc : x.desc = (comp s c).desc := by
    rw [← hx]
    split <;> rfl
  split
  · exact .refl s
  · split
    · have hmark : ∀ ipa, Settles s (markIpa s c ipa true) := fun _ => settles_markIpa ..
      split
      · have hwritten := fun ipa pa bs => (hmark ipa).trans (settles_writeOut _ (compKey (markIpa s c ipa true) c) pa bs)
        exact (hwritten _ _ _).trans (settles_setComp (hdesc.trans ((hwritten _ _ _).comps c).symm))
      · exact hmark _
    · exact .refl s

theorem settles_pushErr (s : State) (c : Nat) (r : ErrRecord) : Settles s (pushErr s c r) := by
  unfold pushErr
  dsimp only
  refine Settles.trans (settles_setComp ?_) (settles_foldl (fun s _ => settles_errStep s c) _ _)
  split <;> rfl

theorem comp_conclude {c : Ctx} {r : Done} (hf : r.fail = none) (hp : r.post = none) (k : Nat) :
    comp (conclude c r) k = comp r.s k := by
  obtain ⟨_, _, _, hcomps, _⟩ := conclude_device (c := c) hf hp
  rw [comp, hcomps, comp]

theorem comp_haltComp (s : State) (c info : Nat) : (comp (haltComp s c info) c).desc.state = 4 := by
  unfold haltComp haltWith
  dsimp only
  rw [(settles_pushErr ..).comps, (settles_foldl (fun s _ => settles_setRegionState s ..) _ _).comps, comp_setComp, if_pos rfl]

end

/-! ## SCALL (07 R140) -/

section
variable {c : Ctx} {s : State} {k : Nat}

theorem scallEffect_of_level {k : Nat} (hlevel : c.team.level = 0) :
    scallEffect k c s = { s := s, post := some { cause := 0xF, tpc := c.cur.pc, kval := k, service := true } } := by
  rw [scallEffect, if_pos hlevel]

theorem scallEffect_of_unknown (hlevel : c.team.level = 1) (hk : k ≠ 48) (hentry : Tab.getD s.services k 0 = 0) :
    scallEffect k c s = { s := serviceEnds (releaseAt s c.place.core 6) c.key c.place.core [0xFFFFFFFF] } := by
  have hentry' : Tab.getD (releaseAt s c.place.core 6).services k 0 = 0 := by rw [(settles_releaseAt ..).services, hentry]
  rw [scallEffect, if_neg (by omega)]
  dsimp only
  rw [if_neg hk, if_pos hentry']

theorem scallEffect_of_known (hlevel : c.team.level = 1) (hk : k ≠ 48) (hentry : Tab.getD s.services k 0 ≠ 0) :
    ∃ out, scallEffect k c s = { s := { releaseAt s c.place.core 6 with out := out }, moves := some (c.waitHere (.service k)) } := by
  have hentry' : Tab.getD (releaseAt s c.place.core 6).services k 0 ≠ 0 := by rwa [(settles_releaseAt ..).services]
  rw [scallEffect, if_neg (by omega)]
  dsimp only
  rw [if_neg hk, if_neg hentry']
  exact ⟨_, rfl⟩

theorem coresOnly_acquireAt (s : State) (k scope : Nat) : CoresOnly s (acquireAt s k scope) := by
  unfold acquireAt
  split
  · exact coresOnly_foldl (fun s _ => coresOnly_setCore s _ _) _ s
  · exact .refl s

/-- The answer of a service stands in s0 once its SCALL has concluded. -/
theorem service_answered {x : Team} {u : State} {w : Word} (hx : team? u c.key = some x) :
    ∃ y, team? (conclude c { s := serviceEnds u c.key k [w] }) c.key = some y ∧ Team.scalar y 0 = w := by
  have hteam : team? (serviceEnds u c.key k [w]) c.key = some (Team.setScalars x 0 [w]) := by
    rw [serviceEnds, (coresOnly_acquireAt ..).team?, team?_onTeam, if_pos rfl, hx]
    rfl
  obtain ⟨y, hy, hkept, _⟩ := (conclude_concludes c { s := serviceEnds u c.key k [w] } rfl rfl (fun _ he => by cases he)).own _ hteam
  refine ⟨y, hy, ?_⟩
  rw [scalar_kept hkept, scalar_setScalars]
  rfl

end

/-- Settles O44: each of them concludes as what it does to the device; a TLBI's drop outlives what follows it, and a HALT's state the
record of it. -/
theorem systemInstructions : Obligations.SystemInstructions := by
  unfold Obligations.SystemInstructions
  refine ⟨fun x s c h => ?replay, fun x s c h hgate => ?tlbi, fun x s c h hdrained => ?park, fun x s c h => ?halt,
    fun x s c h hlevel => ?trap, fun x s c h hlevel hgate => ?scall⟩
  case replay =>
    refine ⟨_, exec_of_gate_go (own := fun _ _ => .go) rfl h rfl, fun hzero => ?_, rfl⟩
    exact nothingWritten_conclude (context_team h.1).1 (if_pos hzero) rfl rfl (fun _ he => by cases he)
  case tlbi =>
    refine ⟨_, exec_of_gate_go (own := tlbiGate x) rfl h hgate, rfl, fun hb => ?_⟩
    have hdropped := (noneCached_invalidate (endFlush s c) c.team.comp (c.pair 0 % 2 ^ 57)).conclude (x := c)
      (r := { s := invalidate (endFlush s c) c.team.comp 0 (c.pair 0 % 2 ^ 57) }) rfl rfl
    rw [tlbiAt, if_pos hb, hb]
    exact hdropped
  case park =>
    obtain ⟨u, hu, hplace, hsaved, hfront, hv, hs, hp⟩ := park_concluded h.1
    have hgate : parkGate c s = .go := by rw [parkGate, hdrained, if_neg Bool.false_ne_true]
    exact ⟨_, u, exec_of_gate_go (own := parkGate) rfl h hgate, hu, hplace, hsaved, hfront, hv, hs, hp, park_rest h.1,
      (conclude_yields rfl rfl rfl).1⟩
  case halt =>
    refine ⟨_, exec_of_gate_go (own := fun _ _ => .go) rfl h rfl, rfl, ?_⟩
    rw [comp_conclude rfl rfl]
    dsimp only
    exact comp_haltComp s c.team.comp (c.s 0).toNat
  case trap =>
    obtain ⟨u, hu, htrap⟩ := softTrap_taken (i := { cause := 0xF, tpc := c.cur.pc, kval := x.b.toNat, service := true }) (context_team h.1).1
    have hgate : scallGate c s = .go := by rw [scallGate, if_pos hlevel]
    refine ⟨u, hu, (exec_of_gate_go (own := scallGate) rfl h hgate).trans ?_⟩
    rw [scallEffect_of_level hlevel, htrap]
  case scall =>
    obtain ⟨y, hy, _⟩ := (settles_releaseAt s c.place.core 6).stays (context_team h.1).1
    have hne : x.b ≠ 48 → x.b.toNat ≠ 48 := fun hb hn => hb (BitVec.eq_of_toNat_eq hn)
    refine ⟨_, exec_of_gate_go (own := scallGate) rfl h hgate, rfl, fun hb hentry => ?_, fun hb hentry => ?_⟩
    · rw [scallEffect_of_unknown hlevel (hne hb) hentry]
      exact service_answered hy
    · obtain ⟨out, heffect⟩ := scallEffect_of_known hlevel (hne hb) hentry
      rw [heffect]
      exact waitsHere_conclude (fun j hj => by cases hj) rfl rfl rfl rfl hy

end Sys2Proof.Machine

/-! # The functions of the atomics (08 R152, R155) -/

namespace Sys2Proof.Machine

open Sys2Proof.Spec

theorem atomNew_min_signed (m x : Word) (k : Nat) : atomNew 2 m.toNat x.toNat k = (if x.slt m then x else m).toNat := by
  simp only [atomNew, BitVec.ofNat_toNat, BitVec.setWidth_eq, BitVec.slt, decide_eq_true_eq, apply_ite BitVec.toNat]

theorem atomNew_max_signed (m x : Word) (k : Nat) : atomNew 3 m.toNat x.toNat k = (if m.slt x then x else m).toNat := by
  simp only [atomNew, BitVec.ofNat_toNat, BitVec.setWidth_eq, BitVec.slt, decide_eq_true_eq, apply_ite BitVec.toNat]

theorem atomNew_min_unsigned (m x : Word) (k : Nat) : atomNew 4 m.toNat x.toNat k = (if x < m then x else m).toNat := by
  have : atomNew 4 m.toNat x.toNat k = min m.toNat x.toNat := rfl
  rw [this, apply_ite BitVec.toNat]
  simp only [BitVec.lt_def]
  split <;> omega

theorem atomNew_max_unsigned (m x : Word) (k : Nat) : atomNew 5 m.toNat x.toNat k = (if m < x then x else m).toNat := by
  have : atomNew 5 m.toNat x.toNat k = max m.toNat x.toNat := rfl
  rw [this, apply_ite BitVec.toNat]
  simp only [BitVec.lt_def]
  split <;> omega

/-- Settles O34: the word operations are those of bit vectors, and a decrement stops at zero. -/
theorem atomicFunctions : Obligations.AtomicFunctions := by
  unfold Obligations.AtomicFunctions
  refine ⟨fun m x k => ⟨(BitVec.toNat_add m x).symm, (BitVec.toNat_add m x).symm, atomNew_min_signed m x k, atomNew_max_signed m x k,
    atomNew_min_unsigned m x k, atomNew_max_unsigned m x k, (BitVec.toNat_and m x).symm, (BitVec.toNat_or m x).symm,
    (BitVec.toNat_xor m x).symm, rfl, ?wrap, ?stop⟩, fun m x cmp => ⟨rfl, rfl, rfl, rfl, rfl, rfl, rfl, rfl⟩⟩
  case wrap => simp only [atomNew, BitVec.le_def]
  case stop =>
    split
    · rename_i hzero
      rw [hzero]
      rfl
    · rfl

end Sys2Proof.Machine

/-! # What a completed operation writes (08 R146, R148, R152, 02 R16) -/

namespace Sys2Proof.Machine

open Sys2Proof.Spec

/-- A lane of a group of registers after a write of it; its register 124, if it has one, takes nothing (02 R14). -/
theorem reg_setRegs_any (n : Nat) (t : Team) (d r l : Nat) (act : Word) (f : Nat → Nat → Cell) (hl : l < 32) :
    Team.reg ((List.range n).foldl (fun t j => Team.setReg t (d + j) act (f j)) t) r l =
      if r ≠ 124 ∧ d ≤ r ∧ r < d + n ∧ act.getLsbD l = true then f (r - d) l else Team.reg t r l := by
  induction n with
  | zero =>
    rw [if_neg (by omega)]
    rfl
  | succ n ih =>
    rw [List.range_succ, List.foldl_append, List.foldl_cons, List.foldl_nil, reg_setReg _ _ _ _ _ _ hl, ih]
    by_cases hr : d + n = r
    · subst hr
      rw [Nat.add_sub_cancel_left, if_neg (c := _ ∧ _ ∧ _ ∧ _) (fun h => absurd h.2.2.1 (lt_irrefl _))]
      exact if_congr ⟨fun h => ⟨h.2.1, by omega, by omega, h.2.2⟩, fun h => ⟨rfl, h.1, h.2.2.2⟩⟩ rfl rfl
    · rw [if_neg (fun h => hr h.1)]
      exact if_congr ⟨fun h => ⟨h.1, h.2.1, by omega, h.2.2.2⟩, fun h => ⟨h.1, h.2.1, by omega, h.2.2.2⟩⟩ rfl rfl

/-- Extending the low bits of a number by their sign is the sign extension of the vector that they make. -/
theorem ofNat_sextNat (v : Nat) {n m : Nat} (hn : 0 < n) (hnm : n ≤ m) :
    BitVec.ofNat m (Bits.sextNat v n m) = (BitVec.ofNat n v).signExtend m := by
  refine BitVec.eq_of_getLsbD_eq fun k hk => ?_
  rw [BitVec.getLsbD_ofNat, sextNat_testBit hn hnm hk, BitVec.getLsbD_signExtend, BitVec.msb_eq_getLsbD_last]
  simp only [BitVec.getLsbD_ofNat, hk, decide_true, Bool.true_and]
  split
  · rename_i h
    rw [min_eq_left (by omega), decide_eq_true h, Bool.true_and]
  · rw [min_eq_right (by omega), decide_eq_true (by omega), Bool.true_and]

/-- The team once a completed operation has written its `n` registers from `t`. -/
def MemOp.filled (o : MemOp) (t n : Nat) (u : Team) : Team :=
  if t = 124 then u else (List.range n).foldl (fun x j => Team.setReg x (t + j) o.issue.mask (o.cell j)) u

section
variable {s : State} {o : MemOp} {t n : Nat} {u : Team}

theorem MemOp.reg_filled (r : Nat) {l : Nat} (hl : l < 32) : Team.reg (o.filled t n u) r l =
    if t ≠ 124 && r ≠ 124 && t ≤ r && r < t + n && o.issue.mask.getLsbD l then o.cell (r - t) l else Team.reg u r l := by
  unfold MemOp.filled
  split
  · rename_i ht
    simp [ht]
  · rename_i ht
    rw [reg_setRegs_any _ _ _ _ _ _ _ hl]
    simp [ht, and_assoc]

theorem MemOp.filled_eq : o.filled t n u = { u with v := (o.filled t n u).v } := by
  unfold MemOp.filled
  split
  · rfl
  · generalize List.range n = js
    induction js generalizing u with
    | nil => rfl
    | cons j r ih =>
      rw [List.foldl_cons, ih]
      unfold Team.setReg
      split <;> rfl

/-- The lanes of a completed operation's result of one register, as they enter b0. -/
def MemOp.lanes (o : MemOp) : Lanes := laneList.map fun i => if o.issue.mask.getLsbD i then o.cell 0 i else {}

/-- The state once the registers have been written, before the latch. -/
def MemOp.fillTeam (o : MemOp) (t n : Nat) (s : State) : State :=
  if t = 124 then s else onTeam s o.team fun x => (List.range n).foldl (fun x j => Team.setReg x (t + j) o.issue.mask (o.cell j)) x

theorem team?_fillTeam (hu : team? s o.team = some u) : team? (o.fillTeam t n s) o.team = some (o.filled t n u) := by
  unfold MemOp.fillTeam MemOp.filled
  split
  · exact hu
  · rw [team?_onTeam, if_pos rfl, hu, Option.map_some]

theorem bench_fillTeam (b : Nat) : bench (o.fillTeam t n s) b = bench s b := by
  unfold MemOp.fillTeam
  split
  · rfl
  · exact bench_onTeam ..

theorem writeOp_of_result (h : o.result = some (t, n)) (hu : team? s o.team = some u) : writeOp s o =
    match u.place with
    | some p => if n = 1 then setBench (o.fillTeam t n s) p.benchNo (pushLatch (bench s p.benchNo) o.lanes) else o.fillTeam t n s
    | none => o.fillTeam t n s := by
  have hplace : (team? (o.fillTeam t n s) o.team).bind (·.place) = u.place := by
    rw [team?_fillTeam hu, Option.bind_some, MemOp.filled_eq]
  unfold writeOp
  rw [h]
  dsimp only
  rw [show (if t = 124 then s else _) = o.fillTeam t n s from rfl, hplace]
  simp only [bench_fillTeam]
  rfl

theorem team?_writeOp (h : o.result = some (t, n)) (hu : team? s o.team = some u) :
    team? (writeOp s o) o.team = some (o.filled t n u) := by
  rw [writeOp_of_result h hu]
  split
  · split
    · exact team?_fillTeam hu
    · exact team?_fillTeam hu
  · exact team?_fillTeam hu

theorem bench_writeOp {p : Place} (h : o.result = some (t, n)) (hu : team? s o.team = some u) (hp : u.place = some p) :
    bench (writeOp s o) p.benchNo = if n = 1 then pushLatch (bench s p.benchNo) o.lanes else bench s p.benchNo := by
  rw [writeOp_of_result h hu, hp]
  dsimp only
  split
  · rw [bench_setBench, if_pos rfl]
  · exact bench_fillTeam ..

/-- Pushing a result moves the first three latches on. -/
theorem latch_pushLatch_succ (b : Bench) (lanes : Lanes) {k : Nat} (hk : k < 3) : latch (pushLatch b lanes) (k + 1) = latch b k := by
  interval_cases k <;> rfl

end

/-- Settles O33: the team is the one whose registers the operation fills, and the bench one that a single register's lanes enter. -/
theorem loadedRegisters : Obligations.LoadedRegisters := by
  unfold Obligations.LoadedRegisters
  intro s o t n h u hu
  have hfilled := MemOp.filled_eq (o := o) (t := t) (n := n) (u := u)
  refine ⟨_, team?_writeOp h hu, fun r l hl => MemOp.reg_filled r hl, by rw [hfilled], by rw [hfilled], by rw [hfilled],
    fun p hp => ⟨fun hn => ⟨fun l hl => ?lanes, ?valid, fun k hk => ?moved⟩, fun hn => ?wide⟩, ?signed, ?plain, ?atomic⟩
  case lanes =>
    rw [bench_writeOp h hu hp, if_pos hn]
    exact laneList_get (fun i => if o.issue.mask.getLsbD i then o.cell 0 i else {}) _ l hl
  case valid =>
    rw [bench_writeOp h hu hp, if_pos hn]
    rfl
  case moved => rw [bench_writeOp h hu hp, if_pos hn, latch_pushLatch_succ _ _ hk]
  case wide => rw [bench_writeOp h hu hp, if_neg hn]
  case signed =>
    intro size tag hkind hpos hle l
    unfold MemOp.cell
    rw [hkind]
    exact ofNat_sextNat _ (by omega) (by omega)
  case plain =>
    intro size tag hkind j l
    unfold MemOp.cell
    rw [hkind]
    exact ⟨rfl, rfl⟩
  case atomic =>
    intro code old tag hkind j l
    unfold MemOp.cell
    rw [hkind]
    exact ⟨rfl, rfl⟩

end Sys2Proof.Machine

/-! # Scratchpad accesses (08 R150, 03 R43) -/

namespace Sys2Proof.Machine

open Sys2Proof.Spec

/-! ## Little-endian bytes (01 R10) -/

@[simp] theorem leBytes_length (n v : Nat) : (Bits.leBytes n v).length = n := by
  induction n generalizing v with
  | zero => rfl
  | succ n ih => rw [Bits.leBytes, List.length_cons, ih]

theorem leBytes_getD {n j : Nat} (v : Nat) (hj : j < n) : (Bits.leBytes n v).getD j 0 = BitVec.ofNat 8 (v / 2 ^ (8 * j)) := by
  induction n generalizing v j with
  | zero => omega
  | succ n ih =>
    cases j with
    | zero => simp [Bits.leBytes]
    | succ j =>
      rw [Bits.leBytes, List.getD_cons_succ, ih _ (by omega), Nat.div_div_eq_div_mul]
      rw [show 256 * 2 ^ (8 * j) = 2 ^ (8 * (j + 1)) by rw [Nat.mul_succ, Nat.add_comm, pow_add]; rfl]

theorem words_length (f : Nat → Nat) (n : Nat) : ((List.range n).flatMap fun j => Bits.leBytes 4 (f j)).length = 4 * n := by
  induction n with
  | zero => rfl
  | succ n ih =>
    rw [List.range_succ, List.flatMap_append, List.length_append, ih]
    simp
    omega

/-- A byte of some words stored one behind the other. -/
theorem words_getD (f : Nat → Nat) {n j : Nat} (hj : j < 4 * n) :
    ((List.range n).flatMap fun i => Bits.leBytes 4 (f i)).getD j 0 = BitVec.ofNat 8 (f (j / 4) / 2 ^ (8 * (j % 4))) := by
  induction n with
  | zero => omega
  | succ n ih =>
    rw [List.range_succ, List.flatMap_append]
    have hlen := words_length f n
    by_cases h : j < 4 * n
    · rw [List.getD_append _ _ _ _ (by omega), ih h]
    · rw [List.getD_append_right _ _ _ _ (by omega), hlen, List.flatMap_cons, List.flatMap_nil, List.append_nil,
        leBytes_getD _ (by omega), show j / 4 = n by omega, show j - 4 * n = j % 4 by omega]

theorem scratchAt_eq (c : Ctx) (l : Nat) : c.scratchAt l = scratchOffset c l := rfl

/-! ## The bytes of a store (08 R146) -/

theorem storeBytes_length (c : Ctx) (size l : Nat) : (c.storeBytes false size l).length = size := by
  show (List.take _ _).length = _
  rw [List.length_take, words_length, ceilDiv]
  omega

theorem storeBytes_getD (c : Ctx) {size j : Nat} (l : Nat) (hj : j < size) : (c.storeBytes false size l).getD j 0 =
    BitVec.ofNat 8 ((c.v 2 (j / 4) l).val.toNat / 2 ^ (8 * (j % 4))) := by
  have hwords := words_getD (fun i => (c.v 2 i l).val.toNat) (n := ceilDiv size 4) (j := j) (by rw [ceilDiv]; omega)
  show (List.take _ _).getD _ _ = _
  rw [List.getD_eq_getElem?_getD, List.getElem?_take_of_lt hj, ← List.getD_eq_getElem?_getD]
  exact hwords

/-- A byte of a memory to which some lanes have stored `n` bytes each: the last that covers it gives it. -/
theorem memByte_foldl_memWrite {at' : Nat → Nat} {bytes : Nat → List Byte} {n : Nat} (hlen : ∀ l, (bytes l).length = n)
    (ls : List Nat) (m : List Host.Cell) (a : Nat) :
    memByte (ls.foldl (fun m l => memWrite m (at' l) (bytes l)) m) a =
      ((ls.reverse.find? fun l => at' l ≤ a && a < at' l + n).map fun l => (bytes l).getD (a - at' l) 0).getD (memByte m a) := by
  induction ls using List.reverseRecOn with
  | nil => rfl
  | append_singleton ls l ih =>
    rw [List.foldl_append, List.foldl_cons, List.foldl_nil, memByte_memWrite, hlen, ih, List.reverse_append, List.reverse_singleton,
      List.singleton_append]
    by_cases h : at' l ≤ a ∧ a < at' l + n
    · rw [if_pos h, List.find?_cons_of_pos (by simpa using h)]
      rfl
    · rw [if_neg h, List.find?_cons_of_neg (by simpa using h)]

theorem memByte_stored (c : Ctx) (n : Nat) (m : List Host.Cell) (a : Nat) :
    memByte ((lanesOf c.act).foldl (fun m l => memWrite m (c.scratchAt l) (c.storeBytes false n l)) m) a = scratchByte c n m a := by
  refine (memByte_foldl_memWrite (at' := scratchOffset c) (storeBytes_length c n) _ m a).trans ?_
  unfold scratchByte
  cases h : (lanesOf c.act).reverse.find? fun l => scratchOffset c l ≤ a && a < scratchOffset c l + n with
  | none => rfl
  | some l =>
    have hcovers : a - scratchOffset c l < n := by
      have := List.find?_some h
      simp only [Bool.and_eq_true, decide_eq_true_eq] at this
      omega
    exact storeBytes_getD c l hcovers

/-! ## The checks (08 R150) -/

section
variable {c : Ctx} {s : State} {n : Nat} {write : Bool}

theorem scratchGate_align {l : Nat} (h : (lanesOf c.act).find? (fun l => scratchOffset c l % n ≠ 0) = some l) :
    scratchGate n write c s = .trap { cause := 6, flane := l, faddr := scratchOffset c l, scratch := true } := by
  have hfirst : c.firstLane (fun i => c.scratchAt i % n ≠ 0) = some l := h
  simp only [scratchGate, hfirst]
  rfl

theorem firstLane_eq_none {p : Nat → Bool} (h : ∀ l ∈ lanesOf c.act, p l = false) : c.firstLane p = none :=
  List.find?_eq_none.mpr fun l hl => by rw [h l hl]; exact Bool.false_ne_true

theorem scratchGate_addr {l : Nat} (halign : ∀ l ∈ lanesOf c.act, scratchOffset c l % n = 0)
    (h : (lanesOf c.act).find? (fun l => scratchBytes s (crewOf c.key) < scratchOffset c l + n) = some l) :
    scratchGate n write c s = .trap { cause := 8, flane := l, faddr := scratchOffset c l, scratch := true } := by
  have haligned : c.firstLane (fun i => c.scratchAt i % n ≠ 0) = none :=
    firstLane_eq_none fun l hl => by simp [scratchAt_eq, halign l hl]
  have hfirst : c.firstLane (fun i => scratchBytes s (crewOf c.key) < c.scratchAt i + n) = some l := h
  simp only [scratchGate, haligned, hfirst]
  rfl

/-- Accesses that fit go on once the older acquires have been performed, unless a load meets a word that is lost (12 R244). -/
theorem scratchGate_go (hfit : ScratchFits s c n write) (hacq : acquiring s c.key = false)
    (hfailing : write = false → ∀ w, crew? s (crewOf c.key) = some w → w.failing = []) : scratchGate n write c s = .go := by
  have haligned : c.firstLane (fun i => c.scratchAt i % n ≠ 0) = none :=
    firstLane_eq_none fun l hl => by simp [scratchAt_eq, (hfit l hl).1]
  have hinside : c.firstLane (fun i => scratchBytes s (crewOf c.key) < c.scratchAt i + n) = none :=
    firstLane_eq_none fun l hl => decide_eq_false (Nat.not_lt.mpr (hfit l hl).2.1)
  have hopen : c.firstLane (fun i => lockHit s c.key (c.place.core / 4) (some (crewOf c.key)) write (c.scratchAt i) n) = none :=
    firstLane_eq_none fun l hl => (hfit l hl).2.2
  have hwhole : c.firstLane (fun i => !write && ((crew? s (crewOf c.key)).map (·.failing)).any fun l =>
      (wordsOf (c.scratchAt i) n).any l.contains) = none := by
    refine firstLane_eq_none fun l _ => ?_
    cases write with
    | true => rfl
    | false =>
      cases hw : crew? s (crewOf c.key) with
      | none => rfl
      | some w => simp [hfailing rfl w hw]
  simp only [scratchGate, haligned, hinside, hopen, hwhole, acquireGate, hacq, Bool.false_eq_true, if_false]

end

/-! ## An instruction that changes its crew alone -/

/-- The end of an instruction that has changed its crew: only the fields that `w` blanks differ. -/
theorem crewFrame_conclude {c : Ctx} {s : State} {w F : Crew → Crew} (ht : team? s c.key = some c.team) (hF : ∀ x, w (F x) = w x) :
    CrewFrame w c s (conclude c { s := onCrew s (crewOf c.key) F }) := by
  have hconc := conclude_concludes c { s := onCrew s (crewOf c.key) F } rfl rfl (fun _ he => by cases he)
  have hcrew : ∀ k, crew? (conclude c { s := onCrew s (crewOf c.key) F }) k = crew? (onCrew s (crewOf c.key) F) k := fun k => by
    rw [crew?, (conclude_device rfl rfl).2.1, crew?]
  refine ⟨?rest, fun k hk => ?crews, ?crew, fun k hk => ?others, ?own, fun b hb => ?benches⟩
  case rest =>
    rw [hconc.rest]
    unfold onCrew
    split <;> rfl
  case crews => rw [hcrew, crew?_onCrew, if_neg (Ne.symm hk)]
  case crew =>
    rw [hcrew, crew?_onCrew, if_pos rfl, Option.map_map]
    exact congrFun (congrArg Option.map (funext hF)) _
  case others => rw [hconc.others k hk, team?_onCrew]
  case own => exact hconc.own c.team ((team?_onCrew ..).trans ht)
  case benches => rw [hconc.benches b hb, bench_onCrew]

/-! ## LDS -/

/-- The sizes that a code gives, and the codes that extend by the sign (03 R43). -/
theorem scratchSize_cases (sco : BitVec 3) : 0 < scratchSize sco ∧
    (4 ≤ scratchSize sco → (sco = 1 || sco = 3) = false) ∧
    (sco ≠ 7 → 4 < scratchSize sco → Shape.scratchRegs sco = scratchSize sco / 4) := by
  revert sco
  decide

/-- What LDS brings to register j of a lane. -/
def ldsCell (x : MF) (c : Ctx) (s : State) (j l : Nat) : Cell :=
  ⟨loadedWord (memLe (scratchOf s (crewOf c.key)) (c.scratchAt l) (scratchSize x.sco)) (scratchSize x.sco) j (x.sco = 1 || x.sco = 3),
    if scratchSize x.sco < 4 then 63 else if scratchSize x.sco = 4 then 24 else 53⟩

def ldsEffect (x : MF) (c : Ctx) (s : State) : Done :=
  if scratchSize x.sco ≤ 4 then { s := writeVector c (ldsCell x c s 0) s }
  else { s := writeGroup c (scratchSize x.sco / 4) (ldsCell x c s) s }

theorem exec_lds (x : MF) (s : State) : exec (.lds x) s =
    performPriv (Instr.shape (.lds x)) (privOf (.lds x)) (scratchGate (scratchSize x.sco) false) (ldsEffect x) s := rfl

section
variable {x : MF} {c : Ctx} {s : State}

theorem lds_go (h : Ready (.lds x) s c) (hfit : ScratchFits s c (scratchSize x.sco) false) (hacq : acquiring s c.key = false)
    (hwhole : ∀ w, crew? s (crewOf c.key) = some w → w.failing = []) : exec (.lds x) s = .next (conclude c (ldsEffect x c s)) :=
  exec_of_gate_go (exec_lds x s) h (scratchGate_go hfit hacq fun _ => hwhole)

/-- The word of a lane that LDS extends or takes as it is (08 R146). -/
theorem ldsCell_narrow (h : scratchSize x.sco < 4) (l : Nat) : ldsCell x c s 0 l =
    ⟨if x.sco = 1 || x.sco = 3 then (BitVec.ofNat (8 * scratchSize x.sco) (memLe (scratch s c) (scratchOffset c l)
          (scratchSize x.sco))).signExtend 32
      else BitVec.ofNat 32 (memLe (scratch s c) (scratchOffset c l) (scratchSize x.sco)), 63⟩ := by
  have hpos := (scratchSize_cases x.sco).1
  unfold ldsCell loadedWord
  rw [if_pos h, ofNat_sextNat _ (by omega) (by omega), Nat.mul_zero, pow_zero, Nat.div_one]
  rfl

theorem ldsCell_wide (h : 4 ≤ scratchSize x.sco) (j l : Nat) : ldsCell x c s j l =
    ⟨BitVec.ofNat 32 (memLe (scratch s c) (scratchOffset c l) (scratchSize x.sco) / 2 ^ (32 * j)), if scratchSize x.sco = 4 then 24 else 53⟩ := by
  have hsigned := (scratchSize_cases x.sco).2.1 h
  unfold ldsCell
  rw [hsigned, if_neg (show ¬ scratchSize x.sco < 4 by omega)]
  rfl

/-- A load of one register per lane enters b0 as well (02 R16). -/
theorem lds_lane (ht : team? s c.key = some c.team) (h : scratchSize x.sco ≤ 4) :
    LaneResult c (ldsCell x c s 0) s (conclude c (ldsEffect x c s)) := by
  rw [ldsEffect, if_pos h]
  exact lane_result ht

theorem lds_group (h : Ready (.lds x) s c) (hwide : 4 < scratchSize x.sco) :
    GroupWritten c (scratchSize x.sco / 4) (ldsCell x c s) (conclude c (ldsEffect x c s)) ∧
      LatchesKept c s (conclude c (ldsEffect x c s)) ∧ Frame Team.sansV c s (conclude c (ldsEffect x c s)) := by
  have hlegal : x.sco ≠ 7 := by
    have hshape := (checks_ok h.2).1
    rw [(context_team h.1).2.1] at hshape
    rintro hseven
    simp [Instr.shape, Shape.lds, Shape.r53Ok, hseven] at hshape
  have hvd : ∃ d, (Instr.shape (.lds x)).vd = some (d, scratchSize x.sco / 4) :=
    ⟨_, by rw [← (scratchSize_cases x.sco).2.2 hlegal hwide]; rfl⟩
  obtain ⟨heffect, hgroup, hbench⟩ := writeGroup_result (f := ldsCell x c s) (context_team h.1).1 (group_fits hvd h)
  rw [ldsEffect, if_neg (by omega)]
  have hconc := conclude_concludes c { s := writeGroup c (scratchSize x.sco / 4) (ldsCell x c s) s } rfl rfl (fun _ he => by cases he)
  exact ⟨hgroup.concludes hconc, .concludes hbench hconc, heffect.concludes hconc⟩

end

/-! ## STS -/

/-- The crew once the active lanes have stored their bytes, and mended the words that they have replaced whole (12 R244). -/
def stored (c : Ctx) (n : Nat) (w : Crew) : Crew :=
  { w with
    scratch := (lanesOf c.act).foldl (fun m i => memWrite m (c.scratchAt i) (c.storeBytes false n i)) w.scratch
    failing := w.failing.filter fun x => !(lanesOf c.act).any fun i => c.scratchAt i ≤ 4 * x && 4 * x + 4 ≤ c.scratchAt i + n }

theorem exec_sts (x : MF) (s : State) : exec (.sts x) s =
    performPriv (Instr.shape (.sts x)) (privOf (.sts x)) (scratchGate (scratchSize x.sco) true)
      (fun c s => { s := onCrew s (crewOf c.key) (stored c (scratchSize x.sco)) }) s := rfl

theorem scratch_conclude {c : Ctx} {s : State} {w : Crew} (hw : crew? s (crewOf c.key) = some w) (F : Crew → Crew) :
    scratch (conclude c { s := onCrew s (crewOf c.key) F }) c = (F w).scratch := by
  rw [scratch, crew?, (conclude_device rfl rfl).2.1, ← crew?, crew?_onCrew, if_pos rfl, hw]
  rfl

/-- Settles O35: a load is a lane result or a group of what the scratchpad holds; of the lanes that store a byte, the last gives it. -/
theorem scratchpadAccesses : Obligations.ScratchpadAccesses := by
  unfold Obligations.ScratchpadAccesses
  refine ⟨fun x s c h hfit hacq hwhole => ⟨_, lds_go h hfit hacq hwhole, fun hn => ?narrow, fun hn => ?word, fun hn => ?wide⟩,
    fun x s c w h hw hfit hacq => ⟨_, exec_of_gate_go (exec_sts x s) h (scratchGate_go hfit hacq fun hf => by cases hf), ?latches, ?frame,
      fun a => ?bytes⟩, fun i x hi s c l h => ?traps⟩
  case narrow => exact (lds_lane (context_team h.1).1 (by omega)).ext fun l => (ldsCell_narrow hn l).symm
  case word =>
    refine (lds_lane (context_team h.1).1 (by omega)).ext fun l => ?_
    rw [ldsCell_wide (by omega), if_pos hn, Nat.mul_zero, pow_zero, Nat.div_one]
  case wide =>
    have hcells : (fun j l => (⟨BitVec.ofNat 32 (memLe (scratch s c) (scratchOffset c l) (scratchSize x.sco) / 2 ^ (32 * j)), 53⟩ : Cell)) =
        ldsCell x c s := by
      funext j l
      rw [ldsCell_wide (by omega), if_neg (by omega)]
    rw [hcells]
    exact lds_group h hn
  case latches => exact conclude_latchesKept rfl rfl fun k => bench_onCrew ..
  case frame => exact crewFrame_conclude (context_team h.1).1 fun _ => rfl
  case bytes =>
    have hscratch : scratch s c = w.scratch := by rw [scratch, hw]; rfl
    rw [scratch_conclude hw, hscratch]
    exact memByte_stored c _ _ a
  case traps =>
    obtain rfl | rfl := hi
    · exact ⟨fun hl => exec_of_gate_trap (exec_lds x s) h (scratchGate_align hl),
        fun halign hl => exec_of_gate_trap (exec_lds x s) h (scratchGate_addr halign hl)⟩
    · exact ⟨fun hl => exec_of_gate_trap (exec_sts x s) h (scratchGate_align hl),
        fun halign hl => exec_of_gate_trap (exec_sts x s) h (scratchGate_addr halign hl)⟩

end Sys2Proof.Machine

/-! # The traps of accesses and of tiles (08 R141, 09 R353) -/

namespace Sys2Proof.Machine

open Sys2Proof.Spec

/-! ## The checks of an access (08 R141) -/

/-- The accesses of some lanes, each word before its shadow byte. -/
theorem find?_misaligned (m : Access) (c : Ctx) (ls : List Nat) :
    (ls.flatMap fun i => (⟨i, c.address i, m.size⟩ : Acc) :: if m.shadow then [⟨i, c.shadowAt i, 1⟩] else []).find?
        (fun a => a.size = m.size && a.va % m.size ≠ 0) =
      (ls.find? fun l => c.address l % m.size ≠ 0).map fun l => ⟨l, c.address l, m.size⟩ := by
  induction ls with
  | nil => rfl
  | cons l ls ih =>
    have hshadow : (if m.shadow then [(⟨l, c.shadowAt l, 1⟩ : Acc)] else []).find? (fun a => a.size = m.size && a.va % m.size ≠ 0) = none := by
      refine List.find?_eq_none.mpr fun a ha => ?_
      obtain rfl : a = ⟨l, c.shadowAt l, 1⟩ := by
        split at ha
        · exact List.mem_singleton.mp ha
        · cases ha
      by_cases hone : 1 = m.size
      · simp [← hone, Nat.mod_one]
      · simp [hone]
    rw [List.flatMap_cons, List.cons_append, List.find?_cons, List.find?_cons, List.find?_append, hshadow, Option.none_or, ih]
    by_cases h : c.address l % m.size = 0
    · simp [h]
    · simp [h]

section
variable {m : Access} {c : Ctx} {s : State}

theorem firstAcc_misaligned : firstAcc (m.accs c) (fun a => a.size = m.size && a.va % m.size ≠ 0) =
    (c.firstLane fun l => c.address l % m.size ≠ 0).map fun l => ⟨l, c.address l, m.size⟩ :=
  find?_misaligned m c _

theorem firstAcc_aligned (hfit : ∀ l ∈ lanesOf c.act, c.address l % m.size = 0) :
    firstAcc (m.accs c) (fun a => a.size = m.size && a.va % m.size ≠ 0) = none := by
  rw [firstAcc_misaligned, firstLane_eq_none fun l hl => by simp [hfit l hl]]
  rfl

/-- The first access whose translation passes a test. -/
theorem find?_translated (as : List Acc) (f : Acc → Xres) (p : Xres → Bool) :
    (((as.map fun a => (a, f a)).find? fun x => p x.2).map (·.1)) = as.find? fun a => p (f a) := by
  rw [List.find?_map, Option.map_map]
  exact Option.map_id'

/-- What the gate answers where the checks do not let the access through. -/
theorem memGate_trap {r : Raise} (h : accessChecks c s m.need m.size (m.accs c) (m.cls = 2 && m.code = 17) = .trap r) :
    memGate m c s = .trap r := by
  simp only [memGate, h]

theorem accessChecks_align {need : Need} {size : Nat} {as : List Acc} {local' : Bool} {a : Acc}
    (h : firstAcc as (fun a => a.size = size && a.va % size ≠ 0) = some a) :
    accessChecks c s need size as local' = accTrap 6 a := by
  simp only [accessChecks, h]

section
variable {need : Need} {size : Nat} {as : List Acc} {local' : Bool} {a : Acc}
  (halign : firstAcc as (fun a => a.size = size && a.va % size ≠ 0) = none)
include halign

theorem accessChecks_addr (h : as.find? (fun a => peek s c.place.core c.team.comp c.team.level need a.va = .addr) = some a) :
    accessChecks c s need size as local' = accTrap 8 a := by
  have hfirst := (find?_translated as (fun a => peek s c.place.core c.team.comp c.team.level need a.va) (· = .addr)).trans h
  beta_reduce at hfirst
  simp only [accessChecks, halign, hfirst]

theorem accessChecks_access (hheld : ∀ b ∈ as, peek s c.place.core c.team.comp c.team.level need b.va ≠ .addr) (hlocal : local' = false)
    (h : as.find? (fun a => peek s c.place.core c.team.comp c.team.level need a.va = .access) = some a) :
    accessChecks c s need size as local' = accTrap 7 a := by
  have haddr : as.find? (fun a => peek s c.place.core c.team.comp c.team.level need a.va = .addr) = none :=
    List.find?_eq_none.mpr fun b hb => by simp [hheld b hb]
  have hnone := (find?_translated as (fun a => peek s c.place.core c.team.comp c.team.level need a.va) (· = .addr)).trans haddr
  have hfirst := (find?_translated as (fun a => peek s c.place.core c.team.comp c.team.level need a.va) (· = .access)).trans h
  beta_reduce at hnone hfirst
  simp only [accessChecks, halign, hnone, hlocal, Bool.false_and, Bool.or_false, hfirst]

end

end

/-! ## The instructions -/

/-- A load, store or atomic is issued under the checks and waits of its access. -/
theorem exec_access {i : Instr} {m : Ctx → Access} (h : accessOf i = some m) (s : State) : exec i s =
    performPriv i.shape (privOf i) (fun c s => memGate (m c) c s) (fun c s => memEffect (m c) c s) s := by
  unfold accessOf at h
  split at h
  all_goals cases h
  all_goals rfl

/-- Every tile instruction with an active lane goes through the checks of its tile first (09 R353). -/
theorem exec_tile {i : Instr} {k : Nat} {w : Bool} (h : tileOf i = some (k, w)) : ∃ own eff,
    (∀ s, exec i s = performPriv i.shape (privOf i) own eff s) ∧
    ∀ c s, c.act ≠ 0 → ∃ next, own c s = tileGate k w c s next := by
  unfold tileOf at h
  split at h
  case h_1 k x => cases h; exact ⟨_, _, fun _ => rfl, fun c s _ => ⟨_, rfl⟩⟩
  case h_2 k x => cases h; exact ⟨_, _, fun _ => rfl, fun c s _ => ⟨_, rfl⟩⟩
  case h_3 k x => cases h; exact ⟨_, _, fun _ => rfl, fun c s _ => ⟨_, rfl⟩⟩
  case h_4 k x => cases h; exact ⟨_, _, fun _ => rfl, fun c s _ => ⟨_, rfl⟩⟩
  case h_5 x => cases h; exact ⟨_, _, fun _ => rfl, fun c s hact => ⟨_, if_neg hact⟩⟩
  case h_6 x => cases h; exact ⟨_, _, fun _ => rfl, fun c s hact => ⟨_, if_neg hact⟩⟩
  case h_7 => cases h

section
variable {k : Nat} {w : Bool} {c : Ctx} {s : State} {next : Gate}

theorem tileGate_access (h : (tiles s c).length ≤ k) : tileGate k w c s next = .trap { cause := 7 } := if_pos h

theorem tileGate_shape (hgrant : k < (tiles s c).length) (hbusy : tileBusy s c.key k = false)
    (hshape : shapeLegal ((tiles s c).getD k {}).ts = false) : tileGate k w c s next = .trap { cause := 0x16 } := by
  have hts : shapeLegal (crewTile s c.key k).ts = false := hshape
  unfold tileGate
  rw [if_neg (show ¬ (crewTiles s c.key).length ≤ k by exact Nat.not_le.mpr hgrant), hbusy, hts]
  rfl

theorem tileGate_locked (hgrant : k < (tiles s c).length) (hbusy : tileBusy s c.key k = false)
    (hshape : shapeLegal ((tiles s c).getD k {}).ts = true) (hlock : tileLocked s (crewOf c.key) k w = true) :
    tileGate k w c s next = .trap { cause := 9 } := by
  have hts : shapeLegal (crewTile s c.key k).ts = true := hshape
  unfold tileGate
  rw [if_neg (show ¬ (crewTiles s c.key).length ≤ k by exact Nat.not_le.mpr hgrant), hbusy, hts, hlock]
  rfl

end

/-- Settles O31: each check picks the first access that fails it, once the checks before it have let every access through. -/
theorem memoryAndTileTraps : Obligations.MemoryAndTileTraps := by
  unfold Obligations.MemoryAndTileTraps
  refine ⟨fun i m hi s c h => ⟨fun l hl => ?align, fun a hfit ha => ?addr, fun a hfit hheld hcode ha => ?access⟩,
    fun i k w hi s c h hact => ?tile⟩
  case align =>
    refine exec_of_gate_trap (exec_access hi s) h (memGate_trap (accessChecks_align (a := ⟨l, c.address l, (m c).size⟩) ?_))
    rw [firstAcc_misaligned, show c.firstLane _ = some l from hl]
    rfl
  case addr => exact exec_of_gate_trap (exec_access hi s) h (memGate_trap (accessChecks_addr (firstAcc_aligned hfit) ha))
  case access =>
    exact exec_of_gate_trap (exec_access hi s) h
      (memGate_trap (accessChecks_access (firstAcc_aligned hfit) hheld (by simp [hcode]) ha))
  case tile =>
    obtain ⟨own, eff, hexec, hown⟩ := exec_tile hi
    obtain ⟨next, hgate⟩ := hown c s hact
    refine ⟨fun hk => ?_, fun hk hbusy => ⟨fun hshape => ?_, fun hshape hlock => ?_⟩⟩
    · exact exec_of_gate_trap (hexec s) h (hgate.trans (tileGate_access hk))
    · exact exec_of_gate_trap (hexec s) h (hgate.trans (tileGate_shape hk hbusy hshape))
    · exact exec_of_gate_trap (hexec s) h (hgate.trans (tileGate_locked hk hbusy hshape hlock))

end Sys2Proof.Machine

/-! # Watchpoints removed, sleeping, and bins launched (08 R164 to R166) -/

namespace Sys2Proof.Machine

open Sys2Proof.Spec

/-! ## UNWATCH (08 R164) -/

section
variable {x : SF} {s : State} {c : Ctx}

/-- The watchpoint that an UNWATCH names. -/
def unwatched (c : Ctx) (s : State) : Option Watch := s.watches.find? fun w => w.comp = c.team.comp && w.desc = c.pair 0 % 2 ^ 57

def unwatchEffect (c : Ctx) (s : State) : State :=
  match unwatched c s with
  | some w => writeScalar c 0 { s with watches := s.watches.erase w }
  | none => writeScalar c 1 s

theorem exec_unwatch (x : SF) (s : State) : exec (.unwatch x) s =
    performPriv (Instr.shape (.unwatch x)) (privOf (.unwatch x)) (fun _ _ => .go) (fun c s => { s := unwatchEffect c s }) s := rfl

theorem unwatch_none (h : Ready (.unwatch x) s c) (hnone : unwatched c s = none) :
    ∃ t, exec (.unwatch x) s = .next t ∧ ScalarResult c [1] s t := by
  refine ⟨_, exec_of_ready (exec_unwatch x s) h, ?_⟩
  rw [unwatchEffect, hnone]
  exact scalar_result (context_team h.1).1

theorem unwatch_some {w : Watch} (h : Ready (.unwatch x) s c) (hw : unwatched c s = some w) :
    ∃ t, exec (.unwatch x) s = .next t ∧ t.watches = s.watches.erase w ∧ ScalarsWritten c [0] t ∧ LatchesKept c s t ∧
      { t.kept with watches := [] } = { s.kept with watches := [] } := by
  have ht : team? { s with watches := s.watches.erase w } c.key = some c.team := (context_team h.1).1
  obtain ⟨heffect, hwritten, hbench⟩ := writeScalars_result (xs := [0]) ht
  have hconc := conclude_concludes c { s := writeScalars c [0] { s with watches := s.watches.erase w } } rfl rfl (fun _ he => by cases he)
  have hkept := hconc.rest.trans heffect.rest
  refine ⟨_, exec_of_ready (exec_unwatch x s) h, ?_⟩
  rw [unwatchEffect, hw]
  exact ⟨(congrArg State.watches hkept : _), hwritten.concludes hconc, .concludes hbench hconc,
    congrArg (fun t : State => { t with watches := [] }) hkept⟩

end

/-! ## SLEEP (08 R165) -/

section
variable {x : SF} {s : State} {c : Ctx}

/-- What SLEEP leaves to its end: it waits, or goes on at once. -/
def sleepDone (c : Ctx) (s : State) : Done :=
  if c.s 0 = 0 then { s := s, yields := true }
  else { s := s, moves := some (c.waitHere (.sleep (clk s c.place.core + (c.s 0).toNat))), yields := true }

theorem exec_sleep (x : SF) (s : State) : exec (.sleep x) s =
    performPriv (Instr.shape (.sleep x)) (privOf (.sleep x)) (fun _ _ => .go) sleepDone s := rfl

theorem noJoin_waitHere {w : Wait} (hw : ∀ k, w ≠ .join k) : NoJoin (c.waitHere w) := by
  intro e he k hk
  rw [List.mem_singleton.mp he] at hk
  exact hw k (Option.some.inj hk)

theorem sleep_result (h : Ready (.sleep x) s c) : ∃ t, exec (.sleep x) s = .next t ∧ NothingWritten c s t ∧
    (bench t c.place.benchNo).holder = none ∧ (c.s 0 = 0 → GoesOn c t) ∧
    (c.s 0 ≠ 0 → WaitsHere c (.sleep (clk s c.place.core + (c.s 0).toNat)) t) := by
  have ht := (context_team h.1).1
  refine ⟨_, exec_of_ready (exec_sleep x s) h, ?_⟩
  by_cases hzero : c.s 0 = 0
  · rw [sleepDone, if_pos hzero]
    exact ⟨nothingWritten_conclude ht rfl rfl rfl (fun _ he => by cases he), (conclude_yields rfl rfl rfl).1,
      fun _ => goesOn_conclude rfl rfl rfl rfl ht, fun hne => absurd hzero hne⟩
  · rw [sleepDone, if_neg hzero]
    refine ⟨nothingWritten_conclude ht rfl rfl rfl (fun es he => ?_), (conclude_yields rfl rfl rfl).1, fun he => absurd he hzero,
      fun _ => waitsHere_conclude (fun _ he => by cases he) rfl rfl rfl rfl ht⟩
    rw [← Option.some.inj he]
    exact noJoin_waitHere fun _ hj => by cases hj

end

/-! ## BINFL (08 R166, 07 R129) -/

/-- What every step of a fold keeps. -/
theorem foldl_field {α β : Type} (F : State → β) {f : State → α → State} (hf : ∀ s a, F (f s a) = F s) (l : List α) (s : State) :
    F (l.foldl f s) = F s := by
  induction l generalizing s with
  | nil => rfl
  | cons a l ih => rw [List.foldl_cons, ih, hf]

theorem launchBin_cores (s : State) (b : Bin) : (launchBin s b).cores = s.cores := by
  unfold launchBin addCrew
  split
  · exact (foldl_field State.cores (f := fun s (t : Team) => setTeam s _ t) (fun _ _ => rfl) _ _).trans rfl
  · rfl

/-- The bins that are launched leave their core. -/
theorem launchBins_bins (s : State) (k : Nat) (p : Bin → Bool) : (core (launchBins s k p) k).bins = (core s k).bins.filter fun b => !p b := by
  have hcores : (launchBins s k p).cores = (setCore s k { core s k with bins := (core s k).bins.filter fun b => !p b }).cores :=
    foldl_field State.cores launchBin_cores _ _
  rw [core, hcores, ← core, core_setCore, if_pos rfl]

/-- What BINFL launches. -/
def binflPicks (x : SF) (c : Ctx) (b : Bin) : Bool := b.comp = c.team.comp && (x.b = 1 || b.entry = c.pair 0)

theorem exec_binfl (x : SF) (s : State) : exec (.binfl x) s =
    performPriv (Instr.shape (.binfl x)) (privOf (.binfl x)) (fun _ _ => .go)
      (fun c s => { s := flushBins s c.team.comp c.place.core (binflPicks x c) }) s := rfl

/-- The bins that BINFL picks are gone from the core once their compartment's bins launch. -/
theorem binfl_bins {x : SF} {c : Ctx} {s : State} (hlaunch : binsLaunch s c.team.comp c.place.core = true) {b : Bin}
    (hb : b ∈ (core (conclude c { s := flushBins s c.team.comp c.place.core (binflPicks x c) }) c.place.core).bins) :
    binflPicks x c b = false := by
  have hcores : (conclude c { s := flushBins s c.team.comp c.place.core (binflPicks x c) }).cores =
      (flushBins s c.team.comp c.place.core (binflPicks x c)).cores := (conclude_device rfl rfl).2.2.2.2.1
  rw [core, hcores, ← core, flushBins, if_pos hlaunch, launchBins_bins] at hb
  simpa using (List.mem_filter.mp hb).2

/-- Settles O29: each of the three is issued without checks of its own, and its effect is read off at its end. -/
theorem unwatchSleepBinfl : Obligations.UnwatchSleepBinfl := by
  unfold Obligations.UnwatchSleepBinfl
  refine ⟨fun x s c h => unwatch_none h, fun x s c w h => unwatch_some h, fun x s c h => sleep_result h, fun x s c h =>
    ⟨_, exec_of_ready (exec_binfl x s) h, rfl, fun hlaunch b hb hpicked => ?_⟩⟩
  have hleft := binfl_bins hlaunch hb
  rw [binflPicks, hpicked.1, decide_eq_true rfl, Bool.true_and, Bool.or_eq_false_iff, decide_eq_false_iff_not, decide_eq_false_iff_not]
    at hleft
  exact hpicked.2.elim hleft.1 hleft.2

end Sys2Proof.Machine

/-! # Waits for claims, the inbox, objections and membership (08 R171 to R174) -/

namespace Sys2Proof.Machine

open Sys2Proof.Spec

/-! ## The issuing team in a state that has changed since its issue -/

section
variable {c : Ctx} {u : State}

/-- A status written to the issuing team, whatever has become of it. -/
theorem status_written {y : Team} (hu : team? u c.key = some y) (n : Word) : ∃ z, team? (writeScalar c n u) c.key = some z ∧
    z.v = y.v ∧ z.p = y.p ∧ ∀ d, Team.scalar z d = (status c n d).getD (Team.scalar y d) := by
  obtain ⟨⟨_, _, ⟨x, hx, hkept, _⟩, _⟩, ⟨z, hz, hscalar⟩, _⟩ := writeScalars_result (c := { c with team := y }) (xs := [n]) hu
  obtain rfl : z = x := Option.some.inj (hz.symm.trans hx)
  refine ⟨z, hz, (congrArg Team.v hkept : z.kept.sansS.v = _), (congrArg Team.p hkept : z.kept.sansS.p = _), fun d => ?_⟩
  rw [hscalar d, status]
  cases c.shape.sd with
  | none => rfl
  | some e =>
    by_cases hd : e.1.toNat = d
    · simp [hd]
    · have hout : ¬ (decide (e.1.toNat ≤ d) && decide (d < e.1.toNat + [n].length)) = true := by
        simp only [List.length_singleton, Bool.and_eq_true, decide_eq_true_eq]
        omega
      exact (if_neg hout).trans (by simp [hd])

/-- A team that has parked goes on with a status. -/
theorem parked_answered (hu : team? u c.key = some (parkedTeam c)) (n : Word) :
    Parked c (status c n) (conclude c (parkDone c (writeScalar c n u) none)) ∧ GoesOn c (conclude c (parkDone c (writeScalar c n u) none)) := by
  obtain ⟨y, hy, hv, hp, hs⟩ := status_written hu n
  exact ⟨parked_parkDone hy hv hp hs, goesOn_parkDone hy⟩

/-- A team that has parked waits without a status. -/
theorem parked_waits (hu : team? u c.key = some (parkedTeam c)) {w : Wait} (hw : ∀ k, w ≠ .join k) :
    Parked c noStatus (conclude c (parkDone c u (some w))) ∧ WaitsHere c w (conclude c (parkDone c u (some w))) :=
  ⟨parked_parkDone hu rfl rfl noStatus_parked, waitsHere_parkDone hw hu⟩

/-- The frame of a status written right after the parking point. -/
theorem parked_answered_frame {h : Shape} {s : State} (hc : context h s = some c) (n : Word) :
    Frame sansPark c s (conclude c (parkDone c (writeScalar c n (parkTeam s c.key c.carry)) none)) :=
  ((parkTeam_effect hc).writeScalars [n] sansPark_of_sansS).parkDone (fun _ => Option.some_ne_none _ ∘ Eq.symm)

end

/-! ## CLWAIT (08 R171) -/

section
variable {k : BitVec 3} {x : SF} {s : State} {c : Ctx}

/-- The answer of a CLWAIT whose proposal has resolved: outcome 0 is an acquire at its group's span. -/
def claimAnswer (c : Ctx) (span : Nat) (u : State) (o : Nat) : Done :=
  parkDone c (writeScalar c (BitVec.ofNat 32 o) (if o = 0 then acquireAt u c.place.core span else u)) none

def clwaitEffect (k : BitVec 3) (x : SF) (c : Ctx) (s : State) : Done :=
  let span := spanScope (groupSpan s c.place.core c.team.comp k.toNat)
  let u := parkTeam s c.key c.carry
  match trunkClaim u c.key k.toNat (c.s 0).toNat with
  | some t => claimAnswer c span (onCrew u (crewOf c.key) fun w => { w with claims := w.claims.erase t }) t.outcome
  | none =>
    match proposalAt u c.key c.place.core k.toNat (c.s 0).toNat with
    | some (j, p) =>
      match p.outcome with
      | some o => claimAnswer c span (freeProposal u j (c.s 0).toNat) o
      | none => parkDone c u (some (.claim k.toNat (c.s 0).toNat x.d.toNat))
    | none => claimAnswer c span u 0xFF

theorem exec_clwait (k : BitVec 3) (x : SF) (s : State) : exec (.clwait k x) s =
    performPriv (Instr.shape (.clwait k x)) (privOf (.clwait k x)) (fun _ _ => .go) (clwaitEffect k x) s := rfl

theorem claimAnswer_parked {u : State} (hu : team? u c.key = some (parkedTeam c)) (span o : Nat) :
    Parked c (status c (BitVec.ofNat 32 o)) (conclude c (claimAnswer c span u o)) ∧ GoesOn c (conclude c (claimAnswer c span u o)) := by
  refine parked_answered ?_ _
  split
  · rw [(coresOnly_acquireAt ..).team?, hu]
  · exact hu

theorem trunkClaim_parkTeam {h : Shape} (hc : context h s = some c) (g i : Nat) :
    trunkClaim (parkTeam s c.key c.carry) c.key g i = trunkClaim s c.key g i := by
  rw [trunkClaim, crew?_parkTeam hc, trunkClaim]

theorem clwait_result (h : Ready (.clwait k x) s c) (htrunk : trunkClaim s c.key k.toNat (c.s 0).toNat = none) :
    ∃ t, exec (.clwait k x) s = .next t ∧
    match proposalAt (parkTeam s c.key c.carry) c.key c.place.core k.toNat (c.s 0).toNat with
    | none => Frame sansPark c s t ∧ Parked c (status c 0xFF) t ∧ GoesOn c t
    | some (_, p) =>
      match p.outcome with
      | some o => Parked c (status c (BitVec.ofNat 32 o)) t ∧ GoesOn c t
      | none => Frame sansPark c s t ∧ Parked c noStatus t ∧ WaitsHere c (.claim k.toNat (c.s 0).toNat x.d.toNat) t := by
  have hx := team?_parkTeam h.1
  refine ⟨_, exec_of_gate_go (own := fun _ _ => .go) (exec_clwait k x s) h rfl, ?_⟩
  rw [clwaitEffect, trunkClaim_parkTeam h.1, htrunk]
  dsimp only
  generalize proposalAt (parkTeam s c.key c.carry) c.key c.place.core k.toNat (c.s 0).toNat = found
  rcases found with _ | ⟨j, p⟩
  · exact ⟨parked_answered_frame h.1 _, claimAnswer_parked hx _ 0xFF⟩
  · dsimp only
    cases p.outcome with
    | some o => exact claimAnswer_parked (u := freeProposal (parkTeam s c.key c.carry) j _) hx _ o
    | none => exact ⟨(parkTeam_effect h.1).parkDone (fun j hj => by cases hj), parked_waits hx fun _ hj => by cases hj⟩

end

/-! ## CLPEEK and CLPOP (08 R172) -/

section
variable {k : BitVec 3} {x : SF} {s : State} {c : Ctx}

theorem exec_clpeek (k : BitVec 3) (x : SF) (s : State) : exec (.clpeek k x) s =
    performPriv (Instr.shape (.clpeek k x)) (privOf (.clpeek k x)) (fun _ _ => .go)
      (fun c s => { s := writeScalars c (inboxOut s c k.toNat) s }) s := rfl

/-- The inbox of the core without the group's oldest entry. -/
def popped (c : Ctx) (g : Nat) (s : State) : State :=
  match oldest s c g with
  | some e => setCore s c.place.core { core s c.place.core with inbox := (core s c.place.core).inbox.erase e }
  | none => s

/-- The core after a CLPOP has removed its entry, which is an acquire at the group's span (11 R222). -/
def clpopState (k : BitVec 3) (c : Ctx) (s : State) : State :=
  acquireAt (popped c k.toNat s) c.place.core (spanScope (groupSpan (popped c k.toNat s) c.place.core c.team.comp k.toNat))

theorem exec_clpop (k : BitVec 3) (x : SF) (s : State) : exec (.clpop k x) s =
    performPriv (Instr.shape (.clpop k x)) (privOf (.clpop k x)) olderGate
      (fun c s => { s := writeScalars c (inboxOut s c k.toNat) (clpopState k c s) }) s := rfl

theorem acquireAt_inbox (s : State) (k scope j : Nat) : (core (acquireAt s k scope) j).inbox = (core s j).inbox := by
  unfold acquireAt acquireL1
  split
  · generalize l1Group s k = l
    induction l generalizing s with
    | nil => rfl
    | cons i l ih =>
      rw [List.foldl_cons, ih, core_setCore]
      split
      · rename_i hij
        rw [← hij]
      · rfl
  · rfl

theorem coresOnly_popped (c : Ctx) (g : Nat) (s : State) : CoresOnly s (popped c g s) := by
  unfold popped
  split
  · exact coresOnly_setCore ..
  · exact .refl s

theorem coresOnly_clpopState (k : BitVec 3) (c : Ctx) (s : State) : CoresOnly s (clpopState k c s) :=
  (coresOnly_popped ..).trans (coresOnly_acquireAt ..)

theorem clpopState_inbox (k : BitVec 3) (c : Ctx) (s : State) : (core (clpopState k c s) c.place.core).inbox =
    match oldest s c k.toNat with
    | some e => (core s c.place.core).inbox.erase e
    | none => (core s c.place.core).inbox := by
  rw [clpopState, acquireAt_inbox, popped]
  split
  · rw [core_setCore, if_pos rfl]
  · rfl

theorem clpop_result (h : Ready (.clpop k x) s c) (hgate : olderGate c s = .go) : ∃ t, exec (.clpop k x) s = .next t ∧
    ScalarsWritten c (inboxOut s c k.toNat) t ∧ LatchesKept c s t ∧
    (core t c.place.core).inbox = (match oldest s c k.toNat with
      | some e => (core s c.place.core).inbox.erase e
      | none => (core s c.place.core).inbox) ∧
    { t.kept with cores := [] } = { s.kept with cores := [] } := by
  have honly := coresOnly_clpopState k c s
  obtain ⟨heffect, hwritten, hbench⟩ := writeScalars_result (xs := inboxOut s c k.toNat) ((honly.team? c.key).trans (context_team h.1).1)
  have hconc := conclude_concludes c { s := writeScalars c (inboxOut s c k.toNat) (clpopState k c s) } rfl rfl (fun _ he => by cases he)
  have hkept := hconc.rest.trans heffect.rest
  refine ⟨_, exec_of_gate_go (exec_clpop k x s) h hgate, hwritten.concludes hconc,
    .concludes (fun b => (hbench b).trans (honly.bench b)) hconc, ?_, ?_⟩
  · rw [core, show (conclude c _).cores = (clpopState k c s).cores from (congrArg State.cores hkept : _), ← core]
    exact clpopState_inbox k c s
  · exact (congrArg (fun t : State => { t with cores := [] }) hkept).trans (congrArg State.kept honly : _)

end

/-! ## OBJECT (08 R173) -/

section
variable {k : BitVec 3} {x : SF} {s : State} {c : Ctx}

def objectEffect (k : BitVec 3) (x : SF) (c : Ctx) (s : State) : Done :=
  let u := parkTeam s c.key c.carry
  match Tab.get? (groupOf u c.place.core k.toNat).members ((c.s 0).toNat % 64) with
  | none => parkDone c (writeScalar c 2 u) none
  | some m =>
    parkDone c (objectTo u c.place.core c.team.comp { id := c.s 0, group := k.toNat, unheard := false, team := c.key } m)
      (some (.objection k.toNat (c.s 0) x.d.toNat))

theorem exec_object (k : BitVec 3) (x : SF) (s : State) : exec (.object k x) s =
    performPriv (Instr.shape (.object k x)) (privOf (.object k x)) (fun _ _ => .go) (objectEffect k x) s := rfl

theorem groupOf_parkTeam {h : Shape} (hc : context h s = some c) (j g : Nat) : groupOf (parkTeam s c.key c.carry) j g = groupOf s j g := by
  rw [parkTeam_eq hc]
  rfl

theorem team?_objectTo (s : State) (k c : Nat) (o : Objection) (m : Word) (key : Nat) : team? (objectTo s k c o m) key = team? s key := by
  unfold objectTo
  split
  · rfl
  · split <;> rfl

/-- An objection to a member of another coach leaves by the link (16 R286). -/
theorem objectTo_peer {m : Word} (hm : memberPeer m = true) (s : State) (k c : Nat) (o : Objection) :
    (objectTo s k c o m).out = s.out ++ [.objection (memberCoach m) o] := by
  rw [objectTo, if_pos hm]

theorem object_result (h : Ready (.object k x) s c) : ∃ t, exec (.object k x) s = .next t ∧
    match Tab.get? (groupOf s c.place.core k.toNat).members ((c.s 0).toNat % 64) with
    | none => Frame sansPark c s t ∧ Parked c (status c 2) t ∧ GoesOn c t
    | some m => Parked c noStatus t ∧ WaitsHere c (.objection k.toNat (c.s 0) x.d.toNat) t ∧
      (memberPeer m = true → ∃ o, t.out = s.out ++ [.objection (memberCoach m) o] ∧ o.id = c.s 0 ∧ o.unheard = false) := by
  have hx := team?_parkTeam h.1
  refine ⟨_, exec_of_gate_go (own := fun _ _ => .go) (exec_object k x s) h rfl, ?_⟩
  rw [objectEffect, groupOf_parkTeam h.1]
  split
  case h_1 => exact ⟨parked_answered_frame h.1 _, parked_answered hx 2⟩
  case h_2 m hm =>
    obtain ⟨hparked, hwaits⟩ := parked_waits ((team?_objectTo _ c.place.core c.team.comp
      { id := c.s 0, group := k.toNat, unheard := false, team := c.key } m c.key).trans hx) (w := .objection k.toNat (c.s 0) x.d.toNat)
      fun _ hj => by cases hj
    refine ⟨hparked, hwaits, fun hpeer => ⟨{ id := c.s 0, group := k.toNat, unheard := false, team := c.key }, ?_, rfl, rfl⟩⟩
    have hout : (parkTeam s c.key c.carry).out = s.out := (congrArg State.out (parkTeam_effect h.1).rest : _)
    refine ((congrArg State.out (conclude_rest rfl rfl) : _) : (conclude c _).out = _).trans ?_
    rw [← hout]
    exact objectTo_peer hpeer ..

end

/-! ## CLJOIN and CLLEAVE (08 R174) -/

section
variable {s : State} {c : Ctx} {g d : Nat}

theorem groupOf_setCore (s : State) (k j g : Nat) (x : Core) :
    groupOf (setCore s k x) j g = if k = j then Tab.getD x.groups g {} else groupOf s j g := by
  rw [groupOf, core_setCore]
  split <;> rfl

/-- A change of a group on each of some cores. -/
theorem groupOf_foldl (f : Group → Group) (l : List Nat) (s : State) (j : Nat) :
    groupOf (l.foldl (fun s k => setCore s k { core s k with groups := Tab.put (core s k).groups g (f (Tab.getD (core s k).groups g {})) }) s) j g =
      f^[l.count j] (groupOf s j g) := by
  induction l generalizing s with
  | nil => rfl
  | cons k l ih =>
    rw [List.foldl_cons, ih, groupOf_setCore, List.count_cons]
    by_cases hk : k = j
    · subst hk
      rw [if_pos rfl, beq_self_eq_true, if_pos rfl, Function.iterate_succ_apply, Tab.getD_put, if_pos rfl]
      rfl
    · rw [if_neg hk, beq_false_of_ne hk]
      rfl

theorem compCores_nodup (s : State) (k : Nat) : (compCores s k).Nodup := (List.nodup_range).filter _

theorem groupOf_onGroup {j k : Nat} (f : Group → Group) (hj : j ∈ compCores s k) : groupOf (onGroup s k g f) j g = f (groupOf s j g) := by
  refine (groupOf_foldl f (compCores s k) s j).trans ?_
  rw [List.count_eq_one_of_mem (compCores_nodup s k) hj]
  rfl

theorem coresOnly_onGroup (s : State) (k g : Nat) (f : Group → Group) : CoresOnly s (onGroup s k g f) :=
  coresOnly_foldl (fun s _ => coresOnly_setCore s _ _) _ s

/-- A change that is refused gives its status at once. -/
theorem changeMember_refused {bad : Option Nat} {m : Option Word} {r : Nat} (ht : team? s c.key = some c.team) (hbad : bad = some r) :
    ScalarResult c [BitVec.ofNat 32 r] s (conclude c (changeMember g d bad m c s)) := by
  rw [hbad]
  exact scalar_result ht

/-- A change that is requested is pending on every core of the compartment, and its instruction waits for it. -/
theorem changeMember_waits {bad : Option Nat} {m : Option Word} (ht : team? s c.key = some c.team) (hbad : bad = none) :
    WaitsHere c (.member d) (conclude c (changeMember g d bad m c s)) ∧ ∀ j ∈ compCores s c.team.comp,
      (groupOf (conclude c (changeMember g d bad m c s)) j g).pending =
        some { group := g, rank := (c.s 0).toNat, member := m, team := c.key } := by
  subst hbad
  refine ⟨waitsHere_conclude (fun _ hj => by cases hj) rfl rfl rfl rfl (x := c.team) ?_, fun j hj => ?_⟩
  · exact ((coresOnly_onGroup ..).team? c.key).trans ht
  · have hcores := (conclude_device (c := c) (r := changeMember g d none m c s) rfl rfl).2.2.2.2.1
    rw [groupOf, core, hcores, ← core, ← groupOf]
    exact congrArg Group.pending (groupOf_onGroup (s := { s with out := _ }) _ hj : groupOf (changeMember g d none m c s).s j g = _)

theorem memberGate_go (h : (groupOf s c.place.core g).pending = none) : memberGate g c s = .go := by
  rw [memberGate, h]
  rfl

theorem exec_cljoin (k : BitVec 3) (x : SF) (s : State) : exec (.cljoin k x) s =
    performPriv (Instr.shape (.cljoin k x)) (privOf (.cljoin k x)) (memberGate k.toNat)
      (fun c s => changeMember k.toNat x.d.toNat (memberBad s c.team.comp (c.s 0) (c.s 1)) (some (c.s 1)) c s) s := rfl

theorem exec_clleave (k : BitVec 3) (x : SF) (s : State) : exec (.clleave k x) s =
    performPriv (Instr.shape (.clleave k x)) (privOf (.clleave k x)) (memberGate k.toNat)
      (fun c s => changeMember k.toNat x.d.toNat (if 63 < (c.s 0).toNat then some 2 else none) none c s) s := rfl

end

/-- Settles O41: each instruction is read off the state at its parking point, or off what it changes in its core. -/
theorem claimInstructions : Obligations.ClaimInstructions := by
  unfold Obligations.ClaimInstructions
  refine ⟨fun k x s c h => clwait_result h, fun k x s c h => ⟨_, exec_of_ready (exec_clpeek k x s) h, scalar_result (context_team h.1).1⟩,
    fun k x s c h => clpop_result h, fun k x s c h => object_result h,
    fun k x s c h hpending => ⟨_, exec_of_gate_go (exec_cljoin k x s) h (memberGate_go hpending), ?join⟩,
    fun k x s c h hpending => ⟨_, exec_of_gate_go (exec_clleave k x s) h (memberGate_go hpending), fun hrank => ?refused, fun hrank => ?leaves⟩⟩
  case join =>
    split
    case h_1 r hbad => exact changeMember_refused (context_team h.1).1 hbad
    case h_2 hbad => exact changeMember_waits (context_team h.1).1 hbad
  case refused => exact changeMember_refused (r := 2) (context_team h.1).1 (if_pos hrank)
  case leaves => exact changeMember_waits (context_team h.1).1 (if_neg (Nat.not_lt.mpr hrank))

end Sys2Proof.Machine

/-! # A weak store that reaches memory (10 R200, 12 R244) -/

namespace Sys2Proof.Machine

open Sys2Proof.Spec

/-- A device after reset whose first word of memory cannot be corrected. -/
def lostWord : State := { failing := [0] }

theorem lostWord_wayFree : wayFree lostWord (l1Loc lostWord 0 0) 0 := ⟨0, by decide, fun _ h => by cases h⟩

theorem lostWord_sliceFree : sliceFree lostWord 0 := .inr ⟨0, by decide, rfl⟩

/-- A store of part of a lost word is not kept in the L1: its byte goes to the home (12 R244). -/
theorem weakStore_lostWord : (weakStore lostWord 0 0 false 0 [1]).mem = [(0, 1)] := by decide

/-- Refutes O32: a weak store of one byte into a word that error correction cannot correct changes memory, though no line has to make room
for its line, which is the first dirty one. -/
theorem not_loadsAndStoresAtTheirPoint : ¬ Obligations.LoadsAndStoresAtTheirPoint := by
  unfold Obligations.LoadsAndStoresAtTheirPoint
  rintro ⟨hweak, -⟩
  have hstays := ((hweak lostWord 0 0 false 0 [1] (by decide) (by decide) (fun _ _ _ => rfl) (by decide)).2 (by decide)
    lostWord_wayFree lostWord_sliceFree).1
  rw [weakStore_lostWord] at hstays
  cases hstays

end Sys2Proof.Machine

/-! # A WAITC whose request wakes its own team (08 R162) -/

namespace Sys2Proof.Machine

open Sys2Proof.Spec

/-- A team one of whose lanes is at a WAITC, while the other waits on the same word, with a request that has not been performed; that
one's status goes to s12, which is carried. -/
def twoWaiters : Team :=
  { place := some ⟨0, 0, 0⟩, live := 3, s := [(12, 7)], carrys := 8,
    front := [⟨0, 0x100, 1, 0, none⟩, ⟨0, 0x200, 2, 0, some (.monitor 0 (2 ^ 64) none 0 0 0 none 12)⟩] }

/-- It issues the WAITC. The word lies in the heap window and in the L1 of its core, so that the stall of the cluster's port does not hold
the request up: its page is known, and the L1 has the word. -/
def stalledPort : State :=
  { stalls := [⟨1, 0, 1⟩], teams := [(0, twoWaiters)], cores := [(0, { l1 := [(0, ⟨0, false, false, 0, 0⟩)] })],
    comps := [(0, { heap := { lim := 4096 }, xlate := { glim := 4096, colmask := 1 } })],
    cur := some { team := 0, mask := 1, start := 0x100, pc := 0x100, word := 0 } }

/-- WAITC s20, s0, s0. -/
def waitOperands : SF := ⟨0, 20, 0, 0⟩

def stalledCtx : Ctx := (context (Shape.parking (Shape.s3 0x1F waitOperands 1 2 4)) stalledPort).get (by decide)

theorem stalledPort_ready : Ready (.waitc waitOperands) stalledPort stalledCtx := ⟨(Option.some_get _).symm, by decide⟩

theorem stalledPort_gate : waitcGate stalledCtx stalledPort = .go := by decide

theorem stalledPort_armsNow : armsNow stalledCtx stalledPort = false := by decide

theorem stalledPort_peek : peek stalledPort stalledCtx.place.core stalledCtx.team.comp stalledCtx.team.level .rd (waitcVa stalledCtx) =
    .ok 0 false := by decide

/-- The request is performed at once, and wakes the lane that has waited: its status replaces what s12 held. -/
theorem stalledPort_wakes : (team? (conclude stalledCtx (waitcEffect waitOperands stalledCtx stalledPort)) stalledCtx.key).map
    (fun u => Team.scalar u 12) = some 0 := by decide

/-- Refutes O28: a WAITC that waits gives no status, but its arming request can wake another entry of its team, whose status is then
written; the second clause, unlike the first, does not suppose that no entry of the team waits on a monitored word. -/
theorem not_monitorsArm : ¬ Obligations.MonitorsArm := by
  unfold Obligations.MonitorsArm
  rintro ⟨-, hheld, -⟩
  obtain ⟨t, ht, ⟨u, hu, -, hscalar, -⟩, -⟩ := hheld waitOperands stalledPort stalledCtx stalledPort_ready stalledPort_gate
    stalledPort_armsNow fun pa st hpa => by
      rw [stalledPort_peek] at hpa
      cases hpa
      decide
  have hexec : exec (.waitc waitOperands) stalledPort = .next (conclude stalledCtx (waitcEffect waitOperands stalledCtx stalledPort)) :=
    exec_of_gate_go rfl stalledPort_ready stalledPort_gate
  obtain rfl : t = _ := Host.Outcome.next.inj (ht.symm.trans hexec)
  have hwoken := stalledPort_wakes
  rw [hu, Option.map_some, hscalar 12] at hwoken
  exact absurd hwoken (by decide)

end Sys2Proof.Machine

/-! # What the memory's work changes

The caches and the homes serve what a team has issued: teams that wait on a monitored word may be woken, words move between the L1s, the
slices and memory, and the TLBs fill. Everything else stays, the claims and bins of a core and the fusion of a cluster among it. -/

namespace Sys2Proof.Machine

open Sys2Proof.Spec

/-- A core without its L1 and its TLB. -/
def Core.sansCaches (x : Core) : Core := { x with l1 := [], ways := [], dirtyLines := [], tlb := [] }

/-- A state without what the caches and the homes work on, and without what a write at a home may wake or make. -/
def State.sansMemory (s : State) : State :=
  { s with
    teams := [], cores := [], clusters := [], mem := [], failing := [], keys := [], fresh := 0, owners := [], l2 := [], registering := [],
    watches := [], spawning := [] }

/-- From `s` to `t` the memory has worked: teams may have been woken, and caches, homes and TLBs have changed. -/
structure Serves (s t : State) : Prop where
  teams : ∀ k, Option.Rel Woke (team? s k) (team? t k)
  rest : t.sansMemory = s.sansMemory
  cores : ∀ k, (core t k).sansCaches = (core s k).sansCaches
  fused : ∀ k, (cluster t k).fused = (cluster s k).fused

section
variable {s t u : State}

theorem Serves.refl (s : State) : Serves s s := ⟨fun _ => woke_option_refl _, rfl, fun _ => rfl, fun _ => rfl⟩

theorem Serves.trans (h : Serves s t) (k : Serves t u) : Serves s u :=
  ⟨fun j => woke_option_trans (h.teams j) (k.teams j), k.rest.trans h.rest, fun j => (k.cores j).trans (h.cores j),
    fun j => (k.fused j).trans (h.fused j)⟩

theorem serves_foldl {α : Type} {f : State → α → State} (hf : ∀ s x, Serves s (f s x)) (l : List α) (s : State) :
    Serves s (l.foldl f s) := by
  induction l generalizing s with
  | nil => exact .refl s
  | cons x r ih => exact (hf s x).trans (ih (f s x))

/-- A change of memory alone. -/
theorem Serves.of_eq (hteams : t.teams = s.teams) (hcores : t.cores = s.cores) (hclusters : t.clusters = s.clusters)
    (hrest : t.sansMemory = s.sansMemory) : Serves s t where
  teams k := by
    rw [show team? t k = team? s k by rw [team?, team?, hteams]]
    exact woke_option_refl _
  rest := hrest
  cores k := by rw [core, hcores, core]
  fused k := by rw [cluster, hclusters, cluster]

/-- A team that has stood before stands after, with its vector registers and predicates. -/
theorem Serves.stays (h : Serves s t) {k : Nat} {x : Team} (hx : team? s k = some x) : ∃ y, team? t k = some y ∧ y.v = x.v ∧ y.p = x.p := by
  have hrel := h.teams k
  rw [hx] at hrel
  cases hy : team? t k with
  | none =>
    rw [hy] at hrel
    cases hrel
  | some y =>
    rw [hy] at hrel
    cases hrel with
    | some hwoke =>
      refine ⟨y, rfl, hwoke.keeps (P := fun z => z.v = x.v ∧ z.p = x.p) (fun p z hz => ?_) ⟨rfl, rfl⟩⟩
      obtain ⟨hv, hp, -⟩ := wakeTeam_kept p z
      exact ⟨hv.trans hz.1, hp.trans hz.2⟩

theorem Serves.l1Group (h : Serves s t) (k : Nat) : l1Group t k = l1Group s k := by rw [Machine.l1Group, h.fused, Machine.l1Group]

theorem Serves.bench (h : Serves s t) (b : Nat) : bench t b = bench s b :=
  congrArg (fun l : Tab Bench => Tab.getD l b {}) (congrArg State.benches h.rest : _)

theorem Serves.reqs (h : Serves s t) : t.reqs = s.reqs := (congrArg State.reqs h.rest : _)

theorem Serves.ops (h : Serves s t) : t.ops = s.ops := (congrArg State.ops h.rest : _)

theorem serves_setCore {k : Nat} {x : Core} (h : x.sansCaches = (core s k).sansCaches) : Serves s (setCore s k x) where
  teams _ := woke_option_refl _
  rest := rfl
  cores j := by
    rw [core_setCore]
    split
    · rename_i hj
      rw [h, hj]
    · rfl
  fused _ := rfl

theorem serves_setCluster {k : Nat} {x : Cluster} (h : x.fused = (cluster s k).fused) : Serves s (setCluster s k x) where
  teams _ := woke_option_refl _
  rest := rfl
  cores _ := rfl
  fused j := by
    rw [cluster_setCluster]
    split
    · rename_i hj
      rw [h, hj]
    · rfl

theorem Serves.setCore {k : Nat} {x : Core} (h : Serves s t) (hx : x.sansCaches = (core t k).sansCaches) : Serves s (setCore t k x) :=
  h.trans (serves_setCore hx)

theorem Serves.setCluster {k : Nat} {x : Cluster} (h : Serves s t) (hx : x.fused = (cluster t k).fused) : Serves s (setCluster t k x) :=
  h.trans (serves_setCluster hx)

theorem serves_fresh (s : State) (n : Nat) : Serves s { s with fresh := n } := .of_eq rfl rfl rfl rfl

theorem serves_l2 (s : State) (x : Tab L2Line) : Serves s { s with l2 := x } := .of_eq rfl rfl rfl rfl

theorem serves_owners (s : State) (x : Tab Nat) : Serves s { s with owners := x } := .of_eq rfl rfl rfl rfl

theorem serves_registering (s : State) (x : List (Nat × Nat)) : Serves s { s with registering := x } := .of_eq rfl rfl rfl rfl

theorem serves_wake (s : State) (k : Nat) (p : Wait → Option (Option Word)) : Serves s (onTeam s k (wakeTeam p)) where
  teams j := by
    rw [team?_onTeam]
    split
    · cases team? s j with
      | none => exact .none
      | some x => exact .some (woke_wakeTeam p x)
    · exact woke_option_refl _
  rest := by
    unfold onTeam
    split <;> rfl
  cores _ := by rw [core_onTeam]
  fused _ := by rw [cluster_onTeam]

/-! ## Writes at the home (08 R162, R163, 11 R213) -/

theorem serves_noteLine (s : State) (key line words : Nat) : Serves s (noteLine s key line words) := by
  unfold noteLine
  split
  · exact .refl s
  · exact .of_eq rfl rfl rfl rfl

theorem serves_tagLine (s : State) (key line mask : Nat) : Serves s (tagLine s key line mask) := by
  unfold tagLine
  dsimp only
  split
  · split
    · exact .refl s
    · exact .of_eq rfl rfl rfl rfl
  · exact .of_eq rfl rfl rfl rfl

theorem serves_tagRange (s : State) (key a n : Nat) : Serves s (tagRange s key a n) := by
  unfold tagRange
  split
  · exact .refl s
  · exact serves_foldl (fun s _ => serves_tagLine s ..) _ s

theorem serves_putHome (s : State) (key pa : Nat) (bs : List Byte) : Serves s (putHome s key pa bs) :=
  ((serves_foldl (fun s _ => serves_noteLine s ..) (lineSpans pa bs.length) s).trans (serves_tagRange _ key pa bs.length)).trans
    (.of_eq rfl rfl rfl rfl)

theorem serves_disown (s : State) (pa n : Nat) : Serves s (disown s pa n) := .of_eq rfl rfl rfl rfl

theorem serves_acquireAt (s : State) (k scope : Nat) : Serves s (acquireAt s k scope) := by
  unfold acquireAt
  split
  · refine serves_foldl (fun s j => ?_) _ s
    exact serves_setCore rfl
  · exact .refl s

theorem serves_wakeMonitors (s : State) (point : Option Nat) (lo n : Nat) : Serves s (wakeMonitors s point lo n) :=
  serves_foldl (fun s _ => (serves_foldl (fun s _ => serves_acquireAt s ..) _ s).trans (serves_wake _ ..)) _ s

theorem serves_matchWatches (s : State) (lo n : Nat) (by' : Option Nat) : Serves s (matchWatches s lo n by') := by
  refine serves_foldl (fun s w => ?_) s.watches s
  dsimp only
  split
  · exact .refl s
  · exact .of_eq rfl rfl rfl rfl

theorem serves_writeHome (s : State) (key pa : Nat) (bs : List Byte) (by' : Option Nat) : Serves s (writeHome s key pa bs by') :=
  (((serves_putHome s key pa bs).trans (serves_disown _ pa bs.length)).trans (serves_wakeMonitors _ none pa bs.length)).trans
    (serves_matchWatches _ pa bs.length by')

/-! ## Write-backs (10 R207, 11 R213) -/

theorem serves_registerWord (s : State) (k w : Nat) : Serves s (registerWord s k w) := by
  unfold registerWord
  split
  · exact .of_eq rfl rfl rfl rfl
  · exact .refl s

theorem serves_writeBackWord (s : State) (k w : Nat) : Serves s (writeBackWord s k w) := by
  unfold writeBackWord
  split
  · split
    · have hclean : ∀ v, Serves s (setCore (registerWord s k w) k (cleanWord (core (registerWord s k w) k) w v)) := fun v =>
        (serves_registerWord s k w).trans (serves_setCore rfl)
      dsimp only
      split
      · exact (hclean _).trans (serves_writeHome _ ..)
      · exact hclean _
    · exact .refl s
  · exact .refl s

theorem serves_writeBackIf (s : State) (k : Nat) (p : Nat → Bool) : Serves s (writeBackIf s k p) :=
  serves_foldl (fun s _ => serves_writeBackWord s ..) _ s

theorem serves_releaseAt (s : State) (k scope : Nat) : Serves s (releaseAt s k scope) := by
  unfold releaseAt
  split
  · exact serves_foldl (fun s _ => serves_writeBackIf s ..) _ s
  · exact .refl s

theorem serves_dropWords (s : State) (k : Nat) (p : Nat → Bool) : Serves s (dropWords s k p) :=
  (serves_writeBackIf s k p).trans (serves_setCore rfl)

/-! ## Translations (12 R236, R238) -/

theorem serves_orDesc (s : State) (key d m : Nat) : Serves s (orDesc s key d m) := by
  unfold orDesc
  dsimp only
  split
  · exact .refl s
  · exact (serves_putHome s ..).trans (serves_disown _ d 8)

theorem serves_markLeaf (s : State) (key : Nat) (l : Leaf) (write : Bool) : Serves s (markLeaf s key l write) := by
  unfold markLeaf
  dsimp only
  split
  · exact (serves_orDesc s ..).trans (serves_foldl (fun s _ => serves_orDesc s ..) _ _)
  · exact serves_orDesc s ..

theorem serves_markLeaves (s : State) (c : Nat) (x : Combined) (write : Bool) : Serves s (markLeaves s c x write) := by
  have hfirst : Serves s (match x.l1 with | some l => markLeaf s (compKey s c) l write | none => s) := by
    split
    · exact serves_markLeaf s ..
    · exact .refl s
  unfold markLeaves
  dsimp only
  split
  · exact hfirst
  · exact hfirst.trans (serves_markLeaf _ ..)

theorem serves_markWalk (s : State) (cl : Option Nat) (c va : Nat) (write granted : Bool) : Serves s (markWalk s cl c va write granted) := by
  have htables : ∀ ls : List Leaf, Serves s (ls.foldl (fun s l => markLeaf s (keyNum s 0) l false) s) := fun ls =>
    serves_foldl (fun s _ => serves_markLeaf s ..) ls s
  unfold markWalk
  dsimp only
  split
  · exact (htables _).trans (serves_markLeaves _ ..)
  · split
    · split
      · exact (htables _).trans (serves_markLeaf _ ..)
      · exact htables _
    · exact htables _

theorem serves_tlbFill (s : State) (k : Nat) (e : TlbEntry) : Serves s (tlbFill s k e) := by
  unfold tlbFill
  dsimp only
  refine ((Serves.refl s).setCore ?_).setCluster ?_
  · rfl
  · rfl

theorem serves_tlb2Fill (s : State) (cl c : Nat) (x : Combined) (write : Bool) : Serves s (tlb2Fill s cl c x write) := by
  unfold tlb2Fill
  split
  · exact .refl s
  · exact serves_setCluster rfl

theorem serves_translate (s : State) (k c level : Nat) (n : Need) (va : Nat) : Serves s (translate s k c level n va).1 := by
  have hmark := serves_markWalk s (some (k / 4)) c va n.writes
  have hwalked : Serves s (match walk12 s (some (k / 4)) c va n.writes with
      | .leaf x =>
        match useEntry s c level n va (combine c va x) with
        | .ok pa st =>
          (tlbFill (tlb2Fill (markWalk s (some (k / 4)) c va n.writes true) (k / 4) c x n.writes) k
            { combine c va x with dirty := (combine c va x).dirty || n.writes }, Xres.ok pa st)
        | r => (markWalk s (some (k / 4)) c va n.writes false, r)
      | .miss st i => (markWalk s (some (k / 4)) c va n.writes false, .miss st i)
      | .bad => (markWalk s (some (k / 4)) c va n.writes false, .addr)
      | .uncorr d => (markWalk s (some (k / 4)) c va n.writes false, .uncorr d)).1 := by
    split
    · split
      · exact ((hmark true).trans (serves_tlb2Fill _ ..)).trans (serves_tlbFill _ ..)
      · exact hmark false
    · exact hmark false
    · exact hmark false
    · exact hmark false
  unfold translate
  dsimp only
  split
  · exact .refl s
  · split
    · split
      · exact hwalked
      · exact .refl s
    · exact hwalked

theorem serves_pageOf (c : Ctx) (s : State) (n : Need) (va : Nat) : Serves s (pageOf c s n va).1 := by
  have htranslate := serves_translate s c.place.core c.team.comp c.team.level n va
  unfold pageOf
  split
  · rename_i heq
    rwa [heq] at htranslate
  · rename_i heq
    rwa [heq] at htranslate

theorem serves_markRefused (s : State) (k c va : Nat) : Serves s (markRefused s k c va) := by
  unfold markRefused
  split
  · exact .refl s
  · exact serves_markWalk s ..

theorem serves_markRange (s : State) (k c base len : Nat) : Serves s (markRange s k c base len) :=
  serves_foldl (fun s _ => serves_markRefused s ..) _ s

/-! ## Lines that come into a cache (12 R228, R231, 08 R161) -/

theorem serves_recallLine (s : State) (line : Nat) : Serves s (recallLine s line) := by
  refine serves_foldl (fun s i => ?_) _ s
  split
  · exact serves_writeBackWord s ..
  · exact .refl s

theorem serves_evictLine (s : State) (w line : Nat) : Serves s (evictLine s w line) := by
  have hrecall := serves_recallLine s line
  unfold evictLine
  generalize recallLine s line = u at hrecall
  dsimp only
  refine hrecall.trans ((serves_owners u (u.owners.filter fun o => o.1 / 16 ≠ line)).trans ?_)
  exact .of_eq rfl rfl rfl rfl

theorem serves_l2Touch (s : State) (key pa : Nat) : Serves s (l2Touch s key pa) := by
  unfold l2Touch
  split
  · exact .refl s
  · dsimp only
    split
    · exact serves_l2 s _
    · have hevict : ∀ w line, Serves s (evictLine { s with fresh := s.fresh + 1 } w line) := fun w line =>
        (serves_fresh s _).trans (serves_evictLine _ w line)
      exact (hevict _ _).trans (serves_l2 _ _)

theorem serves_takeWay (s : State) (j line : Nat) : Serves s (takeWay s j line) := by
  unfold takeWay
  dsimp only
  split
  · exact .refl s
  · split
    · exact serves_setCore rfl
    · have hdrop : ∀ p, Serves s (dropWords { s with fresh := s.fresh + 1 } j p) := fun p => (serves_fresh s _).trans (serves_dropWords _ j p)
      exact (hdrop _).setCore rfl

theorem serves_l1Fetch (s : State) (k c : Nat) (stable : Bool) (pa : Nat) : Serves s (l1Fetch s k c stable pa).1 := by
  unfold l1Fetch
  dsimp only
  split
  · exact .refl s
  · exact ((serves_l2Touch s ..).trans (serves_takeWay _ ..)).setCore rfl

theorem serves_l1Words (k c : Nat) (stable : Bool) (ws : List Nat) (s : State) : Serves s (l1Words s k c stable ws).1 := by
  induction ws generalizing s with
  | nil => exact .refl s
  | cons w ws ih => exact (serves_l1Fetch s k c stable (4 * w)).trans (ih _)

theorem serves_ownLine (s : State) (j line : Nat) : Serves s (ownLine s j line) := by
  refine serves_foldl (fun s i => ?_) _ s
  dsimp only
  split
  · split
    · exact .refl s
    · exact (serves_writeBackWord s ..).trans (serves_owners _ _)
  · split
    · exact serves_registering s _
    · exact serves_owners s _

theorem serves_prefLine (s : State) (k c order pa : Nat) (stable : Bool) : Serves s (prefLine s k c order pa stable) := by
  have hown : Serves s (if order = 2 then ownLine s (l1Loc s k pa) (pa / 64) else s) := by
    split
    · exact serves_ownLine s ..
    · exact .refl s
  unfold prefLine
  dsimp only
  split
  · exact serves_l2Touch s ..
  · exact hown.trans (serves_l1Words ..)

/-! ## The end of an instruction whose work the memory does -/

/-- Its vector registers and predicates, and the latches, are as they were; its lanes go on. -/
theorem Serves.concluded {c : Ctx} (h : Serves s t) (ht : team? s c.key = some c.team) :
    (∃ u, team? (conclude c { s := t }) c.key = some u ∧ u.v = c.team.v ∧ u.p = c.team.p) ∧ GoesOn c (conclude c { s := t }) ∧
      LatchesKept c s (conclude c { s := t }) ∧ (conclude c { s := t }).reqs = s.reqs ∧ (conclude c { s := t }).ops = s.ops := by
  obtain ⟨y, hy, hv, hp⟩ := h.stays ht
  have hrest := conclude_rest (c := c) (r := { s := t }) rfl rfl
  obtain ⟨z, hz, hkept, -⟩ := (conclude_concludes c { s := t } rfl rfl (fun _ he => by cases he)).own y hy
  exact ⟨⟨z, hz, ((congrArg Team.v hkept : z.kept.v = _)).trans hv, ((congrArg Team.p hkept : z.kept.p = _)).trans hp⟩,
    goesOn_conclude rfl rfl rfl rfl hy, conclude_latchesKept rfl rfl h.bench,
    ((congrArg State.reqs hrest : _) : (conclude c { s := t }).reqs = t.reqs).trans h.reqs,
    ((congrArg State.ops hrest : _) : (conclude c { s := t }).ops = t.ops).trans h.ops⟩

end

end Sys2Proof.Machine

/-! # CLAIM (08 R169) -/

namespace Sys2Proof.Machine

open Sys2Proof.Spec

/-! ## What the memory's work leaves of the claims -/

section
variable {s t : State} {k c g : Nat}

theorem Serves.core_eq {α : Type} (h : Serves s t) (f : Core → α) (hf : ∀ x, f x.sansCaches = f x) (k : Nat) : f (core t k) = f (core s k) := by
  rw [← hf, h.cores, hf]

theorem Serves.state_eq {α : Type} (h : Serves s t) (f : State → α) (hf : ∀ x, f x.sansMemory = f x) : f t = f s := by
  rw [← hf, h.rest, hf]

theorem Serves.groupOf (h : Serves s t) : groupOf t k g = groupOf s k g :=
  h.core_eq (fun x => Tab.getD x.groups g {}) (fun _ => rfl) k

theorem Serves.localMember (h : Serves s t) : localMember t c = localMember s c := h.state_eq (Machine.localMember · c) fun _ => rfl

theorem Serves.departing (h : Serves s t) : departing t c = departing s c := h.state_eq (Machine.departing · c) fun _ => rfl

/-- Whether a CLAIM announces nothing, and why, does not depend on what the memory has done. -/
theorem Serves.claimReason (h : Serves s t) : claimReason t k c g = claimReason s k c g := by
  have hgroup : Machine.groupOf t k g = Machine.groupOf s k g := h.groupOf
  have hspan : pathSpan t k c = pathSpan s k c := h.state_eq (pathSpan · k c) fun _ => rfl
  have hrank : rankOf t k c g = rankOf s k c g := by rw [rankOf, hgroup, h.localMember, rankOf]
  have hleaving : groupLeaving t k c g = groupLeaving s k c g := by rw [groupLeaving, hgroup, h.localMember, h.departing, groupLeaving]
  have hspans : groupSpan t k c g = groupSpan s k c g := by rw [groupSpan, hgroup, hspan, groupSpan]
  have hclwin : (core t k).clwin = (core s k).clwin := h.core_eq Core.clwin (fun _ => rfl) k
  have hout : (core t k).outgoing = (core s k).outgoing := h.core_eq Core.outgoing (fun _ => rfl) k
  simp only [Machine.claimReason, hrank, hgroup, hleaving, hspans, hclwin, hout]

end

/-! ## The announcement (16 R285, R286) -/

/-- From `s` to `t` messages of the claims have been sent, and nothing else has changed. -/
def Sends (s t : State) : Prop := { t with out := [], plane := [] } = { s with out := [], plane := [] }

section
variable {s t : State} {k c g : Nat} {a : Announcement}

theorem announceTo_sends {m : Word} (h : announceTo s k c a m = some t) : Sends s t := by
  unfold announceTo at h
  split at h
  · cases h
  · split at h
    · cases h
      rfl
    · split at h
      · split at h
        · cases h
          rfl
        · cases h
          rfl
      · cases h

theorem announce_sends (s : State) (k c g : Nat) (a : Announcement) : Sends s (announce s k c g a).1 := by
  unfold announce
  suffices hfold : ∀ (l : Tab Word) (acc : State × Bool), Sends acc.1
      (l.foldl (fun (acc : State × Bool) m => match announceTo acc.1 k c a m.2 with
        | some s => (s, acc.2)
        | none => (acc.1, true)) acc).1 from hfold _ (s, false)
  intro l
  induction l with
  | nil => exact fun _ => rfl
  | cons m l ih =>
    intro acc
    rw [List.foldl_cons]
    cases hto : announceTo acc.1 k c a m.2 with
    | none => exact ih (acc.1, true)
    | some u => exact (ih (u, acc.2)).trans (announceTo_sends hto)

end

/-! ## The proposal (08 R169) -/

section
variable {c : Ctx} {s : State}

theorem freeHandle_lt (x : Core) : freeHandle x < 16 := by
  unfold freeHandle
  cases h : (List.range 16).find? fun i => (Tab.get? x.outgoing i).isNone with
  | none => decide
  | some i => exact List.mem_range.mp (List.mem_of_find?_eq_some h)

/-- A proposal of the issuing team with the operands of its CLAIM, whose window closes after CLWIN's beats. -/
def ProposedBy (c : Ctx) (g beats now : Nat) (p : Proposal) : Prop :=
  p.team = c.key ∧ p.group = g ∧ p.key = c.s 2 ∧ p.value = c.s 3 ∧ p.va = c.pair 0 % 2 ^ 57 ∧ p.beats = beats ∧ p.close = now + p.beats

/-- The core with a proposal under a handle. -/
def proposed (k h : Nat) (p : Proposal) (s : State) : State :=
  setCore s k { core s k with outgoing := Tab.put (core s k).outgoing h p, claimSerial := ((core s k).claimSerial + 1) % 2 ^ 22 }

theorem propose_eq (g : Nat) (c : Ctx) (s : State) (pa : Nat) : ∃ u p, Sends s u ∧
    ProposedBy c g (Tab.getD (core s c.place.core).clwin g 0).toNat (beat s) p ∧
    propose g c s pa = writeScalar c (BitVec.ofNat 32 (freeHandle (core s c.place.core)))
      (proposed c.place.core (freeHandle (core s c.place.core)) p u) := by
  unfold propose
  dsimp only
  split
  · exact ⟨s, _, rfl, ⟨rfl, rfl, rfl, rfl, rfl, rfl, rfl⟩, rfl⟩
  · exact ⟨_, _, announce_sends .., ⟨rfl, rfl, rfl, rfl, rfl, rfl, rfl⟩, rfl⟩

/-- What an instruction tells in its scalar destination once the memory has worked for it. -/
theorem told_conclude {u : State} {y : Team} (hu : team? u c.key = some y) (n : Word) :
    ∃ z, team? (conclude c { s := writeScalar c n u }) c.key = some z ∧ z.v = y.v ∧ z.p = y.p ∧
      ∀ d, c.shape.sd.map (·.1) = some d → Team.scalar z d.toNat = n := by
  obtain ⟨x, hx, hv, hp, hscalar⟩ := status_written hu n
  obtain ⟨z, hz, hkept, -⟩ := (conclude_concludes c { s := writeScalar c n u } rfl rfl (fun _ he => by cases he)).own x hx
  refine ⟨z, hz, (congrArg Team.v hkept : z.kept.v = _).trans hv, (congrArg Team.p hkept : z.kept.p = _).trans hp, fun d hd => ?_⟩
  obtain ⟨e, he, hed⟩ := Option.map_eq_some_iff.mp hd
  rw [scalar_kept hkept, hscalar, status, he, ← hed]
  simp

theorem core_told (u : State) (n : Word) (k : Nat) : core (conclude c { s := writeScalar c n u }) k = core u k := by
  have hcores := (conclude_device (c := c) (r := { s := writeScalar c n u }) rfl rfl).2.2.2.2.1
  rw [core, hcores, writeScalar, writeScalars]
  split
  · rw [← core, core_onTeam]
  · rfl

end

/-! ## The instruction -/

section
variable {k : BitVec 3} {x : SF} {s : State} {c : Ctx}

/-- The state in which a CLAIM announces: its target has been translated, and its release performed. -/
def claimState (k : BitVec 3) (c : Ctx) (s : State) : State :=
  releaseAt (pageOf c s .wr (claimVa c)).1 c.place.core
    (spanScope (groupSpan (pageOf c s .wr (claimVa c)).1 c.place.core c.team.comp k.toNat))

def claimEffect (k : BitVec 3) (c : Ctx) (s : State) : Done :=
  let (s, pa, _) := pageOf c s .wr (claimVa c)
  let s := releaseAt s c.place.core (spanScope (groupSpan s c.place.core c.team.comp k.toNat))
  match claimReason s c.place.core c.team.comp k.toNat with
  | some r => { s := writeScalar c (BitVec.ofNat 32 (0x100 + r)) s }
  | none => { s := propose k.toNat c s pa }

theorem claimEffect_eq (k : BitVec 3) (c : Ctx) (s : State) : claimEffect k c s =
    match claimReason (claimState k c s) c.place.core c.team.comp k.toNat with
    | some r => { s := writeScalar c (BitVec.ofNat 32 (0x100 + r)) (claimState k c s) }
    | none => { s := propose k.toNat c (claimState k c s) (pageOf c s .wr (claimVa c)).2.1 } := by
  unfold claimEffect claimState
  obtain ⟨u, pa, st⟩ := pageOf c s .wr (claimVa c)
  rfl

theorem exec_claim (k : BitVec 3) (x : SF) (s : State) : exec (.claim k x) s =
    performPriv (Instr.shape (.claim k x)) (privOf (.claim k x)) (claimGate k.toNat x.d.toNat) (claimEffect k) s := by
  show execClaim k x s = _
  unfold execClaim performGated
  refine congrArg (fun eff => performPriv (Shape.s3 0x21 x 1 2 2) privCheck (claimGate k.toNat x.d.toNat) eff s) ?_
  funext c s
  unfold claimEffect
  obtain ⟨u, pa, st⟩ := pageOf c s .wr (claimVa c)
  rfl

theorem serves_claimState (k : BitVec 3) (c : Ctx) (s : State) : Serves s (claimState k c s) :=
  (serves_pageOf ..).trans (serves_releaseAt ..)

/-- A CLAIM that announces nothing tells why. -/
theorem claim_refused {r : Nat} (ht : team? s c.key = some c.team) (hr : claimReason s c.place.core c.team.comp k.toNat = some r) :
    ∃ u, team? (conclude c (claimEffect k c s)) c.key = some u ∧ u.v = c.team.v ∧ u.p = c.team.p ∧
      (∀ d, c.shape.sd.map (·.1) = some d → Team.scalar u d.toNat = BitVec.ofNat 32 (0x100 + r)) ∧
      (core (conclude c (claimEffect k c s)) c.place.core).outgoing = (core s c.place.core).outgoing := by
  have hserves := serves_claimState k c s
  obtain ⟨y, hy, hv, hp⟩ := hserves.stays ht
  obtain ⟨u, hu, huv, hup, htold⟩ := told_conclude hy (BitVec.ofNat 32 (0x100 + r))
  rw [claimEffect_eq, hserves.claimReason, hr]
  refine ⟨u, hu, huv.trans hv, hup.trans hp, htold, ?_⟩
  rw [core_told]
  exact hserves.core_eq Core.outgoing (fun _ => rfl) _

/-- A CLAIM that announces tells the handle of its proposal. -/
theorem claim_announced (ht : team? s c.key = some c.team) (hnone : claimReason s c.place.core c.team.comp k.toNat = none) :
    ∃ u h p, team? (conclude c (claimEffect k c s)) c.key = some u ∧ u.v = c.team.v ∧ u.p = c.team.p ∧ h < 16 ∧
      (∀ d, c.shape.sd.map (·.1) = some d → Team.scalar u d.toNat = BitVec.ofNat 32 h) ∧
      Tab.get? (core (conclude c (claimEffect k c s)) c.place.core).outgoing h = some p ∧
      ProposedBy c k.toNat (Tab.getD (core s c.place.core).clwin k.toNat 0).toNat (beat s) p := by
  have hserves := serves_claimState k c s
  have hbeat : beat (claimState k c s) = beat s := hserves.state_eq beat fun _ => rfl
  have hclwin : (core (claimState k c s) c.place.core).clwin = (core s c.place.core).clwin := hserves.core_eq Core.clwin (fun _ => rfl) _
  obtain ⟨y, hy, hv, hp⟩ := hserves.stays ht
  rw [claimEffect_eq, hserves.claimReason, hnone]
  dsimp only
  obtain ⟨w, p, hsends, hproposed, heq⟩ := propose_eq k.toNat c (claimState k c s) (pageOf c s .wr (claimVa c)).2.1
  rw [hclwin, hbeat] at hproposed
  rw [heq]
  generalize freeHandle (core (claimState k c s) c.place.core) = h, freeHandle_lt (core (claimState k c s) c.place.core) = hlt
  have hteam : team? (proposed c.place.core h p w) c.key = some y := by
    have hteams : w.teams = (claimState k c s).teams := (congrArg State.teams hsends : _)
    exact (congrArg (fun l => Tab.get? l c.key) hteams).trans hy
  obtain ⟨u, hu, huv, hup, htold⟩ := told_conclude hteam (BitVec.ofNat 32 h)
  refine ⟨u, h, p, hu, huv.trans hv, hup.trans hp, hlt, htold, ?_, hproposed⟩
  rw [core_told, proposed, core_setCore, if_pos rfl, Tab.get?_put, if_pos rfl]

end

/-- Settles O40: the reason is the same once the target has been translated and the release performed, and the proposal is made in the state
that these have left. -/
theorem claimsAnnounce : Obligations.ClaimsAnnounce := by
  unfold Obligations.ClaimsAnnounce
  intro k x s c h hgate
  have ht := (context_team h.1).1
  cases hreason : claimReason s c.place.core c.team.comp k.toNat with
  | some r =>
    obtain ⟨u, hu, hv, hp, htold, hout⟩ := claim_refused ht hreason
    refine ⟨_, u, exec_of_gate_go (exec_claim k x s) h hgate, hu, hv, hp, fun r' hr => ?_, fun hnone => by cases hnone⟩
    obtain rfl := Option.some.inj hr
    exact ⟨htold, hout⟩
  | none =>
    obtain ⟨u, i, p, hu, hv, hp, hlt, htold, hget, hproposed⟩ := claim_announced ht hreason
    exact ⟨_, u, exec_of_gate_go (exec_claim k x s) h hgate, hu, hv, hp, fun _ hr => (by cases hr),
      fun _ => ⟨i, p, hlt, htold, hget, hproposed⟩⟩

end Sys2Proof.Machine

/-! # Fences and cache control (08 R157 to R161, 10 R206 to R208, 11 R213) -/

namespace Sys2Proof.Machine

open Sys2Proof.Spec

/-! ## Tables in the order of their keys -/

section
variable {α : Type}

theorem Tab.mem_of_get? {l : Tab α} {k : Nat} {v : α} (h : Tab.get? l k = some v) : (k, v) ∈ l := by
  induction l with
  | nil => cases h
  | cons e l ih =>
    rw [Tab.get?] at h
    split at h
    · rename_i hk
      rw [← hk, ← Option.some.inj h]
      exact List.mem_cons_self
    · exact List.mem_cons_of_mem _ (ih h)

theorem Tab.mem_put {l : Tab α} {k : Nat} {v : α} {x : Nat × α} (h : x ∈ Tab.put l k v) : x = (k, v) ∨ x ∈ l := by
  induction l with
  | nil => exact .inl (List.mem_singleton.mp h)
  | cons e l ih =>
    rw [Tab.put] at h
    split at h
    · exact (List.mem_cons.mp h).imp_right id
    · split at h
      · exact (List.mem_cons.mp h).imp_right (List.mem_cons_of_mem _)
      · rcases List.mem_cons.mp h with rfl | h
        · exact .inr List.mem_cons_self
        · exact (ih h).imp_right (List.mem_cons_of_mem _)

/-- The keys rise, each once. -/
def Tab.InOrder (l : Tab α) : Prop := (l.map (·.1)).Pairwise (· < ·)

theorem Tab.inOrder_cons {e : Nat × α} {l : Tab α} : Tab.InOrder (e :: l) ↔ (∀ x ∈ l, e.1 < x.1) ∧ Tab.InOrder l := by
  simp [Tab.InOrder, List.pairwise_cons]

theorem Tab.InOrder.filter {l : Tab α} (h : Tab.InOrder l) (p : Nat × α → Bool) : Tab.InOrder (l.filter p) :=
  List.Pairwise.sublist (List.filter_sublist.map _) h

theorem Tab.InOrder.put {l : Tab α} (h : Tab.InOrder l) (k : Nat) (v : α) : Tab.InOrder (Tab.put l k v) := by
  induction l with
  | nil => simp [Tab.put, Tab.InOrder]
  | cons e l ih =>
    obtain ⟨hfirst, hrest⟩ := Tab.inOrder_cons.mp h
    rw [Tab.put]
    split
    · rename_i hk
      refine Tab.inOrder_cons.mpr ⟨fun x hx => ?_, h⟩
      rcases List.mem_cons.mp hx with rfl | hx
      · exact hk
      · exact hk.trans (hfirst x hx)
    · split
      · rename_i hk
        exact Tab.inOrder_cons.mpr ⟨fun x hx => hk ▸ hfirst x hx, hrest⟩
      · refine Tab.inOrder_cons.mpr ⟨fun x hx => ?_, ih hrest⟩
        rcases Tab.mem_put hx with rfl | hx
        · dsimp only
          omega
        · exact hfirst x hx

/-- An entry of a table in order is what its key reads. -/
theorem Tab.InOrder.get?_of_mem {l : Tab α} (h : Tab.InOrder l) {x : Nat × α} (hx : x ∈ l) : Tab.get? l x.1 = some x.2 := by
  induction l with
  | nil => cases hx
  | cons e l ih =>
    obtain ⟨hfirst, hrest⟩ := Tab.inOrder_cons.mp h
    rw [Tab.get?]
    rcases List.mem_cons.mp hx with rfl | hx
    · exact if_pos rfl
    · rw [if_neg (Nat.ne_of_lt (hfirst x hx))]
      exact ih hrest hx

end

/-! ## L1s whose words leave or become clean -/

/-- Every word of the second L1 comes from the first, and may have become clean. -/
structure Cleans (l m : Tab L1Word) : Prop where
  source : ∀ w ∈ m, ∃ v, (w.1, v) ∈ l ∧ (w.2 = v ∨ w.2 = { v with dirty := false })
  order : Tab.InOrder l → Tab.InOrder m

section
variable {l m n : Tab L1Word}

theorem Cleans.refl (l : Tab L1Word) : Cleans l l := ⟨fun w hw => ⟨w.2, hw, .inl rfl⟩, id⟩

theorem Cleans.trans (h : Cleans l m) (k : Cleans m n) : Cleans l n := by
  refine ⟨fun w hw => ?_, k.order ∘ h.order⟩
  obtain ⟨v, hv, hwv⟩ := k.source w hw
  obtain ⟨x, hx, hvx⟩ := h.source (w.1, v) hv
  obtain rfl | rfl : v = x ∨ v = { x with dirty := false } := hvx
  · exact ⟨v, hx, hwv⟩
  · exact ⟨x, hx, .inr (hwv.elim id id)⟩

theorem cleans_filter (l : Tab L1Word) (p : Nat × L1Word → Bool) : Cleans l (l.filter p) :=
  ⟨fun w hw => ⟨w.2, (List.mem_filter.mp hw).1, .inl rfl⟩, fun h => h.filter p⟩

theorem cleans_put {w : Nat} {v : L1Word} (h : Tab.get? l w = some v) : Cleans l (Tab.put l w { v with dirty := false }) := by
  refine ⟨fun x hx => ?_, fun ho => ho.put _ _⟩
  rcases Tab.mem_put hx with rfl | hx
  · exact ⟨v, Tab.mem_of_get? h, .inr rfl⟩
  · exact ⟨x.2, hx, .inl rfl⟩

/-- Words that were clean are clean, or gone. -/
theorem Cleans.clean (P : Nat → Prop) (h : Cleans l m) (hl : ∀ w ∈ l, P w.1 → w.2.dirty = false) :
    ∀ w ∈ m, P w.1 → w.2.dirty = false := by
  intro w hw hP
  obtain ⟨v, hv, hwv⟩ := h.source w hw
  rcases hwv with hwv | hwv
  · rw [hwv]
    exact hl _ hv hP
  · rw [hwv]

/-- Words that were not there do not come. -/
theorem Cleans.gone (P : Nat → Prop) (h : Cleans l m) (hl : ∀ w ∈ l, P w.1) : ∀ w ∈ m, P w.1 := by
  intro w hw
  obtain ⟨v, hv, -⟩ := h.source w hw
  exact hl (w.1, v) hv

end

/-- In every L1 words have left or become clean. -/
def L1sClean (s t : State) : Prop := ∀ j, Cleans (core s j).l1 (core t j).l1

section
variable {s t u : State}

theorem L1sClean.refl (s : State) : L1sClean s s := fun _ => .refl _

theorem L1sClean.trans (h : L1sClean s t) (k : L1sClean t u) : L1sClean s u := fun j => (h j).trans (k j)

theorem l1sClean_foldl {α : Type} {f : State → α → State} (hf : ∀ s x, L1sClean s (f s x)) (l : List α) (s : State) :
    L1sClean s (l.foldl f s) := by
  induction l generalizing s with
  | nil => exact .refl s
  | cons x r ih => exact (hf s x).trans (ih (f s x))

theorem L1sClean.of_cores (h : t.cores = s.cores) : L1sClean s t := fun j => by
  rw [core, core, h]
  exact .refl _

theorem l1sClean_setCore {k : Nat} {x : Core} (h : Cleans (core s k).l1 x.l1) : L1sClean s (setCore s k x) := fun j => by
  rw [core_setCore]
  split
  · rename_i hj
    rw [← hj]
    exact h
  · exact .refl _

/-! ## Writes at the home leave the cores -/

theorem noteLine_cores (s : State) (key line words : Nat) : (noteLine s key line words).cores = s.cores := by
  unfold noteLine
  split
  · rfl
  · rfl

theorem tagLine_cores (s : State) (key line mask : Nat) : (tagLine s key line mask).cores = s.cores := by
  unfold tagLine
  dsimp only
  split
  · split
    · rfl
    · rfl
  · rfl

theorem tagRange_cores (s : State) (key a n : Nat) : (tagRange s key a n).cores = s.cores := by
  unfold tagRange
  split
  · rfl
  · exact foldl_field State.cores (fun s _ => tagLine_cores s ..) _ s

theorem putHome_cores (s : State) (key pa : Nat) (bs : List Byte) : (putHome s key pa bs).cores = s.cores :=
  (tagRange_cores (noteWrite s key pa bs.length) key pa bs.length).trans
    (foldl_field State.cores (fun s _ => noteLine_cores s ..) (lineSpans pa bs.length) s)

theorem orDesc_cores (s : State) (key d m : Nat) : (orDesc s key d m).cores = s.cores := by
  unfold orDesc
  dsimp only
  split
  · rfl
  · exact putHome_cores s ..

theorem markLeaf_cores (s : State) (key : Nat) (l : Leaf) (write : Bool) : (markLeaf s key l write).cores = s.cores := by
  unfold markLeaf
  dsimp only
  split
  · exact (foldl_field State.cores (fun s _ => orDesc_cores s ..) _ _).trans (orDesc_cores s ..)
  · exact orDesc_cores s ..

theorem markLeaves_cores (s : State) (c : Nat) (x : Combined) (write : Bool) : (markLeaves s c x write).cores = s.cores := by
  have hfirst : (match x.l1 with | some l => markLeaf s (compKey s c) l write | none => s).cores = s.cores := by
    split
    · exact markLeaf_cores s ..
    · rfl
  unfold markLeaves
  dsimp only
  split
  · exact hfirst
  · exact (markLeaf_cores ..).trans hfirst

theorem markWalk_cores (s : State) (cl : Option Nat) (c va : Nat) (write granted : Bool) :
    (markWalk s cl c va write granted).cores = s.cores := by
  have htables : ∀ ls : List Leaf, (ls.foldl (fun s l => markLeaf s (keyNum s 0) l false) s).cores = s.cores := fun ls =>
    foldl_field State.cores (fun s _ => markLeaf_cores s ..) ls s
  unfold markWalk
  dsimp only
  split
  · exact (markLeaves_cores ..).trans (htables _)
  · split
    · split
      · exact (markLeaf_cores ..).trans (htables _)
      · exact htables _
    · exact htables _

theorem markRange_cores (s : State) (k c base len : Nat) : (markRange s k c base len).cores = s.cores := by
  refine foldl_field State.cores (fun s p => ?_) _ s
  unfold markRefused
  split
  · rfl
  · exact markWalk_cores s ..

/-! ## Wakes and write-backs clean the L1s -/

theorem l1sClean_acquireAt (s : State) (k scope : Nat) : L1sClean s (acquireAt s k scope) := by
  unfold acquireAt
  split
  · refine l1sClean_foldl (fun s j => ?_) _ s
    exact l1sClean_setCore (cleans_filter _ _)
  · exact .refl s

theorem l1sClean_wakeMonitors (s : State) (point : Option Nat) (lo n : Nat) : L1sClean s (wakeMonitors s point lo n) :=
  l1sClean_foldl (fun s _ => (l1sClean_foldl (fun s _ => l1sClean_acquireAt s _ _) _ s).trans (.of_cores (onTeam_cores ..))) _ s

theorem matchWatches_cores (s : State) (lo n : Nat) (by' : Option Nat) : (matchWatches s lo n by').cores = s.cores := by
  refine foldl_field State.cores (fun s w => ?_) s.watches s
  dsimp only
  split
  · rfl
  · rfl

theorem l1sClean_writeHome (s : State) (key pa : Nat) (bs : List Byte) (by' : Option Nat) : L1sClean s (writeHome s key pa bs by') :=
  (L1sClean.of_cores (t := disown (putHome s key pa bs) pa bs.length) (putHome_cores ..)).trans
    ((l1sClean_wakeMonitors _ none pa bs.length).trans (.of_cores (matchWatches_cores ..)))

theorem registerWord_cores (s : State) (k w : Nat) : (registerWord s k w).cores = s.cores := by
  unfold registerWord
  split
  · rfl
  · rfl

/-- The state in which a dirty word has been registered and its mark has gone, before it is written. -/
def wordCleaned (s : State) (k w : Nat) (v : L1Word) : State :=
  setCore (registerWord s k w) k (cleanWord (core (registerWord s k w) k) w v)

theorem wordCleaned_l1 (s : State) (k w : Nat) (v : L1Word) :
    (core (wordCleaned s k w v) k).l1 = Tab.put (core s k).l1 w { v with dirty := false } := by
  rw [wordCleaned, core_setCore, if_pos rfl, cleanWord, core, registerWord_cores, ← core]

theorem l1sClean_wordCleaned {k w : Nat} {v : L1Word} (h : Tab.get? (core s k).l1 w = some v) : L1sClean s (wordCleaned s k w v) := by
  refine (L1sClean.of_cores (registerWord_cores s k w)).trans (l1sClean_setCore ?_)
  refine cleans_put ?_
  rw [core, registerWord_cores, ← core, h]

theorem writeBackWord_eq {k w : Nat} {v : L1Word} (h : Tab.get? (core s k).l1 w = some v) (hv : v.dirty = true) : writeBackWord s k w =
    if Tab.get? (wordCleaned s k w v).owners w = some k
    then writeHome (wordCleaned s k w v) v.key (4 * w) (Bits.leBytes 4 v.val.toNat) (some k) else wordCleaned s k w v := by
  rw [writeBackWord, h]
  exact if_pos hv

/-- A word that is written back becomes clean there, and nothing else that is dirty comes of it. -/
theorem l1sClean_written (s : State) (k w : Nat) (v : L1Word) : L1sClean (wordCleaned s k w v)
    (if Tab.get? (wordCleaned s k w v).owners w = some k
      then writeHome (wordCleaned s k w v) v.key (4 * w) (Bits.leBytes 4 v.val.toNat) (some k) else wordCleaned s k w v) := by
  split
  · exact l1sClean_writeHome _ _ _ _ _
  · exact .refl _

theorem l1sClean_writeBackWord (s : State) (k w : Nat) : L1sClean s (writeBackWord s k w) := by
  cases h : Tab.get? (core s k).l1 w with
  | none =>
    rw [writeBackWord, h]
    exact .refl s
  | some v =>
    by_cases hv : v.dirty = true
    · rw [writeBackWord_eq h hv]
      exact (l1sClean_wordCleaned h).trans (l1sClean_written s k w v)
    · rw [writeBackWord, h]
      dsimp only
      rw [if_neg hv]
      exact .refl s

theorem l1sClean_writeBackIf (s : State) (k : Nat) (p : Nat → Bool) : L1sClean s (writeBackIf s k p) :=
  l1sClean_foldl (fun s _ => l1sClean_writeBackWord s _ _) _ s

theorem l1sClean_dropWords (s : State) (k : Nat) (p : Nat → Bool) : L1sClean s (dropWords s k p) :=
  (l1sClean_writeBackIf s k p).trans (l1sClean_setCore (cleans_filter _ _))

/-! ## What a write-back leaves of an L1 -/

/-- The word that is written back is clean. -/
theorem writeBackWord_clean {k : Nat} (ho : Tab.InOrder (core s k).l1) (w : Nat) :
    ∀ x ∈ (core (writeBackWord s k w) k).l1, x.1 = w → x.2.dirty = false := by
  cases h : Tab.get? (core s k).l1 w with
  | none =>
    rw [writeBackWord, h]
    rintro x hx rfl
    rw [ho.get?_of_mem hx] at h
    cases h
  | some v =>
    by_cases hv : v.dirty = true
    · rw [writeBackWord_eq h hv]
      refine (l1sClean_written s k w v k).clean (· = w) fun x hx hxw => ?_
      rw [wordCleaned_l1] at hx
      have hget := (ho.put w { v with dirty := false }).get?_of_mem hx
      rw [Tab.get?_put, if_pos hxw.symm] at hget
      rw [← Option.some.inj hget]
    · rw [writeBackWord, h]
      dsimp only
      rw [if_neg hv]
      rintro x hx rfl
      rw [ho.get?_of_mem hx] at h
      rw [Option.some.inj h]
      exact Bool.eq_false_iff.mpr hv

/-- The words that a write-back picks are clean then. -/
theorem writeBackIf_clean {k : Nat} (p : Nat → Bool) (ho : Tab.InOrder (core s k).l1) :
    ∀ w ∈ (core (writeBackIf s k p) k).l1, p w.1 = true → w.2.dirty = false := by
  -- the dirty words that are picked are among those that are still to be written back
  suffices hfold : ∀ (l : List (Nat × L1Word)) (s : State), Tab.InOrder (core s k).l1 →
      (∀ w ∈ (core s k).l1, w.2.dirty = true → p w.1 = true → ∃ v, (w.1, v) ∈ l) →
      ∀ w ∈ (core (l.foldl (fun s w => writeBackWord s k w.1) s) k).l1, p w.1 = true → w.2.dirty = false by
    refine hfold _ s ho fun w hw hdirty hp => ⟨w.2, List.mem_filter.mpr ⟨hw, ?_⟩⟩
    rw [hdirty, hp]
    rfl
  intro l
  induction l with
  | nil =>
    intro s _ hleft w hw hp
    refine Bool.eq_false_iff.mpr fun hdirty => ?_
    obtain ⟨v, hv⟩ := hleft w hw hdirty hp
    cases hv
  | cons e l ih =>
    intro s ho hleft
    rw [List.foldl_cons]
    have hcleans := l1sClean_writeBackWord s k e.1 k
    refine ih _ (hcleans.order ho) fun w hw hdirty hp => ?_
    have hne : w.1 ≠ e.1 := fun he => by
      rw [writeBackWord_clean ho e.1 w hw he] at hdirty
      cases hdirty
    obtain ⟨v, hv, hwv | hwv⟩ := hcleans.source w hw
    · obtain ⟨x, hx⟩ := hleft (w.1, v) hv (hwv ▸ hdirty) hp
      refine ⟨x, (List.mem_cons.mp hx).resolve_left fun he => hne ?_⟩
      rw [← he]
    · rw [hwv] at hdirty
      cases hdirty

/-- The same of each of some L1s. -/
theorem foldl_writeBackIf_clean (p : Nat → Bool) (l : List Nat) {j : Nat} (hj : j ∈ l) (ho : Tab.InOrder (core s j).l1) :
    ∀ w ∈ (core (l.foldl (fun s j => writeBackIf s j p) s) j).l1, p w.1 = true → w.2.dirty = false := by
  induction l generalizing s with
  | nil => cases hj
  | cons i l ih =>
    rw [List.foldl_cons]
    by_cases hij : j = i
    · subst hij
      exact (l1sClean_foldl (fun s i => l1sClean_writeBackIf s i p) l _ j).clean (fun w => p w = true) (writeBackIf_clean p ho)
    · exact ih ((List.mem_cons.mp hj).resolve_left hij) ((l1sClean_writeBackIf s i p j).order ho)

/-- The words that are dropped are gone from each of some L1s. -/
theorem foldl_dropWords_gone (p : Nat → Bool) (l : List Nat) {j : Nat} (hj : j ∈ l) :
    ∀ w ∈ (core (l.foldl (fun s j => dropWords s j p) s) j).l1, p w.1 = false := by
  induction l generalizing s with
  | nil => cases hj
  | cons i l ih =>
    rw [List.foldl_cons]
    by_cases hij : j = i
    · subst hij
      refine (l1sClean_foldl (fun s i => l1sClean_dropWords s i p) l _ j).gone (fun w => p w = false) fun w hw => ?_
      rw [dropWords, core_setCore, if_pos rfl] at hw
      simpa using (List.mem_filter.mp hw).2
    · exact ih ((List.mem_cons.mp hj).resolve_left hij)

/-- An acquire at .cl or wider leaves the words that are dirty or of stable pages (10 R208). -/
theorem acquireAt_l1 {k scope j : Nat} (hscope : 3 ≤ scope) (hj : j ∈ l1Group s k) :
    (core (acquireAt s k scope) j).l1 = (core s j).l1.filter fun w => w.2.dirty || w.2.stable := by
  rw [acquireAt, if_pos hscope, acquireL1]
  generalize l1Group s k = l at hj
  suffices hfold : ∀ (l : List Nat) (s : State), (core (l.foldl (fun s j => setCore s j
      { core s j with l1 := (core s j).l1.filter fun w => w.2.dirty || w.2.stable }) s) j).l1 =
      if j ∈ l then (core s j).l1.filter fun w => w.2.dirty || w.2.stable else (core s j).l1 from (hfold l s).trans (if_pos hj)
  intro l
  induction l with
  | nil => exact fun _ => rfl
  | cons i l ih =>
    intro s
    rw [List.foldl_cons, ih, core_setCore]
    by_cases hij : i = j
    · subst hij
      simp [List.filter_filter]
    · simp [hij, Ne.symm hij]

/-- A release at .cl or wider leaves no dirty word (10 R207). -/
theorem releaseAt_clean {k scope j : Nat} (hscope : 3 ≤ scope) (hj : j ∈ l1Group s k) (ho : Tab.InOrder (core s j).l1) :
    ∀ w ∈ (core (releaseAt s k scope) j).l1, w.2.dirty = false := by
  rw [releaseAt, if_pos hscope]
  exact fun w hw => foldl_writeBackIf_clean (fun _ => true) (l1Group s k) hj ho w hw rfl

/-- Nothing is written back where no word is picked. -/
theorem writeBackIf_none (k : Nat) {p : Nat → Bool} (hp : ∀ w, p w = false) : writeBackIf s k p = s := by
  have hnone : (core s k).l1.filter (fun w => w.2.dirty && p w.1) = [] :=
    List.filter_eq_nil_iff.mpr fun w _ => by rw [hp, Bool.and_false]; exact Bool.false_ne_true
  rw [writeBackIf, hnone]
  rfl

end

end Sys2Proof.Machine

/-! # A word that an L1 writes back is at its home (11 R213, 22 R341) -/

namespace Sys2Proof.Machine

open Sys2Proof.Spec

/-! ## The tag of a line -/

theorem runOf_setRun (ks : List KeyRun) {r : KeyRun} {line : Nat} (hlo : r.lo ≤ line) (hhi : line < r.hi) : runOf (setRun ks r) line = r := by
  rw [runOf, setRun, List.find?_cons_of_pos (by simp [hlo, hhi])]
  rfl

theorem land_lor_self (v m : Nat) : Nat.land (Nat.lor v m) m = m := by
  refine Nat.eq_of_testBit_eq fun i => ?_
  show ((v ||| m) &&& m).testBit i = m.testBit i
  rw [Nat.testBit_and, Nat.testBit_or]
  cases m.testBit i <;> simp

/-- A line that has been tagged holds the bytes of the mask under the key. -/
theorem tagLine_run (s : State) (key line mask : Nat) : (runOf (tagLine s key line mask).keys line).key = key ∧
    Nat.land (runOf (tagLine s key line mask).keys line).valid mask = mask := by
  unfold tagLine
  dsimp only
  split
  · rename_i hkey
    split
    · rename_i hvalid
      exact ⟨hkey, hvalid⟩
    · rw [runOf_setRun _ (le_refl _) (Nat.lt_succ_self _)]
      exact ⟨rfl, land_lor_self _ _⟩
  · rw [runOf_setRun _ (le_refl _) (Nat.lt_succ_self _)]
    exact ⟨rfl, Nat.and_self _⟩

theorem testBit_byteMask {off n i : Nat} (hlo : off ≤ i) (hhi : i < off + n) : (byteMask off n).testBit i = true := by
  rw [byteMask, Nat.testBit_mul_two_pow, Nat.testBit_two_pow_sub_one]
  simp only [Bool.and_eq_true, decide_eq_true_eq]
  omega

/-- A byte of a tagged mask is valid. -/
theorem testBit_of_land {v m i : Nat} (h : Nat.land v m = m) (hi : m.testBit i = true) : v.testBit i = true := by
  have hand : (v &&& m).testBit i = m.testBit i := congrArg (Nat.testBit · i) h
  rw [Nat.testBit_and, hi, Bool.and_true] at hand
  exact hand

/-- The bytes of a word lie in one line. -/
theorem tagRange_word (s : State) (key w : Nat) : tagRange s key (4 * w) 4 = tagLine s key (w / 16) (byteMask (4 * w - 64 * (w / 16)) 4) := by
  have hline : 4 * w / 64 = w / 16 := by omega
  have hone : (4 * w + 4 - 1) / 64 - 4 * w / 64 + 1 = 1 := by omega
  have hlo : max (4 * w) (64 * (w / 16)) = 4 * w := by omega
  have hhi : min (4 * w + 4) (64 * (w / 16) + 64) = 4 * w + 4 := by omega
  rw [tagRange, if_neg (by decide)]
  dsimp only
  rw [hone, List.range_one, List.foldl_cons, List.foldl_nil, Nat.add_zero, hline, hlo, hhi, Nat.add_sub_cancel_left]

/-! ## What a write at the home leaves there -/

theorem homeBytes_eq (s : State) (key a n : Nat) : homeBytes s key a n = (List.range n).map fun j => homeByte s key (a + j) := by
  induction n generalizing a with
  | zero => rfl
  | succ n ih =>
    rw [homeBytes, ih, List.range_succ_eq_map, List.map_cons, List.map_map, Nat.add_zero]
    congr 1
    refine List.map_congr_left fun j _ => ?_
    rw [Function.comp_apply, Nat.succ_eq_add_one, Nat.add_assoc, Nat.add_comm 1 j]

/-- A byte of a word placed at its home reads back under its key. -/
theorem homeByte_putHome (s : State) (key w : Nat) {bs : List Byte} (hbs : bs.length = 4) {j : Nat} (hj : j < 4) :
    homeByte (putHome s key (4 * w) bs) key (4 * w + j) = bs.getD j 0 := by
  have hkeys : (putHome s key (4 * w) bs).keys = (tagLine (noteWrite s key (4 * w) 4) key (w / 16) (byteMask (4 * w - 64 * (w / 16)) 4)).keys := by
    rw [← tagRange_word, ← hbs]
    rfl
  obtain ⟨hkey, hvalid⟩ := tagLine_run (noteWrite s key (4 * w) 4) key (w / 16) (byteMask (4 * w - 64 * (w / 16)) 4)
  have hbit := testBit_of_land hvalid (testBit_byteMask (i := (4 * w + j) % 64) (by omega) (by omega))
  have hmem : ∃ m, (putHome s key (4 * w) bs).mem = memWrite m (4 * w) bs := ⟨_, rfl⟩
  obtain ⟨m, hmem⟩ := hmem
  rw [homeByte, show (4 * w + j) / 64 = w / 16 by omega, hkeys, if_pos hkey, if_pos hbit, hmem, memByte_memWrite, hbs,
    if_pos (by omega), Nat.add_sub_cancel_left]

theorem homeByte_congr {s t : State} (hkeys : t.keys = s.keys) (hmem : t.mem = s.mem) (key a : Nat) : homeByte t key a = homeByte s key a := by
  rw [homeByte, hkeys, hmem, ← homeByte]

/-- Wakes write nothing at the home. -/
theorem wakeMonitors_home (s : State) (point : Option Nat) (lo n : Nat) :
    ((wakeMonitors s point lo n).keys, (wakeMonitors s point lo n).mem) = (s.keys, s.mem) := by
  refine foldl_field (fun s => (s.keys, s.mem)) (fun s kt => ?_) _ s
  dsimp only
  rw [onTeam_keys, onTeam_mem]
  refine foldl_field (fun s => (s.keys, s.mem)) (fun s sc => ?_) _ s
  have honly := coresOnly_acquireAt s (holdingCore s kt.1 kt.2) sc
  exact Prod.ext (congrArg State.keys honly : _) honly.mem

theorem matchWatches_home (s : State) (lo n : Nat) (by' : Option Nat) :
    ((matchWatches s lo n by').keys, (matchWatches s lo n by').mem) = (s.keys, s.mem) := by
  refine foldl_field (fun s => (s.keys, s.mem)) (fun s w => ?_) s.watches s
  dsimp only
  split
  · rfl
  · rfl

/-- A word written at its home is there. -/
theorem homeBytes_writeHome (s : State) (key w : Nat) {bs : List Byte} (hbs : bs.length = 4) (by' : Option Nat) :
    homeBytes (writeHome s key (4 * w) bs by') key (4 * w) 4 = bs := by
  obtain ⟨hkeys, hmem⟩ := Prod.ext_iff.mp ((matchWatches_home (wakeMonitors (disown (putHome s key (4 * w) bs) (4 * w) bs.length) none
    (4 * w) bs.length) (4 * w) bs.length by').trans (wakeMonitors_home (disown (putHome s key (4 * w) bs) (4 * w) bs.length) none (4 * w) bs.length))
  have hbyte : ∀ j, homeByte (writeHome s key (4 * w) bs by') key (4 * w + j) = homeByte (putHome s key (4 * w) bs) key (4 * w + j) := fun j =>
    homeByte_congr hkeys hmem key _
  rw [homeBytes_eq]
  refine List.ext_getElem (by simp [hbs]) fun j hj hjb => ?_
  rw [List.getElem_map, List.getElem_range, hbyte, homeByte_putHome s key w hbs (by omega), List.getD_eq_getElem _ _ hjb]

/-- A dirty word whose registration is its latest event, or arrives first, is at its home once it has been written back. -/
theorem homeBytes_writeBackWord {s : State} {k w : Nat} {v : L1Word} (h : Tab.get? (core s k).l1 w = some v) (hv : v.dirty = true)
    (hown : s.registering.contains (k, w) = true ∨ Tab.get? s.owners w = some k) :
    homeBytes (writeBackWord s k w) v.key (4 * w) 4 = Bits.leBytes 4 v.val.toNat := by
  have howner : Tab.get? (wordCleaned s k w v).owners w = some k := by
    show Tab.get? (registerWord s k w).owners w = some k
    unfold registerWord
    split
    · exact (Tab.get?_put ..).trans (if_pos rfl)
    · rename_i hnot
      exact hown.resolve_left hnot
  rw [writeBackWord_eq h hv, if_pos howner]
  exact homeBytes_writeHome _ v.key w (leBytes_length ..) (some k)

end Sys2Proof.Machine

/-! # FENCE, FLUSHR, INVR and PREF (08 R158 to R161) -/

namespace Sys2Proof.Machine

open Sys2Proof.Spec

/-! ## FENCE (08 R158) -/

section
variable {o : BitVec 2} {sc : BitVec 3} {x : SF} {s : State} {c : Ctx}

/-- The release of a fence: it has one of its order, or reaches beyond the device (11 R215). -/
def fenceReleased (o : BitVec 2) (sc : BitVec 3) (c : Ctx) (s : State) : State :=
  if o ≠ 0 || 5 ≤ sc.toNat then releaseAt s c.place.core sc.toNat else s

/-- The state in which a fence completes. -/
def fenced (o : BitVec 2) (sc : BitVec 3) (c : Ctx) (s : State) : State :=
  if o ≠ 1 then acquireAt (fenceReleased o sc c s) c.place.core sc.toNat else fenceReleased o sc c s

def fenceEffect (o : BitVec 2) (sc : BitVec 3) (c : Ctx) (s : State) : Done :=
  if 5 ≤ sc.toNat && c.team.lost ≠ 0 then
    { s := onTeam (fenced o sc c s) c.key fun t => { t with lost := 0 }, post := some { cause := 0x18, tpc := c.cur.pc } }
  else { s := fenced o sc c s }

theorem exec_fence (o : BitVec 2) (sc : BitVec 3) (x : SF) (s : State) : exec (.fence o sc x) s =
    performPriv (Instr.shape (.fence o sc x)) (privOf (.fence o sc x)) (fenceGate sc.toNat) (fenceEffect o sc) s := rfl

theorem serves_fenceReleased (o : BitVec 2) (sc : BitVec 3) (c : Ctx) (s : State) : Serves s (fenceReleased o sc c s) := by
  unfold fenceReleased
  split
  · exact serves_releaseAt ..
  · exact .refl s

theorem serves_fenced (o : BitVec 2) (sc : BitVec 3) (c : Ctx) (s : State) : Serves s (fenced o sc c s) := by
  unfold fenced
  split
  · exact (serves_fenceReleased o sc c s).trans (serves_acquireAt ..)
  · exact serves_fenceReleased o sc c s

/-- A fence below .cl leaves the caches alone. -/
theorem fenced_near (h : sc.toNat < 3) : fenced o sc c s = s := by
  have hreleased : fenceReleased o sc c s = s := by
    unfold fenceReleased releaseAt
    rw [if_neg (show ¬ 3 ≤ sc.toNat by omega), ite_self]
  unfold fenced acquireAt
  rw [hreleased, if_neg (show ¬ 3 ≤ sc.toNat by omega), ite_self]

/-- A fence that only acquires leaves memory. -/
theorem fenced_acquire (ho : o = 0) (h : sc.toNat < 5) : fenced o sc c s = acquireAt s c.place.core sc.toNat := by
  subst ho
  have hreleased : fenceReleased 0 sc c s = s := by
    unfold fenceReleased
    rw [if_neg (by simpa using h)]
  rw [fenced, if_pos (by decide), hreleased]

theorem fenced_mem (h : sc.toNat < 3 ∨ (o = 0 ∧ sc.toNat < 5)) : (fenced o sc c s).mem = s.mem := by
  rcases h with h | ⟨ho, h⟩
  · rw [fenced_near h]
  · rw [fenced_acquire ho h]
    exact (coresOnly_acquireAt ..).mem

variable {j : Nat} (hj : j ∈ l1Group s c.place.core) (hscope : 3 ≤ sc.toNat)
include hj hscope

theorem fenced_clean (ho : o ≠ 0 ∨ 5 ≤ sc.toNat) (horder : wordsInOrder s j) : ∀ w ∈ (core (fenced o sc c s) j).l1, w.2.dirty = false := by
  have hreleased : ∀ w ∈ (core (fenceReleased o sc c s) j).l1, w.2.dirty = false := by
    rw [fenceReleased, if_pos (by simpa using ho)]
    exact releaseAt_clean hscope hj horder
  unfold fenced
  split
  · exact fun w hw => (l1sClean_acquireAt _ _ _ j).clean (fun _ => True) (fun w hw _ => hreleased w hw) w hw trivial
  · exact hreleased

theorem fenced_acquired (ho : o ≠ 1) : ∀ w ∈ (core (fenced o sc c s) j).l1, w.2.dirty = true ∨ w.2.stable = true := by
  intro w hw
  rw [fenced, if_pos ho, acquireAt_l1 hscope (by rwa [(serves_fenceReleased o sc c s).l1Group])] at hw
  simpa using (List.mem_filter.mp hw).2

theorem fenced_l1 (ho : o = 0) (h : sc.toNat < 5) : (core (fenced o sc c s) j).l1 =
    (core s j).l1.filter fun w => w.2.dirty || w.2.stable := by
  rw [fenced_acquire ho h]
  exact acquireAt_l1 hscope hj

end

/-- The end of an instruction leaves the L1s as its effect has. -/
theorem core_conclude {c : Ctx} {r : Done} (hf : r.fail = none) (hp : r.post = none) (j : Nat) : core (conclude c r) j = core r.s j := by
  rw [core, (conclude_device hf hp).2.2.2.2.1, core]

theorem mem_conclude {c : Ctx} {r : Done} (hf : r.fail = none) (hp : r.post = none) : (conclude c r).mem = r.s.mem :=
  (conclude_device hf hp).1

/-- A fence that finds no loss, or reaches no other coach. -/
theorem fence_completes {o : BitVec 2} {sc : BitVec 3} {x : SF} {s : State} {c : Ctx} (h : Ready (.fence o sc x) s c)
    (hgate : fenceGate sc.toNat c s = .go) (hlost : sc.toNat < 5 ∨ c.team.lost = 0) :
    exec (.fence o sc x) s = .next (conclude c { s := fenced o sc c s }) := by
  have hexec := exec_of_gate_go (exec_fence o sc x s) h hgate
  rwa [fenceEffect, if_neg (by simp only [Bool.and_eq_true, decide_eq_true_eq]; omega)] at hexec

/-- A loss is raised once the fence has completed. -/
theorem fence_loss {o : BitVec 2} {sc : BitVec 3} {x : SF} {s : State} {c : Ctx} (h : Ready (.fence o sc x) s c)
    (hgate : fenceGate sc.toNat c s = .go) (hscope : 5 ≤ sc.toNat) (hlost : c.team.lost ≠ 0) :
    ∃ u r q, exec (.fence o sc x) s = .next (takeTrap u c.key { cause := 0x18, tpc := c.cur.pc, replay := q }) ∧
      team? u c.key = some r ∧ r.lost = 0 ∧ GoesOn c u := by
  obtain ⟨y, hy, -⟩ := (serves_fenced o sc c s).stays (context_team h.1).1
  have hteam : team? (onTeam (fenced o sc c s) c.key fun t => { t with lost := 0 }) c.key = some { y with lost := 0 } := by
    rw [team?_onTeam, if_pos rfl, hy]
    rfl
  obtain ⟨z, hz, hkept, -⟩ := (conclude_concludes c { s := onTeam (fenced o sc c s) c.key fun t => { t with lost := 0 } } rfl rfl
    (fun _ he => by cases he)).own _ hteam
  have hexec := exec_of_gate_go (exec_fence o sc x s) h hgate
  rw [fenceEffect, if_pos (by simp only [Bool.and_eq_true, decide_eq_true_eq]; exact ⟨hscope, hlost⟩), conclude_of_post rfl rfl] at hexec
  exact ⟨_, z, _, hexec, hz, (congrArg Team.lost hkept : z.kept.lost = _), goesOn_conclude rfl rfl rfl rfl hteam⟩

/-! ## FLUSHR and INVR (08 R159, R160) -/

section
variable {c : Ctx} {s : State}

/-- The local parts of the range that a cache instruction names. -/
def cacheParts (c : Ctx) (s : State) : List (Nat × Nat) := rangeParts s c.place.core c.team.comp (c.pair 0 % 2 ^ 57) (c.s 2).toNat

/-- The state once the walks of the range's pages have been made. -/
def cacheMarked (c : Ctx) (s : State) : State := markRange s c.place.core c.team.comp (c.pair 0 % 2 ^ 57) (c.s 2).toNat

def flushed (c : Ctx) (s : State) : State :=
  (l1Group (cacheMarked c s) c.place.core).foldl (fun t j => writeBackIf t j (lineMeets (cacheParts c s))) (cacheMarked c s)

def invalidated (c : Ctx) (s : State) : State :=
  (l1Group (cacheMarked c s) c.place.core).foldl (fun t j => dropWords t j (lineMeets (cacheParts c s))) (cacheMarked c s)

theorem exec_flushr (o : BitVec 2) (sc : BitVec 3) (x : SF) (s : State) : exec (.flushr o sc x) s =
    performPriv (Instr.shape (.flushr o sc x)) (privOf (.flushr o sc x)) olderGate (fun c s => { s := flushed c s }) s := rfl

theorem exec_invr (o : BitVec 2) (sc : BitVec 3) (x : SF) (s : State) : exec (.invr o sc x) s =
    performPriv (Instr.shape (.invr o sc x)) (privOf (.invr o sc x)) olderGate (fun c s => { s := invalidated c s }) s := rfl

theorem serves_cacheMarked (c : Ctx) (s : State) : Serves s (cacheMarked c s) := serves_markRange s ..

theorem serves_flushed (c : Ctx) (s : State) : Serves s (flushed c s) :=
  (serves_cacheMarked c s).trans (serves_foldl (fun t j => serves_writeBackIf t j _) _ _)

theorem serves_invalidated (c : Ctx) (s : State) : Serves s (invalidated c s) :=
  (serves_cacheMarked c s).trans (serves_foldl (fun t j => serves_dropWords t j _) _ _)

theorem core_cacheMarked (c : Ctx) (s : State) (j : Nat) : core (cacheMarked c s) j = core s j := by
  rw [core, cacheMarked, markRange_cores, core]

theorem flushed_clean {j : Nat} (hj : j ∈ l1Group s c.place.core) (horder : wordsInOrder s j) :
    ∀ w ∈ (core (flushed c s) j).l1, lineMeets (cacheParts c s) w.1 = true → w.2.dirty = false := by
  refine foldl_writeBackIf_clean _ _ ?_ ?_
  · rwa [(serves_cacheMarked c s).l1Group]
  · rw [core_cacheMarked]
    exact horder

theorem invalidated_gone {j : Nat} (hj : j ∈ l1Group s c.place.core) :
    ∀ w ∈ (core (invalidated c s) j).l1, lineMeets (cacheParts c s) w.1 = false :=
  foldl_dropWords_gone _ _ (by rwa [(serves_cacheMarked c s).l1Group])

/-! An empty range. -/

theorem cacheMarked_empty (hz : c.s 2 = 0) : cacheMarked c s = s := by
  rw [cacheMarked, hz]
  rfl

theorem cacheParts_empty (hz : c.s 2 = 0) : cacheParts c s = [] := by
  rw [cacheParts, hz]
  rfl

theorem flushed_empty (hz : c.s 2 = 0) : flushed c s = s := by
  rw [flushed, cacheMarked_empty hz, cacheParts_empty hz]
  exact foldl_field id (fun t j => writeBackIf_none j fun _ => rfl) _ s

theorem invalidated_empty (hz : c.s 2 = 0) : (invalidated c s).mem = s.mem := by
  rw [invalidated, cacheMarked_empty hz, cacheParts_empty hz]
  refine foldl_field State.mem (fun t j => ?_) _ s
  rw [dropWords, writeBackIf_none (p := lineMeets []) j fun _ => rfl]
  rfl

end

/-! ## PREF (08 R161) -/

/-- PREF does no more than the memory may, and nothing where its range is empty. -/
theorem pref_exec {o : BitVec 2} {sc : BitVec 3} {x : SF} {s : State} {c : Ctx} (h : Ready (.pref o sc x) s c) :
    ∃ t, exec (.pref o sc x) s = .next (conclude c { s := t }) ∧ Serves s t ∧ (c.s 2 = 0 → t = s) := by
  refine ⟨_, exec_of_gate_go (own := fun _ _ => .go) rfl h rfl, serves_foldl (fun t l => ?_) _ s, fun hz => ?_⟩
  · dsimp only
    split
    · split
      · exact .refl t
      · exact (serves_markRefused t ..).trans (serves_prefLine _ ..)
    · exact .refl t
  · rw [hz]
    rfl

/-- Settles O36: what each of them does to the caches is the memory's work, which keeps the registers of its team, and what the release, the
acquire or the range picks is gone or clean then. -/
theorem fencesAndCacheControl : Obligations.FencesAndCacheControl := by
  unfold Obligations.FencesAndCacheControl
  refine ⟨fun o sc x s c h hgate hlost => ?fence, fun s k w v hget hdirty hown => homeBytes_writeBackWord hget hdirty hown,
    fun o sc x s c h hgate hscope hlost => fence_loss h hgate hscope hlost, fun o sc x s c h hgate => ?flushr,
    fun o sc x s c h hgate => ?invr, fun o sc x s c h => ?pref⟩
  case fence =>
    have ht := (context_team h.1).1
    obtain ⟨⟨u, hu, hv, hp⟩, hgoes, -, hreqs, hops⟩ := (serves_fenced o sc c s).concluded ht
    refine ⟨_, u, fence_completes h hgate hlost, hu, hv, hp, hreqs, hops, fun hm => (mem_conclude rfl rfl).trans (fenced_mem hm), hgoes,
      fun hnear => ?_, fun j hj hscope => ?_⟩
    · rw [fenced_near hnear]
      exact nothingWritten_conclude ht rfl rfl rfl (fun _ he => by cases he)
    · rw [core_conclude rfl rfl]
      exact ⟨fenced_clean hj hscope, fenced_acquired hj hscope, fenced_l1 hj hscope⟩
  case flushr =>
    have ht := (context_team h.1).1
    obtain ⟨⟨u, hu, hv, hp⟩, hgoes, -⟩ := (serves_flushed c s).concluded ht
    refine ⟨_, u, exec_of_gate_go (exec_flushr o sc x s) h hgate, hu, hv, hp, hgoes, fun hz => ?_, fun j hj horder => ?_⟩
    · rw [flushed_empty hz]
      exact nothingWritten_conclude ht rfl rfl rfl (fun _ he => by cases he)
    · rw [core_conclude rfl rfl]
      exact flushed_clean hj horder
  case invr =>
    obtain ⟨⟨u, hu, hv, hp⟩, hgoes, -⟩ := (serves_invalidated c s).concluded (context_team h.1).1
    refine ⟨_, u, exec_of_gate_go (exec_invr o sc x s) h hgate, hu, hv, hp, hgoes, fun j hj => ?_,
      fun hz => (mem_conclude rfl rfl).trans (invalidated_empty hz)⟩
    rw [core_conclude rfl rfl]
    exact invalidated_gone hj
  case pref =>
    have ht := (context_team h.1).1
    obtain ⟨t, hexec, hserves, hempty⟩ := pref_exec h
    obtain ⟨⟨u, hu, hv, hp⟩, hgoes, hlatches, hreqs, -⟩ := hserves.concluded ht
    refine ⟨_, u, hexec, hu, hlatches, hgoes, hv, hp, hreqs, fun hz => ?_⟩
    rw [hempty hz]
    exact nothingWritten_conclude ht rfl rfl rfl (fun _ he => by cases he)

end Sys2Proof.Machine

/-! # Instructions that name a handle (09 R189, R197, 18 R300) -/

namespace Sys2Proof.Machine

open Sys2Proof.Spec

/-! ## The handle -/

section
variable {i : Instr} {s : State} {c : Ctx}

theorem handleGate_go (hh : (c.s 0).toNat < 2 ^ 16) : handleGate c s = .go :=
  if_neg (not_not.mpr (Nat.div_eq_of_lt hh))

theorem handleGate_illegal (hh : 2 ^ 16 ≤ (c.s 0).toNat) : handleGate c s = .trap { cause := 1 } :=
  if_pos (Nat.div_pos hh (by decide)).ne'

/-- Every instruction that names a handle has the handle's check as its own. -/
theorem exec_handleUser (hi : handleUser i = true) : ∃ eff, ∀ s, exec i s = performPriv i.shape (privOf i) handleGate eff s := by
  unfold handleUser at hi
  split at hi
  case h_1 => exact ⟨_, fun _ => rfl⟩
  case h_2 => exact ⟨_, fun _ => rfl⟩
  case h_3 => exact ⟨_, fun _ => rfl⟩
  case h_4 => exact ⟨_, fun _ => rfl⟩
  case h_5 => exact ⟨_, fun _ => rfl⟩
  case h_6 => exact ⟨_, fun _ => rfl⟩
  case h_7 => cases hi

theorem matOf_parkTeam {h : Shape} (hc : context h s = some c) (k n : Nat) : matOf (parkTeam s c.key c.carry) k n = matOf s k n := by
  rw [parkTeam_eq hc]
  rfl

theorem copyOf_parkTeam {h : Shape} (hc : context h s = some c) (k n : Nat) : copyOf (parkTeam s c.key c.carry) k n = copyOf s k n := by
  rw [parkTeam_eq hc]
  rfl

/-- The frame of a wait right after the parking point. -/
theorem parked_waits_frame {h : Shape} (hc : context h s = some c) {w : Wait} (hw : ∀ k, w ≠ .join k) :
    Frame sansPark c s (conclude c (parkDone c (parkTeam s c.key c.carry) (some w))) :=
  (parkTeam_effect hc).parkDone fun k hk => hw k (Option.some.inj hk)

end

/-! ## MMAW and EWAIT at their parking point -/

/-- What a completed command has written is acquired before EWAIT gives its status (11 R220). -/
def destAcquired (c : Ctx) (r : CopyDone) (u : State) : State :=
  match r.dest with
  | some d => acquireDest u c.place.core c.team.comp d
  | none => u

theorem coresOnly_destAcquired (c : Ctx) (r : CopyDone) (u : State) : CoresOnly u (destAcquired c r u) := by
  unfold destAcquired
  split
  · exact coresOnly_acquireDest ..
  · exact .refl u

section
variable {x : SF} {s : State} {c : Ctx} (hh : (c.s 0).toNat < 2 ^ 16)
include hh

theorem exec_mmaw_outstanding (h : Ready (.mmaw x) s c) {m : MatOp} (hout : matOf s c.key (c.s 0).toNat = some m) : exec (.mmaw x) s =
    .next (conclude c (parkDone c (parkTeam s c.key c.carry) (some (.matrix (c.s 0).toNat x.d.toNat)))) := by
  refine (exec_of_gate_go rfl h (handleGate_go hh)).trans ?_
  simp only [matOf_parkTeam h.1, hout]

/-- An operation that has completed without a trap gives its status, and one that the team does not know 0xFF. -/
theorem exec_mmaw_ended (h : Ready (.mmaw x) s c) (hout : matOf s c.key (c.s 0).toNat = none)
    (hplain : ∀ st, matRecord c.team (c.s 0).toNat = some st → st.toNat % 8 ≠ 2) : exec (.mmaw x) s =
    .next (conclude c (parkDone c (writeScalar c ((matRecord c.team (c.s 0).toNat).getD 0xFF) (parkTeam s c.key c.carry)) none)) := by
  have hnone : ((matRecord c.team (c.s 0).toNat).any fun st => decide (st.toNat % 8 = 2)) = false :=
    (Option.any_eq_false ..).mpr fun st hst => decide_eq_false (hplain st hst)
  refine (exec_of_gate_go rfl h (handleGate_go hh)).trans ?_
  simp only [matOf_parkTeam h.1, hout, hnone, Bool.false_eq_true, if_false]

theorem exec_ewait_outstanding (h : Ready (.ewait x) s c) {y : Copy} (hout : copyOf s c.key (c.s 0).toNat = some y) : exec (.ewait x) s =
    .next (conclude c (parkDone c (parkTeam s c.key c.carry) (some (.copy (c.s 0).toNat x.d.toNat)))) := by
  refine (exec_of_gate_go rfl h (handleGate_go hh)).trans ?_
  simp only [copyOf_parkTeam h.1, hout]

theorem exec_ewait_ended (h : Ready (.ewait x) s c) (hout : copyOf s c.key (c.s 0).toNat = none) {r : CopyDone}
    (hrec : copyRecordOf c.team (c.s 0).toNat = some r) (hplain : r.finish ≠ 2) : exec (.ewait x) s =
    .next (conclude c (parkDone c (writeScalar c (copyStatus r.finish r.why) (destAcquired c r (parkTeam s c.key c.carry))) none)) := by
  refine (exec_of_gate_go rfl h (handleGate_go hh)).trans ?_
  simp only [copyOf_parkTeam h.1, hout, hrec, hplain, if_false]
  rfl

theorem exec_ewait_unknown (h : Ready (.ewait x) s c) (hout : copyOf s c.key (c.s 0).toNat = none)
    (hrec : copyRecordOf c.team (c.s 0).toNat = none) : exec (.ewait x) s =
    .next (conclude c (parkDone c (writeScalar c 0xFF (parkTeam s c.key c.carry)) none)) := by
  refine (exec_of_gate_go rfl h (handleGate_go hh)).trans ?_
  simp only [copyOf_parkTeam h.1, hout, hrec]

/-! ## MMAQ and EQRY -/

theorem mmaq_result (h : Ready (.mmaq x) s c) : ∃ t, exec (.mmaq x) s = .next t ∧
    ScalarResult c [BitVec.ofNat 32 (matState s c.team c.key (c.s 0).toNat)] s t :=
  ⟨_, exec_of_gate_go rfl h (handleGate_go hh), scalar_result (context_team h.1).1⟩

theorem eqry_result (h : Ready (.eqry x) s c) : ∃ t, exec (.eqry x) s = .next t ∧
    ScalarResult c (eqryWords s c.team c.key (c.s 0).toNat) s t :=
  ⟨_, exec_of_gate_go rfl h (handleGate_go hh), scalar_result (context_team h.1).1⟩

/-! ## MMAX and ECAN -/

theorem exec_mmax_cancelled (h : Ready (.mmax x) s c) {m : MatOp} (hout : matOf s c.key (c.s 0).toNat = some m)
    (hidle : (cancelSet s m).any (fun y => y.stage.started) = false) : exec (.mmax x) s =
    .next (conclude c { s := endMats (writeScalar c 0 s) (cancelSet s m) (matStatus 1 false false) }) := by
  refine (exec_of_gate_go rfl h (handleGate_go hh)).trans ?_
  simp only [hout, hidle, Bool.false_eq_true, if_false]

theorem exec_mmax_started (h : Ready (.mmax x) s c) {m : MatOp} (hout : matOf s c.key (c.s 0).toNat = some m)
    (hrun : (cancelSet s m).any (fun y => y.stage.started) = true) : exec (.mmax x) s =
    .next (conclude c { s := writeScalar c 1 s }) := by
  refine (exec_of_gate_go rfl h (handleGate_go hh)).trans ?_
  simp only [hout, hrun, if_true]

theorem exec_mmax_ended (h : Ready (.mmax x) s c) (hout : matOf s c.key (c.s 0).toNat = none) : exec (.mmax x) s =
    .next (conclude c { s := writeScalar c (if (matRecord c.team (c.s 0).toNat).isSome then 1 else 0xFF) s }) := by
  refine (exec_of_gate_go rfl h (handleGate_go hh)).trans ?_
  simp only [hout]

theorem exec_ecan_cancelled (h : Ready (.ecan x) s c) {y : Copy} (hout : copyOf s c.key (c.s 0).toNat = some y) (hgood : y.bad = none) :
    exec (.ecan x) s = .next (conclude c { s := endCopy (writeScalar c 0 s) y 1 0 }) := by
  refine (exec_of_gate_go rfl h (handleGate_go hh)).trans ?_
  simp only [hout, hgood, Option.isSome_none, Bool.false_eq_true, if_false]

theorem exec_ecan_faulted (h : Ready (.ecan x) s c) {y : Copy} (hout : copyOf s c.key (c.s 0).toNat = some y) (hbad : y.bad ≠ none) :
    exec (.ecan x) s = .next (conclude c { s := writeScalar c 1 s }) := by
  refine (exec_of_gate_go rfl h (handleGate_go hh)).trans ?_
  simp only [hout, Option.isSome_iff_ne_none.mpr hbad, if_true]

theorem exec_ecan_ended (h : Ready (.ecan x) s c) (hout : copyOf s c.key (c.s 0).toNat = none) : exec (.ecan x) s =
    .next (conclude c { s := writeScalar c (if (copyRecordOf c.team (c.s 0).toNat).isSome then 1 else 0xFF) s }) := by
  refine (exec_of_gate_go rfl h (handleGate_go hh)).trans ?_
  simp only [hout]

end

/-! ## The words of MMAQ and EQRY -/

section
variable {s : State} {t : Team} {key n : Nat}

theorem matState_outstanding {m : MatOp} (hout : matOf s key n = some m) : matState s t key n = opState s m := by
  simp only [matState, hout]

theorem opState_eq (m : MatOp) : opState s m = if m.stage.started && m.granted ≠ some s.time then 2
    else if !m.stage.started && (partnerWait s m || justJoined s m) then 1 else 0 := by
  unfold opState
  cases m.stage.started with
  | true => by_cases hg : m.granted = some s.time <;> simp [hg]
  | false => simp

theorem eqryWords_length : (eqryWords s t key n).length = 4 := by
  unfold eqryWords
  split
  · rfl
  · split <;> rfl

theorem matState_justEnded (hout : matOf s key n = none) {e : MatEnd}
    (hend : (s.matEnds.find? fun e => e.time = s.time && e.op.team = key && e.op.handle = n) = some e) : matState s t key n = e.was := by
  simp only [matState, hout, hend]

theorem matState_ended (hout : matOf s key n = none)
    (hend : (s.matEnds.find? fun e => e.time = s.time && e.op.team = key && e.op.handle = n) = none) :
    matState s t key n = match matRecord t n with
      | some st => 3 + st.toNat % 8
      | none => 0xFF := by
  cases hrec : matRecord t n with
  | some st => simp only [matState, hout, hend, hrec]
  | none => simp only [matState, hout, hend, hrec]

theorem eqryWords_outstanding {y : Copy} (hout : copyOf s key n = some y) :
    (eqryWords s t key n).getD 0 0 = if y.stage.isRunning then 1 else 0 := by
  simp only [eqryWords, hout]
  cases y.stage.isRunning <;> rfl

theorem eqryWords_ended (hout : copyOf s key n = none) : (eqryWords s t key n).getD 0 0 = match copyRecordOf t n with
    | some r => BitVec.ofNat 32 (2 + r.finish)
    | none => 0xFF := by
  simp only [eqryWords, hout]
  cases copyRecordOf t n <;> rfl

end

/-- Settles O39: the handle picks an outstanding operation, the newest record of one that has ended, or neither, and each instruction has its
answer to each; MMAW and EWAIT give theirs from the parking point. -/
theorem engineHandles : Obligations.EngineHandles := by
  unfold Obligations.EngineHandles
  refine ⟨fun i hi s c h hbig => ?illegal, fun x s c h hh hplain => ?mmaw, fun x s c h hh hplain => ?ewait, fun x s c h hh => ?mmaq,
    fun x s c h hh => ?eqry, fun x s c h hh => ?mmax, fun x s c h hh => ?ecan⟩
  case illegal =>
    obtain ⟨eff, hexec⟩ := exec_handleUser hi
    exact exec_of_gate_trap (hexec s) h (handleGate_illegal hbig)
  case mmaw =>
    cases hout : matOut s c (c.s 0).toNat with
    | some m => exact ⟨_, exec_mmaw_outstanding hh h hout, parked_waits_frame h.1 nofun, parked_waits (team?_parkTeam h.1) nofun⟩
    | none => exact ⟨_, exec_mmaw_ended hh h hout hplain, parked_answered_frame h.1 _, parked_answered (team?_parkTeam h.1) _⟩
  case ewait =>
    cases hout : copyOut s c (c.s 0).toNat with
    | some y => exact ⟨_, exec_ewait_outstanding hh h hout, parked_waits_frame h.1 nofun, parked_waits (team?_parkTeam h.1) nofun⟩
    | none =>
      cases hrec : copyNewest c.team (c.s 0).toNat with
      | some r =>
        have hteam := ((coresOnly_destAcquired c r _).team? c.key).trans (team?_parkTeam h.1)
        exact ⟨_, exec_ewait_ended hh h hout hrec (hplain r hrec), parked_answered hteam _⟩
      | none => exact ⟨_, exec_ewait_unknown hh h hout hrec, parked_answered_frame h.1 _, parked_answered (team?_parkTeam h.1) _⟩
  case mmaq =>
    obtain ⟨t, hexec, hres⟩ := mmaq_result hh h
    exact ⟨t, _, hexec, hres, fun hout hend => matState_ended hout hend, fun hout e hend => matState_justEnded hout hend,
      fun m hout => (matState_outstanding hout).trans (opState_eq m)⟩
  case eqry =>
    obtain ⟨t, hexec, hres⟩ := eqry_result hh h
    exact ⟨t, _, hexec, hres, eqryWords_length, fun y hout => eqryWords_outstanding hout, fun hout => eqryWords_ended hout⟩
  case mmax =>
    have ht := (context_team h.1).1
    cases hout : matOut s c (c.s 0).toNat with
    | none => exact ⟨_, exec_mmax_ended hh h hout, fun _ hm => (nomatch hm), fun _ hm => (nomatch hm), fun _ => scalar_result ht⟩
    | some m =>
      cases hrun : (cancelSet s m).any fun y => y.stage.started with
      | true =>
        refine ⟨_, exec_mmax_started hh h hout hrun, ?_, fun _ _ _ => scalar_result ht, fun hn => (nomatch hn)⟩
        rintro _ ⟨rfl⟩ hidle
        rw [← List.not_any_eq_all_not, hrun] at hidle
        cases hidle
      | false =>
        refine ⟨_, exec_mmax_cancelled hh h hout hrun, ?_, ?_, fun hn => (nomatch hn)⟩
        · rintro _ ⟨rfl⟩ -
          rfl
        · rintro _ ⟨rfl⟩ hany
          rw [hrun] at hany
          cases hany
  case ecan =>
    have ht := (context_team h.1).1
    cases hout : copyOut s c (c.s 0).toNat with
    | none => exact ⟨_, exec_ecan_ended hh h hout, fun _ hm => (nomatch hm), fun _ hm => (nomatch hm), fun _ => scalar_result ht⟩
    | some y =>
      by_cases hbad : y.bad = none
      · refine ⟨_, exec_ecan_cancelled hh h hout hbad, ?_, ?_, fun hn => (nomatch hn)⟩
        · rintro _ ⟨rfl⟩ -
          rfl
        · rintro _ ⟨rfl⟩ hfault
          exact absurd hbad hfault
      · refine ⟨_, exec_ecan_faulted hh h hout hbad, ?_, fun _ _ _ => scalar_result ht, fun hn => (nomatch hn)⟩
        rintro _ ⟨rfl⟩ hgood
        exact absurd hgood hbad

end Sys2Proof.Machine

/-! # An f32 tile that has kept the tags of an integer format (09 R179, R181, 02 R28)

TZERO leaves row tags of 63 in an i32 tile, and the MTC that then makes it an f32 tile changes no tag. -/

namespace Sys2Proof.Machine

open Sys2Proof.Spec

/-- A tile of 32 rows and 32 columns that was zeroed as i32 and has been given the format f32 since. -/
def reshapedTile : Tile := { Tile.zeroed { ts := 0x1F1F9 } with ts := 0x1F1F0 }

/-- A team whose lane 0 is at a TWRV, with a word of tag 53 in v0, as one of a 64-bit value has (04 R68). -/
def wideWord : Team :=
  { place := some ⟨0, 0, 0⟩, live := 1, rows := 1, v := [(0, List.replicate 32 ⟨0, 53⟩)], front := [⟨0, 0x100, 1, 0, none⟩] }

/-- It issues the TWRV. -/
def reshapedState : State :=
  { teams := [(0, wideWord)], crews := [(0, { tiles := [reshapedTile] })],
    cur := some { team := 0, mask := 1, start := 0x100, pc := 0x100, word := 0 } }

/-- TWRV v0, t0, s0. -/
def wordOperands : XF := ⟨0, 0, 0, 0⟩

def reshapedCtx : Ctx := (context (Shape.twrv wordOperands) reshapedState).get (by decide)

theorem reshaped_ready : Ready (.twrv wordOperands) reshapedState reshapedCtx := ⟨(Option.some_get _).symm, by decide⟩

theorem reshaped_free : TileFree reshapedState reshapedCtx 0 true := by decide

theorem reshaped_fits : WordsFit reshapedState reshapedCtx 0 := by decide

theorem reshaped_exec : exec (.twrv wordOperands) reshapedState =
    .next (conclude reshapedCtx { s := onTile reshapedState 0 0 (writeTileWords reshapedCtx) }) :=
  exec_of_gate_go (own := tileWordGate wordOperands true) rfl reshaped_ready (by decide)

/-- The row's old tag counts as 24, which is less than the word's 53 (09 R181). -/
theorem reshaped_rowTag : ((tiles (conclude reshapedCtx { s := onTile reshapedState 0 0 (writeTileWords reshapedCtx) }) reshapedCtx).getD
    0 {}).rowTag 0 = 24 := by decide

/-- Refutes O37: TWRV takes a row's old tag of 63 as 24, as it does a word's, where the statement takes it as 63; with a word of tag 53
the row's tag becomes 24, not 53. -/
theorem not_tileInstructions : ¬ Obligations.TileInstructions := by
  unfold Obligations.TileInstructions
  rintro ⟨-, -, -, htwrv, -⟩
  obtain ⟨t, ht, -, -, -, -, -, -, -, -, htags⟩ :=
    htwrv wordOperands reshapedState reshapedCtx { tiles := [reshapedTile] } reshaped_ready (by decide) reshaped_free reshaped_fits
  obtain rfl : t = _ := Host.Outcome.next.inj (ht.symm.trans reshaped_exec)
  have hleast := htags (by decide) 0
  rw [show wordOperands.k.toNat % 16 = 0 by decide, reshaped_rowTag] at hleast
  exact absurd hleast (by decide)

end Sys2Proof.Machine

/-! # HARVEST (07 R138, 12 R242)

What a HARVEST does beside its count, the write-backs of its pages and the store of its bitmap, may wake its own team or post the team's
stores to a peer. Only that the team still stands matters to the count, which is written last. -/

namespace Sys2Proof.Machine

open Sys2Proof.Spec

/-! ## Weak stores are the memory's work (10 R201, 11 R213) -/

theorem serves_markLine (s : State) (j line : Nat) : Serves s (markLine s j line) := by
  unfold markLine
  dsimp only
  split
  · exact .refl s
  · refine Serves.setCore ?_ rfl
    split
    · split
      · exact serves_writeBackIf s ..
      · exact .refl s
    · exact .refl s

theorem serves_weakWord (s : State) (k c : Nat) (stable : Bool) (w : Nat) (v : Word) : Serves s (weakWord s k c stable w v) := by
  unfold weakWord
  dsimp only
  refine Serves.trans ?_ (serves_wakeMonitors _ ..)
  generalize l1Loc s k (4 * w) = j
  generalize (Tab.get? (core s j).l1 w).any (·.dirty) = was
  have hmarked : Serves s (markLine (takeWay (if was then s else l2Touch s (compKey s c) (4 * w)) j (w / 16)) j (w / 16)) := by
    refine (Serves.trans ?_ (serves_takeWay _ ..)).trans (serves_markLine _ ..)
    split
    · exact .refl s
    · exact serves_l2Touch s ..
  generalize markLine _ j (w / 16) = u at hmarked
  have hentered := fun ws => hmarked.setCore (k := j) (x := { core u j with l1 := ws }) rfl
  split
  · exact hentered _
  · split
    · exact (hentered _).trans (serves_registering _ _)
    · exact (hentered _).trans (serves_owners _ _)

theorem serves_weakStore (s : State) (k c : Nat) (stable : Bool) (pa : Nat) (bs : List Byte) :
    Serves s (weakStore s k c stable pa bs) := by
  refine serves_foldl (fun s w => ?_) _ s
  dsimp only
  split
  · exact serves_putHome s ..
  · split
    · exact serves_weakWord s ..
    · exact (serves_l1Fetch s ..).trans (serves_weakWord _ ..)

/-! ## Teams that stand -/

/-- No team that stands in `s` has gone in `t`. -/
structure TeamsStand (s t : State) : Prop where
  team : ∀ k x, team? s k = some x → ∃ y, team? t k = some y

section
variable {s t u : State}

theorem TeamsStand.refl (s : State) : TeamsStand s s := ⟨fun _ x hx => ⟨x, hx⟩⟩

theorem TeamsStand.trans (h : TeamsStand s t) (k : TeamsStand t u) : TeamsStand s u where
  team j x hx := by
    obtain ⟨y, hy⟩ := h.team j x hx
    exact k.team j y hy

theorem TeamsStand.of_eq (h : t.teams = s.teams) : TeamsStand s t :=
  ⟨fun k x hx => ⟨x, by rw [team?, h, ← team?, hx]⟩⟩

theorem Serves.teamsStand (h : Serves s t) : TeamsStand s t where
  team _ _ hx := by
    obtain ⟨y, hy, -⟩ := h.stays hx
    exact ⟨y, hy⟩

theorem Settles.teamsStand (h : Settles s t) : TeamsStand s t where
  team _ _ hx := by
    obtain ⟨y, hy, -⟩ := h.stays hx
    exact ⟨y, hy⟩

theorem teamsStand_onTeam (s : State) (k : Nat) (f : Team → Team) : TeamsStand s (onTeam s k f) where
  team j x hx := by
    rw [team?_onTeam, hx]
    split
    · exact ⟨f x, rfl⟩
    · exact ⟨x, rfl⟩

theorem teamsStand_foldl {α : Type} {f : State → α → State} (hf : ∀ s x, TeamsStand s (f s x)) (l : List α) (s : State) :
    TeamsStand s (l.foldl f s) := by
  induction l generalizing s with
  | nil => exact .refl s
  | cons x r ih => exact (hf s x).trans (ih (f s x))

/-- Parts of a store that leave one after another: where the last has left, so has each before it. -/
theorem teamsStand_foldl_bind {α : Type} {f : State → α → Option State} (hf : ∀ s x t, f s x = some t → TeamsStand s t) (l : List α)
    {o : Option State} (h : l.foldl (fun s x => s.bind fun s => f s x) o = some t) : ∃ s, o = some s ∧ TeamsStand s t := by
  induction l generalizing o with
  | nil => exact ⟨t, h, .refl t⟩
  | cons x r ih =>
    obtain ⟨u, hu, hrest⟩ := ih h
    obtain ⟨s, hs, hfirst⟩ := Option.bind_eq_some_iff.mp hu
    exact ⟨s, hs, (hf s x u hfirst).trans hrest⟩

/-! ## Stores that leave the coach (11 R214, R216, 21 R320) -/

theorem teamsStand_countLost (n : Nat) (s : State) (key : Nat) : TeamsStand s (countLost n s key) := by
  unfold countLost
  split
  · exact teamsStand_onTeam s ..
  · exact .of_eq rfl

theorem teamsStand_loseWrites (s : State) (key coach n seq0 seq1 info : Nat) (sent : Bool) :
    TeamsStand s (loseWrites s key coach n seq0 seq1 info sent) :=
  ((teamsStand_onTeam s key _).trans (teamsStand_foldl (teamsStand_countLost n) _ _)).trans (settles_pushErr ..).teamsStand

theorem teamsStand_sendMsg {coach : Nat} {sub : Option Nat} {m : FabMsg} (h : sendMsg s coach sub m = some t) : TeamsStand s t := by
  unfold sendMsg at h
  split at h
  · cases h
  · split at h
    · cases h
    · cases h
      exact .of_eq rfl

theorem teamsStand_seqFor {key coach : Nat} {pre : Option Nat} {q : Nat} (h : seqFor s key coach pre = some (t, q)) :
    TeamsStand s t := by
  cases pre with
  | some n =>
    cases h
    exact .refl s
  | none =>
    rw [seqFor, takeSeq] at h
    dsimp only at h
    split at h
    · cases h
      exact .of_eq rfl
    · split at h
      · cases h
      · obtain ⟨u, hu, hput⟩ := Option.map_eq_some_iff.mp h
        cases hput
        exact (teamsStand_sendMsg hu).trans (.of_eq rfl)

theorem teamsStand_postRemote {key coach addr : Nat} {mask : BitVec 64} {data : List Byte} {red pre : Option Nat} {rlx : Bool}
    (h : postRemote s key coach addr mask data red rlx pre = some t) : TeamsStand s t := by
  have hposted : ∀ (u : State) (y : SubStream) (f : Team → Team), TeamsStand u (onTeam (setSubStream u y) key f) := fun u y f =>
    (TeamsStand.of_eq (s := u) (t := setSubStream u y) rfl).trans (teamsStand_onTeam _ key f)
  unfold postRemote at h
  dsimp only at h
  split at h
  · split at h
    · rename_i hseq
      rw [← Option.some.inj h]
      exact (teamsStand_seqFor hseq).trans (teamsStand_loseWrites ..)
    · rw [← Option.some.inj h]
      refine TeamsStand.trans ?_ (teamsStand_loseWrites ..)
      exact .of_eq rfl
  · split at h
    · cases h
    · split at h
      · cases h
      · rename_i hseq
        split at h
        · cases h
          exact (teamsStand_seqFor hseq).trans (hposted ..)
        · obtain ⟨u, hu, hsent⟩ := Option.map_eq_some_iff.mp h
          cases hsent
          exact ((teamsStand_seqFor hseq).trans (teamsStand_sendMsg hu)).trans (hposted ..)

theorem teamsStand_storeAway {key pa : Nat} {bs : List Byte} (h : storeAway s key pa bs = some t) : TeamsStand s t := by
  unfold storeAway at h
  split at h
  · obtain ⟨u, hu, hstands⟩ := teamsStand_foldl_bind (fun _ _ _ hpost => teamsStand_postRemote hpost) _ h
    cases hu
    exact hstands
  · cases h
    exact .of_eq rfl
  · cases h
    exact .refl s

/-! ## What a HARVEST does before it writes its count -/

section
variable {c : Ctx}

theorem teamsStand_storePart {va : Nat} {bs : List Byte} (h : storePart c s va bs = some t) : TeamsStand s t := by
  have hpage := (serves_pageOf c s .wr (va % 2 ^ 57)).teamsStand
  unfold storePart at h
  dsimp only at h
  split at h
  · exact hpage.trans (teamsStand_storeAway h)
  · cases h
    exact hpage.trans (serves_weakStore ..).teamsStand

theorem teamsStand_storeBitmap {ds : List Bool} (h : storeBitmap c s ds = some t) : TeamsStand s t := by
  obtain ⟨u, hu, hstands⟩ := teamsStand_foldl_bind (fun _ _ _ hpart => teamsStand_storePart hpart) _ h
  cases hu
  exact hstands

theorem serves_clearDirty (s : State) (key d : Nat) : Serves s (clearDirty s key d) := by
  unfold clearDirty
  dsimp only
  split
  · exact (serves_putHome s ..).trans (serves_disown _ d 8)
  · exact .refl s

theorem teamsStand_harvestPage (s : State) (level comp' a : Nat) (h : Harvested) : TeamsStand s (harvestPage s level comp' a h) := by
  have hdropped : TeamsStand s (dropEntries (clearDirty s h.key h.desc) (writeEntries level comp' a)) :=
    (serves_clearDirty s h.key h.desc).teamsStand.trans (.of_eq rfl)
  have hsecond : ∀ p, TeamsStand s (if level = 2 then dropTlb2 (dropEntries (clearDirty s h.key h.desc) (writeEntries level comp' a)) p
      else dropEntries (clearDirty s h.key h.desc) (writeEntries level comp' a)) := fun p => by
    split
    · exact hdropped.trans (.of_eq rfl)
    · exact hdropped
  unfold harvestPage
  dsimp only
  split
  · exact (hsecond _).trans (serves_foldl (fun s _ => serves_writeBackIf s ..) _ _).teamsStand
  · exact hsecond _

theorem teamsStand_harvestPages (s : State) (level comp' a n : Nat) : TeamsStand s (harvestPages s level comp' a n).1 := by
  refine teamsStand_foldl (fun s x => ?_) _ s
  split
  · exact teamsStand_harvestPage s ..
  · exact .refl s

/-- The state in which a HARVEST has taken its pages' steps, and their dirty bits: those read before it waited, where it has (12 R242). -/
def harvestDone (c : Ctx) (s : State) : State × List Bool :=
  match flushing? s c with
  | some f => (endFlush s c, f.dirty)
  | none =>
    ((harvestPages s c.team.level c.team.comp (harvestBase c) (harvestCount c)).1,
      (harvestPages s c.team.level c.team.comp (harvestBase c) (harvestCount c)).2.2)

theorem harvestDone_dirty (c : Ctx) (s : State) : (harvestDone c s).2 =
    match flushing? s c with
    | some f => f.dirty
    | none => (harvestPages s c.team.level c.team.comp (harvestBase c) (harvestCount c)).2.2 := by
  unfold harvestDone
  split <;> rfl

theorem teamsStand_harvestDone (c : Ctx) (s : State) : TeamsStand s (harvestDone c s).1 := by
  unfold harvestDone
  split
  · exact .of_eq rfl
  · exact teamsStand_harvestPages ..

/-- The state after the bitmap has been stored. -/
def harvestStored (c : Ctx) (s : State) : State := (storeBitmap c (harvestDone c s).1 (harvestDone c s).2).getD (harvestDone c s).1

theorem teamsStand_harvestStored (c : Ctx) (s : State) : TeamsStand s (harvestStored c s) := by
  have hdone := teamsStand_harvestDone c s
  unfold harvestStored
  cases hstore : storeBitmap c (harvestDone c s).1 (harvestDone c s).2 with
  | none => exact hdone
  | some t => exact hdone.trans (teamsStand_storeBitmap hstore)

/-- What a HARVEST does: its count is written after its bitmap. -/
def harvestEffect (c : Ctx) (s : State) : Done :=
  { s := writeScalar c (BitVec.ofNat 32 ((harvestDone c s).2.filter id).length) (harvestStored c s) }

theorem exec_harvest (x : SF) (s : State) :
    exec (.harvest x) s = performPriv (Instr.harvest x).shape (privOf (.harvest x)) harvestGate harvestEffect s := by
  have hrun : exec (.harvest x) s = execHarvest x s := rfl
  rw [hrun]
  refine congrArg (fun eff => performGated (Shape.harvest x) harvestGate eff s) (funext fun c => funext fun s => ?_)
  unfold harvestEffect harvestStored harvestDone
  cases flushing? s c with
  | some f => rfl
  | none => rfl

/-! ## The count -/

/-- A scalar that an instruction writes last stands once it has concluded, whatever its team's registers had become before. -/
theorem scalar_conclude_writeScalar {x : Team} {w : Word} (hx : team? u c.key = some x) :
    ∃ y, team? (conclude c { s := writeScalar c w u }) c.key = some y ∧
      ∀ d, c.shape.sd.map (·.1) = some d → Team.scalar y d.toNat = w := by
  have hwritten : ∃ z, team? (writeScalar c w u) c.key = some z ∧ ∀ d, c.shape.sd.map (·.1) = some d → Team.scalar z d.toNat = w := by
    unfold writeScalar writeScalars
    split
    · rename_i d hd
      refine ⟨Team.setScalars x d.1.toNat [w], by rw [team?_onTeam, if_pos rfl, hx]; rfl, fun e he => ?_⟩
      rw [hd] at he
      cases he
      rw [scalar_setScalars, if_pos ⟨le_rfl, by simp⟩, Nat.sub_self]
      rfl
    · rename_i hd
      refine ⟨x, hx, fun e he => ?_⟩
      rw [hd] at he
      cases he
  obtain ⟨z, hz, hw⟩ := hwritten
  obtain ⟨y, hy, hkept, -⟩ := (conclude_concludes c { s := writeScalar c w u } rfl rfl (fun _ he => by cases he)).own z hz
  exact ⟨y, hy, fun d hd => by rw [scalar_kept hkept, hw d hd]⟩

end

/-- The dirty bits of one page are its leaf's. -/
theorem harvestPages_one (s : State) (level comp' a : Nat) :
    (harvestPages s level comp' a 1).2.2 = [(harvestLeaf s level comp' a).any (·.dirty)] := rfl

theorem harvestGate_badCount {c : Ctx} (h : c.s 4 = 0 ∨ 4096 < (c.s 4).toNat) : harvestGate c s = .trap { cause := 1 } := by
  refine if_pos ?_
  rw [harvestCount, Bool.or_eq_true, decide_eq_true_eq, decide_eq_true_eq]
  exact h.imp_left fun hzero => by rw [hzero]; rfl

end

/-- Settles O45: the count is written last into a team that still stands; one page's list of dirty bits is its leaf's bit (a page without a
leaf counts as clean, log 54); a bad count stops at the first test of the gate. -/
theorem harvestCountsDirtyPages : Obligations.HarvestCountsDirtyPages := by
  unfold Obligations.HarvestCountsDirtyPages
  refine ⟨fun x s c h hgate => ?count, fun s level comp' a => ?onePage, fun x s c h hbad => ?illegal⟩
  case count =>
    obtain ⟨y, hy⟩ := (teamsStand_harvestStored c s).team c.key c.team (context_team h.1).1
    obtain ⟨u, hu, hcount⟩ := scalar_conclude_writeScalar (w := BitVec.ofNat 32 ((harvestDone c s).2.filter id).length) hy
    refine ⟨_, u, exec_of_gate_go (exec_harvest x s) h hgate, hu, fun d hd => ?_⟩
    exact (hcount d hd).trans (congrArg (fun ds : List Bool => BitVec.ofNat 32 (ds.filter id).length) (harvestDone_dirty c s))
  case onePage =>
    rw [harvestPages_one]
    cases (harvestLeaf s level comp' a).any (·.dirty) with
    | true => rfl
    | false => rfl
  case illegal => exact exec_of_gate_trap (exec_harvest x s) h (harvestGate_badCount hbad)

end Sys2Proof.Machine

/-! # A return that makes the condition of its own frame's entry come (15 R281, 08 R162)

RTR clears VALID at its home, and this write wakes the monitors of its word. An entry that the frame lists may wait on that very word:
its condition comes in the return, before the entry takes its place in the frontier. -/

namespace Sys2Proof.Machine

open Sys2Proof.Spec

/-- A WAITC at the home of a frame's first word, until VALID is 0 and CAUSE is 1 (08 R162, 15 R279). -/
def validWait : Wait := .monitor 0x100000 0x100000 none 0x0100 0xFFFF 0 none 9

/-- The entry of lane 0 that the frame lists first: it waits there, as the trap has left it (15 R277 step 4). -/
def validWaiter : Held := ⟨0x100000, 0, { prio := 128, pc := 0x1000, mask := 1, wait := some validWait }, none⟩

/-- Its team, in the handler. -/
def returningTeam : Team :=
  { level := 1, place := some ⟨0, 0, 0⟩, live := 1, front := [{ prio := 255, pc := 0x2000, mask := 1 }], frameLo := 0x100000,
    held := [validWaiter] }

/-- The frame (15 R279): VALID, CAUSE and NFRONT are 1, and entry 0 of FRONT holds lane 0 at 0x1000 with priority 128, and waits. -/
def waitedFrame : List Host.Cell :=
  [(0x100000, 1), (0x100001, 1), (0x100058, 1), (0x100201, 0x10), (0x100208, 1), (0x10020C, 128), (0x10020F, 1)]

/-- The team issues the RTR; the frame lies in the heap window (02 R30). -/
def returningState : State :=
  { teams := [(0, returningTeam)], mem := waitedFrame,
    comps := [(0, { heap := { base := 0x100000, lim := 0x100000, off := 0 }, xlate := { colmask := 0xFFFF, glim := 2 ^ 30 } })],
    cur := some { team := 0, mask := 1, start := 0x2000, pc := 0x2000, word := 0 } }

def noOperands : SF := ⟨0, 0, 0, 0⟩

def returningCtx : Ctx := (context (Shape.rtr noOperands) returningState).get (by decide)

/-- What the return reads of the frame. -/
def returningRead : State × Option FrameView := readFrame returningState 0 0 0x100000

def returningView : FrameView := returningRead.2.get (by decide)

/-- The state after the RTR. -/
def returnedState : State := conclude returningCtx (returnEffect false returningCtx returningState)

theorem returning_ready : Ready (.rtr noOperands) returningState returningCtx := ⟨(Option.some_get _).symm, by decide⟩

theorem returning_go : returnGate returningCtx returningState = .go := by decide

theorem returning_read : readFrame returningState 0 0 0x100000 = (returningRead.1, some returningView) :=
  Prod.ext rfl (Option.some_get _).symm

theorem returning_exec : exec (.rtr noOperands) returningState = .next returnedState :=
  exec_of_gate_go (own := returnGate) rfl returning_ready returning_go

/-- Entry 0 of the frame holds lane 0 and waits. -/
theorem returning_frameLane : frameLane returningCtx returningView 0 0 { prio := 128, pc := 0x1000, mask := 1 } true :=
  ⟨by decide, by decide, by decide, by decide, fun j _ hj => absurd hj (Nat.not_lt_zero j)⟩

/-- The clear of VALID has woken it: nothing of the team waits any more. -/
theorem returned_woken : ∀ u, team? returnedState 0 = some u → ∀ y ∈ u.front, y.wait = none := by
  have hteam : (team? returnedState 0).all (fun u => u.front.all fun y => y.wait.isNone) = true := by decide
  intro u hu y hy
  rw [hu, Option.all_some, List.all_eq_true] at hteam
  exact Option.isNone_iff_eq_none.mp (hteam y hy)

/-- Refutes O46: an entry of the frame that waits until the frame's own VALID is 0 goes on at the next word when RTR clears it, where the
statement, which looks at the conditions before the return, has it wait again. -/
theorem not_returnsRestoreTheFrame : ¬ Obligations.ReturnsRestoreTheFrame := by
  unfold Obligations.ReturnsRestoreTheFrame
  rintro ⟨hrtr, -⟩
  obtain ⟨t, ht, ⟨-, -, -, -, -, -, -, -, -, -, -, -, hwaits, -⟩, -⟩ :=
    hrtr noOperands returningState returningCtx returningRead.1 returningView returning_ready returning_go returning_read
  obtain rfl : t = returnedState := Host.Outcome.next.inj (ht.symm.trans returning_exec)
  obtain ⟨u, hu, ⟨y, hy, hlane⟩, hall⟩ := hwaits 0 0 _ validWaiter validWait returning_frameLane rfl rfl rfl (by simp [validWait])
  obtain ⟨-, -, hwait⟩ := hall y hy hlane
  exact absurd (hwait.symm.trans (returned_woken u hu y hy)) (Option.some_ne_none validWait)

end Sys2Proof.Machine

/-! # A trap is delivered (15 R277, R279, R282)

The frame's parts are cleared and its fields written over them, each where the part that it lies in lies in memory; then the team enters
its handler. -/

namespace Sys2Proof.Machine

open Sys2Proof.Spec

/-! ## What the device's accesses and the image leave as it is -/

theorem serves_devicePa (s : State) (c : Nat) (n : Need) (va : Nat) : Serves s (devicePa s c n va).1 := by
  have hmark := serves_markWalk s none c va n.writes
  have hxlate : Serves s (deviceXlate s c n va).1 := by
    unfold deviceXlate
    split
    · exact .refl s
    · split
      · split
        · exact hmark true
        · exact hmark false
      all_goals exact hmark false
  unfold devicePa
  generalize deviceXlate s c n va = r at hxlate ⊢
  obtain ⟨u, x⟩ := r
  cases x <;> exact hxlate

theorem serves_partPas {c : Nat} {n : Need} {ps : List (Nat × Nat)} {s t : State} {l : List (Nat × Nat × Nat)}
    (h : partPas s c n ps = (t, some l)) : Serves s t ∧ l.map (fun x => (x.1, x.2.1)) = ps := by
  induction ps generalizing s l with
  | nil =>
    cases h
    exact ⟨.refl _, rfl⟩
  | cons q r ih =>
    obtain ⟨va, len⟩ := q
    have hpa := serves_devicePa s c n va
    rw [partPas] at h
    generalize devicePa s c n va = d at hpa h
    obtain ⟨u, _ | pa⟩ := d
    · cases h
    · dsimp only at h
      generalize hrest : partPas u c n r = e at h
      obtain ⟨w, _ | l'⟩ := e
      · cases h
      · cases h
        obtain ⟨hserves, hmap⟩ := ih hrest
        exact ⟨hpa.trans hserves, by rw [List.map_cons, hmap]⟩

theorem serves_noteWrite (s : State) (key a n : Nat) : Serves s (noteWrite s key a n) :=
  serves_foldl (fun s _ => serves_noteLine s ..) _ s

/-- A part of an image is cleared at its home, and the L1s' words of it go. -/
def clearPart (key k : Nat) (s : State) (x : Nat × Nat × Nat) : State :=
  let s := (l1Group s k).foldl (fun s j => setCore s j
    (tidyLines { core s j with l1 := (core s j).l1.filter fun w => !inRange x.2.2 x.2.1 w.1 })) s
  let s := disown (tagRange (noteWrite s key x.2.2 x.2.1) key x.2.2 x.2.1) x.2.2 x.2.1
  { s with mem := memClear s.mem x.2.2 x.2.1 }

/-- The fields of an image are written into memory, each in the part that holds its offset; one that is 0 is left out. -/
def writeFields (base : Nat) (l : List (Nat × Nat × Nat)) (fs : List Bits.Fld) (m : List Host.Cell) : List Host.Cell :=
  fs.foldl (fun m f => if f.val = 0 then m else memWrite m (pasFind l (base + f.off)) (Bits.leBytes f.size f.val)) m

/-- Those who watch the parts of an image are told of it. -/
def tellPart (s : State) (x : Nat × Nat × Nat) : State := matchWatches (wakeMonitors s none x.2.2 x.2.1) x.2.2 x.2.1

theorem writeImage_eq (s : State) (k c base : Nat) (l : List (Nat × Nat × Nat)) (fs : List Bits.Fld) : writeImage s k c base l fs =
    l.foldl tellPart { l.foldl (clearPart (compKey s c) k) s with
      mem := writeFields base l fs (l.foldl (clearPart (compKey s c) k) s).mem } := rfl

theorem serves_mem (s : State) (m : List Host.Cell) : Serves s { s with mem := m } := .of_eq rfl rfl rfl rfl

theorem serves_clearPart (key k : Nat) (s : State) (x : Nat × Nat × Nat) : Serves s (clearPart key k s x) := by
  refine (serves_foldl (fun s j => ?_) (l1Group s k) s).trans (((serves_noteWrite _ key x.2.2 x.2.1).trans
    (serves_tagRange _ key x.2.2 x.2.1)).trans ((serves_disown _ ..).trans (serves_mem _ _)))
  exact serves_setCore rfl

theorem serves_writeImage (s : State) (k c base : Nat) (l : List (Nat × Nat × Nat)) (fs : List Bits.Fld) :
    Serves s (writeImage s k c base l fs) := by
  rw [writeImage_eq]
  have htold : ∀ u, Serves u (l.foldl tellPart u) := serves_foldl (fun u x => (serves_wakeMonitors u ..).trans (serves_matchWatches _ ..)) l
  exact ((serves_foldl (serves_clearPart _ k) l s).trans (serves_mem _ _)).trans (htold _)

/-! ## The memory of an image -/

theorem noteLine_mem (s : State) (key line words : Nat) : (noteLine s key line words).mem = s.mem := by
  unfold noteLine
  split <;> rfl

theorem tagLine_mem (s : State) (key line mask : Nat) : (tagLine s key line mask).mem = s.mem := by
  unfold tagLine
  dsimp only
  split
  · split <;> rfl
  · rfl

theorem tagRange_mem (s : State) (key a n : Nat) : (tagRange s key a n).mem = s.mem := by
  unfold tagRange
  split
  · rfl
  · exact foldl_field State.mem (fun s _ => tagLine_mem s ..) _ s

theorem clearPart_mem (key k : Nat) (s : State) (x : Nat × Nat × Nat) : (clearPart key k s x).mem = memClear s.mem x.2.2 x.2.1 := by
  unfold clearPart
  dsimp only [disown]
  rw [tagRange_mem]
  refine congrArg (memClear · x.2.2 x.2.1) ((foldl_field State.mem (fun s _ => noteLine_mem s ..) _ _).trans ?_)
  refine foldl_field State.mem (fun s j => ?_) (l1Group s k) s
  rfl

theorem foldl_clearPart_mem (key k : Nat) (l : List (Nat × Nat × Nat)) (s : State) :
    (l.foldl (clearPart key k) s).mem = l.foldl (fun m x => memClear m x.2.2 x.2.1) s.mem := by
  induction l generalizing s with
  | nil => rfl
  | cons x r ih => rw [List.foldl_cons, ih, clearPart_mem, List.foldl_cons]

theorem tellPart_mem (s : State) (x : Nat × Nat × Nat) : (tellPart s x).mem = s.mem :=
  congrArg Prod.snd ((matchWatches_home _ x.2.2 x.2.1 none).trans (wakeMonitors_home s none x.2.2 x.2.1))

theorem writeImage_mem (s : State) (k c base : Nat) (l : List (Nat × Nat × Nat)) (fs : List Bits.Fld) :
    (writeImage s k c base l fs).mem = writeFields base l fs (l.foldl (fun m x => memClear m x.2.2 x.2.1) s.mem) := by
  rw [writeImage_eq, foldl_field State.mem tellPart_mem, foldl_clearPart_mem]

/-- A byte of a part has been cleared. -/
theorem memByte_cleared {l : List (Nat × Nat × Nat)} {a : Nat} (m : List Host.Cell)
    (h : memByte m a = 0 ∨ ∃ x ∈ l, x.2.2 ≤ a ∧ a < x.2.2 + x.2.1) : memByte (l.foldl (fun m x => memClear m x.2.2 x.2.1) m) a = 0 := by
  induction l generalizing m with
  | nil => simpa using h
  | cons y r ih =>
    rw [List.foldl_cons]
    refine ih _ ?_
    rw [memByte_memClear]
    split
    · exact .inl rfl
    · rename_i hout
      refine h.imp_right fun ⟨x, hx, hin⟩ => ?_
      obtain rfl | hr := List.mem_cons.mp hx
      · exact absurd hin hout
      · exact ⟨x, hr, hin⟩

/-- A byte that one field alone covers, over cleared memory, is that field's. -/
theorem memByte_writeFields {base a j : Nat} {l : List (Nat × Nat × Nat)} {fs : List Bits.Fld} {f : Bits.Fld} (m : List Host.Cell)
    (ha : a = pasFind l (base + f.off) + j) (hj : j < f.size)
    (hothers : ∀ g ∈ fs, pasFind l (base + g.off) ≤ a → a < pasFind l (base + g.off) + g.size → g = f)
    (hm : memByte m a = BitVec.ofNat 8 (f.val / 2 ^ (8 * j)) ∨ f ∈ fs ∧ memByte m a = 0) :
    memByte (writeFields base l fs m) a = BitVec.ofNat 8 (f.val / 2 ^ (8 * j)) := by
  induction fs generalizing m with
  | nil => exact hm.elim id fun hin => absurd hin.1 List.not_mem_nil
  | cons g r ih =>
    refine ih _ (fun x hx => hothers x (List.mem_cons_of_mem g hx)) ?_
    have hown : g = f → memByte (if g.val = 0 then m else memWrite m (pasFind l (base + g.off)) (Bits.leBytes g.size g.val)) a =
        BitVec.ofNat 8 (f.val / 2 ^ (8 * j)) := by
      rintro rfl
      split
      · rename_i hzero
        rw [hzero, Nat.zero_div] at hm ⊢
        exact hm.elim id And.right
      · rw [memByte_memWrite, leBytes_length, if_pos (by omega), show a - pasFind l (base + g.off) = j by omega, leBytes_getD _ hj]
    by_cases hg : g = f
    · exact .inl (hown hg)
    · have hkeep : memByte (if g.val = 0 then m else memWrite m (pasFind l (base + g.off)) (Bits.leBytes g.size g.val)) a = memByte m a := by
        split
        · rfl
        · rw [memByte_memWrite, leBytes_length, if_neg]
          exact fun hin => hg (hothers g List.mem_cons_self hin.1 hin.2)
      rw [hkeep]
      exact hm.imp_right fun ⟨hf, hz⟩ => ⟨(List.mem_cons.mp hf).resolve_left (Ne.symm hg), hz⟩

/-- A number read back from bytes that are its own. -/
theorem memLe_of_bytes {m : List Host.Cell} {a n v : Nat} (h : ∀ j, j < n → memByte m (a + j) = BitVec.ofNat 8 (v / 2 ^ (8 * j))) :
    memLe m a n = v % 256 ^ n := by
  induction n generalizing a v with
  | zero => simp [memLe, memRead, Bits.ofLe, Nat.mod_one]
  | succ n ih =>
    have hrest : memLe m (a + 1) n = v / 256 % 256 ^ n := ih fun j hj => by
      rw [Nat.add_assoc, Nat.add_comm 1 j, h _ (by omega), Nat.div_div_eq_div_mul,
        show 2 ^ (8 * (j + 1)) = 256 * 2 ^ (8 * j) by rw [Nat.mul_succ, pow_add, Nat.mul_comm]; rfl]
    have hfirst := h 0 (Nat.succ_pos n)
    rw [memLe, memRead, Bits.ofLe, ← memLe, hrest, ← Nat.add_zero a, hfirst, pow_succ', Nat.mod_mul]
    simp

/-! ## Where the fields of a frame lie (15 R279, R280) -/

/-- A field lies in one block of sixteen bytes. -/
def InBlock (f : Bits.Fld) : Prop := 0 < f.size ∧ f.off % 16 + f.size ≤ 16

/-- The fields of a frame up to HANDLE. -/
def frameHead (t : Team) (i : TrapInfo) : List Bits.Fld :=
  [⟨0, 1, 1⟩, ⟨1, 1, i.cause⟩, ⟨2, 1, t.level⟩, ⟨3, 1, i.replay.length⟩, ⟨4, 4, t.guardMask.toNat⟩, ⟨8, 1, t.guardLeft⟩,
    ⟨9, 1, i.theta⟩, ⟨0xA, 1, i.kval⟩, ⟨0xB, 1, (if i.service then 1 else 0) + (if i.escalated then 2 else 0)⟩,
    ⟨0xC, 4, t.fpstat.toNat⟩, ⟨0x10, 4, i.slmask.toNat⟩, ⟨0x14, 4, i.flane⟩, ⟨0x18, 8, i.faddr⟩, ⟨0x20, 8, i.tpc⟩,
    ⟨0x28, 4, i.handle⟩]

/-- Two fields lie behind each other. -/
def OffApart (f g : Bits.Fld) : Prop := f.off + f.size ≤ g.off ∨ g.off + g.size ≤ f.off

theorem frameHead_apart {t : Team} {i : TrapInfo} {f g : Bits.Fld} (hf : f ∈ frameHead t i) (hg : g ∈ frameHead t i) (hne : f ≠ g) :
    OffApart f g := by
  have hpair : (frameHead t i).Pairwise OffApart := by simp [frameHead, OffApart]
  have hsymm : Std.Symm OffApart := ⟨fun _ _ => Or.symm⟩
  exact hpair.forall hf hg hne

theorem frameHead_bounds (t : Team) (i : TrapInfo) : ∀ f ∈ frameHead t i, InBlock f ∧ f.off + f.size ≤ 0x30 := by
  simp [frameHead, InBlock]

theorem replayFields_bounds {base : Nat} (e : ReplayEntry) (hbase : base % 16 = 0) :
    ∀ f ∈ replayFields base e, InBlock f ∧ base ≤ f.off := by
  simp only [replayFields, List.forall_mem_append, List.forall_mem_map, List.forall_mem_flatMap, List.forall_mem_cons, InBlock]
  refine ⟨⟨⟨⟨by omega, by omega, by omega, by omega, by simp⟩, fun x _ => by omega⟩, fun x _ => by omega⟩, fun r _ x _ => ?_⟩
  exact ⟨by omega, by omega, by simp⟩

/-- Every other field of a frame lies behind them. -/
theorem frameFields_bounds (t : Team) (i : TrapInfo) : ∀ f ∈ frameFields t i, f ∈ frameHead t i ∨ InBlock f ∧ 0x30 ≤ f.off := by
  have hbehind : ∀ fs : List Bits.Fld, (∀ f ∈ fs, InBlock f ∧ 0x30 ≤ f.off) → ∀ f ∈ fs, f ∈ frameHead t i ∨ InBlock f ∧ 0x30 ≤ f.off :=
    fun fs h f hf => .inr (h f hf)
  rw [frameFields]
  simp only [List.forall_mem_append]
  refine ⟨⟨⟨⟨⟨⟨⟨⟨?fixed, ?ivec⟩, ?lanes⟩, ?front⟩, ?sigt⟩, ?scalars⟩, ?predicates⟩, ?masks⟩, ?replay⟩
  case fixed => simp [frameHead, InBlock]
  all_goals
    refine hbehind _ ?_
    simp only [List.forall_mem_map, List.forall_mem_flatMap, List.forall_mem_cons, InBlock]
  case ivec => exact fun x _ => by omega
  case lanes => exact fun x _ => by omega
  case front => exact fun x _ => ⟨by omega, by omega, by omega, by omega, by omega, by simp⟩
  case sigt => exact fun x _ => by omega
  case scalars => exact fun x _ => by omega
  case predicates => exact fun x _ => by omega
  case masks => exact fun x _ => by omega
  case replay =>
    intro x _ f hf
    obtain ⟨hblock, hoff⟩ := replayFields_bounds x.1 (by omega) f hf
    exact ⟨hblock, by omega⟩

theorem mem_frameFields_of_head {t : Team} {i : TrapInfo} {f : Bits.Fld} (hf : f ∈ frameHead t i) : f ∈ frameFields t i := by
  have hfixed : frameHead t i ++ [⟨0x40, 8, i.promise⟩, ⟨0x48, 8, i.done⟩, ⟨0x50, 8, i.child⟩, ⟨0x58, 4, t.front.length⟩] <+: frameFields t i := by
    simp only [frameFields, List.append_assoc]
    exact List.prefix_append ..
  exact hfixed.mem (List.mem_append_left _ hf)

/-! ## The parts of a range of addresses -/

theorem mem_pageParts {va n : Nat} {q : Nat × Nat} (h : q ∈ pageParts va n) :
    ∃ k, q.1 = max va (4096 * k) ∧ q.1 + q.2 = min (va + n) (4096 * k + 4096) := by
  unfold pageParts at h
  split at h
  · cases h
  · obtain ⟨j, hj, rfl⟩ := List.mem_map.mp h
    rw [List.mem_range] at hj
    exact ⟨va / 4096 + j, rfl, by dsimp only; omega⟩

theorem pageParts_cover {va n a : Nat} (hlo : va ≤ a) (hhi : a < va + n) : ∃ q ∈ pageParts va n, q.1 ≤ a ∧ a < q.1 + q.2 := by
  rw [pageParts, if_neg (by omega)]
  exact ⟨_, List.mem_map.mpr ⟨a / 4096 - va / 4096, List.mem_range.mpr (by omega), rfl⟩, by dsimp only; omega, by dsimp only; omega⟩

/-- The first part begins where the range does. -/
theorem pageParts_head {va n : Nat} {q : Nat × Nat} {r : List (Nat × Nat)} (hn : 0 < n) (h : q :: r = pageParts va n) :
    q = (va, min (va + n) (4096 * (va / 4096) + 4096) - va) := by
  rw [pageParts, if_neg (by omega), List.range_succ_eq_map, List.map_cons] at h
  rw [(List.cons.inj h).1, Nat.add_zero, Nat.max_eq_left (by omega)]

theorem pasFind_of_covered {l : List (Nat × Nat × Nat)} {a : Nat} (h : ∃ x ∈ l, x.1 ≤ a ∧ a < x.1 + x.2.1) :
    ∃ x ∈ l, (x.1 ≤ a ∧ a < x.1 + x.2.1) ∧ pasFind l a = x.2.2 + (a - x.1) := by
  obtain ⟨y, hy, hin⟩ := h
  unfold pasFind
  split
  · rename_i x hx
    exact ⟨x, List.mem_of_find?_eq_some hx, by simpa using List.find?_some hx, rfl⟩
  · rename_i hnone
    exact absurd (List.find?_eq_none.mp hnone y hy) (by simpa using hin)

theorem pasFind_cons_of_covers {x : Nat × Nat × Nat} {l : List (Nat × Nat × Nat)} {a : Nat} (h : x.1 ≤ a ∧ a < x.1 + x.2.1) :
    pasFind (x :: l) a = x.2.2 + (a - x.1) := by
  rw [pasFind, List.find?_cons_of_pos (by simpa using h)]

section
variable {base n : Nat} {x : Nat × Nat × Nat} {l : List (Nat × Nat × Nat)}

/-- A block of sixteen bytes that a part of a range holds the first byte of lies in it as a whole, where the part lies. -/
theorem block_in_part {a size : Nat} (hl : l.map (fun x => (x.1, x.2.1)) = pageParts base n) (hlo : base ≤ a) (hblock : a % 16 + size ≤ 16)
    (hsize : 0 < size) (hfit : a + size ≤ base + n) :
    ∃ y ∈ l, y.1 ≤ a ∧ a + size ≤ y.1 + y.2.1 ∧ pasFind l a = y.2.2 + (a - y.1) := by
  obtain ⟨q, hq, hcov⟩ := pageParts_cover hlo (by omega : a < base + n)
  rw [← hl] at hq
  obtain ⟨z, hz, rfl⟩ := List.mem_map.mp hq
  obtain ⟨y, hy, hin, hfind⟩ := pasFind_of_covered ⟨z, hz, hcov⟩
  obtain ⟨k, hk, hend⟩ := mem_pageParts (hl ▸ List.mem_map_of_mem hy : (y.1, y.2.1) ∈ pageParts base n)
  dsimp only at hk hend
  exact ⟨y, hy, hin.1, by omega, hfind⟩

/-- The first part of a frame holds its first 2 KiB. -/
theorem first_part (hl : (x :: l).map (fun x => (x.1, x.2.1)) = pageParts base n) (hbase : base % 2048 = 0) (hn : 2048 ≤ n) :
    x.1 = base ∧ 2048 ≤ x.2.1 := by
  obtain ⟨hva, hlen⟩ := Prod.mk.inj (pageParts_head (by omega) hl)
  exact ⟨hva, by omega⟩

/-- A byte of a field of the head is no other field's (15 R279). -/
theorem head_byte_alone {f g : Bits.Fld} {j : Nat} (hl : (x :: l).map (fun x => (x.1, x.2.1)) = pageParts base n) (hbase : base % 2048 = 0)
    (hn : 2048 ≤ n) (hapart : apart (x :: l)) (hf : f.off + f.size ≤ 0x30) (hj : j < f.size) (hg : InBlock g) (hfit : g.off + g.size ≤ n)
    (hoff : OffApart g f) :
    ¬ (pasFind (x :: l) (base + g.off) ≤ x.2.2 + f.off + j ∧ x.2.2 + f.off + j < pasFind (x :: l) (base + g.off) + g.size) := by
  obtain ⟨hpos, hblock⟩ := hg
  unfold OffApart at hoff
  obtain ⟨hva, hlen⟩ := first_part hl hbase hn
  obtain ⟨y, hy, hlo, hhi, hfind⟩ := block_in_part (a := base + g.off) hl (by omega) (by omega) hpos (by omega)
  rw [hfind]
  obtain rfl | hrest := List.mem_cons.mp hy
  · omega
  · have := List.rel_of_pairwise_cons hapart hrest
    omega

end

/-- The head of a frame is written as it stands, whatever lies behind it (15 R279). -/
theorem memLe_head {t : Team} {i : TrapInfo} {base n : Nat} {x : Nat × Nat × Nat} {l : List (Nat × Nat × Nat)} {f : Bits.Fld}
    (m : List Host.Cell) (hl : (x :: l).map (fun x => (x.1, x.2.1)) = pageParts base n) (hbase : base % 2048 = 0) (hn : 2048 ≤ n)
    (hapart : apart (x :: l)) (hfit : ∀ f ∈ frameFields t i, f.off + f.size ≤ n) (hf : f ∈ frameHead t i) :
    memLe (writeFields base (x :: l) (frameFields t i) ((x :: l).foldl (fun m x => memClear m x.2.2 x.2.1) m)) (x.2.2 + f.off) f.size =
      f.val % 256 ^ f.size := by
  obtain ⟨hva, hlen⟩ := first_part hl hbase hn
  obtain ⟨-, hend⟩ := frameHead_bounds t i f hf
  refine memLe_of_bytes fun j hj => ?_
  have hplace : x.2.2 + f.off = pasFind (x :: l) (base + f.off) := by
    rw [pasFind_cons_of_covers (by omega), hva, Nat.add_sub_cancel_left]
  refine memByte_writeFields _ (by rw [hplace]) hj (fun g hg hlo hhi => ?alone) (.inr ⟨mem_frameFields_of_head hf, ?cleared⟩)
  case alone =>
    by_contra hne
    have hblock : InBlock g := (frameFields_bounds t i g hg).elim (fun h => (frameHead_bounds t i g h).1) And.left
    refine head_byte_alone hl hbase hn hapart hend hj hblock (hfit g hg) ?_ ⟨hlo, hhi⟩
    exact (frameFields_bounds t i g hg).elim (fun hhead => frameHead_apart hhead hf hne) fun hg => .inr (hend.trans hg.2)
  case cleared => exact memByte_cleared m (.inr ⟨x, List.mem_cons_self, by omega, by omega⟩)

/-! ## The entry into the handler (15 R277 steps 3 and 4) -/

/-- The team `u`, which trapped as `t`, in the handler at an address, its frame at `f`. -/
def handlerTeam (u t : Team) (i : TrapInfo) (f handler : Nat) : Team :=
  { u with
    level := 1
    front := rebuild [{ prio := 255, pc := handlerPc handler, mask := u.live }]
    held := u.held ++ (t.front.zipIdx.filter fun x => x.1.wait.any Wait.armed).map fun x => (⟨f, x.2, x.1, none⟩ : Held)
    guardMask := 0
    guardLeft := 0
    chain := 0
    replayQ := []
    replayWait := false
    parking := []
    first := none
    runFrames := (if i.replay.head?.any (·.run) then [f] else []) ++ u.runFrames.filter fun x => x ≠ f
    entering := true
    frameLo := BitVec.ofNat 32 f
    frameHi := BitVec.ofNat 32 (f / 2 ^ 32) }

theorem frameBase_handlerTeam (u t v : Team) (i : TrapInfo) (handler : Nat) :
    (handlerTeam u t i v.frameBase handler).frameBase = v.frameBase := by
  have hlo := v.frameLo.isLt
  have hhi := v.frameHi.isLt
  simp only [Team.frameBase, handlerTeam, BitVec.toNat_ofNat]
  omega

/-- Every live lane stands at the handler. -/
theorem handlerTeam_front_of_live {u t : Team} {i : TrapInfo} {f handler k : Nat} (hk : u.live.getLsbD k = true) :
    (handlerTeam u t i f handler).front = [{ prio := 255, pc := handlerPc handler, mask := u.live }] := by
  have hlive : u.live ≠ 0 := by
    intro hzero
    rw [hzero] at hk
    simp at hk
  show rebuild _ = _
  rw [rebuild, List.foldl_cons, List.foldl_nil, if_neg hlive]
  rfl

/-- What a wake leaves of a team: its registers, its lanes and its place. -/
theorem wakeTeam_placed (p : Wait → Option (Option Word)) (t : Team) : (wakeTeam p t).v = t.v ∧ (wakeTeam p t).p = t.p ∧
    (wakeTeam p t).m = t.m ∧ (wakeTeam p t).live = t.live ∧ (wakeTeam p t).place = t.place := by
  rw [wakeTeam_eq, writeWakes_eq]
  exact ⟨rfl, rfl, rfl, rfl, rfl⟩

theorem Woke.placed {x y : Team} (h : Woke x y) : y.v = x.v ∧ y.p = x.p ∧ y.m = x.m ∧ y.live = x.live ∧ y.place = x.place := by
  refine h.keeps (P := fun z => z.v = x.v ∧ z.p = x.p ∧ z.m = x.m ∧ z.live = x.live ∧ z.place = x.place) (fun p z hz => ?_)
    ⟨rfl, rfl, rfl, rfl, rfl⟩
  obtain ⟨hv, hp, hm, hlive, hplace⟩ := wakeTeam_placed p z
  obtain ⟨hv', hp', hm', hlive', hplace'⟩ := hz
  exact ⟨hv.trans hv', hp.trans hp', hm.trans hm', hlive.trans hlive', hplace.trans hplace'⟩

section
variable {s s1 : State} {key : Nat} {i : TrapInfo} {t : Team} {p : Place} {l : List (Nat × Nat × Nat)}

/-- The team that stood before the frame was written stands after, woken at most. -/
theorem Serves.woke {u : State} (h : Serves s u) (ht : team? s key = some t) : ∃ y, team? u key = some y ∧ Woke t y := by
  have hrel := h.teams key
  rw [ht] at hrel
  cases hy : team? u key with
  | none =>
    rw [hy] at hrel
    cases hrel
  | some y =>
    rw [hy] at hrel
    cases hrel with
    | some hwoke => exact ⟨y, rfl, hwoke⟩

/-- The frame as the device writes it. -/
def framed (s1 : State) (t : Team) (p : Place) (i : TrapInfo) (l : List (Nat × Nat × Nat)) : State :=
  writeImage s1 p.core t.comp t.frameBase l (frameFields t i)

/-- A trap whose frame is free and can be written is delivered: the frame is written and the team enters its handler. -/
theorem deliverTrap_enters (ht : team? s key = some t) (hp : t.place = some p) (hfree : frameValid s p.core t.comp t.frameBase = false)
    (hparts : partPas s t.comp .rw (pageParts t.frameBase (frameSize + 2048 * i.replay.length)) = (s1, some l))
    (hread : viewFails s1 p.core [(t.frameBase, 4, pasFind l t.frameBase)] = false) {u : Team} (hu : team? (framed s1 t p i l) key = some u) :
    deliverTrap s key i = voidTeamLatches (setTeam (framed s1 t p i l) key (handlerTeam u t i t.frameBase t.trapVec))
      (handlerTeam u t i t.frameBase t.trapVec) := by
  have henter : enterHandler s key t p i t.frameBase t.trapVec = some (voidTeamLatches
      (setTeam (framed s1 t p i l) key (handlerTeam ((team? (framed s1 t p i l) key).getD t) t i t.frameBase t.trapVec))
      (handlerTeam ((team? (framed s1 t p i l) key).getD t) t i t.frameBase t.trapVec)) := by
    unfold enterHandler
    rw [hparts]
    exact if_neg (by rw [hread]; exact Bool.false_ne_true)
  rw [hu, Option.getD_some] at henter
  unfold deliverTrap
  rw [ht]
  dsimp only
  rw [hp]
  dsimp only
  rw [hfree, if_neg Bool.false_ne_true, henter]

/-- A trap of a team whose frame is valid, in a root region, halts the compartment (15 R282). -/
theorem deliverTrap_halts {r : Region} (ht : team? s key = some t) (hp : t.place = some p)
    (hvalid : frameValid s p.core t.comp t.frameBase = true) (hr : region? s (handlerRegion t) = some r) (hroot : r.parent = 0) :
    deliverTrap s key i = haltComp s t.comp (0x100 + i.cause) := by
  unfold deliverTrap
  rw [ht]
  dsimp only
  rw [hp]
  dsimp only
  rw [if_pos hvalid, escalate, hr]
  exact if_pos hroot

end

/-- The fields at the head that the statement names are fields of the frame. -/
theorem headOf_subset_frameHead (t : Team) (i : TrapInfo) : ∀ f ∈ Spec.headOf t i, ⟨f.1, f.2.1, f.2.2⟩ ∈ frameHead t i := by
  simp [Spec.headOf, frameHead]

/-- Settles O51: the frame is written by one sparse image, whose fields lie apart, and what it wakes keeps its registers; the handler's
frontier is one entry of the live lanes. At the root the escalation ends at once. -/
theorem trapEntry : Obligations.TrapEntry := by
  unfold Obligations.TrapEntry
  refine ⟨fun s key i t p s1 x l ht hp hfree hparts hread => ?enters, fun s key i t p r ht hp hvalid hr hroot => ?halts⟩
  case enters =>
    obtain ⟨hserves, hmap⟩ := serves_partPas hparts
    obtain ⟨u, hu, hwoke⟩ := (hserves.trans (serves_writeImage s1 p.core t.comp t.frameBase (x :: l) (frameFields t i))).woke ht
    obtain ⟨hv, hpred, hm, hlive, hplace⟩ := hwoke.placed
    have hdeliver := deliverTrap_enters ht hp hfree hparts hread hu
    have hpl : (handlerTeam u t i t.frameBase t.trapVec).place = some p := hplace.trans hp
    rw [voidTeamLatches_of_place hpl] at hdeliver
    have hteam : team? (deliverTrap s key i) key = some (handlerTeam u t i t.frameBase t.trapVec) := by
      rw [hdeliver, team?_setBench, team?_setTeam, if_pos rfl]
    refine ⟨_, hteam, rfl, hv, hpred, hm, hlive, rfl, rfl, rfl, rfl, frameBase_handlerTeam u t t i t.trapVec, fun k _ hk => ?lanes,
      fun k => ?latches, fun hbase hapart hfit _ f hf => ?memory⟩
    case lanes =>
      rw [← hlive] at hk
      refine ⟨_, hteam, ?_⟩
      rw [handlerTeam_front_of_live hk]
      simp [hk]
    case latches =>
      rw [hdeliver, bench_setBench, if_pos rfl]
      exact latch_voidLatches_valid _ k
    case memory =>
      have hmem : (deliverTrap s key i).mem = (framed s1 t p i (x :: l)).mem := by rw [hdeliver]; rfl
      rw [hmem, framed, writeImage_mem]
      exact memLe_head s1.mem hmap hbase (by unfold frameSize; omega) hapart hfit (headOf_subset_frameHead t i f hf)
  case halts =>
    rw [deliverTrap_halts ht hp hvalid hr hroot]
    exact comp_haltComp s t.comp (0x100 + i.cause)

end Sys2Proof.Machine

/-! # Every step, and the first one (22 R341, R348, 13 R249) -/

namespace Sys2Proof.Machine

/-! ## What every step keeps (22 R341) -/

/-- A step keeps what its parts keep: the time that passes, what happens, what goes on of itself, and the records. -/
theorem step_keeps {s t : State} (h : step s = .next t) : Keeps s t := by
  unfold step at h
  split at h
  case h_1 u hcore =>
    have hparts : Keeps s (traceStep s (afterStep u)) :=
      traceStep_keeps (afterStep_keeps ((tick_keeps (Keeps.refl s)).trans (stepCore_keeps hcore)))
    exact Host.Outcome.next.inj h ▸ hparts
  case h_2 hnot => exact absurd h (hnot t)

/-- Settles O59: what is asked of a step is what `Keeps` says of it. -/
theorem stepKeepsInvariant : Obligations.StepKeepsInvariant := by
  unfold Obligations.StepKeepsInvariant Spec.Inv
  exact fun s t h => step_keeps h

/-- Settles O58: memory is empty at reset. -/
theorem resetInvariant : Obligations.ResetInvariant := by
  unfold Obligations.ResetInvariant Spec.Inv
  exact memWf_nil

/-! ## The first step is POWER_ON (22 R348) -/

/-- The device after its first step: brought up, and what waits is to be tried again. -/
def poweredOn : State := { bringUp (tick State.reset) with stir := true }

theorem stepCore_tick_reset : stepCore (tick State.reset) = .next poweredOn := rfl

/-- With no team, request or compartment nothing goes on of itself, and nothing is recorded. -/
theorem afterStep_poweredOn : traceStep State.reset (afterStep poweredOn) = poweredOn := rfl

theorem step_reset : step State.reset = .next poweredOn := by
  unfold step
  rw [stepCore_tick_reset]
  exact congrArg Host.Outcome.next afterStep_poweredOn

/-- No line has a key tag, which stands for zeros under slot 0. -/
theorem homeByte_poweredOn (a : Nat) : homeByte poweredOn 0 a = 0 := by
  have hvalid : allValid.testBit (a % 64) = true := by
    rw [allValid, Nat.testBit_two_pow_sub_one]
    exact decide_eq_true (Nat.mod_lt a (by decide))
  have huntagged : homeByte poweredOn 0 a = if allValid.testBit (a % 64) = true then memByte [] a else Config.unrelated a 0 0 0 0 := rfl
  rw [huntagged, if_pos hvalid]
  rfl

/-- Settles O55: the tables are empty at reset, and the first step is computed. -/
theorem resetAndPowerOn : Obligations.ResetAndPowerOn := by
  unfold Obligations.ResetAndPowerOn
  exact ⟨rfl, rfl, rfl, rfl, rfl, rfl, rfl, rfl, rfl, fun _ _ => rfl, fun _ => rfl, fun _ _ => rfl,
    poweredOn, step_reset, rfl, rfl, homeByte_poweredOn, rfl⟩

end Sys2Proof.Machine

/-! # Operations on compartments (22 R333 to R335) -/

namespace Sys2Proof.Machine

open Sys2Proof.Spec

/-! ## What leaves the compartments and the keys alone -/

/-- From `s` to `t` no compartment has changed, and no key slot has been loaded. -/
structure CompsStay (s t : State) : Prop where
  comps : t.comps = s.comps
  keyGen : t.keyGen = s.keyGen

section
variable {s t u : State}

theorem CompsStay.refl (s : State) : CompsStay s s := ⟨rfl, rfl⟩

theorem CompsStay.trans (h : CompsStay s t) (k : CompsStay t u) : CompsStay s u := ⟨k.comps.trans h.comps, k.keyGen.trans h.keyGen⟩

theorem CompsStay.comp (h : CompsStay s t) (k : Nat) : comp t k = comp s k := by rw [Machine.comp, h.comps, Machine.comp]

theorem Serves.compsStay (h : Serves s t) : CompsStay s t :=
  ⟨h.state_eq State.comps fun _ => rfl, h.state_eq State.keyGen fun _ => rfl⟩

theorem compsStay_foldl {α : Type} {f : State → α → State} (hf : ∀ s x, CompsStay s (f s x)) (l : List α) (s : State) :
    CompsStay s (l.foldl f s) := by
  induction l generalizing s with
  | nil => exact .refl s
  | cons x r ih => exact (hf s x).trans (ih (f s x))

theorem CompsStay.ite {p : Prop} [Decidable p] (h : CompsStay s t) (k : CompsStay s u) : CompsStay s (if p then t else u) := by
  split
  · exact h
  · exact k

theorem compsStay_onTeam (s : State) (k : Nat) (f : Team → Team) : CompsStay s (onTeam s k f) := ⟨onTeam_comps .., onTeam_keyGen ..⟩

theorem compsStay_onCrew (s : State) (k : Nat) (f : Crew → Crew) : CompsStay s (onCrew s k f) := ⟨onCrew_comps .., onCrew_keyGen ..⟩

theorem compsStay_setCore (s : State) (k : Nat) (x : Core) : CompsStay s (setCore s k x) := ⟨rfl, rfl⟩

theorem compsStay_setCluster (s : State) (k : Nat) (x : Cluster) : CompsStay s (setCluster s k x) := ⟨rfl, rfl⟩

theorem compsStay_setBench (s : State) (b : Nat) (x : Bench) : CompsStay s (setBench s b x) := ⟨rfl, rfl⟩

theorem compsStay_regions (s : State) (rs : Tab Region) : CompsStay s { s with regions := rs } := ⟨rfl, rfl⟩

theorem compsStay_crews (s : State) (cs : Tab Crew) : CompsStay s { s with crews := cs } := ⟨rfl, rfl⟩

theorem compsStay_teams (s : State) (ts : Tab Team) : CompsStay s { s with teams := ts } := ⟨rfl, rfl⟩

theorem compsStay_stir (s : State) (b : Bool) : CompsStay s { s with stir := b } := ⟨rfl, rfl⟩

/-! ## Regions, and what has ended (07 R121, 15 R262, R263) -/

theorem compsStay_onRegion (s : State) (rk : Nat) (f : Region → Region) : CompsStay s (onRegion s rk f) := by
  unfold onRegion
  split
  · exact compsStay_regions s _
  · exact .refl s

theorem compsStay_writeRcb (s : State) (rk off size v : Nat) : CompsStay s (writeRcb s rk off size v) := by
  unfold writeRcb
  split
  · exact (serves_writeHome s ..).compsStay
  · exact .refl s

theorem compsStay_setRegionState (s : State) (rk st : Nat) : CompsStay s (setRegionState s rk st) :=
  (compsStay_onRegion s rk fun r => { r with state := st }).trans (compsStay_writeRcb _ rk 0x64 4 st)

theorem compsStay_flushL1 (s : State) (k : Nat) : CompsStay s (flushL1 s k) := (serves_dropWords s k _).compsStay

theorem compsStay_refuse (s : State) (c : Nat) : CompsStay s (refuse s c) := by
  refine compsStay_foldl (fun s cl => ?_) _ s
  dsimp only
  split
  · exact .refl s
  · exact (compsStay_foldl (fun s i => compsStay_flushL1 s (4 * cl + i)) (List.range 4) s).trans (compsStay_setCluster ..)

theorem compsStay_dropStable (s : State) (c : Nat) : CompsStay s (dropStable s c) :=
  compsStay_foldl (fun s k => (serves_writeBackIf s k _).compsStay.trans (compsStay_setCore ..)) _ s

theorem compsStay_writeOut (s : State) (key pa : Nat) (bs : List Byte) : CompsStay s (writeOut s key pa bs) := by
  unfold writeOut
  split
  · exact (serves_writeHome s key pa bs none).compsStay
  · exact (serves_writeHome s key pa bs none).compsStay
  · exact ⟨rfl, rfl⟩
  · exact .refl s

theorem compsStay_markIpa (s : State) (c ipa : Nat) (write : Bool) : CompsStay s (markIpa s c ipa write) := by
  unfold markIpa
  split
  · exact (serves_markLeaf s ..).compsStay
  · exact .refl s

theorem compsStay_writeDone (s : State) (c ipa v : Nat) : CompsStay s (writeDone s c ipa v) := by
  unfold writeDone
  split
  · exact .refl s
  · dsimp only
    split
    · exact (compsStay_markIpa s ..).trans (compsStay_writeOut _ ..)
    · exact compsStay_markIpa s ..

theorem compsStay_endRegion (n : Nat) (s : State) (rk : Nat) : CompsStay s (endRegion s n rk) := by
  induction n generalizing s rk with
  | zero => exact .refl s
  | succ n ih =>
    unfold endRegion
    split
    · exact .refl s
    · rename_i r _
      split
      · exact .refl s
      · have hended : CompsStay s (refuse { setRegionState s rk 0 with regions := Tab.del (setRegionState s rk 0).regions rk } r.comp) :=
          ((compsStay_setRegionState s rk 0).trans (compsStay_regions _ _)).trans (compsStay_refuse _ _)
        dsimp only
        split
        · exact hended.trans ((compsStay_dropStable _ _).trans (compsStay_writeDone _ ..))
        · exact hended.trans (ih _ _)

theorem compsStay_endIdle (s : State) (rk : Nat) : CompsStay s (endIdle s rk) := by
  unfold endIdle
  split
  · exact .refl s
  · exact compsStay_endRegion _ s rk

theorem compsStay_reapTeam (s : State) (key : Nat) : CompsStay s (reapTeam s key) := by
  unfold reapTeam
  split
  · split
    · exact compsStay_teams s _
    · exact .refl s
  · exact .refl s

theorem compsStay_reapCrew (s : State) (ck : Nat) : CompsStay s (reapCrew s ck) := by
  unfold reapCrew
  split
  · split
    · exact .refl s
    · split
      · exact (compsStay_crews s _).trans (compsStay_endIdle _ _)
      · split
        · exact .refl s
        · exact compsStay_crews s _
  · exact .refl s

/-- What follows an event changes no compartment. -/
theorem compsStay_happen (s : State) : CompsStay s (happen s) :=
  ((compsStay_stir s true).trans (compsStay_foldl compsStay_reapTeam _ _)).trans (compsStay_foldl compsStay_reapCrew _ _)

@[simp] theorem comp_happen (s : State) (k : Nat) : comp (happen s) k = comp s k := (compsStay_happen s).comp k

/-! ## Stops, and teams that leave their slots (15 R269, R272 to R274) -/

theorem compsStay_askStop (s : State) (ck : Nat) : CompsStay s (askStop s ck) :=
  compsStay_foldl (fun s k => compsStay_onTeam s k _) _ s

theorem compsStay_trapStop (s : State) (ck : Nat) : CompsStay s (trapStop s ck) := by
  unfold trapStop
  split
  · exact compsStay_onTeam ..
  · exact compsStay_askStop s ck

theorem compsStay_stopCrew (s : State) (ck : Nat) : CompsStay s (stopCrew s ck) := by
  unfold stopCrew
  split
  · exact .refl s
  · dsimp only
    refine CompsStay.trans ?_ (.ite (compsStay_trapStop ..) (compsStay_askStop ..))
    refine CompsStay.trans ?_ (compsStay_foldl (fun s k => compsStay_onTeam s k _) _ _)
    exact .ite (compsStay_onCrew ..) (.refl s)

theorem compsStay_endStint (s : State) (b : Nat) : CompsStay s (endStint s b) := by
  unfold endStint
  dsimp only
  split
  · exact (compsStay_setBench ..).trans (compsStay_onTeam ..)
  · exact compsStay_setBench ..

theorem compsStay_evict (s : State) (key : Nat) : CompsStay s (evict s key) := by
  have hstint : ∀ b, CompsStay s (if (bench s b).holder = some key then endStint s b else s) := fun b =>
    .ite (compsStay_endStint s b) (.refl s)
  unfold evict
  split
  · exact .refl s
  · split
    · exact ((hstint _).trans (compsStay_onTeam ..)).trans (.ite (compsStay_onCrew ..) (.refl _))
    · exact (compsStay_onTeam ..).trans (.ite (compsStay_onCrew ..) (.refl _))

theorem compsStay_unseat (s : State) (c : Nat) : CompsStay s (unseat s c) :=
  compsStay_foldl (fun s ck => (compsStay_foldl compsStay_evict (placedTeams s ck) s).trans (compsStay_onCrew ..)) _ s

/-! ## Cores that leave and join a compartment (22 R335) -/

theorem compsStay_setMhz (s : State) (k mhz : Nat) : CompsStay s (setMhz s k mhz) := by
  unfold setMhz
  split
  · exact .refl s
  · exact compsStay_setCore ..

theorem compsStay_leaveCores (s : State) (c : Nat) (ks : List Nat) : CompsStay s (leaveCores s c ks) := by
  refine compsStay_foldl (fun s k => ?_) ks s
  exact (((compsStay_flushL1 s k).trans (compsStay_setCore ..)).trans (compsStay_setMhz ..)).trans (compsStay_setCluster ..)

theorem compsStay_moveBins (s : State) (c : Nat) (ks : List Nat) (to' : Option Nat) : CompsStay s (moveBins s c ks to') := by
  unfold moveBins
  split
  · exact .refl s
  · exact compsStay_foldl (fun s k => (compsStay_setCore ..).trans (compsStay_setCore ..)) ks s

theorem compsStay_joinCores (s : State) (k : Nat) (ks : List Nat) : CompsStay s (joinCores s k ks) :=
  compsStay_foldl (fun _ _ => compsStay_setCore ..) ks s

/-- A compartment's clusters are those given, and its cores follow. -/
theorem compsStay_takeClusters (s : State) (c : Nat) (m : BitVec 16) :
    CompsStay (setComp s c { comp s c with desc := { (comp s c).desc with clusters := m } }) (takeClusters s c m) := by
  unfold takeClusters
  dsimp only
  refine CompsStay.trans ?_ (compsStay_refuse ..)
  refine CompsStay.trans ?_ (.ite (compsStay_foldl (fun s k => compsStay_setMhz s k 2100) _ _) (.refl _))
  exact ((compsStay_moveBins ..).trans (compsStay_leaveCores ..)).trans (compsStay_joinCores ..)

end

/-! ## Which result an operation has (22 R333 to R335) -/

section
variable {s : State} {c : Nat} {d : Descriptor} {m : BitVec 16}

theorem others_any {p : Nat → Bool} :
    (others s c).any p = true ↔ ∃ k, k < 16 ∧ k ≠ c ∧ (comp s k).desc.state ≠ 0 ∧ p k = true := by
  simp [others, and_assoc]

theorem createResult_of_state (h : (comp s c).desc.state ≠ 0) : createResult s c d = 1 := if_pos h

theorem createResult_of_descBad (h : (comp s c).desc.state = 0) (hd : descBad d = true) : createResult s c d = 8 := by
  rw [createResult, if_neg (not_not_intro h), if_pos hd]

theorem createResult_of_clusters (h : (comp s c).desc.state = 0) (hd : descBad d = false)
    (ho : ∃ k, k < 16 ∧ k ≠ c ∧ (comp s k).desc.state ≠ 0 ∧ (comp s k).desc.clusters &&& d.clusters ≠ 0) : createResult s c d = 2 := by
  have hany : ((others s c).any fun k => (comp s k).desc.clusters &&& d.clusters ≠ 0) = true := others_any.mpr (by simpa using ho)
  rw [createResult, if_neg (not_not_intro h), hd, if_neg Bool.false_ne_true, if_pos hany]

theorem resizeResult_of_state (h : (comp s c).desc.state = 0 ∨ 4 ≤ (comp s c).desc.state) : resizeResult s c m = 1 := by
  refine if_pos ?_
  simp only [Bool.and_eq_true, decide_eq_true_eq]
  omega

/-- Of a compartment that holds clusters, what is checked of a RESIZE. -/
theorem resizeResult_of_sized (h1 : 1 ≤ (comp s c).desc.state) (h3 : (comp s c).desc.state ≤ 3) : resizeResult s c m =
    if m = 0 then 8
    else if m ≠ (comp s c).desc.clusters && frozen s c then 6
    else if (others s c).any fun k => (comp s k).desc.clusters &&& m ≠ 0 then 2
    else if resvBad s c m (comp s c).desc.resv (comp s c).desc.resvsz then 4
    else if (comp s c).desc.state = 2 && renumbers (comp s c).desc.clusters m then 7
    else 0 := by
  refine if_neg ?_
  simp only [Bool.and_eq_true, decide_eq_true_eq]
  omega

theorem state_of_resizeResult (h : resizeResult s c m = 0) : 1 ≤ (comp s c).desc.state ∧ (comp s c).desc.state ≤ 3 := by
  by_contra hnot
  rw [resizeResult_of_state (by omega)] at h
  exact absurd h (by decide)

theorem resizeResult_of_none (h1 : 1 ≤ (comp s c).desc.state) (h3 : (comp s c).desc.state ≤ 3) (hm : m = 0) :
    resizeResult s c m = 8 := by
  rw [resizeResult_of_sized h1 h3, if_pos hm]

/-- A set that is as it was may be asked for of a locked interface. -/
theorem resizeResult_of_unlocked (h1 : 1 ≤ (comp s c).desc.state) (h3 : (comp s c).desc.state ≤ 3) (hm : m ≠ 0)
    (hf : m = (comp s c).desc.clusters ∨ frozen s c = false) : resizeResult s c m =
    if (others s c).any fun k => (comp s k).desc.clusters &&& m ≠ 0 then 2
    else if resvBad s c m (comp s c).desc.resv (comp s c).desc.resvsz then 4
    else if (comp s c).desc.state = 2 && renumbers (comp s c).desc.clusters m then 7
    else 0 := by
  have hfree : ¬ (m ≠ (comp s c).desc.clusters && frozen s c) = true := by
    rcases hf with h | h <;> simp [h]
  rw [resizeResult_of_sized h1 h3, if_neg hm, if_neg hfree]

theorem resizeResult_of_clusters (h1 : 1 ≤ (comp s c).desc.state) (h3 : (comp s c).desc.state ≤ 3) (hm : m ≠ 0)
    (hf : m = (comp s c).desc.clusters ∨ frozen s c = false)
    (ho : ∃ k, k < 16 ∧ k ≠ c ∧ (comp s k).desc.state ≠ 0 ∧ (comp s k).desc.clusters &&& m ≠ 0) : resizeResult s c m = 2 := by
  rw [resizeResult_of_unlocked h1 h3 hm hf, if_pos (others_any.mpr (by simpa using ho))]

theorem resizeResult_of_renumbers (h2 : (comp s c).desc.state = 2) (hm : m ≠ 0) (hf : m = (comp s c).desc.clusters ∨ frozen s c = false)
    (ho : ∀ k, k < 16 → k ≠ c → (comp s k).desc.state ≠ 0 → (comp s k).desc.clusters &&& m = 0)
    (hr : resvBad s c m (comp s c).desc.resv (comp s c).desc.resvsz = false) (hn : renumbers (comp s c).desc.clusters m = true) :
    resizeResult s c m = 7 := by
  have hnone : ¬ ((others s c).any fun k => (comp s k).desc.clusters &&& m ≠ 0) = true := fun hany => by
    obtain ⟨k, hk, hne, hs, hc⟩ := others_any.mp hany
    exact of_decide_eq_true hc (ho k hk hne hs)
  rw [resizeResult_of_unlocked (by omega) (by omega) hm hf, if_neg hnone, hr, if_neg Bool.false_ne_true, h2, hn]
  rfl

/-- No cluster goes: every one that is held is in the set. -/
theorem clustersOf_all {a b : BitVec 16} : ((clustersOf a).all fun n => b.getLsbD n) = true ↔ a &&& ~~~b = 0 := by
  simp only [clustersOf, List.all_eq_true, List.mem_filter, List.mem_range]
  refine ⟨fun h => BitVec.eq_of_getLsbD_eq fun n hn => ?_, fun h n hn => ?_⟩
  · have := h n
    cases ha : a.getLsbD n <;> simp_all
  · have hbit := congrArg (BitVec.getLsbD · n) h
    simpa [hn] using hbit

end

/-! ## What an operation leaves (22 R333 to R335) -/

section
variable {s : State} {c : Nat}

theorem exec_create (h : opReady s c = true) (d : Descriptor) : exec (.create c d) s = .next (happen (createComp s c d)) :=
  congrArg Host.Outcome.next (if_pos h)

theorem exec_start (h : opReady s c = true) : exec (.start c) s = .next (happen (startComp s c)) :=
  congrArg Host.Outcome.next (if_pos h)

theorem exec_stop (h : opReady s c = true) : exec (.stop c) s = .next (happen (stopOp s c)) :=
  congrArg Host.Outcome.next (if_pos h)

theorem exec_resize (h : opReady s c = true) (m : BitVec 16) : exec (.resize c m) s = .next (happen (resizeComp s c m)) :=
  congrArg Host.Outcome.next (if_pos h)

theorem comp_setComp_self (s : State) (c : Nat) (x : Comp) : comp (setComp s c x) c = x := by rw [comp_setComp, if_pos rfl]

/-- The descriptor of a compartment whose operation has ended with a result. -/
theorem desc_compResult (r : Nat) (h : (comp s c).desc.state ≠ 5) :
    (comp (compResult s c r) c).desc = { (comp s c).desc with op := 0, result := r } := by
  have hreset : ¬ inReset s c = true := fun hr => h (of_decide_eq_true hr)
  rw [compResult, comp_setComp_self, if_neg hreset]

/-! ### CREATE -/

theorem freeSlotKey_bounds (s : State) (c : Nat) : 1 ≤ freeSlotKey s c ∧ freeSlotKey s c ≤ 31 := by
  unfold freeSlotKey
  cases hfind : ((List.range 31).map (· + 1)).find? fun n => !(others s c).any fun k => (comp s k).desc.keyid = n with
  | none => decide
  | some n =>
    obtain ⟨i, hi, rfl⟩ := List.mem_map.mp (List.mem_of_find?_eq_some hfind)
    have := List.mem_range.mp hi
    rw [Option.getD_some]
    omega

theorem compsStay_ownXlate (s : State) (c keyid colmask : Nat) : CompsStay s (ownXlate s c keyid colmask) := by
  unfold ownXlate
  exact .ite (.refl s) (serves_writeHome s ..).compsStay

/-- The compartment that a CREATE makes. -/
def made (s : State) (c : Nat) (d : Descriptor) : Comp :=
  { comp s c with
    desc := { d with state := 1, op := 0, result := 0, keyid := freeSlotKey s c }
    xlate := { readXlate s d.xlate with keyid := freeSlotKey s c } }

theorem createComp_of_refused {d : Descriptor} (h : createResult s c d ≠ 0) : createComp s c d = compResult s c (createResult s c d) :=
  if_pos h

theorem createComp_makes {d : Descriptor} (h : createResult s c d = 0) :
    CompsStay (setComp (newKey s (freeSlotKey s c)) c (made s c d)) (createComp s c d) := by
  unfold createComp
  dsimp only
  rw [if_neg (not_not_intro h)]
  exact .trans (compsStay_ownXlate ..) (.ite (.refl _) ⟨rfl, rfl⟩)

/-! ### START and STOP -/

/-- From `s` to `t` every compartment's descriptor stands, where error records may have been staged and written (21 R329). -/
def DescsStay (s t : State) : Prop := ∀ k, (comp t k).desc = (comp s k).desc

theorem DescsStay.trans {s t u : State} (h : DescsStay s t) (k : DescsStay t u) : DescsStay s u := fun j => (k j).trans (h j)

theorem CompsStay.descs {s t : State} (h : CompsStay s t) : DescsStay s t := fun k => congrArg Comp.desc (h.comp k)

theorem descsStay_foldl {α : Type} {f : State → α → State} (hf : ∀ s x, DescsStay s (f s x)) (l : List α) (s : State) :
    DescsStay s (l.foldl f s) := by
  induction l generalizing s with
  | nil => exact fun _ => rfl
  | cons x r ih => exact (hf s x).trans (ih (f s x))

theorem compsStay_restoreCrew (s : State) (ck k : Nat) : CompsStay s (restoreCrew s ck k) :=
  (serves_acquireAt s k 4).compsStay.trans (compsStay_foldl (fun s key => compsStay_onTeam s key _) _ _)

theorem descsStay_restoreCheck (s : State) (c ck : Nat) : DescsStay s (restoreCheck s c ck) := by
  have hends : ∀ (u : State) (w v : Nat), DescsStay u
      (if 64 ≤ w then pushErr u c { code := 7 } else if 64 ≤ v then restoreCrew u ck w else u) := fun u w v => by
    split
    · exact (settles_pushErr ..).comps
    · exact CompsStay.descs (.ite (compsStay_restoreCrew ..) (.refl u))
  unfold restoreCheck
  split
  · exact fun _ => rfl
  · exact (compsStay_onCrew ..).descs.trans (hends _ _ _)

/-- A compartment that a START runs. -/
def started (s : State) (x : Comp) : Comp :=
  { x with desc := { x.desc with state := 2 }, owed := 0, runAt := s.time + 2100 * x.owed }

theorem startComp_of_state (h1 : (comp s c).desc.state ≠ 1) (h3 : (comp s c).desc.state ≠ 3) : startComp s c = compResult s c 1 :=
  if_pos (by simp [h1, h3])

theorem startComp_runs (h : (comp s c).desc.state = 1 ∨ (comp s c).desc.state = 3) :
    DescsStay (compResult (setComp s c (started s (comp s c))) c 0) (startComp s c) := by
  have hok : ¬ ((comp s c).desc.state ≠ 1 && (comp s c).desc.state ≠ 3) = true := by
    rcases h with h | h <;> simp [h]
  unfold startComp
  dsimp only
  rw [if_neg hok]
  refine DescsStay.trans ?_ (compsStay_refuse ..).descs
  refine DescsStay.trans ?_ (compsStay_foldl (fun s _ => compsStay_setRegionState s _ 1) _ _).descs
  exact DescsStay.trans (fun _ => rfl) (descsStay_foldl (fun s ck => descsStay_restoreCheck s c ck) _ _)

theorem stopOp_of_state (h : (comp s c).desc.state ≠ 2) : stopOp s c = compResult s c 1 := if_pos h

/-- The compartment while it is being stopped by the operation. -/
def stopsBy (x : Comp) (q : Stop) : Comp := { x with desc := { x.desc with op := 4 }, stop := some q }

theorem compsStay_stopComp (s : State) (c sliceEnd : Nat) (op : Bool) :
    CompsStay (setComp s c { comp s c with stop := some ⟨s.time, sliceEnd, op⟩ }) (stopComp s c sliceEnd op) :=
  (compsStay_foldl (fun s _ => compsStay_setRegionState s _ 2) _ _).trans (compsStay_foldl compsStay_stopCrew _ _)

theorem stopOp_stops (h : (comp s c).desc.state = 2) : ∃ q, q.op = true ∧ comp (stopOp s c) c = stopsBy (comp s c) q := by
  unfold stopOp
  dsimp only
  rw [if_neg (not_not_intro h)]
  split
  · exact ⟨_, rfl, by rw [comp_setComp_self, comp_setComp_self]; rfl⟩
  · exact ⟨_, rfl, by rw [(compsStay_stopComp ..).comp, comp_setComp_self, comp_setComp_self]; rfl⟩

/-! ### RESIZE -/

/-- A RESIZE takes up CLUSTERS as level 2 has written it. -/
def takenUp (s : State) (c : Nat) : State := setComp s c { comp s c with written := none }

theorem desc_takenUp (s : State) (c : Nat) : (comp (takenUp s c) c).desc = (comp s c).desc := by rw [takenUp, comp_setComp_self]

theorem desc_takeClusters (s : State) (c : Nat) (m : BitVec 16) :
    (comp (takeClusters s c m) c).desc = { (comp s c).desc with clusters := m } := by
  rw [(compsStay_takeClusters s c m).comp, comp_setComp_self]

variable {m : BitVec 16}

theorem resizeComp_of_refused (h : resizeResult s c m ≠ 0) : resizeComp s c m = compResult s c (resizeResult s c m) := if_pos h

/-- The crews of a compartment that does not run leave their cores first. -/
theorem resizeComp_saved (h : resizeResult s c m = 0) (hs : (comp s c).desc.state ≠ 2) :
    resizeComp s c m = compResult (takeClusters (unseat (takenUp s c) c) c m) c 0 := by
  unfold resizeComp
  dsimp only
  rw [if_neg (not_not_intro h), comp_setComp_self, if_pos hs, takenUp]

theorem resizeComp_grows (h : resizeResult s c m = 0) (h2 : (comp s c).desc.state = 2) (hm : (comp s c).desc.clusters &&& ~~~m = 0) :
    resizeComp s c m = compResult (takeClusters (takenUp s c) c m) c 0 := by
  unfold resizeComp
  dsimp only
  rw [if_neg (not_not_intro h), comp_setComp_self, if_neg (not_not_intro h2), if_pos (clustersOf_all.mpr hm), takenUp]

theorem desc_applied {u : State} (h : resizeResult s c m = 0) (hu : (comp u c).desc = (comp s c).desc) :
    (comp (compResult (takeClusters u c m) c 0) c).desc = { (comp s c).desc with clusters := m, op := 0, result := 0 } := by
  have hstate : (comp s c).desc.state ≠ 5 := by
    have := (state_of_resizeResult h).2
    omega
  have hdesc : (comp (takeClusters u c m) c).desc = { (comp s c).desc with clusters := m } := by rw [desc_takeClusters, hu]
  rw [desc_compResult _ (by rw [hdesc]; exact hstate), hdesc]

theorem resizeComp_applies (h : resizeResult s c m = 0) (hm : (comp s c).desc.state ≠ 2 ∨ (comp s c).desc.clusters &&& ~~~m = 0) :
    (comp (resizeComp s c m) c).desc = { (comp s c).desc with clusters := m, op := 0, result := 0 } := by
  by_cases h2 : (comp s c).desc.state = 2
  · rw [resizeComp_grows h h2 (hm.resolve_left (not_not_intro h2)), desc_applied h (desc_takenUp s c)]
  · rw [resizeComp_saved h h2, desc_applied h ((congrArg Comp.desc ((compsStay_unseat ..).comp c)).trans (desc_takenUp s c))]

/-- A cluster that a running compartment loses leaves it first (15 R283). -/
theorem resizeComp_removes (h : resizeResult s c m = 0) (h2 : (comp s c).desc.state = 2) (hm : (comp s c).desc.clusters &&& ~~~m ≠ 0) :
    ∃ w, comp (resizeComp s c m) c =
      { comp s c with desc := { (comp s c).desc with op := 2 }, written := none, leaving := some ⟨m, w, none⟩ } := by
  unfold resizeComp
  dsimp only
  rw [if_neg (not_not_intro h), comp_setComp_self, if_neg (not_not_intro h2), if_neg (mt clustersOf_all.mp hm), comp_setComp_self,
    comp_setComp_self]
  exact ⟨_, rfl⟩

end

/-- Settles O54: each operation by the result that its checks give; what follows an event changes no compartment. -/
theorem compartmentOperations : Obligations.CompartmentOperations := by
  unfold Obligations.CompartmentOperations
  refine ⟨fun s c d h hr => ?refused, fun s c d h hr => ?makes, fun s c d => ⟨createResult_of_state, createResult_of_descBad, createResult_of_clusters⟩,
    fun s c h => ⟨fun hs => ?runs, fun h1 h3 => ?notStarted, fun h2 => ?notStopped⟩,
    fun s c m h => ⟨fun hs => ?noClusters, fun h1 h3 hm => ?none, fun h1 h3 hm hf ho => ?anothers, fun h2 hm hf ho hr hn => ?renumbered,
      fun hr _ => ⟨fun hm => ?applied, fun h2 hm => ?removed⟩⟩,
    fun s c h _ h2 => ?stops⟩
  case refused => rw [exec_create h, createComp_of_refused hr]
  case makes =>
    obtain ⟨hone, htop⟩ := freeSlotKey_bounds s c
    have hstay := (createComp_makes hr).trans (compsStay_happen _)
    have hmade : comp (happen (createComp s c d)) c = made s c d := by rw [hstay.comp, comp_setComp_self]
    refine ⟨_, freeSlotKey s c, exec_create h d, hone, htop, ?_⟩
    rw [hmade, hstay.keyGen]
    exact ⟨rfl, rfl, rfl, rfl, rfl, rfl, by rw [setComp_keyGen, newKey, Tab.getD_put, if_pos rfl]⟩
  case runs =>
    have hdesc := startComp_runs hs c
    rw [desc_compResult _ (by rw [comp_setComp_self]; exact (by decide : (2 : Nat) ≠ 5)), comp_setComp_self] at hdesc
    exact ⟨_, exec_start h, by rw [comp_happen, hdesc]; exact ⟨rfl, rfl⟩⟩
  case notStarted => rw [exec_start h, startComp_of_state h1 h3]
  case notStopped => rw [exec_stop h, stopOp_of_state h2]
  case noClusters => rw [exec_resize h, resizeComp_of_refused] <;> rw [resizeResult_of_state hs]; decide
  case none => rw [exec_resize h, resizeComp_of_refused] <;> rw [resizeResult_of_none h1 h3 hm]; decide
  case anothers => rw [exec_resize h, resizeComp_of_refused] <;> rw [resizeResult_of_clusters h1 h3 hm hf ho]; decide
  case renumbered => rw [exec_resize h, resizeComp_of_refused] <;> rw [resizeResult_of_renumbers h2 hm hf ho hr hn]; decide
  case applied =>
    have hdesc := resizeComp_applies hr hm
    exact ⟨_, exec_resize h m, by rw [comp_happen, hdesc]; exact ⟨rfl, rfl, rfl⟩⟩
  case removed =>
    obtain ⟨w, hcomp⟩ := resizeComp_removes hr h2 hm
    exact ⟨_, ⟨m, w, none⟩, exec_resize h m, by rw [comp_happen, hcomp]; exact ⟨rfl, rfl, rfl, rfl⟩⟩
  case stops =>
    obtain ⟨q, hq, hcomp⟩ := stopOp_stops h2
    exact ⟨_, q, exec_stop h, by rw [comp_happen, hcomp]; exact ⟨h2, rfl, rfl, hq⟩⟩

end Sys2Proof.Machine

/-! # The events of the device (95)

The occurrence of each event is its arm, but for the vendor-defined request: its arm sets the IDE key that the request names (21 R324),
which `eventOf` does not. Whether a request names one is a free value (log 10), so that `Obligations.EventsHappen` is neither provable
nor refutable: `eventsHappen_iff` says which values it holds for. -/

namespace Sys2Proof.Machine

open Sys2Proof.Spec

theorem exec_eq_occur {e : Instr} {can : State → Bool} {does : State → State} (h : eventOf e = some (can, does))
    (hvendor : ∀ m, e ≠ .vendorDefinedRequest m) (s : State) : exec e s = occur (can s) does s := by
  cases e
  case vendorDefinedRequest m => exact absurd rfl (hvendor m)
  case memoryRequestPerformed req ecc =>
    cases h
    change execMemoryRequestPerformed req ecc s = _
    unfold execMemoryRequestPerformed
    cases helse : eccElsewhere s ecc <;> simp [occur, helse]
  all_goals cases h
  all_goals rfl

/-- No function has a selective stream that the request could name. -/
theorem setIdeKey_of_no_stream {m : Spdm} (h : ∀ f key, Config.ideKey m.body = some (f, key) → ideStreams ≤ f) (s : State) :
    setIdeKey s m = s := by
  unfold setIdeKey
  split
  · rename_i f key hkey
    have hout : ¬ f < ideStreams := Nat.not_lt.mpr (h f key hkey)
    simp [hout]
  · rfl

/-- A device with one session, whose handshake has ended. -/
def talking : State := { powered := true, sce := { phase := 3, sessions := [⟨0, true, 0, 0⟩] } }

/-- A request in that session. -/
def vendorRequest (b : List Byte) : Spdm := ⟨0, 0, 0, 0, b⟩

theorem setIdeKey_talking {b key : List Byte} {f : Nat} (hkey : Config.ideKey b = some (f, key)) (hf : f < ideStreams) :
    setIdeKey talking (vendorRequest b) = { talking with ide := [(f, { session := 0, key := key })] } := by
  unfold setIdeKey vendorRequest
  rw [hkey]
  exact if_pos (by simpa [talking] using hf)

/-- The occurrence that `eventOf` names sets no key, where the arm of the request sets one. -/
theorem eventsHappen_iff : Obligations.EventsHappen ↔ ∀ b f key, Config.ideKey b = some (f, key) → ideStreams ≤ f := by
  unfold Obligations.EventsHappen
  refine ⟨fun h b f key hkey => Nat.not_lt.mp fun hf => ?sets, fun h e can does he s => ?occurs⟩
  case sets =>
    obtain ⟨t, ht, hdoes⟩ := h (.vendorDefinedRequest (vendorRequest b)) _ _ rfl talking
    have hexec : exec (.vendorDefinedRequest (vendorRequest b)) talking =
        .next (happen (spdmReply (setIdeKey talking (vendorRequest b)) 0xFE 0 0 (Config.vendorReply b))) := rfl
    rw [hexec, setIdeKey_talking hkey hf] at ht
    have hset : t.ide = [(f, { session := 0, key := key })] := (congrArg State.ide (Host.Outcome.next.inj ht)).symm
    have hunset : t.ide = [] := congrArg State.ide hdoes
    rw [hset] at hunset
    cases hunset
  case occurs =>
    by_cases hvendor : ∀ m, e ≠ .vendorDefinedRequest m
    · exact ⟨_, exec_eq_occur he hvendor s, rfl⟩
    · push Not at hvendor
      obtain ⟨m, rfl⟩ := hvendor
      cases he
      refine ⟨_, rfl, ?_⟩
      simp only [setIdeKey_of_no_stream (h m.body)]

end Sys2Proof.Machine
